-- ==== Sys2Proof/Word.lean ====
section
/-! DEFINITION. The word types of the device (R6, R7, R9) and the plainest arithmetic on them. -/

namespace Sys2Proof

/-- A byte of memory (R7). -/
abbrev Byte := BitVec 8

/-- A 32-bit register value (R15). -/
abbrev Word := BitVec 32

/-- A 64-bit value: a program counter, an even-odd pair, an address (R15, R16). -/
abbrev DWord := BitVec 64

/-- A set of lanes of one band; bit `l` is lane `l` (R167: at most 64 lanes). -/
abbrev LaneSet := BitVec 64

/-- A table from numbers to values, kept with strictly rising keys. -/
abbrev Tbl (α : Type) := List (Nat × α)

/-- Sparse memory: a byte for each listed address, in canonical form (see `Memory.wf`). -/
abbrev Memory := List (Nat × Byte)

/-- The signed value of an n-bit pattern (R80, `sval`). -/
abbrev sval {n : Nat} (x : BitVec n) : Int := x.toInt

/-- The unsigned value of an n-bit pattern (R80, `zval`). -/
abbrev zval {n : Nat} (x : BitVec n) : Int := Int.ofNat x.toNat

end Sys2Proof
end

