-- ==== Sys2Proof/Syntax.lean ====
section
/-! DEFINITION. The instruction set and the events of the device, as data: `Instr` has one constructor for
each row of spec/opcode_table.json. The program instructions carry their control header (R47) and a
structure of decoded operands; the rows that the table adds for the device's own steps
(95_what_each_step_holds.md) carry what names the object they act on. -/

namespace Sys2Proof

/-- The control header without LEN and OPC, which the constructor fixes (R47). -/
structure Hdr where
  stall : BitVec 4
  wait : BitVec 6
  sett : BitVec 3
  hold : BitVec 2
  pred : BitVec 3
  pneg : Bool
  deriving DecidableEq, Repr, Inhabited

/-- A source operand that may be vector or uniform (R53, R54). -/
inductive Src where
  | v (r : BitVec 8)
  | u (r : BitVec 6)
  deriving DecidableEq, Repr, Inhabited

/-- A destination that may be vector or uniform (R136, UD). -/
inductive Dst where
  | v (r : BitVec 8)
  | u (r : BitVec 6)
  deriving DecidableEq, Repr, Inhabited

/-- The integer types of R55, in code order. -/
inductive IType where
  | s32 | z32 | s64 | z64 | s16 | z16 | s8 | z8
  deriving DecidableEq, Repr, Inhabited

/-- The integer conditions of R128, in code order. -/
inductive ICond where
  | eq | ne | lt | le | gt | ge
  deriving DecidableEq, Repr, Inhabited

/-- The floating-point conditions of R154, in code order. -/
inductive FCond where
  | eq | ne | lt | le | gt | ge | un | ord
  deriving DecidableEq, Repr, Inhabited

/-- The rounding field of R56, in code order; `rdyn` takes FSTAT.RM. -/
inductive Rnd where
  | rne | rtz | rdn | rup | rdyn
  deriving DecidableEq, Repr, Inhabited

/-! ### Operands of groups 0 to 3 (R125 to R141) -/

structure Int2 where
  d : BitVec 8
  a : Src
  b : Src
  t : IType
  deriving DecidableEq, Repr, Inhabited

structure Int1 where
  d : BitVec 8
  a : Src
  t : IType
  deriving DecidableEq, Repr, Inhabited

structure Int3 where
  d : BitVec 8
  a : Src
  b : Src
  c : BitVec 8
  t : IType
  deriving DecidableEq, Repr, Inhabited

structure IntI where
  d : BitVec 8
  a : Src
  imm : Word
  t : IType
  deriving DecidableEq, Repr, Inhabited

structure Cmp2 where
  p : BitVec 3
  a : Src
  b : Src
  t : IType
  cc : ICond
  deriving DecidableEq, Repr, Inhabited

structure CmpI where
  p : BitVec 3
  a : Src
  imm : Word
  t : IType
  cc : ICond
  deriving DecidableEq, Repr, Inhabited

structure Log2 where
  d : BitVec 8
  a : Src
  b : Src
  w64 : Bool
  deriving DecidableEq, Repr, Inhabited

structure Log1 where
  d : BitVec 8
  a : Src
  w64 : Bool
  deriving DecidableEq, Repr, Inhabited

structure LogI where
  d : BitVec 8
  a : Src
  imm : Word
  w64 : Bool
  deriving DecidableEq, Repr, Inhabited

/-- Two sources and no type: `bperm`, `clmul`. -/
structure Bin where
  d : BitVec 8
  a : Src
  b : Src
  deriving DecidableEq, Repr, Inhabited

structure Lop3 where
  d : BitVec 8
  a : Src
  b : Src
  c : BitVec 8
  lut : BitVec 8
  w64 : Bool
  deriving DecidableEq, Repr, Inhabited

structure Fsh where
  d : BitVec 8
  a : Src
  b : Src
  c : BitVec 8
  right : Bool
  deriving DecidableEq, Repr, Inhabited

structure Bfe where
  d : BitVec 8
  a : Src
  pos : BitVec 8
  len : BitVec 8
  t : IType
  deriving DecidableEq, Repr, Inhabited

structure Bfi where
  d : BitVec 8
  a : Src
  b : Src
  pos : BitVec 8
  len : BitVec 8
  w64 : Bool
  deriving DecidableEq, Repr, Inhabited

structure PLog where
  d : BitVec 3
  a : BitVec 3
  b : BitVec 3
  na : Bool
  nb : Bool
  deriving DecidableEq, Repr, Inhabited

structure PNot where
  d : BitVec 3
  a : BitVec 3
  deriving DecidableEq, Repr, Inhabited

structure V2p where
  a : BitVec 8
  mask : BitVec 7
  deriving DecidableEq, Repr, Inhabited

structure Isel where
  d : BitVec 8
  a : Src
  b : Src
  ps : BitVec 3
  pn : Bool
  w64 : Bool
  deriving DecidableEq, Repr, Inhabited

structure IselI where
  d : BitVec 8
  a : Src
  imm : Word
  ps : BitVec 3
  pn : Bool
  deriving DecidableEq, Repr, Inhabited

structure Mov where
  d : Dst
  a : Src
  w64 : Bool
  deriving DecidableEq, Repr, Inhabited

/-- `mov d, v[vk]`: `k` names the index register. -/
structure MovRd where
  d : Dst
  k : Src
  deriving DecidableEq, Repr, Inhabited

/-- `mov v[vk], a`: `k` names the index register, which is read. -/
structure MovWr where
  k : BitVec 8
  a : Src
  deriving DecidableEq, Repr, Inhabited

structure Movi where
  d : Dst
  imm : Word
  deriving DecidableEq, Repr, Inhabited

structure Movw where
  d : Dst
  imm : DWord
  deriving DecidableEq, Repr, Inhabited

structure Lea where
  d : BitVec 8
  base : Src
  idx : Src
  disp : BitVec 24
  sh : BitVec 4
  sx : Bool
  w64 : Bool
  deriving DecidableEq, Repr, Inhabited

structure CallOp where
  d : BitVec 8
  off : Word
  deriving DecidableEq, Repr, Inhabited

/-! ### Operands of groups 4 to 6 (R148 to R164) -/

structure F2 where
  d : BitVec 8
  a : Src
  b : Src
  rnd : Rnd
  ftz : Bool
  na : Bool
  nb : Bool
  deriving DecidableEq, Repr, Inhabited

structure FDiv where
  d : BitVec 8
  a : Src
  b : Src
  rnd : Rnd
  ftz : Bool
  deriving DecidableEq, Repr, Inhabited

structure FMm where
  d : BitVec 8
  a : Src
  b : Src
  ftz : Bool
  deriving DecidableEq, Repr, Inhabited

structure F1 where
  d : BitVec 8
  a : Src
  rnd : Rnd
  ftz : Bool
  deriving DecidableEq, Repr, Inhabited

structure FCls where
  d : BitVec 8
  a : Src
  deriving DecidableEq, Repr, Inhabited

structure F3 where
  d : BitVec 8
  a : Src
  b : Src
  c : BitVec 8
  rnd : Rnd
  ftz : Bool
  np : Bool
  nc : Bool
  deriving DecidableEq, Repr, Inhabited

structure FI where
  d : BitVec 8
  a : Src
  imm : Word
  rnd : Rnd
  ftz : Bool
  na : Bool
  deriving DecidableEq, Repr, Inhabited

structure FMmI where
  d : BitVec 8
  a : Src
  imm : Word
  ftz : Bool
  deriving DecidableEq, Repr, Inhabited

structure FCmp where
  p : BitVec 3
  a : Src
  b : Src
  cc : FCond
  ftz : Bool
  sig : Bool
  deriving DecidableEq, Repr, Inhabited

structure FCmpI where
  p : BitVec 3
  a : Src
  imm : Word
  cc : FCond
  ftz : Bool
  sig : Bool
  deriving DecidableEq, Repr, Inhabited

/-- The format codes of R160, in code order. -/
inductive CvFmt where
  | f32 | f16 | bf16 | e4m3 | e5m2
  deriving DecidableEq, Repr, Inhabited

structure Fcvt where
  d : BitVec 8
  a : Src
  rnd : Rnd
  ftz : Bool
  ovr : Bool
  df : CvFmt
  sf : CvFmt
  sel : BitVec 2
  deriving DecidableEq, Repr, Inhabited

/-- The float side of `icvt` (R163, FF). -/
inductive IFmt where
  | f32 | f16 | bf16
  deriving DecidableEq, Repr, Inhabited

structure Icvt where
  d : BitVec 8
  a : Src
  toInt : Bool
  rnd : Rnd
  ftz : Bool
  ff : IFmt
  t : IType
  deriving DecidableEq, Repr, Inhabited

/-- The result format of `fpack` (R162, PF). -/
inductive PFmt where
  | f16 | bf16 | e4m3 | e5m2
  deriving DecidableEq, Repr, Inhabited

structure Fpack where
  d : BitVec 8
  a : Src
  b : BitVec 8
  ovr : Bool
  rnd : Rnd
  ftz : Bool
  pf : PFmt
  deriving DecidableEq, Repr, Inhabited

structure Hfma2 where
  d : BitVec 8
  a : Src
  b : Src
  c : BitVec 8
  rnd : Rnd
  ftz : Bool
  bf : Bool
  deriving DecidableEq, Repr, Inhabited

/-- The element formats of `dot4` (R159, EF), in code order. -/
inductive Dot4Fmt where
  | e4e4 | e4e5 | e5e4 | e5e5 | f16 | bf16
  deriving DecidableEq, Repr, Inhabited

structure Dot4 where
  d : BitVec 8
  a : Src
  b : Src
  c : BitVec 8
  rnd : Rnd
  ftz : Bool
  ef : Dot4Fmt
  deriving DecidableEq, Repr, Inhabited

/-- The kinds of `dcvt` (R164), in code order. -/
inductive DKind where
  | f64 | f32 | s32 | z32 | s64 | z64
  deriving DecidableEq, Repr, Inhabited

structure Dcvt where
  d : BitVec 8
  a : Src
  rnd : Rnd
  ftz : Bool
  dk : DKind
  sk : DKind
  deriving DecidableEq, Repr, Inhabited

/-! ### Operands of groups 7 and 8 (R213 to R228) -/

/-- The B operand of an exchange (R213, BSRC). -/
inductive XB where
  | v (r : BitVec 8)
  | u (r : BitVec 6)
  | lit (n : BitVec 6)
  deriving DecidableEq, Repr, Inhabited

structure Xchg where
  d : BitVec 8
  a : BitVec 8
  b : XB
  w64 : Bool
  pv : BitVec 3
  deriving DecidableEq, Repr, Inhabited

structure Vote where
  p : BitVec 3
  s : BitVec 3
  ns : Bool
  deriving DecidableEq, Repr, Inhabited

structure Ballot where
  d : Dst
  s : BitVec 3
  ns : Bool
  m64 : Bool
  deriving DecidableEq, Repr, Inhabited

structure Match where
  d : BitVec 8
  a : BitVec 8
  w64 : Bool
  m64 : Bool
  pl : BitVec 3
  deriving DecidableEq, Repr, Inhabited

/-- The operations of `redb` (R217), in code order. -/
inductive RedbOp where
  | addb | mins | maxs | minz | maxz | andb | orb | xorb | addf | minf | maxf
  deriving DecidableEq, Repr, Inhabited

structure Redb where
  d : Dst
  a : BitVec 8
  rnd : Rnd
  ftz : Bool
  op : RedbOp
  deriving DecidableEq, Repr, Inhabited

/-- The special registers of R22, in selector order. -/
inductive SReg where
  | lane | bandw | band | nband | blkx | blky | blkz | nblkx | nblky | nblkz | blane
  | core | cluster | die | hdie | profile | orient | ctime | launch
  deriving DecidableEq, Repr, Inhabited

structure Sread where
  d : Dst
  sel : SReg
  deriving DecidableEq, Repr, Inhabited

/-- A barrier number (R225, UN). -/
inductive BNum where
  | lit (n : BitVec 4)
  | u (r : BitVec 6)
  deriving DecidableEq, Repr, Inhabited

/-- The level of a barrier (R225, SCOPE; R371, BS), in code order. -/
inductive BScope where
  | blk | clu | die | grid
  deriving DecidableEq, Repr, Inhabited

structure Bar where
  n : BNum
  sc : BScope
  deriving DecidableEq, Repr, Inhabited

structure BarInit where
  n : BNum
  sc : BScope
  count : Word
  deriving DecidableEq, Repr, Inhabited

/-! ### Operands of groups 9 to 11 (R306 to R336) -/

/-- The consistency scopes of R270, in the code order of R307. -/
inductive Scope where
  | band | blk | clu | die | dev | sys
  deriving DecidableEq, Repr, Inhabited

/-- The access sizes of R307, in code order. -/
inductive LSize where
  | z8 | s8 | z16 | s16 | b32 | b64 | b128
  deriving DecidableEq, Repr, Inhabited

/-- The ordering forms of a load or a store (R307, ORD): `sync` is acquire for loads and release for stores. -/
inductive LOrd where
  | rlx
  | sync (s : Scope)
  | unc
  deriving DecidableEq, Repr, Inhabited

structure Ld where
  d : BitVec 8
  base : Src
  sz : LSize
  ord : LOrd
  disp : BitVec 24
  deriving DecidableEq, Repr, Inhabited

structure St where
  base : Src
  b : Src
  sz : LSize
  ord : LOrd
  disp : BitVec 24
  deriving DecidableEq, Repr, Inhabited

structure Ldf where
  d : BitVec 8
  base : Src
  idx : Src
  disp : BitVec 24
  deriving DecidableEq, Repr, Inhabited

structure Ldw where
  d : BitVec 8
  base : Src
  sz : LSize
  disp : BitVec 24
  deriving DecidableEq, Repr, Inhabited

/-- The kinds of a fence (R321). -/
inductive FKind where
  | acq | rel | ar
  deriving DecidableEq, Repr, Inhabited

structure Fence where
  k : FKind
  sc : Scope
  deriving DecidableEq, Repr, Inhabited

/-- The operand of `lflush` and `linv` (R323): every line, or the lines that the base names. -/
inductive LineSel where
  | all
  | lines (base : Src)
  deriving DecidableEq, Repr, Inhabited

/-- The ordering of an atomic or reduction (R316). -/
inductive AOrd where
  | rlx
  | acq (s : Scope)
  | rel (s : Scope)
  | ar (s : Scope)
  deriving DecidableEq, Repr, Inhabited

/-- The operations of R317, in code order. -/
inductive AOp where
  | add | sub | mins | maxs | minz | maxz | and | or | xor | exch | cas | inc | dec | addf | minf | maxf
  deriving DecidableEq, Repr, Inhabited

structure Atom where
  d : BitVec 8
  base : Src
  b : Src
  c : BitVec 8
  ord : AOrd
  op : AOp
  w64 : Bool
  disp : BitVec 16
  deriving DecidableEq, Repr, Inhabited

structure Red where
  base : Src
  b : Src
  ord : AOrd
  op : AOp
  w64 : Bool
  disp : BitVec 16
  deriving DecidableEq, Repr, Inhabited

structure Prf where
  base : Src
  disp : BitVec 24
  own : Bool
  deriving DecidableEq, Repr, Inhabited

structure RngCommit where
  a : BitVec 6
  mask : Word
  deriving DecidableEq, Repr, Inhabited

structure StrmPos where
  d : BitVec 6
  k : BitVec 3
  deriving DecidableEq, Repr, Inhabited

structure StrmSet where
  k : BitVec 3
  a : BitVec 6
  deriving DecidableEq, Repr, Inhabited

structure StrmEnd where
  p : BitVec 3
  k : BitVec 3
  clr : Bool
  deriving DecidableEq, Repr, Inhabited

/-- The element kinds of R331, in code order. -/
inductive SKind where
  | b32 | z8 | s8 | z16 | s16 | fmt | fmtx
  deriving DecidableEq, Repr, Inhabited

structure StrmCfg where
  k : BitVec 3
  a : BitVec 6
  push : Bool
  wrap : Bool
  lst : Bool
  ndim : BitVec 2
  kind : SKind
  xefmt : BitVec 4
  xegeo : BitVec 2
  deriving DecidableEq, Repr, Inhabited

/-! ### Operands of groups 12 to 14 (R370 to R413) -/

/-- The counter classes of R370, in code order. -/
inductive CCls where
  | cpy | mma | strm | rmt
  deriving DecidableEq, Repr, Inhabited

structure Waitc where
  thr : BitVec 9
  cls : CCls
  deriving DecidableEq, Repr, Inhabited

structure RingWait where
  r : BitVec 3
  k : BitVec 3
  deriving DecidableEq, Repr, Inhabited

structure RingRel where
  r : BitVec 3
  deriving DecidableEq, Repr, Inhabited

structure RingInit where
  r : BitVec 3
  slots : BitVec 4
  base : BitVec 20
  z : BitVec 11
  deriving DecidableEq, Repr, Inhabited

/-- The destination kinds of a copy (R371, DK), in code order. -/
inductive CDst where
  | glob | scr | ring | regs
  deriving DecidableEq, Repr, Inhabited

/-- The barrier that a copy names (R371, BE, BN, BS). -/
structure CBar where
  n : BitVec 4
  sc : BScope
  deriving DecidableEq, Repr, Inhabited

structure Cpy where
  d : BitVec 6
  a : BitVec 6
  q : BitVec 6
  scr : Bool
  dk : CDst
  scope : Scope
  bar : Option CBar
  rn : BitVec 3
  bmask : Word
  deriving DecidableEq, Repr, Inhabited

/-- A format override (R378, XF). -/
structure XFmt where
  efmt : BitVec 4
  egeo : BitVec 2
  deriving DecidableEq, Repr, Inhabited

structure CpyPl where
  x : BitVec 4
  a : BitVec 6
  q : BitVec 6
  scope : Scope
  bar : Option CBar
  xf : Option XFmt
  deriving DecidableEq, Repr, Inhabited

/-- The mask of `gang.set` (R384, UM). -/
inductive GMask where
  | lit (m : BitVec 16)
  | u (r : BitVec 6)
  deriving DecidableEq, Repr, Inhabited

structure TileGet where
  d : BitVec 6
  x : BitVec 4
  hi : Bool
  deriving DecidableEq, Repr, Inhabited

/-- A predecessor of a matrix command (R386). -/
inductive Pred where
  | none
  | cmd (n : BitVec 6)
  | ring (r : BitVec 3) (k : BitVec 3)
  deriving DecidableEq, Repr, Inhabited

/-- The fields common to matrix commands (R386). -/
structure MFields where
  id : BitVec 6
  p0 : Pred
  p1 : Pred
  deriving DecidableEq, Repr, Inhabited

structure AccClr where
  acc : BitVec 3
  m : MFields
  x : BitVec 16
  deriving DecidableEq, Repr, Inhabited

/-- The source of `tile.set` (R387, SRC). -/
inductive TSrc where
  | ext (w : DWord)
  | u (r : BitVec 6)
  deriving DecidableEq, Repr, Inhabited

structure TileSet where
  x : BitVec 4
  src : TSrc
  deriving DecidableEq, Repr, Inhabited

structure Mma where
  acc : BitVec 3
  xa : BitVec 4
  xb : BitVec 4
  m : MFields
  deriving DecidableEq, Repr, Inhabited

structure PlanePack where
  x : BitVec 4
  a : BitVec 6
  st : BitVec 6
  m : MFields
  s16 : Bool
  scale : BitVec 16
  deriving DecidableEq, Repr, Inhabited

structure PlaneUnpack where
  x : BitVec 4
  a : BitVec 6
  st : BitVec 6
  m : MFields
  s16 : Bool
  deriving DecidableEq, Repr, Inhabited

/-- Where `acc.rd` puts its elements (R392, DK). -/
inductive ArDst where
  | regs (d : BitVec 8)
  | scr (a : BitVec 6) (st : BitVec 6)
  deriving DecidableEq, Repr, Inhabited

/-- The element formats of `acc.rd` (R392, CF), in code order. -/
inductive AccFmt where
  | f32 | bf16 | e4m3 | e5m2
  deriving DecidableEq, Repr, Inhabited

/-- A rectangle of accumulator cells (R392). -/
structure Rect where
  row0 : BitVec 6
  rows : BitVec 7
  col0 : BitVec 6
  cols : BitVec 7
  deriving DecidableEq, Repr, Inhabited

structure AccRd where
  dst : ArDst
  m : MFields
  acc : BitVec 3
  cf : AccFmt
  ovr : Bool
  rnd : Rnd
  ftz : Bool
  rect : Rect
  raw : Bool
  deriving DecidableEq, Repr, Inhabited

structure AccWr where
  a : BitVec 6
  st : BitVec 6
  m : MFields
  acc : BitVec 3
  rect : Rect
  add : Bool
  deriving DecidableEq, Repr, Inhabited

structure CbtLd where
  a : BitVec 6
  m : MFields
  deriving DecidableEq, Repr, Inhabited

/-- The target of `migr` (R412, TGT), in code order. -/
inductive MTgt where
  | annex | gallery | home
  deriving DecidableEq, Repr, Inhabited

/-- The operand of `tlbinv` (R412, KIND). -/
inductive TKind where
  | all
  | asid (r : BitVec 6)
  | va (a : BitVec 6) (r : BitVec 6)
  deriving DecidableEq, Repr, Inhabited

structure CsrRd where
  d : Dst
  num : BitVec 12
  deriving DecidableEq, Repr, Inhabited

structure CsrWr where
  num : BitVec 12
  a : Src
  deriving DecidableEq, Repr, Inhabited

/-! ### What names the object of a device event -/

/-- A unit of the condition map whose retirement `UNIT_RETIREMENT` reports (R513); with a channel the codewords of it that
firmware cannot read (R514). -/
inductive HUnit where
  | slice (n : Nat)
  | channel (n : Nat) (lost : List Nat)
  | dieLink (n : Nat)
  | port (n : Nat)
  | hostLink
  deriving DecidableEq, Repr, Inhabited

/-- How the host reaches BAR 0 of a function (R499, R504): the function, and whether the access arrives on the function's IDE
stream with T = 1. -/
structure Via where
  fn : Nat
  tee : Bool
  deriving DecidableEq, Repr, Inhabited

/-- A host access to the coherent window (R501, R502): a write-back of no bytes gives an unwritten line back. -/
inductive HostAcc where
  | read (pa : Nat)
  | write (pa : Nat) (b : Byte)
  | hold (line : Nat)
  | writeback (line : Nat) (data : List Byte)
  deriving DecidableEq, Repr, Inhabited

/-- An access of the window and how the host makes it (R504). -/
structure WinAcc where
  via : Via
  acc : HostAcc
  deriving DecidableEq, Repr, Inhabited

/-- What a received Solust flit brings: whether it is good, the number below which it acknowledges flits, and whether it asks
for those from there on again (R492). -/
structure FlitRx where
  good : Bool
  ack : Nat
  again : Bool
  deriving DecidableEq, Repr, Inhabited

/-- One row of spec/opcode_table.json each, in the table's order. -/
inductive Instr where
  -- group 0: integer arithmetic (R125, R128)
  | iadd (h : Hdr) (o : Int2)
  | isub (h : Hdr) (o : Int2)
  | imul (h : Hdr) (o : Int2)
  | imulh (h : Hdr) (o : Int2)
  | ineg (h : Hdr) (o : Int1)
  | iabs (h : Hdr) (o : Int1)
  | imin (h : Hdr) (o : Int2)
  | imax (h : Hdr) (o : Int2)
  | iaddsat (h : Hdr) (o : Int2)
  | isubsat (h : Hdr) (o : Int2)
  | icmp (h : Hdr) (o : Cmp2)
  | idiv (h : Hdr) (o : Int2)
  | irem (h : Hdr) (o : Int2)
  | imad (h : Hdr) (o : Int3)
  | imadw (h : Hdr) (o : Int3)
  | iclamp (h : Hdr) (o : Int3)
  | iaddImm (h : Hdr) (o : IntI)
  | isubImm (h : Hdr) (o : IntI)
  | imulImm (h : Hdr) (o : IntI)
  | iminImm (h : Hdr) (o : IntI)
  | imaxImm (h : Hdr) (o : IntI)
  | icmpImm (h : Hdr) (o : CmpI)
  | idivImm (h : Hdr) (o : IntI)
  | iremImm (h : Hdr) (o : IntI)
  -- group 1: logic and bits (R130)
  | and (h : Hdr) (o : Log2)
  | or (h : Hdr) (o : Log2)
  | xor (h : Hdr) (o : Log2)
  | andn (h : Hdr) (o : Log2)
  | not (h : Hdr) (o : Log1)
  | shl (h : Hdr) (o : Log2)
  | shr (h : Hdr) (o : Log2)
  | sar (h : Hdr) (o : Log2)
  | rol (h : Hdr) (o : Log2)
  | ror (h : Hdr) (o : Log2)
  | popc (h : Hdr) (o : Log1)
  | clz (h : Hdr) (o : Log1)
  | ctz (h : Hdr) (o : Log1)
  | brev (h : Hdr) (o : Log1)
  | bperm (h : Hdr) (o : Bin)
  | clmulLo (h : Hdr) (o : Bin)
  | clmulHi (h : Hdr) (o : Bin)
  | lop3 (h : Hdr) (o : Lop3)
  | fsh (h : Hdr) (o : Fsh)
  | bfe (h : Hdr) (o : Bfe)
  | bfi (h : Hdr) (o : Bfi)
  | andImm (h : Hdr) (o : LogI)
  | orImm (h : Hdr) (o : LogI)
  | xorImm (h : Hdr) (o : LogI)
  | shlImm (h : Hdr) (o : LogI)
  | shrImm (h : Hdr) (o : LogI)
  | sarImm (h : Hdr) (o : LogI)
  | rolImm (h : Hdr) (o : LogI)
  | rorImm (h : Hdr) (o : LogI)
  -- group 2: predicates, moves, select, address (R129, R136, R140)
  | pand (h : Hdr) (o : PLog)
  | por (h : Hdr) (o : PLog)
  | pxor (h : Hdr) (o : PLog)
  | pnot (h : Hdr) (o : PNot)
  | p2v (h : Hdr) (d : BitVec 8)
  | v2p (h : Hdr) (o : V2p)
  | mov (h : Hdr) (o : Mov)
  | movIndexedRead (h : Hdr) (o : MovRd)
  | movIndexedWrite (h : Hdr) (o : MovWr)
  | isel (h : Hdr) (o : Isel)
  | iselImm (h : Hdr) (o : IselI)
  | movi (h : Hdr) (o : Movi)
  | lea (h : Hdr) (o : Lea)
  | movw (h : Hdr) (o : Movw)
  -- group 3: control flow (R141)
  | nop64 (h : Hdr)
  | exit (h : Hdr)
  | ret (h : Hdr) (a : Src)
  | yield (h : Hdr)
  | brx (h : Hdr) (a : Src)
  | nop96 (h : Hdr)
  | bra (h : Hdr) (off : Word)
  | call (h : Hdr) (o : CallOp)
  | dbra (h : Hdr) (o : CallOp)
  | nop128 (h : Hdr)
  -- group 4: FP32 (R151 to R156)
  | fadd (h : Hdr) (o : F2)
  | fsub (h : Hdr) (o : F2)
  | fmul (h : Hdr) (o : F2)
  | fmin (h : Hdr) (o : FMm)
  | fmax (h : Hdr) (o : FMm)
  | fcmp (h : Hdr) (o : FCmp)
  | fdiv (h : Hdr) (o : FDiv)
  | fsqrt (h : Hdr) (o : F1)
  | frcp (h : Hdr) (o : F1)
  | frsq (h : Hdr) (o : F1)
  | fexp2 (h : Hdr) (o : F1)
  | flog2 (h : Hdr) (o : F1)
  | fsin (h : Hdr) (o : F1)
  | fcos (h : Hdr) (o : F1)
  | frnd (h : Hdr) (o : F1)
  | fclass (h : Hdr) (o : FCls)
  | ffma (h : Hdr) (o : F3)
  | faddImm (h : Hdr) (o : FI)
  | fmulImm (h : Hdr) (o : FI)
  | fminImm (h : Hdr) (o : FMmI)
  | fmaxImm (h : Hdr) (o : FMmI)
  | fcmpImm (h : Hdr) (o : FCmpI)
  -- group 5: packed, conversions, dot products (R158 to R163)
  | fcvt (h : Hdr) (o : Fcvt)
  | icvt (h : Hdr) (o : Icvt)
  | fpack (h : Hdr) (o : Fpack)
  | hfma2 (h : Hdr) (o : Hfma2)
  | dot4 (h : Hdr) (o : Dot4)
  -- group 6: FP64 (R157, R164)
  | dadd (h : Hdr) (o : F2)
  | dmul (h : Hdr) (o : F2)
  | ddiv (h : Hdr) (o : FDiv)
  | dsqrt (h : Hdr) (o : F1)
  | dcmp (h : Hdr) (o : FCmp)
  | dmin (h : Hdr) (o : FMm)
  | dmax (h : Hdr) (o : FMm)
  | dcvt (h : Hdr) (o : Dcvt)
  | dfma (h : Hdr) (o : F3)
  -- group 7: band exchange (R213 to R219)
  | xchgIdx (h : Hdr) (o : Xchg)
  | xchgUp (h : Hdr) (o : Xchg)
  | xchgDown (h : Hdr) (o : Xchg)
  | xchgXor (h : Hdr) (o : Xchg)
  | voteAll (h : Hdr) (o : Vote)
  | voteAny (h : Hdr) (o : Vote)
  | voteBallot (h : Hdr) (o : Ballot)
  | matchB (h : Hdr) (o : Match)
  | redb (h : Hdr) (o : Redb)
  | elect (h : Hdr) (p : BitVec 3)
  | sread (h : Hdr) (o : Sread)
  -- group 8: barriers and rejoin (R220, R225)
  | barArr (h : Hdr) (o : Bar)
  | barWait (h : Hdr) (o : Bar)
  | barSync (h : Hdr) (o : Bar)
  | barInv (h : Hdr) (o : Bar)
  | barInit (h : Hdr) (o : BarInit)
  | joinE (h : Hdr) (j : BitVec 2)
  | joinW (h : Hdr) (j : BitVec 2)
  | joinX (h : Hdr) (j : BitVec 2)
  -- group 9: loads and stores (R306, R312)
  | ld (h : Hdr) (o : Ld)
  | st (h : Hdr) (o : St)
  | lds (h : Hdr) (o : Ld)
  | sts (h : Hdr) (o : St)
  | ldf (h : Hdr) (o : Ldf)
  -- group 10: atomics, fences, watch (R314 to R324)
  | fence (h : Hdr) (o : Fence)
  | lflush (h : Hdr) (o : LineSel)
  | linv (h : Hdr) (o : LineSel)
  | atom (h : Hdr) (o : Atom)
  | red (h : Hdr) (o : Red)
  | ldw (h : Hdr) (o : Ldw)
  | chk (h : Hdr) (off : Word)
  | prf (h : Hdr) (o : Prf)
  | rngCommit (h : Hdr) (o : RngCommit)
  -- group 11: stream ports (R328, R336)
  | strmPos (h : Hdr) (o : StrmPos)
  | strmSet (h : Hdr) (o : StrmSet)
  | strmEnd (h : Hdr) (o : StrmEnd)
  | strmCfg (h : Hdr) (o : StrmCfg)
  -- group 12: copies and rings (R370 to R383)
  | waitc (h : Hdr) (o : Waitc)
  | ringWait (h : Hdr) (o : RingWait)
  | ringRel (h : Hdr) (o : RingRel)
  | ringInit (h : Hdr) (o : RingInit)
  | cpy (h : Hdr) (o : Cpy)
  | cpyCol (h : Hdr) (o : Cpy)
  | cpyPl (h : Hdr) (o : CpyPl)
  -- group 13: matrix, tiles, accumulators (R384 to R397)
  | gangSet (h : Hdr) (m : GMask)
  | gangClr (h : Hdr)
  | cmdWait (h : Hdr) (n : BitVec 6)
  | tileGet (h : Hdr) (o : TileGet)
  | accClr (h : Hdr) (o : AccClr)
  | tileSet (h : Hdr) (o : TileSet)
  | mma (h : Hdr) (o : Mma)
  | planePack (h : Hdr) (o : PlanePack)
  | planeUnpack (h : Hdr) (o : PlaneUnpack)
  | accRd (h : Hdr) (o : AccRd)
  | accWr (h : Hdr) (o : AccWr)
  | cbtLd (h : Hdr) (o : CbtLd)
  -- group 14: system and trap (R412)
  | trap (h : Hdr) (n : BitVec 8)
  | sys (h : Hdr) (n : BitVec 8)
  | brk (h : Hdr) (n : BitVec 8)
  | rte (h : Hdr) (skip : Bool)
  | halt (h : Hdr) (fail : Bool)
  | migr (h : Hdr) (t : MTgt)
  | ctxSave (h : Hdr) (a : BitVec 6)
  | ctxRest (h : Hdr) (a : BitVec 6)
  | tlbinv (h : Hdr) (k : TKind)
  | scrub (h : Hdr) (a : Src)
  | csrRd (h : Hdr) (o : CsrRd)
  | csrWr (h : Hdr) (o : CsrWr)
  -- traps and scheduling of a band: block key, band index
  | asyncTrapEntry (b n : Nat)
  | forcedRelease (b n : Nat)
  -- launch queues (R187 to R196): access or function, queue, written value
  | lqdbDoorbell (a : Via) (q : Nat) (v : Word)
  | lqctlEn (a : Via) (q : Nat) (v : Word)
  | lqctlErrClear (a : Via) (q : Nat) (v : Word)
  | noopPacket (f q : Nat)
  | launchPacket (f q : Nat)
  | markerPacket (f q : Nat)
  | contextUpdatePacket (f q : Nat)
  | markerCompletion (lid : Nat)
  | contextUpdate (lid : Nat)
  -- placement and life of blocks and grids (R197 to R208)
  | blockPlacement
  | carveOutChange (core : Nat) (carve : Word)
  | preemption
  | blockResume (b : Nat)
  | blockEnd (b : Nat)
  | gridCompletion (lid : Nat)
  | gridFailure (lid : Nat)
  -- memory messages (R245 to R250, R285): packet numbers
  | loadRequest (p : Nat)
  | loadReply (p : Nat)
  | storeArrival (p : Nat)
  | storeCompletion (p : Nat)
  | recall (p : Nat)
  | ownerWriteback (p : Nat)
  | ownershipGrant (p : Nat)
  | leaseExpiry (core line : Nat)
  | watchCheck (p : Nat)
  | watchAnswer (p : Nat)
  | packetDelivery (p : Nat)
  | pageWalk (core asid va : Nat)
  | prsp (a : Via) (v : Word)
  | flogctlWrite (a : Via) (v : Word)
  -- engines (R341 to R363): block key, copy or command key, segment
  | copySegment (b c g : Nat)
  | copyCompletion (b c : Nat)
  | collectiveAcceptance (b k : Nat)
  | commandAcceptance (b k : Nat)
  | commandStart (b c : Nat)
  | commandRetire (b c : Nat)
  | streamReadahead (b n k : Nat)
  | pushRetire (b n : Nat)
  | remoteOperation (f kind : Nat) (off : Nat) (operand : DWord)
  | remoteCompletion (b n : Nat) (ok : Bool)
  -- the Conservator (R449, R465 to R470)
  | replayPlacement (sid : Nat)
  | holdTimeout (sid : Nat)
  | loanCycleBreak (sids : List Nat)
  | capacityTimeout (sid : Nat)
  | cdemFenced (core : Nat)
  | coreFailure (core : Nat)
  -- stack channels and links (R482 to R498)
  | stackRequest (ch : Nat)
  | stackReply (ch tag found : Nat)
  | dieLinkFlit (link : Nat) (good : Bool)
  | solustFlit (port seq : Nat) (rx : FlitRx)
  | ckpctlSave
  | ckpctlRestore
  | checkpointRequestFlit (restore : Bool) (tdev image : Nat)
  | checkpointEnd (err : Nat)
  | fleetKeyDelivery (key : BitVec 256)
  -- the host link, firmware and security (R501 to R507, R520)
  | hostWindowAccess (a : WinAcc)
  | hcwinWrite (v : DWord)
  | keymapWrite (p : Nat) (v : DWord)
  | firmwareLoad (image : List Byte) (sig : List Byte)
  | powerUp
  | thermalShutdown
  | clockThrottle (on : Bool)
  | getVersion
  | getCapabilities
  | negotiateAlgorithms
  | getDigests
  | getCertificate
  | challenge (nonce : BitVec 256)
  | getMeasurements (nonce : BitVec 256)
  | keyExchange (f : Nat) (pub : BitVec 768)
  | finish (mac : BitVec 384)
  | endSession
  | ideKm (stream : Nat) (key : BitVec 256)
  | lockInterface (f : Nat) (policyKey : BitVec 768)
  | interfaceUnlock (f : Nat) (error : Bool)
  | policyDelivery (f : Nat) (rec : List Byte)
  -- condition reports (R517, R518)
  | condreq
  | conditionReportSpdm (nonce : BitVec 256)
  | conditionReportFlit (port : Nat) (nonce : BitVec 256)
  -- the debug port (R508): access and DBGCMD
  | debugHalt (a : Via) (cmd : DWord)
  | debugResume (a : Via) (cmd : DWord)
  | debugStep (a : Via) (cmd : DWord)
  | debugReadRegister (a : Via) (cmd : DWord)
  | debugWriteRegister (a : Via) (cmd : DWord)
  -- live migration (R509 to R512): function and written value
  | lmctlTrack (v : Nat) (on : Bool)
  | lmctlSnap (v : Nat)
  | lmctlQuiesce (v : Nat)
  | quiesceDone (v : Nat)
  | lmctlResume (v : Nat)
  -- health, reset, registers (R500, R513, R520)
  | unitRetirement (u : HUnit)
  | deviceReset
  | registerWrite (a : Via) (off : Nat) (v : DWord)
  | releaseWait (b n : Nat)
  | interfaceRun (f : Nat)
  | linkFailure (u : HUnit)
  deriving DecidableEq, Repr

end Sys2Proof
end

