-- ==== Sys2Proof/Decode.lean ====
section
/-! DEFINITION. The encodings of R43 to R57, R64, R65 and of each instruction's tables: the decoder, total on
every word, which refuses by name, and the encoder, written from the same tables. -/

namespace Sys2Proof

/-! ### The fields of an instruction word (R47, R52) -/

/-- A word cut into the fields of R47 and R52. `ext` holds bits [127:64]: IMM in its low half. -/
structure Raw where
  len : BitVec 2
  stall : BitVec 4
  wait : BitVec 6
  sett : BitVec 3
  hold : BitVec 2
  pred : BitVec 3
  pneg : Bool
  r21 : Bool
  opc : BitVec 10
  dst : BitVec 8
  sa : BitVec 8
  sb : BitVec 8
  md : BitVec 8
  ext : BitVec 64
  deriving DecidableEq, Repr

/-- Why a word begins no instruction (R68, orders 2 and 4). -/
inductive DecodeErr where
  | lenReserved | unassigned | lenMismatch | reserved
  deriving DecidableEq, Repr

/-- What the decoder answers. -/
inductive Decoded where
  | ok (i : Instr)
  | bad (e : DecodeErr)
  deriving DecidableEq, Repr

/-- Cuts a word into its fields (R47, R52). -/
def unpack (w : BitVec 128) : Raw where
  len := w.extractLsb' 0 2
  stall := w.extractLsb' 2 4
  wait := w.extractLsb' 6 6
  sett := w.extractLsb' 12 3
  hold := w.extractLsb' 15 2
  pred := w.extractLsb' 17 3
  pneg := w.getLsbD 20
  r21 := w.getLsbD 21
  opc := w.extractLsb' 22 10
  dst := w.extractLsb' 32 8
  sa := w.extractLsb' 40 8
  sb := w.extractLsb' 48 8
  md := w.extractLsb' 56 8
  ext := w.extractLsb' 64 64

/-- Joins the fields into a word (R47, R52). -/
def pack (r : Raw) : BitVec 128 :=
  (r.ext ++ r.md ++ r.sb ++ r.sa ++ r.dst ++ r.opc ++ BitVec.ofBool r.r21 ++ BitVec.ofBool r.pneg
    ++ r.pred ++ r.hold ++ r.sett ++ r.wait ++ r.stall ++ r.len : BitVec (64+8+8+8+8+10+1+1+3+2+3+6+4+2))

/-- The fields of the body that an instruction uses (R52). -/
structure Body where
  dst : BitVec 8 := 0
  sa : BitVec 8 := 0
  sb : BitVec 8 := 0
  md : BitVec 8 := 0
  ext : BitVec 64 := 0

/-- The LEN code that the offset of an opcode fixes (R43, R64). -/
def lenCode (opc : BitVec 10) : BitVec 2 :=
  if opc.toNat % 64 < 0x20 then 0 else if opc.toNat % 64 < 0x38 then 1 else 2

/-- The bytes of an instruction with a LEN code (R43). -/
def lenBytes (len : BitVec 2) : Nat :=
  if len = 0 then 8 else if len = 1 then 12 else 16

/-! ### Codes of the small fields -/

def IType.code : IType → BitVec 3
  | .s32 => 0 | .z32 => 1 | .s64 => 2 | .z64 => 3 | .s16 => 4 | .z16 => 5 | .s8 => 6 | .z8 => 7

def IType.ofCode (c : BitVec 3) : IType :=
  if c = 0 then .s32 else if c = 1 then .z32 else if c = 2 then .s64 else if c = 3 then .z64
  else if c = 4 then .s16 else if c = 5 then .z16 else if c = 6 then .s8 else .z8

def ICond.code : ICond → BitVec 3
  | .eq => 0 | .ne => 1 | .lt => 2 | .le => 3 | .gt => 4 | .ge => 5

def ICond.ofCode (c : BitVec 3) : Option ICond :=
  if c = 0 then some .eq else if c = 1 then some .ne else if c = 2 then some .lt
  else if c = 3 then some .le else if c = 4 then some .gt else if c = 5 then some .ge else none

def FCond.code : FCond → BitVec 3
  | .eq => 0 | .ne => 1 | .lt => 2 | .le => 3 | .gt => 4 | .ge => 5 | .un => 6 | .ord => 7

def FCond.ofCode (c : BitVec 3) : FCond :=
  if c = 0 then .eq else if c = 1 then .ne else if c = 2 then .lt else if c = 3 then .le
  else if c = 4 then .gt else if c = 5 then .ge else if c = 6 then .un else .ord

def Rnd.code : Rnd → BitVec 3
  | .rne => 0 | .rtz => 1 | .rdn => 2 | .rup => 3 | .rdyn => 4

/-- R56: codes 5 to 7 begin no instruction. -/
def Rnd.ofCode (c : BitVec 3) : Option Rnd :=
  if c = 0 then some .rne else if c = 1 then some .rtz else if c = 2 then some .rdn
  else if c = 3 then some .rup else if c = 4 then some .rdyn else none

/-- The `.b` widths as `.z` codes (R55). -/
def wCode (w64 : Bool) : BitVec 3 := if w64 then 3 else 1

def wOf (c : BitVec 3) : Option Bool :=
  if c = 1 then some false else if c = 3 then some true else none

/-- The `.s32` and `.s64` codes of `sar` (R130). -/
def swCode (w64 : Bool) : BitVec 3 := if w64 then 2 else 0

def swOf (c : BitVec 3) : Option Bool :=
  if c = 0 then some false else if c = 2 then some true else none

def CvFmt.code : CvFmt → BitVec 3
  | .f32 => 0 | .f16 => 1 | .bf16 => 2 | .e4m3 => 3 | .e5m2 => 4

def CvFmt.ofCode (c : BitVec 3) : Option CvFmt :=
  if c = 0 then some .f32 else if c = 1 then some .f16 else if c = 2 then some .bf16
  else if c = 3 then some .e4m3 else if c = 4 then some .e5m2 else none

def IFmt.code : IFmt → BitVec 2
  | .f32 => 0 | .f16 => 1 | .bf16 => 2

def IFmt.ofCode (c : BitVec 2) : Option IFmt :=
  if c = 0 then some .f32 else if c = 1 then some .f16 else if c = 2 then some .bf16 else none

def PFmt.code : PFmt → BitVec 2
  | .f16 => 0 | .bf16 => 1 | .e4m3 => 2 | .e5m2 => 3

def PFmt.ofCode (c : BitVec 2) : PFmt :=
  if c = 0 then .f16 else if c = 1 then .bf16 else if c = 2 then .e4m3 else .e5m2

def Dot4Fmt.code : Dot4Fmt → BitVec 3
  | .e4e4 => 0 | .e4e5 => 1 | .e5e4 => 2 | .e5e5 => 3 | .f16 => 4 | .bf16 => 5

def Dot4Fmt.ofCode (c : BitVec 3) : Option Dot4Fmt :=
  if c = 0 then some .e4e4 else if c = 1 then some .e4e5 else if c = 2 then some .e5e4
  else if c = 3 then some .e5e5 else if c = 4 then some .f16 else if c = 5 then some .bf16 else none

def DKind.code : DKind → BitVec 3
  | .f64 => 0 | .f32 => 1 | .s32 => 2 | .z32 => 3 | .s64 => 4 | .z64 => 5

def DKind.ofCode (c : BitVec 3) : Option DKind :=
  if c = 0 then some .f64 else if c = 1 then some .f32 else if c = 2 then some .s32
  else if c = 3 then some .z32 else if c = 4 then some .s64 else if c = 5 then some .z64 else none

def RedbOp.code : RedbOp → BitVec 4
  | .addb => 0 | .mins => 1 | .maxs => 2 | .minz => 3 | .maxz => 4 | .andb => 5 | .orb => 6
  | .xorb => 7 | .addf => 8 | .minf => 9 | .maxf => 10

def RedbOp.ofCode (c : BitVec 4) : Option RedbOp :=
  if c = 0 then some .addb else if c = 1 then some .mins else if c = 2 then some .maxs
  else if c = 3 then some .minz else if c = 4 then some .maxz else if c = 5 then some .andb
  else if c = 6 then some .orb else if c = 7 then some .xorb else if c = 8 then some .addf
  else if c = 9 then some .minf else if c = 10 then some .maxf else none

/-- The selectors of R22. -/
def SReg.code : SReg → BitVec 8
  | .lane => 0x00 | .bandw => 0x01 | .band => 0x02 | .nband => 0x03 | .blkx => 0x04 | .blky => 0x05
  | .blkz => 0x06 | .nblkx => 0x07 | .nblky => 0x08 | .nblkz => 0x09 | .blane => 0x0A | .core => 0x0B
  | .cluster => 0x0C | .die => 0x0D | .hdie => 0x0E | .profile => 0x0F | .orient => 0x10
  | .ctime => 0x11 | .launch => 0x12

def SReg.ofCode (c : BitVec 8) : Option SReg :=
  if c = 0x00 then some .lane else if c = 0x01 then some .bandw else if c = 0x02 then some .band
  else if c = 0x03 then some .nband else if c = 0x04 then some .blkx else if c = 0x05 then some .blky
  else if c = 0x06 then some .blkz else if c = 0x07 then some .nblkx else if c = 0x08 then some .nblky
  else if c = 0x09 then some .nblkz else if c = 0x0A then some .blane else if c = 0x0B then some .core
  else if c = 0x0C then some .cluster else if c = 0x0D then some .die else if c = 0x0E then some .hdie
  else if c = 0x0F then some .profile else if c = 0x10 then some .orient
  else if c = 0x11 then some .ctime else if c = 0x12 then some .launch else none

def BScope.code : BScope → BitVec 2
  | .blk => 0 | .clu => 1 | .die => 2 | .grid => 3

def BScope.ofCode (c : BitVec 2) : BScope :=
  if c = 0 then .blk else if c = 1 then .clu else if c = 2 then .die else .grid

def Scope.code : Scope → BitVec 3
  | .band => 0 | .blk => 1 | .clu => 2 | .die => 3 | .dev => 4 | .sys => 5

def Scope.ofCode (c : BitVec 3) : Option Scope :=
  if c = 0 then some .band else if c = 1 then some .blk else if c = 2 then some .clu
  else if c = 3 then some .die else if c = 4 then some .dev else if c = 5 then some .sys else none

def LSize.code : LSize → BitVec 3
  | .z8 => 0 | .s8 => 1 | .z16 => 2 | .s16 => 3 | .b32 => 4 | .b64 => 5 | .b128 => 6

def LSize.ofCode (c : BitVec 3) : Option LSize :=
  if c = 0 then some .z8 else if c = 1 then some .s8 else if c = 2 then some .z16
  else if c = 3 then some .s16 else if c = 4 then some .b32 else if c = 5 then some .b64
  else if c = 6 then some .b128 else none

def FKind.code : FKind → BitVec 2
  | .acq => 0 | .rel => 1 | .ar => 2

def FKind.ofCode (c : BitVec 2) : Option FKind :=
  if c = 0 then some .acq else if c = 1 then some .rel else if c = 2 then some .ar else none

def AOp.code : AOp → BitVec 4
  | .add => 0 | .sub => 1 | .mins => 2 | .maxs => 3 | .minz => 4 | .maxz => 5 | .and => 6 | .or => 7
  | .xor => 8 | .exch => 9 | .cas => 10 | .inc => 11 | .dec => 12 | .addf => 13 | .minf => 14 | .maxf => 15

def AOp.ofCode (c : BitVec 4) : AOp :=
  if c = 0 then .add else if c = 1 then .sub else if c = 2 then .mins else if c = 3 then .maxs
  else if c = 4 then .minz else if c = 5 then .maxz else if c = 6 then .and else if c = 7 then .or
  else if c = 8 then .xor else if c = 9 then .exch else if c = 10 then .cas else if c = 11 then .inc
  else if c = 12 then .dec else if c = 13 then .addf else if c = 14 then .minf else .maxf

/-- The operations that have a 64-bit form (R317). -/
def AOp.wide : AOp → Bool
  | .addf | .minf | .maxf => false
  | _ => true

/-- The operations that `red` has (R317). -/
def AOp.inRed : AOp → Bool
  | .exch | .cas => false
  | _ => true

def SKind.code : SKind → BitVec 3
  | .b32 => 0 | .z8 => 1 | .s8 => 2 | .z16 => 3 | .s16 => 4 | .fmt => 5 | .fmtx => 6

def SKind.ofCode (c : BitVec 3) : Option SKind :=
  if c = 0 then some .b32 else if c = 1 then some .z8 else if c = 2 then some .s8
  else if c = 3 then some .z16 else if c = 4 then some .s16 else if c = 5 then some .fmt
  else if c = 6 then some .fmtx else none

def CCls.code : CCls → BitVec 2
  | .cpy => 0 | .mma => 1 | .strm => 2 | .rmt => 3

def CCls.ofCode (c : BitVec 2) : CCls :=
  if c = 0 then .cpy else if c = 1 then .mma else if c = 2 then .strm else .rmt

def CDst.code : CDst → BitVec 2
  | .glob => 0 | .scr => 1 | .ring => 2 | .regs => 3

def CDst.ofCode (c : BitVec 2) : CDst :=
  if c = 0 then .glob else if c = 1 then .scr else if c = 2 then .ring else .regs

def AccFmt.code : AccFmt → BitVec 2
  | .f32 => 0 | .bf16 => 1 | .e4m3 => 2 | .e5m2 => 3

def AccFmt.ofCode (c : BitVec 2) : AccFmt :=
  if c = 0 then .f32 else if c = 1 then .bf16 else if c = 2 then .e4m3 else .e5m2

def MTgt.code : MTgt → BitVec 2
  | .annex => 0 | .gallery => 1 | .home => 2

def MTgt.ofCode (c : BitVec 2) : Option MTgt :=
  if c = 0 then some .annex else if c = 1 then some .gallery else if c = 2 then some .home else none

/-- A predecessor field (R386). -/
def Pred.code : Pred → BitVec 8
  | .none => 0
  | .cmd n => 1#2 ++ n
  | .ring r k => 2#2 ++ k ++ r

def Pred.ofCode (c : BitVec 8) : Option Pred :=
  if c.extractLsb' 6 2 = 0 then (if c = 0 then some .none else Option.none)
  else if c.extractLsb' 6 2 = 1 then some (.cmd (c.extractLsb' 0 6))
  else if c.extractLsb' 6 2 = 2 then some (.ring (c.extractLsb' 0 3) (c.extractLsb' 3 3))
  else Option.none

/-! ### Type sets and limits -/

/-- The bits of an integer type (R55). -/
def IType.bits : IType → Nat
  | .s32 | .z32 => 32
  | .s64 | .z64 => 64
  | .s16 | .z16 => 16
  | .s8 | .z8 => 8

/-- Whether a type is signed (R126, sg). -/
def IType.sg : IType → Bool
  | .s32 | .s64 | .s16 | .s8 => true
  | .z32 | .z64 | .z16 | .z8 => false

/-- Whether a value of the type fills a pair (R119). -/
def IType.w64 (t : IType) : Bool := t.bits == 64

/-- The wide types of R125. -/
def IType.wide (t : IType) : Bool := 32 ≤ t.bits

/-- The types of `imadw` (R125). -/
def IType.only32 (t : IType) : Bool := t.bits == 32

/-- The sizes that a store takes (R307). -/
def LSize.forStore : LSize → Bool
  | .s8 | .s16 => false
  | _ => true

/-- The width of a 32-bit or 64-bit operand. -/
def nW (w64 : Bool) : Nat := if w64 then 64 else 32

/-- The limits of `bfe` and `bfi` (R133). -/
def fieldOk (n : Nat) (pos len : BitVec 8) : Bool :=
  pos.toNat ≤ n && len.toNat ≤ n && pos.toNat + len.toNat ≤ n

/-- The element limits of `fcvt` (R161). -/
def selOk (f : CvFmt) (sel : BitVec 2) : Bool :=
  match f with
  | .f32 => sel == 0
  | .f16 | .bf16 => sel.toNat < 2
  | .e4m3 | .e5m2 => true

/-- The destinations of `fcvt` that have an overflow choice (R161). -/
def CvFmt.small : CvFmt → Bool
  | .e4m3 | .e5m2 => true
  | _ => false

def PFmt.small : PFmt → Bool
  | .e4m3 | .e5m2 => true
  | _ => false

/-- Exactly one side of `dcvt` is f64 (R164). -/
def dcvtOk (dk sk : DKind) : Bool := (dk == .f64) != (sk == .f64)

/-- Whether a reduction works on f32 (R217). -/
def RedbOp.isF : RedbOp → Bool
  | .addf | .minf | .maxf => true
  | _ => false

/-- The patterns that R328 allows. -/
def strmOk (o : StrmCfg) : Bool :=
  (o.kind == .fmtx || (o.xefmt == 0 && o.xegeo == 0))
    && !(o.push && (o.kind == .fmt || o.kind == .fmtx))
    && !(o.lst && o.ndim == 0 && o.push)

/-- The scope and kind limits of a copy (R371). -/
def cpyOk (o : Cpy) (col : Bool) : Bool :=
  o.scope != .band && (o.dk != .regs || (o.scope == .blk && !col)) && (o.dk == .ring || o.rn == 0)

/-- The limits of `ring.init` (R380). -/
def ringInitOk (o : RingInit) : Bool :=
  2 ≤ o.slots.toNat && o.slots.toNat ≤ 8 && o.base.toNat % 256 == 0 && 1 ≤ o.z.toNat && o.z.toNat ≤ 1024

/-- The limits of a rectangle (R392). -/
def rectOk (r : Rect) : Bool :=
  1 ≤ r.rows.toNat && r.row0.toNat + r.rows.toNat ≤ 64 && 1 ≤ r.cols.toNat && r.col0.toNat + r.cols.toNat ≤ 64

/-- The limits of `acc.rd` (R392). -/
def accRdOk (o : AccRd) : Bool :=
  rectOk o.rect && (!(o.cf == .f32 || o.cf == .bf16) || !o.ovr)
    && (!o.raw || (o.cf == .f32 && !o.ovr && o.rnd == .rne && !o.ftz))

/-- The reserved bits [31:26], [39] and [63:57] of a tile descriptor's low half (R353). -/
def tileLoOk (w : DWord) : Bool :=
  w.extractLsb' 26 6 == 0 && !w.getLsbD 39 && w.extractLsb' 57 7 == 0

/-! ### Decoding -/

/-- Goes on when a condition holds, and refuses the word otherwise (R68, order 4). -/
def need (c : Bool) (k : Decoded) : Decoded := if c then k else .bad .reserved

/-- Goes on with a decoded code, and refuses a reserved one. -/
def optK {α : Type} (o : Option α) (k : α → Decoded) : Decoded :=
  match o with
  | some a => k a
  | none => .bad .reserved

/-- A uniform specifier (R53). -/
def uniK (s : BitVec 8) (k : BitVec 6 → Decoded) : Decoded :=
  need (s.extractLsb' 6 2 == 0) (k (s.extractLsb' 0 6))

/-- A predicate, accumulator or port specifier of three bits (R53). -/
def prdK (s : BitVec 8) (k : BitVec 3 → Decoded) : Decoded :=
  need (s.extractLsb' 3 5 == 0) (k (s.extractLsb' 0 3))

/-- A tile specifier (R53). -/
def tileK (s : BitVec 8) (k : BitVec 4 → Decoded) : Decoded :=
  need (s.extractLsb' 4 4 == 0) (k (s.extractLsb' 0 4))

/-- A source that its flag makes vector or uniform (R54). -/
def srcK (u : Bool) (s : BitVec 8) (k : Src → Decoded) : Decoded :=
  if u then uniK s (fun r => k (.u r)) else k (.v s)

/-- A destination that UD makes vector or uniform (R136). -/
def dstK (u : Bool) (s : BitVec 8) (k : Dst → Decoded) : Decoded :=
  if u then uniK s (fun r => k (.u r)) else k (.v s)

namespace Raw

def imm (r : Raw) : Word := r.ext.extractLsb' 0 32
def ua (r : Raw) : Bool := r.md.getLsbD 0
def ub (r : Raw) : Bool := r.md.getLsbD 1
def m (r : Raw) (i : Nat) : Bool := r.md.getLsbD i
/-- MOD[4:2]: TYPE, RND, CC, PS or SZ. -/
def f2 (r : Raw) : BitVec 3 := r.md.extractLsb' 2 3
/-- MOD[7:5]. -/
def top (r : Raw) : BitVec 3 := r.md.extractLsb' 5 3
def hdr (r : Raw) : Hdr := ⟨r.stall, r.wait, r.sett, r.hold, r.pred, r.pneg⟩

/-! Shapes of groups 0 and 1 (R125, R128, R130). -/

def int2 (r : Raw) (ty : IType → Bool) (mk : Int2 → Instr) : Decoded :=
  need (r.top == 0 && ty (.ofCode r.f2)) <| srcK r.ua r.sa fun a => srcK r.ub r.sb fun b =>
    .ok (mk ⟨r.dst, a, b, .ofCode r.f2⟩)

def int1 (r : Raw) (ty : IType → Bool) (mk : Int1 → Instr) : Decoded :=
  need (r.top == 0 && !r.ub && r.sb == 0 && ty (.ofCode r.f2)) <| srcK r.ua r.sa fun a =>
    .ok (mk ⟨r.dst, a, .ofCode r.f2⟩)

def int3 (r : Raw) (ty : IType → Bool) (mk : Int3 → Instr) : Decoded :=
  need (r.top == 0 && ty (.ofCode r.f2) && r.imm.extractLsb' 8 24 == 0) <| srcK r.ua r.sa fun a =>
    srcK r.ub r.sb fun b => .ok (mk ⟨r.dst, a, b, r.imm.extractLsb' 0 8, .ofCode r.f2⟩)

def intI (r : Raw) (mk : IntI → Instr) : Decoded :=
  need (r.top == 0 && !r.ub && r.sb == 0) <| srcK r.ua r.sa fun a =>
    .ok (mk ⟨r.dst, a, r.imm, .ofCode r.f2⟩)

def log2 (r : Raw) (ty : BitVec 3 → Option Bool) (mk : Log2 → Instr) : Decoded :=
  need (r.top == 0) <| optK (ty r.f2) fun w => srcK r.ua r.sa fun a => srcK r.ub r.sb fun b =>
    .ok (mk ⟨r.dst, a, b, w⟩)

def log1 (r : Raw) (mk : Log1 → Instr) : Decoded :=
  need (r.top == 0 && !r.ub && r.sb == 0) <| optK (wOf r.f2) fun w => srcK r.ua r.sa fun a =>
    .ok (mk ⟨r.dst, a, w⟩)

def logI (r : Raw) (ty : BitVec 3 → Option Bool) (mk : LogI → Instr) : Decoded :=
  need (r.top == 0 && !r.ub && r.sb == 0) <| optK (ty r.f2) fun w => srcK r.ua r.sa fun a =>
    .ok (mk ⟨r.dst, a, r.imm, w⟩)

def bin (r : Raw) (ty : BitVec 3) (mk : Bin → Instr) : Decoded :=
  need (r.top == 0 && r.f2 == ty) <| srcK r.ua r.sa fun a => srcK r.ub r.sb fun b =>
    .ok (mk ⟨r.dst, a, b⟩)

/-! Shapes of groups 4 to 6 (R148). -/

def f2op (r : Raw) (mk : F2 → Instr) : Decoded :=
  optK (Rnd.ofCode r.f2) fun rn => srcK r.ua r.sa fun a => srcK r.ub r.sb fun b =>
    .ok (mk ⟨r.dst, a, b, rn, r.m 5, r.m 6, r.m 7⟩)

def fdv (r : Raw) (mk : FDiv → Instr) : Decoded :=
  need (!r.m 6 && !r.m 7) <| optK (Rnd.ofCode r.f2) fun rn => srcK r.ua r.sa fun a =>
    srcK r.ub r.sb fun b => .ok (mk ⟨r.dst, a, b, rn, r.m 5⟩)

def fmm (r : Raw) (mk : FMm → Instr) : Decoded :=
  need (!r.m 6 && !r.m 7 && r.f2 == 0) <| srcK r.ua r.sa fun a => srcK r.ub r.sb fun b =>
    .ok (mk ⟨r.dst, a, b, r.m 5⟩)

def f1 (r : Raw) (mk : F1 → Instr) : Decoded :=
  need (!r.m 6 && !r.m 7 && !r.ub && r.sb == 0) <| optK (Rnd.ofCode r.f2) fun rn =>
    srcK r.ua r.sa fun a => .ok (mk ⟨r.dst, a, rn, r.m 5⟩)

def f3 (r : Raw) (mk : F3 → Instr) : Decoded :=
  need (r.imm.extractLsb' 8 24 == 0) <| optK (Rnd.ofCode r.f2) fun rn => srcK r.ua r.sa fun a =>
    srcK r.ub r.sb fun b => .ok (mk ⟨r.dst, a, b, r.imm.extractLsb' 0 8, rn, r.m 5, r.m 6, r.m 7⟩)

def fI (r : Raw) (mk : FI → Instr) : Decoded :=
  need (!r.m 7 && !r.ub && r.sb == 0) <| optK (Rnd.ofCode r.f2) fun rn => srcK r.ua r.sa fun a =>
    .ok (mk ⟨r.dst, a, r.imm, rn, r.m 5, r.m 6⟩)

def fmmI (r : Raw) (mk : FMmI → Instr) : Decoded :=
  need (!r.m 6 && !r.m 7 && !r.ub && r.sb == 0 && r.f2 == 0) <| srcK r.ua r.sa fun a =>
    .ok (mk ⟨r.dst, a, r.imm, r.m 5⟩)

def fcm (r : Raw) (mk : FCmp → Instr) : Decoded :=
  need (!r.m 7) <| prdK r.dst fun p => srcK r.ua r.sa fun a => srcK r.ub r.sb fun b =>
    .ok (mk ⟨p, a, b, .ofCode r.f2, r.m 5, r.m 6⟩)

/-! Shapes of groups 7 to 14. -/

def xb (r : Raw) (k : XB → Decoded) : Decoded :=
  if r.md.extractLsb' 0 2 = 0 then k (.v r.sb)
  else if r.md.extractLsb' 0 2 = 1 then uniK r.sb fun u => k (.u u)
  else if r.md.extractLsb' 0 2 = 2 then uniK r.sb fun n => k (.lit n)
  else .bad .reserved

def xchg (r : Raw) (mk : Xchg → Instr) : Decoded :=
  need (!r.m 6 && !r.m 7) <| r.xb fun b => .ok (mk ⟨r.dst, r.sa, b, r.m 2, r.md.extractLsb' 3 3⟩)

def vote (r : Raw) (mk : Vote → Instr) : Decoded :=
  need (r.sb == 0 && r.md.extractLsb' 1 7 == 0) <| prdK r.dst fun p => prdK r.sa fun s =>
    .ok (mk ⟨p, s, r.m 0⟩)

def bnum (r : Raw) (k : BNum → Decoded) : Decoded :=
  if r.m 2 then uniK r.sa fun u => k (.u u)
  else need (r.sa.extractLsb' 4 4 == 0) (k (.lit (r.sa.extractLsb' 0 4)))

def bar (r : Raw) (mk : Bar → Instr) : Decoded :=
  need (r.dst == 0 && r.sb == 0 && r.md.extractLsb' 3 5 == 0) <| r.bnum fun n =>
    .ok (mk ⟨n, .ofCode (r.md.extractLsb' 0 2)⟩)

def join (r : Raw) (mk : BitVec 2 → Instr) : Decoded :=
  need (r.dst.extractLsb' 2 6 == 0 && r.sa == 0 && r.sb == 0 && r.md == 0) <|
    .ok (mk (r.dst.extractLsb' 0 2))

/-- ORD and SCOPE of R307. -/
def lord (r : Raw) (unc : Bool) (k : LOrd → Decoded) : Decoded :=
  need (r.imm.extractLsb' 27 5 == 0 && !r.m 7) <|
    if r.md.extractLsb' 5 2 = 0 then need (r.imm.extractLsb' 24 3 == 0) (k .rlx)
    else if r.md.extractLsb' 5 2 = 1 then optK (Scope.ofCode (r.imm.extractLsb' 24 3)) fun s => k (.sync s)
    else if r.md.extractLsb' 5 2 = 2 then need (unc && r.imm.extractLsb' 24 3 == 0) (k .unc)
    else .bad .reserved

def load (r : Raw) (unc : Bool) (mk : Ld → Instr) : Decoded :=
  need (r.sb == 0 && !r.ub) <| optK (LSize.ofCode r.f2) fun sz => r.lord unc fun o =>
    srcK r.ua r.sa fun a => .ok (mk ⟨r.dst, a, sz, o, r.imm.extractLsb' 0 24⟩)

def store (r : Raw) (unc : Bool) (mk : St → Instr) : Decoded :=
  need (r.dst == 0) <| optK (LSize.ofCode r.f2) fun sz => need (sz.forStore && (sz != .b128 || !r.ub)) <|
    r.lord unc fun o => srcK r.ua r.sa fun a => srcK r.ub r.sb fun b =>
      .ok (mk ⟨a, b, sz, o, r.imm.extractLsb' 0 24⟩)

def lineSel (r : Raw) (mk : LineSel → Instr) : Decoded :=
  need (r.dst == 0 && r.sb == 0 && r.md.extractLsb' 2 6 == 0) <|
    if r.m 1 then need (r.sa == 0 && !r.ua) (.ok (mk .all))
    else srcK r.ua r.sa fun a => .ok (mk (.lines a))

/-- ORD and SCOPE of R316. -/
def aord (r : Raw) (k : AOrd → Decoded) : Decoded :=
  need (!r.m 7) <| optK (Scope.ofCode (r.md.extractLsb' 4 3)) fun s =>
    if r.md.extractLsb' 2 2 = 0 then need (s == .band) (k .rlx)
    else if r.md.extractLsb' 2 2 = 1 then k (.acq s)
    else if r.md.extractLsb' 2 2 = 2 then k (.rel s)
    else k (.ar s)

def cbar (r : Raw) (k : Option CBar → Decoded) : Decoded :=
  if r.ext.getLsbD 7 then k (some ⟨r.ext.extractLsb' 8 4, .ofCode (r.ext.extractLsb' 12 2)⟩)
  else need (r.ext.extractLsb' 8 6 == 0) (k none)

def cpy (r : Raw) (col : Bool) (mk : Cpy → Instr) : Decoded :=
  need (r.md == 0 && r.ext.extractLsb' 17 15 == 0 && !r.ext.getLsbD 1) <|
    uniK r.dst fun d => uniK r.sa fun a => uniK r.sb fun q =>
    optK (Scope.ofCode (r.ext.extractLsb' 4 3)) fun sc => r.cbar fun b =>
      let o : Cpy := ⟨d, a, q, r.ext.getLsbD 0, .ofCode (r.ext.extractLsb' 2 2), sc, b,
        r.ext.extractLsb' 14 3, r.ext.extractLsb' 32 32⟩
      need (cpyOk o col) (.ok (mk o))

/-- ID, P0 and P1 in EXT[21:0] (R386). -/
def mf (r : Raw) (k : MFields → Decoded) : Decoded :=
  optK (Pred.ofCode (r.ext.extractLsb' 6 8)) fun p0 => optK (Pred.ofCode (r.ext.extractLsb' 14 8)) fun p1 =>
    k ⟨r.ext.extractLsb' 0 6, p0, p1⟩

def rect (r : Raw) : Rect :=
  ⟨r.ext.extractLsb' 33 6, r.ext.extractLsb' 39 7, r.ext.extractLsb' 46 6, r.ext.extractLsb' 52 7⟩

/-- A group 14 instruction whose body holds MOD only. -/
def onlyMod (r : Raw) (k : Decoded) : Decoded :=
  need (r.dst == 0 && r.sa == 0 && r.sb == 0) k

/-- Every body field of a 64-bit instruction is zero. -/
def empty (r : Raw) (k : Decoded) : Decoded := r.onlyMod (need (r.md == 0) k)

end Raw

/-- Group 0 (R125, R128). -/
def decodeG0 (h : Hdr) (r : Raw) (off : Nat) : Decoded :=
  match off with
  | 0x00 => r.int2 (fun _ => true) (.iadd h)
  | 0x01 => r.int2 (fun _ => true) (.isub h)
  | 0x02 => r.int2 (fun _ => true) (.imul h)
  | 0x03 => r.int2 IType.wide (.imulh h)
  | 0x04 => r.int1 (fun _ => true) (.ineg h)
  | 0x05 => r.int1 IType.sg (.iabs h)
  | 0x06 => r.int2 (fun _ => true) (.imin h)
  | 0x07 => r.int2 (fun _ => true) (.imax h)
  | 0x08 => r.int2 (fun _ => true) (.iaddsat h)
  | 0x09 => r.int2 (fun _ => true) (.isubsat h)
  | 0x0A => prdK r.dst fun p => optK (ICond.ofCode r.top) fun c => srcK r.ua r.sa fun a =>
      srcK r.ub r.sb fun b => .ok (.icmp h ⟨p, a, b, .ofCode r.f2, c⟩)
  | 0x0B => r.int2 (fun _ => true) (.idiv h)
  | 0x0C => r.int2 (fun _ => true) (.irem h)
  | 0x20 => r.int3 IType.wide (.imad h)
  | 0x21 => r.int3 IType.only32 (.imadw h)
  | 0x22 => r.int3 (fun _ => true) (.iclamp h)
  | 0x28 => r.intI (.iaddImm h)
  | 0x29 => r.intI (.isubImm h)
  | 0x2A => r.intI (.imulImm h)
  | 0x2B => r.intI (.iminImm h)
  | 0x2C => r.intI (.imaxImm h)
  | 0x2D => need (!r.ub && r.sb == 0) <| prdK r.dst fun p => optK (ICond.ofCode r.top) fun c =>
      srcK r.ua r.sa fun a => .ok (.icmpImm h ⟨p, a, r.imm, .ofCode r.f2, c⟩)
  | 0x2E => r.intI (.idivImm h)
  | 0x2F => r.intI (.iremImm h)
  | _ => .bad .unassigned

/-- Group 1 (R130 to R135). -/
def decodeG1 (h : Hdr) (r : Raw) (off : Nat) : Decoded :=
  match off with
  | 0x00 => r.log2 wOf (.and h)
  | 0x01 => r.log2 wOf (.or h)
  | 0x02 => r.log2 wOf (.xor h)
  | 0x03 => r.log2 wOf (.andn h)
  | 0x04 => r.log1 (.not h)
  | 0x05 => r.log2 wOf (.shl h)
  | 0x06 => r.log2 wOf (.shr h)
  | 0x07 => r.log2 swOf (.sar h)
  | 0x08 => r.log2 wOf (.rol h)
  | 0x09 => r.log2 wOf (.ror h)
  | 0x0A => r.log1 (.popc h)
  | 0x0B => r.log1 (.clz h)
  | 0x0C => r.log1 (.ctz h)
  | 0x0D => r.log1 (.brev h)
  | 0x0E => r.bin 1 (.bperm h)
  | 0x0F => r.bin 3 (.clmulLo h)
  | 0x10 => r.bin 3 (.clmulHi h)
  | 0x20 => need (r.top == 0 && r.imm.extractLsb' 16 16 == 0) <| optK (wOf r.f2) fun w =>
      srcK r.ua r.sa fun a => srcK r.ub r.sb fun b =>
        .ok (.lop3 h ⟨r.dst, a, b, r.imm.extractLsb' 0 8, r.imm.extractLsb' 8 8, w⟩)
  | 0x21 => need (!r.m 5 && !r.m 7 && r.f2 == 1 && r.imm.extractLsb' 8 24 == 0) <|
      srcK r.ua r.sa fun a => srcK r.ub r.sb fun b =>
        .ok (.fsh h ⟨r.dst, a, b, r.imm.extractLsb' 0 8, r.m 6⟩)
  | 0x22 => need (r.top == 0 && !r.ub && r.sb == 0 && (IType.ofCode r.f2).wide && r.imm.extractLsb' 16 16 == 0
        && fieldOk (IType.ofCode r.f2).bits (r.imm.extractLsb' 0 8) (r.imm.extractLsb' 8 8)) <|
      srcK r.ua r.sa fun a =>
        .ok (.bfe h ⟨r.dst, a, r.imm.extractLsb' 0 8, r.imm.extractLsb' 8 8, .ofCode r.f2⟩)
  | 0x23 => need (r.top == 0 && r.imm.extractLsb' 16 16 == 0) <| optK (wOf r.f2) fun w =>
      need (fieldOk (nW w) (r.imm.extractLsb' 0 8) (r.imm.extractLsb' 8 8)) <|
      srcK r.ua r.sa fun a => srcK r.ub r.sb fun b =>
        .ok (.bfi h ⟨r.dst, a, b, r.imm.extractLsb' 0 8, r.imm.extractLsb' 8 8, w⟩)
  | 0x28 => r.logI wOf (.andImm h)
  | 0x29 => r.logI wOf (.orImm h)
  | 0x2A => r.logI wOf (.xorImm h)
  | 0x2B => r.logI wOf (.shlImm h)
  | 0x2C => r.logI wOf (.shrImm h)
  | 0x2D => r.logI swOf (.sarImm h)
  | 0x2E => r.logI wOf (.rolImm h)
  | 0x2F => r.logI wOf (.rorImm h)
  | _ => .bad .unassigned

/-- `pand`, `por`, `pxor` (R140). -/
def Raw.plog (r : Raw) (mk : PLog → Instr) : Decoded :=
  need (r.md.extractLsb' 2 6 == 0) <| prdK r.dst fun d => prdK r.sa fun a => prdK r.sb fun b =>
    .ok (mk ⟨d, a, b, r.m 0, r.m 1⟩)

/-- Group 2 (R129, R136, R139, R140). -/
def decodeG2 (h : Hdr) (r : Raw) (off : Nat) : Decoded :=
  match off with
  | 0x00 => r.plog (.pand h)
  | 0x01 => r.plog (.por h)
  | 0x02 => r.plog (.pxor h)
  | 0x03 => need (r.sb == 0 && r.md == 0) <| prdK r.dst fun d => prdK r.sa fun a => .ok (.pnot h ⟨d, a⟩)
  | 0x04 => need (r.sa == 0 && r.sb == 0 && r.md == 0) (.ok (.p2v h r.dst))
  | 0x05 => need (r.dst == 0 && r.sb == 0 && !r.m 7) (.ok (.v2p h ⟨r.sa, r.md.extractLsb' 0 7⟩))
  | 0x08 => need (r.sb == 0 && !r.m 1 && !r.m 5 && !r.m 6) <| optK (wOf r.f2) fun w =>
      dstK (r.m 7) r.dst fun d => srcK r.ua r.sa fun a => .ok (.mov h ⟨d, a, w⟩)
  | 0x09 => need (r.sb == 0 && !r.m 1 && !r.m 5 && !r.m 6 && r.f2 == 1) <|
      dstK (r.m 7) r.dst fun d => srcK r.ua r.sa fun a => .ok (.movIndexedRead h ⟨d, a⟩)
  | 0x0A => need (r.sb == 0 && !r.m 1 && r.top == 0 && r.f2 == 1) <|
      srcK r.ua r.sa fun a => .ok (.movIndexedWrite h ⟨r.dst, a⟩)
  | 0x0B => need (!r.m 7) <| srcK r.ua r.sa fun a => srcK r.ub r.sb fun b =>
      .ok (.isel h ⟨r.dst, a, b, r.f2, r.m 5, r.m 6⟩)
  | 0x20 => need (r.sa == 0 && r.sb == 0 && r.md.extractLsb' 0 7 == 0) <|
      dstK (r.m 7) r.dst fun d => .ok (.movi h ⟨d, r.imm⟩)
  | 0x21 => need (r.top == 0 && r.imm.extractLsb' 29 3 == 0) <| optK (wOf r.f2) fun w =>
      srcK r.ua r.sa fun a => srcK r.ub r.sb fun b =>
        .ok (.lea h ⟨r.dst, a, b, r.imm.extractLsb' 0 24, r.imm.extractLsb' 24 4, r.imm.getLsbD 28, w⟩)
  | 0x22 => need (!r.m 7 && !r.m 6 && !r.ub && r.sb == 0) <| srcK r.ua r.sa fun a =>
      .ok (.iselImm h ⟨r.dst, a, r.imm, r.f2, r.m 5⟩)
  | 0x38 => need (r.sa == 0 && r.sb == 0 && r.md.extractLsb' 0 7 == 0) <|
      dstK (r.m 7) r.dst fun d => .ok (.movw h ⟨d, r.ext⟩)
  | _ => .bad .unassigned

/-- Group 3 (R141). -/
def decodeG3 (h : Hdr) (r : Raw) (off : Nat) : Decoded :=
  match off with
  | 0x00 => r.empty (.ok (.nop64 h))
  | 0x01 => r.empty (.ok (.exit h))
  | 0x02 => need (r.dst == 0 && r.sb == 0 && r.md.extractLsb' 1 7 == 0) <| srcK r.ua r.sa fun a => .ok (.ret h a)
  | 0x03 => r.empty (.ok (.yield h))
  | 0x04 => need (r.dst == 0 && r.sb == 0 && r.md.extractLsb' 1 7 == 0) <| srcK r.ua r.sa fun a => .ok (.brx h a)
  | 0x20 => r.empty (need (r.imm == 0) (.ok (.nop96 h)))
  | 0x21 => r.empty (.ok (.bra h r.imm))
  | 0x22 => need (r.sa == 0 && r.sb == 0 && r.md == 0) (.ok (.call h ⟨r.dst, r.imm⟩))
  | 0x23 => need (r.sa == 0 && r.sb == 0 && r.md == 0) (.ok (.dbra h ⟨r.dst, r.imm⟩))
  | 0x38 => r.empty (need (r.ext == 0) (.ok (.nop128 h)))
  | _ => .bad .unassigned

/-- Group 4 (R151 to R156). -/
def decodeG4 (h : Hdr) (r : Raw) (off : Nat) : Decoded :=
  match off with
  | 0x00 => r.f2op (.fadd h)
  | 0x01 => r.f2op (.fsub h)
  | 0x02 => r.f2op (.fmul h)
  | 0x03 => r.fmm (.fmin h)
  | 0x04 => r.fmm (.fmax h)
  | 0x05 => r.fcm (.fcmp h)
  | 0x06 => r.fdv (.fdiv h)
  | 0x07 => r.f1 (.fsqrt h)
  | 0x08 => r.f1 (.frcp h)
  | 0x09 => r.f1 (.frsq h)
  | 0x0A => r.f1 (.fexp2 h)
  | 0x0B => r.f1 (.flog2 h)
  | 0x0C => r.f1 (.fsin h)
  | 0x0D => r.f1 (.fcos h)
  | 0x0E => r.f1 (.frnd h)
  | 0x0F => need (r.sb == 0 && r.md.extractLsb' 1 7 == 0) <| srcK r.ua r.sa fun a => .ok (.fclass h ⟨r.dst, a⟩)
  | 0x20 => r.f3 (.ffma h)
  | 0x28 => r.fI (.faddImm h)
  | 0x29 => r.fI (.fmulImm h)
  | 0x2A => r.fmmI (.fminImm h)
  | 0x2B => r.fmmI (.fmaxImm h)
  | 0x2C => need (!r.m 7 && !r.ub && r.sb == 0) <| prdK r.dst fun p => srcK r.ua r.sa fun a =>
      .ok (.fcmpImm h ⟨p, a, r.imm, .ofCode r.f2, r.m 5, r.m 6⟩)
  | _ => .bad .unassigned

/-- Group 5 (R158 to R163). -/
def decodeG5 (h : Hdr) (r : Raw) (off : Nat) : Decoded :=
  match off with
  | 0x00 => need (!r.m 1 && !r.m 7) <| optK (Rnd.ofCode r.f2) fun rn =>
      optK (CvFmt.ofCode (r.sb.extractLsb' 0 3)) fun df => optK (CvFmt.ofCode (r.sb.extractLsb' 3 3)) fun sf =>
      need ((df.small || !r.m 6) && selOk sf (r.sb.extractLsb' 6 2)) <| srcK r.ua r.sa fun a =>
        .ok (.fcvt h ⟨r.dst, a, rn, r.m 5, r.m 6, df, sf, r.sb.extractLsb' 6 2⟩)
  | 0x01 => need (r.sb.extractLsb' 3 5 == 0) <| optK (Rnd.ofCode r.f2) fun rn =>
      optK (IFmt.ofCode (r.md.extractLsb' 6 2)) fun ff => srcK r.ua r.sa fun a =>
        .ok (.icvt h ⟨r.dst, a, r.m 1, rn, r.m 5, ff, .ofCode (r.sb.extractLsb' 0 3)⟩)
  | 0x02 => optK (Rnd.ofCode r.f2) fun rn => need ((PFmt.ofCode (r.md.extractLsb' 6 2)).small || !r.m 1) <|
      srcK r.ua r.sa fun a => .ok (.fpack h ⟨r.dst, a, r.sb, r.m 1, rn, r.m 5, .ofCode (r.md.extractLsb' 6 2)⟩)
  | 0x20 => need (!r.m 7 && r.imm.extractLsb' 8 24 == 0) <| optK (Rnd.ofCode r.f2) fun rn =>
      srcK r.ua r.sa fun a => srcK r.ub r.sb fun b =>
        .ok (.hfma2 h ⟨r.dst, a, b, r.imm.extractLsb' 0 8, rn, r.m 5, r.m 6⟩)
  | 0x21 => need (!r.m 7 && !r.m 6 && r.imm.extractLsb' 11 21 == 0) <| optK (Rnd.ofCode r.f2) fun rn =>
      optK (Dot4Fmt.ofCode (r.imm.extractLsb' 8 3)) fun ef => srcK r.ua r.sa fun a => srcK r.ub r.sb fun b =>
        .ok (.dot4 h ⟨r.dst, a, b, r.imm.extractLsb' 0 8, rn, r.m 5, ef⟩)
  | _ => .bad .unassigned

/-- Group 6 (R154, R157, R164). -/
def decodeG6 (h : Hdr) (r : Raw) (off : Nat) : Decoded :=
  match off with
  | 0x00 => r.f2op (.dadd h)
  | 0x01 => r.f2op (.dmul h)
  | 0x02 => r.fdv (.ddiv h)
  | 0x03 => r.f1 (.dsqrt h)
  | 0x04 => r.fcm (.dcmp h)
  | 0x05 => r.fmm (.dmin h)
  | 0x06 => r.fmm (.dmax h)
  | 0x07 => need (!r.m 1 && !r.m 6 && !r.m 7 && r.sb.extractLsb' 6 2 == 0) <| optK (Rnd.ofCode r.f2) fun rn =>
      optK (DKind.ofCode (r.sb.extractLsb' 0 3)) fun dk => optK (DKind.ofCode (r.sb.extractLsb' 3 3)) fun sk =>
      need (dcvtOk dk sk) <| srcK r.ua r.sa fun a => .ok (.dcvt h ⟨r.dst, a, rn, r.m 5, dk, sk⟩)
  | 0x20 => r.f3 (.dfma h)
  | _ => .bad .unassigned

/-- Group 7 (R213 to R219). -/
def decodeG7 (h : Hdr) (r : Raw) (off : Nat) : Decoded :=
  match off with
  | 0x00 => r.xchg (.xchgIdx h)
  | 0x01 => r.xchg (.xchgUp h)
  | 0x02 => r.xchg (.xchgDown h)
  | 0x03 => r.xchg (.xchgXor h)
  | 0x04 => r.vote (.voteAll h)
  | 0x05 => r.vote (.voteAny h)
  | 0x06 => need (r.sb == 0 && r.md.extractLsb' 2 5 == 0) <| dstK (r.m 7) r.dst fun d => prdK r.sa fun s =>
      .ok (.voteBallot h ⟨d, s, r.m 0, r.m 1⟩)
  | 0x07 => need (r.sb == 0 && !r.m 0 && !r.m 1 && !r.m 7) <|
      .ok (.matchB h ⟨r.dst, r.sa, r.m 2, r.m 3, r.md.extractLsb' 4 3⟩)
  | 0x08 => need (r.sb.extractLsb' 4 4 == 0 && r.md.extractLsb' 4 3 == 0) <|
      optK (RedbOp.ofCode (r.md.extractLsb' 0 4)) fun op => optK (Rnd.ofCode (r.sb.extractLsb' 0 3)) fun rn =>
      need (op.isF || (rn == .rne && !r.sb.getLsbD 3)) <| dstK (r.m 7) r.dst fun d =>
        .ok (.redb h ⟨d, r.sa, rn, r.sb.getLsbD 3, op⟩)
  | 0x09 => need (r.sa == 0 && r.sb == 0 && r.md == 0) <| prdK r.dst fun p => .ok (.elect h p)
  | 0x0A => need (r.sa == 0 && r.sb.extractLsb' 1 7 == 0) <| optK (SReg.ofCode r.md) fun s =>
      dstK (r.sb.getLsbD 0) r.dst fun d => .ok (.sread h ⟨d, s⟩)
  | _ => .bad .unassigned

/-- Group 8 (R220, R225). -/
def decodeG8 (h : Hdr) (r : Raw) (off : Nat) : Decoded :=
  match off with
  | 0x00 => r.bar (.barArr h)
  | 0x01 => r.bar (.barWait h)
  | 0x02 => r.bar (.barSync h)
  | 0x03 => r.bar (.barInv h)
  | 0x04 => r.join (.joinE h)
  | 0x05 => r.join (.joinW h)
  | 0x06 => r.join (.joinX h)
  | 0x20 => r.bar fun b => .barInit h ⟨b.n, b.sc, r.imm⟩
  | _ => .bad .unassigned

/-- Group 9 (R306, R312). -/
def decodeG9 (h : Hdr) (r : Raw) (off : Nat) : Decoded :=
  match off with
  | 0x20 => r.load true (.ld h)
  | 0x21 => r.store true (.st h)
  | 0x22 => r.load false (.lds h)
  | 0x23 => r.store false (.sts h)
  | 0x24 => need (r.md.extractLsb' 2 6 == 0 && r.imm.extractLsb' 24 8 == 0) <| srcK r.ua r.sa fun a =>
      srcK r.ub r.sb fun b => .ok (.ldf h ⟨r.dst, a, b, r.imm.extractLsb' 0 24⟩)
  | _ => .bad .unassigned

/-- Group 10 (R314 to R324). -/
def decodeG10 (h : Hdr) (r : Raw) (off : Nat) : Decoded :=
  match off with
  | 0x00 => r.onlyMod <| need (r.top == 0) <| optK (FKind.ofCode (r.md.extractLsb' 0 2)) fun k =>
      optK (Scope.ofCode r.f2) fun s => .ok (.fence h ⟨k, s⟩)
  | 0x01 => r.lineSel (.lflush h)
  | 0x02 => r.lineSel (.linv h)
  | 0x20 => need (r.imm.extractLsb' 13 3 == 0) <|
      need ((AOp.ofCode (r.imm.extractLsb' 8 4)).wide || !r.imm.getLsbD 12) <|
      need (AOp.ofCode (r.imm.extractLsb' 8 4) == .cas || r.imm.extractLsb' 0 8 == 0) <|
      r.aord fun o => srcK r.ua r.sa fun a => srcK r.ub r.sb fun b =>
        .ok (.atom h ⟨r.dst, a, b, r.imm.extractLsb' 0 8, o, .ofCode (r.imm.extractLsb' 8 4),
          r.imm.getLsbD 12, r.imm.extractLsb' 16 16⟩)
  | 0x21 => need (r.dst == 0 && r.imm.extractLsb' 13 3 == 0 && r.imm.extractLsb' 0 8 == 0) <|
      need ((AOp.ofCode (r.imm.extractLsb' 8 4)).wide || !r.imm.getLsbD 12) <|
      need ((AOp.ofCode (r.imm.extractLsb' 8 4)).inRed && !r.m 2) <|
      r.aord fun o => srcK r.ua r.sa fun a => srcK r.ub r.sb fun b =>
        .ok (.red h ⟨a, b, o, .ofCode (r.imm.extractLsb' 8 4), r.imm.getLsbD 12, r.imm.extractLsb' 16 16⟩)
  | 0x22 => need (r.sb == 0 && !r.ub && r.top == 0 && r.imm.extractLsb' 24 8 == 0) <|
      optK (LSize.ofCode r.f2) fun sz => srcK r.ua r.sa fun a =>
        .ok (.ldw h ⟨r.dst, a, sz, r.imm.extractLsb' 0 24⟩)
  | 0x23 => r.empty (.ok (.chk h r.imm))
  | 0x24 => need (r.dst == 0 && r.sb == 0 && r.md.extractLsb' 1 7 == 0 && r.imm.extractLsb' 25 7 == 0) <|
      srcK r.ua r.sa fun a => .ok (.prf h ⟨a, r.imm.extractLsb' 0 24, r.imm.getLsbD 24⟩)
  | 0x38 => need (r.dst == 0 && r.sb == 0 && r.md == 0 && r.ext.extractLsb' 32 32 == 0) <|
      uniK r.sa fun a => .ok (.rngCommit h ⟨a, r.imm⟩)
  | _ => .bad .unassigned

/-- Group 11 (R328, R336). -/
def decodeG11 (h : Hdr) (r : Raw) (off : Nat) : Decoded :=
  match off with
  | 0x00 => need (r.sb == 0 && r.md == 0) <| uniK r.dst fun d => prdK r.sa fun k => .ok (.strmPos h ⟨d, k⟩)
  | 0x01 => need (r.sb == 0 && r.md == 0) <| prdK r.dst fun k => uniK r.sa fun a => .ok (.strmSet h ⟨k, a⟩)
  | 0x02 => need (r.sb == 0 && r.md.extractLsb' 1 7 == 0) <| prdK r.dst fun p => prdK r.sa fun k =>
      .ok (.strmEnd h ⟨p, k, r.m 0⟩)
  | 0x38 => need (r.sb == 0 && r.md == 0 && r.ext.extractLsb' 14 50 == 0) <| prdK r.dst fun k =>
      uniK r.sa fun a => optK (SKind.ofCode (r.ext.extractLsb' 5 3)) fun kd =>
      let o : StrmCfg := ⟨k, a, r.ext.getLsbD 0, r.ext.getLsbD 1, r.ext.getLsbD 2, r.ext.extractLsb' 3 2, kd,
        r.ext.extractLsb' 8 4, r.ext.extractLsb' 12 2⟩
      need (strmOk o) (.ok (.strmCfg h o))
  | _ => .bad .unassigned

/-- Group 12 (R370 to R380). -/
def decodeG12 (h : Hdr) (r : Raw) (off : Nat) : Decoded :=
  match off with
  | 0x00 => need (r.dst == 0 && r.sb.extractLsb' 1 7 == 0 && r.md.extractLsb' 2 6 == 0) <|
      .ok (.waitc h ⟨r.sb.extractLsb' 0 1 ++ r.sa, .ofCode (r.md.extractLsb' 0 2)⟩)
  | 0x01 => r.onlyMod <| need (!r.m 6 && !r.m 7) (.ok (.ringWait h ⟨r.md.extractLsb' 0 3, r.md.extractLsb' 3 3⟩))
  | 0x02 => r.onlyMod <| need (r.md.extractLsb' 3 5 == 0) (.ok (.ringRel h ⟨r.md.extractLsb' 0 3⟩))
  | 0x20 => r.onlyMod <| need (!r.m 7 && !r.imm.getLsbD 31) <|
      let o : RingInit := ⟨r.md.extractLsb' 0 3, r.md.extractLsb' 3 4, r.imm.extractLsb' 0 20,
        r.imm.extractLsb' 20 11⟩
      need (ringInitOk o) (.ok (.ringInit h o))
  | 0x38 => r.cpy false (.cpy h)
  | 0x39 => r.cpy true (.cpyCol h)
  | 0x3A => need (r.md == 0 && r.ext.extractLsb' 0 4 == 0 && r.ext.extractLsb' 14 3 == 0
        && r.ext.extractLsb' 24 40 == 0) <| tileK r.dst fun x => uniK r.sa fun a => uniK r.sb fun q =>
      optK (Scope.ofCode (r.ext.extractLsb' 4 3)) fun sc => need (sc != .band) <| r.cbar fun b =>
      if r.ext.getLsbD 17 then
        .ok (.cpyPl h ⟨x, a, q, sc, b, some ⟨r.ext.extractLsb' 18 4, r.ext.extractLsb' 22 2⟩⟩)
      else need (r.ext.extractLsb' 18 6 == 0) (.ok (.cpyPl h ⟨x, a, q, sc, b, none⟩))
  | _ => .bad .unassigned

/-- Group 13 (R384 to R397). -/
def decodeG13 (h : Hdr) (r : Raw) (off : Nat) : Decoded :=
  match off with
  | 0x00 => need (r.dst == 0 && r.md.extractLsb' 1 7 == 0) <|
      if r.m 0 then need (r.sb == 0) <| uniK r.sa fun u => .ok (.gangSet h (.u u))
      else .ok (.gangSet h (.lit (r.sb ++ r.sa)))
  | 0x01 => r.empty (.ok (.gangClr h))
  | 0x02 => need (r.dst == 0 && r.sb == 0 && r.md == 0) <| uniK r.sa fun n => .ok (.cmdWait h n)
  | 0x03 => need (r.sb == 0 && r.md.extractLsb' 1 7 == 0) <| uniK r.dst fun d => tileK r.sa fun x =>
      .ok (.tileGet h ⟨d, x, r.m 0⟩)
  | 0x20 => need (!r.m 6 && !r.m 7 && r.imm.extractLsb' 16 16 == 0) <| prdK r.dst fun c =>
      optK (Pred.ofCode r.sa) fun p0 => optK (Pred.ofCode r.sb) fun p1 =>
        .ok (.accClr h ⟨c, ⟨r.md.extractLsb' 0 6, p0, p1⟩, r.imm.extractLsb' 0 16⟩)
  | 0x38 => need (r.sb == 0 && r.md.extractLsb' 1 7 == 0) <| tileK r.dst fun x =>
      if r.m 0 then need (r.ext == 0) <| uniK r.sa fun u => .ok (.tileSet h ⟨x, .u u⟩)
      else need (r.sa == 0 && tileLoOk r.ext) (.ok (.tileSet h ⟨x, .ext r.ext⟩))
  | 0x39 => need (r.md == 0 && r.ext.extractLsb' 22 42 == 0) <| prdK r.dst fun c => tileK r.sa fun xa =>
      tileK r.sb fun xb => r.mf fun m => .ok (.mma h ⟨c, xa, xb, m⟩)
  | 0x3A => need (r.md == 0 && r.ext.extractLsb' 39 25 == 0) <| tileK r.dst fun x => uniK r.sa fun a =>
      uniK r.sb fun s => r.mf fun m =>
        .ok (.planePack h ⟨x, a, s, m, r.ext.getLsbD 22, r.ext.extractLsb' 23 16⟩)
  | 0x3B => need (r.md == 0 && r.ext.extractLsb' 23 41 == 0) <| tileK r.dst fun x => uniK r.sa fun a =>
      uniK r.sb fun s => r.mf fun m => .ok (.planeUnpack h ⟨x, a, s, m, r.ext.getLsbD 22⟩)
  | 0x3C => need (r.md == 0 && r.ext.extractLsb' 60 4 == 0) <| r.mf fun m =>
      optK (Rnd.ofCode (r.ext.extractLsb' 29 3)) fun rn =>
      let fin : ArDst → Decoded := fun d =>
        let o : AccRd := ⟨d, m, r.ext.extractLsb' 22 3, .ofCode (r.ext.extractLsb' 26 2), r.ext.getLsbD 28, rn,
          r.ext.getLsbD 32, r.rect, r.ext.getLsbD 59⟩
        need (accRdOk o) (.ok (.accRd h o))
      if r.ext.getLsbD 25 then need (r.dst == 0) <| uniK r.sa fun a => uniK r.sb fun s => fin (.scr a s)
      else need (r.sa == 0 && r.sb == 0) (fin (.regs r.dst))
  | 0x3D => need (r.dst == 0 && r.md == 0 && r.ext.extractLsb' 26 7 == 0 && r.ext.extractLsb' 59 5 == 0) <|
      r.mf fun m => uniK r.sa fun a => uniK r.sb fun s => need (rectOk r.rect) <|
        .ok (.accWr h ⟨a, s, m, r.ext.extractLsb' 22 3, r.rect, r.ext.getLsbD 25⟩)
  | 0x3E => need (r.dst == 0 && r.sb == 0 && r.md == 0 && r.ext.extractLsb' 22 42 == 0) <| r.mf fun m =>
      uniK r.sa fun a => .ok (.cbtLd h ⟨a, m⟩)
  | _ => .bad .unassigned

/-- Group 14 (R412). -/
def decodeG14 (h : Hdr) (r : Raw) (off : Nat) : Decoded :=
  match off with
  | 0x00 => r.onlyMod (.ok (.trap h r.md))
  | 0x01 => r.onlyMod (.ok (.sys h r.md))
  | 0x02 => r.onlyMod (.ok (.brk h r.md))
  | 0x03 => r.onlyMod <| need (r.md.extractLsb' 1 7 == 0) (.ok (.rte h (r.m 0)))
  | 0x04 => r.onlyMod <| need (r.md.extractLsb' 1 7 == 0) (.ok (.halt h (r.m 0)))
  | 0x05 => r.onlyMod <| need (r.md.extractLsb' 2 6 == 0) <| optK (MTgt.ofCode (r.md.extractLsb' 0 2)) fun t =>
      .ok (.migr h t)
  | 0x06 => need (r.dst == 0 && r.sb == 0 && r.md == 0) <| uniK r.sa fun a => .ok (.ctxSave h a)
  | 0x07 => need (r.dst == 0 && r.sb == 0 && r.md == 0) <| uniK r.sa fun a => .ok (.ctxRest h a)
  | 0x08 => need (r.dst == 0 && r.md.extractLsb' 2 6 == 0) <|
      if r.md.extractLsb' 0 2 = 0 then need (r.sa == 0 && r.sb == 0) (.ok (.tlbinv h .all))
      else if r.md.extractLsb' 0 2 = 1 then need (r.sb == 0) <| uniK r.sa fun a => .ok (.tlbinv h (.asid a))
      else if r.md.extractLsb' 0 2 = 2 then uniK r.sa fun a => uniK r.sb fun b => .ok (.tlbinv h (.va a b))
      else .bad .reserved
  | 0x09 => need (r.dst == 0 && r.sb == 0 && r.md.extractLsb' 1 7 == 0) <| srcK r.ua r.sa fun a => .ok (.scrub h a)
  | 0x20 => need (r.sa == 0 && r.sb == 0 && r.md.extractLsb' 0 7 == 0 && r.imm.extractLsb' 12 20 == 0) <|
      dstK (r.m 7) r.dst fun d => .ok (.csrRd h ⟨d, r.imm.extractLsb' 0 12⟩)
  | 0x21 => need (r.dst == 0 && r.sb == 0 && r.md.extractLsb' 1 7 == 0 && r.imm.extractLsb' 12 20 == 0) <|
      srcK r.ua r.sa fun a => .ok (.csrWr h ⟨r.imm.extractLsb' 0 12, a⟩)
  | _ => .bad .unassigned

/-- The group decoders by group number; group 15 is unassigned (R65). -/
def decodeGroup (g : Nat) (h : Hdr) (r : Raw) (off : Nat) : Decoded :=
  match g with
  | 0 => decodeG0 h r off
  | 1 => decodeG1 h r off
  | 2 => decodeG2 h r off
  | 3 => decodeG3 h r off
  | 4 => decodeG4 h r off
  | 5 => decodeG5 h r off
  | 6 => decodeG6 h r off
  | 7 => decodeG7 h r off
  | 8 => decodeG8 h r off
  | 9 => decodeG9 h r off
  | 10 => decodeG10 h r off
  | 11 => decodeG11 h r off
  | 12 => decodeG12 h r off
  | 13 => decodeG13 h r off
  | 14 => decodeG14 h r off
  | _ => .bad .unassigned

/-- Decodes the fields of a word: orders 2 and 4 of R68, without the privilege check. -/
def decodeRaw (r : Raw) : Decoded :=
  if r.len = 3 then .bad .lenReserved
  else if r.len ≠ lenCode r.opc then .bad .lenMismatch
  else need (!r.r21 && r.sett != 6) (decodeGroup (r.opc.toNat / 64) r.hdr r (r.opc.toNat % 64))

/-- Decodes a word; bits above its length do not matter. -/
def decode (w : BitVec 128) : Decoded := decodeRaw (unpack w)

/-! ### Encoding -/

/-- OPC of a program instruction (R65); a device event has none. -/
def Instr.opc? (i : Instr) : Option (BitVec 10) :=
  match i with
  | .iadd _ _ => some 0x000
  | .isub _ _ => some 0x001
  | .imul _ _ => some 0x002
  | .imulh _ _ => some 0x003
  | .ineg _ _ => some 0x004
  | .iabs _ _ => some 0x005
  | .imin _ _ => some 0x006
  | .imax _ _ => some 0x007
  | .iaddsat _ _ => some 0x008
  | .isubsat _ _ => some 0x009
  | .icmp _ _ => some 0x00A
  | .idiv _ _ => some 0x00B
  | .irem _ _ => some 0x00C
  | .imad _ _ => some 0x020
  | .imadw _ _ => some 0x021
  | .iclamp _ _ => some 0x022
  | .iaddImm _ _ => some 0x028
  | .isubImm _ _ => some 0x029
  | .imulImm _ _ => some 0x02A
  | .iminImm _ _ => some 0x02B
  | .imaxImm _ _ => some 0x02C
  | .icmpImm _ _ => some 0x02D
  | .idivImm _ _ => some 0x02E
  | .iremImm _ _ => some 0x02F
  | .and _ _ => some 0x040
  | .or _ _ => some 0x041
  | .xor _ _ => some 0x042
  | .andn _ _ => some 0x043
  | .not _ _ => some 0x044
  | .shl _ _ => some 0x045
  | .shr _ _ => some 0x046
  | .sar _ _ => some 0x047
  | .rol _ _ => some 0x048
  | .ror _ _ => some 0x049
  | .popc _ _ => some 0x04A
  | .clz _ _ => some 0x04B
  | .ctz _ _ => some 0x04C
  | .brev _ _ => some 0x04D
  | .bperm _ _ => some 0x04E
  | .clmulLo _ _ => some 0x04F
  | .clmulHi _ _ => some 0x050
  | .lop3 _ _ => some 0x060
  | .fsh _ _ => some 0x061
  | .bfe _ _ => some 0x062
  | .bfi _ _ => some 0x063
  | .andImm _ _ => some 0x068
  | .orImm _ _ => some 0x069
  | .xorImm _ _ => some 0x06A
  | .shlImm _ _ => some 0x06B
  | .shrImm _ _ => some 0x06C
  | .sarImm _ _ => some 0x06D
  | .rolImm _ _ => some 0x06E
  | .rorImm _ _ => some 0x06F
  | .pand _ _ => some 0x080
  | .por _ _ => some 0x081
  | .pxor _ _ => some 0x082
  | .pnot _ _ => some 0x083
  | .p2v _ _ => some 0x084
  | .v2p _ _ => some 0x085
  | .mov _ _ => some 0x088
  | .movIndexedRead _ _ => some 0x089
  | .movIndexedWrite _ _ => some 0x08A
  | .isel _ _ => some 0x08B
  | .iselImm _ _ => some 0x0A2
  | .movi _ _ => some 0x0A0
  | .lea _ _ => some 0x0A1
  | .movw _ _ => some 0x0B8
  | .nop64 _ => some 0x0C0
  | .exit _ => some 0x0C1
  | .ret _ _ => some 0x0C2
  | .yield _ => some 0x0C3
  | .brx _ _ => some 0x0C4
  | .nop96 _ => some 0x0E0
  | .bra _ _ => some 0x0E1
  | .call _ _ => some 0x0E2
  | .dbra _ _ => some 0x0E3
  | .nop128 _ => some 0x0F8
  | .fadd _ _ => some 0x100
  | .fsub _ _ => some 0x101
  | .fmul _ _ => some 0x102
  | .fmin _ _ => some 0x103
  | .fmax _ _ => some 0x104
  | .fcmp _ _ => some 0x105
  | .fdiv _ _ => some 0x106
  | .fsqrt _ _ => some 0x107
  | .frcp _ _ => some 0x108
  | .frsq _ _ => some 0x109
  | .fexp2 _ _ => some 0x10A
  | .flog2 _ _ => some 0x10B
  | .fsin _ _ => some 0x10C
  | .fcos _ _ => some 0x10D
  | .frnd _ _ => some 0x10E
  | .fclass _ _ => some 0x10F
  | .ffma _ _ => some 0x120
  | .faddImm _ _ => some 0x128
  | .fmulImm _ _ => some 0x129
  | .fminImm _ _ => some 0x12A
  | .fmaxImm _ _ => some 0x12B
  | .fcmpImm _ _ => some 0x12C
  | .fcvt _ _ => some 0x140
  | .icvt _ _ => some 0x141
  | .fpack _ _ => some 0x142
  | .hfma2 _ _ => some 0x160
  | .dot4 _ _ => some 0x161
  | .dadd _ _ => some 0x180
  | .dmul _ _ => some 0x181
  | .ddiv _ _ => some 0x182
  | .dsqrt _ _ => some 0x183
  | .dcmp _ _ => some 0x184
  | .dmin _ _ => some 0x185
  | .dmax _ _ => some 0x186
  | .dcvt _ _ => some 0x187
  | .dfma _ _ => some 0x1A0
  | .xchgIdx _ _ => some 0x1C0
  | .xchgUp _ _ => some 0x1C1
  | .xchgDown _ _ => some 0x1C2
  | .xchgXor _ _ => some 0x1C3
  | .voteAll _ _ => some 0x1C4
  | .voteAny _ _ => some 0x1C5
  | .voteBallot _ _ => some 0x1C6
  | .matchB _ _ => some 0x1C7
  | .redb _ _ => some 0x1C8
  | .elect _ _ => some 0x1C9
  | .sread _ _ => some 0x1CA
  | .barArr _ _ => some 0x200
  | .barWait _ _ => some 0x201
  | .barSync _ _ => some 0x202
  | .barInv _ _ => some 0x203
  | .barInit _ _ => some 0x220
  | .joinE _ _ => some 0x204
  | .joinW _ _ => some 0x205
  | .joinX _ _ => some 0x206
  | .ld _ _ => some 0x260
  | .st _ _ => some 0x261
  | .lds _ _ => some 0x262
  | .sts _ _ => some 0x263
  | .ldf _ _ => some 0x264
  | .fence _ _ => some 0x280
  | .lflush _ _ => some 0x281
  | .linv _ _ => some 0x282
  | .atom _ _ => some 0x2A0
  | .red _ _ => some 0x2A1
  | .ldw _ _ => some 0x2A2
  | .chk _ _ => some 0x2A3
  | .prf _ _ => some 0x2A4
  | .rngCommit _ _ => some 0x2B8
  | .strmPos _ _ => some 0x2C0
  | .strmSet _ _ => some 0x2C1
  | .strmEnd _ _ => some 0x2C2
  | .strmCfg _ _ => some 0x2F8
  | .waitc _ _ => some 0x300
  | .ringWait _ _ => some 0x301
  | .ringRel _ _ => some 0x302
  | .ringInit _ _ => some 0x320
  | .cpy _ _ => some 0x338
  | .cpyCol _ _ => some 0x339
  | .cpyPl _ _ => some 0x33A
  | .gangSet _ _ => some 0x340
  | .gangClr _ => some 0x341
  | .cmdWait _ _ => some 0x342
  | .tileGet _ _ => some 0x343
  | .accClr _ _ => some 0x360
  | .tileSet _ _ => some 0x378
  | .mma _ _ => some 0x379
  | .planePack _ _ => some 0x37A
  | .planeUnpack _ _ => some 0x37B
  | .accRd _ _ => some 0x37C
  | .accWr _ _ => some 0x37D
  | .cbtLd _ _ => some 0x37E
  | .trap _ _ => some 0x380
  | .sys _ _ => some 0x381
  | .brk _ _ => some 0x382
  | .rte _ _ => some 0x383
  | .halt _ _ => some 0x384
  | .migr _ _ => some 0x385
  | .ctxSave _ _ => some 0x386
  | .ctxRest _ _ => some 0x387
  | .tlbinv _ _ => some 0x388
  | .scrub _ _ => some 0x389
  | .csrRd _ _ => some 0x3A0
  | .csrWr _ _ => some 0x3A1
  | .asyncTrapEntry _ _ => none
  | .forcedRelease _ _ => none
  | .lqdbDoorbell _ _ _ => none
  | .lqctlEn _ _ _ => none
  | .lqctlErrClear _ _ _ => none
  | .noopPacket _ _ => none
  | .launchPacket _ _ => none
  | .markerPacket _ _ => none
  | .contextUpdatePacket _ _ => none
  | .markerCompletion _ => none
  | .contextUpdate _ => none
  | .blockPlacement => none
  | .carveOutChange _ _ => none
  | .preemption => none
  | .blockResume _ => none
  | .blockEnd _ => none
  | .gridCompletion _ => none
  | .gridFailure _ => none
  | .loadRequest _ => none
  | .loadReply _ => none
  | .storeArrival _ => none
  | .storeCompletion _ => none
  | .recall _ => none
  | .ownerWriteback _ => none
  | .ownershipGrant _ => none
  | .leaseExpiry _ _ => none
  | .watchCheck _ => none
  | .watchAnswer _ => none
  | .packetDelivery _ => none
  | .pageWalk _ _ _ => none
  | .prsp _ _ => none
  | .flogctlWrite _ _ => none
  | .copySegment _ _ _ => none
  | .copyCompletion _ _ => none
  | .collectiveAcceptance _ _ => none
  | .commandAcceptance _ _ => none
  | .commandStart _ _ => none
  | .commandRetire _ _ => none
  | .streamReadahead _ _ _ => none
  | .pushRetire _ _ => none
  | .remoteOperation _ _ _ _ => none
  | .remoteCompletion _ _ _ => none
  | .replayPlacement _ => none
  | .holdTimeout _ => none
  | .loanCycleBreak _ => none
  | .capacityTimeout _ => none
  | .cdemFenced _ => none
  | .coreFailure _ => none
  | .stackRequest _ => none
  | .stackReply _ _ _ => none
  | .dieLinkFlit _ _ => none
  | .solustFlit _ _ _ => none
  | .ckpctlSave => none
  | .ckpctlRestore => none
  | .checkpointRequestFlit _ _ _ => none
  | .checkpointEnd _ => none
  | .fleetKeyDelivery _ => none
  | .hostWindowAccess _ => none
  | .hcwinWrite _ => none
  | .keymapWrite _ _ => none
  | .firmwareLoad _ _ => none
  | .powerUp => none
  | .thermalShutdown => none
  | .clockThrottle _ => none
  | .getVersion => none
  | .getCapabilities => none
  | .negotiateAlgorithms => none
  | .getDigests => none
  | .getCertificate => none
  | .challenge _ => none
  | .getMeasurements _ => none
  | .keyExchange _ _ => none
  | .finish _ => none
  | .endSession => none
  | .ideKm _ _ => none
  | .lockInterface _ _ => none
  | .interfaceUnlock _ _ => none
  | .policyDelivery _ _ => none
  | .condreq => none
  | .conditionReportSpdm _ => none
  | .conditionReportFlit _ _ => none
  | .debugHalt _ _ => none
  | .debugResume _ _ => none
  | .debugStep _ _ => none
  | .debugReadRegister _ _ => none
  | .debugWriteRegister _ _ => none
  | .lmctlTrack _ _ => none
  | .lmctlSnap _ => none
  | .lmctlQuiesce _ => none
  | .quiesceDone _ => none
  | .lmctlResume _ => none
  | .unitRetirement _ => none
  | .deviceReset => none
  | .registerWrite _ _ _ => none
  | .releaseWait _ _ => none
  | .interfaceRun _ => none
  | .linkFailure _ => none

/-- The control header of a program instruction; a device event has none. -/
def Instr.hdr? (i : Instr) : Option Hdr :=
  match i with
  | .iadd h _ => some h
  | .isub h _ => some h
  | .imul h _ => some h
  | .imulh h _ => some h
  | .ineg h _ => some h
  | .iabs h _ => some h
  | .imin h _ => some h
  | .imax h _ => some h
  | .iaddsat h _ => some h
  | .isubsat h _ => some h
  | .icmp h _ => some h
  | .idiv h _ => some h
  | .irem h _ => some h
  | .imad h _ => some h
  | .imadw h _ => some h
  | .iclamp h _ => some h
  | .iaddImm h _ => some h
  | .isubImm h _ => some h
  | .imulImm h _ => some h
  | .iminImm h _ => some h
  | .imaxImm h _ => some h
  | .icmpImm h _ => some h
  | .idivImm h _ => some h
  | .iremImm h _ => some h
  | .and h _ => some h
  | .or h _ => some h
  | .xor h _ => some h
  | .andn h _ => some h
  | .not h _ => some h
  | .shl h _ => some h
  | .shr h _ => some h
  | .sar h _ => some h
  | .rol h _ => some h
  | .ror h _ => some h
  | .popc h _ => some h
  | .clz h _ => some h
  | .ctz h _ => some h
  | .brev h _ => some h
  | .bperm h _ => some h
  | .clmulLo h _ => some h
  | .clmulHi h _ => some h
  | .lop3 h _ => some h
  | .fsh h _ => some h
  | .bfe h _ => some h
  | .bfi h _ => some h
  | .andImm h _ => some h
  | .orImm h _ => some h
  | .xorImm h _ => some h
  | .shlImm h _ => some h
  | .shrImm h _ => some h
  | .sarImm h _ => some h
  | .rolImm h _ => some h
  | .rorImm h _ => some h
  | .pand h _ => some h
  | .por h _ => some h
  | .pxor h _ => some h
  | .pnot h _ => some h
  | .p2v h _ => some h
  | .v2p h _ => some h
  | .mov h _ => some h
  | .movIndexedRead h _ => some h
  | .movIndexedWrite h _ => some h
  | .isel h _ => some h
  | .iselImm h _ => some h
  | .movi h _ => some h
  | .lea h _ => some h
  | .movw h _ => some h
  | .nop64 h => some h
  | .exit h => some h
  | .ret h _ => some h
  | .yield h => some h
  | .brx h _ => some h
  | .nop96 h => some h
  | .bra h _ => some h
  | .call h _ => some h
  | .dbra h _ => some h
  | .nop128 h => some h
  | .fadd h _ => some h
  | .fsub h _ => some h
  | .fmul h _ => some h
  | .fmin h _ => some h
  | .fmax h _ => some h
  | .fcmp h _ => some h
  | .fdiv h _ => some h
  | .fsqrt h _ => some h
  | .frcp h _ => some h
  | .frsq h _ => some h
  | .fexp2 h _ => some h
  | .flog2 h _ => some h
  | .fsin h _ => some h
  | .fcos h _ => some h
  | .frnd h _ => some h
  | .fclass h _ => some h
  | .ffma h _ => some h
  | .faddImm h _ => some h
  | .fmulImm h _ => some h
  | .fminImm h _ => some h
  | .fmaxImm h _ => some h
  | .fcmpImm h _ => some h
  | .fcvt h _ => some h
  | .icvt h _ => some h
  | .fpack h _ => some h
  | .hfma2 h _ => some h
  | .dot4 h _ => some h
  | .dadd h _ => some h
  | .dmul h _ => some h
  | .ddiv h _ => some h
  | .dsqrt h _ => some h
  | .dcmp h _ => some h
  | .dmin h _ => some h
  | .dmax h _ => some h
  | .dcvt h _ => some h
  | .dfma h _ => some h
  | .xchgIdx h _ => some h
  | .xchgUp h _ => some h
  | .xchgDown h _ => some h
  | .xchgXor h _ => some h
  | .voteAll h _ => some h
  | .voteAny h _ => some h
  | .voteBallot h _ => some h
  | .matchB h _ => some h
  | .redb h _ => some h
  | .elect h _ => some h
  | .sread h _ => some h
  | .barArr h _ => some h
  | .barWait h _ => some h
  | .barSync h _ => some h
  | .barInv h _ => some h
  | .barInit h _ => some h
  | .joinE h _ => some h
  | .joinW h _ => some h
  | .joinX h _ => some h
  | .ld h _ => some h
  | .st h _ => some h
  | .lds h _ => some h
  | .sts h _ => some h
  | .ldf h _ => some h
  | .fence h _ => some h
  | .lflush h _ => some h
  | .linv h _ => some h
  | .atom h _ => some h
  | .red h _ => some h
  | .ldw h _ => some h
  | .chk h _ => some h
  | .prf h _ => some h
  | .rngCommit h _ => some h
  | .strmPos h _ => some h
  | .strmSet h _ => some h
  | .strmEnd h _ => some h
  | .strmCfg h _ => some h
  | .waitc h _ => some h
  | .ringWait h _ => some h
  | .ringRel h _ => some h
  | .ringInit h _ => some h
  | .cpy h _ => some h
  | .cpyCol h _ => some h
  | .cpyPl h _ => some h
  | .gangSet h _ => some h
  | .gangClr h => some h
  | .cmdWait h _ => some h
  | .tileGet h _ => some h
  | .accClr h _ => some h
  | .tileSet h _ => some h
  | .mma h _ => some h
  | .planePack h _ => some h
  | .planeUnpack h _ => some h
  | .accRd h _ => some h
  | .accWr h _ => some h
  | .cbtLd h _ => some h
  | .trap h _ => some h
  | .sys h _ => some h
  | .brk h _ => some h
  | .rte h _ => some h
  | .halt h _ => some h
  | .migr h _ => some h
  | .ctxSave h _ => some h
  | .ctxRest h _ => some h
  | .tlbinv h _ => some h
  | .scrub h _ => some h
  | .csrRd h _ => some h
  | .csrWr h _ => some h
  | .asyncTrapEntry _ _ => none
  | .forcedRelease _ _ => none
  | .lqdbDoorbell _ _ _ => none
  | .lqctlEn _ _ _ => none
  | .lqctlErrClear _ _ _ => none
  | .noopPacket _ _ => none
  | .launchPacket _ _ => none
  | .markerPacket _ _ => none
  | .contextUpdatePacket _ _ => none
  | .markerCompletion _ => none
  | .contextUpdate _ => none
  | .blockPlacement => none
  | .carveOutChange _ _ => none
  | .preemption => none
  | .blockResume _ => none
  | .blockEnd _ => none
  | .gridCompletion _ => none
  | .gridFailure _ => none
  | .loadRequest _ => none
  | .loadReply _ => none
  | .storeArrival _ => none
  | .storeCompletion _ => none
  | .recall _ => none
  | .ownerWriteback _ => none
  | .ownershipGrant _ => none
  | .leaseExpiry _ _ => none
  | .watchCheck _ => none
  | .watchAnswer _ => none
  | .packetDelivery _ => none
  | .pageWalk _ _ _ => none
  | .prsp _ _ => none
  | .flogctlWrite _ _ => none
  | .copySegment _ _ _ => none
  | .copyCompletion _ _ => none
  | .collectiveAcceptance _ _ => none
  | .commandAcceptance _ _ => none
  | .commandStart _ _ => none
  | .commandRetire _ _ => none
  | .streamReadahead _ _ _ => none
  | .pushRetire _ _ => none
  | .remoteOperation _ _ _ _ => none
  | .remoteCompletion _ _ _ => none
  | .replayPlacement _ => none
  | .holdTimeout _ => none
  | .loanCycleBreak _ => none
  | .capacityTimeout _ => none
  | .cdemFenced _ => none
  | .coreFailure _ => none
  | .stackRequest _ => none
  | .stackReply _ _ _ => none
  | .dieLinkFlit _ _ => none
  | .solustFlit _ _ _ => none
  | .ckpctlSave => none
  | .ckpctlRestore => none
  | .checkpointRequestFlit _ _ _ => none
  | .checkpointEnd _ => none
  | .fleetKeyDelivery _ => none
  | .hostWindowAccess _ => none
  | .hcwinWrite _ => none
  | .keymapWrite _ _ => none
  | .firmwareLoad _ _ => none
  | .powerUp => none
  | .thermalShutdown => none
  | .clockThrottle _ => none
  | .getVersion => none
  | .getCapabilities => none
  | .negotiateAlgorithms => none
  | .getDigests => none
  | .getCertificate => none
  | .challenge _ => none
  | .getMeasurements _ => none
  | .keyExchange _ _ => none
  | .finish _ => none
  | .endSession => none
  | .ideKm _ _ => none
  | .lockInterface _ _ => none
  | .interfaceUnlock _ _ => none
  | .policyDelivery _ _ => none
  | .condreq => none
  | .conditionReportSpdm _ => none
  | .conditionReportFlit _ _ => none
  | .debugHalt _ _ => none
  | .debugResume _ _ => none
  | .debugStep _ _ => none
  | .debugReadRegister _ _ => none
  | .debugWriteRegister _ _ => none
  | .lmctlTrack _ _ => none
  | .lmctlSnap _ => none
  | .lmctlQuiesce _ => none
  | .quiesceDone _ => none
  | .lmctlResume _ => none
  | .unitRetirement _ => none
  | .deviceReset => none
  | .registerWrite _ _ _ => none
  | .releaseWait _ _ => none
  | .interfaceRun _ => none
  | .linkFailure _ => none

/-- A flag as one bit. -/
abbrev eb (b : Bool) : BitVec 1 := BitVec.ofBool b
/-- A three-bit specifier (R53). -/
abbrev e3 (p : BitVec 3) : BitVec 8 := 0#5 ++ p
/-- A uniform specifier (R53). -/
abbrev eU (r : BitVec 6) : BitVec 8 := 0#2 ++ r
/-- IMM in EXT's low half (R52). -/
abbrev eImm (i : Word) : DWord := 0#32 ++ i

def Src.isU : Src → Bool
  | .v _ => false
  | .u _ => true

def Src.spec : Src → BitVec 8
  | .v r => r
  | .u r => eU r

def Dst.isU : Dst → Bool
  | .v _ => false
  | .u _ => true

def Dst.spec : Dst → BitVec 8
  | .v r => r
  | .u r => eU r

def XB.code : XB → BitVec 2
  | .v _ => 0
  | .u _ => 1
  | .lit _ => 2

def XB.spec : XB → BitVec 8
  | .v r => r
  | .u r => eU r
  | .lit n => eU n

def BNum.isU : BNum → Bool
  | .lit _ => false
  | .u _ => true

def BNum.spec : BNum → BitVec 8
  | .lit n => 0#4 ++ n
  | .u r => eU r

def LOrd.code : LOrd → BitVec 2
  | .rlx => 0
  | .sync _ => 1
  | .unc => 2

def LOrd.scope : LOrd → BitVec 3
  | .rlx => 0
  | .sync s => s.code
  | .unc => 0

def AOrd.code : AOrd → BitVec 2
  | .rlx => 0
  | .acq _ => 1
  | .rel _ => 2
  | .ar _ => 3

def AOrd.scope : AOrd → BitVec 3
  | .rlx => 0
  | .acq s => s.code
  | .rel s => s.code
  | .ar s => s.code

/-- The MOD layout of R54, with MOD[7:5] zero. -/
def m54 (ua ub : Bool) (t : BitVec 3) : BitVec 8 := 0#3 ++ t ++ eb ub ++ eb ua

/-- The MOD layout of R148. -/
def m148 (ua ub : Bool) (r : Rnd) (ftz b6 b7 : Bool) : BitVec 8 :=
  eb b7 ++ eb b6 ++ eb ftz ++ r.code ++ eb ub ++ eb ua

def eInt2 (o : Int2) : Body := { dst := o.d, sa := o.a.spec, sb := o.b.spec, md := m54 o.a.isU o.b.isU o.t.code }

def eInt1 (o : Int1) : Body := { dst := o.d, sa := o.a.spec, md := m54 o.a.isU false o.t.code }

def eInt3 (o : Int3) : Body :=
  { dst := o.d, sa := o.a.spec, sb := o.b.spec, md := m54 o.a.isU o.b.isU o.t.code, ext := eImm (0#24 ++ o.c) }

def eIntI (o : IntI) : Body :=
  { dst := o.d, sa := o.a.spec, md := m54 o.a.isU false o.t.code, ext := eImm o.imm }

def eLog2 (t : BitVec 3) (o : Log2) : Body :=
  { dst := o.d, sa := o.a.spec, sb := o.b.spec, md := m54 o.a.isU o.b.isU t }

def eLogI (t : BitVec 3) (o : LogI) : Body :=
  { dst := o.d, sa := o.a.spec, md := m54 o.a.isU false t, ext := eImm o.imm }

/-- BS, BN and BE (R371). -/
def eBar : Option CBar → BitVec 7
  | none => 0
  | some b => b.sc.code ++ b.n ++ 1#1

/-- XEGEO, XEFMT and XF (R378). -/
def eXf : Option XFmt → BitVec 7
  | none => 0
  | some x => x.egeo ++ x.efmt ++ 1#1

/-- P1, P0 and ID (R386). -/
def eMf (m : MFields) : BitVec 22 := m.p1.code ++ m.p0.code ++ m.id

/-- COLS, COL0, ROWS and ROW0 (R392). -/
def eRect (r : Rect) : BitVec 26 := r.cols ++ r.col0 ++ r.rows ++ r.row0

def eAccRd (o : AccRd) : Body :=
  let x (dk : Bool) : DWord := 0#4 ++ eb o.raw ++ eRect o.rect ++ eb o.ftz ++ o.rnd.code ++ eb o.ovr ++ o.cf.code
    ++ eb dk ++ o.acc ++ eMf o.m
  match o.dst with
  | .regs d => { dst := d, ext := x false }
  | .scr a s => { sa := eU a, sb := eU s, ext := x true }

/-- The body of a program instruction; a device event has none. -/
def Instr.body (i : Instr) : Body :=
  match i with
  | .iadd _ o => eInt2 o
  | .isub _ o => eInt2 o
  | .imul _ o => eInt2 o
  | .imulh _ o => eInt2 o
  | .ineg _ o => eInt1 o
  | .iabs _ o => eInt1 o
  | .imin _ o => eInt2 o
  | .imax _ o => eInt2 o
  | .iaddsat _ o => eInt2 o
  | .isubsat _ o => eInt2 o
  | .icmp _ o =>
    { dst := e3 o.p, sa := o.a.spec, sb := o.b.spec, md := o.cc.code ++ o.t.code ++ eb o.b.isU ++ eb o.a.isU }
  | .idiv _ o => eInt2 o
  | .irem _ o => eInt2 o
  | .imad _ o => eInt3 o
  | .imadw _ o => eInt3 o
  | .iclamp _ o => eInt3 o
  | .iaddImm _ o => eIntI o
  | .isubImm _ o => eIntI o
  | .imulImm _ o => eIntI o
  | .iminImm _ o => eIntI o
  | .imaxImm _ o => eIntI o
  | .icmpImm _ o =>
    { dst := e3 o.p, sa := o.a.spec, md := o.cc.code ++ o.t.code ++ 0#1 ++ eb o.a.isU, ext := eImm o.imm }
  | .idivImm _ o => eIntI o
  | .iremImm _ o => eIntI o
  | .and _ o => eLog2 (wCode o.w64) o
  | .or _ o => eLog2 (wCode o.w64) o
  | .xor _ o => eLog2 (wCode o.w64) o
  | .andn _ o => eLog2 (wCode o.w64) o
  | .not _ o => { dst := o.d, sa := o.a.spec, md := m54 o.a.isU false (wCode o.w64) }
  | .shl _ o => eLog2 (wCode o.w64) o
  | .shr _ o => eLog2 (wCode o.w64) o
  | .sar _ o => eLog2 (swCode o.w64) o
  | .rol _ o => eLog2 (wCode o.w64) o
  | .ror _ o => eLog2 (wCode o.w64) o
  | .popc _ o => { dst := o.d, sa := o.a.spec, md := m54 o.a.isU false (wCode o.w64) }
  | .clz _ o => { dst := o.d, sa := o.a.spec, md := m54 o.a.isU false (wCode o.w64) }
  | .ctz _ o => { dst := o.d, sa := o.a.spec, md := m54 o.a.isU false (wCode o.w64) }
  | .brev _ o => { dst := o.d, sa := o.a.spec, md := m54 o.a.isU false (wCode o.w64) }
  | .bperm _ o => { dst := o.d, sa := o.a.spec, sb := o.b.spec, md := m54 o.a.isU o.b.isU 1 }
  | .clmulLo _ o => { dst := o.d, sa := o.a.spec, sb := o.b.spec, md := m54 o.a.isU o.b.isU 3 }
  | .clmulHi _ o => { dst := o.d, sa := o.a.spec, sb := o.b.spec, md := m54 o.a.isU o.b.isU 3 }
  | .lop3 _ o =>
    { dst := o.d, sa := o.a.spec, sb := o.b.spec, md := m54 o.a.isU o.b.isU (wCode o.w64), ext := eImm (0#16 ++ o.lut ++ o.c) }
  | .fsh _ o =>
    { dst := o.d, sa := o.a.spec, sb := o.b.spec, md := 0#1 ++ eb o.right ++ 0#1 ++ 1#3 ++ eb o.b.isU ++ eb o.a.isU, ext := eImm (0#24 ++ o.c) }
  | .bfe _ o =>
    { dst := o.d, sa := o.a.spec, md := m54 o.a.isU false o.t.code, ext := eImm (0#16 ++ o.len ++ o.pos) }
  | .bfi _ o =>
    { dst := o.d, sa := o.a.spec, sb := o.b.spec, md := m54 o.a.isU o.b.isU (wCode o.w64), ext := eImm (0#16 ++ o.len ++ o.pos) }
  | .andImm _ o => eLogI (wCode o.w64) o
  | .orImm _ o => eLogI (wCode o.w64) o
  | .xorImm _ o => eLogI (wCode o.w64) o
  | .shlImm _ o => eLogI (wCode o.w64) o
  | .shrImm _ o => eLogI (wCode o.w64) o
  | .sarImm _ o => eLogI (swCode o.w64) o
  | .rolImm _ o => eLogI (wCode o.w64) o
  | .rorImm _ o => eLogI (wCode o.w64) o
  | .pand _ o => { dst := e3 o.d, sa := e3 o.a, sb := e3 o.b, md := 0#6 ++ eb o.nb ++ eb o.na }
  | .por _ o => { dst := e3 o.d, sa := e3 o.a, sb := e3 o.b, md := 0#6 ++ eb o.nb ++ eb o.na }
  | .pxor _ o => { dst := e3 o.d, sa := e3 o.a, sb := e3 o.b, md := 0#6 ++ eb o.nb ++ eb o.na }
  | .pnot _ o => { dst := e3 o.d, sa := e3 o.a }
  | .p2v _ d => { dst := d }
  | .v2p _ o => { sa := o.a, md := 0#1 ++ o.mask }
  | .mov _ o =>
    { dst := o.d.spec, sa := o.a.spec, md := eb o.d.isU ++ 0#2 ++ wCode o.w64 ++ 0#1 ++ eb o.a.isU }
  | .movIndexedRead _ o =>
    { dst := o.d.spec, sa := o.k.spec, md := eb o.d.isU ++ 0#2 ++ 1#3 ++ 0#1 ++ eb o.k.isU }
  | .movIndexedWrite _ o => { dst := o.k, sa := o.a.spec, md := 0#3 ++ 1#3 ++ 0#1 ++ eb o.a.isU }
  | .isel _ o =>
    { dst := o.d, sa := o.a.spec, sb := o.b.spec, md := 0#1 ++ eb o.w64 ++ eb o.pn ++ o.ps ++ eb o.b.isU ++ eb o.a.isU }
  | .iselImm _ o =>
    { dst := o.d, sa := o.a.spec, md := 0#2 ++ eb o.pn ++ o.ps ++ 0#1 ++ eb o.a.isU, ext := eImm o.imm }
  | .movi _ o => { dst := o.d.spec, md := eb o.d.isU ++ 0#7, ext := eImm o.imm }
  | .lea _ o =>
    { dst := o.d, sa := o.base.spec, sb := o.idx.spec, md := m54 o.base.isU o.idx.isU (wCode o.w64), ext := eImm (0#3 ++ eb o.sx ++ o.sh ++ o.disp) }
  | .movw _ o => { dst := o.d.spec, md := eb o.d.isU ++ 0#7, ext := o.imm }
  | .nop64 _ => {}
  | .exit _ => {}
  | .ret _ a => { sa := a.spec, md := 0#7 ++ eb a.isU }
  | .yield _ => {}
  | .brx _ a => { sa := a.spec, md := 0#7 ++ eb a.isU }
  | .nop96 _ => {}
  | .bra _ o => { ext := eImm o }
  | .call _ o => { dst := o.d, ext := eImm o.off }
  | .dbra _ o => { dst := o.d, ext := eImm o.off }
  | .nop128 _ => {}
  | .fadd _ o =>
    { dst := o.d, sa := o.a.spec, sb := o.b.spec, md := m148 o.a.isU o.b.isU o.rnd o.ftz o.na o.nb }
  | .fsub _ o =>
    { dst := o.d, sa := o.a.spec, sb := o.b.spec, md := m148 o.a.isU o.b.isU o.rnd o.ftz o.na o.nb }
  | .fmul _ o =>
    { dst := o.d, sa := o.a.spec, sb := o.b.spec, md := m148 o.a.isU o.b.isU o.rnd o.ftz o.na o.nb }
  | .fmin _ o =>
    { dst := o.d, sa := o.a.spec, sb := o.b.spec, md := m148 o.a.isU o.b.isU .rne o.ftz false false }
  | .fmax _ o =>
    { dst := o.d, sa := o.a.spec, sb := o.b.spec, md := m148 o.a.isU o.b.isU .rne o.ftz false false }
  | .fcmp _ o =>
    { dst := e3 o.p, sa := o.a.spec, sb := o.b.spec, md := 0#1 ++ eb o.sig ++ eb o.ftz ++ o.cc.code ++ eb o.b.isU ++ eb o.a.isU }
  | .fdiv _ o =>
    { dst := o.d, sa := o.a.spec, sb := o.b.spec, md := m148 o.a.isU o.b.isU o.rnd o.ftz false false }
  | .fsqrt _ o => { dst := o.d, sa := o.a.spec, md := m148 o.a.isU false o.rnd o.ftz false false }
  | .frcp _ o => { dst := o.d, sa := o.a.spec, md := m148 o.a.isU false o.rnd o.ftz false false }
  | .frsq _ o => { dst := o.d, sa := o.a.spec, md := m148 o.a.isU false o.rnd o.ftz false false }
  | .fexp2 _ o => { dst := o.d, sa := o.a.spec, md := m148 o.a.isU false o.rnd o.ftz false false }
  | .flog2 _ o => { dst := o.d, sa := o.a.spec, md := m148 o.a.isU false o.rnd o.ftz false false }
  | .fsin _ o => { dst := o.d, sa := o.a.spec, md := m148 o.a.isU false o.rnd o.ftz false false }
  | .fcos _ o => { dst := o.d, sa := o.a.spec, md := m148 o.a.isU false o.rnd o.ftz false false }
  | .frnd _ o => { dst := o.d, sa := o.a.spec, md := m148 o.a.isU false o.rnd o.ftz false false }
  | .fclass _ o => { dst := o.d, sa := o.a.spec, md := 0#7 ++ eb o.a.isU }
  | .ffma _ o =>
    { dst := o.d, sa := o.a.spec, sb := o.b.spec, md := m148 o.a.isU o.b.isU o.rnd o.ftz o.np o.nc, ext := eImm (0#24 ++ o.c) }
  | .faddImm _ o =>
    { dst := o.d, sa := o.a.spec, md := m148 o.a.isU false o.rnd o.ftz o.na false, ext := eImm o.imm }
  | .fmulImm _ o =>
    { dst := o.d, sa := o.a.spec, md := m148 o.a.isU false o.rnd o.ftz o.na false, ext := eImm o.imm }
  | .fminImm _ o =>
    { dst := o.d, sa := o.a.spec, md := m148 o.a.isU false .rne o.ftz false false, ext := eImm o.imm }
  | .fmaxImm _ o =>
    { dst := o.d, sa := o.a.spec, md := m148 o.a.isU false .rne o.ftz false false, ext := eImm o.imm }
  | .fcmpImm _ o =>
    { dst := e3 o.p, sa := o.a.spec, md := 0#1 ++ eb o.sig ++ eb o.ftz ++ o.cc.code ++ 0#1 ++ eb o.a.isU, ext := eImm o.imm }
  | .fcvt _ o =>
    { dst := o.d, sa := o.a.spec, sb := o.sel ++ o.sf.code ++ o.df.code, md := 0#1 ++ eb o.ovr ++ eb o.ftz ++ o.rnd.code ++ 0#1 ++ eb o.a.isU }
  | .icvt _ o =>
    { dst := o.d, sa := o.a.spec, sb := 0#5 ++ o.t.code, md := o.ff.code ++ eb o.ftz ++ o.rnd.code ++ eb o.toInt ++ eb o.a.isU }
  | .fpack _ o =>
    { dst := o.d, sa := o.a.spec, sb := o.b, md := o.pf.code ++ eb o.ftz ++ o.rnd.code ++ eb o.ovr ++ eb o.a.isU }
  | .hfma2 _ o =>
    { dst := o.d, sa := o.a.spec, sb := o.b.spec, md := m148 o.a.isU o.b.isU o.rnd o.ftz o.bf false, ext := eImm (0#24 ++ o.c) }
  | .dot4 _ o =>
    { dst := o.d, sa := o.a.spec, sb := o.b.spec, md := m148 o.a.isU o.b.isU o.rnd o.ftz false false, ext := eImm (0#21 ++ o.ef.code ++ o.c) }
  | .dadd _ o =>
    { dst := o.d, sa := o.a.spec, sb := o.b.spec, md := m148 o.a.isU o.b.isU o.rnd o.ftz o.na o.nb }
  | .dmul _ o =>
    { dst := o.d, sa := o.a.spec, sb := o.b.spec, md := m148 o.a.isU o.b.isU o.rnd o.ftz o.na o.nb }
  | .ddiv _ o =>
    { dst := o.d, sa := o.a.spec, sb := o.b.spec, md := m148 o.a.isU o.b.isU o.rnd o.ftz false false }
  | .dsqrt _ o => { dst := o.d, sa := o.a.spec, md := m148 o.a.isU false o.rnd o.ftz false false }
  | .dcmp _ o =>
    { dst := e3 o.p, sa := o.a.spec, sb := o.b.spec, md := 0#1 ++ eb o.sig ++ eb o.ftz ++ o.cc.code ++ eb o.b.isU ++ eb o.a.isU }
  | .dmin _ o =>
    { dst := o.d, sa := o.a.spec, sb := o.b.spec, md := m148 o.a.isU o.b.isU .rne o.ftz false false }
  | .dmax _ o =>
    { dst := o.d, sa := o.a.spec, sb := o.b.spec, md := m148 o.a.isU o.b.isU .rne o.ftz false false }
  | .dcvt _ o =>
    { dst := o.d, sa := o.a.spec, sb := 0#2 ++ o.sk.code ++ o.dk.code, md := 0#2 ++ eb o.ftz ++ o.rnd.code ++ 0#1 ++ eb o.a.isU }
  | .dfma _ o =>
    { dst := o.d, sa := o.a.spec, sb := o.b.spec, md := m148 o.a.isU o.b.isU o.rnd o.ftz o.np o.nc, ext := eImm (0#24 ++ o.c) }
  | .xchgIdx _ o => { dst := o.d, sa := o.a, sb := o.b.spec, md := 0#2 ++ o.pv ++ eb o.w64 ++ o.b.code }
  | .xchgUp _ o => { dst := o.d, sa := o.a, sb := o.b.spec, md := 0#2 ++ o.pv ++ eb o.w64 ++ o.b.code }
  | .xchgDown _ o => { dst := o.d, sa := o.a, sb := o.b.spec, md := 0#2 ++ o.pv ++ eb o.w64 ++ o.b.code }
  | .xchgXor _ o => { dst := o.d, sa := o.a, sb := o.b.spec, md := 0#2 ++ o.pv ++ eb o.w64 ++ o.b.code }
  | .voteAll _ o => { dst := e3 o.p, sa := e3 o.s, md := 0#7 ++ eb o.ns }
  | .voteAny _ o => { dst := e3 o.p, sa := e3 o.s, md := 0#7 ++ eb o.ns }
  | .voteBallot _ o => { dst := o.d.spec, sa := e3 o.s, md := eb o.d.isU ++ 0#5 ++ eb o.m64 ++ eb o.ns }
  | .matchB _ o => { dst := o.d, sa := o.a, md := 0#1 ++ o.pl ++ eb o.m64 ++ eb o.w64 ++ 0#2 }
  | .redb _ o =>
    { dst := o.d.spec, sa := o.a, sb := 0#4 ++ eb o.ftz ++ o.rnd.code, md := eb o.d.isU ++ 0#3 ++ o.op.code }
  | .elect _ p => { dst := e3 p }
  | .sread _ o => { dst := o.d.spec, sb := 0#7 ++ eb o.d.isU, md := o.sel.code }
  | .barArr _ o => { sa := o.n.spec, md := 0#5 ++ eb o.n.isU ++ o.sc.code }
  | .barWait _ o => { sa := o.n.spec, md := 0#5 ++ eb o.n.isU ++ o.sc.code }
  | .barSync _ o => { sa := o.n.spec, md := 0#5 ++ eb o.n.isU ++ o.sc.code }
  | .barInv _ o => { sa := o.n.spec, md := 0#5 ++ eb o.n.isU ++ o.sc.code }
  | .barInit _ o => { sa := o.n.spec, md := 0#5 ++ eb o.n.isU ++ o.sc.code, ext := eImm o.count }
  | .joinE _ j => { dst := 0#6 ++ j }
  | .joinW _ j => { dst := 0#6 ++ j }
  | .joinX _ j => { dst := 0#6 ++ j }
  | .ld _ o =>
    { dst := o.d, sa := o.base.spec, md := 0#1 ++ o.ord.code ++ o.sz.code ++ 0#1 ++ eb o.base.isU, ext := eImm (0#5 ++ o.ord.scope ++ o.disp) }
  | .st _ o =>
    { sa := o.base.spec, sb := o.b.spec, md := 0#1 ++ o.ord.code ++ o.sz.code ++ eb o.b.isU ++ eb o.base.isU, ext := eImm (0#5 ++ o.ord.scope ++ o.disp) }
  | .lds _ o =>
    { dst := o.d, sa := o.base.spec, md := 0#1 ++ o.ord.code ++ o.sz.code ++ 0#1 ++ eb o.base.isU, ext := eImm (0#5 ++ o.ord.scope ++ o.disp) }
  | .sts _ o =>
    { sa := o.base.spec, sb := o.b.spec, md := 0#1 ++ o.ord.code ++ o.sz.code ++ eb o.b.isU ++ eb o.base.isU, ext := eImm (0#5 ++ o.ord.scope ++ o.disp) }
  | .ldf _ o =>
    { dst := o.d, sa := o.base.spec, sb := o.idx.spec, md := 0#6 ++ eb o.idx.isU ++ eb o.base.isU, ext := eImm (0#8 ++ o.disp) }
  | .fence _ o => { md := 0#3 ++ o.sc.code ++ o.k.code }
  | .lflush _ o =>
    match o with
      | .all => { md := 2 }
      | .lines a => { sa := a.spec, md := 0#7 ++ eb a.isU }
  | .linv _ o =>
    match o with
      | .all => { md := 2 }
      | .lines a => { sa := a.spec, md := 0#7 ++ eb a.isU }
  | .atom _ o =>
    { dst := o.d, sa := o.base.spec, sb := o.b.spec, md := 0#1 ++ o.ord.scope ++ o.ord.code ++ eb o.b.isU ++ eb o.base.isU,
      ext := eImm (o.disp ++ 0#3 ++ eb o.w64 ++ o.op.code ++ o.c) }
  | .red _ o =>
    { sa := o.base.spec, sb := o.b.spec, md := 0#1 ++ o.ord.scope ++ o.ord.code ++ eb o.b.isU ++ eb o.base.isU,
      ext := eImm (o.disp ++ 0#3 ++ eb o.w64 ++ o.op.code ++ 0#8) }
  | .ldw _ o =>
    { dst := o.d, sa := o.base.spec, md := 0#3 ++ o.sz.code ++ 0#1 ++ eb o.base.isU, ext := eImm (0#8 ++ o.disp) }
  | .chk _ o => { ext := eImm o }
  | .prf _ o => { sa := o.base.spec, md := 0#7 ++ eb o.base.isU, ext := eImm (0#7 ++ eb o.own ++ o.disp) }
  | .rngCommit _ o => { sa := eU o.a, ext := eImm o.mask }
  | .strmPos _ o => { dst := eU o.d, sa := e3 o.k }
  | .strmSet _ o => { dst := e3 o.k, sa := eU o.a }
  | .strmEnd _ o => { dst := e3 o.p, sa := e3 o.k, md := 0#7 ++ eb o.clr }
  | .strmCfg _ o =>
    { dst := e3 o.k, sa := eU o.a,
      ext := 0#50 ++ o.xegeo ++ o.xefmt ++ o.kind.code ++ o.ndim ++ eb o.lst ++ eb o.wrap ++ eb o.push }
  | .waitc _ o => { sa := o.thr.extractLsb' 0 8, sb := 0#7 ++ o.thr.extractLsb' 8 1, md := 0#6 ++ o.cls.code }
  | .ringWait _ o => { md := 0#2 ++ o.k ++ o.r }
  | .ringRel _ o => { md := 0#5 ++ o.r }
  | .ringInit _ o => { md := 0#1 ++ o.slots ++ o.r, ext := eImm (0#1 ++ o.z ++ o.base) }
  | .cpy _ o =>
    { dst := eU o.d, sa := eU o.a, sb := eU o.q,
      ext := o.bmask ++ 0#15 ++ o.rn ++ eBar o.bar ++ o.scope.code ++ o.dk.code ++ 0#1 ++ eb o.scr }
  | .cpyCol _ o =>
    { dst := eU o.d, sa := eU o.a, sb := eU o.q,
      ext := o.bmask ++ 0#15 ++ o.rn ++ eBar o.bar ++ o.scope.code ++ o.dk.code ++ 0#1 ++ eb o.scr }
  | .cpyPl _ o =>
    { dst := 0#4 ++ o.x, sa := eU o.a, sb := eU o.q,
      ext := 0#40 ++ eXf o.xf ++ 0#3 ++ eBar o.bar ++ o.scope.code ++ 0#4 }
  | .gangSet _ m =>
    match m with
      | .lit v => { sa := v.extractLsb' 0 8, sb := v.extractLsb' 8 8 }
      | .u r => { sa := eU r, md := 1 }
  | .gangClr _ => {}
  | .cmdWait _ n => { sa := eU n }
  | .tileGet _ o => { dst := eU o.d, sa := 0#4 ++ o.x, md := 0#7 ++ eb o.hi }
  | .accClr _ o =>
    { dst := e3 o.acc, sa := o.m.p0.code, sb := o.m.p1.code, md := 0#2 ++ o.m.id, ext := eImm (0#16 ++ o.x) }
  | .tileSet _ o =>
    match o.src with
      | .ext w => { dst := 0#4 ++ o.x, ext := w }
      | .u r => { dst := 0#4 ++ o.x, sa := eU r, md := 1 }
  | .mma _ o => { dst := e3 o.acc, sa := 0#4 ++ o.xa, sb := 0#4 ++ o.xb, ext := 0#42 ++ eMf o.m }
  | .planePack _ o =>
    { dst := 0#4 ++ o.x, sa := eU o.a, sb := eU o.st, ext := 0#25 ++ o.scale ++ eb o.s16 ++ eMf o.m }
  | .planeUnpack _ o => { dst := 0#4 ++ o.x, sa := eU o.a, sb := eU o.st, ext := 0#41 ++ eb o.s16 ++ eMf o.m }
  | .accRd _ o => eAccRd o
  | .accWr _ o =>
    { sa := eU o.a, sb := eU o.st, ext := 0#5 ++ eRect o.rect ++ 0#7 ++ eb o.add ++ o.acc ++ eMf o.m }
  | .cbtLd _ o => { sa := eU o.a, ext := 0#42 ++ eMf o.m }
  | .trap _ n => { md := n }
  | .sys _ n => { md := n }
  | .brk _ n => { md := n }
  | .rte _ b => { md := 0#7 ++ eb b }
  | .halt _ b => { md := 0#7 ++ eb b }
  | .migr _ t => { md := 0#6 ++ t.code }
  | .ctxSave _ a => { sa := eU a }
  | .ctxRest _ a => { sa := eU a }
  | .tlbinv _ k =>
    match k with
      | .all => {}
      | .asid r => { sa := eU r, md := 1 }
      | .va a r => { sa := eU a, sb := eU r, md := 2 }
  | .scrub _ a => { sa := a.spec, md := 0#7 ++ eb a.isU }
  | .csrRd _ o => { dst := o.d.spec, md := eb o.d.isU ++ 0#7, ext := eImm (0#20 ++ o.num) }
  | .csrWr _ o => { sa := o.a.spec, md := 0#7 ++ eb o.a.isU, ext := eImm (0#20 ++ o.num) }
  | .asyncTrapEntry _ _ => {}
  | .forcedRelease _ _ => {}
  | .lqdbDoorbell _ _ _ => {}
  | .lqctlEn _ _ _ => {}
  | .lqctlErrClear _ _ _ => {}
  | .noopPacket _ _ => {}
  | .launchPacket _ _ => {}
  | .markerPacket _ _ => {}
  | .contextUpdatePacket _ _ => {}
  | .markerCompletion _ => {}
  | .contextUpdate _ => {}
  | .blockPlacement => {}
  | .carveOutChange _ _ => {}
  | .preemption => {}
  | .blockResume _ => {}
  | .blockEnd _ => {}
  | .gridCompletion _ => {}
  | .gridFailure _ => {}
  | .loadRequest _ => {}
  | .loadReply _ => {}
  | .storeArrival _ => {}
  | .storeCompletion _ => {}
  | .recall _ => {}
  | .ownerWriteback _ => {}
  | .ownershipGrant _ => {}
  | .leaseExpiry _ _ => {}
  | .watchCheck _ => {}
  | .watchAnswer _ => {}
  | .packetDelivery _ => {}
  | .pageWalk _ _ _ => {}
  | .prsp _ _ => {}
  | .flogctlWrite _ _ => {}
  | .copySegment _ _ _ => {}
  | .copyCompletion _ _ => {}
  | .collectiveAcceptance _ _ => {}
  | .commandAcceptance _ _ => {}
  | .commandStart _ _ => {}
  | .commandRetire _ _ => {}
  | .streamReadahead _ _ _ => {}
  | .pushRetire _ _ => {}
  | .remoteOperation _ _ _ _ => {}
  | .remoteCompletion _ _ _ => {}
  | .replayPlacement _ => {}
  | .holdTimeout _ => {}
  | .loanCycleBreak _ => {}
  | .capacityTimeout _ => {}
  | .cdemFenced _ => {}
  | .coreFailure _ => {}
  | .stackRequest _ => {}
  | .stackReply _ _ _ => {}
  | .dieLinkFlit _ _ => {}
  | .solustFlit _ _ _ => {}
  | .ckpctlSave => {}
  | .ckpctlRestore => {}
  | .checkpointRequestFlit _ _ _ => {}
  | .checkpointEnd _ => {}
  | .fleetKeyDelivery _ => {}
  | .hostWindowAccess _ => {}
  | .hcwinWrite _ => {}
  | .keymapWrite _ _ => {}
  | .firmwareLoad _ _ => {}
  | .powerUp => {}
  | .thermalShutdown => {}
  | .clockThrottle _ => {}
  | .getVersion => {}
  | .getCapabilities => {}
  | .negotiateAlgorithms => {}
  | .getDigests => {}
  | .getCertificate => {}
  | .challenge _ => {}
  | .getMeasurements _ => {}
  | .keyExchange _ _ => {}
  | .finish _ => {}
  | .endSession => {}
  | .ideKm _ _ => {}
  | .lockInterface _ _ => {}
  | .interfaceUnlock _ _ => {}
  | .policyDelivery _ _ => {}
  | .condreq => {}
  | .conditionReportSpdm _ => {}
  | .conditionReportFlit _ _ => {}
  | .debugHalt _ _ => {}
  | .debugResume _ _ => {}
  | .debugStep _ _ => {}
  | .debugReadRegister _ _ => {}
  | .debugWriteRegister _ _ => {}
  | .lmctlTrack _ _ => {}
  | .lmctlSnap _ => {}
  | .lmctlQuiesce _ => {}
  | .quiesceDone _ => {}
  | .lmctlResume _ => {}
  | .unitRetirement _ => {}
  | .deviceReset => {}
  | .registerWrite _ _ _ => {}
  | .releaseWait _ _ => {}
  | .interfaceRun _ => {}
  | .linkFailure _ => {}

/-- The fields of a program instruction. A device event gives LEN = 0b11, which begins no instruction (R43). -/
def encodeRaw (i : Instr) : Raw :=
  match i.opc?, i.hdr? with
  | some opc, some h =>
    { len := lenCode opc, stall := h.stall, wait := h.wait, sett := h.sett, hold := h.hold, pred := h.pred,
      pneg := h.pneg, r21 := false, opc := opc, dst := i.body.dst, sa := i.body.sa, sb := i.body.sb,
      md := i.body.md, ext := i.body.ext }
  | _, _ => { unpack 3 with len := 3 }

/-- The words of a program instruction as one value (R44). -/
def encode (i : Instr) : BitVec 128 := pack (encodeRaw i)

/-- The bytes of an instruction, in address order (R44). -/
def encodeBytes (i : Instr) : List Byte :=
  (List.range (lenBytes (encodeRaw i).len)).map fun k => (encode i).extractLsb' (8 * k) 8

/-- The instruction that a word of `nbits` bits, all higher bits zero, decodes to. -/
def decodeTableWord (nbits w : Nat) : Option Instr :=
  match decode (BitVec.ofNat 128 (w % 2 ^ nbits)) with
  | .ok i => some i
  | .bad _ => none

end Sys2Proof
end

