-- ==== Sys2Proof/WellFormed.lean ====
section
/-! DEFINITION. Which instructions are well formed: exactly the limits that the encoding tables set, so that
the encoder's word stands for the instruction and no other. -/

namespace Sys2Proof

/-- The limits of a store (R307): no sign-extending size, and no uniform quad. -/
def storeOk (o : St) : Bool := o.sz.forStore && (o.sz != .b128 || !o.b.isU)

/-- The orderings that `red` accepts (R316). -/
def redOrdOk : AOrd → Bool
  | .rlx | .rel _ => true
  | .acq _ | .ar _ => false

/-- The reserved bits of an encoded tile descriptor (R387). -/
def tileSrcOk : TSrc → Bool
  | .ext w => tileLoOk w
  | .u _ => true

/-- The limits of the operands, beside the header's. -/
def Instr.bodyOk (i : Instr) : Bool :=
  match i with
  | .iadd _ _ => true
  | .isub _ _ => true
  | .imul _ _ => true
  | .imulh _ o => o.t.wide
  | .ineg _ _ => true
  | .iabs _ o => o.t.sg
  | .imin _ _ => true
  | .imax _ _ => true
  | .iaddsat _ _ => true
  | .isubsat _ _ => true
  | .icmp _ _ => true
  | .idiv _ _ => true
  | .irem _ _ => true
  | .imad _ o => o.t.wide
  | .imadw _ o => o.t.only32
  | .iclamp _ _ => true
  | .iaddImm _ _ => true
  | .isubImm _ _ => true
  | .imulImm _ _ => true
  | .iminImm _ _ => true
  | .imaxImm _ _ => true
  | .icmpImm _ _ => true
  | .idivImm _ _ => true
  | .iremImm _ _ => true
  | .and _ _ => true
  | .or _ _ => true
  | .xor _ _ => true
  | .andn _ _ => true
  | .not _ _ => true
  | .shl _ _ => true
  | .shr _ _ => true
  | .sar _ _ => true
  | .rol _ _ => true
  | .ror _ _ => true
  | .popc _ _ => true
  | .clz _ _ => true
  | .ctz _ _ => true
  | .brev _ _ => true
  | .bperm _ _ => true
  | .clmulLo _ _ => true
  | .clmulHi _ _ => true
  | .lop3 _ _ => true
  | .fsh _ _ => true
  | .bfe _ o => o.t.wide && fieldOk o.t.bits o.pos o.len
  | .bfi _ o => fieldOk (nW o.w64) o.pos o.len
  | .andImm _ _ => true
  | .orImm _ _ => true
  | .xorImm _ _ => true
  | .shlImm _ _ => true
  | .shrImm _ _ => true
  | .sarImm _ _ => true
  | .rolImm _ _ => true
  | .rorImm _ _ => true
  | .pand _ _ => true
  | .por _ _ => true
  | .pxor _ _ => true
  | .pnot _ _ => true
  | .p2v _ _ => true
  | .v2p _ _ => true
  | .mov _ _ => true
  | .movIndexedRead _ _ => true
  | .movIndexedWrite _ _ => true
  | .isel _ _ => true
  | .iselImm _ _ => true
  | .movi _ _ => true
  | .lea _ _ => true
  | .movw _ _ => true
  | .nop64 _ => true
  | .exit _ => true
  | .ret _ _ => true
  | .yield _ => true
  | .brx _ _ => true
  | .nop96 _ => true
  | .bra _ _ => true
  | .call _ _ => true
  | .dbra _ _ => true
  | .nop128 _ => true
  | .fadd _ _ => true
  | .fsub _ _ => true
  | .fmul _ _ => true
  | .fmin _ _ => true
  | .fmax _ _ => true
  | .fcmp _ _ => true
  | .fdiv _ _ => true
  | .fsqrt _ _ => true
  | .frcp _ _ => true
  | .frsq _ _ => true
  | .fexp2 _ _ => true
  | .flog2 _ _ => true
  | .fsin _ _ => true
  | .fcos _ _ => true
  | .frnd _ _ => true
  | .fclass _ _ => true
  | .ffma _ _ => true
  | .faddImm _ _ => true
  | .fmulImm _ _ => true
  | .fminImm _ _ => true
  | .fmaxImm _ _ => true
  | .fcmpImm _ _ => true
  | .fcvt _ o => (o.df.small || !o.ovr) && selOk o.sf o.sel
  | .icvt _ _ => true
  | .fpack _ o => o.pf.small || !o.ovr
  | .hfma2 _ _ => true
  | .dot4 _ _ => true
  | .dadd _ _ => true
  | .dmul _ _ => true
  | .ddiv _ _ => true
  | .dsqrt _ _ => true
  | .dcmp _ _ => true
  | .dmin _ _ => true
  | .dmax _ _ => true
  | .dcvt _ o => dcvtOk o.dk o.sk
  | .dfma _ _ => true
  | .xchgIdx _ _ => true
  | .xchgUp _ _ => true
  | .xchgDown _ _ => true
  | .xchgXor _ _ => true
  | .voteAll _ _ => true
  | .voteAny _ _ => true
  | .voteBallot _ _ => true
  | .matchB _ _ => true
  | .redb _ o => o.op.isF || (o.rnd == .rne && !o.ftz)
  | .elect _ _ => true
  | .sread _ _ => true
  | .barArr _ _ => true
  | .barWait _ _ => true
  | .barSync _ _ => true
  | .barInv _ _ => true
  | .barInit _ _ => true
  | .joinE _ _ => true
  | .joinW _ _ => true
  | .joinX _ _ => true
  | .ld _ _ => true
  | .st _ o => storeOk o
  | .lds _ o => o.ord != .unc
  | .sts _ o => storeOk o && o.ord != .unc
  | .ldf _ _ => true
  | .fence _ _ => true
  | .lflush _ _ => true
  | .linv _ _ => true
  | .atom _ o => (o.op.wide || !o.w64) && (o.op == .cas || o.c == 0)
  | .red _ o => (o.op.wide || !o.w64) && o.op.inRed && redOrdOk o.ord
  | .ldw _ _ => true
  | .chk _ _ => true
  | .prf _ _ => true
  | .rngCommit _ _ => true
  | .strmPos _ _ => true
  | .strmSet _ _ => true
  | .strmEnd _ _ => true
  | .strmCfg _ o => strmOk o
  | .waitc _ _ => true
  | .ringWait _ _ => true
  | .ringRel _ _ => true
  | .ringInit _ o => ringInitOk o
  | .cpy _ o => cpyOk o false
  | .cpyCol _ o => cpyOk o true
  | .cpyPl _ o => o.scope != .band
  | .gangSet _ _ => true
  | .gangClr _ => true
  | .cmdWait _ _ => true
  | .tileGet _ _ => true
  | .accClr _ _ => true
  | .tileSet _ o => tileSrcOk o.src
  | .mma _ _ => true
  | .planePack _ _ => true
  | .planeUnpack _ _ => true
  | .accRd _ o => accRdOk o
  | .accWr _ o => rectOk o.rect
  | .cbtLd _ _ => true
  | .trap _ _ => true
  | .sys _ _ => true
  | .brk _ _ => true
  | .rte _ _ => true
  | .halt _ _ => true
  | .migr _ _ => true
  | .ctxSave _ _ => true
  | .ctxRest _ _ => true
  | .tlbinv _ _ => true
  | .scrub _ _ => true
  | .csrRd _ _ => true
  | .csrWr _ _ => true
  | .asyncTrapEntry _ _ => true
  | .forcedRelease _ _ => true
  | .lqdbDoorbell _ _ _ => true
  | .lqctlEn _ _ _ => true
  | .lqctlErrClear _ _ _ => true
  | .noopPacket _ _ => true
  | .launchPacket _ _ => true
  | .markerPacket _ _ => true
  | .contextUpdatePacket _ _ => true
  | .markerCompletion _ => true
  | .contextUpdate _ => true
  | .blockPlacement => true
  | .carveOutChange _ _ => true
  | .preemption => true
  | .blockResume _ => true
  | .blockEnd _ => true
  | .gridCompletion _ => true
  | .gridFailure _ => true
  | .loadRequest _ => true
  | .loadReply _ => true
  | .storeArrival _ => true
  | .storeCompletion _ => true
  | .recall _ => true
  | .ownerWriteback _ => true
  | .ownershipGrant _ => true
  | .leaseExpiry _ _ => true
  | .watchCheck _ => true
  | .watchAnswer _ => true
  | .packetDelivery _ => true
  | .pageWalk _ _ _ => true
  | .prsp _ _ => true
  | .flogctlWrite _ _ => true
  | .copySegment _ _ _ => true
  | .copyCompletion _ _ => true
  | .collectiveAcceptance _ _ => true
  | .commandAcceptance _ _ => true
  | .commandStart _ _ => true
  | .commandRetire _ _ => true
  | .streamReadahead _ _ _ => true
  | .pushRetire _ _ => true
  | .remoteOperation _ _ _ _ => true
  | .remoteCompletion _ _ _ => true
  | .replayPlacement _ => true
  | .holdTimeout _ => true
  | .loanCycleBreak _ => true
  | .capacityTimeout _ => true
  | .cdemFenced _ => true
  | .coreFailure _ => true
  | .stackRequest _ => true
  | .stackReply _ _ _ => true
  | .dieLinkFlit _ _ => true
  | .solustFlit _ _ _ => true
  | .ckpctlSave => true
  | .ckpctlRestore => true
  | .checkpointRequestFlit _ _ _ => true
  | .checkpointEnd _ => true
  | .fleetKeyDelivery _ => true
  | .hostWindowAccess _ => true
  | .hcwinWrite _ => true
  | .keymapWrite _ _ => true
  | .firmwareLoad _ _ => true
  | .powerUp => true
  | .thermalShutdown => true
  | .clockThrottle _ => true
  | .getVersion => true
  | .getCapabilities => true
  | .negotiateAlgorithms => true
  | .getDigests => true
  | .getCertificate => true
  | .challenge _ => true
  | .getMeasurements _ => true
  | .keyExchange _ _ => true
  | .finish _ => true
  | .endSession => true
  | .ideKm _ _ => true
  | .lockInterface _ _ => true
  | .interfaceUnlock _ _ => true
  | .policyDelivery _ _ => true
  | .condreq => true
  | .conditionReportSpdm _ => true
  | .conditionReportFlit _ _ => true
  | .debugHalt _ _ => true
  | .debugResume _ _ => true
  | .debugStep _ _ => true
  | .debugReadRegister _ _ => true
  | .debugWriteRegister _ _ => true
  | .lmctlTrack _ _ => true
  | .lmctlSnap _ => true
  | .lmctlQuiesce _ => true
  | .quiesceDone _ => true
  | .lmctlResume _ => true
  | .unitRetirement _ => true
  | .deviceReset => true
  | .registerWrite _ _ _ => true
  | .releaseWait _ _ => true
  | .interfaceRun _ => true
  | .linkFailure _ => true

/-- A program instruction: it has an encoding, which a device event has not. -/
def Instr.isProgram (i : Instr) : Bool := i.hdr?.isSome

/-- Well formed: SETT is not the reserved code 6 (R47), and the operands keep their limits. -/
def Instr.wf (i : Instr) : Bool :=
  i.bodyOk && match i.hdr? with
    | some h => h.sett != 6
    | none => true

end Sys2Proof
end

