-- ==== Sys2Proof/Machine/Flags.lean ====
section
/-! DEFINITION. The conditions of FSTAT (R26, R115) and every computation of the integer, logic and bit
instructions, with the conditions they raise (R80 to R83, R118, R126 to R135). -/

namespace Sys2Proof.Machine

open Sys2Proof

/-- A set of conditions, placed as FSTAT[5:0] (R26). -/
abbrev Conds := BitVec 6

namespace Conds
def nv : Conds := 0x01
def dz : Conds := 0x02
def ovf : Conds := 0x04
def unf : Conds := 0x08
def nx : Conds := 0x10
def sat : Conds := 0x20
end Conds

/-- A result with the conditions raised on the way. -/
structure Res (α : Type) where
  val : α
  cs : Conds := 0
  deriving DecidableEq, Repr

/-- ORs conditions into FSTAT (R27, R117). -/
def orConds (fstat : Word) (c : Conds) : Word := fstat ||| c.setWidth 32

/-- `sat_s` of R83. -/
def satS (i : Int) (n : Nat) : Res Int :=
  if i < -(2 ^ (n - 1) : Int) then ⟨-(2 ^ (n - 1) : Int), Conds.sat⟩
  else if (2 ^ (n - 1) : Int) - 1 < i then ⟨(2 ^ (n - 1) : Int) - 1, Conds.sat⟩
  else ⟨i, 0⟩

/-- `sat_z` of R83. -/
def satZ (i : Int) (n : Nat) : Res Int :=
  if i < 0 then ⟨0, Conds.sat⟩ else if (2 ^ n : Int) - 1 < i then ⟨(2 ^ n : Int) - 1, Conds.sat⟩ else ⟨i, 0⟩

/-- `val` of R126: the value of the low n bits by the type. -/
def ival (t : IType) (x : DWord) : Int :=
  if t.sg then (x.setWidth t.bits).toInt else ((x.setWidth t.bits).toNat : Int)

/-- The last two lines of R126: an integer truncated to n bits and extended by the type. -/
def iresN (sg : Bool) (n : Nat) (r : Int) : DWord :=
  if sg then (BitVec.ofInt n r).signExtend 64 else (BitVec.ofInt n r).setWidth 64

def ires (t : IType) (r : Int) : DWord := iresN t.sg t.bits r

/-- An immediate source (R124): sign-extended for the signed types and zero-extended for the others. -/
def immI (t : IType) (imm : Word) : DWord := if t.sg then imm.signExtend 64 else imm.setWidth 64

/-- An immediate of a logic instruction (R124, R130): `.b64` sign-extends. -/
def immB (imm : Word) : DWord := imm.signExtend 64

/-- The two-source operations of R126 that raise nothing. -/
inductive IOp where
  | add | sub | mul | mulh | min | max | div | rem
  deriving DecidableEq, Repr

/-- `idiv` of R127. -/
def idivVal (sg : Bool) (n : Nat) (a b : Int) : Int :=
  if b = 0 then (if sg then -1 else (2 ^ n : Int) - 1) else a.tdiv b

/-- `irem` of R127. -/
def iremVal (a b : Int) : Int := if b = 0 then a else a - b * a.tdiv b

/-- R126 for the two-source operations. -/
def iop (op : IOp) (t : IType) (A B : DWord) : DWord :=
  let a := ival t A
  let b := ival t B
  ires t (match op with
    | .add => a + b
    | .sub => a - b
    | .mul => a * b
    | .mulh => (a * b) / (2 ^ t.bits : Int)
    | .min => min a b
    | .max => max a b
    | .div => idivVal t.sg t.bits a b
    | .rem => iremVal a b)

def ineg (t : IType) (A : DWord) : DWord := ires t (-(ival t A))
def iabs (t : IType) (A : DWord) : DWord := ires t |ival t A|

/-- `iaddsat` and `isubsat` (R126, R122). -/
def isat (sub : Bool) (t : IType) (A B : DWord) : Res DWord :=
  let x := if sub then ival t A - ival t B else ival t A + ival t B
  let r := if t.sg then satS x t.bits else satZ x t.bits
  ⟨ires t r.val, r.cs⟩

def imad (t : IType) (A B C : DWord) : DWord := ires t (ival t A * ival t B + ival t C)
def imadw (t : IType) (A B C : DWord) : DWord := iresN t.sg 64 (ival t A * ival t B + (C.toNat : Int))
def iclamp (t : IType) (A B C : DWord) : DWord :=
  let a := ival t A
  let lo := ival t B
  let hi := ival t C
  ires t (if a < lo then lo else if a > hi then hi else a)

/-- R128. -/
def icmpB (t : IType) (c : ICond) (A B : DWord) : Bool :=
  let a := ival t A
  let b := ival t B
  match c with
  | .eq => a == b
  | .ne => a != b
  | .lt => a < b
  | .le => a ≤ b
  | .gt => a > b
  | .ge => a ≥ b

/-! ### Logic and bits (R130 to R135) -/

/-- The low 32 or 64 bits of a value. -/
def cut (w64 : Bool) (x : DWord) : DWord := if w64 then x else (x.setWidth 32).setWidth 64

inductive LOp where
  | and | or | xor | andn
  deriving DecidableEq, Repr

def lop (op : LOp) (w64 : Bool) (a b : DWord) : DWord :=
  cut w64 (match op with
    | .and => a &&& b
    | .or => a ||| b
    | .xor => a ^^^ b
    | .andn => a &&& ~~~b)

inductive ShOp where
  | shl | shr | sar | rol | ror
  deriving DecidableEq, Repr

/-- R131 at one width. -/
def shiftN {n : Nat} (op : ShOp) (a : BitVec n) (c : Nat) : BitVec n :=
  match op with
  | .shl => if c ≥ n then 0 else a <<< c
  | .shr => if c ≥ n then 0 else a >>> c
  | .sar => a.sshiftRight (if c ≥ n then n else c)
  | .rol => (a <<< (c % n)) ||| (a >>> (n - c % n))
  | .ror => (a >>> (c % n)) ||| (a <<< (n - c % n))

/-- R131: the count is a 32-bit source even for a 64-bit type. -/
def shift (op : ShOp) (w64 : Bool) (a : DWord) (c : Word) : DWord :=
  if w64 then shiftN op a c.toNat else (shiftN op (a.setWidth 32) c.toNat).setWidth 64

/-- The number of ones of the low k bits. -/
def popN (x : DWord) : Nat → Nat
  | 0 => 0
  | k + 1 => (x.getLsbD k).toNat + popN x k

/-- Leading zeros among the low k bits. -/
def clzN (x : DWord) : Nat → Nat
  | 0 => 0
  | k + 1 => if x.getLsbD k then 0 else 1 + clzN x k

/-- Trailing zeros of `n` bits, with k bits left to look at. -/
def ctzN (x : DWord) (n : Nat) : Nat → Nat
  | 0 => 0
  | k + 1 => if x.getLsbD (n - (k + 1)) then 0 else 1 + ctzN x n k

def popc (w64 : Bool) (a : DWord) : Word := BitVec.ofNat 32 (popN a (nW w64))
def clz (w64 : Bool) (a : DWord) : Word := BitVec.ofNat 32 (clzN a (nW w64))
def ctz (w64 : Bool) (a : DWord) : Word := BitVec.ofNat 32 (ctzN a (nW w64) (nW w64))

/-- R130: d[i] := a[n-1-i]. -/
def brev (w64 : Bool) (a : DWord) : DWord :=
  if w64 then a.reverse else ((a.setWidth 32).reverse).setWidth 64

/-- `lop3` (R131): three bitwise selections of the truth table L. -/
def lop3 (w64 : Bool) (L : BitVec 8) (a b c : DWord) : DWord :=
  let row (k : Nat) : DWord :=
    if L.getLsbD k then
      (if k / 4 % 2 = 1 then a else ~~~a) &&& (if k / 2 % 2 = 1 then b else ~~~b) &&& (if k % 2 = 1 then c else ~~~c)
    else 0
  cut w64 (row 0 ||| row 1 ||| row 2 ||| row 3 ||| row 4 ||| row 5 ||| row 6 ||| row 7)

/-- `fsh` (R132). -/
def fsh (right : Bool) (a b c : Word) : Word :=
  let t : DWord := a ++ b
  let k := c.toNat % 32
  if right then (t >>> k).setWidth 32 else ((t <<< k) >>> 32).setWidth 32

/-- `bfe` (R133). -/
def bfe (t : IType) (pos len : BitVec 8) (a : DWord) : DWord :=
  if len = 0 then 0
  else
    let f := a.extractLsb' pos.toNat len.toNat
    if t.sg then cut t.w64 (f.signExtend 64) else f.setWidth 64

/-- `bfi` (R133): B with the field taken from A. -/
def bfi (w64 : Bool) (pos len : BitVec 8) (a b : DWord) : DWord :=
  let m : DWord := BitVec.ofNat 64 ((2 ^ len.toNat - 1) * 2 ^ pos.toNat)
  cut w64 ((b &&& ~~~m) ||| ((a <<< pos.toNat) &&& m))

/-- `bperm` (R134). -/
def bperm (a : DWord) (b : Word) : Word :=
  let byte (i : Nat) : Byte :=
    if b.getLsbD (4 * i + 3) then 0 else a.extractLsb' (8 * (b.extractLsb' (4 * i) 3).toNat) 8
  byte 3 ++ byte 2 ++ byte 1 ++ byte 0

/-- The carry-less product of R135, over the low k bits of b. -/
def clmulN (a : BitVec 128) (b : DWord) : Nat → BitVec 128
  | 0 => 0
  | k + 1 => (if b.getLsbD k then a <<< k else 0) ^^^ clmulN a b k

def clmul (hi : Bool) (a b : DWord) : DWord :=
  (clmulN (a.setWidth 128) b 64).extractLsb' (if hi then 64 else 0) 64

/-- `lea` (R139). -/
def lea (w64 sx : Bool) (base : DWord) (idx : Word) (sh : Nat) (disp : BitVec 24) : DWord :=
  cut w64 (base + ((if sx then idx.signExtend 64 else idx.setWidth 64) <<< sh) + disp.signExtend 64)

end Sys2Proof.Machine
end

