-- ==== Sys2Proof/Config.lean ====
section
/-! DEFINITION. What the spec leaves open: constants without a body, so that no proof can see their values. Log
entry 3 lists them. -/

namespace Sys2Proof.Config

/-- A byte of a codeword that a read under another key returns (R491): the codeword, the key and generation of the read, the
key and generation of the write, the 32 bytes written, and which byte. -/
opaque crossKey : Nat → Nat → Nat → Nat → Nat → List Byte → Nat → Byte

/-- A fresh choice of the device, numbered by `State.freeCtr`: whether a byte after the fault of a copy has been
written (R346). -/
opaque freeBit : Nat → Bool

/-- The versions that the version area holds (R468). -/
opaque versionArea : Nat

/-- SHA-384 (R503). -/
opaque sha384 : List Byte → BitVec 384

/-- ECDSA P-384 under the device's key: a signature of a digest (R503). -/
opaque sign : BitVec 384 → BitVec 768

/-- ECDSA P-384: whether a signature of some bytes verifies under a public key (R503, R507). -/
opaque verify : BitVec 768 → List Byte → List Byte → Bool

/-- The measurement of the firmware's configuration, and the bytes of a live-migration image, whose layout the spec does
not give (R503, R512). -/
opaque firmwareConfig : BitVec 384
opaque imageBytes : Nat → List Byte

/-- The bytes of a command's or a latch entry's record in a save area (R420), by its number and place. -/
opaque recordByte : Nat → Nat → Byte

/-- The bytes of the device's certificate chain (R503). -/
opaque certificateChain : List Byte

/-- The device's public key and the public key of the firmware's signer (R503). -/
opaque deviceKey : BitVec 768
opaque firmwareKey : BitVec 768

/-- ECDHE on P-384: the device's public share of a session and the shared secret (R503). -/
opaque ecdhePublic : Nat → BitVec 768
opaque ecdheSecret : Nat → BitVec 768 → BitVec 384

/-- HMAC-SHA-384 of a finished message (R503). -/
opaque hmac : BitVec 384 → BitVec 384

end Sys2Proof.Config
end

