-- ==== Sys2Proof/Machine/Float.lean ====
section
/-! DEFINITION. Floating-point formats and exact arithmetic with one rounding (R84 to R98, R110, R150 to R164).
A finite value is a sign, a natural significand and a power of two; a result that is not a dyadic number
carries a mark that the exact value lies just above the significand. -/

namespace Sys2Proof.Machine

open Sys2Proof

/-- A floating-point format (R84). -/
structure Fmt where
  ebits : Nat
  fbits : Nat
  bias : Int
  small4 : Bool := false
  deriving DecidableEq, Repr

namespace Fmt
def f64 : Fmt := { ebits := 11, fbits := 52, bias := 1023 }
def f32 : Fmt := { ebits := 8, fbits := 23, bias := 127 }
def f16 : Fmt := { ebits := 5, fbits := 10, bias := 15 }
def bf16 : Fmt := { ebits := 8, fbits := 7, bias := 127 }
def e5m2 : Fmt := { ebits := 5, fbits := 2, bias := 15 }
/-- E4M3 has no infinities, and its NaNs are 0x7F and 0xFF (R85). -/
def e4m3 : Fmt := { ebits := 4, fbits := 3, bias := 7, small4 := true }

/-- The significand bits p (R84). -/
def p (f : Fmt) : Nat := f.fbits + 1
def bits (f : Fmt) : Nat := f.ebits + f.fbits + 1
def emin (f : Fmt) : Int := 1 - f.bias
/-- The exponent of the largest finite value's unit in the last place. -/
def topU (f : Fmt) : Int :=
  (2 ^ f.ebits : Int) - (if f.small4 then 1 else 2) - f.bias - f.fbits
/-- The largest finite significand. -/
def topN (f : Fmt) : Nat := if f.small4 then 2 ^ f.p - 2 else 2 ^ f.p - 1
/-- A pattern from its fields. -/
def mk' (f : Fmt) (s : Bool) (e fr : Nat) : Nat :=
  s.toNat * 2 ^ (f.ebits + f.fbits) + e * 2 ^ f.fbits + fr
def zero (f : Fmt) (s : Bool) : Nat := f.mk' s 0 0
def inf (f : Fmt) (s : Bool) : Nat := f.mk' s (2 ^ f.ebits - 1) 0
/-- `canon_nan` (R86). -/
def nan (f : Fmt) : Nat :=
  if f.small4 then 0x7F else f.mk' false (2 ^ f.ebits - 1) (2 ^ (f.fbits - 1))
def largest (f : Fmt) (s : Bool) : Nat :=
  if f.small4 then f.mk' s 15 6 else f.mk' s (2 ^ f.ebits - 2) (2 ^ f.fbits - 1)
end Fmt

/-- The value of a pattern (R85, R86). -/
inductive FV where
  | nan (sig : Bool)
  | inf (s : Bool)
  | zero (s : Bool)
  | fin (s : Bool) (m : Nat) (e : Int) (sub : Bool)
  deriving DecidableEq, Repr

/-- `fval` of R83, by R85. -/
def fval (f : Fmt) (x : Nat) : FV :=
  let s := x / 2 ^ (f.ebits + f.fbits) % 2 == 1
  let e := x / 2 ^ f.fbits % 2 ^ f.ebits
  let fr := x % 2 ^ f.fbits
  if e = 0 then
    if fr = 0 then .zero s else .fin s fr (f.emin - f.fbits) true
  else if f.small4 then
    if e = 15 ∧ fr = 7 then .nan false else .fin s (2 ^ f.fbits + fr) (e - f.bias - f.fbits) false
  else if e = 2 ^ f.ebits - 1 then
    if fr = 0 then .inf s else .nan (fr < 2 ^ (f.fbits - 1))
  else .fin s (2 ^ f.fbits + fr) (e - f.bias - f.fbits) false

namespace FV
def isNan : FV → Bool
  | .nan _ => true
  | _ => false
def isSig : FV → Bool
  | .nan s => s
  | _ => false
def isInf : FV → Bool
  | .inf _ => true
  | _ => false
def isZero : FV → Bool
  | .zero _ => true
  | _ => false
def sign : FV → Bool
  | .nan _ => false
  | .inf s | .zero s | .fin s _ _ _ => s
/-- A sign inverted (R148); a NaN stays a NaN of its kind. -/
def neg (n : Bool) : FV → FV
  | .nan k => .nan k
  | .inf s => .inf (s != n)
  | .zero s => .zero (s != n)
  | .fin s m e b => .fin (s != n) m e b
/-- FTZ on an input (R87). -/
def flush (z : Bool) : FV → FV
  | .fin s m e true => if z then .zero s else .fin s m e true
  | v => v
end FV

/-- The rounding modes of R88. -/
inductive RMode where
  | ne | tz | dn | up
  deriving DecidableEq, Repr

/-- The overflow rules of R91. -/
inductive ORule where
  | ieee | sat | ovf
  deriving DecidableEq, Repr

/-- The mode of FSTAT.RM (R26). -/
def rmOf (fstat : Word) : RMode :=
  match (fstat.extractLsb' 8 2).toNat with
  | 0 => .ne
  | 1 => .tz
  | 2 => .dn
  | _ => .up

/-- The mode of a rounding field (R56, R88). -/
def modeOf (fstat : Word) : Rnd → RMode
  | .rne => .ne
  | .rtz => .tz
  | .rdn => .dn
  | .rup => .up
  | .rdyn => rmOf fstat

/-- `rint` of R89, of (q + r / 2^sh) with r < 2^sh; `st` marks a value just above that. -/
def rintQ (q r sh : Nat) (st : Bool) (m : RMode) (s : Bool) : Nat :=
  if r = 0 ∧ st = false then q
  else
    match m with
    | .tz => q
    | .dn => if s then q + 1 else q
    | .up => if s then q else q + 1
    | .ne =>
      let h := 2 * r
      if h < 2 ^ sh then q
      else if h > 2 ^ sh ∨ st = true then q + 1
      else if q % 2 = 0 then q else q + 1

/-- `rint` of m · 2^e. -/
def rintD (m : Nat) (e : Int) (md : RMode) (s : Bool) : Nat :=
  if 0 ≤ e then m * 2 ^ e.toNat
  else rintQ (m / 2 ^ (-e).toNat) (m % 2 ^ (-e).toNat) (-e).toNat false md s

/-- Overflow (R91). -/
def overflowF (f : Fmt) (s : Bool) (m : RMode) (o : ORule) : Res Nat :=
  match o with
  | .sat => ⟨f.largest s, Conds.sat ||| Conds.nx⟩
  | .ovf =>
    if f.small4 then ⟨f.nan, Conds.ovf ||| Conds.nx⟩ else ieee
  | .ieee => ieee
where
  ieee : Res Nat :=
    let toInf := match m with
      | .ne => true
      | .tz => false
      | .dn => s
      | .up => !s
    ⟨if toInf then f.inf s else f.largest s, Conds.ovf ||| Conds.nx⟩

/-- `encode` of R90: a significand n at unit 2^u. -/
def encodeF (f : Fmt) (s : Bool) (n : Nat) (u : Int) : Nat :=
  if n = 0 then f.zero s
  else if n < 2 ^ f.fbits then f.mk' s 0 n
  else if n < 2 ^ f.p then f.mk' s (u + f.fbits + f.bias).toNat (n - 2 ^ f.fbits)
  else f.mk' s (u + 1 + f.fbits + f.bias).toNat 0

/-- `round` of R90, for the value (m + θ) · 2^e of sign s with m > 0, where 0 < θ < 1 when `st`. -/
def roundF (f : Fmt) (md : RMode) (z : Bool) (o : ORule) (s : Bool) (m : Nat) (e : Int) (st : Bool := false) :
    Res Nat :=
  let lg : Int := (Nat.log2 m : Int) + e
  let tiny := lg < f.emin
  if z && tiny then ⟨f.zero s, Conds.unf ||| Conds.nx⟩
  else
    let u : Int := max lg f.emin - f.fbits
    let sh : Nat := (u - e).toNat
    let q : Nat := if u ≤ e then m * 2 ^ (e - u).toNat else m / 2 ^ sh
    let r : Nat := if u ≤ e then 0 else m % 2 ^ sh
    let n := rintQ q r sh st md s
    let inexact := r != 0 || st
    let c : Conds := (if inexact then Conds.nx else 0) ||| (if inexact && tiny then Conds.unf else 0)
    if f.topU < u ∨ (f.topU = u ∧ f.topN < n) then
      let ov := overflowF f s md o
      ⟨ov.val, ov.cs ||| c⟩
    else ⟨encodeF f s n u, c⟩

/-- Rounds a nonzero dyadic number i · 2^e. -/
def roundI (f : Fmt) (md : RMode) (z : Bool) (o : ORule) (i : Int) (e : Int) : Res Nat :=
  roundF f md z o (decide (i < 0)) i.natAbs e

/-! ### Sums, products, quotients, roots -/

/-- A term of an exact sum: a NaN of some kind, an infinity, or a dyadic number with the sign of its zero. -/
def mulV (a b : FV) : FV :=
  let s := a.sign != b.sign
  match a, b with
  | .nan k, _ => .nan k
  | _, .nan k => .nan k
  | .inf _, .zero _ | .zero _, .inf _ => .nan true
  | .inf _, _ | _, .inf _ => .inf s
  | .zero _, _ | _, .zero _ => .zero s
  | .fin _ m e _, .fin _ n g _ => .fin s (m * n) (e + g) false

/-- 0 × ∞ (R93). -/
def mulInvalid (a b : FV) : Bool := (a.isInf && b.isZero) || (a.isZero && b.isInf)

/-- The dyadic number of a finite term at unit 2^u. -/
def atUnit (u : Int) : FV → Int
  | .fin s m e _ =>
    let k : Int := (m : Int) * 2 ^ (e - u).toNat
    if s then -k else k
  | _ => 0

/-- The least exponent among the finite terms. -/
def minExp : List FV → Int → Int
  | [], u => u
  | .fin _ _ e _ :: ts, u => minExp ts (min e u)
  | _ :: ts, u => minExp ts u

/-- The exact sum of terms that are no NaNs, rounded once (R92, R95, R110). DEDUCED (log entry 77): terms that are all +0 sum
to +0 in mode down too, as IEEE 754 has it for equal signs, which R92 names first; its bullet on an exact zero sum is read of
terms that cancel or whose zero signs differ. -/
def sumF (f : Fmt) (md : RMode) (z : Bool) (ts : List FV) : Res Nat :=
  let pos := ts.any fun t => t == .inf false
  let neg := ts.any fun t => t == .inf true
  if pos && neg then ⟨f.nan, Conds.nv⟩
  else if pos then ⟨f.inf false, 0⟩
  else if neg then ⟨f.inf true, 0⟩
  else
    let u := minExp ts 5000
    let t : Int := (ts.map (atUnit u)).sum
    if t = 0 then
      if ts.all fun t => t == .zero true then ⟨f.zero true, 0⟩
      else if ts.all fun t => t == .zero false then ⟨f.zero false, 0⟩
      else ⟨f.zero (md == .dn), 0⟩
    else roundI f md z .ieee t u

/-- The NaN steps of R150, then an operation on operands that are no NaNs. -/
def fopK (f : Fmt) (xs : List FV) (k : Res Nat) : Res Nat :=
  if xs.any FV.isNan then ⟨f.nan, if xs.any FV.isSig then Conds.nv else 0⟩ else k

/-- a + b (R150). -/
def fadd (f : Fmt) (md : RMode) (z : Bool) (a b : FV) : Res Nat :=
  let a := a.flush z
  let b := b.flush z
  fopK f [a, b] (sumF f md z [a, b])

/-- a × b (R150). -/
def fmul (f : Fmt) (md : RMode) (z : Bool) (a b : FV) : Res Nat :=
  let a := a.flush z
  let b := b.flush z
  fopK f [a, b] <|
    if mulInvalid a b then ⟨f.nan, Conds.nv⟩
    else match mulV a b with
      | .fin s m e _ => roundF f md z .ieee s m e
      | .inf s => ⟨f.inf s, 0⟩
      | v => ⟨f.zero v.sign, 0⟩

/-- a × b + c, with the product's and the addend's signs inverted on request (R148, R150). -/
def ffma (f : Fmt) (md : RMode) (z np nc : Bool) (a b c : FV) : Res Nat :=
  let a := a.flush z
  let b := b.flush z
  let c := (c.neg nc).flush z
  fopK f [a, b, c] <|
    if mulInvalid a b then ⟨f.nan, Conds.nv⟩ else sumF f md z [(mulV a b).neg np, c]

/-- `dot4` (R110, R159). -/
def dot4F (md : RMode) (z : Bool) (xs : List (FV × FV)) (c : FV) : Res Nat :=
  let xs := xs.map fun p => (p.1.flush z, p.2.flush z)
  let c := c.flush z
  fopK .f32 (c :: xs.flatMap fun p => [p.1, p.2]) <|
    if xs.any fun p => mulInvalid p.1 p.2 then ⟨Fmt.f32.nan, Conds.nv⟩
    else sumF .f32 md z ((xs.map fun p => mulV p.1 p.2) ++ [c])

/-- m · 2^e divided by n · 2^g, to `k` bits beyond the format's, with a sticky mark. -/
def quot (k m : Nat) (e : Int) (n : Nat) (g : Int) : Nat × Int × Bool :=
  let sh := k + Nat.log2 n + 2
  let x := m * 2 ^ sh
  (x / n, e - g - sh, x % n != 0)

/-- a / b (R150, R93, R94). -/
def fdiv (f : Fmt) (md : RMode) (z : Bool) (a b : FV) : Res Nat :=
  let a := a.flush z
  let b := b.flush z
  let s := a.sign != b.sign
  fopK f [a, b] <|
    match a, b with
    | .inf _, .inf _ | .zero _, .zero _ => ⟨f.nan, Conds.nv⟩
    | .inf _, _ => ⟨f.inf s, 0⟩
    | _, .inf _ => ⟨f.zero s, 0⟩
    | .zero _, _ => ⟨f.zero s, 0⟩
    | _, .zero _ => ⟨f.inf s, Conds.dz⟩
    | .fin _ m e _, .fin _ n g _ =>
      let (q, x, st) := quot (f.p + 4) m e n g
      roundF f md z .ieee s q x st
    | _, _ => ⟨f.nan, 0⟩

/-- The integer square root of n, over the bits below 2^k. -/
def isqrtN (n : Nat) : Nat → Nat → Nat
  | 0, r => r
  | k + 1, r =>
    let r' := r + 2 ^ k
    isqrtN n k (if r' * r' ≤ n then r' else r)

def isqrt (n : Nat) : Nat := isqrtN n (Nat.log2 n / 2 + 1) 0

/-- A significand and exponent with the exponent even and the significand at least 2^k. -/
def evenForm (k m : Nat) (e : Int) : Nat × Int :=
  let sh := if (e - k) % 2 = 0 then k else k + 1
  (m * 2 ^ sh, e - sh)

/-- √a (R96). -/
def fsqrt (f : Fmt) (md : RMode) (z : Bool) (a : FV) : Res Nat :=
  let a := a.flush z
  fopK f [a] <|
    match a with
    | .zero s => ⟨f.zero s, 0⟩
    | .inf false => ⟨f.inf false, 0⟩
    | .fin false m e _ =>
      let (x, g) := evenForm (2 * f.p + 8) m e
      let r := isqrt x
      roundF f md z .ieee false r (g / 2) (r * r != x)
    | _ => ⟨f.nan, Conds.nv⟩

/-- 1/a (R96). -/
def frcp (f : Fmt) (md : RMode) (z : Bool) (a : FV) : Res Nat :=
  fdiv f md z (.fin false 1 0 false) a

/-- 1/√a (R96). -/
def frsq (f : Fmt) (md : RMode) (z : Bool) (a : FV) : Res Nat :=
  let a := a.flush z
  fopK f [a] <|
    match a with
    | .zero s => ⟨f.inf s, Conds.dz⟩
    | .inf false => ⟨f.zero false, 0⟩
    | .fin false m e _ =>
      let (x, g) := evenForm 0 m e
      let k := Nat.log2 x + f.p + 8
      let r := isqrt (2 ^ (2 * k) / x)
      roundF f md z .ieee false r (-(g / 2) - k) (r * r * x != 2 ^ (2 * k))
    | _ => ⟨f.nan, Conds.nv⟩

/-! ### Transcendental functions

Fixed-point numbers carry `fracBits` fraction bits. Every series is cut where its terms vanish at that precision, so
the error stays far below the distance of any f32 result from a rounding boundary (log entry 10). -/

/-- Fraction bits of the fixed-point numbers. -/
def fracBits : Nat := 640

/-- Σ t(i), with t(0) = x and t(i+1) = t(i) · num / (den(i)), alternating when `alt`, over k terms. -/
def series (num : Int) (den : Nat → Int) : Nat → Nat → Int → Int
  | 0, _, _ => 0
  | k + 1, i, t => t + series num den k (i + 1) (t * num / 2 ^ fracBits / den i)

/-- Σ z^(2i+1) / (2i+1) over k terms, for the fixed-point power t = z^(2i+1). -/
def atanhS (z2 : Int) : Nat → Nat → Int → Int
  | 0, _, _ => 0
  | k + 1, i, t => t / (2 * i + 1) + atanhS z2 k (i + 1) (t * z2 / 2 ^ fracBits)

/-- ln 2 = 2 · artanh(1/3). -/
def ln2W : Int := 2 * atanhS (2 ^ fracBits / 9) 210 0 (2 ^ fracBits / 3)

/-- e^x for a fixed-point x in [0, 1). -/
def expW (x : Int) : Int := series x (fun i => i + 1) 130 0 (2 ^ fracBits)

/-- 1/n − 1/(3 n^3) + … : arctan(1/n) with `w` fraction bits, over k terms. -/
def atanInv (n2 : Int) : Nat → Nat → Int → Int
  | 0, _, _ => 0
  | k + 1, i, t => (if i % 2 = 0 then t else -t) / (2 * i + 1) + atanInv n2 k (i + 1) (t / n2)

/-- π with fracBits + 256 fraction bits, by Machin's formula. -/
def piW : Int :=
  let o : Int := 2 ^ (fracBits + 256)
  4 * (4 * atanInv 25 210 0 (o / 5) - atanInv 57121 70 0 (o / 239))

/-- sin and cos of a fixed-point x in [0, π/2). -/
def sinW (x : Int) : Int := series (-(x * x / 2 ^ fracBits)) (fun i => (2 * i + 2) * (2 * i + 3)) 75 0 x
def cosW (x : Int) : Int := series (-(x * x / 2 ^ fracBits)) (fun i => (2 * i + 1) * (2 * i + 2)) 75 0 (2 ^ fracBits)

/-- The quadrant and the rest of m · 2^e in units of π/2. -/
def reduce (m : Nat) (e : Int) : Nat × Int :=
  let x : Int := (m : Int) * 2 ^ (e + fracBits + 256).toNat
  let q := 2 * x / piW
  ((q % 4).toNat, (x - q * piW / 2) / 2 ^ 256)

/-- sin or cos (as `cos` says) of m · 2^e, in fixed point. -/
def trigW (cos : Bool) (m : Nat) (e : Int) : Int :=
  let (q, r) := reduce m e
  match (q + cos.toNat) % 4 with
  | 0 => sinW r
  | 1 => cosW r
  | 2 => -sinW r
  | _ => -cosW r

/-- Rounds a fixed-point value that is never exact. -/
def roundW (f : Fmt) (md : RMode) (z : Bool) (neg : Bool) (v : Int) (e : Int := 0) : Res Nat :=
  roundF f md z .ieee ((decide (v < 0)) != neg) (v.natAbs) (e - fracBits) true

/-- `fsin` and `fcos` (R96). -/
def ftrig (cos : Bool) (md : RMode) (z : Bool) (a : FV) : Res Nat :=
  let f := Fmt.f32
  let a := a.flush z
  fopK f [a] <|
    match a with
    | .zero s => if cos then ⟨0x3F800000, 0⟩ else ⟨f.zero s, 0⟩
    | .fin s m e _ => roundW f md z (!cos && s) (trigW cos m e)
    | _ => ⟨f.nan, Conds.nv⟩

/-- `fexp2` (R96). -/
def fexp2 (md : RMode) (z : Bool) (a : FV) : Res Nat :=
  let f := Fmt.f32
  let a := a.flush z
  fopK f [a] <|
    match a with
    | .zero _ => ⟨0x3F800000, 0⟩
    | .inf s => if s then ⟨f.zero false, 0⟩ else ⟨f.inf false, 0⟩
    | .fin s m e _ =>
      if (Nat.log2 m : Int) + e ≥ 12 then
        roundF f md z .ieee false 1 (if s then -2000 else 2000) false
      else
        let x : Int := (m : Int) * 2 ^ (e + fracBits).toNat
        let x := if s then -x else x
        let i := x / 2 ^ fracBits
        let fr := x % 2 ^ fracBits
        if fr = 0 then roundF f md z .ieee false 1 i
        else roundW f md z false (expW (fr * ln2W / 2 ^ fracBits)) i
    | .nan _ => ⟨f.nan, 0⟩

/-- `flog2` (R96). -/
def flog2 (md : RMode) (z : Bool) (a : FV) : Res Nat :=
  let f := Fmt.f32
  let a := a.flush z
  fopK f [a] <|
    match a with
    | .zero _ => ⟨f.inf true, Conds.dz⟩
    | .inf false => ⟨f.inf false, 0⟩
    | .fin false m e _ =>
      let lg := Nat.log2 m
      let k : Int := lg + e
      if m = 2 ^ lg then
        if k = 0 then ⟨f.zero false, 0⟩ else roundI f md z .ieee k 0
      else
        let y : Int := (m : Int) * 2 ^ (fracBits - lg)
        let t := (y - 2 ^ fracBits) * 2 ^ fracBits / (y + 2 ^ fracBits)
        roundW f md z false (k * 2 ^ fracBits + 2 * atanhS (t * t / 2 ^ fracBits) 210 0 t * 2 ^ fracBits / ln2W)
    | _ => ⟨f.nan, Conds.nv⟩

/-! ### Minimum, maximum, compare, classify, round to integral (R153 to R156) -/

/-- The order of values that are no NaNs, with −0 below +0 on request. -/
def leF (zs : Bool) (a b : FV) : Bool :=
  match a, b with
  | .inf true, _ => true
  | _, .inf false => true
  | .inf false, _ => false
  | _, .inf true => false
  | _, _ =>
    let u := minExp [a, b] 5000
    let x := atUnit u a
    let y := atUnit u b
    if x = 0 ∧ y = 0 ∧ zs then a.sign || !b.sign else x ≤ y

/-- R153. The patterns are those of the operands after FTZ. -/
def fminmax (f : Fmt) (mx z : Bool) (xa xb : Nat) : Res Nat :=
  let a := (fval f xa).flush z
  let b := (fval f xb).flush z
  let pa := if a.isZero then f.zero a.sign else xa
  let pb := if b.isZero then f.zero b.sign else xb
  let c : Conds := if a.isSig || b.isSig then Conds.nv else 0
  if a.isNan && b.isNan then ⟨f.nan, c⟩
  else if a.isNan then ⟨pb, c⟩
  else if b.isNan then ⟨pa, c⟩
  else ⟨if leF true a b != mx then pa else pb, c⟩

/-- R154. -/
def fcmpB (f : Fmt) (cc : FCond) (z sig : Bool) (xa xb : Nat) : Res Bool :=
  let a := (fval f xa).flush z
  let b := (fval f xb).flush z
  if a.isNan || b.isNan then
    ⟨cc == .ne || cc == .un, if a.isSig || b.isSig || sig then Conds.nv else 0⟩
  else
    let le := leF false a b
    let ge := leF false b a
    ⟨match cc with
      | .eq => le && ge
      | .ne => !(le && ge)
      | .lt => !ge
      | .le => le
      | .gt => !le
      | .ge => ge
      | .un => false
      | .ord => true, 0⟩

/-- R155. -/
def fclassF (x : Nat) : Word :=
  match fval .f32 x with
  | .inf true => 1
  | .fin true _ _ false => 2
  | .fin true _ _ true => 4
  | .zero true => 8
  | .zero false => 16
  | .fin false _ _ true => 32
  | .fin false _ _ false => 64
  | .inf false => 128
  | .nan true => 256
  | .nan false => 512

/-- R156. -/
def frndF (md : RMode) (z : Bool) (x : Nat) : Res Nat :=
  let f := Fmt.f32
  match (fval f x).flush z with
  | .nan k => ⟨f.nan, if k then Conds.nv else 0⟩
  | .inf s => ⟨f.inf s, 0⟩
  | .zero s => ⟨f.zero s, 0⟩
  | .fin s m e _ =>
    let n := rintD m e md s
    if n = 0 then ⟨f.zero s, 0⟩ else ⟨(roundF f .ne false .ieee s n 0).val, 0⟩

/-! ### Conversions (R97, R98) -/

/-- A conversion between floating-point formats (R98). -/
def fcvtF (df sf : Fmt) (md : RMode) (z : Bool) (o : ORule) (x : Nat) : Res Nat :=
  match (fval sf x).flush z with
  | .nan k => ⟨df.nan, if k then Conds.nv else 0⟩
  | .inf s =>
    match o with
    | .sat => ⟨df.largest s, Conds.sat⟩
    | .ovf => if df.small4 then ⟨df.nan, Conds.nv⟩ else ⟨df.inf s, 0⟩
    | .ieee => ⟨df.inf s, 0⟩
  | .zero s => ⟨df.zero s, 0⟩
  | .fin s m e _ => roundF df md z o s m e

/-- An integer to a floating-point format (R98). -/
def intToF (f : Fmt) (md : RMode) (z : Bool) (i : Int) : Res Nat :=
  if i = 0 then ⟨f.zero false, 0⟩ else roundI f md z .ieee i 0

/-- `to_int` of R97. -/
def toIntF (v : FV) (n : Nat) (sg : Bool) (md : RMode) : Res Int :=
  let lo : Int := if sg then -(2 ^ (n - 1) : Int) else 0
  let hi : Int := if sg then (2 ^ (n - 1) : Int) - 1 else (2 ^ n : Int) - 1
  match v with
  | .nan _ => ⟨0, Conds.nv⟩
  | .inf s => ⟨if s then lo else hi, Conds.nv ||| Conds.sat⟩
  | .zero _ => ⟨0, 0⟩
  | .fin s m e _ =>
    let k := rintD m e md s
    let i : Int := if s then -(k : Int) else k
    if i < lo then ⟨lo, Conds.nv ||| Conds.sat⟩
    else if hi < i then ⟨hi, Conds.nv ||| Conds.sat⟩
    else ⟨i, if 0 ≤ e ∨ m % 2 ^ (-e).toNat = 0 then 0 else Conds.nx⟩

end Sys2Proof.Machine
end

