-- ==== Sys2Proof/Machine/Formats.lean ====
section
/-! DEFINITION. Block scales and block formats: S16, BFX-k, blocked E4M3 and E5M2, LC8, the layout of a
formatted region, and the decode of an element to f32 (R99 to R107). -/

namespace Sys2Proof.Machine

open Sys2Proof

/-- The value of an S16 scale (R99); `none` when it is invalid. Exponent 1 is invalid for LC8 (R102). -/
def s16V (lc8 : Bool) (x : BitVec 16) : Option FV :=
  let e := (x.extractLsb' 8 8).toNat
  let f := (x.extractLsb' 0 8).toNat
  if e = 255 ∨ (lc8 ∧ e = 1) then none
  else if e = 0 then some (.zero false)
  else some (.fin false (256 + f) ((e : Int) - 135) false)

/-- Entry t of the default LC8 base table (R103). -/
def lc8Default (t : BitVec 8) : BitVec 16 :=
  let c0 := popN (t.setWidth 64) 8
  let k : Nat := if c0 = 0 then 0 else if c0 ≤ 2 then 3 else if c0 ≤ 5 then 2 else 1
  BitVec.ofNat 16 (((List.range 8).map fun c => if t.getLsbD c then k * 4 ^ c else 0).sum)

/-- Entry t of a context's table: the loaded one, or the default (R103). -/
def lc8Entry (tab : Option (List (BitVec 16))) (t : BitVec 8) : BitVec 16 :=
  match tab with
  | none => lc8Default t
  | some l => l.getD t.toNat 0

/-- Magnitude of coordinate c (R102). -/
def lc8Mag (d : BitVec 16) (h : Bool) (c : Nat) : Nat := 2 * (d.extractLsb' (2 * c) 2).toNat + h.toNat

/-- Weight c of an LC8 index, in half-units (R102). -/
def lc8Weight (tab : Option (List (BitVec 16))) (x : BitVec 16) (c : Nat) : Int :=
  let d := lc8Entry tab (x.extractLsb' 0 8)
  let h := x.getLsbD 15
  let neg := ((List.range 7).filter fun i => x.getLsbD (8 + i) && lc8Mag d h i != 0).length
  let s := if c < 7 then x.getLsbD (8 + c) else neg % 2 == 1
  if s then -(lc8Mag d h c : Int) else lc8Mag d h c

/-- A formatted region: one page, or one range (R104, R105). -/
structure Region where
  start : Nat
  size : Nat
  efmt : Nat
  egeo : Nat
  deriving DecidableEq, Repr

namespace Region

/-- Block length n (R104). -/
def n (r : Region) : Nat :=
  match r.egeo with
  | 0 => 16
  | 1 => 32
  | _ => 64

/-- The bits k of a BFX element (R104). -/
def k (r : Region) : Nat := if r.efmt = 15 then 16 else r.efmt - 2

/-- Payload bytes of a block (R104). -/
def p (r : Region) : Nat :=
  match r.efmt with
  | 0 => 0
  | 1 | 2 => r.n
  | 3 => r.n / 4
  | _ => r.n * r.k / 8

/-- The number of blocks (R105). -/
def nb (r : Region) : Nat := r.size / (r.p + 2)

/-- Where block j's scale stands (R105). -/
def scaleAt (r : Region) (j : Nat) : Nat :=
  if r.egeo = 3 then r.start + r.nb * r.p + 2 * j else r.start + j * (r.p + 2)

/-- Where block j's payload begins (R105). -/
def payAt (r : Region) (j : Nat) : Nat :=
  if r.egeo = 3 then r.start + j * r.p else r.start + j * (r.p + 2) + 2

/-- The first byte and the number of bytes that hold position i of a payload (R100 to R102). -/
def elemBytes (r : Region) (i : Nat) : Nat × Nat :=
  match r.efmt with
  | 1 | 2 => (i, 1)
  | 3 => (2 * (i / 8), 2)
  | _ => (r.k * i / 8, (r.k * i + r.k - 1) / 8 - r.k * i / 8 + 1)

/-- The block in which an address lies (R313), counted by the stride of blocks. -/
def blockOf (r : Region) (e : Nat) : Nat := (e - r.start) / (if r.egeo = 3 then r.p else r.p + 2)

end Region

/-- The value of the element at position i, without its scale, from its bytes read as a number. -/
def elemV (tab : Option (List (BitVec 16))) (r : Region) (i : Nat) (bytes : Nat) : FV :=
  let ofInt (v : Int) (e : Int) : FV := if v = 0 then .zero false else .fin (decide (v < 0)) v.natAbs e false
  match r.efmt with
  | 1 => fval .e4m3 bytes
  | 2 => fval .e5m2 bytes
  | 3 => ofInt (lc8Weight tab (BitVec.ofNat 16 bytes) (i % 8)) (-1)
  | _ => ofInt (BitVec.ofNat r.k (bytes / 2 ^ (r.k * i % 8))).toInt 0

/-- The decode to f32 of an element and its scale (R101, R107). DEDUCED (log entry 16): a zero value of an
integer code (R100, R102) has no sign, and reads as +0. -/
def decodeF32 (fp : Bool) (el sc : FV) : Res Nat :=
  match el with
  | .nan _ => ⟨Fmt.f32.nan, Conds.nv⟩
  | .inf s => ⟨Fmt.f32.inf s, Conds.nv⟩
  | _ =>
    match mulV el sc with
    | .fin s m e _ => roundF .f32 .ne false .ieee s m e
    | v => ⟨Fmt.f32.zero (fp && v.sign), 0⟩

end Sys2Proof.Machine
end

