-- ==== Sys2Proof/Machine/State.lean ====
section
/-! DEFINITION. What the device holds, as plain data: every register, table, queue and unit that the spec
names, grouped by its owner (lane, band, block, grid, context, core, home, function, device), and the
state right after reset. INVENTORY.md, under State, gives each field's width, rule and reset value. -/

namespace Sys2Proof.Machine

/-! ### Traps and waits -/

/-- The trap classes of R403; `code` gives their numbers. -/
inductive TrapClass where
  | illop | migr | regidx | fetchalign | align | page | perm | poison | atomdup | stall | wtunchk
  | barbusy | stream | fmt | brk | sys | deadline
  deriving DecidableEq, Repr, Inhabited

/-- What a trap records (R406: TSTAT, TINFO, TADDR). `fail` marks the Fail path (R414);
`req` is the address that a page request names where TADDR holds a stream position (R410, R411). -/
structure Trap where
  cls : TrapClass
  cause : Nat := 0
  lane : Nat := 0
  opnd : Nat := 0
  addr : DWord := 0
  reg : Nat := 0
  rkind : Nat := 0
  akind : Nat := 0
  cmdid : Nat := 0
  fail : Bool := false
  req : Option DWord := none
  deriving DecidableEq, Repr, Inhabited

/-- A pending asynchronous trap (R404, R420), with the order in which it was accepted. -/
structure AsyncTrap where
  trap : Trap
  ovf : Bool
  seq : Nat
  deriving DecidableEq, Repr, Inhabited

/-- Why a lane is blocked (R170). -/
inductive Wait where
  /-- `bar.wait`, `bar.sync`: scope, number, phase awaited, the block whose unit waits. -/
  | bar (sc : BScope) (n : Nat) (phase : Word)
  | ring (r k : Nat)
  | count (cls : CCls) (thr : Nat)
  | cmd (n : Nat)
  /-- A line on another block's loan (R437), waiting since a chip time. -/
  | loan (sid : Nat) (since : Nat)
  /-- A release or a fence that waits under R279, by its kind and scope. -/
  | release (k : FKind) (sc : Scope)
  /-- `chk`, or an instruction of R288, waiting for watch answers. -/
  | watch
  /-- An acquire access whose value has not returned. -/
  | reply (op : Nat)
  /-- PAGE service under a tag (R410). -/
  | page (tag : Nat)
  /-- A write that needs provisional capacity (R466), since a chip time, and the address. -/
  | capacity (sid : Nat) (since : Nat) (pa : Nat)
  deriving DecidableEq, Repr, Inhabited

/-- The state of a lane (R170, R40). -/
inductive LaneSt where
  | ready
  | parked (j : Nat)
  | blocked (w : Wait)
  | exited
  deriving DecidableEq, Repr, Inhabited

/-- One lane (R15, R171). `preds` holds p0 to p6; p7 is the constant of R17. -/
structure Lane where
  pc : DWord
  st : LaneSt := .ready
  yieldMark : Bool := false
  vregs : List Word
  preds : BitVec 7 := 0
  deriving DecidableEq, Repr, Inhabited

/-! ### What a band holds -/

/-- The state of a watch-table entry (R285, R286). -/
inductive WatchSt where
  | unresolved | confirmed | struck
  deriving DecidableEq, Repr, Inhabited

/-- A watch-table entry (R284, R420); `op` numbers the read or the check that answers it (R285). -/
structure WatchEnt where
  op : Nat
  line : Nat
  version : Nat
  st : WatchSt
  ec : Nat
  deriving DecidableEq, Repr, Inhabited

/-- The pattern of a stream port (R327, R328). -/
structure Pattern where
  push : Bool := false
  wrap : Bool := false
  lst : Bool := false
  ndim : Nat := 1
  kind : SKind := .b32
  xefmt : BitVec 4 := 0
  xegeo : BitVec 2 := 0
  base : DWord := 0
  cnt : List Word := [0, 0, 0, 0]
  str : List DWord := [0, 0, 0, 0]
  descAddr : DWord := 0
  deriving DecidableEq, Repr, Inhabited

/-- A stream port (R326), with the elements that its engine has read ahead (R293) and the snapshot
time of its latest positioning (R441). -/
structure Port where
  cfg : Bool := false
  pat : Pattern := {}
  p : DWord := 0
  endf : Bool := false
  ahead : List (Nat × List Byte) := []
  sigma : Nat := 0
  deriving DecidableEq, Repr, Inhabited

/-- One lane's part of an access in flight. -/
structure PendLane where
  lane : Nat
  va : DWord
  pa : Nat
  done : Bool
  data : BitVec 128
  kid : Nat
  deriving DecidableEq, Repr, Inhabited

/-- The kind of an access in flight: how its data become results. -/
inductive PendKind where
  | load (sz : LSize)
  | watch (sz : LSize)
  | atom (op : AOp) (w64 : Bool)
  | red (op : AOp) (w64 : Bool)
  deriving DecidableEq, Repr, Inhabited

/-- Where one lane's pushed element goes (R333). -/
structure PushEnt where
  lane : Nat
  va : Nat
  pa : Nat
  attr : BitVec 16
  kid : Nat
  size : Nat
  deriving DecidableEq, Repr, Inhabited

/-- An access whose replies are outstanding (R302: variable latency). `b` and `c` are the operands of
an atomic, one per participating lane; `stuck` is the chip time since which its push, whose values have come, waits for a loan
or for capacity (R437, R466). -/
structure PendOp where
  id : Nat
  kind : PendKind
  d : BitVec 8
  lanes : List PendLane
  b : List DWord
  c : List DWord
  uncached : Bool
  acq : Bool
  tok : Option Nat
  push : Option (Nat × List PushEnt) := none
  issue : Nat := 0
  seq : Nat := 0
  seqs : List (Nat × Nat) := []
  stuck : Option Nat := none
  deriving DecidableEq, Repr, Inhabited

/-- Bytes that a home has sent for an instruction that has not issued yet: where they lie, their W and version, the
expiry of a confirmation (R285), and whether their line was poisoned. -/
structure HeldData where
  pa : Nat
  data : List Byte
  w : Nat
  version : Nat
  ec : Option Nat
  psn : Bool
  deriving DecidableEq, Repr, Inhabited

/-- An instruction whose issue waits for bytes that no cache and no slice holds, so that a POISON or FMT that they bring is
precise (R36, R304): its program counter and lanes, the bytes that it needs (address and number, each within a line), and
those that have come. -/
structure Hold where
  id : Nat
  pc : DWord
  act : List Nat
  need : List (Nat × Nat)
  got : List HeldData := []
  deriving DecidableEq, Repr, Inhabited

/-- A register named by an instruction, for the scoreboard (R62). -/
inductive RegName where
  | v (n : Nat)
  | u (n : Nat)
  | p (n : Nat)
  deriving DecidableEq, Repr, Inhabited

/-- The latency classes of R59 and R60: a fixed count of cycles, or variable. -/
inductive Latency where
  | fixed (n : Nat)
  | variable
  deriving DecidableEq, Repr, Inhabited

/-- What the scoreboard keeps of an issued instruction (R62): D to the next instruction, the tokens that later
instructions have waited for, its token, whether it is the latest with that token, whether it has results, its
latency, and the registers whose latest writer it is. -/
structure Issued where
  age : Nat
  waited : BitVec 6
  tok : Nat
  last : Bool
  res : Bool
  lat : Latency
  writes : List RegName
  deriving DecidableEq, Repr, Inhabited

/-- The register signature of a run and its write counts (R453, R456): per lane and for the band. -/
structure WriteSeq where
  lanes : List Nat := []
  band : Nat := 0
  stores : Nat := 0
  deriving DecidableEq, Repr, Inhabited

/-- Registers that an `acc.rd` still writes (R369): its command, the registers, its token. -/
structure AccOut where
  key : Nat
  d : Nat
  n : Nat
  tok : Option Nat
  deriving DecidableEq, Repr, Inhabited

/-- A trap at which THALT has halted a band: resuming enters the handler with it (R427). -/
structure HaltTrap where
  trap : Trap
  async : Bool
  ovf : Bool
  pc : DWord
  act : List Nat
  deriving DecidableEq, Repr, Inhabited

/-- A remote operation that a lane has sent (R493): the target's fabric number and function, the kind, the offset in the
target's window and the operand, and the Solust port that carries it, none where no port of the routing table does (R492). -/
structure RmtOp where
  port : Option Nat
  dev : Nat
  fn : Nat
  kind : Nat
  off : DWord
  operand : DWord
  deriving DecidableEq, Repr, Inhabited

/-- One band (R15, R26, R61, R406, R420). `cpyOut` and `mmaOut` are its outstanding copies and matrix commands in
issue order, each with whether it has completed: their lengths are its counters of R290, as is that of `pushesOut`, which
holds each push with the greatest W of its stores. `waitW` lists the stores of the band's core whose values it has read
and whose W is not known yet (R274). -/
structure Band where
  lanes : List Lane
  uregs : List Word
  fstat : Word := 0
  bctl : Word := 0
  ilcnt : Word := 0
  tstat : Word := 0
  tinfo : Word := 0
  tepc : DWord := 0
  taddr : DWord := 0
  tmask : LaneSet := 0
  tscr : List Word := [0, 0, 0, 0]
  dbgctl : Word := 0
  pctl : Word := 0
  pcnt : List DWord := [0, 0, 0, 0]
  enrolled : List LaneSet := [0, 0, 0, 0]
  tokens : BitVec 6 := 0
  latch : List (Nat × Nat) := []
  sched : List Issued := []
  stallSkip : Bool := false
  ilk : Bool := false
  readyAge : Nat := 0
  boosted : Option Nat := none
  cpyOut : List (Nat × Bool) := []
  mmaOut : List (Nat × Bool) := []
  rmtOut : List RmtOp := []
  horizon : Nat := 0
  storesOut : Nat := 0
  pend : List PendOp := []
  regCopies : List (Nat × Nat × Nat × Nat) := []
  accOut : List AccOut := []
  pushesOut : List (Nat × Nat) := []
  waitW : List Nat := []
  hold : Option Hold := none
  watchCap : Nat := 0
  watch : List WatchEnt := []
  ports : List Port := []
  asyncCopy : Option AsyncTrap := none
  asyncCmd : Option AsyncTrap := none
  asyncDl : Option AsyncTrap := none
  lastCtime : DWord := 0
  sigma : Nat := 0
  issues : Nat := 0
  wseq : WriteSeq := {}
  logPos : Nat := 0
  mmaSeq : Nat := 0
  colSeq : Nat := 0
  werr : Option DWord := none
  halted : Bool := false
  stepping : Bool := false
  resumeTrap : Option HaltTrap := none
  deriving DecidableEq, Repr, Inhabited

/-- The remote counter (R290): the remote operations that are out. -/
def Band.rmtCnt (x : Band) : Nat := x.rmtOut.length

/-! ### What a block holds -/

/-- A barrier (R222 to R226). `pend` lists the pending units, `gone` the members that have gone and
`part` the lanes that have arrived of each block's collection at a wider barrier (R223), `stamps` the completion times of
the phases so far (R442). -/
structure Barrier where
  members : List Nat
  cnt : Nat
  gen : Word := 0
  arr : Nat := 0
  cpy : Nat := 0
  pend : List Nat := []
  gone : List Nat := []
  part : List (Nat × Nat) := []
  stamps : List Nat := []
  deriving DecidableEq, Repr, Inhabited

/-- A stage ring (R348). -/
structure Ring where
  s : Nat := 0
  base : Nat := 0
  z : Nat := 0
  rsv : Word := 0
  fill : Word := 0
  rel : Word := 0
  done : List Nat := []
  deriving DecidableEq, Repr, Inhabited

/-- An accumulator (R355): listed cells, absent ones 0. -/
structure Acc where
  cells : List (Nat × BitVec 64) := []
  x : BitVec 16 := 0
  sata : Bool := false
  deriving DecidableEq, Repr, Inhabited

/-- A tile descriptor (R353), read as fields. -/
structure TileD where
  bits : BitVec 128 := 0
  deriving DecidableEq, Repr, Inhabited

/-- One slice of a copy: the operands of one band (R344, R371), with the band's store sequence number, snapshot
time and mode at its issue (R441, R454, R263). -/
structure Slice where
  band : Nat
  dst : DWord
  src : DWord
  rowBytes : Nat
  rows : Nat
  sstride : Int
  dstride : Int
  seq : Nat
  sigma : Nat
  priv : Bool
  deriving DecidableEq, Repr, Inhabited

/-- A plane tensor whose place is resolved (R352, R353): scratchpad addresses of its groups and of its scale array.
`own`: it was named under RV, so that it lies in the block's own window on whatever core the block runs. -/
structure TileR where
  own : Bool
  addr : Nat
  lines : Nat
  kb : Nat
  k : Nat
  sp : Bool
  saddr : Nat
  deriving DecidableEq, Repr, Inhabited

/-- What a copy produces. -/
inductive CpyKind where
  | plain
  | planes (tile : TileR) (lstride klen : Nat) (xf : Option XFmt)
  deriving DecidableEq, Repr, Inhabited

/-- What holds a copy's engine (R341, R437, R466). -/
inductive CpySt where
  | moving
  | waiting (tag : Nat)
  | onLoan (sid : Nat) (since : Nat)
  | capacity (sid : Nat) (since : Nat) (pa : Nat)
  deriving DecidableEq, Repr, Inhabited

/-- A byte that a copy has written: where (a physical address, or a window and an offset), its address in the store
record, its index in destination order, its value, what stood there, and the slice. -/
structure Wrote where
  loc : Nat
  va : Nat
  idx : Nat
  val : Byte
  old : Byte
  band : Nat
  deriving DecidableEq, Repr, Inhabited

/-- An accepted copy (R339 to R347, R376): `acc` is its place in acceptance order and `deadline` that of its segments
(R341), `taken` lists the segments that engines hold, with the number of their requests, `done` those moved, `fault` is the
earliest fault. -/
structure Copy where
  id : Nat
  kind : CpyKind
  scr : Bool
  dk : CDst
  scope : Scope
  bar : Option CBar
  barCounted : Bool
  ring : Option (Nat × Nat)
  bmask : Word
  slices : List Slice
  regWord : Word
  acc : Nat := 0
  deadline : Nat := 0
  taken : List (Nat × Nat) := []
  done : List Nat := []
  fault : Option (Nat × Trap) := none
  st : CpySt := .moving
  maxW : Nat := 0
  wrote : List Wrote := []
  flags : BitVec 6 := 0
  issuers : List Nat
  again : Bool := false
  deriving DecidableEq, Repr, Inhabited

/-- A collective copy that waits for slices (R344): each with the fields of its instruction. -/
structure Collective where
  id : Nat
  k : Nat
  slices : List (Slice × Cpy)
  deriving DecidableEq, Repr, Inhabited

/-- A matrix instruction as a member executes it, its registers read (R360). -/
inductive CmdIns where
  | accClr (acc : Nat) (x : BitVec 16)
  | mma (acc a b : Nat)
  | pack (x : Nat) (addr stride : Word) (s16 : Bool) (scale : BitVec 16)
  | unpack (x : Nat) (addr stride : Word) (s16 : Bool)
  | accRd (o : AccRd) (addr stride : Word) (lanes : LaneSet)
  | accWr (o : AccWr) (addr stride : Word)
  | cbtLd (addr : Word)
  deriving DecidableEq, Repr, Inhabited

/-- A matrix command captured: its descriptors are resolved (R360). -/
inductive CmdOp where
  /-- A command whose late capture failed: it retires without effect. -/
  | void (ins : CmdIns)
  | accClr (acc : Nat) (x : BitVec 16)
  | mma (acc : Nat) (a b : TileR)
  | pack (x : TileR) (addr stride : Word) (s16 : Bool) (scale : BitVec 16)
  | unpack (x : TileR) (addr stride : Word) (s16 : Bool)
  | accRd (o : AccRd) (addr stride : Word) (lanes : LaneSet) (fstat : Word) (seqs : List (Nat × Nat))
  | accWr (o : AccWr) (addr stride : Word)
  | cbtLd (addr : Word)
  deriving DecidableEq, Repr, Inhabited

/-- A predecessor (R351, R361): an identifier, the command that it came to mean at acceptance, or a slot number of a
ring. -/
inductive PredSt where
  | none
  | ident (m : Nat)
  | cmd (key : Nat)
  | ring (r : Nat) (q : Word)
  deriving DecidableEq, Repr, Inhabited

/-- What one member latched for a matrix command (R359, R360). -/
structure Latched where
  band : Nat
  m : MFields
  ins : CmdIns
  deriving DecidableEq, Repr, Inhabited

/-- A capture (R360): the member, the command, and the trap that a late capture met. -/
structure Capt where
  band : Nat
  id : Nat
  op : CmdOp
  p0 : PredSt
  p1 : PredSt
  bad : Option Trap := none
  deriving DecidableEq, Repr, Inhabited

/-- An entry of the rendezvous latch (R359): its number, the place of the command in the gang's sequence, its opcode,
its members, those that have not executed it, and what the others latched. -/
structure LatchEnt where
  key : Nat
  k : Nat
  opc : Nat
  members : List Nat
  waiting : List Nat
  got : List Latched
  captured : Option Capt
  deriving DecidableEq, Repr, Inhabited

/-- What a command that has started will do when it retires (R363): scratchpad writes, register writes of the
capturing band, a loaded table, conditions, or a fault. -/
structure CmdRes where
  writes : List (Nat × List Byte) := []
  regs : List (Nat × List (Nat × Word)) := []
  tab : Option (List (BitVec 16)) := none
  cs : BitVec 6 := 0
  fault : Option Trap := none
  deriving DecidableEq, Repr, Inhabited

/-- The progress of an accepted command (R362): the ends of its occupancy and of its run, in ticks. -/
inductive CmdSt where
  | accepted
  | running (free retire : Nat) (res : CmdRes)
  deriving DecidableEq, Repr, Inhabited

/-- An accepted matrix command (R361 to R364); `seq` is its place in acceptance order. -/
structure Cmd where
  key : Nat
  seq : Nat
  id : Nat
  op : CmdOp
  p0 : PredSt
  p1 : PredSt
  st : CmdSt
  members : List Nat
  capBand : Nat
  deriving DecidableEq, Repr, Inhabited

/-- Which run of a sampled block a block record is (R431). -/
inductive RunKind where
  | plain | primary | replay | arbitration
  deriving DecidableEq, Repr, Inhabited

/-- Where a block stands in its life (R169, R419 to R422). -/
inductive BlkSt where
  | running
  | stopped (preempt : Bool) (annex : Option Bool) (order : Nat)
  | ended
  deriving DecidableEq, Repr, Inhabited

/-- The parts of a run's signatures (R453 to R456). -/
structure Sig where
  sc : DWord := 0
  si : DWord := 0
  su : DWord := 0
  reg : DWord := 0
  deriving DecidableEq, Repr, Inhabited

/-- A byte that a run of a sampled block has written (R436, R441): physical address, value, virtual address, key, the W and
the A of a provisional version (R439), and whether the write clears its line's poison (R311). -/
structure Prov where
  pa : Nat
  val : Byte
  va : Nat
  kid : Nat
  w : Nat
  a : Nat
  clr : Bool := false
  deriving DecidableEq, Repr, Inhabited

/-- One run of a block (R167, R183, R355, R420). `lastCmd` names the latest command accepted with each identifier (R361),
`mover` the band that stopped the block for a move and its MIGR (R422). -/
structure Block where
  lid : Nat
  bx : Nat
  by' : Nat
  bz : Nat
  idx : Nat
  asid : Nat
  fn : Nat
  run : RunKind := .plain
  sid : Option Nat := none
  st : BlkSt := .running
  ldie : Nat
  core : Nat
  slot : Nat := 0
  placed : Nat := 0
  hbase : DWord := 0
  bandw : Nat
  vregs : Nat
  uregs : Nat
  streams : Nat := 0
  accN : Nat := 0
  ringN : Nat := 0
  copyq : Nat := 0
  window : Nat := 0
  bands : List Band
  scratch : Memory := []
  scratchW : Nat := 0
  tiles : List TileD := []
  accs : List Acc := []
  rings : List Ring := []
  bars : List Barrier := []
  gang : BitVec 16 := 0
  latch : List LatchEnt := []
  cmds : List Cmd := []
  lastCmd : Tbl Nat := []
  copies : List Copy := []
  cols : List Collective := []
  migcnt : Word := 0
  mover : Option (Nat × Trap) := none
  overlay : List Prov := []
  sig : Sig := {}
  cores : List Nat := []
  saveAt : Option Nat := none
  deriving DecidableEq, Repr, Inhabited

/-! ### Grids, contexts and queues -/

/-- A launch packet, field by field (R192). -/
structure Packet where
  type : Nat := 0
  prio : Nat := 0
  schk : Bool := false
  ord : Bool := false
  pin : Bool := false
  profile : Nat := 0
  curve : Nat := 0
  tilew : Nat := 0
  redund : Nat := 0
  detect : Bool := false
  kaddr : DWord := 0
  argAddr : DWord := 0
  argSize : Nat := 0
  bandw : Nat := 0
  nbands : Nat := 0
  gx : Nat := 0
  gy : Nat := 0
  gz : Nat := 0
  vregs : Nat := 0
  uregs : Nat := 0
  acc : Nat := 0
  scratch : Nat := 0
  copyq : Nat := 0
  rings : Nat := 0
  streams : Nat := 0
  watch : Nat := 0
  barb : Nat := 0
  barc : Nat := 0
  bard : Nat := 0
  barg : Nat := 0
  carve : Word := 0
  seed : Word := 0
  dep0 : DWord := 0
  dep0v : DWord := 0
  dep1 : DWord := 0
  dep1v : DWord := 0
  doneAddr : DWord := 0
  doneVal : DWord := 0
  reservedZero : Bool := true
  deriving DecidableEq, Repr, Inhabited

/-- The progress of an accepted packet (R194 to R208). -/
inductive GridSt where
  | accepted
  | failing (status : Nat)
  | complete (status : Nat)
  deriving DecidableEq, Repr, Inhabited

/-- An accepted launch, marker or context update (R194): `orig` is its launch identifier, which differs from the number
that it has here only after a restore from another device's image (R512); `ready` records that the dispatcher has found it
dispatchable (R195). -/
structure Grid where
  lid : Nat
  orig : Nat
  fn : Nat
  q : Nat
  asid : Nat
  pkt : Packet
  dclass : Nat := 0
  dlx : Bool := false
  st : GridSt := .accepted
  next : Nat := 0
  ready : Bool := false
  lastDie : Option Nat := none
  lastCore : List (Nat × Nat) := []
  cluBars : List (Nat × List Barrier) := []
  dieBars : List (Nat × List Barrier) := []
  gridBars : List Barrier := []
  lastDl : Option Nat := none
  deriving DecidableEq, Repr, Inhabited

/-- A range register set (R260). -/
structure RangeSet where
  rngb : DWord := 0
  rngl : DWord := 0
  rngp : DWord := 0
  deriving DecidableEq, Repr, Inhabited

/-- A resident context (R266, R267) with its LC8 table (R103, R397) and DBGEN (R426). -/
structure Ctx where
  fn : Nat
  desc : Nat
  root : Nat := 0
  ranges : List RangeSet := []
  cbt : Option (List (BitVec 16)) := none
  dbgen : Word := 0
  deriving DecidableEq, Repr, Inhabited

/-- A launch queue's registers (R187 to R190). -/
structure Queue where
  lqbase : DWord := 0
  lqctl : Word := 0
  lqdb : Word := 0
  lqrd : Word := 0
  lqctx : DWord := 0
  deriving DecidableEq, Repr, Inhabited

/-- The TDISP states of a function (R504). -/
inductive Tdisp where
  | configUnlocked | configLocked | run | error
  deriving DecidableEq, Repr, Inhabited

/-- A page request that the host has not answered (R410): of a band or a copy of a block, or with neither of the argument
block of the grid `block` (R38). -/
structure PageReq where
  tag : Nat
  block : Nat
  band : Option Nat
  copy : Option Nat
  trap : Trap
  deriving DecidableEq, Repr, Inhabited

/-- A live-migration image (R512): queues, accepted grids with their barriers, saved blocks, resident contexts by
identifier and descriptor. A block's copies that wait on PAGE service are its restartable records, and `saveAt` is the address
of its save area. -/
structure LmImage where
  queues : Tbl Queue
  grids : List Grid
  blocks : List (Nat × Block)
  ctxs : List (Nat × Nat)
  deriving DecidableEq, Repr, Inhabited

/-- One function: its BAR 0 registers (R500), TDISP state, policy and live-migration registers. -/
structure Fn where
  hbase : DWord := 0
  flogBase : DWord := 0
  flogCtl : Word := 0
  flogWp : Word := 0
  flogRp : Word := 0
  prspReg : Word := 0
  queues : Tbl Queue := []
  dbgCmd : DWord := 0
  dbgDat : DWord := 0
  tdisp : Tdisp := .configUnlocked
  policyKey : Option (BitVec 768) := none
  policy : Word := 0
  policyEpoch : Nat := 0
  pageReqs : List PageReq := []
  nextTag : Nat := 0
  flogWait : List (List Byte) := []
  lmTrack : Bool := false
  lmSnap : Bool := false
  lmQuiesce : Bool := false
  lmQdone : Bool := false
  lmBmp : DWord := 0
  lmImg : DWord := 0
  lmSize : Word := 0
  lmStopped : Bool := false
  dirty : List Nat := []
  bar0 : DWord := 0
  reserve : Option Nat := none
  deriving DecidableEq, Repr, Inhabited

/-! ### Memory, caches and the network -/

/-- What the stack keeps of a 32-byte codeword beside its bytes (R488, R491): the key it was written
under, as KEYID and key generation, and its poison mark. -/
structure CwTag where
  kid : Nat := 0
  gen : Nat := 0
  poison : Bool := false
  deriving DecidableEq, Repr, Inhabited

/-- A version of a byte that a later write replaced (R440, R468): its value, and the W and A of the write that replaced it. -/
structure OldByte where
  pa : Nat
  old : Byte
  w : Nat
  a : Nat
  deriving DecidableEq, Repr, Inhabited

/-- The home's record of a line (R245 to R248, R284); `poisoned` is the home's own poison mark (R470, R489), `dirty` that its slice holds
writes that the stack has not. -/
structure HomeLine where
  lx : Nat := 0
  version : Nat := 0
  owner : Option Nat := none
  recalling : Bool := false
  inSlice : Bool := false
  inShadow : Bool := false
  w : Nat := 0
  poisoned : Bool := false
  dirty : Bool := false
  deriving DecidableEq, Repr, Inhabited

/-- An L1 line (R244): `version` is the one that it was made from (R284), `stores` the stores of its own core that it holds
and whose W is not known yet (R274), `mask` the bytes of an owned line that its core has written. -/
structure L1Line where
  line : Nat
  owned : Bool
  expiry : Nat
  dirty : Bool
  version : Nat
  w : Nat
  data : List Byte
  stores : List Nat := []
  mask : BitVec 128 := 0
  deriving DecidableEq, Repr, Inhabited

/-- A TLB entry (R268): the identifier, the page and its leaf. -/
structure TlbEnt where
  asid : Nat
  va : Nat
  size : Nat
  leaf : DWord
  deriving DecidableEq, Repr, Inhabited

/-- The stores of one instruction to one line, on their way to its home (R246): each lane's virtual and physical address
and bytes, in ascending lane order. `clr`: the instruction's lanes cover the line and clear its poison (R311). -/
structure StoreReq where
  id : Nat
  block : Nat
  band : Nat
  core : Nat
  line : Nat
  kid : Nat
  parts : List (Nat × Nat × List Byte)
  nc : Bool
  sc : Bool
  clr : Bool
  push : Option Nat
  deriving DecidableEq, Repr, Inhabited

/-- One lane of a read-modify-write at a home: its place among the lanes of its access, its addresses, key and page
attributes. -/
structure AtomLane where
  j : Nat
  va : Nat
  pa : Nat
  kid : Nat
  attr : BitVec 16
  deriving DecidableEq, Repr, Inhabited

/-- The read-modify-writes of one instruction on one line, which its home performs together in ascending lane order (R280,
R281, R301, R320). -/
structure AtomReq where
  block : Nat
  band : Nat
  core : Nat
  op : Nat
  line : Nat
  lanes : List AtomLane
  nc : Bool
  sc : Bool
  deriving DecidableEq, Repr, Inhabited

/-- What a packet carries (R245 to R247, R285, R294). A load's reply holds the bytes from an offset in the line, the
answer to a watched load (the expiry of its confirmation, or none for a strike) and whether the line is poisoned; that to
read-modify-writes the old value of each lane. `ownRep` grants a line. `engine` is a request of an engine, of the walker, of
the dispatcher or of the host, or the probe of a recall that the device has made at once: what it carries its unit takes in its
own step; `id` is the copy's. -/
inductive Msg where
  | loadReq (block band op core line kid : Nat) (uncached nc sc watch : Bool)
  | loadRep (block band op core line lo : Nat) (uncached sc : Bool) (data : List Byte) (expiry version w : Nat)
      (ec : Option Nat) (psn : Bool)
  | storeReq (r : StoreReq)
  | storeAck (r : StoreReq) (w version : Nat) (err : Bool)
  | atomReq (r : AtomReq)
  | atomRep (r : AtomReq) (old : List DWord) (w version : Nat)
  | ownReq (core line : Nat)
  | ownRep (core line : Nat)
  | recall (core line : Nat)
  | writeback (core line : Nat) (data : Option (List Byte)) (mask : BitVec 128) (version : Nat) (band : Option (Nat × Nat))
  | watchChk (block band op core line version : Nat)
  | watchAns (block band op line version : Nat) (ec : Option Nat)
  | engine (line id kid : Nat) (nc : Bool)
  | engineRep (line id : Nat)
  deriving DecidableEq, Repr, Inhabited

/-- The packet classes of R255, in the tie order of R257. -/
inductive PktCls where
  | probe | reply | request
  deriving DecidableEq, Repr, Inhabited

/-- A router of the package's network (R254, R528), by its die and its unrotated coordinates. -/
structure Router where
  die : Nat
  col : Nat
  row : Nat
  deriving DecidableEq, Repr, Inhabited

/-- A network packet (R255 to R258): the router where it stands, the input port by which it came there and the chip time
at which it did, the die links that it has crossed (R482), and the router of its destination. -/
structure Pkt where
  id : Nat
  cls : PktCls
  src : Router
  at' : Router
  inPort : Nat := 0
  since : Nat := 0
  crossed : Nat := 0
  dest : Router
  deadline : Nat
  lid : Nat
  block : Option (Nat × Nat)
  msg : Msg
  deriving DecidableEq, Repr, Inhabited

/-- The kinds of a stack request (R486). -/
inductive StackKind where
  | rd | wr | mw
  deriving DecidableEq, Repr, Inhabited

/-- What waits for a stack reply: the acknowledgement of the request that stored, or the data of the one that loads from an
address; the slice, which takes a line; or, for an error status alone, the launch and block of the work that a write
belongs to (R471). -/
inductive StackFor where
  | store (q : Pkt) (w : Nat)
  | slice
  | load (q : Pkt) (pa w version : Nat) (ec : Option Nat)
  | work (lid bx by' bz : Nat)
  | none
  deriving DecidableEq, Repr, Inhabited

/-- A request on a stack channel (R485, R486): `addr` counts 64-byte units, `data` of a read is what it will return and its
`psn` whether it meets a mark. `no` is its place in the order of sending. `after` lists the masked writes sent before a read
to the same unit whose errors it would find (R487), `replaced` the codewords of a masked write that a later write has replaced,
`clean` that a read sent after a masked write has found no error. -/
structure StackReq where
  kind : StackKind
  addr : Nat
  kid : Nat
  psn : Bool
  mask : BitVec 64
  data : List Byte
  for_ : StackFor
  no : Nat := 0
  after : List Nat := []
  replaced : List Nat := []
  clean : Bool := false
  deriving DecidableEq, Repr, Inhabited

/-- A stack channel (R485): requests waiting at the home, those out, by tag, and the number of all so far; the chip times of
its corrected and of its uncorrectable codewords (R513). -/
structure Channel where
  queue : List StackReq := []
  out : Tbl StackReq := []
  sent : Nat := 0
  corrected : List Nat := []
  lost : List Nat := []
  suspect : Bool := false
  retired : Bool := false
  spared : Bool := false
  deriving DecidableEq, Repr, Inhabited

/-- An access to a page with SC = 1 that a core has issued (R281): the packet that carries it to its home. -/
structure ScAcc where
  line : Nat
  lid : Nat
  block : Option (Nat × Nat)
  msg : Msg
  deriving DecidableEq, Repr, Inhabited

/-- A core (R233, R244, R268, R462, R465): `marked` is what the condition map
keeps of it over a reset: 1 suspect, 2 fenced (R513). `newest` is the newest version of each line that its bands have
received from a home (R278), `stored` the newest that a store of its own made; `unacked` lists its stores whose W has not
come back, with their lines, and `scq` its accesses of R281 in issue order, of which the first is out; `flaws` lists, by lane,
the bits that a faulty exchange unit inverts (R473). -/
structure Core where
  vend : Nat := 0
  send : Nat := 0
  lend : Nat := 0
  l1 : List L1Line := []
  tlb : List TlbEnt := []
  dem : Nat := 0
  fenced : Bool := false
  marked : Nat := 0
  retired : Bool := false
  clean : Nat := 0
  newest : Tbl Nat := []
  stored : Tbl Nat := []
  unacked : List (Nat × Nat) := []
  scq : List ScAcc := []
  flaws : Tbl DWord := []
  deriving DecidableEq, Repr, Inhabited

/-! ### The Conservator -/

/-- The states of R461. -/
inductive SampleSt where
  | primary | waiting | replay | arbitration | accessioned | deaccessioned | released
  deriving DecidableEq, Repr, Inhabited

/-- A record of the provenance log (R446); `awaits` is the phase that the wait of a TYPE 3 record still awaits, at whose end
its snapshot time is set. -/
structure LogRec where
  type : Nat
  band : Nat
  issue : Nat
  body : List DWord
  awaits : Option Word := none
  deriving DecidableEq, Repr, Inhabited

/-- A finished run of a sampled block: signatures, cores and, for later runs, its overlay. -/
structure RunRes where
  kind : RunKind
  sig : Sig
  cores : List Nat
  lastCore : Nat
  overlay : List Prov
  departed : Bool
  deriving DecidableEq, Repr, Inhabited

/-- A sampled block's check (R431 to R461). `peerTraps` keeps the traps that peer accesses of the primary run met, by band,
issue count and program counter, so that a later run meets them alike (R446, R450), and `poisons` where it read poison, in the
same terms (R472); `places` lists the cores of the primary
run, each with the issue counts of its bands when it came there (R445), and `args` its argument words (R38). `outside` is the
chip time since which an access that no band made (of the dispatcher, firmware or another device) waits on the loan (R467). -/
structure Sample where
  lid : Nat
  idx : Nat
  detect : Bool
  st : SampleSt := .primary
  start : Nat
  sigma0 : Nat
  annexStart : Bool := false
  log : List LogRec := []
  logBytes : Nat := 0
  prov : List Prov := []
  results : List RunRes := []
  places : List (List Nat × Nat) := []
  args : List Word := []
  dbgctl0 : List Word := []
  peerTraps : List (Nat × Nat × DWord × Trap) := []
  poisons : List (Nat × Nat × DWord) := []
  outside : Option Nat := none
  deriving DecidableEq, Repr, Inhabited

/-! ### Links, security, health -/

/-- What a Solust flit carries out of the device: a remote operation (R493), or a piece of a condition report (R518). -/
inductive Flit where
  | op (o : RmtOp)
  | report (bytes : List Byte)
  deriving DecidableEq, Repr, Inhabited

/-- A link's sequence state (R482, R492). Of what arrives: the next flit to accept, the last acknowledgement, and the resends
asked for by either end. Of what leaves: the number of the next flit, those kept for resending, 64 at most, and those that
wait for a place among them. -/
structure Link where
  next : Nat := 0
  acked : Nat := 0
  resends : Nat := 0
  sent : Nat := 0
  kept : List (Nat × Flit) := []
  queue : List Flit := []
  suspect : Bool := false
  retired : Bool := false
  failed : Bool := false
  deriving DecidableEq, Repr, Inhabited

/-- What the last management or SPDM message answered. -/
inductive Reply where
  | none
  | version
  | capabilities
  | algorithms
  | digest (d : BitVec 384)
  | certificate (chain : List Byte)
  | challenge (sig : BitVec 768)
  | measurements (m1 m2 m3 : BitVec 384) (sig : BitVec 768)
  | keyExchange (pub : BitVec 768)
  | finished
  | ended
  | accepted
  | refused
  | report (bytes : List Byte)
  deriving DecidableEq, Repr, Inhabited

/-- An SPDM session (R503): the function it is for and whether its handshake is complete. -/
structure Session where
  fn : Nat
  secret : BitVec 384
  done : Bool
  deriving DecidableEq, Repr, Inhabited

/-- The root of trust and its SPDM responder (R498, R503, R505). -/
structure Root where
  measurement : Option (BitVec 384) := none
  verOk : Bool := false
  capOk : Bool := false
  algOk : Bool := false
  session : Option Session := none
  reply : Reply := .none
  fleetKey : Option (BitVec 256) := none
  keyGen : List (Nat × Nat) := []
  nextGen : Nat := 1
  ideKeys : List (Nat × BitVec 256) := []
  deriving DecidableEq, Repr, Inhabited

/-- The physical function's registers (R210, R249, R258, R468, R469, R492 to R520). -/
structure Pf where
  dlbud : List Word := [512, 1024, 2048, 4096, 8192, 16384, 32768, 65536]
  leasecfg : Word := 1024
  netlate : List Word := [0, 0, 0, 0, 0, 0]
  csvpol : DWord := 0x0000_03E8_0014_1803
  csvevt : List DWord := [0, 0, 0, 0, 0, 0, 0]
  slid : Word := 0
  slerr : DWord := 0
  slwin : Tbl (DWord × DWord) := []
  slrt : Tbl (BitVec 16) := []
  keymap : Tbl DWord := [(0, 1)]
  hcwin : DWord := 0
  pwrcap : Word := 2600
  condbuf : DWord := 0
  condreq : Bool := false
  ckpctl : Word := 0
  ckptgt : DWord := 0
  sriov : Nat := 0
  ckpRestore : Bool := false
  ckpTarget : DWord := 0
  deriving DecidableEq, Repr, Inhabited

/-- A checkpoint image at a safe-tier endpoint (R497): its place, whether its trailer is there, its header (the device's
identity hash and its memory's capacity, the fleet key under which its keys are wrapped, the keys' generations), and the
codewords with their marks. -/
structure SafeImage where
  tdev : Nat
  image : Nat
  complete : Bool
  identity : List Byte
  capacity : Nat
  fleetKey : BitVec 256
  keys : List (Nat × Nat)
  keymap : Tbl DWord
  hcwin : DWord
  leasecfg : Word
  csvpol : DWord
  mem : Memory
  cw : Tbl CwTag
  unwritten : List Nat
  deriving DecidableEq, Repr, Inhabited

/-- What the next step is to be: an event of the device or its host, one issue on a core, or what the environment does beside
the rows of the table. `flaw`: from now on a core's exchange unit inverts bits of what it delivers to a lane (R473). `fixed`:
a slice has corrected an error; `hostFlit`: the host link has received a flit, a good one or one to be resent (R513). `wear`:
firmware's reading of a die's margin and stress, on a day of its calendar (R515). `bar`, `sriov`: the host sets a function's
BAR layout and the number of virtual functions (R499, R503, R504). `reserve`: firmware assigns a function's reserved memory
(R420). -/
inductive Act where
  | event (i : Instr)
  | core (c : Nat)
  | flaw (core lane : Nat) (bits : DWord)
  | fixed (slice : Nat)
  | hostFlit (good : Bool)
  | wear (die day margin stress : Nat)
  | bar (f : Nat) (base : DWord)
  | sriov (vfs : Nat)
  | reserve (f base : Nat)
  deriving DecidableEq, Repr

/-- An entry of the agenda: the ticks that pass, then the act. `lead`, where it is given, is each die's new lead on die 0's
chip time, which the skew of R10 bounds (log entry 2). -/
structure Turn where
  ticks : Nat
  act : Act
  lead : List Nat := []
  deriving DecidableEq, Repr

/-- Where the device is in its start (R520). -/
inductive Power where
  | heldReset | firmwareVerified | running | stopped
  deriving DecidableEq, Repr, Inhabited

/-- The whole device. -/
structure State where
  /-- The script of the environment and of the order in which the agents act (log entry 2). -/
  agenda : List Turn
  /-- The block and band whose instruction is issuing (log entry 2). -/
  curBlock : Nat
  curBand : Nat
  /-- A counter that numbers the free values taken (log entry 3). -/
  freeCtr : Nat
  /-- A counter that gives packets, copies, commands, accesses and stops their numbers. -/
  serial : Nat
  power : Power
  /-- Chip time of die 0 and each die's lead on it (R10). -/
  time : Nat
  skew : List Nat
  mem : Memory
  cw : Tbl CwTag
  hist : List OldByte
  homes : Tbl HomeLine
  floors : Tbl Nat
  net : List Pkt
  arrived : List Pkt
  channels : Tbl Channel
  cores : Tbl Core
  dieTlb : Tbl (List TlbEnt)
  ctxs : Tbl Ctx
  fns : Tbl Fn
  /-- The last launch identifier given, and the last row of `grids` taken: an image's grids take rows and no identifiers
  (R512, R525). -/
  lastLid : Nat
  lastGrid : Nat
  grids : Tbl Grid
  blocks : Tbl Block
  samples : Tbl Sample
  pf : Pf
  root : Root
  dieLinks : Tbl Link
  ports : Tbl Link
  slices : Tbl Nat
  /-- The chip times of each slice's corrected errors, and firmware's readings of each die's wear: day, margin and stress
  (R513, R515). -/
  sliceErrs : Tbl (List Nat)
  wear : Tbl (List (Nat × Nat × Nat))
  hostLink : Link
  /-- The lines of the window that the host holds, those that their homes have asked back, and the bytes that the host's
  latest read of the window returned (R501, R502). -/
  hostHeld : List Nat
  hostAsked : List Nat
  hostData : List Byte
  safeTier : List SafeImage
  /-- The live-migration images that devices of the fleet have written: their bytes and what these hold (R512). -/
  images : List (List Byte × LmImage)
  /-- The restores that a link failure ended: the codewords that each left unwritten are poisoned (R498). -/
  unwritten : List Nat
  /-- Slices whose channel another slice homes since the last reset (R514). -/
  remapped : List Nat
  deriving DecidableEq, Repr

/-- The reasons for which the machine stops with a fault. -/
inductive Fault where
  /-- Raised by `step` when the agenda is empty and the device does not run (held in reset, or stopped by
  its thermal protection, R520): nothing acts any more. Safe: no claim follows from the stop. -/
  | idle
  deriving DecidableEq, Repr

/-- The reasons for which a step has no meaning in the state it is asked in. -/
inductive Refusal where
  /-- An arm of `exec` that has no meaning yet. Safe. -/
  | notModelled (mnemonic : String)
  /-- Raised by the meaning of a device step whose object the state does not hold (a reply with no
  request, a retirement of a command that is not running): such a step cannot occur there. Safe. -/
  | notEnabled (what : String)
  /-- Raised by a program instruction when no band can issue: nothing is there to execute it. Safe. -/
  | noIssuer
  /-- Raised by an access to a device register through the physical range of R232 outside the Solust
  aperture: the spec gives that range no layout. Safe. -/
  | deviceRegister (pa : Nat)
  deriving DecidableEq, Repr

/-- The device right after reset (R520): held, with every register at its reset value. -/
def State.reset : State where
  agenda := []
  curBlock := 0
  curBand := 0
  freeCtr := 0
  serial := 0
  power := .heldReset
  time := 0
  skew := [0, 0, 0, 0, 0, 0]
  mem := []
  cw := []
  hist := []
  homes := []
  floors := []
  net := []
  arrived := []
  channels := []
  cores := []
  dieTlb := []
  ctxs := []
  fns := []
  lastLid := 0
  lastGrid := 0
  grids := []
  blocks := []
  samples := []
  pf := {}
  root := {}
  dieLinks := []
  ports := []
  slices := []
  sliceErrs := []
  wear := []
  hostLink := {}
  hostHeld := []
  hostAsked := []
  hostData := []
  safeTier := []
  images := []
  unwritten := []
  remapped := []

end Sys2Proof.Machine
end

