-- ==== Sys2Proof/Machine/Operands.lean ====
section
/-! DEFINITION. What the encoding of an instruction tells the issue logic: its operands, in the order in which
R68 and R62 examine them, its profile, privilege and latency class (R53, R60, R62, R65, R68). -/

namespace Sys2Proof.Machine

open Sys2Proof

/-- What an operand names. -/
inductive OClass where
  | vec | uni | prd | acc | port | ring | bar (sc : BScope) | copyq
  deriving DecidableEq, Repr

/-- One operand: its place in the trap record (R406, OPND), what it names, how many registers it takes, whether
the instruction reads and writes it, and whether a stream port may stand there (R120). -/
structure Opnd where
  pos : Nat
  cls : OClass
  idx : Nat
  n : Nat := 1
  rd : Bool := false
  wr : Bool := false
  port : Bool := false
  deriving DecidableEq, Repr

namespace Opnd

/-- Registers of a 32-bit or 64-bit operand (R16). -/
def n2 (w64 : Bool) : Nat := if w64 then 2 else 1

/-- A vector register read; a port may stand there when it is single, unless `np`. -/
def vr (pos : Nat) (r : BitVec 8) (n : Nat := 1) (np : Bool := false) : Opnd :=
  { pos, cls := .vec, idx := r.toNat, n, rd := true, port := n == 1 && !np }

/-- A vector register written. -/
def vw (pos : Nat) (r : BitVec 8) (n : Nat := 1) (np : Bool := false) : Opnd :=
  { pos, cls := .vec, idx := r.toNat, n, wr := true, port := n == 1 && !np }

def ur (pos : Nat) (r : BitVec 6) (n : Nat := 1) : Opnd := { pos, cls := .uni, idx := r.toNat, n, rd := true }
def uw (pos : Nat) (r : BitVec 6) (n : Nat := 1) : Opnd := { pos, cls := .uni, idx := r.toNat, n, wr := true }
def pr (pos : Nat) (p : BitVec 3) : Opnd := { pos, cls := .prd, idx := p.toNat, rd := true }
def pw (pos : Nat) (p : BitVec 3) : Opnd := { pos, cls := .prd, idx := p.toNat, wr := true }
def ac (pos : Nat) (a : BitVec 3) : Opnd := { pos, cls := .acc, idx := a.toNat }
def pt (pos : Nat) (k : BitVec 3) : Opnd := { pos, cls := .port, idx := k.toNat }
/-- The copy queue of the block (R340). -/
def cq : Opnd := { pos := 0, cls := .copyq, idx := 0 }
def rg (pos : Nat) (r : BitVec 3) : Opnd := { pos, cls := .ring, idx := r.toNat }

/-- A source (R54). -/
def src (pos : Nat) (a : Src) (n : Nat := 1) (np : Bool := false) : Opnd :=
  match a with
  | .v r => vr pos r n np
  | .u r => ur pos r n

/-- A destination (R136). -/
def dst (d : Dst) (n : Nat := 1) : Opnd :=
  match d with
  | .v r => vw 1 r n
  | .u r => uw 1 r n

end Opnd

open Opnd

def oInt2 (o : Int2) : List Opnd :=
  [vw 1 o.d (n2 o.t.w64), src 2 o.a (n2 o.t.w64), src 3 o.b (n2 o.t.w64)]
def oIntI (o : IntI) : List Opnd := [vw 1 o.d (n2 o.t.w64), src 2 o.a (n2 o.t.w64)]
def oLog2 (o : Log2) : List Opnd := [vw 1 o.d (n2 o.w64), src 2 o.a (n2 o.w64), src 3 o.b (n2 o.w64)]
/-- A shift: the count is one 32-bit register (R131). -/
def oSh2 (o : Log2) : List Opnd := [vw 1 o.d (n2 o.w64), src 2 o.a (n2 o.w64), src 3 o.b]
def oLogI (o : LogI) : List Opnd := [vw 1 o.d (n2 o.w64), src 2 o.a (n2 o.w64)]
/-- A count: the destination is 32 bits (R130). -/
def oCnt (o : Log1) : List Opnd := [vw 1 o.d, src 2 o.a (n2 o.w64)]
def oF2 (o : F2) (n : Nat) : List Opnd := [vw 1 o.d n, src 2 o.a n, src 3 o.b n]
def oFDiv (o : FDiv) (n : Nat) : List Opnd := [vw 1 o.d n, src 2 o.a n, src 3 o.b n]
def oFMm (o : FMm) (n : Nat) : List Opnd := [vw 1 o.d n, src 2 o.a n, src 3 o.b n]
def oF1 (o : F1) (n : Nat) : List Opnd := [vw 1 o.d n, src 2 o.a n]
def oF3 (o : F3) (n : Nat) : List Opnd := [vw 1 o.d n, src 2 o.a n, src 3 o.b n, vr 4 o.c n]
def oFCmp (o : FCmp) (n : Nat) : List Opnd := [pw 1 o.p, src 2 o.a n, src 3 o.b n]
/-- The second source of an exchange: a stream port may stand there only when W64 = 0 (R213). -/
def oXb (b : XB) (w64 : Bool) : List Opnd :=
  match b with
  | .v r => [vr 3 r 1 w64]
  | .u r => [ur 3 r]
  | .lit _ => []
def oXchg (o : Xchg) : List Opnd := [vw 1 o.d (n2 o.w64), vr 2 o.a (n2 o.w64)] ++ oXb o.b o.w64 ++ [pw 5 o.pv]
def oVote (o : Vote) : List Opnd := [pw 1 o.p, pr 2 o.s]
def oBNum (n : BNum) (sc : BScope) : List Opnd :=
  match n with
  | .lit k => [{ pos := 2, cls := .bar sc, idx := k.toNat }]
  | .u r => [ur 2 r]
/-- The registers of a load or store size (R307). -/
def LSize.regs : LSize → Nat
  | .b64 => 2
  | .b128 => 4
  | _ => 1
def oLoad (o : Ld) (base : Nat) : List Opnd := [vw 1 o.d (LSize.regs o.sz), src 2 o.base base]
def oStore (o : St) (base : Nat) : List Opnd := [src 2 o.base base, src 3 o.b (LSize.regs o.sz)]
def oLines (l : LineSel) : List Opnd :=
  match l with
  | .all => []
  | .lines a => [src 2 a 2]
def oCBar (b : Option CBar) : List Opnd :=
  match b with
  | some c => [{ pos := 5, cls := .bar c.sc, idx := c.n.toNat }]
  | none => []
def oCpy (o : Cpy) : List Opnd :=
  [ur 1 o.d (n2 (o.dk == .glob)), ur 2 o.a (n2 (!o.scr)), ur 3 o.q 4] ++
    (if o.dk == .ring then [rg 5 o.rn] else []) ++ oCBar o.bar ++ [cq]
def oPred (p : Pred) (pos : Nat) : List Opnd :=
  match p with
  | .ring r _ => [rg pos r]
  | .none | .cmd _ => []
def oMf (m : MFields) : List Opnd := oPred m.p0 5 ++ oPred m.p1 5
def oArDst (o : AccRd) : List Opnd :=
  match o.dst with
  | .regs d => [{ pos := 1, cls := .vec, idx := d.toNat, n := n2 o.raw, wr := true, port := true }]
  | .scr a s => [ur 2 a, ur 3 s]

/-- Whether a control register is 64 bits wide (R406). -/
def csrWide (num : BitVec 12) : Bool :=
  let k := num.toNat
  k == 0x021 || k == 0x022 || k == 0x023 || k == 0x025 || (0x044 ≤ k && k ≤ 0x047)

/-- The operands of a program instruction, in the order DST, SA, SB, SC, then those of MOD, IMM and EXT (R68). The predicates
that `p2v` reads, which no field names, stand among the last, with OPND 5. DESIGN CHOICE (log entry 22): R62 gives them no
place. -/
def operands (i : Instr) : List Opnd :=
  match i with
  | .iadd _ o | .isub _ o | .imul _ o | .imulh _ o | .imin _ o | .imax _ o | .iaddsat _ o | .isubsat _ o
  | .idiv _ o | .irem _ o => oInt2 o
  | .ineg _ o | .iabs _ o => [vw 1 o.d (n2 o.t.w64), src 2 o.a (n2 o.t.w64)]
  | .icmp _ o => [pw 1 o.p, src 2 o.a (n2 o.t.w64), src 3 o.b (n2 o.t.w64)]
  | .imad _ o | .iclamp _ o => [vw 1 o.d (n2 o.t.w64), src 2 o.a (n2 o.t.w64), src 3 o.b (n2 o.t.w64),
      vr 4 o.c (n2 o.t.w64)]
  | .imadw _ o => [vw 1 o.d 2, src 2 o.a, src 3 o.b, vr 4 o.c 2]
  | .iaddImm _ o | .isubImm _ o | .imulImm _ o | .iminImm _ o | .imaxImm _ o | .idivImm _ o | .iremImm _ o =>
      oIntI o
  | .icmpImm _ o => [pw 1 o.p, src 2 o.a (n2 o.t.w64)]
  | .and _ o | .or _ o | .xor _ o | .andn _ o => oLog2 o
  | .not _ o | .brev _ o => [vw 1 o.d (n2 o.w64), src 2 o.a (n2 o.w64)]
  | .shl _ o | .shr _ o | .sar _ o | .rol _ o | .ror _ o => oSh2 o
  | .popc _ o | .clz _ o | .ctz _ o => oCnt o
  | .bperm _ o => [vw 1 o.d, src 2 o.a 2, src 3 o.b]
  | .clmulLo _ o | .clmulHi _ o => [vw 1 o.d 2, src 2 o.a 2, src 3 o.b 2]
  | .lop3 _ o => [vw 1 o.d (n2 o.w64), src 2 o.a (n2 o.w64), src 3 o.b (n2 o.w64), vr 4 o.c (n2 o.w64)]
  | .fsh _ o => [vw 1 o.d, src 2 o.a, src 3 o.b, vr 4 o.c]
  | .bfe _ o => [vw 1 o.d (n2 o.t.w64), src 2 o.a (n2 o.t.w64)]
  | .bfi _ o => [vw 1 o.d (n2 o.w64), src 2 o.a (n2 o.w64), src 3 o.b (n2 o.w64)]
  | .andImm _ o | .orImm _ o | .xorImm _ o | .shlImm _ o | .shrImm _ o | .sarImm _ o | .rolImm _ o
  | .rorImm _ o => oLogI o
  | .pand _ o | .por _ o | .pxor _ o => [pw 1 o.d, pr 2 o.a, pr 3 o.b]
  | .pnot _ o => [pw 1 o.d, pr 2 o.a]
  | .p2v _ d => vw 1 d :: (List.range 7).map fun k => pr 5 (BitVec.ofNat 3 k)
  | .v2p _ o => vr 2 o.a :: ((List.range 7).filter fun k => o.mask.getLsbD k).map fun k => pw 5 (BitVec.ofNat 3 k)
  | .mov _ o => [dst o.d (n2 o.w64), src 2 o.a (n2 o.w64)]
  | .movIndexedRead _ o => [dst o.d, src 2 o.k 1 true]
  | .movIndexedWrite _ o => [vr 1 o.k 1 true, src 2 o.a]
  | .isel _ o => [vw 1 o.d (n2 o.w64), src 2 o.a (n2 o.w64), src 3 o.b (n2 o.w64), pr 5 o.ps]
  | .iselImm _ o => [vw 1 o.d, src 2 o.a, pr 5 o.ps]
  | .movi _ o => [dst o.d]
  | .movw _ o => [dst o.d 2]
  | .lea _ o => [vw 1 o.d (n2 o.w64), src 2 o.base (n2 o.w64), src 3 o.idx]
  | .nop64 _ | .exit _ | .yield _ | .nop96 _ | .bra _ _ | .nop128 _ => []
  | .ret _ a | .brx _ a => [src 2 a 2]
  | .call _ o => [vw 1 o.d 2]
  | .dbra _ o => [{ vw 1 o.d 1 true with rd := true }]
  | .fadd _ o | .fsub _ o | .fmul _ o => oF2 o 1
  | .fmin _ o | .fmax _ o => oFMm o 1
  | .fcmp _ o => oFCmp o 1
  | .fdiv _ o => oFDiv o 1
  | .fsqrt _ o | .frcp _ o | .frsq _ o | .fexp2 _ o | .flog2 _ o | .fsin _ o | .fcos _ o | .frnd _ o => oF1 o 1
  | .fclass _ o => [vw 1 o.d, src 2 o.a]
  | .ffma _ o => oF3 o 1
  | .faddImm _ o | .fmulImm _ o => [vw 1 o.d, src 2 o.a]
  | .fminImm _ o | .fmaxImm _ o => [vw 1 o.d, src 2 o.a]
  | .fcmpImm _ o => [pw 1 o.p, src 2 o.a]
  | .fcvt _ o => [vw 1 o.d, src 2 o.a]
  | .icvt _ o => [vw 1 o.d (n2 (o.toInt && o.t.w64)), src 2 o.a (n2 (!o.toInt && o.t.w64))]
  | .fpack _ o => [vw 1 o.d, src 2 o.a (n2 o.pf.small), vr 3 o.b (n2 o.pf.small)]
  | .hfma2 _ o => [vw 1 o.d, src 2 o.a, src 3 o.b, vr 4 o.c]
  | .dot4 _ o => [vw 1 o.d, src 2 o.a (n2 (o.ef == .f16 || o.ef == .bf16)),
      src 3 o.b (n2 (o.ef == .f16 || o.ef == .bf16)), vr 4 o.c]
  | .dadd _ o | .dmul _ o => oF2 o 2
  | .ddiv _ o => oFDiv o 2
  | .dsqrt _ o => oF1 o 2
  | .dcmp _ o => oFCmp o 2
  | .dmin _ o | .dmax _ o => oFMm o 2
  | .dcvt _ o => [vw 1 o.d (n2 (o.dk == .f64 || o.dk == .s64 || o.dk == .z64)),
      src 2 o.a (n2 (o.sk == .f64 || o.sk == .s64 || o.sk == .z64))]
  | .dfma _ o => oF3 o 2
  | .xchgIdx _ o | .xchgUp _ o | .xchgDown _ o | .xchgXor _ o => oXchg o
  | .voteAll _ o | .voteAny _ o => oVote o
  | .voteBallot _ o => [dst o.d (n2 o.m64), pr 2 o.s]
  | .matchB _ o => [vw 1 o.d (n2 o.m64), vr 2 o.a (n2 o.w64), pw 5 o.pl]
  | .redb _ o => [dst o.d, vr 2 o.a]
  | .elect _ p => [pw 1 p]
  | .sread _ o => [dst o.d (n2 (o.sel == .ctime))]
  | .barArr _ o | .barWait _ o | .barSync _ o | .barInv _ o => oBNum o.n o.sc
  | .barInit _ o => oBNum o.n o.sc
  | .joinE _ _ | .joinW _ _ | .joinX _ _ => []
  | .ld _ o => oLoad o 2
  | .st _ o => oStore o 2
  | .lds _ o => oLoad o 1
  | .sts _ o => oStore o 1
  | .ldf _ o => [vw 1 o.d, src 2 o.base 2, src 3 o.idx]
  | .fence _ _ | .chk _ _ => []
  | .lflush _ l | .linv _ l => oLines l
  | .atom _ o => [vw 1 o.d (n2 o.w64), src 2 o.base 2, src 3 o.b (n2 o.w64)] ++
      (if o.op == .cas then [vr 4 o.c (n2 o.w64)] else [])
  | .red _ o => [src 2 o.base 2, src 3 o.b (n2 o.w64)]
  | .ldw _ o => [vw 1 o.d (LSize.regs o.sz), src 2 o.base 2]
  | .prf _ o => [src 2 o.base 2]
  | .rngCommit _ o => [ur 2 o.a 2]
  | .strmPos _ o => [uw 1 o.d 2, pt 2 o.k]
  | .strmSet _ o => [pt 1 o.k, ur 2 o.a 2]
  | .strmEnd _ o => [pw 1 o.p, pt 2 o.k]
  | .strmCfg _ o => [pt 1 o.k, ur 2 o.a 2]
  | .waitc _ _ => []
  | .ringWait _ o => [rg 5 o.r]
  | .ringRel _ o => [rg 5 o.r]
  | .ringInit _ o => [rg 5 o.r]
  | .cpy _ o | .cpyCol _ o => oCpy o
  | .cpyPl _ o => [ur 2 o.a 2, ur 3 o.q 2] ++ oCBar o.bar ++ [cq]
  | .gangSet _ (.lit _) => []
  | .gangSet _ (.u r) => [ur 2 r]
  | .gangClr _ | .cmdWait _ _ => []
  | .tileGet _ o => [uw 1 o.d 2]
  | .accClr _ o => [ac 1 o.acc] ++ oPred o.m.p0 2 ++ oPred o.m.p1 3
  | .tileSet _ ⟨_, .ext _⟩ => []
  | .tileSet _ ⟨_, .u r⟩ => [ur 2 r 4]
  | .mma _ o => [ac 1 o.acc] ++ oMf o.m
  | .planePack _ o => [ur 2 o.a, ur 3 o.st] ++ oMf o.m
  | .planeUnpack _ o => [ur 2 o.a, ur 3 o.st] ++ oMf o.m
  | .accRd _ o => oArDst o ++ oMf o.m ++ [ac 5 o.acc]
  | .accWr _ o => [ur 2 o.a, ur 3 o.st] ++ oMf o.m ++ [ac 5 o.acc]
  | .cbtLd _ o => [ur 2 o.a] ++ oMf o.m
  | .trap _ _ | .sys _ _ | .brk _ _ | .rte _ _ | .halt _ _ | .migr _ _ => []
  | .ctxSave _ a | .ctxRest _ a => [ur 2 a 2]
  | .tlbinv _ .all => []
  | .tlbinv _ (.asid r) => [ur 2 r]
  | .tlbinv _ (.va a r) => [ur 2 a 2, ur 3 r]
  | .scrub _ a => [src 2 a 2]
  | .csrRd _ o => [dst o.d (n2 (csrWide o.num))]
  | .csrWr _ o => [src 2 o.a (n2 (csrWide o.num))]
  | _ => []

/-- The operands with the guarding predicate last (R62, R406: OPND 6). -/
def operandsG (i : Instr) : List Opnd :=
  operands i ++ match i.hdr? with
    | some h => [{ pos := 6, cls := .prd, idx := h.pred.toNat, rd := true }]
    | none => []

/-- Bytes of an element that `acc.rd` gives (R393). -/
def accSize (o : AccRd) : Nat :=
  if o.raw then 8
  else
    match o.cf with
    | .f32 => 4
    | .bf16 => 2
    | .e4m3 | .e5m2 => 1

/-- The registers that `acc.rd` writes in a lane, from the first on: those that its encoded columns fill (R393). -/
def accRegs (o : AccRd) : Nat := (o.rect.cols.toNat * accSize o + 3) / 4

/-- The operands as the scoreboard sees them (R62): DST of `acc.rd` stands for all the registers that it writes. -/
def scoreOps (i : Instr) : List Opnd :=
  match i with
  | .accRd _ o => (operandsG i).map fun q => if q.pos = 1 ∧ q.cls = .vec then { q with n := accRegs o } else q
  | _ => operandsG i

/-- The group of an opcode (R64). -/
def opcGroup (i : Instr) : Nat :=
  match i.opc? with
  | some c => c.toNat / 64
  | none => 15

/-- The opcodes of Teray-A only (R65). -/
def onlyA (i : Instr) : Bool :=
  match i with
  | .idiv _ _ | .irem _ _ | .idivImm _ _ | .iremImm _ _ | .clmulLo _ _ | .clmulHi _ _ => true
  | _ => opcGroup i == 6

/-- The opcodes of Teray-G only (R65, R367). -/
def onlyG (i : Instr) : Bool := opcGroup i == 13

/-- The privileged opcodes (R65). -/
def privileged (i : Instr) : Bool :=
  match i with
  | .rngCommit _ _ | .rte _ _ | .halt _ _ | .ctxSave _ _ | .ctxRest _ _ | .tlbinv _ _ | .scrub _ _ => true
  | _ => false

/-- The latency class of R59 and R60. -/
def latency (i : Instr) : Latency :=
  match i with
  | .idiv _ _ | .irem _ _ | .idivImm _ _ | .iremImm _ _ => .variable
  | .fdiv _ _ | .fsqrt _ _ | .frcp _ _ | .frsq _ _ | .fexp2 _ _ | .flog2 _ _ | .fsin _ _ | .fcos _ _ => .fixed 12
  | .hfma2 _ _ | .dot4 _ _ => .fixed 6
  | .ddiv _ _ | .dsqrt _ _ => .variable
  | .sread _ _ => .fixed 4
  | .accRd _ ⟨.regs _, _, _, _, _, _, _, _, _⟩ => .variable
  | .csrRd _ _ => .variable
  | _ =>
    match opcGroup i with
    | 4 | 5 => .fixed 6
    | 6 | 7 => .fixed 8
    | 9 | 10 | 12 => .variable
    | _ => .fixed 4

/-- The bytes of a program instruction (R43, R64). -/
def instrBytes (i : Instr) : Nat :=
  match i.opc? with
  | some c => lenBytes (lenCode c)
  | none => 0

end Sys2Proof.Machine
end

