-- ==== Sys2Proof/Machine/Ops.lean ====
section
/-! DEFINITION. The named operations over tables, memory, registers, bands and blocks; the choice of lanes
(R172); wide and narrow register access; barriers and rejoin masks; the fault log; taking a trap and returning
from one (R404 to R416). -/

namespace Sys2Proof.Machine

open Sys2Proof

/-- What an operation that may meet a trap answers. -/
abbrev TOut (α : Type) := Except Trap α

/-! ### Tables -/

/-- The value of a key. -/
def tget {α : Type} : Tbl α → Nat → Option α
  | [], _ => none
  | (k, v) :: t, x => if k = x then some v else tget t x

/-- Sets a key's value; the keys stay strictly rising. -/
def tset {α : Type} : Tbl α → Nat → α → Tbl α
  | [], x, v => [(x, v)]
  | (k, w) :: t, x, v =>
    if x < k then (x, v) :: (k, w) :: t
    else if x = k then (x, v) :: t
    else (k, w) :: tset t x v

/-- Removes a key. -/
def tdel {α : Type} : Tbl α → Nat → Tbl α
  | [], _ => []
  | (k, w) :: t, x => if k = x then t else (k, w) :: tdel t x

/-- Changes a key's value, if it has one. -/
def tmod {α : Type} (t : Tbl α) (x : Nat) (f : α → α) : Tbl α := t.map fun p => if p.1 = x then (p.1, f p.2) else p

/-- The keys rise strictly. -/
def keysRise {α : Type} : Tbl α → Bool
  | [] => true
  | [_] => true
  | (k, _) :: (k', v') :: t => k < k' && keysRise ((k', v') :: t)

/-! ### Memory: an unlisted byte reads 0 (log entry 6) -/

/-- The byte at an address. -/
def mget : Memory → Nat → Byte
  | [], _ => 0
  | (k, v) :: t, a => if k = a then v else mget t a

/-- Puts a nonzero byte in its place. -/
def mput : Memory → Nat → Byte → Memory
  | [], a, b => [(a, b)]
  | (k, w) :: t, a, b =>
    if a < k then (a, b) :: (k, w) :: t
    else if a = k then (a, b) :: t
    else (k, w) :: mput t a b

/-- Writes a byte; a zero byte is not listed, so the form stays canonical. -/
def mset (m : Memory) (a : Nat) (b : Byte) : Memory := if b = 0 then tdel m a else mput m a b

/-- The canonical form: addresses strictly rise, and no listed byte is 0. -/
def Memory.wf (m : Memory) : Bool := keysRise m && m.all fun p => p.2 != 0

/-- The bytes from an address on. -/
def mread (m : Memory) (a : Nat) : Nat → List Byte
  | 0 => []
  | n + 1 => mget m a :: mread m (a + 1) n

/-- Writes bytes from an address on. -/
def mwrite (m : Memory) (a : Nat) : List Byte → Memory
  | [] => m
  | b :: bs => mwrite (mset m a b) (a + 1) bs

/-- The little-endian value of bytes (R7). -/
def leVal : List Byte → Nat
  | [] => 0
  | b :: bs => b.toNat + 256 * leVal bs

/-- The n little-endian bytes of a value (R7). -/
def leBytes : Nat → Nat → List Byte
  | 0, _ => []
  | n + 1, v => BitVec.ofNat 8 v :: leBytes n (v / 256)

/-! ### Lists by position -/

def setAt {α : Type} (l : List α) (i : Nat) (v : α) : List α := l.set i v

def modAt {α : Type} : List α → Nat → (α → α) → List α
  | [], _, _ => []
  | a :: l, 0, f => f a :: l
  | a :: l, i + 1, f => a :: modAt l i f

/-- Applies a function to the members at the given positions. -/
def modAll {α : Type} (l : List α) (is : List Nat) (f : Nat → α → α) : List α :=
  l.mapIdx fun i a => if is.contains i then f i a else a

/-- A lane set from a list of lanes. -/
def laneSet (ls : List Nat) : LaneSet := ls.foldl (fun m l => m ||| ((1 : BitVec 64) <<< l)) 0

/-- The lanes of a lane set, ascending. -/
def lanesOf (m : LaneSet) : List Nat := (List.range 64).filter fun l => m.getLsbD l

/-- The least of a list, or a default. -/
def lowest (ls : List Nat) (d : Nat := 0) : Nat :=
  match ls with
  | [] => d
  | a :: t => t.foldl min a

/-! ### Cores and dies (R1, R464, R22) -/

/-- The die of a core by its global number. -/
def coreDie (c : Nat) : Nat := if c < 512 then c / 128 else 4 + (c - 512) / 64
def coreCluster (c : Nat) : Nat := if c < 512 then c % 128 / 64 else 0
def coreRank (c : Nat) : Nat := c % 64
/-- The core of a rank in the cluster of a core. -/
def peerCore (c rank : Nat) : Nat := c / 64 * 64 + rank
/-- Whether a die is an annex die (R4). -/
def isAnnex (d : Nat) : Bool := 4 ≤ d
/-- The number of cores. -/
def numCores : Nat := 640

def State.core (s : State) (c : Nat) : Core := (tget s.cores c).getD {}
def State.setCore (s : State) (c : Nat) (k : Core) : State := { s with cores := tset s.cores c k }
def State.fn (s : State) (f : Nat) : Fn := (tget s.fns f).getD {}
def State.setFn (s : State) (f : Nat) (x : Fn) : State := { s with fns := tset s.fns f x }
def State.modFn (s : State) (f : Nat) (g : Fn → Fn) : State := s.setFn f (g (s.fn f))
def State.blk (s : State) (k : Nat) : Option Block := tget s.blocks k
def State.setBlk (s : State) (k : Nat) (b : Block) : State := { s with blocks := tset s.blocks k b }
def State.modBlk (s : State) (k : Nat) (g : Block → Block) : State := { s with blocks := tmod s.blocks k g }
def State.grid (s : State) (l : Nat) : Option Grid := tget s.grids l
def State.modGrid (s : State) (l : Nat) (g : Grid → Grid) : State := { s with grids := tmod s.grids l g }
def State.ctx (s : State) (a : Nat) : Option Ctx := tget s.ctxs a
def State.home (s : State) (line : Nat) : HomeLine := (tget s.homes line).getD {}
def State.setHome (s : State) (line : Nat) (h : HomeLine) : State := { s with homes := tset s.homes line h }

/-- The chip time of a die (R10): a 64-bit counter. -/
def State.now (s : State) (die : Nat) : Nat := (s.time + s.skew.getD die 0) % 2 ^ 64

/-- A new number, and the state that has given it. -/
def State.fresh (s : State) : Nat × State := (s.serial, { s with serial := s.serial + 1 })

def Block.band (b : Block) (n : Nat) : Option Band := b.bands[n]?
def Block.setBand (b : Block) (n : Nat) (x : Band) : Block := { b with bands := setAt b.bands n x }
def Block.modBand (b : Block) (n : Nat) (f : Band → Band) : Block := { b with bands := modAt b.bands n f }
def State.modBand (s : State) (k n : Nat) (f : Band → Band) : State := s.modBlk k fun b => b.modBand n f
def Band.modLanes (x : Band) (ls : List Nat) (f : Nat → Lane → Lane) : Band := { x with lanes := modAll x.lanes ls f }
def Band.lane (x : Band) (l : Nat) : Lane := x.lanes.getD l default

/-- The die that executes a block. -/
def Block.die (b : Block) : Nat := coreDie b.core

/-! ### Registers (R15 to R19, R21) -/

/-- Vector register r of a lane. -/
def Lane.v (x : Lane) (r : Nat) : Word := x.vregs.getD r 0
def Lane.setV (x : Lane) (r : Nat) (w : Word) : Lane := { x with vregs := setAt x.vregs r w }
/-- A predicate: p7 reads true (R17). -/
def Lane.p (x : Lane) (k : Nat) : Bool := if k = 7 then true else x.preds.getLsbD k
/-- Writes a predicate: a write to p7 is discarded (R17). -/
def Lane.setP (x : Lane) (k : Nat) (b : Bool) : Lane :=
  if 7 ≤ k then x
  else { x with preds := (x.preds &&& ~~~((1 : BitVec 7) <<< k)) ||| ((BitVec.ofBool b).setWidth 7 <<< k) }
def Band.u (x : Band) (r : Nat) : Word := x.uregs.getD r 0
def Band.u64 (x : Band) (r : Nat) : DWord := x.u (r + 1) ++ x.u r
def Band.setU (x : Band) (r : Nat) (w : Word) : Band := { x with uregs := setAt x.uregs r w }
def Band.setU64 (x : Band) (r : Nat) (w : DWord) : Band := (x.setU r (w.setWidth 32)).setU (r + 1) (w.extractLsb' 32 32)

/-- Whether a vector specifier names a stream port (R21). -/
def Block.isPort (b : Block) (r : Nat) : Bool := b.streams != 0 && 248 ≤ r

/-! ### The trap registers (R406, R407) -/

def TrapClass.code : TrapClass → Nat
  | .illop => 1 | .migr => 2 | .regidx => 3 | .fetchalign => 4 | .align => 5 | .page => 6 | .perm => 7
  | .poison => 8 | .atomdup => 9 | .stall => 10 | .wtunchk => 11 | .barbusy => 12 | .stream => 13 | .fmt => 14
  | .brk => 15 | .sys => 16 | .deadline => 17

/-- TSTAT.INH: the band is in its handler, and so in privileged mode (R407). -/
def Band.inh (x : Band) : Bool := x.tstat.getLsbD 26

/-- TSTAT for a trap (R406). -/
def tstatOf (t : Trap) (async inh : Bool) : Word :=
  BitVec.ofNat 32 (t.cls.code + t.cause % 256 * 2 ^ 8 + t.lane % 64 * 2 ^ 16 + t.opnd % 8 * 2 ^ 22
    + async.toNat * 2 ^ 25 + inh.toNat * 2 ^ 26)

/-- TINFO for a trap (R406). -/
def tinfoOf (t : Trap) (ovf : Bool) : Word :=
  BitVec.ofNat 32 (t.reg % 256 + t.rkind % 8 * 2 ^ 8 + t.akind % 2 * 2 ^ 16 + t.cmdid % 64 * 2 ^ 17
    + ovf.toNat * 2 ^ 31)

/-! ### The choice of lanes (R172) -/

/-- The lanes of a band in a state that a test picks. -/
def Band.pick (x : Band) (p : Lane → Bool) : List Nat :=
  (List.range x.lanes.length).filter fun l => p (x.lane l)

/-- The lanes that may issue: the ready ones, and in the handler only those of TMASK (R408). -/
def Band.readyLanes (x : Band) : List Nat :=
  (x.pick fun l => l.st == .ready).filter fun l => !x.inh || x.tmask.getLsbD l

def LaneSt.isParkedOn (st : LaneSt) (j : Nat) : Bool :=
  match st with
  | .parked k => k == j
  | _ => false

/-- The lanes parked on a mask. -/
def Band.parkedOn (x : Band) (j : Nat) : List Nat := x.pick fun l => l.st.isParkedOn j

/-- What R172 chooses: whether the yield marks are cleared, the program counter, and the active lanes. -/
structure Choice where
  clear : Bool
  pc : DWord
  active : List Nat
  deriving DecidableEq, Repr

/-- The least program counter among lanes. -/
def Band.minPc (x : Band) : List Nat → DWord
  | [] => 0
  | l :: ls => ls.foldl (fun m k => if (x.lane k).pc < m then (x.lane k).pc else m) (x.lane l).pc

def LaneSt.isPage (st : LaneSt) : Bool :=
  match st with
  | .blocked (.page _) => true
  | _ => false

/-- A band waits as a whole at an instruction in PAGE service (R265, R410). -/
def Band.inPageService (x : Band) : Bool := x.lanes.any fun l => l.st.isPage

/-- The lanes that may issue and have no yield mark. -/
def Band.unmarked (x : Band) : List Nat := x.readyLanes.filter fun l => !(x.lane l).yieldMark

/-- These, or all ready lanes where every one is marked. -/
def Band.eligible (x : Band) : List Nat := if x.unmarked.isEmpty then x.readyLanes else x.unmarked

/-- The eligible lanes that are enrolled in a mask which holds a parked lane. -/
def Band.awaited (x : Band) : List Nat :=
  x.eligible.filter fun l => (List.range 4).any fun j => !(x.parkedOn j).isEmpty && (x.enrolled.getD j 0).getLsbD l

/-- The lanes of which R172 takes the lowest program counter: the awaited ones, if there are any. -/
def Band.pool (x : Band) : List Nat := if x.awaited.isEmpty then x.eligible else x.awaited

/-- R172, when the band has a ready lane. DEDUCED (log entry 72): the rule opens with a band that is ready to issue, so one
with no ready lane keeps its yield marks. -/
def Band.choose (x : Band) : Option Choice :=
  if x.pool.isEmpty || x.inPageService then none
  else some ⟨x.unmarked.isEmpty, x.minPc x.pool, x.pool.filter fun l => (x.lane l).pc = x.minPc x.pool⟩

/-! ### Rejoin masks (R173, R174) -/

/-- Releases a mask: each parked lane becomes ready at the next instruction, and the set becomes empty. Parked
lanes already stand at the instruction after their `join.w`. -/
def Band.release (x : Band) (j : Nat) : Band :=
  { x with lanes := x.lanes.map (fun l => if l.st.isParkedOn j then { l with st := .ready } else l),
           enrolled := setAt x.enrolled j 0 }

/-- Releases every mask whose remaining enrolled lanes are all parked on it (R173). -/
def Band.releaseFull (x : Band) : Band :=
  (List.range 4).foldl (fun x j =>
    let e := lanesOf (x.enrolled.getD j 0)
    if !(x.parkedOn j).isEmpty && e.all (fun l => (x.lane l).st.isParkedOn j) then x.release j else x) x

/-- R174: no lane is ready or blocked, and at least one is parked. -/
def Band.stuckParked (x : Band) : Bool :=
  x.lanes.all (fun l => match l.st with
    | .ready | .blocked _ => false
    | .parked _ | .exited => true) &&
  x.lanes.any fun l => match l.st with
    | .parked _ => true
    | _ => false

/-! ### The fault log (R411) -/

/-- A record of 32 bytes. -/
def flogRecord (type nested tag lid x y z band tstat : Nat) (addr : Nat) : List Byte :=
  leBytes 1 type ++ leBytes 1 nested ++ leBytes 2 tag ++ leBytes 4 lid ++ leBytes 4 x ++ leBytes 4 y ++ leBytes 4 z
    ++ leBytes 1 band ++ leBytes 3 tstat ++ leBytes 8 addr

/-- Makes a record for a function's fault log: nothing while EN = 0. Firmware writes it at its home as soon as nothing stands
before it there (R437), before any later step of an agent. -/
def State.flog (s : State) (f : Nat) (rec : List Byte) : State :=
  let x := s.fn f
  if x.flogCtl.getLsbD 0 then s.setFn f { x with flogWait := x.flogWait ++ [rec] } else s

/-- The slot of a function's next record, by address; none when the ring is full. -/
def Fn.flogSlot (x : Fn) : Option Nat :=
  let n := 2 ^ (x.flogCtl.extractLsb' 2 4).toNat
  let used := (x.flogWp.toNat + 2 ^ 16 - x.flogRp.toNat % 2 ^ 16) % 2 ^ 16
  if n ≤ used then none else some (x.flogBase.toNat + 32 * (x.flogWp.toNat % n))

/-- A function whose oldest waiting record is dropped, since its ring is full, or written. -/
def Fn.flogDone (x : Fn) (dropped : Bool) : Fn :=
  let x := { x with flogWait := x.flogWait.drop 1 }
  if dropped then { x with flogCtl := x.flogCtl ||| 2 }
  else { x with flogWp := BitVec.ofNat 32 ((x.flogWp.toNat + 1) % 2 ^ 16) }

/-- Whether a page request can be answered: the log takes records (R411). -/
def State.flogOn (s : State) (f : Nat) : Bool := (s.fn f).flogCtl.getLsbD 0

/-! ### Loans (R436 to R439, R461) -/

/-- The line of an address, by number. -/
def lineOf (pa : Nat) : Nat := pa / 128

/-- Whether a sample still holds its loan (R461). -/
def Sample.open' (m : Sample) : Bool :=
  match m.st with
  | .primary | .waiting | .replay | .arbitration => true
  | .accessioned | .deaccessioned | .released => false

/-- The line that a request at its home is for. -/
def Pkt.homeLine (q : Pkt) : Option Nat :=
  match q.msg with
  | .loadReq _ _ _ _ line _ _ _ _ _ => some line
  | .storeReq r => some r.line
  | .atomReq r => some r.line
  | .ownReq _ line => some line
  | .watchChk _ _ _ _ line _ => some line
  | .loadRep _ _ _ _ _ _ _ _ _ _ _ _ _ _ | .storeAck _ _ _ _ | .atomRep _ _ _ _ | .ownRep _ _ | .recall _ _
  | .writeback _ _ _ _ _ _ | .watchAns _ _ _ _ _ _ | .engine _ _ _ _ | .engineRep _ _ => none

/-- Requests that have waited at their home for a recall or a loan of a line: the end of the wait is their arrival
(R247, R437). -/
def State.rearrive (s : State) (p : Nat → Bool) : State :=
  { s with arrived := s.arrived.map fun q =>
      if (q.homeLine.map p).getD false then { q with since := max q.since (s.now q.dest.die) } else q }

/-- The end of a sample's loan for the requests that waited for it (R437, R439). -/
def State.loanEnds (s : State) (m : Sample) : State := s.rearrive fun l => m.prov.any fun v => lineOf v.pa == l

/-- Deaccession of an open sample (R439, R461): its provisional versions are discarded, and what waited for them is
served. -/
def State.deaccession (s : State) (sid : Nat) : State :=
  match tget s.samples sid with
  | none => s
  | some m =>
    if m.open' then
      { s with samples := tset s.samples sid { m with st := .deaccessioned, prov := [] } }.loanEnds m
    else s

/-! ### Failing a grid (R208) -/

/-- The bits of a launch identifier that records hold (R207, R411). -/
def State.lidField (s : State) (lid : Nat) : Nat := ((s.grid lid).map Grid.orig).getD lid % 2 ^ 32

/-- A grid that has not failed yet fails with a status: its bands stop, and its open samples are deaccessioned (R461). -/
def State.markFailed (s : State) (lid status : Nat) : State :=
  let s := ((s.samples.filter fun p => p.2.lid == lid).map (·.1)).foldl State.deaccession s
  let bs : Tbl Block := s.blocks.map fun p =>
    if p.2.lid = lid then (p.1, { p.2 with st := .stopped false none 0 }) else p
  { s with blocks := bs }.modGrid lid fun g => { g with st := .failing status }

/-- Fails a grid with a status: its bands stop, and the trap that did it is logged. `GRID_FAILURE` reports when its work
has drained (R207, R208). A grid that has failed already keeps its first status. -/
def State.failGrid (s : State) (lid status : Nat) (rec : List Byte) : State :=
  match s.grid lid with
  | none => s
  | some g =>
    match g.st with
    | .accepted => (s.markFailed lid status).flog g.fn rec
    | .failing _ | .complete _ => s

/-- The record of TYPE 2 for a trap of a band. -/
def failRecord (lid : Nat) (b : Block) (n : Nat) (t : Trap) (nested async : Bool) : List Byte :=
  flogRecord 2 nested.toNat 0 lid b.bx b.by' b.bz n ((tstatOf t async nested).toNat % 2 ^ 24) t.addr.toNat

/-- The Fail path of R403 for a trap of band n of block k. -/
def State.failTrap (s : State) (k n : Nat) (t : Trap) (async : Bool := false) : State :=
  match s.blk k with
  | none => s
  | some b => s.failGrid b.lid 4 (failRecord (s.lidField b.lid) b n t (((b.band n).map Band.inh).getD false) async)

/-! ### Taking a trap (R403, R404, R408) -/

/-- The SETT code that names no token (R47). -/
def noTok : Nat := 7

/-- The points of R63: every earlier result counts as written, every token is clear, the latch is empty. A copy into the
band's registers loses its token, and an instruction whose issue waits for bytes starts again. -/
def Band.sync (x : Band) : Band :=
  { x with tokens := 0, latch := [], sched := [], pend := x.pend.map fun p => { p with tok := none }
           accOut := x.accOut.map fun p => { p with tok := none }
           regCopies := x.regCopies.map fun q => (noTok, q.2), hold := none }

/-- The registers at handler entry (R406, R408): the trap is recorded, TMASK's lanes stand at HBASE. -/
def Band.enter (x : Band) (hbase : DWord) (t : Trap) (async ovf : Bool) (pc : DWord) (act : List Nat) : Band :=
  let y := x.sync
  { y with
    tstat := tstatOf t async true
    tinfo := tinfoOf t ovf
    taddr := t.addr
    tepc := pc
    tmask := laneSet act
    stallSkip := false
    lanes := modAll y.lanes act fun _ l => { l with pc := hbase, yieldMark := false } }

/-- R408: handler entry, or the failure of the grid without a handler or inside one. -/
def State.enterHandler (s : State) (k n : Nat) (t : Trap) (async ovf : Bool) (pc : DWord) (act : List Nat) : State :=
  match s.blk k with
  | none => s
  | some b =>
    match b.band n with
    | none => s
    | some x =>
      if b.hbase = 0 ∨ x.inh = true then s.failTrap k n t async
      else s.setBlk k (b.setBand n (x.enter b.hbase t async ovf pc act))

/-- A facility of DBGEN (R426) for a block. -/
def State.dbg (s : State) (b : Block) (bit : Nat) : Bool := ((s.ctx b.asid).map fun c => c.dbgen.getLsbD bit).getD false

/-- A Handler-path trap: THALT, where DBGEN opens it, halts the band first (R427); resuming then enters the handler. -/
def State.handlerTrap (s : State) (k n : Nat) (t : Trap) (async ovf : Bool) (pc : DWord) (act : List Nat) : State :=
  match s.blk k with
  | none => s
  | some b =>
    match b.band n with
    | none => s
    | some x =>
      if s.dbg b 4 && x.dbgctl.getLsbD 2 && !x.inh then
        s.setBlk k (b.setBand n { x with halted := true, resumeTrap := some ⟨t, async, ovf, pc, act⟩ })
      else s.enterHandler k n t async ovf pc act

/-! ### Asynchronous traps (R404) -/

/-- The trap that a band takes at its boundary: of a copy or a command the earliest accepted, else DEADLINE. `which` is
0, 1 or 2 for the three kinds. -/
def Band.dueTrap (x : Band) : Option (Nat × AsyncTrap) :=
  match x.asyncCopy, x.asyncCmd, x.asyncDl with
  | some a, some c, _ => some (if c.seq < a.seq then (1, c) else (0, a))
  | some a, none, _ => some (0, a)
  | none, some c, _ => some (1, c)
  | none, none, some d => some (2, d)
  | none, none, none => none

/-- Takes a pending trap away. -/
def Band.clearTrap (x : Band) (which : Nat) : Band :=
  match which with
  | 0 => { x with asyncCopy := none }
  | 1 => { x with asyncCmd := none }
  | _ => { x with asyncDl := none }

/-- The boundary at which a band can take an asynchronous trap: its block runs, it is not halted or in its handler, and
it has a lane to issue (R404, R409). -/
def State.boundary (s : State) (k n : Nat) : Option (Band × Choice) :=
  match s.blk k with
  | none => none
  | some b =>
    match b.band n with
    | none => none
    | some x => if b.st != .running || x.halted || x.inh then none else x.choose.map fun c => (x, c)

/-- A band takes the asynchronous trap that is due at its boundary (R404, R408). -/
def State.takeDue (s : State) (k n : Nat) : Option State :=
  match s.boundary k n with
  | none => none
  | some (x, ch) => x.dueTrap.map fun d =>
      (s.modBand k n fun x => x.clearTrap d.1).handlerTrap k n { d.2.trap with lane := lowest ch.active } true d.2.ovf ch.pc
        ch.active

/-- PAGE service (R410): a record with a new tag, and the lanes wait on the tag. Without a log the request
counts as declined (R411). -/
def State.pageRequest (s : State) (k n : Nat) (t : Trap) (act : List Nat) : State :=
  match s.blk k with
  | none => s
  | some b =>
    if !s.flogOn b.fn then s.failTrap k n t
    else
      let x := s.fn b.fn
      let tag := x.nextTag % 2 ^ 16
      let inh := ((b.band n).map Band.inh).getD false
      let s := s.setFn b.fn { x with nextTag := tag + 1, pageReqs := x.pageReqs ++ [⟨tag, k, some n, none, t⟩] }
      let s := s.flog b.fn (flogRecord 1 inh.toNat tag (s.lidField b.lid) b.bx b.by' b.bz n ((tstatOf t false inh).toNat % 2 ^ 24)
        (t.req.getD t.addr).toNat)
      s.modBand k n fun x => x.modLanes act fun _ l => { l with st := .blocked (.page tag) }

/-- The paths of R403 for a synchronous trap, except MIGR. -/
def State.syncTrap (s : State) (k n : Nat) (t : Trap) (pc : DWord) (act : List Nat) : State :=
  if t.fail then s.failTrap k n t
  else
    match t.cls with
    | .page => s.pageRequest k n t act
    | .stream => if t.cause = 3 then s.pageRequest k n t act else s.handlerTrap k n t false false pc act
    | _ => s.handlerTrap k n t false false pc act

/-! ### Return from the handler (R415) -/

/-- Every lane of TMASK takes the resumption address, INH clears, and the point of R63 is reached. A STALL
trap re-issues without the test that raised it (R69). -/
def Band.rte (x : Band) (target : DWord) : Band :=
  let y := x.sync
  { y with
    tstat := y.tstat &&& ~~~((1 : Word) <<< 26)
    stallSkip := (y.tstat &&& 31) = 10 && target = y.tepc
    lanes := modAll y.lanes (lanesOf y.tmask) fun _ l =>
      { l with pc := target, st := if l.st = .exited then .exited else .ready } }

/-! ### Conditions -/

/-- Raises conditions in a band's FSTAT (R27). -/
def Band.raise (x : Band) (c : Conds) : Band := { x with fstat := orConds x.fstat c }

end Sys2Proof.Machine
end

