-- ==== Sys2Proof/Machine/Mem.lean ====
section
/-! DEFINITION. Memory as the device keeps it: the physical map, keys and poison of codewords, translation and its
caches, homes, leases, L1 lines, loans and snapshots, and the network's packets (R231 to R273, R436 to R441). -/

namespace Sys2Proof.Machine

open Sys2Proof

/-! ### The physical map (R232) -/

def isDev (pa : Nat) : Bool := pa < 0x60_0000_0000
def isHost (pa : Nat) : Bool := 0x100_0000_0000 ≤ pa && pa < 0x200_0000_0000
def isReg (pa : Nat) : Bool := 0xF00_0000_0000 ≤ pa && pa < 0x1000_0000_0000
/-- The Solust aperture (R493). -/
def isAperture (pa : Nat) : Bool := 0xF80_0000_0000 ≤ pa && pa < 0x1000_0000_0000
def populated (pa : Nat) : Bool := isDev pa || isHost pa || isReg pa

/-- The home die of a line, by its address (R251). -/
def homeDie (pa : Nat) : Nat := if isHost pa then 4 + pa / 2 ^ 11 % 2 else pa / 2 ^ 7 % 8 / 2

/-- The home slice of a line, numbered over the device: 32 on each gallery die, then 16 on each annex die. -/
def homeSlice (pa : Nat) : Nat :=
  if isHost pa then 128 + 16 * (pa / 2 ^ 11 % 2) + pa / 2 ^ 7 % 16
  else 32 * (pa / 2 ^ 7 % 8 / 2) + 16 * (pa / 2 ^ 7 % 2) + pa / 2 ^ 10 % 16

/-- The stack channel of an address: 16 to a stack (R485). -/
def channelOf (pa : Nat) : Nat := 16 * (pa / 2 ^ 7 % 8) + pa / 2 ^ 10 % 16

/-! ### Keys and poison (R488, R489, R491, R505) -/

/-- The generation of a key: 0 until firmware makes a new one (R505). -/
def State.keyGen (s : State) (kid : Nat) : Nat := (tget s.root.keyGen kid).getD 0

/-- The slice that homes a line since the last reset: that of the retired slice's pair (R514). -/
def State.sliceOf (s : State) (pa : Nat) : Nat :=
  let sl := homeSlice pa
  if s.remapped.contains sl then (if sl % 2 = 0 then sl + 1 else sl - 1) else sl

/-- A retired channel without a spare (R514). -/
def Channel.dead (c : Channel) : Bool := c.retired && !c.spared

/-- Whether an address lies in a channel that is retired and has no spare (R514). -/
def State.deadAt (s : State) (pa : Nat) : Bool := isDev pa && ((tget s.channels (channelOf pa)).map Channel.dead).getD false

/-- Whether a codeword has its poison mark in the stack (R489), or is one that a restore left unwritten (R498). -/
def State.cwPoison (s : State) (n : Nat) : Bool :=
  match tget s.cw n with
  | some t => t.poison
  | none => isDev (32 * n) && s.unwritten.any fun c => Config.freeBit (c + n)

/-- Whether a line holds poisoned data, by its home's mark or by one of the stack's (R470); every line of a channel without a
spare reads as poisoned (R514). -/
def State.linePoison (s : State) (pa : Nat) : Bool :=
  s.deadAt pa || (s.home (lineOf pa)).poisoned || (List.range 4).any fun j => s.cwPoison (4 * lineOf pa + j)

/-- The byte that a read under a key returns (R491); host memory has no key. -/
def State.rdByte (s : State) (kid pa : Nat) : Byte :=
  match tget s.cw (pa / 32) with
  | none => mget s.mem pa
  | some t =>
    if isHost pa = true ∨ t.kid = kid ∧ t.gen = s.keyGen kid then mget s.mem pa
    else Config.crossKey (pa / 32) kid (s.keyGen kid) t.kid t.gen (mread s.mem (pa / 32 * 32) 32) (pa % 32)

/-- The bytes from an address on, read under a key. -/
def State.rd (s : State) (kid pa : Nat) : Nat → List Byte
  | 0 => []
  | n + 1 => s.rdByte kid pa :: s.rd kid (pa + 1) n

/-- The key under which a codeword was written. -/
def State.keyOf (s : State) (pa : Nat) : Nat := ((tget s.cw (pa / 32)).map CwTag.kid).getD 0

/-- The bytes from an address on, as the walker, the dispatcher and firmware read them: under the key with which they were
written, as far as that key still stands. DESIGN CHOICE (log entry 85): no rule names the key of these reads. -/
def State.rdOwn (s : State) (pa n : Nat) : List Byte := (List.range n).map fun i => s.rdByte (s.keyOf (pa + i)) (pa + i)

/-- Brings a codeword under a key before a partial write (R488: read, decrypt, merge, encrypt). -/
def State.rekey (s : State) (kid cwn : Nat) : State :=
  let bs := s.rd kid (32 * cwn) 32
  let p := ((tget s.cw cwn).map CwTag.poison).getD false
  { s with mem := mwrite s.mem (32 * cwn) bs, cw := tset s.cw cwn ⟨kid, s.keyGen kid, p⟩ }

/-- Puts a codeword under the key of a write. -/
def State.underKey (s : State) (kid pa : Nat) : State :=
  if isHost pa then s
  else
    match tget s.cw (pa / 32) with
    | none => { s with cw := tset s.cw (pa / 32) ⟨kid, s.keyGen kid, s.cwPoison (pa / 32)⟩ }
    | some t => if t.kid = kid ∧ t.gen = s.keyGen kid then s else s.rekey kid (pa / 32)

/-- The function whose partition owns a key (R505). -/
def State.keyOwner (s : State) (kid : Nat) : Option Nat :=
  (s.pf.keymap.find? fun p => p.2.getLsbD kid).map (·.1)

/-- Marks the granule of a write to device memory in the live bitmap of its partition (R510): 64 KiB granules. -/
def State.noteDirty (s : State) (kid pa : Nat) : State :=
  match s.keyOwner kid with
  | none => s
  | some f =>
    let x := s.fn f
    if isDev pa && x.lmTrack && !x.dirty.contains (pa / 65536) then s.setFn f { x with dirty := x.dirty ++ [pa / 65536] } else s

/-- One byte written in coherence order at A, with its W. The value that it replaces is kept while a snapshot may need it
(R440, R468): that of a sample that is open, or of one that starts before W. A dead channel discards the write (R514). -/
def State.pokeByte (s : State) (kid pa w a : Nat) (v : Byte) : State :=
  if s.deadAt pa then s
  else
    let s := s.underKey kid pa
    { s with
      mem := mset s.mem pa v
      hist := if s.samples.isEmpty && decide (w ≤ s.time) then s.hist else ⟨pa, mget s.mem pa, w, a⟩ :: s.hist }

def State.pokeBytes (s : State) (kid pa w a : Nat) : List Byte → State
  | [] => s
  | b :: bs => (s.pokeByte kid pa w a b).pokeBytes kid (pa + 1) w a bs

/-- The reads of a line's two units that are out or wait at its channel. -/
def State.fetching (s : State) (line : Nat) : Bool :=
  match tget s.channels (channelOf (128 * line)) with
  | none => false
  | some c => (c.queue ++ c.out.map (·.2)).any fun r =>
      r.kind == .rd && r.for_ == .slice && r.addr / 2 == 128 * line / 2 ^ 14

/-- Whether a read of a line is out or waits at its channel, for whatever it is. -/
def State.beingRead (s : State) (line : Nat) : Bool :=
  match tget s.channels (channelOf (128 * line)) with
  | none => false
  | some c => isDev (128 * line) && (c.queue ++ c.out.map (·.2)).any fun r => r.kind == .rd && r.addr / 2 == 128 * line / 2 ^ 14

/-- Whether a line must still be read from its stack before its home can give its bytes. -/
def State.cold (s : State) (pa : Nat) : Bool := isDev pa && (!(s.home (lineOf pa)).inSlice || s.fetching (lineOf pa))

/-- Whether a line may yet turn out poisoned as its home serves a read of a core: its bytes must still come from its stack,
or from another core that owns it and may fail (R247, R470), or from the host, which holds it (R502). -/
def State.unsure (s : State) (core pa : Nat) : Bool :=
  s.cold pa || s.hostHeld.contains (lineOf pa) || match (s.home (lineOf pa)).owner with
    | none => false
    | some c => c != core

/-- The end of a write on a line: its next version (R284) and its W. -/
def State.newVersion (s : State) (line w : Nat) : State :=
  let h := s.home line
  s.setHome line { h with version := h.version + 1, w := max h.w w, dirty := h.dirty || h.inSlice }

/-- A write performed on a line: its bytes, its version and its W. -/
def State.poke (s : State) (kid pa w a : Nat) (bs : List Byte) : State :=
  ((s.pokeBytes kid pa w a bs).noteDirty kid pa).newVersion (lineOf pa) w

/-- The value of a byte at a snapshot time (R440): committed versions newer than σ are undone. -/
def atSigma (pa sigma : Nat) (cur : Byte) : List OldByte → Byte
  | [] => cur
  | o :: t =>
    if o.pa = pa then if o.w ≤ sigma then cur else atSigma pa sigma o.old t else atSigma pa sigma cur t

/-- The byte that a run of a sampled block reads (R441): its own write, or the value at σ. -/
def State.runByte (s : State) (b : Block) (sigma kid pa : Nat) : Byte :=
  match b.overlay.find? fun p => p.pa == pa with
  | some p => p.val
  | none => atSigma pa sigma (s.rdByte kid pa) s.hist

/-! ### Stack channels (R483 to R490) -/

/-- The 64-byte unit of a channel that holds an address, and back (R483). -/
def localUnit (pa : Nat) : Nat := (pa / 2 ^ 14 * 128 + pa % 128) / 64
def unitPa (ch u : Nat) : Nat := u / 2 * 2 ^ 14 + ch % 16 * 2 ^ 10 + ch / 16 * 2 ^ 7 + u % 2 * 64

/-- Whether a write covers a part of codeword j of its unit (R488). -/
def StackReq.touches (r : StackReq) (j : Nat) : Bool := r.kind != .rd && r.mask.extractLsb' (32 * j) 32 != 0

/-- Whether a write covers all of codeword j of its unit, which it then writes directly (R488). -/
def StackReq.covers (r : StackReq) (j : Nat) : Bool := r.kind != .rd && r.mask.extractLsb' (32 * j) 32 == BitVec.allOnes 32

/-- The codewords of its unit that a masked write must read, correct and merge (R488). -/
def StackReq.merges (r : StackReq) : List Nat := (List.range 2).filter fun j => r.touches j && !r.covers j

/-- A request that is sent after others: a read finds the errors of the masked writes to its unit, a write replaces the
codewords that it covers (R487, R488). -/
def Channel.push (c : Channel) (r : StackReq) : Channel :=
  let old := c.queue ++ c.out.map (·.2)
  let r := { r with
    no := c.sent
    after := if r.kind = .rd then
        (old.filter fun q => q.addr == r.addr && q.merges.any fun j => !q.replaced.contains j).map StackReq.no else [] }
  let late (q : StackReq) : StackReq :=
    if q.addr = r.addr then { q with replaced := q.replaced ++ (List.range 2).filter r.covers } else q
  { c with queue := c.queue.map late ++ [r], out := c.out.map fun p => (p.1, late p.2), sent := c.sent + 1 }

/-- Queues a request at its channel. -/
def State.toStack (s : State) (ch : Nat) (r : StackReq) : State :=
  { s with channels := tset s.channels ch (((tget s.channels ch).getD {}).push r) }

/-- A read of a 64-byte unit under a key (R490): its bytes, and whether one of its codewords has a mark (R489). -/
def State.readUnit (s : State) (a kid : Nat) (f : StackFor) : State :=
  s.toStack (channelOf a) { kind := .rd, addr := localUnit a, kid, psn := s.cwPoison (a / 32) || s.cwPoison (a / 32 + 1), mask := 0,
                            data := s.rd kid a 64, for_ := f }

/-- The marks of the codewords that a write touches: its PSN sets them, and without it a codeword that the write covers loses
its own (R488, R489). -/
def State.markWrite (s : State) (a : Nat) (r : StackReq) : State :=
  (List.range 2).foldl (fun s j =>
    let n := a / 64 * 2 + j
    if r.touches j && (r.psn || (r.covers j && s.cwPoison n)) then
      { s with cw := tset s.cw n { (tget s.cw n).getD ⟨r.kid, s.keyGen r.kid, false⟩ with poison := r.psn } }
    else s) s

/-- A write of some bytes of a unit that goes to the stack, with the home's mark as its PSN (R486, R489, R490): a WR of a whole
unit, else an MW. -/
def State.writeUnit (s : State) (a kid : Nat) (mask : BitVec 64) (data : List Byte) (f : StackFor) : State :=
  let r : StackReq := { kind := if mask = BitVec.allOnes 64 then .wr else .mw, addr := localUnit a, kid
                        psn := (s.home (lineOf a)).poisoned, mask, data, for_ := f }
  (s.markWrite a r).toStack (channelOf a) r

/-- The masked write of bytes of one unit by a home that does not hold the line in its slice; writes of one work to one unit
that follow each other go together. -/
def State.maskedUnit (s : State) (work : StackFor) (kid pa : Nat) (bs : List Byte) : State :=
  if !isDev pa || (s.home (lineOf pa)).inSlice then s
  else
    let mask : BitVec 64 := BitVec.ofNat 64 ((2 ^ bs.length - 1) * 2 ^ (pa % 64))
    let c := (tget s.channels (channelOf pa)).getD {}
    match c.queue.getLast? with
    | some q =>
      if q.kind = .mw ∧ q.addr = localUnit pa ∧ q.kid = kid ∧ q.for_ = work then
        let q := { q with mask := q.mask ||| mask, data := q.data ++ bs }
        let c := { c with queue := c.queue.dropLast }
        { s.markWrite pa q with channels := tset s.channels (channelOf pa) (c.push q) }
      else s.writeUnit pa kid mask bs work
    | none => s.writeUnit pa kid mask bs work

/-- The masked writes of a home that does not hold the line in its slice, one for each unit, for a write that no band waits
for (R471, R490). -/
def State.maskedWrite (s : State) (work : StackFor) (kid pa : Nat) (bs : List Byte) : State :=
  (List.range ((pa % 64 + bs.length + 63) / 64)).foldl (fun s j =>
    let a := max pa (pa / 64 * 64 + 64 * j)
    s.maskedUnit work kid a ((bs.drop (a - pa)).take (64 - a % 64))) s

/-! ### Homes and slices (R245 to R252) -/

def State.floorOf (s : State) (pa : Nat) : Nat := (tget s.floors (s.sliceOf pa)).getD 0

/-- W of a store that its home performs at time a (R246); a store to host memory is complete when the host link reports
it (R273). -/
def State.wOf (s : State) (pa a : Nat) : Nat :=
  if isHost pa then a else max a (max (s.home (lineOf pa)).lx (s.floorOf pa))

/-- The lines that a slice holds in its tags, or keeps in its shadow. -/
def State.sliceLines (s : State) (sl : Nat) (shadow : Bool) : List Nat :=
  (s.homes.filter fun p => s.sliceOf (128 * p.1) == sl && (if shadow then p.2.inShadow else p.2.inSlice)).map (·.1)

/-- The lines of a slice (R251, R2). -/
def sliceCap (sl : Nat) : Nat := if sl < 128 then 24576 else 16384

/-- The die of a slice. -/
def sliceDie (sl : Nat) : Nat := if sl < 128 then sl / 32 else 4 + (sl - 128) / 16

/-- The 16-way set of a slice in which a line lies (R251): its number among the slice's lines, modulo the sets.
DESIGN CHOICE (log entry 19): the spec gives the ways and no index. -/
def setOf (pa : Nat) : Nat := if isHost pa then pa / 2 ^ 12 % 1024 else pa / 2 ^ 14 % 1536

/-- Drops the entry of a full shadow with the least LX, which raises the floor (R248). The entry just placed is among those
compared. DESIGN CHOICE (log entry 19): the rule does not say whether it is. -/
def State.shadowTrim (s : State) (sl : Nat) : State :=
  let ls := s.sliceLines sl true
  if ls.length ≤ 512 then s
  else
    let v := ls.foldl (fun m l => if (s.home l).lx < (s.home m).lx then l else m) (ls.headD 0)
    let lx := (s.home v).lx
    { s.setHome v { s.home v with inShadow := false, lx := 0 } with
      floors := tset s.floors sl (max ((tget s.floors sl).getD 0) lx) }

/-- The write-back of a line that its slice gives up with writes that its stack has not: a WR of each unit, under the key of
its codewords (R486). -/
def State.writeBack (s : State) (line : Nat) : State :=
  if !isDev (128 * line) || !(s.home line).dirty then s
  else
    (List.range 2).foldl (fun s j =>
      let a := 128 * line + 64 * j
      s.writeUnit a (s.keyOf a) (BitVec.allOnes 64) (mread s.mem a 64) .none) s

/-- Evicts a line of a full set (R248, R251): its writes go to its stack, an unexpired lease, by the slice's own clock, goes to
the shadow. -/
def State.sliceTrim (s : State) (sl keep : Nat) : State :=
  let ls := (s.sliceLines sl false).filter fun l => l != keep && setOf (128 * l) == setOf (128 * keep)
  if ls.length < 16 then s
  else
    let v := ls.headD 0
    let s := s.writeBack v
    let h := s.home v
    let live := decide (s.now (sliceDie sl) < h.lx)
    (s.setHome v { h with inSlice := false, inShadow := live, lx := if live then h.lx else 0, dirty := false }).shadowTrim sl

/-- Brings a line into its slice. -/
def State.intoSlice (s : State) (pa : Nat) : State :=
  let h := s.home (lineOf pa)
  (s.setHome (lineOf pa) { h with inSlice := true, inShadow := false }).sliceTrim (s.sliceOf pa) (lineOf pa)

/-- Whether the home still holds the line's record (R284). -/
def HomeLine.recorded (h : HomeLine) : Bool := h.inSlice || h.inShadow

/-- LEASECFG.LEN (R249). -/
def State.leaseLen (s : State) : Nat := (s.pf.leasecfg.extractLsb' 0 13).toNat

/-! ### L1 lines (R244, R250) -/

def Core.l1Line (c : Core) (line : Nat) : Option L1Line := c.l1.find? fun x => x.line == line
def Core.l1Drop (c : Core) (line : Nat) : Core := { c with l1 := c.l1.filter fun x => x.line != line }
def Core.l1Mod (c : Core) (line : Nat) (f : L1Line → L1Line) : Core :=
  { c with l1 := c.l1.map fun x => if x.line == line then f x else x }

/-- The newest version of a line that a core has received (R278). -/
def Core.newestOf (c : Core) (line : Nat) : Nat := (tget c.newest line).getD 0

/-- Records that a core has received a version of a line from its home (R278). -/
def State.received (s : State) (core line version : Nat) : State :=
  let c := s.core core
  s.setCore core { c with newest := tset c.newest line (max (c.newestOf line) version) }

/-- The valid copy of a line: owned, or leased, not expired (R250) and no older than what the core has received (R278). -/
def State.l1Valid (s : State) (core line : Nat) : Option L1Line :=
  match (s.core core).l1Line line with
  | none => none
  | some x =>
    if x.owned || (decide (s.now (coreDie core) < x.expiry) && (s.core core).newestOf line ≤ x.version) then some x else none

/-- Whether a core owns a line. -/
def State.owns (s : State) (core line : Nat) : Bool :=
  match (s.core core).l1Line line with
  | none => false
  | some x => x.owned

/-! ### The network (R254 to R258, R481, R482, R528) -/

/-- The router of a core, by its global number (R254). -/
def coreRouter (c : Nat) : Router :=
  let r := c % 64
  if c < 512 then ⟨c / 128, r / 4 % 8, 4 * (c % 128 / 64) + r / 32⟩ else ⟨4 + (c - 512) / 64, r / 4 % 8, 2 * (r / 32)⟩

/-- The router of a slice, by its number over the device (R254). -/
def sliceRouter (sl : Nat) : Router :=
  if sl < 128 then ⟨sl / 32, sl % 32 / 2 % 8, 2 + sl % 32 / 16⟩ else ⟨4 + (sl - 128) / 16, (sl - 128) % 16 / 2, 1⟩

/-- The router of a line's home. -/
def State.homeRouter (s : State) (pa : Nat) : Router := sliceRouter (s.sliceOf pa)

/-- The router of a die-link port (R528). -/
def portRouter (die port : Nat) : Router :=
  if isAnnex die then (if port = 0 then ⟨die, 0, 1⟩ else ⟨die, 7, 1⟩)
  else if port = 0 then ⟨die, 7, 2⟩
  else if port = 1 then ⟨die, 0, 3⟩
  else ⟨die, 4, 3⟩

/-- The die links by number: the die and port at each end (R478, R515). -/
def dieLinkEnds : List (Nat × Nat × Nat × Nat) :=
  [(0, 0, 1, 1), (1, 0, 2, 1), (2, 0, 3, 1), (3, 0, 0, 1), (4, 0, 0, 2), (4, 1, 1, 2), (5, 0, 2, 2), (5, 1, 3, 2)]

/-- The links that leave a die and are not retired: the port, the die at the other end and its port. -/
def State.linksFrom (s : State) (d : Nat) : List (Nat × Nat × Nat) :=
  (dieLinkEnds.mapIdx fun i e => (i, e)).flatMap fun (i, a, p, b, q) =>
    if ((tget s.dieLinks i).map Link.retired).getD false then []
    else if a = d then [(p, b, q)]
    else if b = d then [(q, a, p)]
    else []

/-- Whether a path of at most n die links joins two dies. -/
def State.joined (s : State) : Nat → Nat → Nat → Bool
  | 0, a, b => a == b
  | n + 1, a, b => a == b || (s.linksFrom a).any fun l => s.joined n l.2.1 b

/-- The next die link of a packet (R481): of the links that start a shortest path, the one to the least die, which gives
the lexicographically smallest sequence of dies. -/
def State.nextLink (s : State) (a b : Nat) : Option (Nat × Nat × Nat) :=
  match (List.range 6).find? fun n => s.joined n a b with
  | none | some 0 => none
  | some (n + 1) =>
    ((s.linksFrom a).filter fun l => s.joined n l.2.1 b).foldl (fun m l =>
      match m with
      | none => some l
      | some k => if l.2.1 < k.2.1 then some l else some k) none

/-- One hop within a die (R254): along the row, then along the column, with the input port at the next router. Ports are
numbered 0 for the die's own agents, 1 + c from column c, 9 + r from row r, 16 + p from die-link port p. DESIGN CHOICE (log
entry 70): the spec numbers no router port. -/
def Router.hop (a b : Router) : Option (Router × Nat) :=
  if a.col ≠ b.col then some (⟨a.die, b.col, a.row⟩, 1 + a.col)
  else if a.row ≠ b.row then some (⟨a.die, a.col, b.row⟩, 9 + a.row)
  else none

/-- Where a packet goes next: another router, with its input port there and whether a die link is crossed; its destination
(`none` in the answer); or nowhere, where no path is left. -/
def State.nextHop (s : State) (q : Pkt) : Option (Option (Router × Nat × Bool)) :=
  if q.at'.die = q.dest.die then some ((q.at'.hop q.dest).map fun r => (r.1, r.2, false))
  else
    match s.nextLink q.at'.die q.dest.die with
    | none => none
    | some (p, d, e) =>
      match q.at'.hop (portRouter q.at'.die p) with
      | some r => some (some (r.1, r.2, false))
      | none => some (some (portRouter d e, 16 + e, true))

/-- The tie order of the classes (R257). -/
def PktCls.order : PktCls → Nat
  | .probe => 0
  | .reply => 1
  | .request => 2

/-- Whether a packet goes before another at a router output (R257). -/
def Pkt.before (p q : Pkt) : Bool :=
  decide (p.deadline < q.deadline) || (p.deadline == q.deadline && (decide (p.cls.order < q.cls.order) ||
    (p.cls.order == q.cls.order && (decide (p.since < q.since) || (p.since == q.since && decide (p.inPort < q.inPort))))))

/-- Whether a packet is the one that its router's output sends first (R257). -/
def State.firstOut (s : State) (q : Pkt) : Bool :=
  s.net.all fun p => p.id == q.id || p.at' != q.at' || s.nextHop p != s.nextHop q || !p.before q

def State.dlClass (s : State) (lid : Nat) : Nat :=
  match s.grid lid with
  | none => 0
  | some g => g.dclass

/-- Puts a packet into the network at its source's router. -/
def State.post (s : State) (src dest : Router) (cls : PktCls) (deadline lid : Nat) (blk : Option (Nat × Nat)) (m : Msg) :
    State :=
  let p : Pkt := { id := s.serial, cls, src, at' := src, since := s.now src.die, dest, deadline, lid, block := blk, msg := m }
  { s with serial := s.serial + 1, net := s.net ++ [p] }

/-- Sends a packet for a launch: its deadline is the time of sending plus the budget of its class (R210, R256). -/
def State.send (s : State) (src dest : Router) (cls : PktCls) (lid : Nat) (blk : Option (Nat × Nat)) (m : Msg) : State :=
  s.post src dest cls (s.now src.die + (s.pf.dlbud.getD (s.dlClass lid) 0).toNat) lid blk m

/-- Sends what a packet causes at its destination: it keeps the packet's deadline (R256). -/
def State.answer (s : State) (q : Pkt) (cls : PktCls) (dest : Router) (m : Msg) : State :=
  s.post q.dest dest cls q.deadline q.lid q.block m

/-- A line that a unit reads at its home: under which key, and whether through a page with NC = 1. -/
structure LineAsk where
  line : Nat
  kid : Nat
  nc : Bool
  deriving DecidableEq, Repr

/-- The reads that a unit makes at homes: packets with the deadline of the work that needs them (R256). Their data are those
that the unit's own step reads (log entry 71). -/
def State.askHomes (s : State) (src : Router) (lid : Nat) (blk : Option (Nat × Nat)) (id : Nat) (as : List LineAsk) : State :=
  as.foldl (fun s a => s.send src (s.homeRouter (128 * a.line)) .request lid blk (.engine a.line id a.kid a.nc)) s

/-- Those of a core's engines, of its walker's, or of a run of a sampled block (R436, R441). -/
def State.engineAsk (s : State) (core lid : Nat) (blk : Option (Nat × Nat)) (id : Nat) (as : List LineAsk) : State :=
  s.askHomes (coreRouter core) lid blk id as

/-- The dies of the host link and of a Solust port (R478, R492). -/
def hostDie : Nat := 4
def portDie (port : Nat) : Nat := port / 3

/-- The router at which the host link, the dispatcher and firmware enter the network, on the host link's die. DESIGN CHOICE
(log entry 70): the spec gives none. -/
def hostRouter : Router := ⟨hostDie, 0, 1⟩

/-- A read of a line under the key with which it was written. -/
def State.ownKeyAsk (s : State) (line : Nat) : LineAsk := ⟨line, s.keyOf (128 * line), false⟩

/-- The accesses of the host, of firmware and of the dispatcher, whose packets have class 0 (R256). -/
def State.deviceAsk (s : State) (lines : List Nat) : State := s.askHomes hostRouter 0 none 0 (lines.map s.ownKeyAsk)

/-- The lines of a range of bytes. -/
def rangeLines (a n : Nat) : List Nat := (List.range (lineOf (a + n - 1) - lineOf a + 1)).map (lineOf a + ·)

/-- The write-back of an owned line that its core gives up (R247); `wb` is the band that flushes it (R323). The bytes are in
memory already. -/
def L1Line.writeback (x : L1Line) (core : Nat) (wb : Option (Nat × Nat)) : Msg :=
  .writeback core x.line (if x.dirty then some x.data else none) x.mask x.version wb

/-- A core gives up a line of its own accord, for a launch. DESIGN CHOICE (log entry 94): R247 drops an owned line that has not
been written and does not say how its home learns of it; here by a write-back without data, a packet of the reply class
with the deadline of the launch for which the line is given up. -/
def State.giveUp (s : State) (core lid : Nat) (wb : Option (Nat × Nat)) (x : L1Line) : State :=
  let s := s.setCore core ((s.core core).l1Drop x.line)
  if x.owned then s.send (coreRouter core) (s.homeRouter (128 * x.line)) .reply lid wb (x.writeback core wb) else s

/-- The lines of a core's L1 (R233). -/
def Core.l1Cap (c : Core) : Nat := (c.lend - c.send) * 256

/-- Puts a line into a core's L1; a full L1 gives up its oldest line. -/
def State.l1Put (s : State) (core lid : Nat) (x : L1Line) : State :=
  let c := (s.core core).l1Drop x.line
  let s := s.setCore core { c with l1 := c.l1 ++ [x] }
  if c.l1Cap < (s.core core).l1.length then
    match c.l1 with
    | [] => s
    | o :: _ => s.giveUp core lid none o
  else s

/-! ### Translation (R259 to R264) -/

/-- The kind of an access, for its permission (R263). -/
inductive AKind where
  | fetch | read | write
  deriving DecidableEq, Repr

/-- A translated address: physical address, attributes, key and region (R105). -/
structure Xl where
  pa : Nat
  attr : BitVec 16
  kid : Nat
  reg : Region
  fill : Option TlbEnt := none
  deriving DecidableEq, Repr

namespace Xl
def w (x : Xl) : Bool := x.attr.getLsbD 2
def xq (x : Xl) : Bool := x.attr.getLsbD 3
def pv (x : Xl) : Bool := x.attr.getLsbD 4
def nc (x : Xl) : Bool := x.attr.getLsbD 5
def sc (x : Xl) : Bool := x.attr.getLsbD 6
/-- The translation of another address of the same region. -/
def at' (x : Xl) (va va' : Nat) : Nat := x.pa + va' - va
end Xl

/-- What a walk finds: a leaf, a PAGE cause, a poisoned entry, or an entry on another block's loan (R437). -/
inductive WalkRes where
  | leaf (e : TlbEnt)
  | bad (cause : Nat)
  | poison
  | loan (sid : Nat)
  deriving DecidableEq, Repr

/-- Index shift, index bits, and the bits of the page that a leaf maps, by level (R262). -/
def lvlShift (l : Nat) : Nat := match l with
  | 1 => 43
  | 2 => 30
  | 3 => 21
  | _ => 16
def lvlBits (l : Nat) : Nat := match l with
  | 1 => 14
  | 2 => 13
  | 3 => 9
  | _ => 5

/-- Whether a leaf at a level is well formed (R262, R264). -/
def leafOk (lvl : Nat) (e : DWord) : Bool :=
  lvl != 1 && !e.getLsbD 7 && e.extractLsb' 14 2 == 0 && e.extractLsb' 58 6 == 0
    && (e.toNat / 2 ^ 16 % 2 ^ 36) * 2 ^ 16 % 2 ^ lvlShift lvl == 0

/-- Whether a table entry at a level is well formed. -/
def tableOk (lvl : Nat) (e : DWord) : Bool :=
  lvl != 4 && e.extractLsb' 2 6 == 0 && e.extractLsb' 52 12 == 0
    && (e.toNat / 2 ^ 8 % 2 ^ 44) * 2 ^ 8 % 2 ^ (lvlBits (lvl + 1) + 3) == 0

/-- A loan of another block that holds a line with a version of W at most some time: the key of its sample. -/
def State.loanOn (s : State) (own : Option Nat) (line wmax : Nat) : Option Nat :=
  (s.samples.find? fun p =>
    decide (own ≠ some p.1) && p.2.open' && !p.2.detect
      && p.2.prov.any fun v => lineOf v.pa == line && v.w ≤ wmax).map (·.1)

/-- The address of the entry that a walk with m levels left reads in a table (R262). -/
def walkAt (va m table : Nat) : Nat := table + 8 * (va / 2 ^ lvlShift (4 - m) % 2 ^ lvlBits (4 - m))

/-- The walk of R262 with m + 1 levels left, for work of the sample `own`. -/
def State.walk (s : State) (asid : Nat) (own : Option Nat) (va : Nat) : Nat → Nat → WalkRes
  | 0, _ => .bad 2
  | m + 1, table =>
    let lvl := 4 - m
    let a := walkAt va m table
    if !(isDev a || isHost a) then .bad 3
    else
      match s.loanOn own (lineOf a) (2 ^ 70) with
      | some i => .loan i
      | none =>
        if s.linePoison a then .poison
        else
          let e : DWord := BitVec.ofNat 64 (leVal (s.rdOwn a 8))
          if !e.getLsbD 0 then .bad 1
          else if e.getLsbD 1 then
            if leafOk lvl e then .leaf ⟨asid, va / 2 ^ lvlShift lvl * 2 ^ lvlShift lvl, 2 ^ lvlShift lvl, e⟩ else .bad 2
          else if tableOk lvl e then s.walk asid own va m (e.toNat / 2 ^ 8 % 2 ^ 44 * 2 ^ 8)
          else .bad 2

/-- The lines of the table entries that a walk with m levels left reads. -/
def State.walkLines (s : State) (va : Nat) : Nat → Nat → List Nat
  | 0, _ => []
  | m + 1, table =>
    let a := walkAt va m table
    let e := leVal (s.rdOwn a 8)
    lineOf a :: (if e % 4 = 1 then s.walkLines va m (e / 2 ^ 8 % 2 ^ 44 * 2 ^ 8) else [])

/-- The lowest enabled range that holds an address (R259, R260). -/
def rangeOf (rs : List RangeSet) (va : Nat) : Option RangeSet :=
  rs.find? fun r =>
    r.rngb.getLsbD 0 && r.rngb.toNat / 2 ^ 16 % 2 ^ 41 ≤ va / 2 ^ 16 && va / 2 ^ 16 < r.rngl.toNat / 2 ^ 16 % 2 ^ 41

/-- Translation through a range. -/
def rangeXl (r : RangeSet) (va : Nat) : Xl :=
  let base := r.rngb.toNat / 2 ^ 16 % 2 ^ 41 * 2 ^ 16
  let lim := r.rngl.toNat / 2 ^ 16 % 2 ^ 41 * 2 ^ 16
  { pa := r.rngp.toNat / 2 ^ 16 % 2 ^ 36 * 2 ^ 16 + (va - base)
    attr := r.rngp.extractLsb' 0 16
    kid := r.rngp.toNat / 2 ^ 52 % 64
    reg := ⟨base, lim - base, (r.rngp.extractLsb' 8 4).toNat, (r.rngp.extractLsb' 12 2).toNat⟩ }

/-- Translation through a leaf. -/
def leafXl (e : TlbEnt) (va : Nat) : Xl :=
  { pa := e.leaf.toNat / 2 ^ 16 % 2 ^ 36 * 2 ^ 16 + (va - e.va)
    attr := e.leaf.extractLsb' 0 16
    kid := e.leaf.toNat / 2 ^ 52 % 64
    reg := ⟨e.va, e.size, (e.leaf.extractLsb' 8 4).toNat, (e.leaf.extractLsb' 12 2).toNat⟩ }

def TlbEnt.covers (e : TlbEnt) (asid va : Nat) : Bool := e.asid == asid && e.va ≤ va && va < e.va + e.size

/-- Why an address has no translation. -/
inductive XErr where
  | page (cause : Nat)
  | poison
  | loan (sid : Nat)
  deriving DecidableEq, Repr

/-- The result must be populated (R232). -/
def checkPop (x : Xl) : Except XErr Xl := if populated x.pa then .ok x else .error (.page 3)

/-- The translation of an address for a core, for work of the sample `own` (R259, R264, R268). -/
def State.xlate (s : State) (core asid : Nat) (own : Option Nat) (va : Nat) : Except XErr Xl :=
  if 2 ^ 57 ≤ va then .error (.page 0)
  else
    match s.ctx asid with
    | none => .error (.page 1)
    | some c =>
      match rangeOf c.ranges va with
      | some r => checkPop (rangeXl r va)
      | none =>
        match ((s.core core).tlb ++ (tget s.dieTlb (coreDie core)).getD []).find? fun e => e.covers asid va with
        | some e => checkPop (leafXl e va)
        | none =>
          match s.walk asid own va 4 c.root with
          | .leaf e =>
            match checkPop (leafXl e va) with
            | .ok x => .ok { x with fill := some e }
            | .error e => .error e
          | .bad c => .error (.page c)
          | .poison => .error .poison
          | .loan i => .error (.loan i)

/-- Keeps at most n entries, the newest. -/
def keepLast {α : Type} (n : Nat) (l : List α) : List α := l.drop (l.length - n)

/-- The set of a die TLB in which an entry lies (R268): 1,024 sets of 8 ways. DESIGN CHOICE (log entry 18): the spec gives
the ways and no index. -/
def TlbEnt.set (e : TlbEnt) : Nat := e.va / 65536 % 1024

/-- A die TLB with a new entry: a full set loses its oldest one. -/
def dieTlbAdd (l : List TlbEnt) (e : TlbEnt) : List TlbEnt :=
  let l := l.filter (· != e)
  match l.filter (·.set = e.set) with
  | o :: _ :: _ :: _ :: _ :: _ :: _ :: _ :: _ => l.filter (· != o) ++ [e]
  | _ => l ++ [e]

/-- Fills the TLBs with the entry of a walk (R268). -/
def State.tlbFill (s : State) (core : Nat) (x : Xl) : State :=
  match x.fill with
  | none => s
  | some e =>
    let c := s.core core
    let d := coreDie core
    { s.setCore core { c with tlb := keepLast 64 (c.tlb.filter (· != e) ++ [e]) } with
      dieTlb := tset s.dieTlb d (dieTlbAdd ((tget s.dieTlb d).getD []) e) }

/-- Fills the TLBs with the entry of a walk made for a block, whose reads go as packets with the deadline of the access
(R256). -/
def State.walkFill (s : State) (core asid lid : Nat) (blk : Option (Nat × Nat)) (va : Nat) (x : Xl) : State :=
  match x.fill, s.ctx asid with
  | some _, some c => (s.engineAsk core lid blk 0 ((s.walkLines va 4 c.root).map s.ownKeyAsk)).tlbFill core x
  | _, _ => s

/-- R263. -/
def State.permOk (s : State) (fn : Nat) (priv : Bool) (k : AKind) (x : Xl) : Bool :=
  (match k with
    | .fetch => x.xq
    | .read => true
    | .write => x.w)
  && (!x.pv || priv) && (!isReg x.pa || x.pv) && (((tget s.pf.keymap fn).getD 0).getLsbD x.kid)

/-- The first address of a list that fails a test, as a trap. -/
def firstTrap {α : Type} (l : List α) (f : α → Option Trap) : TOut Unit :=
  match l with
  | [] => .ok ()
  | a :: t =>
    match f a with
    | some e => .error e
    | none => firstTrap t f

/-- One lane's part of a global access. -/
structure LaneX where
  lane : Nat
  va : Nat
  x : Xl
  deriving DecidableEq, Repr

/-- What stops an access before it takes effect: a trap, or the loan on which an entry of its walk lies (R437). -/
inductive Stop where
  | trap (t : Trap)
  | loan (sid : Nat)
  deriving DecidableEq, Repr

/-- Translation and permission of a multi-lane access for work of the sample `own`: PAGE (or the POISON of a walk) in any
lane comes before PERM in any lane (R264, R304). -/
def State.xlateAll (s : State) (core asid fn : Nat) (own : Option Nat) (priv : Bool) (k : AKind) (ls : List (Nat × Nat)) :
    Except Stop (List LaneX) :=
  let xs := ls.map fun p => (p.1, p.2, s.xlate core asid own p.2)
  match xs.findSome? fun x => match x.2.2 with
      | .error (.loan i) => some i
      | .error _ | .ok _ => none with
  | some i => .error (.loan i)
  | none =>
    match firstTrap xs fun (l, va, r) =>
        match r with
        | .ok _ => none
        | .error (.page c) => some { cls := .page, cause := c, lane := l, addr := BitVec.ofNat 64 va }
        | .error _ => some { cls := .poison, lane := l, addr := BitVec.ofNat 64 va } with
    | .error t => .error (.trap t)
    | .ok _ =>
      let ys := xs.filterMap fun (l, va, r) =>
        match r with
        | .ok x => some ⟨l, va, x⟩
        | .error _ => none
      match firstTrap ys fun y =>
          if s.permOk fn priv k y.x then none
          else some { cls := .perm, lane := y.lane, addr := BitVec.ofNat 64 y.va } with
      | .error t => .error (.trap t)
      | .ok _ => .ok ys

/-- Fills the TLBs after a multi-lane access of a band, once for each entry. -/
def State.tlbFillAll (s : State) (core asid lid : Nat) (blk : Option (Nat × Nat)) (ys : List LaneX) : State :=
  (ys.foldl (fun (st : State × List TlbEnt) y =>
    match y.x.fill with
    | some e => if st.2.contains e then st else (st.1.walkFill core asid lid blk y.va y.x, e :: st.2)
    | none => st) (s, [])).1

/-! ### Loans (R436, R437) -/

/-- Whether a run's stores stay in its overlay alone (R450). -/
def Block.later (b : Block) : Bool :=
  match b.run with
  | .replay | .arbitration => true
  | .plain | .primary => false

/-- The loan that an access of a block waits for (R437, R440): any version, or for a run at σ those of W ≤ σ. What a later run
writes does not reach the line (R450). -/
def State.blockLoan (s : State) (b : Block) (sigma : Nat) (read : Bool) (pa : Nat) : Option Nat :=
  match b.sid with
  | none => s.loanOn none (lineOf pa) (2 ^ 70)
  | some i => if b.later && !read then none else s.loanOn (some i) (lineOf pa) (if read then sigma else 2 ^ 70)

/-- Whether a run's stores open provisional versions (R436). -/
def State.contained (s : State) (b : Block) : Bool :=
  match b.run, b.sid with
  | .primary, some i =>
    match tget s.samples i with
    | some m => !m.detect
    | none => false
  | _, _ => false

/-- The snapshot times that the runs of a sample have taken, or will take from its log (R440, R442, R446). -/
def Sample.sigmas (m : Sample) : List Nat :=
  m.sigma0 :: (m.log.filter fun r => r.type == 3).map fun r => (r.body.getD 1 0).toNat

/-- The versions of a history, newest first, that a snapshot at some of the given times reads (R468). -/
def retainedFor (sigmas : List Nat) : List OldByte → List OldByte
  | [] => []
  | o :: t =>
    let w := ((t.find? fun q => q.pa == o.pa).map OldByte.w).getD 0
    if sigmas.any fun g => w ≤ g && g < o.w then o :: retainedFor sigmas t else retainedFor sigmas t

/-- The committed versions that are retained for sampled blocks (R468). -/
def State.retained (s : State) : List OldByte :=
  retainedFor ((s.samples.filter fun p => p.2.open').flatMap fun p => p.2.sigmas) s.hist

/-- The lines of which slices hold provisional versions, once for each sample. -/
def State.provLines (s : State) : List Nat := s.samples.flatMap fun p => (p.2.prov.map fun v => lineOf v.pa).eraseDups

/-- The retained versions that slices hold, each by its line (R468). -/
def State.keptLines (s : State) : List Nat :=
  ((s.retained.map fun o => (lineOf o.pa, o.w)).eraseDups.map (·.1)).filter fun l => (s.home l).inSlice

/-- The versions in a slice, of the lines given. -/
def State.inSliceOf (s : State) (sl : Nat) (ls : List Nat) : Nat := (ls.filter fun l => s.sliceOf (128 * l) == sl).length

/-- The first line of a primary run's writes that must wait because a quarter of its slice holds versions, provisional and
retained ones, and those that the writes before it open (R466, R468): the sample, and the address. -/
def State.provWait (s : State) (b : Block) (pas : List Nat) : Option (Nat × Nat) :=
  if s.contained b then
    let all := s.provLines ++ s.keptLines
    let new := ((pas.filter fun a => !isReg a).map lineOf).eraseDups.filter fun l => !b.overlay.any fun v => lineOf v.pa == l
    ((List.range new.length).findSome? fun j => new[j]?.bind fun l =>
      let sl := s.sliceOf (128 * l)
      if sliceCap sl / 4 ≤ s.inSliceOf sl (all ++ new.take j) then some (128 * l) else none).bind fun a => b.sid.map fun i => (i, a)
  else none

/-- The same of one write. -/
def State.provFull (s : State) (b : Block) (pa : Nat) : Option Nat := (s.provWait b [pa]).map (·.1)

/-- Bytes written in a run's own view. -/
def overlayPut (o : List Prov) (pa va kid w a : Nat) (clr : Bool) : List Byte → List Prov
  | [] => o
  | b :: bs => overlayPut (⟨pa, b, va, kid, w, a, clr⟩ :: o.filter fun p => p.pa != pa) (pa + 1) (va + 1) kid w a clr bs

/-- Adds provisional versions to a loan, newest first (R436). -/
def provPut (o : List Prov) (pa va kid w a : Nat) (clr : Bool) : List Byte → List Prov
  | [] => o
  | b :: bs => provPut (⟨pa, b, va, kid, w, a, clr⟩ :: o) (pa + 1) (va + 1) kid w a clr bs

/-- The sample of a block, for R437. -/
def State.sidOf (s : State) (k : Nat) : Option Nat := (s.blk k).bind Block.sid

/-- The loan that a request at its home waits for (R437). -/
def State.pktLoan (s : State) (q : Pkt) (line : Nat) : Option Nat :=
  s.loanOn (q.block.bind fun b => s.sidOf b.1) line (2 ^ 70)

/-- Whether a message asks its home to read or write a line; a watch check alone does not. -/
def Msg.isAccess (m : Msg) : Bool :=
  match m with
  | .loadReq _ _ _ _ _ _ _ _ _ _ | .storeReq _ | .atomReq _ | .ownReq _ _ => true
  | _ => false

/-- Whether an access that has arrived waits at a line's home for anything but a loan: what arrives now goes after it. -/
def State.queued (s : State) (line : Nat) : Bool :=
  s.arrived.any fun p => p.homeLine == some line && p.msg.isAccess && (s.pktLoan p line).isNone

/-! ### Registers of a run's record (R453 to R456) -/

/-- CRC-64 of R435, over one byte. -/
def crcByte (c : DWord) (b : Byte) : DWord :=
  (List.range 8).foldl (fun c _ => if c.getLsbD 63 then (c <<< 1) ^^^ 0x42F0_E1EB_A9EA_3693#64 else c <<< 1)
    (c ^^^ (b.setWidth 64 <<< 56))

def crc64 (m : List Byte) : DWord := m.foldl crcByte 0

/-- The parts of the store signature (R455). -/
inductive SigPart where
  | sc | si | su
  deriving DecidableEq, Repr

def sigPart (kind : Nat) : SigPart :=
  match kind with
  | 0 | 5 | 6 => .sc
  | 1 | 7 => .si
  | _ => .su

/-- A store record of R454, for the bytes of one 16-byte unit. -/
def storeRecord (addr : Nat) (data : List Byte) (mask band kind seq : Nat) : List Byte :=
  leBytes 8 addr ++ data ++ leBytes 2 mask ++ leBytes 1 band ++ leBytes 1 kind ++ leBytes 4 seq

/-- Adds a store record to a run's signature. -/
def Sig.store (g : Sig) (kind : Nat) (rec : List Byte) : Sig :=
  match sigPart kind with
  | .sc => { g with sc := g.sc + crc64 rec }
  | .si => { g with si := g.si + crc64 rec }
  | .su => { g with su := g.su + crc64 rec }

/-- The record of a write that lies in one 16-byte unit; wider and straddling writes give one for each unit. -/
def unitRecord (addr : Nat) (bs : List Byte) (u band kind seq : Nat) : List Byte :=
  let base := addr / 16 * 16 + 16 * u
  let byte (i : Nat) : Option Byte :=
    if addr ≤ base + i ∧ base + i < addr + bs.length then bs[base + i - addr]? else none
  storeRecord base ((List.range 16).map fun i => (byte i).getD 0)
    (((List.range 16).map fun i => if (byte i).isSome then 2 ^ i else 0).sum) band kind seq

/-- Adds the records of a write. -/
def Sig.write (g : Sig) (kind addr band seq : Nat) (bs : List Byte) : Sig :=
  (List.range ((addr % 16 + bs.length + 15) / 16)).foldl
    (fun g u => g.store kind (unitRecord addr bs u band kind seq)) g

/-- Adds a register record (R456). -/
def Sig.regw (g : Sig) (val : Word) (who reg seq : Nat) : Sig :=
  { g with reg := g.reg + crc64 (leBytes 4 val.toNat ++ leBytes 2 who ++ leBytes 1 reg ++ leBytes 1 0 ++ leBytes 8 seq) }

/-- Records a write of a band in its run's signature, at its place among the band's writes; nothing for a block that is
not sampled. -/
def Block.signWrite (b : Block) (n kind addr : Nat) (bs : List Byte)
    (seq : Nat := ((b.band n).map fun x => x.wseq.stores).getD 0) : Block :=
  if b.sid.isNone then b else { b with sig := b.sig.write kind addr n seq bs }

/-! ### Stores of a band to global memory (R246, R310, R436, R450) -/

/-- Whether a message is a store of a band to a line. -/
def Msg.stores (m : Msg) (k n line : Nat) : Bool :=
  match m with
  | .storeReq r => r.block == k && r.band == n && r.line == line
  | _ => false

/-- Whether a store of a band to a line is on its way (R275: accesses that overlap stay in order). -/
def State.storeInFlight (s : State) (k n line : Nat) : Bool :=
  (s.net ++ s.arrived).any (fun p => p.msg.stores k n line)
    || s.cores.any fun c => c.2.scq.any fun a => a.msg.stores k n line

/-- Clears the poison of a line, at its home and in its stack. -/
def State.unpoison (s : State) (line : Nat) : State :=
  let s := s.setHome line { s.home line with poisoned := false }
  { s with cw := s.cw.map fun p => if p.1 / 4 = line then (p.1, { p.2 with poison := false }) else p }

/-- The home holds a line poisoned (R470, R489). -/
def State.holdPoison (s : State) (line : Nat) : State := s.setHome line { s.home line with poisoned := true }

/-- The bits of some bytes of a line. -/
def lineMask (off n : Nat) : BitVec 128 := BitVec.ofNat 128 ((2 ^ n - 1) * 2 ^ off)

/-- Bytes of an owned line that its core has written (R247). -/
def L1Line.wrote (x : L1Line) (pa n version : Nat) : L1Line :=
  { x with dirty := true, version, mask := x.mask ||| lineMask (pa % 128) n }

/-- The home takes the written bytes of an owned line that its slice does not hold: they go to its stack as masked writes
(R471). -/
def State.ownedBack (s : State) (work : StackFor) (line : Nat) (mask : BitVec 128) : State :=
  if !isDev (128 * line) || (s.home line).inSlice then s
  else
    (List.range 2).foldl (fun s j =>
      let a := 128 * line + 64 * j
      let m := mask.extractLsb' (64 * j) 64
      if m = 0 then s
      else s.writeUnit a (s.keyOf a) m (((List.range 64).filter fun i => m.getLsbD i).map fun i => mget s.mem (a + i)) work) s

/-- A recall made at once, for an access that its home performs in the step of its issue: the owner gives up the
line, whose latest bytes memory holds, or the host its copy (R502). The probe and its answer go as packets, for a launch or
class 0 (R256). -/
def State.recallNow (s : State) (line : Nat) (lid : Nat := 0) : State :=
  let s := if s.hostHeld.contains line then
      ({ s with hostHeld := s.hostHeld.filter (· != line), hostAsked := s.hostAsked.filter (· != line) }).send
        (s.homeRouter (128 * line)) hostRouter .probe lid none (.engine line 0 0 false)
    else s
  match (s.home line).owner with
  | none => s
  | some c =>
    let mask := (((s.core c).l1Line line).map L1Line.mask).getD 0
    let t := ((s.setCore c ((s.core c).l1Drop line)).setHome line { s.home line with owner := none, recalling := false }).rearrive
      (· == line)
    let t := t.ownedBack (.work lid 0 0 0) line mask
    t.send (t.homeRouter (128 * line)) (coreRouter c) .probe lid none (.engine line 0 0 false)

/-! ### Stores at a home, and those of a band -/

/-- The work that a block's writes belong to. -/
def Block.work' (b : Block) : StackFor := .work b.lid b.bx b.by' b.bz

/-- A store that the home performs now, for a launch or for none (R246): the new state and W. -/
def State.homeStore (s : State) (kid pa : Nat) (bs : List Byte) (lid : Nat := 0) : State × Nat :=
  let s := s.recallNow (lineOf pa) lid
  let w := s.wOf pa (s.now (homeDie pa))
  (s.poke kid pa w (s.now (homeDie pa)) bs, w)

/-- Puts bytes into an L1 copy. -/
def L1Line.put (x : L1Line) (pa : Nat) (bs : List Byte) : L1Line :=
  { x with data := x.data.mapIdx fun i v =>
      if pa ≤ 128 * x.line + i ∧ 128 * x.line + i < pa + bs.length then bs.getD (128 * x.line + i - pa) v else v }

/-- Raises a band's horizon (R246, R274). -/
def Band.seen (x : Band) (w : Nat) : Band := { x with horizon := max x.horizon w }

/-- Issues an access to a page with SC = 1: a core has one of them out at a time, in issue order (R281). -/
def State.scSend (s : State) (core : Nat) (a : ScAcc) : State :=
  let c := s.core core
  let t := s.setCore core { c with scq := c.scq ++ [a] }
  if c.scq.isEmpty then t.send (coreRouter core) (s.homeRouter (128 * a.line)) .request a.lid a.block a.msg else t

/-- The reply of a core's access of R281 has come: the next one goes out. -/
def State.scDone (s : State) (core : Nat) : State :=
  let c := s.core core
  let t := s.setCore core { c with scq := c.scq.drop 1 }
  match c.scq.drop 1 with
  | [] => t
  | a :: _ => t.send (coreRouter core) (s.homeRouter (128 * a.line)) .request a.lid a.block a.msg

/-- One lane's part of a store: its virtual address, its translation, its bytes. -/
structure StorePart where
  va : Nat
  x : Xl
  bs : List Byte
  deriving DecidableEq, Repr

/-- A part cut at the end of its line. -/
def StorePart.cut (a : StorePart) : Nat → List StorePart
  | 0 => [a]
  | n + 1 =>
    let m := 128 - a.x.pa % 128
    if a.bs.length ≤ m then [a]
    else { a with bs := a.bs.take m } ::
      StorePart.cut { a with va := a.va + m, x := { a.x with pa := a.x.pa + m }, bs := a.bs.drop m } n

/-- Whether a store of a block to a line goes to the line's home: not one of a contained or a later run, and not one to a
line that its core owns (R246, R273, R436, R450). -/
def State.toHome (s : State) (b : Block) (unc : Bool) (x : Xl) : Bool :=
  !b.later && !s.contained b && (x.sc || x.nc || unc || !s.owns b.core (lineOf x.pa))

/-- Counts the W of a store of a band: in its horizon (R274), or with the push that it belongs to (R293). -/
def Band.stored (x : Band) (push : Option Nat) (w : Nat) : Band :=
  match push with
  | none => x.seen w
  | some p => { x with pushesOut := x.pushesOut.map fun q => if q.1 = p then (p, max q.2 w) else q }

/-- One lane's store, as far as it is performed in the step of its issue: its record (R454), the view of a sampled run, the
line that the core owns. -/
def State.storeHere (s : State) (k n kind seq : Nat) (unc clr : Bool) (push : Option Nat) (a : StorePart) : State :=
  match s.blk k with
  | none => s
  | some b =>
    let b' := b.signWrite n kind a.va a.bs seq
    let t := s.now (homeDie a.x.pa)
    let w := s.wOf a.x.pa t
    let s := s.setBlk k (if b.sid.isSome then { b' with overlay := overlayPut b'.overlay a.x.pa a.va a.x.kid w t clr a.bs }
      else b')
    if b.later || s.toHome b unc a.x then s
    else if s.contained b then
      let s := { s with samples := tmod s.samples (b.sid.getD 0) fun m =>
        { m with prov := provPut m.prov a.x.pa a.va a.x.kid w t clr a.bs } }
      s.modBand k n fun y => y.stored push w
    else
      let t := s.now b.die
      let line := lineOf a.x.pa
      let s := s.poke a.x.kid a.x.pa t t a.bs
      let s := if clr then s.unpoison line else s
      let v := (s.home line).version
      let s := s.setCore b.core ((s.core b.core).l1Mod line fun l => (l.put a.x.pa a.bs).wrote a.x.pa a.bs.length v)
      s.modBand k n fun y => y.stored push t

/-- Sends the stores of one instruction to one line (R246): a leased copy of the core takes them at once, an uncached store
drops it (R310); an access of R281 leaves it alone. -/
def State.storeLine (s : State) (k n : Nat) (unc clr : Bool) (push : Option Nat) (line : Nat) (as : List StorePart) : State :=
  match s.blk k, as with
  | some b, a :: _ =>
    let id := s.serial
    let parts := as.map fun a => (a.va, a.x.pa, a.bs)
    let m : Msg := .storeReq ⟨id, k, n, b.core, line, a.x.kid, parts, a.x.nc, a.x.sc, clr, push⟩
    let c := s.core b.core
    let c : Core := { c with unacked := c.unacked ++ [(id, line)] }
    let c := if a.x.sc then c
      else if unc || a.x.nc then (if s.owns b.core line then c else c.l1Drop line)
      else c.l1Mod line fun l => { as.foldl (fun l a => l.put a.x.pa a.bs) l with stores := l.stores ++ [id] }
    let s := { s with serial := id + 1 }.setCore b.core c
    let s := if a.x.sc then s.scSend b.core ⟨line, b.lid, some (k, n), m⟩
      else s.send (coreRouter b.core) (s.homeRouter a.x.pa) .request b.lid (some (k, n)) m
    if push.isSome then s else s.modBand k n fun y => { y with storesOut := y.storesOut + 1 }
  | _, _ => s

/-- What goes to a home as one packet, whose stores are consecutive there (R309): a line under a key, and whether through a
page with SC = 1 or NC = 1. -/
def StorePart.unit (a : StorePart) : Nat × Nat × Bool × Bool := (lineOf a.x.pa, a.x.kid, a.x.sc, a.x.nc)

/-- The stores of one instruction, its lanes in ascending order: `kind` is their kind in the signature (R455), `seq` their
place among the band's writes, `clr` the lines that they cover and clear of poison (R311), `push` the push that they belong
to. What goes to a home goes as one packet for each line (R281, R309); a contained store's packet carries provisional versions
(R436). -/
def State.storeAll (s : State) (k n kind seq : Nat) (unc : Bool) (clr : Nat → Bool) (push : Option Nat)
    (as : List StorePart) : State :=
  match s.blk k with
  | none => s
  | some b =>
    let as := as.flatMap fun a => a.cut (a.bs.length / 128 + 1)
    let far := as.filter fun a => s.toHome b unc a.x
    let t := as.foldl (fun s a => s.storeHere k n kind seq unc (clr (lineOf a.x.pa)) push a) s
    let t := if s.contained b then
        t.engineAsk b.core b.lid (some (k, n)) 0 ((as.map fun a => (⟨lineOf a.x.pa, a.x.kid, a.x.nc⟩ : LineAsk)).eraseDups)
      else t
    (far.map StorePart.unit).eraseDups.foldl (fun s l =>
      s.storeLine k n unc (clr l.1) push l.1 (far.filter fun a => a.unit == l)) t

/-- The place of a band's next write among its writes (R454). -/
def State.storeSeq (s : State) (k n : Nat) : Nat :=
  (((s.blk k).bind fun b => b.band n).map fun x => x.wseq.stores).getD 0

/-! ### Scratchpad (R239 to R243) -/

/-- A block's window, in bytes (R239). -/
def Block.winBytes (b : Block) : Nat := b.window

/-- The ranks that resolve to a run's own window: its core's, or in a later run those that the primary run's `sr.core`
returned (R445). -/
def State.ownRanks (s : State) (b : Block) : List Nat :=
  match b.later, b.sid.bind (tget s.samples) with
  | true, some m => m.places.map fun p => coreRank p.2
  | _, _ => [coreRank b.core]

/-- The first of these. -/
def State.ownRank (s : State) (b : Block) : Nat := (s.ownRanks b).headD (coreRank b.core)

/-- The core of the primary run at an issue count of a band (R445, R446). -/
def Sample.placeAt (m : Sample) (n issue : Nat) : Option Nat :=
  ((m.places.filter fun p => p.1.getD n 0 ≤ issue).getLast?).map (·.2)

/-- The rank that names a run's own window at the next instruction of a band (R445). -/
def State.rankNow (s : State) (b : Block) (n issue : Nat) : Nat :=
  if b.later then coreRank (((b.sid.bind (tget s.samples)).bind fun m => m.placeAt n issue).getD b.core) else coreRank b.core

/-- Whether FILL is past a slot number, modulo 2^32 (R348). -/
def Ring.past (t : Ring) (q : Word) : Bool := (t.fill - q - 1).toNat < 2 ^ 31

def Block.ring (b : Block) (r : Nat) : Ring := b.rings.getD r {}

/-- The accumulator that a command acts on (R357). -/
def CmdOp.acc (c : CmdOp) : Option Nat :=
  match c with
  | .mma a _ _ | .accClr a _ => some a
  | .accRd o _ _ _ _ _ => some o.acc.toNat
  | .accWr o _ _ => some o.acc.toNat
  | .void _ | .pack _ _ _ _ _ | .unpack _ _ _ _ | .cbtLd _ => none

/-- Whether a predecessor is satisfied (R351, R361). -/
def Block.predOk (b : Block) (p : PredSt) : Bool :=
  match p with
  | .none | .ident _ => true
  | .cmd key => !(b.cmds.any fun c => c.key == key)
  | .ring r q => (b.ring r).past q

/-- Whether a command may start, its unit apart: predecessors, and the order on its accumulator (R357, R361). -/
def Block.cmdReady (b : Block) (c : Cmd) : Bool :=
  c.st == .accepted && b.predOk c.p0 && b.predOk c.p1 &&
    match c.op.acc with
    | none => true
    | some a => !(b.cmds.any fun d => d.st == .accepted && d.seq < c.seq && d.op.acc == some a)

/-- A command that a stop waits for: one that runs, or one that can start (R364). -/
def Block.cmdLive (b : Block) : Bool :=
  b.cmds.any fun c => c.st != .accepted || (b.cmdReady c && !isAnnex b.die)

/-- Whether a stopped block still has work that its stop completes (R419). -/
def State.stopWork (s : State) (b : Block) : Bool :=
  !b.copies.isEmpty || b.cmdLive || b.bands.any fun x =>
    x.storesOut != 0 || !x.pend.isEmpty || !x.pushesOut.isEmpty || x.rmtCnt != 0 || !x.waitW.isEmpty
      || decide (s.now b.die < x.horizon + 4)

/-- A co-resident grid (R184). -/
def Packet.coRes (p : Packet) : Bool := p.barc != 0 || p.bard != 0 || p.barg != 0

/-- Whether a block is stopped for an eviction. -/
def Block.evicted (b : Block) : Bool :=
  match b.st with
  | .stopped p _ _ => p
  | .running | .ended => false

/-- Whether a block's window is still resident (R242, R425): while it runs, while its stop completes work, and for a
co-resident grid, which is evicted as a whole (R204), while any of the blocks evicted with it does. -/
def State.windowOpen (s : State) (o : Block) : Bool :=
  match o.st with
  | .running => true
  | .stopped _ _ _ =>
    s.stopWork o || (o.evicted && ((s.grid o.lid).map fun g => g.pkt.coRes).getD false &&
      s.blocks.any fun q => q.2.lid == o.lid && q.2.evicted && s.stopWork q.2)
  | .ended => false

/-- Whether a core's windows are out of reach: it is fenced, or retired (R241). -/
def Core.unreachable (c : Core) : Bool := c.fenced || c.retired

/-- The resident block whose window a scratchpad address of a block names (R240, R241). What a copy or a command of a later run
finds at another rank is the block there of the run's own cluster: R445 speaks of loads alone. DESIGN CHOICE (log entry 80). -/
def State.windowOf (s : State) (b : Block) (k rank : Nat) : Option Nat :=
  if (s.ownRanks b).contains rank then (if b.window = 0 || (s.core b.core).unreachable then none else some k)
  else
    let c := peerCore b.core rank
    if (s.core c).unreachable || b.window = 0 then none
    else
      (s.blocks.find? fun p =>
        p.2.core == c && p.2.lid == b.lid && p.2.slot == b.slot && s.windowOpen p.2 && p.2.window != 0
          && p.1 != k).map (·.1)

/-- R241: ALIGN in any lane comes before PERM in any lane. The answer gives each lane's window and offset. -/
def State.scratchAll (s : State) (b : Block) (k size : Nat) (ls : List (Nat × Word)) : TOut (List (Nat × Nat × Nat)) :=
  let trap (c : TrapClass) (l : Nat) (a : Word) : Option Trap := some { cls := c, lane := l, addr := a.setWidth 64 }
  match firstTrap ls fun (l, a) =>
      if a.extractLsb' 26 6 ≠ 0 ∨ a.toNat % size ≠ 0 then trap .align l a else none with
  | .error t => .error t
  | .ok _ =>
    let ys := ls.map fun (l, a) => (l, a, s.windowOf b k (a.extractLsb' 20 6).toNat)
    match firstTrap ys fun (l, a, w) =>
        match w.bind s.blk with
        | none => trap .perm l a
        | some o => if o.window < (a.extractLsb' 0 20).toNat + size then trap .perm l a else none with
    | .error t => .error t
    | .ok _ => .ok (ys.filterMap fun (l, a, w) => w.map fun w => (l, w, (a.extractLsb' 0 20).toNat))

/-- A write into a window, performed at once: its W is its A (R273). -/
def State.scrWrite (s : State) (win off : Nat) (bs : List Byte) : State :=
  s.modBlk win fun o => { o with scratch := mwrite o.scratch off bs, scratchW := max o.scratchW (s.now o.die) }

/-- W of what a window holds (R274). -/
def State.scrW (s : State) (win : Nat) : Nat := ((s.blk win).map Block.scratchW).getD 0

def State.scrRead (s : State) (win off n : Nat) : List Byte :=
  match s.blk win with
  | none => []
  | some o => mread o.scratch off n

/-! ### Counters of PCTL (R429) -/

/-- Adds to the counters of a band that count an event; without DBGEN.PROF they do not count. -/
def Band.count (x : Band) (prof : Bool) (code n : Nat) : Band :=
  if !prof then x
  else
    { x with pcnt := x.pcnt.mapIdx fun i v =>
        if (x.pctl.extractLsb' (8 * i) 8).toNat = code then v + BitVec.ofNat 64 n else v }

end Sys2Proof.Machine
end

