-- ==== Sys2Proof/Machine/Issue.lean ====
section
/-! DEFINITION. One issue of a band: decode traps in the order of R68, the checking scoreboard (R62), the waits,
the pops and pushes of stream ports (R330 to R337), the operands of a lane, and what every completed
instruction does to its band. -/

namespace Sys2Proof.Machine

open Sys2Proof

/-! ### The provenance log (R446 to R448) -/

/-- Adds to a Conservator event count, which saturates (R469). -/
def State.csvevt (s : State) (i : Nat) : State :=
  { s with pf := { s.pf with csvevt := modAt s.pf.csvevt i fun v => if v = BitVec.allOnes 64 then v else v + 1 } }

/-- Puts a version of a byte, with its W and A, into the history: below the versions performed after it (R439); none where
none of these was. -/
def histInsert (pa : Nat) (v : Byte) (w a : Nat) : List OldByte → Option (List OldByte)
  | [] => none
  | o :: t =>
    if o.pa ≠ pa then (histInsert pa v w a t).map fun t => o :: t
    else if o.a ≤ a then none
    else
      match histInsert pa v w a t with
      | some t => some (o :: t)
      | none => some ({ o with old := v } :: { o with w := w, a := a } :: t)

/-- The launch that a write belongs to. -/
def StackFor.lid (f : StackFor) : Nat :=
  match f with
  | .work lid _ _ _ => lid
  | .store _ _ | .slice | .load _ _ _ _ _ | .none => 0

/-- Commits the provisional versions of a loan that closes: each takes its place in the order of its location at its own A,
with its own W (R439), and a version that covered its line clears the line's poison (R311). An atomic that was performed
since stays the latest value (R438). -/
def State.commitProv (s : State) (work : StackFor) : List Prov → State
  | [] => s
  | p :: t =>
    let s := s.recallNow (lineOf p.pa) work.lid
    let s := if p.clr then s.unpoison (lineOf p.pa) else s
    (match histInsert p.pa p.val p.w p.a s.hist with
      | some h => { s with hist := h }.newVersion (lineOf p.pa) p.w
      | none => (s.poke p.kid p.pa p.w p.a [p.val]).maskedWrite work p.kid p.pa [p.val]).commitProv work t

/-- The work that a sample's writes belong to. -/
def State.sampleWork (s : State) (m : Sample) : StackFor :=
  match s.grid m.lid with
  | none => .work m.lid 0 0 0
  | some g => .work m.lid (m.idx % g.pkt.gx) (m.idx / g.pkt.gx % g.pkt.gy) (m.idx / (g.pkt.gx * g.pkt.gy))

/-- The bands of the blocks that leave a sample in the course of their primary run have issued the writes that it commits: a
leased copy that lacks them is older than what their core has seen (R31, R278). -/
def State.ownWrites (s : State) (sid : Nat) (prov : List Prov) : State :=
  let ls := (prov.map fun v => lineOf v.pa).eraseDups
  let cs := ((s.blocks.filter fun p => p.2.sid == some sid && !p.2.later).map fun p => p.2.core).eraseDups
  cs.foldl (fun s c => ls.foldl (fun s l => s.received c l (s.home l).version) s) s

/-- The unverified release of a sample (R461): its loan commits, and no later run is held. Its blocks that still
run go on as unchecked ones. -/
def State.releaseSample (s : State) (sid : Nat) (evt : Option Nat) : State :=
  match tget s.samples sid with
  | none => s
  | some m =>
    if !m.open' then s
    else
      let s := ((s.commitProv (s.sampleWork m) m.prov.reverse).loanEnds m).ownWrites sid m.prov
      let s := match evt with
        | some e => s.csvevt e
        | none => s
      { s with
        samples := tset s.samples sid { m with st := .released, prov := [] }
        blocks := s.blocks.map fun (k, b) =>
          if b.sid = some sid then
            (k, if b.later then { b with st := .ended } else { b with sid := none, run := .plain, overlay := [] })
          else (k, b) }

/-- Writes a record of a primary run; a log that would overflow makes the run unchecked (R448). -/
def State.logRec (s : State) (k n type : Nat) (body : List DWord) (awaits : Option Word := none) : State :=
  match s.blk k with
  | none => s
  | some b =>
    match b.run, b.sid with
    | .primary, some i =>
      match tget s.samples i with
      | none => s
      | some m =>
        let bytes := 8 + 8 * body.length
        if 65536 < m.logBytes + bytes then s.releaseSample i (some 0)
        else
          { s with samples := tset s.samples i { m with
              log := m.log ++ [⟨type, n, ((b.band n).map Band.issues).getD 0, body, awaits⟩], logBytes := m.logBytes + bytes } }
    | _, _ => s

/-- Whether a block is a later run of a sampled block; its logged values come from the log (R447). -/
def State.replaying (s : State) (k : Nat) : Bool := ((s.blk k).map Block.later).getD false

/-- The next record of a band in a later run, if it stands at this issue and has this type (R447). -/
def State.nextRec (s : State) (k n type : Nat) : Option LogRec :=
  match s.blk k with
  | none => none
  | some b =>
    match b.band n, b.sid.bind (tget s.samples) with
    | some x, some m =>
      match (m.log.filter fun r => r.band == n && r.type != 1)[x.logPos]? with
      | some r => if r.type = type ∧ r.issue = x.issues then some r else none
      | none => none
    | _, _ => none

/-- Whether a band's next record stands at this issue (R447). -/
def State.recHere (s : State) (k n : Nat) : Bool :=
  match s.blk k with
  | none => false
  | some b =>
    match b.band n, b.sid.bind (tget s.samples) with
    | some x, some m =>
      match (m.log.filter fun r => r.band == n && r.type != 1)[x.logPos]? with
      | some r => r.issue ≤ x.issues
      | none => false
    | _, _ => false

/-- Whether records of a band remain (R447). -/
def State.recLeft (s : State) (k n : Nat) : Bool :=
  match (s.blk k).bind fun b => b.band n, (s.sidOf k).bind (tget s.samples) with
  | some x, some m => decide (x.logPos < (m.log.filter fun r => r.band == n && r.type != 1).length)
  | _, _ => false

/-- A departure (R447): the run ends at once. -/
def State.depart (s : State) (k : Nat) : State :=
  match s.blk k with
  | none => s
  | some b =>
    match b.sid with
    | none => s
    | some i =>
      { s with samples := tmod s.samples i fun m =>
          { m with results := m.results ++ [({ kind := b.run, sig := b.sig, cores := b.cores, lastCore := b.core,
                                                overlay := b.overlay, departed := true } : RunRes)] } }.setBlk k
        { b with st := .ended }

/-! ### Stopping a block (R419, R422) -/

/-- A lane at a stop: a barrier wait keeps its place, an access already made completes, every other wait is
backed out (R419). -/
def Lane.backOut (l : Lane) : Lane :=
  match l.st with
  | .blocked (.bar _ _ _) | .blocked (.reply _) => l
  | .blocked _ => { l with st := .ready }
  | .ready | .parked _ | .exited => l

/-- A band at a stop: unresolved watch entries are struck (R289) and counted (R429), read-ahead is discarded (R338), an
instruction that waits for bytes has not issued. -/
def Band.stop (x : Band) (prof : Bool) : Band :=
  let x := x.count prof 4 (x.watch.countP fun e => e.st == .unresolved)
  { x with
    hold := none
    lanes := x.lanes.map Lane.backOut
    watch := x.watch.map fun e => if e.st = .unresolved then { e with st := .struck } else e
    ports := x.ports.map fun p => { p with ahead := [] } }

/-- The bands of a block that have an asynchronous trap due take it before a stop (R404). -/
def State.takeAllDue (s : State) (k : Nat) : State :=
  (List.range (((s.blk k).map fun b => b.bands.length).getD 0)).foldl (fun s n => (s.takeDue k n).getD s) s

/-- Stops a block (R419). Its accesses, pushes, copies and ready commands go on to their end; it leaves its core
when they have. `annex` is the profile that it needs next, if the stop is a migration. A trap that is taken before the stop
may fail the block's grid, and then it is not stopped. -/
def State.stopBlock (s : State) (k : Nat) (preempt : Bool) (annex : Option Bool) : State :=
  let s := s.takeAllDue k
  { s.modBlk k (fun b => if b.st = .running then
      { b with st := .stopped preempt annex s.serial, bands := b.bands.map (Band.stop · (s.dbg b 3)) } else b) with
    serial := s.serial + 1 }

/-- The preferred profile of a packet is Teray-A (R200). -/
def Packet.prefersA (p : Packet) : Bool := p.profile == 2

/-- MIGR and `migr` (R422): the block stops for a move to the other profile, or its grid fails under PIN. -/
def State.migrate (s : State) (k n : Nat) (toAnnex : Bool) (t : Trap) : State :=
  match s.blk k with
  | none => s
  | some b =>
    let pinned := match s.grid b.lid with
      | some g => g.pkt.pin && g.pkt.prefersA != toAnnex
      | none => false
    let s := s.modBlk k fun b => { b with mover := some (n, t) }
    if pinned then s.failTrap k n t
    else if b.later then
      match s.nextRec k n 6 with
      | some _ => (s.modBand k n fun x => { x with logPos := x.logPos + 1 }).stopBlock k false (some toAnnex)
      | none => s.depart k
    else (s.logRec k n 6 [if toAnnex then 1 else 0]).stopBlock k false (some toAnnex)

/-! ### Decode traps (R68) -/

/-- Whether a mode may read or write a control register (R406, R413). -/
def csrOk (num : Nat) (inh write : Bool) : Bool :=
  if num = 0x001 ∨ num = 0x002 ∨ num = 0x003 ∨ num = 0x041 ∨ num = 0x042 ∨ (0x044 ≤ num ∧ num ≤ 0x047) then true
  else if num = 0x010 ∨ num = 0x026 ∨ num = 0x040 then !write
  else if num = 0x020 ∨ num = 0x022 ∨ num = 0x023 ∨ num = 0x024 ∨ num = 0x025 then inh && !write
  else if num = 0x021 ∨ (0x030 ≤ num ∧ num ≤ 0x033) then inh
  else false

/-- Order 4 of R68, after the decoder's part: the privilege, then the control register. -/
def privTrap (i : Instr) (inh : Bool) : Option Trap :=
  if privileged i && !inh then some { cls := .illop, cause := 1 }
  else
    match i with
    | .csrRd _ o => if csrOk o.num.toNat inh false then none else some { cls := .illop, cause := 2 }
    | .csrWr _ o => if csrOk o.num.toNat inh true then none else some { cls := .illop, cause := 2 }
    | _ => none

/-- Order 6 of R68 for one operand: a misaligned pair or quad (R16), a misplaced port (R120). -/
def Opnd.misaligned (b : Block) (o : Opnd) : Bool :=
  (o.cls == .vec || o.cls == .uni) && (o.idx % o.n != 0 || (o.cls == .vec && b.isPort o.idx && !o.port))

/-- The barriers that a block has at a level (R222). -/
def State.barCount (s : State) (b : Block) (sc : BScope) : Nat :=
  match sc, s.grid b.lid with
  | .blk, _ => b.bars.length
  | .clu, some g => g.pkt.barc
  | .die, some g => g.pkt.bard
  | .grid, some g => g.pkt.barg
  | _, none => 0

/-- Order 7 of R68 for one operand (R18, R53). -/
def State.beyond (s : State) (b : Block) (o : Opnd) : Bool :=
  match o.cls with
  | .vec => if b.isPort o.idx then b.streams ≤ o.idx - 248 else b.vregs ≤ o.idx
  | .uni => b.uregs ≤ o.idx
  | .copyq => b.copyq = 0
  | .prd => false
  | .acc => b.accN ≤ o.idx
  | .port => b.streams ≤ o.idx
  | .ring => b.ringN ≤ o.idx
  | .bar sc => s.barCount b sc ≤ o.idx

/-- The registers of an operand, ports apart. -/
def Opnd.regs (b : Block) (o : Opnd) : List RegName :=
  match o.cls with
  | .vec => if b.isPort o.idx then [] else (List.range o.n).map fun i => .v (o.idx + i)
  | .uni => (List.range o.n).map fun i => .u (o.idx + i)
  | .prd => if o.idx = 7 then [] else [.p o.idx]
  | _ => []

/-- Whether a register that j touches makes an undersized pair with its latest writer (R62). The rule gives a variable j no
L_j: its write after a fixed i is never undersized. DESIGN CHOICE (log entry 22). -/
def pairUndersized (sched : List Issued) (wait : BitVec 6) (lj : Latency) (o : Opnd) (r : RegName) : Bool :=
  match sched.find? fun e => e.writes.contains r with
  | none => false
  | some e =>
    match e.lat with
    | .fixed li =>
      (o.rd && e.age < li) || (o.wr && match lj with
        | .fixed l => e.age + l ≤ li
        | .variable => false)
    | .variable => e.tok == 7 || !(e.waited ||| wait).getLsbD e.tok

/-- Whether token t may still be set at the issue (R62). -/
def tokenUndersized (sched : List Issued) (wait : BitVec 6) (t : Nat) : Bool :=
  t < 6 && !wait.getLsbD t &&
    match sched.find? fun e => e.last && e.tok == t with
    | none => false
    | some e =>
      match e.lat with
      | .fixed li => e.res && e.age < li
      | .variable => !e.waited.getLsbD t

/-- How a register appears in TINFO (R406). -/
def RegName.info : RegName → Nat × Nat
  | .v n => (n, 0)
  | .u n => (n, 1)
  | .p n => (n, 2)

/-- An indexed `mov`, whose two waits stand in for the scoreboard (R138). -/
def byIndex (i : Instr) : Bool :=
  match i with
  | .movIndexedRead _ _ | .movIndexedWrite _ _ => true
  | _ => false

/-- The first undersized operand in the order of R62, or else the token. An indexed `mov` waits for every earlier result, so
that none of its operands makes a pair (R138). -/
def undersized (b : Block) (x : Band) (h : Hdr) (i : Instr) : Option Trap :=
  let prs := if byIndex i then [] else (scoreOps i).flatMap fun o => (o.regs b).map fun r => (o, r)
  match prs.find? fun p => pairUndersized x.sched h.wait (latency i) p.1 p.2 with
  | some (o, r) => some { cls := .stall, opnd := o.pos, reg := r.info.1, rkind := r.info.2 }
  | none =>
    if tokenUndersized x.sched h.wait h.sett.toNat then some { cls := .stall, reg := h.sett.toNat, rkind := 3 }
    else none

/-- What decode finds (R68, orders 4 to 8). -/
inductive Decoding where
  | ok
  | trap (t : Trap)
  | migr
  deriving DecidableEq, Repr

/-- BCTL.SCHK (R61). -/
def Band.schk (x : Band) : Bool := x.bctl.getLsbD 0

def State.decodeChecks (s : State) (b : Block) (x : Band) (h : Hdr) (i : Instr) (lane : Nat) : Decoding :=
  match privTrap i x.inh with
  | some t => .trap { t with lane := lane }
  | none =>
    if (onlyA i && !isAnnex b.die) || (onlyG i && isAnnex b.die) then .migr
    else
      match (operandsG i).find? (Opnd.misaligned b) with
      | some o => .trap { cls := .illop, opnd := o.pos, lane := lane }
      | none =>
        match (operandsG i).find? (s.beyond b) with
        | some o => .trap { cls := .regidx, opnd := o.pos, lane := lane }
        | none =>
          if x.schk && !x.stallSkip then
            match undersized b x h i with
            | some t => .trap { t with lane := lane }
            | none => .ok
          else .ok

/-! ### Waits at issue (R35, R49, R28, R138, R279, R345) -/

/-- Registers whose write is outstanding: the results of accesses in flight. -/
def PendOp.regs (p : PendOp) : List RegName :=
  let n := match p.kind with
    | .load sz | .watch sz => LSize.regs sz
    | .atom _ w | .red _ w => Opnd.n2 w
  match p.kind, p.push with
  | .red _ _, _ | _, some _ => []
  | _, none => (List.range n).map fun i => .v (p.d.toNat + i)

/-- Whether an instruction touches a register that a copy into the band's registers still writes, while the copy's token is
set (R345). -/
def Band.copyHeld (x : Band) (rs : List RegName) : Bool :=
  x.regCopies.any fun (t, d, c, _) => x.tokens.getLsbD t && (List.range c).any fun i => rs.contains (.v (d + i))

/-- The ports that an instruction pops, with the operand that names each first. -/
def popPorts (b : Block) (i : Instr) : List (Nat × Nat) :=
  ((operands i).filter fun o => o.cls == .vec && o.rd && b.isPort o.idx).foldl
    (fun l o => if l.any (fun p => p.1 == o.idx - 248) then l else l ++ [(o.idx - 248, o.pos)]) []

/-- The port that an instruction's destination names, whether or not a lane participates; `acc.rd` writes registers alone
(R393). -/
def pushPort (b : Block) (i : Instr) : Option Nat :=
  match i with
  | .accRd _ _ => none
  | _ => ((operands i).find? fun o => o.cls == .vec && o.wr && b.isPort o.idx).map fun o => o.idx - 248

/-- Instructions that access memory, themselves or through an engine, a pop or a push: an outstanding acquire holds them
back (R279). -/
def accesses (b : Block) (i : Instr) : Bool :=
  (match opcGroup i with
    | 9 | 10 | 11 | 12 | 13 => true
    | _ => false)
  || (match i with
    | .ctxSave _ _ | .ctxRest _ _ | .scrub _ _ | .rngCommit _ _ => true
    | _ => false)
  || !(popPorts b i).isEmpty || (pushPort b i).isSome

/-- Instructions that wait for every earlier result of the band's own instructions (R28, R35, R138): they read or write
registers that no operand names, or FSTAT. -/
def waitsAll (i : Instr) : Bool :=
  match i with
  | .csrRd _ _ | .csrWr _ _ | .movIndexedRead _ _ | .movIndexedWrite _ _ | .ctxSave _ _ | .ctxRest _ _ => true
  | _ => false

/-- Of these, those that may touch any register, so that they wait for the engines' register writes also; `csr.rd` and
`csr.wr` do not (R114). -/
def waitsRegs (i : Instr) : Bool :=
  match i with
  | .movIndexedRead _ _ | .movIndexedWrite _ _ | .ctxSave _ _ | .ctxRest _ _ => true
  | _ => false

def Band.mustWait (x : Band) (b : Block) (h : Hdr) (i : Instr) : Bool :=
  let rs := (scoreOps i).flatMap fun o => o.regs b
  (x.tokens &&& h.wait) != 0
    || x.tokens.getLsbD h.sett.toNat
    || x.pend.any (fun p => p.regs.any fun r => rs.contains r)
    || x.accOut.any (fun p => (List.range p.n).any fun j => rs.contains (.v (p.d + j)))
    || (accesses b i && x.pend.any fun p => p.acq)
    || (waitsAll i && !x.pend.isEmpty)
    || (waitsRegs i && !(x.regCopies.isEmpty && x.accOut.isEmpty))

/-! ### Stream ports (R326 to R337) -/

/-- The entries of a pattern (R330). -/
def Pattern.entries (t : Pattern) : Nat :=
  let cs := (t.cnt.take t.ndim).map BitVec.toNat
  if t.lst then (cs.drop 1).foldl (· * ·) 1 else cs.foldl (· * ·) 1

/-- The sum of R330 for an entry number, over the dimensions from d on. -/
def dimSum (cs : List Nat) (ss : List DWord) (q : Nat) : DWord :=
  match cs, ss with
  | c :: cs, s :: ss => BitVec.ofNat 64 (q % c) * s + dimSum cs ss (q / c)
  | _, _ => 0

/-- What a lane meets at a port's position: nothing, the end, or an element. -/
inductive Elem where
  | absent
  | past
  | at' (pos : Nat) (wrapped : Bool) (off : DWord)
  deriving DecidableEq, Repr

/-- The element of lane l at position p (R330, R334). -/
def Pattern.elem (t : Pattern) (p : DWord) (l : Nat) : Elem :=
  let cs := (t.cnt.take t.ndim).map BitVec.toNat
  if t.lst && cs.headD 0 ≤ l then .absent
  else
    let pos := if t.lst then p.toNat else p.toNat + l
    let n := t.entries
    if n ≤ pos && !t.wrap then .past
    else
      let q := pos % n
      let off := if t.lst then BitVec.ofNat 64 l * t.str.headD 0 + dimSum (cs.drop 1) (t.str.drop 1) q
        else dimSum cs t.str q
      .at' pos (decide (n ≤ pos)) off

/-- Bytes of a raw element (R331). -/
def skindSize : SKind → Nat
  | .b32 => 4
  | .z8 | .s8 => 1
  | .z16 | .s16 => 2
  | .fmt | .fmtx => 0

/-- The value that a raw element gives (R331). -/
def skindWiden (kd : SKind) (v : Nat) : Word :=
  match kd with
  | .s8 => (BitVec.ofNat 8 v).signExtend 32
  | .s16 => (BitVec.ofNat 16 v).signExtend 32
  | _ => BitVec.ofNat 32 v

/-- Bytes that must come before an instruction can issue: where they lie, their number, and the translation of their page. -/
structure Need where
  pa : Nat
  n : Nat
  x : Xl
  deriving DecidableEq, Repr

/-- What reading one element answers: a value with its conditions and its W (R274), a STREAM cause with an address, a
wait, bytes that must come first, or a device register, of which the spec gives no layout. -/
inductive ElemRes where
  | val (v : Word) (cs : Conds) (w : Nat)
  | fault (cause : Nat) (va : DWord)
  | reg (pa : Nat)
  | loan (sid : Nat)
  | cold (ps : List Need)
  | busy
  deriving DecidableEq, Repr

/-- The bytes of an element of a region for a block: scale and payload (R313). `none` for a bad element. -/
structure ElemLoc where
  payAt : Nat
  payLen : Nat
  scaleAt : Nat
  pos : Nat
  deriving DecidableEq, Repr

/-- Where element i of the block that E lies in stands (R313, R331); `none` is FMT. -/
def Region.locate (r : Region) (e : Nat) (off : Int) : Option ElemLoc :=
  if r.efmt = 0 then none
  else if r.egeo = 3 ∧ r.start + r.nb * r.p ≤ e then none
  else
    let i : Int := (r.blockOf e * r.n : Nat) + off
    if i < 0 ∨ ((r.nb * r.n : Nat) : Int) ≤ i then none
    else
      let j := i.toNat / r.n
      let pos := i.toNat % r.n
      let (o, l) := r.elemBytes pos
      some ⟨r.payAt j + o, l, r.scaleAt j, pos⟩

/-- The LC8 table of a block's context (R103). -/
def State.lc8Tab (s : State) (b : Block) : Option (List (BitVec 16)) := (s.ctx b.asid).bind Ctx.cbt

/-- Decodes an element from its payload and scale bytes; `none` is FMT (R99, R102, R107). -/
def decodeElem (tab : Option (List (BitVec 16))) (r : Region) (pos : Nat) (pay sc : List Byte) : Option (Word × Conds) :=
  match s16V (r.efmt == 3) (BitVec.ofNat 16 (leVal sc)) with
  | none => none
  | some v =>
    let d := decodeF32 (r.efmt == 1 || r.efmt == 2) (elemV tab r pos (leVal pay)) v
    some (BitVec.ofNat 32 d.val, d.cs)

/-- Reads bytes for a block at the home, as engines and immediate reads do: a run's snapshot, or the latest
value (R278, R291, R293, R441). -/
def State.readFor (s : State) (b : Block) (sigma kid pa : Nat) : Nat → List Byte
  | 0 => []
  | n + 1 =>
    (if b.sid.isSome then s.runByte b sigma kid pa else s.rdByte kid pa) :: s.readFor b sigma kid (pa + 1) n

/-- Whether bytes lie on a poisoned line. -/
def State.poisonAt (s : State) (pa n : Nat) : Bool := s.linePoison pa || s.linePoison (pa + n - 1)

/-- Whether a run's own stores have cleared the poison of a line in its view (R311, R441, R450). -/
def Block.cleared (b : Block) (pa : Nat) : Bool := b.overlay.any fun v => lineOf v.pa == lineOf pa && v.clr

/-- Whether a block reads poison in bytes: a run of a sampled block sees a line that it has covered as clear. -/
def State.poisonFor (s : State) (b : Block) (pa n : Nat) : Bool :=
  (s.linePoison pa && !b.cleared pa) || (s.linePoison (pa + n - 1) && !b.cleared (pa + n - 1))

/-- What stops a stream's access: a cause of STREAM (R337), or a loan (R437). -/
inductive EStop where
  | cause (c : Nat)
  | loan (sid : Nat)
  deriving DecidableEq, Repr

/-- Translation of an engine's access, with the cause that a stream reports. -/
def State.elemXlate (s : State) (b : Block) (priv : Bool) (k : AKind) (va : Nat) : Except EStop Xl :=
  match s.xlate b.core b.asid b.sid va with
  | .error (.page _) => .error (.cause 3)
  | .error .poison => .error (.cause 6)
  | .error (.loan i) => .error (.loan i)
  | .ok x => if s.permOk b.fn priv k x then .ok x else .error (.cause 4)

/-- Whether a band has an access of its own outstanding on a line: a store on its way, a lane of an access in flight, or a
push that an access in flight still owes. A later access to the line waits, so that overlapping accesses stay in program
order (R275, R278, R293). -/
def State.bandBusy (s : State) (k n line : Nat) : Bool :=
  s.storeInFlight k n line ||
    ((((s.blk k).bind fun b => b.band n).map fun x => x.pend.any fun p =>
      (p.lanes.any fun q => !q.done && lineOf q.pa == line)
        || (p.push.map fun e => e.2.any fun q => lineOf q.pa == line).getD false).getD false)

/-- W of what a block reads at a home: the home's record, or a run's snapshot time (R274, R441). -/
def State.wAt (s : State) (b : Block) (sigma pa : Nat) : Nat := if b.sid.isSome then sigma else (s.home (lineOf pa)).w

/-- What a stop of a stream's translation answers. -/
def EStop.res (e : EStop) (va : DWord) : ElemRes :=
  match e with
  | .cause c => .fault c va
  | .loan i => .loan i

/-- What has come of some bytes. -/
def cameOf (got : List HeldData) (pa n : Nat) : Option HeldData :=
  got.find? fun d => d.pa ≤ pa && pa + n ≤ d.pa + d.data.length

/-- Why the parts of an element cannot be read yet: a loan (R437), an access of the band on its way (R293), or bytes whose
poison is not known before they come (R337, cause 6). -/
def State.partStop (s : State) (k n : Nat) (b : Block) (sigma : Nat) (got : List HeldData) (ps : List Need) : Option ElemRes :=
  match ps.find? fun p => isReg p.x.pa, ps.findSome? fun p => s.blockLoan b sigma true p.pa with
  | some p, _ => some (.reg p.x.pa)
  | none, some i => some (.loan i)
  | none, none =>
    if ps.any fun p => s.bandBusy k n (lineOf p.pa) then some .busy
    else
      match ps.filter fun p => b.sid.isNone && s.unsure b.core p.pa && (cameOf got p.pa p.n).isNone with
      | [] => none
      | q :: qs => some (.cold (q :: qs))

/-- Whether the bytes of an element are poisoned: by what they brought, or by their line's mark. -/
def State.partPoison (s : State) (b : Block) (got : List HeldData) (pa n : Nat) : Bool :=
  ((cameOf got pa n).map HeldData.psn).getD (s.poisonFor b pa n)

/-- The bytes of a part of an element, cut at the end of a line. -/
def Xl.need (x : Xl) (n : Nat) : List Need :=
  let m := 128 - x.pa % 128
  if n ≤ m then [⟨x.pa, n, x⟩] else [⟨x.pa, m, x⟩, ⟨x.pa + m, n - m, x⟩]

/-- Reads one element of a port (R331, R337); `got` is what has come for the instruction that pops it. -/
def State.readElem (s : State) (k n : Nat) (b : Block) (priv : Bool) (got : List HeldData) (pt : Port) (off : DWord) :
    ElemRes :=
  let t := pt.pat
  let base := t.base.toNat
  match t.kind with
  | .fmt | .fmtx =>
    match s.elemXlate b priv .read base with
    | .error c => c.res t.base
    | .ok x =>
      let r := if t.kind = .fmtx then { x.reg with efmt := t.xefmt.toNat, egeo := t.xegeo.toNat } else x.reg
      match r.locate base off.toInt with
      | none => .fault 5 t.base
      | some e =>
        match s.elemXlate b priv .read e.payAt, s.elemXlate b priv .read e.scaleAt with
        | .error c, _ => c.res (BitVec.ofNat 64 e.payAt)
        | _, .error c => c.res (BitVec.ofNat 64 e.scaleAt)
        | .ok px, .ok sx =>
          match s.partStop k n b pt.sigma got (px.need e.payLen ++ sx.need 2) with
          | some r => r
          | none =>
            match decodeElem (s.lc8Tab b) r e.pos (s.readFor b pt.sigma px.kid px.pa e.payLen)
                (s.readFor b pt.sigma sx.kid sx.pa 2) with
            | none => .fault 5 (BitVec.ofNat 64 e.payAt)
            | some (v, cs) =>
              if (px.need e.payLen ++ sx.need 2).any fun p => s.partPoison b got p.pa p.n then
                .fault 6 (BitVec.ofNat 64 e.payAt)
              else .val v cs (max (s.wAt b pt.sigma px.pa) (s.wAt b pt.sigma sx.pa))
  | kd =>
    let va := t.base + off
    if va.toNat % skindSize kd ≠ 0 then .fault 2 va
    else
      match s.elemXlate b priv .read va.toNat with
      | .error c => c.res va
      | .ok x =>
        match s.partStop k n b pt.sigma got (x.need (skindSize kd)) with
        | some r => r
        | none =>
          if s.partPoison b got x.pa (skindSize kd) then .fault 6 va
          else .val (skindWiden kd (leVal (s.readFor b pt.sigma x.kid x.pa (skindSize kd)))) 0 (s.wAt b pt.sigma x.pa)

/-- The lines of an element that a port's engine reads at their homes (R293). -/
def State.elemLines (s : State) (b : Block) (priv : Bool) (pt : Port) (off : DWord) : List LineAsk :=
  let at' (va : Nat) : List LineAsk := match s.elemXlate b priv .read va with
    | .ok x => [⟨lineOf x.pa, x.kid, x.nc⟩]
    | .error _ => []
  let t := pt.pat
  match t.kind, s.elemXlate b priv .read t.base.toNat with
  | .fmt, .ok x => ((x.reg.locate t.base.toNat off.toInt).map fun (e : ElemLoc) => at' e.payAt ++ at' e.scaleAt).getD []
  | .fmtx, .ok x =>
    (({ x.reg with efmt := t.xefmt.toNat, egeo := t.xegeo.toNat }.locate t.base.toNat off.toInt).map fun (e : ElemLoc) =>
      at' e.payAt ++ at' e.scaleAt).getD []
  | .fmt, .error _ | .fmtx, .error _ => []
  | _, _ => at' (t.base + off).toNat

/-- The value of a lane's element: read ahead before, or read now. -/
def State.popElem (s : State) (k n : Nat) (b : Block) (priv : Bool) (got : List HeldData) (pt : Port) (l : Nat) : ElemRes :=
  match pt.pat.elem pt.p l with
  | .absent | .past => .val 0 0 0
  | .at' pos _ off =>
    match tget pt.ahead (if pt.pat.lst then 64 * pos + l else pos) with
    | some bs => .val (BitVec.ofNat 32 (leVal (bs.take 4))) (BitVec.ofNat 6 (leVal ((bs.drop 4).take 1))) (leVal (bs.drop 5))
    | none => s.readElem k n b priv got pt off

/-- A port after an access of the band: its position advances, END is set past the end (R330, R334). -/
def Port.advance (pt : Port) (w : Nat) : Port :=
  let es := (List.range w).map fun l => pt.pat.elem pt.p l
  let ended := es.any fun e => match e with
    | .past | .at' _ true _ => true
    | .absent | .at' _ false _ => false
  { pt with
    p := pt.p + (if pt.pat.lst then 1 else BitVec.ofNat 64 w)
    endf := pt.endf || ended
    ahead := pt.ahead.filter fun a => pt.p.toNat + w ≤ a.1 % 2 ^ 70 }

/-- The position that a port had before an access of the band moved it on. -/
def Port.back (pt : Port) (w : Nat) : DWord := pt.p - (if pt.pat.lst then 1 else BitVec.ofNat 64 w)

/-- What the pops of an instruction answer: the values, their conditions and their greatest W. -/
inductive Pops where
  | ok (vals : List (Nat × List Word)) (cs : Conds) (w : Nat)
  | trap (t : Trap)
  | reg (pa : Nat)
  | loan (sid : Nat)
  | cold (ps : List Need)
  | busy

/-- A STREAM trap (R337): TADDR holds the position, TINFO the port. -/
def streamTrap (port cause lane opnd : Nat) (pos : Nat) (va : DWord) : Trap :=
  { cls := .stream, cause, lane, opnd, addr := BitVec.ofNat 64 pos, reg := port, rkind := 4, req := some va }

/-- The position at which a lane's element lies, for the trap record. -/
def Port.posOf (pt : Port) (l : Nat) : Nat := if pt.pat.lst then pt.p.toNat else pt.p.toNat + l

/-- The results of a port's lanes: the lowest fault, else a wait, else the values. -/
def gather (port opnd : Nat) (pt : Port) (ex : List Nat) : List (Nat × ElemRes) → Pops
  | [] => .ok [(port, [])] 0 0
  | (l, r) :: rest =>
    match r with
    | .fault c va => .trap (streamTrap port c l opnd (pt.posOf l) va)
    | .reg pa =>
      match gather port opnd pt ex rest with
      | .trap t => .trap t
      | _ => .reg pa
    | .loan i =>
      match gather port opnd pt ex rest with
      | .trap t => .trap t
      | .reg pa => .reg pa
      | _ => .loan i
    | .cold ps =>
      match gather port opnd pt ex rest with
      | .ok _ _ _ | .busy => .cold ps
      | .cold qs => .cold (ps ++ qs)
      | o => o
    | .busy =>
      match gather port opnd pt ex rest with
      | .ok _ _ _ => .busy
      | o => o
    | .val v cs w =>
      match gather port opnd pt ex rest with
      | .ok ((q, vs) :: t) cs' w' =>
        if ex.contains l then .ok ((q, v :: vs) :: t) (cs ||| cs') (max w w') else .ok ((q, v :: vs) :: t) cs' w'
      | o => o

/-- Pops the ports of the sources, in operand order, each once (R332, R335). -/
def State.popAll (s : State) (k n : Nat) (b : Block) (x : Band) (got : List HeldData) (ex : List Nat) (low : Nat) :
    List (Nat × Nat) → Pops
  | [] => .ok [] 0 0
  | (port, pos) :: rest =>
    let pt := x.ports.getD port {}
    if !pt.cfg then .trap (streamTrap port 0 low pos pt.p.toNat 0)
    else if pt.pat.push then .trap (streamTrap port 1 low pos pt.p.toNat 0)
    else
      match gather port pos pt ex ((List.range x.lanes.length).map fun l => (l, s.popElem k n b x.inh got pt l)) with
      | .ok vs cs w =>
        match s.popAll k n b x got ex low rest with
        | .ok ws ds w' => .ok (vs ++ ws) (cs ||| ds) (max w w')
        | o => o
      | o => o

/-- The lines that a pop of a port reads at their homes: those of the elements that are not read ahead (R293). -/
def State.popLines (s : State) (b : Block) (x : Band) (pt : Port) : List LineAsk :=
  ((List.range x.lanes.length).flatMap fun l => match pt.pat.elem pt.p l with
    | .absent | .past => []
    | .at' pos _ off =>
      if (tget pt.ahead (if pt.pat.lst then 64 * pos + l else pos)).isSome then [] else s.elemLines b x.inh pt off).eraseDups

/-- Whether bytes that an instruction waits for are all there. -/
def Hold.full (q : Hold) : Bool :=
  q.need.all fun p => q.got.any fun d => d.pa ≤ p.1 && p.1 + p.2 ≤ d.pa + d.data.length

/-- What has come for the instruction of a choice. -/
def Band.held (x : Band) (pc : DWord) (act : List Nat) : Option Hold :=
  x.hold.filter fun q => q.pc == pc && q.act == act

/-- Whether the instruction of a choice still waits for bytes. -/
def Band.holding (x : Band) (ch : Choice) : Bool := ((x.held ch.pc ch.active).map fun q => !q.full).getD false

/-- A core has received the versions of some lines as they stand at their homes (R278, R283). -/
def State.receivedAll (s : State) (core : Nat) (as : List LineAsk) : State :=
  as.foldl (fun s a => s.received core a.line (s.home a.line).version) s

/-- The packets of the pops of an instruction (R256, log entry 71), whose values count as received (R278). -/
def State.popAsk (s : State) (k n : Nat) (b : Block) (x : Band) : List (Nat × Nat) → State
  | [] => s
  | (port, _) :: rest =>
    let as := s.popLines b x (x.ports.getD port {})
    ((s.engineAsk b.core b.lid (some (k, n)) 0 as).receivedAll b.core as).popAsk k n b x rest

/-- Sends one read request to a line's home. -/
def State.askLine (s : State) (k n : Nat) (b : Block) (op : Nat) (unc watch : Bool) (x : Xl) (line : Nat) : State :=
  let u := unc || x.sc || x.nc
  let m : Msg := .loadReq k n op b.core line x.kid u x.nc x.sc watch
  if x.sc then s.scSend b.core ⟨line, b.lid, some (k, n), m⟩
  else s.send (coreRouter b.core) (s.homeRouter (128 * line)) .request b.lid (some (k, n)) m

/-- Asks for bytes that an instruction needs before it can issue; what has come already stays. -/
def State.fetchHold (s : State) (k n : Nat) (b : Block) (x : Band) (pc : DWord) (act : List Nat) (unc watch : Bool)
    (ps : List Need) : State :=
  let id := s.serial
  let q : Hold := { id, pc, act, need := ps.map fun p => (p.pa, p.n), got := ((x.held pc act).map Hold.got).getD [] }
  let s := ({ s with serial := id + 1 } : State).modBand k n fun x => { x with hold := some q }
  ((ps.map fun p => lineOf p.pa).eraseDups).foldl (fun s l =>
    match ps.find? fun p => lineOf p.pa == l with
    | some p => s.askLine k n b id unc watch p.x l
    | none => s) s

/-- The bound of an outstanding-operation counter (R343). -/
def counterMax : Nat := 511

/-! ### An issue -/

/-- An instruction that issues: the state and band before its effect (pops done), its lanes and pops. -/
structure Iss where
  s : State
  k : Nat
  n : Nat
  b : Block
  x : Band
  pc : DWord
  act : List Nat
  ex : List Nat
  pops : List (Nat × List Word)
  slow : Bool
  deriving DecidableEq, Repr

/-- What comes of preparing an issue. -/
inductive Prep where
  | refuse (r : Refusal)
  | out (s : State)
  | go (y : Iss)
  deriving DecidableEq, Repr

/-- Blocks lanes at their instruction. -/
def State.blockLanes (s : State) (k n : Nat) (ls : List Nat) (w : Wait) : State :=
  s.modBand k n fun x => x.modLanes ls fun _ l => { l with st := .blocked w }

/-- The entry of one element pushed. -/
structure PushAt where
  lane : Nat
  va : Nat
  x : Xl
  size : Nat
  deriving DecidableEq, Repr

/-- What stops a push before the instruction takes effect: a trap, a loan on a page-table entry or on a line that it would
write (R437), a slice without room for a provisional version (R466), a device register, of which the spec gives no layout, or an
access of the band to the line (R293). -/
inductive PushStop where
  | trap (t : Trap)
  | loan (sid : Nat)
  | full (sid pa : Nat)
  | reg (pa : Nat)
  | busy
  deriving DecidableEq, Repr

/-- Checks a push before the instruction takes effect; lanes past the end or absent store nothing (R333 to R337). -/
def State.pushChecks (s : State) (b : Block) (x : Band) (pops : List (Nat × List Word)) (port : Nat) (ls : List Nat) :
    Except PushStop (List PushAt) :=
  let pt := x.ports.getD port {}
  let low := lowest (ls.take 1)
  if !pt.cfg then .error (.trap (streamTrap port 0 low 1 pt.p.toNat 0))
  else if !pt.pat.push then
    .error (.trap (streamTrap port 1 low 1 (if (tget pops port).isSome then pt.back x.lanes.length else pt.p).toNat 0))
  else
    let sz := skindSize pt.pat.kind
    let es := (List.range x.lanes.length).filterMap fun l =>
      match pt.pat.elem pt.p l with
      | .at' _ _ off =>
        let va := pt.pat.base + off
        some (l, va, if va.toNat % sz ≠ 0 then .error (.cause 2) else s.elemXlate b x.inh .write va.toNat)
      | .absent | .past => none
    match es.findSome? fun e => match e.2.2 with
        | .error (.loan i) => some i
        | .error (.cause _) | .ok _ => none with
    | some i => .error (.loan i)
    | none =>
      match firstTrap es fun (l, va, r) =>
          match r with
          | .error (.cause c) => some (streamTrap port c l 1 (pt.posOf l) va)
          | .error (.loan _) | .ok _ => none with
      | .error t => .error (.trap t)
      | .ok _ => .ok (es.filterMap fun (l, va, r) =>
          match r with
          | .ok x => if ls.contains l then some ⟨l, va.toNat, x, sz⟩ else none
          | .error _ => none)

/-- Why an instruction that pushes must stop or wait before it issues, a STREAM trap apart: that comes in its own place
among the checks (R304 order 9). -/
def State.pushStop (s : State) (k n : Nat) (b : Block) (x : Band) (i : Instr) (ex : List Nat) : Option PushStop :=
  match pushPort b i with
  | none => none
  | some p =>
    match s.pushChecks b x [] p ex with
    | .error (.trap _) => none
    | .error e => some e
    | .ok es =>
      match es.find? fun e => isReg e.x.pa with
      | some e => some (.reg e.x.pa)
      | none =>
        match es.findSome? fun e => s.blockLoan b 0 false e.x.pa with
        | some i => some (.loan i)
        | none =>
          if es.any fun e => s.bandBusy k n (lineOf e.x.pa) then some .busy
          else (s.provWait b (es.map fun e => e.x.pa)).map fun p => .full p.1 p.2

/-- The registers that an instruction names, for the scoreboard and for R345. -/
def namedRegs (b : Block) (i : Instr) : List RegName := (scoreOps i).flatMap fun o => o.regs b

/-- Whether a copy into the band's registers interlocks an instruction (R345): it names one of the copied registers, or it is
one that reads or writes all; an indexed `mov` waits under R138. -/
def Band.copyIlk (x : Band) (b : Block) (i : Instr) : Bool :=
  x.copyHeld (namedRegs b i) || (waitsRegs i && !byIndex i && x.regCopies.any fun c => x.tokens.getLsbD c.1)

/-- Raises the interlock mark of a wait on a copied register (R345). -/
def State.markIlk (s : State) (k n : Nat) (b : Block) (x : Band) (i : Instr) : State :=
  if x.copyIlk b i then s.modBand k n fun x => { x with ilk := true } else s

/-- The lanes of an instruction whose guard is true (R32, R34). -/
def Band.guarded (x : Band) (h : Hdr) (act : List Nat) : List Nat :=
  act.filter fun l => (x.lane l).p h.pred.toNat != h.pneg

/-- A primary run that reads a poisoned version at some point of a band: its sample keeps the point (R472). -/
def State.notePoison (s : State) (b : Block) (key : Nat × Nat × DWord) : State :=
  match b.run, b.sid with
  | .primary, some i => { s with samples := tmod s.samples i fun m => { m with poisons := m.poisons ++ [key] } }
  | _, _ => s

/-- The sample of a later run that reads a poisoned version at a point where its primary run read none (R472). -/
def State.poisonElsewhere (s : State) (b : Block) (key : Nat × Nat × DWord) : Option Nat :=
  if b.later then b.sid.filter fun i => !((tget s.samples i).map fun m => m.poisons.contains key).getD false else none

/-- The trap of a pop: STREAM cause 6 stands for poison that it has read (R337, R472). -/
def State.popTrap (s : State) (k n : Nat) (b : Block) (x : Band) (t : Trap) (ch : Choice) : State :=
  let key := (n, x.issues, ch.pc)
  if t.cls = .stream ∧ t.cause = 6 then
    match s.poisonElsewhere b key with
    | some i => s.releaseSample i (some 6)
    | none => (s.notePoison b key).syncTrap k n t ch.pc ch.active
  else s.syncTrap k n t ch.pc ch.active

/-- The issue of R32 after the choice of R172: decode checks, waits, pops. -/
def State.prepAt (s : State) (k n : Nat) (b : Block) (x : Band) (h : Hdr) (i : Instr) (ch : Choice) : Prep :=
  match s.decodeChecks b x h i (lowest ch.active) with
  | .trap t => .out (s.syncTrap k n t ch.pc ch.active)
  | .migr => .out (s.migrate k n (onlyA i) { cls := .migr, lane := lowest ch.active })
  | .ok =>
    if ((pushPort b i).isSome && counterMax ≤ x.pushesOut.length) || x.mustWait b h i || x.holding ch
        || x.copyHeld (namedRegs b i) then .out (s.markIlk k n b x i)
    else
      let ex := x.guarded h ch.active
      let ports := popPorts b i
      let got := ((x.held ch.pc ch.active).map Hold.got).getD []
      match s.popAll k n b x got ex (lowest ch.active) ports with
      | .trap t => .out (s.popTrap k n b x t ch)
      | .reg pa => .refuse (.deviceRegister pa)
      | .loan sid => .out (s.blockLanes k n ch.active (.loan sid s.time))
      | .cold ps => .out (s.fetchHold k n b x ch.pc ch.active true false ps)
      | .busy => .out s
      | .ok vals cs w =>
        match s.pushStop k n b x i ex with
        | some (.trap t) => .out (s.syncTrap k n t ch.pc ch.active)
        | some (.loan sid) => .out (s.blockLanes k n ch.active (.loan sid s.time))
        | some (.full sid pa) => .out (s.blockLanes k n ch.active (.capacity sid s.time pa))
        | some (.reg pa) => .refuse (.deviceRegister pa)
        | some .busy => .out s
        | none =>
          .go { s := s.popAsk k n b x ports, k, n, b, pc := ch.pc, act := ch.active, ex, pops := vals
                x := (({ x with ports := modAll x.ports (ports.map Prod.fst) fun _ p => p.advance x.lanes.length }).raise
                  cs).seen w
                slow := x.ilk || (undersized b x h i).isSome }

/-- Prepares the issue of an instruction on the band that the device has chosen. -/
def prep (i : Instr) (s : State) : Prep :=
  match i.hdr?, s.blk s.curBlock with
  | some h, some b =>
    match b.band s.curBand with
    | none => .refuse .noIssuer
    | some x =>
      if b.st != .running || x.halted then .refuse .noIssuer
      else
        match x.choose with
        | none => .refuse .noIssuer
        | some ch =>
          let x := if ch.clear then { x with lanes := x.lanes.map fun l => { l with yieldMark := false } } else x
          (s.setBlk s.curBlock (b.setBand s.curBand x)).prepAt s.curBlock s.curBand (b.setBand s.curBand x) x h i ch
  | _, _ => .refuse .noIssuer

/-! ### The operands of a lane -/

/-- What one executing lane reads. -/
structure Env where
  lane : Nat
  ln : Lane
  x : Band
  b : Block
  pops : List (Nat × List Word)

def Iss.env (y : Iss) (l : Nat) : Env := ⟨l, y.x.lane l, y.x, y.b, y.pops⟩

/-- A single vector operand; a port supplies its popped element (R332). -/
def Env.v (e : Env) (r : BitVec 8) : Word :=
  if e.b.isPort r.toNat then ((tget e.pops (r.toNat - 248)).getD []).getD e.lane 0 else e.ln.v r.toNat
def Env.v64 (e : Env) (r : BitVec 8) : DWord := e.ln.v (r.toNat + 1) ++ e.ln.v r.toNat
def Env.v128 (e : Env) (r : BitVec 8) : BitVec 128 :=
  e.ln.v (r.toNat + 3) ++ e.ln.v (r.toNat + 2) ++ e.ln.v (r.toNat + 1) ++ e.ln.v r.toNat
def Env.src (e : Env) (a : Src) : Word :=
  match a with
  | .v r => e.v r
  | .u r => e.x.u r.toNat
def Env.src64 (e : Env) (a : Src) : DWord :=
  match a with
  | .v r => e.v64 r
  | .u r => e.x.u64 r.toNat
/-- A source of 32 or 64 bits, in 64. -/
def Env.srcW (e : Env) (w64 : Bool) (a : Src) : DWord := if w64 then e.src64 a else (e.src a).setWidth 64
def Env.vW (e : Env) (w64 : Bool) (r : BitVec 8) : DWord := if w64 then e.v64 r else (e.v r).setWidth 64
def Env.p (e : Env) (k : BitVec 3) : Bool := e.ln.p k.toNat

/-! ### The results of a lane -/

/-- What one lane writes: vector and uniform registers, predicates, and the conditions that it raises. -/
structure Out where
  v : List (Nat × Word) := []
  u : List (Nat × Word) := []
  p : List (Nat × Bool) := []
  cs : Conds := 0
  deriving DecidableEq, Repr

def Out.v32 (d : BitVec 8) (w : Word) (cs : Conds := 0) : Out := { v := [(d.toNat, w)], cs }
def Out.v64 (d : BitVec 8) (w : DWord) (cs : Conds := 0) : Out :=
  { v := [(d.toNat, w.setWidth 32), (d.toNat + 1, w.extractLsb' 32 32)], cs }
def Out.vW (w64 : Bool) (d : BitVec 8) (w : DWord) (cs : Conds := 0) : Out :=
  if w64 then .v64 d w cs else .v32 d (w.setWidth 32) cs
def Out.pr (d : BitVec 3) (q : Bool) (cs : Conds := 0) : Out := { p := [(d.toNat, q)], cs }
/-- A destination that may be uniform (R136, R137). -/
def Out.dst (d : Dst) (w64 : Bool) (w : DWord) : Out :=
  match d with
  | .v r => .vW w64 r w
  | .u r => if w64 then { u := [(r.toNat, w.setWidth 32), (r.toNat + 1, w.extractLsb' 32 32)] }
      else { u := [(r.toNat, w.setWidth 32)] }

/-- A lane after its writes; a write to a port is a push and not a register write. -/
def Lane.put (x : Lane) (b : Block) (o : Out) : Lane :=
  let x := (o.v.filter fun w => !b.isPort w.1).foldl (fun x w => x.setV w.1 w.2) x
  o.p.foldl (fun x w => x.setP w.1 w.2) x

/-- The uniform writes: those of the lowest executing lane (R137, R212). -/
def uniOuts (outs : List (Nat × Out)) : List (Nat × Word) :=
  match outs.find? fun o => !o.2.u.isEmpty with
  | some o => o.2.u
  | none => []

/-- All conditions raised (R117). -/
def condsOf (outs : List (Nat × Out)) : Conds := outs.foldl (fun c o => c ||| o.2.cs) 0

/-- A lane after the writes that a list of results gives it. -/
def putLane (b : Block) (outs : List (Nat × Out)) (l : Nat) (ln : Lane) : Lane :=
  match outs.find? fun o => o.1 == l with
  | some o => ln.put b o.2
  | none => ln

/-- Registers that are written leave the operand latch (R50). -/
def Band.unlatch (x : Band) (rs : List Nat) : Band := { x with latch := x.latch.filter fun q => !rs.contains q.1 }

/-- The vector registers that results write. -/
def regsOf (outs : List (Nat × Out)) : List Nat := outs.flatMap fun o => o.2.v.map (·.1)

/-- A band after the writes of its lanes. -/
def Band.put (x : Band) (b : Block) (outs : List (Nat × Out)) : Band :=
  let y := (x.modLanes (outs.map (·.1)) (putLane b outs)).unlatch (regsOf outs)
  ((uniOuts outs).foldl (fun z w => z.setU w.1 w.2) y).raise (condsOf outs)

/-- The register records of a lane's writes (R456). -/
def Block.signLane (b : Block) (n lane : Nat) (ws : List (Nat × Word)) : Block :=
  ws.foldl (fun b w =>
    let seq := ((b.band n).map fun x => x.wseq.lanes.getD lane 0).getD 0
    { b.modBand n (fun x => { x with wseq := { x.wseq with lanes := modAt x.wseq.lanes lane (· + 1) } }) with
      sig := b.sig.regw w.2 (n * ((b.band n).map fun x => x.lanes.length).getD 0 + lane) w.1 seq }) b

/-- The register records of the uniform writes (R456). -/
def Block.signUni (b : Block) (n : Nat) (ws : List (Nat × Word)) : Block :=
  ws.foldl (fun b w =>
    let seq := ((b.band n).map fun x => x.wseq.band).getD 0
    { b.modBand n (fun x => { x with wseq := { x.wseq with band := x.wseq.band + 1 } }) with
      sig := b.sig.regw w.2 (0x8000 + n) w.1 seq }) b

/-- The records of all writes of an instruction; nothing for a block that is not sampled. -/
def Block.signOuts (b : Block) (n : Nat) (outs : List (Nat × Out)) : Block :=
  if b.sid.isNone then b
  else (outs.foldl (fun b o => b.signLane n o.1 (o.2.v.filter fun w => !b.isPort w.1)) b).signUni n (uniOuts outs)

/-! ### Pushes (R333, R337) -/

/-- The lanes and values that an instruction pushes. -/
def pushVals (b : Block) (outs : List (Nat × Out)) : List (Nat × Word) :=
  outs.filterMap fun o => (o.2.v.find? fun w => b.isPort w.1).map fun w => (o.1, w.2)

/-- A write of a band to memory counts for its store sequence (R454). -/
def State.nextStoreSeq (s : State) (k n : Nat) : State :=
  s.modBand k n fun x => { x with wseq := { x.wseq with stores := x.wseq.stores + 1 } }

/-- The parts of a push whose values are at hand. -/
def pushParts (es : List PushAt) (vals : List (Nat × Word)) : List StorePart :=
  es.filterMap fun e => (tget vals e.lane).map fun v => ⟨e.va, e.x, leBytes e.size v.toNat⟩

/-- Performs the stores of a push and counts it (R290, R293, R333, R454). -/
def State.doPush (s : State) (k n port : Nat) (es : List PushAt) (vals : List (Nat × Word)) : State :=
  let id := s.serial
  let s := { s with serial := s.serial + 1 }
  let s := s.modBand k n fun x =>
    { x with ports := modAt x.ports port fun p => p.advance x.lanes.length, pushesOut := x.pushesOut ++ [(id, 0)] }
  let s := s.storeAll k n 5 (s.storeSeq k n) false (fun _ => false) (some id) (pushParts es vals)
  if vals.isEmpty then s else s.nextStoreSeq k n

/-! ### Completion of an instruction -/

/-- Instructions that set the yield mark of their lanes (R171). -/
def yields (i : Instr) : Bool :=
  match i with
  | .yield _ | .ld _ _ | .ldw _ _ | .atom _ _ | .fence _ _ | .chk _ _ => true
  | _ => false

/-- Whether an instruction has a register, predicate or uniform result (R49, R62). -/
def writesOf (b : Block) (i : Instr) : List RegName := ((scoreOps i).filter (·.wr)).flatMap fun o => o.regs b

/-- The scoreboard after the issue of an instruction (R62). The band's next instruction waits for the result of an indexed
`mov`, which so makes no pair with a later one (R138). -/
def schedNext (sched : List Issued) (b : Block) (h : Hdr) (i : Instr) : List Issued :=
  let d := max h.stall.toNat 1
  let ws := writesOf b i
  let t := h.sett.toNat
  let old := sched.map fun e =>
    { e with age := e.age + d, waited := e.waited ||| h.wait, last := e.last && e.tok != t
             writes := e.writes.filter fun r => !ws.contains r }
  let new : Issued := ⟨d, 0, t, decide (t < 6), !ws.isEmpty, latency i, if byIndex i then [] else ws⟩
  (old ++ [new]).filter fun e => (e.last || !e.writes.isEmpty) &&
    match e.lat with
    | .fixed _ => e.age < 16
    | .variable => true

/-- The vector source that HOLD names (R50); of a pair or quad the register that the field names, its first. DESIGN CHOICE
(log entry 73): the rule places "that register". A source that the instruction also writes does not enter. -/
def heldReg (b : Block) (h : Hdr) (i : Instr) : Option Nat :=
  if h.hold = 0 then none
  else
    (((operands i).find? fun o => o.pos == h.hold.toNat + 1 && o.cls == .vec && o.rd && !b.isPort o.idx).map (·.idx)).filter
      fun r => !(writesOf b i).contains (.v r)

/-- The operand latch after an instruction (R50): an entry goes with the second further issue or a write of its register;
three at most. -/
def latchNext (latch : List (Nat × Nat)) (b : Block) (h : Hdr) (i : Instr) : List (Nat × Nat) :=
  let ws := writesOf b i
  let old := latch.filterMap fun (r, a) => if a < 1 ∧ !ws.contains (.v r) then some (r, a + 1) else none
  keepLast 3 (match heldReg b h i with
    | some r => old.filter (fun p => p.1 != r) ++ [(r, 0)]
    | none => old)

/-- ILCNT saturates (R61). -/
def satInc (w : Word) : Word := if w = BitVec.allOnes 32 then w else w + 1

/-- The band after an instruction has completed: program counters, yield marks, scoreboard, latch, counts. -/
def Band.complete (x : Band) (b : Block) (dbgen : Word) (i : Instr) (h : Hdr) (act ex : List Nat) (slow : Bool)
    (next : Nat → DWord) : Band :=
  let y := x.modLanes act fun l ln =>
    { ln with pc := next l, yieldMark := ln.yieldMark || (yields i && ex.contains l) }
  let y := (y.count (dbgen.getLsbD 3) 1 1).count (dbgen.getLsbD 3) 2 slow.toNat
  { y with
    sched := schedNext x.sched b h i
    latch := latchNext x.latch b h i
    ilcnt := if slow then satInc y.ilcnt else y.ilcnt
    ilk := false
    hold := none
    stallSkip := false
    readyAge := 0
    boosted := none
    issues := y.issues + 1
    halted := y.halted || y.stepping || (dbgen.getLsbD 1 && y.dbgctl.getLsbD 1)
    stepping := false }

/-- Where lanes go on: the targets given, else the next instruction. -/
def Iss.goOn (y : Iss) (i : Instr) (jumps : List (Nat × DWord)) (l : Nat) : DWord :=
  (tget jumps l).getD (y.pc + BitVec.ofNat 64 (instrBytes i))

/-- A program with a record due at an issue that takes none has departed (R447). -/
def State.checkRec (s : State) (k n : Nat) : State :=
  if s.replaying k && s.recHere k n then s.depart k else s

/-- Completes an issue: the state's own block and band take the common effects. -/
def Iss.finish (y : Iss) (s : State) (i : Instr) (jumps : List (Nat × DWord)) : State :=
  match i.hdr?, s.blk y.k with
  | some h, some b =>
    let s := s.checkRec y.k y.n
    s.modBand y.k y.n fun x => x.complete b (((s.ctx b.asid).map Ctx.dbgen).getD 0) i h y.act y.ex y.slow (y.goOn i jumps)
  | _, _ => s

/-- The state with an issue's band put back (its pops done). -/
def Iss.base (y : Iss) : State := y.s.setBlk y.k (y.b.setBand y.n y.x)

/-- An issue over a state that a log record has changed. -/
def Iss.resync (y : Iss) (s : State) : Iss := { y with s := s, b := (s.blk y.k).getD y.b }

/-- Applies the results of the lanes. -/
def Iss.putOuts (y : Iss) (outs : List (Nat × Out)) : State :=
  y.s.setBlk y.k ((y.b.setBand y.n (y.x.put y.b outs)).signOuts y.n outs)

/-- A trap of the instruction itself: nothing of the issue has taken effect (R36). -/
def Iss.trap (y : Iss) (t : Trap) : State := y.s.syncTrap y.k y.n t y.pc y.act

/-- Whether nothing stops the push that an instruction's destination may be, so that its issue completes. -/
def Iss.pushOk (y : Iss) (i : Instr) : Bool :=
  match pushPort y.b i with
  | none => true
  | some port => match y.s.pushChecks y.b y.x y.pops port y.ex with
    | .ok _ => true
    | .error _ => false

/-- Commits the results of an instruction, with the push that its destination may be (R304 order 9). -/
def Iss.commit (y : Iss) (i : Instr) (outs : List (Nat × Out)) : State :=
  match pushPort y.b i with
  | none => y.finish (y.putOuts outs) i []
  | some port =>
    match y.s.pushChecks y.b y.x y.pops port y.ex with
    | .error (.trap t) => y.trap t
    | .error (.loan i) => y.s.blockLanes y.k y.n y.act (.loan i y.s.time)
    | .error (.full _ _) | .error (.reg _) | .error .busy => y.s
    | .ok es => y.finish ((y.putOuts outs).doPush y.k y.n port es (pushVals y.b outs)) i []

/-- Runs an instruction whose effect is a next state. -/
def run (i : Instr) (s : State) (f : Iss → State) : Host.Outcome State Fault Refusal :=
  match prep i s with
  | .refuse r => .refused r
  | .out s => .next s
  | .go y => .next (f y)

/-- Runs an instruction whose effect may stop by name. -/
def runO (i : Instr) (s : State) (f : Iss → Host.Outcome State Fault Refusal) : Host.Outcome State Fault Refusal :=
  match prep i s with
  | .refuse r => .refused r
  | .out s => .next s
  | .go y => f y

/-- Runs an instruction that computes on each executing lane by itself. -/
def runAlu (i : Instr) (s : State) (f : Env → Out) : Host.Outcome State Fault Refusal :=
  run i s fun y => y.commit i (y.ex.map fun l => (l, f (y.env l)))

/-- Runs an instruction whose results depend on all its executing lanes. -/
def runBand (i : Instr) (s : State) (f : Iss → List (Nat × Out)) : Host.Outcome State Fault Refusal :=
  run i s fun y => y.commit i (f y)

end Sys2Proof.Machine
end

