-- ==== Sys2Proof/Machine/Fp.lean ====
section
/-! DEFINITION. Groups 4 to 6: FP32, packed formats, conversions, FP64 (R148 to R166). -/

namespace Sys2Proof.Machine

open Sys2Proof

/-- The dynamic mode of an issue: FSTAT.RM before the instruction (R88, R166). -/
def Env.mode (e : Env) (r : Rnd) : RMode := modeOf e.x.fstat r

/-- A 32-bit source as a value of a format. -/
def Env.f32 (e : Env) (a : Src) : FV := fval .f32 (e.src a).toNat
def Env.f64 (e : Env) (a : Src) : FV := fval .f64 (e.src64 a).toNat

def Out.f32 (d : BitVec 8) (r : Res Nat) : Out := .v32 d (BitVec.ofNat 32 r.val) r.cs
def Out.f64 (d : BitVec 8) (r : Res Nat) : Out := .v64 d (BitVec.ofNat 64 r.val) r.cs

/-- An FP32 instruction with two sources (R151). -/
def fp2 (i : Instr) (o : F2) (s : State) (f : RMode → Bool → FV → FV → Res Nat) : Host.Outcome State Fault Refusal :=
  runAlu i s fun e => .f32 o.d (f (e.mode o.rnd) o.ftz ((e.f32 o.a).neg o.na) ((e.f32 o.b).neg o.nb))

/-- An FP64 instruction with two sources (R157). -/
def dp2 (i : Instr) (o : F2) (s : State) (f : RMode → Bool → FV → FV → Res Nat) : Host.Outcome State Fault Refusal :=
  runAlu i s fun e => .f64 o.d (f (e.mode o.rnd) o.ftz ((e.f64 o.a).neg o.na) ((e.f64 o.b).neg o.nb))

/-- An FP32 instruction with one source (R151). -/
def fp1 (i : Instr) (o : F1) (s : State) (f : RMode → Bool → FV → Res Nat) : Host.Outcome State Fault Refusal :=
  runAlu i s fun e => .f32 o.d (f (e.mode o.rnd) o.ftz (e.f32 o.a))

/-- An FP32 instruction with an immediate (R152). -/
def fpI (i : Instr) (o : FI) (s : State) (f : RMode → Bool → FV → FV → Res Nat) : Host.Outcome State Fault Refusal :=
  runAlu i s fun e => .f32 o.d (f (e.mode o.rnd) o.ftz ((e.f32 o.a).neg o.na) (fval .f32 o.imm.toNat))

/-- `fadd` (R151). -/
def execFadd (h : Hdr) (o : F2) (s : State) : Host.Outcome State Fault Refusal :=
  fp2 (.fadd h o) o s (fadd .f32)

/-- `fsub` (R151). -/
def execFsub (h : Hdr) (o : F2) (s : State) : Host.Outcome State Fault Refusal :=
  fp2 (.fsub h o) o s fun m z a b => fadd .f32 m z a (b.neg true)

/-- `fmul` (R151). -/
def execFmul (h : Hdr) (o : F2) (s : State) : Host.Outcome State Fault Refusal :=
  fp2 (.fmul h o) o s (fmul .f32)

/-- `fdiv` (R151). -/
def execFdiv (h : Hdr) (o : FDiv) (s : State) : Host.Outcome State Fault Refusal :=
  runAlu (.fdiv h o) s fun e => .f32 o.d (fdiv .f32 (e.mode o.rnd) o.ftz (e.f32 o.a) (e.f32 o.b))

/-- `fsqrt` (R151). -/
def execFsqrt (h : Hdr) (o : F1) (s : State) : Host.Outcome State Fault Refusal :=
  fp1 (.fsqrt h o) o s (fsqrt .f32)

/-- `frcp` (R151). -/
def execFrcp (h : Hdr) (o : F1) (s : State) : Host.Outcome State Fault Refusal :=
  fp1 (.frcp h o) o s (frcp .f32)

/-- `frsq` (R151). -/
def execFrsq (h : Hdr) (o : F1) (s : State) : Host.Outcome State Fault Refusal :=
  fp1 (.frsq h o) o s (frsq .f32)

/-- `fexp2` (R96, R151). -/
def execFexp2 (h : Hdr) (o : F1) (s : State) : Host.Outcome State Fault Refusal :=
  fp1 (.fexp2 h o) o s fexp2

/-- `flog2` (R96, R151). -/
def execFlog2 (h : Hdr) (o : F1) (s : State) : Host.Outcome State Fault Refusal :=
  fp1 (.flog2 h o) o s flog2

/-- `fsin` (R96, R151). -/
def execFsin (h : Hdr) (o : F1) (s : State) : Host.Outcome State Fault Refusal :=
  fp1 (.fsin h o) o s (ftrig false)

/-- `fcos` (R96, R151). -/
def execFcos (h : Hdr) (o : F1) (s : State) : Host.Outcome State Fault Refusal :=
  fp1 (.fcos h o) o s (ftrig true)

/-- `frnd` (R156). -/
def execFrnd (h : Hdr) (o : F1) (s : State) : Host.Outcome State Fault Refusal :=
  runAlu (.frnd h o) s fun e => .f32 o.d (frndF (e.mode o.rnd) o.ftz (e.src o.a).toNat)

/-- `fclass` (R155). -/
def execFclass (h : Hdr) (o : FCls) (s : State) : Host.Outcome State Fault Refusal :=
  runAlu (.fclass h o) s fun e => .v32 o.d (fclassF (e.src o.a).toNat)

/-- `ffma` (R151). -/
def execFfma (h : Hdr) (o : F3) (s : State) : Host.Outcome State Fault Refusal :=
  runAlu (.ffma h o) s fun e =>
    .f32 o.d (ffma .f32 (e.mode o.rnd) o.ftz o.np o.nc (e.f32 o.a) (e.f32 o.b) (fval .f32 (e.v o.c).toNat))

/-- `faddImm` (R152). -/
def execFaddImm (h : Hdr) (o : FI) (s : State) : Host.Outcome State Fault Refusal :=
  fpI (.faddImm h o) o s (fadd .f32)

/-- `fmulImm` (R152). -/
def execFmulImm (h : Hdr) (o : FI) (s : State) : Host.Outcome State Fault Refusal :=
  fpI (.fmulImm h o) o s (fmul .f32)

/-- `fmin` (R153). -/
def execFmin (h : Hdr) (o : FMm) (s : State) : Host.Outcome State Fault Refusal :=
  runAlu (.fmin h o) s fun e => .f32 o.d (fminmax .f32 false o.ftz (e.src o.a).toNat (e.src o.b).toNat)

/-- `fminImm` (R152, R153). -/
def execFminImm (h : Hdr) (o : FMmI) (s : State) : Host.Outcome State Fault Refusal :=
  runAlu (.fminImm h o) s fun e => .f32 o.d (fminmax .f32 false o.ftz (e.src o.a).toNat o.imm.toNat)

/-- `dmin` (R153). -/
def execDmin (h : Hdr) (o : FMm) (s : State) : Host.Outcome State Fault Refusal :=
  runAlu (.dmin h o) s fun e => .f64 o.d (fminmax .f64 false o.ftz (e.src64 o.a).toNat (e.src64 o.b).toNat)

/-- `fmax` (R153). -/
def execFmax (h : Hdr) (o : FMm) (s : State) : Host.Outcome State Fault Refusal :=
  runAlu (.fmax h o) s fun e => .f32 o.d (fminmax .f32 true o.ftz (e.src o.a).toNat (e.src o.b).toNat)

/-- `fmaxImm` (R152, R153). -/
def execFmaxImm (h : Hdr) (o : FMmI) (s : State) : Host.Outcome State Fault Refusal :=
  runAlu (.fmaxImm h o) s fun e => .f32 o.d (fminmax .f32 true o.ftz (e.src o.a).toNat o.imm.toNat)

/-- `dmax` (R153). -/
def execDmax (h : Hdr) (o : FMm) (s : State) : Host.Outcome State Fault Refusal :=
  runAlu (.dmax h o) s fun e => .f64 o.d (fminmax .f64 true o.ftz (e.src64 o.a).toNat (e.src64 o.b).toNat)

/-- `fcmp` (R154). -/
def execFcmp (h : Hdr) (o : FCmp) (s : State) : Host.Outcome State Fault Refusal :=
  runAlu (.fcmp h o) s fun e =>
    let r := fcmpB .f32 o.cc o.ftz o.sig (e.src o.a).toNat (e.src o.b).toNat
    .pr o.p r.val r.cs

/-- `fcmpImm` (R154). -/
def execFcmpImm (h : Hdr) (o : FCmpI) (s : State) : Host.Outcome State Fault Refusal :=
  runAlu (.fcmpImm h o) s fun e =>
    let r := fcmpB .f32 o.cc o.ftz o.sig (e.src o.a).toNat o.imm.toNat
    .pr o.p r.val r.cs

/-- `dcmp` (R154). -/
def execDcmp (h : Hdr) (o : FCmp) (s : State) : Host.Outcome State Fault Refusal :=
  runAlu (.dcmp h o) s fun e =>
    let r := fcmpB .f64 o.cc o.ftz o.sig (e.src64 o.a).toNat (e.src64 o.b).toNat
    .pr o.p r.val r.cs

/-- `dadd` (R157). -/
def execDadd (h : Hdr) (o : F2) (s : State) : Host.Outcome State Fault Refusal :=
  dp2 (.dadd h o) o s (fadd .f64)

/-- `dmul` (R157). -/
def execDmul (h : Hdr) (o : F2) (s : State) : Host.Outcome State Fault Refusal :=
  dp2 (.dmul h o) o s (fmul .f64)

/-- `ddiv` (R157). -/
def execDdiv (h : Hdr) (o : FDiv) (s : State) : Host.Outcome State Fault Refusal :=
  runAlu (.ddiv h o) s fun e => .f64 o.d (fdiv .f64 (e.mode o.rnd) o.ftz (e.f64 o.a) (e.f64 o.b))

/-- `dsqrt` (R157). -/
def execDsqrt (h : Hdr) (o : F1) (s : State) : Host.Outcome State Fault Refusal :=
  runAlu (.dsqrt h o) s fun e => .f64 o.d (fsqrt .f64 (e.mode o.rnd) o.ftz (e.f64 o.a))

/-- `dfma` (R157). -/
def execDfma (h : Hdr) (o : F3) (s : State) : Host.Outcome State Fault Refusal :=
  runAlu (.dfma h o) s fun e =>
    .f64 o.d (ffma .f64 (e.mode o.rnd) o.ftz o.np o.nc (e.f64 o.a) (e.f64 o.b) (fval .f64 (e.v64 o.c).toNat))

/-- The format of a code of R160, and its width. -/
def CvFmt.fmt : CvFmt → Fmt
  | .f32 => .f32
  | .f16 => .f16
  | .bf16 => .bf16
  | .e4m3 => .e4m3
  | .e5m2 => .e5m2

/-- The overflow rule of a conversion (R98, R161). -/
def cvRule (small ovr : Bool) : ORule := if small then (if ovr then .ovf else .sat) else .ieee

/-- Element n of a register (R82). -/
def elemBits (f : Fmt) (w : Word) (n : Nat) : Nat := (w.extractLsb' (f.bits * n) f.bits).toNat

/-- `fcvt` (R161); between equal formats nothing overflows and an infinity stays one. -/
def execFcvt (h : Hdr) (o : Fcvt) (s : State) : Host.Outcome State Fault Refusal :=
  runAlu (.fcvt h o) s fun e =>
    .f32 o.d (fcvtF (CvFmt.fmt o.df) (CvFmt.fmt o.sf) (e.mode o.rnd) o.ftz (cvRule (o.df.small && o.df != o.sf) o.ovr)
      (elemBits (CvFmt.fmt o.sf) (e.src o.a) o.sel.toNat))

def IFmt.fmt : IFmt → Fmt
  | .f32 => .f32
  | .f16 => .f16
  | .bf16 => .bf16

/-- `icvt` (R163). -/
def execIcvt (h : Hdr) (o : Icvt) (s : State) : Host.Outcome State Fault Refusal :=
  runAlu (.icvt h o) s fun e =>
    let f := IFmt.fmt o.ff
    if o.toInt then
      let r := toIntF ((fval f (elemBits f (e.src o.a) 0)).flush o.ftz) o.t.bits o.t.sg (e.mode o.rnd)
      .vW o.t.w64 o.d (ires o.t r.val) r.cs
    else .f32 o.d (intToF f (e.mode o.rnd) o.ftz (ival o.t (e.srcW o.t.w64 o.a)))

def PFmt.fmt : PFmt → Fmt
  | .f16 => .f16
  | .bf16 => .bf16
  | .e4m3 => .e4m3
  | .e5m2 => .e5m2

/-- `fpack` (R162): element i of the result is the conversion of source register i. -/
def execFpack (h : Hdr) (o : Fpack) (s : State) : Host.Outcome State Fault Refusal :=
  runAlu (.fpack h o) s fun e =>
    let cv (w : Word) : Res Nat := fcvtF (PFmt.fmt o.pf) .f32 (e.mode o.rnd) o.ftz (cvRule o.pf.small o.ovr) w.toNat
    if o.pf.small then
      let a := e.src64 o.a
      let b := e.v64 o.b
      let r0 := cv (a.setWidth 32)
      let r1 := cv (a.extractLsb' 32 32)
      let r2 := cv (b.setWidth 32)
      let r3 := cv (b.extractLsb' 32 32)
      .v32 o.d (BitVec.ofNat 32 (r0.val + r1.val * 2 ^ 8 + r2.val * 2 ^ 16 + r3.val * 2 ^ 24))
        (r0.cs ||| r1.cs ||| r2.cs ||| r3.cs)
    else
      let r0 := cv (e.src o.a)
      let r1 := cv (e.v o.b)
      .v32 o.d (BitVec.ofNat 32 (r0.val + r1.val * 2 ^ 16)) (r0.cs ||| r1.cs)

/-- `hfma2` (R158). -/
def execHfma2 (h : Hdr) (o : Hfma2) (s : State) : Host.Outcome State Fault Refusal :=
  runAlu (.hfma2 h o) s fun e =>
    let f : Fmt := if o.bf then .bf16 else .f16
    let el (n : Nat) : Res Nat :=
      ffma f (e.mode o.rnd) o.ftz false false (fval f (elemBits f (e.src o.a) n)) (fval f (elemBits f (e.src o.b) n))
        (fval f (elemBits f (e.v o.c) n))
    .v32 o.d (BitVec.ofNat 32 ((el 0).val + (el 1).val * 2 ^ 16)) ((el 0).cs ||| (el 1).cs)

/-- The formats of A's and B's elements (R159). -/
def dot4Fmts : Dot4Fmt → Fmt × Fmt
  | .e4e4 => (.e4m3, .e4m3)
  | .e4e5 => (.e4m3, .e5m2)
  | .e5e4 => (.e5m2, .e4m3)
  | .e5e5 => (.e5m2, .e5m2)
  | .f16 => (.f16, .f16)
  | .bf16 => (.bf16, .bf16)

/-- `dot4` (R159): elements of 8 bits lie in one register, elements of 16 bits in a pair. -/
def execDot4 (h : Hdr) (o : Dot4) (s : State) : Host.Outcome State Fault Refusal :=
  runAlu (.dot4 h o) s fun e =>
    let fs := dot4Fmts o.ef
    let w64 := fs.1.bits == 16
    let el (f : Fmt) (x : DWord) (n : Nat) : FV := fval f (x.extractLsb' (f.bits * n) f.bits).toNat
    .f32 o.d (dot4F (e.mode o.rnd) o.ftz
      ((List.range 4).map fun n => (el fs.1 (e.srcW w64 o.a) n, el fs.2 (e.srcW w64 o.b) n))
      (fval .f32 (e.v o.c).toNat))

/-- The integer type of a kind of `dcvt`. -/
def DKind.itype : DKind → IType
  | .s32 => .s32
  | .z32 => .z32
  | .s64 => .s64
  | _ => .z64

/-- `dcvt` (R164). -/
def execDcvt (h : Hdr) (o : Dcvt) (s : State) : Host.Outcome State Fault Refusal :=
  runAlu (.dcvt h o) s fun e =>
    let md := e.mode o.rnd
    match o.sk, o.dk with
    | .f64, .f32 => .f32 o.d (fcvtF .f32 .f64 md o.ftz .ieee (e.src64 o.a).toNat)
    | .f32, .f64 => .f64 o.d (fcvtF .f64 .f32 md o.ftz .ieee (e.src o.a).toNat)
    | .f64, k =>
      let t := DKind.itype k
      let r := toIntF ((fval .f64 (e.src64 o.a).toNat).flush o.ftz) t.bits t.sg md
      .vW t.w64 o.d (ires t r.val) r.cs
    | k, _ =>
      let t := DKind.itype k
      .f64 o.d (intToF .f64 md o.ftz (ival t (e.srcW t.w64 o.a)))

end Sys2Proof.Machine
end

