-- ==== Sys2Proof/Machine/Sync.lean ====
section
/-! DEFINITION. Group 8, `exit`, and the waits that order memory: releases (R279), barriers (R222 to R229),
rejoin masks (R173, R220), the end of a lane (R40, R144). -/

namespace Sys2Proof.Machine

open Sys2Proof

/-! ### The wait of a release (R279) -/

/-- Scopes whose release waits for the horizon. -/
def Scope.wide : Scope → Bool
  | .band | .blk => false
  | .clu | .die | .dev | .sys => true

/-- Whether every earlier access of a band has been performed and every earlier load has returned. -/
def Band.settled (x : Band) : Bool := x.storesOut == 0 && x.pend.isEmpty

/-- The condition of R279 for a release or a fence of a scope: at the wider ones every W that counts in the horizon is known
(R274) and 4 ticks past. An acquire fence waits for the loads alone. -/
def State.orderReady (s : State) (b : Block) (x : Band) (k : FKind) (sc : Scope) : Bool :=
  match k with
  | .acq => x.pend.isEmpty
  | .rel | .ar => x.settled && (!Scope.wide sc || (x.waitW.isEmpty && decide (x.horizon + 4 ≤ s.now b.die)))

/-- Runs an effect once a release's wait is over; its lanes are blocked until then (R170). -/
def Iss.released (y : Iss) (k : FKind) (sc : Scope) (f : State) : State :=
  if y.ex.isEmpty || y.s.orderReady y.b y.x k sc then f else y.s.blockLanes y.k y.n y.act (.release k sc)

/-- The error status that a barrier arrival, a release, finds after its wait (R272, R471). -/
def Iss.statusDue (y : Iss) (sc : Scope) : Option DWord :=
  if !y.ex.isEmpty && y.s.orderReady y.b y.x .rel sc then y.x.werr else none

/-! ### Barriers (R222 to R229) -/

/-- `try_complete` of R224. -/
def Barrier.tryComplete (t : Barrier) (now : Nat) : Barrier :=
  let gone := (t.gone.filter fun u => !t.pend.contains u).length
  if t.cnt ≤ t.arr + gone ∧ t.cpy = 0 then
    { t with part := [], pend := [], gen := t.gen + 1, arr := 0, stamps := t.stamps ++ [now] }
  else t

/-- `arrive` of R224. -/
def Barrier.arrive (t : Barrier) (u now : Nat) : Barrier :=
  if t.pend.contains u then t else { t with pend := t.pend ++ [u], arr := t.arr + 1 }.tryComplete now

/-- A member goes (R224). -/
def Barrier.leave (t : Barrier) (u now : Nat) : Barrier :=
  if t.members.contains u && !t.gone.contains u then { t with gone := t.gone ++ [u] }.tryComplete now else t

/-- The scope of a barrier's ordering (R227). -/
def BScope.scope : BScope → Scope
  | .blk => .blk
  | .clu => .clu
  | .die => .die
  | .grid => .dev

/-- Changes one list of barriers of a grid: those of the cluster in which the block was placed, of its logical
die, or of the grid (R184). -/
def Grid.modBars (g : Grid) (b : Block) (sc : BScope) (f : List Barrier → List Barrier) : Grid :=
  match sc with
  | .blk => g
  | .clu => { g with cluBars := g.cluBars.map fun p =>
      (p.1, if List.any p.2 (fun t => t.members.contains b.idx) then f p.2 else p.2) }
  | .die => { g with dieBars := g.dieBars.map fun p => if p.1 = b.ldie then (p.1, f p.2) else p }
  | .grid => { g with gridBars := f g.gridBars }

/-- The barriers of a level that a block sees. -/
def State.barsOf (s : State) (b : Block) (sc : BScope) : List Barrier :=
  match sc, s.grid b.lid with
  | .blk, _ => b.bars
  | .clu, some g =>
    ((g.cluBars.find? fun p => p.2.any fun t => t.members.contains b.idx).map (·.2)).getD []
  | .die, some g => ((g.dieBars.find? fun p => p.1 == b.ldie).map (·.2)).getD []
  | .grid, some g => g.gridBars
  | _, none => []

def State.bar (s : State) (b : Block) (sc : BScope) (num : Nat) : Option Barrier := (s.barsOf b sc)[num]?

/-- The chip time that stamps a phase (R442): of the die that holds the barrier's state. -/
def State.barNow (s : State) (b : Block) (sc : BScope) : Nat :=
  match sc with
  | .blk => s.now b.die
  | .clu => s.now (((s.grid b.lid).bind fun g =>
      (g.cluBars.find? fun p => p.2.any fun t => t.members.contains b.idx).map fun p => coreDie (64 * p.1)).getD b.die)
  | .die => s.now b.ldie
  | .grid => s.now 0

/-- Changes one barrier of a block. -/
def State.modBar (s : State) (k : Nat) (sc : BScope) (num : Nat) (f : Barrier → Barrier) : State :=
  match s.blk k with
  | none => s
  | some b =>
    match sc with
    | .blk => s.setBlk k { b with bars := modAt b.bars num f }
    | _ => s.modGrid b.lid fun g => g.modBars b sc fun l => modAt l num f

/-- The live lanes of a block, by their index in the block. -/
def Block.liveLanes (b : Block) : List Nat :=
  (List.range b.bands.length).flatMap fun n =>
    match b.band n with
    | none => []
    | some x => (x.pick fun l => l.st != .exited).map fun l => n * b.bandw + l

/-- A block's arrival at a wider barrier once all its live lanes have arrived (R223). -/
def Barrier.collect (t : Barrier) (b : Block) (now : Nat) : Barrier :=
  let here := (t.part.filter fun q => q.1 == b.idx).map (·.2)
  if here.isEmpty then t
  else if b.liveLanes.all fun l => here.contains l then t.arrive b.idx now
  else t

/-- The arrival of one lane (R223, R224). -/
def State.arriveLane (s : State) (k n l : Nat) (sc : BScope) (num : Nat) : State :=
  match s.blk k with
  | none => s
  | some b =>
    let u := n * b.bandw + l
    let now := s.barNow b sc
    match sc with
    | .blk => s.modBar k .blk num fun t => t.arrive u now
    | _ => s.modBar k sc num fun t =>
      if t.part.contains (b.idx, u) then t else { t with part := t.part ++ [(b.idx, u)] }.collect b now

/-- Whether a lane's arrival is pending at a barrier (R225). -/
def State.lanePending (s : State) (b : Block) (n l : Nat) (sc : BScope) (num : Nat) : Bool :=
  match s.bar b sc num with
  | none => false
  | some t =>
    let u := n * b.bandw + l
    match sc with
    | .blk => t.pend.contains u
    | _ => t.part.contains (b.idx, u)

/-- The barrier number of a lane's instruction (R225). -/
def Env.barNum (e : Env) (n : BNum) : Nat :=
  match n with
  | .lit k => k.toNat
  | .u r => (e.x.u r.toNat).toNat

/-- The trap of a uniform barrier number beyond the declared count (R225). -/
def Iss.barTrap (y : Iss) (n : BNum) (sc : BScope) : Option Trap :=
  match y.ex with
  | [] => none
  | l :: _ =>
    if y.s.barCount y.b sc ≤ (y.env l).barNum n then
      some { cls := .regidx, cause := 1, lane := lowest y.ex, opnd := 2 }
    else none

/-- The number that a band's barrier instruction names. -/
def Iss.barNum (y : Iss) (n : BNum) : Nat := (y.env (lowest y.ex)).barNum n

/-- The body of a TYPE 3 or TYPE 7 record: scope and number, then a value (R446). -/
def barBody (sc : BScope) (num : Nat) (v : DWord) : List DWord :=
  [BitVec.ofNat 64 ((match sc with
    | .blk => 0
    | .clu => 1
    | .die => 2
    | .grid => 3) + 4 * num), v]

/-- Whether a barrier instruction of a later run is replaced by the log (R450). -/
def Iss.barReplay (y : Iss) (sc : BScope) : Bool := y.b.later && sc != .blk

/-- The arrivals of an instruction's lanes, in ascending order. DESIGN CHOICE (log entry 84): R224 gives the lanes of one
instruction no order. -/
def Iss.arriveAll (y : Iss) (s : State) (sc : BScope) (num : Nat) : State :=
  y.ex.foldl (fun s l => s.arriveLane y.k y.n l sc num) s

/-- Blocks the lanes of a barrier instruction whose arrival is pending, in the current phase (R225). -/
def Iss.waitBar (y : Iss) (s : State) (sc : BScope) (num : Nat) : State :=
  match s.blk y.k with
  | none => s
  | some b =>
    match s.bar b sc num with
    | none => s
    | some t => s.blockLanes y.k y.n (y.ex.filter fun l => s.lanePending b y.n l sc num) (.bar sc num t.gen)

/-- A `bar.sync` of a primary run whose own arrival completes the phase observes it complete, and takes its stamp as its
snapshot time (R227, R442). DEDUCED (log entry 9). -/
def Iss.syncStamp (y : Iss) (s : State) (sc : BScope) (num : Nat) : State :=
  if sc = .blk ∨ y.b.run ≠ .primary ∨ y.ex.isEmpty ∨ y.ex.any (fun l => s.lanePending y.b y.n l sc num) then s
  else
    match s.bar y.b sc num with
    | some t => s.modBand y.k y.n fun x => { x with sigma := t.stamps.getLastD 0 }
    | none => s

/-- The phase of a barrier that lanes of an instruction await: that of now, if the arrival of one is pending (R225). -/
def Iss.awaits (y : Iss) (s : State) (sc : BScope) (num : Nat) : Option Word :=
  (s.blk y.k).bind fun b =>
    if y.ex.any fun l => s.lanePending b y.n l sc num then (s.bar b sc num).map Barrier.gen else none

/-- A wait at a wider barrier logs its record at its issue; a wake as an acquire sets the record's σ (R446). -/
def Iss.logBar (y : Iss) (s : State) (sc : BScope) (num : Nat) : State :=
  if sc = .blk ∨ y.ex.isEmpty then s
  else
    s.logRec y.k y.n 3 (barBody sc num (BitVec.ofNat 64
      ((((s.blk y.k).bind fun b => b.band y.n).map Band.sigma).getD y.x.sigma))) (y.awaits s sc num)

/-- `bar.wait` and `bar.sync` of a later run at a wider barrier (R450): σ comes from the record. -/
def Iss.barFromLog (y : Iss) (i : Instr) (sc : BScope) (num : Nat) : State :=
  if y.ex.isEmpty then y.finish y.base i []
  else
    match y.s.nextRec y.k y.n 3 with
    | some r =>
      if r.body.headD 0 = (barBody sc num 0).headD 0 then
        let y := { y with x := { y.x with logPos := y.x.logPos + 1, sigma := (r.body.getD 1 0).toNat } }
        y.finish y.base i []
      else y.s.depart y.k
    | none => y.s.depart y.k

/-- The shared form of `bar.arr`, `bar.wait` and `bar.sync` (R225). -/
def barOp (i : Instr) (o : Bar) (s : State) (arr wait : Bool) : Host.Outcome State Fault Refusal :=
  run i s fun y =>
    match y.barTrap o.n o.sc with
    | some t => y.trap t
    | none =>
      let num := y.barNum o.n
      if y.barReplay o.sc then (if wait then y.barFromLog i o.sc num else y.finish y.base i [])
      else
        let s := if arr then y.arriveAll y.base o.sc num else y.base
        let s := if arr && wait then y.syncStamp s o.sc num else s
        let s := if wait then y.logBar s o.sc num else s
        let t := y.finish s i []
        let t := if wait then y.waitBar t o.sc num else t
        if !arr then t
        else
          match y.statusDue (BScope.scope o.sc) with
          | some a => { y with s := y.s.modBand y.k y.n fun x => { x with werr := none } }.trap
              { cls := .poison, lane := lowest y.ex, addr := a }
          | none => y.released .rel (BScope.scope o.sc) t

/-- `bar.arr` (R225). -/
def execBarArr (h : Hdr) (o : Bar) (s : State) : Host.Outcome State Fault Refusal := barOp (.barArr h o) o s true false

/-- `bar.wait` (R225). -/
def execBarWait (h : Hdr) (o : Bar) (s : State) : Host.Outcome State Fault Refusal := barOp (.barWait h o) o s false true

/-- `bar.sync` (R225). -/
def execBarSync (h : Hdr) (o : Bar) (s : State) : Host.Outcome State Fault Refusal := barOp (.barSync h o) o s true true

/-- Whether a block has a lane that waits at a barrier for a phase. -/
def Block.waitsAt (b : Block) (sc : BScope) (num : Nat) (phase : Word) : Bool :=
  b.bands.any fun x => x.lanes.any fun l => match l.st with
    | .blocked (.bar sc' num' p) => sc' == sc && num' == num && p == phase
    | _ => false

/-- BARBUSY (R228): a lane waits there, a copy is registered, or an arrival is pending. -/
def State.barBusy (s : State) (b : Block) (sc : BScope) (num : Nat) : Bool :=
  match s.bar b sc num with
  | none => false
  | some t =>
    t.cpy != 0 || !t.pend.isEmpty || !t.part.isEmpty ||
      (match sc with
        | .blk => b.waitsAt sc num t.gen
        | _ => s.blocks.any fun p => p.2.lid == b.lid && t.members.contains p.2.idx && !p.2.later && p.2.waitsAt sc num t.gen)

/-- The shared form of `bar.init` and `bar.inv` (R228): a count of 0 or above the membership is the membership. DESIGN CHOICE (log
entry 93): the traps record the lowest active lane; R406 would also allow the lowest participating lane, which names the
barrier. -/
def barSet (i : Instr) (n : BNum) (sc : BScope) (count : Nat) (s : State) : Host.Outcome State Fault Refusal :=
  run i s fun y =>
    if y.ex.isEmpty then y.finish y.base i []
    else
      match y.barTrap n sc with
      | some t => y.trap t
      | none =>
        let num := y.barNum n
        let busy : Trap := { cls := .barbusy, lane := lowest y.act }
        if y.barReplay sc then
          match y.s.nextRec y.k y.n 7 with
          | some r =>
            let y := { y with x := { y.x with logPos := y.x.logPos + 1 } }
            if r.body.headD 0 ≠ (barBody sc num 0).headD 0 then y.s.depart y.k
            else if r.body.getD 1 0 = 1 then
              { y with s := y.s.modBand y.k y.n fun x => { x with logPos := x.logPos + 1 } }.trap busy
            else y.finish y.base i []
          | none => y.s.depart y.k
        else
          let b := y.s.barBusy y.b sc num
          let log (s : State) : State := if sc = .blk then s else s.logRec y.k y.n 7 (barBody sc num (if b then 1 else 0))
          if b then { y with s := log y.s }.trap busy
          else
            y.finish ((log y.base).modBar y.k sc num fun t =>
              { t with cnt := if count = 0 ∨ t.members.length < count then t.members.length else count }) i []

/-- `bar.init` (R228). -/
def execBarInit (h : Hdr) (o : BarInit) (s : State) : Host.Outcome State Fault Refusal :=
  barSet (.barInit h o) o.n o.sc o.count.toNat s

/-- `bar.inv` (R228). -/
def execBarInv (h : Hdr) (o : Bar) (s : State) : Host.Outcome State Fault Refusal := barSet (.barInv h o) o.n o.sc 0 s

/-! ### Rejoin masks (R173, R220) -/

/-- Runs a change of the band's lanes after the common effects of the issue. -/
def runLanes (i : Instr) (s : State) (f : Iss → Band → Band) : Host.Outcome State Fault Refusal :=
  run i s fun y => (y.finish y.base i []).modBand y.k y.n (f y)

/-- `join.e` (R173). -/
def execJoinE (h : Hdr) (j : BitVec 2) (s : State) : Host.Outcome State Fault Refusal :=
  runLanes (.joinE h j) s fun y x =>
    { x with enrolled := modAt x.enrolled j.toNat (· ||| laneSet y.ex) }.releaseFull

/-- `join.w` (R173): enrolled lanes park, the others go on. -/
def execJoinW (h : Hdr) (j : BitVec 2) (s : State) : Host.Outcome State Fault Refusal :=
  runLanes (.joinW h j) s fun y x =>
    (x.modLanes (y.ex.filter fun l => (x.enrolled.getD j.toNat 0).getLsbD l)
      fun _ l => { l with st := .parked j.toNat }).releaseFull

/-- `join.x` (R173). -/
def execJoinX (h : Hdr) (j : BitVec 2) (s : State) : Host.Outcome State Fault Refusal :=
  runLanes (.joinX h j) s fun y x =>
    { x with enrolled := modAt x.enrolled j.toNat (· &&& ~~~(laneSet y.ex)) }.releaseFull

/-! ### The end of lanes (R40, R144) -/

/-- Lanes exit: they leave every rejoin mask (R40). -/
def Band.exitLanes (x : Band) (ls : List Nat) : Band :=
  let y := x.modLanes ls fun _ l => { l with st := .exited }
  { y with enrolled := y.enrolled.map fun e => e &&& ~~~(laneSet ls) }.releaseFull

/-- The lanes that have gone count at the block's barriers and in its collections (R223, R224, R295). -/
def State.leaveBars (s : State) (k : Nat) (us : List Nat) : State :=
  match s.blk k with
  | none => s
  | some b =>
    let now := s.now b.die
    let s := s.setBlk k { b with bars := b.bars.map fun t => us.foldl (fun t u => t.leave u now) t }
    match s.blk k with
    | none => s
    | some b =>
      if b.later then s
      else
        s.modGrid b.lid fun g =>
          ((g.modBars b .clu (·.map fun t => t.collect b (s.barNow b .clu))).modBars b .die
            (·.map fun t => t.collect b (s.barNow b .die))).modBars b .grid
            (·.map fun t => t.collect b (s.barNow b .grid))

/-- The scope at which an exit is a release (R295): that of the widest barrier the block can meet. -/
def State.exitScope (s : State) (b : Block) : Option Scope :=
  if s.barCount b .clu != 0 || s.barCount b .die != 0 || s.barCount b .grid != 0 then some .dev
  else if b.bars.isEmpty then none
  else some .blk

end Sys2Proof.Machine
end

