-- ==== Sys2Proof/Machine/Access.lean ====
section
/-! DEFINITION. Groups 9 and 10: loads, stores, the format-decoding load, atomics, reductions, fences, cache
operations, watched loads and their check, the range commit (R301 to R325). -/

namespace Sys2Proof.Machine

open Sys2Proof

/-! ### Shared by all accesses -/

/-- Bytes of an access size (R307). -/
def lsizeBytes : LSize → Nat
  | .z8 | .s8 => 1
  | .z16 | .s16 => 2
  | .b32 => 4
  | .b64 => 8
  | .b128 => 16

/-- The register words that a loaded value gives (R308). -/
def loadWords (sz : LSize) (m : BitVec 128) : List Word :=
  match sz with
  | .z8 => [(m.setWidth 8).setWidth 32]
  | .s8 => [(m.setWidth 8).signExtend 32]
  | .z16 => [(m.setWidth 16).setWidth 32]
  | .s16 => [(m.setWidth 16).signExtend 32]
  | .b32 => [m.setWidth 32]
  | .b64 => [m.setWidth 32, m.extractLsb' 32 32]
  | .b128 => [m.setWidth 32, m.extractLsb' 32 32, m.extractLsb' 64 32, m.extractLsb' 96 32]

/-- Register writes from a first register on. -/
def wordsAt (d : BitVec 8) (ws : List Word) : List (Nat × Word) := ws.mapIdx fun i w => (d.toNat + i, w)

/-- The value of bytes. -/
def bytesV (bs : List Byte) : BitVec 128 := BitVec.ofNat 128 (leVal bs)

/-- The global addresses of the lanes (R303). -/
def Iss.addrs (y : Iss) (base : Src) (disp : DWord) : List (Nat × Nat) :=
  y.ex.map fun l => (l, ((y.env l).src64 base + disp).toNat)

/-- The scratchpad addresses of the lanes (R303). -/
def Iss.sAddrs (y : Iss) (base : Src) (disp : Word) : List (Nat × Word) :=
  y.ex.map fun l => (l, (y.env l).src base + disp)

/-- ALIGN for a multi-lane access (R30, R304 order 3). -/
def alignTrap (sz : Nat) (as : List (Nat × Nat)) : Option Trap :=
  (as.find? fun p => p.2 % sz != 0).map fun p => { cls := .align, lane := p.1, addr := BitVec.ofNat 64 p.2 }

/-- Orders 3 to 5 of R304 for global memory. -/
def Iss.reach (y : Iss) (k : AKind) (sz : Nat) (as : List (Nat × Nat)) : Except Stop (List LaneX) :=
  match alignTrap sz as with
  | some t => .error (.trap t)
  | none => y.s.xlateAll y.b.core y.b.asid y.b.fn y.b.sid y.x.inh k as

/-- Blocks the active lanes on a loan (R437). -/
def Iss.onLoan (y : Iss) (sid : Nat) : State := y.s.blockLanes y.k y.n y.act (.loan sid y.s.time)

/-- What a stop before the effect comes to. -/
def Iss.stop (y : Iss) (e : Stop) : State :=
  match e with
  | .trap t => y.trap t
  | .loan i => y.onLoan i

/-- The fill of the TLBs by the accesses of an issue. -/
def Iss.fills (y : Iss) (s : State) (xs : List LaneX) : State :=
  s.tlbFillAll y.b.core y.b.asid y.b.lid (some (y.k, y.n)) xs

/-- The fills of the TLBs by reads and, for a run of a sampled block, the packets of the reads at their homes (R436, R441). -/
def Iss.reads (y : Iss) (s : State) (xs : List LaneX) : State :=
  let t := y.fills s xs
  if y.b.sid.isNone then t
  else t.engineAsk y.b.core y.b.lid (some (y.k, y.n)) 0
    ((xs.map fun a => (⟨lineOf a.x.pa, a.x.kid, a.x.nc⟩ : LineAsk)).eraseDups)

/-- Whether the band has an access of its own outstanding on a line. -/
def Iss.lineBusy (y : Iss) (pa : Nat) : Bool := y.s.bandBusy y.k y.n (lineOf pa)

/-- The loan that stops an access, if any (R437). -/
def Iss.loan (y : Iss) (read : Bool) (xs : List LaneX) : Option Nat :=
  xs.findSome? fun a => y.s.blockLoan y.b y.x.sigma read a.x.pa

/-- The wait that an access meets after order 5: a loan blocks the lanes, an access of the band's own to the line
holds the issue. -/
def Iss.held (y : Iss) (read : Bool) (xs : List LaneX) : Option State :=
  match y.loan read xs with
  | some i => some (y.onLoan i)
  | none => if xs.any (fun a => y.lineBusy a.x.pa) then some y.s else none

/-- The wait of writes that need room for provisional versions (R466). -/
def Iss.full (y : Iss) (xs : List LaneX) : Option State :=
  (y.s.provWait y.b (xs.map fun a => a.x.pa)).map fun p =>
    y.s.blockLanes y.k y.n y.act (.capacity p.1 y.s.time p.2)

/-! ### Bytes before the issue (R36, R245, R304) -/

/-- Bytes at hand for a read, with their W, the stores of the core that they hold and whose W is not known (R274), and
whether they are poisoned. -/
structure AtHand where
  bs : List Byte
  w : Nat
  stores : List Nat := []
  psn : Bool
  deriving DecidableEq, Repr

/-- A part of a read that lies within one line. -/
structure Piece where
  a : LaneX
  pa : Nat
  n : Nat
  deriving DecidableEq, Repr

/-- The parts of a read of n bytes. -/
def LaneX.pieces (a : LaneX) (n : Nat) : List Piece :=
  let m := 128 - a.x.pa % 128
  if n ≤ m then [⟨a, a.x.pa, n⟩] else [⟨a, a.x.pa, m⟩, ⟨a, a.x.pa + m, n - m⟩]

/-- Bytes that have come for this issue. -/
def Iss.came (y : Iss) (p : Piece) : Option HeldData :=
  (y.x.held y.pc y.act).bind fun q => q.got.find? fun d => d.pa ≤ p.pa && p.pa + p.n ≤ d.pa + d.data.length

/-- What has come, as bytes at hand. -/
def Iss.cameHand (y : Iss) (p : Piece) : Option AtHand :=
  (y.came p).map fun d => { bs := (d.data.drop (p.pa - d.pa)).take p.n, w := d.w, psn := d.psn }

/-- The bytes of a part that need no further request: a run's snapshot view (R441), the core's valid copy (R245), or what
has come for this issue. -/
def Iss.hand (y : Iss) (unc : Bool) (p : Piece) : Option AtHand :=
  if y.b.sid.isSome then
    some { bs := y.s.readFor y.b y.x.sigma p.a.x.kid p.pa p.n, w := y.x.sigma, psn := y.s.poisonFor y.b p.pa p.n }
  else if unc || p.a.x.sc || p.a.x.nc then y.cameHand p
  else
    match y.s.l1Valid y.b.core (lineOf p.pa) with
    | none => y.cameHand p
    | some c =>
      some (if c.owned then
          { bs := y.s.rd p.a.x.kid p.pa p.n, w := (y.s.home (lineOf p.pa)).w, psn := y.s.poisonAt p.pa p.n }
        else { bs := (c.data.drop (p.pa % 128)).take p.n, w := c.w, stores := c.stores, psn := y.s.poisonAt p.pa p.n })

/-- The bytes of a read, where all its parts are at hand. -/
def Iss.handAll (y : Iss) (unc : Bool) (a : LaneX) (n : Nat) : Option AtHand :=
  (a.pieces n).foldr (fun p r =>
    match y.hand unc p, r with
    | some h, some t => some { bs := h.bs ++ t.bs, w := max h.w t.w, stores := h.stores ++ t.stores, psn := h.psn || t.psn }
    | _, _ => none) (some { bs := [], w := 0, psn := false })

/-- A band that has received values (R274): their W, or the stores whose W it must still learn. -/
def Band.took (x : Band) (hs : List AtHand) : Band :=
  hs.foldl (fun x h => { x.seen h.w with waitW := x.waitW ++ h.stores.filter fun i => !x.waitW.contains i }) x

/-- Sends one read request to a line's home. -/
def Iss.askLine (y : Iss) (s : State) (op : Nat) (unc watch : Bool) (x : Xl) (line : Nat) : State :=
  s.askLine y.k y.n y.b op unc watch x line

/-- Asks for bytes that an instruction needs before it can issue; what has come already stays. -/
def Iss.fetchFor (y : Iss) (unc watch : Bool) (ps : List Piece) : State :=
  y.s.fetchHold y.k y.n y.b y.x y.pc y.act unc watch (ps.map fun p => ⟨p.pa, p.n, p.a.x⟩)

/-- The parts of reads that are not at hand. -/
def Iss.missing (y : Iss) (unc : Bool) (rs : List (LaneX × Nat)) : List Piece :=
  (rs.flatMap fun r => r.1.pieces r.2).filter fun p => (y.hand unc p).isNone

/-- The parts of reads that are not at hand and whose poison is not known yet, as their home must first read them from its stack
or recall them: a POISON must come before the issue (R36, R304). -/
def Iss.coldParts (y : Iss) (unc : Bool) (rs : List (LaneX × Nat)) : List Piece :=
  (y.missing unc rs).filter fun p => y.s.unsure y.b.core p.pa

/-- The first lane that reads a poisoned line (R304 order 8): by what its bytes brought, or by the line's mark. -/
def Iss.poisoned (y : Iss) (unc : Bool) (sz : Nat) (xs : List LaneX) : Option Trap :=
  (xs.find? fun a => ((y.handAll unc a sz).map AtHand.psn).getD (y.s.poisonFor y.b a.x.pa sz)).map fun a =>
    { cls := .poison, lane := a.lane, addr := BitVec.ofNat 64 a.va }

/-- The trap of a read that meets poison; a later run whose primary run met none there releases its sample (R472). -/
def Iss.poisonOut (y : Iss) (t : Trap) : State :=
  match y.s.poisonElsewhere y.b (y.n, y.x.issues, y.pc) with
  | some i => y.s.releaseSample i (some 6)
  | none => { y with s := y.s.notePoison y.b (y.n, y.x.issues, y.pc) }.trap t

/-! ### The inspection of the watch table (R288) and the error status (R471) -/

/-- Runs a release access or a fence behind R288, its wait of R279 and the status of R471; `lane` is the one that its traps
record. -/
def Iss.ordered (y : Iss) (lane : Nat) (k : FKind) (sc : Scope) (f : Iss → Host.Outcome State Fault Refusal) :
    Host.Outcome State Fault Refusal :=
  if y.ex.isEmpty then f y
  else if y.x.watch.any (fun e => e.st == .unresolved) then .next (y.s.blockLanes y.k y.n y.act .watch)
  else if y.x.watch.any (fun e => e.st == .struck) then .next (y.trap { cls := .wtunchk, lane })
  else if !y.s.orderReady y.b y.x k sc then .next (y.s.blockLanes y.k y.n y.act (.release k sc))
  else
    match y.x.werr with
    | some a =>
      .next ({ y with s := y.s.modBand y.k y.n fun x => { x with werr := none } }.trap
        { cls := .poison, lane, addr := a })
    | none => f y

/-! ### Loads (R308) -/

/-- The entries of a push whose values come later. -/
def PushAt.ent (e : PushAt) : PushEnt := ⟨e.lane, e.va, e.x.pa, e.x.attr, e.x.kid, e.size⟩

/-- Counts an L1 miss for each line asked for (R429). -/
def State.countMiss (s : State) (k n : Nat) (b : Block) (m : Nat) : State :=
  s.modBand k n fun x => x.count (s.dbg b 3) 3 m

/-- The distinct lines of a list of accesses. -/
def linesOf (xs : List LaneX) : List Nat := (xs.map fun a => lineOf a.x.pa).eraseDups

/-- The reads of their lines that a unit makes. -/
def asksOf (xs : List LaneX) : List LineAsk := (xs.map fun a => (⟨lineOf a.x.pa, a.x.kid, a.x.nc⟩ : LineAsk)).eraseDups

/-- A port that the destination names is checked before the access takes effect (R304 order 9). -/
def Iss.portOk (y : Iss) (i : Instr) (s : State) : Except PushStop (Option (Nat × List PushAt)) :=
  match pushPort y.b i with
  | none => .ok none
  | some p =>
    match s.pushChecks y.b y.x y.pops p y.ex with
    | .error t => .error t
    | .ok es => .ok (some (p, es))

/-- What a port that fails its checks comes to. -/
def Iss.portStop (y : Iss) (e : PushStop) : State :=
  match e with
  | .trap t => y.trap t
  | .loan i => y.onLoan i
  | .full i pa => y.s.blockLanes y.k y.n y.act (.capacity i y.s.time pa)
  | .reg _ | .busy => y.s

/-- The results of an atomic whose lanes have all been performed. -/
def atomOuts (d : BitVec 8) (w64 : Bool) (ls : List PendLane) : List (Nat × Out) :=
  ls.map fun l => (l.lane, .vW w64 d (l.data.setWidth 64))

/-- The results of an access whose lanes all have their data. -/
def PendOp.outs (p : PendOp) : List (Nat × Out) :=
  match p.kind with
  | .load sz | .watch sz => p.lanes.map fun l => (l.lane, { v := wordsAt p.d (loadWords sz l.data) })
  | .atom _ w64 => atomOuts p.d w64 p.lanes
  | .red _ _ => []

/-- Whether an access in flight has a register result, which its token guards (R49, R302): a reduction and a push have
none. -/
def PendKind.hasResult (k : PendKind) : Bool :=
  match k with
  | .load _ | .watch _ | .atom _ _ => true
  | .red _ _ => false

/-- Puts an access in flight: its entry, its token, its push, its lanes if it is an acquire (R49, R170, R279). -/
def Iss.inFlight (y : Iss) (i : Instr) (s : State) (op : PendOp) (port : Option (Nat × List PushAt)) : State :=
  let tok := match i.hdr? with
    | some h => if h.sett.toNat < 6 && op.kind.hasResult && port.isNone then some h.sett.toNat else none
    | none => none
  let s := s.modBand y.k y.n fun x =>
    let writes : Bool := match op.kind with
      | .atom _ _ | .red _ _ => true
      | .load _ | .watch _ => port.isSome
    let regs (l : Nat) : Nat := if port.isSome then 0 else ((tget op.outs l).getD {}).v.length
    let op := { op with
      tok, push := port.map fun p => (s.serial, p.2.map PushAt.ent), issue := x.issues, seq := x.wseq.stores
      seqs := op.lanes.map fun l => (l.lane, x.wseq.lanes.getD l.lane 0) }
    let x := { x with pend := x.pend ++ [op]
                      wseq := { x.wseq with
                        lanes := modAll x.wseq.lanes (op.lanes.map (·.lane)) fun l n => n + regs l
                        stores := if writes then x.wseq.stores + 1 else x.wseq.stores }
                      tokens := match tok with
                        | some t => x.tokens ||| ((1 : BitVec 6) <<< t)
                        | none => x.tokens }
    match port with
    | none => x
    | some p =>
      { x with ports := modAt x.ports p.1 fun q => q.advance x.lanes.length
               pushesOut := x.pushesOut ++ [(s.serial, 0)] }
  let s := y.finish { s with serial := s.serial + 1 } i []
  if op.acq then s.blockLanes y.k y.n y.ex (.reply op.id) else s

/-- Sends the requests of an access: one for each line. -/
def Iss.ask (y : Iss) (s : State) (op : Nat) (unc watch : Bool) (xs : List LaneX) : State :=
  (linesOf xs).foldl (fun s line =>
    match xs.find? fun a => lineOf a.x.pa == line with
    | some a => y.askLine s op unc watch a.x line
    | none => s) s

/-- The outputs of a load whose values are all at hand. -/
def loadOuts (d : BitVec 8) (sz : LSize) (vs : List (Nat × List Byte)) : List (Nat × Out) :=
  vs.map fun v => (v.1, { v := wordsAt d (loadWords sz (bytesV v.2)) })

/-- A register device (R232) that the spec gives no layout. -/
def regStop (xs : List LaneX) (ok : LaneX → Bool) : Option Refusal :=
  (xs.find? fun a => isReg a.x.pa && !ok a).map fun a => .deviceRegister a.x.pa

/-- The watch entry of a line that an `ldw` reads (R284, R285): one that the home serves is answered with its data, by the
read `op` or before the issue; one that L1 serves has a check of its own. In a sampled block every entry is confirmed
(R289). -/
def Iss.watchLine (y : Iss) (op : Nat) (xs : List LaneX) (s : State) (line : Nat) : State :=
  let put (s : State) (e : WatchEnt) : State := s.modBand y.k y.n fun x => { x with watch := x.watch ++ [e] }
  match xs.find? fun a => lineOf a.x.pa == line with
  | none => s
  | some a =>
    let cached := !a.x.sc && !a.x.nc
    if y.b.sid.isSome then put s ⟨op, line, 0, .confirmed, 2 ^ 70⟩
    else
      match if cached then y.s.l1Valid y.b.core line else none, y.came ⟨a, a.x.pa, 1⟩ with
      | some c, _ =>
        let v := if c.owned then (y.s.home line).version else c.version
        (put s ⟨s.serial, line, v, .unresolved, 0⟩).send (coreRouter y.b.core) (s.homeRouter (128 * line)) .request y.b.lid
          (some (y.k, y.n)) (.watchChk y.k y.n s.serial y.b.core line v)
      | none, some d => put s ⟨op, line, d.version, if d.ec.isSome then .confirmed else .struck, d.ec.getD 0⟩
      | none, none => put s ⟨op, line, 0, .unresolved, 0⟩

/-- The body of `ld` and `ldw`, after the translation of its lanes; `watch` makes the entries of an `ldw`. -/
def Iss.loadFrom (y : Iss) (i : Instr) (sz : LSize) (d : BitVec 8) (acq unc watch : Bool) (xs : List LaneX) : State :=
  let n := lsizeBytes sz
  match y.held true xs with
  | some t => t
  | none =>
    match y.coldParts unc (xs.map fun a => (a, n)) with
    | p :: ps => y.fetchFor unc watch (p :: ps)
    | [] =>
      match y.poisoned unc n xs, y.portOk i y.s with
      | some t, _ => y.poisonOut t
      | none, .error t => y.portStop t
      | none, .ok port =>
        let id := y.s.serial
        let gs : List (LaneX × Option AtHand) := xs.map fun a => (a, y.handAll unc a n)
        let asks := (gs.filter fun g => g.2.isNone).map (·.1)
        let s := y.reads { y.s with serial := id + 1 } xs
        let s : State := if watch then (linesOf xs).foldl (y.watchLine id xs) s else s
        let watched := (((s.blk y.k).bind fun b => b.band y.n).map Band.watch).getD []
        let y := y.resync s
        let y := { y with x := { y.x.took (gs.filterMap fun (g : LaneX × Option AtHand) => g.2) with watch := watched } }
        if asks.isEmpty then
          y.commit i (loadOuts d sz (gs.filterMap fun (g : LaneX × Option AtHand) => g.2.map fun h => (g.1.lane, h.bs)))
        else
          let s := y.ask y.base id unc watch asks
          let lanes : List PendLane := gs.map fun g => match g.2 with
            | some h => ⟨g.1.lane, BitVec.ofNat 64 g.1.va, g.1.x.pa, true, bytesV h.bs, g.1.x.kid⟩
            | none => ⟨g.1.lane, BitVec.ofNat 64 g.1.va, g.1.x.pa, false, 0, g.1.x.kid⟩
          let kind : PendKind := if watch then .watch sz else .load sz
          y.inFlight i (s.countMiss y.k y.n y.b (linesOf asks).length)
            { id, kind, d, lanes, b := [], c := [], uncached := unc, acq, tok := none } port

/-- `ld` (R306 to R310). -/
def execLd (h : Hdr) (o : Ld) (s : State) : Host.Outcome State Fault Refusal :=
  runO (.ld h o) s fun y =>
    let acq := match o.ord with
      | .sync _ => true
      | .rlx | .unc => false
    match y.reach .read (lsizeBytes o.sz) (y.addrs o.base (o.disp.signExtend 64)) with
    | .error e => .next (y.stop e)
    | .ok xs =>
      match regStop xs fun _ => false with
      | some r => .refused r
      | none => .next (y.loadFrom (.ld h o) o.sz o.d acq (o.ord == .unc) false xs)

/-! ### Stores (R308 to R311) -/

/-- The data of a store, by its size (R308). -/
def Env.storeBytes (e : Env) (sz : LSize) (b : Src) : List Byte :=
  leBytes (lsizeBytes sz) (match sz, b with
    | .b128, .v r => (e.v128 r).toNat
    | .b64, _ => (e.src64 b).toNat
    | _, _ => (e.src b).toNat)

/-- KIND of a remote operation, by its address (R493). -/
def remoteKind (pa : Nat) : Nat := pa / 2 ^ 10 % 16

/-- The Solust port that carries a packet to a device (R492): of the ports in the region's mask the one numbered by the device
number modulo their count, from the lowest. -/
def State.slrtPort (s : State) (dev : Nat) : Option Nat :=
  let m := (tget s.pf.slrt (dev / 128)).getD 0
  let ps := (List.range 12).filter fun p => m.getLsbD p
  ps[dev % ps.length]?

/-- A remote operation, from its address in the aperture and the sixteen bytes stored (R493). -/
def State.rmtOf (s : State) (pa : Nat) (bs : List Byte) : RmtOp :=
  let dev := pa / 2 ^ 20 % 2 ^ 19
  { port := s.slrtPort dev, dev, fn := pa / 2 ^ 14 % 64, kind := remoteKind pa
    off := BitVec.ofNat 64 (leVal (bs.take 8)), operand := BitVec.ofNat 64 (leVal (bs.drop 8)) }

/-- Sends what waits on a link as far as its 64 places for resending reach (R492). -/
def Link.pump (l : Link) : Link :=
  let out := l.queue.take (64 - l.kept.length)
  { l with kept := l.kept ++ out.mapIdx fun i f => (l.sent + i, f)
           queue := l.queue.drop out.length, sent := l.sent + out.length }

/-- Sends flits on a Solust port. -/
def State.sendFlits (s : State) (port : Nat) (fs : List Flit) : State :=
  let l := (tget s.ports port).getD {}
  { s with ports := tset s.ports port { l with queue := l.queue ++ fs }.pump }

/-- A remote operation of one lane (R493, R494): it raises the remote counter, and leaves by its port; a later run does not
perform it. -/
def State.remoteOp (s : State) (k n va pa : Nat) (bs : List Byte) : State :=
  match s.blk k with
  | none => s
  | some b =>
    let s := s.setBlk k (b.signWrite n 8 va (bs.drop 8))
    if b.later then s
    else
      let o := s.rmtOf pa bs
      let s := s.modBand k n fun x => { x with rmtOut := x.rmtOut ++ [o] }
      o.port.elim s fun p => s.sendFlits p [.op o]

/-- A 128-byte store from one instruction: eight `.b128` lanes that cover a line (R311). -/
def coversLine (sz : LSize) (xs : List LaneX) (line : Nat) : Bool :=
  sz == .b128 && (List.range 8).all fun j => xs.any fun a => a.x.pa == 128 * line + 16 * j

/-- The body of `st` after the translation of its lanes: remote operations, then the stores, in ascending lane order
(R309). -/
def Iss.storeTo (y : Iss) (i : Instr) (sz : LSize) (data : Src) (unc : Bool) (xs : List LaneX) : State :=
  match (y.held false xs).or (y.full xs) with
  | some t => t
  | none =>
    let bytes (a : LaneX) : List Byte := (y.env a.lane).storeBytes sz data
    let s := (xs.filter fun a => isReg a.x.pa).foldl (fun s a => s.remoteOp y.k y.n a.va a.x.pa (bytes a)) (y.fills y.base xs)
    let s := s.storeAll y.k y.n 0 (s.storeSeq y.k y.n) unc (coversLine sz xs) none
      ((xs.filter fun a => !isReg a.x.pa).map fun a => ⟨a.va, a.x, bytes a⟩)
    y.finish (if xs.isEmpty then s else s.nextStoreSeq y.k y.n) i []

/-- The body of `st` behind its ordering. -/
def Iss.store (y : Iss) (i : Instr) (o : St) : Host.Outcome State Fault Refusal :=
  match y.reach .write (lsizeBytes o.sz) (y.addrs o.base (o.disp.signExtend 64)) with
  | .error e => .next (y.stop e)
  | .ok xs =>
    match regStop xs fun a => isAperture a.x.pa && o.sz == .b128 with
    | some r => .refused r
    | none =>
      match xs.find? fun a => isReg a.x.pa && 9 ≤ remoteKind a.x.pa with
      | some a => .next (y.trap { cls := .perm, lane := a.lane, addr := BitVec.ofNat 64 a.va })
      | none =>
        if counterMax < y.x.rmtCnt + (xs.filter fun a => isReg a.x.pa).length then .next y.s
        else .next (y.storeTo i o.sz o.b (o.ord == .unc) xs)

/-- `st` (R306 to R310). -/
def execSt (h : Hdr) (o : St) (s : State) : Host.Outcome State Fault Refusal :=
  runO (.st h o) s fun y =>
    match o.ord with
    | .sync sc => y.ordered (lowest y.ex) .rel sc fun y => y.store (.st h o) o
    | .rlx | .unc => y.store (.st h o) o

/-! ### Scratchpad (R240 to R243, R306) -/

/-- Whether a lane's window is another block's (R445). -/
def Iss.peer (y : Iss) (w : Nat) : Bool := w != y.k

/-- The lanes that name a rank other than the run's own (R445). -/
def Iss.peerLanes (y : Iss) (as : List (Nat × Word)) : List (Nat × Word) :=
  as.filter fun p => (p.2.extractLsb' 20 6).toNat != y.s.rankNow y.b y.n y.x.issues

/-- The body of a TYPE 5 record (R446). -/
def peerBody (vs : List (Nat × List Byte)) : List DWord :=
  laneSet (vs.map (·.1)) :: vs.flatMap fun v =>
    [BitVec.ofNat 64 (leVal (v.2.take 8)), BitVec.ofNat 64 (leVal (v.2.drop 8))]

/-- The value that a TYPE 5 record gives the j-th of its lanes. -/
def peerVal (body : List DWord) (j : Nat) : BitVec 128 := body.getD (2 * j + 2) 0 ++ body.getD (2 * j + 1) 0

/-- ALIGN, or an offset beyond the window, in a peer lane of a later run: what R241 finds without the peer. -/
def Iss.peerTrap (y : Iss) (sz : Nat) (as : List (Nat × Word)) : Option Trap :=
  let trap (c : TrapClass) (p : Nat × Word) : Trap := { cls := c, lane := p.1, addr := p.2.setWidth 64 }
  match as.find? fun p => p.2.extractLsb' 26 6 != 0 || p.2.toNat % sz != 0 with
  | some p => some (trap .align p)
  | none => (as.find? fun p => y.b.window < (p.2.extractLsb' 0 20).toNat + sz).map (trap .perm)

/-- The trap that the primary run met at this instruction for a peer access (R446: synchronous traps fall alike). -/
def Iss.peerMet (y : Iss) : Option Trap :=
  ((y.b.sid.bind (tget y.s.samples)).bind fun m =>
    m.peerTraps.find? fun q => q.1 == y.n && q.2.1 == y.x.issues && q.2.2.1 == y.pc).map fun q => q.2.2.2

/-- A trap of a scratchpad access that has peer lanes; in a primary run the sample keeps it. -/
def Iss.trapPeer (y : Iss) (peers : Bool) (t : Trap) : State :=
  match y.b.run, y.b.sid with
  | .primary, some i =>
    if peers then
      { y with s := { y.s with samples := tmod y.s.samples i fun m =>
          { m with peerTraps := m.peerTraps ++ [(y.n, y.x.issues, y.pc, t)] } } }.trap t
    else y.trap t
  | _, _ => y.trap t

/-- `lds` of a later run that reads another block's window: those lanes take their values from the log (R445). -/
def Iss.ldsReplay (y : Iss) (i : Instr) (o : Ld) (as peers : List (Nat × Word)) : State :=
  match y.peerMet.or (y.peerTrap (lsizeBytes o.sz) peers) with
  | some t => y.trap t
  | none =>
    match y.s.nextRec y.k y.n 5 with
    | none => y.s.depart y.k
    | some r =>
      if r.body.headD 0 ≠ laneSet (peers.map (·.1)) then y.s.depart y.k
      else
        match y.s.scratchAll y.b y.k (lsizeBytes o.sz) (as.filter fun p => !peers.contains p) with
        | .error t => y.trap t
        | .ok own =>
          let vs := (peers.mapIdx fun j p => (p.1, leBytes 16 (peerVal r.body j).toNat))
            ++ own.map fun (l, w, off) => (l, y.s.scrRead w off (lsizeBytes o.sz))
          { y with x := { y.x with logPos := y.x.logPos + 1 } }.commit i (loadOuts o.d o.sz vs)

/-- `lds` (R306); a value brings the W of its window's stores (R274). -/
def execLds (h : Hdr) (o : Ld) (s : State) : Host.Outcome State Fault Refusal :=
  run (.lds h o) s fun y =>
    let as := y.sAddrs o.base (o.disp.signExtend 32)
    let peers := y.peerLanes as
    if y.b.later && !peers.isEmpty then y.ldsReplay (.lds h o) o as peers
    else
      match y.s.scratchAll y.b y.k (lsizeBytes o.sz) as with
      | .error t => y.trapPeer (!peers.isEmpty) t
      | .ok ws =>
        let vs := ws.map fun (l, w, off) => (l, y.s.scrRead w off (lsizeBytes o.sz))
        let pv := vs.filter fun v => peers.any fun p => p.1 == v.1
        let y := if pv.isEmpty || !y.pushOk (.lds h o) then y else y.resync (y.s.logRec y.k y.n 5 (peerBody pv))
        let y := { y with x := y.x.seen ((ws.map fun (q : Nat × Nat × Nat) => y.s.scrW q.2.1).foldl max 0) }
        y.commit (.lds h o) (loadOuts o.d o.sz vs)

/-- The trap that a later run's `sts` meets for its peer lanes. -/
def Iss.stsTrap (y : Iss) (sz : Nat) (peers : List (Nat × Word)) : Option Trap :=
  if y.b.later && !peers.isEmpty then y.peerMet.or (y.peerTrap sz peers) else none

/-- The body of `sts`: a later run performs no store into another block's window (R445, R450). -/
def Iss.storeScr (y : Iss) (i : Instr) (o : St) : State :=
  let as := y.sAddrs o.base (o.disp.signExtend 32)
  let peers := y.peerLanes as
  let own := if y.b.later then as.filter fun p => !peers.contains p else as
  match y.stsTrap (lsizeBytes o.sz) peers, y.s.scratchAll y.b y.k (lsizeBytes o.sz) own with
  | some t, _ => y.trap t
  | none, .error t => y.trapPeer (!peers.isEmpty) t
  | none, .ok ws =>
    let s := ws.foldl (fun s (l, w, off) => s.scrWrite w off ((y.env l).storeBytes o.sz o.b)) y.base
    let s := as.foldl (fun s (l, a) => s.modBlk y.k fun b =>
      b.signWrite y.n (if peers.contains (l, a) then 2 else 1) a.toNat ((y.env l).storeBytes o.sz o.b)) s
    let s := s.modBand y.k y.n fun x => x.seen (if ws.isEmpty then 0 else y.s.now y.b.die)
    y.finish (if as.isEmpty then s else s.nextStoreSeq y.k y.n) i []

/-- `sts` (R306). -/
def execSts (h : Hdr) (o : St) (s : State) : Host.Outcome State Fault Refusal :=
  runO (.sts h o) s fun y =>
    match o.ord with
    | .sync sc => y.ordered (lowest y.ex) .rel sc fun y => .next (y.storeScr (.sts h o) o)
    | .rlx | .unc => .next (y.storeScr (.sts h o) o)

/-! ### The format-decoding load (R312, R313) -/

/-- One lane of `ldf`: where its element stands, or FMT. -/
def LaneX.elemAt (a : LaneX) (idx : Word) : Option ElemLoc := a.x.reg.locate a.va idx.toNat

/-- The reads that one element needs: its payload and its scale, with the number of bytes of each. -/
def LaneX.reads (a : LaneX) (e : ElemLoc) : List (LaneX × Nat) :=
  [({ a with va := e.payAt, x := { a.x with pa := a.x.at' a.va e.payAt } }, e.payLen),
   ({ a with va := e.scaleAt, x := { a.x with pa := a.x.at' a.va e.scaleAt } }, 2)]

/-- One lane's element from the bytes at hand: its value and conditions, or FMT (R107, R313). -/
def Iss.elemVal (y : Iss) (a : LaneX) (e : ElemLoc) : Option (Word × Conds) :=
  match a.reads e with
  | [p, c] =>
    match y.handAll false p.1 p.2, y.handAll false c.1 c.2 with
    | some hp, some hc => decodeElem (y.s.lc8Tab y.b) a.x.reg e.pos hp.bs hc.bs
    | _, _ => none
  | _ => none

/-- `ldf` (R312, R313): payload and scale are relaxed cacheable reads (R245), and all of them are at hand before the issue,
so that FMT and then POISON are precise. -/
def execLdf (h : Hdr) (o : Ldf) (s : State) : Host.Outcome State Fault Refusal :=
  runO (.ldf h o) s fun y =>
    match y.s.xlateAll y.b.core y.b.asid y.b.fn y.b.sid y.x.inh .read (y.addrs o.base (o.disp.signExtend 64)) with
    | .error e => .next (y.stop e)
    | .ok xs =>
      match regStop xs fun _ => false with
      | some r => .refused r
      | none =>
        let es := xs.map fun a => (a, a.elemAt ((y.env a.lane).src o.idx))
        let rs := es.flatMap fun p => (p.2.map p.1.reads).getD []
        match y.held true ((rs.flatMap fun r => r.1.pieces r.2).map fun p => { p.a with x := { p.a.x with pa := p.pa } }) with
        | some t => .next t
        | none =>
          match y.missing false rs with
          | p :: ps => .next (y.fetchFor false false (p :: ps))
          | [] =>
            let vs : List (LaneX × Option (Word × Conds)) := es.map fun p => (p.1, p.2.bind (y.elemVal p.1))
            match vs.find? (fun v => v.2.isNone) with
            | some v => .next (y.trap { cls := .fmt, lane := v.1.lane, addr := BitVec.ofNat 64 v.1.va })
            | none =>
              match rs.findSome? fun r => y.poisoned false r.2 [r.1] with
              | some t => .next (y.poisonOut t)
              | none =>
                let x := y.x.took (rs.filterMap fun r => y.handAll false r.1 r.2)
                let y := { y.resync (y.reads y.s (rs.map (·.1))) with x := x }
                .next (y.commit (.ldf h o) (vs.filterMap fun (v : LaneX × Option (Word × Conds)) =>
                  v.2.map fun (r : Word × Conds) => (v.1.lane, Out.v32 o.d r.1 r.2)))

/-! ### Atomics and reductions (R316 to R320) -/

/-- The value that an operation writes (R317); n is 32 or 64. -/
def aopNew {n : Nat} (op : AOp) (old b c : BitVec n) : BitVec n :=
  let f (r : Res Nat) : BitVec n := BitVec.ofNat n r.val
  match op with
  | .add => old + b
  | .sub => old - b
  | .mins => if old.toInt ≤ b.toInt then old else b
  | .maxs => if old.toInt ≤ b.toInt then b else old
  | .minz => if old ≤ b then old else b
  | .maxz => if old ≤ b then b else old
  | .and => old &&& b
  | .or => old ||| b
  | .xor => old ^^^ b
  | .exch => b
  | .cas => if old = c then b else old
  | .inc => if b ≤ old then 0 else old + 1
  | .dec => if old = 0 ∨ b < old then b else old - 1
  | .addf => f (fadd .f32 .ne false (fval .f32 old.toNat) (fval .f32 b.toNat))
  | .minf => f (fminmax .f32 false false old.toNat b.toNat)
  | .maxf => f (fminmax .f32 true false old.toNat b.toNat)

/-- The same over 64-bit holders. -/
def aopW (op : AOp) (w64 : Bool) (old b c : DWord) : DWord :=
  if w64 then aopNew op old b c
  else (aopNew op (old.setWidth 32) (b.setWidth 32) (c.setWidth 32)).setWidth 64

/-- One read-modify-write, performed at time t, which is its A and its W (R273, R280, R320): the state and the old value. The
band's horizon takes t and, of an `atom`, the W of the value that it returns (R274). -/
def State.rmw (s : State) (k n va : Nat) (x : Xl) (op : AOp) (w64 red : Bool) (b c : DWord) (seq t : Nat) : State × DWord :=
  let sz := if w64 then 8 else 4
  let old := BitVec.ofNat 64 (leVal (s.rd x.kid x.pa sz))
  let new := aopW op w64 old b c
  match s.blk k with
  | none => (s, old)
  | some bk =>
    let w := if red then t else max t (s.home (lineOf x.pa)).w
    let s := s.poke x.kid x.pa t t (leBytes sz new.toNat)
    let v := (s.home (lineOf x.pa)).version
    let s := s.setCore bk.core ((s.core bk.core).l1Mod (lineOf x.pa) fun l =>
      if l.owned then (l.put x.pa (leBytes sz new.toNat)).wrote x.pa sz v else l)
    let s := s.setBlk k (bk.signWrite n (if red then 4 else 3) va (leBytes sz (if red then b.toNat else new.toNat)) seq)
    (s.modBand k n fun y => y.seen w, old)

/-- Performs the lanes of an atomic whose line the core owns, in ascending order (R280); the rest stay pending: for the
ownership of their line, or for the home that performs them (R281, R320). -/
def Iss.rmwLanes (y : Iss) (op : AOp) (w64 red : Bool) (bv cv : Nat → DWord) (s : State) (xs : List LaneX) :
    State × List PendLane :=
  xs.foldl (fun (s, ls) a =>
    if !a.x.sc && !a.x.nc && s.owns y.b.core (lineOf a.x.pa) then
      let r := s.rmw y.k y.n a.va a.x op w64 red (bv a.lane) (cv a.lane) (s.storeSeq y.k y.n) (s.now y.b.die)
      (r.1, ls ++ [⟨a.lane, BitVec.ofNat 64 a.va, a.x.pa, true, r.2.setWidth 128, a.x.kid⟩])
    else (s, ls ++ [⟨a.lane, BitVec.ofNat 64 a.va, a.x.pa, false, 0, a.x.kid⟩])) (s, [])

/-- The lanes of an atomic on pages with NC = 1 or SC = 1, as their homes take them: together for each line, and apart by SC and
NC, in ascending order (R280, R281, R301, R320). -/
def atomReqs (k n core op : Nat) (xs : List LaneX) : List AtomReq :=
  let far := (xs.mapIdx fun j a => ((j, a) : Nat × LaneX)).filter fun q => q.2.x.sc || q.2.x.nc
  let unit (a : LaneX) : Nat × Bool × Bool := (lineOf a.x.pa, a.x.nc, a.x.sc)
  ((far.map fun q => unit q.2).eraseDups).map fun u =>
    ⟨k, n, core, op, u.1, (far.filter fun q => unit q.2 == u).map fun q => ⟨q.1, q.2.va, q.2.x.pa, q.2.x.kid, q.2.x.attr⟩,
      u.2.1, u.2.2⟩

/-- Sends an atomic's lanes on pages with NC = 1 or SC = 1 to their homes (R281, R320). -/
def Iss.askAtom (y : Iss) (s : State) (op : Nat) (xs : List LaneX) : State :=
  (atomReqs y.k y.n y.b.core op xs).foldl (fun s r =>
    if r.sc then s.scSend y.b.core ⟨r.line, y.b.lid, some (y.k, y.n), .atomReq r⟩
    else s.send (coreRouter y.b.core) (s.homeRouter (128 * r.line)) .request y.b.lid (some (y.k, y.n)) (.atomReq r)) s

/-- The body of a TYPE 4 record (R446). -/
def atomBody (ls : List PendLane) : List DWord :=
  laneSet (ls.map (·.lane)) :: ls.map fun l => l.data.setWidth 64

/-- Asks for the ownership of the lines that an atomic still needs (R247). -/
def Iss.askOwn (y : Iss) (s : State) (xs : List LaneX) : State :=
  (linesOf (xs.filter fun a => !a.x.sc && !a.x.nc)).foldl (fun s line =>
    if s.owns y.b.core line then s
    else s.send (coreRouter y.b.core) (s.homeRouter (128 * line)) .request y.b.lid (some (y.k, y.n)) (.ownReq y.b.core line)) s

/-- Two lanes of one `atom` that overlap (R304 order 7): the lower lane is recorded. -/
def dupLane (sz : Nat) (xs : List LaneX) : Option LaneX :=
  xs.find? fun a => xs.any fun b => b.lane != a.lane && a.x.pa < b.x.pa + sz && b.x.pa < a.x.pa + sz

/-- The lines whose poison an atomic must know before it issues, so that a POISON is precise: those that the core does not own
and that their homes must first read from a stack or recall. -/
def Iss.coldAtoms (y : Iss) (sz : Nat) (xs : List LaneX) : List Piece :=
  ((xs.filter fun a => !y.s.owns y.b.core (lineOf a.x.pa)).flatMap fun a => a.pieces sz).filter fun p =>
    (y.came p).isNone && y.s.unsure y.b.core p.pa

/-- The first lane of an atomic that reads a poisoned line: what its bytes brought, or the line's mark; a later run by its
own view. -/
def Iss.poisonedAtom (y : Iss) (sz : Nat) (xs : List LaneX) : Option Trap :=
  (xs.find? fun a => if y.b.later then y.s.poisonFor y.b a.x.pa sz
    else ((y.came ⟨a, a.x.pa, sz⟩).map HeldData.psn).getD (y.s.poisonAt a.x.pa sz)).map fun a =>
    { cls := .poison, lane := a.lane, addr := BitVec.ofNat 64 a.va }

/-- The records that a later run's atomics enter in its signature (R450, R455). -/
def Iss.signAtoms (y : Iss) (s : State) (red : Bool) (sz : Nat) (val : LaneX → DWord) (xs : List LaneX) : State :=
  xs.foldl (fun s a => s.modBlk y.k fun k => k.signWrite y.n (if red then 4 else 3) a.va (leBytes sz (val a).toNat)) s

/-- An atomic of a later run: not performed, its results come from the log (R450). -/
def Iss.atomReplay (y : Iss) (i : Instr) (d : BitVec 8) (op : AOp) (w64 : Bool) (bv cv : Nat → DWord) (xs : List LaneX)
    (seq : State → State) : State :=
  match y.s.nextRec y.k y.n 4 with
  | none => y.s.depart y.k
  | some r =>
    if r.body.headD 0 ≠ laneSet y.ex then y.s.depart y.k
    else
      let ls := xs.mapIdx fun j a => (⟨a.lane, 0, a.x.pa, true, (r.body.getD (j + 1) 0).setWidth 128, 0⟩ : PendLane)
      let old (a : LaneX) : DWord := ((ls.find? fun l => l.lane == a.lane).map fun l => l.data.setWidth 64).getD 0
      let y := { y with x := { y.x with logPos := y.x.logPos + 1 } }
      let sz := if w64 then 8 else 4
      let y := y.resync (seq (y.signAtoms y.base false sz (fun a => aopW op w64 (old a) (bv a.lane) (cv a.lane)) xs))
      let y := { y with x := (y.b.band y.n).getD y.x }
      y.commit i (atomOuts d w64 ls)

/-- An atomic that is performed: what the core owns at once, the rest when the line or the home's reply comes. -/
def Iss.atomRun (y : Iss) (i : Instr) (d : BitVec 8) (op : AOp) (w64 red acq : Bool) (bv cv : Nat → DWord)
    (xs : List LaneX) (port : Option (Nat × List PushAt)) (seq : State → State) : State :=
  let (s, ls) := y.rmwLanes op w64 red bv cv y.base xs
  let at' (s : State) : Iss := let z := y.resync s; { z with x := (z.b.band y.n).getD y.x }
  let logged (s : State) : State := if red || xs.isEmpty then s else s.logRec y.k y.n 4 (atomBody ls)
  if ls.all (·.done) then
    if red then (at' (seq s)).finish (seq s) i [] else ((at' (seq s)).resync (logged (seq s))).commit i (atomOuts d w64 ls)
  else
    let id := s.serial
    let t := y.askAtom (y.askOwn (logged { s with serial := id + 1 }) xs) id xs
    (at' s).inFlight i (t.countMiss y.k y.n y.b 1)
      { id, kind := if red then .red op w64 else .atom op w64, d, lanes := ls,
        b := y.ex.map bv, c := y.ex.map cv, uncached := false, acq, tok := none } port

/-- The shared body of `atom` and `red` behind the ordering. -/
def Iss.atomic (y : Iss) (i : Instr) (base b : Src) (c : Option (BitVec 8)) (d : BitVec 8) (op : AOp) (w64 red acq : Bool)
    (disp : DWord) : Host.Outcome State Fault Refusal :=
  let sz := if w64 then 8 else 4
  let bv (l : Nat) : DWord := (y.env l).srcW w64 b
  let cv (l : Nat) : DWord := match c with
    | some r => (y.env l).vW w64 r
    | none => 0
  match y.reach .write sz (y.addrs base disp) with
  | .error e => .next (y.stop e)
  | .ok xs =>
    match regStop xs fun _ => false with
    | some r => .refused r
    | none =>
      match y.held false xs with
      | some t => .next t
      | none =>
        match if red then none else dupLane sz xs with
        | some a => .next (y.trap { cls := .atomdup, lane := a.lane, addr := BitVec.ofNat 64 a.va })
        | none =>
          match if y.b.later then [] else y.coldAtoms sz xs with
          | p :: ps => .next (y.fetchFor true false (p :: ps))
          | [] =>
            match y.poisonedAtom sz xs, y.portOk i y.s with
            | some t, _ => .next (y.poisonOut t)
            | none, .error t => .next (y.portStop t)
            | none, .ok port =>
              let y := y.resync (y.fills y.s xs)
              let seq (s : State) : State := if xs.isEmpty || port.isSome then s else s.nextStoreSeq y.k y.n
              if !y.b.later then .next (y.atomRun i d op w64 red acq bv cv xs port seq)
              else if red then .next (y.finish (seq (y.signAtoms y.base true sz (fun a => bv a.lane) xs)) i [])
              else if xs.isEmpty then .next (y.commit i [])
              else .next (y.atomReplay i d op w64 bv cv xs seq)

/-- The ordering of an atomic: whether it is an acquire, and the release before it (R280). -/
def aordOf (o : AOrd) : Bool × Option Scope :=
  match o with
  | .rlx => (false, none)
  | .acq _ => (true, none)
  | .rel sc => (false, some sc)
  | .ar sc => (true, some sc)

/-- Runs an atomic behind its release, if it has one. -/
def Iss.atomOrd (y : Iss) (o : AOrd) (f : Iss → Host.Outcome State Fault Refusal) : Host.Outcome State Fault Refusal :=
  match (aordOf o).2 with
  | some sc => y.ordered (lowest y.ex) .rel sc f
  | none => f y

/-- `atom` (R316 to R318). -/
def execAtom (h : Hdr) (o : Atom) (s : State) : Host.Outcome State Fault Refusal :=
  runO (.atom h o) s fun y => y.atomOrd o.ord fun y =>
    y.atomic (.atom h o) o.base o.b (if o.op == .cas then some o.c else none) o.d o.op o.w64 false (aordOf o.ord).1
      (o.disp.signExtend 64)

/-- `red` (R316, R319). -/
def execRed (h : Hdr) (o : Red) (s : State) : Host.Outcome State Fault Refusal :=
  runO (.red h o) s fun y => y.atomOrd o.ord fun y =>
    y.atomic (.red h o) o.base o.b none 0 o.op o.w64 true false (o.disp.signExtend 64)

/-! ### Fences and cache operations (R321 to R323) -/

/-- `fence` (R321). -/
def execFence (h : Hdr) (o : Fence) (s : State) : Host.Outcome State Fault Refusal :=
  runO (.fence h o) s fun y => y.ordered (lowest y.act) o.k o.sc fun y => .next (y.finish y.base (.fence h o) [])

/-- The lines that an operation names; an address that fails translation or permission is ignored (R322, R323). -/
def Iss.namedLines (y : Iss) (k : AKind) (as : List (Nat × Nat)) : List (Nat × Xl) :=
  as.filterMap fun p =>
    match y.s.xlate y.b.core y.b.asid y.b.sid p.2 with
    | .error _ => none
    | .ok x => if y.s.permOk y.b.fn y.x.inh k x && !isReg x.pa then some (lineOf x.pa, x) else none

/-- `linv` of one line: a leased copy goes (R323). -/
def Core.dropLeased (c : Core) (p : Nat → Bool) : Core := { c with l1 := c.l1.filter fun x => x.owned || !p x.line }

/-- `lflush` of an owned line (R323): written back if it has been written, and dropped. The write-back counts among the
band's stores until its home has it (R279). -/
def State.flushOwned (s : State) (core k n lid : Nat) (p : Nat → Bool) : State :=
  ((s.core core).l1.filter fun x => x.owned && p x.line).foldl (fun s x =>
    if x.dirty then (s.giveUp core lid (some (k, n)) x).modBand k n fun y => { y with storesOut := y.storesOut + 1 }
    else s.giveUp core lid none x) s

/-- The lines that `linv` and `lflush` act on. -/
def Iss.lineSel (y : Iss) (l : LineSel) : Nat → Bool :=
  match l with
  | .all => fun _ => true
  | .lines a => fun n => (y.namedLines .read (y.addrs a 0)).any fun q => q.1 == n

/-- `linv` (R323). -/
def execLinv (h : Hdr) (l : LineSel) (s : State) : Host.Outcome State Fault Refusal :=
  run (.linv h l) s fun y =>
    let s := y.base
    y.finish (if y.ex.isEmpty then s else s.setCore y.b.core ((s.core y.b.core).dropLeased (y.lineSel l))) (.linv h l) []

/-- `lflush` (R323). -/
def execLflush (h : Hdr) (l : LineSel) (s : State) : Host.Outcome State Fault Refusal :=
  run (.lflush h l) s fun y =>
    let s := y.base
    y.finish (if y.ex.isEmpty then s
      else (s.setCore y.b.core ((s.core y.b.core).dropLeased (y.lineSel l))).flushOwned y.b.core y.k y.n y.b.lid (y.lineSel l))
      (.lflush h l) []

/-- What `prf` asks for a line (R322): its ownership, a lease, or nothing. -/
def Iss.prefetch (y : Iss) (own : Bool) (s : State) (q : Nat × Xl) : State :=
  if q.2.nc || q.2.sc then s
  else if own && q.2.w then
    if s.owns y.b.core q.1 then s
    else s.send (coreRouter y.b.core) (s.homeRouter (128 * q.1)) .request y.b.lid (some (y.k, y.n)) (.ownReq y.b.core q.1)
  else if (s.l1Valid y.b.core q.1).isSome then s
  else y.askLine s s.serial false false q.2 q.1

/-- `prf` (R322): requests without a waiting access. -/
def execPrf (h : Hdr) (o : Prf) (s : State) : Host.Outcome State Fault Refusal :=
  run (.prf h o) s fun y =>
    let ls := y.namedLines .read (y.addrs o.base (o.disp.signExtend 64))
    let ls := (ls.map (·.1)).eraseDups.filterMap fun l => ls.find? fun q => q.1 == l
    y.finish (ls.foldl (y.prefetch o.own) y.base) (.prf h o) []

/-! ### Watched loads (R283 to R289, R314, R315) -/

/-- The body of `ldw`: with too few free entries it is a relaxed `ld` (R284). -/
def Iss.loadWatched (y : Iss) (i : Instr) (o : Ldw) (xs : List LaneX) : State :=
  y.loadFrom i o.sz o.d false false (y.x.watch.length + (linesOf xs).length ≤ y.x.watchCap) xs

/-- `ldw` (R314). -/
def execLdw (h : Hdr) (o : Ldw) (s : State) : Host.Outcome State Fault Refusal :=
  runO (.ldw h o) s fun y =>
    match y.reach .read (lsizeBytes o.sz) (y.addrs o.base (o.disp.signExtend 64)) with
    | .error e => .next (y.stop e)
    | .ok xs =>
      match regStop xs fun _ => false with
      | some r => .refused r
      | none => .next (y.loadWatched (.ldw h o) o xs)

/-- The watch table at a `chk` (R287): expired confirmations count as struck (R286). -/
def chkStruck (w : List WatchEnt) (now : Nat) : Bool :=
  w.any fun e => e.st == .struck || (e.st == .confirmed && decide (e.ec ≤ now + 2))

/-- `chk` (R287, R315). -/
def execChk (h : Hdr) (off : Word) (s : State) : Host.Outcome State Fault Refusal :=
  run (.chk h off) s fun y =>
    if y.ex.isEmpty then y.finish y.base (.chk h off) []
    else if off.extractLsb' 0 2 ≠ 0 then
      y.trap { cls := .fetchalign, cause := 1, lane := lowest y.ex, addr := y.pc + off.signExtend 64 }
    else if y.x.watch.any (fun e => e.st == .unresolved) then y.s.blockLanes y.k y.n y.act .watch
    else
      let struck := y.b.sid.isNone && chkStruck y.x.watch (y.s.now y.b.die)
      let y := { y with x := { y.x with watch := [] } }
      y.finish y.base (.chk h off) (if struck then y.ex.map fun l => (l, y.pc + off.signExtend 64) else [])

/-! ### The range commit (R260, R261, R324, R325) -/

/-- Whether no access of a context is outstanding: what issued before a commit completes before it does (R261): the bands'
own accesses, pushes and remote operations, and the copies that have been accepted. -/
def State.ctxQuiet (s : State) (asid : Nat) : Bool :=
  s.blocks.all fun p => p.2.asid != asid
    || (p.2.copies.isEmpty && p.2.bands.all fun x => x.settled && x.pushesOut.isEmpty && x.rmtCnt == 0)

/-- Reserved fields of a range set (R260, R325): those that the rule marks reserved. Bits 7 and 15:14 of ATTR, which must be
zero in a leaf and have no effect in a range, are not among them. DESIGN CHOICE (log entry 75). -/
def rangeOk (r : RangeSet) : Bool :=
  r.rngb.extractLsb' 1 15 == 0 && r.rngb.extractLsb' 57 7 == 0 && r.rngl.extractLsb' 0 16 == 0
    && r.rngl.extractLsb' 57 7 == 0 && r.rngp.extractLsb' 58 6 == 0

/-- A range set from the words that a commit has read. -/
def Iss.rangeAt (y : Iss) (xs : List LaneX) : RangeSet :=
  let w (j : Nat) : DWord := ((xs[j]?.bind fun a => y.handAll false a 8).map fun h => BitVec.ofNat 64 (leVal h.bs)).getD 0
  ⟨w 0, w 1, w 2⟩

/-- The address of word j of set k. -/
def rangeWords (t k : Nat) : List Nat := [(t + 24 * k) % 2 ^ 64, (t + 24 * k + 8) % 2 ^ 64, (t + 24 * k + 16) % 2 ^ 64]

/-- The sets after a commit under a mask. -/
def commitRanges (old : List RangeSet) (mask : Word) (new : Nat → RangeSet) : List RangeSet :=
  (List.range 32).map fun k => if mask.getLsbD k then new k else old.getD k {}

/-- `rng.commit` (R324, R325): its reads meet the checks of R304. -/
def execRngCommit (h : Hdr) (o : RngCommit) (s : State) : Host.Outcome State Fault Refusal :=
  runO (.rngCommit h o) s fun y =>
    if y.ex.isEmpty then .next (y.finish y.base (.rngCommit h o) [])
    else
      let l := lowest y.act
      let t := (y.x.u64 o.a.toNat).toNat
      if t % 8 ≠ 0 then .next (y.trap { cls := .align, lane := l, addr := BitVec.ofNat 64 t })
      else
        let ks := (List.range 32).filter fun k => o.mask.getLsbD k
        match y.s.xlateAll y.b.core y.b.asid y.b.fn y.b.sid y.x.inh .read
            (ks.flatMap fun k => (rangeWords t k).map fun a => (l, a)) with
        | .error e => .next (y.stop e)
        | .ok xs =>
          match regStop xs fun _ => false, y.held true xs, y.missing false (xs.map fun a => (a, 8)) with
          | some r, _, _ => .refused r
          | none, some u, _ => .next u
          | none, none, p :: ps => .next (y.fetchFor false false (p :: ps))
          | none, none, [] =>
            match y.poisoned false 8 xs with
            | some e => .next (y.poisonOut e)
            | none =>
              let set (k : Nat) : RangeSet := y.rangeAt (xs.filter fun a => (rangeWords t k).contains a.va)
              match ks.find? fun k => !rangeOk (set k) with
              | some k => .next (y.trap { cls := .perm, lane := l, addr := BitVec.ofNat 64 ((t + 24 * k) % 2 ^ 64) })
              | none =>
                if !y.s.ctxQuiet y.b.asid then .next y.s
                else
                  let x := y.x.took (xs.filterMap fun a => y.handAll false a 8)
                  let s := ({ y with s := y.reads y.s xs, x := x } : Iss).base
                  .next (y.finish { s with ctxs := tmod s.ctxs y.b.asid fun c =>
                    { c with ranges := commitRanges c.ranges o.mask set } } (.rngCommit h o) [])

end Sys2Proof.Machine
end

