-- ==== Sys2Proof/Machine/Fetch.lean ====
section
/-! DEFINITION. Fetching an instruction's bytes (R32, R43 to R45, R263, R268). -/

namespace Sys2Proof.Machine

open Sys2Proof

/-- What a fetch finds. -/
inductive Fetched where
  | bytes (w : BitVec 128)
  | trap (t : Trap)
  | loan (sid : Nat)
  /-- The address is a device register's, of which the spec gives no layout. -/
  | reg (pa : Nat)
  deriving DecidableEq, Repr

/-- The translation of a fetch: X, and PV needs privileged mode (R263). -/
def State.fetchXl (s : State) (b : Block) (priv : Bool) (pc : DWord) (lane : Nat) : Except Stop Xl :=
  match s.xlateAll b.core b.asid b.fn b.sid priv .fetch [(lane, pc.toNat)] with
  | .error t => .error t
  | .ok [a] => .ok a.x
  | .ok _ => .error (.trap { cls := .perm, lane, addr := pc })

/-- The instruction's bytes at a program counter, in the order of R68: the first word's fault, LEN = 3, the
window. Bytes beyond the instruction read as zero. -/
def State.fetch (s : State) (b : Block) (priv : Bool) (pc : DWord) (lane : Nat) : Fetched :=
  match s.fetchXl b priv pc lane with
  | .error (.trap t) => .trap t
  | .error (.loan i) => .loan i
  | .ok x =>
    if isReg x.pa then .reg x.pa
    else
    match s.blockLoan b 0 false x.pa with
    | some i => .loan i
    | none =>
      let len := (s.rdByte x.kid x.pa).toNat % 4
      if len = 3 then .trap { cls := .illop, lane }
      else if 32 < pc.toNat % 32 + (8 + 4 * len) then .trap { cls := .fetchalign, lane, addr := pc }
      else .bytes (BitVec.ofNat 128 (leVal (s.rd x.kid x.pa (8 + 4 * len))))

end Sys2Proof.Machine
end

