-- ==== Sys2Proof/Machine/System.lean ====
section
/-! DEFINITION. Group 14: software traps, return from the handler, control registers, context save, TLB and
memory upkeep, migration (R403 to R424). -/

namespace Sys2Proof.Machine

open Sys2Proof

/-- Runs an instruction that acts once for its band, when a lane participates (R412). -/
def runOnce (i : Instr) (s : State) (f : Iss → State) : Host.Outcome State Fault Refusal :=
  run i s fun y => if y.ex.isEmpty then y.finish y.base i [] else f y

/-- `sys` (R414). -/
def execSys (h : Hdr) (n : BitVec 8) (s : State) : Host.Outcome State Fault Refusal :=
  runOnce (.sys h n) s fun y => y.trap { cls := .sys, cause := n.toNat, lane := lowest y.act }

/-- `trap` (R414): the Fail path. -/
def execTrap (h : Hdr) (n : BitVec 8) (s : State) : Host.Outcome State Fault Refusal :=
  runOnce (.trap h n) s fun y => y.trap { cls := .sys, cause := n.toNat, lane := lowest y.act, fail := true }

/-- `brk` (R414, R432): the handler, or a halt of the band, which resumes after it. -/
def execBrk (h : Hdr) (n : BitVec 8) (s : State) : Host.Outcome State Fault Refusal :=
  runOnce (.brk h n) s fun y =>
    if y.s.dbg y.b 0 && y.x.dbgctl.getLsbD 0 then
      (y.finish y.base (.brk h n) []).modBand y.k y.n fun x => { x with halted := true, issues := y.x.issues }
    else y.trap { cls := .brk, cause := n.toNat, lane := lowest y.act }

/-- The target of `rte.skip`: past the instruction at TEPC, whose LEN a fetch reads (R415). -/
def Iss.skipTarget (y : Iss) : Fetched :=
  match y.s.fetchXl y.b true y.x.tepc (lowest y.act) with
  | .error (.trap t) => .trap t
  | .error (.loan i) => .loan i
  | .ok x =>
    if isReg x.pa then .reg x.pa
    else
    match y.s.blockLoan y.b 0 false x.pa with
    | some i => .loan i
    | none =>
    let len := (y.s.rdByte x.kid x.pa).toNat % 4
    if len = 3 then .trap { cls := .illop, lane := lowest y.act }
    else .bytes ((y.x.tepc + BitVec.ofNat 64 (8 + 4 * len)).setWidth 128)

/-- A band that halts at a boundary takes first the asynchronous trap that is due there (R404, orders 1 to 3). -/
def State.haltTake (s : State) (k n : Nat) : State :=
  match (s.blk k).bind fun b => b.band n with
  | none => s
  | some x =>
    if x.halted && x.dueTrap.isSome then
      (((s.modBand k n fun x => { x with halted := false }).takeDue k n).map fun t =>
        t.modBand k n fun x => { x with halted := true }).getD s
    else s

/-- Leaves the handler (R415). -/
def Iss.leave (y : Iss) (i : Instr) (target : DWord) : State :=
  ((y.finish y.base i []).modBand y.k y.n fun x => x.rte target).haltTake y.k y.n

/-- `rte` (R415). A fault of the skip's fetch is a trap inside the handler, PAGE apart. -/
def execRte (h : Hdr) (skip : Bool) (s : State) : Host.Outcome State Fault Refusal :=
  runO (.rte h skip) s fun y =>
    if y.ex.isEmpty then .next (y.finish y.base (.rte h skip) [])
    else if skip && !y.x.tstat.getLsbD 25 then
      match y.skipTarget with
      | .trap t => .next (y.trap t)
      | .loan i => .next (y.s.blockLanes y.k y.n y.act (.loan i y.s.time))
      | .reg pa => .refused (.deviceRegister pa)
      | .bytes w => .next (y.leave (.rte h skip) (w.setWidth 64))
    else .next (y.leave (.rte h skip) y.x.tepc)

/-- `halt` (R416). -/
def execHalt (h : Hdr) (fail : Bool) (s : State) : Host.Outcome State Fault Refusal :=
  runOnce (.halt h fail) s fun y =>
    if fail || !y.s.dbg y.b 2 then
      y.s.failGrid y.b.lid 4 (flogRecord 2 0 0 (y.s.lidField y.b.lid) y.b.bx y.b.by' y.b.bz y.n (y.x.tstat.toNat % 2 ^ 24)
        y.x.taddr.toNat)
    else (y.finish y.base (.halt h fail) []).modBand y.k y.n fun x => { x with halted := true }

/-- Whether the executing die meets the target of `migr`, and the profile that it asks for (R422). -/
def Block.migrGoal (b : Block) (t : MTgt) : Bool × Bool :=
  match t with
  | .annex => (isAnnex b.die, true)
  | .gallery => (!isAnnex b.die, false)
  | .home => (b.die == b.ldie, isAnnex b.ldie)

/-- `migr` (R422, R450): the block stops for its move, and resumes at the next instruction. -/
def execMigr (h : Hdr) (t : MTgt) (s : State) : Host.Outcome State Fault Refusal :=
  runOnce (.migr h t) s fun y =>
    let g := y.b.migrGoal t
    let i : Instr := .migr h t
    let pinned := match y.s.grid y.b.lid with
      | some gr => gr.pkt.pin && gr.pkt.prefersA != g.2
      | none => false
    if y.b.later then
      match y.s.nextRec y.k y.n 6 with
      | none => y.finish y.base i []
      | some _ =>
        let y := { y with x := { y.x with logPos := y.x.logPos + 1 } }
        (y.finish y.base i []).stopBlock y.k false (some g.2)
    else if g.1 then y.finish y.base i []
    else if pinned then y.s.failTrap y.k y.n { cls := .migr, lane := lowest y.act }
    else ((y.finish (y.base.logRec y.k y.n 6 [if g.2 then 1 else 0]) i []).modBlk y.k fun b => { b with
        mover := some (y.n, { cls := .migr, lane := lowest y.act }) }).stopBlock y.k false (some g.2)

/-! ### Control registers (R406, R413) -/

/-- CPOOL of a core (R236). -/
def Core.cpool (c : Core) : Word := BitVec.ofNat 32 (c.vend + c.send * 2 ^ 8 + c.lend * 2 ^ 16)

/-- The bits of DBGCTL that DBGEN lets be set (R427). -/
def dbgctlMask (dbgen : Word) : Word :=
  (if dbgen.getLsbD 0 then 1 else 0) ||| (if dbgen.getLsbD 1 then 2 else 0) ||| (if dbgen.getLsbD 4 then 4 else 0)

/-- The value of a control register (R406); a closed facility's register or field reads 0 (R427, R430). -/
def State.csrVal (s : State) (b : Block) (x : Band) (num : Nat) : DWord :=
  let w (v : Word) : DWord := v.setWidth 64
  if num = 0x001 then w x.fstat
  else if num = 0x002 then w x.bctl
  else if num = 0x003 then w x.ilcnt
  else if num = 0x010 then w (s.core b.core).cpool
  else if num = 0x020 then w x.tstat
  else if num = 0x021 then x.tepc
  else if num = 0x022 then x.taddr
  else if num = 0x023 then x.tmask
  else if num = 0x024 then w x.tinfo
  else if num = 0x025 then b.hbase
  else if num = 0x026 then w b.migcnt
  else if 0x030 ≤ num ∧ num ≤ 0x033 then w (x.tscr.getD (num - 0x030) 0)
  else if num = 0x040 then w (((s.ctx b.asid).map Ctx.dbgen).getD 0)
  else if num = 0x041 then w (x.dbgctl &&& dbgctlMask (((s.ctx b.asid).map Ctx.dbgen).getD 0))
  else if num = 0x042 then (if s.dbg b 3 then w x.pctl else 0)
  else if 0x044 ≤ num ∧ num ≤ 0x047 then (if s.dbg b 3 && b.sid.isNone then x.pcnt.getD (num - 0x044) 0 else 0)
  else 0

/-- A write to a control register: only its writable fields change (R11, R413). -/
def Band.csrPut (x : Band) (dbgen : Word) (num : Nat) (v : DWord) : Band :=
  let w : Word := v.setWidth 32
  let prof := dbgen.getLsbD 3
  if num = 0x001 then { x with fstat := w &&& 0x33F }
  else if num = 0x002 then { x with bctl := w &&& 1 }
  else if num = 0x003 then { x with ilcnt := w }
  else if num = 0x021 then { x with tepc := v &&& ~~~(3 : DWord) }
  else if 0x030 ≤ num ∧ num ≤ 0x033 then { x with tscr := setAt x.tscr (num - 0x030) w }
  else if num = 0x041 then { x with dbgctl := w &&& dbgctlMask dbgen }
  else if num = 0x042 then (if prof then { x with pctl := w } else x)
  else if 0x044 ≤ num ∧ num ≤ 0x047 then (if prof then { x with pcnt := setAt x.pcnt (num - 0x044) v } else x)
  else x

/-- `csr.rd` (R413). -/
def execCsrRd (h : Hdr) (o : CsrRd) (s : State) : Host.Outcome State Fault Refusal :=
  runBand (.csrRd h o) s fun y =>
    y.ex.map fun l => (l, .dst o.d (csrWide o.num) (y.s.csrVal y.b y.x o.num.toNat))

/-- `csr.wr` (R413): the value of the lowest participating lane. -/
def execCsrWr (h : Hdr) (o : CsrWr) (s : State) : Host.Outcome State Fault Refusal :=
  run (.csrWr h o) s fun y =>
    let dbgen := ((y.s.ctx y.b.asid).map Ctx.dbgen).getD 0
    let x := if y.ex.isEmpty then y.x
      else y.x.csrPut dbgen o.num.toNat ((y.env (lowest y.ex)).srcW (csrWide o.num) o.a)
    { y with x := x }.finish { y with x := x }.base (.csrWr h o) []

/-! ### Context save and restore (R417, R420) -/

/-- The pieces of a band record that `ctx.save` writes: offset and bytes, none across a line (R417, R420). -/
def Band.ctxBytes (x : Band) (v : Nat) : List (Nat × List Byte) :=
  let w := x.lanes.length
  let preds := (List.range 64).map fun l => if l < w then (x.lane l).preds.setWidth 8 else 0
  let uni := (List.range 64).map fun r => leBytes 4 (x.u r).toNat
  let vec := (List.range v).flatMap fun r => (List.range w).map fun l => leBytes 4 ((x.lane l).v r).toNat
  [(0x240, preds), (0x280, (uni.take 32).flatten), (0x300, (uni.drop 32).flatten), (0x3C0, leBytes 4 x.fstat.toNat)]
    ++ (List.range (v * w * 4 / 32)).map fun j => (0x1180 + 32 * j, ((vec.drop (8 * j)).take 8).flatten)

/-- Translates the pieces of a band record at T (R417). -/
def Iss.ctxReach (y : Iss) (k : AKind) (t : Nat) (ps : List (Nat × List Byte)) :
    Except Stop (List LaneX) :=
  let l := lowest y.act
  if t % 128 ≠ 0 then .error (.trap { cls := .align, lane := l, addr := BitVec.ofNat 64 t })
  else y.s.xlateAll y.b.core y.b.asid y.b.fn y.b.sid y.x.inh k (ps.map fun p => (l, (t + p.1) % 2 ^ 64))

/-- `ctx.save` (R417). -/
def execCtxSave (h : Hdr) (a : BitVec 6) (s : State) : Host.Outcome State Fault Refusal :=
  runO (.ctxSave h a) s fun y =>
    let ps := y.x.ctxBytes y.b.vregs
    if y.ex.isEmpty then .next (y.finish y.base (.ctxSave h a) [])
    else
      match y.ctxReach .write (y.x.u64 a.toNat).toNat ps with
      | .error e => .next (y.stop e)
      | .ok xs =>
        match regStop xs fun _ => false, (y.held false xs).or (y.full xs) with
        | some r, _ => .refused r
        | none, some u => .next u
        | none, none =>
          let s := (y.fills y.base xs).storeAll y.k y.n 0 (y.s.storeSeq y.k y.n) false (fun _ => false) none
            ((xs.zip ps).map fun q => ⟨q.1.va, q.1.x, q.2.2⟩)
          .next (y.finish (s.nextStoreSeq y.k y.n) (.ctxSave h a) [])

/-- The register writes that a saved record gives (R417). -/
def ctxOuts (w v u : Nat) (bs : List (List Byte)) : List (Nat × Out) :=
  let all := (bs.drop 4).flatten
  let word (l : List Byte) (j : Nat) : Word := BitVec.ofNat 32 (leVal ((l.drop (4 * j)).take 4))
  let preds := bs.headD []
  let uni := (bs.drop 1).headD [] ++ (bs.drop 2).headD []
  (List.range w).map fun l =>
    (l, { v := (List.range v).map fun r => (r, word all (r * w + l))
          u := if l = 0 then (List.range u).map fun r => (r, word uni r) else []
          p := (List.range 7).map fun j => (j, (preds.getD l 0).getLsbD j) })

/-- `ctx.rest` (R417). -/
def execCtxRest (h : Hdr) (a : BitVec 6) (s : State) : Host.Outcome State Fault Refusal :=
  runO (.ctxRest h a) s fun y =>
    let ps := y.x.ctxBytes y.b.vregs
    if y.ex.isEmpty then .next (y.finish y.base (.ctxRest h a) [])
    else
      match y.ctxReach .read (y.x.u64 a.toNat).toNat ps with
      | .error e => .next (y.stop e)
      | .ok xs =>
        let rs := (xs.zip ps).map fun q => (q.1, q.2.2.length)
        match regStop xs fun _ => false, y.held true xs, y.missing false rs with
        | some r, _, _ => .refused r
        | none, some u, _ => .next u
        | none, none, p :: qs => .next (y.fetchFor false false (p :: qs))
        | none, none, [] =>
          match rs.findSome? fun r => y.poisoned false r.2 [r.1] with
          | some t => .next (y.poisonOut t)
          | none =>
            let hs := rs.filterMap fun r => y.handAll false r.1 r.2
            let bs := hs.map AtHand.bs
            let fs : Word := BitVec.ofNat 32 (leVal ((bs.drop 3).headD [])) &&& 0x33F
            let x := ({ y.x with fstat := fs } : Band).took hs
            let y := { y with s := y.reads y.s xs, x := x }
            .next (y.finish (y.putOuts (ctxOuts y.x.lanes.length y.b.vregs y.b.uregs bs)) (.ctxRest h a) [])

/-! ### TLB upkeep and scrubbing (R418) -/

/-- The identifiers of a partition's resident contexts (R266, R418). -/
def State.asidsOf (s : State) (fn : Nat) : List Nat := (s.ctxs.filter fun p => p.2.fn == fn).map (·.1)

/-- Drops TLB entries everywhere. -/
def State.tlbDrop (s : State) (p : TlbEnt → Bool) : State :=
  { s with
    cores := s.cores.map fun c => (c.1, { c.2 with tlb := c.2.tlb.filter fun e => !p e })
    dieTlb := s.dieTlb.map fun d => (d.1, d.2.filter fun e => !p e) }

/-- The identifiers that a `tlbinv` names, and the entries that it covers. -/
def Iss.tlbSel (y : Iss) (k : TKind) : List Nat × (TlbEnt → Bool) :=
  let id (r : BitVec 6) : Nat := ((y.x.u r.toNat).extractLsb' 0 14).toNat
  match k with
  | .all => (y.s.asidsOf y.b.fn, fun e => (y.s.asidsOf y.b.fn).contains e.asid)
  | .asid r => ([id r], fun e => e.asid == id r)
  | .va a r => ([id r], fun e => e.covers (id r) (y.x.u64 a.toNat).toNat)

/-- `tlbinv` (R418): it waits until the accesses translated with the entries have completed. -/
def execTlbinv (h : Hdr) (k : TKind) (s : State) : Host.Outcome State Fault Refusal :=
  runOnce (.tlbinv h k) s fun y =>
    let sel := y.tlbSel k
    if sel.1.any (fun a => !(y.s.asidsOf y.b.fn).contains a) then y.trap { cls := .perm, lane := lowest y.act }
    else if sel.1.any (fun a => !y.s.ctxQuiet a) then y.s
    else y.finish (y.base.tlbDrop sel.2) (.tlbinv h k) []

/-- `scrub` (R418): one 128-byte store of zeros for each distinct line. -/
def execScrub (h : Hdr) (a : Src) (s : State) : Host.Outcome State Fault Refusal :=
  runO (.scrub h a) s fun y =>
    let as := ((y.addrs a 0).map fun p => (p.1, p.2 / 128 * 128))
    match y.s.xlateAll y.b.core y.b.asid y.b.fn y.b.sid y.x.inh .write as with
    | .error e => .next (y.stop e)
    | .ok xs =>
      match regStop xs fun _ => false, (y.held false xs).or (y.full xs) with
      | some r, _ => .refused r
      | none, some u => .next u
      | none, none =>
        let zs : List StorePart := (linesOf xs).filterMap fun line =>
          (xs.find? fun q => lineOf q.x.pa == line).map fun q => ⟨q.va, q.x, List.replicate 128 0⟩
        let s := (y.fills y.base xs).storeAll y.k y.n 0 (y.s.storeSeq y.k y.n) false (fun _ => true) none zs
        .next (y.finish (if xs.isEmpty then s else s.nextStoreSeq y.k y.n) (.scrub h a) [])

end Sys2Proof.Machine
end

