-- ==== Sys2Proof/Machine/Copy.lean ====
section
/-! DEFINITION. Group 12 and the copy engines: waits on counters, stage rings, copies, collective copies and
plane-tensor copies, their segments and their completion (R339 to R353, R367 to R383). -/

namespace Sys2Proof.Machine

open Sys2Proof

/-! ### Waits of participating lanes (R369, R370) -/

/-- Blocks the participating lanes at their instruction, which has issued; the other active lanes go on (R370). The
instruction counts as completed once its lanes leave the wait (R446). -/
def Iss.waitLanes (y : Iss) (i : Instr) (w : Wait) : State :=
  (y.finish y.base i []).modBand y.k y.n fun x =>
    { x.modLanes y.ex (fun _ l => { l with pc := y.pc, st := .blocked w }) with issues := y.x.issues }

/-- A trap of an instruction that acts once for its band (R406, LANE). -/
def Iss.once (y : Iss) (c : TrapClass) (cause : Nat := 0) (opnd : Nat := 0) (addr : DWord := 0) : Trap :=
  { cls := c, cause, lane := lowest y.act, opnd, addr }

/-- The counter of a class (R290). -/
def Band.counter (x : Band) (c : CCls) : Nat :=
  match c with
  | .cpy => x.cpyOut.length
  | .mma => x.mmaOut.length
  | .strm => x.pushesOut.length
  | .rmt => x.rmtCnt

/-- Counts an operation off once every older one of its class has completed (R290). -/
def countOff (q : List (Nat × Bool)) (id : Nat) : List (Nat × Bool) :=
  (q.map fun p => if p.1 = id then (id, true) else p).dropWhile fun p => p.2

/-- `waitc` (R370); on Teray-A a matrix wait that would block is MIGR, cause 1 (R424). -/
def execWaitc (h : Hdr) (o : Waitc) (s : State) : Host.Outcome State Fault Refusal :=
  run (.waitc h o) s fun y =>
    if y.ex.isEmpty || y.x.counter o.cls ≤ o.thr.toNat then y.finish y.base (.waitc h o) []
    else if o.cls = .mma ∧ isAnnex y.b.die = true then y.s.migrate y.k y.n false (y.once .migr 1)
    else y.waitLanes (.waitc h o) (.count o.cls o.thr.toNat)

/-! ### Stage rings (R348 to R350, R380 to R383) -/

/-- The offset of a slot in the block's own window (R348). -/
def Ring.slotAt (t : Ring) (q : Word) : Nat := t.base + q.toNat % t.s * (256 * t.z)

def Block.modRing (b : Block) (r : Nat) (f : Ring → Ring) : Block := { b with rings := modAt b.rings r f }

/-- A copy of slot number q has completed: FILL advances in reservation order (R349). -/
def Ring.fillUp (t : Ring) : Nat → Ring
  | 0 => t
  | n + 1 =>
    if t.done.contains t.fill.toNat then
      { t with fill := t.fill + 1, done := t.done.filter (· != t.fill.toNat) }.fillUp n
    else t

def Ring.complete (t : Ring) (q : Word) : Ring :=
  let t := { t with done := t.done ++ [q.toNat] }
  t.fillUp t.done.length

/-- `ring.wait` (R350, R382). -/
def execRingWait (h : Hdr) (o : RingWait) (s : State) : Host.Outcome State Fault Refusal :=
  run (.ringWait h o) s fun y =>
    let t := y.b.ring o.r.toNat
    if y.ex.isEmpty then y.finish y.base (.ringWait h o) []
    else if t.s ≤ o.k.toNat then y.trap (y.once .fmt)
    else if t.past (t.rel + o.k.setWidth 32) then y.finish y.base (.ringWait h o) []
    else y.waitLanes (.ringWait h o) (.ring o.r.toNat o.k.toNat)

/-- `ring.rel` (R350, R383): a release at block scope. -/
def execRingRel (h : Hdr) (o : RingRel) (s : State) : Host.Outcome State Fault Refusal :=
  run (.ringRel h o) s fun y =>
    let t := y.b.ring o.r.toNat
    if y.ex.isEmpty then y.finish y.base (.ringRel h o) []
    else if t.fill = t.rel then y.trap (y.once .barbusy)
    else
      y.released .rel .blk (y.finish (y.base.modBlk y.k fun b => b.modRing o.r.toNat fun t => { t with rel := t.rel + 1 })
        (.ringRel h o) [])

/-- Whether a lane of the block is blocked on a ring. -/
def Block.ringWaited (b : Block) (r : Nat) : Bool :=
  b.bands.any fun x => x.lanes.any fun l => match l.st with
    | .blocked (.ring r' _) => r' == r
    | _ => false

def PredSt.onRing (p : PredSt) (r : Nat) : Bool :=
  match p with
  | .ring r' _ => r' == r
  | _ => false

/-- `ring.init` (R350, R381). -/
def execRingInit (h : Hdr) (o : RingInit) (s : State) : Host.Outcome State Fault Refusal :=
  run (.ringInit h o) s fun y =>
    let r := o.r.toNat
    let t := y.b.ring r
    if y.ex.isEmpty then y.finish y.base (.ringInit h o) []
    else if y.b.window < o.base.toNat + o.slots.toNat * (256 * o.z.toNat) then y.trap (y.once .perm)
    else if t.rsv ≠ t.rel ∨ y.b.ringWaited r = true ∨ (y.b.cmds.any fun c => c.p0.onRing r || c.p1.onRing r) = true then
      y.trap (y.once .barbusy)
    else
      y.finish (y.base.modBlk y.k fun b => b.modRing r fun _ =>
        { s := o.slots.toNat, base := o.base.toNat, z := o.z.toNat }) (.ringInit h o) []

/-! ### Tile descriptors (R353, R354) -/

namespace TileD
def f (d : TileD) (lo n : Nat) : Nat := d.bits.toNat / 2 ^ lo % 2 ^ n
def addr (d : TileD) : Nat := d.f 0 26
def lines (d : TileD) : Nat := d.f 32 7
def kb (d : TileD) : Nat := d.f 40 8
def k (d : TileD) : Nat := d.f 48 4 + 1
def sp (d : TileD) : Bool := d.f 52 1 == 1
def rv (d : TileD) : Bool := d.f 53 1 == 1
def rn (d : TileD) : Nat := d.f 54 3
def saddr (d : TileD) : Nat := d.f 64 26
/-- Whether every reserved field is zero. -/
def reservedZero (d : TileD) : Bool := d.f 26 6 == 0 && d.f 39 1 == 0 && d.f 57 7 == 0 && d.f 90 38 == 0
/-- The bytes of a group (R352). -/
def group (d : TileD) : Nat := if d.sp then 8 * d.k else 8 * d.k + 8
/-- The bytes of all groups. -/
def bytes (d : TileD) : Nat := d.lines * d.kb * d.group
end TileD

namespace TileR
def group (t : TileR) : Nat := if t.sp then 8 * t.k else 8 * t.k + 8
/-- Where group (i, j) lies, and its scale (R352). -/
def groupAt (t : TileR) (g : Nat) : Nat := t.addr + g * t.group
def scaleAt (t : TileR) (g : Nat) : Nat := if t.sp then t.saddr + 2 * g else t.groupAt g + 8 * t.k
end TileR

/-- The scratchpad address of an offset in the block's own window (R445). -/
def State.ownAddr (s : State) (b : Block) (off : Nat) : Nat := s.ownRank b * 2 ^ 20 + off

/-- The tensor of a descriptor; under RV its groups start in a slot that lies at an offset of the own window. -/
def State.resolve (s : State) (b : Block) (d : TileD) (slot : Nat) : TileR :=
  { own := d.rv
    addr := if d.rv then s.ownAddr b (slot + d.addr % 2 ^ 20) else d.addr
    lines := d.lines, kb := d.kb, k := d.k, sp := d.sp, saddr := d.saddr }

/-- R354, order 1, without the need of a predecessor, for a band that makes the check at an issue count: under RV the rank
is the one that its `sr.core` would return (R353). -/
def State.tileFmt (s : State) (b : Block) (n issue : Nat) (d : TileD) : Bool :=
  d.lines = 0 || 64 < d.lines || d.kb = 0 || d.k < 2 || !d.reservedZero
    || (d.rv && (b.ringN ≤ d.rn || d.addr / 2 ^ 20 != s.rankNow b n issue))

/-- R354, order 2: the address that is not aligned. -/
def tileAlign (d : TileD) : Option Nat :=
  if d.addr % 8 ≠ 0 then some d.addr else if d.sp ∧ d.saddr % 2 ≠ 0 then some d.saddr else none

/-- The rank and window checks of R241 for a run of bytes: ALIGN or PERM at the first that fails. -/
def State.scrRange (s : State) (b : Block) (k a n : Nat) : Except Trap (Nat × Nat) :=
  if 2 ^ 26 < a + n then .error { cls := .align, addr := BitVec.ofNat 64 a }
  else
    match (s.windowOf b k (a / 2 ^ 20)).bind fun w => (s.blk w).map fun o => (w, o.window) with
    | none => .error { cls := .perm, addr := BitVec.ofNat 64 a }
    | some (w, size) =>
      if size < a % 2 ^ 20 + n then .error { cls := .perm, addr := BitVec.ofNat 64 (max a (a / 2 ^ 20 * 2 ^ 20 + size)) }
      else .ok (w, a % 2 ^ 20)

/-- Whether the scale array, or the whole tensor, fails the checks of R241 (R354, order 3). -/
def State.tilePerm (s : State) (b : Block) (k : Nat) (d : TileD) : Option Trap :=
  let sc := if d.sp then s.scrRange b k d.saddr (2 * d.lines * d.kb) else .ok (0, 0)
  let body := if d.rv then .ok (0, 0) else s.scrRange b k d.addr d.bytes
  match body, sc with
  | .error t, _ => some { t with cls := .perm }
  | _, .error t => some { t with cls := .perm }
  | _, _ => none

/-- A tensor that extends past its slot (R354, order 3; R378). -/
def Ring.overrun (t : Ring) (d : TileD) : Bool := 256 * t.z < d.addr % 2 ^ 20 + d.bytes

/-! ### Accepting a copy (R340 to R349, R376) -/

/-- Whether every copy-queue entry of the block is taken (R340, R344). -/
def Block.queueFull (b : Block) : Bool := b.copyq ≤ b.copies.length + b.cols.length

/-- Whether a ring holds no free slot (R349). -/
def Ring.full (t : Ring) : Bool := (t.rsv - t.rel).toNat == t.s

/-- The fields of the register-target word (R374). -/
structure RegTgt where
  d : Nat
  c : Nat
  n : Nat
  tok : Nat
  rest : Nat

def regTgt (w : Word) : RegTgt :=
  ⟨w.toNat % 256, w.toNat / 2 ^ 8 % 256, w.toNat / 2 ^ 16 % 16, w.toNat / 2 ^ 20 % 8, w.toNat / 2 ^ 23⟩

/-- Reserves what a copy takes at its acceptance: its place and its deadline (R256, R341), which counts from the acceptance for
all its segments (DESIGN CHOICE, log entry 95: no rule says from when), a ring slot, the target band's
token, the barrier's `cpy`. A later run takes no wider barrier (R450). -/
def State.acceptCopy (s : State) (k : Nat) (c : Copy) : State :=
  match s.blk k with
  | none => s
  | some b =>
    let c := { c with acc := s.serial, deadline := s.now b.die + (s.pf.dlbud.getD (s.dlClass b.lid) 0).toNat }
    let s := { s with serial := s.serial + 1 }
    let b := match c.ring with
      | none => b
      | some (r, _) => b.modRing r fun t => { t with rsv := t.rsv + 1 }
    let b := if c.dk = .regs then
        let t := regTgt c.regWord
        b.modBand t.n fun x => { x with tokens := x.tokens ||| ((1 : BitVec 6) <<< t.tok)
                                        regCopies := x.regCopies ++ [(t.tok, t.d, t.c, c.id)] }
      else b
    match c.bar with
    | none => s.setBlk k { b with copies := b.copies ++ [c] }
    | some cb =>
      if b.later && cb.sc != .blk then s.setBlk k { b with copies := b.copies ++ [c] }
      else
        (s.setBlk k { b with copies := b.copies ++ [{ c with barCounted := true }] }).modBar k cb.sc cb.n.toNat
          fun t => { t with cpy := t.cpy + 1 }

/-- The operands of a copy, read once for its band (R367, R371). DESIGN CHOICE (log entry 96): of a collective each band reads
them, and makes the checks of R375, by the EXT of its own instruction. -/
def Iss.sliceOf (y : Iss) (o : Cpy) : Slice :=
  let q := o.q.toNat
  { band := y.n
    dst := if o.dk = .glob then y.x.u64 o.d.toNat else (y.x.u o.d.toNat).setWidth 64
    src := if o.scr then (y.x.u o.a.toNat).setWidth 64 else y.x.u64 o.a.toNat
    rowBytes := (y.x.u q).toNat, rows := (y.x.u (q + 1)).toNat
    sstride := (y.x.u (q + 2)).toInt, dstride := (y.x.u (q + 3)).toInt
    seq := y.x.wseq.stores, sigma := y.x.sigma, priv := y.x.inh }

/-- R375. -/
def Iss.copyTrap (y : Iss) (o : Cpy) (sl : Slice) : Option Trap :=
  match o.dk with
  | .glob | .scr => none
  | .regs =>
    let t := regTgt (sl.dst.setWidth 32)
    if y.b.bands.length ≤ t.n ∨ y.b.vregs < t.d + t.c ∨ (y.b.streams ≠ 0 ∧ 248 < t.d + t.c) then
      some (y.once .regidx 1 1)
    else if t.c = 0 ∨ 5 < t.tok ∨ t.rest ≠ 0 ∨ sl.rowBytes * sl.rows ≠ y.b.bandw * t.c * 4 then some (y.once .fmt)
    else none
  | .ring =>
    let r := y.b.ring o.rn.toNat
    if r.s = 0 then some (y.once .fmt)
    else if sl.rowBytes * sl.rows = 0 then none
    else
      let d : Int := sl.dst.toNat
      let e : Int := d + ((sl.rows : Int) - 1) * sl.dstride
      if min d e < 0 ∨ (256 * r.z : Int) < max d e + sl.rowBytes then some (y.once .perm) else none

/-- Whether a copy cannot be accepted yet (R368): its queue entry, its slot, its counter, its token. -/
def Iss.copyWaits (y : Iss) (dk : CDst) (rn : Nat) (regWord : Word) : Bool :=
  y.b.queueFull || counterMax ≤ y.x.cpyOut.length
    || (dk == .ring && (y.b.ring rn).full)
    || (dk == .regs && (((y.b.band (regTgt regWord).n).map fun x =>
        x.tokens.getLsbD (regTgt regWord).tok).getD false))

/-- A copy counts for the store sequence, unless it writes the issuing band's own registers (R454). -/
def State.copySeq (s : State) (k n : Nat) (own : Bool) : State := if own then s else s.nextStoreSeq k n

/-- The copy that one slice or several make (R371, R344). -/
def mkCopy (b : Block) (id : Nat) (o : Cpy) (slices : List Slice) (issuers : List Nat) : Copy :=
  { id, kind := .plain, scr := o.scr, dk := o.dk, scope := o.scope, bar := o.bar, barCounted := false
    ring := if o.dk = .ring then some (o.rn.toNat, (b.ring o.rn.toNat).rsv.toNat) else none
    bmask := o.bmask, slices, regWord := ((slices.head?.map Slice.dst).getD 0).setWidth 32, issuers }

/-- Adds an operation to a band's copy counter (R290). -/
def State.countCopy (s : State) (k n id : Nat) : State :=
  s.modBand k n fun x => { x with cpyOut := x.cpyOut ++ [(id, false)] }

/-- `cpy` (R371 to R376). -/
def execCpy (h : Hdr) (o : Cpy) (s : State) : Host.Outcome State Fault Refusal :=
  run (.cpy h o) s fun y =>
    if y.ex.isEmpty then y.finish y.base (.cpy h o) []
    else
      let sl := y.sliceOf o
      match y.copyTrap o sl with
      | some t => y.trap t
      | none =>
        if y.copyWaits o.dk o.rn.toNat (sl.dst.setWidth 32) then y.s
        else
          let id := y.s.serial
          let own := o.dk == .regs && (regTgt (sl.dst.setWidth 32)).n == y.n
          let s := { y.base with serial := id + 1 }.acceptCopy y.k (mkCopy y.b id o [sl] [y.n])
          y.finish ((s.countCopy y.k y.n id).copySeq y.k y.n own) (.cpy h o) []

/-! ### Collective copies (R344, R377) -/

def Band.ended (x : Band) : Bool := x.lanes.all fun l => l.st == .exited

/-- The bands of a block that have not ended. -/
def Block.liveBands (b : Block) : List Nat :=
  (List.range b.bands.length).filter fun n => ((b.band n).map fun x => !x.ended).getD false

/-- The collective's common fields: those of the lowest band that has not ended (R344). DESIGN CHOICE (log entry 96): when every
band has ended, those of the lowest slice. -/
def Collective.common (c : Collective) (b : Block) : Option Cpy :=
  let live := c.slices.filter fun p => b.liveBands.contains p.1.band
  let from' := if live.isEmpty then c.slices else live
  (from'.find? fun p => p.1.band == lowest (from'.map fun q => q.1.band)).map (·.2)

/-- The slices in ascending band number (R377). -/
def Collective.inOrder (c : Collective) : List Slice :=
  (List.range 16).filterMap fun n => (c.slices.find? fun p => p.1.band == n).map (·.1)

/-- Whether a collective has the slices of every band that has not ended (R344). -/
def Collective.whole (c : Collective) (b : Block) : Bool := b.liveBands.all fun n => c.slices.any fun p => p.1.band == n

/-- Whether a collective's ring has no free slot (R349). -/
def Collective.ringFull (c : Collective) (b : Block) : Bool :=
  ((c.common b).map fun o => o.dk == .ring && (b.ring o.rn.toNat).full).getD false

/-- Accepts the next collective of a block, when every band that has not ended has supplied its slice and its slot is free:
the collectives of a block are accepted in their order. -/
def State.acceptCol (s : State) (k id : Nat) : Option State :=
  match s.blk k with
  | none => none
  | some b =>
    match b.cols.find? fun c => c.id == id with
    | none => none
    | some c =>
      match c.common b with
      | none => none
      | some o =>
        if !c.whole b || c.ringFull b || b.cols.any (fun d => d.k < c.k) then none
        else
          let bands := c.inOrder.map Slice.band
          let b' := { b with cols := b.cols.filter fun c => c.id != id }
          some ((s.setBlk k b').acceptCopy k (mkCopy b' id o c.inOrder bands))

/-- Accepts what collectives of a block can be accepted now, in their order. -/
def State.acceptCols (s : State) (k : Nat) : State :=
  (((s.blk k).map Block.cols).getD []).foldl (fun s c => (s.acceptCol k c.id).getD s) s

/-- The collectives of a block with the slice of an instruction added. -/
def Iss.colWith (y : Iss) (o : Cpy) (sl : Slice) (id : Nat) (mine : Option Collective) : List Collective :=
  match mine with
  | none => y.b.cols ++ [⟨id, y.x.colSeq, [(sl, o)]⟩]
  | some _ => y.b.cols.map fun c => if c.id = id then { c with slices := c.slices ++ [(sl, o)] } else c

/-- Whether a band's slice cannot be taken yet: its counter, an entry for a new collective and the four that may wait for
slices (R344), or the slot of a collective that it completes (R349). -/
def Iss.colWaits (y : Iss) (o : Cpy) (sl : Slice) (id : Nat) (mine : Option Collective) : Bool :=
  counterMax ≤ y.x.cpyOut.length
    || (mine.isNone && (y.b.queueFull || 4 ≤ (y.b.cols.filter fun c => !c.whole y.b).length))
    || (y.colWith o sl id mine).any fun c => c.id == id && c.whole y.b && c.ringFull y.b

/-- `cpy.col` (R344, R377). -/
def execCpyCol (h : Hdr) (o : Cpy) (s : State) : Host.Outcome State Fault Refusal :=
  run (.cpyCol h o) s fun y =>
    if y.ex.isEmpty then y.finish y.base (.cpyCol h o) []
    else
      let sl := y.sliceOf o
      match y.copyTrap o sl with
      | some t => y.trap t
      | none =>
        let mine := y.b.cols.find? fun c => c.k == y.x.colSeq
        let id := (mine.map Collective.id).getD y.s.serial
        if y.colWaits o sl id mine then y.s
        else
          let s := y.base.modBlk y.k fun b => { b with cols := y.colWith o sl id mine }
          let s := { s with serial := s.serial + 1 }.modBand y.k y.n fun x => { x with colSeq := x.colSeq + 1 }
          let s := y.finish ((s.countCopy y.k y.n id).nextStoreSeq y.k y.n) (.cpyCol h o) []
          (s.acceptCol y.k id).getD s

/-- `COLLECTIVE_ACCEPTANCE` (R344, R349): a collective that has its slices waits for a slot, which has come free. -/
def execCollectiveAcceptance (bk id : Nat) (s : State) : Host.Outcome State Fault Refusal :=
  match s.acceptCol bk id with
  | some t => .next t
  | none => .refused (.notEnabled "COLLECTIVE_ACCEPTANCE")

/-! ### `cpy.pl` (R378) -/

/-- The checks of R378, in its order. -/
def Iss.planeTrap (y : Iss) (d : TileD) (ls kl : Word) : Option Trap :=
  if y.s.tileFmt y.b y.n y.x.issues d then some (y.once .fmt)
  else
    match tileAlign d, y.s.tilePerm y.b y.k d with
    | some a, _ => some (y.once .align 0 0 (BitVec.ofNat 64 a))
    | none, some t => some { t with lane := lowest y.act }
    | none, none =>
      if ls.toNat % 64 ≠ 0 ∨ d.kb * 64 < kl.toNat then some (y.once .fmt)
      else if d.rv then
        if (y.b.ring d.rn).s = 0 then some (y.once .fmt)
        else if (y.b.ring d.rn).overrun d then some (y.once .perm)
        else none
      else none

/-- `cpy.pl` (R378). -/
def execCpyPl (h : Hdr) (o : CpyPl) (s : State) : Host.Outcome State Fault Refusal :=
  run (.cpyPl h o) s fun y =>
    if y.ex.isEmpty then y.finish y.base (.cpyPl h o) []
    else
      let d := y.b.tiles.getD o.x.toNat {}
      let ls := y.x.u o.q.toNat
      let kl := y.x.u (o.q.toNat + 1)
      match y.planeTrap d ls kl with
      | some t => y.trap t
      | none =>
        if y.copyWaits (if d.rv then .ring else .scr) d.rn 0 then y.s
        else
          let id := y.s.serial
          let r := y.b.ring d.rn
          let sl : Slice := { band := y.n, dst := 0, src := y.x.u64 o.a.toNat, rowBytes := 0, rows := 0, sstride := 0
                              dstride := 0, seq := y.x.wseq.stores, sigma := y.x.sigma, priv := y.x.inh }
          let c : Copy :=
            { id, kind := .planes (y.s.resolve y.b d (r.slotAt r.rsv)) ls.toNat kl.toNat o.xf, scr := false, dk := .scr
              scope := o.scope, bar := o.bar, barCounted := false
              ring := if d.rv then some (d.rn, r.rsv.toNat) else none
              bmask := BitVec.allOnes 32, slices := [sl], regWord := 0, issuers := [y.n] }
          let s := { y.base with serial := id + 1 }.acceptCopy y.k c
          y.finish ((s.countCopy y.k y.n id).nextStoreSeq y.k y.n) (.cpyPl h o) []

/-! ### The places of a copy's bytes (R372 to R374) -/

/-- Why an engine does not move a byte now: a fault of the copy, PAGE service, a loan, a full slice, an access of the
issuing band that comes first, or a device register. -/
inductive EngStop where
  | fault (t : Trap)
  | page (cause : Nat) (va : DWord)
  | loan (sid : Nat)
  | capacity (sid pa : Nat)
  | busy
  | device (pa : Nat)
  deriving DecidableEq, Repr

/-- Where a byte stands. -/
inductive Place where
  | glob (x : Xl) (va : Nat)
  | scr (win off addr : Nat)
  | reg (lane reg byte : Nat)
  /-- Another block's window, which a later run does not write (R450). -/
  | peer (addr : Nat)
  deriving DecidableEq, Repr

/-- A number for a place, to tell places apart. -/
def Place.loc : Place → Nat
  | .glob x _ => x.pa
  | .scr w off _ => 2 ^ 64 + w * 2 ^ 20 + off
  | .reg l r i => 2 ^ 120 + (l * 256 + r) * 4 + i
  | .peer a => 2 ^ 121 + a

/-- The address of a byte in the store records (R454), with a unit of 16 for each register. -/
def Place.recAt (n : Nat) : Place → Nat
  | .glob _ va => va
  | .scr _ _ a => a
  | .reg l r i => 16 * (2 ^ 63 + n * 2 ^ 16 + l * 2 ^ 8 + r) + i
  | .peer a => a

/-- Translation of one byte of an engine's access. -/
def State.engineXlate (s : State) (b : Block) (priv : Bool) (kd : AKind) (va : DWord) : Except EngStop Xl :=
  match s.xlate b.core b.asid b.sid va.toNat with
  | .error (.page c) => .error (.page c va)
  | .error .poison => .error (.fault { cls := .poison, addr := va })
  | .error (.loan i) => .error (.loan i)
  | .ok x =>
    if !s.permOk b.fn priv kd x then .error (.fault { cls := .perm, addr := va })
    else if isReg x.pa then .error (.device x.pa)
    else .ok x

/-- One scratchpad byte of an engine's access (R241). -/
def State.engineScr (s : State) (b : Block) (k : Nat) (a : Word) : Except EngStop Place :=
  match s.scratchAll b k 1 [(0, a)] with
  | .error t => .error (.fault t)
  | .ok [(_, w, off)] => .ok (.scr w off a.toNat)
  | .ok _ => .error (.fault { cls := .perm, addr := a.setWidth 64 })

/-- Whether a scratchpad address names another block's window in a later run (R445, R450). -/
def State.peerAddr (s : State) (b : Block) (a : Nat) : Bool := b.later && !(s.ownRanks b).contains (a / 2 ^ 20)

/-- One scratchpad byte that an engine writes: in a later run a byte of another block's window goes no further than the run's
signature (R450), and the blocks of a grid have windows of one size. -/
def State.engineDst (s : State) (b : Block) (k : Nat) (a : Word) : Except EngStop Place :=
  if s.peerAddr b a.toNat && a.toNat < 2 ^ 26 && a.toNat % 2 ^ 20 < b.window then .ok (.peer a.toNat) else s.engineScr b k a

/-- The byte of a slice at an index: its row and column. -/
structure InSlice where
  sl : Slice
  row : Nat
  col : Nat

/-- The slice and position of a byte of the destination order (R372, R377). -/
def locateByte : List Slice → Nat → Option InSlice
  | [], _ => none
  | sl :: t, i =>
    if i < sl.rowBytes * sl.rows then some ⟨sl, i / sl.rowBytes, i % sl.rowBytes⟩
    else locateByte t (i - sl.rowBytes * sl.rows)

def InSlice.srcAddr (p : InSlice) : DWord := p.sl.src + BitVec.ofInt 64 (p.row * p.sl.sstride + p.col)
def InSlice.dstOff (p : InSlice) : DWord := p.sl.dst + BitVec.ofInt 64 (p.row * p.sl.dstride + p.col)

/-- The source of a byte. -/
def State.srcPlace (s : State) (b : Block) (k : Nat) (c : Copy) (p : InSlice) : Except EngStop Place :=
  if c.scr then s.engineScr b k (p.srcAddr.setWidth 32)
  else
    match s.engineXlate b p.sl.priv .read p.srcAddr with
    | .error e => .error e
    | .ok x => .ok (.glob x p.srcAddr.toNat)

/-- Whether an older access of a band has still to write one of its registers: a copy into the register comes after it (R345). -/
def Band.writeDue (x : Band) (r : Nat) : Bool :=
  x.pend.any (fun p => p.regs.contains (.v r)) || x.accOut.any fun a => a.d ≤ r && r < a.d + a.n

/-- The destination of the byte at index i. -/
def State.dstPlace (s : State) (b : Block) (k : Nat) (c : Copy) (p : InSlice) (i : Nat) : Except EngStop Place :=
  match c.dk with
  | .glob =>
    match s.engineXlate b p.sl.priv .write p.dstOff with
    | .error e => .error e
    | .ok x => .ok (.glob x p.dstOff.toNat)
  | .scr => s.engineDst b k (p.dstOff.setWidth 32)
  | .ring =>
    match c.ring with
    | none => .error (.fault { cls := .perm })
    | some (r, q) =>
      s.engineScr b k (BitVec.ofNat 32 (s.ownAddr b ((b.ring r).slotAt (BitVec.ofNat 32 q))) + p.dstOff.setWidth 32)
  | .regs =>
    let t := regTgt c.regWord
    let r := t.d + i / 4 % t.c
    if ((b.band t.n).map fun x => x.writeDue r).getD false then .error .busy else .ok (.reg (i / 4 / t.c) r (i % 4))

/-- What must come before an engine's access to a global byte: loans, the issuing band's earlier accesses (R291, R341,
R437), what has arrived at the line's home before it, and for a read the line itself, whose stack may still report an error
(R489). -/
def State.engineHeld (s : State) (b : Block) (k n sigma : Nat) (read : Bool) (pl : Place) (len : Nat := 1) : Option EngStop :=
  match pl with
  | .glob x _ =>
    match s.blockLoan b sigma read x.pa with
    | some i => some (.loan i)
    | none =>
      if s.bandBusy k n (lineOf x.pa) || s.queued (lineOf x.pa) || (read && s.beingRead (lineOf x.pa)) then some .busy
      else if read && s.poisonFor b x.pa len then some (.fault { cls := .poison })
      else none
  | .scr _ _ _ | .reg _ _ _ | .peer _ => none

/-- The value of a place, and the W of the version read (R273, R274). -/
def State.placeRead (s : State) (b : Block) (sigma : Nat) (pl : Place) : Byte × Nat :=
  match pl with
  | .glob x _ => ((s.readFor b sigma x.kid x.pa 1).headD 0, s.wAt b sigma x.pa)
  | .scr w off _ => ((s.scrRead w off 1).headD 0, s.scrW w)
  | .reg _ _ _ | .peer _ => (0, 0)

/-- A global byte that an engine writes for a run (R436, R450): the state and its W. -/
def State.engineWrite (s : State) (k : Nat) (x : Xl) (va : Nat) (v : Byte) : State × Nat :=
  match s.blk k with
  | none => (s, 0)
  | some b =>
    let a := s.now (homeDie x.pa)
    let w0 := s.wOf x.pa a
    let s := if b.sid.isSome then s.setBlk k { b with overlay := overlayPut b.overlay x.pa va x.kid w0 a false [v] } else s
    if b.later then (s, 0)
    else if s.contained b then
      ({ s with samples := tmod s.samples (b.sid.getD 0) fun m =>
          { m with prov := provPut m.prov x.pa va x.kid w0 a false [v] } }, w0)
    else
      let r := s.homeStore x.kid x.pa [v] b.lid
      (r.1.maskedWrite b.work' x.kid x.pa [v], r.2)

/-- Replaces byte i of a word. -/
def wordByte (w : Word) (i : Nat) (v : Byte) : Word :=
  (w &&& ~~~((0xFF : Word) <<< (8 * i))) ||| (v.setWidth 32 <<< (8 * i))

/-- Writes a byte to its place: the state and its W, which in a scratchpad is its A (R273). A later run writes no peer's window
(R450); a band that has ended keeps no words (R345). -/
def State.placeWrite (s : State) (k n : Nat) (pl : Place) (v : Byte) : State × Nat :=
  match pl with
  | .glob x va => s.engineWrite k x va v
  | .scr w off _ =>
    if s.replaying k && w != k then (s, 0)
    else (s.scrWrite w off [v], ((s.blk w).map fun o => s.now o.die).getD 0)
  | .peer _ => (s, 0)
  | .reg l r i =>
    (s.modBand k n fun x =>
      if x.ended then x
      else { x.modLanes [l] fun _ ln => ln.setV r (wordByte (ln.v r) i v) with
        latch := x.latch.filter fun q => q.1 != r }, 0)

/-! ### Segments of a plain copy (R341, R342, R346) -/

/-- A byte ready to be written, with the place that it was read from, as a number. -/
structure Ready where
  idx : Nat
  src : Nat := 0
  pl : Place
  val : Byte
  w : Nat
  band : Nat

/-- The value that a byte receives: where the copy has written its own source, either value (R342). -/
def State.srcByte (s : State) (b : Block) (c : Copy) (sigma j : Nat) (pl : Place) : Byte × Nat :=
  let r := s.placeRead b sigma pl
  match c.wrote.find? fun w => w.loc == pl.loc with
  | none => r
  | some w => (if Config.freeBit (s.freeCtr + 2 * j) then w.old else r.1, r.2)

/-- What moving the byte at index i, the j-th of its segment, meets; `none` for a byte that the mask excludes (R373). Where the
source and the destination of one byte both fault, the source's fault is reported. DESIGN CHOICE (log entry 86): R346 names
only the earliest byte. -/
def State.moveByte (s : State) (b : Block) (k : Nat) (c : Copy) (i j : Nat) : Option (Except EngStop Ready) :=
  if !c.bmask.getLsbD (i % 32) then none
  else
    match locateByte c.slices i with
    | none => none
    | some p =>
      some (match s.srcPlace b k c p, s.dstPlace b k c p i with
        | .error e, _ => .error e
        | _, .error e => .error e
        | .ok src, .ok dst =>
          match s.engineHeld b k p.sl.band p.sl.sigma true src, s.engineHeld b k p.sl.band p.sl.sigma false dst with
          | some (.fault t), _ => .error (.fault { t with addr := p.srcAddr })
          | some e, _ => .error e
          | none, some e => .error e
          | none, none =>
            let v := s.srcByte b c p.sl.sigma j src
            .ok ⟨i, src.loc, dst, v.1, v.2, p.sl.band⟩)

/-- Bytes of one segment (R341). -/
def segBytes : Nat := 4096

/-- The bytes of a plain copy. -/
def Copy.total (c : Copy) : Nat := (c.slices.map fun sl => sl.rowBytes * sl.rows).sum

/-- Groups of a plane tensor in one segment, with their scales. -/
def TileR.perSeg (t : TileR) : Nat := segBytes / (t.group + if t.sp then 2 else 0)

/-- The number of segments. -/
def Copy.segs (c : Copy) : Nat :=
  match c.kind with
  | .plain => (c.total + segBytes - 1) / segBytes
  | .planes t _ _ _ => (t.lines * t.kb + t.perSeg - 1) / t.perSeg

/-- The first index of a segment: a byte of a plain copy, a group of a plane tensor. -/
def Copy.segStart (c : Copy) (g : Nat) : Nat :=
  match c.kind with
  | .plain => g * segBytes
  | .planes t _ _ _ => g * t.perSeg

/-- Whether every segment that must be moved has been (R346). -/
def Copy.moved (c : Copy) : Bool :=
  (List.range c.segs).all fun g => c.done.contains g || match c.fault with
    | none => false
    | some (i, _) => i < c.segStart g

/-- Writes ready bytes; a later entry in destination order stays where a byte is named twice (R342). -/
def State.writeReady (s : State) (k : Nat) (c : Copy) : List Ready → State × Copy
  | [] => (s, c)
  | r :: t =>
    match s.blk k with
    | none => (s, c)
    | some b =>
      let tgt := (regTgt c.regWord).n
      let was := c.wrote.find? fun w => w.loc == r.pl.loc
      if (was.map fun w => decide (r.idx < w.idx)).getD false then s.writeReady k { c with maxW := max c.maxW r.w } t
      else
        let old := (was.map Wrote.old).getD (s.placeRead b 0 r.pl).1
        let n := if c.dk = .regs then tgt else r.band
        let (s, w) := s.placeWrite k n r.pl r.val
        s.writeReady k
          { c with maxW := max c.maxW (max r.w w)
                   wrote := ⟨r.pl.loc, r.pl.recAt tgt, r.idx, r.val, old, r.band⟩ ::
                     c.wrote.filter fun w => w.loc != r.pl.loc } t

/-- The first stop of a segment, with its index. -/
def firstStop {α : Type} : List (Nat × Except EngStop α) → Option (Nat × EngStop)
  | [] => none
  | (i, .error e) :: _ => some (i, e)
  | (_, .ok _) :: t => firstStop t

/-- The bytes that a segment writes: all before its fault, and of those after it the ones that had been moved. -/
def toWrite {α : Type} (ctr : Nat) (fault : Option Nat) (l : List (Nat × Except EngStop α)) : List α :=
  l.filterMap fun p => match p.2 with
    | .error _ => none
    | .ok r =>
      match fault with
      | none => some r
      | some i => if p.1 < i ∨ Config.freeBit (ctr + 2 * (p.1 - i) + 1) then some r else none

/-- Marks the provisional bytes of some lines as clearing poison. -/
def clearProv (ls : List Nat) (o : List Prov) : List Prov :=
  o.map fun v => if ls.contains (lineOf v.pa) then { v with clr := true } else v

/-- The poisoned lines of global memory that a copy has written whole. -/
def State.wholeLines (s : State) (c : Copy) : List Nat :=
  (((c.wrote.filter fun w => decide (w.loc < 2 ^ 64)).map fun w => w.loc / 128).eraseDups).filter fun l =>
    s.linePoison (128 * l) && ((c.wrote.filter fun w => w.loc / 128 == l).map Wrote.loc).eraseDups.length == 128

/-- The lines of global memory that a copy has written whole lose their poison (R470): of a contained or a later run in its own
view and in its provisional versions alone (R436, R450). -/
def State.unpoisonCopy (s : State) (k : Nat) (c : Copy) : State :=
  let ls := s.wholeLines c
  match s.blk k with
  | none => s
  | some b =>
    if ls.isEmpty then s
    else if b.sid.isNone then ls.foldl State.unpoison s
    else
      let s := s.setBlk k { b with overlay := clearProv ls b.overlay }
      if s.contained b then
        { s with samples := tmod s.samples (b.sid.getD 0) fun m => { m with prov := clearProv ls m.prov } }
      else if b.later then s
      else ls.foldl State.unpoison s

/-- Puts a copy's record back. -/
def State.setCopy (s : State) (k : Nat) (c : Copy) : State :=
  s.modBlk k fun b => { b with copies := b.copies.map fun d => if d.id = c.id then c else d }

/-- PAGE service for a copy (R346, R410). -/
def State.copyPage (s : State) (k : Nat) (b : Block) (c : Copy) (cause : Nat) (va : DWord) : State :=
  let n := lowest c.issuers
  let t : Trap := { cls := .page, cause, addr := va }
  if !s.flogOn b.fn then s.failTrap k n t true
  else
    let x := s.fn b.fn
    let tag := x.nextTag % 2 ^ 16
    let s := s.setFn b.fn { x with nextTag := tag + 1, pageReqs := x.pageReqs ++ [⟨tag, k, none, some c.id, t⟩] }
    (s.flog b.fn (flogRecord 1 0 tag (s.lidField b.lid) b.bx b.by' b.bz n ((tstatOf t true false).toNat % 2 ^ 24) va.toNat)).setCopy k
      { c with st := .waiting tag }

/-- A fault at an index: the earliest one in destination order is reported (R346). -/
def Copy.meet (c : Copy) (i : Nat) (t : Trap) : Copy :=
  match c.fault with
  | some (j, u) => { c with fault := some (if i < j then (i, t) else (j, u)) }
  | none => { c with fault := some (i, t) }

/-- What a segment comes to, when its first stop is not a fault: the copy waits. -/
def State.copyStop (s : State) (k : Nat) (b : Block) (c : Copy) (e : EngStop) : Host.Outcome State Fault Refusal :=
  match e with
  | .fault _ | .busy => .refused (.notEnabled "COPY_SEGMENT")
  | .page cause va => .next (s.copyPage k b c cause va)
  | .loan i => .next (s.setCopy k { c with st := .onLoan i s.time })
  | .capacity i pa => .next (s.setCopy k { c with st := .capacity i s.time pa })
  | .device pa => .refused (.deviceRegister pa)

/-- Where a copy stands among a band's instructions, for R472: by the place of its writes among the band's (R454). -/
def Copy.poisonKey (c : Copy) : Nat × Nat × DWord :=
  let sl := c.slices.headD default
  (sl.band, sl.seq, BitVec.allOnes 64)

/-- A poisoned version that a later run's copy meets and the primary run's did not: its sample is released (R472). -/
def State.copyElsewhere (s : State) (b : Block) (c : Copy) (t : Trap) : Option Nat :=
  if t.cls = .poison then s.poisonElsewhere b c.poisonKey else none

/-- The sample keeps that its primary run's copy has met poison. -/
def State.copyMet (s : State) (b : Block) (c : Copy) (f : Option (Nat × Trap)) : State :=
  match f with
  | some (_, t) => if t.cls = .poison then s.notePoison b c.poisonKey else s
  | none => s

/-- Ends the hold of an engine on a segment. -/
def Copy.drop (c : Copy) (g : Nat) : Copy := { c with done := c.done ++ [g], taken := c.taken.filter fun t => t.1 != g, st := .moving }

/-- The value that a byte of a segment receives where its source is a destination of the same segment: what stood there, or
what the segment writes there (R342); the number bounds a chain of such bytes. -/
def Ready.resolve (rs : List Ready) (bit : Nat → Bool) : Nat → Ready → Byte
  | 0, r => r.val
  | n + 1, r =>
    if bit r.idx then
      match rs.find? fun q => q.pl.loc == r.src with
      | some q => q.resolve rs bit n
      | none => r.val
    else r.val

/-- Whether the sources and the destinations of a segment lie apart. -/
def apart (rs : List Ready) : Bool :=
  let lo (f : Ready → Nat) : Nat := (rs.map f).foldl min (2 ^ 130)
  let hi (f : Ready → Nat) : Nat := (rs.map f).foldl max 0
  hi Ready.src < lo (fun r => r.pl.loc) || hi (fun r => r.pl.loc) < lo Ready.src

/-- The bytes of a segment with their values (R342). -/
def overlapped (ctr : Nat) (rs : List Ready) : List Ready :=
  if apart rs then rs
  else rs.map fun r => { r with val := r.resolve rs (fun i => Config.freeBit (ctr + 2 * segBytes + i % segBytes)) rs.length }

/-! ### The lines that a segment touches (R256, R341) -/

/-- The global bytes that a segment of a plain copy moves: for each line of its sources and of its destinations the first
address, under its kind; bytes that the mask excludes count for nothing (R373). -/
def Copy.plainRefs (c : Copy) (g : Nat) : List (AKind × Bool × DWord) :=
  let refs := (List.range (min segBytes (c.total - g * segBytes))).flatMap fun j =>
    let i := g * segBytes + j
    if !c.bmask.getLsbD (i % 32) then []
    else
      match locateByte c.slices i with
      | none => []
      | some p => (if c.scr then [] else [(AKind.read, p.sl.priv, p.srcAddr)])
          ++ (if c.dk == .glob then [(AKind.write, p.sl.priv, p.dstOff)] else [])
  let key (q : AKind × Bool × DWord) : AKind × Bool × Nat := (q.1, q.2.1, lineOf q.2.2.toNat)
  (refs.foldl (fun (l : List (AKind × Bool × DWord)) q => if l.any fun r => key r == key q then l else q :: l) []).reverse

/-- The accesses of a segment of a plain copy, one for each line. -/
def State.plainAsks (s : State) (b : Block) (c : Copy) (g : Nat) : List LaneX :=
  (c.plainRefs g).filterMap fun q => match s.engineXlate b q.2.1 q.1 q.2.2 with
    | .ok x => some ⟨0, q.2.2.toNat, x⟩
    | .error _ => none

/-- The global accesses of the groups of a plane-tensor segment: the lines of their payload, and their scales. -/
def State.planeAsks (s : State) (b : Block) (c : Copy) (t : TileR) (ls kl : Nat) (xf : Option XFmt) (g : Nat) : List LaneX :=
  let sl := c.slices.headD default
  match s.engineXlate b sl.priv .read sl.src with
  | .error _ => []
  | .ok x =>
    let r := match xf with
      | some f => { x.reg with efmt := f.efmt.toNat, egeo := f.egeo.toNat }
      | none => x.reg
    if r.efmt = 0 ∨ r.n ≠ 64 then []
    else
      (List.range (min t.perSeg (t.lines * t.kb - g * t.perSeg))).flatMap fun i =>
        let q := g * t.perSeg + i
        if kl ≤ 64 * (q % t.kb) then []
        else
          let blk := (r.blockOf sl.src.toNat * 64 + ls * (q / t.kb) + 64 * (q % t.kb)) / 64
          let e := r.elemBytes 63
          [r.payAt blk, r.payAt blk + 128, r.payAt blk + e.1 + e.2 - 1, r.scaleAt blk].filterMap fun va =>
            match s.engineXlate b sl.priv .read (BitVec.ofNat 64 va) with
            | .ok x => if va ≤ r.payAt blk + e.1 + e.2 - 1 || va == r.scaleAt blk then some ⟨0, va, x⟩ else none
            | .error _ => none

/-- The global accesses of a segment, for its requests. -/
def State.segAsks (s : State) (b : Block) (c : Copy) (g : Nat) : List LaneX :=
  match c.kind with
  | .plain => s.plainAsks b c g
  | .planes t ls kl xf => s.planeAsks b c t ls kl xf g

/-- The first address of a segment's writes that must wait for capacity (R466). -/
def State.segFull (s : State) (b : Block) (rs : List Ready) : Option (Nat × Nat) :=
  s.provWait b (rs.filterMap fun r => match r.pl with
    | .glob x _ => some x.pa
    | .scr _ _ _ | .reg _ _ _ | .peer _ => none)

/-- Segment g of a plain copy. -/
def State.plainSegment (s : State) (k : Nat) (b : Block) (c : Copy) (g : Nat) : Host.Outcome State Fault Refusal :=
  let idx := (List.range (min segBytes (c.total - g * segBytes))).map fun j => (g * segBytes + j, j)
  let ps := idx.filterMap fun (i, j) => (s.moveByte b k c i j).map fun r => (i, r)
  let go (f : Option (Nat × Trap)) : Host.Outcome State Fault Refusal :=
    let rs := overlapped s.freeCtr (toWrite s.freeCtr (f.map Prod.fst) ps)
    match s.segFull b rs with
    | some (i, pa) => s.copyStop k b c (.capacity i pa)
    | none =>
      let (s', c') := { s with freeCtr := s.freeCtr + 3 * segBytes }.writeReady k c rs
      let c' := c'.drop g
      .next ((((s'.copyMet b c f).unpoisonCopy k c').receivedAll b.core (asksOf (s.segAsks b c g))).setCopy k (match f with
        | some (i, t) => c'.meet i t
        | none => c'))
  match firstStop ps with
  | none => go none
  | some (i, .fault t) =>
    match s.copyElsewhere b c t with
    | some sid => .next (s.releaseSample sid (some 6))
    | none => go (some (i, t))
  | some (_, e) => s.copyStop k b c e

/-! ### Groups of a plane-tensor copy (R379) -/

/-- An element as an integer of 2^-U (R379): its value without the scale, whether it is a NaN or an infinity. -/
def planeInt (v : FV) (u : Int) : Int × Bool :=
  match v with
  | .nan _ | .inf _ => (0, true)
  | .zero _ => (0, false)
  | .fin neg m e _ => ((if neg then -1 else 1) * ((m * 2 ^ (e + u).toNat : Nat) : Int), false)

/-- U of a format (R379). -/
def planeU (efmt : Nat) : Int :=
  match efmt with
  | 1 => 9
  | 2 => 16
  | 3 => 1
  | _ => 0

/-- A code for an integer at a shift: the nearest multiple of 2^s, ties to even (R379). -/
def planeCode (u : Int) (sh : Nat) : Int :=
  let q := u.natAbs / 2 ^ sh
  let r := u.natAbs % 2 ^ sh
  let up := 2 ^ sh < 2 * r || (2 * r == 2 ^ sh && q % 2 == 1)
  (if u < 0 then -1 else 1) * ((if up then q + 1 else q : Nat) : Int)

/-- The least shift at which every code fits k bits, among the next n from sh. -/
def planeShift (k : Nat) (us : List Int) : Nat → Nat → Nat
  | 0, sh => sh
  | n + 1, sh =>
    if us.all fun u => decide (-(2 ^ (k - 1) : Int) ≤ planeCode u sh ∧ planeCode u sh < (2 ^ (k - 1) : Int)) then sh
    else planeShift k us n (sh + 1)

/-- The plane words of the codes (R352). -/
def planeWords (k : Nat) (qs : List Int) : List Byte :=
  (List.range k).flatMap fun b => leBytes 8 ((qs.mapIdx fun e q => if (BitVec.ofInt 16 q).getLsbD b then 2 ^ e else 0).sum)

/-- A group's plane words, scale and conditions; `none` is FMT (R379). `es` is the scale's exponent, `fs` its
fraction. -/
def planeGroup (k : Nat) (u0 : Int) (us : List Int) (nan : Bool) (zero : Bool) (es fs : Nat) :
    Option (List Byte × Nat × Conds) :=
  let c0 : Conds := if nan then Conds.nv else 0
  if zero then some (planeWords k [], 0, c0)
  else
    let sh := planeShift k us 40 0
    let qs := us.map fun u => planeCode u sh
    let nx : Conds := if (us.zip qs).any (fun p => p.2 * 2 ^ sh != p.1) then Conds.nx else 0
    if qs.all (· == 0) then some (planeWords k qs, 0, c0 ||| nx)
    else
      let ex : Int := es + sh - u0
      if 255 ≤ ex then none
      else if ex ≤ 0 then some (planeWords k [], 0, c0 ||| nx ||| Conds.unf ||| Conds.nx)
      else some (planeWords k qs, ex.toNat * 256 + fs, c0 ||| nx)

/-- The bytes that hold an element and its scale, for the translation of each. -/
def State.planeRead (s : State) (b : Block) (k n : Nat) (sl : Slice) (va len : Nat) : Except EngStop (List Byte × Nat) :=
  match s.engineXlate b sl.priv .read (BitVec.ofNat 64 va) with
  | .error e => .error e
  | .ok x =>
    match s.engineHeld b k n sl.sigma true (.glob x va) len with
    | some (.fault t) => .error (.fault { t with addr := BitVec.ofNat 64 va })
    | some e => .error e
    | none => .ok (s.readFor b sl.sigma x.kid x.pa len, s.wAt b sl.sigma x.pa)

/-- The integers of the elements of a group that are read: block j0 + (el div 64), elements kk below KLEN. -/
def State.planeElems (s : State) (b : Block) (k : Nat) (sl : Slice) (r : Region) (e0 : Nat) :
    List Nat → Except EngStop (List (Int × Bool) × Nat)
  | [] => .ok ([], 0)
  | e :: es =>
    if r.nb * r.n ≤ e0 + e then .error (.fault { cls := .fmt })
    else
      let (o, l) := r.elemBytes ((e0 + e) % 64)
      match s.planeRead b k sl.band sl (r.payAt ((e0 + e) / 64) + o) l with
      | .error x => .error x
      | .ok (bs, w) =>
        match s.planeElems b k sl r e0 es with
        | .error x => .error x
        | .ok (us, w') =>
          .ok (planeInt (elemV (s.lc8Tab b) r ((e0 + e) % 64) (leVal bs)) (planeU r.efmt) :: us, max w w')

/-- A group ready to be written: its bytes by scratchpad address, its conditions. -/
structure GroupOut where
  bytes : List (Nat × Byte)
  cs : Conds
  w : Nat

/-- Group g of a plane-tensor copy (R379). -/
def State.moveGroup (s : State) (b : Block) (k : Nat) (sl : Slice) (t : TileR) (ls kl : Nat) (xf : Option XFmt)
    (g : Nat) : Except EngStop GroupOut :=
  let i := g / t.kb
  let j := g % t.kb
  let put (ws : List Byte) (sc : Nat) (cs : Conds) (w : Nat) : GroupOut :=
    ⟨(ws.mapIdx fun a v => (t.groupAt g + a, v)) ++ (leBytes 2 sc).mapIdx fun a v => (t.scaleAt g + a, v), cs, w⟩
  match s.engineXlate b sl.priv .read sl.src with
  | .error e => .error e
  | .ok x =>
    let r := match xf with
      | some f => { x.reg with efmt := f.efmt.toNat, egeo := f.egeo.toNat }
      | none => x.reg
    if r.efmt = 0 ∨ r.n ≠ 64 ∨ (r.egeo = 3 ∧ r.start + r.nb * r.p ≤ sl.src.toNat) then .error (.fault { cls := .fmt })
    else if kl ≤ 64 * j then .ok (put (planeWords t.k []) 0 0 0)
    else
      let e0 := r.blockOf sl.src.toNat * 64 + ls * i + 64 * j
      match s.planeElems b k sl r e0 (List.range (min 64 (kl - 64 * j))) with
      | .error e => .error e
      | .ok (us, w) =>
        match s.planeRead b k sl.band sl (r.scaleAt (e0 / 64)) 2 with
        | .error e => .error e
        | .ok (sb, w') =>
          let sc := leVal sb
          match s16V (r.efmt == 3) (BitVec.ofNat 16 sc) with
          | none => .error (.fault { cls := .fmt })
          | some _ =>
            match planeGroup t.k (planeU r.efmt) (us.map (·.1)) (us.any (·.2)) (sc / 256 == 0) (sc / 256) (sc % 256) with
            | none => .error (.fault { cls := .fmt })
            | some (ws, scale, cs) => .ok (put ws scale cs (max w w'))

/-- Where the bytes of a group go; a window that is gone is PERM (R241). -/
def State.groupPlaces (s : State) (b : Block) (k band g : Nat) (o : GroupOut) : Except EngStop (List Ready) :=
  match firstStop (o.bytes.map fun p => (p.1, s.engineDst b k (BitVec.ofNat 32 p.1))) with
  | some (_, e) => .error e
  | none => .ok (o.bytes.filterMap fun p =>
      match s.engineDst b k (BitVec.ofNat 32 p.1) with
      | .ok pl => some ⟨g, 0, pl, p.2, o.w, band⟩
      | .error _ => none)

/-- Segment g of a plane-tensor copy. -/
def State.planeSegment (s : State) (k : Nat) (b : Block) (c : Copy) (t : TileR) (ls kl : Nat) (xf : Option XFmt) (g : Nat) :
    Host.Outcome State Fault Refusal :=
  let sl := c.slices.headD default
  let first := g * t.perSeg
  let ps : List (Nat × Except EngStop (List Ready × Conds)) :=
    (List.range (min t.perSeg (t.lines * t.kb - first))).map fun j =>
      (first + j, match s.moveGroup b k sl t ls kl xf (first + j) with
        | .error e => .error e
        | .ok o =>
          match s.groupPlaces b k sl.band (first + j) o with
          | .error e => .error e
          | .ok rs => .ok (rs, o.cs))
  let go (f : Option (Nat × Trap)) : State :=
    let outs : List (List Ready × Conds) := toWrite s.freeCtr (f.map Prod.fst) ps
    let (s', c') := { s with freeCtr := s.freeCtr + 2 * segBytes }.writeReady k c (outs.flatMap fun (o : List Ready × Conds) => o.1)
    let c' := { c'.drop g with flags := outs.foldl (fun m (o : List Ready × Conds) => m ||| o.2) c'.flags }
    ((s'.copyMet b c f).receivedAll b.core (asksOf (s.segAsks b c g))).setCopy k (match f with
      | some (i, t) => c'.meet i t
      | none => c')
  match firstStop ps with
  | none => .next (go none)
  | some (i, .fault t) =>
    match s.copyElsewhere b c t with
    | some sid => .next (s.releaseSample sid (some 6))
    | none => .next (go (some (i, t)))
  | some (_, e) => s.copyStop k b c e

/-- Whether a loan that something waits for is still open. -/
def State.loanOpen (s : State) (sid : Nat) : Bool := ((tget s.samples sid).map Sample.open').getD false

/-- Whether a copy's engine may take a segment now. -/
def State.copyFree (s : State) (b : Block) (c : Copy) : Bool :=
  match c.st with
  | .moving => true
  | .waiting _ => false
  | .onLoan i _ => !s.loanOpen i
  | .capacity i _ pa => !s.loanOpen i || (s.provFull b pa).isNone

/-- The engines of a die (R339), and those that hold a segment. -/
def dieEngines (d : Nat) : Nat := if isAnnex d then 8 else 12
def State.busyEngines (s : State) (d : Nat) : Nat :=
  ((s.blocks.filter fun p => p.2.die == d).map fun p => (p.2.copies.map fun c => c.taken.length).sum).sum

/-- Whether a segment of a copy waits for an engine (R341, R346); those of a restartable record wait for their block to
resume (R512). -/
def Copy.waitsEngine (c : Copy) (g : Nat) : Bool :=
  !c.again && g < c.segs && !c.done.contains g && !(c.taken.any fun t => t.1 == g)
    && !((c.fault.map fun f => decide (f.1 < c.segStart g)).getD false)

/-- The copies of a die whose segments go before those of a copy: by deadline, then by acceptance (R341). -/
def State.copyFirst (s : State) (d : Nat) (c : Copy) : Bool :=
  (s.blocks.filter fun p => p.2.die == d).all fun p => p.2.copies.all fun e =>
    !((List.range e.segs).any e.waitsEngine) || c.deadline < e.deadline
      || (c.deadline == e.deadline && c.acc ≤ e.acc)

/-- An engine takes a segment: it sends its requests, under the deadline of the block's work (R256, log entry 71). A run of a
sampled block reads its snapshot, and asks all the same. -/
def State.takeSegment (s : State) (k : Nat) (b : Block) (c : Copy) (g : Nat) : State :=
  let xs := s.segAsks b c g
  let n := lowest c.issuers
  let id := s.serial
  let s := ({ s with serial := id + 1 } : State).setCopy k { c with taken := c.taken ++ [(g, id)] }
  (s.tlbFillAll b.core b.asid b.lid (some (k, n)) xs).engineAsk b.core b.lid (some (k, n)) id (asksOf xs)

/-- Whether requests of an engine are still out. -/
def State.engineOut (s : State) (id : Nat) : Bool :=
  (s.net ++ s.arrived).any fun q => match q.msg with
    | .engine _ i _ _ | .engineRep _ i => i == id
    | _ => false

/-- `COPY_SEGMENT` (R339, R341): a free engine of the block's die takes a segment of the copy that comes first; once the
replies to its requests have come, it moves the segment; it asks again for a line that the host has taken meanwhile (R502). -/
def execCopySegment (bk cid g : Nat) (s : State) : Host.Outcome State Fault Refusal :=
  match s.blk bk with
  | none => .refused (.notEnabled "COPY_SEGMENT")
  | some b =>
    match b.copies.find? fun c => c.id == cid with
    | none => .refused (.notEnabled "COPY_SEGMENT")
    | some c =>
      match c.taken.find? fun t => t.1 == g with
      | some t =>
        if s.engineOut t.2 ∨ s.copyFree b c = false then .refused (.notEnabled "COPY_SEGMENT")
        else if (s.segAsks b c g).any fun a => s.hostHeld.contains (lineOf a.x.pa) then
          .next (s.engineAsk b.core b.lid (some (bk, lowest c.issuers)) t.2 (asksOf (s.segAsks b c g)))
        else
          match c.kind with
          | .plain => s.plainSegment bk b c g
          | .planes t ls kl xf => s.planeSegment bk b c t ls kl xf g
      | none =>
        if c.waitsEngine g && decide (s.busyEngines b.die < dieEngines b.die) && s.copyFirst b.die c then
          .next (s.takeSegment bk b c g)
        else .refused (.notEnabled "COPY_SEGMENT")

/-! ### Completion (R291, R345, R346, R376) -/

/-- A pending asynchronous trap (R346, R363, R404): one of its kind is kept, a further one only marks OVF. -/
def Band.pendAsync (x : Band) (cmd : Bool) (t : Trap) (seq : Nat) : Band :=
  let add (o : Option AsyncTrap) : Option AsyncTrap :=
    match o with
    | some a => some { a with ovf := true }
    | none => some ⟨t, false, seq⟩
  if cmd then { x with asyncCmd := add x.asyncCmd } else { x with asyncCopy := add x.asyncCopy }

/-- A fault of an engine is reported to a band, or fails the grid of one that has ended (R346). -/
def State.engineFault (s : State) (k n : Nat) (cmd : Bool) (t : Trap) (seq : Nat) : State :=
  match (s.blk k).bind fun b => b.band n with
  | none => s
  | some x => if x.ended then s.failTrap k n t true else s.modBand k n fun x => x.pendAsync cmd t seq

/-- The bytes that a copy wrote in one 16-byte unit, as a store record (R454). -/
def unitOf (ws : List Wrote) (u band kind seq addr : Nat) : List Byte :=
  let byte (i : Nat) : Option Byte := (ws.find? fun w => w.va == 16 * u + i).map Wrote.val
  storeRecord addr ((List.range 16).map fun i => (byte i).getD 0)
    (((List.range 16).map fun i => if (byte i).isSome then 2 ^ i else 0).sum) band kind seq

/-- Adds the records of a copy to its run's signature, by slice (R454, R455). -/
def Block.signCopy (b : Block) (c : Copy) : Block :=
  if b.sid.isNone then b
  else
    { b with sig := c.slices.foldl (fun g sl =>
        let ws := c.wrote.filter fun w => w.band == sl.band
        (ws.map fun w => w.va / 16).eraseDups.foldl (fun g u =>
          if c.dk = .regs then g.store 7 (unitOf ws u sl.band 7 sl.seq u)
          else g.store 6 (unitOf ws u sl.band 6 sl.seq (16 * u))) g) b.sig }

/-- A completed copy's token, ring slot, counters and conditions (R290, R342, R345, R349). Its W counts in the horizons of its
issuers, whose relaxed stores its writes are (R206, R274, R291), and in that of the band whose registers it has written. -/
def Block.copyDone (b : Block) (c : Copy) : Block :=
  let b := { b with copies := b.copies.filter fun d => d.id != c.id }.signCopy c
  let b := match c.ring with
    | none => b
    | some (r, q) => b.modRing r fun t => t.complete (BitVec.ofNat 32 q)
  let b := if c.dk = .regs then
      b.modBand (regTgt c.regWord).n fun x =>
        { x with tokens := match x.regCopies.find? fun q => q.2.2.2 == c.id with
                    | some q => x.tokens &&& ~~~((1 : BitVec 6) <<< q.1)
                    | none => x.tokens
                 regCopies := x.regCopies.filter fun q => q.2.2.2 != c.id
                 horizon := max x.horizon c.maxW }
    else b
  c.issuers.foldl (fun b n => b.modBand n fun x => ({ x.raise c.flags with cpyOut := countOff x.cpyOut c.id }).seen c.maxW) b

/-- Whether a copy's completion waits for its W: at a wider scope of its own, or of the barrier at which it arrives (R227,
R291). -/
def Copy.wide (c : Copy) : Bool := Scope.wide c.scope || ((c.bar.map fun q => Scope.wide (BScope.scope q.sc)).getD false)

/-- Whether a copy may complete: all is moved, and the wait of R279 is met (R291). -/
def State.copyReady (s : State) (b : Block) (c : Copy) : Bool :=
  c.moved && c.taken.isEmpty && (!c.wide || decide (c.maxW + 4 ≤ s.now b.die))

/-- `COPY_COMPLETION` (R291). -/
def execCopyCompletion (bk cid : Nat) (s : State) : Host.Outcome State Fault Refusal :=
  match s.blk bk with
  | none => .refused (.notEnabled "COPY_COMPLETION")
  | some b =>
    match b.copies.find? fun c => c.id == cid with
    | none => .refused (.notEnabled "COPY_COMPLETION")
    | some c =>
      if !s.copyReady b c then .refused (.notEnabled "COPY_COMPLETION")
      else
        let s := s.setBlk bk (b.copyDone c)
        let s := match c.bar with
          | some cb =>
            if c.barCounted then
              s.modBar bk cb.sc cb.n.toNat fun t => { t with cpy := t.cpy - 1 }.tryComplete (s.barNow b cb.sc)
            else s
          | none => s
        .next (match c.fault with
          | some (_, t) => s.engineFault bk (lowest c.issuers) false t c.acc
          | none => s)

end Sys2Proof.Machine
end

