-- ==== Sys2Proof/Machine/Matrix.lean ====
section
/-! DEFINITION. Group 13 and the matrix sequencer: tile descriptors, gangs, the rendezvous latch, the command graph,
accumulators, products, the pack unit (R353 to R364, R384 to R397). -/

namespace Sys2Proof.Machine

open Sys2Proof

/-! ### Gangs and tile descriptors (R353, R358, R384 to R389) -/

/-- Whether the gang register may change (R358). -/
def Block.gangBusy (b : Block) : Bool := !b.latch.isEmpty

/-- Writes the gang register; every band's count of matrix commands restarts (R384). -/
def Block.setGang (b : Block) (m : BitVec 16) : Block :=
  { b with gang := m, bands := b.bands.map fun x => { x with mmaSeq := 0 } }

/-- `gang.set` (R384). -/
def execGangSet (h : Hdr) (m : GMask) (s : State) : Host.Outcome State Fault Refusal :=
  run (.gangSet h m) s fun y =>
    if y.ex.isEmpty then y.finish y.base (.gangSet h m) []
    else
      let w : Word := match m with
        | .lit v => v.setWidth 32
        | .u r => y.x.u r.toNat
      if 2 ^ y.b.bands.length ≤ w.toNat ∨ 6 < popN (w.setWidth 64) 16 ∨ 2 ^ 16 ≤ w.toNat then y.trap (y.once .fmt)
      else if y.b.gangBusy then y.trap (y.once .barbusy)
      else y.finish (y.base.modBlk y.k fun b => b.setGang (w.setWidth 16)) (.gangSet h m) []

/-- `gang.clr` (R384). -/
def execGangClr (h : Hdr) (s : State) : Host.Outcome State Fault Refusal :=
  run (.gangClr h) s fun y =>
    if y.ex.isEmpty then y.finish y.base (.gangClr h) []
    else if y.b.gangBusy then y.trap (y.once .barbusy)
    else y.finish (y.base.modBlk y.k fun b => b.setGang 0) (.gangClr h) []

/-- `tile.set` (R387). -/
def execTileSet (h : Hdr) (o : TileSet) (s : State) : Host.Outcome State Fault Refusal :=
  run (.tileSet h o) s fun y =>
    if y.ex.isEmpty then y.finish y.base (.tileSet h o) []
    else
      let d : TileD := match o.src with
        | .ext w => ⟨w.setWidth 128⟩
        | .u r => ⟨y.x.u64 (r.toNat + 2) ++ y.x.u64 r.toNat⟩
      if d.reservedZero then
        y.finish (y.base.modBlk y.k fun b => { b with tiles := setAt b.tiles o.x.toNat d }) (.tileSet h o) []
      else y.trap (y.once .fmt)

/-- `tile.get` (R388). -/
def execTileGet (h : Hdr) (o : TileGet) (s : State) : Host.Outcome State Fault Refusal :=
  runBand (.tileGet h o) s fun y =>
    y.ex.map fun l => (l, .dst (.u o.d) true ((y.b.tiles.getD o.x.toNat {}).bits.extractLsb' (if o.hi then 64 else 0) 64))

/-! ### Capture (R351, R354, R360, R386) -/

/-- A predecessor at capture: a ring's slot number; FMT for a ring that is not initialised or too small (R386). -/
def Block.capPred (b : Block) (p : Pred) : Option PredSt :=
  match p with
  | .none => some .none
  | .cmd n => some (.ident n.toNat)
  | .ring r k =>
    let t := b.ring r.toNat
    if t.s ≤ k.toNat then none else some (.ring r.toNat (t.rel + k.setWidth 32))

/-- The slot that a descriptor's ring predecessor names, as an offset in the own window (R353). -/
def Block.predSlot (b : Block) (d : TileD) (p0 p1 : PredSt) : Option Nat :=
  match p0, p1 with
  | .ring r q, p =>
    if r = d.rn then some ((b.ring r).slotAt q)
    else match p with
      | .ring r q => if r = d.rn then some ((b.ring r).slotAt q) else none
      | _ => none
  | _, .ring r q => if r = d.rn then some ((b.ring r).slotAt q) else none
  | _, _ => none

/-- A rectangle of scratchpad: rows of n bytes at a stride; the first address is returned for a failure by class. -/
structure ScrRect where
  addr : Word
  stride : Word
  rows : Nat
  n : Nat
  size : Nat

def ScrRect.rowAt (r : ScrRect) (i : Nat) : Nat := (r.addr + BitVec.ofNat 32 i * r.stride).toNat

/-- ALIGN of a rectangle (R393): address, stride, and bits [31:26] of any byte. -/
def ScrRect.misaligned (r : ScrRect) : Option Nat :=
  if r.addr.toNat % r.size ≠ 0 ∨ r.stride.toNat % r.size ≠ 0 then some r.addr.toNat
  else ((List.range r.rows).map r.rowAt).find? fun a => 2 ^ 26 < a + r.n

/-- PERM of a rectangle (R241). -/
def State.rectPerm (s : State) (b : Block) (k : Nat) (r : ScrRect) : Option Trap :=
  ((List.range r.rows).map r.rowAt).findSome? fun a => match s.scrRange b k a r.n with
    | .error t => some t
    | .ok _ => none

/-- The scratchpad rectangle that a command reads or writes besides its tensors. -/
def CmdIns.rect (c : CmdIns) (tiles : List TileD) : Option ScrRect :=
  match c with
  | .pack x a st s16 _ | .unpack x a st s16 =>
    let d := tiles.getD x {}
    let size := if s16 then 2 else 1
    some ⟨a, st, d.lines, d.kb * 64 * size, size⟩
  | .accRd o a st _ =>
    match o.dst with
    | .regs _ => none
    | .scr _ _ => some ⟨a, st, o.rect.rows.toNat, o.rect.cols.toNat * accSize o, accSize o⟩
  | .accWr o a st => some ⟨a, st, o.rect.rows.toNat, o.rect.cols.toNat * 8, 8⟩
  | .cbtLd a => some ⟨a, 0, 1, 512, 2⟩
  | .accClr _ _ | .mma _ _ _ => none

/-- The descriptors that a command uses, in the order SA, SB, DST (R386). -/
def CmdIns.tiles (c : CmdIns) : List Nat :=
  match c with
  | .mma _ a b => [a, b]
  | .pack x _ _ _ _ | .unpack x _ _ _ => [x]
  | .accClr _ _ | .accRd _ _ _ _ | .accWr _ _ _ | .cbtLd _ => []

/-- REGIDX at capture: the registers of `acc.rd` (R393). -/
def CmdIns.regTrap (c : CmdIns) (b : Block) : Bool :=
  match c with
  | .accRd o _ _ _ =>
    match o.dst with
    | .regs d => b.vregs < d.toNat + accRegs o || (b.streams != 0 && 248 < d.toNat + accRegs o)
    | .scr _ _ => false
  | _ => false

/-- FMT of the instruction itself at capture (R390, R393, R395, R396). -/
def CmdIns.fmtTrap (c : CmdIns) (b : Block) : Bool :=
  match c with
  | .mma _ x y => (b.tiles.getD x {}).kb != (b.tiles.getD y {}).kb
  | .pack _ _ _ _ sc => sc.toNat / 256 == 255
  | .unpack x _ _ s16 => !s16 && 8 < (b.tiles.getD x {}).k
  | .accRd o _ _ _ =>
    match o.dst with
    | .regs _ => decide (b.bandw < o.rect.rows.toNat)
    | .scr _ _ => false
  | .accClr _ _ | .accWr _ _ _ | .cbtLd _ => false

/-- The checks of the capture, in the class order of R368, taken over all descriptors of the command together. DESIGN
CHOICE (log entry 88): R398's `R354 for each descriptor` can also be read as the first descriptor whole, then the second. -/
def State.capTrap (s : State) (k : Nat) (b : Block) (l : Latched) (p0 p1 : Option PredSt) : Option Trap :=
  let issue := ((b.band l.band).map Band.issues).getD 0
  let ds := l.ins.tiles.map fun x => b.tiles.getD x {}
  if l.ins.regTrap b then some { cls := .regidx, cause := 1, opnd := 1 }
  else
    match p0, p1 with
    | some q0, some q1 =>
      let slot (d : TileD) : Option Nat := if d.rv then b.predSlot d q0 q1 else some 0
      if l.ins.fmtTrap b || ds.any (fun d => s.tileFmt b l.band issue d || (slot d).isNone) then some { cls := .fmt }
      else
        match ((l.ins.rect b.tiles).bind ScrRect.misaligned).or (ds.findSome? tileAlign) with
        | some a => some { cls := .align, addr := BitVec.ofNat 64 a }
        | none =>
          match ((l.ins.rect b.tiles).bind (s.rectPerm b k)).or (ds.findSome? (s.tilePerm b k)) with
          | some t => some t
          | none => if ds.any fun d => d.rv && (b.ring d.rn).overrun d then some { cls := .perm } else none
    | _, _ => some { cls := .fmt }

/-- The command that a capture makes. -/
def State.capOp (s : State) (b : Block) (l : Latched) (p0 p1 : PredSt) : CmdOp :=
  let tile (x : Nat) : TileR :=
    let d := b.tiles.getD x {}
    s.resolve b d ((b.predSlot d p0 p1).getD 0)
  match l.ins with
  | .accClr a x => .accClr a x
  | .mma a x y => .mma a (tile x) (tile y)
  | .pack x a st s16 sc => .pack (tile x) a st s16 sc
  | .unpack x a st s16 => .unpack (tile x) a st s16
  | .accRd o a st ls =>
    let x := (b.band l.band).getD {lanes := [], uregs := []}
    .accRd o a st ls x.fstat ((lanesOf ls).map fun j => (j, x.wseq.lanes.getD j 0))
  | .accWr o a st => .accWr o a st
  | .cbtLd a => .cbtLd a

/-- Captures the operands of a command (R360). -/
def State.capture (s : State) (k : Nat) (b : Block) (l : Latched) : Except Trap Capt :=
  let p0 := b.capPred l.m.p0
  let p1 := b.capPred l.m.p1
  match s.capTrap k b l p0 p1 with
  | some t => .error t
  | none => .ok ⟨l.band, l.m.id.toNat, s.capOp b l (p0.getD .none) (p1.getD .none), p0.getD .none, p1.getD .none, none⟩

/-- The lanes of `acc.rd` whose registers are written (R393). -/
def accLanes (o : AccRd) (ls : LaneSet) : List Nat := (lanesOf ls).filter fun l => l < o.rect.rows.toNat

/-- The registers that an `acc.rd` names, from the first on (R393). -/
def CmdIns.accDst (c : CmdIns) : Option (Nat × Nat) :=
  match c with
  | .accRd o _ _ _ =>
    match o.dst with
    | .regs d => some (d.toNat, accRegs o)
    | .scr _ _ => none
  | _ => none

/-- An `acc.rd` that a member executes holds the registers that it may write, and sets its token (R49, R369): until its
command retires, or another member captures it. -/
def Band.holdAcc (x : Band) (ins : CmdIns) (key : Nat) (tok : Option Nat) : Band :=
  match ins.accDst with
  | none => x
  | some (d, n) =>
    { x with
      accOut := x.accOut ++ [⟨key, d, n, tok⟩]
      tokens := match tok with
        | some t => x.tokens ||| ((1 : BitVec 6) <<< t)
        | none => x.tokens }

/-- A capture of `acc.rd` takes the places of its writes in the register record (R456). -/
def Band.seqAcc (x : Band) (c : Capt) : Band :=
  match c.op with
  | .accRd o _ _ ls _ _ =>
    match o.dst with
    | .regs _ =>
      { x with wseq := { x.wseq with lanes := modAll x.wseq.lanes (accLanes o ls) fun _ n => n + accRegs o } }
    | .scr _ _ => x
  | _ => x

/-- A band's hold on the registers of an `acc.rd` ends, and its token clears (R49). -/
def Band.dropAcc (x : Band) (key : Nat) : Band :=
  match x.accOut.find? fun a => a.key == key with
  | none => x
  | some a =>
    { x with
      accOut := x.accOut.filter fun a => a.key != key
      tokens := match a.tok with
        | some t => x.tokens &&& ~~~((1 : BitVec 6) <<< t)
        | none => x.tokens }

/-- Every member but the one that captures a command has no result of it. -/
def Block.dropOthers (b : Block) (e : LatchEnt) (n : Nat) : Block :=
  ((e.got.map Latched.band).filter (· != n)).foldl (fun b m => b.modBand m fun x => x.dropAcc e.key) b

/-! ### The rendezvous latch (R358 to R361) -/

/-- Whether an identifier is busy (R361). -/
def Block.idBusy (b : Block) (n : Nat) : Bool := b.cmds.any fun c => c.id == n

/-- The members of a band's gang that have not ended (R358, R359). -/
def Block.gangOf (b : Block) (n : Nat) : List Nat :=
  if b.gang.getLsbD n then (List.range 16).filter fun j => b.gang.getLsbD j && b.liveBands.contains j else [n]

/-- A predecessor at acceptance: the latest command accepted with the identifier, unless it has retired (R361). -/
def Block.accPred (b : Block) (p : PredSt) : PredSt :=
  match p with
  | .ident m =>
    match tget b.lastCmd m with
    | some key => if b.cmds.any fun c => c.key == key then .cmd key else .none
    | none => .none
  | p => p

/-- Whether an entry can be accepted: captured, and no live member still has to execute it (R359). -/
def LatchEnt.ready (e : LatchEnt) (b : Block) : Bool := e.captured.isSome && e.waiting.all fun n => !b.liveBands.contains n

/-- Accepts an entry of the latch: it becomes a command (R359, R361). -/
def State.acceptEnt (s : State) (k : Nat) (e : LatchEnt) : State :=
  match s.blk k, e.captured with
  | some b, some c =>
    let cmd : Cmd := { key := e.key, seq := s.serial, id := c.id, op := c.op, p0 := b.accPred c.p0, p1 := b.accPred c.p1
                       st := .accepted, members := e.got.map Latched.band, capBand := c.band }
    { s with serial := s.serial + 1 }.setBlk k
      { b with latch := b.latch.filter fun f => f.key != e.key, cmds := b.cmds ++ [cmd]
               lastCmd := tset b.lastCmd c.id e.key }
  | _, _ => s

/-- The opcode of a matrix command, as the latch compares it (R359). -/
def opcNat (i : Instr) : Nat := (i.opc?.map BitVec.toNat).getD 0

/-- The latch entry that a band's next matrix command joins. -/
def Block.entryFor (b : Block) (n k : Nat) : Option LatchEnt :=
  b.latch.find? fun e => e.k == k && e.waiting.contains n

/-- Whether band n captures an entry at its execution: no lower member has executed it or still may (R360). -/
def Block.captures (b : Block) (e : LatchEnt) (n : Nat) : Bool :=
  e.captured.isNone && !(e.got.any fun l => l.band < n) && !(e.waiting.any fun j => j < n && b.liveBands.contains j)

/-- An entry whose capture is due because the lower members have ended (R360). -/
def Block.lateCapture (b : Block) (e : LatchEnt) : Bool :=
  e.captured.isNone && !e.got.isEmpty
    && !(e.waiting.any fun j => j < lowest (e.got.map Latched.band) && b.liveBands.contains j)

/-- Executes a matrix command for its band (R359, R360, R368): the wait for its identifier, the checks of the
capture, the waits for the counter and the latch, then the latch. DESIGN CHOICE (log entry 97): a command of a gang of one,
which is accepted at once, needs a free entry of the latch too. -/
def Iss.command (y : Iss) (i : Instr) (m : MFields) (ins : CmdIns) : State :=
  if y.ex.isEmpty then y.finish y.base i []
  else
    let found := y.b.entryFor y.n y.x.mmaSeq
    let e := found.getD ⟨y.s.serial, y.x.mmaSeq, opcNat i, y.b.gangOf y.n, y.b.gangOf y.n, [], none⟩
    let l : Latched := ⟨y.n, m, ins⟩
    if e.opc ≠ opcNat i then y.trap { cls := .fmt, lane := lowest y.act }
    else if y.b.lateCapture e then y.s
    else
      let mine := y.b.captures e y.n
      if mine && y.b.idBusy m.id.toNat then y.s
      else
        match (if mine then (y.s.capture y.k y.b l).map some else .ok none) with
        | .error t => y.trap { t with lane := lowest y.act }
        | .ok c =>
          if counterMax ≤ y.x.mmaOut.length ∨ (found.isNone = true ∧ 8 ≤ y.b.latch.length) then y.s
          else
            let tok := match i.hdr? with
              | some h => if h.sett.toNat < 6 then some h.sett.toNat else none
              | none => none
            let e' := { e with waiting := e.waiting.filter (· != y.n), got := e.got ++ [l]
                               captured := e.captured.or c }
            let s := { y.base with serial := y.s.serial + 1 }.modBlk y.k fun b =>
              { b with latch := match found with
                  | some _ => b.latch.map fun (f : LatchEnt) => if f.key = e.key then e' else f
                  | none => b.latch ++ [e'] }
            let s := s.modBand y.k y.n fun x =>
              let x := { x with mmaSeq := x.mmaSeq + 1, mmaOut := x.mmaOut ++ [(e.key, false)] }
              let x := if e.captured.isSome then x else x.holdAcc ins e.key tok
              match c with
              | some c => x.seqAcc c
              | none => x
            let s := if c.isSome then s.modBlk y.k fun b => b.dropOthers e y.n else s
            let s := if e'.ready y.b then s.acceptEnt y.k e' else s
            y.finish s i []

/-- `acc.clr` (R391). -/
def execAccClr (h : Hdr) (o : AccClr) (s : State) : Host.Outcome State Fault Refusal :=
  run (.accClr h o) s fun y => y.command (.accClr h o) o.m (.accClr o.acc.toNat o.x)

/-- `mma` (R390). -/
def execMma (h : Hdr) (o : Mma) (s : State) : Host.Outcome State Fault Refusal :=
  run (.mma h o) s fun y => y.command (.mma h o) o.m (.mma o.acc.toNat o.xa.toNat o.xb.toNat)

/-- `plane.pack` (R395). -/
def execPlanePack (h : Hdr) (o : PlanePack) (s : State) : Host.Outcome State Fault Refusal :=
  run (.planePack h o) s fun y =>
    y.command (.planePack h o) o.m (.pack o.x.toNat (y.x.u o.a.toNat) (y.x.u o.st.toNat) o.s16 o.scale)

/-- `plane.unpack` (R396). -/
def execPlaneUnpack (h : Hdr) (o : PlaneUnpack) (s : State) : Host.Outcome State Fault Refusal :=
  run (.planeUnpack h o) s fun y =>
    y.command (.planeUnpack h o) o.m (.unpack o.x.toNat (y.x.u o.a.toNat) (y.x.u o.st.toNat) o.s16)

/-- `acc.rd` (R392). -/
def execAccRd (h : Hdr) (o : AccRd) (s : State) : Host.Outcome State Fault Refusal :=
  run (.accRd h o) s fun y =>
    let (a, st) := match o.dst with
      | .regs _ => (0, 0)
      | .scr a st => (y.x.u a.toNat, y.x.u st.toNat)
    y.command (.accRd h o) o.m (.accRd o a st (laneSet y.ex))

/-- `acc.wr` (R394). -/
def execAccWr (h : Hdr) (o : AccWr) (s : State) : Host.Outcome State Fault Refusal :=
  run (.accWr h o) s fun y => y.command (.accWr h o) o.m (.accWr o (y.x.u o.a.toNat) (y.x.u o.st.toNat))

/-- `cbt.ld` (R397). -/
def execCbtLd (h : Hdr) (o : CbtLd) (s : State) : Host.Outcome State Fault Refusal :=
  run (.cbtLd h o) s fun y => y.command (.cbtLd h o) o.m (.cbtLd (y.x.u o.a.toNat))

/-- Whether a command that the band has executed, captured with an identifier or not yet captured, has not retired
(R385). -/
def Block.cmdPending (b : Block) (x : Band) (n : Nat) : Bool :=
  x.mmaOut.any fun p => !p.2 &&
    match b.latch.find? fun e => e.key == p.1 with
    | some e => match e.captured with
      | some c => c.id == n
      | none => true
    | none => b.cmds.any fun c => c.key == p.1 && c.id == n

/-- `cmd.wait` (R385). -/
def execCmdWait (h : Hdr) (n : BitVec 6) (s : State) : Host.Outcome State Fault Refusal :=
  run (.cmdWait h n) s fun y =>
    if y.ex.isEmpty || !y.b.cmdPending y.x n.toNat then y.finish y.base (.cmdWait h n) []
    else y.waitLanes (.cmdWait h n) (.cmd n.toNat)

/-- The late capture of an entry, from the latched operands of the lowest member that executed it (R360). -/
def State.captureLate (s : State) (k : Nat) (b : Block) (e : LatchEnt) : State × LatchEnt :=
  match e.got.find? fun l => l.band == lowest (e.got.map Latched.band) with
  | none => (s, e)
  | some l =>
    match s.capture k b l with
    | .ok c => ((s.modBand k l.band fun x => x.seqAcc c).modBlk k fun b => b.dropOthers e l.band, { e with captured := some c })
    | .error t =>
      let c : Capt := ⟨l.band, l.m.id.toNat, .void l.ins, .none, .none, some t⟩
      (s.engineFault k l.band true { t with akind := 1, cmdid := c.id } s.serial, { e with captured := some c })

/-- What an entry of the latch comes to once members have ended (R359, R360): its late capture, its acceptance, or, where no
member has executed it, its end. -/
def State.acceptDue (s : State) (k key : Nat) : Option State :=
  match s.blk k with
  | none => none
  | some b =>
    match b.latch.find? fun e => e.key == key with
    | none => none
    | some e =>
      if b.lateCapture e then
        let (s, e') := s.captureLate k b e
        let s := s.modBlk k fun b => { b with latch := b.latch.map fun f => if f.key = key then e' else f }
        some (if e'.ready b then s.acceptEnt k e' else s)
      else if e.ready b then some (s.acceptEnt k e)
      else if e.got.isEmpty && e.waiting.all fun n => !b.liveBands.contains n then
        some (s.setBlk k { b with latch := b.latch.filter fun f => f.key != key })
      else none

/-- `COMMAND_ACCEPTANCE` (R359, R360): members that have ended are removed from an entry. -/
def execCommandAcceptance (bk key : Nat) (s : State) : Host.Outcome State Fault Refusal :=
  match s.acceptDue bk key with
  | some t => .next t
  | none => .refused (.notEnabled "COMMAND_ACCEPTANCE")

/-- Lanes of a band have ended: what waited for the band alone is captured and accepted at that moment, in order (R344,
R359, R360); a later run of which a band ends while records of its own remain departs (R447). -/
def State.bandEnded (s : State) (k n : Nat) : State :=
  let t := ((((s.blk k).map Block.latch).getD []).foldl (fun s e => (s.acceptDue k e.key).getD s) s).acceptCols k
  if s.replaying k && (((s.blk k).bind fun b => b.band n).map Band.ended).getD false && s.recLeft k n
      && ((s.blk k).map fun b => b.st == .running).getD false then t.depart k
  else t

/-- `exit` (R40, R144). Its lanes leave the barriers in ascending order: DESIGN CHOICE (log entry 84), since R224 gives the lanes
of one instruction no order. -/
def execExit (h : Hdr) (s : State) : Host.Outcome State Fault Refusal :=
  run (.exit h) s fun y =>
    let t := (((y.finish y.base (.exit h) []).modBand y.k y.n fun x => x.exitLanes y.ex).leaveBars y.k
      (y.ex.map fun l => y.n * y.b.bandw + l)).bandEnded y.k y.n
    match y.s.exitScope y.b with
    | none => t
    | some sc => y.released .rel sc t

/-! ### Running a command (R356, R362, R391 to R397) -/

/-- The unit that runs a command: 0 plane array, 1 accumulator port, 2 pack unit; and its occupancy in cycles (R362). -/
def CmdOp.unit (c : CmdOp) : Nat × Nat :=
  match c with
  | .mma _ a b => (0, a.kb * a.k * b.k)
  | .accClr _ _ => (1, 16)
  | .accRd _ _ _ _ _ _ | .accWr _ _ _ => (1, 64)
  | .pack t _ _ _ _ | .unpack t _ _ _ => (2, t.lines * t.kb)
  | .cbtLd _ => (2, 16)
  | .void ins =>
    match ins with
    | .mma _ _ _ => (0, 1)
    | .accClr _ _ | .accRd _ _ _ _ | .accWr _ _ _ => (1, 16)
    | .pack _ _ _ _ _ | .unpack _ _ _ _ | .cbtLd _ => (2, 16)

/-- Reads scratchpad bytes for a command; a window that is gone is PERM (R363). -/
def State.cmdRead (s : State) (b : Block) (k a n : Nat) : Except Trap (List Byte) :=
  match s.scrRange b k a n with
  | .error t => .error { t with cls := .perm }
  | .ok (w, off) => .ok (s.scrRead w off n)

/-- A group of a tensor as it is read: its 64 codes, and its scale's exponent and fraction. -/
structure Group where
  qs : List Int
  e : Nat
  f : Nat

/-- The k-bit code of element e from the plane words (R352). -/
def planeElem (k : Nat) (ws : List Nat) (e : Nat) : Int :=
  (BitVec.ofNat k ((ws.mapIdx fun b w => if w / 2 ^ e % 2 = 1 then 2 ^ b else 0).sum)).toInt

/-- The plane words in bytes. -/
def wordsOf (k : Nat) (bs : List Byte) : List Nat := (List.range k).map fun b => leVal ((bs.drop (8 * b)).take 8)

/-- Reads group g of a tensor. -/
def State.readGroup (s : State) (b : Block) (k : Nat) (t : TileR) (g : Nat) : Except Trap Group :=
  match s.cmdRead b k (t.groupAt g) (8 * t.k), s.cmdRead b k (t.scaleAt g) 2 with
  | .error e, _ => .error e
  | _, .error e => .error e
  | .ok bs, .ok sc =>
    let ws := wordsOf t.k bs
    .ok ⟨(List.range 64).map (planeElem t.k ws), leVal sc / 256, leVal sc % 256⟩

/-- Reads all of a list, or the first fault. -/
def readAll {α β : Type} (f : α → Except Trap β) : List α → Except Trap (List β)
  | [] => .ok []
  | a :: t =>
    match f a with
    | .error e => .error e
    | .ok v =>
      match readAll f t with
      | .error e => .error e
      | .ok vs => .ok (v :: vs)

/-- The exact sum of products of two groups (R356). -/
def dotQ : List Int → List Int → Int
  | a :: as, b :: bs => a * b + dotQ as bs
  | _, _ => 0

/-- floor(p · 2^e). -/
def floorMul (p : Int) (e : Int) : Int := if 0 ≤ e then p * 2 ^ e.toNat else Int.fdiv p (2 ^ (-e).toNat)

/-- What one K-block adds to a cell, before the clamp (R356). -/
def mmaTerm (x : BitVec 16) (a b : Group) : Int :=
  if a.e = 0 ∨ b.e = 0 then 0
  else floorMul (dotQ a.qs b.qs * (256 + a.f) * (256 + b.f)) (a.e + b.e - 270 - x.toInt)

def Acc.cell (a : Acc) (i c : Nat) : BitVec 64 := (tget a.cells (64 * i + c)).getD 0
/-- Writes a cell; a zero cell is not listed. -/
def Acc.setCell (a : Acc) (i c : Nat) (v : BitVec 64) : Acc :=
  { a with cells := if v = 0 then tdel a.cells (64 * i + c) else tset a.cells (64 * i + c) v }

/-- A saturating addition to a cell (R356, R394). -/
def Acc.addCell (a : Acc) (i c : Nat) (t : Int) : Acc :=
  let u := satS t 64
  let r := satS ((a.cell i c).toInt + u.val) 64
  { a.setCell i c (BitVec.ofInt 64 r.val) with sata := a.sata || (u.cs ||| r.cs) != 0 }

/-- Whether an addition clamps. -/
def Acc.clamps (a : Acc) (i c : Nat) (t : Int) : Bool :=
  ((satS t 64).cs ||| (satS ((a.cell i c).toInt + (satS t 64).val) 64).cs) != 0

/-- The cells of a rectangle, row by row. -/
def cellsOf (rows cols : Nat) : List (Nat × Nat) := (List.range rows).flatMap fun i => (List.range cols).map fun c => (i, c)

/-- The product into an accumulator (R356): K-blocks ascending; the new accumulator and whether it clamped. -/
def mmaAcc (a : Acc) (ga gb : List Group) (kb la lb : Nat) : Acc × Bool :=
  (List.range kb).foldl (fun st j =>
    (cellsOf la lb).foldl (fun st p =>
      let t := mmaTerm a.x (ga.getD (p.1 * kb + j) ⟨[], 0, 0⟩) (gb.getD (p.2 * kb + j) ⟨[], 0, 0⟩)
      (st.1.addCell p.1 p.2 t, st.2 || st.1.clamps p.1 p.2 t)) st) (a, false)

/-- A fault of a command after acceptance (R363). -/
def CmdRes.bad (t : Trap) : CmdRes := { fault := some t }

/-- `mma` at its start. -/
def State.runMma (s : State) (b : Block) (k : Nat) (acc : Acc) (x y : TileR) : Acc × CmdRes :=
  match readAll (s.readGroup b k x) (List.range (x.lines * x.kb)), readAll (s.readGroup b k y) (List.range (y.lines * y.kb)) with
  | .error t, _ => (acc, .bad t)
  | _, .error t => (acc, .bad t)
  | .ok ga, .ok gb =>
    if (ga ++ gb).any fun g => g.e == 255 then (acc, .bad { cls := .fmt })
    else
      let (a, cl) := mmaAcc acc ga gb x.kb x.lines y.lines
      (a, { cs := if cl then Conds.sat else 0 })

/-- The element of a cell (R393). -/
def accElem (o : AccRd) (fstat : Word) (x : BitVec 16) (v : BitVec 64) : Nat × Conds :=
  if o.raw then (v.toNat, 0)
  else if v = 0 then (0, 0)
  else
    let (fm, small) : Fmt × Bool := match o.cf with
      | .f32 => (.f32, false)
      | .bf16 => (.bf16, false)
      | .e4m3 => (.e4m3, true)
      | .e5m2 => (.e5m2, true)
    let r := roundI fm (modeOf fstat o.rnd) o.ftz (cvRule small o.ovr) v.toInt x.toInt
    (r.val, r.cs)

/-- Words from bytes, the last padded with zeros (R82, R393). -/
def wordsFrom (n : Nat) (bs : List Byte) : List Word := (List.range n).map fun j => BitVec.ofNat 32 (leVal ((bs.drop (4 * j)).take 4))

/-- `acc.rd` at its start (R393). -/
def runAccRd (a : Acc) (o : AccRd) (addr stride : Word) (ls : LaneSet) (fstat : Word) : CmdRes :=
  let row (r : Nat) : List (Nat × Conds) := (List.range o.rect.cols.toNat).map fun c =>
    accElem o fstat a.x (a.cell (o.rect.row0.toNat + r) (o.rect.col0.toNat + c))
  let bytes (r : Nat) : List Byte := (row r).flatMap fun e => leBytes (accSize o) e.1
  let conds (rs : List Nat) : Conds := rs.foldl (fun m r => (row r).foldl (fun m e => m ||| e.2) m) 0
  match o.dst with
  | .regs d =>
    let lanes := accLanes o ls
    { regs := lanes.map fun l => (l, (wordsFrom (accRegs o) (bytes l)).mapIdx fun j w => (d.toNat + j, w))
      cs := conds lanes }
  | .scr _ _ =>
    let rs := List.range o.rect.rows.toNat
    { writes := rs.map fun r => ((addr + BitVec.ofNat 32 r * stride).toNat, bytes r), cs := conds rs }

/-- `acc.wr` at its start (R394). -/
def State.runAccWr (s : State) (b : Block) (k : Nat) (a : Acc) (o : AccWr) (addr stride : Word) : Acc × CmdRes :=
  let rect := o.rect
  match readAll (fun r => s.cmdRead b k (addr + BitVec.ofNat 32 r * stride).toNat (8 * rect.cols.toNat))
      (List.range rect.rows.toNat) with
  | .error t => (a, .bad t)
  | .ok rows =>
    let (a, cl) := (cellsOf rect.rows.toNat rect.cols.toNat).foldl (fun st p =>
      let v : BitVec 64 := BitVec.ofNat 64 (leVal (((rows.getD p.1 []).drop (8 * p.2)).take 8))
      let i := rect.row0.toNat + p.1
      let c := rect.col0.toNat + p.2
      if o.add then (st.1.addCell i c v.toInt, st.2 || st.1.clamps i c v.toInt) else (st.1.setCell i c v, st.2)) (a, false)
    (a, { cs := if cl then Conds.sat else 0 })

/-- `plane.pack` at its start (R395). -/
def State.runPack (s : State) (b : Block) (k : Nat) (t : TileR) (addr stride : Word) (s16 : Bool) (scale : BitVec 16) :
    CmdRes :=
  let size := if s16 then 2 else 1
  let val (bs : List Byte) : Int := if s16 then (BitVec.ofNat 16 (leVal bs)).toInt else (BitVec.ofNat 8 (leVal bs)).toInt
  match readAll (fun i => s.cmdRead b k (addr + BitVec.ofNat 32 i * stride).toNat (t.kb * 64 * size)) (List.range t.lines) with
  | .error e => .bad e
  | .ok rows =>
    let code (i kk : Nat) : Res Int := satS (val (((rows.getD i []).drop (kk * size)).take size)) t.k
    let group (g : Nat) : List (Res Int) := (List.range 64).map fun e => code (g / t.kb) (g % t.kb * 64 + e)
    let gs := List.range (t.lines * t.kb)
    { writes := gs.flatMap fun g => [(t.groupAt g, planeWords t.k ((group g).map Res.val)), (t.scaleAt g, leBytes 2 scale.toNat)]
      cs := gs.foldl (fun m g => (group g).foldl (fun m r => m ||| r.cs) m) 0 }

/-- `plane.unpack` at its start (R396). -/
def State.runUnpack (s : State) (b : Block) (k : Nat) (t : TileR) (addr stride : Word) (s16 : Bool) : CmdRes :=
  let size := if s16 then 2 else 1
  match readAll (fun g => s.cmdRead b k (t.groupAt g) (8 * t.k)) (List.range (t.lines * t.kb)) with
  | .error e => .bad e
  | .ok gs =>
    { writes := (List.range t.lines).map fun i =>
        ((addr + BitVec.ofNat 32 i * stride).toNat, (List.range t.kb).flatMap fun j =>
          (List.range 64).flatMap fun e =>
            leBytes size (BitVec.ofInt 16 (planeElem t.k (wordsOf t.k (gs.getD (i * t.kb + j) [])) e)).toNat) }

/-- `cbt.ld` at its start (R397). -/
def State.runCbt (s : State) (b : Block) (k : Nat) (addr : Word) : CmdRes :=
  match s.cmdRead b k addr.toNat 512 with
  | .error e => .bad e
  | .ok bs => { tab := some ((List.range 256).map fun t => BitVec.ofNat 16 (leVal ((bs.drop (2 * t)).take 2))) }

/-- A command at its start: the accumulator after it, and what it will do when it retires. -/
def State.runCmd (s : State) (b : Block) (k : Nat) (op : CmdOp) (acc : Acc) : Acc × CmdRes :=
  match op with
  | .void _ => (acc, {})
  | .accClr _ x => ({ cells := [], x, sata := false }, {})
  | .mma _ x y => s.runMma b k acc x y
  | .pack t a st s16 sc => (acc, s.runPack b k t a st s16 sc)
  | .unpack t a st s16 => (acc, s.runUnpack b k t a st s16)
  | .accRd o a st ls fstat _ => (acc, runAccRd acc o a st ls fstat)
  | .accWr o a st => s.runAccWr b k acc o a st
  | .cbtLd a => (acc, s.runCbt b k a)

/-- Ticks of a number of gallery core cycles, at 2.1 GHz (R519). -/
def cyclesToTicks (n : Nat) : Nat := (10 * n + 20) / 21

/-- Commands on a core with their blocks. -/
def State.cmdsOn (s : State) (core : Nat) : List (Block × Cmd) :=
  (s.blocks.filter fun p => p.2.core == core).flatMap fun p => p.2.cmds.map fun c => (p.2, c)

/-- Whether a unit of a core is occupied (R362). -/
def State.unitBusy (s : State) (core u : Nat) : Bool :=
  (s.cmdsOn core).any fun p => p.2.op.unit.1 == u && match p.2.st with
    | .accepted => false
    | .running free _ _ => decide (s.now (coreDie core) < free)

/-- Whether a command is the oldest that its unit may start (R362). -/
def State.oldest (s : State) (core : Nat) (c : Cmd) : Bool :=
  !(s.cmdsOn core).any fun p => p.2.op.unit.1 == c.op.unit.1 && p.2.seq < c.seq && p.1.cmdReady p.2

/-- `COMMAND_START` (R362): a unit starts the oldest command that is ready. No command runs on an annex core (R424). DESIGN
CHOICE (log entry 98): it reads all its operand bytes here, at its start; R351 lets each byte of a slot that software has
released be the old or the new one. -/
def execCommandStart (bk key : Nat) (s : State) : Host.Outcome State Fault Refusal :=
  match s.blk bk with
  | none => .refused (.notEnabled "COMMAND_START")
  | some b =>
    match b.cmds.find? fun c => c.key == key with
    | none => .refused (.notEnabled "COMMAND_START")
    | some c =>
      if isAnnex b.die || !b.cmdReady c || s.unitBusy b.core c.op.unit.1 || !s.oldest b.core c then
        .refused (.notEnabled "COMMAND_START")
      else
        let a := c.op.acc.getD 0
        let (acc, res) := s.runCmd b bk c.op (b.accs.getD a {})
        let now := s.now b.die
        let n := c.op.unit.2
        let b := if c.op.acc.isSome && res.fault.isNone then { b with accs := setAt b.accs a acc } else b
        .next (s.setBlk bk { b with cmds := b.cmds.map fun d =>
          if d.key = key then { d with st := .running (now + cyclesToTicks n) (now + cyclesToTicks (n + 23)) res } else d })

/-- A retired command's register writes (R369, R393), with their places in the register record (R456). -/
def State.cmdRegs (s : State) (k : Nat) (c : Cmd) (res : CmdRes) : State :=
  match s.blk k, c.op with
  | some b, .accRd _ _ _ _ _ seqs =>
    match b.band c.capBand with
    | none => s
    | some x =>
      let x' := x.modLanes (res.regs.map (·.1)) fun l ln =>
        if ln.st = .exited then ln else ((tget res.regs l).getD []).foldl (fun ln w => ln.setV w.1 w.2) ln
      let b := b.setBand c.capBand (x'.unlatch (res.regs.flatMap fun p => p.2.map (·.1)))
      let sign (g : Sig) (l : Nat) (ws : List (Nat × Word)) : Sig :=
        (ws.mapIdx fun j w => (j, w)).foldl (fun g q =>
          g.regw q.2.2 (c.capBand * b.bandw + l) q.2.1 ((tget seqs l).getD 0 + q.1)) g
      s.setBlk k (if b.sid.isNone then b else { b with sig := res.regs.foldl (fun g p => sign g p.1 p.2) b.sig })
  | _, _ => s

/-- What a command does as it retires (R363): one that has met a fault, or whose destination is gone, has no effect. -/
def State.retireRes (s : State) (b : Block) (k : Nat) (res : CmdRes) : CmdRes :=
  let gone : Option Trap := res.writes.findSome? fun w => match s.scrRange b k w.1 w.2.length with
    | .ok _ => none
    | .error t => some { t with cls := .perm }
  match res.fault.or gone with
  | none => res
  | some t => { fault := some t }

/-- `COMMAND_RETIRE` (R363). -/
def execCommandRetire (bk key : Nat) (s : State) : Host.Outcome State Fault Refusal :=
  match s.blk bk with
  | none => .refused (.notEnabled "COMMAND_RETIRE")
  | some b =>
    match b.cmds.find? fun c => c.key == key with
    | none => .refused (.notEnabled "COMMAND_RETIRE")
    | some c =>
      match c.st with
      | .accepted => .refused (.notEnabled "COMMAND_RETIRE")
      | .running _ retire res =>
        if s.now b.die < retire then .refused (.notEnabled "COMMAND_RETIRE")
        else
          let res := s.retireRes b bk res
          let s := res.writes.foldl (fun s w => match s.scrRange b bk w.1 w.2.length with
            | .ok (win, off) => if b.later && win != bk then s else s.scrWrite win off w.2
            | .error _ => s) s
          let s := s.cmdRegs bk c res
          let s := match res.tab with
            | some t => { s with ctxs := tmod s.ctxs b.asid fun x => { x with cbt := some t } }
            | none => s
          let s := s.modBlk bk fun b => c.members.foldl (fun b n => b.modBand n fun x =>
              { (x.raise res.cs).dropAcc key with mmaOut := countOff x.mmaOut key })
            { b with cmds := b.cmds.filter fun d => d.key != key }
          .next (match res.fault with
            | some t => s.engineFault bk (lowest c.members) true { t with akind := 1, cmdid := c.id } c.seq
            | none => s)

end Sys2Proof.Machine
end

