-- ==== Sys2Proof/Machine/Stream.lean ====
section
/-! DEFINITION. Group 11: configuring and positioning stream ports (R326 to R329, R336). -/

namespace Sys2Proof.Machine

open Sys2Proof

/-- Word j of a descriptor, of n bytes at an offset. -/
def descVal (bs : List Byte) (off n : Nat) : Nat := leVal ((bs.drop off).take n)

/-- The pattern that a descriptor's bytes and the instruction give (R327, R328). -/
def patternOf (o : StrmCfg) (addr : DWord) (bs : List Byte) : Pattern :=
  { push := o.push, wrap := o.wrap, lst := o.lst, ndim := o.ndim.toNat + 1, kind := o.kind, xefmt := o.xefmt
    xegeo := o.xegeo, base := BitVec.ofNat 64 (descVal bs 0 8)
    cnt := (List.range 4).map fun j => BitVec.ofNat 32 (descVal bs (8 + 4 * j) 4)
    str := (List.range 4).map fun j => BitVec.ofNat 64 (descVal bs (24 + 8 * j) 8)
    descAddr := addr }

/-- The FMT checks of R329. -/
def patternOk (p : Pattern) (bs : List Byte) : Bool :=
  (p.cnt.take p.ndim).all (· != 0) && descVal bs 0x38 8 == 0

/-- `strm.cfg` (R328, R329): the checks come in the order ALIGN, PAGE, PERM, POISON, FMT. -/
def execStrmCfg (h : Hdr) (o : StrmCfg) (s : State) : Host.Outcome State Fault Refusal :=
  runO (.strmCfg h o) s fun y =>
    if y.ex.isEmpty then .next (y.finish y.base (.strmCfg h o) [])
    else
      let l := lowest y.act
      let t := y.x.u64 o.a.toNat
      match y.reach .read 64 [(l, t.toNat)] with
      | .error e => .next (y.stop e)
      | .ok xs =>
        match regStop xs fun _ => false, y.held true xs, y.missing false (xs.map fun a => (a, 64)) with
        | some r, _, _ => .refused r
        | none, some u, _ => .next u
        | none, none, p :: ps => .next (y.fetchFor false false (p :: ps))
        | none, none, [] =>
          match y.poisoned false 64 xs with
          | some e => .next (y.poisonOut e)
          | none =>
            let hs := xs.filterMap fun a => y.handAll false a 64
            let bs := hs.flatMap AtHand.bs
            let p := patternOf o t bs
            if !patternOk p bs then .next (y.trap { cls := .fmt, lane := l, addr := t })
            else
              let x := ({ y.x with ports := modAt y.x.ports o.k.toNat fun _ =>
                { cfg := true, pat := p, p := 0, endf := false, ahead := [], sigma := y.x.sigma } } : Band).took hs
              let y := { y with s := y.reads y.s xs, x := x }
              .next (y.finish y.base (.strmCfg h o) [])

/-- `strm.pos` (R336). -/
def execStrmPos (h : Hdr) (o : StrmPos) (s : State) : Host.Outcome State Fault Refusal :=
  runBand (.strmPos h o) s fun y =>
    y.ex.map fun l => (l, .dst (.u o.d) true (y.x.ports.getD o.k.toNat {}).p)

/-- `strm.set` (R336). -/
def execStrmSet (h : Hdr) (o : StrmSet) (s : State) : Host.Outcome State Fault Refusal :=
  run (.strmSet h o) s fun y =>
    let x := if y.ex.isEmpty then y.x
      else { y.x with ports := modAt y.x.ports o.k.toNat fun p =>
        { p with p := y.x.u64 o.a.toNat, endf := false, ahead := [], sigma := y.x.sigma } }
    { y with x := x }.finish { y with x := x }.base (.strmSet h o) []

/-- `strm.end` (R336). -/
def execStrmEnd (h : Hdr) (o : StrmEnd) (s : State) : Host.Outcome State Fault Refusal :=
  run (.strmEnd h o) s fun y =>
    let e := (y.x.ports.getD o.k.toNat {}).endf
    let x := if o.clr && !y.ex.isEmpty then { y.x with ports := modAt y.x.ports o.k.toNat fun p => { p with endf := false } }
      else y.x
    { y with x := x }.commit (.strmEnd h o) (y.ex.map fun l => (l, .pr o.p e))

end Sys2Proof.Machine
end

