-- ==== Sys2Proof/Machine/Messages.lean ====
section
/-! DEFINITION. What happens between instructions to the accesses in flight: packets, homes, leases, ownership, watch
checks, stack channels, stream engines and remote operations (R244 to R258, R273 to R294, R485 to R495). -/

namespace Sys2Proof.Machine

open Sys2Proof

/-- A device step that cannot occur in the state. -/
def notNow (what : String) : Host.Outcome State Fault Refusal := .refused (.notEnabled what)

/-- An access that no band made meets a loan and waits (R437, R467): the time is noted of the first that does, and nothing
else happens. -/
def State.waitOn (s : State) (sid : Nat) (what : String) : Host.Outcome State Fault Refusal :=
  if (tget s.samples sid).any fun m => m.outside.isNone then
    .next { s with samples := tmod s.samples sid fun m => { m with outside := some s.time } }
  else notNow what

/-- A delivered packet that waits at its destination. -/
def State.waitingPkt (s : State) (p : Nat) : Option Pkt := s.arrived.find? fun q => q.id == p

/-- Takes a delivered packet. -/
def State.takePkt (s : State) (p : Nat) : State := { s with arrived := s.arrived.filter fun q => q.id != p }

/-! ### Stack channels (R483 to R490) -/

/-- Reads a line into its slice: two requests, whose data the slice takes (R490). -/
def State.fetchLine (s : State) (pa kid : Nat) : State :=
  if isHost pa || (s.home (lineOf pa)).inSlice then s.intoSlice pa
  else
    (List.range 2).foldl (fun s j => s.readUnit (128 * lineOf pa + 64 * j) kid .slice) (s.intoSlice pa)

/-- `STACK_REQUEST` (R485): the oldest request of a channel goes out under the lowest free tag. -/
def execStackRequest (ch : Nat) (s : State) : Host.Outcome State Fault Refusal :=
  match tget s.channels ch with
  | none => notNow "STACK_REQUEST"
  | some c =>
    match c.queue, (List.range 8).find? fun t => (tget c.out t).isNone with
    | r :: q, some t => .next { s with channels := tset s.channels ch { c with queue := q, out := tset c.out t r } }
    | _, _ => notNow "STACK_REQUEST"

/-- Marks a codeword poisoned in its stack (R489). -/
def State.poisonCw (s : State) (n : Nat) : State :=
  { s with cw := tset s.cw n { (tget s.cw n).getD {} with poison := true } }

/-- The completion of a store returns to its core (R246, R490), under the deadline of its request (R256). -/
def State.ackStore (s : State) (q : Pkt) (w : Nat) (err : Bool) : State :=
  match q.msg with
  | .storeReq r => s.answer q .reply (coreRouter r.core) (.storeAck r w (s.home r.line).version err)
  | _ => s

/-- An error status that no band can receive: a record of TYPE 4 in the function that owns the key (R471). -/
def State.logWriteError (s : State) (kid pa lid bx by' bz : Nat) : State :=
  match s.keyOwner kid with
  | none => s
  | some f => s.flog f (flogRecord 4 0 0 (s.lidField lid) bx by' bz 0 (TrapClass.poison.code) pa)

/-- Whether another request of a packet is out or waits at a channel. -/
def Channel.more (c : Channel) (q : Pkt) : Bool :=
  (c.queue ++ c.out.map (·.2)).any fun r => match r.for_ with
    | .store p _ | .load p _ _ _ _ => p.id == q.id
    | .slice | .work _ _ _ _ | .none => false

/-- What a reply does for its request: `bad` is POIS or MERR. A store of two units is complete with the second. -/
def State.stackDone (s : State) (ch : Nat) (r : StackReq) (bad : Bool) : State :=
  let pa := unitPa ch r.addr
  match r.for_ with
  | .store q w => if ((tget s.channels ch).getD {}).more q then s else s.ackStore q w bad
  | .load q a w version ec =>
    match q.msg with
    | .loadReq k n op core line _ _ _ sc _ =>
      s.answer q .reply (coreRouter core)
        (.loadRep k n op core line (a % 128) true sc r.data 0 version w ec (s.home line).poisoned)
    | _ => s
  | .work lid bx by' bz => if bad then s.logWriteError r.kid pa lid bx by' bz else s
  | .slice | .none => s

/-- Chip times within the last 2^40 ticks. -/
def recent (now : Nat) (l : List Nat) : List Nat := l.filter fun t => decide (now < t + 2 ^ 40)

/-- Counts a channel's corrected or lost codewords; more than 2^20 corrected ones make it suspect (R513). -/
def Channel.countError (c : Channel) (now found : Nat) : Channel :=
  let c := if found = 1 then { c with corrected := recent now c.corrected ++ [now] }
    else if found = 2 then { c with lost := recent now c.lost ++ [now] }
    else c
  { c with suspect := c.suspect || decide (2 ^ 20 < c.corrected.length) }

/-- What a reply with an error does to the requests sent around it (R487, R489): a read that finds none shows that no masked
write before it has met one; one that a masked write meets stands in every read sent after it to its unit. -/
def Channel.settleError (c : Channel) (r : StackReq) (bad : Bool) : Channel :=
  let f (q : StackReq) : StackReq :=
    if r.kind = .rd ∧ !bad ∧ r.after.contains q.no then { q with clean := true }
    else if r.kind = .mw ∧ bad ∧ q.after.contains r.no then { q with psn := true }
    else q
  { c with queue := c.queue.map f, out := c.out.map fun p => (p.1, f p.2) }

/-- Whether a request may meet an uncorrectable error: a read, or a masked write that merges a codeword and before which no
read sent later has found none. -/
def StackReq.mayErr (r : StackReq) : Bool := r.kind == .rd || (!r.merges.isEmpty && !r.clean)

/-- `STACK_REPLY` (R486 to R489): `found` is 0 for no error, 1 for a corrected one, 2 for an uncorrectable one. Requests take
effect in the order of sending, whatever the order of their replies. With POIS or MERR the home holds the line poisoned,
unless a later write has replaced the codewords that a masked write merged. -/
def execStackReply (ch tag found : Nat) (s : State) : Host.Outcome State Fault Refusal :=
  match tget s.channels ch with
  | none => notNow "STACK_REPLY"
  | some c =>
    match tget c.out tag with
    | none => notNow "STACK_REPLY"
    | some r =>
      let found := if c.dead && r.kind == .rd then 2 else found
      if found = 2 ∧ r.mayErr = false then notNow "STACK_REPLY"
      else
        let bad := found == 2 || (r.kind == .rd && r.psn)
        let c := ({ c with out := tdel c.out tag }.countError s.time found).settleError r bad
        let s := { s with channels := tset s.channels ch c }
        let holds := bad && (r.kind == .rd || r.merges.any fun j => !r.replaced.contains j)
        .next ((if holds then s.holdPoison (lineOf (unitPa ch r.addr)) else s).stackDone ch r bad)

/-! ### The network (R254 to R258, R481) -/

/-- The bands that a late packet counts for: the one that issued the access, or those that issued the copy (R258). -/
def State.lateBands (s : State) (q : Pkt) : List (Nat × Nat) :=
  match q.block with
  | none => []
  | some (k, n) =>
    let of (id : Nat) : List Nat :=
      ((((s.blk k).map Block.copies).getD []).find? fun c => c.taken.any fun t => t.2 == id).elim [n] Copy.issuers
    match q.msg with
    | .engine _ id _ _ | .engineRep _ id => (of id).map fun m => (k, m)
    | _ => [(k, n)]

/-- A band's DEADLINE becomes pending (R258, R404). -/
def Band.raiseDl (x : Band) (seq : Nat) : Band :=
  { x with asyncDl := match x.asyncDl with
      | some a => some { a with ovf := true }
      | none => some ⟨{ cls := .deadline }, false, seq⟩ }

/-- A late packet: it is counted, for its die and for its bands (R429), which may take DEADLINE (R258, R451). -/
def State.latePkt (s : State) (q : Pkt) : State :=
  let s := { s with pf := { s.pf with netlate := modAt s.pf.netlate q.dest.die satInc } }
  let bs := s.lateBands q
  let s := bs.foldl (fun s p => s.modBand p.1 p.2 fun x =>
    x.count (((s.blk p.1).map fun b => s.dbg b 3).getD false) 6 1) s
  match s.grid q.lid with
  | none => s
  | some g =>
    let quiet := match g.lastDl with
      | none => true
      | some t => decide (t + 2 ^ 20 ≤ s.time)
    let counts := q.cls != .probe && match q.msg with
      | .writeback _ _ _ _ _ _ => false
      | _ => true
    let bs := bs.filter fun p => ((s.blk p.1).map fun b => b.sid.isNone).getD false
    if g.dlx && quiet && counts && !bs.isEmpty then
      bs.foldl (fun s p => s.modBand p.1 p.2 fun x => x.raiseDl s.serial)
        (s.modGrid q.lid fun g => { g with lastDl := some s.time })
    else s

/-- `PACKET_DELIVERY` (R254, R257, R258, R481): the packet that a router's output sends first moves to the next router of its
path, or is delivered at its destination. -/
def execPacketDelivery (p : Nat) (s : State) : Host.Outcome State Fault Refusal :=
  match s.net.find? fun q => q.id == p with
  | none => notNow "PACKET_DELIVERY"
  | some q =>
    if !s.firstOut q then notNow "PACKET_DELIVERY"
    else
      match s.nextHop q with
      | none => notNow "PACKET_DELIVERY"
      | some (some (r, port, cross)) =>
        let moved := { q with at' := r, inPort := port, since := s.now r.die, crossed := q.crossed + cross.toNat }
        .next { s with net := s.net.map fun o => if o.id = p then moved else o }
      | some none =>
        let s := { s with net := s.net.filter fun o => o.id != p
                          arrived := s.arrived ++ [{ q with since := s.now q.dest.die }] }
        .next (if q.deadline < s.now q.dest.die then s.latePkt q else s)

/-! ### The home (R245 to R248) -/

/-- The home recalls a line that a core owns (R247). -/
def State.startRecall (s : State) (line c : Nat) (q : Pkt) : State :=
  (s.answer q .probe (coreRouter c) (.recall c line)).setHome line { s.home line with recalling := true }

/-- Whether no earlier access to a line waits at the home for anything but a loan: a home serves a line's requests in the
order of their arrival (R246). -/
def State.turnOf (s : State) (q : Pkt) (line : Nat) : Bool :=
  (s.arrived.takeWhile fun p => p.id != q.id).all fun p =>
    p.homeLine != some line || !p.msg.isAccess || (s.pktLoan p line).isSome

/-- What a home does first with a request: it waits, its line is recalled, or it can be served. -/
inductive Gate where
  | wait
  | recall (s : State)
  | go (s : State)

/-- The home asks the host for its copy of a line (R502). -/
def State.backInvalidate (s : State) (line lid : Nat) (blk : Option (Nat × Nat)) (deadline : Nat) : State :=
  ({ s with hostAsked := s.hostAsked ++ [line] }).post (s.homeRouter (128 * line)) hostRouter .probe deadline lid blk
    (.engine line 0 0 false)

/-- Whether the grant of a line is on its way to a core. -/
def State.granting (s : State) (core line : Nat) : Bool :=
  (s.net ++ s.arrived).any fun q => q.msg == .ownRep core line

/-- A request meets the loans on its line (R437), the requests before it, the host, which is asked for its copy (R502), and the
line's owner, which is recalled (R247). `keep` names a core whose own ownership is no obstacle. -/
def State.atHome (s : State) (q : Pkt) (line : Nat) (keep : Option Nat) : Gate :=
  if (s.pktLoan q line).isSome || !s.turnOf q line then .wait
  else if s.hostHeld.contains line then
    (if s.hostAsked.contains line then .wait else .recall (s.backInvalidate line q.lid q.block q.deadline))
  else
    match (s.home line).owner with
    | some c =>
      if keep = some c ∧ (s.owns c line || s.granting c line) = true then .go s
      else if (s.home line).recalling then .wait
      else .recall (s.startRecall line c q)
    | none => .go s

/-- What an access that the device makes at a home by itself does first (R246, R247, R437, R502): it waits for what has arrived
there before it, and for the recall of the line. -/
def State.deviceGate (s : State) (line : Nat) : Gate :=
  if s.queued line then .wait
  else if s.hostHeld.contains line then
    (if s.hostAsked.contains line then .wait
      else .recall (s.backInvalidate line 0 none (s.now 4 + (s.pf.dlbud.getD 0 0).toNat)))
  else
    match (s.home line).owner with
    | none => .go s
    | some c =>
      if (s.home line).recalling then .wait
      else .recall ((s.send (s.homeRouter (128 * line)) (coreRouter c) .probe 0 none (.recall c line)).setHome line
        { s.home line with recalling := true })

/-- Runs an access of the device itself once nothing at its line's home stands before it. -/
def State.atGate (s : State) (what : String) (line : Nat) (f : Host.Outcome State Fault Refusal) :
    Host.Outcome State Fault Refusal :=
  match s.deviceGate line with
  | .wait => notNow what
  | .recall t => .next t
  | .go _ => f

/-- The time is noted since which an access that no band made waits on a loan (R467). -/
def State.noteOutside (s : State) (sid : Nat) : State :=
  { s with samples := tmod s.samples sid fun m => { m with outside := some (m.outside.getD s.time) } }

/-- Bytes that the device writes by itself at a home, under KEYID 0 unless another is named, with a packet of class 0 (R256). -/
def State.devicePut (s : State) (pa : Nat) (bs : List Byte) (kid : Nat := 0) : State :=
  if isDev pa || isHost pa then
    (((s.deviceAsk [lineOf pa]).homeStore kid pa bs).1).maskedWrite (.work 0 0 0 0) kid pa bs
  else s

/-- Writes the oldest record that waits for a function's fault log (R411): a full ring drops it. It goes after what has arrived
at its line's home before it, and waits for a loan on the line (R246, R437). -/
def State.flushLog (s : State) (f : Nat) : State :=
  let x := s.fn f
  match x.flogWait, x.flogSlot with
  | [], _ => s
  | _ :: _, none => s.setFn f (x.flogDone true)
  | rec :: _, some a =>
    match s.loanOn none (lineOf a) (2 ^ 70) with
    | some i => s.noteOutside i
    | none =>
      match s.deviceGate (lineOf a) with
      | .wait => s
      | .recall t => t
      | .go _ => (s.devicePut a rec).modFn f fun x => x.flogDone false

/-- Writes the records that wait for the fault logs, as far as nothing stands before them. -/
def State.flushLogs (s : State) : State :=
  s.fns.foldl (fun s p => (List.range p.2.flogWait.length).foldl (fun s _ => s.flushLog p.1) s) s

/-- Reads a line into its slice and leaves the request waiting for it (R490). -/
def State.awaitLine (s : State) (what : String) (pa kid : Nat) : Host.Outcome State Fault Refusal :=
  if s.fetching (lineOf pa) then notNow what else .next (s.fetchLine pa kid)

/-- The units of a line that an access in flight, or an instruction that waits for bytes, still needs. -/
def State.unitsNeeded (s : State) (k n op line : Nat) : List Nat :=
  match (s.blk k).bind fun b => b.band n with
  | none => []
  | some x =>
    let pas : List Nat := match x.pend.find? fun p => p.id == op with
      | some p => (p.lanes.filter fun (l : PendLane) => !l.done).map PendLane.pa
      | none => ((x.hold.filter fun (q : Hold) => q.id == op).map fun (q : Hold) =>
          q.need.flatMap fun (p : Nat × Nat) => [p.1, p.1 + p.2 - 1]).getD []
    (List.range 2).filter fun j => pas.any fun a => a / 64 == 2 * line + j

/-- The retained versions in the version area: those that their slice has evicted, and those beyond the quarter of a slice that
versions may fill (R466, R468). -/
def State.spilled (s : State) : List OldByte :=
  let prov := s.provLines
  (s.retained.foldl (fun (st : List OldByte × List (Nat × Nat)) o =>
    let l := lineOf o.pa
    let sl := s.sliceOf o.pa
    if (s.home l).inSlice && (st.2.contains (l, o.w)
        || s.inSliceOf sl (prov ++ st.2.map (·.1)) < sliceCap sl / 4) then (st.1, if st.2.contains (l, o.w) then st.2 else st.2 ++ [(l, o.w)])
    else (st.1 ++ [o], st.2)) ([], [])).1

/-- A version that has no room in the version area releases the sample whose later run needs it (R461, R468). Versions of
writes that are not complete yet stay: a snapshot may still begin below them (R440). -/
def State.versionTrim (s : State) : State :=
  if s.hist.isEmpty then s
  else if !s.samples.any fun p => p.2.open' then { s with hist := s.hist.filter fun h => s.time < h.w }
  else
    let spilled := s.spilled
    if spilled.length ≤ Config.versionArea then s
    else
      match s.samples.find? fun p => p.2.open' && p.2.st != .primary && spilled.any fun o =>
          (retainedFor p.2.sigmas s.hist).contains o with
      | none => s
      | some p => s.releaseSample p.1 (some 6)

/-- The answer to the watch check that goes with a read (R285): the expiry of a confirmation, where the home holds the
line's record. -/
def State.watchEc (s : State) (watch : Bool) (line : Nat) : Option Nat :=
  if watch && (s.home line).recorded then some (s.now (homeDie (128 * line)) + s.leaseLen) else none

/-- Raises LX of a line (R245, R285). -/
def State.raiseLx (s : State) (line : Nat) (e : Option Nat) : State :=
  match e with
  | none => s
  | some e => s.setHome line { s.home line with lx := max (s.home line).lx e }

/-- Serves a read of a line from its slice (R245): a lease for a cacheable one. -/
def State.serveLoad (s : State) (q : Pkt) (k n op core line kid : Nat) (unc sc watch : Bool) : State :=
  let e := s.now (homeDie (128 * line)) + s.leaseLen
  let ec := s.watchEc watch line
  let s := s.raiseLx line (if unc then ec else some e)
  let h := s.home line
  (s.answer q .reply (coreRouter core)
    (.loadRep k n op core line 0 unc sc (s.rd kid (128 * line) 128) (if unc then 0 else e) h.version h.w ec
      (s.linePoison (128 * line))))

/-- Serves a read through a page with NC = 1 of a line that the slice does not hold: the stack gives the units (R490). -/
def State.serveNc (s : State) (q : Pkt) (k n op line kid : Nat) (watch : Bool) : State :=
  let ec := s.watchEc watch line
  let s := s.raiseLx line ec
  let h := s.home line
  (s.unitsNeeded k n op line).foldl (fun s j => let a := 128 * line + 64 * j; s.readUnit a kid (.load q a h.w h.version ec)) s

/-- What the read of an engine or of the walker makes of its line at the home (R490): the slice takes it, or through a page
with NC = 1 its units are read. -/
def State.unitAsk (s : State) (line kid : Nat) (nc : Bool) : State :=
  let pa := 128 * line
  if (s.home line).inSlice || !(isDev pa || isHost pa) then s
  else if nc then (if isDev pa then (List.range 2).foldl (fun s j => s.readUnit (pa + 64 * j) kid .none) s else s)
  else s.fetchLine pa kid

/-- `LOAD_REQUEST` (R245, R490); that of an engine or of the walker is answered once the host holds the line no more (R502). A
page with NC = 1 brings no line into the slice. -/
def execLoadRequest (p : Nat) (s : State) : Host.Outcome State Fault Refusal :=
  match s.waitingPkt p with
  | none => notNow "LOAD_REQUEST"
  | some q =>
    match q.msg with
    | .loadReq k n op core line kid unc nc sc watch =>
      match s.atHome q line none with
      | .wait => notNow "LOAD_REQUEST"
      | .recall t => .next t
      | .go s =>
        let pa := 128 * line
        if nc && !isHost pa && !(s.home line).inSlice then .next ((s.takePkt p).serveNc q k n op line kid watch)
        else if s.cold pa then s.awaitLine "LOAD_REQUEST" pa kid
        else
          let t := s.takePkt p
          .next ((if nc then t else t.intoSlice pa).serveLoad q k n op core line kid unc sc watch)
    | .engine line id kid nc =>
      if q.cls = .request ∧ s.hostHeld.contains line = true then
        (if s.hostAsked.contains line then notNow "LOAD_REQUEST"
          else .next (s.backInvalidate line q.lid q.block q.deadline))
      else
        let t := (s.takePkt p).answer q .reply q.src (.engineRep line id)
        .next (if q.cls = .request then t.unitAsk line kid nc else t)
    | _ => notNow "LOAD_REQUEST"

/-- The parts of a store applied to a line that a core owns, in its L1. -/
def State.ownedPut (s : State) (line : Nat) (parts : List (Nat × Nat × List Byte)) : State :=
  match (s.home line).owner with
  | none => s
  | some c => s.setCore c ((s.core c).l1Mod line fun l =>
      { parts.foldl (fun l a => l.put a.2.1 a.2.2) l with version := (s.home line).version })

/-- The write of the parts of a store that lie in one unit, as it goes to the stack (R490). -/
def State.unitWrite (s : State) (r : StoreReq) (f : StackFor) (u : Nat) : State :=
  let on (i : Nat) : Bool := r.parts.any fun a => a.2.1 ≤ u + i && u + i < a.2.1 + a.2.2.length
  let mask : BitVec 64 := (List.range 64).foldl (fun m i => if on i then m ||| ((1 : BitVec 64) <<< i) else m) 0
  s.writeUnit u r.kid mask (((List.range 64).filter on).map fun i => s.rdByte r.kid (u + i)) f

/-- The time at which a store is performed at its home: its arrival there (R246), or for host memory the time at which the
host link reports it, which is that of this step (R273). -/
def State.storeA (s : State) (q : Pkt) (pa : Nat) : Nat := if isHost pa then s.now (homeDie pa) else q.since

/-- The stores of one instruction to a line, performed at its home in lane order (R246, R309): their W, and their
completion, which a page with NC = 1 leaves to the stack. Such a page brings no line into the slice (R490). -/
def State.serveStore (s : State) (q : Pkt) (r : StoreReq) : State :=
  let pa := 128 * r.line
  let a := s.storeA q pa
  let w := s.wOf pa a
  let viaStack := r.nc && !(s.home r.line).inSlice && !isHost pa
  let s := if r.nc then s else if r.clr then s.intoSlice pa else s.fetchLine pa r.kid
  let s := if r.clr then s.unpoison r.line else s
  let s := (r.parts.foldl (fun s p => s.poke r.kid p.2.1 w a p.2.2) s).ownedPut r.line r.parts
  if viaStack then ((r.parts.map fun p => p.2.1 / 64 * 64).eraseDups).foldl (fun s u => s.unitWrite r (.store q w) u) s
  else s.ackStore q w false

/-- The read-modify-writes of one instruction on a line, performed at its home in lane order (R280, R281, R320): their A and
their W are the time of this step. The answer brings their old values and the W that the band receives with them (R274): a
reduction returns none. -/
def State.serveAtom (s : State) (q : Pkt) (r : AtomReq) : State :=
  match (s.blk r.block).bind fun b => (b.band r.band).map fun x => (b, x) with
  | none => s
  | some (b, x) =>
    match x.pend.find? fun p => p.id == r.op with
    | none => s
    | some p =>
      let t := s.now (homeDie (128 * r.line))
      let go (op : AOp) (w64 red : Bool) : State :=
        let n := if w64 then 8 else 4
        let u := r.lanes.foldl (fun (u : State × List DWord) l =>
          let v := u.1.rmw r.block r.band l.va { pa := l.pa, attr := l.attr, kid := l.kid, reg := ⟨0, 0, 0, 0⟩ } op w64 red
            (p.b.getD l.j 0) (p.c.getD l.j 0) p.seq t
          (v.1.maskedWrite b.work' l.kid l.pa (v.1.rd l.kid l.pa n), u.2 ++ [v.2])) (s, [])
        u.1.answer q .reply (coreRouter r.core)
          (.atomRep r u.2 (if red then t else max t (s.home r.line).w) (u.1.home r.line).version)
      match p.kind with
      | .atom op w64 => go op w64 false
      | .red op w64 => go op w64 true
      | .load _ | .watch _ => s

/-- `STORE_ARRIVAL` (R246, R247, R320): stores and read-modify-writes at their home. -/
def execStoreArrival (p : Nat) (s : State) : Host.Outcome State Fault Refusal :=
  match s.waitingPkt p with
  | none => notNow "STORE_ARRIVAL"
  | some q =>
    match q.msg with
    | .storeReq r =>
      match s.atHome q r.line (if r.sc then none else some r.core) with
      | .wait => notNow "STORE_ARRIVAL"
      | .recall t => .next t
      | .go s => if s.fetching r.line then notNow "STORE_ARRIVAL" else .next ((s.takePkt p).serveStore q r)
    | .atomReq r =>
      match s.atHome q r.line none with
      | .wait => notNow "STORE_ARRIVAL"
      | .recall t => .next t
      | .go s =>
        if s.cold (128 * r.line) && (s.fetching r.line || !r.nc) then
          s.awaitLine "STORE_ARRIVAL" (128 * r.line) ((r.lanes.head?.map AtomLane.kid).getD 0)
        else .next ((s.takePkt p).serveAtom q r)
    | _ => notNow "STORE_ARRIVAL"

/-- The bands of a core that have read a store of it learn its W (R274). -/
def Band.learn (x : Band) (id w : Nat) : Band :=
  if x.waitW.contains id then { x.seen w with waitW := x.waitW.filter (· != id) } else x

/-- All bands learn the W of a store. -/
def State.learnAll (s : State) (id w : Nat) : State :=
  let bs : Tbl Block := s.blocks.map fun b => (b.1, { b.2 with bands := b.2.bands.map fun x => x.learn id w })
  { s with blocks := bs }

/-- A core whose store has come back (R274, R278): the copies that hold it know its W, and a copy that the store left
alone is older than what the core has seen. -/
def Core.storeBack (c : Core) (r : StoreReq) (w version : Nat) : Core :=
  { c with
    unacked := c.unacked.filter fun q => q.1 != r.id
    stored := tset c.stored r.line (max ((tget c.stored r.line).getD 0) version)
    newest := if r.sc then tset c.newest r.line (max (c.newestOf r.line) version) else c.newest
    l1 := c.l1.map fun l =>
      if l.stores.contains r.id then { l with w := max l.w w, stores := l.stores.filter (· != r.id) } else l }

/-- The issuing band takes W, in its horizon or with its push, and an error status (R246, R274, R293, R471). -/
def Band.storeBack (x : Band) (r : StoreReq) (w : Nat) (err : Bool) : Band :=
  let x := x.stored r.push w
  { x with
    storesOut := if r.push.isSome then x.storesOut else x.storesOut - 1
    werr := if err && x.werr.isNone then r.parts.head?.map fun a => BitVec.ofNat 64 a.1 else x.werr }

/-- `STORE_COMPLETION` (R246, R274, R281, R471). -/
def execStoreCompletion (p : Nat) (s : State) : Host.Outcome State Fault Refusal :=
  match s.waitingPkt p with
  | none => notNow "STORE_COMPLETION"
  | some q =>
    match q.msg with
    | .storeAck r w version err =>
      let s := s.takePkt p
      let s := s.setCore r.core ((s.core r.core).storeBack r w version)
      let s := s.learnAll r.id w
      let s := s.modBand r.block r.band fun x => x.storeBack r w err
      .next (if r.sc then s.scDone r.core else s)
    | _ => notNow "STORE_COMPLETION"

/-- `RECALL` (R247): the owner gives the line up, under the deadline of the request (R256); one that has already done so
sends nothing, and its write-back is the answer. A recall that comes before the grant waits for it. -/
def execRecall (p : Nat) (s : State) : Host.Outcome State Fault Refusal :=
  match s.waitingPkt p with
  | none => notNow "RECALL"
  | some q =>
    match q.msg with
    | .recall c line =>
      match (s.core c).l1Line line with
      | some x =>
        if x.owned then
          .next (((s.takePkt p).setCore c ((s.core c).l1Drop line)).answer q .reply (s.homeRouter (128 * line))
            (x.writeback c none))
        else if s.granting c line then notNow "RECALL"
        else .next (s.takePkt p)
      | none => if s.granting c line then notNow "RECALL" else .next (s.takePkt p)
    | _ => notNow "RECALL"

/-- The work that a packet belongs to (R471). -/
def State.pktWork (s : State) (q : Pkt) : StackFor :=
  ((q.block.bind fun p => s.blk p.1).map Block.work').getD (.work q.lid 0 0 0)

/-- `OWNER_WRITEBACK` (R247): the recall is complete, and what waited for it arrives now. A core that has been granted the
line anew keeps it. -/
def execOwnerWriteback (p : Nat) (s : State) : Host.Outcome State Fault Refusal :=
  match s.waitingPkt p with
  | none => notNow "OWNER_WRITEBACK"
  | some q =>
    match q.msg with
    | .writeback c line data mask _ wb =>
      let h := s.home line
      let s := s.takePkt p
      let s := if data.isSome then s.ownedBack (s.pktWork q) line mask else s
      let s := if h.owner = some c ∧ (s.owns c line || s.granting c line) = false then
          (s.setHome line { h with owner := none, recalling := false }).rearrive fun l => l == line
        else s
      .next (match wb with
        | some (k, n) => s.modBand k n fun x => { x with storesOut := x.storesOut - 1 }
        | none => s)
    | _ => notNow "OWNER_WRITEBACK"

/-! ### Replies at the core (R244, R245, R274, R278) -/

/-- Replaces the body of the TYPE 4 record that a pending atomic made at its issue (R446). -/
def Sample.patchAtom (m : Sample) (n : Nat) (p : PendOp) : Sample :=
  { m with log := m.log.map fun r =>
      if r.type = 4 ∧ r.band = n ∧ r.issue = p.issue then { r with body := atomBody p.lanes } else r }

/-- The register records of an access in flight, at the places that its issue took (R456). -/
def Block.signPend (b : Block) (n : Nat) (p : PendOp) : Block :=
  if b.sid.isNone then b
  else { b with sig := p.outs.foldl (fun g o => (o.2.v.mapIdx fun j w => (j, w)).foldl (fun g q =>
    g.regw q.2.2 (n * b.bandw + o.1) q.2.1 ((tget p.seqs o.1).getD 0 + q.1)) g) b.sig }

/-- The stores of a push whose values have come (R333). -/
def PendOp.pushParts (p : PendOp) (es : List PushEnt) : List StorePart :=
  es.filterMap fun e => (p.outs.find? fun o => o.1 == e.lane).map fun o =>
    ⟨e.va, { pa := e.pa, attr := e.attr, kid := e.kid, reg := ⟨0, 0, 0, 0⟩ },
      leBytes e.size ((o.2.v.headD (0, 0)).2).toNat⟩

/-- The loan of another block for which a push waits whose values have come late (R437). -/
def State.lateLoan (s : State) (b : Block) (p : PendOp) : Option Nat :=
  (p.push.map (·.2)).bind fun es => es.findSome? fun e => s.blockLoan b 0 false e.pa

/-- The sample whose capacity such a push waits for (R466). -/
def State.lateFull (s : State) (b : Block) (p : PendOp) : Option Nat :=
  (p.push.map (·.2)).bind fun es => (s.provWait b (es.map PushEnt.pa)).map (·.1)

/-- What such a push waits for. -/
def State.lateStop (s : State) (b : Block) (p : PendOp) : Option Nat := (s.lateLoan b p).or (s.lateFull b p)

/-- The end of an access in flight: registers or the push, the token, the lanes that waited (R49, R170, R333). A push that must
wait stays. -/
def State.pendDone (s : State) (k n : Nat) (p : PendOp) : State :=
  match s.blk k with
  | none => s
  | some b =>
    match b.band n with
    | none => s
    | some x =>
      if (s.lateStop b p).isSome then
        s.modBand k n fun x => { x with pend := x.pend.map fun q =>
          if q.id = p.id then { p with stuck := some (p.stuck.getD s.time) } else q }
      else
      let x := { x with
        pend := x.pend.filter fun q => q.id != p.id
        tokens := match p.tok with
          | some t => x.tokens &&& ~~~((1 : BitVec 6) <<< t)
          | none => x.tokens
        lanes := x.lanes.map fun l => match l.st with
          | .blocked (.reply i) => if i = p.id then { l with st := .ready } else l
          | _ => l }
      let s := match p.kind, b.sid with
        | .atom _ _, some i => { s with samples := tmod s.samples i fun m => m.patchAtom n p }
        | _, _ => s
      match p.push with
      | none => s.setBlk k ((b.setBand n (x.put b p.outs)).signPend n p)
      | some (id, es) =>
        (s.setBlk k (b.setBand n x)).storeAll k n 5 p.seq false (fun _ => false) (some id) (p.pushParts es)

/-- The answer to the watch entries of a read or of a check (R285); a read brings the version too. -/
def Band.resolveWatch (x : Band) (op line : Nat) (version : Option Nat) (ec : Option Nat) : Band :=
  { x with watch := x.watch.map fun e =>
      if e.op == op && e.line == line && e.st == .unresolved then
        { e with version := version.getD e.version, st := if ec.isSome then .confirmed else .struck, ec := ec.getD 0 }
      else e }

/-- Whether a band has an unresolved entry that an answer is for. -/
def Band.awaits (x : Band) (op line : Nat) : Bool :=
  x.watch.any fun e => e.op == op && e.line == line && e.st == .unresolved

/-- A band takes the answer to its watch entries; a strike is counted (R285, R429). -/
def State.watchBack (s : State) (k n op line : Nat) (version ec : Option Nat) : State :=
  match s.blk k with
  | none => s
  | some b => s.modBand k n fun x =>
      if x.awaits op line then (x.resolveWatch op line version ec).count (s.dbg b 3 && ec.isNone) 4 1 else x

/-- Gives the bytes of a reply to the lanes that wait for them. -/
def PendOp.fill (p : PendOp) (line lo : Nat) (data : List Byte) : PendOp :=
  let n := match p.kind with
    | .load sz | .watch sz => lsizeBytes sz
    | .atom _ _ | .red _ _ => 0
  { p with lanes := p.lanes.map fun l =>
      if !l.done && lineOf l.pa == line && lo ≤ l.pa % 128 && l.pa % 128 + n ≤ lo + data.length && n != 0 then
        { l with done := true, data := bytesV ((data.drop (l.pa % 128 - lo)).take n) } else l }

/-- Whether a reply may fill the L1 (R278): it is no older than what the core has received or stored, no store of the core to
the line is out, and the core does not own the line. -/
def Core.takes (c : Core) (line version : Nat) : Bool :=
  c.newestOf line ≤ version && (tget c.stored line).getD 0 ≤ version && !(c.unacked.any fun q => q.2 == line)
    && !((c.l1Line line).map L1Line.owned).getD false

/-- A reply that a core receives: its version, and its lease in the L1 (R244, R278). -/
def State.fillL1 (s : State) (core lid line : Nat) (unc : Bool) (data : List Byte) (expiry version w : Nat) : State :=
  let s := s.received core line version
  if unc || !(s.core core).takes line version then s
  else s.l1Put core lid ⟨line, false, expiry, false, version, w, data, [], 0⟩

/-- Bytes that come for an instruction that has not issued. -/
def Band.holdBack (x : Band) (op : Nat) (d : HeldData) : Band :=
  { x with hold := x.hold.map fun q => if q.id = op then { q with got := q.got ++ [d] } else q }

/-- A read's bytes reach the access in flight that waits for them (R245, R274). -/
def State.loadBack (s : State) (k n op line lo : Nat) (data : List Byte) (w : Nat) : State :=
  match ((s.blk k).bind fun b => b.band n).bind fun x => x.pend.find? fun o => o.id == op with
  | none => s
  | some o =>
    let o' := o.fill line lo data
    let s := s.modBand k n fun x => { x.seen w with pend := x.pend.map fun r => if r.id = op then o' else r }
    if o'.lanes.all (·.done) then s.pendDone k n o' else s

/-- The read-modify-writes of a home answer their lanes (R280). -/
def State.atomBack (s : State) (r : AtomReq) (old : List DWord) (w : Nat) : State :=
  match ((s.blk r.block).bind fun b => b.band r.band).bind fun x => x.pend.find? fun o => o.id == r.op with
  | none => s
  | some o =>
    let ls := (r.lanes.zip old).foldl (fun ls (p : AtomLane × DWord) =>
      modAt ls p.1.j fun l => { l with done := true, data := p.2.setWidth 128 }) o.lanes
    let o' := { o with lanes := ls }
    let s := s.modBand r.block r.band fun x => { x.seen w with pend := x.pend.map fun q => if q.id = r.op then o' else q }
    if o'.lanes.all (·.done) then s.pendDone r.block r.band o' else s

/-- Whether further replies to the reads of an operation on a line are on their way (R490: one for each unit). -/
def State.moreReplies (s : State) (k n op line : Nat) : Bool :=
  (s.net ++ s.arrived).any (fun q => match q.msg with
    | .loadRep k' n' op' _ line' _ _ _ _ _ _ _ _ _ => k' == k && n' == n && op' == op && line' == line
    | _ => false)
  || s.channels.any fun c => (c.2.queue ++ c.2.out.map (·.2)).any fun r => match r.for_ with
    | .load q _ _ _ _ => match q.msg with
      | .loadReq k' n' op' _ line' _ _ _ _ _ => k' == k && n' == n && op' == op && line' == line
      | _ => false
    | .store _ _ | .slice | .work _ _ _ _ | .none => false

/-- Whether a lane of an atomic is on its way to the home that performs it, or back. -/
def State.atomOut (s : State) (op j : Nat) : Bool :=
  let is (m : Msg) : Bool := match m with
    | .atomReq r | .atomRep r _ _ _ => r.op == op && r.lanes.any fun l => l.j == j
    | _ => false
  (s.net ++ s.arrived).any (fun p => is p.msg) || s.cores.any fun c => c.2.scq.any fun a => is a.msg

/-- Performs the lanes of an atomic whose line the core now owns, in ascending order (R280). -/
def State.performAtom (s : State) (k n core line : Nat) (p : PendOp) : State × PendOp :=
  let go (op : AOp) (w64 red : Bool) : State × PendOp :=
    let (s, ls) := (p.lanes.mapIdx fun j l => (j, l)).foldl (fun (st : State × List PendLane) q =>
      let l := q.2
      if !l.done && lineOf l.pa == line && !st.1.atomOut p.id q.1 then
        let r := st.1.rmw k n l.va.toNat { pa := l.pa, attr := 0, kid := l.kid, reg := ⟨0, 0, 0, 0⟩ } op w64 red
          (p.b.getD q.1 0) (p.c.getD q.1 0) p.seq (st.1.now (coreDie core))
        (r.1, st.2 ++ [{ l with done := true, data := r.2.setWidth 128 }])
      else (st.1, st.2 ++ [l])) (s, [])
    (s, { p with lanes := ls })
  match p.kind with
  | .atom op w64 => go op w64 false
  | .red op w64 => go op w64 true
  | .load _ | .watch _ => (s, p)

/-- The atomics that wait on a core for a line: block, band and access. -/
def State.atomsFor (s : State) (core line : Nat) : List (Nat × Nat × PendOp) :=
  (s.blocks.filter fun q => q.2.core == core).flatMap fun q =>
    (List.range q.2.bands.length).flatMap fun n =>
      (((q.2.band n).map Band.pend).getD []).filterMap fun p =>
        let atomic : Bool := match p.kind with
          | .atom _ _ | .red _ _ => true
          | .load _ | .watch _ => false
        if atomic && p.lanes.any fun l => !l.done && lineOf l.pa == line then some (q.1, n, p) else none

/-- Whether an atomic waits on a core for a line. -/
def State.atomsWait (s : State) (core line : Nat) : Bool := !(s.atomsFor core line).isEmpty

/-- The atomics that wait on a core for a line are performed once it owns the line; one of another block than that of a loan
on the line waits for the loan's end (R437). -/
def State.performAll (s : State) (core line : Nat) : State :=
  let ws := (s.atomsFor core line).filter fun w => (s.loanOn (s.sidOf w.1) line (2 ^ 70)).isNone
  ws.foldl (fun s (k, n, p) =>
    let (s, p') := s.performAtom k n core line p
    let s := s.modBand k n fun x => { x with pend := x.pend.map fun r => if r.id = p.id then p' else r }
    if p'.lanes.all (·.done) then s.pendDone k n p' else s) s

/-- Grants a line to a core: its home records the owner, and the reply carries the line (R247, R256). -/
def State.grantTo (s : State) (q : Pkt) (core line : Nat) : State :=
  let s := s.intoSlice (128 * line)
  (s.setHome line { s.home line with owner := some core }).answer q .reply (coreRouter core) (.ownRep core line)

/-- A grant reaches its core: the L1 holds the line, and the atomics that wait for it are performed. A core that has lost the
line to a recall meanwhile asks again. -/
def State.ownBack (s : State) (q : Pkt) (core line : Nat) : State :=
  let h := s.home line
  if h.owner ≠ some core then
    (if s.atomsWait core line then s.answer q .request (s.homeRouter (128 * line)) (.ownReq core line) else s)
  else
    let s := s.received core line h.version
    let s := if s.owns core line then s
      else s.l1Put core q.lid ⟨line, true, 0, false, h.version, h.w, mread s.mem (128 * line) 128, [], 0⟩
    s.performAll core line

/-- `LOAD_REPLY` (R245, R247, R274, R281, R285). -/
def execLoadReply (p : Nat) (s : State) : Host.Outcome State Fault Refusal :=
  match s.waitingPkt p with
  | none => notNow "LOAD_REPLY"
  | some q =>
    match q.msg with
    | .loadRep k n op core line lo unc sc data expiry version w ec psn =>
      let s := ((s.takePkt p).fillL1 core q.lid line unc data expiry version w).watchBack k n op line (some version) ec
      let s := s.modBand k n fun x => x.holdBack op ⟨128 * line + lo, data, w, version, ec, psn⟩
      let s := s.loadBack k n op line lo data w
      .next (if sc && !s.moreReplies k n op line then s.scDone core else s)
    | .atomRep r old w version =>
      let s := ((s.takePkt p).received r.core r.line version).atomBack r old w
      .next (if r.sc then s.scDone r.core else s)
    | .ownRep core line => .next ((s.takePkt p).ownBack q core line)
    | .engineRep _ _ => .next (s.takePkt p)
    | _ => notNow "LOAD_REPLY"

/-- `OWNERSHIP_GRANT` (R247): not while another core's lease on the line may be unexpired. -/
def execOwnershipGrant (p : Nat) (s : State) : Host.Outcome State Fault Refusal :=
  match s.waitingPkt p with
  | none => notNow "OWNERSHIP_GRANT"
  | some q =>
    match q.msg with
    | .ownReq core line =>
      let pa := 128 * line
      match s.atHome q line (some core) with
      | .wait => notNow "OWNERSHIP_GRANT"
      | .recall t => .next t
      | .go s =>
        if (s.home line).owner.isNone && s.now (homeDie pa) < max (s.home line).lx (s.floorOf pa) then
          notNow "OWNERSHIP_GRANT"
        else if s.cold pa then s.awaitLine "OWNERSHIP_GRANT" pa 0
        else .next ((s.takePkt p).grantTo q core line)
    | _ => notNow "OWNERSHIP_GRANT"

/-- `LEASE_EXPIRY` (R250): an expired copy leaves its L1. -/
def execLeaseExpiry (core line : Nat) (s : State) : Host.Outcome State Fault Refusal :=
  match (s.core core).l1Line line with
  | none => notNow "LEASE_EXPIRY"
  | some x =>
    if x.owned || s.now (coreDie core) < x.expiry then notNow "LEASE_EXPIRY"
    else .next (s.setCore core ((s.core core).l1Drop line))

/-! ### Watch checks (R284, R285) -/

/-- Whether a store that arrived before a check is still to be performed, though nothing holds it back. -/
def State.storeDue (s : State) (q : Pkt) (line : Nat) : Bool :=
  (s.arrived.takeWhile fun p => p.id != q.id).any fun p =>
    p.homeLine == some line && p.msg.isAccess && (s.home line).owner.isNone && (s.pktLoan p line).isNone

/-- `WATCH_CHECK` (R285): a confirmation is a fresh lease, from the time at which the check arrived. -/
def execWatchCheck (p : Nat) (s : State) : Host.Outcome State Fault Refusal :=
  match s.waitingPkt p with
  | none => notNow "WATCH_CHECK"
  | some q =>
    match q.msg with
    | .watchChk k n op core line version =>
      if s.storeDue q line then notNow "WATCH_CHECK"
      else
        let h := s.home line
        let ec := if h.recorded && h.version == version then some (q.since + s.leaseLen) else none
        .next (((s.takePkt p).raiseLx line ec).answer q .reply (coreRouter core) (.watchAns k n op line version ec))
    | _ => notNow "WATCH_CHECK"

/-- `WATCH_ANSWER` (R285). -/
def execWatchAnswer (p : Nat) (s : State) : Host.Outcome State Fault Refusal :=
  match s.waitingPkt p with
  | none => notNow "WATCH_ANSWER"
  | some q =>
    match q.msg with
    | .watchAns k n op line _ ec => .next ((s.takePkt p).watchBack k n op line none ec)
    | _ => notNow "WATCH_ANSWER"

/-- The launch for which a core walks the tables of a context: that of its block, whose access caused the walk (R256). -/
def State.walkFor (s : State) (core asid : Nat) : Nat :=
  ((s.blocks.find? fun p => p.2.core == core && p.2.asid == asid && p.2.st != .ended).map fun p => p.2.lid).getD 0

/-- `PAGE_WALK` (R262, R268): a walk that ends at a leaf fills the TLBs; what a failed walk raises is raised by the
access that needs it (R264). -/
def execPageWalk (core asid va : Nat) (s : State) : Host.Outcome State Fault Refusal :=
  match s.ctx asid with
  | none => notNow "PAGE_WALK"
  | some c =>
    match s.walk asid none va 4 c.root with
    | .leaf e =>
      .next ((s.engineAsk core (s.walkFor core asid) none 0
        ((s.walkLines va 4 c.root).map s.ownKeyAsk)).tlbFill core
        { pa := 0, attr := 0, kid := 0, reg := ⟨0, 0, 0, 0⟩, fill := some e })
    | .bad _ | .poison => .next s
    | .loan i => s.waitOn i "PAGE_WALK"

/-! ### Stream engines (R293, R331, R337) -/

/-- The positions that a port reads next, with the key of each in its read-ahead. -/
def Port.nextAhead (pt : Port) (w : Nat) : Option (Nat × Nat × DWord) :=
  let p := pt.p.toNat
  (List.range (4 * w)).findSome? fun j =>
    let (pos, l) := if pt.pat.lst then (p + j / w, j % w) else (p + j, 0)
    let key := if pt.pat.lst then 64 * pos + l else pos
    if (tget pt.ahead key).isSome then none
    else
      match pt.pat.elem (BitVec.ofNat 64 pos) l with
      | .at' _ _ off => some (key, l, off)
      | .absent | .past => none

/-- `STREAM_READAHEAD` (R293): the pattern engine reads one element ahead. An element that faults is left to the
instruction that pops it (R337), and so is one whose poison is not known yet. -/
def execStreamReadahead (bk n k : Nat) (s : State) : Host.Outcome State Fault Refusal :=
  match (s.blk bk).bind fun b => (b.band n).map fun x => (b, x) with
  | none => notNow "STREAM_READAHEAD"
  | some (b, x) =>
    let pt := x.ports.getD k {}
    if !pt.cfg || pt.pat.push || b.st != .running then notNow "STREAM_READAHEAD"
    else
      match pt.nextAhead x.lanes.length with
      | none => notNow "STREAM_READAHEAD"
      | some (key, _, off) =>
        match s.readElem bk n b x.inh [] pt off with
        | .val v cs w =>
          let as := s.elemLines b x.inh pt off
          .next (((s.engineAsk b.core b.lid (some (bk, n)) 0 as).receivedAll b.core as).modBand bk n fun x =>
            { x with ports := modAt x.ports k fun p =>
                { p with ahead := tset p.ahead key (leBytes 4 v.toNat ++ leBytes 1 cs.toNat ++ leBytes 8 w) } })
        | .fault _ _ | .reg _ | .loan _ | .cold _ | .busy => notNow "STREAM_READAHEAD"

/-- Whether a message belongs to a push. -/
def Msg.ofPush (m : Msg) (id : Nat) : Bool :=
  match m with
  | .storeReq r | .storeAck r _ _ _ => r.push == some id
  | _ => false

/-- Whether a push has a store that is not complete. -/
def State.pushBusy (s : State) (x : Band) (id : Nat) : Bool :=
  (s.net ++ s.arrived).any (fun q => q.msg.ofPush id)
  || (s.cores.any fun c => c.2.scq.any fun a => a.msg.ofPush id)
  || (s.channels.any fun c => (c.2.queue ++ c.2.out.map (·.2)).any fun r => match r.for_ with
    | .store q _ => q.msg.ofPush id
    | .slice | .load _ _ _ _ _ | .work _ _ _ _ | .none => false)
  || x.pend.any fun p => (p.push.map (·.1)) == some id

/-- `PUSH_RETIRE` (R290, R293): the oldest push retires when its stores have met the wait of R279 at device scope. A push that
has waited for a loan or for capacity is made first. -/
def execPushRetire (bk n : Nat) (s : State) : Host.Outcome State Fault Refusal :=
  match (s.blk bk).bind fun b => (b.band n).map fun x => (b, x) with
  | none => notNow "PUSH_RETIRE"
  | some (b, x) =>
    match x.pend.find? fun p => p.stuck.isSome && (s.lateStop b p).isNone, x.pushesOut with
    | some p, _ => .next (s.pendDone bk n p)
    | none, [] => notNow "PUSH_RETIRE"
    | none, (id, w) :: rest =>
      if s.pushBusy x id || (w != 0 && s.now b.die < w + 4) then notNow "PUSH_RETIRE"
      else .next (s.modBand bk n fun x => { x with pushesOut := rest })

/-! ### Remote operations (R493 to R495) -/

/-- What a remote kind does at its target: a store of some bytes, or a reduction (R494). -/
def remoteRed (kind : Nat) : Option (Nat × Option AOp) :=
  match kind with
  | 0 => some (4, none)
  | 1 => some (8, none)
  | 2 => some (4, some .add)
  | 3 => some (8, some .add)
  | 4 => some (4, some .addf)
  | 5 => some (4, some .mins)
  | 6 => some (4, some .maxs)
  | 7 => some (8, some .or)
  | 8 => some (8, some .xor)
  | _ => none

/-- An error acknowledgement (R495). -/
def State.slerrInc (s : State) : State := { s with pf := { s.pf with slerr := s.pf.slerr + 1 } }

/-- `REMOTE_OPERATION` (R495): an operation from another device at the window of function f. -/
def execRemoteOperation (f kind off : Nat) (operand : DWord) (s : State) : Host.Outcome State Fault Refusal :=
  let win := (tget s.pf.slwin f).getD (0, 0)
  let size := win.2.toNat % 2 ^ 48
  let asid := win.2.toNat / 2 ^ 48 % 2 ^ 14
  match remoteRed kind with
  | none => .next s.slerrInc
  | some (n, red) =>
    let va := (win.1 + BitVec.ofNat 64 off).toNat
    if size ≤ off ∨ va % n ≠ 0 then .next s.slerrInc
    else
      match s.xlate numCores asid none va with
      | .error (.loan i) => s.waitOn i "REMOTE_OPERATION"
      | .error _ => .next s.slerrInc
      | .ok x =>
        if !s.permOk f false .write x || isReg x.pa || (red.isSome && s.linePoison x.pa) then .next s.slerrInc
        else
          match s.loanOn none (lineOf x.pa) (2 ^ 70) with
          | some i => s.waitOn i "REMOTE_OPERATION"
          | none =>
            s.atGate "REMOTE_OPERATION" (lineOf x.pa) <|
            let s := s.deviceAsk [lineOf x.pa]
            let old : DWord := BitVec.ofNat 64 (leVal (s.rd x.kid x.pa n))
            let new := match red with
              | none => operand
              | some op => aopW op (n == 8) old (if n = 8 then operand else (operand.setWidth 32).setWidth 64) 0
            .next ((s.homeStore x.kid x.pa (leBytes n new.toNat)).1.maskedWrite (.work 0 0 0 0) x.kid x.pa
              (leBytes n new.toNat))

/-- Whether a remote operation can reach its target: it left by a port that still works (R492, R495). -/
def State.reaches (s : State) (o : RmtOp) : Bool :=
  match o.port with
  | none => false
  | some p => let l := (tget s.ports p).getD {}; !l.retired && !l.failed

/-- The remote operation of a band that an acknowledgement completes: the oldest that reached its target, or with an error the
oldest that could not, else the oldest. Operations have no order among themselves (R495). -/
def State.rmtDone (s : State) (x : Band) (ok : Bool) : Option Nat :=
  let at' (p : RmtOp → Bool) : Option Nat := x.rmtOut.findIdx? p
  if ok then at' s.reaches else (at' fun o => !s.reaches o).or (at' fun _ => true)

/-- `REMOTE_COMPLETION` (R290, R294, R495): the acknowledgement of a remote operation of a band. -/
def execRemoteCompletion (bk n : Nat) (ok : Bool) (s : State) : Host.Outcome State Fault Refusal :=
  match (s.blk bk).bind fun b => b.band n with
  | none => notNow "REMOTE_COMPLETION"
  | some x =>
    match s.rmtDone x ok with
    | none => notNow "REMOTE_COMPLETION"
    | some i =>
      let s := s.modBand bk n fun x => { x with rmtOut := x.rmtOut.eraseIdx i }
      .next (if ok then s else s.slerrInc)

end Sys2Proof.Machine
end

