-- ==== Sys2Proof/Machine/Wake.lean ====
section
/-! DEFINITION. What lets a blocked band go on: the conditions of its waits (R170, R177), asynchronous traps at an
instruction boundary (R404), the forced release of a rejoin mask (R174). -/

namespace Sys2Proof.Machine

open Sys2Proof

/-- Whether the condition of a wait holds (R177). A wait for PAGE service ends with `PRSP` alone (R410). -/
def State.wakes (s : State) (b : Block) (x : Band) (w : Wait) : Bool :=
  match w with
  | .bar sc n phase => ((s.bar b sc n).map fun t => t.gen != phase).getD true
  | .ring r k => let t := b.ring r; t.past (t.rel + BitVec.ofNat 32 k)
  | .count c thr => x.counter c ≤ thr
  | .cmd n => !b.cmdPending x n
  | .loan sid _ => !s.loanOpen sid
  | .release k sc => s.orderReady b x k sc
  | .watch => !x.watch.any fun e => e.st == .unresolved
  | .reply id => !x.pend.any fun p => p.id == id
  | .page _ => false
  | .capacity sid _ pa => !s.loanOpen sid || (s.provFull b pa).isNone

/-- Sets the snapshot time of the TYPE 3 records that a band's waits in one phase of a barrier have made (R446). -/
def patchBar (n : Nat) (key sigma : DWord) (phase : Word) (log : List LogRec) : List LogRec :=
  log.map fun r =>
    if r.type = 3 ∧ r.band = n ∧ r.body.headD 0 = key ∧ r.awaits = some phase then { r with body := [key, sigma], awaits := none }
    else r

/-- A wider barrier that the blocked lanes of a band have met: its scope and number, the phase that they awaited and the
stamp of that phase (R442). -/
structure MetBar where
  sc : BScope
  num : Nat
  phase : Word
  stamp : Nat
  deriving DecidableEq, Repr

/-- Puts a barrier in its place by the stamp of its phase. -/
def stampInsert (m : MetBar) : List MetBar → List MetBar
  | [] => [m]
  | p :: t => if m.stamp ≤ p.stamp then m :: p :: t else p :: stampInsert m t

/-- The wider barriers whose phases the blocked lanes of a band have met, by rising stamp (R442). -/
def State.metBars (s : State) (b : Block) (x : Band) : List MetBar :=
  if b.run != .primary then []
  else
    ((x.lanes.filterMap fun l => match l.st with
      | .blocked (.bar sc n phase) =>
        if sc == .blk then none
        else (s.bar b sc n).bind fun t => if t.gen != phase then some ⟨sc, n, phase, t.stamps.getD phase.toNat 0⟩ else none
      | _ => none).eraseDups).foldr stampInsert []

/-- A band that a wider barrier releases takes the stamp of its phase as its snapshot time, in the band and in the records of
the waits (R442, R446). -/
def State.takeStamp (s : State) (k n : Nat) (sid : Option Nat) (m : MetBar) : State :=
  let s := s.modBand k n fun x => { x with sigma := m.stamp }
  match sid with
  | none => s
  | some i =>
    let key := (barBody m.sc m.num 0).headD 0
    { s with samples := tmod s.samples i fun q => { q with log := patchBar n key (BitVec.ofNat 64 m.stamp) m.phase q.log } }

/-- A wait of R370, R382 or R397, whose instruction has issued and is complete once its lanes leave the wait. -/
def Wait.passes (w : Wait) : Bool :=
  match w with
  | .ring _ _ | .count _ _ | .cmd _ => true
  | _ => false

/-- A lane of a band whose waits are looked at: once its condition holds it is ready, past its instruction where that is one
of `Wait.passes`, which all have 8 bytes. -/
def State.wakeLane (s : State) (b : Block) (x : Band) (l : Lane) : Lane :=
  match l.st with
  | .blocked w =>
    if s.wakes b x w then { l with st := .ready, pc := if w.passes then l.pc + 8 else l.pc } else l
  | .ready | .parked _ | .exited => l

/-- The instructions of a band that complete as its lanes leave their waits, each by its program counter and wait (R446). -/
def State.passing (s : State) (b : Block) (x : Band) : List (DWord × Wait) :=
  (x.lanes.filterMap fun l => match l.st with
    | .blocked w => if w.passes && s.wakes b x w then some (l.pc, w) else none
    | .ready | .parked _ | .exited => none).eraseDups

/-- The blocked lanes of a band whose conditions hold become ready; a halted band keeps its state (R428). -/
def State.settle (s : State) (k n : Nat) : State :=
  match s.blk k with
  | none => s
  | some b =>
    match b.band n with
    | none => s
    | some x =>
      if x.halted then s else ((s.metBars b x).foldl (fun s m => s.takeStamp k n b.sid m) s).modBand k n fun y =>
        { y with lanes := y.lanes.map (s.wakeLane b x), issues := y.issues + (s.passing b x).length }

/-! ### Releases (R279) -/

def LaneSt.isRelease (st : LaneSt) : Bool :=
  match st with
  | .blocked (.release _ _) => true
  | _ => false

/-- `RELEASE_WAIT` (R279): the lanes of a band that wait under a release go on. -/
def execReleaseWait (bk n : Nat) (s : State) : Host.Outcome State Fault Refusal :=
  match (s.blk bk).bind fun b => (b.band n).map fun x => (b, x) with
  | none => notNow "RELEASE_WAIT"
  | some (b, x) =>
    if !x.halted && x.lanes.any (fun l => l.st.isRelease && (s.wakeLane b x l).st == .ready) then
      .next (s.modBand bk n fun y => { y with
        lanes := y.lanes.map fun l => if l.st.isRelease then s.wakeLane b x l else l })
    else notNow "RELEASE_WAIT"

/-! ### Rejoin masks (R174) -/

/-- The lowest mask on which a lane of a stuck band is parked. -/
def Band.forced (x : Band) : Option Nat :=
  if x.stuckParked then (List.range 4).find? fun j => !(x.parkedOn j).isEmpty else none

/-- `FORCED_RELEASE` (R174). -/
def execForcedRelease (bk n : Nat) (s : State) : Host.Outcome State Fault Refusal :=
  match (((s.blk bk).bind fun b => b.band n).filter fun x => !x.halted).bind Band.forced with
  | none => notNow "FORCED_RELEASE"
  | some j => .next (s.modBand bk n fun x => x.release j)

/-! ### Asynchronous traps (R404) -/

/-- `ASYNC_TRAP_ENTRY` (R404, R408). -/
def execAsyncTrapEntry (bk n : Nat) (s : State) : Host.Outcome State Fault Refusal :=
  match s.takeDue bk n with
  | none => notNow "ASYNC_TRAP_ENTRY"
  | some t => .next t

end Sys2Proof.Machine
end

