-- ==== Sys2Proof/Machine/Queue.lean ====
section
/-! DEFINITION. Launch queues: their registers, the packets and their refusal, contexts, completion records, markers
and context updates (R187 to R196, R207, R209, R267). -/

namespace Sys2Proof.Machine

open Sys2Proof

/-! ### Registers of a queue (R187 to R190, R209) -/

namespace Queue
def en (q : Queue) : Bool := q.lqctl.getLsbD 0
def err (q : Queue) : Bool := q.lqctl.getLsbD 1
def logn (q : Queue) : Nat := (q.lqctl.extractLsb' 2 4).toNat
def dclass (q : Queue) : Nat := (q.lqctl.extractLsb' 12 3).toNat
def dlx (q : Queue) : Bool := q.lqctl.getLsbD 15
def wptr (q : Queue) : Nat := q.lqdb.toNat % 2 ^ 16
def rptr (q : Queue) : Nat := q.lqrd.toNat % 2 ^ 16
/-- The context descriptor's address (R190). -/
def desc (q : Queue) : Nat := q.lqctx.toNat / 2 ^ 10 * 2 ^ 10
/-- Packets announced and not yet consumed (R189). -/
def used (q : Queue) : Nat := (q.wptr + 2 ^ 16 - q.rptr) % 2 ^ 16
/-- LQCTL from its fields. -/
def ctl (en err : Bool) (logn code dclass : Nat) (dlx : Bool) : Word :=
  BitVec.ofNat 32 (en.toNat + err.toNat * 2 + logn * 2 ^ 2 + code * 2 ^ 8 + dclass * 2 ^ 12 + dlx.toNat * 2 ^ 15)
def errcode (q : Queue) : Nat := (q.lqctl.extractLsb' 8 4).toNat
/-- Disables a queue (R209). -/
def disable (q : Queue) (code : Nat) : Queue := { q with lqctl := ctl false true q.logn code q.dclass q.dlx }
/-- A write to LQCTL (R188, R190): W1C first, then the checks of EN. -/
def writeCtl (q : Queue) (v : Word) : Queue :=
  let err := q.err && !v.getLsbD 1
  let logn := if q.en then q.logn else (v.extractLsb' 2 4).toNat
  let put (en err : Bool) (code : Nat) : Queue :=
    { q with lqctl := ctl en err logn code (v.extractLsb' 12 3).toNat (v.getLsbD 15) }
  if !v.getLsbD 0 || err then put false err q.errcode
  else if logn < 4 || 12 < logn then put false true 4
  else if q.desc = 0 then put false true 6
  else put true false q.errcode
/-- A doorbell (R189). -/
def doorbell (q : Queue) (v : Word) : Queue :=
  let q := { q with lqdb := v &&& 0xFFFF }
  if 2 ^ q.logn < q.used then q.disable 3 else q
end Queue

def Fn.queue (x : Fn) (q : Nat) : Queue := (tget x.queues q).getD {}
def Fn.setQueue (x : Fn) (q : Nat) (v : Queue) : Fn := { x with queues := tset x.queues q v }
def State.modQueue (s : State) (f q : Nat) (g : Queue → Queue) : State :=
  s.modFn f fun x => x.setQueue q (g (x.queue q))

/-- The queues of a function (R187). -/
def numQueues : Nat := 64

/-- Whether a function's interface is locked or running (R504). -/
def State.locked (s : State) (f : Nat) : Bool :=
  match (s.fn f).tdisp with
  | .configLocked | .run => true
  | .configUnlocked | .error => false

/-- Whether an access to a function's BAR 0 is refused as an unsupported request (R504). -/
def State.unsupported (s : State) (a : Via) : Bool := s.locked a.fn && !a.tee

/-- An access of the host to BAR 0; a refused one changes nothing (R504). -/
def State.hostAccess (s : State) (a : Via) (o : Host.Outcome State Fault Refusal) : Host.Outcome State Fault Refusal :=
  if s.unsupported a then .next s else o

/-- `LQDB_DOORBELL` (R189); ignored from the write of QUIESCE (R525). -/
def execLqdbDoorbell (a : Via) (q : Nat) (v : Word) (s : State) : Host.Outcome State Fault Refusal :=
  s.hostAccess a <|
    if numQueues ≤ q then notNow "LQDB_DOORBELL"
    else if (s.fn a.fn).lmQuiesce then .next s
    else .next (s.modQueue a.fn q fun x => x.doorbell v)

/-- `LQCTL_EN` (R188): a write that sets EN. -/
def execLqctlEn (a : Via) (q : Nat) (v : Word) (s : State) : Host.Outcome State Fault Refusal :=
  s.hostAccess a <|
    if numQueues ≤ q || !v.getLsbD 0 then notNow "LQCTL_EN" else .next (s.modQueue a.fn q fun x => x.writeCtl v)

/-- `LQCTL_ERR_CLEAR` (R188): a write of 1 to ERR. -/
def execLqctlErrClear (a : Via) (q : Nat) (v : Word) (s : State) : Host.Outcome State Fault Refusal :=
  s.hostAccess a <|
    if numQueues ≤ q || !v.getLsbD 1 then notNow "LQCTL_ERR_CLEAR" else .next (s.modQueue a.fn q fun x => x.writeCtl v)

/-! ### The packet (R192) -/

/-- A little-endian field of bytes. -/
def fieldAt (bs : List Byte) (off n : Nat) : Nat := leVal ((bs.drop off).take n)

/-- Bytes that must be zero in a packet of a type: the reserved ones, and those that the type does not use (R192,
R196). -/
def packetZero (bs : List Byte) : Bool :=
  let z (off n : Nat) : Bool := fieldAt bs off n == 0
  let reserved := fieldAt bs 1 1 / 64 == 0 && fieldAt bs 6 1 / 8 % 16 == 0 && z 7 1 && z 0x39 3 && z 0x44 4 && z 0x78 8
  match fieldAt bs 0 1 with
  | 0 => z 1 127
  | 1 => reserved
  | _ => z 1 0x47 && z 0x78 8

/-- The fields of a packet's 128 bytes. -/
def Packet.ofBytes (bs : List Byte) : Packet :=
  let g := fieldAt bs
  { type := g 0 1, prio := g 1 1 % 8, schk := g 1 1 / 8 % 2 == 1, ord := g 1 1 / 16 % 2 == 1, pin := g 1 1 / 32 % 2 == 1
    profile := g 2 1, curve := g 3 1, tilew := g 4 2, redund := g 6 1 % 8, detect := g 6 1 / 128 == 1
    kaddr := BitVec.ofNat 64 (g 8 8), argAddr := BitVec.ofNat 64 (g 0x10 8), argSize := g 0x18 2, bandw := g 0x1A 1
    nbands := g 0x1B 1, gx := g 0x1C 4, gy := g 0x20 4, gz := g 0x24 4, vregs := g 0x28 2, uregs := g 0x2A 1
    acc := g 0x2B 1, scratch := g 0x2C 4, copyq := g 0x30 2, rings := g 0x32 1, streams := g 0x33 1, watch := g 0x34 1
    barb := g 0x35 1, barc := g 0x36 1, bard := g 0x37 1, barg := g 0x38 1, carve := BitVec.ofNat 32 (g 0x3C 4)
    seed := BitVec.ofNat 32 (g 0x40 4), dep0 := BitVec.ofNat 64 (g 0x48 8), dep0v := BitVec.ofNat 64 (g 0x50 8)
    dep1 := BitVec.ofNat 64 (g 0x58 8), dep1v := BitVec.ofNat 64 (g 0x60 8), doneAddr := BitVec.ofNat 64 (g 0x68 8)
    doneVal := BitVec.ofNat 64 (g 0x70 8), reservedZero := packetZero bs }

namespace Packet
/-- Allocations rounded to their granules (R15). -/
def vrounded (p : Packet) : Nat := (p.vregs + 7) / 8 * 8
def urounded (p : Packet) : Nat := (p.uregs + 15) / 16 * 16
/-- The window of a block (R239). -/
def window (p : Packet) : Nat := (p.scratch + 1023) / 1024 * 1024
/-- The boundaries of CARVE (R234). -/
def vend (p : Packet) : Nat := p.carve.toNat % 64
def send (p : Packet) : Nat := p.carve.toNat / 2 ^ 8 % 64
def lend (p : Packet) : Nat := p.carve.toNat / 2 ^ 16 % 64
/-- Register bytes of a block (R183). -/
def vbytes (p : Packet) : Nat := p.nbands * p.bandw * p.vrounded * 4
def ubytes (p : Packet) : Nat := p.nbands * p.urounded * 4
def numBlocks (p : Packet) : Nat := p.gx * p.gy * p.gz

/-- The limits of CARVE (R234). -/
def carveOk (p : Packet) : Bool :=
  p.carve.toNat == p.vend + p.send * 2 ^ 8 + p.lend * 2 ^ 16 && 1 ≤ p.vend && p.vend ≤ 30 && p.vend ≤ p.send && p.send ≤ 29
    && (p.send != p.vend || p.scratch == 0) && p.send + 2 ≤ p.lend && p.lend ≤ (if p.streams = 0 then 32 else 31)

/-- The values of R192 that markers and context updates have too. -/
def depsOk (p : Packet) : Bool := p.dep0.toNat % 8 == 0 && p.dep1.toNat % 8 == 0 && p.doneAddr.toNat % 16 == 0

/-- The values of R192 for a launch, with R37 and R234. -/
def fieldsOk (p : Packet) : Bool :=
  p.depsOk && p.profile ≤ 2 && p.curve ≤ 3 && (if p.curve = 3 then 1 ≤ p.tilew else p.tilew == 0) && p.redund ≤ 5
    && p.kaddr.toNat % 4 == 0 && p.argAddr.toNat % 4 == 0 && p.argSize ≤ 256 && (p.argSize + 3) / 4 ≤ p.urounded
    && [8, 16, 32, 64].contains p.bandw && 1 ≤ p.nbands && p.nbands ≤ 16
    && 1 ≤ p.gx && 1 ≤ p.gy && 1 ≤ p.gz && p.numBlocks ≤ 2 ^ 32
    && 1 ≤ p.vregs && p.vregs ≤ (if p.streams = 0 then 256 else 248) && 1 ≤ p.uregs && p.uregs ≤ 64
    && p.acc ≤ 6 && (p.acc == 0 || p.profile != 2) && p.copyq ≤ 256 && p.rings ≤ 8 && p.streams ≤ 8
    && [0, 16, 32, 64].contains p.watch && p.barb ≤ 16 && p.barc ≤ 16 && p.bard ≤ 8 && p.barg ≤ 8 && p.carveOk

/-- The dies of a packet, in the order of R200. -/
def dies (p : Packet) : List Nat :=
  let g := [0, 1, 2, 3]
  let a := [4, 5]
  if p.prefersA then (if p.pin then a else a ++ g) else if p.pin || p.acc != 0 then g else g ++ a

/-- Whether one block exceeds a core, or the pool part that CARVE gives it (R193). -/
def tooBig (p : Packet) : Bool :=
  p.vend * 32768 < p.vbytes || 16384 < p.ubytes || (p.send - p.vend) * 32768 < p.window || 2 ^ 20 < p.window
    || 64 < p.streams * p.nbands || 512 < p.watch * p.nbands

/-- The blocks of a packet that an empty core takes (R183, R235). -/
def perCore (p : Packet) : Nat :=
  let q (cap use : Nat) (m : Nat) : Nat := if use = 0 then m else min m (cap / use)
  q (p.vend * 32768) p.vbytes (q 16384 p.ubytes (q ((p.send - p.vend) * 32768) p.window (q 6 p.acc (q 64 p.barb
    (q 256 p.copyq (q 32 p.rings (q 64 (p.streams * p.nbands) (q 512 (p.watch * p.nbands) (q 64 p.nbands 16)))))))))
end Packet

/-- The cores of a die, in the order of R201. -/
def coresOf (d : Nat) : List Nat :=
  if d < 4 then (List.range 128).map (128 * d + ·) else (List.range 64).map (512 + 64 * (d - 4) + ·)

/-- Whether a core may take blocks (R463, R470). -/
def Core.inService (c : Core) : Bool := !c.fenced && !c.retired

/-- The refusal of a packet, by its status (R193, R207). -/
def State.refusal (s : State) (p : Packet) : Option Nat :=
  if 3 < p.type || !p.reservedZero then some 1
  else if p.type = 0 then none
  else if p.type ≠ 1 then (if p.depsOk then none else some 1)
  else if !p.fieldsOk then some 1
  else if p.tooBig then some 2
  else if p.coRes &&
      p.perCore * ((p.dies.flatMap coresOf).filter fun c => (s.core c).inService).length < p.numBlocks then some 3
  else none

/-! ### Contexts (R266, R267) -/

/-- The resident context of a descriptor. -/
def State.ctxOf (s : State) (f desc : Nat) : Option Nat :=
  (s.ctxs.find? fun p => p.2.fn == f && p.2.desc == desc).map (·.1)

/-- The lines of a descriptor. -/
def descLines (desc : Nat) : List Nat := rangeLines desc 1024

/-- Reads a descriptor: the root and the range sets; none for a fault or a malformed field. -/
def State.readDesc (s : State) (desc : Nat) : Option (Nat × List RangeSet) :=
  let w (off : Nat) : DWord := BitVec.ofNat 64 (leVal (s.rdOwn (desc + off) 8))
  let rs := (List.range 32).map fun k => (⟨w (0x10 + 24 * k), w (0x18 + 24 * k), w (0x20 + 24 * k)⟩ : RangeSet)
  let root := (w 0).toNat
  if !isDev desc || (List.range 8).any (fun j => s.linePoison (desc + 128 * j)) then none
  else if root % 2 ^ 17 ≠ 0 || !isDev root || w 8 ≠ 0 || (List.range 30).any (fun j => w (0x310 + 8 * j) != 0) then none
  else if rs.all rangeOk then some (root, rs)
  else none

/-- The loan that a read of a descriptor waits for (R437). -/
def State.descLoan (s : State) (desc : Nat) : Option Nat :=
  (List.range 8).findSome? fun j => s.loanOn none (lineOf desc + j) (2 ^ 70)

def State.descHeld (s : State) (desc : Nat) : Bool := (s.descLoan desc).isSome

/-- Whether a context must stay resident: a queue names it, or a grid of it has not completed (R267). -/
def State.ctxUsed (s : State) (asid : Nat) (c : Ctx) : Bool :=
  (s.fn c.fn).queues.any (fun q => q.2.desc == c.desc) || s.grids.any fun g => g.2.asid == asid && match g.2.st with
    | .complete _ => false
    | .accepted | .failing _ => true

/-- The identifier that a new context takes: the lowest free one, else that of a context no longer used. -/
def State.freeAsid (s : State) : Option Nat :=
  match (List.range (s.ctxs.length + 1)).find? fun a => (s.ctx a).isNone with
  | some a => if a < 2 ^ 14 then some a else (s.ctxs.find? fun p => !s.ctxUsed p.1 p.2).map (·.1)
  | none => none

/-- Makes a context resident, if it is not (R267): its identifier. -/
def State.makeCtx (s : State) (f desc : Nat) : Option (State × Nat) :=
  match s.ctxOf f desc with
  | some a => some (s, a)
  | none =>
    match s.readDesc desc, s.freeAsid with
    | some (root, ranges), some a =>
      let s := (s.deviceAsk (descLines desc)).tlbDrop fun e => e.asid == a
      some ({ s with ctxs := tset s.ctxs a { fn := f, desc, root, ranges, dbgen := (s.fn f).policy } }, a)
    | _, _ => none

/-! ### Completion records (R207) -/

/-- A fault-log record of TYPE 2 that names a packet (R207, R411). -/
def packetRecord (lid tstat addr : Nat) : List Byte := flogRecord 2 0 0 lid 0 0 0 0 tstat addr

/-- Translation of an access that firmware makes for a context and a sample, in no core's TLB. -/
def State.fwXlate (s : State) (f asid : Nat) (own : Option Nat) (k : AKind) (va : Nat) : Except Stop Xl :=
  match s.xlateAll numCores asid f own false k [(0, va)] with
  | .error t => .error t
  | .ok [a] => if isReg a.x.pa then .error (.trap { cls := .perm, addr := BitVec.ofNat 64 va }) else .ok a.x
  | .ok _ => .error (.trap { cls := .perm, addr := BitVec.ofNat 64 va })

/-- The loan that a record must wait for: on its line, or on an entry of its walk (R437). -/
def State.recordLoan (s : State) (f asid : Nat) (p : Packet) : Option Nat :=
  if p.doneAddr = 0 then none
  else
    match s.fwXlate f asid none .write p.doneAddr.toNat with
    | .ok x => s.loanOn none (lineOf x.pa) (2 ^ 70)
    | .error (.loan i) => some i
    | .error (.trap _) => none

def State.recordHeld (s : State) (f asid : Nat) (p : Packet) : Bool := (s.recordLoan f asid p).isSome

/-- Writes a completion record: the status word, then DONEVAL; a fault of DONEADDR is logged. -/
def State.writeRecord (s : State) (f asid lid : Nat) (p : Packet) (status : Nat) : State :=
  if p.doneAddr = 0 then s
  else
    match s.fwXlate f asid none .write p.doneAddr.toNat with
    | .error (.trap t) => s.flog f (packetRecord lid (t.cls.code + t.cause * 2 ^ 8) p.doneAddr.toNat)
    | .error (.loan _) => s
    | .ok x =>
      let put (s : State) (pa : Nat) (bs : List Byte) : State := (s.homeStore x.kid pa bs).1.maskedWrite (.work 0 0 0 0) x.kid pa bs
      put (put (s.deviceAsk [lineOf x.pa]) (x.pa + 8) (leBytes 4 status ++ leBytes 4 lid)) x.pa (leBytes 8 p.doneVal.toNat)

/-- The line of a completion record. -/
def State.recordLine (s : State) (f asid : Nat) (p : Packet) : Option Nat :=
  if p.doneAddr = 0 then none
  else
    match s.fwXlate f asid none .write p.doneAddr.toNat with
    | .ok x => some (lineOf x.pa)
    | .error _ => none

/-- Runs what writes a completion record, once no loan and nothing that has arrived at its line's home stands before it (R246,
R437), and once the fault log holds the records made before (R411). -/
def State.onRecord (s : State) (what : String) (f asid : Nat) (p : Packet) (o : Host.Outcome State Fault Refusal) :
    Host.Outcome State Fault Refusal :=
  if !(s.fn f).flogWait.isEmpty then notNow what
  else
    match s.recordLoan f asid p, s.recordLine f asid p with
    | some i, _ => s.waitOn i what
    | none, none => o
    | none, some l => s.atGate what l o

/-! ### Acceptance (R191, R193, R194) -/

/-- Accepted packets of a queue that have not completed (R194). -/
def State.outstanding (s : State) (f q : Nat) : Nat :=
  (s.grids.filter fun g => g.2.fn == f && g.2.q == q && match g.2.st with
    | .complete _ => false
    | .accepted | .failing _ => true).length

/-- What a queue finds at its read index; `held` where it waits for a loan (R437). -/
inductive Slot where
  | none
  | fault
  | held (sid : Nat)
  | packet (p : Packet)
  deriving DecidableEq, Repr

/-- The address of the packet at a queue's read index (R189). -/
def Queue.slot (x : Queue) : Nat := x.lqbase.toNat / 2 ^ 7 * 2 ^ 7 + 128 * (x.rptr % 2 ^ x.logn)

/-- The next packet of a queue (R189, R191, R194). Every packet waits while 16 accepted ones are outstanding, also one that
will not be accepted: packets are taken in order. DESIGN CHOICE (log entry 76): the rule names the 17th accepted packet. -/
def State.nextPacket (s : State) (f q : Nat) : Slot :=
  let x := (s.fn f).queue q
  if s.power != .running || !x.en || x.used = 0 || 16 ≤ s.outstanding f q || (s.fn f).lmQuiesce then .none
  else
    let a := x.slot
    if !(isDev a || isHost a) || s.linePoison a then .fault
    else
      match (s.loanOn Option.none (lineOf a) (2 ^ 70)).or (if (s.ctxOf f x.desc).isNone then s.descLoan x.desc else Option.none) with
      | some i => .held i
      | Option.none => .packet (Packet.ofBytes (s.rdOwn a 128))

/-- Consumes a packet (R191), whose line the dispatcher has read. -/
def State.consume (s : State) (f q : Nat) : State :=
  (s.deviceAsk [lineOf ((s.fn f).queue q).slot]).modQueue f q fun x => { x with lqrd := (x.lqrd + 1) &&& 0xFFFF }

/-- Runs the refusal of a packet once its record can be written. -/
def State.onRefusal (s : State) (f q : Nat) (p : Packet) (o : Host.Outcome State Fault Refusal) : Host.Outcome State Fault Refusal :=
  if p.doneAddr.toNat % 16 ≠ 0 then o
  else
    match s.makeCtx f ((s.fn f).queue q).desc with
    | none => o
    | some (t, asid) =>
      match t.recordLoan f asid p, t.recordLine f asid p with
      | some i, _ => s.waitOn i "LAUNCH_PACKET"
      | none, none => o
      | none, some l => s.atGate "LAUNCH_PACKET" l o

/-- Refuses a packet (R193): its record, and the queue is disabled. -/
def State.refuse (s : State) (f q : Nat) (p : Packet) (status : Nat) : State :=
  let desc := ((s.fn f).queue q).desc
  let s := (s.consume f q).modQueue f q fun x => x.disable 1
  if p.doneAddr = 0 || p.doneAddr.toNat % 16 ≠ 0 then s
  else
    match s.makeCtx f desc with
    | none => s.flog f (packetRecord 0 (2 * 2 ^ 8) desc)
    | some (s, asid) => s.writeRecord f asid 0 p status

/-- Accepts a packet: its launch identifier, its context; a context that cannot be made resident fails it (R194,
R267). -/
def State.accept (s : State) (f q : Nat) (p : Packet) : State :=
  let x := (s.fn f).queue q
  let lid := s.lastGrid + 1
  let orig := s.lastLid + 1
  let s := { s.consume f q with lastLid := orig, lastGrid := lid }
  let g (asid : Nat) (st : GridSt) : Grid :=
    { lid, orig, fn := f, q, asid, pkt := p, dclass := x.dclass, dlx := x.dlx, st }
  match s.makeCtx f x.desc with
  | some (s, asid) => { s with grids := tset s.grids lid (g asid .accepted) }
  | none =>
    ({ s with grids := tset s.grids lid (g (2 ^ 14) (.complete 9)) }.flog f (packetRecord orig (2 * 2 ^ 8) x.desc)).modQueue f q
      fun x => x.disable 7

/-- The shared form of acceptance for packets of one type. -/
def State.acceptType (s : State) (f q type : Nat) (what : String) : Host.Outcome State Fault Refusal :=
  match s.nextPacket f q with
  | .none | .fault => notNow what
  | .held i => s.waitOn i what
  | .packet p =>
    if p.type ≠ type || (s.refusal p).isSome then notNow what
    else if type = 0 then .next (s.consume f q)
    else .next (s.accept f q p)

/-- `NOOP_PACKET` (R194). -/
def execNoopPacket (f q : Nat) (s : State) : Host.Outcome State Fault Refusal := s.acceptType f q 0 "NOOP_PACKET"

/-- `MARKER_PACKET` (R194). -/
def execMarkerPacket (f q : Nat) (s : State) : Host.Outcome State Fault Refusal := s.acceptType f q 2 "MARKER_PACKET"

/-- `CONTEXT_UPDATE_PACKET` (R194, R196). -/
def execContextUpdatePacket (f q : Nat) (s : State) : Host.Outcome State Fault Refusal :=
  s.acceptType f q 3 "CONTEXT_UPDATE_PACKET"

/-- `LAUNCH_PACKET` (R193, R194): a launch is accepted; a packet of any type that breaks R193 is refused here, and a
fault reading the ring disables the queue. -/
def execLaunchPacket (f q : Nat) (s : State) : Host.Outcome State Fault Refusal :=
  match s.nextPacket f q with
  | .none => notNow "LAUNCH_PACKET"
  | .held i => s.waitOn i "LAUNCH_PACKET"
  | .fault => .next (s.modQueue f q fun x => x.disable 5)
  | .packet p =>
    match s.refusal p with
    | some st => s.onRefusal f q p (.next (s.refuse f q p st))
    | none => if p.type = 1 then .next (s.accept f q p) else notNow "LAUNCH_PACKET"

/-! ### Dependences, markers, context updates (R195, R196) -/

/-- What a dependence is: it holds, it does not, reading it faults, or waits for a loan (R437). -/
inductive Dep where
  | holds | waits | fault
  | held (sid : Nat)
  deriving DecidableEq, Repr

/-- One dependence of a packet (R195). -/
def State.dep (s : State) (g : Grid) (a v : DWord) : Dep :=
  if a = 0 then .holds
  else
    match s.fwXlate g.fn g.asid none .read a.toNat with
    | .error (.trap _) => .fault
    | .error (.loan i) => .held i
    | .ok x =>
      if s.linePoison x.pa then .fault
      else
        match s.loanOn none (lineOf x.pa) (2 ^ 70) with
        | some i => .held i
        | none => if v.toNat ≤ leVal (s.rd x.kid x.pa 8) then .holds else .waits

/-- Both dependences of a packet. -/
def State.deps (s : State) (g : Grid) : Dep :=
  match s.dep g g.pkt.dep0 g.pkt.dep0v, s.dep g g.pkt.dep1 g.pkt.dep1v with
  | .fault, _ | _, .fault => .fault
  | .held i, _ | _, .held i => .held i
  | .holds, .holds => .holds
  | .holds, .waits | .waits, .holds | .waits, .waits => .waits

/-- The earlier grids of a packet's queue. -/
def State.earlier (s : State) (g : Grid) : List Grid :=
  (s.grids.map (·.2)).filter fun h => h.fn == g.fn && h.q == g.q && h.lid < g.lid && h.pkt.type == 1

/-- A grid that has failed counts as completed (R195). -/
def Grid.over (g : Grid) : Bool :=
  match g.st with
  | .accepted => false
  | .failing _ | .complete _ => true

/-- Completes a packet that has no blocks, with its record. -/
def State.finishPacket (s : State) (g : Grid) (status : Nat) : State :=
  (s.modGrid g.lid fun g => { g with st := .complete status }).writeRecord g.fn g.asid g.orig g.pkt status

/-- A marker or a context update whose turn it is: of its type, with every earlier grid over. -/
def State.packetTurn (s : State) (lid type : Nat) : Option Grid :=
  (s.grid lid).filter fun g => g.pkt.type = type && g.st == .accepted && (s.earlier g).all Grid.over

/-- The lines of a packet's dependences (R195). -/
def State.depLines (s : State) (g : Grid) : List Nat :=
  [g.pkt.dep0, g.pkt.dep1].filterMap fun (a : DWord) =>
    if a = 0 then none
    else
      match s.fwXlate g.fn g.asid none .read a.toNat with
      | .ok x => some (lineOf x.pa)
      | .error _ => none

/-- `MARKER_COMPLETION` (R195). -/
def execMarkerCompletion (lid : Nat) (s : State) : Host.Outcome State Fault Refusal :=
  match s.packetTurn lid 2 with
  | none => notNow "MARKER_COMPLETION"
  | some g =>
    s.onRecord "MARKER_COMPLETION" g.fn g.asid g.pkt <|
    let d := s.deps g
    let s := s.deviceAsk (s.depLines g)
    match d with
    | .fault => .next (s.finishPacket g 7)
    | .holds => .next (s.finishPacket g 0)
    | .held i => s.waitOn i "MARKER_COMPLETION"
    | .waits => notNow "MARKER_COMPLETION"

/-- `CONTEXT_UPDATE` (R196). -/
def execContextUpdate (lid : Nat) (s : State) : Host.Outcome State Fault Refusal :=
  match s.packetTurn lid 3 with
  | none => notNow "CONTEXT_UPDATE"
  | some g =>
    s.onRecord "CONTEXT_UPDATE" g.fn g.asid g.pkt <|
    match s.deps g, s.ctx g.asid with
    | .fault, _ => .next (s.finishPacket g 7)
    | .held i, _ => s.waitOn i "CONTEXT_UPDATE"
    | .holds, some c =>
      match s.descLoan c.desc, s.readDesc c.desc with
      | some i, _ => s.waitOn i "CONTEXT_UPDATE"
      | none, none => .next ((s.finishPacket g 9).modQueue g.fn g.q fun x => x.disable 7)
      | none, some (root, ranges) =>
        if !s.ctxQuiet g.asid then notNow "CONTEXT_UPDATE"
        else
          let s := { s.deviceAsk (s.depLines g ++ descLines c.desc) with ctxs := tset s.ctxs g.asid { c with root, ranges } }
          .next ((s.tlbDrop fun e => e.asid == g.asid).finishPacket g 0)
    | .holds, none | .waits, _ => notNow "CONTEXT_UPDATE"

end Sys2Proof.Machine
end

