-- ==== Sys2Proof/Machine/Place.lean ====
section
/-! DEFINITION. The dispatcher: room on cores, dispatch order, placement, pre-emption, resumption, changes of carve-out,
the completion and the failure of grids (R168, R183 to R186, R197 to R209, R237, R419 to R423, R434, R449). -/

namespace Sys2Proof.Machine

open Sys2Proof

/-! ### Stopped blocks (R419, R420) -/

/-- Whether a copy waits for PAGE service. -/
def Copy.paged (c : Copy) : Bool :=
  match c.st with
  | .waiting _ => true
  | .moving | .onLoan _ _ | .capacity _ _ _ => false

/-- Whether the work of a stopped block has come to its end (R419); `paged` leaves out copies that wait for PAGE service
(R511). A restartable record is issued again when the block resumes, so nothing of it is left to end (R512, R526). -/
def State.drained (s : State) (b : Block) (paged : Bool := false) : Bool :=
  b.bands.all (fun x => s.orderReady b x .rel .dev && x.pushesOut.isEmpty && x.rmtCnt == 0)
    && b.copies.all (fun c => c.again || (paged && c.paged)) && !b.cmdLive

def State.pktOf (s : State) (lid : Nat) : Packet := ((s.grid lid).map Grid.pkt).getD {}

/-- Whether a block holds its core's resources; what is evicted together (R204) gives its resources up together, so that
the windows stay for the work that drains (R242, R419). DESIGN CHOICE (log entry 78). -/
def State.holdsCore (s : State) (b : Block) : Bool :=
  match b.st with
  | .running | .ended => true
  | .stopped _ _ _ =>
    !s.drained b || (b.evicted && (s.pktOf b.lid).coRes &&
      s.blocks.any fun q => q.2.lid == b.lid && q.2.evicted && !s.drained q.2)

/-- A stable sort by insertion. -/
def insertBy {α : Type} (le : α → α → Bool) (a : α) : List α → List α
  | [] => [a]
  | b :: t => if le a b then a :: b :: t else b :: insertBy le a t

def sortBy {α : Type} (le : α → α → Bool) : List α → List α
  | [] => []
  | a :: t => insertBy le a (sortBy le t)

/-! ### Room on a core (R183, R185, R186, R235) -/

/-- The blocks that hold resources of a core, some left out. -/
def State.onCore (s : State) (core : Nat) (gone : List Nat) : List (Nat × Block) :=
  s.blocks.filter fun p => p.2.core == core && s.holdsCore p.2 && !gone.contains p.1

/-- Whether the sums of the declarations of some packets keep within a core (R183, R235). -/
def sumsOk (ps : List Packet) (carve : Packet) : Bool :=
  let sum (f : Packet → Nat) : Nat := (ps.map f).sum
  ps.length ≤ 16 && sum Packet.nbands ≤ 64 && sum Packet.vbytes ≤ carve.vend * 32768 && sum Packet.ubytes ≤ 16384
    && sum Packet.window ≤ (carve.send - carve.vend) * 32768 && sum Packet.acc ≤ 6 && sum Packet.barb ≤ 64
    && sum Packet.copyq ≤ 256 && sum Packet.rings ≤ 32 && sum (fun p => p.streams * p.nbands) ≤ 64
    && sum (fun p => p.watch * p.nbands) ≤ 512

/-- Whether a block of a packet fits on a core once some blocks are gone (R185, R186). -/
def State.fits (s : State) (p : Packet) (gone : List Nat) (core : Nat) : Bool :=
  let rs := s.onCore core gone
  (s.core core).inService && (rs.isEmpty || (s.core core).cpool == p.carve)
    && sumsOk (p :: rs.map fun r => s.pktOf r.2.lid) p

/-- The lowest window slot that no other resident block of the grid holds on a core (R239). -/
def State.freeSlot (s : State) (lid core : Nat) : Nat :=
  let used := ((s.onCore core []).filter fun r => r.2.lid == lid).map fun r => r.2.slot
  ((List.range 17).find? fun n => !used.contains n).getD 0

/-- The elements of a list from a member on, cyclically. -/
def rotateFrom (l : List Nat) (a : Nat) : List Nat :=
  match l.findIdx? (· == a) with
  | some i => l.rotateLeft i
  | none => l

/-- The elements of a list after a member, cyclically. -/
def rotateAfter (l : List Nat) (a : Nat) : List Nat :=
  match l.findIdx? (· == a) with
  | some i => l.rotateLeft (i + 1)
  | none => l

/-- The first core of some dies, in order, that takes a block. -/
def State.firstCore (s : State) (p : Packet) (gone : List Nat) (allowed : Nat → Bool) (cores : List (List Nat)) : Option Nat :=
  cores.findSome? fun cs => cs.find? fun c => allowed c && s.fits p gone c

/-! ### Dispatch curves (R199) -/

/-- The least power of two that reaches m, from p on. -/
def powerFrom (m : Nat) : Nat → Nat → Nat
  | 0, p => p
  | k + 1, p => if m ≤ p then p else powerFrom m k (2 * p)

/-- Every second bit of d, packed, k bits. -/
def everyOther : Nat → Nat → Nat
  | 0, _ => 0
  | k + 1, d => d % 2 + 2 * everyOther k (d / 4)

/-- `hpoint` of R199, with k doublings of s left. -/
def hpoint : Nat → Nat → Nat → Nat → Nat → Nat × Nat
  | 0, _, x, y, _ => (x, y)
  | k + 1, s, x, y, t =>
    let rx := t / 2 % 2
    let ry := (t + rx) % 2
    let (x, y) := if ry = 0 then (if rx = 1 then (s - 1 - y, s - 1 - x) else (y, x)) else (x, y)
    hpoint k (2 * s) (x + s * rx) (y + s * ry) (t / 4)

/-- The order of a plane's blocks (R199). -/
def planeOrder (curve w gx gy : Nat) : List (Nat × Nat) :=
  let n := powerFrom (max gx gy) 33 1
  let inside (l : List (Nat × Nat)) : List (Nat × Nat) := l.filter fun p => p.1 < gx && p.2 < gy
  match curve with
  | 0 => (List.range gy).flatMap fun y => (List.range gx).map fun x => (x, y)
  | 1 => inside ((List.range (n * n)).map fun d => (everyOther 33 d, everyOther 33 (d / 2)))
  | 2 => inside ((List.range (n * n)).map fun d => hpoint n.log2 1 0 0 d)
  | _ => (List.range ((gx + w - 1) / w)).flatMap fun c => (List.range gy).flatMap fun y =>
      (List.range (min (c * w + w) gx - c * w)).map fun i => (c * w + i, y)

/-- The index of the i-th block of a grid in curve order. -/
def Packet.blockAt (p : Packet) (i : Nat) : Nat × Nat × Nat :=
  let j := i % (p.gx * p.gy)
  let xy := if p.curve = 0 then (j % p.gx, j / p.gx) else (planeOrder p.curve p.tilew p.gx p.gy).getD j (0, 0)
  (xy.1, xy.2, i / (p.gx * p.gy))

/-- The linear index of a block (R434). -/
def Packet.linear (p : Packet) (x y z : Nat) : Nat := x + p.gx * (y + p.gy * z)

/-! ### A block at its start (R38, R39, R238, R434, R440) -/

/-- A band at its start (R39). -/
def Packet.newBand (p : Packet) (args : List Word) (sigma : Nat) : Band :=
  { lanes := List.replicate p.bandw
      { pc := p.kaddr, vregs := List.replicate p.vrounded 0, preds := 0 }
    uregs := (List.range p.urounded).map fun k => args.getD k 0
    bctl := if p.schk then 1 else 0
    watchCap := p.watch
    ports := List.replicate p.streams {}
    sigma
    wseq := { lanes := List.replicate p.bandw 0 } }

/-- The threshold N of a level (R433). -/
def sampleN (redund : Nat) : Nat :=
  match redund with
  | 0 => 0
  | 1 => 1
  | 2 => 4
  | 3 => 16
  | 4 => 32
  | _ => 64

/-- Whether a block is sampled (R434). -/
def Grid.sampled (g : Grid) (b : Nat) : Bool :=
  let h := crc64 (leBytes 8 g.orig ++ leBytes 4 b ++ leBytes 4 g.pkt.seed.toNat)
  h.toNat / 2 ^ 58 < sampleN g.pkt.redund

/-- A block of a grid at its start on a core. -/
def State.newBlock (s : State) (g : Grid) (x y z core slot : Nat) (args : List Word) (sigma : Nat) : Block :=
  let p := g.pkt
  let lanes := List.range (p.nbands * p.bandw)
  { lid := g.lid, bx := x, by' := y, bz := z, idx := p.linear x y z, asid := g.asid, fn := g.fn
    ldie := coreDie core, core, slot, placed := s.serial, hbase := (s.fn g.fn).hbase &&& ~~~3
    bandw := p.bandw, vregs := p.vrounded, uregs := p.urounded, streams := p.streams, accN := p.acc, ringN := p.rings
    copyq := p.copyq, window := p.window
    bands := List.replicate p.nbands (p.newBand args sigma)
    tiles := List.replicate 16 {}, accs := List.replicate p.acc {}, rings := List.replicate p.rings {}
    bars := List.replicate p.barb { members := lanes, cnt := lanes.length }
    cores := [core] }

/-- What reading the argument block answers (R38). -/
inductive Args where
  | words (ws : List Word)
  | page (t : Trap)
  | bad (t : Trap)
  | wait (sid : Nat)
  deriving DecidableEq, Repr

/-- Reads the argument bytes, in a context's translation (R38). -/
def State.argBytes (s : State) (g : Grid) : List Nat → Except Args (List Byte)
  | [] => .ok []
  | a :: t =>
    match s.fwXlate g.fn g.asid none .read a with
    | .error (.trap e) => .error (if e.cls = .page then .page e else .bad e)
    | .error (.loan i) => .error (.wait i)
    | .ok x =>
      match s.loanOn none (lineOf x.pa) (2 ^ 70) with
      | some i => .error (.wait i)
      | none =>
        if s.linePoison x.pa then .error (.bad { cls := .poison, addr := BitVec.ofNat 64 a })
        else
          match s.argBytes g t with
          | .error e => .error e
          | .ok bs => .ok (s.rdByte x.kid x.pa :: bs)

/-- The argument words of a grid's blocks; bytes beyond the size read as zero (R38). -/
def State.argWords (s : State) (g : Grid) : Args :=
  match s.argBytes g ((List.range g.pkt.argSize).map fun i => (g.pkt.argAddr + BitVec.ofNat 64 i).toNat) with
  | .error e => e
  | .ok bs => .words ((List.range ((g.pkt.argSize + 3) / 4)).map fun k => BitVec.ofNat 32 (leVal ((bs.drop (4 * k)).take 4)))

/-- The core that the next block of a grid goes to (R201). -/
def State.pickCore (s : State) (g : Grid) (gone : List Nat) : Option Nat :=
  let ds := match g.lastDie with
    | some d => rotateFrom g.pkt.dies d
    | none => g.pkt.dies
  s.firstCore g.pkt gone (fun _ => true) (ds.map fun d => match tget g.lastCore d with
    | some c => rotateAfter (coresOf d) c
    | none => coresOf d)

/-- Starts the check of a sampled block: its loan, its snapshot time, its argument words and its TYPE 1 record (R38, R436,
R440, R446). -/
def State.openSample (s : State) (k : Nat) (g : Grid) (b : Block) (args : List Word) (sigma : Nat) : State :=
  let m : Sample :=
    { lid := g.lid, idx := b.idx, detect := g.pkt.detect, start := s.time, sigma0 := sigma, annexStart := isAnnex b.die
      log := [⟨1, 0, 0, [BitVec.ofNat 64 sigma], none⟩], logBytes := 16, places := [(b.bands.map fun _ => 0, b.core)]
      args, dbgctl0 := b.bands.map Band.dbgctl }
  { s with samples := tset s.samples k m }

/-- An empty core takes a carve-out (R185). -/
def State.carveCore (s : State) (core : Nat) (carve : Word) : State :=
  s.setCore core { s.core core with
    vend := carve.toNat % 64, send := carve.toNat / 2 ^ 8 % 64, lend := carve.toNat / 2 ^ 16 % 64 }

/-- The dispatcher has found a grid dispatchable, and has read its dependences (R195). -/
def State.latchReady (s : State) (lid : Nat) : State :=
  match s.grid lid with
  | none => s
  | some g => if g.ready then s else (s.deviceAsk (s.depLines g)).modGrid lid fun g => { g with ready := true }

/-- The lines of a grid's argument block (R38). -/
def State.argLines (s : State) (g : Grid) : List Nat :=
  ((List.range g.pkt.argSize).filterMap fun i =>
    match s.fwXlate g.fn g.asid none .read (g.pkt.argAddr + BitVec.ofNat 64 i).toNat with
    | .ok x => some (lineOf x.pa)
    | .error _ => none).eraseDups

/-- Places the next block of a grid on a core (R168, R201, R434). -/
def State.putBlock (s : State) (lid core : Nat) (args : List Word) : State :=
  match s.grid lid with
  | none => s
  | some g =>
    let (x, y, z) := g.pkt.blockAt g.next
    let d := coreDie core
    let sigma := s.now d
    let (k, s') := s.fresh
    let b := s'.newBlock g x y z core (s.freeSlot lid core) args sigma
    let sampled := g.sampled b.idx
    let b := if sampled then { b with sid := some k, run := .primary } else b
    let s' := ((s'.setBlk k b).carveCore core g.pkt.carve).modGrid lid fun g =>
      { g with next := g.next + 1, ready := true, lastDie := some d, lastCore := tset g.lastCore d core }
    if sampled then s'.openSample k g b args sigma else s'

/-- Places n blocks of a grid, if they all fit (R184, R198); boundaries are not looked at. -/
def State.putBlocks (s : State) (lid : Nat) (args : List Word) (gone : List Nat) : Nat → Option State
  | 0 => some s
  | n + 1 =>
    match s.grid lid with
    | none => none
    | some g =>
      match s.pickCore g gone with
      | none => none
      | some c => (s.putBlock lid c args).putBlocks lid args gone n

/-! ### Wider barriers (R183, R184, R222) -/

/-- The barriers of one group of member blocks. -/
def newBars (n : Nat) (members : List Nat) : List Barrier := List.replicate n { members, cnt := members.length }

/-- Makes a co-resident grid's barriers, once its blocks are placed (R184). -/
def State.makeBars (s : State) (lid : Nat) : State :=
  let bs := (s.blocks.filter fun p => p.2.lid == lid).map (·.2)
  let groups (f : Block → Nat) : List Nat := (bs.map f).eraseDups
  let members (f : Block → Nat) (v : Nat) : List Nat := (bs.filter fun b => f b == v).map Block.idx
  s.modGrid lid fun g =>
    { g with
      cluBars := (groups fun b => b.core / 64).map fun c => (c, newBars g.pkt.barc (members (fun b => b.core / 64) c))
      dieBars := (groups Block.ldie).map fun d => (d, newBars g.pkt.bard (members Block.ldie d))
      gridBars := newBars g.pkt.barg (bs.map Block.idx) }

/-- Whether the barriers in use keep within each cluster, each die and the device (R183). -/
def State.barsFit (s : State) : Bool :=
  let gs := s.grids.map (·.2)
  let use (f : Grid → List (Nat × List Barrier)) (k : Nat) : Nat :=
    (gs.map fun g => ((f g).filter fun p => p.1 == k).map (fun p => p.2.length) |>.sum).sum
  (gs.flatMap fun g => g.cluBars.map (·.1)).all (fun c => use Grid.cluBars c ≤ 16)
    && (gs.flatMap fun g => g.dieBars.map (·.1)).all (fun d => use Grid.dieBars d ≤ 8)
    && (gs.map fun g => g.gridBars.length).sum ≤ 8

/-- Places what of a grid must be placed at once: its next block, or all blocks of a co-resident grid (R198). -/
def State.placeNext (s : State) (g : Grid) (args : List Word) (gone : List Nat) : Option State :=
  if g.pkt.coRes then
    match s.putBlocks g.lid args gone g.pkt.numBlocks with
    | none => none
    | some s => let s := s.makeBars g.lid; if s.barsFit then some s else none
  else s.putBlocks g.lid args gone 1

/-! ### What waits for a core (R197, R198, R422, R449) -/

/-- A stopped block that waits for a core: pre-empted, or on its way to the other profile. -/
def Block.waits (b : Block) : Bool :=
  match b.st with
  | .stopped p a _ => p || a.isSome
  | .running | .ended => false

def Block.order (b : Block) : Nat :=
  match b.st with
  | .stopped _ _ n => n
  | .running | .ended => 0

/-- The profile that a migrating block needs (R422). -/
def Block.toProfile (b : Block) : Option Bool :=
  match b.st with
  | .stopped _ a _ => a
  | .running | .ended => none

def State.prio (s : State) (lid : Nat) : Nat := (s.pktOf lid).prio

/-- Whether a grid still takes placements. -/
def Grid.live (g : Grid) : Bool := g.pkt.type == 1 && g.st == .accepted

/-- A dispatchable grid (R195): it has become so, or its conditions hold. DESIGN CHOICE (log entry 78): the dispatcher observes
the conditions when it first acts for the grid, and keeps what it has found. -/
def State.dispatchable (s : State) (g : Grid) : Bool :=
  g.live && (g.ready || ((s.earlier g).all (fun h => h.over || h.pkt.numBlocks ≤ h.next)
    && (!g.pkt.ord || (s.earlier g).all Grid.over) && s.deps g == .holds))

/-- Whether the dispatcher may resume a block. From the write of QUIESCE it places none of the function (R525). DEDUCED (log
entry 82): but the runs that the quiesce needs for its loans, until the blocks have stopped (R511). -/
def State.mayPlace (s : State) (b : Block) : Bool :=
  !(s.fn b.fn).lmQuiesce || (b.sid.isSome && !(s.fn b.fn).lmStopped)

/-- The loan that the dispatcher meets where it reads the dependences of a grid (R195, R437). -/
def State.heldDeps (s : State) : Option Nat :=
  (s.grids.filter fun p => p.2.live && !p.2.ready).findSome? fun p =>
    match s.deps p.2 with
    | .held i => some i
    | .holds | .waits | .fault => none

/-- The grid's pre-empted blocks, in the order of their stops. -/
def State.preempted (s : State) (lid : Nat) : List (Nat × Block) :=
  sortBy (fun a b => a.2.order ≤ b.2.order) (s.blocks.filter fun p =>
    p.2.lid == lid && p.2.waits && p.2.toProfile.isNone && s.mayPlace p.2)

/-- CSVPOL fields (R468). -/
def State.tshift (s : State) : Nat := (s.pf.csvpol.extractLsb' 16 16).toNat * 1000
def State.holdto (s : State) : Nat := (s.pf.csvpol.extractLsb' 32 16).toNat * 1000

/-- A sample whose later run is placeable and not placed (R449). -/
def State.runDue (s : State) (sid : Nat) (m : Sample) : Bool :=
  !(s.blocks.any fun p => p.2.sid == some sid) &&
    match m.st with
    | .waiting => decide (m.start + s.tshift ≤ s.time)
    | .arbitration => true
    | .primary | .replay | .accessioned | .deaccessioned | .released => false

/-- The samples of a grid whose later runs wait for a core. -/
def State.runsDue (s : State) (lid : Nat) : List Nat :=
  (s.samples.filter fun p => p.2.lid == lid && s.runDue p.1 p.2).map (·.1)

/-- Whether a grid has a block to place (R197); from the write of QUIESCE only runs of its open loans (R511, R525). -/
def State.pending (s : State) (g : Grid) : Bool :=
  g.live && (!(s.preempted g.lid).isEmpty || !(s.runsDue g.lid).isEmpty
    || (!(s.fn g.fn).lmQuiesce && g.next < g.pkt.numBlocks && s.dispatchable g))

/-- Whether the argument block of a grid's next block is in PAGE service (R38). -/
def State.argOpen (s : State) (g : Grid) : Bool :=
  (s.fn g.fn).pageReqs.any fun r => r.band.isNone && r.copy.isNone && r.block == g.lid

/-- The first grid in the order of R197 that has a block to place. -/
def State.firstGrid (s : State) : Option Grid :=
  ((s.grids.map (·.2)).filter s.pending).foldl (fun m g =>
    match m with
    | none => some g
    | some h => if h.pkt.prio < g.pkt.prio then some g else some h) none

/-- The blocks that wait to move to the other profile, in the order of their stops (R422). -/
def State.movers (s : State) : List (Nat × Block) :=
  sortBy (fun a b => a.2.order ≤ b.2.order) (s.blocks.filter fun p =>
    p.2.waits && p.2.toProfile.isSome && s.mayPlace p.2)

/-! ### Where a stopped block resumes (R205, R422, R449) -/

/-- The clusters that held a core of an earlier run of a sample, by number. -/
def Sample.clusters (m : Sample) (kind : RunKind) : List Nat :=
  (m.results.filter fun r => r.kind != kind).flatMap fun r => r.cores.map (· / 64)

/-- Whether a core is allowed for a block: a later run keeps out of the clusters of its earlier runs (R449). -/
def State.allowed (s : State) (b : Block) (core : Nat) : Bool :=
  (s.core core).inService &&
    match b.later, b.sid.bind (tget s.samples) with
    | true, some m => !(m.clusters b.run).contains (core / 64)
    | _, _ => true

/-- The dies of a profile, in the order of R200, starting after a die. -/
def diesAfter (p : Packet) (die : Nat) (annex : Bool) : List Nat :=
  (rotateAfter (if p.prefersA then [4, 5, 0, 1, 2, 3] else [0, 1, 2, 3, 4, 5]) die).filter fun d => isAnnex d == annex

/-- The core that a stopped block resumes on (R205, R422). -/
def State.resumeCore (s : State) (b : Block) (gone : List Nat) : Option Nat :=
  let p := s.pktOf b.lid
  let annex := b.toProfile.getD (isAnnex b.die)
  let home := if isAnnex b.ldie = annex then [b.ldie] else []
  s.firstCore p gone (s.allowed b) ((home ++ (diesAfter p b.die annex)).map coresOf)

/-- A tensor of the own window lies at the rank of the core that a block moves to (R353, R445). -/
def TileR.rebase (t : TileR) (rank : Nat) : TileR := if t.own then { t with addr := rank * 2 ^ 20 + t.addr % 2 ^ 20 } else t

def CmdOp.rebase (c : CmdOp) (rank : Nat) : CmdOp :=
  match c with
  | .mma a x y => .mma a (x.rebase rank) (y.rebase rank)
  | .pack x a st w sc => .pack (x.rebase rank) a st w sc
  | .unpack x a st w => .unpack (x.rebase rank) a st w
  | .void _ | .accClr _ _ | .accRd _ _ _ _ _ _ | .accWr _ _ _ | .cbtLd _ => c

/-- The saved commands and latch entries of a block that moves name its own window at the new rank. -/
def Block.rebase (b : Block) (rank : Nat) : Block :=
  { b with
    cmds := b.cmds.map fun c => { c with op := c.op.rebase rank }
    latch := b.latch.map fun e => { e with captured := e.captured.map fun c => { c with op := c.op.rebase rank } } }

/-- A restartable record issues its copy (R512): it is accepted anew, with a new deadline. -/
def Copy.reissue (c : Copy) (acc deadline : Nat) : Copy := if c.again then { c with again := false, acc, deadline } else c

/-- A block at its resumption (R421): MIGCNT saturates (R406), its commands are accepted again in their order (R364), and its
restartable records issue their copies (R512). -/
def Block.resumed (b : Block) (core slot serial deadline : Nat) : Block :=
  { b with
    core, slot, placed := serial, st := .running, mover := none, saveAt := none
    cmds := b.cmds.mapIdx fun i c => { c with seq := serial + 1 + i }
    copies := b.copies.mapIdx fun i c => c.reissue (serial + 1 + b.cmds.length + i) deadline
    migcnt := if b.toProfile.isSome then satInc b.migcnt else b.migcnt
    cores := if b.cores.contains core then b.cores else b.cores ++ [core]
    bands := b.bands.map fun x => { x.sync with readyAge := 0, boosted := none } }

/-- Notes in the sample of a primary run that it goes on on another core (R445). -/
def State.notePlace (s : State) (b : Block) (core : Nat) : State :=
  match b.run, b.sid with
  | .primary, some i =>
    { s with samples := tmod s.samples i fun m => { m with places := m.places ++ [(b.bands.map Band.issues, core)] } }
  | _, _ => s

/-- Resumes a stopped block, once its work has drained (R421). -/
def State.resumeOne (s : State) (k : Nat) (gone : List Nat) : Option State :=
  match s.blk k with
  | none => none
  | some b =>
    match s.resumeCore b gone with
    | none => none
    | some c =>
      let n := s.serial
      let b' := b.resumed c (s.freeSlot b.lid c) n (s.now (coreDie c) + (s.pf.dlbud.getD (s.dlClass b.lid) 0).toNat)
      let t := { s with serial := n + 1 + b.cmds.length + b.copies.length }.setBlk k (b'.rebase (s.ownRank b'))
      some ((t.carveCore c (s.pktOf b.lid).carve).notePlace b c)

def State.resumeAll (s : State) (gone : List Nat) : List Nat → Option State
  | [] => some s
  | k :: t =>
    match s.resumeOne k gone with
    | none => none
    | some s => s.resumeAll gone t

/-- The blocks that resume with a block: all pre-empted blocks of a co-resident grid, which were evicted together
(R204). -/
def State.resumeSet (s : State) (k : Nat) (b : Block) : List Nat :=
  if b.toProfile.isNone && (s.pktOf b.lid).coRes then (s.preempted b.lid).map (·.1) else [k]

/-! ### Later runs (R449) -/

/-- The block that a later run executes, on a core: the packet's block anew, with the argument words that its launch read
(R38) and its snapshot time from the log. -/
def State.laterBlock (s : State) (sid : Nat) (m : Sample) (g : Grid) (core : Nat) : Block :=
  let p := g.pkt
  let b := s.newBlock g (m.idx % p.gx) (m.idx / p.gx % p.gy) (m.idx / (p.gx * p.gy)) core (s.freeSlot g.lid core) m.args
    m.sigma0
  { b with
    run := if m.st = .arbitration then .arbitration else .replay
    sid := some sid
    bands := b.bands.mapIdx fun n x => { x with dbgctl := m.dbgctl0.getD n 0 } }

/-- The core of a later run (R449). -/
def State.runCore (s : State) (m : Sample) (g : Grid) (gone : List Nat) : Option Nat :=
  let last := (m.results.getLast?.map fun r => coreDie r.lastCore).getD 0
  let ds := diesAfter g.pkt last m.annexStart
  let used := m.results.flatMap fun r => r.cores.map coreDie
  let ok (c : Nat) : Bool := !((m.results.flatMap fun r => r.cores).map (· / 64)).contains (c / 64)
  s.firstCore g.pkt gone ok (((ds.filter fun d => !used.contains d) ++ ds).map coresOf)

/-- Whether any core of the device is allowed for the next run of a sample. -/
def State.runAllowed (s : State) (m : Sample) : Bool :=
  let cl := (m.results.flatMap fun r => r.cores).map (· / 64)
  ([0, 1, 2, 3, 4, 5].filter fun d => isAnnex d == m.annexStart).any fun d =>
    (coresOf d).any fun c => (s.core c).inService && !cl.contains (c / 64)

/-! ### Items of the dispatcher -/

/-- What the dispatcher places in one step. -/
inductive Item where
  | block (g : Grid)
  | resume (k : Nat)
  | run (sid : Nat)
  deriving DecidableEq, Repr

/-- What comes first: the blocks that move, in the order of their stops, before a grid of the priority of one of them or
below (R422); then the first grid's pre-empted blocks, later runs and unplaced blocks (R197, R198). -/
def State.firstItem (s : State) : Option Item :=
  match s.firstGrid, s.movers with
  | none, [] => none
  | none, (k, _) :: _ => some (.resume k)
  | some g, ms =>
    match ms.any (fun p => g.pkt.prio ≤ s.prio p.2.lid), ms, s.preempted g.lid, s.runsDue g.lid with
    | true, (k, _) :: _, _, _ => some (.resume k)
    | _, _, (k, _) :: _, _ => some (.resume k)
    | _, _, [], sid :: _ => some (.run sid)
    | _, _, [], [] => some (.block g)

/-- The state after an item is placed once some blocks are gone; none if it does not fit. Boundaries are not looked at. -/
def State.tryItem (s : State) (gone : List Nat) (i : Item) : Option State :=
  match i with
  | .block g =>
    match s.argWords g with
    | .words ws => s.placeNext g ws gone
    | .page _ | .bad _ | .wait _ => s.placeNext g [] gone
  | .resume k =>
    match s.blk k with
    | none => none
    | some b => s.resumeAll gone (s.resumeSet k b)
  | .run sid =>
    match tget s.samples sid with
    | none => none
    | some m =>
      match s.grid m.lid with
      | none => none
      | some g => (s.runCore m g gone).map fun c =>
        let (k, s) := s.fresh
        s.setBlk k (s.laterBlock sid m g c)

/-- Cores on which a placement starts or resumes a block and whose boundaries differ from the carve-out (R185). -/
def State.carveLack (s t : State) : List (Nat × Word) :=
  t.blocks.filterMap fun p =>
    let carve := (s.pktOf p.2.lid).carve
    if p.2.st = .running ∧ (s.blk p.1).map Block.st ≠ some .running ∧ (s.core p.2.core).cpool ≠ carve then
      some (p.2.core, carve)
    else none

/-- The blocks that hold nothing any more once they have drained. -/
def State.stopping (s : State) : List Nat :=
  (s.blocks.filter fun p => match p.2.st with
    | .stopped _ _ _ => true
    | .running | .ended => false).map (·.1)

/-! ### The events of the dispatcher -/

/-- A record of TYPE 2 for the next block of a grid, whose argument block faults (R38). -/
def Grid.argRecord (g : Grid) (t : Trap) : List Byte :=
  let (x, y, z) := g.pkt.blockAt g.next
  flogRecord 2 0 0 (g.orig % 2 ^ 32) x y z 0 (t.cls.code + t.cause * 2 ^ 8) t.addr.toNat

/-- PAGE service for an argument block (R38, R410). -/
def State.argPage (s : State) (g : Grid) (t : Trap) : State :=
  if !s.flogOn g.fn then s.failGrid g.lid 8 (g.argRecord t)
  else
    let x := s.fn g.fn
    let tag := x.nextTag % 2 ^ 16
    let (bx, y, z) := g.pkt.blockAt g.next
    (s.setFn g.fn { x with nextTag := tag + 1, pageReqs := x.pageReqs ++ [⟨tag, g.lid, none, none, t⟩] }).flog g.fn
      (flogRecord 1 0 tag (g.orig % 2 ^ 32) bx y z 0 (t.cls.code + t.cause * 2 ^ 8) t.addr.toNat)

/-- `BLOCK_PLACEMENT` (R38, R197, R198, R201). -/
def execBlockPlacement (s : State) : Host.Outcome State Fault Refusal :=
  match s.firstItem with
  | some (.block g) =>
    if s.argOpen g then notNow "BLOCK_PLACEMENT" else
    match s.argWords g with
    | .wait i => s.waitOn i "BLOCK_PLACEMENT"
    | .page t => .next ((s.latchReady g.lid).argPage g t)
    | .bad t => .next (s.failGrid g.lid 8 (g.argRecord t))
    | .words ws =>
      match (s.latchReady g.lid).placeNext g ws [] with
      | none => notNow "BLOCK_PLACEMENT"
      | some t => if (s.carveLack t).isEmpty then .next (t.deviceAsk (s.argLines g)) else notNow "BLOCK_PLACEMENT"
  | _ =>
    match s.heldDeps with
    | some i => s.waitOn i "BLOCK_PLACEMENT"
    | none => notNow "BLOCK_PLACEMENT"

/-- `BLOCK_RESUME` (R205, R421, R422, R477): the stopped block that comes first. With no core of its profile in service, fenced
ones being out of it, a moving block's grid fails. -/
def execBlockResume (bk : Nat) (s : State) : Host.Outcome State Fault Refusal :=
  match s.blk bk with
  | none => notNow "BLOCK_RESUME"
  | some b =>
    if !b.waits || !s.drained b then notNow "BLOCK_RESUME"
    else
      if b.toProfile.isSome && !(((List.range 6).filter fun d => some (isAnnex d) == b.toProfile).any fun d =>
          (coresOf d).any fun c => (s.core c).inService) then
        let m := b.mover.getD (0, { cls := .migr })
        .next (s.failGrid b.lid 4 (failRecord (s.lidField b.lid) b m.1 m.2 (((b.band m.1).map Band.inh).getD false) false))
      else if s.firstItem != some (.resume bk) || !((s.resumeSet bk b).all fun k => ((s.blk k).map fun c => s.drained c).getD false) then notNow "BLOCK_RESUME"
      else
        match s.tryItem [] (.resume bk) with
        | none => notNow "BLOCK_RESUME"
        | some t => if (s.carveLack t).isEmpty then .next t else notNow "BLOCK_RESUME"

/-- `REPLAY_PLACEMENT` (R449). -/
def execReplayPlacement (sid : Nat) (s : State) : Host.Outcome State Fault Refusal :=
  match tget s.samples sid with
  | none => notNow "REPLAY_PLACEMENT"
  | some m =>
    match s.grid m.lid with
    | none => notNow "REPLAY_PLACEMENT"
    | some g =>
      if !s.runDue sid m || !g.live then notNow "REPLAY_PLACEMENT"
      else if !s.runAllowed m then .next (s.releaseSample sid (some 1))
      else if s.firstItem != some (.run sid) then notNow "REPLAY_PLACEMENT"
      else
        match s.runCore m g [] with
        | none => notNow "REPLAY_PLACEMENT"
        | some c =>
          if (s.core c).cpool ≠ g.pkt.carve then notNow "REPLAY_PLACEMENT"
          else
            let (k, s) := s.fresh
            let s := s.setBlk k (s.laterBlock sid m g c)
            .next { s with samples := tmod s.samples sid fun m =>
                      { m with st := if m.st = .waiting then .replay else m.st } }

/-- Whether the item that comes first takes a core whose boundaries must first become a carve-out (R185). -/
def State.carveWanted (s : State) (core : Nat) (carve : Word) : Bool :=
  match s.firstItem.bind (s.tryItem []) with
  | none => false
  | some t => (s.carveLack t).contains (core, carve)

/-- The grid of an item that places a new block. -/
def Item.newGrid (i : Item) : Option Nat :=
  match i with
  | .block g => some g.lid
  | .resume _ | .run _ => none

/-- The dispatcher acts for an item: a new block's grid has been found dispatchable (R195). -/
def State.actFor (s : State) (i : Option Item) : State :=
  match i.bind Item.newGrid with
  | none => s
  | some l => s.latchReady l

/-- `CARVE_OUT_CHANGE` (R185, R237): write-backs, then every line is dropped, then the boundaries. -/
def execCarveOutChange (core : Nat) (carve : Word) (s : State) : Host.Outcome State Fault Refusal :=
  let wanted := s.carveWanted core carve
  if !wanted || !(s.onCore core []).isEmpty || (s.core core).cpool = carve || !(s.core core).inService
      || numCores ≤ core then notNow "CARVE_OUT_CHANGE"
  else
    let s := s.actFor s.firstItem
    let s := ((s.core core).l1.filter fun x => x.owned).foldl (fun s x => s.giveUp core 0 none x) s
    .next ((s.setCore core { s.core core with l1 := [] }).carveCore core carve)

/-! ### Pre-emption (R203, R204) -/

/-- The running blocks below a priority, lowest first and the most recently placed first among equals. -/
def State.victims (s : State) (prio : Nat) (cores : List Nat) : List (Nat × Block) :=
  sortBy (fun a b => s.prio a.2.lid < s.prio b.2.lid || (s.prio a.2.lid == s.prio b.2.lid && b.2.placed ≤ a.2.placed))
    (s.blocks.filter fun p => p.2.st == .running && cores.contains p.2.core && s.prio p.2.lid < prio)

/-- The blocks that go with a victim: all of a co-resident grid's (R204). -/
def State.withMates (s : State) (k : Nat) (b : Block) : List Nat :=
  if (s.pktOf b.lid).coRes then (s.blocks.filter fun p => p.2.lid == b.lid && p.2.st == .running).map (·.1) else [k]

/-- Evicts victims in order until a test holds: the blocks of each victim. -/
def State.evict (s : State) (ok : List Nat → Bool) : List (Nat × Block) → List (List Nat) → Option (List (List Nat))
  | [], vs => if ok vs.flatten then some vs else none
  | (k, b) :: t, vs =>
    if ok vs.flatten then some vs
    else if vs.flatten.contains k then s.evict ok t vs
    else s.evict ok t (vs ++ [s.withMates k b])

/-- Leaves out the victims without which a test holds as well, the last of the list first (R204). -/
def spare (ok : List Nat → Bool) : List (List Nat) → List (List Nat) → List (List Nat)
  | [], kept => kept
  | v :: t, kept => if ok (t.flatten ++ kept.flatten) then spare ok t kept else spare ok t (v :: kept)

/-- The dies of a profile. -/
def profileDies (annex : Bool) : List Nat := if annex then [4, 5] else [0, 1, 2, 3]

/-- The cores on which an item may be placed, in the order of R203: of the dies that R200, R205 or R449 allows. -/
def State.itemCores (s : State) (i : Item) : List Nat :=
  let onDies (ds : List Nat) : List Nat := (List.range numCores).filter fun c => ds.contains (coreDie c)
  match i with
  | .block g => onDies g.pkt.dies
  | .resume k =>
    match s.blk k with
    | none => []
    | some b =>
      (onDies ((s.resumeSet k b).flatMap fun j => ((s.blk j).map fun c =>
        profileDies (c.toProfile.getD (isAnnex c.die))).getD [])).filter (s.allowed b)
  | .run sid =>
    match tget s.samples sid with
    | none => []
    | some m => (onDies (profileDies m.annexStart)).filter fun c =>
        !((m.results.flatMap fun r => r.cores).map (· / 64)).contains (c / 64)

/-- The grid of an item. -/
def State.itemLid (s : State) (i : Item) : Nat :=
  match i with
  | .block g => g.lid
  | .resume k => ((s.blk k).map Block.lid).getD 0
  | .run sid => ((tget s.samples sid).map Sample.lid).getD 0

/-- Whether an item takes one core. -/
def State.oneCore (s : State) (i : Item) : Bool :=
  match i with
  | .block g => !g.pkt.coRes
  | .resume k => ((s.blk k).map fun b => (s.resumeSet k b).length == 1).getD true
  | .run _ => true

/-- The victims of an item on the core that needs the fewest evictions (R203), the lowest of such cores. -/
def State.coreVictims (s : State) (lid : Nat) (cores : List Nat) : Option (List (List Nat)) :=
  cores.foldl (fun best c =>
    match s.evict (fun g => s.fits (s.pktOf lid) (s.stopping ++ g) c) (s.victims (s.prio lid) [c]) [], best with
    | none, _ => best
    | some v, none => some v
    | some v, some w => if v.length < w.length then some v else some w) none

/-- The blocks that the dispatcher evicts for an item (R203, R204): for one core, those of that core; for what must be placed
at once, the lowest priorities on the cores where it may be placed, without those that its placement does not need.
DESIGN CHOICE (log entry 78) for the latter: the rules choose among cores, not among sets of cores. -/
def State.evictions (s : State) (i : Item) : Option (List Nat) :=
  let lid := s.itemLid i
  if s.oneCore i then (s.coreVictims lid (s.itemCores i)).map List.flatten
  else
    let ok (g : List Nat) : Bool := (s.tryItem (s.stopping ++ g) i).isSome
    (s.evict ok (s.victims (s.prio lid) (s.itemCores i)) []).map fun vs => (spare ok vs.reverse []).flatten

/-- What the dispatcher tries to make room for: a moving block as though its grid stood first (R422), and what comes first. -/
def State.wanting (s : State) : List Item :=
  ((s.movers.take 1).map fun p => Item.resume p.1) ++ s.firstItem.toList

/-- `PREEMPTION` (R203 to R205, R422): an item that cannot be placed evicts blocks of lower priority. -/
def execPreemption (s : State) : Host.Outcome State Fault Refusal :=
  match s.wanting.findSome? fun i =>
      if (s.tryItem s.stopping i).isSome then none else (s.evictions i).map fun g => (i, g) with
  | none => notNow "PREEMPTION"
  | some (i, gone) => .next (gone.foldl (fun s k => s.stopBlock k true none) (s.actFor (some i)))

/-! ### The end of a grid (R206 to R209) -/

def Sample.final (m : Sample) : Bool := !m.open'

/-- Frees a grid's wider barriers. -/
def Grid.noBars (g : Grid) : Grid := { g with cluBars := [], dieBars := [], gridBars := [] }

/-- `GRID_COMPLETION` (R206, R207). -/
def execGridCompletion (lid : Nat) (s : State) : Host.Outcome State Fault Refusal :=
  match s.grid lid with
  | none => notNow "GRID_COMPLETION"
  | some g =>
    if !g.live || g.next < g.pkt.numBlocks || s.blocks.any (fun p => p.2.lid == lid)
        || s.samples.any (fun p => p.2.lid == lid && !p.2.final) then
      notNow "GRID_COMPLETION"
    else
      s.onRecord "GRID_COMPLETION" g.fn g.asid g.pkt (.next ((s.modGrid lid Grid.noBars).finishPacket g 0))

/-- A dependence fault of a launch that has placed nothing fails it with status 7 (R195). -/
def State.depFails (s : State) (g : Grid) : Bool := g.live && !g.ready && s.deps g == .fault

/-- Whether the work of a failing grid's blocks has drained (R208): what has issued is performed and visible, copies and
commands have ended, but those that nothing will end; a core that has failed answers nothing more (R470). -/
def State.failDrained (s : State) (lid : Nat) : Bool :=
  s.blocks.all fun p => p.2.lid != lid || (s.core p.2.core).retired || s.drained p.2 true

/-- Error statuses that the bands of a block never took (R471). -/
def State.logUnconsumed (s : State) (b : Block) : State :=
  (List.range b.bands.length).foldl (fun s n =>
    match (b.band n).bind Band.werr with
    | none => s
    | some a => s.flog b.fn (flogRecord 4 0 0 (s.lidField b.lid) b.bx b.by' b.bz n TrapClass.poison.code a.toNat)) s

/-- `GRID_FAILURE` (R208, R209, R471): once the work has drained, the failure is reported and the queue disabled. -/
def execGridFailure (lid : Nat) (s : State) : Host.Outcome State Fault Refusal :=
  match s.grid lid with
  | none => notNow "GRID_FAILURE"
  | some g =>
    let go (s : State) (status : Nat) : Host.Outcome State Fault Refusal :=
      if !s.failDrained lid then notNow "GRID_FAILURE"
      else
        s.onRecord "GRID_FAILURE" g.fn g.asid g.pkt <|
          let s := (s.blocks.filter fun p => p.2.lid == lid).foldl (fun s p => s.logUnconsumed p.2) s
          let s := { s with blocks := s.blocks.filter fun p => p.2.lid != lid }
          let s := s.modFn g.fn fun x => { x with
            pageReqs := x.pageReqs.filter fun r => !(r.band.isNone && r.copy.isNone && r.block == lid) }
          .next (((s.modGrid lid fun g => { g.noBars with next := g.pkt.numBlocks }).finishPacket g status).modQueue g.fn g.q
            fun x => x.disable 2)
    match g.st with
    | .complete _ => notNow "GRID_FAILURE"
    | .failing status => go s status
    | .accepted => if s.depFails g then go (s.modGrid lid fun g => { g with st := .failing 7 }) 7 else notNow "GRID_FAILURE"

end Sys2Proof.Machine
end

