-- ==== Sys2Proof/Machine/Conservator.lean ====
section
/-! DEFINITION. The Conservator: the end of a run, the comparison and the vote, demerits and fences, timeouts, and the
failure of a core (R41, R439, R449, R457 to R471). -/

namespace Sys2Proof.Machine

open Sys2Proof

/-! ### Demerits, clean checks and fences (R462, R463) -/

/-- CSVPOL.THRESH and DECAY (R468). -/
def State.thresh (s : State) : Nat := (s.pf.csvpol.extractLsb' 0 4).toNat
def State.decay (s : State) : Nat := (s.pf.csvpol.extractLsb' 8 5).toNat

/-- Adds a clean check (R462). -/
def Core.addClean (c : Core) (decay : Nat) : Core :=
  if 2 ^ decay ≤ c.clean + 1 then
    { c with clean := 0, dem := c.dem - 1, marked := if c.dem ≤ 1 && c.marked = 1 then 0 else c.marked }
  else { c with clean := c.clean + 1 }

def State.cleanCheck (s : State) (c : Nat) : State := s.setCore c ((s.core c).addClean s.decay)

/-- Releases the samples whose next or stopped later run has no allowed core left (R449). -/
def State.judgeRuns (s : State) : State :=
  let lost := (s.samples.filter fun p =>
    (s.runDue p.1 p.2 && !s.runAllowed p.2) || s.blocks.any fun q => q.2.sid == some p.1 && q.2.later && q.2.waits &&
      !((List.range 6).filter fun d => isAnnex d == q.2.toProfile.getD (isAnnex q.2.die)).any fun d =>
        (coresOf d).any fun c => s.allowed q.2 c).map (·.1)
  lost.foldl (fun s i => s.releaseSample i (some 1)) s

/-- Fences a core: its blocks stop and resume elsewhere (R463). -/
def State.fence (s : State) (c : Nat) : State :=
  let s := s.setCore c { s.core c with fenced := true, marked := 2 }
  (((s.blocks.filter fun p => p.2.core == c && p.2.st == .running).map (·.1)).foldl (fun s k => s.stopBlock k true none)
    s).judgeRuns

/-- Adds a demerit; at the threshold the core is fenced (R462). -/
def State.demerit (s : State) (c : Nat) : State :=
  let k := s.core c
  let s := s.setCore c { k with dem := min 15 (k.dem + 1), marked := max 1 k.marked }
  if s.thresh ≤ k.dem + 1 && !k.fenced then s.fence c else s

/-- `CDEM_FENCED` (R465): a write of 1 to FENCED. -/
def execCdemFenced (core : Nat) (s : State) : Host.Outcome State Fault Refusal :=
  if numCores ≤ core then notNow "CDEM_FENCED"
  else .next (if (s.core core).fenced then s else s.fence core)

/-! ### Accession (R439, R458) -/

/-- Accession: the loan's provisional versions commit (R439). -/
def State.accession (s : State) (sid : Nat) : State :=
  match tget s.samples sid with
  | none => s
  | some m =>
    let s := s.commitProv (s.sampleWork m) m.prov.reverse
    { s with samples := tset s.samples sid { m with st := .accessioned, prov := [] } }.loanEnds m

/-- The winners' versions commit at the moment of accession (R458): A and W are the home's chip time. `old` are the primary
run's versions. Where a version stands in place of one of these, a snapshot reads it as it would have read that one: a load that
waited on the loan uses the result of the close (R437, R440, R474). DEDUCED (log entry 87). -/
def State.commitOverlay (s : State) (work : StackFor) (old : List Prov) : List Prov → State
  | [] => s
  | p :: t =>
    let s := s.recallNow (lineOf p.pa)
    let s := if p.clr then s.unpoison (lineOf p.pa) else s
    let now := s.now (homeDie p.pa)
    let seen := ((old.find? fun v => v.pa == p.pa).map Prov.w).getD now
    let s := ((s.pokeBytes p.kid p.pa seen now [p.val]).noteDirty p.kid p.pa).newVersion (lineOf p.pa) now
    (s.maskedWrite work p.kid p.pa [p.val]).commitOverlay work old t

/-- Accession of the winners' versions in place of the primary run's (R458). -/
def State.accessWinners (s : State) (sid : Nat) (o : List Prov) : State :=
  match tget s.samples sid with
  | none => s
  | some m =>
    let s := s.commitOverlay (s.sampleWork m) m.prov o.reverse
    { s with samples := tset s.samples sid { m with st := .accessioned, prov := [] } }.loanEnds m

/-! ### Comparison and vote (R457 to R461) -/

/-- A verdict pair (R457). -/
def Sig.pair (g : Sig) : DWord × DWord := (g.sc + g.si + g.su, g.reg)

/-- Whether two runs agree; a departure agrees with nothing (R447). -/
def RunRes.agrees (a b : RunRes) : Bool := !a.departed && !b.departed && a.sig.pair == b.sig.pair

/-- The record of a vote (R460). -/
def voteRecord (lid : Nat) (b : Block) (outcome : Nat) (p r a : RunRes) : List Byte :=
  flogRecord 3 0 outcome lid b.bx b.by' b.bz 0 0 (p.lastCore + r.lastCore * 2 ^ 16 + a.lastCore * 2 ^ 32)

/-- The vote at the end of an arbitration run (R458 to R462). -/
def State.vote (s : State) (sid : Nat) (b : Block) (m : Sample) (p r a : RunRes) : State :=
  let record (outcome : Nat) : List Byte := voteRecord (s.lidField b.lid) b outcome p r a
  let clean (s : State) (x y : RunRes) : State := (x.cores ++ y.cores).foldl State.cleanCheck s
  if a.agrees p then
    let s := (s.accession sid).flog b.fn (record 0)
    r.cores.foldl State.demerit (clean s p a)
  else if a.agrees r then
    let s := if !m.detect && p.sig.su == r.sig.su && p.sig.su == a.sig.su then
        (s.accessWinners sid a.overlay).flog b.fn (record 1)
      else (s.deaccession sid).failGrid b.lid 5 (record 1)
    p.cores.foldl State.demerit (clean s r a)
  else ((s.deaccession sid).csvevt 3).failGrid b.lid 5 (record 2)

/-- The result of a run that ends by itself. -/
def Block.result (b : Block) : RunRes :=
  { kind := b.run, sig := b.sig, cores := b.cores, lastCore := b.core, overlay := b.overlay, departed := false }

/-- What the end of a run does to its sample, whose results hold the run's (R461). -/
def State.runEnds (s : State) (sid : Nat) (b : Block) : State :=
  match tget s.samples sid with
  | none => s
  | some m =>
    let next (st : SampleSt) : State := { s with samples := tset s.samples sid { m with st } }
    match m.st, m.results with
    | .primary, _ => next .waiting
    | .replay, [p, r] =>
      if r.agrees p then (p.cores ++ r.cores).foldl State.cleanCheck (s.accession sid) else (next .arbitration).csvevt 2
    | .arbitration, [p, r, a] => s.vote sid b m p r a
    | _, _ => s

/-! ### The end of a block (R41, R224, R295) -/

/-- Whether a block's lanes have all exited and its work is complete, its remote stores visible (R41, R206, R295). -/
def State.blockOver (s : State) (b : Block) : Bool :=
  b.bands.all (fun x => x.ended && s.orderReady b x .rel .dev && x.pushesOut.isEmpty && x.rmtCnt == 0)
    && b.copies.isEmpty && b.cols.isEmpty && b.cmds.isEmpty && b.latch.isEmpty

/-- The block goes at its wider barriers (R224); a later run is no member (R450). -/
def State.leaveWide (s : State) (b : Block) : State :=
  if b.later then s
  else
    let go (g : Grid) (sc : BScope) : Grid := g.modBars b sc (·.map fun t => t.leave b.idx (s.barNow b sc))
    s.modGrid b.lid fun g => go (go (go g .clu) .die) .grid

/-- Puts the result of a run that ends by itself into its sample. -/
def State.addResult (s : State) (b : Block) : State :=
  match b.sid with
  | none => s
  | some i =>
    { s with samples := tmod s.samples i fun m => { m with results := m.results ++ [b.result] } }

/-- `BLOCK_END` (R41, R457, R461): a block whose work is done, or a run that departed and whose engines are idle. -/
def execBlockEnd (bk : Nat) (s : State) : Host.Outcome State Fault Refusal :=
  match s.blk bk with
  | none => notNow "BLOCK_END"
  | some b =>
    let finish (s : State) : State :=
      let s := { (s.logUnconsumed b).leaveWide b with blocks := tdel s.blocks bk }
      match b.sid with
      | none => s
      | some i => s.runEnds i b
    match b.st with
    | .running => if s.blockOver b then .next (finish (s.addResult b)) else notNow "BLOCK_END"
    | .ended => if b.copies.isEmpty && !b.cmdLive then .next (finish s) else notNow "BLOCK_END"
    | .stopped _ _ _ => notNow "BLOCK_END"

/-! ### Timeouts (R466, R467) -/

/-- The waits on a loan: the number of the waiting block, and the chip time since which it waits (R437). -/
def State.loanWaits (s : State) (sid : Nat) : List (Nat × Nat) :=
  (s.blocks.flatMap fun p =>
    (p.2.bands.flatMap fun x => x.lanes.filterMap fun l => match l.st with
      | .blocked (.loan i since) => if i = sid then some (p.1, since) else none
      | _ => none)
    ++ (p.2.copies.filterMap fun c => match c.st with
      | .onLoan i since => if i = sid then some (p.1, since) else none
      | .moving | .waiting _ | .capacity _ _ _ => none)
    ++ p.2.bands.flatMap fun x => x.pend.filterMap fun o => match o.stuck, s.lateLoan p.2 o with
      | some since, some i => if i = sid then some (p.1, since) else none
      | _, _ => none)
  ++ s.arrived.filterMap fun q =>
    match q.homeLine, q.block with
    | some l, some (k, _) => if s.loanOn (s.sidOf k) l (2 ^ 70) = some sid then some (k, q.since) else none
    | _, _ => none

/-- `HOLD_TIMEOUT` (R467). -/
def execHoldTimeout (sid : Nat) (s : State) : Host.Outcome State Fault Refusal :=
  let outside := ((tget s.samples sid).bind Sample.outside).toList
  if s.loanOpen sid && ((s.loanWaits sid).map (·.2) ++ outside).any fun t => decide (t + s.holdto < s.time) then
    .next (s.releaseSample sid (some 5))
  else notNow "HOLD_TIMEOUT"

/-- An edge of the wait-for graph (R467). -/
def State.waitsOn (s : State) (a b : Nat) : Bool := (s.loanWaits b).any fun w => s.sidOf w.1 == some a

/-- `LOAN_CYCLE_BREAK` (R467): the loans named form a cycle; the one whose primary run started first is released. -/
def execLoanCycleBreak (sids : List Nat) (s : State) : Host.Outcome State Fault Refusal :=
  let start (i : Nat) : Nat := ((tget s.samples i).map Sample.start).getD 0
  match sids with
  | [] => notNow "LOAN_CYCLE_BREAK"
  | a :: t =>
    if sids.all s.loanOpen && ((sids.zip (t ++ [a])).all fun p => s.waitsOn p.1 p.2) then
      .next (s.releaseSample (t.foldl (fun m i => if start i < start m then i else m) a) (some 5))
    else notNow "LOAN_CYCLE_BREAK"

/-- `CAPACITY_TIMEOUT` (R466). -/
def execCapacityTimeout (sid : Nat) (s : State) : Host.Outcome State Fault Refusal :=
  let late (since : Nat) : Bool := decide (since + s.holdto < s.time)
  let waits := s.blocks.any fun p =>
    p.2.bands.any (fun x => x.lanes.any fun l => match l.st with
      | .blocked (.capacity i since _) => i == sid && late since
      | _ => false)
    || (p.2.copies.any fun c => match c.st with
      | .capacity i since _ => i == sid && late since
      | .moving | .waiting _ | .onLoan _ _ => false)
    || p.2.bands.any fun x => x.pend.any fun o => match o.stuck, s.lateLoan p.2 o, s.lateFull p.2 o with
      | some since, none, some i => i == sid && late since
      | _, _, _ => false
  if s.loanOpen sid && waits then .next (s.releaseSample sid (some 4)) else notNow "CAPACITY_TIMEOUT"

/-! ### The failure of a core (R470) -/

/-- The lines that a core owned: written ones are poisoned at their homes, the others revert. -/
def State.loseLines (s : State) (c : Nat) : List L1Line → State
  | [] => s
  | x :: t =>
    let s := s.setHome x.line { s.home x.line with owner := none, recalling := false }
    (if x.dirty then s.holdPoison x.line else s).loseLines c t

/-- `CORE_FAILURE` (R470, R513). -/
def execCoreFailure (core : Nat) (s : State) : Host.Outcome State Fault Refusal :=
  if numCores ≤ core || (s.core core).retired then notNow "CORE_FAILURE"
  else
    let s := s.loseLines core ((s.core core).l1.filter fun x => x.owned)
    let s := s.setCore core { s.core core with retired := true, l1 := [] }
    let bs := (s.onCore core []).map (·.2)
    .next (bs.foldl (fun s b => s.failGrid b.lid 4 (flogRecord 2 0 0 (s.lidField b.lid) b.bx b.by' b.bz 0
      (2 ^ 8) core)) s).judgeRuns

end Sys2Proof.Machine
end

