-- ==== Sys2Proof/Machine/Exchange.lean ====
section
/-! DEFINITION. Group 7: exchange, vote, match, reduction, election, special registers (R211 to R219). -/

namespace Sys2Proof.Machine

open Sys2Proof

/-- The B operand of an exchange (R213): always a 32-bit value. -/
def Env.xb (e : Env) (b : XB) : Nat :=
  match b with
  | .v r => (e.v r).toNat
  | .u r => (e.x.u r.toNat).toNat
  | .lit n => n.toNat

/-- The bits that a core's exchange unit inverts in what it delivers to a lane: none of a sound one (R473). -/
def Iss.flaw (y : Iss) (l : Nat) : DWord := (tget (y.s.core y.b.core).flaws l).getD 0

/-- R214: each lane takes A of its source lane if that lane participates, else its own. -/
def xchg (i : Instr) (o : Xchg) (s : State) (src : Int → Int → Int) : Host.Outcome State Fault Refusal :=
  runBand i s fun y => y.ex.map fun l =>
    let e := y.env l
    let sl := src l (e.xb o.b)
    let ok := decide (0 ≤ sl) && y.ex.contains sl.toNat
    (l, { Out.vW o.w64 o.d ((y.env (if ok then sl.toNat else l)).vW o.w64 o.a ^^^ y.flaw l) with p := [(o.pv.toNat, ok)] })

/-- `xchg.idx` (R213). -/
def execXchgIdx (h : Hdr) (o : Xchg) (s : State) : Host.Outcome State Fault Refusal :=
  xchg (.xchgIdx h o) o s fun _ b => b

/-- `xchg.up` (R213). -/
def execXchgUp (h : Hdr) (o : Xchg) (s : State) : Host.Outcome State Fault Refusal :=
  xchg (.xchgUp h o) o s fun l b => l - b

/-- `xchg.down` (R213). -/
def execXchgDown (h : Hdr) (o : Xchg) (s : State) : Host.Outcome State Fault Refusal :=
  xchg (.xchgDown h o) o s fun l b => l + b

/-- `xchg.xor` (R213). -/
def execXchgXor (h : Hdr) (o : Xchg) (s : State) : Host.Outcome State Fault Refusal :=
  xchg (.xchgXor h o) o s fun l b => ((l.toNat ^^^ b.toNat : Nat) : Int)

/-- q of R216 for a lane. -/
def Iss.vote (y : Iss) (sp : BitVec 3) (ns : Bool) (l : Nat) : Bool := (y.env l).p sp != ns

/-- `vote.all` (R216). -/
def execVoteAll (h : Hdr) (o : Vote) (s : State) : Host.Outcome State Fault Refusal :=
  runBand (.voteAll h o) s fun y => y.ex.map fun l => (l, .pr o.p (y.ex.all (y.vote o.s o.ns)))

/-- `vote.any` (R216). -/
def execVoteAny (h : Hdr) (o : Vote) (s : State) : Host.Outcome State Fault Refusal :=
  runBand (.voteAny h o) s fun y => y.ex.map fun l => (l, .pr o.p (y.ex.any (y.vote o.s o.ns)))

/-- `vote.ballot` (R216). -/
def execVoteBallot (h : Hdr) (o : Ballot) (s : State) : Host.Outcome State Fault Refusal :=
  runBand (.voteBallot h o) s fun y => y.ex.map fun l =>
    (l, .dst o.d o.m64 (laneSet (y.ex.filter (y.vote o.s o.ns))))

/-- `match` (R216). -/
def execMatchB (h : Hdr) (o : Match) (s : State) : Host.Outcome State Fault Refusal :=
  runBand (.matchB h o) s fun y => y.ex.map fun l =>
    let same := y.ex.filter fun k => (y.env k).vW o.w64 o.a == (y.env l).vW o.w64 o.a
    (l, { Out.vW o.m64 o.d (laneSet same) with p := [(o.pl.toNat, lowest same == l)] })

/-- `elect` (R216). -/
def execElect (h : Hdr) (p : BitVec 3) (s : State) : Host.Outcome State Fault Refusal :=
  runBand (.elect h p) s fun y => y.ex.map fun l => (l, .pr p (lowest y.ex == l))

/-- One node of a reduction (R217, R218). -/
def redbNode (op : RedbOp) (md : RMode) (z : Bool) (a b : Word) : Res Word :=
  let fl (r : Res Nat) : Res Word := ⟨BitVec.ofNat 32 r.val, r.cs⟩
  match op with
  | .addb => ⟨a + b, 0⟩
  | .mins => ⟨if a.toInt ≤ b.toInt then a else b, 0⟩
  | .maxs => ⟨if a.toInt ≤ b.toInt then b else a, 0⟩
  | .minz => ⟨if a ≤ b then a else b, 0⟩
  | .maxz => ⟨if a ≤ b then b else a, 0⟩
  | .andb => ⟨a &&& b, 0⟩
  | .orb => ⟨a ||| b, 0⟩
  | .xorb => ⟨a ^^^ b, 0⟩
  | .addf => fl (fadd .f32 md z (fval .f32 a.toNat) (fval .f32 b.toNat))
  | .minf => fl (fminmax .f32 false z a.toNat b.toNat)
  | .maxf => fl (fminmax .f32 true z a.toNat b.toNat)

/-- A node of the tree of R109: an empty side passes the other. -/
def redbJoin (f : Word → Word → Res Word) : Option (Res Word) → Option (Res Word) → Option (Res Word)
  | none, y => y
  | x, none => x
  | some a, some b => let r := f a.val b.val; some ⟨r.val, a.cs ||| b.cs ||| r.cs⟩

/-- The tree over the 2^n lanes from lane i on (R109). -/
def redbTree (f : Word → Word → Res Word) (leaf : Nat → Option Word) : Nat → Nat → Option (Res Word)
  | 0, i => (leaf i).map fun w => ⟨w, 0⟩
  | n + 1, i => redbJoin f (redbTree f leaf n i) (redbTree f leaf n (i + 2 ^ n))

/-- `redb` (R217, R218). -/
def execRedb (h : Hdr) (o : Redb) (s : State) : Host.Outcome State Fault Refusal :=
  runBand (.redb h o) s fun y =>
    let f := redbNode o.op (modeOf y.x.fstat o.rnd) o.ftz
    match redbTree f (fun l => if y.ex.contains l then some ((y.env l).v o.a) else none) 6 0 with
    | none => []
    | some r => y.ex.map fun l => (l, { Out.dst o.d false (r.val.setWidth 64) with cs := r.cs })

/-! ### Special registers (R22 to R25, R219) -/

/-- The selector of R22. -/
def SReg.code : SReg → Nat
  | .lane => 0 | .bandw => 1 | .band => 2 | .nband => 3 | .blkx => 4 | .blky => 5 | .blkz => 6 | .nblkx => 7
  | .nblky => 8 | .nblkz => 9 | .blane => 10 | .core => 11 | .cluster => 12 | .die => 13 | .hdie => 14
  | .profile => 15 | .orient => 16 | .ctime => 17 | .launch => 18

/-- The value of a special register for a lane (R22); `ctime` is sampled apart. -/
def State.sreg (s : State) (b : Block) (n : Nat) (r : SReg) (ct : DWord) (l : Nat) : DWord :=
  let p := ((s.grid b.lid).map Grid.pkt).getD {}
  let v : Nat := match r with
    | .lane => l
    | .bandw => b.bandw
    | .band => n
    | .nband => b.bands.length
    | .blkx => b.bx
    | .blky => b.by'
    | .blkz => b.bz
    | .nblkx => p.gx
    | .nblky => p.gy
    | .nblkz => p.gz
    | .blane => n * b.bandw + l
    | .core => coreRank b.core
    | .cluster => coreCluster b.core
    | .die => b.ldie
    | .hdie => b.die
    | .profile => (isAnnex b.die).toNat
    | .orient => if isAnnex b.die then 0 else b.die
    | .ctime => ct.toNat
    | .launch => ((s.grid b.lid).map Grid.orig).getD b.lid % 2 ^ 32
  BitVec.ofNat 64 v

/-- `sread` (R219). Selectors 0x0B to 0x11 are logged by a primary run and taken from the log by a later one
(R25, R446). -/
def execSread (h : Hdr) (o : Sread) (s : State) : Host.Outcome State Fault Refusal :=
  run (.sread h o) s fun y =>
    let c := SReg.code o.sel
    let logged := decide (11 ≤ c) && decide (c ≤ 17) && !y.ex.isEmpty
    let now := BitVec.ofNat 64 (y.s.now y.b.die)
    let ct : DWord := if now < y.x.lastCtime then y.x.lastCtime else now
    let wide := o.sel == .ctime
    let put (s : State) (x : Band) (f : Nat → DWord) : State :=
      { y.resync s with x := x }.commit (.sread h o) (y.ex.map fun l => (l, .dst o.d wide (f l)))
    let x := if wide && !y.ex.isEmpty then { y.x with lastCtime := ct } else y.x
    if logged && y.b.later then
      match y.s.nextRec y.k y.n 2 with
      | some r => put y.s { x with logPos := x.logPos + 1, lastCtime := y.x.lastCtime } fun _ => r.body.headD 0
      | none => y.s.depart y.k
    else
      let v := y.s.sreg y.b y.n o.sel ct
      put (if logged && y.pushOk (.sread h o) then y.s.logRec y.k y.n 2 [v 0] else y.s) x v

end Sys2Proof.Machine
end

