-- ==== Sys2Proof/Machine/Registers.lean ====
section
/-! DEFINITION. The registers of BAR 0 as the host writes and reads them, page responses, the fault log's control, KEYMAP
and the host-coherent window (R210, R249, R258, R406, R410, R411, R465, R468, R469, R479, R492 to R502, R505, R520). -/

namespace Sys2Proof.Machine

open Sys2Proof

/-! ### Page responses and the fault log (R410, R411) -/

/-- What a response does for one request; a copy's names the lowest band that issued it (R411). -/
def State.answerPage (s : State) (f : Nat) (decline : Bool) (r : PageReq) : State :=
  match r.band, r.copy with
  | some n, _ =>
    if decline then s.failTrap r.block n r.trap
    else s.modBand r.block n fun x => { x with
      lanes := x.lanes.map fun l => if l.st = .blocked (.page r.tag) then { l with st := .ready } else l }
  | none, some c =>
    if decline then
      s.failTrap r.block ((((s.blk r.block).bind fun b => b.copies.find? fun d => d.id == c).map fun d =>
        lowest d.issuers).getD 0) r.trap true
    else s.modBlk r.block fun b => { b with
      copies := b.copies.map fun d => if d.id = c ∧ d.st = .waiting r.tag then { d with st := .moving } else d }
  | none, none =>
    match decline, s.grid r.block with
    | true, some g => s.failGrid r.block 8 (g.argRecord r.trap)
    | _, _ => s

/-- `PRSP` (R410): a response with a tag that no request has answers nothing. -/
def execPrsp (a : Via) (v : Word) (s : State) : Host.Outcome State Fault Refusal :=
  let x := s.fn a.fn
  let tag := v.toNat % 2 ^ 16
  let t := s.setFn a.fn { x with prspReg := v &&& 0x1FFFF, pageReqs := x.pageReqs.filter fun r => r.tag != tag }
  s.hostAccess a
    (.next ((x.pageReqs.filter fun r => r.tag == tag).foldl (fun s r => s.answerPage a.fn (v.getLsbD 16) r) t))

/-- FLOGCTL after a write (R411). -/
def flogCtlWrite (old v : Word) : Word :=
  let en := old.getLsbD 0
  let new := (v.extractLsb' 2 4).toNat
  let logn := if !en && 4 ≤ new && new ≤ 12 then new else (old.extractLsb' 2 4).toNat
  BitVec.ofNat 32 ((v.getLsbD 0 && 4 ≤ logn && logn ≤ 12).toNat + (old.getLsbD 1 && !v.getLsbD 1).toNat * 2 + logn * 4)

/-- `FLOGCTL_WRITE` (R411). -/
def execFlogctlWrite (a : Via) (v : Word) (s : State) : Host.Outcome State Fault Refusal :=
  s.hostAccess a <| .next (s.modFn a.fn fun x => { x with flogCtl := flogCtlWrite x.flogCtl v })

/-! ### KEYMAP and keys (R505) -/

/-- The partitions (R499). -/
def numFns : Nat := 64

/-- An entry as a write leaves it: bit 0 is fixed. -/
def keymapEntry (p : Nat) (v : DWord) : DWord := if p = 0 then v ||| 1 else v &&& ~~~(1 : DWord)

/-- Generates a key for each KEYID that has none (R505). -/
def State.newKeys (s : State) (m : DWord) : State :=
  ((List.range 64).filter fun k => m.getLsbD k && (tget s.root.keyGen k).isNone).foldl (fun s k =>
    { s with root := { s.root with keyGen := tset s.root.keyGen k s.root.nextGen, nextGen := s.root.nextGen + 1 } }) s

/-- Generates new keys for all KEYIDs of a partition (R505). -/
def State.regenKeys (s : State) (p : Nat) : State :=
  let m := (tget s.pf.keymap p).getD 0
  ((List.range 64).filter fun k => m.getLsbD k).foldl (fun s k =>
    { s with root := { s.root with keyGen := tset s.root.keyGen k s.root.nextGen, nextGen := s.root.nextGen + 1 } }) s

/-! ### TDISP (R504, R507) -/

/-- ERROR, or a return to CONFIG_UNLOCKED: the function's grids fail with status 6, its queues are disabled, its keys are
new, its policy is zero. -/
def State.unlock (s : State) (f : Nat) (st : Tdisp) : State :=
  let lids := (s.grids.filter fun g => g.2.fn == f && g.2.st == .accepted).map (·.1)
  let s := lids.foldl (fun s l => s.markFailed l 6) s
  let s := s.modFn f fun x =>
    { x with
      tdisp := st, policyKey := none, policy := 0
      queues := x.queues.map fun q => (q.1, if q.2.en then { q.2 with lqctl := q.2.lqctl &&& ~~~(1 : Word) } else q.2) }
  s.regenKeys f

/-- `KEYMAP_WRITE` (R504, R505): a change of a locked function's entry moves its interface to ERROR. -/
def execKeymapWrite (p : Nat) (v : DWord) (s : State) : Host.Outcome State Fault Refusal :=
  let new := keymapEntry p v
  let clash := s.pf.keymap.any fun e => e.1 != p && e.2 &&& new != 0
  if numFns ≤ p then notNow "KEYMAP_WRITE"
  else if clash then .next s
  else
    let old := (tget s.pf.keymap p).getD 0
    let s := { s with pf := { s.pf with keymap := tset s.pf.keymap p new } }.newKeys new
    .next (if s.locked p && old != new then s.unlock p .error else s)

/-! ### The host-coherent window (R501, R502) -/

def hcwinEn (h : DWord) : Bool := h.getLsbD 0
def hcwinBase (h : DWord) : Nat := (h.extractLsb' 30 9).toNat
def hcwinSize (h : DWord) : Nat := (h.extractLsb' 48 9).toNat

/-- HCWIN after a write (R501). -/
def hcwinAfter (old v : DWord) : DWord :=
  let ok := 1 ≤ hcwinSize v && hcwinSize v ≤ 384 && hcwinBase v + hcwinSize v ≤ 384
  if hcwinEn old then old
  else BitVec.ofNat 64 ((hcwinEn v && ok).toNat + hcwinBase v * 2 ^ 30 + hcwinSize v * 2 ^ 48)

/-- `HCWIN_WRITE` (R501). -/
def execHcwinWrite (v : DWord) (s : State) : Host.Outcome State Fault Refusal :=
  .next { s with pf := { s.pf with hcwin := hcwinAfter s.pf.hcwin v } }

/-- Whether an address lies in the window. -/
def State.inWindow (s : State) (pa : Nat) : Bool :=
  hcwinEn s.pf.hcwin && hcwinBase s.pf.hcwin ≤ pa / 2 ^ 30 && pa / 2 ^ 30 < hcwinBase s.pf.hcwin + hcwinSize s.pf.hcwin

/-- A host access to a line of the window (R437, R501, R502, R504): refused without the function's stream once the interface is
locked; it waits for a loan, for what has arrived at the line's home before it, and for the line's owner. -/
def State.windowAccess (s : State) (v : Via) (pa : Nat) (f : State → Host.Outcome State Fault Refusal) :
    Host.Outcome State Fault Refusal :=
  s.hostAccess v <|
    if !s.inWindow pa || s.hostHeld.contains (lineOf pa) then notNow "HOST_WINDOW_ACCESS"
    else
      match s.loanOn none (lineOf pa) (2 ^ 70) with
      | some i => s.waitOn i "HOST_WINDOW_ACCESS"
      | none => s.atGate "HOST_WINDOW_ACCESS" (lineOf pa) (f (s.deviceAsk [lineOf pa]))

/-- A read of the window under KEYID 0 (R501): the slice brings the line in, then the host has the bytes from an address on. -/
def State.windowRead (s : State) (pa n : Nat) (f : State → State) : Host.Outcome State Fault Refusal :=
  if s.cold pa then s.awaitLine "HOST_WINDOW_ACCESS" pa 0 else .next (f { s with hostData := s.rd 0 pa n })

/-- The host gives a line back, of its own accord or because its home asks (R502): a written one brings its bytes, and what
waited for the line at its home arrives now. -/
def State.hostBack (s : State) (line : Nat) (data : List Byte) : State :=
  let t := { s with hostHeld := s.hostHeld.filter (· != line), hostAsked := s.hostAsked.filter (· != line) }
  let t := if data.isEmpty then t
    else ((t.homeStore 0 (128 * line) data).1).maskedWrite (.work 0 0 0 0) 0 (128 * line) data
  t.rearrive (· == line)

/-- `HOST_WINDOW_ACCESS` (R437, R501, R502): under KEYID 0. -/
def execHostWindowAccess (a : WinAcc) (s : State) : Host.Outcome State Fault Refusal :=
  match a.acc with
  | .read pa => s.windowAccess a.via pa fun s => s.windowRead (pa / 64 * 64) 64 id
  | .write pa b => s.windowAccess a.via pa fun s => .next ((s.homeStore 0 pa [b]).1.maskedWrite (.work 0 0 0 0) 0 pa [b])
  | .hold line => s.windowAccess a.via (128 * line) fun s =>
      s.windowRead (128 * line) 128 fun s => { s with hostHeld := s.hostHeld ++ [line] }
  | .writeback line data =>
    if !s.hostHeld.contains line || !(data.isEmpty || data.length == 128) then notNow "HOST_WINDOW_ACCESS"
    else .next (s.hostBack line data)

/-! ### Registers without behaviour of their own (R11, R500) -/

/-- A write to a queue's register (R187, R188, R190): LQBASE, LQCTX, and LQCTL without EN and ERR. -/
def Queue.writeReg (q : Queue) (r : Nat) (v : DWord) : Option Queue :=
  match r with
  | 0x00 => some (if q.en then q else { q with lqbase := v &&& ~~~(0x7F : DWord) })
  | 0x08 => if v.getLsbD 0 || v.getLsbD 1 then none else some (q.writeCtl (v.setWidth 32))
  | 0x10 => none
  | 0x20 => some (if q.en then q else { q with lqctx := v &&& ~~~(0x3FF : DWord) })
  | _ => some q

/-- A write to a register that every function has; none for one with an event of its own. DESIGN CHOICE (log entry 90): HBASE, an
address of code, keeps bits [1:0] at zero. -/
def Fn.writeReg (x : Fn) (off : Nat) (v : DWord) : Option Fn :=
  if off = 0x0B00 then some { x with hbase := v &&& ~~~(3 : DWord) }
  else if off = 0x0C00 then some (if x.flogCtl.getLsbD 0 then x else { x with flogBase := v &&& ~~~(0x7F : DWord) })
  else if off = 0x0C18 then some { x with flogRp := (v.setWidth 32) &&& 0xFFFF }
  else if off = 0x0C08 ∨ off = 0x0C20 ∨ off = 0x3000 then none
  else if 0x1000 ≤ off ∧ off < 0x2000 then
    ((x.queue ((off - 0x1000) / 0x40)).writeReg (off % 0x40) v).map fun q => x.setQueue ((off - 0x1000) / 0x40) q
  else if off = 0x3008 then some { x with dbgDat := v }
  else some x

/-- A write to CSVPOL: each field outside its limits stays (R468). -/
def csvpolWrite (old v : DWord) : DWord :=
  let f (lo n least : Nat) : Nat :=
    let new := (v.extractLsb' lo n).toNat
    if least ≤ new then new else (old.extractLsb' lo n).toNat
  BitVec.ofNat 64 (f 0 4 1 + f 8 5 16 * 2 ^ 8 + f 16 16 1 * 2 ^ 16 + f 32 16 1 * 2 ^ 32)

/-- The retired Solust ports, which no mask of the routing table names (R514). -/
def State.deadPorts (s : State) : BitVec 16 :=
  (List.range 12).foldl (fun m p => if ((tget s.ports p).map Link.retired).getD false then m ||| (1 : BitVec 16) <<< p else m) 0

/-- Writes the physical function's own registers; none for one with an event of its own. -/
def State.writePf (s : State) (off : Nat) (v : DWord) : Option State :=
  let p := s.pf
  let w : Word := v.setWidth 32
  let put (q : Pf) : Option State := some { s with pf := q }
  if 0x0800 ≤ off ∧ off < 0x0840 ∧ off % 8 = 0 then put { p with dlbud := setAt p.dlbud ((off - 0x0800) / 8) w }
  else if off = 0x0900 then
    put (if 64 ≤ v.toNat % 2 ^ 13 ∧ v.toNat % 2 ^ 13 ≤ 4096 then { p with leasecfg := w &&& 0x1FFF } else p)
  else if 0x0A00 ≤ off ∧ off < 0x0A30 ∧ off % 8 = 0 then put { p with netlate := setAt p.netlate ((off - 0x0A00) / 8) w }
  else if off = 0x0D00 then put { p with csvpol := csvpolWrite p.csvpol v }
  else if 0x0D10 ≤ off ∧ off < 0x0D48 ∧ off % 8 = 0 then put { p with csvevt := setAt p.csvevt ((off - 0x0D10) / 8) v }
  else if 0x4000 ≤ off ∧ off < 0x5400 ∧ off % 8 = 0 then (if v.getLsbD 4 then none else some s)
  else if off = 0x6100 then put { p with slid := w &&& 0x7FFFF }
  else if 0x6400 ≤ off ∧ off < 0x6800 ∧ off % 8 = 0 then
    let f := (off - 0x6400) / 16
    let e := (tget p.slwin f).getD (0, 0)
    put { p with slwin := tset p.slwin f (if off % 16 = 0 then (v, e.2) else (e.1, v &&& 0x3FFF_FFFF_FFFF_FFFF)) }
  else if 0x6800 ≤ off ∧ off < 0x6A00 ∨ off = 0x6A00 then none
  else if off = 0x6B00 then
    let c := w.toNat % 4096
    put (if 1000 ≤ c ∧ c ≤ 2600 then { p with pwrcap := (p.pwrcap &&& 0x1000) ||| BitVec.ofNat 32 c } else p)
  else if off = 0x6B80 then put { p with condbuf := v }
  else if off = 0x6B88 then (if v.getLsbD 0 then put { p with condreq := true } else some s)
  else if off = 0x6C00 then
    if v.getLsbD 0 || v.getLsbD 1 then none
    else put (if v.getLsbD 3 then { p with ckpctl := p.ckpctl &&& ~~~(8 : Word) } else p)
  else if off = 0x6C08 then put { p with ckptgt := v &&& 0xFFFF_FFFF_0007_FFFF }
  else if 0x7000 ≤ off ∧ off < 0x7800 then
    let f := (off - 0x7000) / 0x20
    match off % 0x20 with
    | 0x00 => none
    | 0x08 => some (s.modFn f fun x => { x with lmBmp := v &&& ~~~(0x7F : DWord) })
    | 0x10 => some (s.modFn f fun x => { x with lmImg := v &&& ~~~(0x7F : DWord) })
    | _ => some s
  else if 0x8000 ≤ off ∧ off < 0xA000 ∧ off % 2 = 0 then
    put { p with slrt := tset p.slrt ((off - 0x8000) / 2) (v.setWidth 16 &&& 0x0FFF &&& ~~~s.deadPorts) }
  else some s

/-- Offsets that every function has (R499, R500). -/
def everyFn (off : Nat) : Bool :=
  off == 0x0B00 || (0x0C00 ≤ off && off ≤ 0x0C20) || (0x1000 ≤ off && off < 0x2000) || off == 0x3000 || off == 0x3008

/-- `REGISTER_WRITE` (R11, R500): a register with a step of its own is not written here; an offset that the function
does not have ignores the write. -/
def execRegisterWrite (a : Via) (off : Nat) (v : DWord) (s : State) : Host.Outcome State Fault Refusal :=
  if numFns ≤ a.fn then notNow "REGISTER_WRITE"
  else if s.unsupported a then .next s
  else if everyFn off then
    match (s.fn a.fn).writeReg off v with
    | some x => .next (s.setFn a.fn x)
    | none => notNow "REGISTER_WRITE"
  else if a.fn ≠ 0 then .next s
  else
    match s.writePf off v with
    | some t => .next t
    | none => notNow "REGISTER_WRITE"

/-! ### What the host reads (R479, R500) -/

/-- The neighbour through a die-link port; 7 for none (R478). -/
def neighbour (d port : Nat) : Nat :=
  match d, port with
  | 4, 0 => 0
  | 4, 1 => 1
  | 5, 0 => 2
  | 5, 1 => 3
  | 4, _ | 5, _ => 7
  | _, 0 => (d + 1) % 4
  | _, 1 => (d + 3) % 4
  | _, _ => if d < 2 then 4 else 5

/-- ORIENT (R479). -/
def orientReg (d : Nat) : DWord :=
  BitVec.ofNat 64 ((if isAnnex d then 0 else d) + (isAnnex d).toNat * 4 + d * 8 + neighbour d 0 * 2 ^ 8
    + neighbour d 1 * 2 ^ 11 + neighbour d 2 * 2 ^ 14)

/-- CDEM (R465). -/
def Core.cdem (c : Core) : DWord :=
  BitVec.ofNat 64 (c.dem % 16 + c.fenced.toNat * 16 + (c.dem != 0).toNat * 32 + min c.clean 0xFFFF_FFFF * 2 ^ 32)

/-- LMCTL (R509). -/
def Fn.lmctl (x : Fn) : DWord :=
  BitVec.ofNat 64 (x.lmTrack.toNat + x.lmSnap.toNat * 2 + x.lmQuiesce.toNat * 4 + x.lmQdone.toNat * 8)

/-- A register of BAR 0 that every function has, as the host reads it. -/
def Fn.readReg (x : Fn) (off : Nat) : DWord :=
  let w (v : Word) : DWord := v.setWidth 64
  if off = 0x0B00 then x.hbase
  else if off = 0x0C00 then x.flogBase
  else if off = 0x0C08 then w x.flogCtl
  else if off = 0x0C10 then w x.flogWp
  else if off = 0x0C18 then w x.flogRp
  else if off = 0x0C20 then w x.prspReg
  else if off = 0x3000 then x.dbgCmd
  else if off = 0x3008 then x.dbgDat
  else
    let q := x.queue ((off - 0x1000) / 0x40)
    match off % 0x40 with
    | 0x00 => q.lqbase
    | 0x08 => w q.lqctl
    | 0x10 => w q.lqdb
    | 0x18 => w q.lqrd
    | 0x20 => q.lqctx
    | _ => 0

/-- A register of BAR 0 as the host reads it (R500); offsets that a function does not have read zero. -/
def State.readBar (s : State) (f off : Nat) : DWord :=
  let p := s.pf
  let w (v : Word) : DWord := v.setWidth 64
  if everyFn off then (s.fn f).readReg off
  else if f ≠ 0 then 0
  else if 0x0800 ≤ off ∧ off < 0x0840 then w (p.dlbud.getD ((off - 0x0800) / 8) 0)
  else if off = 0x0900 then w p.leasecfg
  else if 0x0A00 ≤ off ∧ off < 0x0A30 then w (p.netlate.getD ((off - 0x0A00) / 8) 0)
  else if off = 0x0D00 then p.csvpol
  else if 0x0D10 ≤ off ∧ off < 0x0D48 then p.csvevt.getD ((off - 0x0D10) / 8) 0
  else if 0x4000 ≤ off ∧ off < 0x5400 then (s.core ((off - 0x4000) / 8)).cdem
  else if 0x6000 ≤ off ∧ off < 0x6030 then orientReg ((off - 0x6000) / 8)
  else if off = 0x6100 then w p.slid
  else if off = 0x6108 then p.slerr
  else if 0x6400 ≤ off ∧ off < 0x6800 then
    let e := (tget p.slwin ((off - 0x6400) / 16)).getD (0, 0)
    if off % 16 = 0 then e.1 else e.2
  else if 0x6800 ≤ off ∧ off < 0x6A00 then (tget p.keymap ((off - 0x6800) / 8)).getD 0
  else if off = 0x6A00 then p.hcwin
  else if off = 0x6B00 then w p.pwrcap
  else if off = 0x6B80 then p.condbuf
  else if off = 0x6B88 then (if p.condreq then 1 else 0)
  else if off = 0x6C00 then w p.ckpctl
  else if off = 0x6C08 then p.ckptgt
  else if 0x7000 ≤ off ∧ off < 0x7800 then
    let x := s.fn ((off - 0x7000) / 0x20)
    match off % 0x20 with
    | 0x00 => x.lmctl
    | 0x08 => x.lmBmp
    | 0x10 => x.lmImg
    | 0x18 => w x.lmSize
    | _ => 0
  else if 0x8000 ≤ off ∧ off < 0xA000 then ((tget p.slrt ((off - 0x8000) / 2)).getD 0).setWidth 64
  else 0

/-- What a read of the host returns; none where it is refused (R504). -/
def State.hostRead (s : State) (a : Via) (off : Nat) : Option DWord :=
  if s.unsupported a then none else some (s.readBar a.fn off)

/-! ### The checkpoint engine (R497, R498) -/

/-- The bytes of a big-endian field of the records of R506 and R517. -/
def beBytes (n v : Nat) : List Byte := (leBytes n v).reverse

/-- SHA-384 of the device identity public key, as bytes (R497, R506, R517). -/
def identityHash : List Byte := beBytes 48 (Config.sha384 (beBytes 96 Config.deviceKey.toNat)).toNat

/-- The device memory's capacity in bytes: 128 channels of 3 GiB (R483). -/
def devCapacity : Nat := 128 * (3 * 2 ^ 30)

/-- CKPCTL from its fields. -/
def ckpWord (save restore busy err : Bool) (code : Nat) : Word :=
  BitVec.ofNat 32 (save.toNat + restore.toNat * 2 + busy.toNat * 4 + err.toNat * 8 + code * 16)

def Pf.busy (p : Pf) : Bool := p.ckpctl.getLsbD 2

/-- Whether a function holds an accepted grid that has not completed. -/
def State.holdsGrid (s : State) (f : Nat) : Bool :=
  s.grids.any fun g => g.2.fn == f && match g.2.st with
    | .complete _ => false
    | .accepted | .failing _ => true

/-- The condition under which a checkpoint or a restore is accepted (R497). -/
def State.ckpQuiet (s : State) : Bool :=
  !s.holdsGrid 0 && s.fns.all fun f => f.1 == 0 || f.2.lmQdone || !s.holdsGrid f.1

/-- Starts an operation: it ends at once with ECODE 1 or 2, or it is in progress. -/
def State.ckpStart (s : State) (restore viaReg : Bool) (target : DWord) : State :=
  if s.pf.busy then s
  else
    let put (c : Word) : State := { s with pf := { s.pf with ckpctl := c, ckpRestore := restore, ckpTarget := target } }
    if !s.ckpQuiet then put (ckpWord false false false true 1)
    else if s.root.fleetKey.isNone then put (ckpWord false false false true 2)
    else put (ckpWord (viaReg && !restore) (viaReg && restore) true false 0)

/-- `CKPCTL_SAVE` (R497). -/
def execCkpctlSave (s : State) : Host.Outcome State Fault Refusal := .next (s.ckpStart false true s.pf.ckptgt)

/-- `CKPCTL_RESTORE` (R498). -/
def execCkpctlRestore (s : State) : Host.Outcome State Fault Refusal := .next (s.ckpStart true true s.pf.ckptgt)

/-- `CHECKPOINT_REQUEST_FLIT` (R497). -/
def execCheckpointRequestFlit (restore : Bool) (tdev image : Nat) (s : State) : Host.Outcome State Fault Refusal :=
  .next (s.ckpStart restore false (BitVec.ofNat 64 (tdev % 2 ^ 19 + image % 2 ^ 32 * 2 ^ 32)))

/-- The image that an operation names. -/
def State.ckpImage (s : State) : Option SafeImage :=
  s.safeTier.find? fun i => i.tdev == s.pf.ckpTarget.toNat % 2 ^ 19 && i.image == s.pf.ckpTarget.toNat / 2 ^ 32

/-- Whether an image passes the checks of R498: its trailer, its capacity and its keys. -/
def State.ckpGood (s : State) : Option SafeImage :=
  s.ckpImage.bind fun i => if i.complete && i.capacity == devCapacity && s.root.fleetKey == some i.fleetKey then some i else none

/-- Sends the image of the device; without its trailer if the transfer failed (R497). -/
def State.ckpSave (s : State) (complete : Bool) : State :=
  let t := s.pf.ckpTarget.toNat
  let i : SafeImage :=
    { tdev := t % 2 ^ 19, image := t / 2 ^ 32, complete, identity := identityHash, capacity := devCapacity, fleetKey := s.root.fleetKey.getD 0, keys := s.root.keyGen
      keymap := s.pf.keymap, hcwin := s.pf.hcwin, leasecfg := s.pf.leasecfg, csvpol := s.pf.csvpol
      mem := s.mem.filter fun p => isDev p.1, cw := s.cw.filter fun p => isDev (32 * p.1)
      unwritten := s.unwritten }
  { s with safeTier := i :: s.safeTier.filter fun j => !(j.tdev == i.tdev && j.image == i.image) }

/-- Writes an image back (R498). After a link failure the codewords that were not written, as the transfer happened to
go, are left poisoned: those with a row in `cw` there, every other one by `unwritten`. -/
def State.ckpLoad (s : State) (i : SafeImage) (failed : Bool) : State :=
  let written (cwn : Nat) : Bool := !failed || !Config.freeBit (s.freeCtr + cwn)
  let keep := s.mem.filter fun p => !isDev p.1 || !written (p.1 / 32)
  let mem := (i.mem.filter fun p => written (p.1 / 32)).foldl (fun m p => mset m p.1 p.2) keep
  let mine := s.cw.filter fun p => !isDev (32 * p.1) || !written p.1
  let cw := (i.cw.filter fun p => written p.1).foldl (fun t p => tset t p.1 p.2) mine
  let cw := (((i.cw ++ s.cw).map (·.1)).filter fun n => isDev (32 * n) && !written n).foldl (fun t n =>
    tset t n (match tget t n with
      | some g => { g with poison := true }
      | none => { poison := true })) cw
  { s with
    mem, cw, freeCtr := s.freeCtr + 2 ^ 34
    unwritten := if failed then s.freeCtr :: i.unwritten else i.unwritten
    root := { s.root with keyGen := i.keys, nextGen := max s.root.nextGen (i.keys.foldl (fun m k => max m (k.2 + 1)) 0) }
    pf := { s.pf with keymap := i.keymap, hcwin := i.hcwin, leasecfg := i.leasecfg, csvpol := i.csvpol } }

/-- The end of an operation: `err` is 0, 3, 4 or 5 (R497). -/
def State.ckpFinish (s : State) (err : Nat) : State :=
  { s with pf := { s.pf with ckpctl := ckpWord false false false (err != 0) err } }

/-- `CHECKPOINT_END` (R497, R498). -/
def execCheckpointEnd (err : Nat) (s : State) : Host.Outcome State Fault Refusal :=
  if !s.pf.busy then notNow "CHECKPOINT_END"
  else
    match err, s.pf.ckpRestore, s.ckpGood with
    | 0, false, _ => .next ((s.ckpSave true).ckpFinish 0)
    | 0, true, some i => .next ((s.ckpLoad i false).ckpFinish 0)
    | 3, _, _ => .next (s.ckpFinish 3)
    | 4, true, none => .next (s.ckpFinish 4)
    | 5, false, _ => .next ((s.ckpSave false).ckpFinish 5)
    | 5, true, some i => .next ((s.ckpLoad i true).ckpFinish 5)
    | _, _, _ => notNow "CHECKPOINT_END"

/-! ### Links and retirement (R482, R492, R513, R514) -/

/-- A retry rate above 10^-6 per flit makes a link suspect (R513). -/
def Link.rate (l : Link) : Link :=
  { l with suspect := l.suspect || decide (l.next + l.sent + l.resends < l.resends * 10 ^ 6) }

/-- A flit received: a good one in order is accepted, a bad or a later one is asked for again. -/
def Link.flit (l : Link) (seq : Nat) (good : Bool) : Link :=
  (if good && seq == l.next then { l with next := l.next + 1, acked := l.next + 1 }
    else if good && seq < l.next then { l with acked := l.next }
    else { l with resends := l.resends + 1 }).rate

/-- What a good flit says of those that this end has sent (R492): the other end has taken all below `ack`, and may ask for a
resend of those from there on. -/
def Link.heard (l : Link) (ack : Nat) (again : Bool) : Link :=
  let l := { l with kept := l.kept.filter fun f => ack ≤ f.1 }
  { l with resends := if again then l.resends + l.kept.length else l.resends }.pump.rate

/-- `DIE_LINK_FLIT` (R482): link-level retry. -/
def execDieLinkFlit (link : Nat) (good : Bool) (s : State) : Host.Outcome State Fault Refusal :=
  let l := (tget s.dieLinks link).getD {}
  if 8 ≤ link || l.retired || l.failed then notNow "DIE_LINK_FLIT"
  else .next { s with dieLinks := tset s.dieLinks link (l.flit l.next good) }

/-- `SOLUST_FLIT` (R492). -/
def execSolustFlit (port seq : Nat) (rx : FlitRx) (s : State) : Host.Outcome State Fault Refusal :=
  let l := (tget s.ports port).getD {}
  if 12 ≤ port || l.retired || l.failed then notNow "SOLUST_FLIT"
  else
    let l := l.flit seq rx.good
    .next { s with ports := tset s.ports port (if rx.good then l.heard rx.ack rx.again else l) }

/-- Removes a port from every mask (R514). -/
def Pf.dropPort (p : Pf) (port : Nat) : Pf :=
  { p with slrt := p.slrt.map fun e => (e.1, e.2 &&& ~~~((1 : BitVec 16) <<< port)) }

/-- Whether a channel has a retired companion in its stack (R514). -/
def State.stackSpared (s : State) (ch : Nat) : Bool :=
  s.channels.any fun c => c.1 / 16 == ch / 16 && c.1 != ch && c.2.retired

/-- `UNIT_RETIREMENT` (R513, R514). -/
def execUnitRetirement (u : HUnit) (s : State) : Host.Outcome State Fault Refusal :=
  let no : Host.Outcome State Fault Refusal := notNow "UNIT_RETIREMENT"
  match u with
  | .slice n => if 160 ≤ n || tget s.slices n == some 3 then no else .next { s with slices := tset s.slices n 3 }
  | .channel n lost =>
    let c := (tget s.channels n).getD {}
    if 128 ≤ n || c.retired || (recent s.time c.lost).length ≤ 2 ^ 10 then no
    else
      let spared := !s.stackSpared n
      let t := { s with channels := tset s.channels n { c with retired := true, spared } }
      .next (if spared then (lost.filter fun w => isDev (32 * w) && channelOf (32 * w) == n).foldl State.poisonCw t else t)
  | .dieLink n =>
    let l := (tget s.dieLinks n).getD {}
    if 8 ≤ n || l.retired then no else .next { s with dieLinks := tset s.dieLinks n { l with retired := true } }
  | .port n =>
    let l := (tget s.ports n).getD {}
    if 12 ≤ n || l.retired then no
    else .next { s with ports := tset s.ports n { l with retired := true }, pf := s.pf.dropPort n }
  | .hostLink => if s.hostLink.retired then no else .next { s with hostLink := { s.hostLink with retired := true } }

/-- A checkpoint or restore in progress ends with a link (R497). -/
def State.ckpBreak (s : State) : State :=
  if !s.pf.busy then s
  else if !s.pf.ckpRestore then (s.ckpSave false).ckpFinish 5
  else
    match s.ckpGood with
    | some i => (s.ckpLoad i true).ckpFinish 5
    | none => s.ckpFinish 5

/-- `LINK_FAILURE` (R495, R497). -/
def execLinkFailure (u : HUnit) (s : State) : Host.Outcome State Fault Refusal :=
  match u with
  | .dieLink n =>
    let l := (tget s.dieLinks n).getD {}
    if 8 ≤ n || l.failed then notNow "LINK_FAILURE"
    else .next { s with dieLinks := tset s.dieLinks n { l with failed := true } }.ckpBreak
  | .port n =>
    let l := (tget s.ports n).getD {}
    if 12 ≤ n || l.failed then notNow "LINK_FAILURE"
    else .next { s with ports := tset s.ports n { l with failed := true } }.ckpBreak
  | .slice _ | .channel _ _ | .hostLink => notNow "LINK_FAILURE"

end Sys2Proof.Machine
end

