-- ==== Sys2Proof/Machine/Save.lean ====
section
/-! DEFINITION. The save area of a stopped block, byte for byte (R420). `State.blocks` holds a stopped block's record and
this file computes the bytes that its save area in memory gets; a resume takes the record. Log entry 69 says what the rule
leaves open of the layout. -/

namespace Sys2Proof.Machine

open Sys2Proof

/-- Sections, each at its offset, in a region of a size; bytes outside the sections are zero. -/
def layout (size : Nat) (secs : List (Nat × List Byte)) : List Byte :=
  secs.foldl (fun bs p => bs.take p.1 ++ p.2 ++ bs.drop (p.1 + p.2.length)) (List.replicate size 0)

/-- Records of one size, one after another. -/
def records (size : Nat) (rs : List (List (Nat × List Byte))) : List Byte := (rs.map (layout size)).flatten

/-- Words of one size, one after another. -/
def words (n : Nat) (xs : List Nat) : List Byte := xs.flatMap (leBytes n)

/-- The size of a block's header, of a band record and of the block objects (R420). -/
def saveHeader : Nat := 512
def bandRecord (v w : Nat) : Nat := 4480 + 4 * v * w
def blockObjects : Nat := 12288
def accRecord : Nat := 32896

/-- The lane state byte: a lane that waits for anything but a barrier issues its instruction again and counts as
ready (R419). -/
def Band.laneByte (x : Band) (l : Nat) : Byte :=
  let n := x.lane l
  let st : Nat := match n.st with
    | .ready => 0
    | .parked j => 1 + 32 * (j % 4)
    | .blocked (.bar _ _ _) => 2
    | .blocked _ => 0
    | .exited => 3
  BitVec.ofNat 8 (st + 4 * n.yieldMark.toNat + 8 * x.halted.toNat + 16 * (x.tmask.getLsbD l).toNat)

/-- A pending asynchronous trap: TSTAT, TINFO and TADDR, with TSTAT = 0 when there is none. -/
def asyncBytes : Option AsyncTrap → List (Nat × List Byte)
  | none => []
  | some a => [(0, leBytes 4 (tstatOf a.trap true false).toNat), (4, leBytes 4 (tinfoOf a.trap a.ovf).toNat),
      (8, leBytes 8 a.trap.addr.toNat)]

/-- The barrier wait of a lane: scope, number and the phase awaited. -/
def Lane.waitWord (n : Lane) : Nat :=
  match n.st with
  | .blocked (.bar sc b ph) =>
    (match sc with | .blk => 0 | .clu => 1 | .die => 2 | .grid => 3) + 4 * (b % 16) + 2 ^ 32 * ph.toNat
  | _ => 0

/-- A port: its descriptor (R327), its position, its flags in the order of R328 and R326, and its descriptor's address. -/
def Port.bytes (p : Port) : List (Nat × List Byte) :=
  let a := p.pat
  [(0, leBytes 8 a.base.toNat), (0x08, words 4 (a.cnt.map BitVec.toNat)), (0x18, words 8 (a.str.map BitVec.toNat)),
   (64, leBytes 8 p.p.toNat),
   (72, leBytes 8 (p.cfg.toNat + 2 * a.push.toNat + 4 * a.wrap.toNat + 8 * a.lst.toNat + 16 * ((a.ndim - 1) % 4)
      + 64 * a.kind.code.toNat + 512 * a.xefmt.toNat + 8192 * a.xegeo.toNat + 32768 * p.endf.toNat)),
   (80, leBytes 8 a.descAddr.toNat)]

/-- A watch entry: every entry is confirmed or struck after a stop (R289). -/
def WatchEnt.bytes (e : WatchEnt) : List (Nat × List Byte) :=
  [(0, leBytes 8 (128 * e.line)), (8, leBytes 4 e.version), (12, leBytes 4 (if e.st = .confirmed then 1 else 2)), (16, leBytes 8 e.ec)]

/-- A band record. The predicates, the uniform registers, FSTAT and the vector registers stand where `ctx.save` writes
them (R417). -/
def Band.record (x : Band) (v : Nat) : List Byte :=
  let w := x.lanes.length
  layout (bandRecord v w)
    ([(0x000, words 8 (x.lanes.map fun l => l.pc.toNat)),
      (0x200, (List.range w).map x.laneByte),
      (0x380, words 8 (x.enrolled.map BitVec.toNat)),
      (0x3A0, words 8 ((List.range 4).map fun j => ((x.parkedOn j).map (2 ^ ·)).sum)),
      (0x3C4, words 4 ([x.bctl, x.ilcnt, x.dbgctl, x.tstat, x.tinfo].map BitVec.toNat)),
      (0x3D8, words 2 [x.counter .cpy, x.counter .mma, x.counter .strm, x.counter .rmt]),
      (0x3E0, words 4 (x.tscr.map BitVec.toNat)),
      (0x400, words 8 [x.tepc.toNat, x.taddr.toNat, x.tmask.toNat, x.lastCtime.toNat]),
      (0x420, records 32 ([x.asyncCopy, x.asyncCmd, x.asyncDl].map asyncBytes)),
      (0x480, words 8 (x.lanes.map Lane.waitWord)),
      (0x680, records 96 (x.ports.map Port.bytes)),
      (0x980, records 32 (x.watch.map WatchEnt.bytes))]
     ++ x.ctxBytes v)

/-- The bits of a set of units, one bit each, in bytes. -/
def unitBytes (n : Nat) (us : List Nat) : List Byte := leBytes n (us.map (2 ^ ·)).sum

def Ring.bytes (r : Ring) : List (Nat × List Byte) :=
  [(0, words 4 [r.s, r.base, r.z, r.rsv.toNat, r.fill.toNat, r.rel.toNat])]

def Barrier.bytes (t : Barrier) : List (Nat × List Byte) :=
  [(0, words 4 [t.cnt, t.gen.toNat, t.arr, t.cpy]), (16, unitBytes 128 t.pend)]

/-- A slice of a collective copy that waits for others. -/
def Slice.bytes (c : Slice) : List (Nat × List Byte) :=
  [(0, words 8 [c.dst.toNat, c.src.toNat, c.rowBytes, c.rows, (BitVec.ofInt 64 c.sstride).toNat,
    (BitVec.ofInt 64 c.dstride).toNat])]

/-- The record of a command or of a latch entry, 32 bytes whose contents the spec does not give. -/
def cmdRecord (key : Nat) : List (Nat × List Byte) := [(0, (List.range 32).map (Config.recordByte key))]

/-- The block objects. -/
def Block.objects (b : Block) : List Byte :=
  layout blockObjects
    [(0x000, words 16 (b.tiles.map fun t => t.bits.toNat)),
     (0x100, records 32 (b.rings.map Ring.bytes)),
     (0x200, leBytes 8 b.gang.toNat),
     (0x280, records 144 (b.bars.map Barrier.bytes)),
     (0xB80, records 48 ((b.cols.flatMap Collective.slices).map fun q => q.1.bytes)),
     (0x1780, records 32 (((b.cmds.map Cmd.key) ++ (b.latch.map LatchEnt.key)).map cmdRecord))]

/-- An accumulator: its cells row by row, X and SATA. -/
def Acc.bytes (a : Acc) : List (Nat × List Byte) :=
  [(0, (List.range 4096).flatMap fun i => leBytes 8 (a.cell (i / 64) (i % 64)).toNat),
   (32768, leBytes 2 a.x.toNat), (32770, leBytes 1 a.sata.toNat)]

/-- The header. -/
def Block.header (b : Block) (lid : Nat) : List Byte :=
  layout saveHeader [(0, words 8 [1, lid, b.idx, b.bands.length, b.bandw, b.vregs, b.uregs, b.accN, b.ringN, b.streams,
    b.bands.foldl (fun n x => max n x.watchCap) 0, b.ldie, b.window, b.migcnt.toNat, (isAnnex b.die).toNat])]

/-- The save area of a block: the header, the band records, the block objects, the accumulators and the window. -/
def State.saveArea (s : State) (b : Block) : List Byte :=
  b.header (s.lidField b.lid) ++ (b.bands.map fun x => x.record b.vregs).flatten ++ b.objects
    ++ records accRecord (b.accs.map Acc.bytes) ++ mread b.scratch 0 b.window

end Sys2Proof.Machine
end

