-- ==== Sys2Proof/Machine/Host.lean ====
section
/-! DEFINITION. Start and reset, power, the root of trust and its SPDM messages, TDISP, condition reports, the debug
port, live migration (R426 to R430, R498, R503 to R520). -/

namespace Sys2Proof.Machine

open Sys2Proof

/-! ### Start, reset and power (R503, R513, R514, R520) -/

/-- `FIRMWARE_LOAD` (R503): the measurement is recorded before the firmware starts; firmware that fails is not started. -/
def execFirmwareLoad (image sig : List Byte) (s : State) : Host.Outcome State Fault Refusal :=
  if s.power != .heldReset then notNow "FIRMWARE_LOAD"
  else if Config.verify Config.firmwareKey image sig then
    .next { s with power := .firmwareVerified, root := { s.root with measurement := some (Config.sha384 image) } }
  else .next s

/-- `POWER_UP` (R520): chip time starts at 0 on all dies together. DESIGN CHOICE (log entry 2) for the leads of the dies, of
which R10 gives the bound alone: they start at 0, and change as the agenda says. -/
def execPowerUp (s : State) : Host.Outcome State Fault Refusal :=
  if s.power != .firmwareVerified then notNow "POWER_UP"
  else .next { s with power := .running, time := 0, skew := [0, 0, 0, 0, 0, 0] }

/-- Reports a resident grid's failure when the device stops (R520). -/
def State.thermalFail (s : State) (g : Grid) : State :=
  ((s.modGrid g.lid Grid.noBars).finishPacket g 4).modQueue g.fn g.q fun x => x.disable 2

/-- `THERMAL_SHUTDOWN` (R520). -/
def execThermalShutdown (s : State) : Host.Outcome State Fault Refusal :=
  if s.power != .running then notNow "THERMAL_SHUTDOWN"
  else
    let gs := (s.grids.map (·.2)).filter fun g => !g.over && s.blocks.any fun p => p.2.lid == g.lid
    let open' := (s.samples.filter fun p => p.2.open').map (·.1)
    let s := open'.foldl State.deaccession s
    .next (gs.foldl State.thermalFail { s with blocks := [], power := .stopped })

/-- `CLOCK_THROTTLE` (R520): only timing and PWRCAP.THR change. -/
def execClockThrottle (on : Bool) (s : State) : Host.Outcome State Fault Refusal :=
  .next { s with pf := { s.pf with pwrcap := if on then s.pf.pwrcap ||| 0x1000 else s.pf.pwrcap &&& ~~~(0x1000 : Word) } }

/-- What a reset leaves of a core: its place in the condition map (R463, R513). -/
def Core.afterReset (c : Core) : Core := { marked := c.marked, retired := c.retired, flaws := c.flaws }

/-- What a reset leaves of a link and of a channel. -/
def Link.afterReset (l : Link) : Link := { suspect := l.suspect, retired := l.retired }
def Channel.afterReset (c : Channel) : Channel := { suspect := c.suspect, retired := c.retired, spared := c.spared }

/-- `DEVICE_RESET` (R498, R513, R514, R520): registers take their reset values; the condition map, the fleet wrapping key,
the generations of keys and the contents of the stacks are kept. -/
def execDeviceReset (s : State) : Host.Outcome State Fault Refusal :=
  let keep {α : Type} (f : α → α) (t : Tbl α) : Tbl α := t.map fun p => (p.1, f p.2)
  .next { State.reset with
    agenda := s.agenda, freeCtr := s.freeCtr, serial := s.serial, mem := s.mem, cw := s.cw
    cores := keep Core.afterReset s.cores
    channels := keep Channel.afterReset s.channels
    dieLinks := keep Link.afterReset s.dieLinks
    ports := keep Link.afterReset s.ports
    hostLink := s.hostLink.afterReset
    slices := s.slices
    wear := s.wear
    safeTier := s.safeTier, images := s.images, unwritten := s.unwritten
    remapped := (s.slices.filter fun p => p.2 == 3 && p.1 < 128).map (·.1)
    root := { fleetKey := s.root.fleetKey, keyGen := s.root.keyGen, nextGen := s.root.nextGen } }

/-! ### SPDM (R503) -/

/-- Changes the root of trust. -/
def State.modRoot (s : State) (f : Root → Root) : State := { s with root := f s.root }

/-- An answer of the responder. -/
def State.reply (s : State) (r : Reply) : State := s.modRoot fun t => { t with reply := r }

/-- A request that is answered once an earlier message has been; else it is refused. -/
def State.answerIf (s : State) (ok : Bool) (f : Root → Root) : Host.Outcome State Fault Refusal :=
  .next (if ok then s.modRoot f else s.reply .refused)

/-- `GET_VERSION`. -/
def execGetVersion (s : State) : Host.Outcome State Fault Refusal :=
  s.answerIf true fun t => { t with verOk := true, capOk := false, algOk := false, session := none, reply := .version }

/-- `GET_CAPABILITIES`. -/
def execGetCapabilities (s : State) : Host.Outcome State Fault Refusal :=
  s.answerIf s.root.verOk fun t => { t with capOk := true, reply := .capabilities }

/-- `NEGOTIATE_ALGORITHMS`. -/
def execNegotiateAlgorithms (s : State) : Host.Outcome State Fault Refusal :=
  s.answerIf s.root.capOk fun t => { t with algOk := true, reply := .algorithms }

/-- `GET_DIGESTS`. -/
def execGetDigests (s : State) : Host.Outcome State Fault Refusal :=
  s.answerIf s.root.algOk fun t => { t with reply := .digest (Config.sha384 Config.certificateChain) }

/-- `GET_CERTIFICATE`: the certificate chain. -/
def execGetCertificate (s : State) : Host.Outcome State Fault Refusal :=
  s.answerIf s.root.algOk fun t => { t with reply := .certificate Config.certificateChain }

/-- `CHALLENGE`. -/
def execChallenge (nonce : BitVec 256) (s : State) : Host.Outcome State Fault Refusal :=
  s.answerIf s.root.algOk fun t =>
    { t with reply := .challenge (Config.sign (Config.sha384 (Config.certificateChain ++ leBytes 32 nonce.toNat))) }

/-- What measurement 3 covers (R503). -/
def State.deviceConfig (s : State) : List Byte :=
  leBytes 2 s.pf.sriov ++ leBytes 8 s.pf.hcwin.toNat ++ ((List.range 64).flatMap fun p => leBytes 8 ((tget s.pf.keymap p).getD 0).toNat)
    ++ leBytes 8 s.pf.csvpol.toNat ++ leBytes 4 s.pf.leasecfg.toNat

/-- `GET_MEASUREMENTS` (R503). -/
def execGetMeasurements (nonce : BitVec 256) (s : State) : Host.Outcome State Fault Refusal :=
  let m1 := s.root.measurement.getD 0
  let m3 := Config.sha384 s.deviceConfig
  let all := beBytes 48 m1.toNat ++ beBytes 48 Config.firmwareConfig.toNat ++ beBytes 48 m3.toNat ++ leBytes 32 nonce.toNat
  s.answerIf s.root.algOk fun t =>
    { t with reply := .measurements m1 Config.firmwareConfig m3 (Config.sign (Config.sha384 all)) }

/-- `KEY_EXCHANGE`: the session with a function's interface. -/
def execKeyExchange (f : Nat) (pub : BitVec 768) (s : State) : Host.Outcome State Fault Refusal :=
  if numFns ≤ f then notNow "KEY_EXCHANGE"
  else if !s.root.algOk then .next (s.reply .refused)
  else
    let n := s.freeCtr
    .next ({ s with freeCtr := n + 1 }.modRoot fun t =>
      { t with session := some ⟨f, Config.ecdheSecret n pub, false⟩, reply := .keyExchange (Config.ecdhePublic n) })

/-- `FINISH`. -/
def execFinish (mac : BitVec 384) (s : State) : Host.Outcome State Fault Refusal :=
  match s.root.session with
  | none => .next (s.reply .refused)
  | some x =>
    if !x.done && mac == Config.hmac x.secret then
      .next (s.modRoot fun t => { t with session := some { x with done := true }, reply := .finished })
    else .next (s.modRoot fun t => { t with session := none, reply := .refused })

/-- `END_SESSION`. -/
def execEndSession (s : State) : Host.Outcome State Fault Refusal :=
  s.answerIf s.root.session.isSome fun t => { t with session := none, reply := .ended }

/-- Whether a session with a function is open. -/
def Root.inSession (t : Root) (f : Nat) : Bool :=
  match t.session with
  | some x => x.done && x.fn == f
  | none => false

/-- `IDE_KM` (R504): one link stream and 64 selective streams. -/
def execIdeKm (stream : Nat) (key : BitVec 256) (s : State) : Host.Outcome State Fault Refusal :=
  s.answerIf (stream < 65 && (s.root.session.map Session.done).getD false) fun t =>
    { t with ideKeys := tset t.ideKeys stream key, reply := .accepted }

/-- `FLEET_KEY_DELIVERY` (R498): inside a session with the physical function. -/
def execFleetKeyDelivery (key : BitVec 256) (s : State) : Host.Outcome State Fault Refusal :=
  s.answerIf (s.root.inSession 0) fun t => { t with fleetKey := some key, reply := .accepted }

/-! ### TDISP and the debug policy (R504, R506, R507) -/

/-- `LOCK_INTERFACE` (R504): locks a virtual function with the policy key that the session supplies. -/
def execLockInterface (f : Nat) (policyKey : BitVec 768) (s : State) : Host.Outcome State Fault Refusal :=
  if f = 0 || numFns ≤ f then notNow "LOCK_INTERFACE"
  else if s.root.inSession f && (s.fn f).tdisp == .configUnlocked then
    .next ((s.modFn f fun x => { x with tdisp := .configLocked, policyKey := some policyKey }).reply .accepted)
  else .next (s.reply .refused)

/-- `INTERFACE_RUN` (R504). -/
def execInterfaceRun (f : Nat) (s : State) : Host.Outcome State Fault Refusal :=
  if f = 0 || numFns ≤ f then notNow "INTERFACE_RUN"
  else if s.root.inSession f && (s.fn f).tdisp == .configLocked then
    .next ((s.modFn f fun x => { x with tdisp := .run }).reply .accepted)
  else .next (s.reply .refused)

/-- `INTERFACE_UNLOCK` (R504): ERROR from a locked interface, or the return to CONFIG_UNLOCKED. -/
def execInterfaceUnlock (f : Nat) (error : Bool) (s : State) : Host.Outcome State Fault Refusal :=
  if f = 0 || numFns ≤ f then notNow "INTERFACE_UNLOCK"
  else if error then (if s.locked f then .next (s.unlock f .error) else notNow "INTERFACE_UNLOCK")
  else if (s.fn f).tdisp == .configUnlocked then notNow "INTERFACE_UNLOCK"
  else .next (s.unlock f .configUnlocked)

/-- Whether a policy record is accepted for a function (R506, R507). -/
def Fn.policyOk (x : Fn) (f : Nat) (rec : List Byte) : Bool :=
  rec.length == 168 && fieldAt rec 0 4 == 1 && fieldAt rec 4 4 < 32 && fieldAt rec 0x39 7 == 0
    && (rec.drop 8).take 48 == identityHash && fieldAt rec 0x38 1 == f && x.policyEpoch ≤ fieldAt rec 0x40 8
    && match x.policyKey with
      | some k => Config.verify k (rec.take 0x48) (rec.drop 0x48)
      | none => false

/-- `POLICY_DELIVERY` (R507). -/
def execPolicyDelivery (f : Nat) (rec : List Byte) (s : State) : Host.Outcome State Fault Refusal :=
  if s.root.inSession f && (s.fn f).policyOk f rec then
    .next ((s.modFn f fun x =>
      { x with policy := BitVec.ofNat 32 (fieldAt rec 4 4), policyEpoch := fieldAt rec 0x40 8 }).reply .accepted)
  else .next (s.reply .refused)

/-! ### Condition reports (R513, R515 to R518) -/

/-- The state of a core in the condition map (R513). -/
def Core.condition (c : Core) : Nat :=
  if c.retired then 3 else if c.fenced || c.marked == 2 then 2 else if c.dem != 0 || c.marked == 1 then 1 else 0

def Link.condition (l : Link) : Nat := if l.retired then 3 else l.suspect.toNat
def Channel.condition (c : Channel) : Nat := if c.retired then 3 else c.suspect.toNat

/-- Fields of `bits` bits packed little-endian into n bytes. -/
def packed (bits n : Nat) (vs : List Nat) : List Byte :=
  leBytes n (vs.zipIdx.foldl (fun a v => a + v.1 * 2 ^ (bits * v.2)) 0)

/-- Firmware's readings of a die within the last 30 days of its calendar, of which the last one is the latest (R515). -/
def State.wearOf (s : State) (d : Nat) : List (Nat × Nat × Nat) :=
  let rs := (tget s.wear d).getD []
  rs.filter fun r => ((rs.getLast?).map (·.1)).getD 0 ≤ r.1 + 30

/-- The days of an estimate without a downward trend (R515), the most that its field holds. -/
def noTrend : Nat := 0xFFFF_FFFF

/-- The days until the margin reaches 0 on the line of least squares through the readings (R515). DESIGN CHOICE (log entry 91)
for the fit. -/
def marginDays (rs : List (Nat × Nat × Nat)) : Nat :=
  let n : Int := rs.length
  let x (r : Nat × Nat × Nat) : Int := r.1 - (rs.headD (0, 0, 0)).1
  let y (r : Nat × Nat × Nat) : Int := r.2.1
  let sx := (rs.map x).sum
  let sy := (rs.map y).sum
  let den := n * (rs.map fun r => x r * x r).sum - sx * sx
  let num := n * (rs.map fun r => x r * y r).sum - sx * sy
  let last := ((rs.getLast?).map x).getD 0
  if den ≤ 0 ∨ 0 ≤ num then noTrend else min noTrend ((sy * den + num * (n * last - sx)) / (n * -num)).toNat

/-- The days until the stress reaches 2^32 at its rate over the readings (R515). -/
def stressDays (rs : List (Nat × Nat × Nat)) : Nat :=
  match rs.head?, rs.getLast? with
  | some a, some b =>
    if b.1 ≤ a.1 ∨ b.2.2 ≤ a.2.2 then noTrend else min noTrend ((2 ^ 32 - b.2.2) * (b.1 - a.1) / (b.2.2 - a.2.2))
  | _, _ => noTrend

/-- The predicted end of life: the least of the estimates of all dies (R515). -/
def State.endOfLife (s : State) : Nat :=
  (List.range 6).foldl (fun m d => min m (min (marginDays (s.wearOf d)) (stressDays (s.wearOf d)))) noTrend

/-- The corrected errors of a die in the last 2^40 ticks (R515). DEDUCED (log entry 91): those of its slices, since the channels
of the stacks have counts of their own. -/
def State.dieErrors (s : State) (d : Nat) : Nat :=
  ((s.sliceErrs.filter fun p => sliceDie p.1 == d).map fun p => (recent s.time p.2).length).sum

/-- The parts of the replacement flag (R516) and REPL, in FLAGS. -/
def State.replFlags (s : State) (life : Nat) : Nat :=
  let conds := (List.range numCores).map fun c => (s.core c).condition
  let c := decide (13 ≤ (conds.filter (2 ≤ ·)).length)
  let h := s.channels.any fun p => p.2.retired
  let l := decide (life < 90)
  (c || h || l).toNat + c.toNat * 2 + h.toNat * 4 + l.toNat * 8

/-- The state of a slice in the condition map (R513). -/
def State.sliceCond (s : State) (n : Nat) : Nat := (tget s.slices n).getD 0

/-- A slice has corrected an error: more than 2^16 in 2^40 ticks make it suspect (R513). -/
def State.sliceError (s : State) (n : Nat) : State :=
  let es := recent s.time ((tget s.sliceErrs n).getD []) ++ [s.time]
  let t := { s with sliceErrs := tset s.sliceErrs n es }
  if es.length ≤ 2 ^ 16 then t else { t with slices := tset s.slices n (max (s.sliceCond n) 1) }

/-- The 16 bytes of a die in a condition report: its latest margin and stress, and its errors (R515, R517). -/
def State.dieReport (s : State) (d : Nat) : List Byte :=
  let r := ((s.wearOf d).getLast?).getD (0, 0, 0)
  leBytes 2 r.2.1 ++ leBytes 2 0 ++ leBytes 4 r.2.2 ++ leBytes 4 (s.dieErrors d) ++ leBytes 4 0

/-- A condition report but for its signature (R517). -/
def State.reportBody (s : State) (nonce : List Byte) : List Byte :=
  let conds := (List.range numCores).map fun c => (s.core c).condition
  leBytes 2 1 ++ leBytes 2 0 ++ leBytes 4 (s.replFlags s.endOfLife) ++ identityHash ++ nonce ++ leBytes 8 s.time
    ++ leBytes 4 s.endOfLife ++ leBytes 2 (conds.filter (· == 2)).length ++ leBytes 2 (conds.filter (· == 3)).length
    ++ packed 2 160 conds
    ++ packed 2 40 ((List.range 160).map s.sliceCond)
    ++ packed 2 32 ((List.range 128).map fun n => ((tget s.channels n).getD {}).condition)
    ++ packed 2 8 (((List.range 8).map fun n => ((tget s.dieLinks n).getD {}).condition)
      ++ ((List.range 12).map fun n => ((tget s.ports n).getD {}).condition) ++ [s.hostLink.condition])
    ++ packed 4 320 ((List.range numCores).map fun c => (s.core c).dem % 16)
    ++ (List.range 6).flatMap s.dieReport
    ++ ((List.range 128).flatMap fun n => leBytes 4 (recent s.time ((tget s.channels n).getD {}).corrected).length)
    ++ leBytes 8 0

/-- A condition report, signed. -/
def State.report (s : State) (nonce : List Byte) : List Byte :=
  s.reportBody nonce ++ beBytes 96 (Config.sign (Config.sha384 (s.reportBody nonce))).toNat

/-- The flits that carry a report (R492, R518): 256 bytes each. -/
def reportFlits (r : List Byte) : List Flit := (List.range 6).map fun j => .report ((r.drop (256 * j)).take 256)

/-- Stores bytes one by one at the homes, under KEYID 0. -/
def State.fill (s : State) (pa : Nat) : List Byte → State
  | [] => s
  | b :: bs => (s.devicePut pa [b]).fill (pa + 1) bs

/-- The loan on a line of a range of addresses (R437). -/
def State.rangeLoan (s : State) (a n : Nat) : Option Nat :=
  (s.samples.find? fun p => p.2.open' && p.2.prov.any fun v => lineOf a ≤ lineOf v.pa && v.pa < a + n).map (·.1)

def State.rangeOnLoan (s : State) (a n : Nat) : Bool := (s.rangeLoan a n).isSome

/-- `CONDREQ` (R518): the host has written 1 to the bit, or writes it now. The nonce is in the buffer that CONDBUF names, which
the report fills; then the bit is clear. While a line of the buffer is on loan the bit stays. -/
def execCondreq (s : State) : Host.Outcome State Fault Refusal :=
  let a := s.pf.condbuf.toNat
  match s.rangeLoan a 1376 with
  | some i =>
    if s.pf.condreq then s.waitOn i "CONDREQ" else .next { s.noteOutside i with pf := { s.pf with condreq := true } }
  | none => .next { s.fill a (s.report (s.rdOwn a 32)) with pf := { s.pf with condreq := false } }

/-- `CONDITION_REPORT_SPDM` (R518). -/
def execConditionReportSpdm (nonce : BitVec 256) (s : State) : Host.Outcome State Fault Refusal :=
  .next (s.reply (.report (s.report (leBytes 32 nonce.toNat))))

/-- `CONDITION_REPORT_FLIT` (R496, R518): the report leaves in reply flits of the port. -/
def execConditionReportFlit (port : Nat) (nonce : BitVec 256) (s : State) : Host.Outcome State Fault Refusal :=
  let l := (tget s.ports port).getD {}
  if 12 ≤ port || l.retired || l.failed then notNow "CONDITION_REPORT_FLIT"
  else .next (s.sendFlits port (reportFlits (s.report (leBytes 32 nonce.toNat))))

/-! ### What the host and firmware set outside the table's rows (R420, R503, R504, R515) -/

/-- A write of a function's BAR layout; a change of a locked one moves the interface to ERROR (R504). -/
def State.setBar (s : State) (f : Nat) (base : DWord) : State :=
  let t := s.modFn f fun x => { x with bar0 := base }
  if s.locked f && (s.fn f).bar0 != base then t.unlock f .error else t

/-- Firmware reads a die's path-delay margin and its stress (R515). -/
def State.readWear (s : State) (d day margin stress : Nat) : State :=
  { s with wear := tset s.wear d ((tget s.wear d).getD [] ++ [(day, margin, stress)]) }

/-! ### The debug port (R426 to R430, R508) -/

/-- The fields of DBGCMD. -/
def dbgOp (c : DWord) : Nat := c.toNat % 16
def dbgBand (c : DWord) : Nat := (c.extractLsb' 4 4).toNat
def dbgReg (c : DWord) : Nat := (c.extractLsb' 8 8).toNat
def dbgClass (c : DWord) : Nat := (c.extractLsb' 16 3).toNat
def dbgLid (c : DWord) : Nat := (c.extractLsb' 19 32).toNat
def dbgIdx (c : DWord) : Nat := (c.extractLsb' 51 5).toNat
def dbgLane (c : DWord) : Nat := (c.extractLsb' 56 6).toNat

/-- The band that a command names. -/
def State.dbgTarget (s : State) (f : Nat) (c : DWord) : Option (Nat × Block × Band) :=
  (s.blocks.find? fun p => p.2.fn == f && p.2.idx % 32 == dbgIdx c
    && ((s.grid p.2.lid).map fun g => g.orig % 2 ^ 32) == some (dbgLid c)).bind fun p =>
      (p.2.band (dbgBand c)).map fun x => (p.1, p.2, x)

/-- Ends a command: DONE, and ERR if it is refused. -/
def State.dbgDone (s : State) (f : Nat) (c : DWord) (err : Bool) (dat : Option DWord := none) : State :=
  s.modFn f fun x => { x with
    dbgCmd := (c &&& 0x3FFF_FFFF_FFFF_FFFF) ||| (if err then 0xC000_0000_0000_0000 else 0x4000_0000_0000_0000)
    dbgDat := dat.getD x.dbgDat }

/-- Runs a command on a band that passes a test; else it is refused and changes nothing (R430, R508). -/
def State.dbgRun (s : State) (a : Via) (c : DWord) (ok : Block → Band → Bool) (act : Nat → Block → Band → State) :
    Host.Outcome State Fault Refusal :=
  s.hostAccess a <|
    match s.dbgTarget a.fn c with
    | none => .next (s.dbgDone a.fn c true)
    | some (k, b, x) => .next (if ok b x then act k b x else s.dbgDone a.fn c true)

/-- A halted band that stands before a handler enters it when it goes on (R427). -/
def State.unhalt (s : State) (k n : Nat) (x : Band) (step : Bool) : State :=
  let s := s.modBand k n fun y => { y with halted := false, stepping := step, resumeTrap := none }
  match x.resumeTrap with
  | some h => s.enterHandler k n h.trap h.async h.ovf h.pc h.act
  | none => s

/-- `DEBUG_HALT` (R508); the reserved operations are refused here. An asynchronous trap that is due is taken first (R404). -/
def execDebugHalt (a : Via) (cmd : DWord) (s : State) : Host.Outcome State Fault Refusal :=
  if numFns ≤ a.fn || (dbgOp cmd != 0 && dbgOp cmd < 5) then notNow "DEBUG_HALT"
  else s.dbgRun a cmd (fun b _ => dbgOp cmd == 0 && (s.dbg b 0 || s.dbg b 2)) fun k _ _ =>
    (((s.takeDue k (dbgBand cmd)).getD s).modBand k (dbgBand cmd) fun y => { y with halted := true }).dbgDone a.fn cmd false

/-- `DEBUG_RESUME` (R427, R508). -/
def execDebugResume (a : Via) (cmd : DWord) (s : State) : Host.Outcome State Fault Refusal :=
  if numFns ≤ a.fn || dbgOp cmd != 1 then notNow "DEBUG_RESUME"
  else s.dbgRun a cmd (fun b _ => s.dbg b 0 || s.dbg b 2) fun k _ x =>
    (s.unhalt k (dbgBand cmd) x false).dbgDone a.fn cmd false

/-- `DEBUG_STEP` (R508). -/
def execDebugStep (a : Via) (cmd : DWord) (s : State) : Host.Outcome State Fault Refusal :=
  if numFns ≤ a.fn || dbgOp cmd != 2 then notNow "DEBUG_STEP"
  else s.dbgRun a cmd (fun b _ => s.dbg b 1) fun k _ x => (s.unhalt k (dbgBand cmd) x true).dbgDone a.fn cmd false

/-- Whether a register command names a register of the band. -/
def dbgNames (b : Block) (x : Band) (c : DWord) : Bool :=
  match dbgClass c with
  | 0 => dbgReg c < b.vregs && dbgLane c < x.lanes.length
  | 1 => dbgReg c < b.uregs
  | 2 => dbgLane c < x.lanes.length
  | 3 => true
  | _ => false

/-- The register that a command reads. -/
def State.dbgRead (s : State) (b : Block) (x : Band) (c : DWord) : DWord :=
  match dbgClass c with
  | 0 => ((x.lane (dbgLane c)).v (dbgReg c)).setWidth 64
  | 1 => (x.u (dbgReg c)).setWidth 64
  | 2 => (x.lane (dbgLane c)).preds.setWidth 64
  | _ => s.csrVal b x (dbgReg c)

/-- The band after a command's write; a register that is written leaves the operand latch (R50). -/
def Band.dbgWrite (x : Band) (dbgen : Word) (c v : DWord) : Band :=
  match dbgClass c with
  | 0 => (x.modLanes [dbgLane c] fun _ l => l.setV (dbgReg c) (v.setWidth 32)).unlatch [dbgReg c]
  | 1 => x.setU (dbgReg c) (v.setWidth 32)
  | 2 => x.modLanes [dbgLane c] fun _ l => { l with preds := v.setWidth 7 }
  | _ => x.csrPut dbgen (dbgReg c) v

/-- `DEBUG_READ_REGISTER` (R425, R508): the read waits until the band's tokens are clear. -/
def execDebugReadRegister (a : Via) (cmd : DWord) (s : State) : Host.Outcome State Fault Refusal :=
  let waits := match s.dbgTarget a.fn cmd with
    | some (_, b, x) => s.dbg b 2 && x.halted && x.tokens != 0
    | none => false
  if numFns ≤ a.fn || dbgOp cmd != 3 || (waits && !s.unsupported a) then notNow "DEBUG_READ_REGISTER"
  else s.dbgRun a cmd (fun b x => s.dbg b 2 && x.halted && dbgNames b x cmd) fun _ b x =>
    s.dbgDone a.fn cmd false (some (s.dbgRead b x cmd))

/-- `DEBUG_WRITE_REGISTER` (R508). -/
def execDebugWriteRegister (a : Via) (cmd : DWord) (s : State) : Host.Outcome State Fault Refusal :=
  if numFns ≤ a.fn || dbgOp cmd != 4 then notNow "DEBUG_WRITE_REGISTER"
  else s.dbgRun a cmd (fun b x => s.dbg b 2 && x.halted && dbgNames b x cmd) fun k b _ =>
    let dbgen := ((s.ctx b.asid).map Ctx.dbgen).getD 0
    (s.modBand k (dbgBand cmd) fun y => y.dbgWrite dbgen cmd (s.fn a.fn).dbgDat).dbgDone a.fn cmd false

/-! ### Live migration (R509 to R512) -/

/-- `LMCTL_TRACK` (R510, R525): a change from 0 to 1 clears the live bitmap. -/
def execLmctlTrack (v : Nat) (on : Bool) (s : State) : Host.Outcome State Fault Refusal :=
  if numFns ≤ v then notNow "LMCTL_TRACK"
  else .next (s.modFn v fun x => { x with lmTrack := on, dirty := if on && !x.lmTrack then [] else x.dirty })

/-- The bytes of a snapshot's bitmap that are not zero, by index (R510). -/
def bitmapBytes (dirty : List Nat) : List (Nat × Byte) :=
  ((dirty.map (· / 8)).eraseDups).map fun j =>
    (j, BitVec.ofNat 8 (((List.range 8).filter fun i => dirty.contains (8 * j + i)).foldl (fun a i => a + 2 ^ i) 0))

/-- Writes a range of memory at its homes, under KEYID 0: the listed bytes, and zeros. What reads as zero already is left
alone. -/
def State.putRange (s : State) (a n : Nat) (bs : List (Nat × Byte)) : State :=
  let inRange (pa : Nat) : Bool := a ≤ pa && pa < a + n
  let zeros := ((s.mem.filter fun p => inRange p.1 && !bs.any fun b => a + b.1 == p.1).map (·.1))
  let retag (p : Nat × CwTag) : Nat × CwTag :=
    if inRange (32 * p.1) && inRange (32 * p.1 + 31) then (p.1, { p.2 with kid := 0, gen := s.keyGen 0 }) else p
  let s := { s with cw := s.cw.map retag }
  let s := zeros.foldl (fun s pa => s.devicePut pa [0]) s
  bs.foldl (fun s b => s.devicePut (a + b.1) [b.2]) s

/-- `LMCTL_SNAP` (R510): the bitmap at LMBMP becomes the live one, which is cleared, in one step. -/
def execLmctlSnap (v : Nat) (s : State) : Host.Outcome State Fault Refusal :=
  let x := s.fn v
  if numFns ≤ v then notNow "LMCTL_SNAP"
  else
    match s.rangeLoan x.lmBmp.toNat 786432 with
    | some i => s.waitOn i "LMCTL_SNAP"
    | none =>
      .next ((s.putRange x.lmBmp.toNat 786432 (bitmapBytes x.dirty)).modFn v fun x => { x with dirty := [], lmSnap := false })

/-- Whether every loan of a partition is final (R461). -/
def State.loansFinal (s : State) (v : Nat) : Bool :=
  s.samples.all fun p => p.2.final || ((s.grid p.2.lid).map Grid.fn) != some v

/-- `LMCTL_QUIESCE` (R511): the function's queues stop accepting; then, once every loan of the partition is final, its
resident blocks stop. -/
def execLmctlQuiesce (v : Nat) (s : State) : Host.Outcome State Fault Refusal :=
  let x := s.fn v
  if numFns ≤ v then notNow "LMCTL_QUIESCE"
  else if !x.lmQuiesce then .next (s.modFn v fun x => { x with lmQuiesce := true, lmQdone := false })
  else if x.lmStopped || !s.loansFinal v then notNow "LMCTL_QUIESCE"
  else
    let ks := (s.blocks.filter fun p => p.2.fn == v && p.2.st == .running).map (·.1)
    .next ((ks.foldl (fun s k => s.stopBlock k true none) s).modFn v fun x => { x with lmStopped := true })

/-- Whether a function's stopped blocks have drained, but for copies that wait on PAGE service, and none of its grids is
failing (R511). -/
def State.quiet (s : State) (v : Nat) : Bool :=
  s.blocks.all (fun p => p.2.fn != v || (p.2.waits && s.drained p.2 true))
    && s.grids.all fun g => g.2.fn != v || match g.2.st with
      | .failing _ => false
      | .accepted | .complete _ => true

/-- The image of a function (R512). -/
def State.image (s : State) (v : Nat) : LmImage :=
  { queues := (s.fn v).queues
    grids := (s.grids.map (·.2)).filter fun g => g.fn == v && !g.over
    blocks := s.blocks.filter fun p => p.2.fn == v
    ctxs := (s.ctxs.filter fun c => c.2.fn == v).map fun c => (c.1, c.2.desc) }

/-! ### Save areas in memory (R419, R420) -/

/-- The KEYID of a partition under which its save areas are encrypted (R420): its lowest. DESIGN CHOICE (log entry 69). -/
def State.partKey (s : State) (f : Nat) : Nat :=
  ((List.range 64).find? fun k => ((tget s.pf.keymap f).getD 0).getLsbD k).getD 0

/-- Where the next save area of a function goes: after those in its reserved memory. DESIGN CHOICE (log entry 69). -/
def State.nextSave (s : State) (f base : Nat) : Nat :=
  s.blocks.foldl (fun a p =>
    match p.2.saveAt with
    | some n => if p.2.fn = f then max a ((n + (s.saveArea p.2).length + 127) / 128 * 128) else a
    | none => a) ((base + 127) / 128 * 128)

/-- Writes bytes at a line's start under a key, line by line. -/
def State.putLines (s : State) (kid pa : Nat) (bs : List Byte) : State :=
  (List.range ((bs.length + 127) / 128)).foldl (fun s j =>
    s.devicePut (pa + 128 * j) ((bs.drop (128 * j)).take 128) kid) s

/-- Whether a stopped block is still to be written to its save area: firmware has given its function memory for it, and its
work has drained (R419). -/
def State.saveDue (s : State) (b : Block) : Bool :=
  b.waits && b.saveAt.isNone && (s.fn b.fn).reserve.isSome && s.drained b (s.fn b.fn).lmStopped

/-- The last step of a stop (R419): the block's state is written to its save area. -/
def State.saveBlock (s : State) (k : Nat) : State :=
  match s.blk k with
  | none => s
  | some b =>
    match (s.fn b.fn).reserve with
    | none => s
    | some base =>
      if !s.saveDue b then s
      else
        let a := s.nextSave b.fn base
        (s.putLines (s.partKey b.fn) a (s.saveArea b)).modBlk k fun b => { b with saveAt := some a }

def State.saveBlocks (s : State) : State := (s.blocks.map (·.1)).foldl State.saveBlock s

/-! ### The image (R512) -/

/-- `QUIESCE_DONE` (R511, R512, R525): the image is written and QDONE set; a response for a copy that the image saves has no
effect any more. -/
def execQuiesceDone (v : Nat) (s : State) : Host.Outcome State Fault Refusal :=
  let x := s.fn v
  let bytes := Config.imageBytes s.freeCtr
  if !x.lmStopped || x.lmQdone || !s.quiet v || s.blocks.any (fun p => p.2.fn == v && s.saveDue p.2) then
    notNow "QUIESCE_DONE"
  else
    match s.rangeLoan x.lmImg.toNat bytes.length with
    | some i => s.waitOn i "QUIESCE_DONE"
    | none =>
      let t := s.putRange x.lmImg.toNat bytes.length ((List.range bytes.length).zip bytes)
      .next ({ t with freeCtr := s.freeCtr + 1, images := (bytes, s.image v) :: s.images }.modFn v fun x => { x with
        lmSize := BitVec.ofNat 32 bytes.length, lmQdone := true
        pageReqs := x.pageReqs.filter fun r => r.copy.isNone })

/-- Makes an image's contexts resident (R267, R512): the identifiers that they had and that they take. -/
def State.restoreCtxs (s : State) (v : Nat) : List (Nat × Nat) → State × Tbl Nat
  | [] => (s, [])
  | (a, desc) :: t =>
    match s.makeCtx v desc with
    | none => s.restoreCtxs v t
    | some (s, n) =>
      let (s, m) := s.restoreCtxs v t
      (s, tset m a n)

/-- Takes an image's grids back (R512): they keep their launch identifiers, take rows of their own and none of the
identifiers that the packets not accepted yet will take (R525). The rows that they had and that they take. -/
def State.restoreGrids (s : State) (v : Nat) (asids : Tbl Nat) : List Grid → State × Tbl Nat
  | [] => (s, [])
  | g :: t =>
    let lid := s.lastGrid + 1
    let g' := { g with lid, fn := v, asid := (tget asids g.asid).getD g.asid }
    let (s, m) := { s with lastGrid := lid, grids := tset s.grids lid g' }.restoreGrids v asids t
    (s, tset m g.lid lid)

/-- A restartable record: its copy is to issue again from its first segment (R512). -/
def Copy.restart (c : Copy) : Copy :=
  { c with again := true, taken := [], done := [], fault := none, st := .moving, maxW := 0, wrote := [] }

/-- A band as it comes back: what it knew of the chip time of another device is past. -/
def Band.restored (x : Band) : Band := { x with horizon := 0, waitW := [] }

/-- A block as it comes back: a pre-empted block, or one that still needs the other profile. -/
def Block.restored (b : Block) (v lid asid order : Nat) : Block :=
  { b with
    lid, asid, fn := v, sid := none, run := .plain, scratchW := 0
    copies := b.copies.map Copy.restart, bands := b.bands.map Band.restored
    st := match b.toProfile with
      | some a => .stopped false (some a) order
      | none => .stopped true none order }

/-- Takes an image's blocks back. -/
def State.restoreBlocks (s : State) (v : Nat) (lids asids : Tbl Nat) : List (Nat × Block) → State
  | [] => s
  | (_, b) :: t =>
    let (k, s) := s.fresh
    let lid := (tget lids b.lid).getD b.lid
    (s.setBlk k (b.restored v lid ((tget asids b.asid).getD b.asid) k)).restoreBlocks v lids asids t

/-- The image that the bytes at LMIMG are (R512): one that a device of the fleet has written. -/
def State.imageAt (s : State) (v : Nat) : Option LmImage :=
  (s.images.find? fun p => s.rdOwn (s.fn v).lmImg.toNat p.1.length == p.1).map (·.2)

/-- `LMCTL_RESUME` (R512): the queues and grids of the image at LMIMG take the place of the function's; its blocks wait as
pre-empted blocks. -/
def execLmctlResume (v : Nat) (s : State) : Host.Outcome State Fault Refusal :=
  match s.imageAt v with
  | none => notNow "LMCTL_RESUME"
  | some i =>
    let s := { s with blocks := s.blocks.filter fun p => p.2.fn != v
                      grids := s.grids.filter fun g => g.2.fn != v || g.2.over }
    let s := s.modFn v fun x => { x with
      queues := i.queues.map fun q => (q.1, { q.2 with lqctx := (x.queue q.1).lqctx })
      pageReqs := [], lmQuiesce := false, lmStopped := false, lmQdone := false }
    let (s, asids) := s.restoreCtxs v i.ctxs
    let (s, lids) := s.restoreGrids v asids i.grids
    .next (s.restoreBlocks v lids asids i.blocks)

end Sys2Proof.Machine
end

