-- ==== Sys2Proof/Machine/Int.lean ====
section
/-! DEFINITION. Groups 0 and 1: integer arithmetic, logic and bits (R125 to R135). -/

namespace Sys2Proof.Machine

open Sys2Proof

/-- Two integer sources (R126). -/
def alu2 (i : Instr) (o : Int2) (s : State) (f : DWord → DWord → DWord) : Host.Outcome State Fault Refusal :=
  runAlu i s fun e => .vW o.t.w64 o.d (f (e.srcW o.t.w64 o.a) (e.srcW o.t.w64 o.b))

/-- One integer source. -/
def alu1 (i : Instr) (o : Int1) (s : State) (f : DWord → DWord) : Host.Outcome State Fault Refusal :=
  runAlu i s fun e => .vW o.t.w64 o.d (f (e.srcW o.t.w64 o.a))

/-- A source and an immediate (R124). -/
def aluI (i : Instr) (o : IntI) (s : State) (f : DWord → DWord → DWord) : Host.Outcome State Fault Refusal :=
  runAlu i s fun e => .vW o.t.w64 o.d (f (e.srcW o.t.w64 o.a) (immI o.t o.imm))

/-- A saturating sum or difference (R122, R126). -/
def aluSat (i : Instr) (o : Int2) (s : State) (sub : Bool) : Host.Outcome State Fault Refusal :=
  runAlu i s fun e =>
    let r := isat sub o.t (e.srcW o.t.w64 o.a) (e.srcW o.t.w64 o.b)
    .vW o.t.w64 o.d r.val r.cs

/-- Three integer sources. -/
def alu3 (i : Instr) (o : Int3) (s : State) (f : DWord → DWord → DWord → DWord) : Host.Outcome State Fault Refusal :=
  runAlu i s fun e => .vW o.t.w64 o.d (f (e.srcW o.t.w64 o.a) (e.srcW o.t.w64 o.b) (e.vW o.t.w64 o.c))

/-- Two sources of a logic instruction (R130). -/
def log2 (i : Instr) (o : Log2) (s : State) (f : DWord → DWord → DWord) : Host.Outcome State Fault Refusal :=
  runAlu i s fun e => .vW o.w64 o.d (f (e.srcW o.w64 o.a) (e.srcW o.w64 o.b))

/-- A logic instruction with an immediate. -/
def logI (i : Instr) (o : LogI) (s : State) (f : DWord → DWord → DWord) : Host.Outcome State Fault Refusal :=
  runAlu i s fun e => .vW o.w64 o.d (f (e.srcW o.w64 o.a) (immB o.imm))

/-- A shift: the count is one 32-bit source (R131). -/
def sh2 (i : Instr) (o : Log2) (s : State) (op : ShOp) : Host.Outcome State Fault Refusal :=
  runAlu i s fun e => .vW o.w64 o.d (shift op o.w64 (e.srcW o.w64 o.a) (e.src o.b))

/-- A shift by an immediate. -/
def shI (i : Instr) (o : LogI) (s : State) (op : ShOp) : Host.Outcome State Fault Refusal :=
  runAlu i s fun e => .vW o.w64 o.d (shift op o.w64 (e.srcW o.w64 o.a) o.imm)

/-- A count (R131): a 32-bit result of either width. -/
def cnt1 (i : Instr) (o : Log1) (s : State) (f : Bool → DWord → Word) : Host.Outcome State Fault Refusal :=
  runAlu i s fun e => .v32 o.d (f o.w64 (e.srcW o.w64 o.a))

/-- `iadd` -/
def execIadd (h : Hdr) (o : Int2) (s : State) : Host.Outcome State Fault Refusal :=
  alu2 (.iadd h o) o s (iop .add o.t)

/-- `isub` -/
def execIsub (h : Hdr) (o : Int2) (s : State) : Host.Outcome State Fault Refusal :=
  alu2 (.isub h o) o s (iop .sub o.t)

/-- `imul` -/
def execImul (h : Hdr) (o : Int2) (s : State) : Host.Outcome State Fault Refusal :=
  alu2 (.imul h o) o s (iop .mul o.t)

/-- `imulh` -/
def execImulh (h : Hdr) (o : Int2) (s : State) : Host.Outcome State Fault Refusal :=
  alu2 (.imulh h o) o s (iop .mulh o.t)

/-- `imin` -/
def execImin (h : Hdr) (o : Int2) (s : State) : Host.Outcome State Fault Refusal :=
  alu2 (.imin h o) o s (iop .min o.t)

/-- `imax` -/
def execImax (h : Hdr) (o : Int2) (s : State) : Host.Outcome State Fault Refusal :=
  alu2 (.imax h o) o s (iop .max o.t)

/-- `idiv` -/
def execIdiv (h : Hdr) (o : Int2) (s : State) : Host.Outcome State Fault Refusal :=
  alu2 (.idiv h o) o s (iop .div o.t)

/-- `irem` -/
def execIrem (h : Hdr) (o : Int2) (s : State) : Host.Outcome State Fault Refusal :=
  alu2 (.irem h o) o s (iop .rem o.t)

/-- `iadd imm` -/
def execIaddImm (h : Hdr) (o : IntI) (s : State) : Host.Outcome State Fault Refusal :=
  aluI (.iaddImm h o) o s (iop .add o.t)

/-- `isub imm` -/
def execIsubImm (h : Hdr) (o : IntI) (s : State) : Host.Outcome State Fault Refusal :=
  aluI (.isubImm h o) o s (iop .sub o.t)

/-- `imul imm` -/
def execImulImm (h : Hdr) (o : IntI) (s : State) : Host.Outcome State Fault Refusal :=
  aluI (.imulImm h o) o s (iop .mul o.t)

/-- `imin imm` -/
def execIminImm (h : Hdr) (o : IntI) (s : State) : Host.Outcome State Fault Refusal :=
  aluI (.iminImm h o) o s (iop .min o.t)

/-- `imax imm` -/
def execImaxImm (h : Hdr) (o : IntI) (s : State) : Host.Outcome State Fault Refusal :=
  aluI (.imaxImm h o) o s (iop .max o.t)

/-- `idiv imm` -/
def execIdivImm (h : Hdr) (o : IntI) (s : State) : Host.Outcome State Fault Refusal :=
  aluI (.idivImm h o) o s (iop .div o.t)

/-- `irem imm` -/
def execIremImm (h : Hdr) (o : IntI) (s : State) : Host.Outcome State Fault Refusal :=
  aluI (.iremImm h o) o s (iop .rem o.t)

/-- `ineg` -/
def execIneg (h : Hdr) (o : Int1) (s : State) : Host.Outcome State Fault Refusal :=
  alu1 (.ineg h o) o s (ineg o.t)

/-- `iabs` -/
def execIabs (h : Hdr) (o : Int1) (s : State) : Host.Outcome State Fault Refusal :=
  alu1 (.iabs h o) o s (iabs o.t)

/-- `iaddsat` -/
def execIaddsat (h : Hdr) (o : Int2) (s : State) : Host.Outcome State Fault Refusal :=
  aluSat (.iaddsat h o) o s false

/-- `isubsat` -/
def execIsubsat (h : Hdr) (o : Int2) (s : State) : Host.Outcome State Fault Refusal :=
  aluSat (.isubsat h o) o s true

/-- `icmp` -/
def execIcmp (h : Hdr) (o : Cmp2) (s : State) : Host.Outcome State Fault Refusal :=
  runAlu (.icmp h o) s fun e => .pr o.p (icmpB o.t o.cc (e.srcW o.t.w64 o.a) (e.srcW o.t.w64 o.b))

/-- `icmp imm` -/
def execIcmpImm (h : Hdr) (o : CmpI) (s : State) : Host.Outcome State Fault Refusal :=
  runAlu (.icmpImm h o) s fun e => .pr o.p (icmpB o.t o.cc (e.srcW o.t.w64 o.a) (immI o.t o.imm))

/-- `imad` -/
def execImad (h : Hdr) (o : Int3) (s : State) : Host.Outcome State Fault Refusal :=
  alu3 (.imad h o) o s (imad o.t)

/-- `iclamp` -/
def execIclamp (h : Hdr) (o : Int3) (s : State) : Host.Outcome State Fault Refusal :=
  alu3 (.iclamp h o) o s (iclamp o.t)

/-- `imadw` -/
def execImadw (h : Hdr) (o : Int3) (s : State) : Host.Outcome State Fault Refusal :=
  runAlu (.imadw h o) s fun e =>
    .v64 o.d (imadw o.t ((e.src o.a).setWidth 64) ((e.src o.b).setWidth 64) (e.v64 o.c))

/-- `and` -/
def execAnd (h : Hdr) (o : Log2) (s : State) : Host.Outcome State Fault Refusal :=
  log2 (.and h o) o s (lop .and o.w64)

/-- `or` -/
def execOr (h : Hdr) (o : Log2) (s : State) : Host.Outcome State Fault Refusal :=
  log2 (.or h o) o s (lop .or o.w64)

/-- `xor` -/
def execXor (h : Hdr) (o : Log2) (s : State) : Host.Outcome State Fault Refusal :=
  log2 (.xor h o) o s (lop .xor o.w64)

/-- `andn` -/
def execAndn (h : Hdr) (o : Log2) (s : State) : Host.Outcome State Fault Refusal :=
  log2 (.andn h o) o s (lop .andn o.w64)

/-- `and imm` -/
def execAndImm (h : Hdr) (o : LogI) (s : State) : Host.Outcome State Fault Refusal :=
  logI (.andImm h o) o s (lop .and o.w64)

/-- `or imm` -/
def execOrImm (h : Hdr) (o : LogI) (s : State) : Host.Outcome State Fault Refusal :=
  logI (.orImm h o) o s (lop .or o.w64)

/-- `xor imm` -/
def execXorImm (h : Hdr) (o : LogI) (s : State) : Host.Outcome State Fault Refusal :=
  logI (.xorImm h o) o s (lop .xor o.w64)

/-- `shl` -/
def execShl (h : Hdr) (o : Log2) (s : State) : Host.Outcome State Fault Refusal :=
  sh2 (.shl h o) o s .shl

/-- `shl imm` -/
def execShlImm (h : Hdr) (o : LogI) (s : State) : Host.Outcome State Fault Refusal :=
  shI (.shlImm h o) o s .shl

/-- `shr` -/
def execShr (h : Hdr) (o : Log2) (s : State) : Host.Outcome State Fault Refusal :=
  sh2 (.shr h o) o s .shr

/-- `shr imm` -/
def execShrImm (h : Hdr) (o : LogI) (s : State) : Host.Outcome State Fault Refusal :=
  shI (.shrImm h o) o s .shr

/-- `sar` -/
def execSar (h : Hdr) (o : Log2) (s : State) : Host.Outcome State Fault Refusal :=
  sh2 (.sar h o) o s .sar

/-- `sar imm` -/
def execSarImm (h : Hdr) (o : LogI) (s : State) : Host.Outcome State Fault Refusal :=
  shI (.sarImm h o) o s .sar

/-- `rol` -/
def execRol (h : Hdr) (o : Log2) (s : State) : Host.Outcome State Fault Refusal :=
  sh2 (.rol h o) o s .rol

/-- `rol imm` -/
def execRolImm (h : Hdr) (o : LogI) (s : State) : Host.Outcome State Fault Refusal :=
  shI (.rolImm h o) o s .rol

/-- `ror` -/
def execRor (h : Hdr) (o : Log2) (s : State) : Host.Outcome State Fault Refusal :=
  sh2 (.ror h o) o s .ror

/-- `ror imm` -/
def execRorImm (h : Hdr) (o : LogI) (s : State) : Host.Outcome State Fault Refusal :=
  shI (.rorImm h o) o s .ror

/-- `not` -/
def execNot (h : Hdr) (o : Log1) (s : State) : Host.Outcome State Fault Refusal :=
  runAlu (.not h o) s fun e => .vW o.w64 o.d (cut o.w64 (~~~(e.srcW o.w64 o.a)))

/-- `brev` -/
def execBrev (h : Hdr) (o : Log1) (s : State) : Host.Outcome State Fault Refusal :=
  runAlu (.brev h o) s fun e => .vW o.w64 o.d (brev o.w64 (e.srcW o.w64 o.a))

/-- `popc` -/
def execPopc (h : Hdr) (o : Log1) (s : State) : Host.Outcome State Fault Refusal :=
  cnt1 (.popc h o) o s popc

/-- `clz` -/
def execClz (h : Hdr) (o : Log1) (s : State) : Host.Outcome State Fault Refusal :=
  cnt1 (.clz h o) o s clz

/-- `ctz` -/
def execCtz (h : Hdr) (o : Log1) (s : State) : Host.Outcome State Fault Refusal :=
  cnt1 (.ctz h o) o s ctz

/-- `bperm` -/
def execBperm (h : Hdr) (o : Bin) (s : State) : Host.Outcome State Fault Refusal :=
  runAlu (.bperm h o) s fun e => .v32 o.d (bperm (e.src64 o.a) (e.src o.b))

/-- `clmul.lo` -/
def execClmulLo (h : Hdr) (o : Bin) (s : State) : Host.Outcome State Fault Refusal :=
  runAlu (.clmulLo h o) s fun e => .v64 o.d (clmul false (e.src64 o.a) (e.src64 o.b))

/-- `clmul.hi` -/
def execClmulHi (h : Hdr) (o : Bin) (s : State) : Host.Outcome State Fault Refusal :=
  runAlu (.clmulHi h o) s fun e => .v64 o.d (clmul true (e.src64 o.a) (e.src64 o.b))

/-- `lop3` -/
def execLop3 (h : Hdr) (o : Lop3) (s : State) : Host.Outcome State Fault Refusal :=
  runAlu (.lop3 h o) s fun e => .vW o.w64 o.d (lop3 o.w64 o.lut (e.srcW o.w64 o.a) (e.srcW o.w64 o.b) (e.vW o.w64 o.c))

/-- `fsh` -/
def execFsh (h : Hdr) (o : Fsh) (s : State) : Host.Outcome State Fault Refusal :=
  runAlu (.fsh h o) s fun e => .v32 o.d (fsh o.right (e.src o.a) (e.src o.b) (e.v o.c))

/-- `bfe` -/
def execBfe (h : Hdr) (o : Bfe) (s : State) : Host.Outcome State Fault Refusal :=
  runAlu (.bfe h o) s fun e => .vW o.t.w64 o.d (bfe o.t o.pos o.len (e.srcW o.t.w64 o.a))

/-- `bfi` -/
def execBfi (h : Hdr) (o : Bfi) (s : State) : Host.Outcome State Fault Refusal :=
  runAlu (.bfi h o) s fun e => .vW o.w64 o.d (bfi o.w64 o.pos o.len (e.srcW o.w64 o.a) (e.srcW o.w64 o.b))

end Sys2Proof.Machine
end

