-- ==== Sys2Proof/Machine/Move.lean ====
section
/-! DEFINITION. Groups 2 and 3: predicates, moves, selection, address, control flow (R129, R136 to R146). -/

namespace Sys2Proof.Machine

open Sys2Proof

/-- Two predicates, each possibly inverted (R140). -/
def predOp (i : Instr) (o : PLog) (s : State) (f : Bool → Bool → Bool) : Host.Outcome State Fault Refusal :=
  runAlu i s fun e => .pr o.d (f (e.p o.a != o.na) (e.p o.b != o.nb))

/-- `pand` (R140). -/
def execPand (h : Hdr) (o : PLog) (s : State) : Host.Outcome State Fault Refusal := predOp (.pand h o) o s and

/-- `por` (R140). -/
def execPor (h : Hdr) (o : PLog) (s : State) : Host.Outcome State Fault Refusal := predOp (.por h o) o s or

/-- `pxor` (R140). -/
def execPxor (h : Hdr) (o : PLog) (s : State) : Host.Outcome State Fault Refusal := predOp (.pxor h o) o s xor

/-- `pnot` (R140). -/
def execPnot (h : Hdr) (o : PNot) (s : State) : Host.Outcome State Fault Refusal :=
  runAlu (.pnot h o) s fun e => .pr o.d (!e.p o.a)

/-- `p2v` (R140): p7 to p0; bit 7 reads true. -/
def execP2v (h : Hdr) (d : BitVec 8) (s : State) : Host.Outcome State Fault Refusal :=
  runAlu (.p2v h d) s fun e => .v32 d ((e.ln.preds.setWidth 32) ||| 128)

/-- `v2p` (R140). -/
def execV2p (h : Hdr) (o : V2p) (s : State) : Host.Outcome State Fault Refusal :=
  runAlu (.v2p h o) s fun e =>
    { p := ((List.range 7).filter fun i => o.mask.getLsbD i).map fun i => (i, (e.v o.a).getLsbD i) }

/-- `mov` (R136). -/
def execMov (h : Hdr) (o : Mov) (s : State) : Host.Outcome State Fault Refusal :=
  runAlu (.mov h o) s fun e => .dst o.d o.w64 (e.srcW o.w64 o.a)

/-- Whether a computed register number is out of range (R18, R20, R21). -/
def Block.badIndex (b : Block) (k : Word) : Bool := b.vregs ≤ k.toNat || b.isPort k.toNat && k.toNat < 256

/-- The trap of the lowest lane whose computed index is out of range (R138). The rule has every failing lane recorded and
names no register for them: LANE holds the lowest, TMASK the active lanes, as of every trap. DESIGN CHOICE (log entry 74). -/
def Iss.indexTrap (y : Iss) (opnd : Nat) (idx : Env → Word) : Option Trap :=
  (y.ex.find? fun l => y.b.badIndex (idx (y.env l))).map fun l => { cls := .regidx, cause := 1, lane := l, opnd }

/-- Indexed read (R136, R138). -/
def execMovIndexedRead (h : Hdr) (o : MovRd) (s : State) : Host.Outcome State Fault Refusal :=
  run (.movIndexedRead h o) s fun y =>
    match y.indexTrap 2 (fun e => e.src o.k) with
    | some t => y.trap t
    | none => y.commit (.movIndexedRead h o) (y.ex.map fun l =>
        (l, .dst o.d false (((y.env l).ln.v ((y.env l).src o.k).toNat).setWidth 64)))

/-- Indexed write (R136, R138). -/
def execMovIndexedWrite (h : Hdr) (o : MovWr) (s : State) : Host.Outcome State Fault Refusal :=
  run (.movIndexedWrite h o) s fun y =>
    match y.indexTrap 1 (fun e => e.v o.k) with
    | some t => y.trap t
    | none =>
      let outs : List (Nat × Out) := y.ex.map fun l => (l, { v := [(((y.env l).v o.k).toNat, (y.env l).src o.a)] })
      (y.commit (.movIndexedWrite h o) outs).modBand y.k y.n (Band.unlatch · (regsOf outs))

/-- `isel` (R129). -/
def execIsel (h : Hdr) (o : Isel) (s : State) : Host.Outcome State Fault Refusal :=
  runAlu (.isel h o) s fun e => .vW o.w64 o.d (if e.p o.ps != o.pn then e.srcW o.w64 o.a else e.srcW o.w64 o.b)

/-- `isel` with an immediate (R129). -/
def execIselImm (h : Hdr) (o : IselI) (s : State) : Host.Outcome State Fault Refusal :=
  runAlu (.iselImm h o) s fun e => .v32 o.d (if e.p o.ps != o.pn then e.src o.a else o.imm)

/-- `movi` (R136). -/
def execMovi (h : Hdr) (o : Movi) (s : State) : Host.Outcome State Fault Refusal :=
  runAlu (.movi h o) s fun _ => .dst o.d false (o.imm.setWidth 64)

/-- `movw` (R136). -/
def execMovw (h : Hdr) (o : Movw) (s : State) : Host.Outcome State Fault Refusal :=
  runAlu (.movw h o) s fun _ => .dst o.d true o.imm

/-- `lea` (R139). -/
def execLea (h : Hdr) (o : Lea) (s : State) : Host.Outcome State Fault Refusal :=
  runAlu (.lea h o) s fun e => .vW o.w64 o.d (lea o.w64 o.sx (e.srcW o.w64 o.base) (e.src o.idx) o.sh.toNat o.disp)

/-! ### Control flow (R141 to R146) -/

/-- An instruction without an effect of its own: `nop`, `yield` (R145, R146). -/
def runNop (i : Instr) (s : State) : Host.Outcome State Fault Refusal := run i s fun y => y.finish y.base i []

/-- `nop.64` (R146). -/
def execNop64 (h : Hdr) (s : State) : Host.Outcome State Fault Refusal := runNop (.nop64 h) s

/-- `nop.96` (R146). -/
def execNop96 (h : Hdr) (s : State) : Host.Outcome State Fault Refusal := runNop (.nop96 h) s

/-- `nop.128` (R146). -/
def execNop128 (h : Hdr) (s : State) : Host.Outcome State Fault Refusal := runNop (.nop128 h) s

/-- `yield` (R145): `complete` sets the yield marks (R171). -/
def execYield (h : Hdr) (s : State) : Host.Outcome State Fault Refusal := runNop (.yield h) s

/-- The branch of R142 and R143: each executing lane's target, if it jumps, and its register writes. DESIGN CHOICE (log entry
92): a lane of `dbra` that falls through has no target, so only the lanes that jump can raise FETCHALIGN. -/
def runJump (i : Instr) (s : State) (f : Env → DWord → Option DWord × Out) : Host.Outcome State Fault Refusal :=
  run i s fun y =>
    let rs := y.ex.map fun l => (l, f (y.env l) y.pc)
    match rs.find? fun r => (r.2.1.map fun t => t.extractLsb' 0 2 != 0).getD false with
    | some r => y.trap { cls := .fetchalign, cause := 1, lane := r.1, addr := r.2.1.getD 0 }
    | none =>
      y.finish (y.putOuts (rs.map fun r => (r.1, r.2.2))) i (rs.filterMap fun r => r.2.1.map fun t => (r.1, t))

/-- `bra` (R142). -/
def execBra (h : Hdr) (off : Word) (s : State) : Host.Outcome State Fault Refusal :=
  runJump (.bra h off) s fun _ pc => (some (pc + off.signExtend 64), {})

/-- `call` (R142): the link is the next instruction. -/
def execCall (h : Hdr) (o : CallOp) (s : State) : Host.Outcome State Fault Refusal :=
  runJump (.call h o) s fun _ pc => (some (pc + o.off.signExtend 64), .v64 o.d (pc + 12))

/-- `dbra` (R142). -/
def execDbra (h : Hdr) (o : CallOp) (s : State) : Host.Outcome State Fault Refusal :=
  runJump (.dbra h o) s fun e pc =>
    let k := e.v o.d - 1
    (if k != 0 then some (pc + o.off.signExtend 64) else none, .v32 o.d k)

/-- `ret` (R142). -/
def execRet (h : Hdr) (a : Src) (s : State) : Host.Outcome State Fault Refusal :=
  runJump (.ret h a) s fun e _ => (some (e.src64 a), {})

/-- `brx` (R142). -/
def execBrx (h : Hdr) (a : Src) (s : State) : Host.Outcome State Fault Refusal :=
  runJump (.brx h a) s fun e _ => (some (e.src64 a), {})

end Sys2Proof.Machine
end

