-- ==== Sys2Proof/Machine/Dispatch.lean ====
section
/-! DEFINITION. One arm per row of spec/opcode_table.json: the meaning that each instruction has. -/

namespace Sys2Proof.Machine

open Sys2Proof

/-- What an instruction does in a state. -/
def exec (i : Instr) (s : State) : Host.Outcome State Fault Refusal :=
  match i with
  | .iadd h o => Sys2Proof.Machine.execIadd h o s
  | .isub h o => Sys2Proof.Machine.execIsub h o s
  | .imul h o => Sys2Proof.Machine.execImul h o s
  | .imulh h o => Sys2Proof.Machine.execImulh h o s
  | .ineg h o => Sys2Proof.Machine.execIneg h o s
  | .iabs h o => Sys2Proof.Machine.execIabs h o s
  | .imin h o => Sys2Proof.Machine.execImin h o s
  | .imax h o => Sys2Proof.Machine.execImax h o s
  | .iaddsat h o => Sys2Proof.Machine.execIaddsat h o s
  | .isubsat h o => Sys2Proof.Machine.execIsubsat h o s
  | .icmp h o => Sys2Proof.Machine.execIcmp h o s
  | .idiv h o => Sys2Proof.Machine.execIdiv h o s
  | .irem h o => Sys2Proof.Machine.execIrem h o s
  | .imad h o => Sys2Proof.Machine.execImad h o s
  | .imadw h o => Sys2Proof.Machine.execImadw h o s
  | .iclamp h o => Sys2Proof.Machine.execIclamp h o s
  | .iaddImm h o => Sys2Proof.Machine.execIaddImm h o s
  | .isubImm h o => Sys2Proof.Machine.execIsubImm h o s
  | .imulImm h o => Sys2Proof.Machine.execImulImm h o s
  | .iminImm h o => Sys2Proof.Machine.execIminImm h o s
  | .imaxImm h o => Sys2Proof.Machine.execImaxImm h o s
  | .icmpImm h o => Sys2Proof.Machine.execIcmpImm h o s
  | .idivImm h o => Sys2Proof.Machine.execIdivImm h o s
  | .iremImm h o => Sys2Proof.Machine.execIremImm h o s
  | .and h o => Sys2Proof.Machine.execAnd h o s
  | .or h o => Sys2Proof.Machine.execOr h o s
  | .xor h o => Sys2Proof.Machine.execXor h o s
  | .andn h o => Sys2Proof.Machine.execAndn h o s
  | .not h o => Sys2Proof.Machine.execNot h o s
  | .shl h o => Sys2Proof.Machine.execShl h o s
  | .shr h o => Sys2Proof.Machine.execShr h o s
  | .sar h o => Sys2Proof.Machine.execSar h o s
  | .rol h o => Sys2Proof.Machine.execRol h o s
  | .ror h o => Sys2Proof.Machine.execRor h o s
  | .popc h o => Sys2Proof.Machine.execPopc h o s
  | .clz h o => Sys2Proof.Machine.execClz h o s
  | .ctz h o => Sys2Proof.Machine.execCtz h o s
  | .brev h o => Sys2Proof.Machine.execBrev h o s
  | .bperm h o => Sys2Proof.Machine.execBperm h o s
  | .clmulLo h o => Sys2Proof.Machine.execClmulLo h o s
  | .clmulHi h o => Sys2Proof.Machine.execClmulHi h o s
  | .lop3 h o => Sys2Proof.Machine.execLop3 h o s
  | .fsh h o => Sys2Proof.Machine.execFsh h o s
  | .bfe h o => Sys2Proof.Machine.execBfe h o s
  | .bfi h o => Sys2Proof.Machine.execBfi h o s
  | .andImm h o => Sys2Proof.Machine.execAndImm h o s
  | .orImm h o => Sys2Proof.Machine.execOrImm h o s
  | .xorImm h o => Sys2Proof.Machine.execXorImm h o s
  | .shlImm h o => Sys2Proof.Machine.execShlImm h o s
  | .shrImm h o => Sys2Proof.Machine.execShrImm h o s
  | .sarImm h o => Sys2Proof.Machine.execSarImm h o s
  | .rolImm h o => Sys2Proof.Machine.execRolImm h o s
  | .rorImm h o => Sys2Proof.Machine.execRorImm h o s
  | .pand h o => Sys2Proof.Machine.execPand h o s
  | .por h o => Sys2Proof.Machine.execPor h o s
  | .pxor h o => Sys2Proof.Machine.execPxor h o s
  | .pnot h o => Sys2Proof.Machine.execPnot h o s
  | .p2v h d => Sys2Proof.Machine.execP2v h d s
  | .v2p h o => Sys2Proof.Machine.execV2p h o s
  | .mov h o => Sys2Proof.Machine.execMov h o s
  | .movIndexedRead h o => Sys2Proof.Machine.execMovIndexedRead h o s
  | .movIndexedWrite h o => Sys2Proof.Machine.execMovIndexedWrite h o s
  | .isel h o => Sys2Proof.Machine.execIsel h o s
  | .iselImm h o => Sys2Proof.Machine.execIselImm h o s
  | .movi h o => Sys2Proof.Machine.execMovi h o s
  | .lea h o => Sys2Proof.Machine.execLea h o s
  | .movw h o => Sys2Proof.Machine.execMovw h o s
  | .nop64 h => Sys2Proof.Machine.execNop64 h s
  | .exit h => Sys2Proof.Machine.execExit h s
  | .ret h a => Sys2Proof.Machine.execRet h a s
  | .yield h => Sys2Proof.Machine.execYield h s
  | .brx h a => Sys2Proof.Machine.execBrx h a s
  | .nop96 h => Sys2Proof.Machine.execNop96 h s
  | .bra h off => Sys2Proof.Machine.execBra h off s
  | .call h o => Sys2Proof.Machine.execCall h o s
  | .dbra h o => Sys2Proof.Machine.execDbra h o s
  | .nop128 h => Sys2Proof.Machine.execNop128 h s
  | .fadd h o => Sys2Proof.Machine.execFadd h o s
  | .fsub h o => Sys2Proof.Machine.execFsub h o s
  | .fmul h o => Sys2Proof.Machine.execFmul h o s
  | .fmin h o => Sys2Proof.Machine.execFmin h o s
  | .fmax h o => Sys2Proof.Machine.execFmax h o s
  | .fcmp h o => Sys2Proof.Machine.execFcmp h o s
  | .fdiv h o => Sys2Proof.Machine.execFdiv h o s
  | .fsqrt h o => Sys2Proof.Machine.execFsqrt h o s
  | .frcp h o => Sys2Proof.Machine.execFrcp h o s
  | .frsq h o => Sys2Proof.Machine.execFrsq h o s
  | .fexp2 h o => Sys2Proof.Machine.execFexp2 h o s
  | .flog2 h o => Sys2Proof.Machine.execFlog2 h o s
  | .fsin h o => Sys2Proof.Machine.execFsin h o s
  | .fcos h o => Sys2Proof.Machine.execFcos h o s
  | .frnd h o => Sys2Proof.Machine.execFrnd h o s
  | .fclass h o => Sys2Proof.Machine.execFclass h o s
  | .ffma h o => Sys2Proof.Machine.execFfma h o s
  | .faddImm h o => Sys2Proof.Machine.execFaddImm h o s
  | .fmulImm h o => Sys2Proof.Machine.execFmulImm h o s
  | .fminImm h o => Sys2Proof.Machine.execFminImm h o s
  | .fmaxImm h o => Sys2Proof.Machine.execFmaxImm h o s
  | .fcmpImm h o => Sys2Proof.Machine.execFcmpImm h o s
  | .fcvt h o => Sys2Proof.Machine.execFcvt h o s
  | .icvt h o => Sys2Proof.Machine.execIcvt h o s
  | .fpack h o => Sys2Proof.Machine.execFpack h o s
  | .hfma2 h o => Sys2Proof.Machine.execHfma2 h o s
  | .dot4 h o => Sys2Proof.Machine.execDot4 h o s
  | .dadd h o => Sys2Proof.Machine.execDadd h o s
  | .dmul h o => Sys2Proof.Machine.execDmul h o s
  | .ddiv h o => Sys2Proof.Machine.execDdiv h o s
  | .dsqrt h o => Sys2Proof.Machine.execDsqrt h o s
  | .dcmp h o => Sys2Proof.Machine.execDcmp h o s
  | .dmin h o => Sys2Proof.Machine.execDmin h o s
  | .dmax h o => Sys2Proof.Machine.execDmax h o s
  | .dcvt h o => Sys2Proof.Machine.execDcvt h o s
  | .dfma h o => Sys2Proof.Machine.execDfma h o s
  | .xchgIdx h o => Sys2Proof.Machine.execXchgIdx h o s
  | .xchgUp h o => Sys2Proof.Machine.execXchgUp h o s
  | .xchgDown h o => Sys2Proof.Machine.execXchgDown h o s
  | .xchgXor h o => Sys2Proof.Machine.execXchgXor h o s
  | .voteAll h o => Sys2Proof.Machine.execVoteAll h o s
  | .voteAny h o => Sys2Proof.Machine.execVoteAny h o s
  | .voteBallot h o => Sys2Proof.Machine.execVoteBallot h o s
  | .matchB h o => Sys2Proof.Machine.execMatchB h o s
  | .redb h o => Sys2Proof.Machine.execRedb h o s
  | .elect h p => Sys2Proof.Machine.execElect h p s
  | .sread h o => Sys2Proof.Machine.execSread h o s
  | .barArr h o => Sys2Proof.Machine.execBarArr h o s
  | .barWait h o => Sys2Proof.Machine.execBarWait h o s
  | .barSync h o => Sys2Proof.Machine.execBarSync h o s
  | .barInv h o => Sys2Proof.Machine.execBarInv h o s
  | .barInit h o => Sys2Proof.Machine.execBarInit h o s
  | .joinE h j => Sys2Proof.Machine.execJoinE h j s
  | .joinW h j => Sys2Proof.Machine.execJoinW h j s
  | .joinX h j => Sys2Proof.Machine.execJoinX h j s
  | .ld h o => Sys2Proof.Machine.execLd h o s
  | .st h o => Sys2Proof.Machine.execSt h o s
  | .lds h o => Sys2Proof.Machine.execLds h o s
  | .sts h o => Sys2Proof.Machine.execSts h o s
  | .ldf h o => Sys2Proof.Machine.execLdf h o s
  | .fence h o => Sys2Proof.Machine.execFence h o s
  | .lflush h o => Sys2Proof.Machine.execLflush h o s
  | .linv h o => Sys2Proof.Machine.execLinv h o s
  | .atom h o => Sys2Proof.Machine.execAtom h o s
  | .red h o => Sys2Proof.Machine.execRed h o s
  | .ldw h o => Sys2Proof.Machine.execLdw h o s
  | .chk h off => Sys2Proof.Machine.execChk h off s
  | .prf h o => Sys2Proof.Machine.execPrf h o s
  | .rngCommit h o => Sys2Proof.Machine.execRngCommit h o s
  | .strmPos h o => Sys2Proof.Machine.execStrmPos h o s
  | .strmSet h o => Sys2Proof.Machine.execStrmSet h o s
  | .strmEnd h o => Sys2Proof.Machine.execStrmEnd h o s
  | .strmCfg h o => Sys2Proof.Machine.execStrmCfg h o s
  | .waitc h o => Sys2Proof.Machine.execWaitc h o s
  | .ringWait h o => Sys2Proof.Machine.execRingWait h o s
  | .ringRel h o => Sys2Proof.Machine.execRingRel h o s
  | .ringInit h o => Sys2Proof.Machine.execRingInit h o s
  | .cpy h o => Sys2Proof.Machine.execCpy h o s
  | .cpyCol h o => Sys2Proof.Machine.execCpyCol h o s
  | .cpyPl h o => Sys2Proof.Machine.execCpyPl h o s
  | .gangSet h m => Sys2Proof.Machine.execGangSet h m s
  | .gangClr h => Sys2Proof.Machine.execGangClr h s
  | .cmdWait h n => Sys2Proof.Machine.execCmdWait h n s
  | .tileGet h o => Sys2Proof.Machine.execTileGet h o s
  | .accClr h o => Sys2Proof.Machine.execAccClr h o s
  | .tileSet h o => Sys2Proof.Machine.execTileSet h o s
  | .mma h o => Sys2Proof.Machine.execMma h o s
  | .planePack h o => Sys2Proof.Machine.execPlanePack h o s
  | .planeUnpack h o => Sys2Proof.Machine.execPlaneUnpack h o s
  | .accRd h o => Sys2Proof.Machine.execAccRd h o s
  | .accWr h o => Sys2Proof.Machine.execAccWr h o s
  | .cbtLd h o => Sys2Proof.Machine.execCbtLd h o s
  | .trap h n => Sys2Proof.Machine.execTrap h n s
  | .sys h n => Sys2Proof.Machine.execSys h n s
  | .brk h n => Sys2Proof.Machine.execBrk h n s
  | .rte h skip => Sys2Proof.Machine.execRte h skip s
  | .halt h fail => Sys2Proof.Machine.execHalt h fail s
  | .migr h t => Sys2Proof.Machine.execMigr h t s
  | .ctxSave h a => Sys2Proof.Machine.execCtxSave h a s
  | .ctxRest h a => Sys2Proof.Machine.execCtxRest h a s
  | .tlbinv h k => Sys2Proof.Machine.execTlbinv h k s
  | .scrub h a => Sys2Proof.Machine.execScrub h a s
  | .csrRd h o => Sys2Proof.Machine.execCsrRd h o s
  | .csrWr h o => Sys2Proof.Machine.execCsrWr h o s
  | .asyncTrapEntry b n => Sys2Proof.Machine.execAsyncTrapEntry b n s
  | .forcedRelease b n => Sys2Proof.Machine.execForcedRelease b n s
  | .lqdbDoorbell a q v => Sys2Proof.Machine.execLqdbDoorbell a q v s
  | .lqctlEn a q v => Sys2Proof.Machine.execLqctlEn a q v s
  | .lqctlErrClear a q v => Sys2Proof.Machine.execLqctlErrClear a q v s
  | .noopPacket f q => Sys2Proof.Machine.execNoopPacket f q s
  | .launchPacket f q => Sys2Proof.Machine.execLaunchPacket f q s
  | .markerPacket f q => Sys2Proof.Machine.execMarkerPacket f q s
  | .contextUpdatePacket f q => Sys2Proof.Machine.execContextUpdatePacket f q s
  | .markerCompletion lid => Sys2Proof.Machine.execMarkerCompletion lid s
  | .contextUpdate lid => Sys2Proof.Machine.execContextUpdate lid s
  | .blockPlacement => Sys2Proof.Machine.execBlockPlacement s
  | .carveOutChange core carve => Sys2Proof.Machine.execCarveOutChange core carve s
  | .preemption => Sys2Proof.Machine.execPreemption s
  | .blockResume b => Sys2Proof.Machine.execBlockResume b s
  | .blockEnd b => Sys2Proof.Machine.execBlockEnd b s
  | .gridCompletion lid => Sys2Proof.Machine.execGridCompletion lid s
  | .gridFailure lid => Sys2Proof.Machine.execGridFailure lid s
  | .loadRequest p => Sys2Proof.Machine.execLoadRequest p s
  | .loadReply p => Sys2Proof.Machine.execLoadReply p s
  | .storeArrival p => Sys2Proof.Machine.execStoreArrival p s
  | .storeCompletion p => Sys2Proof.Machine.execStoreCompletion p s
  | .recall p => Sys2Proof.Machine.execRecall p s
  | .ownerWriteback p => Sys2Proof.Machine.execOwnerWriteback p s
  | .ownershipGrant p => Sys2Proof.Machine.execOwnershipGrant p s
  | .leaseExpiry core line => Sys2Proof.Machine.execLeaseExpiry core line s
  | .watchCheck p => Sys2Proof.Machine.execWatchCheck p s
  | .watchAnswer p => Sys2Proof.Machine.execWatchAnswer p s
  | .packetDelivery p => Sys2Proof.Machine.execPacketDelivery p s
  | .pageWalk core asid va => Sys2Proof.Machine.execPageWalk core asid va s
  | .prsp a v => Sys2Proof.Machine.execPrsp a v s
  | .flogctlWrite a v => Sys2Proof.Machine.execFlogctlWrite a v s
  | .copySegment b c g => Sys2Proof.Machine.execCopySegment b c g s
  | .copyCompletion b c => Sys2Proof.Machine.execCopyCompletion b c s
  | .collectiveAcceptance b k => Sys2Proof.Machine.execCollectiveAcceptance b k s
  | .commandAcceptance b k => Sys2Proof.Machine.execCommandAcceptance b k s
  | .commandStart b c => Sys2Proof.Machine.execCommandStart b c s
  | .commandRetire b c => Sys2Proof.Machine.execCommandRetire b c s
  | .streamReadahead b n k => Sys2Proof.Machine.execStreamReadahead b n k s
  | .pushRetire b n => Sys2Proof.Machine.execPushRetire b n s
  | .remoteOperation f kind off operand => Sys2Proof.Machine.execRemoteOperation f kind off operand s
  | .remoteCompletion b n ok => Sys2Proof.Machine.execRemoteCompletion b n ok s
  | .replayPlacement sid => Sys2Proof.Machine.execReplayPlacement sid s
  | .holdTimeout sid => Sys2Proof.Machine.execHoldTimeout sid s
  | .loanCycleBreak sids => Sys2Proof.Machine.execLoanCycleBreak sids s
  | .capacityTimeout sid => Sys2Proof.Machine.execCapacityTimeout sid s
  | .cdemFenced core => Sys2Proof.Machine.execCdemFenced core s
  | .coreFailure core => Sys2Proof.Machine.execCoreFailure core s
  | .stackRequest ch => Sys2Proof.Machine.execStackRequest ch s
  | .stackReply ch tag found => Sys2Proof.Machine.execStackReply ch tag found s
  | .dieLinkFlit link good => Sys2Proof.Machine.execDieLinkFlit link good s
  | .solustFlit port seq rx => Sys2Proof.Machine.execSolustFlit port seq rx s
  | .ckpctlSave => Sys2Proof.Machine.execCkpctlSave s
  | .ckpctlRestore => Sys2Proof.Machine.execCkpctlRestore s
  | .checkpointRequestFlit restore tdev image => Sys2Proof.Machine.execCheckpointRequestFlit restore tdev image s
  | .checkpointEnd err => Sys2Proof.Machine.execCheckpointEnd err s
  | .fleetKeyDelivery key => Sys2Proof.Machine.execFleetKeyDelivery key s
  | .hostWindowAccess a => Sys2Proof.Machine.execHostWindowAccess a s
  | .hcwinWrite v => Sys2Proof.Machine.execHcwinWrite v s
  | .keymapWrite p v => Sys2Proof.Machine.execKeymapWrite p v s
  | .firmwareLoad image sig => Sys2Proof.Machine.execFirmwareLoad image sig s
  | .powerUp => Sys2Proof.Machine.execPowerUp s
  | .thermalShutdown => Sys2Proof.Machine.execThermalShutdown s
  | .clockThrottle on => Sys2Proof.Machine.execClockThrottle on s
  | .getVersion => Sys2Proof.Machine.execGetVersion s
  | .getCapabilities => Sys2Proof.Machine.execGetCapabilities s
  | .negotiateAlgorithms => Sys2Proof.Machine.execNegotiateAlgorithms s
  | .getDigests => Sys2Proof.Machine.execGetDigests s
  | .getCertificate => Sys2Proof.Machine.execGetCertificate s
  | .challenge nonce => Sys2Proof.Machine.execChallenge nonce s
  | .getMeasurements nonce => Sys2Proof.Machine.execGetMeasurements nonce s
  | .keyExchange f pub => Sys2Proof.Machine.execKeyExchange f pub s
  | .finish mac => Sys2Proof.Machine.execFinish mac s
  | .endSession => Sys2Proof.Machine.execEndSession s
  | .ideKm stream key => Sys2Proof.Machine.execIdeKm stream key s
  | .lockInterface f policyKey => Sys2Proof.Machine.execLockInterface f policyKey s
  | .interfaceUnlock f error => Sys2Proof.Machine.execInterfaceUnlock f error s
  | .policyDelivery f rec => Sys2Proof.Machine.execPolicyDelivery f rec s
  | .condreq => Sys2Proof.Machine.execCondreq s
  | .conditionReportSpdm nonce => Sys2Proof.Machine.execConditionReportSpdm nonce s
  | .conditionReportFlit port nonce => Sys2Proof.Machine.execConditionReportFlit port nonce s
  | .debugHalt a cmd => Sys2Proof.Machine.execDebugHalt a cmd s
  | .debugResume a cmd => Sys2Proof.Machine.execDebugResume a cmd s
  | .debugStep a cmd => Sys2Proof.Machine.execDebugStep a cmd s
  | .debugReadRegister a cmd => Sys2Proof.Machine.execDebugReadRegister a cmd s
  | .debugWriteRegister a cmd => Sys2Proof.Machine.execDebugWriteRegister a cmd s
  | .lmctlTrack v on => Sys2Proof.Machine.execLmctlTrack v on s
  | .lmctlSnap v => Sys2Proof.Machine.execLmctlSnap v s
  | .lmctlQuiesce v => Sys2Proof.Machine.execLmctlQuiesce v s
  | .quiesceDone v => Sys2Proof.Machine.execQuiesceDone v s
  | .lmctlResume v => Sys2Proof.Machine.execLmctlResume v s
  | .unitRetirement u => Sys2Proof.Machine.execUnitRetirement u s
  | .deviceReset => Sys2Proof.Machine.execDeviceReset s
  | .registerWrite a off v => Sys2Proof.Machine.execRegisterWrite a off v s
  | .releaseWait b n => Sys2Proof.Machine.execReleaseWait b n s
  | .interfaceRun f => Sys2Proof.Machine.execInterfaceRun f s
  | .linkFailure u => Sys2Proof.Machine.execLinkFailure u s

end Sys2Proof.Machine
end

