-- ==== Sys2Proof/Machine/Sched.lean ====
section
/-! DEFINITION. Which agent acts in a step: what a band does in its turn, the order of a core's bands (R32, R172, R181),
the work of the units, and the turn of an agenda. -/

namespace Sys2Proof.Machine

open Sys2Proof

/-! ### A band's turn (R32, R68, R404) -/

/-- What a band's turn comes to. -/
inductive Look where
  | none
  | forced
  | async
  | trap (t : Trap) (pc : DWord) (act : List Nat)
  | loan (sid : Nat) (act : List Nat)
  | reg (pa : Nat)
  | run (i : Instr)
  deriving DecidableEq, Repr

/-- What the bytes at the program counter come to: the instruction that they decode to, or the trap of orders 1 to 4
of R68. -/
def State.lookAt (s : State) (b : Block) (x : Band) (ch : Choice) : Look :=
  match s.fetch b x.inh ch.pc (lowest ch.active) with
  | .trap t => .trap t ch.pc ch.active
  | .loan i => .loan i ch.active
  | .reg pa => .reg pa
  | .bytes w =>
    match decode w with
    | .ok i => .run i
    | .bad _ => .trap { cls := .illop, lane := lowest ch.active } ch.pc ch.active

/-- What a band does next: a forced release, an asynchronous trap, or the instruction of the lanes that R172 chooses. -/
def State.look (s : State) (k n : Nat) : Look :=
  match s.blk k with
  | none => .none
  | some b =>
    match b.band n with
    | none => .none
    | some x =>
      if b.st != .running || x.halted then .none
      else if x.forced.isSome then .forced
      else
        match x.choose with
        | none => .none
        | some ch => if !x.inh && x.dueTrap.isSome then .async else s.lookAt b x ch

/-- The band that acts, its waits looked at. -/
def State.at' (s : State) (k n : Nat) : State := { s with curBlock := k, curBand := n }.settle k n

def LaneSt.isBlocked (st : LaneSt) : Bool :=
  match st with
  | .blocked _ => true
  | .ready | .parked _ | .exited => false

/-- Whether a band is blocked (R170): no lane of it may issue, and one is blocked. -/
def Band.isBlocked (x : Band) : Bool := x.choose.isNone && x.lanes.any fun l => l.st.isBlocked

/-- A cycle in which a band is blocked, for PCNT (R429). -/
def State.countBlocked (s : State) (k n : Nat) : State :=
  match s.blk k with
  | none => s
  | some b => s.modBand k n fun x => if x.isBlocked then x.count (s.dbg b 3) 5 1 else x

/-- A band's turn. -/
def State.bandStep (s : State) (k n : Nat) : Host.Outcome State Fault Refusal :=
  let s := s.at' k n
  match s.look k n with
  | .none => .next s
  | .forced => exec (.forcedRelease k n) s
  | .async => exec (.asyncTrapEntry k n) s
  | .trap t pc act => .next (s.syncTrap k n t pc act)
  | .loan i act => .next (s.blockLanes k n act (.loan i s.time))
  | .reg pa => .refused (.deviceRegister pa)
  | .run i => exec i s

/-! ### The order of a core's bands (R181) -/

/-- A next state, if there is one. -/
def nextOf (o : Host.Outcome State Fault Refusal) : Option State :=
  match o with
  | .next t => some t
  | .fault _ | .refused _ => none

/-- Whether a turn has changed nothing of a band but its marks: its instruction still waits. -/
def Band.sameTurn (x y : Band) : Bool :=
  x.issues == y.issues && x.tstat == y.tstat && x.hold == y.hold && x.halted == y.halted
    && (x.lanes.map fun l => (l.pc, l.st)) == y.lanes.map fun l => (l.pc, l.st)

/-- Whether the unit of an instruction can accept it (R181, R343, R349): its turn would not leave it waiting. -/
def State.accepted (s : State) (k n : Nat) (i : Instr) : Bool :=
  match nextOf (exec i s), (s.blk k).bind fun b => (b.band n).map fun x => (b, x) with
  | some t, some (b, x) =>
    match (t.blk k).bind fun c => (c.band n).map fun y => (c, y) with
    | some (c, y) => c.st != b.st || !x.sameTurn y
    | none => true
  | _, _ => true

/-- Whether a band is ready (R181): it has something to do, its instruction waits for no token and no register, and the unit
that it needs can accept it. -/
def State.bandReady (s : State) (k n : Nat) : Bool :=
  let s := s.at' k n
  match s.look k n with
  | .none => false
  | .run i =>
    match s.blk k, i.hdr? with
    | some b, some h =>
      ((b.band n).map fun x => !x.mustWait b h i && !x.copyHeld (namedRegs b i)).getD false
        && (!accesses b i || s.accepted k n i)
    | _, _ => true
  | .forced | .async | .trap _ _ _ | .loan _ _ | .reg _ => true

/-- The bands of the blocks that run on a core, by block and number. -/
def State.bandsOf (s : State) (core : Nat) : List (Nat × Nat) :=
  (s.blocks.filter fun p => p.2.core == core && p.2.st == .running).flatMap fun p =>
    (List.range p.2.bands.length).map fun n => (p.1, n)

/-- The keys of R181 for a band: the time of its boost, its priority, its ready age, its block's placement. -/
def State.rank (s : State) (p : Nat × Nat) : Option Nat × Nat × Nat × Nat :=
  match s.blk p.1 with
  | none => (none, 0, 0, 0)
  | some b =>
    match b.band p.2 with
    | none => (none, 0, 0, 0)
    | some x => (x.boosted, s.prio b.lid, x.readyAge, b.placed)

/-- Whether a band comes before another, listed after it, in the order of R181. -/
def State.first (s : State) (p q : Nat × Nat) : Bool :=
  match s.rank p, s.rank q with
  | (some i, a, b, c), (some j, d, e, f) => i < j || (i == j && later (a, b, c) (d, e, f))
  | (some _, _, _, _), (none, _, _, _) => true
  | (none, _, _, _), (some _, _, _, _) => false
  | (none, a, b, c), (none, d, e, f) => later (a, b, c) (d, e, f)
where
  /-- Keys 2 to 4. -/
  later (p q : Nat × Nat × Nat) : Bool :=
    decide (q.1 < p.1) || (p.1 == q.1 && (decide (q.2.1 < p.2.1) || (p.2.1 == q.2.1 && decide (p.2.2 ≤ q.2.2))))

/-- The ready bands of a core. -/
def State.readyBands (s : State) (core : Nat) : List (Nat × Nat) := (s.bandsOf core).filter fun p => s.bandReady p.1 p.2

/-- The band that a core issues: the first of its ready bands (R181). -/
def State.pickFrom (s : State) (ready : List (Nat × Nat)) : Option (Nat × Nat) :=
  ready.foldl (fun m p =>
    match m with
    | none => some p
    | some q => if s.first q p then some q else some p) none

/-- A band that waits: its age starts anew, a blocked cycle counts (R429), and so does an interlock on a register that a copy
still writes (R345). A halted band keeps its state (R428). -/
def State.idleBand (s : State) (k n : Nat) : State :=
  match (s.blk k).bind fun b => (b.band n).map fun x => (b, x) with
  | none => s
  | some (b, x) =>
    if x.halted then s
    else
      let t := (s.modBand k n fun x => { x with readyAge := 0, boosted := none }).countBlocked k n
      match s.look k n with
      | .run i => t.markIlk k n b x i
      | .none | .forced | .async | .trap _ _ _ | .loan _ _ | .reg _ => t

/-- The bands of a core after a cycle (R181, R429): the ready ones that do not issue grow older, the others wait. Those that
become boosted do so at the cycle's number, so that the further keys order the ones of a cycle. The band that issues has its
age reset when it completes its instruction. -/
def State.ageBands (s : State) (core : Nat) (ready : List (Nat × Nat)) (pick : Option (Nat × Nat)) : State :=
  (s.bandsOf core).foldl (fun t p =>
    if pick = some p then t
    else if ready.contains p then
      t.modBand p.1 p.2 (fun x => { x with
          readyAge := x.readyAge + 1
          boosted := if x.boosted.isNone && 128 ≤ x.readyAge + 1 then some s.serial else x.boosted })
    else t.idleBand p.1 p.2) { s with serial := s.serial + 1 }

/-- A core's cycle, its ready bands given: it issues the first of them, if there is one. -/
def State.coreCycle (s : State) (core : Nat) (ready : List (Nat × Nat)) : Host.Outcome State Fault Refusal :=
  match s.pickFrom ready with
  | none => .next (s.ageBands core ready none)
  | some (k, n) => (s.ageBands core ready (some (k, n))).bandStep k n

/-- A core's turn. -/
def State.coreStep (s : State) (core : Nat) : Host.Outcome State Fault Refusal := s.coreCycle core (s.readyBands core)

/-- The core that acts when nothing else is said, with its ready bands: the cores that run blocks come one after the other as
time passes, those without a ready band left out. -/
def State.pickCoreNow (s : State) : Option (Nat × List (Nat × Nat)) :=
  let cs := ((s.blocks.filter fun p => p.2.st == .running).map fun p => p.2.core).eraseDups
  (cs.rotateLeft (s.time % max cs.length 1)).findSome? fun c =>
    let r := s.readyBands c
    if r.isEmpty then none else some (c, r)

/-! ### The work of the units -/

/-- The step that a delivered packet asks for. -/
def Pkt.event (q : Pkt) : Instr :=
  match q.msg with
  | .loadReq _ _ _ _ _ _ _ _ _ _ | .engine _ _ _ _ => .loadRequest q.id
  | .loadRep _ _ _ _ _ _ _ _ _ _ _ _ _ _ | .atomRep _ _ _ _ | .ownRep _ _ | .engineRep _ _ => .loadReply q.id
  | .storeReq _ | .atomReq _ => .storeArrival q.id
  | .storeAck _ _ _ _ => .storeCompletion q.id
  | .ownReq _ _ => .ownershipGrant q.id
  | .recall _ _ => .recall q.id
  | .writeback _ _ _ _ _ _ => .ownerWriteback q.id
  | .watchChk _ _ _ _ _ _ => .watchCheck q.id
  | .watchAns _ _ _ _ _ _ => .watchAnswer q.id

/-- The packet that moves next: of those that have a path the one that goes before the others, by the order of R257. -/
def State.nextPkt (s : State) : List Instr :=
  match (s.net.filter fun q => (s.nextHop q).isSome).foldl (fun m q =>
    match m with
    | none => some q
    | some p => if q.before p then some q else some p) (none : Option Pkt) with
  | none => []
  | some q => [.packetDelivery q.id]

/-- What a copy's engines can be asked for: the segments that they hold, then the next one. -/
def Copy.work (k : Nat) (c : Copy) : List Instr :=
  (c.taken.map fun t => Instr.copySegment k c.id t.1)
    ++ ((List.range c.segs).find? c.waitsEngine).toList.map (fun g => .copySegment k c.id g)
    ++ [.copyCompletion k c.id]

/-- What a block's engines can be asked for. -/
def Block.work (k : Nat) (b : Block) : List Instr :=
  b.copies.flatMap (Copy.work k)
    ++ b.cols.map (fun c => .collectiveAcceptance k c.id)
    ++ b.latch.map (fun e => .commandAcceptance k e.key)
    ++ b.cmds.flatMap (fun c => [.commandRetire k c.key, .commandStart k c.key])
    ++ (List.range b.bands.length).flatMap fun n => [.pushRetire k n, .remoteCompletion k n true, .remoteCompletion k n false]

/-- What the stack channels can be asked for. -/
def State.stackWork (s : State) : List Instr :=
  s.channels.flatMap fun c => (c.2.out.map fun r => Instr.stackReply c.1 r.1 0) ++ [.stackRequest c.1]

/-- What the dispatcher can be asked for (R197 to R208). -/
def State.dispatchWork (s : State) : List Instr :=
  (s.blocks.map fun p => Instr.blockEnd p.1) ++ (s.blocks.map fun p => .blockResume p.1)
    ++ (s.grids.flatMap fun g => [.gridFailure g.1, .gridCompletion g.1, .markerCompletion g.1, .contextUpdate g.1])
    ++ (match s.firstItem with
      | none => s.heldDeps.toList.map fun _ => .blockPlacement
      | some i =>
        (match s.tryItem [] i with
          | none => []
          | some t => (s.carveLack t).map fun c => .carveOutChange c.1 c.2)
        ++ (match i with
          | .block _ => [.blockPlacement]
          | .run sid => [.replayPlacement sid]
          | .resume _ => [])
        ++ [.preemption])

/-- What the launch queues can be asked for (R194). -/
def State.queueWork (s : State) : List Instr :=
  s.fns.flatMap fun f => f.2.queues.flatMap fun q =>
    [Instr.noopPacket f.1 q.1, .launchPacket f.1 q.1, .markerPacket f.1 q.1, .contextUpdatePacket f.1 q.1]

/-- What the Conservator can be asked for (R466, R467). -/
def State.checkWork (s : State) : List Instr :=
  let ids := (s.samples.filter fun p => p.2.open').map (·.1)
  ids.flatMap fun a => [.holdTimeout a, .capacityTimeout a] ++ (ids.filter (a < ·)).map fun b => .loanCycleBreak [a, b]

/-- The next part of a quiesce that has been asked for (R511). -/
def State.quiesceWork (s : State) : Option State :=
  s.fns.findSome? fun f =>
    if f.2.lmQuiesce then (nextOf (execLmctlQuiesce f.1 s)).or (nextOf (execQuiesceDone f.1 s)) else none

/-- All that the units can be asked for, in the order in which it is tried. -/
def State.agents (s : State) : List Instr :=
  s.arrived.map Pkt.event ++ s.nextPkt ++ s.stackWork ++ s.blocks.flatMap (fun p => p.2.work p.1) ++ s.dispatchWork
    ++ s.queueWork ++ s.checkWork ++ (if s.pf.condreq then [.condreq] else []) ++ s.hostAsked.map (fun l => .hostWindowAccess ⟨⟨0, false⟩, .writeback l []⟩)

/-- The state after the first work of the units that can be done. -/
def State.doWork (s : State) : Option State :=
  (s.agents.findSome? fun i => nextOf (exec i s)).or s.quiesceWork

/-! ### Turns -/

/-- Whether the dies may lead by the given numbers of ticks, n ticks later (R10): by 2 or less, and the time of none goes
back. -/
def State.leadOk (s : State) (n : Nat) (lead : List Nat) : Bool :=
  lead.length == 6 && lead.all (· ≤ 2) && (List.range 6).all fun d => s.skew.getD d 0 ≤ n + lead.getD d 0

/-- Time passes while the device runs, on a 64-bit counter (R10, R520). What the dies lead by may change with it. DESIGN
CHOICE (log entry 2): the spec bounds the skew and gives no value; a turn of the agenda may name any that the bound allows. -/
def State.clock (s : State) (n : Nat) (lead : List Nat := []) : State :=
  if s.power = .running then
    { s with time := (s.time + n) % 2 ^ 64, skew := if s.leadOk n lead then lead else s.skew }
  else s

/-- The start of a step: time passes, the records made before are written to the fault logs (R411), a full version area
releases a sample (R461, R468), and what has stopped is saved (R419). -/
def State.tick (s : State) (n : Nat) (lead : List Nat := []) : State := (s.clock n lead).flushLogs.versionTrim.saveBlocks

/-- Whether a row can happen in a phase of the device's start (R520): it is held until its firmware is loaded, and its functions
are enabled by the power-up; after a thermal stop a reset alone helps (log entry 53). -/
def Power.admits (p : Power) (i : Instr) : Bool :=
  match p, i with
  | .running, _ | _, .deviceReset | .heldReset, .firmwareLoad _ _ | .firmwareVerified, .powerUp => true
  | _, _ => false

/-- A turn of the agenda. -/
def State.turn (s : State) (a : Act) : Host.Outcome State Fault Refusal :=
  match a with
  | .event i =>
    if i.hdr?.isSome then .refused .noIssuer else if s.power.admits i then exec i s else notNow "power"
  | .core c => if s.power = .running then s.coreStep c else .refused .noIssuer
  | .flaw c l bits => .next (s.setCore c { s.core c with flaws := tset (s.core c).flaws l bits })
  | .fixed n => .next (s.sliceError n)
  | .hostFlit good => .next { s with hostLink := s.hostLink.flit s.hostLink.next good }
  | .wear d day margin stress => .next (s.readWear d day margin stress)
  | .bar f base => .next (s.setBar f base)
  | .sriov n => .next { s with pf := { s.pf with sriov := n } }
  | .reserve f base => .next (s.modFn f fun x => { x with reserve := some base })

/-- A turn when the agenda is empty: the work of the units first, then a core in turn; else time alone passes. -/
def State.freeTurn (s : State) : Host.Outcome State Fault Refusal :=
  match s.doWork with
  | some t => .next t
  | none =>
    match s.pickCoreNow with
    | some (c, ready) => s.coreCycle c ready
    | none => .next s

end Sys2Proof.Machine
end

