-- ==== Sys2Proof/Machine/Boot.lean ====
section
/-! DEFINITION. A running device with one small block whose next instruction is a given word (log entry 1). -/

namespace Sys2Proof.Machine

open Sys2Proof

/-- The packet of the block: one band of 8 lanes, with every kind of resource. -/
def bootPacket (annex : Bool) : Packet :=
  { type := 1, profile := if annex then 2 else 0, kaddr := 0x1000, bandw := 8, nbands := 1, gx := 1, gy := 1, gz := 1
    vregs := 240, uregs := 64, acc := if annex then 0 else 6, scratch := 65536, copyq := 32, rings := 8, streams := 8
    watch := 16, barb := 16, carve := 0x001E_140C }

/-- The context of the block: one range that maps addresses to themselves, with W and X (R260). -/
def bootCtx : Ctx :=
  { fn := 0, desc := 0, ranges := [{ rngb := 1, rngl := 0x60_0000_0000, rngp := 0xC }], dbgen := 0x1F }

/-- The block, on a core; a band in its handler when the instruction is privileged. -/
def bootBlock (core : Nat) (priv : Bool) : Block :=
  let p := bootPacket (isAnnex (coreDie core))
  let x := p.newBand [] 0
  let x := if priv then { x with tstat := 0x0400_0000, tepc := 0x1040, tmask := 0xFF } else x
  { lid := 1, bx := 0, by' := 0, bz := 0, idx := 0, asid := 0, fn := 0, ldie := coreDie core, core, hbase := 0x2000
    bandw := 8, vregs := p.vrounded, uregs := p.urounded, streams := p.streams, accN := p.acc, ringN := p.rings
    copyq := p.copyq, window := p.window, bands := [x], tiles := List.replicate 16 {}, accs := List.replicate p.acc {}
    rings := List.replicate p.rings {}, bars := List.replicate p.barb { members := List.range 8, cnt := 8 }
    cores := [core] }

/-- The grid of the block. -/
def bootGrid (annex : Bool) : Grid :=
  { lid := 1, orig := 1, fn := 0, q := 0, asid := 0, pkt := bootPacket annex, next := 1 }

/-- The core of the block, its boundaries as the packet asks. -/
def bootCore : Core := { vend := 12, send := 20, lend := 30 }

/-- Bytes in memory, and no tag on their codewords, so that every key reads them as they are. -/
def State.bootBytes (s : State) (a : Nat) (bs : List Byte) : State :=
  { s with
    mem := mwrite s.mem a bs
    cw := s.cw.filter fun p => !(a ≤ 32 * p.1 + 31 && 32 * p.1 < a + bs.length) }

/-- Where an instruction of the Teray-A set runs, and whether it needs privileged mode. -/
def bootPlace (w : BitVec 128) : Nat × Bool :=
  match decode w with
  | .ok i => (if onlyA i then 512 else 0, privileged i)
  | .bad _ => (0, false)

/-- A state whose next step runs the instruction with the given bits: the device runs, one block is resident, nothing else
is under way. Number 0 and identifier 1 count as taken. -/
def State.boot (s : State) (bits : BitVec 128) : State :=
  let (core, priv) := bootPlace bits
  { s.bootBytes 0x1000 (leBytes 16 bits.toNat) with
    agenda := [], power := .running, net := [], arrived := [], channels := [], samples := [], homes := [], fns := []
    blocks := [(0, bootBlock core priv)], grids := [(1, bootGrid (isAnnex (coreDie core)))], ctxs := [(0, bootCtx)]
    cores := [(core, bootCore)], serial := s.serial + 1, lastLid := max s.lastLid 1, lastGrid := max s.lastGrid 1
    pf := { s.pf with keymap := tset s.pf.keymap 0 1, dlbud := s.pf.dlbud } }

end Sys2Proof.Machine
end

