-- ==== Sys2Proof/Machine/Step.lean ====
section
/-! DEFINITION. One step of the device: the next turn of the agenda, or, when it is empty, a turn of the device's own
(log entry 2). -/

namespace Sys2Proof.Machine

open Sys2Proof

/-- One step. -/
def step (s : State) : Host.Outcome State Fault Refusal :=
  match s.agenda with
  | t :: rest => ({ s with agenda := rest }.tick t.ticks t.lead).turn t.act
  | [] => if s.power = .running then (s.tick 1).freeTurn else .fault .idle

/-- A state whose next step runs the instruction whose `nbits` low bits are `w` and whose other bits are zero. -/
def State.withFetchWord (s : State) (nbits w : Nat) : State := s.boot (BitVec.ofNat 128 (w % 2 ^ nbits))

end Sys2Proof.Machine
end

