-- ==== Sys2Proof/Safety.lean ====
section
/-! DEFINITION. The terms in which the statements speak of a run: when an instruction issues, what an issue writes
and leaves alone, what one step runs, and the invariants of the state. -/

namespace Sys2Proof.Machine

open Sys2Proof

/-! ### An issue -/

/-- An instruction issues in a state, as the record `y`: no trap of R68, no wait and no stream trap comes first. -/
def Issues (i : Instr) (s : State) (y : Iss) : Prop := prep i s = .go y

/-- The band after the yield marks are cleared where every ready lane is marked (R172). -/
def Band.cleared (x : Band) (ch : Choice) : Band :=
  if ch.clear then { x with lanes := x.lanes.map fun l => { l with yieldMark := false } } else x

/-- The conditions under which an instruction on the current band gets as far as its ports: `x` is the band after the choice
`ch` of R172, `b` its block. They are the decode traps of R68 in their order, then the waits of R35, R49, R245 (bytes that were
asked for), R343 and R345. -/
structure MayIssue (i : Instr) (s : State) (h : Hdr) (b : Block) (x : Band) (ch : Choice) : Prop where
  hdr : i.hdr? = some h
  here : ∃ b₀ x₀, s.blk s.curBlock = some b₀ ∧ b₀.band s.curBand = some x₀ ∧ b₀.st = .running ∧ x₀.halted = false ∧
    x₀.choose = some ch ∧ x = x₀.cleared ch ∧ b = b₀.setBand s.curBand x
  mode : privTrap i x.inh = none
  profile : (onlyA i = true → isAnnex b.die = true) ∧ (onlyG i = true → isAnnex b.die = false)
  aligned : ∀ o ∈ operandsG i, o.misaligned b = false
  inRange : ∀ o ∈ operandsG i, s.beyond b o = false
  timed : x.schk = true → x.stallSkip = false → undersized b x h i = none
  noWait : x.mustWait b h i = false
  noHold : x.holding ch = false
  noCopy : x.copyHeld (namedRegs b i) = false
  room : pushPort b i = none ∨ x.pushesOut.length < counterMax

/-- The conditions under which an instruction that pops no port issues: those of `MayIssue`, and no push of
its own that must stop. -/
structure CanIssue (i : Instr) (s : State) (h : Hdr) (b : Block) (x : Band) (ch : Choice) : Prop
    extends MayIssue i s h b x ch where
  noPop : popPorts b i = []
  toMemory : (s.setBlk s.curBlock b).pushStop s.curBlock s.curBand b x i (x.guarded h ch.active) = none

/-- The band of an issue in a later state. -/
def Iss.bandIn (y : Iss) (t : State) : Band := ((t.blk y.k).bind fun b => b.band y.n).getD y.x

/-- A lane of the issue's band in a later state. -/
def Iss.laneIn (y : Iss) (t : State) (l : Nat) : Lane := (y.bandIn t).lane l

/-- The value at a number after writes in their order. -/
def written {α : Type} (ws : List (Nat × α)) (r : Nat) (v : α) : α :=
  ws.foldl (fun v w => if w.1 = r then w.2 else v) v

/-- Nothing but blocks and samples differs between two states: memory and its keys, homes, caches, the network, channels,
cores, contexts, functions, grids, links, the Conservator's registers, time and the agenda are the same. -/
def State.sameShell (s t : State) : Prop := { t with blocks := s.blocks, samples := s.samples } = s

/-- The bands' registers that no ordinary instruction writes: the trap registers (R406), the modes and masks. -/
def Band.special (x : Band) :
    Word × Word × DWord × DWord × LaneSet × List Word × Word × Word × Word × List LaneSet :=
  (x.tstat, x.tinfo, x.tepc, x.taddr, x.tmask, x.tscr, x.bctl, x.dbgctl, x.pctl, x.enrolled)

/-- The next instruction in line, for every lane (R32). -/
def Iss.inLine (y : Iss) (i : Instr) : Nat → DWord := fun _ => y.pc + BitVec.ofNat 64 (instrBytes i)

/-- What an instruction that only computes has done at its completion: the executing lanes hold what `val` gives them and
nothing else of theirs has changed but the program counter; lanes that do not execute keep their registers; the active
lanes stand where `next` says; FSTAT has gained the conditions (R27, R32 to R36). Nothing else changes but what the band
counts of its own issue, and for a sampled block its record. -/
structure Iss.Wrote (y : Iss) (t : State) (val : Nat → Out) (next : Nat → DWord) : Prop where
  regs : ∀ l ∈ y.ex, ∀ r, r < (y.x.lane l).vregs.length → y.b.isPort r = false →
    (y.laneIn t l).v r = written (val l).v r ((y.x.lane l).v r)
  preds : ∀ l ∈ y.ex, ∀ k, k < 7 → (y.laneIn t l).p k = written (val l).p k ((y.x.lane l).p k)
  idle : ∀ l, l ∉ y.ex → (y.laneIn t l).vregs = (y.x.lane l).vregs ∧ (y.laneIn t l).preds = (y.x.lane l).preds
  goes : ∀ l ∈ y.act, (y.laneIn t l).pc = next l
  still : ∀ l, l ∉ y.act → (y.laneIn t l).pc = (y.x.lane l).pc
  states : ∀ l, (y.laneIn t l).st = (y.x.lane l).st
  uregs : ∀ r, r < y.x.uregs.length →
    (y.bandIn t).u r = written (uniOuts (y.ex.map fun l => (l, val l))) r (y.x.u r)
  fstat : (y.bandIn t).fstat = orConds y.x.fstat (condsOf (y.ex.map fun l => (l, val l)))
  special : (y.bandIn t).special = y.x.special
  bands : ∀ n, n ≠ y.n → ((t.blk y.k).bind fun b => b.band n) = ((y.s.blk y.k).bind fun b => b.band n)
  block : ∃ b, t.blk y.k = some b ∧ { b with bands := y.b.bands, sig := y.b.sig, st := y.b.st } = y.b
  blocks : ∀ k, k ≠ y.k → t.blk k = y.s.blk k
  shell : y.s.sameShell t

/-- What completing an instruction does to a state `u` in which the effect of its own stands: the active lanes go to
`next`, the band counts the issue, and all else is as in `u` (a replay may have departed, which ends its run). -/
structure Iss.Goes (y : Iss) (u t : State) (next : Nat → DWord) : Prop where
  shell : u.sameShell t
  others : ∀ k, k ≠ y.k → t.blk k = u.blk k
  own : ∃ b b' x x', u.blk y.k = some b ∧ t.blk y.k = some b' ∧ { b' with bands := b.bands, st := b.st } = b ∧
    (∀ m, m ≠ y.n → b'.band m = b.band m) ∧ b.band y.n = some x ∧ b'.band y.n = some x' ∧
    (∀ l, x'.lane l = if y.act.contains l then { x.lane l with pc := next l, yieldMark := (x'.lane l).yieldMark }
      else x.lane l) ∧
    x' = { x with lanes := x'.lanes, pcnt := x'.pcnt, sched := x'.sched, latch := x'.latch, ilcnt := x'.ilcnt
                  ilk := false, hold := none, stallSkip := false, readyAge := 0, boosted := none, issues := x.issues + 1
                  halted := x'.halted, stepping := false }

/-- The instruction completes: its effect is the state `u`, and it goes on at the next instruction. -/
def Passes (i : Instr) (s : State) (y : Iss) (u : State) : Prop := ∃ t, exec i s = .next t ∧ y.Goes u t (y.inLine i)

/-- A trap of an issue as the state takes it: nothing of the instruction has its effect (R36). -/
def Traps (i : Instr) (s : State) (y : Iss) (t : Trap) : Prop := exec i s = .next (y.s.syncTrap y.k y.n t y.pc y.act)

/-- An instruction whose destination is a stream port pushes what `g` gives the executing lanes, unless a check of R337
traps first or a loan holds the translation; its other results are written as usual. -/
def Pushes (i : Instr) (s : State) (y : Iss) (g : Nat → Out) : Prop :=
  ∀ port, pushPort y.b i = some port →
    (∀ t, y.s.pushChecks y.b y.x y.pops port y.ex = .error (.trap t) → Traps i s y t) ∧
    (∀ c, y.s.pushChecks y.b y.x y.pops port y.ex = .error (.loan c) →
      exec i s = .next (y.s.blockLanes y.k y.n y.act (.loan c y.s.time))) ∧
    ∀ es, y.s.pushChecks y.b y.x y.pops port y.ex = .ok es →
      let outs := y.ex.map fun l => (l, g l)
      Passes i s y ((y.putOuts outs).doPush y.k y.n port es (pushVals y.b outs))

/-- The instruction completes with the results that `g` gives each executing lane, into registers or into a port. -/
def Writes (i : Instr) (s : State) (y : Iss) (g : Nat → Out) : Prop :=
  (pushPort y.b i = none → ∃ t, exec i s = .next t ∧ y.Wrote t g (y.inLine i)) ∧ Pushes i s y g

/-- The instruction, when it issues, completes with results that `g` gives by lane number. -/
def ComputesFor (i : Instr) (s : State) (y : Iss) (g : Nat → Out) : Prop := Issues i s y → Writes i s y g

/-- The same for results that a lane computes from what it reads. -/
def Computes (i : Instr) (s : State) (y : Iss) (f : Env → Out) : Prop := ComputesFor i s y fun l => f (y.env l)

/-- A branch, when it issues and every target is a multiple of 4, completes: executing lanes with a target stand there,
every other active lane at the next instruction; `g` gives the register writes. -/
def Jumps (i : Instr) (s : State) (y : Iss) (target : Env → Option DWord) (g : Env → Out) : Prop :=
  Issues i s y → (∀ l ∈ y.ex, ∀ a, target (y.env l) = some a → a.extractLsb' 0 2 = 0) →
    ∃ t, exec i s = .next t ∧ y.Wrote t (fun l => g (y.env l)) fun l =>
      if y.ex.contains l then (target (y.env l)).getD (y.inLine i l) else y.inLine i l

/-- The light frame of an instruction whose effect lies outside its lanes' registers: no register, flag, special register or
byte of memory has changed, the active lanes stand where `next` says, and other blocks are as they were. -/
structure Iss.Moved (y : Iss) (t : State) (next : Nat → DWord) : Prop where
  regs : ∀ l, (y.laneIn t l).vregs = (y.x.lane l).vregs ∧ (y.laneIn t l).preds = (y.x.lane l).preds
  goes : ∀ l ∈ y.act, (y.laneIn t l).pc = next l
  still : ∀ l, l ∉ y.act → (y.laneIn t l).pc = (y.x.lane l).pc
  uregs : (y.bandIn t).uregs = y.x.uregs
  fstat : (y.bandIn t).fstat = y.x.fstat
  special : (y.bandIn t).special = y.x.special
  mem : t.mem = y.s.mem
  others : ∀ k, k ≠ y.k → t.blk k = y.s.blk k

/-- What lets a release, a fence or an acquire-release access of a scope go on at once (R279, R288, R471). -/
def Iss.Orders (y : Iss) (k : FKind) (sc : Scope) : Prop :=
  y.ex = [] ∨ ((∀ e ∈ y.x.watch, e.st = .confirmed) ∧ y.s.orderReady y.b y.x k sc = true ∧ y.x.werr = none)

/-- The accesses of an issue's lanes reach memory: aligned, translated, permitted (R304), not in the register space. -/
def Iss.Reaches (y : Iss) (k : AKind) (n : Nat) (as : List (Nat × Nat)) (xs : List LaneX) : Prop :=
  y.reach k n as = .ok xs ∧ ∀ a ∈ xs, isReg a.x.pa = false

/-- A load's lane is served at once with these bytes: all its parts are at hand. -/
def Iss.Served (y : Iss) (unc : Bool) (n : Nat) (a : LaneX) (bs : List Byte) : Prop :=
  ∃ d, y.handAll unc a n = some d ∧ d.bs = bs

/-- Where the bytes at hand of an access within one line come from (R245, R281, R441): a run's snapshot, the core's valid
copy of a cacheable line, or a reply that has come for this issue. -/
def Iss.Source (y : Iss) (unc : Bool) (n : Nat) (a : LaneX) (bs : List Byte) : Prop :=
  if y.b.sid.isSome then bs = y.s.readFor y.b y.x.sigma a.x.kid a.x.pa n
  else
    match if unc || a.x.sc || a.x.nc then none else y.s.l1Valid y.b.core (lineOf a.x.pa) with
    | some c => bs = if c.owned then y.s.rd a.x.kid a.x.pa n else (c.data.drop (a.x.pa % 128)).take n
    | none => ∃ d, y.came ⟨a, a.x.pa, n⟩ = some d ∧ bs = (d.data.drop (a.x.pa - d.pa)).take n

/-- An issue over another state with a band of its own: what a load's translation and order leave it (TLBs, horizon). -/
def Iss.over (y : Iss) (s : State) (x : Band) : Iss := { y.resync s with x := x }

/-- Nothing at a line's home stands before an access of the device itself: no access that has arrived there waits, and neither
the host nor a core holds the line (R246, R247, R502). -/
def State.LineFree (s : State) (line : Nat) : Prop :=
  s.queued line = false ∧ s.hostHeld.contains line = false ∧ (s.home line).owner = none

/-- A completion record can be written now: the fault log holds the records made before it, no loan is in its way and its
line is free (R207, R411, R437). -/
def State.RecordFree (s : State) (f asid : Nat) (p : Packet) : Prop :=
  (s.fn f).flogWait = [] ∧ s.recordLoan f asid p = none ∧ ∀ l, s.recordLine f asid p = some l → s.LineFree l

/-- An instruction delivers the results of a later record `y` of its issue: into registers, or into the port that its
destination names when the port takes them. -/
def Iss.Delivers (y : Iss) (i : Instr) (s : State) (val : Nat → Out) : Prop :=
  (pushPort y.b i = none → ∃ t, exec i s = .next t ∧ y.Wrote t val (y.inLine i)) ∧
  ∀ port es, pushPort y.b i = some port → y.s.pushChecks y.b y.x y.pops port y.ex = .ok es →
    let outs := y.ex.map fun l => (l, val l)
    Passes i s y ((y.putOuts outs).doPush y.k y.n port es (pushVals y.b outs))

end Sys2Proof.Machine
end

