-- ==== Sys2Proof/Certificates/Slice0/Obligations.lean ====
section
/-! DEFINITION. The statements of this slice: what encodings, instructions, traps and the device's own steps do, in the
terms of `Sys2Proof/Safety.lean`. -/

open Sys2Proof Sys2Proof.Machine

/-! ### Encoding -/

/-- Decoding inverts encoding: for every well-formed program instruction, with every operand at every value that its
encoding admits (R43 to R57). -/
def Obligations.DecodeInvertsEncode : Prop :=
  ∀ i : Instr, i.isProgram = true → i.wf = true → decode (encode i) = .ok i

/-- An instruction's value is little-endian: bits [8k+7:8k] stand at byte address + k (R44), and a fetch reads as many bytes
as LEN says; LEN = 3 is refused by name, whatever the other bits are (R43); words of the spec's encodings decode to the
instructions that they stand for. -/
def Obligations.InstructionBytes : Prop :=
  (∀ (s : State) (b : Block) (priv : Bool) (pc : DWord) (lane : Nat) (x : Xl) (w : BitVec 128),
    s.fetchXl b priv pc lane = .ok x → s.fetch b priv pc lane = .bytes w →
    let n := 8 + 4 * ((s.rdByte x.kid x.pa).toNat % 4)
    (∀ k, k < n → w.extractLsb' (8 * k) 8 = s.rdByte x.kid (x.pa + k)) ∧ (∀ k, 8 * n ≤ k → w.getLsbD k = false)) ∧
  (∀ w : BitVec 128, w.extractLsb' 0 2 = 3 → ∃ e, decode w = .bad e) ∧
  decode 0x0006_0504_0005_1150 = .ok (.iadd ⟨4, 5, 1, 2, 2, false⟩ ⟨4, .v 5, .v 6, .s32⟩) ∧
  decode 0x0500_0000_E04E_7004 = .ok (.sys ⟨1, 0, 7, 0, 7, false⟩ 5) ∧
  decode 0x0100_0000_E0CE_7004 = .ok (.rte ⟨1, 0, 7, 0, 7, false⟩ true) ∧
  decode 0x0300_0000_808E_7004 = .ok (.barSync ⟨1, 0, 7, 0, 7, false⟩ ⟨.lit 0, .grid⟩)

/-! ### Reset and steps -/

/-- Right after reset the device is held, no block, grid or context is resident, time is 0, and the physical function's
registers have the values that the spec gives for reset. The values of the spec are the power state (R520), time (R9), DLBUD
(R210), LEASECFG (R249), HCWIN (R501), PWRCAP (R520) and FLOGCTL (R411). The model's choices are: memory that lists nothing and
its canonical form (log entry 6); TDISP in CONFIG_UNLOCKED, policy 0, an empty core, and the key map, whose function 0 alone
has KEYID 0 (log entry 5). -/
def Obligations.ResetState : Prop :=
  State.reset.power = .heldReset ∧ State.reset.time = 0 ∧ State.reset.blocks = [] ∧ State.reset.grids = [] ∧
  State.reset.ctxs = [] ∧ State.reset.mem = [] ∧ Memory.wf State.reset.mem = true ∧ (∀ c, State.reset.core c = {}) ∧
  State.reset.pf.dlbud = [512, 1024, 2048, 4096, 8192, 16384, 32768, 65536] ∧ State.reset.leaseLen = 1024 ∧
  State.reset.pf.hcwin = 0 ∧ State.reset.pf.keymap = [(0, 1)] ∧ State.reset.pf.pwrcap = 2600 ∧
  (∀ f, (State.reset.fn f).tdisp = .configUnlocked ∧ (State.reset.fn f).policy = 0 ∧ (State.reset.fn f).flogCtl = 0)

/-- A step of a running device whose agenda names a core issues the first band of the core in the order of R181: when the
bytes at the band's program counter decode to an instruction, and neither a forced release nor an asynchronous trap comes
first, the step is `exec` of that instruction in the state whose band has been chosen, whose waits have been looked at and
whose core's bands have aged (log entry 2). -/
def Obligations.StepRunsDecoded : Prop :=
  ∀ (s : State) (rest : List Turn) (ticks c k n : Nat) (lead : List Nat) (b : Block) (x : Band) (ch : Choice)
    (w : BitVec 128) (i : Instr) (u v : State),
    s.agenda = ⟨ticks, .core c, lead⟩ :: rest → s.power = .running → u = { s with agenda := rest }.tick ticks lead →
    u.pickFrom (u.readyBands c) = some (k, n) → v = (u.ageBands c (u.readyBands c) (some (k, n))).at' k n →
    v.blk k = some b → b.band n = some x → b.st = .running → x.halted = false → x.forced = none →
    x.choose = some ch → x.inh = true ∨ x.dueTrap = none →
    v.fetch b x.inh ch.pc (lowest ch.active) = .bytes w → decode w = .ok i →
    step s = exec i v

/-- A step whose agenda names an event that the phase of the device's start admits (R520) executes it with the state that its
ticks leave. With an empty agenda a running device
does, one tick later, the first work of its units that can be done; when there is none, a core in turn issues (the
agenda and this default schedule are the model's choice, log entry 2). A tick moves the chip time on; the dies stay within
2 ticks, and the time of none goes back (R10). -/
def Obligations.StepRunsEvents : Prop :=
  (∀ (s : State) (rest : List Turn) (ticks : Nat) (lead : List Nat) (i : Instr),
    s.agenda = ⟨ticks, .event i, lead⟩ :: rest → i.isProgram = false → s.power.admits i = true →
    step s = exec i ({ s with agenda := rest }.tick ticks lead)) ∧
  (∀ s : State, s.agenda = [] → s.power = .running →
    (∀ t, (s.tick 1).doWork = some t → step s = .next t) ∧
    (∀ c ready, (s.tick 1).doWork = none → (s.tick 1).pickCoreNow = some (c, ready) → step s = (s.tick 1).coreStep c)) ∧
  (∀ (s : State) (n : Nat) (lead : List Nat), s.power = .running → s.time + n < 2 ^ 64 →
    (s.tick n lead).time = s.time + n ∧ ((∀ d ∈ s.skew, d ≤ 2) → ∀ d ∈ (s.tick n lead).skew, d ≤ 2) ∧
    (s.leadOk n lead = true → (s.tick n lead).skew = lead ∧
      ∀ d, d < 6 → s.time + s.skew.getD d 0 ≤ (s.tick n lead).time + (s.tick n lead).skew.getD d 0))

/-! ### Issue -/

/-- An instruction that no trap of R68 and no wait stops issues, with the lanes of R172 whose guard is true. The active lanes
of R172 are ready lanes of the pool at its lowest program counter, and all of them. -/
def Obligations.ReadyInstructionIssues : Prop :=
  (∀ (i : Instr) (s : State) (h : Hdr) (b : Block) (x : Band) (ch : Choice), CanIssue i s h b x ch →
      ∃ y, Issues i s y ∧ y.k = s.curBlock ∧ y.n = s.curBand ∧ y.b = b ∧ y.pc = ch.pc ∧ y.act = ch.active ∧
        y.ex = ch.active.filter (fun l => (x.lane l).p h.pred.toNat != h.pneg) ∧ y.x.lanes = x.lanes ∧
        y.x.uregs = x.uregs ∧ y.x.fstat = x.fstat ∧ y.x.special = x.special ∧ y.s = s.setBlk s.curBlock b) ∧
  (∀ (x : Band) (ch : Choice), x.choose = some ch →
      (∀ l, l ∈ ch.active ↔ l ∈ x.pool ∧ (x.lane l).pc = ch.pc) ∧ (∀ l ∈ x.pool, ch.pc ≤ (x.lane l).pc) ∧
      (∀ l ∈ x.pool, (x.lane l).st = .ready ∧ (x.inh = true → x.tmask.getLsbD l = true)) ∧ ch.active ≠ [])

/-- Traps of decode in the order of R68 (R18, R53, R62, R67, R412): a privileged instruction outside the handler raises ILLOP,
cause 1, before anything else; an instruction of the other profile migrates its block, as MIGR; a misaligned register pair or
quad raises ILLOP; a register operand beyond its allocation raises REGIDX; under SCHK a wait that is too short raises STALL. The
operand found first is recorded, at the lowest active lane. -/
def Obligations.DecodeTraps : Prop :=
  (∀ (i : Instr) (s : State) (h : Hdr) (b : Block) (x : Band) (ch : Choice),
      privileged i = true → i.hdr? = some h → s.blk s.curBlock = some b → b.band s.curBand = some x → b.st = .running →
      x.halted = false → x.inh = false → x.choose = some ch →
      exec i s = .next ((s.setBlk s.curBlock (b.setBand s.curBand (x.cleared ch))).syncTrap s.curBlock s.curBand
        { cls := .illop, cause := 1, lane := lowest ch.active } ch.pc ch.active)) ∧
  (∀ (i : Instr) (s : State) (h : Hdr) (b : Block) (x x' : Band) (b' : Block) (ch : Choice),
      i.hdr? = some h → s.blk s.curBlock = some b → b.band s.curBand = some x → b.st = .running → x.halted = false →
      x.choose = some ch → x' = x.cleared ch → b' = b.setBand s.curBand x' → privTrap i x'.inh = none →
      let t := s.setBlk s.curBlock b'
      let traps (e : Trap) : Prop :=
        exec i s = .next (t.syncTrap s.curBlock s.curBand { e with lane := lowest ch.active } ch.pc ch.active)
      ((onlyA i = true ∧ isAnnex b.die = false) ∨ (onlyG i = true ∧ isAnnex b.die = true) →
        exec i s = .next (t.migrate s.curBlock s.curBand (onlyA i) { cls := .migr, lane := lowest ch.active })) ∧
      ((onlyA i = true → isAnnex b.die = true) → (onlyG i = true → isAnnex b.die = false) →
        (∀ o, (operandsG i).find? (Opnd.misaligned b') = some o → traps { cls := .illop, opnd := o.pos }) ∧
        ((∀ o ∈ operandsG i, o.misaligned b' = false) →
          (∀ o, (operandsG i).find? (t.beyond b') = some o → traps { cls := .regidx, opnd := o.pos }) ∧
          ((∀ o ∈ operandsG i, t.beyond b' o = false) → x'.schk = true → x'.stallSkip = false →
            ∀ e, undersized b' x' h i = some e → traps e ∧ e.cls = .stall))))

/-! ### Integer, logic and bit instructions -/

/-- Integer arithmetic (R126): each executing lane writes the value of the formula, truncated to the type's width and
extended by its sign. Saturating forms raise SAT where they clamp (R83, R122). For the 32-bit and 64-bit types `iadd`,
`isub` and `imul` are arithmetic modulo 2^n of the registers' bits, signed or not. -/
def Obligations.IntegerResults : Prop :=
  (∀ (t : IType) (a b : Word), t = .s32 ∨ t = .z32 →
    (iop .add t (a.setWidth 64) (b.setWidth 64)).setWidth 32 = a + b ∧
    (iop .sub t (a.setWidth 64) (b.setWidth 64)).setWidth 32 = a - b ∧
    (iop .mul t (a.setWidth 64) (b.setWidth 64)).setWidth 32 = a * b) ∧
  (∀ (t : IType) (a b : DWord), t = .s64 ∨ t = .z64 →
    iop .add t a b = a + b ∧ iop .sub t a b = a - b ∧ iop .mul t a b = a * b) ∧
  ∀ (h : Hdr) (s : State) (y : Iss),
    (∀ o : Int2,
      let w (f : Int → Int → Int) : Env → Out := fun e =>
        .vW o.t.w64 o.d (ires o.t (f (ival o.t (e.srcW o.t.w64 o.a)) (ival o.t (e.srcW o.t.w64 o.b))))
      Computes (.iadd h o) s y (w fun a b => a + b) ∧ Computes (.isub h o) s y (w fun a b => a - b) ∧
      Computes (.imul h o) s y (w fun a b => a * b) ∧
      Computes (.imulh h o) s y (w fun a b => a * b / (2 : Int) ^ o.t.bits) ∧
      Computes (.imin h o) s y (w min) ∧ Computes (.imax h o) s y (w max)) ∧
    (∀ o : IntI,
      let w (f : Int → Int → Int) : Env → Out := fun e =>
        .vW o.t.w64 o.d (ires o.t (f (ival o.t (e.srcW o.t.w64 o.a)) (ival o.t (immI o.t o.imm))))
      Computes (.iaddImm h o) s y (w fun a b => a + b) ∧ Computes (.isubImm h o) s y (w fun a b => a - b) ∧
      Computes (.imulImm h o) s y (w fun a b => a * b) ∧ Computes (.iminImm h o) s y (w min) ∧
      Computes (.imaxImm h o) s y (w max)) ∧
    (∀ o : Int1,
      let w (f : Int → Int) : Env → Out := fun e => .vW o.t.w64 o.d (ires o.t (f (ival o.t (e.srcW o.t.w64 o.a))))
      Computes (.ineg h o) s y (w fun a => -a) ∧ Computes (.iabs h o) s y (w fun a => |a|)) ∧
    (∀ o : Int2,
      let w (f : Int → Int → Int) : Env → Out := fun e =>
        let x := f (ival o.t (e.srcW o.t.w64 o.a)) (ival o.t (e.srcW o.t.w64 o.b))
        let lo : Int := if o.t.sg then -(2 : Int) ^ (o.t.bits - 1) else 0
        let hi : Int := if o.t.sg then (2 : Int) ^ (o.t.bits - 1) - 1 else (2 : Int) ^ o.t.bits - 1
        .vW o.t.w64 o.d (ires o.t (if x < lo then lo else if hi < x then hi else x))
          (if x < lo ∨ hi < x then Conds.sat else 0)
      Computes (.iaddsat h o) s y (w fun a b => a + b) ∧ Computes (.isubsat h o) s y (w fun a b => a - b)) ∧
    (∀ o : Int3,
      let v (e : Env) (x : DWord) : Int := ival o.t x
      Computes (.imad h o) s y (fun e => .vW o.t.w64 o.d (ires o.t
        (v e (e.srcW o.t.w64 o.a) * v e (e.srcW o.t.w64 o.b) + v e (e.vW o.t.w64 o.c)))) ∧
      Computes (.iclamp h o) s y (fun e =>
        let a := v e (e.srcW o.t.w64 o.a)
        let lo := v e (e.srcW o.t.w64 o.b)
        let hi := v e (e.vW o.t.w64 o.c)
        .vW o.t.w64 o.d (ires o.t (if a < lo then lo else if hi < a then hi else a))) ∧
      Computes (.imadw h o) s y (fun e =>
        .v64 o.d (iresN o.t.sg 64 (ival o.t ((e.src o.a).setWidth 64) * ival o.t ((e.src o.b).setWidth 64)
          + ((e.v64 o.c).toNat : Int)))))

/-- Division (R127): the quotient truncated toward zero and the remainder, with the results for a zero divisor and for the most
negative value by −1. No operands raise a trap or a condition, and a nonzero remainder has the sign of a. -/
def Obligations.DivisionResults : Prop :=
  (∀ (h : Hdr) (s : State) (y : Iss),
    let q (t : IType) (a b : Int) : Int := if b = 0 then (if t.sg then -1 else (2 : Int) ^ t.bits - 1) else a.tdiv b
    let r (a b : Int) : Int := if b = 0 then a else a - b * a.tdiv b
    (∀ o : Int2,
      let w (f : Int → Int → Int) : Env → Out := fun e =>
        .vW o.t.w64 o.d (ires o.t (f (ival o.t (e.srcW o.t.w64 o.a)) (ival o.t (e.srcW o.t.w64 o.b))))
      Computes (.idiv h o) s y (w (q o.t)) ∧ Computes (.irem h o) s y (w r)) ∧
    (∀ o : IntI,
      let w (f : Int → Int → Int) : Env → Out := fun e =>
        .vW o.t.w64 o.d (ires o.t (f (ival o.t (e.srcW o.t.w64 o.a)) (ival o.t (immI o.t o.imm))))
      Computes (.idivImm h o) s y (w (q o.t)) ∧ Computes (.iremImm h o) s y (w r))) ∧
  (∀ t : IType, t.sg = true → let m : Int := -(2 : Int) ^ (t.bits - 1)
    ival t (ires t (m.tdiv (-1))) = m ∧ ival t (ires t (m - -1 * m.tdiv (-1))) = 0) ∧
  (∀ (t : IType) (v : Int), ival t (ires t v) % (2 : Int) ^ t.bits = v % (2 : Int) ^ t.bits) ∧
  (∀ a b : Int, b ≠ 0 → a - b * a.tdiv b ≠ 0 → (0 < a - b * a.tdiv b ↔ 0 < a))

/-- Logic, shifts and bit operations (R130 to R135): the value written, for 32 or 64 bits. A shift count of n or more gives 0,
or the sign for `sar`; rotates take the count modulo n. -/
def Obligations.LogicResults : Prop :=
  ∀ (h : Hdr) (s : State) (y : Iss),
    (∀ o : Log2,
      let w (f : DWord → DWord → DWord) : Env → Out := fun e =>
        .vW o.w64 o.d (cut o.w64 (f (e.srcW o.w64 o.a) (e.srcW o.w64 o.b)))
      Computes (.and h o) s y (w fun a b => a &&& b) ∧ Computes (.or h o) s y (w fun a b => a ||| b) ∧
      Computes (.xor h o) s y (w fun a b => a ^^^ b) ∧ Computes (.andn h o) s y (w fun a b => a &&& ~~~b)) ∧
    (∀ o : LogI,
      let w (f : DWord → DWord → DWord) : Env → Out := fun e =>
        .vW o.w64 o.d (cut o.w64 (f (e.srcW o.w64 o.a) (o.imm.signExtend 64)))
      Computes (.andImm h o) s y (w fun a b => a &&& b) ∧ Computes (.orImm h o) s y (w fun a b => a ||| b) ∧
      Computes (.xorImm h o) s y (w fun a b => a ^^^ b)) ∧
    (∀ o : Log1,
      let n : Nat := if o.w64 then 64 else 32
      let w (f : DWord → Nat) : Env → Out := fun e => .v32 o.d (BitVec.ofNat 32 (f (e.srcW o.w64 o.a)))
      Computes (.not h o) s y (fun e => .vW o.w64 o.d (cut o.w64 (~~~(e.srcW o.w64 o.a)))) ∧
      Computes (.brev h o) s y (fun e => .vW o.w64 o.d (if o.w64 then (e.srcW true o.a).reverse
        else ((e.srcW false o.a).setWidth 32).reverse.setWidth 64)) ∧
      Computes (.popc h o) s y (w fun a => ((List.range n).filter fun i => a.getLsbD i).length) ∧
      Computes (.clz h o) s y (w fun a => ((List.range n).reverse.takeWhile fun i => !a.getLsbD i).length) ∧
      Computes (.ctz h o) s y (w fun a => ((List.range n).takeWhile fun i => !a.getLsbD i).length)) ∧
    (∀ o : Bin,
      Computes (.bperm h o) s y (fun e => .v32 o.d (bperm (e.src64 o.a) (e.src o.b))) ∧
      Computes (.clmulLo h o) s y (fun e => .v64 o.d (clmul false (e.src64 o.a) (e.src64 o.b))) ∧
      Computes (.clmulHi h o) s y (fun e => .v64 o.d (clmul true (e.src64 o.a) (e.src64 o.b)))) ∧
    (∀ o, Computes (.lop3 h o) s y fun e =>
      .vW o.w64 o.d (lop3 o.w64 o.lut (e.srcW o.w64 o.a) (e.srcW o.w64 o.b) (e.vW o.w64 o.c))) ∧
    (∀ o, Computes (.fsh h o) s y fun e => .v32 o.d (fsh o.right (e.src o.a) (e.src o.b) (e.v o.c))) ∧
    (∀ o, Computes (.bfe h o) s y fun e => .vW o.t.w64 o.d (bfe o.t o.pos o.len (e.srcW o.t.w64 o.a))) ∧
    (∀ o, Computes (.bfi h o) s y fun e => .vW o.w64 o.d (bfi o.w64 o.pos o.len (e.srcW o.w64 o.a) (e.srcW o.w64 o.b))) ∧
    (let shl : (n : Nat) → BitVec n → Nat → BitVec n := fun n a c => if n ≤ c then 0 else a <<< c
    let shr : (n : Nat) → BitVec n → Nat → BitVec n := fun n a c => if n ≤ c then 0 else a >>> c
    let sar : (n : Nat) → BitVec n → Nat → BitVec n := fun n a c => a.sshiftRight (min c n)
    let rol : (n : Nat) → BitVec n → Nat → BitVec n := fun _ a c => a.rotateLeft c
    let ror : (n : Nat) → BitVec n → Nat → BitVec n := fun _ a c => a.rotateRight c
    let at' (f : (n : Nat) → BitVec n → Nat → BitVec n) (w64 : Bool) (a : DWord) (c : Word) : DWord :=
      if w64 then f 64 a c.toNat else (f 32 (a.setWidth 32) c.toNat).setWidth 64
    (∀ o : Log2,
      let w (f : (n : Nat) → BitVec n → Nat → BitVec n) : Env → Out := fun e =>
        .vW o.w64 o.d (at' f o.w64 (e.srcW o.w64 o.a) (e.src o.b))
      Computes (.shl h o) s y (w shl) ∧ Computes (.shr h o) s y (w shr) ∧ Computes (.sar h o) s y (w sar) ∧
      Computes (.rol h o) s y (w rol) ∧ Computes (.ror h o) s y (w ror)) ∧
    (∀ o : LogI,
      let w (f : (n : Nat) → BitVec n → Nat → BitVec n) : Env → Out := fun e =>
        .vW o.w64 o.d (at' f o.w64 (e.srcW o.w64 o.a) o.imm)
      Computes (.shlImm h o) s y (w shl) ∧ Computes (.shrImm h o) s y (w shr) ∧ Computes (.sarImm h o) s y (w sar) ∧
      Computes (.rolImm h o) s y (w rol) ∧ Computes (.rorImm h o) s y (w ror)))

/-- The bit functions bit by bit (R131 to R135): `lop3` looks each triple of bits up in its table, `fsh` takes 32 bits of
the pair, `bfe` and `bfi` move a field that lies in the width, `bperm` selects bytes, `clmul` is the product of polynomials
over GF(2). -/
def Obligations.BitFunctions : Prop :=
  (∀ (w64 : Bool) (t : BitVec 8) (a b c : DWord) (i : Nat), i < (if w64 then 64 else 32) →
    (lop3 w64 t a b c).getLsbD i =
      t.getLsbD (4 * (a.getLsbD i).toNat + 2 * (b.getLsbD i).toNat + (c.getLsbD i).toNat)) ∧
  (∀ (a b c : Word) (i : Nat), i < 32 →
    (fsh true a b c).getLsbD i = (a ++ b).getLsbD (c.toNat % 32 + i) ∧
    (fsh false a b c).getLsbD i = (a ++ b).getLsbD (32 + i - c.toNat % 32)) ∧
  (∀ (t : IType) (pos len : BitVec 8) (a : DWord) (i : Nat), 0 < len.toNat → pos.toNat + len.toNat ≤ t.bits →
    (t = .s32 ∨ t = .z32 ∨ t = .s64 ∨ t = .z64) → i < t.bits →
    (bfe t pos len a).getLsbD i = if i < len.toNat then a.getLsbD (pos.toNat + i)
      else (t.sg && a.getLsbD (pos.toNat + len.toNat - 1))) ∧
  (∀ (w64 : Bool) (pos len : BitVec 8) (a b : DWord) (i : Nat), i < (if w64 then 64 else 32) →
    (bfi w64 pos len a b).getLsbD i = if pos.toNat ≤ i ∧ i < pos.toNat + len.toNat then a.getLsbD (i - pos.toNat)
      else b.getLsbD i) ∧
  (∀ (a : DWord) (b : Word) (i : Nat), i < 4 →
    (bperm a b).extractLsb' (8 * i) 8 = if b.getLsbD (4 * i + 3) then 0
      else a.extractLsb' (8 * (b.extractLsb' (4 * i) 3).toNat) 8) ∧
  (∀ (a b : DWord) (i : Nat), i < 128 →
    (if i < 64 then (clmul false a b).getLsbD i else (clmul true a b).getLsbD (i - 64)) =
      (List.range 64).foldl (fun r j => r ^^ (b.getLsbD j && decide (j ≤ i) && a.getLsbD (i - j))) false)

/-- Comparisons write one predicate of each executing lane (R128, R154). -/
def Obligations.CompareResults : Prop :=
  ∀ (h : Hdr) (s : State) (y : Iss),
    let holds (c : ICond) (a b : Int) : Bool := match c with
      | .eq => a == b
      | .ne => a != b
      | .lt => decide (a < b)
      | .le => decide (a ≤ b)
      | .gt => decide (b < a)
      | .ge => decide (b ≤ a)
    (∀ o, Computes (.icmp h o) s y fun e =>
      .pr o.p (holds o.cc (ival o.t (e.srcW o.t.w64 o.a)) (ival o.t (e.srcW o.t.w64 o.b)))) ∧
    (∀ o, Computes (.icmpImm h o) s y fun e =>
      .pr o.p (holds o.cc (ival o.t (e.srcW o.t.w64 o.a)) (ival o.t (immI o.t o.imm)))) ∧
    (∀ o, Computes (.fcmp h o) s y fun e =>
      let r := fcmpB .f32 o.cc o.ftz o.sig (e.src o.a).toNat (e.src o.b).toNat
      .pr o.p r.val r.cs) ∧
    (∀ o, Computes (.fcmpImm h o) s y fun e =>
      let r := fcmpB .f32 o.cc o.ftz o.sig (e.src o.a).toNat o.imm.toNat
      .pr o.p r.val r.cs) ∧
    (∀ o, Computes (.dcmp h o) s y fun e =>
      let r := fcmpB .f64 o.cc o.ftz o.sig (e.src64 o.a).toNat (e.src64 o.b).toNat
      .pr o.p r.val r.cs)

/-! ### Predicates, moves, selection, address -/

/-- Predicates (R17, R140): p7 reads as true and a write to it is discarded; each executing lane of a predicate instruction
writes its destination, p7 among them, and no trap arises. -/
def Obligations.PredicateResults : Prop :=
  (∀ (l : Lane) (b : Bool), l.p 7 = true ∧ (l.setP 7 b) = l ∧
      ∀ k q, k < 7 → q < 7 → (l.setP k b).p q = if q = k then b else l.p q) ∧
  (∀ (h : Hdr) (s : State) (y : Iss),
      (∀ o : PLog,
        let w (f : Bool → Bool → Bool) : Env → Out := fun e => .pr o.d (f (e.p o.a != o.na) (e.p o.b != o.nb))
        Computes (.pand h o) s y (w fun a b => a && b) ∧ Computes (.por h o) s y (w fun a b => a || b) ∧
        Computes (.pxor h o) s y (w fun a b => a != b)) ∧
      (∀ o, Computes (.pnot h o) s y fun e => .pr o.d (!e.p o.a)) ∧
      (∀ d, Computes (.p2v h d) s y fun e =>
        .v32 d (BitVec.ofNat 32 (((List.range 8).map fun k => if e.ln.p k then 2 ^ k else 0).sum))) ∧
      (∀ o : V2p, Computes (.v2p h o) s y fun e =>
        { p := ((List.range 7).filter fun k => o.mask.getLsbD k).map fun k => (k, (e.v o.a).getLsbD k) }))

/-- Moves, selection and address arithmetic (R129, R136, R139). A uniform destination takes the lowest executing lane's
value (R137). An indexed move whose computed index is out of range in a lane raises REGIDX, cause 1, at the lowest such
lane, and writes nothing (R138). -/
def Obligations.MoveResults : Prop :=
  (∀ (h : Hdr) (s : State) (y : Iss),
      (∀ o : Mov, Computes (.mov h o) s y fun e => .dst o.d o.w64 (e.srcW o.w64 o.a)) ∧
      (∀ o : Movi, Computes (.movi h o) s y fun _ => .dst o.d false (o.imm.setWidth 64)) ∧
      (∀ o : Movw, Computes (.movw h o) s y fun _ => .dst o.d true o.imm) ∧
      (∀ o : Isel, Computes (.isel h o) s y fun e =>
        .vW o.w64 o.d (if e.p o.ps != o.pn then e.srcW o.w64 o.a else e.srcW o.w64 o.b)) ∧
      (∀ o : IselI, Computes (.iselImm h o) s y fun e => .v32 o.d (if e.p o.ps != o.pn then e.src o.a else o.imm)) ∧
      (∀ o : Lea, Computes (.lea h o) s y fun e =>
        .vW o.w64 o.d (cut o.w64 (e.srcW o.w64 o.base
          + ((if o.sx then (e.src o.idx).signExtend 64 else (e.src o.idx).setWidth 64) <<< o.sh.toNat)
          + o.disp.signExtend 64))) ∧
      (∀ o : MovRd, (∀ l ∈ y.ex, y.b.badIndex ((y.env l).src o.k) = false) →
        Computes (.movIndexedRead h o) s y fun e => .dst o.d false ((e.ln.v (e.src o.k).toNat).setWidth 64)) ∧
      (∀ o : MovWr, (∀ l ∈ y.ex, y.b.badIndex ((y.env l).v o.k) = false) →
        Computes (.movIndexedWrite h o) s y fun e => { v := [((e.v o.k).toNat, e.src o.a)] })) ∧
  (∀ (h : Hdr) (s : State) (y : Iss) (l : Nat),
      (∀ o : MovRd, Issues (.movIndexedRead h o) s y →
        y.ex.find? (fun l => y.b.badIndex ((y.env l).src o.k)) = some l →
        Traps (.movIndexedRead h o) s y { cls := .regidx, cause := 1, lane := l, opnd := 2 }) ∧
      (∀ o : MovWr, Issues (.movIndexedWrite h o) s y →
        y.ex.find? (fun l => y.b.badIndex ((y.env l).v o.k)) = some l →
        Traps (.movIndexedWrite h o) s y { cls := .regidx, cause := 1, lane := l, opnd := 1 }))

/-! ### Control flow -/

/-- Control flow (R142 to R146, R171). `nop` and `yield` change no register; `yield` marks the executing lanes. Each executing
lane of a branch goes on at its target; `call` links the next instruction; `dbra` counts its register down and jumps
until it is 0. A target that is no multiple of 4 in a lane raises FETCHALIGN, cause 1, at the lowest such lane. -/
def Obligations.ControlFlow : Prop :=
  (∀ (h : Hdr) (s : State) (y : Iss),
      (∀ i, i = .nop64 h ∨ i = .nop96 h ∨ i = .nop128 h ∨ i = .yield h → Issues i s y →
        ∃ t, exec i s = .next t ∧ y.Wrote t (fun _ => {}) (y.inLine i) ∧
          ∀ l ∈ y.ex, (y.laneIn t l).yieldMark = ((y.x.lane l).yieldMark || decide (i = .yield h)))) ∧
  (∀ (h : Hdr) (s : State) (y : Iss),
      (∀ off, Jumps (.bra h off) s y (fun _ => some (y.pc + off.signExtend 64)) (fun _ => {})) ∧
      (∀ o, Jumps (.call h o) s y (fun _ => some (y.pc + o.off.signExtend 64)) (fun _ => .v64 o.d (y.pc + 12))) ∧
      (∀ o, Jumps (.dbra h o) s y
        (fun e => if e.v o.d - 1 = 0 then none else some (y.pc + o.off.signExtend 64)) (fun e => .v32 o.d (e.v o.d - 1))) ∧
      (∀ a, Jumps (.ret h a) s y (fun e => some (e.src64 a)) (fun _ => {})) ∧
      (∀ a, Jumps (.brx h a) s y (fun e => some (e.src64 a)) (fun _ => {}))) ∧
  (∀ (h : Hdr) (s : State) (y : Iss) (i : Instr) (target : Env → Option DWord) (l : Nat) (a : DWord),
    (∃ off, i = .bra h off ∧ target = fun _ => some (y.pc + off.signExtend 64)) ∨
    (∃ o : CallOp, i = .call h o ∧ target = fun _ => some (y.pc + o.off.signExtend 64)) ∨
    (∃ o : CallOp, i = .dbra h o ∧ target = fun e => if e.v o.d - 1 = 0 then none else some (y.pc + o.off.signExtend 64)) ∨
    (∃ r, (i = .ret h r ∨ i = .brx h r) ∧ target = fun e => some (e.src64 r)) →
    Issues i s y → y.ex.find? (fun l => ((target (y.env l)).getD 0).extractLsb' 0 2 != 0) = some l → target (y.env l) = some a →
    Traps i s y { cls := .fetchalign, cause := 1, lane := l, addr := a })

/-! ### Floating point -/

/-- FP32 and FP64 arithmetic and its functions (R150 to R153, R155 to R157): each executing lane rounds the operation of its
operands once, in the mode of the instruction, and raises its conditions. That the series by which the model computes the
transcendental functions (`fexp2`, `flog2`, `ftrig`) are exact enough for the one rounding of R96 is the model's reading (log
entry 10). -/
def Obligations.FloatResults : Prop :=
  ∀ (h : Hdr) (s : State) (y : Iss),
    let r32 (d : BitVec 8) (r : Res Nat) : Out := .v32 d (BitVec.ofNat 32 r.val) r.cs
    let r64 (d : BitVec 8) (r : Res Nat) : Out := .v64 d (BitVec.ofNat 64 r.val) r.cs
    let a32 (e : Env) (a : Src) : FV := fval .f32 (e.src a).toNat
    let a64 (e : Env) (a : Src) : FV := fval .f64 (e.src64 a).toNat
    let md (e : Env) (r : Rnd) : RMode := modeOf e.x.fstat r
    (∀ o : F2,
      Computes (.fadd h o) s y (fun e => r32 o.d (fadd .f32 (md e o.rnd) o.ftz ((a32 e o.a).neg o.na) ((a32 e o.b).neg o.nb))) ∧
      Computes (.fsub h o) s y (fun e => r32 o.d (fadd .f32 (md e o.rnd) o.ftz ((a32 e o.a).neg o.na) ((a32 e o.b).neg (!o.nb)))) ∧
      Computes (.fmul h o) s y (fun e => r32 o.d (fmul .f32 (md e o.rnd) o.ftz ((a32 e o.a).neg o.na) ((a32 e o.b).neg o.nb))) ∧
      Computes (.dadd h o) s y (fun e => r64 o.d (fadd .f64 (md e o.rnd) o.ftz ((a64 e o.a).neg o.na) ((a64 e o.b).neg o.nb))) ∧
      Computes (.dmul h o) s y (fun e => r64 o.d (fmul .f64 (md e o.rnd) o.ftz ((a64 e o.a).neg o.na) ((a64 e o.b).neg o.nb)))) ∧
    (∀ o : FI,
      Computes (.faddImm h o) s y (fun e => r32 o.d (fadd .f32 (md e o.rnd) o.ftz ((a32 e o.a).neg o.na) (fval .f32 o.imm.toNat))) ∧
      Computes (.fmulImm h o) s y (fun e => r32 o.d (fmul .f32 (md e o.rnd) o.ftz ((a32 e o.a).neg o.na) (fval .f32 o.imm.toNat)))) ∧
    (∀ o : FDiv,
      Computes (.fdiv h o) s y (fun e => r32 o.d (fdiv .f32 (md e o.rnd) o.ftz (a32 e o.a) (a32 e o.b))) ∧
      Computes (.ddiv h o) s y (fun e => r64 o.d (fdiv .f64 (md e o.rnd) o.ftz (a64 e o.a) (a64 e o.b)))) ∧
    (∀ o : F1,
      Computes (.fsqrt h o) s y (fun e => r32 o.d (fsqrt .f32 (md e o.rnd) o.ftz (a32 e o.a))) ∧
      Computes (.frcp h o) s y (fun e => r32 o.d (frcp .f32 (md e o.rnd) o.ftz (a32 e o.a))) ∧
      Computes (.frsq h o) s y (fun e => r32 o.d (frsq .f32 (md e o.rnd) o.ftz (a32 e o.a))) ∧
      Computes (.fexp2 h o) s y (fun e => r32 o.d (fexp2 (md e o.rnd) o.ftz (a32 e o.a))) ∧
      Computes (.flog2 h o) s y (fun e => r32 o.d (flog2 (md e o.rnd) o.ftz (a32 e o.a))) ∧
      Computes (.fsin h o) s y (fun e => r32 o.d (ftrig false (md e o.rnd) o.ftz (a32 e o.a))) ∧
      Computes (.fcos h o) s y (fun e => r32 o.d (ftrig true (md e o.rnd) o.ftz (a32 e o.a))) ∧
      Computes (.frnd h o) s y (fun e => r32 o.d (frndF (md e o.rnd) o.ftz (e.src o.a).toNat)) ∧
      Computes (.dsqrt h o) s y (fun e => r64 o.d (fsqrt .f64 (md e o.rnd) o.ftz (a64 e o.a)))) ∧
    (∀ o : F3,
      Computes (.ffma h o) s y (fun e =>
        r32 o.d (ffma .f32 (md e o.rnd) o.ftz o.np o.nc (a32 e o.a) (a32 e o.b) (fval .f32 (e.v o.c).toNat))) ∧
      Computes (.dfma h o) s y (fun e =>
        r64 o.d (ffma .f64 (md e o.rnd) o.ftz o.np o.nc (a64 e o.a) (a64 e o.b) (fval .f64 (e.v64 o.c).toNat)))) ∧
    (∀ o : FMm,
      let w (mx : Bool) : Env → Out := fun e => r32 o.d (fminmax .f32 mx o.ftz (e.src o.a).toNat (e.src o.b).toNat)
      let dw (mx : Bool) : Env → Out := fun e => r64 o.d (fminmax .f64 mx o.ftz (e.src64 o.a).toNat (e.src64 o.b).toNat)
      Computes (.fmin h o) s y (w false) ∧ Computes (.fmax h o) s y (w true) ∧ Computes (.dmin h o) s y (dw false) ∧
      Computes (.dmax h o) s y (dw true)) ∧
    (∀ o : FMmI,
      let w (mx : Bool) : Env → Out := fun e => r32 o.d (fminmax .f32 mx o.ftz (e.src o.a).toNat o.imm.toNat)
      Computes (.fminImm h o) s y (w false) ∧ Computes (.fmaxImm h o) s y (w true)) ∧
    (∀ o : FCls, Computes (.fclass h o) s y fun e => .v32 o.d (fclassF (e.src o.a).toNat))

/-- Conversions and packed formats (R158 to R164): each executing lane writes the converted or accumulated value. -/
def Obligations.ConversionResults : Prop :=
  ∀ (h : Hdr) (s : State) (y : Iss),
    let md (e : Env) (r : Rnd) : RMode := modeOf e.x.fstat r
    (∀ o : Fcvt, Computes (.fcvt h o) s y fun e =>
      let r := fcvtF (CvFmt.fmt o.df) (CvFmt.fmt o.sf) (md e o.rnd) o.ftz (cvRule o.df.small o.ovr)
        (elemBits (CvFmt.fmt o.sf) (e.src o.a) o.sel.toNat)
      .v32 o.d (BitVec.ofNat 32 r.val) r.cs) ∧
    (∀ o : Icvt, Computes (.icvt h o) s y fun e =>
      let f := IFmt.fmt o.ff
      if o.toInt then
        let r := toIntF ((fval f (elemBits f (e.src o.a) 0)).flush o.ftz) o.t.bits o.t.sg (md e o.rnd)
        .vW o.t.w64 o.d (ires o.t r.val) r.cs
      else
        let r := intToF f (md e o.rnd) o.ftz (ival o.t (e.srcW o.t.w64 o.a))
        .v32 o.d (BitVec.ofNat 32 r.val) r.cs) ∧
    (∀ o : Fpack, Computes (.fpack h o) s y fun e =>
      let ws : List Word := if o.pf.small then [(e.src64 o.a).setWidth 32, (e.src64 o.a).extractLsb' 32 32,
        (e.v64 o.b).setWidth 32, (e.v64 o.b).extractLsb' 32 32] else [e.src o.a, e.v o.b]
      let rs := ws.map fun w => fcvtF (PFmt.fmt o.pf) .f32 (md e o.rnd) o.ftz (cvRule o.pf.small o.ovr) w.toNat
      .v32 o.d (BitVec.ofNat 32 (rs.foldr (fun r n => r.val + 2 ^ (PFmt.fmt o.pf).bits * n) 0))
        (rs.foldl (fun c r => c ||| r.cs) 0)) ∧
    (∀ o : Hfma2, Computes (.hfma2 h o) s y fun e =>
      let f : Fmt := if o.bf then .bf16 else .f16
      let v (w : Word) (n : Nat) : FV := fval f (w.extractLsb' (16 * n) 16).toNat
      let r (n : Nat) : Res Nat :=
        ffma f (md e o.rnd) o.ftz false false (v (e.src o.a) n) (v (e.src o.b) n) (v (e.v o.c) n)
      .v32 o.d (BitVec.ofNat 16 (r 1).val ++ BitVec.ofNat 16 (r 0).val) ((r 0).cs ||| (r 1).cs)) ∧
    (∀ o : Dot4, Computes (.dot4 h o) s y fun e =>
      let fs := dot4Fmts o.ef
      let w64 := fs.1.bits == 16
      let el (f : Fmt) (x : DWord) (n : Nat) : FV := fval f (x.extractLsb' (f.bits * n) f.bits).toNat
      let r := dot4F (md e o.rnd) o.ftz
        ((List.range 4).map fun n => (el fs.1 (e.srcW w64 o.a) n, el fs.2 (e.srcW w64 o.b) n)) (fval .f32 (e.v o.c).toNat)
      .v32 o.d (BitVec.ofNat 32 r.val) r.cs) ∧
    (∀ o : Dcvt, Computes (.dcvt h o) s y fun e =>
      match o.sk, o.dk with
      | .f64, .f32 => .f32 o.d (fcvtF .f32 .f64 (md e o.rnd) o.ftz .ieee (e.src64 o.a).toNat)
      | .f32, .f64 => .f64 o.d (fcvtF .f64 .f32 (md e o.rnd) o.ftz .ieee (e.src o.a).toNat)
      | .f64, k =>
        let r := toIntF ((fval .f64 (e.src64 o.a).toNat).flush o.ftz) (DKind.itype k).bits (DKind.itype k).sg (md e o.rnd)
        .vW (DKind.itype k).w64 o.d (ires (DKind.itype k) r.val) r.cs
      | k, _ => .f64 o.d (intToF .f64 (md e o.rnd) o.ftz (ival (DKind.itype k) (e.srcW (DKind.itype k).w64 o.a))))

/-- An operand that is a NaN makes the result the canonical NaN of the format, and NV is raised exactly when an operand is
a signalling NaN (R86, R93, R150). -/
def Obligations.NanOperands : Prop :=
  ∀ (f : Fmt) (md : RMode) (z np nc : Bool) (a b c : FV),
    let nv (q : Bool) : Conds := if q then Conds.nv else 0
    (a.isNan || b.isNan → fadd f md z a b = ⟨f.nan, nv (a.isSig || b.isSig)⟩ ∧
      fmul f md z a b = ⟨f.nan, nv (a.isSig || b.isSig)⟩ ∧ fdiv f md z a b = ⟨f.nan, nv (a.isSig || b.isSig)⟩) ∧
    (a.isNan || b.isNan || c.isNan → ffma f md z np nc a b c = ⟨f.nan, nv (a.isSig || b.isSig || c.isSig)⟩) ∧
    (a.isNan → fsqrt f md z a = ⟨f.nan, nv a.isSig⟩ ∧ frcp f md z a = ⟨f.nan, nv a.isSig⟩ ∧
      frsq f md z a = ⟨f.nan, nv a.isSig⟩)

/-- A value that a format can represent rounds to its own pattern in every mode, and raises nothing (R89, R90); in
particular a product by one and the sum with a zero of its sign are exact. -/
def Obligations.ExactValuesRound : Prop :=
  ∀ (f : Fmt) (md : RMode) (x : Nat) (q : Bool) (m : Nat) (e : Int) (sub : Bool),
    f ∈ [Fmt.f64, Fmt.f32, Fmt.f16, Fmt.bf16, Fmt.e5m2, Fmt.e4m3] → x < 2 ^ f.bits → fval f x = .fin q m e sub →
    roundF f md false .ieee q m e = ⟨x, 0⟩ ∧
    fmul f md false (.fin q m e sub) (.fin false 1 0 false) = ⟨x, 0⟩ ∧
    fadd f md false (.fin q m e sub) (.zero q) = ⟨x, 0⟩

/-! ### Exchange, votes, reductions, special registers -/

/-- Exchanges, votes, `match` and `elect` (R213 to R216): what each executing lane takes from the others. A faulty exchange unit
inverts bits of what it delivers to a lane (`Iss.flaw`, R473); a sound one inverts none. -/
def Obligations.ExchangeResults : Prop :=
  ∀ (h : Hdr) (s : State) (y : Iss),
    let b (o : Xchg) (l : Nat) : Nat := match o.b with
      | .v r => ((y.env l).v r).toNat
      | .u r => (y.x.u r.toNat).toNat
      | .lit n => n.toNat
    let from' (o : Xchg) (l : Nat) (src : Int) : Out :=
      if 0 ≤ src ∧ src.toNat ∈ y.ex then
        { Out.vW o.w64 o.d ((y.env src.toNat).vW o.w64 o.a ^^^ y.flaw l) with p := [(o.pv.toNat, true)] }
      else { Out.vW o.w64 o.d ((y.env l).vW o.w64 o.a ^^^ y.flaw l) with p := [(o.pv.toNat, false)] }
    let q (sp : BitVec 3) (ns : Bool) (l : Nat) : Bool := (y.env l).p sp != ns
    ((y.s.core y.b.core).flaws = [] → ∀ l, y.flaw l = 0) ∧
    (∀ o, ComputesFor (.xchgIdx h o) s y fun l => from' o l (b o l)) ∧
    (∀ o, ComputesFor (.xchgUp h o) s y fun l => from' o l ((l : Int) - b o l)) ∧
    (∀ o, ComputesFor (.xchgDown h o) s y fun l => from' o l ((l : Int) + b o l)) ∧
    (∀ o, ComputesFor (.xchgXor h o) s y fun l => from' o l ((l ^^^ b o l : Nat) : Int)) ∧
    (∀ o, ComputesFor (.voteAll h o) s y fun _ => .pr o.p (decide (∀ l ∈ y.ex, q o.s o.ns l = true))) ∧
    (∀ o, ComputesFor (.voteAny h o) s y fun _ => .pr o.p (decide (∃ l ∈ y.ex, q o.s o.ns l = true))) ∧
    (∀ o, ComputesFor (.voteBallot h o) s y fun _ => .dst o.d o.m64 (laneSet (y.ex.filter (q o.s o.ns)))) ∧
    (∀ o, ComputesFor (.matchB h o) s y fun l =>
      let same := y.ex.filter fun k => (y.env k).vW o.w64 o.a == (y.env l).vW o.w64 o.a
      { Out.vW o.m64 o.d (laneSet same) with p := [(o.pl.toNat, lowest same == l)] }) ∧
    (∀ p, ComputesFor (.elect h p) s y fun l => .pr p (lowest y.ex == l)) ∧
    (∀ o, ComputesFor (.redb h o) s y fun _ =>
      let r := (redbTree (redbNode o.op (modeOf y.x.fstat o.rnd) o.ftz)
        (fun l => if y.ex.contains l then some ((y.env l).v o.a) else none) 6 0).getD ⟨0, 0⟩
      { Out.dst o.d false (r.val.setWidth 64) with cs := r.cs })

/-- The lane set of a list holds its lanes below 64, and the integer reductions over a band are the fold of their
operation in any order (R109, R217): addition here. -/
def Obligations.LaneSets : Prop :=
  (∀ (ls : List Nat) (l : Nat), l < 64 → ((laneSet ls).getLsbD l = decide (l ∈ ls))) ∧
  (∀ (ex : List Nat) (v : Nat → Word) (md : RMode) (z : Bool), ex.Nodup → ex ≠ [] → (∀ l ∈ ex, l < 64) →
    ∃ c, redbTree (redbNode .addb md z) (fun l => if ex.contains l then some (v l) else none) 6 0 =
      some ⟨(ex.map v).sum, c⟩)

/-- `sread` (R22, R219): every executing lane takes the special register, whose value is that of the table of R22 for every
selector; `ctime` never goes back in a band (R23). It is stated for a block that is not sampled; the log of a sampled one is
R446's. -/
def Obligations.SpecialRegisters : Prop :=
  ∀ (h : Hdr) (o : Sread) (s : State) (y : Iss), y.b.sid = none → y.b.run = .plain → Issues (.sread h o) s y →
    let ct : DWord := if BitVec.ofNat 64 (y.s.now y.b.die) < y.x.lastCtime then y.x.lastCtime
      else BitVec.ofNat 64 (y.s.now y.b.die)
    let y' : Iss := { y with x := if o.sel = .ctime ∧ y.ex ≠ [] then { y.x with lastCtime := ct } else y.x }
    Writes (.sread h o) s y' (fun l => .dst o.d (o.sel == .ctime) (y.s.sreg y.b y.n o.sel ct l)) ∧
    (∀ l, let is (r : SReg) (v : Nat) : Prop := y.s.sreg y.b y.n r ct l = BitVec.ofNat 64 v
      is .lane l ∧ is .bandw y.b.bandw ∧ is .band y.n ∧ is .nband y.b.bands.length ∧ is .blkx y.b.bx ∧ is .blky y.b.by' ∧
      is .blkz y.b.bz ∧ is .blane (y.n * y.b.bandw + l) ∧ is .core (y.b.core % 64) ∧
      is .cluster (if y.b.core < 512 then y.b.core / 64 % 2 else 0) ∧ is .die y.b.ldie ∧ is .hdie (coreDie y.b.core) ∧
      is .profile (if coreDie y.b.core < 4 then 0 else 1) ∧ is .orient (if coreDie y.b.core < 4 then coreDie y.b.core else 0) ∧
      is .ctime ct.toNat ∧ ∀ g, y.s.grid y.b.lid = some g →
        is .nblkx g.pkt.gx ∧ is .nblky g.pkt.gy ∧ is .nblkz g.pkt.gz ∧ is .launch (g.orig % 2 ^ 32))

/-! ### Barriers, rejoin masks, the end of lanes -/

/-- R224: with no copy registered, distinct units that arrive leave the phase open until the count is reached; the arrival
that reaches it completes the phase: the generation advances, nothing is pending, and the phase has its stamp. A registered
copy holds the phase open. -/
def Obligations.BarrierPhases : Prop :=
  (∀ (t : Barrier) (us : List Nat) (now : Nat), us.Nodup → t.pend = [] → t.arr = 0 → t.gone = [] → t.cpy = 0 → 0 < t.cnt →
    let r := us.foldl (fun t u => t.arrive u now) t
    (us.length < t.cnt → r.gen = t.gen ∧ r.arr = us.length ∧ r.pend = us) ∧
    (us.length = t.cnt → r.gen = t.gen + 1 ∧ r.arr = 0 ∧ r.pend = [] ∧ r.part = [] ∧
      r.stamps = t.stamps ++ [now])) ∧
  (∀ (t : Barrier) (u now : Nat), t.cpy ≠ 0 → (t.arrive u now).gen = t.gen) ∧
  (∀ (t : Barrier) (u now : Nat), u ∈ t.pend → t.arrive u now = t)

/-- Barrier instructions (R225, R228): arrivals first, then the wait of the lanes whose arrival is pending; `bar.init` and
`bar.inv` set the count, or raise BARBUSY; a number beyond the declared count raises REGIDX, cause 1, in each of them; an arrival
whose order holds raises the error status of the band's writes, if there is one. A run that replays a log meets no wider
barrier (R450), and is not the subject here. The model's choices: the records that a barrier leaves in the log (log entry 8),
the stamp of the last arriver as the snapshot time of its `bar.sync` (log entry 9), the place of the error status among
the checks of an arrival (log entry 21), and the lowest active lane as the one that BARBUSY records (log entry 93). -/
def Obligations.BarrierInstructions : Prop :=
  ∀ (h : Hdr) (s : State) (y : Iss),
    (∀ (o : Bar) (t : Trap), y.barTrap o.n o.sc = some t →
      (Issues (.barArr h o) s y → Traps (.barArr h o) s y t) ∧ (Issues (.barWait h o) s y → Traps (.barWait h o) s y t) ∧
      (Issues (.barSync h o) s y → Traps (.barSync h o) s y t) ∧ t.cls = .regidx ∧ t.cause = 1) ∧
    (∀ (o : BarInit) (t : Trap), y.barTrap o.n o.sc = some t → Issues (.barInit h o) s y → Traps (.barInit h o) s y t) ∧
    (∀ (o : Bar) (t : Trap), y.barTrap o.n o.sc = some t → Issues (.barInv h o) s y → Traps (.barInv h o) s y t) ∧
    (∀ (n : BNum) (sc : BScope), y.ex ≠ [] → y.s.barCount y.b sc ≤ y.barNum n →
      y.barTrap n sc = some { cls := .regidx, cause := 1, lane := lowest y.ex, opnd := 2 }) ∧
    (∀ o : Bar, y.barTrap o.n o.sc = none → y.barReplay o.sc = false →
      let num := y.barNum o.n
      let ordered := y.s.orderReady y.b y.x .rel (BScope.scope o.sc) = true
      let ready := y.ex = [] ∨ (ordered ∧ y.x.werr = none)
      (∀ a i, i = .barArr h o ∨ i = .barSync h o → Issues i s y → y.ex ≠ [] → ordered → y.x.werr = some a →
        exec i s = .next ((y.s.modBand y.k y.n fun x => { x with werr := none }).syncTrap y.k y.n
          { cls := .poison, lane := lowest y.ex, addr := a } y.pc y.act)) ∧
      (Issues (.barArr h o) s y → ready → Passes (.barArr h o) s y (y.arriveAll y.base o.sc num)) ∧
      (Issues (.barWait h o) s y → ∃ t, exec (.barWait h o) s = .next (y.waitBar t o.sc num) ∧
        y.Goes (y.logBar y.base o.sc num) t (y.inLine (.barWait h o))) ∧
      (Issues (.barSync h o) s y → ready → ∃ t, exec (.barSync h o) s = .next (y.waitBar t o.sc num) ∧
        y.Goes (y.logBar (y.syncStamp (y.arriveAll y.base o.sc num) o.sc num) o.sc num) t (y.inLine (.barSync h o)))) ∧
    (∀ (i : Instr) (n : BNum) (sc : BScope) (count : Nat),
      (∃ o : BarInit, i = .barInit h o ∧ o.n = n ∧ o.sc = sc ∧ count = o.count.toNat) ∨
        (∃ o : Bar, i = .barInv h o ∧ o.n = n ∧ o.sc = sc ∧ count = 0) →
      Issues i s y → y.ex ≠ [] → y.barTrap n sc = none → y.barReplay sc = false →
      (y.s.barBusy y.b sc (y.barNum n) = true → sc = .blk ∨ y.b.sid = none →
        Traps i s y { cls := .barbusy, lane := lowest y.act }) ∧
      (y.s.barBusy y.b sc (y.barNum n) = false →
        Passes i s y ((if sc = .blk then y.base else y.base.logRec y.k y.n 7 (barBody sc (y.barNum n) 0)).modBar y.k sc
          (y.barNum n) fun t =>
            { t with cnt := if count = 0 ∨ t.members.length < count then t.members.length else count })))

/-- R173: a mask is released exactly when a lane is parked on it and all of its enrolled lanes are; then every lane parked
on it is ready and the mask is empty. Nothing else of the lanes and of the other masks changes. -/
def Obligations.RejoinReleases : Prop :=
  ∀ x : Band,
    let full (j : Nat) : Prop := (∃ l, l < x.lanes.length ∧ (x.lane l).st = .parked j) ∧
      ∀ l, l < 64 → (x.enrolled.getD j 0).getLsbD l = true → (x.lane l).st = .parked j
    let r := x.releaseFull
    (∀ j, j < 4 → (full j → r.enrolled.getD j 0 = 0) ∧ (¬full j → r.enrolled.getD j 0 = x.enrolled.getD j 0)) ∧
    (∀ l, l < x.lanes.length →
      (∀ j, j < 4 → full j → (x.lane l).st = .parked j → r.lane l = { x.lane l with st := .ready }) ∧
      ((∀ j, j < 4 → full j → (x.lane l).st ≠ .parked j) → r.lane l = x.lane l))

/-- R174: when no lane of a band is ready or blocked and one is parked, the device releases the lowest mask that has a parked
lane; a band's turn does this before anything else. -/
def Obligations.ForcedRelease : Prop :=
  ∀ (s : State) (k n j : Nat) (b : Block) (x : Band), s.blk k = some b → b.band n = some x → j < 4 →
    (∀ l ∈ x.lanes, l.st = .exited ∨ ∃ i, i < 4 ∧ l.st = .parked i) → (∃ l ∈ x.lanes, l.st = .parked j) →
    (∀ i, i < j → ∀ l ∈ x.lanes, l.st ≠ .parked i) →
    let y : Band := { x with
      lanes := x.lanes.map fun l => if l.st = .parked j then { l with st := .ready } else l
      enrolled := x.enrolled.set j 0 }
    (x.halted = false → ∃ t, exec (.forcedRelease k n) s = .next t ∧ t.mem = s.mem ∧ ((t.blk k).bind fun b => b.band n) = some y ∧
      ∀ i, i ≠ k → t.blk i = s.blk i) ∧
    (b.st = .running → x.halted = false →
      s.bandStep k n = exec (.forcedRelease k n) (s.at' k n) ∧ (s.at' k n).blk k = some b)

/-- `join.e`, `join.w`, `join.x` (R173) and `exit` (R40, R144): the executing lanes are enrolled, parked where enrolled,
taken off, or ended; what waited for the band in the latch or in a collective is then accepted (R344, R359, R360). -/
def Obligations.LaneControl : Prop :=
  ∀ (h : Hdr) (s : State) (y : Iss),
    (∀ j : BitVec 2,
      (Issues (.joinE h j) s y → ∃ t, y.Goes y.base t (y.inLine (.joinE h j)) ∧
        exec (.joinE h j) s = .next (t.modBand y.k y.n fun x =>
          { x with enrolled := modAt x.enrolled j.toNat fun e => e ||| laneSet y.ex }.releaseFull)) ∧
      (Issues (.joinX h j) s y → ∃ t, y.Goes y.base t (y.inLine (.joinX h j)) ∧
        exec (.joinX h j) s = .next (t.modBand y.k y.n fun x =>
          { x with enrolled := modAt x.enrolled j.toNat fun e => e &&& ~~~(laneSet y.ex) }.releaseFull)) ∧
      (Issues (.joinW h j) s y → ∃ t, y.Goes y.base t (y.inLine (.joinW h j)) ∧
        exec (.joinW h j) s = .next (t.modBand y.k y.n fun x =>
          (x.modLanes (y.ex.filter fun l => (x.enrolled.getD j.toNat 0).getLsbD l)
            fun _ l => { l with st := .parked j.toNat }).releaseFull))) ∧
    (Issues (.exit h) s y →
      (∀ sc, y.s.exitScope y.b = some sc → y.ex = [] ∨ y.s.orderReady y.b y.x .rel sc = true) →
      ∃ t, exec (.exit h) s = .next (t.bandEnded y.k y.n) ∧ t.mem = y.s.mem ∧
        (y.b.latch = [] → y.b.cols = [] → y.b.later = false → t.bandEnded y.k y.n = t) ∧
        (∀ l ∈ y.ex, (y.laneIn t l).st = .exited) ∧ (∀ l ∈ y.act, (y.laneIn t l).pc = y.inLine (.exit h) l) ∧
        (∀ l, (y.laneIn t l).vregs = (y.x.lane l).vregs ∧ (y.laneIn t l).preds = (y.x.lane l).preds) ∧
        (∀ e ∈ (y.bandIn t).enrolled, ∀ l ∈ y.ex, e.getLsbD l = false) ∧
        (∀ k, k ≠ y.k → t.blk k = y.s.blk k))

/-! ### Memory -/

/-- Loads whose bytes are at hand (R274, R306 to R313): each executing lane's registers take the bytes of its address, widened
by the access size; `ldf` decodes its element from the bytes of its payload and scale; `lds` reads the window. Nothing is
written to memory. The bytes at hand of an access within one line are those of `Iss.Source`; what the band has received
raises its horizon. A port that fails its checks stops a load before its effect. The model's choice (log entry 12) is that a hit
in L1 gives the bytes that L1 holds whatever the KEYID of the page, and which stores a band learns of from a copy (`took`). -/
def Obligations.LoadResults : Prop :=
  ∀ (h : Hdr) (s : State) (y : Iss) (bytes : Nat → List Byte),
    (∀ (o : Ld) (xs : List LaneX), let n := lsizeBytes o.sz
      let unc := o.ord == .unc
      Issues (.ld h o) s y → y.Reaches .read n (y.addrs o.base (o.disp.signExtend 64)) xs → y.held true xs = none →
      y.poisoned unc n xs = none → (∀ a ∈ xs, y.Served unc n a (bytes a.lane)) →
      (∀ p, y.portOk (.ld h o) y.s = .ok p →
        (y.over (y.reads { y.s with serial := y.s.serial + 1 } xs)
          (y.x.took (xs.filterMap fun a => y.handAll unc a n))).Delivers (.ld h o) s
            fun l => { v := wordsAt o.d (loadWords o.sz (bytesV (bytes l))) }) ∧
      (∀ e, y.portOk (.ld h o) y.s = .error e → exec (.ld h o) s = .next (y.portStop e))) ∧
    (∀ (o : Ld) (ws : List (Nat × Nat × Nat)), y.b.sid = none → y.b.run = .plain →
      y.s.scratchAll y.b y.k (lsizeBytes o.sz) (y.sAddrs o.base (o.disp.signExtend 32)) = .ok ws →
      (∀ q ∈ ws, bytes q.1 = y.s.scrRead q.2.1 q.2.2 (lsizeBytes o.sz)) → Issues (.lds h o) s y →
      Writes (.lds h o) s { y with x := y.x.seen ((ws.map fun q => y.s.scrW q.2.1).foldl max 0) }
        fun l => { v := wordsAt o.d (loadWords o.sz (bytesV (bytes l))) }) ∧
    (∀ (o : Ldf) (xs : List LaneX) (val : Nat → Word × Conds), Issues (.ldf h o) s y →
      y.Reaches .read 1 (y.addrs o.base (o.disp.signExtend 64)) xs →
      let rs := xs.flatMap fun a => ((a.elemAt ((y.env a.lane).src o.idx)).map a.reads).getD []
      y.held true ((rs.flatMap fun r => r.1.pieces r.2).map fun p => { p.a with x := { p.a.x with pa := p.pa } }) = none →
      (∀ a ∈ xs, ∃ e p c, a.elemAt ((y.env a.lane).src o.idx) = some e ∧
        y.handAll false { a with va := e.payAt, x := { a.x with pa := a.x.at' a.va e.payAt } } e.payLen = some p ∧
        y.handAll false { a with va := e.scaleAt, x := { a.x with pa := a.x.at' a.va e.scaleAt } } 2 = some c ∧
        p.psn = false ∧ c.psn = false ∧ decodeElem (y.s.lc8Tab y.b) a.x.reg e.pos p.bs c.bs = some (val a.lane)) →
      (y.over (y.reads y.s (rs.map (·.1))) (y.x.took (rs.filterMap fun r => y.handAll false r.1 r.2))).Delivers (.ldf h o) s
        fun l => .v32 o.d (val l).1 (val l).2) ∧
    (∀ (unc : Bool) (n : Nat) (a : LaneX) (d : AtHand), a.x.pa % 128 + n ≤ 128 → y.handAll unc a n = some d →
      y.Source unc n a d.bs) ∧
    (∀ hs : List AtHand, let x := y.x.took hs
      x.horizon = (hs.map AtHand.w).foldl max y.x.horizon ∧ x = { y.x with horizon := x.horizon, waitW := x.waitW } ∧
      ∀ i, i ∈ x.waitW ↔ i ∈ y.x.waitW ∨ ∃ d ∈ hs, i ∈ d.stores) ∧
    (∀ (u : State) (xs : List LaneX), (y.reads u xs).mem = u.mem ∧ (y.reads u xs).blocks = u.blocks)

/-- A load with a lane that nothing at hand serves asks the home of each such line, holds its result registers, and goes
on; the lanes of an acquire wait for the reply (R245, R279, R281, R302). Where a home must first read a line from its
stack, or recall it, the load waits with nothing done, so that a POISON is precise (R36, R304; the model's choice, log entry
7). -/
def Obligations.LoadMissAsks : Prop :=
  ∀ (h : Hdr) (o : Ld) (s : State) (y : Iss) (xs : List LaneX), let n := lsizeBytes o.sz
    let unc := o.ord == .unc
    let sent (t : State) (m : Msg) : Prop := (∃ p ∈ t.net, p.msg = m) ∨ ∃ q ∈ (t.core y.b.core).scq, q.msg = m
    Issues (.ld h o) s y → y.Reaches .read n (y.addrs o.base (o.disp.signExtend 64)) xs → y.held true xs = none →
    (y.coldParts unc (xs.map fun a => (a, n)) = [] → y.poisoned unc n xs = none → (∃ p, y.portOk (.ld h o) y.s = .ok p) →
      (∃ a ∈ xs, y.handAll unc a n = none) →
      ∃ t op, exec (.ld h o) s = .next t ∧ y.Moved t (y.inLine (.ld h o)) ∧ (y.bandIn t).pend = y.x.pend ++ [op] ∧
        op.kind = .load o.sz ∧ op.d = o.d ∧ (op.lanes.map fun q => (q.lane, q.pa)) = xs.map (fun a => (a.lane, a.x.pa)) ∧
        (∀ q ∈ op.lanes, ∀ a ∈ xs, q.lane = a.lane → (q.done = false ↔ y.handAll unc a n = none)) ∧
        (∀ a ∈ xs, y.handAll unc a n = none → ∃ kid u nc sc,
          sent t (.loadReq y.k y.n op.id y.b.core (lineOf a.x.pa) kid u nc sc false)) ∧
        (∀ sc, o.ord = .sync sc → ∀ l ∈ y.ex, (y.laneIn t l).st = .blocked (.reply op.id))) ∧
    (∀ ps, y.coldParts unc (xs.map fun a => (a, n)) = ps → ps ≠ [] →
      ∃ t q, exec (.ld h o) s = .next t ∧ t.mem = y.s.mem ∧ (y.bandIn t).hold = some q ∧ q.pc = y.pc ∧ q.act = y.act ∧
        q.need = ps.map (fun p => (p.pa, p.n)) ∧ (y.bandIn t).lanes = y.x.lanes ∧
        ∀ p ∈ ps, ∃ kid u nc sc, sent t (.loadReq y.k y.n q.id y.b.core (lineOf p.pa) kid u nc sc false))

/-- Watched loads (R284, R285, R314) and `chk` (R287, R315). With every line at hand and room in the table, `ldw` loads as `ld`
does and gives each line an entry: unresolved with a check on its way for a line that the L1 serves, else as the home
answered; `chk` clears the table and jumps if an entry is struck. -/
def Obligations.WatchedLoads : Prop :=
  ∀ (h : Hdr) (s : State) (y : Iss),
    (∀ (o : Ldw) (xs : List LaneX) (bytes : Nat → List Byte), let n := lsizeBytes o.sz
      Issues (.ldw h o) s y → y.b.sid = none →
      y.Reaches .read n (y.addrs o.base (o.disp.signExtend 64)) xs → y.held true xs = none →
      y.poisoned false n xs = none → (∃ p, y.portOk (.ldw h o) y.s = .ok p) →
      (∀ a ∈ xs, y.Served false n a (bytes a.lane)) →
      ∃ u x, (y.over u x).Delivers (.ldw h o) s (fun l => { v := wordsAt o.d (loadWords o.sz (bytesV (bytes l))) }) ∧
        u.mem = y.s.mem ∧ x = { y.x.took (xs.filterMap fun a => y.handAll false a n) with watch := x.watch } ∧
        (if y.x.watch.length + (linesOf xs).length ≤ y.x.watchCap then
          ∃ es : List WatchEnt, x.watch = y.x.watch ++ es ∧ es.map WatchEnt.line = linesOf xs ∧
            ∀ e ∈ es, (e.st = .unresolved ∧ ∃ p ∈ u.net, p.msg = .watchChk y.k y.n e.op y.b.core e.line e.version) ∨
              (∃ a ∈ xs, lineOf a.x.pa = e.line ∧ ∃ d, y.came ⟨a, a.x.pa, 1⟩ = some d ∧ e.version = d.version ∧
                e.st = (if d.ec.isSome then .confirmed else .struck) ∧ e.ec = d.ec.getD 0)
        else x.watch = y.x.watch)) ∧
    (∀ off : Word, Issues (.chk h off) s y → y.ex ≠ [] → off.extractLsb' 0 2 ≠ 0 →
      Traps (.chk h off) s y { cls := .fetchalign, cause := 1, lane := lowest y.ex, addr := y.pc + off.signExtend 64 }) ∧
    (∀ off : Word, Issues (.chk h off) s y → y.ex ≠ [] → off.extractLsb' 0 2 = 0 →
      (∀ e ∈ y.x.watch, e.st ≠ .unresolved) →
      let struck := y.b.sid.isNone && chkStruck y.x.watch (y.s.now y.b.die)
      ∃ t, exec (.chk h off) s = .next t ∧
        y.Goes (y.over y.s { y.x with watch := [] }).base t fun l =>
          if struck && y.ex.contains l then y.pc + off.signExtend 64 else y.inLine (.chk h off) l) ∧
    (∀ off : Word, Issues (.chk h off) s y → y.ex ≠ [] → off.extractLsb' 0 2 = 0 →
      (∃ e ∈ y.x.watch, e.st = .unresolved) → exec (.chk h off) s = .next (y.s.blockLanes y.k y.n y.act .watch))

/-- Stores (R306 to R310): each executing lane stores its bytes at its address, `st` through the memory of the device (or as
a remote operation in the aperture, which adds to the band's counter and leaves by its Solust port) and `sts` in a window; no register changes. The stored addresses are those of `Iss.addrs` and `Iss.sAddrs`. -/
def Obligations.StoreInstructions : Prop :=
  ∀ (h : Hdr) (o : St) (s : State) (y : Iss),
    let ord := ∀ sc, o.ord = .sync sc → y.Orders .rel sc
    (∀ xs : List LaneX, Issues (.st h o) s y → ord →
      y.reach .write (lsizeBytes o.sz) (y.addrs o.base (o.disp.signExtend 64)) = .ok xs → y.held false xs = none →
      (∀ a ∈ xs, isReg a.x.pa = true → isAperture a.x.pa = true ∧ o.sz = .b128 ∧ remoteKind a.x.pa < 9) →
      y.x.rmtCnt + (xs.filter fun a => isReg a.x.pa).length ≤ counterMax →
      y.s.provWait y.b (xs.map fun a => a.x.pa) = none →
      let bytes (a : LaneX) : List Byte := (y.env a.lane).storeBytes o.sz o.b
      let u₀ := (xs.filter fun a => isReg a.x.pa).foldl (fun s a => s.remoteOp y.k y.n a.va a.x.pa (bytes a)) (y.fills y.base xs)
      let u := u₀.storeAll y.k y.n 0 (u₀.storeSeq y.k y.n) (o.ord == .unc) (coversLine o.sz xs) none
        ((xs.filter fun a => !isReg a.x.pa).map fun a => ⟨a.va, a.x, bytes a⟩)
      Passes (.st h o) s y (if xs = [] then u else u.nextStoreSeq y.k y.n)) ∧
    (∀ ws : List (Nat × Nat × Nat), Issues (.sts h o) s y → ord → y.b.later = false →
      y.s.scratchAll y.b y.k (lsizeBytes o.sz) (y.sAddrs o.base (o.disp.signExtend 32)) = .ok ws →
      ∃ t, exec (.sts h o) s = .next t ∧ t.mem = y.s.mem ∧ (∀ l ∈ y.act, (y.laneIn t l).pc = y.inLine (.sts h o) l) ∧
        (∀ l, (y.laneIn t l).vregs = (y.x.lane l).vregs ∧ (y.laneIn t l).preds = (y.x.lane l).preds) ∧
        (y.bandIn t).fstat = y.x.fstat ∧ (y.bandIn t).special = y.x.special ∧
        ∀ k b, y.s.blk k = some b → ∃ b', t.blk k = some b' ∧
          b'.scratch = ws.foldl (fun m q =>
            if q.2.1 = k then mwrite m q.2.2 ((y.env q.1).storeBytes o.sz o.b) else m) b.scratch)

/-- One lane's store of a band, within a line (R246, R273, R278): a store to a line that the core owns stands in memory at
once, and bytes of other codewords and bytes beside the stored ones read as before; every other store travels in a packet
to its line's home, or waits in the core's order of R281, and memory is as it was. A dead channel discards what is written (R514). -/
def Obligations.StoredBytes : Prop :=
  ∀ (s : State) (k n kind seq va : Nat) (x : Xl) (bs : List Byte) (unc clr : Bool) (push : Option Nat) (b : Block),
    s.blk k = some b → b.sid = none → b.run = .plain → Memory.wf s.mem = true → bs ≠ [] → x.pa % 128 + bs.length ≤ 128 →
    let t := s.storeAll k n kind seq unc (fun _ => clr) push [⟨va, x, bs⟩]
    (∀ a, (∀ j, j < bs.length → a / 32 ≠ (x.pa + j) / 32) → mget t.mem a = mget s.mem a) ∧
    (∀ a, a < x.pa ∨ x.pa + bs.length ≤ a → t.rdByte x.kid a = s.rdByte x.kid a) ∧
    (if s.owns b.core (lineOf x.pa) = true ∧ x.nc = false ∧ x.sc = false ∧ unc = false then
      t.rd x.kid x.pa bs.length = (if s.deadAt x.pa = true then s.rd x.kid x.pa bs.length else bs)
    else t.mem = s.mem ∧
      let m : Msg := .storeReq ⟨s.serial, k, n, b.core, lineOf x.pa, x.kid, [(va, x.pa, bs)], x.nc, x.sc, clr, push⟩
      (∃ p ∈ t.net, p.msg = m) ∨ ∃ q ∈ (t.core b.core).scq, q.msg = m)

/-- One read-modify-write of a lane at a time (R273, R280, R317): the answer is the value before, memory then holds the
operation's value, bytes of other codewords are as they were, and the time is the version's W; the band's horizon takes it, and
of an `atom` the W of the value that it answers (R274). A dead channel discards the write (R514). -/
def Obligations.AtomicReadModifyWrite : Prop :=
  ∀ (s : State) (k n va : Nat) (x : Xl) (op : AOp) (w64 red : Bool) (b c : DWord) (seq now : Nat) (bk : Block),
    s.blk k = some bk → Memory.wf s.mem = true →
    let sz := if w64 then 8 else 4
    let r := s.rmw k n va x op w64 red b c seq now
    let old : DWord := BitVec.ofNat 64 (leVal (s.rd x.kid x.pa sz))
    r.2 = old ∧ ((∀ j, j < sz → s.deadAt (x.pa + j) = false) →
      r.1.rd x.kid x.pa sz = leBytes sz (aopW op w64 old b c).toNat) ∧
    (∀ z, bk.band n = some z → ((r.1.blk k).bind fun b => b.band n).map Band.horizon =
      some (max z.horizon (if red then now else max now (s.home (lineOf x.pa)).w))) ∧
    (∀ a, (∀ j, j < sz → a / 32 ≠ (x.pa + j) / 32) → mget r.1.mem a = mget s.mem a) ∧
    (r.1.home (lineOf x.pa)).w = max (s.home (lineOf x.pa)).w now ∧
    (r.1.home (lineOf x.pa)).version = (s.home (lineOf x.pa)).version + 1 ∧
    (aopW .cas true old b c = if old = c then b else old) ∧ (aopW .exch true old b c = b) ∧
    (aopW .inc true old b c = if b ≤ old then 0 else old + 1) ∧
    (aopW .dec true old b c = if old = 0 ∨ b < old then b else old - 1)

/-- Atomics and reductions (R247, R281, R316 to R320). Where the core owns every line, the lanes are performed in ascending
order, `atom` writes each the value before, `red` writes no register. Where it owns none, they go on as accesses in
flight: each line's ownership is asked for, and the lanes of a line on a page with NC = 1 or SC = 1 go to its home together, in
ascending order, which performs them. -/
def Obligations.AtomicInstructions : Prop :=
  ∀ (h : Hdr) (s : State) (y : Iss) (xs : List LaneX), y.b.sid = none → y.b.run = .plain → y.held false xs = none →
    let near (a : LaneX) : Prop := a.x.sc = false ∧ a.x.nc = false ∧ y.s.owns y.b.core (lineOf a.x.pa) = true
    let y' := y.over (y.fills y.s xs) y.x
    let bump (i : Instr) (s : State) : State :=
      if xs = [] ∨ pushPort y.b i ≠ none then s else s.nextStoreSeq y.k y.n
    let asks (t : State) (op : PendOp) : Prop := (y.bandIn t).pend = y.x.pend ++ [op] ∧
      (op.lanes.map fun q => (q.lane, q.pa, q.done)) = xs.map (fun a => (a.lane, a.x.pa, false)) ∧
      ∀ j a, xs[j]? = some a → if a.x.sc = true ∨ a.x.nc = true then
        ∃ ls : List AtomLane, ⟨j, a.va, a.x.pa, a.x.kid, a.x.attr⟩ ∈ ls ∧ (ls.map AtomLane.j).Pairwise (· < ·) ∧
          let m : Msg := .atomReq ⟨y.k, y.n, y.b.core, op.id, lineOf a.x.pa, ls, a.x.nc, a.x.sc⟩
          (∃ p ∈ t.net, p.msg = m) ∨ ∃ q ∈ (t.core y.b.core).scq, q.msg = m
        else ∃ p ∈ t.net, p.msg = .ownReq y.b.core (lineOf a.x.pa)
    (∀ o : Atom, let sz := if o.w64 then 8 else 4
      Issues (.atom h o) s y → (∀ sc, o.ord = .rel sc ∨ o.ord = .ar sc → y.Orders .rel sc) →
      y.Reaches .write sz (y.addrs o.base (o.disp.signExtend 64)) xs →
      dupLane sz xs = none → y.coldAtoms sz xs = [] → y.poisonedAtom sz xs = none → (∃ p, y.portOk (.atom h o) y.s = .ok p) →
      ((∀ a ∈ xs, near a) →
        let r := y'.rmwLanes o.op o.w64 false (fun l => (y.env l).srcW o.w64 o.b)
          (fun l => if o.op = .cas then (y.env l).vW o.w64 o.c else 0) y'.base xs
        let s' := bump (.atom h o) r.1
        s'.mem = r.1.mem ∧ (y.over s' (((s'.blk y.k).bind fun b => b.band y.n).getD y.x)).Delivers (.atom h o) s
          fun l => .vW o.w64 o.d (((r.2.find? fun q => q.lane == l).map fun q => q.data.setWidth 64).getD 0)) ∧
      (xs ≠ [] → (∀ a ∈ xs, ¬near a) → ∃ t op, exec (.atom h o) s = .next t ∧ y.Moved t (y.inLine (.atom h o)) ∧
        op.kind = .atom o.op o.w64 ∧ op.d = o.d ∧ asks t op)) ∧
    (∀ o : Red, let sz := if o.w64 then 8 else 4
      Issues (.red h o) s y → (∀ sc, o.ord = .rel sc ∨ o.ord = .ar sc → y.Orders .rel sc) →
      y.Reaches .write sz (y.addrs o.base (o.disp.signExtend 64)) xs →
      y.coldAtoms sz xs = [] → y.poisonedAtom sz xs = none →
      ((∀ a ∈ xs, near a) → Passes (.red h o) s y
        (bump (.red h o) (y'.rmwLanes o.op o.w64 true (fun l => (y.env l).srcW o.w64 o.b) (fun _ => 0) y'.base xs).1)) ∧
      (xs ≠ [] → (∀ a ∈ xs, ¬near a) → ∃ t op, exec (.red h o) s = .next t ∧ y.Moved t (y.inLine (.red h o)) ∧
        op.kind = .red o.op o.w64 ∧ asks t op))

/-- Fences, cache operations, prefetches and the range commit (R321 to R325): none changes a register or a byte of memory.
A fence goes on once the accesses before it are ordered; `linv` and `lflush` leave no leased, and `lflush` no owned, copy
of a named line; `prf` asks the home of each named cacheable line that the L1 lacks for a lease, or with `.own` for ownership, and
sends nothing else. `rng.commit` replaces the masked range sets of the context, or traps and replaces none: ALIGN of its table,
PAGE, POISON and PERM of its reads, PERM of a set with a nonzero reserved field. Bits 7 and 15:14 of ATTR are not among the
reserved fields that it tests (the model's choice, log entry 75). -/
def Obligations.OrderingInstructions : Prop :=
  ∀ (h : Hdr) (s : State) (y : Iss),
    (∀ o : Fence, Issues (.fence h o) s y → y.Orders o.k o.sc → Passes (.fence h o) s y y.base) ∧
    (∀ l : LineSel, Issues (.linv h l) s y → y.ex ≠ [] → ∃ t, exec (.linv h l) s = .next t ∧
      y.Moved t (y.inLine (.linv h l)) ∧ (t.core y.b.core).l1 =
        (y.s.core y.b.core).l1.filter fun c => c.owned || !y.lineSel l c.line) ∧
    (∀ l : LineSel, Issues (.lflush h l) s y → y.ex ≠ [] → ∃ t, exec (.lflush h l) s = .next t ∧
      y.Moved t (y.inLine (.lflush h l)) ∧ (∀ c ∈ (t.core y.b.core).l1, y.lineSel l c.line = false) ∧
      ∀ c ∈ (y.s.core y.b.core).l1, y.lineSel l c.line = false → c ∈ (t.core y.b.core).l1) ∧
    (∀ o : Prf, Issues (.prf h o) s y → ∃ t ps, exec (.prf h o) s = .next t ∧ y.Moved t (y.inLine (.prf h o)) ∧
      t.net = y.s.net ++ ps ∧ t.cores = y.s.cores ∧
      let named (l : Nat) (x : Xl) : Prop :=
        (y.namedLines .read (y.addrs o.base (o.disp.signExtend 64))).find? (fun q => q.1 == l) = some (l, x) ∧
          x.nc = false ∧ x.sc = false
      let own (l : Nat) (x : Xl) : Prop := named l x ∧ o.own = true ∧ x.w = true ∧ y.s.owns y.b.core l = false
      let lease (l : Nat) (x : Xl) : Prop :=
        named l x ∧ (o.own = false ∨ x.w = false) ∧ (y.s.l1Valid y.b.core l).isSome = false
      (∀ p ∈ ps, p.cls = .request ∧ ∃ l x, (own l x ∧ p.msg = .ownReq y.b.core l) ∨
        (lease l x ∧ ∃ op, p.msg = .loadReq y.k y.n op y.b.core l x.kid false false false false)) ∧
      (∀ l x, own l x → ∃ p ∈ ps, p.msg = .ownReq y.b.core l) ∧
      (∀ l x, lease l x → ∃ p ∈ ps, ∃ op, p.msg = .loadReq y.k y.n op y.b.core l x.kid false false false false)) ∧
    (∀ (o : RngCommit) (xs : List LaneX), Issues (.rngCommit h o) s y → y.ex ≠ [] →
      let at' (a : Nat) : DWord := BitVec.ofNat 64 a
      let t₀ := (y.x.u64 o.a.toNat).toNat
      let ks := (List.range 32).filter fun k => o.mask.getLsbD k
      let set (k : Nat) : RangeSet := y.rangeAt (xs.filter fun a => (rangeWords t₀ k).contains a.va)
      let reads := y.s.xlateAll y.b.core y.b.asid y.b.fn y.b.sid y.x.inh .read
        (ks.flatMap fun k => (rangeWords t₀ k).map fun a => (lowest y.act, a))
      (t₀ % 8 ≠ 0 → Traps (.rngCommit h o) s y { cls := .align, lane := lowest y.act, addr := at' t₀ }) ∧
      (t₀ % 8 = 0 → (∀ e, reads = .error (.trap e) → Traps (.rngCommit h o) s y e ∧
        (e.cls = .page ∨ e.cls = .poison ∨ e.cls = .perm)) ∧
      (reads = .ok xs → (∀ q ∈ xs, isReg q.x.pa = false) → y.held true xs = none →
        y.missing false (xs.map fun a => (a, 8)) = [] →
        (∀ e, y.b.sid = none → y.poisoned false 8 xs = some e → Traps (.rngCommit h o) s y e ∧ e.cls = .poison) ∧
        (y.poisoned false 8 xs = none →
          (∀ k, ks.find? (fun k => !rangeOk (set k)) = some k →
            Traps (.rngCommit h o) s y { cls := .perm, lane := lowest y.act, addr := at' ((t₀ + 24 * k) % 2 ^ 64) }) ∧
          ((∀ k ∈ ks, rangeOk (set k) = true) → y.s.ctxQuiet y.b.asid = true →
      ∃ t, exec (.rngCommit h o) s = .next t ∧ y.Moved t (y.inLine (.rngCommit h o)) ∧
        (t.ctx y.b.asid).map Ctx.ranges = (y.s.ctx y.b.asid).map fun c =>
          (List.range 32).map fun k => if o.mask.getLsbD k then set k else c.ranges.getD k {})))))

/-- When the accesses of a band's lanes trap (R30, R241, R263, R264, R288, R304, R316, R329, R337, R471): the first class of R304
that fails in any lane, at its lowest failing lane. A release, or a fence, that finds a struck watch entry raises WTUNCHK, and
an error status of the band's writes raises POISON; then ALIGN, PAGE (or the POISON of a walk), PERM, FMT, ATOMDUP, POISON. A
pop raises STREAM, by port in operand order and by lane. `strm.pos` traps at decode alone. -/
def Obligations.AccessTraps : Prop :=
  (∀ (h : Hdr) (s : State) (y : Iss) (i : Instr) (k : AKind) (n : Nat) (as : List (Nat × Nat)),
    (∃ o : Ld, i = .ld h o ∧ k = .read ∧ n = lsizeBytes o.sz ∧ as = y.addrs o.base (o.disp.signExtend 64)) ∨
    (∃ o : Ldw, i = .ldw h o ∧ k = .read ∧ n = lsizeBytes o.sz ∧ as = y.addrs o.base (o.disp.signExtend 64)) ∨
    (∃ o : St, i = .st h o ∧ k = .write ∧ n = lsizeBytes o.sz ∧ as = y.addrs o.base (o.disp.signExtend 64) ∧
      ∀ sc, o.ord = .sync sc → y.Orders .rel sc) ∨
    (∃ o : Atom, i = .atom h o ∧ k = .write ∧ n = (if o.w64 then 8 else 4) ∧ as = y.addrs o.base (o.disp.signExtend 64) ∧
      ∀ sc, o.ord = .rel sc ∨ o.ord = .ar sc → y.Orders .rel sc) ∨
    (∃ o : Red, i = .red h o ∧ k = .write ∧ n = (if o.w64 then 8 else 4) ∧ as = y.addrs o.base (o.disp.signExtend 64) ∧
      ∀ sc, o.ord = .rel sc ∨ o.ord = .ar sc → y.Orders .rel sc) ∨
    (∃ o : StrmCfg, i = .strmCfg h o ∧ y.ex ≠ [] ∧ k = .read ∧ n = 64 ∧
      as = [(lowest y.act, (y.x.u64 o.a.toNat).toNat)]) →
    Issues i s y →
    let xl (a : Nat) : Except XErr Xl := y.s.xlate y.b.core y.b.asid y.b.sid a
    let trap (c : TrapClass) (cause : Nat) (p : Nat × Nat) : Prop :=
      Traps i s y { cls := c, cause, lane := p.1, addr := BitVec.ofNat 64 p.2 }
    (∀ p, as.find? (fun p => p.2 % n != 0) = some p → trap .align 0 p) ∧
    ((∀ p ∈ as, p.2 % n = 0) → (∀ p ∈ as, ∀ j, xl p.2 ≠ .error (.loan j)) →
      (∀ p, as.find? (fun p => !(xl p.2).isOk) = some p →
        (∀ c, xl p.2 = .error (.page c) → trap .page c p) ∧ (xl p.2 = .error .poison → trap .poison 0 p)) ∧
      ((∀ p ∈ as, (xl p.2).isOk = true) → ∀ p, as.find? (fun p => match xl p.2 with
          | .ok x => !y.s.permOk y.b.fn y.x.inh k x
          | .error _ => false) = some p → trap .perm 0 p))) ∧
  (∀ (h : Hdr) (s : State) (y : Iss), y.b.sid = none →
    let trap (i : Instr) (c : TrapClass) (a : LaneX) : Prop :=
      Traps i s y { cls := c, lane := a.lane, addr := BitVec.ofNat 64 a.va }
    let bad (unc : Bool) (n : Nat) (xs : List LaneX) : Option LaneX :=
      xs.find? fun a => ((y.handAll unc a n).map AtHand.psn).getD (y.s.poisonFor y.b a.x.pa n)
    (∀ (i : Instr) (unc : Bool) (n : Nat) (as : List (Nat × Nat)) (xs : List LaneX),
      (∃ o : Ld, i = .ld h o ∧ unc = (o.ord == .unc) ∧ n = lsizeBytes o.sz ∧ as = y.addrs o.base (o.disp.signExtend 64)) ∨
      (∃ o : Ldw, i = .ldw h o ∧ unc = false ∧ n = lsizeBytes o.sz ∧ as = y.addrs o.base (o.disp.signExtend 64)) →
      Issues i s y → y.Reaches .read n as xs → y.held true xs = none → y.coldParts unc (xs.map fun a => (a, n)) = [] →
      ∀ a, bad unc n xs = some a → trap i .poison a) ∧
    (∀ (i : Instr) (n : Nat) (as : List (Nat × Nat)) (xs : List LaneX) (dup : Option LaneX),
      (∃ o : Atom, i = .atom h o ∧ n = (if o.w64 then 8 else 4) ∧ as = y.addrs o.base (o.disp.signExtend 64) ∧
        (∀ sc, o.ord = .rel sc ∨ o.ord = .ar sc → y.Orders .rel sc) ∧ dup = xs.find? fun a => xs.any fun b =>
          b.lane != a.lane && a.x.pa < b.x.pa + n && b.x.pa < a.x.pa + n) ∨
      (∃ o : Red, i = .red h o ∧ n = (if o.w64 then 8 else 4) ∧ as = y.addrs o.base (o.disp.signExtend 64) ∧
        (∀ sc, o.ord = .rel sc ∨ o.ord = .ar sc → y.Orders .rel sc) ∧ dup = none) →
      Issues i s y → y.Reaches .write n as xs → y.held false xs = none →
      (∀ a, dup = some a → trap i .atomdup a) ∧
      (dup = none → y.b.run = .plain → y.coldAtoms n xs = [] →
        ∀ a, xs.find? (fun a => ((y.came ⟨a, a.x.pa, n⟩).map HeldData.psn).getD (y.s.poisonAt a.x.pa n)) = some a →
          trap i .poison a)) ∧
    (∀ (o : StrmCfg) (a : LaneX) (d : AtHand), let i : Instr := .strmCfg h o
      let addr := y.x.u64 o.a.toNat
      Issues i s y → y.ex ≠ [] → y.Reaches .read 64 [(lowest y.act, addr.toNat)] [a] → y.held true [a] = none →
      y.handAll false a 64 = some d → (d.psn = true → trap i .poison a) ∧
        (d.psn = false → patternOk (patternOf o addr d.bs) d.bs = false →
          Traps i s y { cls := .fmt, lane := lowest y.act, addr })) ∧
    (∀ (i : Instr) (n : Nat) (as : List (Nat × Word)),
      (∃ o : Ld, i = .lds h o ∧ n = lsizeBytes o.sz ∧ as = y.sAddrs o.base (o.disp.signExtend 32)) ∨
      (∃ o : St, i = .sts h o ∧ n = lsizeBytes o.sz ∧ as = y.sAddrs o.base (o.disp.signExtend 32) ∧
        ∀ sc, o.ord = .sync sc → y.Orders .rel sc) → y.b.run = .plain → Issues i s y →
      let wrong (p : Nat × Word) : Bool := p.2.extractLsb' 26 6 != 0 || p.2.toNat % n != 0
      let away (p : Nat × Word) : Bool :=
        match (y.s.windowOf y.b y.k (p.2.extractLsb' 20 6).toNat).bind y.s.blk with
        | none => true
        | some w => decide (w.window < (p.2.extractLsb' 0 20).toNat + n)
      (∀ p, as.find? wrong = some p → Traps i s y { cls := .align, lane := p.1, addr := p.2.setWidth 64 }) ∧
      ((∀ p ∈ as, wrong p = false) → ∀ p, as.find? away = some p →
        Traps i s y { cls := .perm, lane := p.1, addr := p.2.setWidth 64 }))) ∧
  (∀ (h : Hdr) (s : State) (y : Iss) (i : Instr) (k : FKind) (sc : Scope) (lane : Nat),
    (∃ o : St, (i = .st h o ∨ i = .sts h o) ∧ o.ord = .sync sc ∧ k = .rel ∧ lane = lowest y.ex) ∨
    (∃ o : Atom, i = .atom h o ∧ (o.ord = .rel sc ∨ o.ord = .ar sc) ∧ k = .rel ∧ lane = lowest y.ex) ∨
    (∃ o : Red, i = .red h o ∧ (o.ord = .rel sc ∨ o.ord = .ar sc) ∧ k = .rel ∧ lane = lowest y.ex) ∨
    (∃ o : Fence, i = .fence h o ∧ k = o.k ∧ sc = o.sc ∧ lane = lowest y.act) →
    Issues i s y → y.ex ≠ [] →
    ((∃ e ∈ y.x.watch, e.st = .unresolved) → exec i s = .next (y.s.blockLanes y.k y.n y.act .watch)) ∧
    ((∀ e ∈ y.x.watch, e.st ≠ .unresolved) → (∃ e ∈ y.x.watch, e.st = .struck) →
      Traps i s y { cls := .wtunchk, lane }) ∧
    ((∀ e ∈ y.x.watch, e.st = .confirmed) → y.s.orderReady y.b y.x k sc = true → ∀ a, y.x.werr = some a →
      exec i s = .next ((y.s.modBand y.k y.n fun x => { x with werr := none }).syncTrap y.k y.n
        { cls := .poison, lane, addr := a } y.pc y.act))) ∧
  (∀ (i : Instr) (s : State) (h : Hdr) (b : Block) (x : Band) (ch : Choice), MayIssue i s h b x ch → b.sid = none →
    let t := s.setBlk s.curBlock b
    let got := ((x.held ch.pc ch.active).map Hold.got).getD []
    let low := lowest ch.active
    ∀ (p rest : List (Nat × Nat)) (q : Nat × Nat), popPorts b i = p ++ q :: rest →
      (∃ vs cs w, t.popAll s.curBlock s.curBand b x got (x.guarded h ch.active) low p = .ok vs cs w) →
      let pt := x.ports.getD q.1 {}
      let trap (cause lane pos : Nat) (va : DWord) : Prop := exec i s = .next (t.syncTrap s.curBlock s.curBand
        { cls := .stream, cause, lane, opnd := q.2, addr := BitVec.ofNat 64 pos, reg := q.1, rkind := 4, req := some va }
        ch.pc ch.active)
      (pt.cfg = false → trap 0 low pt.p.toNat 0) ∧ (pt.cfg = true → pt.pat.push = true → trap 1 low pt.p.toNat 0) ∧
      (pt.cfg = true → pt.pat.push = false → ∀ l c va, l < x.lanes.length →
        t.popElem s.curBlock s.curBand b x.inh got pt l = .fault c va →
        (∀ j, j < l → ∀ c va, t.popElem s.curBlock s.curBand b x.inh got pt j ≠ .fault c va) →
        trap c l (if pt.pat.lst then pt.p.toNat else pt.p.toNat + l) va)) ∧
  (∀ (s : State) (k n : Nat) (b : Block) (priv : Bool) (got : List HeldData) (pt : Port) (off : DWord),
    pt.pat.kind ≠ .fmt → pt.pat.kind ≠ .fmtx →
    let va := pt.pat.base + off
    let z := skindSize pt.pat.kind
    let xl := s.xlate b.core b.asid b.sid va.toNat
    (va.toNat % z ≠ 0 → s.readElem k n b priv got pt off = .fault 2 va) ∧
    (va.toNat % z = 0 → (∀ c, xl = .error (.page c) → s.readElem k n b priv got pt off = .fault 3 va) ∧
      (xl = .error .poison → s.readElem k n b priv got pt off = .fault 6 va) ∧
      ∀ x, xl = .ok x → (s.permOk b.fn priv .read x = false → s.readElem k n b priv got pt off = .fault 4 va) ∧
        (s.permOk b.fn priv .read x = true → s.partStop k n b pt.sigma got (x.need z) = none →
          s.partPoison b got x.pa z = true → s.readElem k n b priv got pt off = .fault 6 va)))

/-! ### Streams, rings, gangs, copies, matrix commands -/

/-- Stream ports (R326 to R336): `strm.cfg` gives a port its pattern at position 0, `strm.pos` and `strm.end` read it,
`strm.set` moves it; an instruction that pops a port advances it by the band's width, or by one in list mode (R330). That the configuring read
raises the band's horizon by the W of what it took is the model's choice (R274, log entry 24); a port number beyond the
declared streams traps at decode with REGIDX, and the traps of pops and of the configuring read are those of `AccessTraps`. -/
def Obligations.StreamInstructions : Prop :=
  ∀ (h : Hdr) (s : State) (y : Iss),
    (∀ (o : StrmCfg) (a : LaneX) (d : AtHand), Issues (.strmCfg h o) s y → y.ex ≠ [] →
      let addr := y.x.u64 o.a.toNat
      y.Reaches .read 64 [(lowest y.act, addr.toNat)] [a] → y.held true [a] = none → y.handAll false a 64 = some d →
      d.psn = false → patternOk (patternOf o addr d.bs) d.bs = true →
      let x : Band := { y.x with ports := modAt y.x.ports o.k.toNat fun _ =>
        { cfg := true, pat := patternOf o addr d.bs, sigma := y.x.sigma } }
      Passes (.strmCfg h o) s y ({ y with s := y.reads y.s [a], x := x.took [d] } : Iss).base) ∧
    (∀ o : StrmPos, ComputesFor (.strmPos h o) s y fun _ => .dst (.u o.d) true (y.x.ports.getD o.k.toNat {}).p) ∧
    (∀ o : StrmSet, Issues (.strmSet h o) s y → y.ex ≠ [] →
      Passes (.strmSet h o) s y ({ y with
        x := { y.x with ports := modAt y.x.ports o.k.toNat fun p =>
          { p with p := y.x.u64 o.a.toNat, endf := false, ahead := [], sigma := y.x.sigma } } } : Iss).base) ∧
    (∀ o : StrmEnd, Issues (.strmEnd h o) s y → y.ex ≠ [] →
      let x := if o.clr then { y.x with ports := modAt y.x.ports o.k.toNat fun p => { p with endf := false } } else y.x
      ({ y with x := x } : Iss).Delivers (.strmEnd h o) s fun _ => .pr o.p (y.x.ports.getD o.k.toNat {}).endf) ∧
    (∀ (i : Instr) (b : Block) (x : Band) (q : Nat × Nat), Issues i s y → s.blk s.curBlock = some b →
      b.band s.curBand = some x → q ∈ popPorts b i → q.1 < x.ports.length →
      let pt := x.ports.getD q.1 {}
      let pt' := y.x.ports.getD q.1 {}
      pt.cfg = true ∧ pt.pat.push = false ∧ pt'.pat = pt.pat ∧
      pt'.p = pt.p + (if pt.pat.lst then 1 else BitVec.ofNat 64 x.lanes.length))

/-- Waits and rings (R170, R279, R348 to R350, R370, R380 to R385). What a wait at an instruction does; `waitc`, `cmd.wait` and
the ring instructions go on when their condition holds, and wait or trap otherwise; `ring.rel` releases the oldest slot,
`ring.init` gives a ring its shape; slots fill in reservation order; a release that has been waited for lets its lanes
go on. -/
def Obligations.WaitsAndRings : Prop :=
  (∀ (i : Instr) (s : State) (y : Iss) (w : Wait), Issues i s y →
      let t := y.waitLanes i w
      (∀ l ∈ y.ex, (y.laneIn t l).st = .blocked w ∧ (y.laneIn t l).pc = y.pc) ∧
      (∀ l ∈ y.act, l ∉ y.ex → (y.laneIn t l).pc = y.inLine i l ∧ (y.laneIn t l).st = .ready) ∧
      (∀ l, (y.laneIn t l).vregs = (y.x.lane l).vregs ∧ (y.laneIn t l).preds = (y.x.lane l).preds) ∧
      t.mem = y.s.mem ∧ (∀ k, k ≠ y.k → t.blk k = y.s.blk k)) ∧
  (∀ (h : Hdr) (s : State) (y : Iss),
      (∀ o : Waitc, Issues (.waitc h o) s y →
        (y.ex = [] ∨ y.x.counter o.cls ≤ o.thr.toNat → Passes (.waitc h o) s y y.base) ∧
        (y.ex ≠ [] → o.thr.toNat < y.x.counter o.cls →
          exec (.waitc h o) s = .next (if o.cls = .mma ∧ isAnnex y.b.die = true
            then y.s.migrate y.k y.n false { cls := .migr, cause := 1, lane := lowest y.act }
            else y.waitLanes (.waitc h o) (.count o.cls o.thr.toNat)))) ∧
      (∀ n : BitVec 6, Issues (.cmdWait h n) s y →
        (y.ex = [] ∨ y.b.cmdPending y.x n.toNat = false → Passes (.cmdWait h n) s y y.base) ∧
        (y.ex ≠ [] → y.b.cmdPending y.x n.toNat = true →
          exec (.cmdWait h n) s = .next (y.waitLanes (.cmdWait h n) (.cmd n.toNat)))) ∧
      (∀ o : RingWait, Issues (.ringWait h o) s y → y.ex ≠ [] →
        let t := y.b.ring o.r.toNat
        (t.s ≤ o.k.toNat → Traps (.ringWait h o) s y { cls := .fmt, lane := lowest y.act }) ∧
        (o.k.toNat < t.s → t.past (t.rel + o.k.setWidth 32) = true → Passes (.ringWait h o) s y y.base) ∧
        (o.k.toNat < t.s → t.past (t.rel + o.k.setWidth 32) = false →
          exec (.ringWait h o) s = .next (y.waitLanes (.ringWait h o) (.ring o.r.toNat o.k.toNat)))) ∧
      (∀ o : RingRel, Issues (.ringRel h o) s y → y.ex ≠ [] →
        let t := y.b.ring o.r.toNat
        (t.fill = t.rel → Traps (.ringRel h o) s y { cls := .barbusy, lane := lowest y.act }) ∧
        (t.fill ≠ t.rel → y.s.orderReady y.b y.x .rel .blk = true →
          Passes (.ringRel h o) s y (y.base.modBlk y.k fun b => b.modRing o.r.toNat fun t => { t with rel := t.rel + 1 }))) ∧
      (∀ o : RingInit, Issues (.ringInit h o) s y → y.ex ≠ [] →
        let t := y.b.ring o.r.toNat
        let busy := t.rsv ≠ t.rel ∨ y.b.ringWaited o.r.toNat = true ∨
          (y.b.cmds.any fun c => c.p0.onRing o.r.toNat || c.p1.onRing o.r.toNat) = true
        let fits := o.base.toNat + o.slots.toNat * (256 * o.z.toNat) ≤ y.b.window
        (¬fits → Traps (.ringInit h o) s y { cls := .perm, lane := lowest y.act }) ∧
        (fits → busy → Traps (.ringInit h o) s y { cls := .barbusy, lane := lowest y.act }) ∧
        (fits → ¬busy → Passes (.ringInit h o) s y (y.base.modBlk y.k fun b => b.modRing o.r.toNat fun _ =>
          { s := o.slots.toNat, base := o.base.toNat, z := o.z.toNat })))) ∧
  (∀ (t : Ring) (q : Word), t.done = [] → (t.complete q).rel = t.rel ∧ (t.complete q).rsv = t.rsv ∧
      (t.complete q).fill = (if q = t.fill then t.fill + 1 else t.fill) ∧
      (q ≠ t.fill → ((t.complete q).complete t.fill).fill = (if q = t.fill + 1 then t.fill + 2 else t.fill + 1))) ∧
  (∀ (s : State) (k n : Nat) (b : Block) (x : Band), s.blk k = some b → b.band n = some x →
    let go (l : Lane) : Prop := ∃ f sc, l.st = .blocked (.release f sc) ∧ s.orderReady b x f sc = true
    x.halted = false → (∃ l ∈ x.lanes, go l) → ∃ t x', exec (.releaseWait k n) s = .next t ∧ t.mem = s.mem ∧
      ((t.blk k).bind fun b => b.band n) = some x' ∧ x' = { x with lanes := x'.lanes } ∧
      ∀ l, l < x.lanes.length → (go (x.lane l) → x'.lane l = { x.lane l with st := .ready }) ∧
        (¬go (x.lane l) → x'.lane l = x.lane l))

/-- Gangs and tile descriptors (R353, R358, R384 to R388). -/
def Obligations.GangsAndTiles : Prop :=
  ∀ (h : Hdr) (s : State) (y : Iss),
    (∀ m : GMask, Issues (.gangSet h m) s y → y.ex ≠ [] →
      let w : Word := match m with
        | .lit v => v.setWidth 32
        | .u r => y.x.u r.toNat
      let fits := w.toNat < 2 ^ y.b.bands.length ∧ popN (w.setWidth 64) 16 ≤ 6 ∧ w.toNat < 2 ^ 16
      (¬fits → Traps (.gangSet h m) s y { cls := .fmt, lane := lowest y.act }) ∧
      (fits → y.b.latch ≠ [] → Traps (.gangSet h m) s y { cls := .barbusy, lane := lowest y.act }) ∧
      (fits → y.b.latch = [] → Passes (.gangSet h m) s y (y.base.modBlk y.k fun b => b.setGang (w.setWidth 16)))) ∧
    (Issues (.gangClr h) s y → y.ex ≠ [] →
      (y.b.latch ≠ [] → Traps (.gangClr h) s y { cls := .barbusy, lane := lowest y.act }) ∧
      (y.b.latch = [] → Passes (.gangClr h) s y (y.base.modBlk y.k fun b => b.setGang 0))) ∧
    (∀ o : TileSet, Issues (.tileSet h o) s y → y.ex ≠ [] →
      let d : TileD := match o.src with
        | .ext w => ⟨w.setWidth 128⟩
        | .u r => ⟨y.x.u64 (r.toNat + 2) ++ y.x.u64 r.toNat⟩
      (d.reservedZero = false → Traps (.tileSet h o) s y { cls := .fmt, lane := lowest y.act }) ∧
      (d.reservedZero = true →
        Passes (.tileSet h o) s y (y.base.modBlk y.k fun b => { b with tiles := b.tiles.set o.x.toNat d }))) ∧
    (∀ o : TileGet, ComputesFor (.tileGet h o) s y fun _ =>
      .dst (.u o.d) true ((y.b.tiles.getD o.x.toNat {}).bits.extractLsb' (if o.hi then 64 else 0) 64))

/-- Copies (R340 to R349, R367, R371 to R378): an accepted copy joins the block's copies with the operands read at its
issue and has moved nothing yet; the band's counter counts it; its checks trap first, and it waits without a queue entry. -/
def Obligations.CopiesAccepted : Prop :=
  ∀ (h : Hdr) (s : State) (y : Iss),
    (∀ o : Cpy, Issues (.cpy h o) s y → y.ex ≠ [] →
      (∀ t, y.copyTrap o (y.sliceOf o) = some t → Traps (.cpy h o) s y t) ∧
      (y.copyTrap o (y.sliceOf o) = none → y.copyWaits o.dk o.rn.toNat ((y.sliceOf o).dst.setWidth 32) = true →
        exec (.cpy h o) s = .next y.s) ∧
      (y.copyTrap o (y.sliceOf o) = none → y.copyWaits o.dk o.rn.toNat ((y.sliceOf o).dst.setWidth 32) = false →
        ∃ t c, exec (.cpy h o) s = .next t ∧ y.Moved t (y.inLine (.cpy h o)) ∧
          (t.blk y.k).map Block.copies = some (y.b.copies ++ [c]) ∧ c.id = y.s.serial ∧ c.slices = [y.sliceOf o] ∧
          c.dk = o.dk ∧ c.scr = o.scr ∧ c.bar = o.bar ∧ c.scope = o.scope ∧ c.done = [] ∧ c.fault = none ∧
          (y.bandIn t).cpyOut = y.x.cpyOut ++ [(y.s.serial, false)])) ∧
    (∀ o : Cpy, Issues (.cpyCol h o) s y → y.ex ≠ [] → y.copyTrap o (y.sliceOf o) = none →
      let mine := y.b.cols.find? fun c => c.k == y.x.colSeq
      let id := (mine.map Collective.id).getD y.s.serial
      (y.colWaits o (y.sliceOf o) id mine = true → exec (.cpyCol h o) s = .next y.s) ∧
      (y.colWaits o (y.sliceOf o) id mine = false →
      ∃ u t, y.Goes u t (y.inLine (.cpyCol h o)) ∧ exec (.cpyCol h o) s = .next ((t.acceptCol y.k id).getD t) ∧
        u.mem = y.s.mem ∧ (u.blk y.k).map Block.cols = some (match mine with
          | none => y.b.cols ++ [⟨id, y.x.colSeq, [(y.sliceOf o, o)]⟩]
          | some _ => y.b.cols.map fun c => if c.id = id then { c with slices := c.slices ++ [(y.sliceOf o, o)] } else c) ∧
        (y.bandIn u).colSeq = y.x.colSeq + 1 ∧ (y.bandIn u).cpyOut = y.x.cpyOut ++ [(id, false)] ∧
        (y.bandIn u).lanes = y.x.lanes)) ∧
    (∀ o : CpyPl, Issues (.cpyPl h o) s y → y.ex ≠ [] →
      let d := y.b.tiles.getD o.x.toNat {}
      let r := y.b.ring d.rn
      let ls := y.x.u o.q.toNat
      let kl := y.x.u (o.q.toNat + 1)
      (∀ t, y.planeTrap d ls kl = some t → Traps (.cpyPl h o) s y t) ∧
      (y.planeTrap d ls kl = none → y.copyWaits (if d.rv then .ring else .scr) d.rn 0 = false →
        ∃ t c, exec (.cpyPl h o) s = .next t ∧ y.Moved t (y.inLine (.cpyPl h o)) ∧
          (t.blk y.k).map Block.copies = some (y.b.copies ++ [c]) ∧ c.id = y.s.serial ∧
          c.kind = .planes (y.s.resolve y.b d (r.slotAt r.rsv)) ls.toNat kl.toNat o.xf ∧ c.done = [] ∧ c.bar = o.bar ∧
          (y.bandIn t).cpyOut = y.x.cpyOut ++ [(y.s.serial, false)]))

/-- Matrix commands (R358 to R361, R386, R390 to R397). Of a band outside any gang, a command that passes the checks of its
capture is accepted with its operands resolved; one that fails them traps. A band of a gang joins the entry of the latch at its
place in the sequence, or opens one: a command of another opcode traps; the capturing member's operands are captured, or trap;
while another live member is still to execute it the entry stays in the latch, and the band goes on. The model's choices are the
order of the checks of R398 over several descriptors (log entry 88), and that a command of a gang of one needs a free entry of
the latch too (log entry 97). -/
def Obligations.MatrixCommandsAccepted : Prop :=
  ∀ (h : Hdr) (s : State) (y : Iss) (i : Instr) (m : MFields) (ins : CmdIns),
    (∃ o : AccClr, i = .accClr h o ∧ m = o.m ∧ ins = .accClr o.acc.toNat o.x) ∨
    (∃ o : Mma, i = .mma h o ∧ m = o.m ∧ ins = .mma o.acc.toNat o.xa.toNat o.xb.toNat) ∨
    (∃ o : PlanePack, i = .planePack h o ∧ m = o.m ∧
      ins = .pack o.x.toNat (y.x.u o.a.toNat) (y.x.u o.st.toNat) o.s16 o.scale) ∨
    (∃ o : PlaneUnpack, i = .planeUnpack h o ∧ m = o.m ∧
      ins = .unpack o.x.toNat (y.x.u o.a.toNat) (y.x.u o.st.toNat) o.s16) ∨
    (∃ o : AccRd, i = .accRd h o ∧ m = o.m ∧ ins = .accRd o (match o.dst with
      | .regs _ => 0
      | .scr a _ => y.x.u a.toNat) (match o.dst with
      | .regs _ => 0
      | .scr _ st => y.x.u st.toNat) (laneSet y.ex)) ∨
    (∃ o : AccWr, i = .accWr h o ∧ m = o.m ∧ ins = .accWr o (y.x.u o.a.toNat) (y.x.u o.st.toNat)) ∨
    (∃ o : CbtLd, i = .cbtLd h o ∧ m = o.m ∧ ins = .cbtLd (y.x.u o.a.toNat)) →
    Issues i s y → y.ex ≠ [] →
    (∀ e, y.b.entryFor y.n y.x.mmaSeq = some e → e.opc ≠ opcNat i →
      Traps i s y { cls := .fmt, lane := lowest y.act }) ∧
    (∀ e found, y.b.entryFor y.n y.x.mmaSeq = found →
      e = found.getD ⟨y.s.serial, y.x.mmaSeq, opcNat i, y.b.gangOf y.n, y.b.gangOf y.n, [], none⟩ →
      e.opc = opcNat i → y.b.lateCapture e = false →
      let mine := y.b.captures e y.n
      (mine = true → y.b.idBusy m.id.toNat = false → ∀ t, y.s.capture y.k y.b ⟨y.n, m, ins⟩ = .error t →
        Traps i s y { t with lane := lowest y.act }) ∧
      (∀ c, (mine = true → y.b.idBusy m.id.toNat = false ∧ ∃ c', y.s.capture y.k y.b ⟨y.n, m, ins⟩ = .ok c' ∧ c = some c') →
        (mine = false → c = none) → (∃ j ∈ e.waiting, j ≠ y.n ∧ j ∈ y.b.liveBands) →
        y.x.mmaOut.length < counterMax → (found = none → y.b.latch.length < 8) →
        let e' : LatchEnt := { e with
          waiting := e.waiting.filter (· != y.n), got := e.got ++ [⟨y.n, m, ins⟩], captured := e.captured.or c }
        ∃ t, exec i s = .next t ∧ y.Moved t (y.inLine i) ∧ (t.blk y.k).map Block.cmds = some y.b.cmds ∧
          (t.blk y.k).map Block.latch = some (match found with
            | some _ => y.b.latch.map fun f => if f.key = e.key then e' else f
            | none => y.b.latch ++ [e']) ∧
          (y.bandIn t).mmaOut = y.x.mmaOut ++ [(e.key, false)] ∧ (y.bandIn t).mmaSeq = y.x.mmaSeq + 1)) ∧
    (y.b.gang.getLsbD y.n = false → y.b.entryFor y.n y.x.mmaSeq = none → y.b.idBusy m.id.toNat = false →
    (∀ t, y.s.capture y.k y.b ⟨y.n, m, ins⟩ = .error t → Traps i s y { t with lane := lowest y.act }) ∧
    (∀ c, y.s.capture y.k y.b ⟨y.n, m, ins⟩ = .ok c → y.x.mmaOut.length < counterMax → y.b.latch.length < 8 →
      ∃ t cmd, exec i s = .next t ∧ y.Moved t (y.inLine i) ∧ (t.blk y.k).map Block.cmds = some (y.b.cmds ++ [cmd]) ∧
        cmd.op = c.op ∧ cmd.id = m.id.toNat ∧ cmd.st = .accepted ∧ cmd.members = [y.n] ∧
        (y.bandIn t).mmaOut = y.x.mmaOut ++ [(cmd.key, false)] ∧ (y.bandIn t).mmaSeq = y.x.mmaSeq + 1))

/-! ### Traps and the handler -/

/-- Handler entry (R404, R406, R408): a trap of the handler path, with a handler, outside one, and without THALT, records
the trap, saves the program counter and the lanes, sets INH and sends the lanes to HBASE; registers, predicates and every
other band and block are as they were. A pending asynchronous trap is taken in the same way at the band's boundary. -/
def Obligations.HandlerEntry : Prop :=
  (∀ (s : State) (k n : Nat) (t : Trap) (pc : DWord) (act : List Nat) (b : Block) (x : Band),
      s.blk k = some b → b.band n = some x → b.hbase ≠ 0 → x.inh = false →
      s.dbg b 4 = false ∨ x.dbgctl.getLsbD 2 = false → t.fail = false → t.cls ≠ .page → ¬(t.cls = .stream ∧ t.cause = 3) →
      ∃ x', s.syncTrap k n t pc act = s.setBlk k (b.setBand n x') ∧ x'.tepc = pc ∧ x'.taddr = t.addr ∧
        x'.tmask = laneSet act ∧ x'.tstat.extractLsb' 0 8 = BitVec.ofNat 8 t.cls.code ∧
        x'.tstat.extractLsb' 8 8 = BitVec.ofNat 8 t.cause ∧ x'.tstat.extractLsb' 16 6 = BitVec.ofNat 6 t.lane ∧
        x'.tstat.extractLsb' 22 3 = BitVec.ofNat 3 t.opnd ∧ x'.tstat.getLsbD 25 = false ∧ x'.inh = true ∧
        x'.tinfo.extractLsb' 0 8 = BitVec.ofNat 8 t.reg ∧ x'.tinfo.getLsbD 31 = false ∧ x'.tokens = 0 ∧
        x'.uregs = x.uregs ∧ x'.fstat = x.fstat ∧ x'.bctl = x.bctl ∧ x'.tscr = x.tscr ∧
        ∀ l, l < x.lanes.length → x'.lane l =
          if l ∈ act then { x.lane l with pc := b.hbase, yieldMark := false } else x.lane l) ∧
  (∀ (s : State) (k n which : Nat) (b : Block) (x : Band) (ch : Choice) (a : AsyncTrap),
    s.blk k = some b → b.band n = some x → b.hbase ≠ 0 → x.inh = false →
    s.dbg b 4 = false ∨ x.dbgctl.getLsbD 2 = false → b.st = .running → x.halted = false → x.choose = some ch → x.dueTrap = some (which, a) →
    ∃ t x', exec (.asyncTrapEntry k n) s = .next t ∧ t.mem = s.mem ∧ ((t.blk k).bind fun b => b.band n) = some x' ∧
      (∀ i, i ≠ k → t.blk i = s.blk i) ∧ x'.tepc = ch.pc ∧ x'.taddr = a.trap.addr ∧
      x'.tmask = laneSet ch.active ∧ x'.tstat.extractLsb' 0 8 = BitVec.ofNat 8 a.trap.cls.code ∧
      x'.tstat.getLsbD 25 = true ∧ x'.inh = true ∧ x'.tinfo.getLsbD 31 = a.ovf ∧
      (which = 0 → x'.asyncCopy = none) ∧ (which = 1 → x'.asyncCmd = none) ∧ (which = 2 → x'.asyncDl = none) ∧
      x'.uregs = x.uregs ∧ x'.fstat = x.fstat ∧ ∀ l, l < x.lanes.length → x'.lane l =
        if l ∈ ch.active then { x.lane l with pc := b.hbase, yieldMark := false } else x.lane l)

/-- A trap inside the handler, or without a handler, fails the grid with status 4: its accepted grid is failing, its blocks
stop, and its open samples are deaccessioned (R403, R408, R411, R461). -/
def Obligations.TrapWithoutHandlerFails : Prop :=
  ∀ (s : State) (k n : Nat) (t : Trap) (pc : DWord) (act : List Nat) (b : Block) (x : Band) (g : Grid),
    s.blk k = some b → b.band n = some x → s.grid b.lid = some g → g.st = .accepted →
    (t.fail = true ∨ ((b.hbase = 0 ∨ x.inh = true) ∧ t.cls ≠ .page ∧ ¬(t.cls = .stream ∧ t.cause = 3) ∧
      ¬(s.dbg b 4 = true ∧ x.dbgctl.getLsbD 2 = true ∧ x.inh = false))) →
    ((s.syncTrap k n t pc act).grid b.lid).map Grid.st = some (.failing 4) ∧
    (∀ k' b', s.blk k' = some b' → b'.lid = b.lid →
      ((s.syncTrap k n t pc act).blk k').map Block.st = some (.stopped false none 0)) ∧
    (∀ k' b', s.blk k' = some b' → b'.lid ≠ b.lid → (s.syncTrap k n t pc act).blk k' = some b') ∧
    (keysRise s.samples = true → ∀ p ∈ (s.syncTrap k n t pc act).samples, p.2.lid = b.lid → p.2.open' = false)

/-- Software traps and `halt` (R414, R416, R432): `sys`, `trap` and `brk` raise their trap at the lowest active lane, with
the number as its cause; under a debugger `brk` and `halt` halt the band; `halt.fail` fails the grid. That a band which `brk` halts
stands behind the `brk` is the model's choice, log entry 25. -/
def Obligations.SoftwareTraps : Prop :=
  ∀ (h : Hdr) (s : State) (y : Iss) (n : BitVec 8), y.ex ≠ [] →
    (Issues (.sys h n) s y → Traps (.sys h n) s y { cls := .sys, cause := n.toNat, lane := lowest y.act }) ∧
    (Issues (.trap h n) s y →
      Traps (.trap h n) s y { cls := .sys, cause := n.toNat, lane := lowest y.act, fail := true }) ∧
    (Issues (.brk h n) s y →
      (y.s.dbg y.b 0 = false ∨ y.x.dbgctl.getLsbD 0 = false →
        Traps (.brk h n) s y { cls := .brk, cause := n.toNat, lane := lowest y.act }) ∧
      (y.s.dbg y.b 0 = true → y.x.dbgctl.getLsbD 0 = true → ∃ t, exec (.brk h n) s = .next t ∧
        (y.bandIn t).halted = true ∧ t.mem = y.s.mem ∧ ∀ l ∈ y.act, (y.laneIn t l).pc = y.inLine (.brk h n) l)) ∧
    (∀ fail, Issues (.halt h fail) s y →
      (fail = false → y.s.dbg y.b 2 = true → ∃ t, y.Goes y.base t (y.inLine (.halt h fail)) ∧
        exec (.halt h fail) s = .next (t.modBand y.k y.n fun x => { x with halted := true })) ∧
      (fail = true ∨ y.s.dbg y.b 2 = false → ∃ t, exec (.halt h fail) s = .next t ∧
        ∀ g, y.s.grid y.b.lid = some g → g.st = .accepted → (t.grid y.b.lid).map Grid.st = some (.failing 4)))

/-- `rte` (R415): the lanes of TMASK that have not ended are ready at TEPC, or with `.skip` after a synchronous trap at the
instruction after it, whose length is that of the word at TEPC; INH is clear. A band that halts there takes first the
asynchronous trap that is due (R404). -/
def Obligations.HandlerReturn : Prop :=
  ∀ (h : Hdr) (skip : Bool) (s : State) (y : Iss) (target : DWord), Issues (.rte h skip) s y → y.ex ≠ [] →
    (if skip = true ∧ y.x.tstat.getLsbD 25 = false then
      ∃ x, y.s.fetchXl y.b true y.x.tepc (lowest y.act) = .ok x ∧ isReg x.pa = false ∧
        y.s.blockLoan y.b 0 false x.pa = none ∧ (y.s.rdByte x.kid x.pa).toNat % 4 ≠ 3 ∧
        target = y.x.tepc + BitVec.ofNat 64 (8 + 4 * ((y.s.rdByte x.kid x.pa).toNat % 4))
     else target = y.x.tepc) →
    ∃ t, exec (.rte h skip) s = .next (t.haltTake y.k y.n) ∧
      (y.x.dueTrap = none ∨ (y.x.stepping = false ∧ y.x.dbgctl.getLsbD 1 = false) → t.haltTake y.k y.n = t) ∧
      t.mem = y.s.mem ∧ (y.bandIn t).inh = false ∧
      (∀ l, l < y.x.lanes.length → l < 64 → y.x.tmask.getLsbD l = true → (y.laneIn t l).pc = target ∧
        (y.laneIn t l).st = (if (y.x.lane l).st = .exited then .exited else .ready)) ∧
      (∀ l, y.x.tmask.getLsbD l = false → l ∉ y.act → y.laneIn t l = y.x.lane l) ∧
      (∀ l, (y.laneIn t l).vregs = (y.x.lane l).vregs ∧ (y.laneIn t l).preds = (y.x.lane l).preds) ∧
      (y.bandIn t).tepc = y.x.tepc ∧ (y.bandIn t).tmask = y.x.tmask ∧ (y.bandIn t).uregs = y.x.uregs

/-- Control registers (R406, R412, R413, R427, R429, R430): a read gives the register's value; a write changes the writable
fields of that register alone, those of the debug and performance registers where DBGEN allows the facility; an access that the mode or the register forbids raises ILLOP, cause 2. -/
def Obligations.ControlRegisters : Prop :=
  ∀ (h : Hdr) (s : State) (y : Iss),
    (∀ o, ComputesFor (.csrRd h o) s y fun _ => .dst o.d (csrWide o.num) (y.s.csrVal y.b y.x o.num.toNat)) ∧
    (∀ o : CsrWr, Issues (.csrWr h o) s y → y.ex ≠ [] →
      Passes (.csrWr h o) s y ({ y with
        x := y.x.csrPut (((y.s.ctx y.b.asid).map Ctx.dbgen).getD 0) o.num.toNat
          ((y.env (lowest y.ex)).srcW (csrWide o.num) o.a) } : Iss).base) ∧
    (∀ (x : Band) (g : Word) (v : DWord),
      x.csrPut g 0x001 v = { x with fstat := v.setWidth 32 &&& 0x33F } ∧
      x.csrPut g 0x002 v = { x with bctl := v.setWidth 32 &&& 1 } ∧
      x.csrPut g 0x003 v = { x with ilcnt := v.setWidth 32 } ∧
      x.csrPut g 0x021 v = { x with tepc := v &&& ~~~3 } ∧
      (∀ j, j < 4 → x.csrPut g (0x030 + j) v = { x with tscr := x.tscr.set j (v.setWidth 32) }) ∧
      (∃ d, x.csrPut g 0x041 v = { x with dbgctl := d } ∧ ∀ j, d.getLsbD j = (v.getLsbD j &&
        (j == 0 && g.getLsbD 0 || j == 1 && g.getLsbD 1 || j == 2 && g.getLsbD 4))) ∧
      x.csrPut g 0x042 v = (if g.getLsbD 3 = true then { x with pctl := v.setWidth 32 } else x) ∧
      (∀ j, j < 4 → x.csrPut g (0x044 + j) v = (if g.getLsbD 3 = true then { x with pcnt := x.pcnt.set j v } else x)) ∧
      ∀ r ∈ [0x010, 0x020, 0x022, 0x023, 0x024, 0x025, 0x026, 0x040], x.csrPut g r v = x) ∧
    (∀ (i : Instr) (num : BitVec 12) (hd : Hdr) (b : Block) (x : Band) (ch : Choice) (write : Bool),
      (∃ o : CsrRd, i = .csrRd hd o ∧ o.num = num ∧ write = false) ∨ (∃ o : CsrWr, i = .csrWr hd o ∧ o.num = num ∧ write = true) →
      s.blk s.curBlock = some b → b.band s.curBand = some x → b.st = .running → x.halted = false → x.choose = some ch →
      csrOk num.toNat x.inh write = false → privileged i = false →
      exec i s = .next ((s.setBlk s.curBlock (b.setBand s.curBand (x.cleared ch))).syncTrap s.curBlock s.curBand
        { cls := .illop, cause := 2, lane := lowest ch.active } ch.pc ch.active))

/-- Context records, TLB upkeep, scrubbing, migration (R417, R418, R422). `ctx.save` stores the band's record in pieces;
`ctx.rest` takes vector registers, uniform registers, predicates and FSTAT back from one; `tlbinv` drops the entries it
covers and `scrub` stores zeros over each line; `migr` to the profile at hand goes on, to the other one stops the block. The
model's choices are: `ctx.rest` raises the horizon by the W of what it reads (log entry 24), `ctx.save` writes whole sections of
the record (log entry 26), and the layout of the record where R420 leaves places open (log entry 69). -/
def Obligations.ContextAndUpkeep : Prop :=
  ∀ (h : Hdr) (s : State) (y : Iss), y.ex ≠ [] →
    (∀ (a : BitVec 6) (xs : List LaneX), Issues (.ctxSave h a) s y →
      y.ctxReach .write (y.x.u64 a.toNat).toNat (y.x.ctxBytes y.b.vregs) = .ok xs → (∀ q ∈ xs, isReg q.x.pa = false) →
      y.held false xs = none → y.full xs = none →
      Passes (.ctxSave h a) s y (((y.fills y.base xs).storeAll y.k y.n 0 (y.s.storeSeq y.k y.n) false (fun _ => false) none
        ((xs.zip (y.x.ctxBytes y.b.vregs)).map fun q => ⟨q.1.va, q.1.x, q.2.2⟩)).nextStoreSeq y.k y.n)) ∧
    (∀ (a : BitVec 6) (xs : List LaneX), Issues (.ctxRest h a) s y →
      y.ctxReach .read (y.x.u64 a.toNat).toNat (y.x.ctxBytes y.b.vregs) = .ok xs → (∀ q ∈ xs, isReg q.x.pa = false) →
      let rs := (xs.zip (y.x.ctxBytes y.b.vregs)).map fun q => (q.1, q.2.2.length)
      let hs := rs.filterMap fun r => y.handAll false r.1 r.2
      y.held true xs = none → y.missing false rs = [] → (∀ r ∈ rs, y.poisoned false r.2 [r.1] = none) →
      let bs := hs.map AtHand.bs
      let x : Band := { y.x with fstat := BitVec.ofNat 32 (leVal ((bs.drop 3).headD [])) &&& 0x33F }
      let y' : Iss := { y with s := y.fills y.s xs, x := x.took hs }
      Passes (.ctxRest h a) s y (y'.putOuts (ctxOuts y.x.lanes.length y.b.vregs y.b.uregs bs))) ∧
    (∀ k : TKind, Issues (.tlbinv h k) s y →
      ((∃ a ∈ (y.tlbSel k).1, a ∉ y.s.asidsOf y.b.fn) → Traps (.tlbinv h k) s y { cls := .perm, lane := lowest y.act }) ∧
      ((∀ a ∈ (y.tlbSel k).1, a ∈ y.s.asidsOf y.b.fn ∧ y.s.ctxQuiet a = true) →
        ∃ t, exec (.tlbinv h k) s = .next t ∧ y.Moved t (y.inLine (.tlbinv h k)) ∧
          (∀ c, ∀ e ∈ (t.core c).tlb, (y.tlbSel k).2 e = false) ∧
          ∀ d l, tget t.dieTlb d = some l → ∀ e ∈ l, (y.tlbSel k).2 e = false)) ∧
    (∀ (a : Src) (xs : List LaneX), Issues (.scrub h a) s y →
      y.s.xlateAll y.b.core y.b.asid y.b.fn y.b.sid y.x.inh .write ((y.addrs a 0).map fun p => (p.1, p.2 / 128 * 128)) =
        .ok xs → (∀ q ∈ xs, isReg q.x.pa = false) → y.held false xs = none → y.full xs = none →
      Passes (.scrub h a) s y (((y.fills y.base xs).storeAll y.k y.n 0 (y.s.storeSeq y.k y.n) false (fun _ => true) none
        ((linesOf xs).filterMap fun line => (xs.find? fun q => lineOf q.x.pa == line).map fun q =>
          ⟨q.va, q.x, List.replicate 128 0⟩)).nextStoreSeq y.k y.n)) ∧
    (∀ t : MTgt, Issues (.migr h t) s y → y.b.later = false →
      ((y.b.migrGoal t).1 = true → Passes (.migr h t) s y y.base) ∧
      ((y.b.migrGoal t).1 = false → y.b.sid = none →
        (∀ g, y.s.grid y.b.lid = some g → g.pkt.pin = false) →
        ∃ u, y.Goes y.base u (y.inLine (.migr h t)) ∧
          exec (.migr h t) s = .next ((u.modBlk y.k fun b => { b with
            mover := some (y.n, { cls := .migr, lane := lowest y.act }) }).stopBlock y.k false (some (y.b.migrGoal t).2))))

/-! ### The device's own steps -/

/-- Packets (R254, R257, R258, R481): the packet that its router's output sends first moves along the row and then along the
column, between dies over a link of a shortest path with the least next die, and arrives at its destination. A late
packet is counted at the die and may give its band DEADLINE. -/
def Obligations.PacketsTravel : Prop :=
  (∀ (s : State) (q : Pkt), s.net.find? (fun r => r.id == q.id) = some q → s.firstOut q = true →
    (∀ r port cross, s.nextHop q = some (some (r, port, cross)) → exec (.packetDelivery q.id) s = .next { s with
      net := s.net.map fun o => if o.id = q.id then
        { q with at' := r, inPort := port, since := s.now r.die, crossed := q.crossed + if cross then 1 else 0 } else o }) ∧
    (s.nextHop q = some none →
      ∃ t, exec (.packetDelivery q.id) s = .next t ∧ t.net = s.net.filter (fun r => r.id != q.id) ∧
        t.arrived = s.arrived ++ [{ q with since := s.now q.dest.die }] ∧ t.mem = s.mem ∧ t.homes = s.homes ∧
        t.cores = s.cores ∧ t.pf.netlate =
          (if q.deadline < s.now q.dest.die then modAt s.pf.netlate q.dest.die satInc else s.pf.netlate) ∧
        (s.now q.dest.die ≤ q.deadline → t.blocks = s.blocks ∧ t.grids = s.grids) ∧
        (∀ g k n b x, q.deadline < s.now q.dest.die → s.grid q.lid = some g → g.dlx = true → g.lastDl = none →
          q.block = some (k, n) → q.cls ≠ .probe → (∀ c l d m v w, q.msg ≠ .writeback c l d m v w) →
          (∀ l i kid nc, q.msg ≠ .engine l i kid nc ∧ q.msg ≠ .engineRep l i) → s.blk k = some b →
          b.sid = none → b.band n = some x → x.asyncDl = none →
          ((t.blk k).bind fun b => b.band n).map Band.asyncDl = some (some ⟨{ cls := .deadline }, false, s.serial⟩) ∧
          (t.grid q.lid).map Grid.lastDl = some (some s.time)))) ∧
  (∀ (a b r : Router) (port : Nat), a.hop b = some (r, port) →
    r = if a.col = b.col then { a with row := b.row } else { a with col := b.col }) ∧
  (∀ (s : State) (a b : Nat) (l : Nat × Nat × Nat), s.nextLink a b = some l → l ∈ s.linksFrom a ∧ ∃ n,
    s.joined n a b = false ∧ s.joined n l.2.1 b = true ∧
    ∀ m ∈ s.linksFrom a, s.joined n m.2.1 b = true → l.2.1 ≤ m.2.1)

/-- Homes serve requests in the order of their arrival, when no loan holds them (R245 to R247, R281, R285, R320). A load gets
the line's bytes and a lease; a line that is not in its slice is read from its stack first; the stores of an instruction to
a line are performed at their W and acknowledged; ownership is granted by a reply once other leases are over; a line that a core
owns, or the host holds, is recalled first (R502); the read-modify-writes of an instruction on a line are performed in lane
order and answer the values before; a watch check is answered by the line's version. What an engine, the walker, the
dispatcher or the host asks a home for is answered without data, which its unit takes in its own step (the model's choice,
log entry 71). What has waited is served in the order of arrival, and a wait's end is its arrival (the model's choice where the
rules are silent, log entry 79). -/
def Obligations.HomesServeRequests : Prop :=
  ∀ (s : State) (q : Pkt), s.waitingPkt q.id = some q →
    let due (line : Nat) : Prop := s.pktLoan q line = none ∧ s.turnOf q line = true
    let free (line : Nat) : Prop := due line ∧ s.hostHeld.contains line = false
    (∀ line i, (i = .loadRequest q.id ∧ ∃ k n op core kid unc nc sc watch,
          q.msg = .loadReq k n op core line kid unc nc sc watch) ∨
        (i = .storeArrival q.id ∧ ∃ r : StoreReq, q.msg = .storeReq r ∧ r.line = line) ∨
        (i = .storeArrival q.id ∧ ∃ r : AtomReq, q.msg = .atomReq r ∧ r.line = line) ∨
        (i = .ownershipGrant q.id ∧ ∃ core, q.msg = .ownReq core line) →
      due line → s.hostHeld.contains line = true → s.hostAsked.contains line = false →
      ∃ t, exec i s = .next t ∧ t.mem = s.mem ∧ t.arrived = s.arrived ∧ t.hostAsked = s.hostAsked ++ [line] ∧
        ∃ p ∈ t.net, p.cls = .probe ∧ p.deadline = q.deadline ∧ p.dest = hostRouter) ∧
    (∀ k n op core line kid unc nc sc watch, q.msg = .loadReq k n op core line kid unc nc sc watch → free line →
      let pa := 128 * line
      let h := s.home line
      let e := s.now (homeDie pa) + s.leaseLen
      (h.owner = none → s.cold pa = false → nc = false ∨ isHost pa = true ∨ h.inSlice = true →
        ∃ t, exec (.loadRequest q.id) s = .next t ∧ t.mem = s.mem ∧
        (unc = false → e ≤ (t.home line).lx) ∧ ∃ p ∈ t.net, ∃ ec, p.deadline = q.deadline ∧
          p.msg = .loadRep k n op core line 0 unc sc (s.rd kid pa 128) (if unc then 0 else e) h.version h.w ec
            (s.linePoison pa)) ∧
      (h.owner = none → nc = false → s.cold pa = true → s.fetching line = false →
        ∃ t, exec (.loadRequest q.id) s = .next t ∧ t.mem = s.mem ∧ t.arrived = s.arrived ∧ t.fetching line = true) ∧
      (∀ c, h.owner = some c → h.recalling = false → ∃ t, exec (.loadRequest q.id) s = .next t ∧ t.mem = s.mem ∧
        t.arrived = s.arrived ∧ (t.home line).recalling = true ∧
        ∃ p ∈ t.net, p.deadline = q.deadline ∧ p.msg = .recall c line)) ∧
    (∀ r : StoreReq, q.msg = .storeReq r → free r.line → Memory.wf s.mem = true → s.fetching r.line = false →
      (s.home r.line).owner = none ∨
        (r.sc = false ∧ (s.home r.line).owner = some r.core ∧ s.owns r.core r.line = true) →
      (∀ p ∈ r.parts, 128 * r.line ≤ p.2.1 ∧ p.2.1 + p.2.2.length ≤ 128 * r.line + 128 ∧ p.2.2 ≠ []) →
      let w := s.wOf (128 * r.line) (s.storeA q (128 * r.line))
      ∃ t, exec (.storeArrival q.id) s = .next t ∧
        (∀ a, a / 128 = r.line → t.rdByte r.kid a = if s.deadAt (128 * r.line) = true then s.rdByte r.kid a
          else r.parts.foldl (fun v p =>
            if p.2.1 ≤ a ∧ a < p.2.1 + p.2.2.length then p.2.2.getD (a - p.2.1) 0 else v) (s.rdByte r.kid a)) ∧
        (∀ a, (∀ p ∈ r.parts, ∀ j, j < p.2.2.length → a / 32 ≠ (p.2.1 + j) / 32) → mget t.mem a = mget s.mem a) ∧
        (r.parts ≠ [] → (t.home r.line).w = max (s.home r.line).w w) ∧
        (t.home r.line).version = (s.home r.line).version + r.parts.length ∧
        (r.nc = false → ∃ p ∈ t.net, p.deadline = q.deadline ∧ p.msg = .storeAck r w (t.home r.line).version false)) ∧
    (∀ (r : AtomReq) (b : Block) (x : Band) (o : PendOp) (op : AOp) (w64 : Bool) (kid : Nat), q.msg = .atomReq r →
      free r.line → (s.home r.line).owner = none → Memory.wf s.mem = true →
      s.cold (128 * r.line) = false ∨ (r.nc = true ∧ s.fetching r.line = false) → s.deadAt (128 * r.line) = false →
      s.blk r.block = some b → b.band r.band = some x → x.pend.find? (fun p => p.id == r.op) = some o →
      o.kind = .atom op w64 ∨ o.kind = .red op w64 →
      let sz := if w64 then 8 else 4
      (∀ l ∈ r.lanes, l.kid = kid ∧ 128 * r.line ≤ l.pa ∧ l.pa + sz ≤ 128 * r.line + 128) →
      let run := r.lanes.foldl (fun (u : (Nat → Byte) × List DWord) l =>
        let old : DWord := BitVec.ofNat 64 (leVal ((List.range sz).map fun j => u.1 (l.pa + j)))
        let new := leBytes sz (aopW op w64 old (o.b.getD l.j 0) (o.c.getD l.j 0)).toNat
        ((fun a => if l.pa ≤ a ∧ a < l.pa + sz then new.getD (a - l.pa) 0 else u.1 a), u.2 ++ [old])) (s.rdByte kid, [])
      let now := s.now (homeDie (128 * r.line))
      ∃ t, exec (.storeArrival q.id) s = .next t ∧ (∀ a, a / 128 = r.line → t.rdByte kid a = run.1 a) ∧
        ∃ p ∈ t.net, ∃ v, p.deadline = q.deadline ∧
          p.msg = .atomRep r run.2 (if o.kind = .red op w64 then now else max now (s.home r.line).w) v) ∧
    (∀ core line, q.msg = .ownReq core line → free line → s.cold (128 * line) = false →
      (s.home line).owner = none ∨ ((s.home line).owner = some core ∧ s.owns core line = true) →
      ((s.home line).owner = none →
        max (s.home line).lx (s.floorOf (128 * line)) ≤ s.now (homeDie (128 * line))) →
      ∃ t, exec (.ownershipGrant q.id) s = .next t ∧ t.mem = s.mem ∧ (t.home line).owner = some core ∧
        ∃ p ∈ t.net, p.deadline = q.deadline ∧ p.msg = .ownRep core line) ∧
    (∀ k n op core line version, q.msg = .watchChk k n op core line version → s.storeDue q line = false →
      let ok : Bool := (s.home line).recorded && (s.home line).version == version
      let e := q.since + s.leaseLen
      ∃ t, exec (.watchCheck q.id) s = .next t ∧ t.mem = s.mem ∧ (ok = true → e ≤ (t.home line).lx) ∧
        ∃ p ∈ t.net, p.deadline = q.deadline ∧ p.msg = .watchAns k n op line version (if ok then some e else none)) ∧
    (∀ line id kid nc, q.msg = .engine line id kid nc → (q.cls = .request → s.hostHeld.contains line = false) →
      ∃ t, exec (.loadRequest q.id) s = .next t ∧ t.mem = s.mem ∧
      (q.cls = .request → nc = false → isDev (128 * line) = true ∨ isHost (128 * line) = true →
        (t.home line).inSlice = true) ∧
      ∃ p ∈ t.net, p.deadline = q.deadline ∧ p.dest = q.src ∧ p.msg = .engineRep line id)

/-- Replies, recalls and expiries at the cores, stack channels, page walks (R244, R247, R250, R268, R274, R278, R285, R471,
R485 to R489). A load's reply gives the lanes that wait for it their registers, and fills the L1 unless the core knows a newer
version, has a store of its own out, or has stored a newer one (the model's choice, log entry 12). A line's grant makes its core
the owner. A read of the stack that meets an uncorrectable error leaves its line poisoned at the home (the model's choice of
the whole line, log entry 43). -/
def Obligations.CoresTakeReplies : Prop :=
  ∀ (s : State) (q : Pkt),
    (s.waitingPkt q.id = some q →
      (∀ r w version err b x, q.msg = .storeAck r w version err → s.blk r.block = some b → b.band r.band = some x →
        ∃ t x', exec (.storeCompletion q.id) s = .next t ∧ t.mem = s.mem ∧
          ((t.blk r.block).bind fun b => b.band r.band) = some x' ∧ x'.lanes = x.lanes ∧ x'.uregs = x.uregs ∧
          r.id ∉ x'.waitW ∧ x.horizon ≤ x'.horizon ∧
          (r.push = none → x'.horizon = max x.horizon w ∧ x'.storesOut = x.storesOut - 1 ∧ x'.pushesOut = x.pushesOut) ∧
          (∀ p, r.push = some p → x'.storesOut = x.storesOut ∧
            x'.pushesOut = x.pushesOut.map fun o => if o.1 = p then (p, max o.2 w) else o) ∧
          x'.werr = (if err = true ∧ x.werr = none then r.parts.head?.map fun a => BitVec.ofNat 64 a.1 else x.werr)) ∧
      (∀ c line, q.msg = .recall c line → s.owns c line = true ∨ s.granting c line = false →
        ∃ t, exec (.recall q.id) s = .next t ∧ t.mem = s.mem ∧ t.owns c line = false ∧
          (s.owns c line = true → ∃ p ∈ t.net, ∃ d m v, p.deadline = q.deadline ∧ p.msg = .writeback c line d m v none)) ∧
      (∀ c line d m v wb, q.msg = .writeback c line d m v wb → (s.home line).owner = some c → s.owns c line = false →
        s.granting c line = false →
        ∃ t, exec (.ownerWriteback q.id) s = .next t ∧ t.mem = s.mem ∧ (t.home line).owner = none ∧
          (t.home line).recalling = false ∧ (t.home line).version = (s.home line).version) ∧
      (∀ core line, q.msg = .ownRep core line →
        ((s.home line).owner = some core → ∃ t, exec (.loadReply q.id) s = .next t ∧
          ((∀ p ∈ s.blocks, ∀ x ∈ p.2.bands, x.pend = []) → t.mem = s.mem ∧ t.owns core line = true ∧
            (s.home line).version ≤ (t.core core).newestOf line)) ∧
        ((s.home line).owner ≠ some core → s.atomsWait core line = false →
          exec (.loadReply q.id) s = .next (s.takePkt q.id))) ∧
      (∀ line id, q.msg = .engineRep line id → exec (.loadReply q.id) s = .next (s.takePkt q.id)) ∧
      (∀ k n op core line lo unc sc data expiry version w ec psn,
        q.msg = .loadRep k n op core line lo unc sc data expiry version w ec psn →
        (∃ t, exec (.loadReply q.id) s = .next t) ∧
        (∀ (b : Block) (x : Band) (o : PendOp) (sz : LSize), s.blk k = some b → b.band n = some x →
          x.pend.find? (fun p => p.id == op) = some o → o.kind = .load sz → o.push = none → (o.lanes.map (·.lane)).Nodup →
          let bytes (l : PendLane) : BitVec 128 :=
            if l.done then l.data else bytesV ((data.drop (l.pa % 128 - lo)).take (lsizeBytes sz))
          (∀ l ∈ o.lanes, l.lane < x.lanes.length ∧ (l.done = false → lineOf l.pa = line ∧ lo ≤ l.pa % 128 ∧
            l.pa % 128 + lsizeBytes sz ≤ lo + data.length)) →
          ∃ t x', exec (.loadReply q.id) s = .next t ∧ t.mem = s.mem ∧ ((t.blk k).bind fun b => b.band n) = some x' ∧
            x'.pend = x.pend.filter (fun p => p.id != op) ∧ x'.horizon = max x.horizon w ∧ x'.uregs = x.uregs ∧
            (∀ l ∈ o.lanes, ∀ r, r < (x.lane l.lane).vregs.length → b.isPort r = false →
              (x'.lane l.lane).v r = written (wordsAt o.d (loadWords sz (bytes l))) r ((x.lane l.lane).v r)) ∧
            (∀ j, (∀ l ∈ o.lanes, l.lane ≠ j) → (x'.lane j).vregs = (x.lane j).vregs) ∧
            (unc = false → s.owns core line = false → (s.core core).newestOf line ≤ version →
              (tget (s.core core).stored line).getD 0 ≤ version → (∀ u ∈ (s.core core).unacked, u.2 ≠ line) →
              ∃ c ∈ (t.core core).l1, c.line = line ∧ c.owned = false ∧ c.expiry = expiry ∧ c.version = version ∧
                c.data = data))) ∧
      (∀ r old w version b x, q.msg = .atomRep r old w version → s.blk r.block = some b → b.band r.band = some x →
        x.pend.any (fun p => p.id == r.op) = true → ∃ t x', exec (.loadReply q.id) s = .next t ∧
          ((t.blk r.block).bind fun b => b.band r.band) = some x' ∧ max x.horizon w ≤ x'.horizon ∧
          version ≤ (t.core r.core).newestOf r.line) ∧
      (∀ k n op line version ec b x, q.msg = .watchAns k n op line version ec → s.blk k = some b → b.band n = some x →
        ∃ t x', exec (.watchAnswer q.id) s = .next t ∧ t.mem = s.mem ∧ ((t.blk k).bind fun b => b.band n) = some x' ∧
          x'.lanes = x.lanes ∧ x'.watch = x.watch.map fun e =>
            if e.op = op ∧ e.line = line ∧ e.st = .unresolved then
              { e with st := if ec.isSome then .confirmed else .struck, ec := ec.getD 0 } else e)) ∧
    (∀ core line c, (s.core core).l1Line line = some c → c.owned = false → c.expiry ≤ s.now (coreDie core) →
      exec (.leaseExpiry core line) s = .next (s.setCore core ((s.core core).l1Drop line))) ∧
    (∀ ch c r rest tag, tget s.channels ch = some c → c.queue = r :: rest → tag < 8 → tget c.out tag = none →
      (∀ u, u < tag → (tget c.out u).isSome = true) → exec (.stackRequest ch) s =
        .next { s with channels := tset s.channels ch { c with queue := rest, out := tset c.out tag r } }) ∧
    (∀ ch c r tag found, tget s.channels ch = some c → tget c.out tag = some r → r.kind = .rd → keysRise c.out = true →
      ∃ t, exec (.stackReply ch tag found) s = .next t ∧ t.mem = s.mem ∧
        ((tget t.channels ch).map fun c => tget c.out tag) = some none ∧
        (found = 2 ∨ c.dead = true ∨ r.psn = true → (t.home (lineOf (unitPa ch r.addr))).poisoned = true) ∧
        (found < 2 → c.dead = false → r.psn = false → t.homes = s.homes) ∧ t.cw = s.cw) ∧
    (∀ core asid va c, s.ctx asid = some c →
      (∀ e, s.walk asid none va 4 c.root = .leaf e →
        ∃ t, exec (.pageWalk core asid va) s = .next t ∧ t.mem = s.mem ∧ e ∈ (t.core core).tlb ∧
          ∀ k, k ≠ core → t.core k = s.core k) ∧
      ((∃ cause, s.walk asid none va 4 c.root = .bad cause) ∨ s.walk asid none va 4 c.root = .poison →
        exec (.pageWalk core asid va) s = .next s))

/-- Stream engines, pushes, remote operations, copies (R290 to R295, R331, R333, R341 to R349, R377, R493 to R495). An engine
reads ahead without moving its port; the oldest push retires when its stores are over; a free engine of the die takes a
segment of the copy that comes first, and moves it when the replies to its requests have come; a complete copy leaves the
block. The model's choices: an engine asks for the lines of a whole segment and moves its bytes in one step (log entry 71); what
a port has read ahead keeps its W, and counts as received by its band at once (log entry 24). -/
def Obligations.EnginesWork : Prop :=
  ∀ (s : State) (bk n : Nat) (b : Block), s.blk bk = some b →
    (∀ x : Band, b.band n = some x →
      (∀ k key l off v cs w, let pt := x.ports.getD k {}
        pt.cfg = true → pt.pat.push = false → b.st = .running → pt.nextAhead x.lanes.length = some (key, l, off) →
        s.readElem bk n b x.inh [] pt off = .val v cs w →
        let as := s.elemLines b x.inh pt off
        exec (.streamReadahead bk n k) s = .next
          (((s.engineAsk b.core b.lid (some (bk, n)) 0 as).receivedAll b.core as).modBand bk n fun x =>
            { x with ports := modAt x.ports k fun p =>
              { p with ahead := tset p.ahead key (leBytes 4 v.toNat ++ leBytes 1 cs.toNat ++ leBytes 8 w) } })) ∧
      (∀ id w rest, (∀ p ∈ x.pend, p.stuck = none) → x.pushesOut = (id, w) :: rest → s.pushBusy x id = false →
        w = 0 ∨ w + 4 ≤ s.now b.die →
        exec (.pushRetire bk n) s = .next (s.modBand bk n fun x => { x with pushesOut := rest })) ∧
      (∀ p, x.pend.find? (fun p => p.stuck.isSome && (s.lateStop b p).isNone) = some p →
        exec (.pushRetire bk n) s = .next (s.pendDone bk n p)) ∧
      (∀ ok i, s.rmtDone x ok = some i → ∃ t x', exec (.remoteCompletion bk n ok) s = .next t ∧ t.mem = s.mem ∧
        ((t.blk bk).bind fun b => b.band n) = some x' ∧ x' = { x with rmtOut := x.rmtOut.eraseIdx i } ∧
        x'.rmtCnt + 1 = x.rmtCnt ∧ t.pf.slerr = s.pf.slerr + (if ok then 0 else 1)) ∧
      (x.rmtOut ≠ [] → (s.rmtDone x false).isSome = true) ∧
      (∀ i, s.rmtDone x true = some i → ∃ o, x.rmtOut[i]? = some o ∧ s.reaches o = true) ∧
      ((∃ o ∈ x.rmtOut, s.reaches o = true) → (s.rmtDone x true).isSome = true)) ∧
    (∀ f kind off operand,
      (9 ≤ kind → exec (.remoteOperation f kind off operand) s = .next s.slerrInc) ∧
      (∀ win : DWord × DWord, (tget s.pf.slwin f).getD (0, 0) = win →
        let size := win.2.toNat % 2 ^ 48
        let va := (win.1 + BitVec.ofNat 64 off).toNat
        (size ≤ off → exec (.remoteOperation f kind off operand) s = .next s.slerrInc) ∧
        (∀ x : Xl, kind = 1 ∨ kind = 3 → off < size → va % 8 = 0 →
          s.xlate numCores (win.2.toNat / 2 ^ 48 % 2 ^ 14) none va = .ok x → s.permOk f false .write x = true →
          Memory.wf s.mem = true → isReg x.pa = false → s.linePoison x.pa = false → s.loanOn none (lineOf x.pa) (2 ^ 70) = none →
          s.queued (lineOf x.pa) = false → s.hostHeld.contains (lineOf x.pa) = false → (s.home (lineOf x.pa)).owner = none →
          ∃ t, exec (.remoteOperation f kind off operand) s = .next t ∧ t.pf = s.pf ∧
            t.rd x.kid x.pa 8 = leBytes 8 (if kind = 1 then operand
              else BitVec.ofNat 64 (leVal (s.rd x.kid x.pa 8)) + operand).toNat ∧
            ∀ a, a < x.pa ∨ x.pa + 8 ≤ a → t.rdByte x.kid a = s.rdByte x.kid a))) ∧
    (∀ c : Copy, b.copies.find? (fun d => d.id == c.id) = some c →
      (∀ g, c.taken.find? (fun q => q.1 == g) = none → c.waitsEngine g = true → s.busyEngines b.die < dieEngines b.die →
        s.copyFirst b.die c = true → ∃ t b' c', exec (.copySegment bk c.id g) s = .next t ∧ t.mem = s.mem ∧
          t.blk bk = some b' ∧ b'.copies.find? (fun d => d.id == c.id) = some c' ∧
          c' = { c with taken := c.taken ++ [(g, s.serial)] }) ∧
      (∀ g id, c.taken.find? (fun q => q.1 == g) = some (g, id) → s.engineOut id = false → s.copyFree b c = true →
        c.kind = .plain → (∀ a ∈ s.segAsks b c g, s.hostHeld.contains (lineOf a.x.pa) = false) →
        (s.contained b = true → ∀ pas, s.provWait b pas = none) →
        (∀ j, j < min segBytes (c.total - g * segBytes) → ∀ e, s.moveByte b bk c (g * segBytes + j) j ≠ some (.error e)) →
        ∃ t b' c', exec (.copySegment bk c.id g) s = .next t ∧ t.blk bk = some b' ∧
          b'.copies.find? (fun d => d.id == c.id) = some c' ∧ c'.done = c.done ++ [g] ∧ c'.st = .moving ∧
          c'.taken = c.taken.filter (fun q => q.1 != g) ∧ c'.fault = c.fault ∧ c'.slices = c.slices) ∧
      (s.copyReady b c = true → c.bar = none → c.fault = none →
        exec (.copyCompletion bk c.id) s = .next (s.setBlk bk (b.copyDone c)) ∧
        (b.copyDone c).copies = b.copies.filter (fun d => d.id != c.id) ∧
        ∀ m x, b.band m = some x → c.dk ≠ .regs → c.issuers = [m] → ∃ x', (b.copyDone c).band m = some x' ∧
          x'.cpyOut = countOff x.cpyOut c.id ∧ x'.fstat = orConds x.fstat c.flags ∧ x'.lanes = x.lanes ∧
            x'.horizon = max x.horizon c.maxW)) ∧
    (∀ (c : Collective) (o : Cpy), b.cols.find? (fun d => d.id == c.id) = some c → c.common b = some o →
      c.whole b = true → c.ringFull b = false → (∀ d ∈ b.cols, c.k ≤ d.k) →
      ∃ t cp, exec (.collectiveAcceptance bk c.id) s = .next t ∧ t.mem = s.mem ∧
        (t.blk bk).map Block.copies = some (b.copies ++ [cp]) ∧ cp.id = c.id ∧ cp.slices = c.inOrder ∧ cp.dk = o.dk ∧
        (t.blk bk).map Block.cols = some (b.cols.filter fun d => d.id != c.id))

/-- Matrix commands between acceptance and retirement (R356, R359 to R363, R391 to R397). A captured entry that no live
member is still to execute is accepted; a ready command starts with its occupancy and its result; `mma` adds its
products to the accumulator's cells, each addition clamped to 64 bits; a retired command leaves the block and counts
down the counters of its members. That a command reads all its operands at its start is the model's choice (log entry 98). -/
def Obligations.CommandsRun : Prop :=
  (∀ (s : State) (bk : Nat) (b : Block), s.blk bk = some b →
    (∀ (e : LatchEnt) (c : Capt), b.latch.find? (fun f => f.key == e.key) = some e → e.captured = some c →
      (∀ m ∈ e.waiting, m ∉ b.liveBands) →
      ∃ t cmd, exec (.commandAcceptance bk e.key) s = .next t ∧ t.mem = s.mem ∧
        (t.blk bk).map Block.cmds = some (b.cmds ++ [cmd]) ∧ cmd.key = e.key ∧ cmd.id = c.id ∧ cmd.op = c.op ∧
        cmd.st = .accepted ∧ cmd.members = e.got.map Latched.band ∧
        (t.blk bk).map Block.latch = some (b.latch.filter fun f => f.key != e.key)) ∧
    (∀ c : Cmd, b.cmds.find? (fun d => d.key == c.key) = some c →
      (isAnnex b.die = false → b.cmdReady c = true → s.unitBusy b.core c.op.unit.1 = false → s.oldest b.core c = true →
        let r := s.runCmd b bk c.op (b.accs.getD (c.op.acc.getD 0) {})
        let now := s.now b.die
        ∃ t b', exec (.commandStart bk c.key) s = .next t ∧ t.mem = s.mem ∧ t.blk bk = some b' ∧ b'.bands = b.bands ∧
          b'.cmds.find? (fun d => d.key == c.key) = some { c with
            st := .running (now + cyclesToTicks c.op.unit.2) (now + cyclesToTicks (c.op.unit.2 + 23)) r.2 } ∧
          b'.accs = if c.op.acc.isSome && r.2.fault.isNone then b.accs.set (c.op.acc.getD 0) r.1 else b.accs) ∧
      (∀ free retire res, c.st = .running free retire res → retire ≤ s.now b.die → res.fault = none →
        (∀ w ∈ res.writes, ∃ p, s.scrRange b bk w.1 w.2.length = .ok p) →
        ∃ t b', exec (.commandRetire bk c.key) s = .next t ∧ t.mem = s.mem ∧ t.blk bk = some b' ∧
          b'.cmds = b.cmds.filter (fun d => d.key != c.key) ∧
          (c.members.Nodup → ∀ m ∈ c.members, ∀ x, b.band m = some x → ∃ x', b'.band m = some x' ∧
            x'.mmaOut = countOff x.mmaOut c.key ∧ x'.fstat = orConds x.fstat res.cs)))) ∧
  (∀ (a : Acc) (i c : Nat) (t : Int), c < 64 → keysRise a.cells = true →
    let lim (v : Int) : Int := max (-(2 : Int) ^ 63) (min v ((2 : Int) ^ 63 - 1))
    ((a.addCell i c t).cell i c).toInt = lim ((a.cell i c).toInt + lim t) ∧
    (∀ i' c', c' < 64 → (i', c') ≠ (i, c) → (a.addCell i c t).cell i' c' = a.cell i' c') ∧
    ((a.addCell i c t).sata = true ↔ a.sata = true ∨ lim t ≠ t ∨ lim ((a.cell i c).toInt + lim t) ≠ (a.cell i c).toInt + lim t)) ∧
  (∀ (x : BitVec 16) (a b : Group), mmaTerm x a b = (if a.e = 0 ∨ b.e = 0 then 0
    else ⌊(dotQ a.qs b.qs * (256 + a.f) * (256 + b.f) : ℚ) * 2 ^ ((a.e : Int) + b.e - 270 - x.toInt)⌋))

/-! ### Queues, the dispatcher, the Conservator -/

/-- Launch queues (R187 to R196, R207, R209, R267). Doorbells and LQCTL; what each packet that is accepted or refused leaves;
the completion of markers and context updates, with the record at DONEADDR. A locked function's interface refuses an
access that does not carry its T bit (R504), and a quiesced one ignores doorbells (R525). An accepted packet takes the next
launch identifier (`orig`) and the next row of the model's table. The model's choices are: ERR is cleared, LOGN tested and then
LQCTX (log entry 27); an overrun counts whatever EN is (log entry 28); LAUNCH_PACKET takes every refused packet (log entry 30);
a record is written once the fault log holds the records made before and its line is free (log entries 63, 79). -/
def Obligations.QueuesTakePackets : Prop :=
  ∀ (s : State) (f q : Nat),
    let x := (s.fn f).queue q
    let quiet (t : State) : Prop := t.mem = s.mem ∧ t.blocks = s.blocks ∧ t.grids = s.grids ∧ ∀ g, g ≠ f → t.fn g = s.fn g
    (q < numQueues → ∀ (v : Word) (tee : Bool),
      let a : Via := ⟨f, tee⟩
      (s.locked f = true → tee = false → exec (.lqdbDoorbell a q v) s = .next s ∧ exec (.lqctlEn a q v) s = .next s ∧
        exec (.lqctlErrClear a q v) s = .next s) ∧
      (s.locked f = false ∨ tee = true →
      ((s.fn f).lmQuiesce = true → exec (.lqdbDoorbell a q v) s = .next s) ∧
      ((s.fn f).lmQuiesce = false → ∃ t, exec (.lqdbDoorbell a q v) s = .next t ∧ quiet t ∧
        let y := (t.fn f).queue q
        y.lqdb = v &&& 0xFFFF ∧ y.lqrd = x.lqrd ∧ y.lqbase = x.lqbase ∧ y.lqctx = x.lqctx ∧
        (if 2 ^ x.logn < (v.toNat % 2 ^ 16 + 2 ^ 16 - x.rptr) % 2 ^ 16 then y.en = false ∧ y.err = true ∧ y.errcode = 3
          else y.lqctl = x.lqctl)) ∧
      (v.getLsbD 0 = true → ∃ t, exec (.lqctlEn a q v) s = .next t ∧ quiet t ∧
        let y := (t.fn f).queue q
        let err := x.err && !v.getLsbD 1
        let logn := if x.en then x.logn else (v.extractLsb' 2 4).toNat
        y.logn = logn ∧ y.dclass = (v.extractLsb' 12 3).toNat ∧ y.dlx = v.getLsbD 15 ∧
        (if err = true then y.en = false ∧ y.err = true
          else if logn < 4 ∨ 12 < logn then y.en = false ∧ y.err = true ∧ y.errcode = 4
          else if x.desc = 0 then y.en = false ∧ y.err = true ∧ y.errcode = 6
          else y.en = true ∧ y.err = false)) ∧
      (v.getLsbD 1 = true → ∃ t, exec (.lqctlErrClear a q v) s = .next t ∧ quiet t ∧
        (v.getLsbD 0 = false → ((t.fn f).queue q).en = false ∧ ((t.fn f).queue q).err = false)))) ∧
    (s.nextPacket f q = .fault → ∃ t, exec (.launchPacket f q) s = .next t ∧ quiet t ∧
      ((t.fn f).queue q).en = false ∧ ((t.fn f).queue q).err = true ∧ ((t.fn f).queue q).errcode = 5) ∧
    (∀ p : Packet, s.nextPacket f q = .packet p →
      let next := (x.lqrd + 1) &&& 0xFFFF
      (p.type = 0 → p.reservedZero = true → ∃ t, exec (.noopPacket f q) s = .next t ∧ quiet t ∧
        (t.fn f).queue q = { x with lqrd := next }) ∧
      (∀ st, s.refusal p = some st →
        (∀ u asid, p.doneAddr.toNat % 16 = 0 → s.makeCtx f x.desc = some (u, asid) → u.recordLoan f asid p = none ∧
          ∀ l, u.recordLine f asid p = some l → s.LineFree l) → ∃ t, exec (.launchPacket f q) s = .next t ∧ t.grids = s.grids ∧
        t.lastLid = s.lastLid ∧ ((t.fn f).queue q).lqrd = next ∧ ((t.fn f).queue q).en = false ∧
        ((t.fn f).queue q).err = true ∧ ((t.fn f).queue q).errcode = 1) ∧
      (∀ i asid, s.refusal p = none → (i = .launchPacket f q ∧ p.type = 1) ∨ (i = .markerPacket f q ∧ p.type = 2) ∨
          (i = .contextUpdatePacket f q ∧ p.type = 3) → s.ctxOf f x.desc = some asid →
        ∃ t g, exec i s = .next t ∧ t.mem = s.mem ∧ t.blocks = s.blocks ∧ t.lastLid = s.lastLid + 1 ∧
          (t.fn f).queue q = { x with lqrd := next } ∧ t.grid (s.lastGrid + 1) = some g ∧ g.lid = s.lastGrid + 1 ∧
          g.orig = s.lastLid + 1 ∧ g.pkt = p ∧ g.fn = f ∧ g.q = q ∧ t.lastGrid = s.lastGrid + 1 ∧
          g.asid = asid ∧ g.dclass = x.dclass ∧ g.dlx = x.dlx ∧ g.st = .accepted ∧ g.next = 0 ∧
          ∀ l, l ≠ s.lastGrid + 1 → t.grid l = s.grid l)) ∧
    (∀ (lid : Nat) (g : Grid), g.lid = lid →
      let record (u t : State) (status : Nat) : Prop := g.pkt.doneAddr = 0 ∨ ∀ y : Xl, Memory.wf s.mem = true →
        u.fwXlate g.fn g.asid none .write g.pkt.doneAddr.toNat = .ok y → s.deadAt y.pa = false →
        s.deadAt (y.pa + 15) = false → t.rd y.kid y.pa 16 =
          leBytes 8 g.pkt.doneVal.toNat ++ leBytes 4 status ++ leBytes 4 (g.orig % 2 ^ 32)
      (s.packetTurn lid 2 = some g → s.RecordFree g.fn g.asid g.pkt →
        (s.deps g = .holds → ∃ t, exec (.markerCompletion lid) s = .next t ∧
          (t.grid lid).map Grid.st = some (.complete 0) ∧ record s t 0) ∧
        (s.deps g = .fault → ∃ t, exec (.markerCompletion lid) s = .next t ∧
          (t.grid lid).map Grid.st = some (.complete 7) ∧ record s t 7)) ∧
      (s.packetTurn lid 3 = some g → s.RecordFree g.fn g.asid g.pkt →
        (∀ c root ranges, s.deps g = .holds → s.ctx g.asid = some c → s.readDesc c.desc = some (root, ranges) →
          s.ctxQuiet g.asid = true → s.descHeld c.desc = false → ∃ t, exec (.contextUpdate lid) s = .next t ∧
            t.ctx g.asid = some { c with root, ranges } ∧ (t.grid lid).map Grid.st = some (.complete 0) ∧
            record ({ s with ctxs := tset s.ctxs g.asid { c with root, ranges } }.tlbDrop fun e => e.asid == g.asid) t 0) ∧
        (s.deps g = .fault → ∃ t, exec (.contextUpdate lid) s = .next t ∧
          (t.grid lid).map Grid.st = some (.complete 7) ∧ record s t 7)))

/-- Placement, resumption, later runs, carve-outs, pre-emption (R38, R39, R185, R197 to R205, R237, R421, R449). The first
item is placed where the dispatcher's order says: a new block with its first state, a stopped block with the lanes that it
had; a change of boundaries empties the L1, each owned line by a write-back message (log entry 94). The model's choices beside
that: HBASE holds a multiple of 4 (log entry 90), the dispatcher keeps what it has found of a grid's dependences (`latchReady`,
log entry 78), and stopped blocks count as gone in the search for victims (log entry 78). -/
def Obligations.BlocksArePlaced : Prop :=
  ∀ s : State,
    (∀ (g : Grid) (ws : List Word) (c : Nat), s.firstItem = some (.block g) → s.argOpen g = false →
      s.argWords g = .words ws → s.grid g.lid = some g → g.pkt.coRes = false →
      let u := s.latchReady g.lid
      u.pickCore { g with ready := true } [] = some c → (∀ t, u.placeNext g ws [] = some t → s.carveLack t = []) →
      ∃ t b, exec .blockPlacement s = .next t ∧ t.mem = s.mem ∧ t.blk u.serial = some b ∧ b.lid = g.lid ∧
        (b.bx, b.by', b.bz) = g.pkt.blockAt g.next ∧ b.core = c ∧ b.ldie = coreDie c ∧ b.st = .running ∧
        b.bands = List.replicate g.pkt.nbands (g.pkt.newBand ws (s.now (coreDie c))) ∧ b.hbase = (s.fn g.fn).hbase &&& ~~~3 ∧
        (b.sid.isSome = true ↔ g.sampled b.idx = true) ∧ (t.grid g.lid).map Grid.next = some (g.next + 1) ∧
        ∀ k, k ≠ u.serial → t.blk k = s.blk k) ∧
    (∀ (g : Grid) (t : Trap), s.firstItem = some (.block g) → s.argOpen g = false → s.argWords g = .bad t →
      exec .blockPlacement s = .next (s.failGrid g.lid 8 (g.argRecord t))) ∧
    (∀ (k : Nat) (b : Block) (c : Nat), s.blk k = some b → b.waits = true → s.drained b = true → b.toProfile = none →
      s.firstItem = some (.resume k) → s.resumeSet k b = [k] → s.resumeCore b [] = some c →
      (∀ t, s.tryItem [] (.resume k) = some t → s.carveLack t = []) →
      ∃ t b', exec (.blockResume k) s = .next t ∧ t.mem = s.mem ∧ t.blk k = some b' ∧ b'.st = .running ∧ b'.core = c ∧
        b'.bands.map Band.lanes = b.bands.map Band.lanes ∧ b'.bands.map Band.uregs = b.bands.map Band.uregs ∧
        b'.scratch = b.scratch ∧ b'.accs = b.accs ∧ b'.migcnt = b.migcnt ∧ ∀ j, j ≠ k → t.blk j = s.blk j) ∧
    (∀ (sid : Nat) (m : Sample) (g : Grid), tget s.samples sid = some m → s.grid m.lid = some g → g.live = true →
      s.runDue sid m = true →
      (s.runAllowed m = false → exec (.replayPlacement sid) s = .next (s.releaseSample sid (some 1))) ∧
      (∀ c, s.runAllowed m = true → s.firstItem = some (.run sid) → s.runCore m g [] = some c →
        (s.core c).cpool = g.pkt.carve →
        ∃ t b, exec (.replayPlacement sid) s = .next t ∧ t.mem = s.mem ∧ t.blk s.serial = some b ∧ b.core = c ∧
          b.sid = some sid ∧ b.idx = m.idx ∧ b.later = true ∧
          (∀ x ∈ b.bands, x.sigma = m.sigma0 ∧ x.uregs = ((List.range g.pkt.urounded).map fun r => m.args.getD r 0) ∧
            ∀ l ∈ x.lanes, l.pc = g.pkt.kaddr ∧ l.st = .ready))) ∧
    (∀ (core : Nat) (carve : Word), s.carveWanted core carve = true →
      s.onCore core [] = [] → (s.core core).cpool ≠ carve → (s.core core).inService = true → core < numCores →
      ∃ t, exec (.carveOutChange core carve) s = .next t ∧ t.mem = s.mem ∧ t.blocks = s.blocks ∧ (t.core core).l1 = [] ∧
        (t.core core).vend = carve.toNat % 64 ∧ (t.core core).send = carve.toNat / 2 ^ 8 % 64 ∧
        (t.core core).lend = carve.toNat / 2 ^ 16 % 64 ∧
        (∀ c ∈ (s.core core).l1, c.owned = true → ∃ p ∈ t.net, p.msg = c.writeback core none)) ∧
    (∀ (i : Item) (gone : List Nat), s.movers = [] → s.firstItem = some i → s.tryItem s.stopping i = none →
      s.evictions i = some gone →
      (∀ k ∈ gone, ∀ b, s.blk k = some b → ∀ x ∈ b.bands, x.dueTrap = none) →
      ∃ t, exec .preemption s = .next t ∧ t.mem = s.mem ∧ (∀ l, (t.grid l).map Grid.st = (s.grid l).map Grid.st) ∧
        (∀ k, k ∉ gone → t.blk k = s.blk k) ∧
        ∀ k b, k ∈ gone → s.blk k = some b → b.st = .running → ∃ b', t.blk k = some b' ∧ b'.waits = true ∧
          b'.toProfile = none ∧ b'.core = b.core)

/-- The ends of blocks and grids, and the Conservator (R41, R206 to R209, R439, R449, R457 to R470). A finished block leaves;
a grid completes when all its blocks have, and fails once its work has drained, with its queue disabled. Loans that are
waited for too long are released unverified; a fenced core and a failed core lose their blocks. The model's choices are: an
access from outside the bands notes in the sample the time since which it waits, and HOLD_TIMEOUT counts from it too (log
entry 63); the blocks of a fenced core stop as for a pre-emption, and every grid with a block on a failed core fails (log
entry 64). -/
def Obligations.GridsEnd : Prop :=
  ∀ s : State,
    (∀ (k : Nat) (b : Block), s.blk k = some b → keysRise s.blocks = true →
      (b.st = .running → s.blockOver b = true → b.sid = none →
        ∃ t, exec (.blockEnd k) s = .next t ∧ t.blk k = none ∧ ∀ j, j ≠ k → t.blk j = s.blk j) ∧
      (∀ i m, b.st = .running → s.blockOver b = true → b.sid = some i → tget s.samples i = some m → m.st = .primary →
        m.results = [] → ∃ t m', exec (.blockEnd k) s = .next t ∧ t.blk k = none ∧
          tget t.samples i = some m' ∧ m'.st = .waiting ∧ m'.results = [b.result])) ∧
    (∀ (lid : Nat) (g : Grid), s.grid lid = some g → g.lid = lid →
      (g.live = true → g.pkt.numBlocks ≤ g.next → s.blocks.any (fun p => p.2.lid == lid) = false →
        s.samples.any (fun p => p.2.lid == lid && !p.2.final) = false → s.RecordFree g.fn g.asid g.pkt →
        ∃ t, exec (.gridCompletion lid) s = .next t ∧ (t.grid lid).map Grid.st = some (.complete 0) ∧
          t.blocks = s.blocks ∧ ∀ l, l ≠ lid → t.grid l = s.grid l) ∧
      (∀ status, g.st = .failing status → s.failDrained lid = true → s.RecordFree g.fn g.asid g.pkt →
        ∃ t, exec (.gridFailure lid) s = .next t ∧ (t.grid lid).map Grid.st = some (.complete status) ∧
          (∀ p ∈ t.blocks, p.2.lid ≠ lid) ∧ (∀ p ∈ s.blocks, p.2.lid ≠ lid → p ∈ t.blocks) ∧
          ((t.fn g.fn).queue g.q).en = false ∧
          ((t.fn g.fn).queue g.q).err = true ∧ ((t.fn g.fn).queue g.q).errcode = 2)) ∧
    (∀ (i : Instr) (sid : Nat) (m : Sample), tget s.samples sid = some m → m.open' = true →
      (i = .holdTimeout sid ∧ ((∃ w ∈ s.loanWaits sid, w.2 + s.holdto < s.time) ∨
        ∃ since, m.outside = some since ∧ since + s.holdto < s.time)) ∨
      (i = .capacityTimeout sid ∧ ∃ p ∈ s.blocks, ∃ x ∈ p.2.bands, ∃ l ∈ x.lanes, ∃ since pa,
        l.st = .blocked (.capacity sid since pa) ∧ since + s.holdto < s.time) ∨
      (∃ j n, i = .loanCycleBreak [sid, j] ∧ tget s.samples j = some n ∧ n.open' = true ∧ m.start ≤ n.start ∧
        s.waitsOn sid j = true ∧ s.waitsOn j sid = true) →
      ∃ t m', exec i s = .next t ∧ tget t.samples sid = some m' ∧ m'.st = .released ∧ m'.prov = [] ∧ t.grids = s.grids) ∧
    (∀ core, core < numCores →
      ((s.core core).fenced = true → exec (.cdemFenced core) s = .next s) ∧
      ((s.core core).fenced = false → ∃ t, exec (.cdemFenced core) s = .next t ∧ (t.core core).fenced = true ∧
        ((∀ p ∈ s.blocks, ∀ x ∈ p.2.bands, x.dueTrap = none) →
          t.grids = s.grids ∧ ∀ k b, s.blk k = some b → b.core = core → b.st = .running → b.sid = none →
            ∃ b', t.blk k = some b' ∧ b'.waits = true ∧ b'.toProfile = none)) ∧
      ((s.core core).retired = false → ∃ t, exec (.coreFailure core) s = .next t ∧ (t.core core).retired = true ∧
        (t.core core).l1 = [] ∧ ∀ p ∈ s.blocks, ∀ g, p.2.core = core → p.2.st = .running →
          s.grid p.2.lid = some g → g.st = .accepted → (t.grid p.2.lid).map Grid.st = some (.failing 4)))

/-! ### The host's side -/

/-- Registers that the host writes, and its window (R11, R249, R406, R410, R411, R468, R492, R500 to R505, R510, R520).
A page response answers the request of its tag; W1C and reserved bits; KEYMAP changes lock a function out; HCWIN is
fixed while it is enabled; a window access reads and writes memory under KEYID 0, and waits on a loan (R437); a line that the
host holds comes back with its bytes or without (R502). A locked interface refuses what does not carry its T bit (R504); a
change of TRACK to 1 clears the bitmap (R525). The model's choices are: the time that a first attempt notes in the sample (log
entry 63), which accesses of the window the T bit governs (log entry 83), and that HBASE keeps bits [1:0] at zero (log
entry 90). -/
def Obligations.HostWritesRegisters : Prop :=
  ∀ s : State,
    (∀ (a : Via) (v w : Word) (off : Nat), s.locked a.fn = true → a.tee = false → a.fn < numFns →
      exec (.prsp a v) s = .next s ∧ exec (.flogctlWrite a v) s = .next s ∧ exec (.registerWrite a off (v ++ w)) s = .next s ∧
      s.hostRead a off = none) ∧
    (∀ (a : Via) (v : Word), s.locked a.fn = false ∨ a.tee = true → let f := a.fn; let x := s.fn f
      ((∀ r ∈ x.pageReqs, r.tag ≠ v.toNat % 2 ^ 16) →
        exec (.prsp a v) s = .next (s.setFn f { x with prspReg := v &&& 0x1FFFF })) ∧
      (∀ r n b y, x.pageReqs.filter (fun r => r.tag == v.toNat % 2 ^ 16) = [r] → r.band = some n → v.getLsbD 16 = false →
        s.blk r.block = some b → b.band n = some y →
        ∃ t y', exec (.prsp a v) s = .next t ∧ t.mem = s.mem ∧ ((t.blk r.block).bind fun b => b.band n) = some y' ∧
          (t.fn f).pageReqs = x.pageReqs.filter (fun r => r.tag != v.toNat % 2 ^ 16) ∧
          y' = { y with lanes := y.lanes.map fun l => if l.st = .blocked (.page r.tag) then { l with st := .ready } else l }) ∧
      (∃ t, exec (.flogctlWrite a v) s = .next t ∧ t = s.setFn f { x with flogCtl := (t.fn f).flogCtl } ∧
        let c := (t.fn f).flogCtl
        let new := (v.extractLsb' 2 4).toNat
        let logn := if x.flogCtl.getLsbD 0 = false ∧ 4 ≤ new ∧ new ≤ 12 then new else (x.flogCtl.extractLsb' 2 4).toNat
        (c.extractLsb' 2 4).toNat = logn ∧ c.getLsbD 1 = (x.flogCtl.getLsbD 1 && !v.getLsbD 1) ∧
        (c.getLsbD 0 = true ↔ v.getLsbD 0 = true ∧ 4 ≤ logn ∧ logn ≤ 12)) ∧
      (∀ on, f < numFns → exec (.lmctlTrack f on) s = .next (s.setFn f
        { x with lmTrack := on, dirty := if on = true ∧ x.lmTrack = false then [] else x.dirty })) ∧
      (f < numFns → ∀ w : DWord, exec (.registerWrite a 0x0B00 w) s = .next (s.setFn f { x with hbase := w &&& ~~~(3 : DWord) }) ∧
        exec (.registerWrite a 0x0C18 w) s = .next (s.setFn f { x with flogRp := w.setWidth 32 &&& 0xFFFF }) ∧
        exec (.registerWrite a 0x3008 w) s = .next (s.setFn f { x with dbgDat := w }) ∧
        (∀ off, everyFn off = false → f ≠ 0 → exec (.registerWrite a off w) s = .next s)) ∧
      (f = 0 → ∀ w : DWord, exec (.registerWrite a 0x0900 w) s = .next (if 64 ≤ w.toNat % 2 ^ 13 ∧ w.toNat % 2 ^ 13 ≤ 4096
          then { s with pf := { s.pf with leasecfg := w.setWidth 32 &&& 0x1FFF } } else s) ∧
        exec (.registerWrite a 0x6100 w) s = .next { s with pf := { s.pf with slid := w.setWidth 32 &&& 0x7FFFF } } ∧
        exec (.registerWrite a 0x6B80 w) s = .next { s with pf := { s.pf with condbuf := w } } ∧
        exec (.registerWrite a 0x6B88 w) s = .next (if w.getLsbD 0 = true then { s with pf := { s.pf with condreq := true } }
          else s))) ∧
    (∀ (p : Nat) (v : DWord), p < numFns →
      let new := if p = 0 then v ||| 1 else v &&& ~~~(1 : DWord)
      let old := (tget s.pf.keymap p).getD 0
      ((∃ e ∈ s.pf.keymap, e.1 ≠ p ∧ e.2 &&& new ≠ 0) → exec (.keymapWrite p v) s = .next s) ∧
      ((∀ e ∈ s.pf.keymap, e.1 = p ∨ e.2 &&& new = 0) →
        ∃ t, exec (.keymapWrite p v) s = .next t ∧ t.mem = s.mem ∧ t.pf.keymap = tset s.pf.keymap p new ∧
          (∀ k, new.getLsbD k = true → k < 64 → (tget t.root.keyGen k).isSome = true) ∧
          (s.locked p = true → old ≠ new → (t.fn p).tdisp = .error ∧ (t.fn p).policy = 0) ∧
          (s.locked p = false ∨ old = new → t.fns = s.fns))) ∧
    (∀ v : DWord, ∃ t, exec (.hcwinWrite v) s = .next t ∧ t = { s with pf := { s.pf with hcwin := t.pf.hcwin } } ∧
      (s.pf.hcwin.getLsbD 0 = true → t.pf.hcwin = s.pf.hcwin) ∧
      (s.pf.hcwin.getLsbD 0 = false → hcwinBase t.pf.hcwin = hcwinBase v ∧ hcwinSize t.pf.hcwin = hcwinSize v ∧
        (hcwinEn t.pf.hcwin = true ↔ hcwinEn v = true ∧ 1 ≤ hcwinSize v ∧ hcwinBase v + hcwinSize v ≤ 384))) ∧
    (∀ (v : Via) (pa : Nat), s.inWindow pa = true → s.hostHeld.contains (lineOf pa) = false →
      (s.locked v.fn = true → v.tee = false → ∀ b, exec (.hostWindowAccess ⟨v, .read pa⟩) s = .next s ∧
        exec (.hostWindowAccess ⟨v, .write pa b⟩) s = .next s) ∧
      (s.locked v.fn = false ∨ v.tee = true →
        (∀ sid m, s.loanOn none (lineOf pa) (2 ^ 70) = some sid → tget s.samples sid = some m → m.outside = none →
          exec (.hostWindowAccess ⟨v, .read pa⟩) s = .next { s with
            samples := tmod s.samples sid fun m => { m with outside := some s.time } }) ∧
        (s.loanOn none (lineOf pa) (2 ^ 70) = none → s.LineFree (lineOf pa) →
          (s.cold (pa / 64 * 64) = false → ∃ t, exec (.hostWindowAccess ⟨v, .read pa⟩) s = .next t ∧ t.mem = s.mem ∧
            t.hostData = s.rd 0 (pa / 64 * 64) 64 ∧ t.hostHeld = s.hostHeld) ∧
          (∀ b, Memory.wf s.mem = true → s.deadAt pa = false → ∃ t, exec (.hostWindowAccess ⟨v, .write pa b⟩) s = .next t ∧
            t.rdByte 0 pa = b ∧ ∀ a, a ≠ pa → t.rdByte 0 a = s.rdByte 0 a) ∧
          (pa % 128 = 0 → s.cold pa = false → ∃ t, exec (.hostWindowAccess ⟨v, .hold (lineOf pa)⟩) s = .next t ∧
            t.mem = s.mem ∧ t.hostHeld = s.hostHeld ++ [lineOf pa] ∧ t.hostData = s.rd 0 pa 128)))) ∧
    (∀ (v : Via) (line : Nat), s.hostHeld.contains line = true →
      (∃ t, exec (.hostWindowAccess ⟨v, .writeback line []⟩) s = .next t ∧ t.mem = s.mem ∧ t.hostHeld = s.hostHeld.filter (· != line)) ∧
      ∀ data : List Byte, data.length = 128 → Memory.wf s.mem = true → s.deadAt (128 * line) = false →
        ∃ t, exec (.hostWindowAccess ⟨v, .writeback line data⟩) s = .next t ∧ t.rd 0 (128 * line) 128 = data ∧
          t.hostHeld = s.hostHeld.filter (· != line)) ∧
    (∀ on, exec (.clockThrottle on) s = .next { s with pf := { s.pf with
      pwrcap := if on then s.pf.pwrcap ||| 0x1000 else s.pf.pwrcap &&& ~~~(0x1000 : Word) } })

/-- Checkpoints, links and retirement (R481, R482, R492, R495 to R498, R513, R514). An operation starts when nothing is in
progress, the device is quiet and a fleet key is held, and reports ECODE 1 or 2 else; its end leaves an image or takes one
back, whose capacity and keys fit; what a failed restore left unwritten is poisoned. A link accepts good flits in order and keeps
what it has sent, at most 64 flits, until it is acknowledged; a retired port leaves every routing mask; a spared channel's
codewords that could not be read are poisoned. The model's choices are: the image is that of the time of CHECKPOINT_END (log
entry 45), and the acknowledgement and the request to resend come with each received flit (log entry 100). -/
def Obligations.CheckpointsAndLinks : Prop :=
  ∀ s : State,
    let put (r : Bool) (tgt : DWord) (c : Word) : State :=
      { s with pf := { s.pf with ckpctl := c, ckpRestore := r, ckpTarget := tgt } }
    (∀ (i : Instr) (r : Bool) (tgt : DWord) (go : Word),
      (i = .ckpctlSave ∧ r = false ∧ tgt = s.pf.ckptgt ∧ go = 5) ∨ (i = .ckpctlRestore ∧ r = true ∧ tgt = s.pf.ckptgt ∧ go = 6) ∨
      (∃ tdev image, i = .checkpointRequestFlit r tdev image ∧ go = 4 ∧
        tgt = BitVec.ofNat 64 (tdev % 2 ^ 19 + image % 2 ^ 32 * 2 ^ 32)) →
      (s.pf.ckpctl.getLsbD 2 = true → exec i s = .next s) ∧
      (s.pf.ckpctl.getLsbD 2 = false →
        (s.ckpQuiet = false → exec i s = .next (put r tgt 0x18)) ∧
        (s.ckpQuiet = true → s.root.fleetKey = none → exec i s = .next (put r tgt 0x28)) ∧
        (s.ckpQuiet = true → s.root.fleetKey ≠ none → exec i s = .next (put r tgt go)))) ∧
    (s.pf.ckpctl.getLsbD 2 = true →
      (exec (.checkpointEnd 3) s = .next { s with pf := { s.pf with ckpctl := 0x38 } }) ∧
      (s.pf.ckpRestore = false → ∃ t img, exec (.checkpointEnd 0) s = .next t ∧ t.pf.ckpctl = 0 ∧ t.mem = s.mem ∧
        img ∈ t.safeTier ∧ img.complete = true ∧ img.tdev = s.pf.ckpTarget.toNat % 2 ^ 19 ∧
        img.image = s.pf.ckpTarget.toNat / 2 ^ 32 ∧ img.keymap = s.pf.keymap ∧ img.keys = s.root.keyGen ∧
        img.identity = identityHash ∧ img.capacity = 0x60_0000_0000 ∧ img.mem = s.mem.filter fun p => isDev p.1) ∧
      (∀ img, s.ckpImage = some img → img.complete = false ∨ img.capacity ≠ 0x60_0000_0000 ∨
        s.root.fleetKey ≠ some img.fleetKey → s.ckpGood = none) ∧
      (∀ img, s.pf.ckpRestore = true → s.ckpGood = some img → ∃ t, exec (.checkpointEnd 5) s = .next t ∧ t.pf.ckpctl = 0x58 ∧
        ∀ n, isDev (32 * n) = true → Config.freeBit (s.freeCtr + n) = true → t.cwPoison n = true) ∧
      (s.pf.ckpRestore = true → s.ckpGood = none → exec (.checkpointEnd 4) s = .next { s with pf := { s.pf with ckpctl := 0x48 } }) ∧
      (∀ img, s.pf.ckpRestore = true → s.ckpGood = some img → Memory.wf s.mem = true → Memory.wf img.mem = true →
        (∀ p ∈ img.mem, isDev p.1 = true) → ∃ t, exec (.checkpointEnd 0) s = .next t ∧ t.pf.ckpctl = 0 ∧
          (∀ a, mget t.mem a = if isDev a then mget img.mem a else mget s.mem a) ∧ t.pf.keymap = img.keymap ∧
          t.pf.hcwin = img.hcwin ∧ t.pf.leasecfg = img.leasecfg ∧ t.pf.csvpol = img.csvpol ∧ t.root.keyGen = img.keys)) ∧
    (∀ (n seq : Nat) (good : Bool),
      (∀ l, (tget s.dieLinks n).getD {} = l → n < 8 → l.retired = false → l.failed = false →
        ∃ l', exec (.dieLinkFlit n good) s = .next { s with dieLinks := tset s.dieLinks n l' } ∧
          (good = true → l'.next = l.next + 1 ∧ l'.resends = l.resends) ∧
          (good = false → l'.next = l.next ∧ l'.resends = l.resends + 1)) ∧
      (∀ l, (tget s.ports n).getD {} = l → n < 12 → l.retired = false →
        (l.failed = false → ∀ (ack : Nat) (again : Bool),
          ∃ l', exec (.solustFlit n seq ⟨good, ack, again⟩) s = .next { s with ports := tset s.ports n l' } ∧
          l'.next = (if good = true ∧ seq = l.next then l.next + 1 else l.next) ∧
          (good = true → seq ≤ l.next → l'.acked = l'.next) ∧
          l'.resends = l.resends + (if good = true ∧ seq ≤ l.next then 0 else 1) +
            (if good = true ∧ again = true then (l.kept.filter fun f => ack ≤ f.1).length else 0) ∧
          (good = false → l'.kept = l.kept) ∧
          (good = true → (∀ f ∈ l.kept, ack ≤ f.1 → f ∈ l'.kept) ∧ (∀ f ∈ l'.kept, ack ≤ f.1 ∨ l.sent ≤ f.1) ∧
            (l.kept.length ≤ 64 → l'.kept.length ≤ 64))) ∧
        (∃ t, exec (.unitRetirement (.port n)) s = .next t ∧ ((tget t.ports n).map Link.retired) = some true ∧
          t.mem = s.mem ∧ t.pf.slrt = s.pf.slrt.map fun e => (e.1, e.2 &&& ~~~((1 : BitVec 16) <<< n)))) ∧
      (s.pf.ckpctl.getLsbD 2 = false → ∀ l,
        ((tget s.ports n).getD {} = l → n < 12 → l.failed = false →
          exec (.linkFailure (.port n)) s = .next { s with ports := tset s.ports n { l with failed := true } }) ∧
        ((tget s.dieLinks n).getD {} = l → n < 8 → l.failed = false →
          exec (.linkFailure (.dieLink n)) s = .next { s with dieLinks := tset s.dieLinks n { l with failed := true } })) ∧
      (∀ l, (tget s.dieLinks n).getD {} = l → n < 8 → l.failed = false → s.pf.ckpctl.getLsbD 2 = true →
        s.pf.ckpRestore = false → ∃ t, exec (.linkFailure (.dieLink n)) s = .next t ∧ t.pf.ckpctl = 0x58 ∧
          ((tget t.dieLinks n).map Link.failed) = some true ∧ ∃ img ∈ t.safeTier, img.complete = false) ∧
      (n < 160 → tget s.slices n ≠ some 3 →
        exec (.unitRetirement (.slice n)) s = .next { s with slices := tset s.slices n 3 }) ∧
      (∀ l, (tget s.dieLinks n).getD {} = l → n < 8 → l.retired = false →
        exec (.unitRetirement (.dieLink n)) s = .next { s with dieLinks := tset s.dieLinks n { l with retired := true } }) ∧
      (s.hostLink.retired = false →
        exec (.unitRetirement .hostLink) s = .next { s with hostLink := { s.hostLink with retired := true } }) ∧
      (∀ c, (tget s.channels n).getD {} = c → n < 128 → c.retired = false → 2 ^ 10 < (recent s.time c.lost).length →
        let c' : Channel := { c with retired := true, spared := !s.stackSpared n }
        ∀ lost : List Nat, ∃ t, exec (.unitRetirement (.channel n lost)) s = .next t ∧ t.mem = s.mem ∧
          tget t.channels n = some c' ∧
          (c'.spared = false → t = { s with channels := tset s.channels n c' }) ∧
          (c'.spared = true → ∀ w ∈ lost, isDev (32 * w) = true → channelOf (32 * w) = n → t.cwPoison w = true)))

/-- Start, reset, SPDM, TDISP and condition reports (R503 to R507, R513 to R520). Firmware that does not verify is not
started; each SPDM request is refused before its turn; an interface is locked and run inside its session only; a policy
record is taken only when it verifies; a reset keeps memory, the fleet key, and the retired units; a report fills the buffer that
CONDBUF names, or waits with its bit set while a line of it is on loan. The model's choices are: the order and the replies of the
SPDM requests (log entry 51), that a reset lifts FENCED and keeps the mark (log entry 41), and what the thermal stop leaves
(log entry 53). -/
def Obligations.StartAndSessions : Prop :=
  ∀ s : State,
    let root (f : Root → Root) : State := { s with root := f s.root }
    let no : State := root fun t => { t with reply := .refused }
    (∀ image sig, s.power = .heldReset → exec (.firmwareLoad image sig) s = .next (
      if Config.verify Config.firmwareKey image sig = true
        then { s with power := .firmwareVerified, root := { s.root with measurement := some (Config.sha384 image) } } else s)) ∧
    (s.power = .firmwareVerified →
      exec .powerUp s = .next { s with power := .running, time := 0, skew := [0, 0, 0, 0, 0, 0] }) ∧
    (s.power = .running → ∃ t, exec .thermalShutdown s = .next t ∧ t.power = .stopped ∧ t.blocks = [] ∧
      ∀ i q, tget t.samples i = some q → q.open' = false) ∧
    (∃ t, exec .deviceReset s = .next t ∧ t.power = .heldReset ∧ t.mem = s.mem ∧ t.cw = s.cw ∧ t.blocks = [] ∧ t.grids = [] ∧
      t.ctxs = [] ∧ t.fns = [] ∧ t.pf = {} ∧ t.root.fleetKey = s.root.fleetKey ∧ t.root.session = none ∧
      t.safeTier = s.safeTier ∧ t.wear = s.wear ∧ t.images = s.images ∧ t.unwritten = s.unwritten ∧ ∀ c, (t.core c).retired = (s.core c).retired ∧ (t.core c).l1 = [] ∧ (t.core c).fenced = false) ∧
    exec .getVersion s = .next (root fun t =>
      { t with verOk := true, capOk := false, algOk := false, session := none, reply := .version }) ∧
    exec .getCapabilities s = .next (if s.root.verOk then root fun t => { t with capOk := true, reply := .capabilities } else no) ∧
    exec .negotiateAlgorithms s = .next (if s.root.capOk then root fun t => { t with algOk := true, reply := .algorithms } else no) ∧
    exec .getDigests s = .next (if s.root.algOk
      then root fun t => { t with reply := .digest (Config.sha384 Config.certificateChain) } else no) ∧
    exec .getCertificate s = .next (if s.root.algOk then root fun t => { t with reply := .certificate Config.certificateChain } else no) ∧
    (∀ nonce, ∃ sig, exec (.challenge nonce) s = .next (if s.root.algOk then root fun t => { t with reply := .challenge sig } else no)) ∧
    (∀ nonce, ∃ sig, exec (.getMeasurements nonce) s = .next (if s.root.algOk then root fun t => { t with
      reply := .measurements (s.root.measurement.getD 0) Config.firmwareConfig (Config.sha384 s.deviceConfig) sig } else no)) ∧
    (∀ f pub, f < numFns → exec (.keyExchange f pub) s = .next (if s.root.algOk
      then { s with
        freeCtr := s.freeCtr + 1
        root := { s.root with
          session := some ⟨f, Config.ecdheSecret s.freeCtr pub, false⟩
          reply := .keyExchange (Config.ecdhePublic s.freeCtr) } }
      else no)) ∧
    (∀ mac, (s.root.session = none → exec (.finish mac) s = .next no) ∧
      ∀ x, s.root.session = some x → exec (.finish mac) s = .next (if x.done = false ∧ mac = Config.hmac x.secret
        then root fun t => { t with session := some { x with done := true }, reply := .finished }
        else root fun t => { t with session := none, reply := .refused })) ∧
    exec .endSession s = .next (if s.root.session.isSome then root fun t => { t with session := none, reply := .ended } else no) ∧
    (∀ k key, exec (.ideKm k key) s = .next (if k < 65 ∧ s.root.session.map Session.done = some true
      then root fun t => { t with ideKeys := tset t.ideKeys k key, reply := .accepted } else no)) ∧
    (∀ f, let isOpen := s.root.inSession f = true
      let yes (g : Fn → Fn) : State := (s.modFn f g).reply .accepted
      (f = 0 → ∀ key, exec (.fleetKeyDelivery key) s = .next (if isOpen
        then root fun t => { t with fleetKey := some key, reply := .accepted } else no)) ∧
      (f ≠ 0 → f < numFns →
        (∀ key, exec (.lockInterface f key) s = .next (if isOpen ∧ (s.fn f).tdisp = .configUnlocked
          then yes fun x => { x with tdisp := .configLocked, policyKey := some key } else no)) ∧
        exec (.interfaceRun f) s = .next (if isOpen ∧ (s.fn f).tdisp = .configLocked then yes fun x => { x with tdisp := .run } else no) ∧
        (∀ e, (if e = true then s.locked f = true else (s.fn f).tdisp ≠ .configUnlocked) →
          ∃ t, exec (.interfaceUnlock f e) s = .next t ∧ (t.fn f).tdisp = (if e then .error else .configUnlocked) ∧
            (t.fn f).policy = 0 ∧ (t.fn f).policyKey = none ∧ ∀ q, ((t.fn f).queue q).en = false)) ∧
      (∀ rec, exec (.policyDelivery f rec) s = .next (if isOpen ∧ (s.fn f).policyOk f rec = true
        then yes fun x => { x with policy := BitVec.ofNat 32 (fieldAt rec 4 4), policyEpoch := fieldAt rec 0x40 8 } else no))) ∧
    (let a := s.pf.condbuf.toNat
      let r := s.report (s.rdOwn a 32)
      (s.rangeOnLoan a 1376 = false → ∃ t, exec .condreq s = .next t ∧ t.pf.condreq = false ∧
        t.blocks = s.blocks ∧ t.grids = s.grids ∧ (Memory.wf s.mem = true →
        (∀ j, j < r.length → (isDev (a + j) = true ∨ isHost (a + j) = true) ∧ s.deadAt (a + j) = false) → t.rd 0 a r.length = r)) ∧
      (s.rangeOnLoan a 1376 = true → s.pf.condreq = false → ∃ t, exec .condreq s = .next t ∧ t.pf.condreq = true ∧
        t.mem = s.mem)) ∧
    (∀ nonce, ∃ t r, exec (.conditionReportSpdm nonce) s = .next t ∧ t.root.reply = .report r ∧ t.mem = s.mem ∧
      r.take 2 = [1, 0] ∧ (r.drop 8).take 48 = identityHash ∧ (r.drop 56).take 32 = leBytes 32 nonce.toNat) ∧
    (∀ port nonce l, (tget s.ports port).getD {} = l → port < 12 → l.retired = false → l.failed = false →
      ∃ r, exec (.conditionReportFlit port nonce) s = .next (s.sendFlits port (reportFlits r)) ∧
        r.take 2 = [1, 0] ∧ (r.drop 56).take 32 = leBytes 32 nonce.toNat)

/-- The debug port and live migration (R425 to R430, R508 to R512). Without the facility of DBGEN, or without a band of its
name, a command is refused and changes nothing but its register. A snapshot clears the bitmap; a quiesce stops the
function's blocks once its loans are final, and no new block is placed from its start (R525); a resume gives back the queues
and grids of the image whose bytes stand at LMIMG. The model's choices are: which of two blocks of the same name a command
means (log entry 46), the two phases of a quiesce and the bytes of an image (log entry 47), and which runs a quiesce still
places (log entry 82). -/
def Obligations.DebugAndMigration : Prop :=
  ∀ (s : State) (f : Nat), f < numFns →
    (∀ c : DWord, s.locked f = true → let a : Via := ⟨f, false⟩
      (dbgOp c = 0 ∨ 5 ≤ dbgOp c → exec (.debugHalt a c) s = .next s) ∧ (dbgOp c = 1 → exec (.debugResume a c) s = .next s) ∧
      (dbgOp c = 2 → exec (.debugStep a c) s = .next s) ∧ (dbgOp c = 3 → exec (.debugReadRegister a c) s = .next s) ∧
      (dbgOp c = 4 → exec (.debugWriteRegister a c) s = .next s)) ∧
    (∀ (c : DWord) (tee : Bool), s.locked f = false ∨ tee = true → let a : Via := ⟨f, tee⟩
      let err : State := s.setFn f { s.fn f with
        dbgCmd := (c &&& 0x3FFF_FFFF_FFFF_FFFF) ||| 0xC000_0000_0000_0000 }
      let done (v : DWord) : State := s.setFn f { s.fn f with
        dbgCmd := (c &&& 0x3FFF_FFFF_FFFF_FFFF) ||| 0x4000_0000_0000_0000, dbgDat := v }
      (s.dbgTarget f c = none →
        (dbgOp c = 0 ∨ 5 ≤ dbgOp c → exec (.debugHalt a c) s = .next err) ∧ (dbgOp c = 1 → exec (.debugResume a c) s = .next err) ∧
        (dbgOp c = 2 → exec (.debugStep a c) s = .next err) ∧ (dbgOp c = 3 → exec (.debugReadRegister a c) s = .next err) ∧
        (dbgOp c = 4 → exec (.debugWriteRegister a c) s = .next err)) ∧
      (∀ k b x, s.dbgTarget f c = some (k, b, x) →
        let n := dbgBand c
        (s.dbg b 0 = false → s.dbg b 2 = false → (dbgOp c = 0 → exec (.debugHalt a c) s = .next err) ∧
          (dbgOp c = 1 → exec (.debugResume a c) s = .next err)) ∧
        (∀ u, dbgOp c = 0 → s.dbg b 0 = true ∨ s.dbg b 2 = true → s.takeDue k n = some u → exec (.debugHalt a c) s =
          .next ((u.modBand k n fun y => { y with halted := true }).dbgDone f c false)) ∧
        (dbgOp c = 0 → s.dbg b 0 = true ∨ s.dbg b 2 = true → s.takeDue k n = none →
          ∃ t, exec (.debugHalt a c) s = .next t ∧ t.mem = s.mem ∧
          t.fn f = (done (s.fn f).dbgDat).fn f ∧ ∀ b₀ y, s.blk k = some b₀ → b₀.band n = some y →
            ((t.blk k).bind fun b => b.band n) = some { y with halted := true }) ∧
        (dbgOp c = 1 → s.dbg b 0 = true ∨ s.dbg b 2 = true → x.resumeTrap = none →
          ∃ t, exec (.debugResume a c) s = .next t ∧ t.mem = s.mem ∧ ∀ b₀ y, s.blk k = some b₀ → b₀.band n = some y →
            ((t.blk k).bind fun b => b.band n) = some { y with halted := false, stepping := false, resumeTrap := none }) ∧
        (∀ h, x.resumeTrap = some h →
          let u (step : Bool) : State := s.modBand k n fun y => { y with halted := false, stepping := step, resumeTrap := none }
          let go (step : Bool) : State := ((u step).enterHandler k n h.trap h.async h.ovf h.pc h.act).dbgDone f c false
          (dbgOp c = 1 → s.dbg b 0 = true ∨ s.dbg b 2 = true → exec (.debugResume a c) s = .next (go false)) ∧
          (dbgOp c = 2 → s.dbg b 1 = true → exec (.debugStep a c) s = .next (go true))) ∧
        (dbgOp c = 2 → s.dbg b 1 = true → x.resumeTrap = none →
          ∃ t, exec (.debugStep a c) s = .next t ∧ t.mem = s.mem ∧ ∀ b₀ y, s.blk k = some b₀ → b₀.band n = some y →
            ((t.blk k).bind fun b => b.band n) = some { y with halted := false, stepping := true, resumeTrap := none }) ∧
        (s.dbg b 2 = true → x.halted = true → dbgNames b x c = true →
          (dbgOp c = 3 → x.tokens = 0 → exec (.debugReadRegister a c) s = .next (done (match dbgClass c with
            | 0 => ((x.lane (dbgLane c)).v (dbgReg c)).setWidth 64
            | 1 => (x.u (dbgReg c)).setWidth 64
            | 2 => (x.lane (dbgLane c)).preds.setWidth 64
            | _ => s.csrVal b x (dbgReg c)))) ∧
          (dbgOp c = 4 → ∃ t, exec (.debugWriteRegister a c) s = .next t ∧ t.mem = s.mem ∧ ∀ b₀ y, s.blk k = some b₀ →
            b₀.band n = some y → (t.blk k).bind (fun b => b.band n) = some (match dbgClass c with
              | 0 => { y with
                  lanes := modAt y.lanes (dbgLane c) fun l => l.setV (dbgReg c) ((s.fn f).dbgDat.setWidth 32)
                  latch := y.latch.filter fun q => q.1 != dbgReg c }
              | 1 => y.setU (dbgReg c) ((s.fn f).dbgDat.setWidth 32)
              | 2 => { y with lanes := modAt y.lanes (dbgLane c) fun l => { l with preds := (s.fn f).dbgDat.setWidth 7 } }
              | _ => y.csrPut (((s.ctx b.asid).map Ctx.dbgen).getD 0) (dbgReg c) (s.fn f).dbgDat))))) ∧
    (s.rangeOnLoan (s.fn f).lmBmp.toNat 786432 = false → Memory.wf s.mem = true → (s.fn f).lmBmp.toNat % 128 = 0 →
      (∀ j, j < 786432 → let a := (s.fn f).lmBmp.toNat + j
        (isDev a = true ∨ isHost a = true) ∧ s.deadAt a = false) →
      ∃ t, exec (.lmctlSnap f) s = .next t ∧ (t.fn f).dirty = [] ∧ t.blocks = s.blocks ∧
        (∀ g, g < 8 * 786432 → ((mget t.mem ((s.fn f).lmBmp.toNat + g / 8)).getLsbD (g % 8) = true ↔ g ∈ (s.fn f).dirty)) ∧
        ∀ a, a < (s.fn f).lmBmp.toNat ∨ (∀ g ∈ (s.fn f).dirty, g < 8 * 786432) ∧ (s.fn f).lmBmp.toNat + 786432 ≤ a →
          mget t.mem a = mget s.mem a) ∧
    ((s.fn f).lmQuiesce = false →
      exec (.lmctlQuiesce f) s = .next (s.setFn f { s.fn f with lmQuiesce := true, lmQdone := false })) ∧
    ((s.fn f).lmQuiesce = true → (s.fn f).lmStopped = false → s.loansFinal f = true →
      (∀ p ∈ s.blocks, ∀ x ∈ p.2.bands, x.dueTrap = none) →
      ∃ t, exec (.lmctlQuiesce f) s = .next t ∧ t.mem = s.mem ∧ (t.fn f).lmStopped = true ∧
        ∀ k b, s.blk k = some b → b.fn = f → b.st = .running → ∃ b', t.blk k = some b' ∧ b'.waits = true) ∧
    (let img := Config.imageBytes s.freeCtr
      let at' := (s.fn f).lmImg.toNat
      (s.fn f).lmStopped = true → (s.fn f).lmQdone = false → s.quiet f = true →
      (∀ p ∈ s.blocks, p.2.fn = f → s.saveDue p.2 = false) → s.rangeOnLoan at' img.length = false → Memory.wf s.mem = true →
      at' % 128 = 0 → (∀ j, j < img.length → (isDev (at' + j) = true ∨ isHost (at' + j) = true) ∧ s.deadAt (at' + j) = false) →
      ∃ t, exec (.quiesceDone f) s = .next t ∧ (t.fn f).lmQdone = true ∧ t.images = (img, s.image f) :: s.images ∧
        t.blocks = s.blocks ∧ mread t.mem at' img.length = img ∧
        ∀ r ∈ (t.fn f).pageReqs, r.copy = none) ∧
    ((s.fn f).lmQuiesce = true → ∀ g : Grid, g.fn = f → s.firstItem ≠ some (.block g)) ∧
    (∀ i : LmImage, s.imageAt f = some i → i.grids = [] → i.blocks = [] → i.ctxs = [] →
      ∃ t, exec (.lmctlResume f) s = .next t ∧ t.mem = s.mem ∧ (t.fn f).lmQuiesce = false ∧ (t.fn f).lmQdone = false ∧
        (t.fn f).queues = i.queues.map (fun q => (q.1, { q.2 with lqctx := ((s.fn f).queue q.1).lqctx })) ∧
        (∀ p ∈ t.blocks, p.2.fn ≠ f) ∧ ∀ p ∈ s.blocks, p.2.fn ≠ f → p ∈ t.blocks) ∧
    (∀ i : LmImage, s.imageAt f = some i → ∃ t, exec (.lmctlResume f) s = .next t)

/-! ### An invariant of every step -/

/-- Every step that answers a next state keeps memory in its canonical form: addresses rise strictly and no listed byte
is 0 (log entry 6). -/
def Obligations.MemoryStaysCanonical : Prop :=
  ∀ s t : State, Memory.wf s.mem = true → step s = .next t → Memory.wf t.mem = true
end

