-- ==== Sys2Proof/Laws/Codes.lean ====
section
/-! SUPPORT. Fields of words: every small field and every specifier reads back as it was written, and a word splits
into the fields that it was joined from. -/

namespace Sys2Proof

/-! ### Parts of joined bit vectors -/

@[simp] theorem part_lo {v w : Nat} (x : BitVec v) (y : BitVec w) (s l : Nat) (h : s + l ≤ w) :
    (x ++ y).extractLsb' s l = y.extractLsb' s l := by
  apply BitVec.eq_of_getLsbD_eq; intro i hi
  simp only [BitVec.getLsbD_extractLsb', BitVec.getLsbD_append]
  rw [if_pos (by omega)]

@[simp] theorem part_hi {v w : Nat} (x : BitVec v) (y : BitVec w) (s l : Nat) (h : w ≤ s) :
    (x ++ y).extractLsb' s l = x.extractLsb' (s - w) l := by
  apply BitVec.eq_of_getLsbD_eq; intro i hi
  simp only [BitVec.getLsbD_extractLsb', BitVec.getLsbD_append]
  rw [if_neg (by omega)]; congr 2; omega

theorem part_all {w : Nat} (x : BitVec w) : x.extractLsb' 0 w = x := by simp

@[simp] theorem bit_lo {v w : Nat} (x : BitVec v) (y : BitVec w) (i : Nat) (h : i < w) :
    (x ++ y).getLsbD i = y.getLsbD i := by simp [BitVec.getLsbD_append, h]

@[simp] theorem bit_hi {v w : Nat} (x : BitVec v) (y : BitVec w) (i : Nat) (h : w ≤ i) :
    (x ++ y).getLsbD i = x.getLsbD (i - w) := by simp [BitVec.getLsbD_append]; omega

@[simp] theorem bit_eb (b : Bool) : (eb b).getLsbD 0 = b := by cases b <;> rfl

theorem bit_ofBool (b : Bool) : (BitVec.ofBool b).getLsbD 0 = b := by cases b <;> rfl

theorem unpack_fields (w : BitVec (64 + 8 + 8 + 8 + 8 + 10 + 1 + 1 + 3 + 2 + 3 + 6 + 4 + 2)) : unpack w =
    ⟨w.extractLsb' 0 2, w.extractLsb' 2 4, w.extractLsb' 6 6, w.extractLsb' 12 3, w.extractLsb' 15 2, w.extractLsb' 17 3,
      w.getLsbD 20, w.getLsbD 21, w.extractLsb' 22 10, w.extractLsb' 32 8, w.extractLsb' 40 8, w.extractLsb' 48 8,
      w.extractLsb' 56 8, w.extractLsb' 64 64⟩ := rfl

/-- A word splits into the fields that it was joined from. -/
theorem unpack_pack (r : Raw) : unpack (pack r) = r := by
  cases r
  rw [pack, unpack_fields]
  simp (disch := omega) only [part_lo, part_hi, part_all, bit_lo, bit_hi, bit_ofBool, Nat.sub_self, Nat.reduceSub]

/-! ### Codes -/

@[simp] theorem IType.ofCode_code (t : IType) : IType.ofCode t.code = t := by cases t <;> rfl
@[simp] theorem ICond.ofCode_code (t : ICond) : ICond.ofCode t.code = some t := by cases t <;> rfl
@[simp] theorem FCond.ofCode_code (t : FCond) : FCond.ofCode t.code = t := by cases t <;> rfl
@[simp] theorem Rnd.ofCode_code (t : Rnd) : Rnd.ofCode t.code = some t := by cases t <;> rfl
@[simp] theorem wOf_code (b : Bool) : wOf (wCode b) = some b := by cases b <;> rfl
@[simp] theorem swOf_code (b : Bool) : swOf (swCode b) = some b := by cases b <;> rfl
@[simp] theorem CvFmt.ofCode_code (t : CvFmt) : CvFmt.ofCode t.code = some t := by cases t <;> rfl
@[simp] theorem IFmt.ofCode_code (t : IFmt) : IFmt.ofCode t.code = some t := by cases t <;> rfl
@[simp] theorem PFmt.ofCode_code (t : PFmt) : PFmt.ofCode t.code = t := by cases t <;> rfl
@[simp] theorem Dot4Fmt.ofCode_code (t : Dot4Fmt) : Dot4Fmt.ofCode t.code = some t := by cases t <;> rfl
@[simp] theorem DKind.ofCode_code (t : DKind) : DKind.ofCode t.code = some t := by cases t <;> rfl
@[simp] theorem RedbOp.ofCode_code (t : RedbOp) : RedbOp.ofCode t.code = some t := by cases t <;> rfl
@[simp] theorem SReg.ofCode_code (t : SReg) : SReg.ofCode t.code = some t := by cases t <;> rfl
@[simp] theorem BScope.ofCode_code (t : BScope) : BScope.ofCode t.code = t := by cases t <;> rfl
@[simp] theorem Scope.ofCode_code (t : Scope) : Scope.ofCode t.code = some t := by cases t <;> rfl
@[simp] theorem Scope.ofCode_zero : Scope.ofCode 0#3 = some .band := rfl
@[simp] theorem LSize.ofCode_code (t : LSize) : LSize.ofCode t.code = some t := by cases t <;> rfl
@[simp] theorem FKind.ofCode_code (t : FKind) : FKind.ofCode t.code = some t := by cases t <;> rfl
@[simp] theorem AOp.ofCode_code (t : AOp) : AOp.ofCode t.code = t := by cases t <;> rfl
@[simp] theorem SKind.ofCode_code (t : SKind) : SKind.ofCode t.code = some t := by cases t <;> rfl
@[simp] theorem CCls.ofCode_code (t : CCls) : CCls.ofCode t.code = t := by cases t <;> rfl
@[simp] theorem CDst.ofCode_code (t : CDst) : CDst.ofCode t.code = t := by cases t <;> rfl
@[simp] theorem AccFmt.ofCode_code (t : AccFmt) : AccFmt.ofCode t.code = t := by cases t <;> rfl
@[simp] theorem MTgt.ofCode_code (t : MTgt) : MTgt.ofCode t.code = some t := by cases t <;> rfl

@[simp] theorem eU_hi (r : BitVec 6) : (eU r).extractLsb' 6 2 = 0 := by
  simp (disch := omega) [-Nat.reduceAdd]
@[simp] theorem eU_lo (r : BitVec 6) : (eU r).extractLsb' 0 6 = r := by
  simp (disch := omega) [-Nat.reduceAdd]

@[simp] theorem Pred.ofCode_code (p : Pred) : Pred.ofCode p.code = some p := by
  cases p with
  | none => rfl
  | cmd n => simp (disch := omega) [Pred.code, Pred.ofCode, -Nat.reduceAdd]
  | ring r k => simp (disch := omega) [Pred.code, Pred.ofCode, -Nat.reduceAdd]

/-! ### Decoding of one field -/

@[simp] theorem need_true (k : Decoded) : need true k = k := rfl
@[simp] theorem optK_some {α : Type} (a : α) (k : α → Decoded) : optK (some a) k = k a := rfl
@[simp] theorem uniK_eU (r : BitVec 6) (k : BitVec 6 → Decoded) : uniK (eU r) k = k r := by
  simp [uniK, -part_lo, -part_hi, need]
@[simp] theorem prdK_e3 (r : BitVec 3) (k : BitVec 3 → Decoded) : prdK (e3 r) k = k r := by
  simp (disch := omega) [prdK, need, -Nat.reduceAdd]
@[simp] theorem tileK_join (r : BitVec 4) (k : BitVec 4 → Decoded) : tileK (0#4 ++ r) k = k r := by
  simp (disch := omega) [tileK, need, -Nat.reduceAdd]
@[simp] theorem srcK_spec (a : Src) (k : Src → Decoded) : srcK a.isU a.spec k = k a := by
  cases a with
  | v r => rfl
  | u r => exact uniK_eU r fun r => k (.u r)
@[simp] theorem dstK_spec (a : Dst) (k : Dst → Decoded) : dstK a.isU a.spec k = k a := by
  cases a with
  | v r => rfl
  | u r => exact uniK_eU r fun r => k (.u r)

/-! ### From a word to its group -/

@[simp] theorem raw_imm (r : Raw) : r.imm = r.ext.extractLsb' 0 32 := rfl
@[simp] theorem raw_ua (r : Raw) : r.ua = r.md.getLsbD 0 := rfl
@[simp] theorem raw_ub (r : Raw) : r.ub = r.md.getLsbD 1 := rfl
@[simp] theorem raw_m (r : Raw) (i : Nat) : r.m i = r.md.getLsbD i := rfl
@[simp] theorem raw_f2 (r : Raw) : r.f2 = r.md.extractLsb' 2 3 := rfl
@[simp] theorem raw_top (r : Raw) : r.top = r.md.extractLsb' 5 3 := rfl

/-- A program instruction with a legal SETT decodes as its group's decoder says. -/
theorem decode_encode_eq (i : Instr) (opc : BitVec 10) (h : Hdr) (ho : i.opc? = some opc) (hh : i.hdr? = some h)
    (hl : lenCode opc ≠ 3) (hw : i.wf = true) : decode (encode i) =
      decodeGroup (opc.toNat / 64) h (encodeRaw i) (opc.toNat % 64) := by
  have hs : (h.sett != 6) = true := by
    unfold Instr.wf at hw; rw [hh] at hw; exact (Bool.and_eq_true_iff.mp hw).2
  rw [encode, decode, unpack_pack, decodeRaw, encodeRaw, ho, hh]
  simp only [ne_eq, hl, if_false, not_true_eq_false, hs, Bool.not_false, Bool.and_self, need_true, Raw.hdr]

end Sys2Proof
end

