-- ==== Sys2Proof/Laws/Tables.lean ====
section
/-! SUPPORT. What the operations over tables, memory and lists do: reading after writing, and the canonical
form of tables and memory. -/

namespace Sys2Proof.Machine

open Sys2Proof

variable {α β : Type}

/-! ### Tables -/

@[simp] theorem tget_tset_self (t : Tbl α) (k : Nat) (v : α) : tget (tset t k v) k = some v := by
  induction t with
  | nil => simp [tset, tget]
  | cons p t ih =>
    obtain ⟨k', w⟩ := p
    simp only [tset]
    split
    · simp [tget]
    · split
      · simp [tget]
      · rename_i h; simp only [tget]; rw [if_neg (fun e => h e.symm)]; exact ih

theorem tget_tset_ne (t : Tbl α) {k x : Nat} (v : α) (h : x ≠ k) : tget (tset t k v) x = tget t x := by
  induction t with
  | nil => simp [tset, tget, Ne.symm h]
  | cons p t ih =>
    obtain ⟨k', w⟩ := p
    simp only [tset]
    split
    · simp [tget, Ne.symm h]
    · split
      · rename_i e; subst e; simp [tget, Ne.symm h]
      · simp only [tget]; split <;> simp [ih]

theorem tget_tset (t : Tbl α) (k x : Nat) (v : α) : tget (tset t k v) x = if x = k then some v else tget t x := by
  split
  · rename_i h; subst h; simp
  · rename_i h; exact tget_tset_ne t v h

@[simp] theorem tget_tmod_self (t : Tbl α) (k : Nat) (f : α → α) : tget (tmod t k f) k = (tget t k).map f := by
  induction t with
  | nil => rfl
  | cons p t ih =>
    obtain ⟨k', w⟩ := p
    simp only [tmod, List.map_cons]
    by_cases h : k' = k
    · simp [h, tget]
    · simp only [h, if_false, tget]; exact ih

theorem tget_tmod_ne (t : Tbl α) {k x : Nat} (f : α → α) (h : x ≠ k) : tget (tmod t k f) x = tget t x := by
  induction t with
  | nil => rfl
  | cons p t ih =>
    obtain ⟨k', w⟩ := p
    simp only [tmod, List.map_cons]
    by_cases e : k' = k
    · subst e; simp only [if_true, tget, Ne.symm h, if_false]; exact ih
    · simp only [e, if_false, tget]; split
      · rfl
      · exact ih

/-- A lower bound of a table's keys. -/
def below (k : Nat) (t : Tbl α) : Prop := ∀ p ∈ t, k < p.1

theorem keysRise_cons (p : Nat × α) (t : Tbl α) : keysRise (p :: t) = true ↔ below p.1 t ∧ keysRise t = true := by
  obtain ⟨k, v⟩ := p
  induction t generalizing k v with
  | nil => simp [keysRise, below]
  | cons q t ih =>
    obtain ⟨k', v'⟩ := q
    simp only [keysRise, Bool.and_eq_true, decide_eq_true_eq]
    constructor
    · rintro ⟨h, hr⟩
      refine ⟨?_, hr⟩
      intro p hp
      rcases List.mem_cons.1 hp with rfl | hp
      · exact h
      · exact Nat.lt_trans h (((ih k' v').1 hr).1 p hp)
    · rintro ⟨hb, hr⟩
      exact ⟨hb (k', v') (by simp), hr⟩

theorem tset_mem (t : Tbl α) (k : Nat) (v : α) (p : Nat × α) (h : p ∈ tset t k v) : p = (k, v) ∨ p ∈ t := by
  induction t with
  | nil => simpa [tset] using h
  | cons q t ih =>
    obtain ⟨k', w⟩ := q
    simp only [tset] at h
    split at h
    · rcases List.mem_cons.1 h with h | h
      · exact .inl h
      · exact .inr h
    · split at h
      · rcases List.mem_cons.1 h with h | h
        · exact .inl h
        · exact .inr (List.mem_cons_of_mem _ h)
      · rcases List.mem_cons.1 h with h | h
        · exact .inr (by simp [h])
        · rcases ih h with h | h
          · exact .inl h
          · exact .inr (List.mem_cons_of_mem _ h)

theorem keysRise_tset (t : Tbl α) (k : Nat) (v : α) (h : keysRise t = true) : keysRise (tset t k v) = true := by
  induction t with
  | nil => rfl
  | cons p t ih =>
    obtain ⟨k', w⟩ := p
    have ⟨hb, hr⟩ := (keysRise_cons _ _).1 h
    simp only [tset]
    split
    · rename_i hk
      refine (keysRise_cons _ _).2 ⟨?_, h⟩
      intro p hp
      rcases List.mem_cons.1 hp with rfl | hp
      · exact hk
      · exact Nat.lt_trans hk (hb p hp)
    · split
      · rename_i e; subst e; exact (keysRise_cons _ _).2 ⟨hb, hr⟩
      · rename_i h1 h2
        refine (keysRise_cons _ _).2 ⟨?_, ih hr⟩
        intro p hp
        rcases tset_mem _ _ _ _ hp with rfl | hp
        · simp only; omega
        · exact hb p hp

theorem keysRise_tmod (t : Tbl α) (k : Nat) (f : α → α) (h : keysRise t = true) : keysRise (tmod t k f) = true := by
  induction t with
  | nil => rfl
  | cons p t ih =>
    have ⟨hb, hr⟩ := (keysRise_cons _ _).1 h
    refine (keysRise_cons _ _).2 ⟨?_, ih hr⟩
    intro q hq
    obtain ⟨q', hq', rfl⟩ := List.mem_map.1 hq
    have h1 := hb q' hq'
    have e (r : Nat × α) : (if r.1 = k then (r.1, f r.2) else r).1 = r.1 := by split <;> rfl
    simpa only [e] using h1

theorem keysRise_tdel (t : Tbl α) (k : Nat) (h : keysRise t = true) : keysRise (tdel t k) = true ∧ ∀ p ∈ tdel t k, p ∈ t := by
  induction t with
  | nil => exact ⟨rfl, by simp [tdel]⟩
  | cons p t ih =>
    obtain ⟨k', w⟩ := p
    have ⟨hb, hr⟩ := (keysRise_cons _ _).1 h
    simp only [tdel]
    split
    · exact ⟨hr, fun p hp => List.mem_cons_of_mem _ hp⟩
    · refine ⟨(keysRise_cons _ _).2 ⟨fun p hp => hb p ((ih hr).2 p hp), (ih hr).1⟩, ?_⟩
      intro p hp
      rcases List.mem_cons.1 hp with rfl | hp
      · simp
      · exact List.mem_cons_of_mem _ ((ih hr).2 p hp)

/-! ### Memory -/

theorem mput_eq_tset (m : Memory) (a : Nat) (b : Byte) : mput m a b = tset m a b := by
  induction m with
  | nil => rfl
  | cons p m ih => obtain ⟨k, w⟩ := p; simp only [mput, tset, ih]

theorem mget_eq (m : Memory) (a : Nat) : mget m a = (tget m a).getD 0 := by
  induction m with
  | nil => rfl
  | cons p m ih => obtain ⟨k, w⟩ := p; simp only [mget, tget]; split <;> simp [ih]

theorem tget_none_of_below (t : Tbl α) (k : Nat) (h : below k t) : tget t k = none := by
  induction t with
  | nil => rfl
  | cons p t ih =>
    obtain ⟨k', w⟩ := p
    have h1 := h (k', w) (by simp)
    simp only [tget]
    rw [if_neg (by simp only at h1; omega)]
    exact ih fun q hq => h q (List.mem_cons_of_mem _ hq)

theorem tget_tdel (t : Tbl α) (k x : Nat) (h : keysRise t = true) :
    tget (tdel t k) x = if x = k then none else tget t x := by
  induction t with
  | nil => simp [tdel, tget]
  | cons p t ih =>
    obtain ⟨k', w⟩ := p
    have ⟨hb, hr⟩ := (keysRise_cons _ _).1 h
    simp only [tdel]
    split
    · rename_i e; subst e
      split
      · rename_i e; subst e; exact tget_none_of_below _ _ hb
      · rename_i e; simp [tget, Ne.symm e]
    · rename_i e
      simp only [tget, ih hr]
      split
      · rename_i e2; subst e2; simp [e]
      · rfl

theorem Memory.wf_iff (m : Memory) : Memory.wf m = true ↔ keysRise m = true ∧ ∀ p ∈ m, p.2 ≠ 0 := by
  simp [Memory.wf]

@[simp] theorem Memory.wf_nil : Memory.wf [] = true := rfl

/-- A write keeps the canonical form. -/
theorem Memory.wf_mset {m : Memory} (h : Memory.wf m = true) (a : Nat) (b : Byte) : Memory.wf (mset m a b) = true := by
  obtain ⟨hk, hz⟩ := (Memory.wf_iff m).1 h
  unfold mset
  split
  · exact (Memory.wf_iff _).2 ⟨(keysRise_tdel m a hk).1, fun p hp => hz p ((keysRise_tdel m a hk).2 p hp)⟩
  · rename_i hb
    rw [mput_eq_tset]
    refine (Memory.wf_iff _).2 ⟨keysRise_tset _ _ _ hk, ?_⟩
    intro p hp
    rcases tset_mem _ _ _ _ hp with rfl | hp
    · exact hb
    · exact hz p hp

/-- Reading a byte after writing one: the byte written, and every other byte as before. -/
theorem mget_mset {m : Memory} (h : Memory.wf m = true) (a x : Nat) (b : Byte) :
    mget (mset m a b) x = if x = a then b else mget m x := by
  obtain ⟨hk, _⟩ := (Memory.wf_iff m).1 h
  unfold mset
  split
  · rename_i hb
    rw [mget_eq, tget_tdel _ _ _ hk, mget_eq]
    split <;> simp [hb]
  · rw [mput_eq_tset, mget_eq, tget_tset, mget_eq]
    split <;> rfl

theorem Memory.wf_mwrite {m : Memory} (h : Memory.wf m = true) (a : Nat) (bs : List Byte) :
    Memory.wf (mwrite m a bs) = true := by
  induction bs generalizing m a with
  | nil => exact h
  | cons b bs ih => exact ih (Memory.wf_mset h a b) (a + 1)

/-- Reading a byte after writing some: the byte written there, or as before outside them. -/
theorem mget_mwrite {m : Memory} (h : Memory.wf m = true) (a x : Nat) (bs : List Byte) :
    mget (mwrite m a bs) x = if a ≤ x ∧ x < a + bs.length then bs.getD (x - a) 0 else mget m x := by
  induction bs generalizing m a with
  | nil => rw [if_neg (by simp only [List.length_nil]; omega)]; rfl
  | cons b bs ih =>
    simp only [mwrite, List.length_cons]
    rw [ih (Memory.wf_mset h a b) (a + 1), mget_mset h]
    by_cases h1 : x = a
    · subst h1
      rw [if_neg (by omega), if_pos rfl, if_pos (by omega)]
      simp
    · by_cases h2 : a + 1 ≤ x ∧ x < a + 1 + bs.length
      · rw [if_pos h2, if_pos (by omega), show x - a = (x - (a + 1)) + 1 by omega]
        simp
      · rw [if_neg h2, if_neg h1, if_neg (by omega)]

theorem length_mread (m : Memory) (a n : Nat) : (mread m a n).length = n := by
  induction n generalizing a with
  | zero => rfl
  | succ n ih => simp [mread, ih]

theorem getD_mread (m : Memory) (a n i : Nat) (h : i < n) : (mread m a n).getD i 0 = mget m (a + i) := by
  induction n generalizing a i with
  | zero => omega
  | succ n ih =>
    cases i with
    | zero => simp [mread]
    | succ i =>
      have := ih (a + 1) i (by omega)
      simp only [mread, List.getD_cons_succ, this]
      congr 1; omega

theorem length_leBytes (n v : Nat) : (leBytes n v).length = n := by
  induction n generalizing v with
  | zero => rfl
  | succ n ih => simp [leBytes, ih]

theorem leVal_leBytes (n v : Nat) : leVal (leBytes n v) = v % 256 ^ n := by
  induction n generalizing v with
  | zero => simp [leBytes, leVal, Nat.mod_one]
  | succ n ih =>
    have e : v % 256 ^ (n + 1) = v % 256 + 256 * (v / 256 % 256 ^ n) := by
      rw [Nat.pow_succ, Nat.mul_comm (256 ^ n) 256, Nat.mod_mul]
    simp only [leBytes, leVal, ih, BitVec.toNat_ofNat, e]

/-! ### Lists by position -/

@[simp] theorem length_setAt (l : List α) (i : Nat) (v : α) : (setAt l i v).length = l.length := by simp [setAt]

@[simp] theorem length_modAt (l : List α) (i : Nat) (f : α → α) : (modAt l i f).length = l.length := by
  induction l generalizing i with
  | nil => rfl
  | cons a l ih => cases i <;> simp [modAt, ih]

@[simp] theorem length_modAll (l : List α) (is : List Nat) (f : Nat → α → α) : (modAll l is f).length = l.length := by
  simp [modAll]

theorem getElem?_modAt (l : List α) (i j : Nat) (f : α → α) :
    (modAt l i f)[j]? = if j = i then (l[j]?).map f else l[j]? := by
  induction l generalizing i j with
  | nil => simp [modAt]
  | cons a l ih =>
    cases i with
    | zero => cases j <;> simp [modAt]
    | succ i => cases j <;> simp [modAt, ih]

theorem getElem?_modAll (l : List α) (is : List Nat) (f : Nat → α → α) (j : Nat) :
    (modAll l is f)[j]? = (l[j]?).map fun a => if is.contains j then f j a else a := by
  simp [modAll]

theorem getElem?_setAt (l : List α) (i j : Nat) (v : α) (h : i < l.length) :
    (setAt l i v)[j]? = if j = i then some v else l[j]? := by
  unfold setAt
  by_cases e : j = i
  · subst e; simp [h]
  · simp [e, Ne.symm e]

theorem getD_setAt (l : List α) (i j : Nat) (v d : α) (h : j < l.length) :
    (setAt l i v).getD j d = if i = j then v else l.getD j d := by
  simp only [setAt, List.getD_eq_getElem?_getD]
  by_cases e : i = j
  · subst e; simp [h]
  · simp [e]

end Sys2Proof.Machine
end

