-- ==== Sys2Proof/Laws/State.lean ====
section
/-! SUPPORT. What each update of the state, of a block and of a band leaves alone: one lemma for each field, so that no
proof unfolds a record update. -/

set_option Elab.async false

namespace Sys2Proof.Machine

open Sys2Proof

/-! ### `State.setCore` -/

@[simp] theorem State.setCore_agenda (s : State) (c : Nat) (k : Core) : (s.setCore c k).agenda = s.agenda := rfl
@[simp] theorem State.setCore_curBlock (s : State) (c : Nat) (k : Core) : (s.setCore c k).curBlock = s.curBlock := rfl
@[simp] theorem State.setCore_curBand (s : State) (c : Nat) (k : Core) : (s.setCore c k).curBand = s.curBand := rfl
@[simp] theorem State.setCore_freeCtr (s : State) (c : Nat) (k : Core) : (s.setCore c k).freeCtr = s.freeCtr := rfl
@[simp] theorem State.setCore_serial (s : State) (c : Nat) (k : Core) : (s.setCore c k).serial = s.serial := rfl
@[simp] theorem State.setCore_power (s : State) (c : Nat) (k : Core) : (s.setCore c k).power = s.power := rfl
@[simp] theorem State.setCore_time (s : State) (c : Nat) (k : Core) : (s.setCore c k).time = s.time := rfl
@[simp] theorem State.setCore_skew (s : State) (c : Nat) (k : Core) : (s.setCore c k).skew = s.skew := rfl
@[simp] theorem State.setCore_mem (s : State) (c : Nat) (k : Core) : (s.setCore c k).mem = s.mem := rfl
@[simp] theorem State.setCore_cw (s : State) (c : Nat) (k : Core) : (s.setCore c k).cw = s.cw := rfl
@[simp] theorem State.setCore_hist (s : State) (c : Nat) (k : Core) : (s.setCore c k).hist = s.hist := rfl
@[simp] theorem State.setCore_homes (s : State) (c : Nat) (k : Core) : (s.setCore c k).homes = s.homes := rfl
@[simp] theorem State.setCore_floors (s : State) (c : Nat) (k : Core) : (s.setCore c k).floors = s.floors := rfl
@[simp] theorem State.setCore_net (s : State) (c : Nat) (k : Core) : (s.setCore c k).net = s.net := rfl
@[simp] theorem State.setCore_arrived (s : State) (c : Nat) (k : Core) : (s.setCore c k).arrived = s.arrived := rfl
@[simp] theorem State.setCore_channels (s : State) (c : Nat) (k : Core) : (s.setCore c k).channels = s.channels := rfl
@[simp] theorem State.setCore_dieTlb (s : State) (c : Nat) (k : Core) : (s.setCore c k).dieTlb = s.dieTlb := rfl
@[simp] theorem State.setCore_ctxs (s : State) (c : Nat) (k : Core) : (s.setCore c k).ctxs = s.ctxs := rfl
@[simp] theorem State.setCore_fns (s : State) (c : Nat) (k : Core) : (s.setCore c k).fns = s.fns := rfl
@[simp] theorem State.setCore_lastLid (s : State) (c : Nat) (k : Core) : (s.setCore c k).lastLid = s.lastLid := rfl
@[simp] theorem State.setCore_lastGrid (s : State) (c : Nat) (k : Core) : (s.setCore c k).lastGrid = s.lastGrid := rfl
@[simp] theorem State.setCore_grids (s : State) (c : Nat) (k : Core) : (s.setCore c k).grids = s.grids := rfl
@[simp] theorem State.setCore_blocks (s : State) (c : Nat) (k : Core) : (s.setCore c k).blocks = s.blocks := rfl
@[simp] theorem State.setCore_samples (s : State) (c : Nat) (k : Core) : (s.setCore c k).samples = s.samples := rfl
@[simp] theorem State.setCore_pf (s : State) (c : Nat) (k : Core) : (s.setCore c k).pf = s.pf := rfl
@[simp] theorem State.setCore_root (s : State) (c : Nat) (k : Core) : (s.setCore c k).root = s.root := rfl
@[simp] theorem State.setCore_dieLinks (s : State) (c : Nat) (k : Core) : (s.setCore c k).dieLinks = s.dieLinks := rfl
@[simp] theorem State.setCore_ports (s : State) (c : Nat) (k : Core) : (s.setCore c k).ports = s.ports := rfl
@[simp] theorem State.setCore_slices (s : State) (c : Nat) (k : Core) : (s.setCore c k).slices = s.slices := rfl
@[simp] theorem State.setCore_sliceErrs (s : State) (c : Nat) (k : Core) : (s.setCore c k).sliceErrs = s.sliceErrs := rfl
@[simp] theorem State.setCore_wear (s : State) (c : Nat) (k : Core) : (s.setCore c k).wear = s.wear := rfl
@[simp] theorem State.setCore_hostLink (s : State) (c : Nat) (k : Core) : (s.setCore c k).hostLink = s.hostLink := rfl
@[simp] theorem State.setCore_hostHeld (s : State) (c : Nat) (k : Core) : (s.setCore c k).hostHeld = s.hostHeld := rfl
@[simp] theorem State.setCore_hostAsked (s : State) (c : Nat) (k : Core) : (s.setCore c k).hostAsked = s.hostAsked := rfl
@[simp] theorem State.setCore_hostData (s : State) (c : Nat) (k : Core) : (s.setCore c k).hostData = s.hostData := rfl
@[simp] theorem State.setCore_safeTier (s : State) (c : Nat) (k : Core) : (s.setCore c k).safeTier = s.safeTier := rfl
@[simp] theorem State.setCore_images (s : State) (c : Nat) (k : Core) : (s.setCore c k).images = s.images := rfl
@[simp] theorem State.setCore_unwritten (s : State) (c : Nat) (k : Core) : (s.setCore c k).unwritten = s.unwritten := rfl
@[simp] theorem State.setCore_remapped (s : State) (c : Nat) (k : Core) : (s.setCore c k).remapped = s.remapped := rfl

/-! ### `State.setFn` -/

@[simp] theorem State.setFn_agenda (s : State) (f : Nat) (x : Fn) : (s.setFn f x).agenda = s.agenda := rfl
@[simp] theorem State.setFn_curBlock (s : State) (f : Nat) (x : Fn) : (s.setFn f x).curBlock = s.curBlock := rfl
@[simp] theorem State.setFn_curBand (s : State) (f : Nat) (x : Fn) : (s.setFn f x).curBand = s.curBand := rfl
@[simp] theorem State.setFn_freeCtr (s : State) (f : Nat) (x : Fn) : (s.setFn f x).freeCtr = s.freeCtr := rfl
@[simp] theorem State.setFn_serial (s : State) (f : Nat) (x : Fn) : (s.setFn f x).serial = s.serial := rfl
@[simp] theorem State.setFn_power (s : State) (f : Nat) (x : Fn) : (s.setFn f x).power = s.power := rfl
@[simp] theorem State.setFn_time (s : State) (f : Nat) (x : Fn) : (s.setFn f x).time = s.time := rfl
@[simp] theorem State.setFn_skew (s : State) (f : Nat) (x : Fn) : (s.setFn f x).skew = s.skew := rfl
@[simp] theorem State.setFn_mem (s : State) (f : Nat) (x : Fn) : (s.setFn f x).mem = s.mem := rfl
@[simp] theorem State.setFn_cw (s : State) (f : Nat) (x : Fn) : (s.setFn f x).cw = s.cw := rfl
@[simp] theorem State.setFn_hist (s : State) (f : Nat) (x : Fn) : (s.setFn f x).hist = s.hist := rfl
@[simp] theorem State.setFn_homes (s : State) (f : Nat) (x : Fn) : (s.setFn f x).homes = s.homes := rfl
@[simp] theorem State.setFn_floors (s : State) (f : Nat) (x : Fn) : (s.setFn f x).floors = s.floors := rfl
@[simp] theorem State.setFn_net (s : State) (f : Nat) (x : Fn) : (s.setFn f x).net = s.net := rfl
@[simp] theorem State.setFn_arrived (s : State) (f : Nat) (x : Fn) : (s.setFn f x).arrived = s.arrived := rfl
@[simp] theorem State.setFn_channels (s : State) (f : Nat) (x : Fn) : (s.setFn f x).channels = s.channels := rfl
@[simp] theorem State.setFn_cores (s : State) (f : Nat) (x : Fn) : (s.setFn f x).cores = s.cores := rfl
@[simp] theorem State.setFn_dieTlb (s : State) (f : Nat) (x : Fn) : (s.setFn f x).dieTlb = s.dieTlb := rfl
@[simp] theorem State.setFn_ctxs (s : State) (f : Nat) (x : Fn) : (s.setFn f x).ctxs = s.ctxs := rfl
@[simp] theorem State.setFn_lastLid (s : State) (f : Nat) (x : Fn) : (s.setFn f x).lastLid = s.lastLid := rfl
@[simp] theorem State.setFn_lastGrid (s : State) (f : Nat) (x : Fn) : (s.setFn f x).lastGrid = s.lastGrid := rfl
@[simp] theorem State.setFn_grids (s : State) (f : Nat) (x : Fn) : (s.setFn f x).grids = s.grids := rfl
@[simp] theorem State.setFn_blocks (s : State) (f : Nat) (x : Fn) : (s.setFn f x).blocks = s.blocks := rfl
@[simp] theorem State.setFn_samples (s : State) (f : Nat) (x : Fn) : (s.setFn f x).samples = s.samples := rfl
@[simp] theorem State.setFn_pf (s : State) (f : Nat) (x : Fn) : (s.setFn f x).pf = s.pf := rfl
@[simp] theorem State.setFn_root (s : State) (f : Nat) (x : Fn) : (s.setFn f x).root = s.root := rfl
@[simp] theorem State.setFn_dieLinks (s : State) (f : Nat) (x : Fn) : (s.setFn f x).dieLinks = s.dieLinks := rfl
@[simp] theorem State.setFn_ports (s : State) (f : Nat) (x : Fn) : (s.setFn f x).ports = s.ports := rfl
@[simp] theorem State.setFn_slices (s : State) (f : Nat) (x : Fn) : (s.setFn f x).slices = s.slices := rfl
@[simp] theorem State.setFn_sliceErrs (s : State) (f : Nat) (x : Fn) : (s.setFn f x).sliceErrs = s.sliceErrs := rfl
@[simp] theorem State.setFn_wear (s : State) (f : Nat) (x : Fn) : (s.setFn f x).wear = s.wear := rfl
@[simp] theorem State.setFn_hostLink (s : State) (f : Nat) (x : Fn) : (s.setFn f x).hostLink = s.hostLink := rfl
@[simp] theorem State.setFn_hostHeld (s : State) (f : Nat) (x : Fn) : (s.setFn f x).hostHeld = s.hostHeld := rfl
@[simp] theorem State.setFn_hostAsked (s : State) (f : Nat) (x : Fn) : (s.setFn f x).hostAsked = s.hostAsked := rfl
@[simp] theorem State.setFn_hostData (s : State) (f : Nat) (x : Fn) : (s.setFn f x).hostData = s.hostData := rfl
@[simp] theorem State.setFn_safeTier (s : State) (f : Nat) (x : Fn) : (s.setFn f x).safeTier = s.safeTier := rfl
@[simp] theorem State.setFn_images (s : State) (f : Nat) (x : Fn) : (s.setFn f x).images = s.images := rfl
@[simp] theorem State.setFn_unwritten (s : State) (f : Nat) (x : Fn) : (s.setFn f x).unwritten = s.unwritten := rfl
@[simp] theorem State.setFn_remapped (s : State) (f : Nat) (x : Fn) : (s.setFn f x).remapped = s.remapped := rfl

/-! ### `State.modFn` -/

@[simp] theorem State.modFn_agenda (s : State) (f : Nat) (g : Fn → Fn) : (s.modFn f g).agenda = s.agenda := rfl
@[simp] theorem State.modFn_curBlock (s : State) (f : Nat) (g : Fn → Fn) : (s.modFn f g).curBlock = s.curBlock := rfl
@[simp] theorem State.modFn_curBand (s : State) (f : Nat) (g : Fn → Fn) : (s.modFn f g).curBand = s.curBand := rfl
@[simp] theorem State.modFn_freeCtr (s : State) (f : Nat) (g : Fn → Fn) : (s.modFn f g).freeCtr = s.freeCtr := rfl
@[simp] theorem State.modFn_serial (s : State) (f : Nat) (g : Fn → Fn) : (s.modFn f g).serial = s.serial := rfl
@[simp] theorem State.modFn_power (s : State) (f : Nat) (g : Fn → Fn) : (s.modFn f g).power = s.power := rfl
@[simp] theorem State.modFn_time (s : State) (f : Nat) (g : Fn → Fn) : (s.modFn f g).time = s.time := rfl
@[simp] theorem State.modFn_skew (s : State) (f : Nat) (g : Fn → Fn) : (s.modFn f g).skew = s.skew := rfl
@[simp] theorem State.modFn_mem (s : State) (f : Nat) (g : Fn → Fn) : (s.modFn f g).mem = s.mem := rfl
@[simp] theorem State.modFn_cw (s : State) (f : Nat) (g : Fn → Fn) : (s.modFn f g).cw = s.cw := rfl
@[simp] theorem State.modFn_hist (s : State) (f : Nat) (g : Fn → Fn) : (s.modFn f g).hist = s.hist := rfl
@[simp] theorem State.modFn_homes (s : State) (f : Nat) (g : Fn → Fn) : (s.modFn f g).homes = s.homes := rfl
@[simp] theorem State.modFn_floors (s : State) (f : Nat) (g : Fn → Fn) : (s.modFn f g).floors = s.floors := rfl
@[simp] theorem State.modFn_net (s : State) (f : Nat) (g : Fn → Fn) : (s.modFn f g).net = s.net := rfl
@[simp] theorem State.modFn_arrived (s : State) (f : Nat) (g : Fn → Fn) : (s.modFn f g).arrived = s.arrived := rfl
@[simp] theorem State.modFn_channels (s : State) (f : Nat) (g : Fn → Fn) : (s.modFn f g).channels = s.channels := rfl
@[simp] theorem State.modFn_cores (s : State) (f : Nat) (g : Fn → Fn) : (s.modFn f g).cores = s.cores := rfl
@[simp] theorem State.modFn_dieTlb (s : State) (f : Nat) (g : Fn → Fn) : (s.modFn f g).dieTlb = s.dieTlb := rfl
@[simp] theorem State.modFn_ctxs (s : State) (f : Nat) (g : Fn → Fn) : (s.modFn f g).ctxs = s.ctxs := rfl
@[simp] theorem State.modFn_lastLid (s : State) (f : Nat) (g : Fn → Fn) : (s.modFn f g).lastLid = s.lastLid := rfl
@[simp] theorem State.modFn_lastGrid (s : State) (f : Nat) (g : Fn → Fn) : (s.modFn f g).lastGrid = s.lastGrid := rfl
@[simp] theorem State.modFn_grids (s : State) (f : Nat) (g : Fn → Fn) : (s.modFn f g).grids = s.grids := rfl
@[simp] theorem State.modFn_blocks (s : State) (f : Nat) (g : Fn → Fn) : (s.modFn f g).blocks = s.blocks := rfl
@[simp] theorem State.modFn_samples (s : State) (f : Nat) (g : Fn → Fn) : (s.modFn f g).samples = s.samples := rfl
@[simp] theorem State.modFn_pf (s : State) (f : Nat) (g : Fn → Fn) : (s.modFn f g).pf = s.pf := rfl
@[simp] theorem State.modFn_root (s : State) (f : Nat) (g : Fn → Fn) : (s.modFn f g).root = s.root := rfl
@[simp] theorem State.modFn_dieLinks (s : State) (f : Nat) (g : Fn → Fn) : (s.modFn f g).dieLinks = s.dieLinks := rfl
@[simp] theorem State.modFn_ports (s : State) (f : Nat) (g : Fn → Fn) : (s.modFn f g).ports = s.ports := rfl
@[simp] theorem State.modFn_slices (s : State) (f : Nat) (g : Fn → Fn) : (s.modFn f g).slices = s.slices := rfl
@[simp] theorem State.modFn_sliceErrs (s : State) (f : Nat) (g : Fn → Fn) : (s.modFn f g).sliceErrs = s.sliceErrs := rfl
@[simp] theorem State.modFn_wear (s : State) (f : Nat) (g : Fn → Fn) : (s.modFn f g).wear = s.wear := rfl
@[simp] theorem State.modFn_hostLink (s : State) (f : Nat) (g : Fn → Fn) : (s.modFn f g).hostLink = s.hostLink := rfl
@[simp] theorem State.modFn_hostHeld (s : State) (f : Nat) (g : Fn → Fn) : (s.modFn f g).hostHeld = s.hostHeld := rfl
@[simp] theorem State.modFn_hostAsked (s : State) (f : Nat) (g : Fn → Fn) : (s.modFn f g).hostAsked = s.hostAsked := rfl
@[simp] theorem State.modFn_hostData (s : State) (f : Nat) (g : Fn → Fn) : (s.modFn f g).hostData = s.hostData := rfl
@[simp] theorem State.modFn_safeTier (s : State) (f : Nat) (g : Fn → Fn) : (s.modFn f g).safeTier = s.safeTier := rfl
@[simp] theorem State.modFn_images (s : State) (f : Nat) (g : Fn → Fn) : (s.modFn f g).images = s.images := rfl
@[simp] theorem State.modFn_unwritten (s : State) (f : Nat) (g : Fn → Fn) : (s.modFn f g).unwritten = s.unwritten := rfl
@[simp] theorem State.modFn_remapped (s : State) (f : Nat) (g : Fn → Fn) : (s.modFn f g).remapped = s.remapped := rfl

/-! ### `State.setBlk` -/

@[simp] theorem State.setBlk_agenda (s : State) (k : Nat) (b : Block) : (s.setBlk k b).agenda = s.agenda := rfl
@[simp] theorem State.setBlk_curBlock (s : State) (k : Nat) (b : Block) : (s.setBlk k b).curBlock = s.curBlock := rfl
@[simp] theorem State.setBlk_curBand (s : State) (k : Nat) (b : Block) : (s.setBlk k b).curBand = s.curBand := rfl
@[simp] theorem State.setBlk_freeCtr (s : State) (k : Nat) (b : Block) : (s.setBlk k b).freeCtr = s.freeCtr := rfl
@[simp] theorem State.setBlk_serial (s : State) (k : Nat) (b : Block) : (s.setBlk k b).serial = s.serial := rfl
@[simp] theorem State.setBlk_power (s : State) (k : Nat) (b : Block) : (s.setBlk k b).power = s.power := rfl
@[simp] theorem State.setBlk_time (s : State) (k : Nat) (b : Block) : (s.setBlk k b).time = s.time := rfl
@[simp] theorem State.setBlk_skew (s : State) (k : Nat) (b : Block) : (s.setBlk k b).skew = s.skew := rfl
@[simp] theorem State.setBlk_mem (s : State) (k : Nat) (b : Block) : (s.setBlk k b).mem = s.mem := rfl
@[simp] theorem State.setBlk_cw (s : State) (k : Nat) (b : Block) : (s.setBlk k b).cw = s.cw := rfl
@[simp] theorem State.setBlk_hist (s : State) (k : Nat) (b : Block) : (s.setBlk k b).hist = s.hist := rfl
@[simp] theorem State.setBlk_homes (s : State) (k : Nat) (b : Block) : (s.setBlk k b).homes = s.homes := rfl
@[simp] theorem State.setBlk_floors (s : State) (k : Nat) (b : Block) : (s.setBlk k b).floors = s.floors := rfl
@[simp] theorem State.setBlk_net (s : State) (k : Nat) (b : Block) : (s.setBlk k b).net = s.net := rfl
@[simp] theorem State.setBlk_arrived (s : State) (k : Nat) (b : Block) : (s.setBlk k b).arrived = s.arrived := rfl
@[simp] theorem State.setBlk_channels (s : State) (k : Nat) (b : Block) : (s.setBlk k b).channels = s.channels := rfl
@[simp] theorem State.setBlk_cores (s : State) (k : Nat) (b : Block) : (s.setBlk k b).cores = s.cores := rfl
@[simp] theorem State.setBlk_dieTlb (s : State) (k : Nat) (b : Block) : (s.setBlk k b).dieTlb = s.dieTlb := rfl
@[simp] theorem State.setBlk_ctxs (s : State) (k : Nat) (b : Block) : (s.setBlk k b).ctxs = s.ctxs := rfl
@[simp] theorem State.setBlk_fns (s : State) (k : Nat) (b : Block) : (s.setBlk k b).fns = s.fns := rfl
@[simp] theorem State.setBlk_lastLid (s : State) (k : Nat) (b : Block) : (s.setBlk k b).lastLid = s.lastLid := rfl
@[simp] theorem State.setBlk_lastGrid (s : State) (k : Nat) (b : Block) : (s.setBlk k b).lastGrid = s.lastGrid := rfl
@[simp] theorem State.setBlk_grids (s : State) (k : Nat) (b : Block) : (s.setBlk k b).grids = s.grids := rfl
@[simp] theorem State.setBlk_samples (s : State) (k : Nat) (b : Block) : (s.setBlk k b).samples = s.samples := rfl
@[simp] theorem State.setBlk_pf (s : State) (k : Nat) (b : Block) : (s.setBlk k b).pf = s.pf := rfl
@[simp] theorem State.setBlk_root (s : State) (k : Nat) (b : Block) : (s.setBlk k b).root = s.root := rfl
@[simp] theorem State.setBlk_dieLinks (s : State) (k : Nat) (b : Block) : (s.setBlk k b).dieLinks = s.dieLinks := rfl
@[simp] theorem State.setBlk_ports (s : State) (k : Nat) (b : Block) : (s.setBlk k b).ports = s.ports := rfl
@[simp] theorem State.setBlk_slices (s : State) (k : Nat) (b : Block) : (s.setBlk k b).slices = s.slices := rfl
@[simp] theorem State.setBlk_sliceErrs (s : State) (k : Nat) (b : Block) : (s.setBlk k b).sliceErrs = s.sliceErrs := rfl
@[simp] theorem State.setBlk_wear (s : State) (k : Nat) (b : Block) : (s.setBlk k b).wear = s.wear := rfl
@[simp] theorem State.setBlk_hostLink (s : State) (k : Nat) (b : Block) : (s.setBlk k b).hostLink = s.hostLink := rfl
@[simp] theorem State.setBlk_hostHeld (s : State) (k : Nat) (b : Block) : (s.setBlk k b).hostHeld = s.hostHeld := rfl
@[simp] theorem State.setBlk_hostAsked (s : State) (k : Nat) (b : Block) : (s.setBlk k b).hostAsked = s.hostAsked := rfl
@[simp] theorem State.setBlk_hostData (s : State) (k : Nat) (b : Block) : (s.setBlk k b).hostData = s.hostData := rfl
@[simp] theorem State.setBlk_safeTier (s : State) (k : Nat) (b : Block) : (s.setBlk k b).safeTier = s.safeTier := rfl
@[simp] theorem State.setBlk_images (s : State) (k : Nat) (b : Block) : (s.setBlk k b).images = s.images := rfl
@[simp] theorem State.setBlk_unwritten (s : State) (k : Nat) (b : Block) : (s.setBlk k b).unwritten = s.unwritten := rfl
@[simp] theorem State.setBlk_remapped (s : State) (k : Nat) (b : Block) : (s.setBlk k b).remapped = s.remapped := rfl

/-! ### `State.modBlk` -/

@[simp] theorem State.modBlk_agenda (s : State) (k : Nat) (g : Block → Block) : (s.modBlk k g).agenda = s.agenda := rfl
@[simp] theorem State.modBlk_curBlock (s : State) (k : Nat) (g : Block → Block) : (s.modBlk k g).curBlock = s.curBlock := rfl
@[simp] theorem State.modBlk_curBand (s : State) (k : Nat) (g : Block → Block) : (s.modBlk k g).curBand = s.curBand := rfl
@[simp] theorem State.modBlk_freeCtr (s : State) (k : Nat) (g : Block → Block) : (s.modBlk k g).freeCtr = s.freeCtr := rfl
@[simp] theorem State.modBlk_serial (s : State) (k : Nat) (g : Block → Block) : (s.modBlk k g).serial = s.serial := rfl
@[simp] theorem State.modBlk_power (s : State) (k : Nat) (g : Block → Block) : (s.modBlk k g).power = s.power := rfl
@[simp] theorem State.modBlk_time (s : State) (k : Nat) (g : Block → Block) : (s.modBlk k g).time = s.time := rfl
@[simp] theorem State.modBlk_skew (s : State) (k : Nat) (g : Block → Block) : (s.modBlk k g).skew = s.skew := rfl
@[simp] theorem State.modBlk_mem (s : State) (k : Nat) (g : Block → Block) : (s.modBlk k g).mem = s.mem := rfl
@[simp] theorem State.modBlk_cw (s : State) (k : Nat) (g : Block → Block) : (s.modBlk k g).cw = s.cw := rfl
@[simp] theorem State.modBlk_hist (s : State) (k : Nat) (g : Block → Block) : (s.modBlk k g).hist = s.hist := rfl
@[simp] theorem State.modBlk_homes (s : State) (k : Nat) (g : Block → Block) : (s.modBlk k g).homes = s.homes := rfl
@[simp] theorem State.modBlk_floors (s : State) (k : Nat) (g : Block → Block) : (s.modBlk k g).floors = s.floors := rfl
@[simp] theorem State.modBlk_net (s : State) (k : Nat) (g : Block → Block) : (s.modBlk k g).net = s.net := rfl
@[simp] theorem State.modBlk_arrived (s : State) (k : Nat) (g : Block → Block) : (s.modBlk k g).arrived = s.arrived := rfl
@[simp] theorem State.modBlk_channels (s : State) (k : Nat) (g : Block → Block) : (s.modBlk k g).channels = s.channels := rfl
@[simp] theorem State.modBlk_cores (s : State) (k : Nat) (g : Block → Block) : (s.modBlk k g).cores = s.cores := rfl
@[simp] theorem State.modBlk_dieTlb (s : State) (k : Nat) (g : Block → Block) : (s.modBlk k g).dieTlb = s.dieTlb := rfl
@[simp] theorem State.modBlk_ctxs (s : State) (k : Nat) (g : Block → Block) : (s.modBlk k g).ctxs = s.ctxs := rfl
@[simp] theorem State.modBlk_fns (s : State) (k : Nat) (g : Block → Block) : (s.modBlk k g).fns = s.fns := rfl
@[simp] theorem State.modBlk_lastLid (s : State) (k : Nat) (g : Block → Block) : (s.modBlk k g).lastLid = s.lastLid := rfl
@[simp] theorem State.modBlk_lastGrid (s : State) (k : Nat) (g : Block → Block) : (s.modBlk k g).lastGrid = s.lastGrid := rfl
@[simp] theorem State.modBlk_grids (s : State) (k : Nat) (g : Block → Block) : (s.modBlk k g).grids = s.grids := rfl
@[simp] theorem State.modBlk_samples (s : State) (k : Nat) (g : Block → Block) : (s.modBlk k g).samples = s.samples := rfl
@[simp] theorem State.modBlk_pf (s : State) (k : Nat) (g : Block → Block) : (s.modBlk k g).pf = s.pf := rfl
@[simp] theorem State.modBlk_root (s : State) (k : Nat) (g : Block → Block) : (s.modBlk k g).root = s.root := rfl
@[simp] theorem State.modBlk_dieLinks (s : State) (k : Nat) (g : Block → Block) : (s.modBlk k g).dieLinks = s.dieLinks := rfl
@[simp] theorem State.modBlk_ports (s : State) (k : Nat) (g : Block → Block) : (s.modBlk k g).ports = s.ports := rfl
@[simp] theorem State.modBlk_slices (s : State) (k : Nat) (g : Block → Block) : (s.modBlk k g).slices = s.slices := rfl
@[simp] theorem State.modBlk_sliceErrs (s : State) (k : Nat) (g : Block → Block) : (s.modBlk k g).sliceErrs = s.sliceErrs := rfl
@[simp] theorem State.modBlk_wear (s : State) (k : Nat) (g : Block → Block) : (s.modBlk k g).wear = s.wear := rfl
@[simp] theorem State.modBlk_hostLink (s : State) (k : Nat) (g : Block → Block) : (s.modBlk k g).hostLink = s.hostLink := rfl
@[simp] theorem State.modBlk_hostHeld (s : State) (k : Nat) (g : Block → Block) : (s.modBlk k g).hostHeld = s.hostHeld := rfl
@[simp] theorem State.modBlk_hostAsked (s : State) (k : Nat) (g : Block → Block) : (s.modBlk k g).hostAsked = s.hostAsked := rfl
@[simp] theorem State.modBlk_hostData (s : State) (k : Nat) (g : Block → Block) : (s.modBlk k g).hostData = s.hostData := rfl
@[simp] theorem State.modBlk_safeTier (s : State) (k : Nat) (g : Block → Block) : (s.modBlk k g).safeTier = s.safeTier := rfl
@[simp] theorem State.modBlk_images (s : State) (k : Nat) (g : Block → Block) : (s.modBlk k g).images = s.images := rfl
@[simp] theorem State.modBlk_unwritten (s : State) (k : Nat) (g : Block → Block) : (s.modBlk k g).unwritten = s.unwritten := rfl
@[simp] theorem State.modBlk_remapped (s : State) (k : Nat) (g : Block → Block) : (s.modBlk k g).remapped = s.remapped := rfl

/-! ### `State.modGrid` -/

@[simp] theorem State.modGrid_agenda (s : State) (l : Nat) (g : Grid → Grid) : (s.modGrid l g).agenda = s.agenda := rfl
@[simp] theorem State.modGrid_curBlock (s : State) (l : Nat) (g : Grid → Grid) : (s.modGrid l g).curBlock = s.curBlock := rfl
@[simp] theorem State.modGrid_curBand (s : State) (l : Nat) (g : Grid → Grid) : (s.modGrid l g).curBand = s.curBand := rfl
@[simp] theorem State.modGrid_freeCtr (s : State) (l : Nat) (g : Grid → Grid) : (s.modGrid l g).freeCtr = s.freeCtr := rfl
@[simp] theorem State.modGrid_serial (s : State) (l : Nat) (g : Grid → Grid) : (s.modGrid l g).serial = s.serial := rfl
@[simp] theorem State.modGrid_power (s : State) (l : Nat) (g : Grid → Grid) : (s.modGrid l g).power = s.power := rfl
@[simp] theorem State.modGrid_time (s : State) (l : Nat) (g : Grid → Grid) : (s.modGrid l g).time = s.time := rfl
@[simp] theorem State.modGrid_skew (s : State) (l : Nat) (g : Grid → Grid) : (s.modGrid l g).skew = s.skew := rfl
@[simp] theorem State.modGrid_mem (s : State) (l : Nat) (g : Grid → Grid) : (s.modGrid l g).mem = s.mem := rfl
@[simp] theorem State.modGrid_cw (s : State) (l : Nat) (g : Grid → Grid) : (s.modGrid l g).cw = s.cw := rfl
@[simp] theorem State.modGrid_hist (s : State) (l : Nat) (g : Grid → Grid) : (s.modGrid l g).hist = s.hist := rfl
@[simp] theorem State.modGrid_homes (s : State) (l : Nat) (g : Grid → Grid) : (s.modGrid l g).homes = s.homes := rfl
@[simp] theorem State.modGrid_floors (s : State) (l : Nat) (g : Grid → Grid) : (s.modGrid l g).floors = s.floors := rfl
@[simp] theorem State.modGrid_net (s : State) (l : Nat) (g : Grid → Grid) : (s.modGrid l g).net = s.net := rfl
@[simp] theorem State.modGrid_arrived (s : State) (l : Nat) (g : Grid → Grid) : (s.modGrid l g).arrived = s.arrived := rfl
@[simp] theorem State.modGrid_channels (s : State) (l : Nat) (g : Grid → Grid) : (s.modGrid l g).channels = s.channels := rfl
@[simp] theorem State.modGrid_cores (s : State) (l : Nat) (g : Grid → Grid) : (s.modGrid l g).cores = s.cores := rfl
@[simp] theorem State.modGrid_dieTlb (s : State) (l : Nat) (g : Grid → Grid) : (s.modGrid l g).dieTlb = s.dieTlb := rfl
@[simp] theorem State.modGrid_ctxs (s : State) (l : Nat) (g : Grid → Grid) : (s.modGrid l g).ctxs = s.ctxs := rfl
@[simp] theorem State.modGrid_fns (s : State) (l : Nat) (g : Grid → Grid) : (s.modGrid l g).fns = s.fns := rfl
@[simp] theorem State.modGrid_lastLid (s : State) (l : Nat) (g : Grid → Grid) : (s.modGrid l g).lastLid = s.lastLid := rfl
@[simp] theorem State.modGrid_lastGrid (s : State) (l : Nat) (g : Grid → Grid) : (s.modGrid l g).lastGrid = s.lastGrid := rfl
@[simp] theorem State.modGrid_blocks (s : State) (l : Nat) (g : Grid → Grid) : (s.modGrid l g).blocks = s.blocks := rfl
@[simp] theorem State.modGrid_samples (s : State) (l : Nat) (g : Grid → Grid) : (s.modGrid l g).samples = s.samples := rfl
@[simp] theorem State.modGrid_pf (s : State) (l : Nat) (g : Grid → Grid) : (s.modGrid l g).pf = s.pf := rfl
@[simp] theorem State.modGrid_root (s : State) (l : Nat) (g : Grid → Grid) : (s.modGrid l g).root = s.root := rfl
@[simp] theorem State.modGrid_dieLinks (s : State) (l : Nat) (g : Grid → Grid) : (s.modGrid l g).dieLinks = s.dieLinks := rfl
@[simp] theorem State.modGrid_ports (s : State) (l : Nat) (g : Grid → Grid) : (s.modGrid l g).ports = s.ports := rfl
@[simp] theorem State.modGrid_slices (s : State) (l : Nat) (g : Grid → Grid) : (s.modGrid l g).slices = s.slices := rfl
@[simp] theorem State.modGrid_sliceErrs (s : State) (l : Nat) (g : Grid → Grid) : (s.modGrid l g).sliceErrs = s.sliceErrs := rfl
@[simp] theorem State.modGrid_wear (s : State) (l : Nat) (g : Grid → Grid) : (s.modGrid l g).wear = s.wear := rfl
@[simp] theorem State.modGrid_hostLink (s : State) (l : Nat) (g : Grid → Grid) : (s.modGrid l g).hostLink = s.hostLink := rfl
@[simp] theorem State.modGrid_hostHeld (s : State) (l : Nat) (g : Grid → Grid) : (s.modGrid l g).hostHeld = s.hostHeld := rfl
@[simp] theorem State.modGrid_hostAsked (s : State) (l : Nat) (g : Grid → Grid) : (s.modGrid l g).hostAsked = s.hostAsked := rfl
@[simp] theorem State.modGrid_hostData (s : State) (l : Nat) (g : Grid → Grid) : (s.modGrid l g).hostData = s.hostData := rfl
@[simp] theorem State.modGrid_safeTier (s : State) (l : Nat) (g : Grid → Grid) : (s.modGrid l g).safeTier = s.safeTier := rfl
@[simp] theorem State.modGrid_images (s : State) (l : Nat) (g : Grid → Grid) : (s.modGrid l g).images = s.images := rfl
@[simp] theorem State.modGrid_unwritten (s : State) (l : Nat) (g : Grid → Grid) : (s.modGrid l g).unwritten = s.unwritten := rfl
@[simp] theorem State.modGrid_remapped (s : State) (l : Nat) (g : Grid → Grid) : (s.modGrid l g).remapped = s.remapped := rfl

/-! ### `State.setHome` -/

@[simp] theorem State.setHome_agenda (s : State) (l : Nat) (h : HomeLine) : (s.setHome l h).agenda = s.agenda := rfl
@[simp] theorem State.setHome_curBlock (s : State) (l : Nat) (h : HomeLine) : (s.setHome l h).curBlock = s.curBlock := rfl
@[simp] theorem State.setHome_curBand (s : State) (l : Nat) (h : HomeLine) : (s.setHome l h).curBand = s.curBand := rfl
@[simp] theorem State.setHome_freeCtr (s : State) (l : Nat) (h : HomeLine) : (s.setHome l h).freeCtr = s.freeCtr := rfl
@[simp] theorem State.setHome_serial (s : State) (l : Nat) (h : HomeLine) : (s.setHome l h).serial = s.serial := rfl
@[simp] theorem State.setHome_power (s : State) (l : Nat) (h : HomeLine) : (s.setHome l h).power = s.power := rfl
@[simp] theorem State.setHome_time (s : State) (l : Nat) (h : HomeLine) : (s.setHome l h).time = s.time := rfl
@[simp] theorem State.setHome_skew (s : State) (l : Nat) (h : HomeLine) : (s.setHome l h).skew = s.skew := rfl
@[simp] theorem State.setHome_mem (s : State) (l : Nat) (h : HomeLine) : (s.setHome l h).mem = s.mem := rfl
@[simp] theorem State.setHome_cw (s : State) (l : Nat) (h : HomeLine) : (s.setHome l h).cw = s.cw := rfl
@[simp] theorem State.setHome_hist (s : State) (l : Nat) (h : HomeLine) : (s.setHome l h).hist = s.hist := rfl
@[simp] theorem State.setHome_floors (s : State) (l : Nat) (h : HomeLine) : (s.setHome l h).floors = s.floors := rfl
@[simp] theorem State.setHome_net (s : State) (l : Nat) (h : HomeLine) : (s.setHome l h).net = s.net := rfl
@[simp] theorem State.setHome_arrived (s : State) (l : Nat) (h : HomeLine) : (s.setHome l h).arrived = s.arrived := rfl
@[simp] theorem State.setHome_channels (s : State) (l : Nat) (h : HomeLine) : (s.setHome l h).channels = s.channels := rfl
@[simp] theorem State.setHome_cores (s : State) (l : Nat) (h : HomeLine) : (s.setHome l h).cores = s.cores := rfl
@[simp] theorem State.setHome_dieTlb (s : State) (l : Nat) (h : HomeLine) : (s.setHome l h).dieTlb = s.dieTlb := rfl
@[simp] theorem State.setHome_ctxs (s : State) (l : Nat) (h : HomeLine) : (s.setHome l h).ctxs = s.ctxs := rfl
@[simp] theorem State.setHome_fns (s : State) (l : Nat) (h : HomeLine) : (s.setHome l h).fns = s.fns := rfl
@[simp] theorem State.setHome_lastLid (s : State) (l : Nat) (h : HomeLine) : (s.setHome l h).lastLid = s.lastLid := rfl
@[simp] theorem State.setHome_lastGrid (s : State) (l : Nat) (h : HomeLine) : (s.setHome l h).lastGrid = s.lastGrid := rfl
@[simp] theorem State.setHome_grids (s : State) (l : Nat) (h : HomeLine) : (s.setHome l h).grids = s.grids := rfl
@[simp] theorem State.setHome_blocks (s : State) (l : Nat) (h : HomeLine) : (s.setHome l h).blocks = s.blocks := rfl
@[simp] theorem State.setHome_samples (s : State) (l : Nat) (h : HomeLine) : (s.setHome l h).samples = s.samples := rfl
@[simp] theorem State.setHome_pf (s : State) (l : Nat) (h : HomeLine) : (s.setHome l h).pf = s.pf := rfl
@[simp] theorem State.setHome_root (s : State) (l : Nat) (h : HomeLine) : (s.setHome l h).root = s.root := rfl
@[simp] theorem State.setHome_dieLinks (s : State) (l : Nat) (h : HomeLine) : (s.setHome l h).dieLinks = s.dieLinks := rfl
@[simp] theorem State.setHome_ports (s : State) (l : Nat) (h : HomeLine) : (s.setHome l h).ports = s.ports := rfl
@[simp] theorem State.setHome_slices (s : State) (l : Nat) (h : HomeLine) : (s.setHome l h).slices = s.slices := rfl
@[simp] theorem State.setHome_sliceErrs (s : State) (l : Nat) (h : HomeLine) : (s.setHome l h).sliceErrs = s.sliceErrs := rfl
@[simp] theorem State.setHome_wear (s : State) (l : Nat) (h : HomeLine) : (s.setHome l h).wear = s.wear := rfl
@[simp] theorem State.setHome_hostLink (s : State) (l : Nat) (h : HomeLine) : (s.setHome l h).hostLink = s.hostLink := rfl
@[simp] theorem State.setHome_hostHeld (s : State) (l : Nat) (h : HomeLine) : (s.setHome l h).hostHeld = s.hostHeld := rfl
@[simp] theorem State.setHome_hostAsked (s : State) (l : Nat) (h : HomeLine) : (s.setHome l h).hostAsked = s.hostAsked := rfl
@[simp] theorem State.setHome_hostData (s : State) (l : Nat) (h : HomeLine) : (s.setHome l h).hostData = s.hostData := rfl
@[simp] theorem State.setHome_safeTier (s : State) (l : Nat) (h : HomeLine) : (s.setHome l h).safeTier = s.safeTier := rfl
@[simp] theorem State.setHome_images (s : State) (l : Nat) (h : HomeLine) : (s.setHome l h).images = s.images := rfl
@[simp] theorem State.setHome_unwritten (s : State) (l : Nat) (h : HomeLine) : (s.setHome l h).unwritten = s.unwritten := rfl
@[simp] theorem State.setHome_remapped (s : State) (l : Nat) (h : HomeLine) : (s.setHome l h).remapped = s.remapped := rfl

/-! ### `State.modBand` -/

@[simp] theorem State.modBand_agenda (s : State) (k n : Nat) (f : Band → Band) : (s.modBand k n f).agenda = s.agenda := rfl
@[simp] theorem State.modBand_curBlock (s : State) (k n : Nat) (f : Band → Band) : (s.modBand k n f).curBlock = s.curBlock := rfl
@[simp] theorem State.modBand_curBand (s : State) (k n : Nat) (f : Band → Band) : (s.modBand k n f).curBand = s.curBand := rfl
@[simp] theorem State.modBand_freeCtr (s : State) (k n : Nat) (f : Band → Band) : (s.modBand k n f).freeCtr = s.freeCtr := rfl
@[simp] theorem State.modBand_serial (s : State) (k n : Nat) (f : Band → Band) : (s.modBand k n f).serial = s.serial := rfl
@[simp] theorem State.modBand_power (s : State) (k n : Nat) (f : Band → Band) : (s.modBand k n f).power = s.power := rfl
@[simp] theorem State.modBand_time (s : State) (k n : Nat) (f : Band → Band) : (s.modBand k n f).time = s.time := rfl
@[simp] theorem State.modBand_skew (s : State) (k n : Nat) (f : Band → Band) : (s.modBand k n f).skew = s.skew := rfl
@[simp] theorem State.modBand_mem (s : State) (k n : Nat) (f : Band → Band) : (s.modBand k n f).mem = s.mem := rfl
@[simp] theorem State.modBand_cw (s : State) (k n : Nat) (f : Band → Band) : (s.modBand k n f).cw = s.cw := rfl
@[simp] theorem State.modBand_hist (s : State) (k n : Nat) (f : Band → Band) : (s.modBand k n f).hist = s.hist := rfl
@[simp] theorem State.modBand_homes (s : State) (k n : Nat) (f : Band → Band) : (s.modBand k n f).homes = s.homes := rfl
@[simp] theorem State.modBand_floors (s : State) (k n : Nat) (f : Band → Band) : (s.modBand k n f).floors = s.floors := rfl
@[simp] theorem State.modBand_net (s : State) (k n : Nat) (f : Band → Band) : (s.modBand k n f).net = s.net := rfl
@[simp] theorem State.modBand_arrived (s : State) (k n : Nat) (f : Band → Band) : (s.modBand k n f).arrived = s.arrived := rfl
@[simp] theorem State.modBand_channels (s : State) (k n : Nat) (f : Band → Band) : (s.modBand k n f).channels = s.channels := rfl
@[simp] theorem State.modBand_cores (s : State) (k n : Nat) (f : Band → Band) : (s.modBand k n f).cores = s.cores := rfl
@[simp] theorem State.modBand_dieTlb (s : State) (k n : Nat) (f : Band → Band) : (s.modBand k n f).dieTlb = s.dieTlb := rfl
@[simp] theorem State.modBand_ctxs (s : State) (k n : Nat) (f : Band → Band) : (s.modBand k n f).ctxs = s.ctxs := rfl
@[simp] theorem State.modBand_fns (s : State) (k n : Nat) (f : Band → Band) : (s.modBand k n f).fns = s.fns := rfl
@[simp] theorem State.modBand_lastLid (s : State) (k n : Nat) (f : Band → Band) : (s.modBand k n f).lastLid = s.lastLid := rfl
@[simp] theorem State.modBand_lastGrid (s : State) (k n : Nat) (f : Band → Band) : (s.modBand k n f).lastGrid = s.lastGrid := rfl
@[simp] theorem State.modBand_grids (s : State) (k n : Nat) (f : Band → Band) : (s.modBand k n f).grids = s.grids := rfl
@[simp] theorem State.modBand_samples (s : State) (k n : Nat) (f : Band → Band) : (s.modBand k n f).samples = s.samples := rfl
@[simp] theorem State.modBand_pf (s : State) (k n : Nat) (f : Band → Band) : (s.modBand k n f).pf = s.pf := rfl
@[simp] theorem State.modBand_root (s : State) (k n : Nat) (f : Band → Band) : (s.modBand k n f).root = s.root := rfl
@[simp] theorem State.modBand_dieLinks (s : State) (k n : Nat) (f : Band → Band) : (s.modBand k n f).dieLinks = s.dieLinks := rfl
@[simp] theorem State.modBand_ports (s : State) (k n : Nat) (f : Band → Band) : (s.modBand k n f).ports = s.ports := rfl
@[simp] theorem State.modBand_slices (s : State) (k n : Nat) (f : Band → Band) : (s.modBand k n f).slices = s.slices := rfl
@[simp] theorem State.modBand_sliceErrs (s : State) (k n : Nat) (f : Band → Band) : (s.modBand k n f).sliceErrs = s.sliceErrs := rfl
@[simp] theorem State.modBand_wear (s : State) (k n : Nat) (f : Band → Band) : (s.modBand k n f).wear = s.wear := rfl
@[simp] theorem State.modBand_hostLink (s : State) (k n : Nat) (f : Band → Band) : (s.modBand k n f).hostLink = s.hostLink := rfl
@[simp] theorem State.modBand_hostHeld (s : State) (k n : Nat) (f : Band → Band) : (s.modBand k n f).hostHeld = s.hostHeld := rfl
@[simp] theorem State.modBand_hostAsked (s : State) (k n : Nat) (f : Band → Band) : (s.modBand k n f).hostAsked = s.hostAsked := rfl
@[simp] theorem State.modBand_hostData (s : State) (k n : Nat) (f : Band → Band) : (s.modBand k n f).hostData = s.hostData := rfl
@[simp] theorem State.modBand_safeTier (s : State) (k n : Nat) (f : Band → Band) : (s.modBand k n f).safeTier = s.safeTier := rfl
@[simp] theorem State.modBand_images (s : State) (k n : Nat) (f : Band → Band) : (s.modBand k n f).images = s.images := rfl
@[simp] theorem State.modBand_unwritten (s : State) (k n : Nat) (f : Band → Band) : (s.modBand k n f).unwritten = s.unwritten := rfl
@[simp] theorem State.modBand_remapped (s : State) (k n : Nat) (f : Band → Band) : (s.modBand k n f).remapped = s.remapped := rfl

/-! ### `Block.setBand`, `Block.modBand` -/

@[simp] theorem Block.setBand_lid (b : Block) (n : Nat) (x : Band) : (b.setBand n x).lid = b.lid := rfl
@[simp] theorem Block.setBand_bx (b : Block) (n : Nat) (x : Band) : (b.setBand n x).bx = b.bx := rfl
@[simp] theorem Block.setBand_by' (b : Block) (n : Nat) (x : Band) : (b.setBand n x).by' = b.by' := rfl
@[simp] theorem Block.setBand_bz (b : Block) (n : Nat) (x : Band) : (b.setBand n x).bz = b.bz := rfl
@[simp] theorem Block.setBand_idx (b : Block) (n : Nat) (x : Band) : (b.setBand n x).idx = b.idx := rfl
@[simp] theorem Block.setBand_asid (b : Block) (n : Nat) (x : Band) : (b.setBand n x).asid = b.asid := rfl
@[simp] theorem Block.setBand_fn (b : Block) (n : Nat) (x : Band) : (b.setBand n x).fn = b.fn := rfl
@[simp] theorem Block.setBand_run (b : Block) (n : Nat) (x : Band) : (b.setBand n x).run = b.run := rfl
@[simp] theorem Block.setBand_sid (b : Block) (n : Nat) (x : Band) : (b.setBand n x).sid = b.sid := rfl
@[simp] theorem Block.setBand_st (b : Block) (n : Nat) (x : Band) : (b.setBand n x).st = b.st := rfl
@[simp] theorem Block.setBand_ldie (b : Block) (n : Nat) (x : Band) : (b.setBand n x).ldie = b.ldie := rfl
@[simp] theorem Block.setBand_core (b : Block) (n : Nat) (x : Band) : (b.setBand n x).core = b.core := rfl
@[simp] theorem Block.setBand_slot (b : Block) (n : Nat) (x : Band) : (b.setBand n x).slot = b.slot := rfl
@[simp] theorem Block.setBand_placed (b : Block) (n : Nat) (x : Band) : (b.setBand n x).placed = b.placed := rfl
@[simp] theorem Block.setBand_hbase (b : Block) (n : Nat) (x : Band) : (b.setBand n x).hbase = b.hbase := rfl
@[simp] theorem Block.setBand_bandw (b : Block) (n : Nat) (x : Band) : (b.setBand n x).bandw = b.bandw := rfl
@[simp] theorem Block.setBand_vregs (b : Block) (n : Nat) (x : Band) : (b.setBand n x).vregs = b.vregs := rfl
@[simp] theorem Block.setBand_uregs (b : Block) (n : Nat) (x : Band) : (b.setBand n x).uregs = b.uregs := rfl
@[simp] theorem Block.setBand_streams (b : Block) (n : Nat) (x : Band) : (b.setBand n x).streams = b.streams := rfl
@[simp] theorem Block.setBand_accN (b : Block) (n : Nat) (x : Band) : (b.setBand n x).accN = b.accN := rfl
@[simp] theorem Block.setBand_ringN (b : Block) (n : Nat) (x : Band) : (b.setBand n x).ringN = b.ringN := rfl
@[simp] theorem Block.setBand_copyq (b : Block) (n : Nat) (x : Band) : (b.setBand n x).copyq = b.copyq := rfl
@[simp] theorem Block.setBand_window (b : Block) (n : Nat) (x : Band) : (b.setBand n x).window = b.window := rfl
@[simp] theorem Block.setBand_scratch (b : Block) (n : Nat) (x : Band) : (b.setBand n x).scratch = b.scratch := rfl
@[simp] theorem Block.setBand_scratchW (b : Block) (n : Nat) (x : Band) : (b.setBand n x).scratchW = b.scratchW := rfl
@[simp] theorem Block.setBand_tiles (b : Block) (n : Nat) (x : Band) : (b.setBand n x).tiles = b.tiles := rfl
@[simp] theorem Block.setBand_accs (b : Block) (n : Nat) (x : Band) : (b.setBand n x).accs = b.accs := rfl
@[simp] theorem Block.setBand_rings (b : Block) (n : Nat) (x : Band) : (b.setBand n x).rings = b.rings := rfl
@[simp] theorem Block.setBand_bars (b : Block) (n : Nat) (x : Band) : (b.setBand n x).bars = b.bars := rfl
@[simp] theorem Block.setBand_gang (b : Block) (n : Nat) (x : Band) : (b.setBand n x).gang = b.gang := rfl
@[simp] theorem Block.setBand_latch (b : Block) (n : Nat) (x : Band) : (b.setBand n x).latch = b.latch := rfl
@[simp] theorem Block.setBand_cmds (b : Block) (n : Nat) (x : Band) : (b.setBand n x).cmds = b.cmds := rfl
@[simp] theorem Block.setBand_lastCmd (b : Block) (n : Nat) (x : Band) : (b.setBand n x).lastCmd = b.lastCmd := rfl
@[simp] theorem Block.setBand_copies (b : Block) (n : Nat) (x : Band) : (b.setBand n x).copies = b.copies := rfl
@[simp] theorem Block.setBand_cols (b : Block) (n : Nat) (x : Band) : (b.setBand n x).cols = b.cols := rfl
@[simp] theorem Block.setBand_migcnt (b : Block) (n : Nat) (x : Band) : (b.setBand n x).migcnt = b.migcnt := rfl
@[simp] theorem Block.setBand_mover (b : Block) (n : Nat) (x : Band) : (b.setBand n x).mover = b.mover := rfl
@[simp] theorem Block.setBand_overlay (b : Block) (n : Nat) (x : Band) : (b.setBand n x).overlay = b.overlay := rfl
@[simp] theorem Block.setBand_sig (b : Block) (n : Nat) (x : Band) : (b.setBand n x).sig = b.sig := rfl
@[simp] theorem Block.setBand_cores (b : Block) (n : Nat) (x : Band) : (b.setBand n x).cores = b.cores := rfl
@[simp] theorem Block.setBand_saveAt (b : Block) (n : Nat) (x : Band) : (b.setBand n x).saveAt = b.saveAt := rfl

@[simp] theorem Block.modBand_lid (b : Block) (n : Nat) (f : Band → Band) : (b.modBand n f).lid = b.lid := rfl
@[simp] theorem Block.modBand_bx (b : Block) (n : Nat) (f : Band → Band) : (b.modBand n f).bx = b.bx := rfl
@[simp] theorem Block.modBand_by' (b : Block) (n : Nat) (f : Band → Band) : (b.modBand n f).by' = b.by' := rfl
@[simp] theorem Block.modBand_bz (b : Block) (n : Nat) (f : Band → Band) : (b.modBand n f).bz = b.bz := rfl
@[simp] theorem Block.modBand_idx (b : Block) (n : Nat) (f : Band → Band) : (b.modBand n f).idx = b.idx := rfl
@[simp] theorem Block.modBand_asid (b : Block) (n : Nat) (f : Band → Band) : (b.modBand n f).asid = b.asid := rfl
@[simp] theorem Block.modBand_fn (b : Block) (n : Nat) (f : Band → Band) : (b.modBand n f).fn = b.fn := rfl
@[simp] theorem Block.modBand_run (b : Block) (n : Nat) (f : Band → Band) : (b.modBand n f).run = b.run := rfl
@[simp] theorem Block.modBand_sid (b : Block) (n : Nat) (f : Band → Band) : (b.modBand n f).sid = b.sid := rfl
@[simp] theorem Block.modBand_st (b : Block) (n : Nat) (f : Band → Band) : (b.modBand n f).st = b.st := rfl
@[simp] theorem Block.modBand_ldie (b : Block) (n : Nat) (f : Band → Band) : (b.modBand n f).ldie = b.ldie := rfl
@[simp] theorem Block.modBand_core (b : Block) (n : Nat) (f : Band → Band) : (b.modBand n f).core = b.core := rfl
@[simp] theorem Block.modBand_slot (b : Block) (n : Nat) (f : Band → Band) : (b.modBand n f).slot = b.slot := rfl
@[simp] theorem Block.modBand_placed (b : Block) (n : Nat) (f : Band → Band) : (b.modBand n f).placed = b.placed := rfl
@[simp] theorem Block.modBand_hbase (b : Block) (n : Nat) (f : Band → Band) : (b.modBand n f).hbase = b.hbase := rfl
@[simp] theorem Block.modBand_bandw (b : Block) (n : Nat) (f : Band → Band) : (b.modBand n f).bandw = b.bandw := rfl
@[simp] theorem Block.modBand_vregs (b : Block) (n : Nat) (f : Band → Band) : (b.modBand n f).vregs = b.vregs := rfl
@[simp] theorem Block.modBand_uregs (b : Block) (n : Nat) (f : Band → Band) : (b.modBand n f).uregs = b.uregs := rfl
@[simp] theorem Block.modBand_streams (b : Block) (n : Nat) (f : Band → Band) : (b.modBand n f).streams = b.streams := rfl
@[simp] theorem Block.modBand_accN (b : Block) (n : Nat) (f : Band → Band) : (b.modBand n f).accN = b.accN := rfl
@[simp] theorem Block.modBand_ringN (b : Block) (n : Nat) (f : Band → Band) : (b.modBand n f).ringN = b.ringN := rfl
@[simp] theorem Block.modBand_copyq (b : Block) (n : Nat) (f : Band → Band) : (b.modBand n f).copyq = b.copyq := rfl
@[simp] theorem Block.modBand_window (b : Block) (n : Nat) (f : Band → Band) : (b.modBand n f).window = b.window := rfl
@[simp] theorem Block.modBand_scratch (b : Block) (n : Nat) (f : Band → Band) : (b.modBand n f).scratch = b.scratch := rfl
@[simp] theorem Block.modBand_scratchW (b : Block) (n : Nat) (f : Band → Band) : (b.modBand n f).scratchW = b.scratchW := rfl
@[simp] theorem Block.modBand_tiles (b : Block) (n : Nat) (f : Band → Band) : (b.modBand n f).tiles = b.tiles := rfl
@[simp] theorem Block.modBand_accs (b : Block) (n : Nat) (f : Band → Band) : (b.modBand n f).accs = b.accs := rfl
@[simp] theorem Block.modBand_rings (b : Block) (n : Nat) (f : Band → Band) : (b.modBand n f).rings = b.rings := rfl
@[simp] theorem Block.modBand_bars (b : Block) (n : Nat) (f : Band → Band) : (b.modBand n f).bars = b.bars := rfl
@[simp] theorem Block.modBand_gang (b : Block) (n : Nat) (f : Band → Band) : (b.modBand n f).gang = b.gang := rfl
@[simp] theorem Block.modBand_latch (b : Block) (n : Nat) (f : Band → Band) : (b.modBand n f).latch = b.latch := rfl
@[simp] theorem Block.modBand_cmds (b : Block) (n : Nat) (f : Band → Band) : (b.modBand n f).cmds = b.cmds := rfl
@[simp] theorem Block.modBand_lastCmd (b : Block) (n : Nat) (f : Band → Band) : (b.modBand n f).lastCmd = b.lastCmd := rfl
@[simp] theorem Block.modBand_copies (b : Block) (n : Nat) (f : Band → Band) : (b.modBand n f).copies = b.copies := rfl
@[simp] theorem Block.modBand_cols (b : Block) (n : Nat) (f : Band → Band) : (b.modBand n f).cols = b.cols := rfl
@[simp] theorem Block.modBand_migcnt (b : Block) (n : Nat) (f : Band → Band) : (b.modBand n f).migcnt = b.migcnt := rfl
@[simp] theorem Block.modBand_mover (b : Block) (n : Nat) (f : Band → Band) : (b.modBand n f).mover = b.mover := rfl
@[simp] theorem Block.modBand_overlay (b : Block) (n : Nat) (f : Band → Band) : (b.modBand n f).overlay = b.overlay := rfl
@[simp] theorem Block.modBand_sig (b : Block) (n : Nat) (f : Band → Band) : (b.modBand n f).sig = b.sig := rfl
@[simp] theorem Block.modBand_cores (b : Block) (n : Nat) (f : Band → Band) : (b.modBand n f).cores = b.cores := rfl
@[simp] theorem Block.modBand_saveAt (b : Block) (n : Nat) (f : Band → Band) : (b.modBand n f).saveAt = b.saveAt := rfl

/-! ### `Band.modLanes`, `Band.raise` -/

@[simp] theorem Band.modLanes_uregs (x : Band) (ls : List Nat) (f : Nat → Lane → Lane) : (x.modLanes ls f).uregs = x.uregs := rfl
@[simp] theorem Band.modLanes_fstat (x : Band) (ls : List Nat) (f : Nat → Lane → Lane) : (x.modLanes ls f).fstat = x.fstat := rfl
@[simp] theorem Band.modLanes_bctl (x : Band) (ls : List Nat) (f : Nat → Lane → Lane) : (x.modLanes ls f).bctl = x.bctl := rfl
@[simp] theorem Band.modLanes_ilcnt (x : Band) (ls : List Nat) (f : Nat → Lane → Lane) : (x.modLanes ls f).ilcnt = x.ilcnt := rfl
@[simp] theorem Band.modLanes_tstat (x : Band) (ls : List Nat) (f : Nat → Lane → Lane) : (x.modLanes ls f).tstat = x.tstat := rfl
@[simp] theorem Band.modLanes_tinfo (x : Band) (ls : List Nat) (f : Nat → Lane → Lane) : (x.modLanes ls f).tinfo = x.tinfo := rfl
@[simp] theorem Band.modLanes_tepc (x : Band) (ls : List Nat) (f : Nat → Lane → Lane) : (x.modLanes ls f).tepc = x.tepc := rfl
@[simp] theorem Band.modLanes_taddr (x : Band) (ls : List Nat) (f : Nat → Lane → Lane) : (x.modLanes ls f).taddr = x.taddr := rfl
@[simp] theorem Band.modLanes_tmask (x : Band) (ls : List Nat) (f : Nat → Lane → Lane) : (x.modLanes ls f).tmask = x.tmask := rfl
@[simp] theorem Band.modLanes_tscr (x : Band) (ls : List Nat) (f : Nat → Lane → Lane) : (x.modLanes ls f).tscr = x.tscr := rfl
@[simp] theorem Band.modLanes_dbgctl (x : Band) (ls : List Nat) (f : Nat → Lane → Lane) : (x.modLanes ls f).dbgctl = x.dbgctl := rfl
@[simp] theorem Band.modLanes_pctl (x : Band) (ls : List Nat) (f : Nat → Lane → Lane) : (x.modLanes ls f).pctl = x.pctl := rfl
@[simp] theorem Band.modLanes_pcnt (x : Band) (ls : List Nat) (f : Nat → Lane → Lane) : (x.modLanes ls f).pcnt = x.pcnt := rfl
@[simp] theorem Band.modLanes_enrolled (x : Band) (ls : List Nat) (f : Nat → Lane → Lane) : (x.modLanes ls f).enrolled = x.enrolled := rfl
@[simp] theorem Band.modLanes_tokens (x : Band) (ls : List Nat) (f : Nat → Lane → Lane) : (x.modLanes ls f).tokens = x.tokens := rfl
@[simp] theorem Band.modLanes_latch (x : Band) (ls : List Nat) (f : Nat → Lane → Lane) : (x.modLanes ls f).latch = x.latch := rfl
@[simp] theorem Band.modLanes_sched (x : Band) (ls : List Nat) (f : Nat → Lane → Lane) : (x.modLanes ls f).sched = x.sched := rfl
@[simp] theorem Band.modLanes_stallSkip (x : Band) (ls : List Nat) (f : Nat → Lane → Lane) : (x.modLanes ls f).stallSkip = x.stallSkip := rfl
@[simp] theorem Band.modLanes_ilk (x : Band) (ls : List Nat) (f : Nat → Lane → Lane) : (x.modLanes ls f).ilk = x.ilk := rfl
@[simp] theorem Band.modLanes_readyAge (x : Band) (ls : List Nat) (f : Nat → Lane → Lane) : (x.modLanes ls f).readyAge = x.readyAge := rfl
@[simp] theorem Band.modLanes_boosted (x : Band) (ls : List Nat) (f : Nat → Lane → Lane) : (x.modLanes ls f).boosted = x.boosted := rfl
@[simp] theorem Band.modLanes_cpyOut (x : Band) (ls : List Nat) (f : Nat → Lane → Lane) : (x.modLanes ls f).cpyOut = x.cpyOut := rfl
@[simp] theorem Band.modLanes_mmaOut (x : Band) (ls : List Nat) (f : Nat → Lane → Lane) : (x.modLanes ls f).mmaOut = x.mmaOut := rfl
@[simp] theorem Band.modLanes_rmtOut (x : Band) (ls : List Nat) (f : Nat → Lane → Lane) : (x.modLanes ls f).rmtOut = x.rmtOut := rfl
@[simp] theorem Band.modLanes_horizon (x : Band) (ls : List Nat) (f : Nat → Lane → Lane) : (x.modLanes ls f).horizon = x.horizon := rfl
@[simp] theorem Band.modLanes_storesOut (x : Band) (ls : List Nat) (f : Nat → Lane → Lane) : (x.modLanes ls f).storesOut = x.storesOut := rfl
@[simp] theorem Band.modLanes_pend (x : Band) (ls : List Nat) (f : Nat → Lane → Lane) : (x.modLanes ls f).pend = x.pend := rfl
@[simp] theorem Band.modLanes_regCopies (x : Band) (ls : List Nat) (f : Nat → Lane → Lane) : (x.modLanes ls f).regCopies = x.regCopies := rfl
@[simp] theorem Band.modLanes_accOut (x : Band) (ls : List Nat) (f : Nat → Lane → Lane) : (x.modLanes ls f).accOut = x.accOut := rfl
@[simp] theorem Band.modLanes_pushesOut (x : Band) (ls : List Nat) (f : Nat → Lane → Lane) : (x.modLanes ls f).pushesOut = x.pushesOut := rfl
@[simp] theorem Band.modLanes_waitW (x : Band) (ls : List Nat) (f : Nat → Lane → Lane) : (x.modLanes ls f).waitW = x.waitW := rfl
@[simp] theorem Band.modLanes_hold (x : Band) (ls : List Nat) (f : Nat → Lane → Lane) : (x.modLanes ls f).hold = x.hold := rfl
@[simp] theorem Band.modLanes_watchCap (x : Band) (ls : List Nat) (f : Nat → Lane → Lane) : (x.modLanes ls f).watchCap = x.watchCap := rfl
@[simp] theorem Band.modLanes_watch (x : Band) (ls : List Nat) (f : Nat → Lane → Lane) : (x.modLanes ls f).watch = x.watch := rfl
@[simp] theorem Band.modLanes_ports (x : Band) (ls : List Nat) (f : Nat → Lane → Lane) : (x.modLanes ls f).ports = x.ports := rfl
@[simp] theorem Band.modLanes_asyncCopy (x : Band) (ls : List Nat) (f : Nat → Lane → Lane) : (x.modLanes ls f).asyncCopy = x.asyncCopy := rfl
@[simp] theorem Band.modLanes_asyncCmd (x : Band) (ls : List Nat) (f : Nat → Lane → Lane) : (x.modLanes ls f).asyncCmd = x.asyncCmd := rfl
@[simp] theorem Band.modLanes_asyncDl (x : Band) (ls : List Nat) (f : Nat → Lane → Lane) : (x.modLanes ls f).asyncDl = x.asyncDl := rfl
@[simp] theorem Band.modLanes_lastCtime (x : Band) (ls : List Nat) (f : Nat → Lane → Lane) : (x.modLanes ls f).lastCtime = x.lastCtime := rfl
@[simp] theorem Band.modLanes_sigma (x : Band) (ls : List Nat) (f : Nat → Lane → Lane) : (x.modLanes ls f).sigma = x.sigma := rfl
@[simp] theorem Band.modLanes_issues (x : Band) (ls : List Nat) (f : Nat → Lane → Lane) : (x.modLanes ls f).issues = x.issues := rfl
@[simp] theorem Band.modLanes_wseq (x : Band) (ls : List Nat) (f : Nat → Lane → Lane) : (x.modLanes ls f).wseq = x.wseq := rfl
@[simp] theorem Band.modLanes_logPos (x : Band) (ls : List Nat) (f : Nat → Lane → Lane) : (x.modLanes ls f).logPos = x.logPos := rfl
@[simp] theorem Band.modLanes_mmaSeq (x : Band) (ls : List Nat) (f : Nat → Lane → Lane) : (x.modLanes ls f).mmaSeq = x.mmaSeq := rfl
@[simp] theorem Band.modLanes_colSeq (x : Band) (ls : List Nat) (f : Nat → Lane → Lane) : (x.modLanes ls f).colSeq = x.colSeq := rfl
@[simp] theorem Band.modLanes_werr (x : Band) (ls : List Nat) (f : Nat → Lane → Lane) : (x.modLanes ls f).werr = x.werr := rfl
@[simp] theorem Band.modLanes_halted (x : Band) (ls : List Nat) (f : Nat → Lane → Lane) : (x.modLanes ls f).halted = x.halted := rfl
@[simp] theorem Band.modLanes_stepping (x : Band) (ls : List Nat) (f : Nat → Lane → Lane) : (x.modLanes ls f).stepping = x.stepping := rfl
@[simp] theorem Band.modLanes_resumeTrap (x : Band) (ls : List Nat) (f : Nat → Lane → Lane) : (x.modLanes ls f).resumeTrap = x.resumeTrap := rfl
@[simp] theorem Band.raise_lanes (x : Band) (c : Conds) : (x.raise c).lanes = x.lanes := rfl
@[simp] theorem Band.raise_uregs (x : Band) (c : Conds) : (x.raise c).uregs = x.uregs := rfl
@[simp] theorem Band.raise_bctl (x : Band) (c : Conds) : (x.raise c).bctl = x.bctl := rfl
@[simp] theorem Band.raise_ilcnt (x : Band) (c : Conds) : (x.raise c).ilcnt = x.ilcnt := rfl
@[simp] theorem Band.raise_tstat (x : Band) (c : Conds) : (x.raise c).tstat = x.tstat := rfl
@[simp] theorem Band.raise_tinfo (x : Band) (c : Conds) : (x.raise c).tinfo = x.tinfo := rfl
@[simp] theorem Band.raise_tepc (x : Band) (c : Conds) : (x.raise c).tepc = x.tepc := rfl
@[simp] theorem Band.raise_taddr (x : Band) (c : Conds) : (x.raise c).taddr = x.taddr := rfl
@[simp] theorem Band.raise_tmask (x : Band) (c : Conds) : (x.raise c).tmask = x.tmask := rfl
@[simp] theorem Band.raise_tscr (x : Band) (c : Conds) : (x.raise c).tscr = x.tscr := rfl
@[simp] theorem Band.raise_dbgctl (x : Band) (c : Conds) : (x.raise c).dbgctl = x.dbgctl := rfl
@[simp] theorem Band.raise_pctl (x : Band) (c : Conds) : (x.raise c).pctl = x.pctl := rfl
@[simp] theorem Band.raise_pcnt (x : Band) (c : Conds) : (x.raise c).pcnt = x.pcnt := rfl
@[simp] theorem Band.raise_enrolled (x : Band) (c : Conds) : (x.raise c).enrolled = x.enrolled := rfl
@[simp] theorem Band.raise_tokens (x : Band) (c : Conds) : (x.raise c).tokens = x.tokens := rfl
@[simp] theorem Band.raise_latch (x : Band) (c : Conds) : (x.raise c).latch = x.latch := rfl
@[simp] theorem Band.raise_sched (x : Band) (c : Conds) : (x.raise c).sched = x.sched := rfl
@[simp] theorem Band.raise_stallSkip (x : Band) (c : Conds) : (x.raise c).stallSkip = x.stallSkip := rfl
@[simp] theorem Band.raise_ilk (x : Band) (c : Conds) : (x.raise c).ilk = x.ilk := rfl
@[simp] theorem Band.raise_readyAge (x : Band) (c : Conds) : (x.raise c).readyAge = x.readyAge := rfl
@[simp] theorem Band.raise_boosted (x : Band) (c : Conds) : (x.raise c).boosted = x.boosted := rfl
@[simp] theorem Band.raise_cpyOut (x : Band) (c : Conds) : (x.raise c).cpyOut = x.cpyOut := rfl
@[simp] theorem Band.raise_mmaOut (x : Band) (c : Conds) : (x.raise c).mmaOut = x.mmaOut := rfl
@[simp] theorem Band.raise_rmtOut (x : Band) (c : Conds) : (x.raise c).rmtOut = x.rmtOut := rfl
@[simp] theorem Band.raise_horizon (x : Band) (c : Conds) : (x.raise c).horizon = x.horizon := rfl
@[simp] theorem Band.raise_storesOut (x : Band) (c : Conds) : (x.raise c).storesOut = x.storesOut := rfl
@[simp] theorem Band.raise_pend (x : Band) (c : Conds) : (x.raise c).pend = x.pend := rfl
@[simp] theorem Band.raise_regCopies (x : Band) (c : Conds) : (x.raise c).regCopies = x.regCopies := rfl
@[simp] theorem Band.raise_accOut (x : Band) (c : Conds) : (x.raise c).accOut = x.accOut := rfl
@[simp] theorem Band.raise_pushesOut (x : Band) (c : Conds) : (x.raise c).pushesOut = x.pushesOut := rfl
@[simp] theorem Band.raise_waitW (x : Band) (c : Conds) : (x.raise c).waitW = x.waitW := rfl
@[simp] theorem Band.raise_hold (x : Band) (c : Conds) : (x.raise c).hold = x.hold := rfl
@[simp] theorem Band.raise_watchCap (x : Band) (c : Conds) : (x.raise c).watchCap = x.watchCap := rfl
@[simp] theorem Band.raise_watch (x : Band) (c : Conds) : (x.raise c).watch = x.watch := rfl
@[simp] theorem Band.raise_ports (x : Band) (c : Conds) : (x.raise c).ports = x.ports := rfl
@[simp] theorem Band.raise_asyncCopy (x : Band) (c : Conds) : (x.raise c).asyncCopy = x.asyncCopy := rfl
@[simp] theorem Band.raise_asyncCmd (x : Band) (c : Conds) : (x.raise c).asyncCmd = x.asyncCmd := rfl
@[simp] theorem Band.raise_asyncDl (x : Band) (c : Conds) : (x.raise c).asyncDl = x.asyncDl := rfl
@[simp] theorem Band.raise_lastCtime (x : Band) (c : Conds) : (x.raise c).lastCtime = x.lastCtime := rfl
@[simp] theorem Band.raise_sigma (x : Band) (c : Conds) : (x.raise c).sigma = x.sigma := rfl
@[simp] theorem Band.raise_issues (x : Band) (c : Conds) : (x.raise c).issues = x.issues := rfl
@[simp] theorem Band.raise_wseq (x : Band) (c : Conds) : (x.raise c).wseq = x.wseq := rfl
@[simp] theorem Band.raise_logPos (x : Band) (c : Conds) : (x.raise c).logPos = x.logPos := rfl
@[simp] theorem Band.raise_mmaSeq (x : Band) (c : Conds) : (x.raise c).mmaSeq = x.mmaSeq := rfl
@[simp] theorem Band.raise_colSeq (x : Band) (c : Conds) : (x.raise c).colSeq = x.colSeq := rfl
@[simp] theorem Band.raise_werr (x : Band) (c : Conds) : (x.raise c).werr = x.werr := rfl
@[simp] theorem Band.raise_halted (x : Band) (c : Conds) : (x.raise c).halted = x.halted := rfl
@[simp] theorem Band.raise_stepping (x : Band) (c : Conds) : (x.raise c).stepping = x.stepping := rfl
@[simp] theorem Band.raise_resumeTrap (x : Band) (c : Conds) : (x.raise c).resumeTrap = x.resumeTrap := rfl
@[simp] theorem Band.setU_lanes (x : Band) (r : Nat) (w : Word) : (x.setU r w).lanes = x.lanes := rfl
@[simp] theorem Band.setU_fstat (x : Band) (r : Nat) (w : Word) : (x.setU r w).fstat = x.fstat := rfl
@[simp] theorem Band.setU_bctl (x : Band) (r : Nat) (w : Word) : (x.setU r w).bctl = x.bctl := rfl
@[simp] theorem Band.setU_ilcnt (x : Band) (r : Nat) (w : Word) : (x.setU r w).ilcnt = x.ilcnt := rfl
@[simp] theorem Band.setU_tstat (x : Band) (r : Nat) (w : Word) : (x.setU r w).tstat = x.tstat := rfl
@[simp] theorem Band.setU_tinfo (x : Band) (r : Nat) (w : Word) : (x.setU r w).tinfo = x.tinfo := rfl
@[simp] theorem Band.setU_tepc (x : Band) (r : Nat) (w : Word) : (x.setU r w).tepc = x.tepc := rfl
@[simp] theorem Band.setU_taddr (x : Band) (r : Nat) (w : Word) : (x.setU r w).taddr = x.taddr := rfl
@[simp] theorem Band.setU_tmask (x : Band) (r : Nat) (w : Word) : (x.setU r w).tmask = x.tmask := rfl
@[simp] theorem Band.setU_tscr (x : Band) (r : Nat) (w : Word) : (x.setU r w).tscr = x.tscr := rfl
@[simp] theorem Band.setU_dbgctl (x : Band) (r : Nat) (w : Word) : (x.setU r w).dbgctl = x.dbgctl := rfl
@[simp] theorem Band.setU_pctl (x : Band) (r : Nat) (w : Word) : (x.setU r w).pctl = x.pctl := rfl
@[simp] theorem Band.setU_pcnt (x : Band) (r : Nat) (w : Word) : (x.setU r w).pcnt = x.pcnt := rfl
@[simp] theorem Band.setU_enrolled (x : Band) (r : Nat) (w : Word) : (x.setU r w).enrolled = x.enrolled := rfl
@[simp] theorem Band.setU_tokens (x : Band) (r : Nat) (w : Word) : (x.setU r w).tokens = x.tokens := rfl
@[simp] theorem Band.setU_latch (x : Band) (r : Nat) (w : Word) : (x.setU r w).latch = x.latch := rfl
@[simp] theorem Band.setU_sched (x : Band) (r : Nat) (w : Word) : (x.setU r w).sched = x.sched := rfl
@[simp] theorem Band.setU_stallSkip (x : Band) (r : Nat) (w : Word) : (x.setU r w).stallSkip = x.stallSkip := rfl
@[simp] theorem Band.setU_ilk (x : Band) (r : Nat) (w : Word) : (x.setU r w).ilk = x.ilk := rfl
@[simp] theorem Band.setU_readyAge (x : Band) (r : Nat) (w : Word) : (x.setU r w).readyAge = x.readyAge := rfl
@[simp] theorem Band.setU_boosted (x : Band) (r : Nat) (w : Word) : (x.setU r w).boosted = x.boosted := rfl
@[simp] theorem Band.setU_cpyOut (x : Band) (r : Nat) (w : Word) : (x.setU r w).cpyOut = x.cpyOut := rfl
@[simp] theorem Band.setU_mmaOut (x : Band) (r : Nat) (w : Word) : (x.setU r w).mmaOut = x.mmaOut := rfl
@[simp] theorem Band.setU_rmtOut (x : Band) (r : Nat) (w : Word) : (x.setU r w).rmtOut = x.rmtOut := rfl
@[simp] theorem Band.setU_horizon (x : Band) (r : Nat) (w : Word) : (x.setU r w).horizon = x.horizon := rfl
@[simp] theorem Band.setU_storesOut (x : Band) (r : Nat) (w : Word) : (x.setU r w).storesOut = x.storesOut := rfl
@[simp] theorem Band.setU_pend (x : Band) (r : Nat) (w : Word) : (x.setU r w).pend = x.pend := rfl
@[simp] theorem Band.setU_regCopies (x : Band) (r : Nat) (w : Word) : (x.setU r w).regCopies = x.regCopies := rfl
@[simp] theorem Band.setU_accOut (x : Band) (r : Nat) (w : Word) : (x.setU r w).accOut = x.accOut := rfl
@[simp] theorem Band.setU_pushesOut (x : Band) (r : Nat) (w : Word) : (x.setU r w).pushesOut = x.pushesOut := rfl
@[simp] theorem Band.setU_waitW (x : Band) (r : Nat) (w : Word) : (x.setU r w).waitW = x.waitW := rfl
@[simp] theorem Band.setU_hold (x : Band) (r : Nat) (w : Word) : (x.setU r w).hold = x.hold := rfl
@[simp] theorem Band.setU_watchCap (x : Band) (r : Nat) (w : Word) : (x.setU r w).watchCap = x.watchCap := rfl
@[simp] theorem Band.setU_watch (x : Band) (r : Nat) (w : Word) : (x.setU r w).watch = x.watch := rfl
@[simp] theorem Band.setU_ports (x : Band) (r : Nat) (w : Word) : (x.setU r w).ports = x.ports := rfl
@[simp] theorem Band.setU_asyncCopy (x : Band) (r : Nat) (w : Word) : (x.setU r w).asyncCopy = x.asyncCopy := rfl
@[simp] theorem Band.setU_asyncCmd (x : Band) (r : Nat) (w : Word) : (x.setU r w).asyncCmd = x.asyncCmd := rfl
@[simp] theorem Band.setU_asyncDl (x : Band) (r : Nat) (w : Word) : (x.setU r w).asyncDl = x.asyncDl := rfl
@[simp] theorem Band.setU_lastCtime (x : Band) (r : Nat) (w : Word) : (x.setU r w).lastCtime = x.lastCtime := rfl
@[simp] theorem Band.setU_sigma (x : Band) (r : Nat) (w : Word) : (x.setU r w).sigma = x.sigma := rfl
@[simp] theorem Band.setU_issues (x : Band) (r : Nat) (w : Word) : (x.setU r w).issues = x.issues := rfl
@[simp] theorem Band.setU_wseq (x : Band) (r : Nat) (w : Word) : (x.setU r w).wseq = x.wseq := rfl
@[simp] theorem Band.setU_logPos (x : Band) (r : Nat) (w : Word) : (x.setU r w).logPos = x.logPos := rfl
@[simp] theorem Band.setU_mmaSeq (x : Band) (r : Nat) (w : Word) : (x.setU r w).mmaSeq = x.mmaSeq := rfl
@[simp] theorem Band.setU_colSeq (x : Band) (r : Nat) (w : Word) : (x.setU r w).colSeq = x.colSeq := rfl
@[simp] theorem Band.setU_werr (x : Band) (r : Nat) (w : Word) : (x.setU r w).werr = x.werr := rfl
@[simp] theorem Band.setU_halted (x : Band) (r : Nat) (w : Word) : (x.setU r w).halted = x.halted := rfl
@[simp] theorem Band.setU_stepping (x : Band) (r : Nat) (w : Word) : (x.setU r w).stepping = x.stepping := rfl
@[simp] theorem Band.setU_resumeTrap (x : Band) (r : Nat) (w : Word) : (x.setU r w).resumeTrap = x.resumeTrap := rfl

/-! ### Reading back -/

@[simp] theorem State.blk_setBlk (s : State) (k : Nat) (b : Block) : (s.setBlk k b).blk k = some b := tget_tset_self _ _ _

theorem State.blk_setBlk_ne (s : State) {k j : Nat} (b : Block) (h : j ≠ k) : (s.setBlk k b).blk j = s.blk j :=
  tget_tset_ne _ _ h

@[simp] theorem State.blk_modBlk (s : State) (k : Nat) (g : Block → Block) : (s.modBlk k g).blk k = (s.blk k).map g :=
  tget_tmod_self _ _ _

theorem State.blk_modBlk_ne (s : State) {k j : Nat} (g : Block → Block) (h : j ≠ k) : (s.modBlk k g).blk j = s.blk j :=
  tget_tmod_ne _ _ h

@[simp] theorem State.blk_modBand (s : State) (k n : Nat) (f : Band → Band) :
    (s.modBand k n f).blk k = (s.blk k).map (fun b => b.modBand n f) := State.blk_modBlk s k _

theorem State.blk_modBand_ne (s : State) {k j : Nat} (n : Nat) (f : Band → Band) (h : j ≠ k) :
    (s.modBand k n f).blk j = s.blk j := State.blk_modBlk_ne s _ h

@[simp] theorem State.grid_setBlk (s : State) (k : Nat) (b : Block) (l : Nat) : (s.setBlk k b).grid l = s.grid l := rfl
@[simp] theorem State.grid_modBand (s : State) (k n : Nat) (f : Band → Band) (l : Nat) :
    (s.modBand k n f).grid l = s.grid l := rfl

theorem Block.band_modBand (b : Block) (n m : Nat) (f : Band → Band) :
    (b.modBand n f).band m = if m = n then (b.band m).map f else b.band m := getElem?_modAt _ _ _ _

theorem Block.band_setBand (b : Block) {n m : Nat} (x y : Band) (h : b.band n = some y) :
    (b.setBand n x).band m = if m = n then some x else b.band m := by
  have hn : n < b.bands.length := by
    rcases Nat.lt_or_ge n b.bands.length with hn | hn
    · exact hn
    · simp [Block.band, List.getElem?_eq_none hn] at h
  exact getElem?_setAt _ _ _ _ hn

theorem Block.band_setBand_self (b : Block) {n : Nat} (x y : Band) (h : b.band n = some y) :
    (b.setBand n x).band n = some x := by rw [Block.band_setBand b x y h, if_pos rfl]

theorem Block.band_setBand_ne (b : Block) {n m : Nat} (x : Band) (h : m ≠ n) :
    (b.setBand n x).band m = b.band m := by simp [Block.band, Block.setBand, setAt, Ne.symm h]

/-! ### Lanes and registers -/

theorem Band.lane_modLanes (x : Band) (ls : List Nat) (f : Nat → Lane → Lane) {l : Nat} (h : l < x.lanes.length) :
    (x.modLanes ls f).lane l = if ls.contains l then f l (x.lane l) else x.lane l := by
  simp only [Band.lane, Band.modLanes, List.getD_eq_getElem?_getD, getElem?_modAll]
  rw [List.getElem?_eq_getElem h]; rfl

theorem Band.lane_modLanes_out (x : Band) (ls : List Nat) (f : Nat → Lane → Lane) {l : Nat} (h : l ∉ ls) :
    (x.modLanes ls f).lane l = x.lane l := by
  simp only [Band.lane, Band.modLanes, List.getD_eq_getElem?_getD, getElem?_modAll]
  cases x.lanes[l]? <;> simp [h]

@[simp] theorem Band.modLanes_length (x : Band) (ls : List Nat) (f : Nat → Lane → Lane) :
    (x.modLanes ls f).lanes.length = x.lanes.length := by simp [Band.modLanes]

@[simp] theorem Lane.setV_preds (x : Lane) (r : Nat) (w : Word) : (x.setV r w).preds = x.preds := rfl
@[simp] theorem Lane.setV_pc (x : Lane) (r : Nat) (w : Word) : (x.setV r w).pc = x.pc := rfl
@[simp] theorem Lane.setV_st (x : Lane) (r : Nat) (w : Word) : (x.setV r w).st = x.st := rfl
@[simp] theorem Lane.setV_yieldMark (x : Lane) (r : Nat) (w : Word) : (x.setV r w).yieldMark = x.yieldMark := rfl
@[simp] theorem Lane.setV_length (x : Lane) (r : Nat) (w : Word) : (x.setV r w).vregs.length = x.vregs.length := by
  simp [Lane.setV]

theorem Lane.v_setV (x : Lane) {r q : Nat} (w : Word) (h : q < x.vregs.length) :
    (x.setV r w).v q = if r = q then w else x.v q := getD_setAt _ _ _ _ _ h

@[simp] theorem Lane.setP_vregs (x : Lane) (k : Nat) (b : Bool) : (x.setP k b).vregs = x.vregs := by
  unfold Lane.setP; split <;> rfl
@[simp] theorem Lane.setP_pc (x : Lane) (k : Nat) (b : Bool) : (x.setP k b).pc = x.pc := by
  unfold Lane.setP; split <;> rfl
@[simp] theorem Lane.setP_st (x : Lane) (k : Nat) (b : Bool) : (x.setP k b).st = x.st := by
  unfold Lane.setP; split <;> rfl
@[simp] theorem Lane.setP_yieldMark (x : Lane) (k : Nat) (b : Bool) : (x.setP k b).yieldMark = x.yieldMark := by
  unfold Lane.setP; split <;> rfl

/-- p7 reads true whatever is written (R17). -/
@[simp] theorem Lane.p_seven (x : Lane) : x.p 7 = true := rfl

theorem Lane.p_eq (x : Lane) {k : Nat} (h : k < 7) : x.p k = x.preds.getLsbD k := by
  unfold Lane.p; rw [if_neg (by omega)]

theorem Lane.p_setP (x : Lane) {k q : Nat} (b : Bool) (h : q < 7) :
    (x.setP k b).p q = if k = q then b else x.p q := by
  rw [Lane.p_eq _ h, Lane.p_eq _ h]
  unfold Lane.setP
  split
  · rw [if_neg (show ¬ k = q by omega)]
  · rename_i hk
    have hk : k < 7 := by omega
    interval_cases k <;> interval_cases q <;> cases b <;>
      simp [BitVec.getLsbD_or, BitVec.getLsbD_and, BitVec.getLsbD_not]

end Sys2Proof.Machine
end

