-- ==== Sys2Proof/Laws/Issue.lean ====
section
/-! SUPPORT. What preparing an issue answers, what completing one does, and what an instruction that only computes
writes: the lemmas that the statements about instructions cite in place of unfolding `prep`, `finish` and `commit`. -/

set_option Elab.async false

namespace Sys2Proof.Machine

open Sys2Proof

/-! ### The choice of lanes -/

theorem Band.pick_lt (x : Band) (p : Lane → Bool) {l : Nat} (h : l ∈ x.pick p) : l < x.lanes.length := by
  simp only [Band.pick, List.mem_filter, List.mem_range] at h; exact h.1

theorem Band.readyLanes_lt (x : Band) {l : Nat} (h : l ∈ x.readyLanes) : l < x.lanes.length := by
  simp only [Band.readyLanes, List.mem_filter] at h; exact x.pick_lt _ h.1

theorem Band.pool_ready (x : Band) {l : Nat} (h : l ∈ x.pool) : l ∈ x.readyLanes := by
  have h1 : ∀ q ∈ x.eligible, q ∈ x.readyLanes := by
    intro q hq
    unfold Band.eligible at hq
    split at hq
    · exact hq
    · exact (List.mem_filter.1 hq).1
  unfold Band.pool at h
  split at h
  · exact h1 l h
  · exact h1 l (List.mem_filter.1 h).1

/-- The active lanes are ready lanes that stand at the chosen program counter. -/
theorem Band.choose_active {x : Band} {ch : Choice} (h : x.choose = some ch) {l : Nat} (hl : l ∈ ch.active) :
    l ∈ x.readyLanes ∧ (x.lane l).pc = ch.pc := by
  unfold Band.choose at h
  split at h
  · cases h
  · obtain rfl := Option.some.inj h
    have := List.mem_filter.1 hl
    exact ⟨x.pool_ready this.1, by simpa using this.2⟩

@[simp] theorem Band.cleared_length (x : Band) (ch : Choice) : (x.cleared ch).lanes.length = x.lanes.length := by
  unfold Band.cleared; split <;> simp

/-! ### Preparing an issue -/

/-- A state that differs from another in packets sent, and in the versions that the cores count as received (R278). -/
def State.SentMore (s t : State) : Prop :=
  ∃ net serial cores, t = { s with net := s.net ++ net, serial := serial, cores := cores }

theorem State.SentMore.rfl' (s : State) : s.SentMore s := ⟨[], s.serial, s.cores, by rw [List.append_nil]⟩

theorem State.SentMore.trans {s t u : State} (h : s.SentMore t) (h' : t.SentMore u) : s.SentMore u := by
  obtain ⟨a, p, _, rfl⟩ := h
  obtain ⟨b, q, c, rfl⟩ := h'
  exact ⟨a ++ b, q, c, by simp only [List.append_assoc]⟩

theorem State.sent_send (s : State) (src dest : Router) (c : PktCls) (lid : Nat) (blk : Option (Nat × Nat)) (m : Msg) :
    s.SentMore (s.send src dest c lid blk m) := ⟨_, _, _, rfl⟩

theorem State.sent_received (s : State) (core line version : Nat) : s.SentMore (s.received core line version) :=
  ⟨[], s.serial, _, by rw [List.append_nil]; rfl⟩

theorem State.sent_receivedAll (s : State) (core : Nat) (as : List LineAsk) : s.SentMore (s.receivedAll core as) := by
  unfold State.receivedAll
  have h (t : State) (ht : s.SentMore t) : s.SentMore (as.foldl (fun s a => s.received core a.line (s.home a.line).version) t) := by
    induction as generalizing t with
    | nil => exact ht
    | cons a as ih => exact ih _ (ht.trans (t.sent_received _ _ _))
  exact h s (.rfl' s)

theorem State.sent_engineAsk (s : State) (core lid : Nat) (blk : Option (Nat × Nat)) (id : Nat) (ls : List LineAsk) :
    s.SentMore (s.engineAsk core lid blk id ls) := by
  unfold State.engineAsk State.askHomes
  induction ls generalizing s with
  | nil => exact .rfl' s
  | cons l ls ih => exact (s.sent_send _ _ _ _ _ _).trans (ih _)

theorem State.sent_popAsk (s : State) (k n : Nat) (b : Block) (x : Band) (ps : List (Nat × Nat)) :
    s.SentMore (s.popAsk k n b x ps) := by
  induction ps generalizing s with
  | nil => exact .rfl' s
  | cons p ps ih => exact (s.sent_engineAsk _ _ _ _ _).trans ((State.sent_receivedAll _ _ _).trans (ih _))

/-- What an issue's record holds: its block and band as they stand before the effect, its lanes. -/
structure Iss.Good (y : Iss) (s : State) : Prop where
  key : y.k = s.curBlock
  num : y.n = s.curBand
  blk : y.s.blk y.k = some y.b
  band : ∃ x, y.b.band y.n = some x ∧ y.x.lanes = x.lanes
  exAct : ∀ l ∈ y.ex, l ∈ y.act
  lt : ∀ l ∈ y.act, l < y.x.lanes.length
  sent : ∃ b, (s.setBlk y.k b).SentMore y.s
  blocks : ∀ j, j ≠ y.k → y.s.blk j = s.blk j

theorem State.sameShell.trans {s t u : State} (h : s.sameShell t) (h' : t.sameShell u) : s.sameShell u := by
  unfold State.sameShell at *
  exact (congrArg (fun v : State => { v with blocks := s.blocks, samples := s.samples }) h').trans h

theorem State.sameShell_modBand (s : State) (k n : Nat) (f : Band → Band) : s.sameShell (s.modBand k n f) := rfl

theorem State.sameShell_setBlk (s : State) (k : Nat) (b : Block) : s.sameShell (s.setBlk k b) := rfl

theorem Iss.good {i : Instr} {s : State} {y : Iss} (h : Issues i s y) : y.Good s := by
  unfold Issues prep at h
  split at h
  · rename_i hd b hh hb
    split at h
    · cases h
    · rename_i x hx
      split at h
      · cases h
      · split at h
        · cases h
        · rename_i ch hch
          have hlt : ∀ l ∈ ch.active, l < x.lanes.length := fun l hl => x.readyLanes_lt (Band.choose_active hch hl).1
          have hcl : (if ch.clear = true then { x with lanes := x.lanes.map fun l => { l with yieldMark := false } } else x)
              = x.cleared ch := rfl
          simp only [hcl] at h
          unfold State.prepAt at h
          split at h
          · cases h
          · cases h
          · split at h
            · cases h
            · simp only at h
              split at h
              · cases h
              · cases h
              · cases h
              · cases h
              · cases h
              · split at h
                · cases h
                · cases h
                · cases h
                · cases h
                · cases h
                cases h
                have hs := State.sent_popAsk (s.setBlk s.curBlock (b.setBand s.curBand (x.cleared ch))) s.curBlock s.curBand
                  (b.setBand s.curBand (x.cleared ch)) (x.cleared ch) (popPorts (b.setBand s.curBand (x.cleared ch)) i)
                have hb : ∀ j, (State.popAsk (s.setBlk s.curBlock (b.setBand s.curBand (x.cleared ch))) s.curBlock s.curBand
                    (b.setBand s.curBand (x.cleared ch)) (x.cleared ch)
                    (popPorts (b.setBand s.curBand (x.cleared ch)) i)).blk j =
                    (s.setBlk s.curBlock (b.setBand s.curBand (x.cleared ch))).blk j := by
                  obtain ⟨_, _, _, e⟩ := hs
                  intro j; rw [e]; rfl
                exact
                  { key := rfl, num := rfl, blk := (hb _).trans (State.blk_setBlk _ _ _)
                    band := ⟨x.cleared ch, Block.band_setBand_self b _ x hx, rfl⟩
                    exAct := fun l hl => (List.mem_filter.1 hl).1
                    lt := fun l hl => (Nat.lt_of_lt_of_eq (hlt l hl) (x.cleared_length ch).symm :)
                    sent := ⟨_, hs⟩
                    blocks := fun j hj => (hb j).trans (State.blk_setBlk_ne _ _ hj) }
  · cases h

theorem Iss.hdr {i : Instr} {s : State} {y : Iss} (h : Issues i s y) : ∃ hd, i.hdr? = some hd := by
  unfold Issues prep at h
  split at h
  · rename_i hd b hh hb; exact ⟨hd, hh⟩
  · cases h

theorem run_next {i : Instr} {s : State} {y : Iss} (h : Issues i s y) (f : Iss → State) : run i s f = .next (f y) := by
  unfold Issues at h; unfold run; rw [h]

theorem runO_next {i : Instr} {s : State} {y : Iss} (h : Issues i s y)
    (f : Iss → Host.Outcome State Fault Refusal) : runO i s f = f y := by
  unfold Issues at h; unfold runO; rw [h]

/-! ### Completing an issue -/

/-- A state that differs from another in the run state of one block alone, and in samples. -/
structure Near (k : Nat) (s t : State) : Prop where
  shell : s.sameShell t
  blocks : ∀ j, j ≠ k → t.blk j = s.blk j
  block : ∀ b, s.blk k = some b → ∃ st, t.blk k = some { b with st := st }

theorem Near.rfl' (k : Nat) (s : State) : Near k s s := ⟨rfl, fun _ _ => rfl, fun b hb => ⟨b.st, hb⟩⟩

theorem State.near_depart (s : State) (k : Nat) : Near k s (s.depart k) := by
  unfold State.depart
  split
  · exact Near.rfl' k s
  · rename_i b hb
    split
    · exact Near.rfl' k s
    · refine ⟨rfl, fun j hj => ?_, fun b' hb' => ⟨.ended, ?_⟩⟩
      · exact State.blk_setBlk_ne _ _ hj
      · rw [hb] at hb'; cases hb'; exact State.blk_setBlk _ _ _

theorem State.near_checkRec (s : State) (k n : Nat) : Near k s (s.checkRec k n) := by
  unfold State.checkRec
  split
  · exact s.near_depart k
  · exact Near.rfl' k s

theorem Iss.finish_eq (y : Iss) {s : State} {i : Instr} {h : Hdr} {b : Block} (jumps : List (Nat × DWord))
    (hi : i.hdr? = some h) (hb : s.blk y.k = some b) :
    ∃ g, y.finish s i jumps = (s.checkRec y.k y.n).modBand y.k y.n fun x =>
      x.complete b g i h y.act y.ex y.slow (y.goOn i jumps) := by
  unfold Iss.finish
  rw [hi, hb]
  exact ⟨_, rfl⟩

theorem Band.count_lanes (x : Band) (p : Bool) (c n : Nat) : (x.count p c n).lanes = x.lanes := by
  unfold Band.count; split <;> rfl
theorem Band.count_uregs (x : Band) (p : Bool) (c n : Nat) : (x.count p c n).uregs = x.uregs := by
  unfold Band.count; split <;> rfl
theorem Band.count_fstat (x : Band) (p : Bool) (c n : Nat) : (x.count p c n).fstat = x.fstat := by
  unfold Band.count; split <;> rfl
theorem Band.count_special (x : Band) (p : Bool) (c n : Nat) : (x.count p c n).special = x.special := by
  unfold Band.count; split <;> rfl

/-- What completion does to a lane: its program counter and its yield mark. -/
theorem Band.complete_lane (x : Band) (b : Block) (g : Word) (i : Instr) (h : Hdr) (act ex : List Nat) (slow : Bool)
    (next : Nat → DWord) {l : Nat} (hl : l < x.lanes.length) :
    (x.complete b g i h act ex slow next).lane l =
      if act.contains l then
        { x.lane l with pc := next l, yieldMark := (x.lane l).yieldMark || (yields i && ex.contains l) }
      else x.lane l := by
  have e : (x.complete b g i h act ex slow next).lanes = (x.modLanes act fun l ln =>
      { ln with pc := next l, yieldMark := ln.yieldMark || (yields i && ex.contains l) }).lanes := by
    unfold Band.complete; simp only [Band.count_lanes]
  unfold Band.lane
  rw [e]
  exact Band.lane_modLanes x act _ hl

theorem Band.complete_uregs (x : Band) (b : Block) (g : Word) (i : Instr) (h : Hdr) (act ex : List Nat) (slow : Bool)
    (next : Nat → DWord) : (x.complete b g i h act ex slow next).uregs = x.uregs := by
  unfold Band.complete; simp only [Band.count_uregs]; rfl
theorem Band.complete_fstat (x : Band) (b : Block) (g : Word) (i : Instr) (h : Hdr) (act ex : List Nat) (slow : Bool)
    (next : Nat → DWord) : (x.complete b g i h act ex slow next).fstat = x.fstat := by
  unfold Band.complete; simp only [Band.count_fstat]; rfl
theorem Band.complete_length (x : Band) (b : Block) (g : Word) (i : Instr) (h : Hdr) (act ex : List Nat) (slow : Bool)
    (next : Nat → DWord) : (x.complete b g i h act ex slow next).lanes.length = x.lanes.length := by
  unfold Band.complete; simp only [Band.count_lanes]; simp
theorem Band.complete_special (x : Band) (b : Block) (g : Word) (i : Instr) (h : Hdr) (act ex : List Nat) (slow : Bool)
    (next : Nat → DWord) : (x.complete b g i h act ex slow next).special = x.special := by
  have e : (x.complete b g i h act ex slow next).special = (((x.modLanes act fun l ln =>
      { ln with pc := next l, yieldMark := ln.yieldMark || (yields i && ex.contains l) }).count (g.getLsbD 3) 1 1).count
      (g.getLsbD 3) 2 slow.toNat).special := rfl
  rw [e, Band.count_special, Band.count_special]; rfl

/-- What `finish` does: the band completes; its block keeps the rest but for a departed run's end; nothing else changes. -/
structure Iss.Finished (y : Iss) (s t : State) (i : Instr) (jumps : List (Nat × DWord)) (b : Block) (x : Band) : Prop where
  block : ∃ st b', t.blk y.k = some b' ∧ b' = { b with st := st, bands := b'.bands } ∧
    b'.bands.length = b.bands.length ∧
    (∃ g h, i.hdr? = some h ∧ b'.band y.n = some (x.complete b g i h y.act y.ex y.slow (y.goOn i jumps))) ∧
    ∀ m, m ≠ y.n → b'.band m = b.band m
  blocks : ∀ j, j ≠ y.k → t.blk j = s.blk j
  shell : s.sameShell t

theorem Iss.finished (y : Iss) {s : State} {i : Instr} {h : Hdr} {b : Block} {x : Band} (jumps : List (Nat × DWord))
    (hi : i.hdr? = some h) (hb : s.blk y.k = some b) (hx : b.band y.n = some x) :
    y.Finished s (y.finish s i jumps) i jumps b x := by
  obtain ⟨g, e⟩ := y.finish_eq jumps hi hb
  have hn := s.near_checkRec y.k y.n
  obtain ⟨st, hst⟩ := hn.block b hb
  rw [e]
  refine ⟨⟨st, ({ b with st := st } : Block).modBand y.n fun x => x.complete b g i h y.act y.ex y.slow (y.goOn i jumps),
    ?_, ?_, ?_, ⟨g, h, hi, ?_⟩, ?_⟩, ?_, ?_⟩
  · rw [State.blk_modBand, hst]; rfl
  · rfl
  · simp [Block.modBand]
  · rw [Block.band_modBand, if_pos rfl]
    have : ({ b with st := st } : Block).band y.n = some x := hx
    rw [this]; rfl
  · intro m hm; rw [Block.band_modBand, if_neg hm]; rfl
  · intro j hj; rw [State.blk_modBand_ne _ _ _ hj, hn.blocks j hj]
  · exact hn.shell.trans (State.sameShell_modBand _ _ _ _)

/-! ### The writes of a lane -/

theorem written_nil {α : Type} (r : Nat) (v : α) : written [] r v = v := rfl

theorem Lane.foldl_setV (ws : List (Nat × Word)) (x : Lane) :
    (ws.foldl (fun x w => x.setV w.1 w.2) x).preds = x.preds ∧ (ws.foldl (fun x w => x.setV w.1 w.2) x).pc = x.pc ∧
    (ws.foldl (fun x w => x.setV w.1 w.2) x).st = x.st ∧
    (ws.foldl (fun x w => x.setV w.1 w.2) x).yieldMark = x.yieldMark ∧
    ∀ r, r < x.vregs.length → (ws.foldl (fun x w => x.setV w.1 w.2) x).v r = written ws r (x.v r) := by
  induction ws generalizing x with
  | nil => exact ⟨rfl, rfl, rfl, rfl, fun _ _ => rfl⟩
  | cons w ws ih =>
    obtain ⟨h1, h2, h3, h4, h5⟩ := ih (x.setV w.1 w.2)
    refine ⟨h1, h2, h3, h4, fun r hr => ?_⟩
    have := h5 r (by simpa using hr)
    rw [List.foldl_cons, this, Lane.v_setV x w.2 hr]; rfl

theorem Lane.foldl_setP (ps : List (Nat × Bool)) (x : Lane) :
    (ps.foldl (fun x w => x.setP w.1 w.2) x).vregs = x.vregs ∧ (ps.foldl (fun x w => x.setP w.1 w.2) x).pc = x.pc ∧
    (ps.foldl (fun x w => x.setP w.1 w.2) x).st = x.st ∧
    (ps.foldl (fun x w => x.setP w.1 w.2) x).yieldMark = x.yieldMark ∧
    ∀ k, k < 7 → (ps.foldl (fun x w => x.setP w.1 w.2) x).p k = written ps k (x.p k) := by
  induction ps generalizing x with
  | nil => exact ⟨rfl, rfl, rfl, rfl, fun _ _ => rfl⟩
  | cons w ws ih =>
    obtain ⟨h1, h2, h3, h4, h5⟩ := ih (x.setP w.1 w.2)
    refine ⟨by rw [List.foldl_cons, h1]; simp, by rw [List.foldl_cons, h2]; simp, by rw [List.foldl_cons, h3]; simp,
      by rw [List.foldl_cons, h4]; simp, fun k hk => ?_⟩
    rw [List.foldl_cons, h5 k hk, Lane.p_setP x w.2 hk]; rfl

theorem written_filter {α : Type} (ws : List (Nat × α)) (f : Nat → Bool) (r : Nat) (v : α) (h : f r = true) :
    written (ws.filter fun w => f w.1) r v = written ws r v := by
  induction ws generalizing v with
  | nil => rfl
  | cons w ws ih =>
    simp only [List.filter_cons]
    split
    · exact ih _
    · rename_i hw
      have e : w.1 ≠ r := fun e => hw (by rw [e]; exact h)
      rw [ih]; simp [written, e]

/-- What the writes of an instruction do to a lane. -/
theorem Lane.put_spec (x : Lane) (b : Block) (o : Out) :
    (x.put b o).pc = x.pc ∧ (x.put b o).st = x.st ∧ (x.put b o).yieldMark = x.yieldMark ∧
    (∀ r, r < x.vregs.length → b.isPort r = false → (x.put b o).v r = written o.v r (x.v r)) ∧
    ∀ k, k < 7 → (x.put b o).p k = written o.p k (x.p k) := by
  have h1 := Lane.foldl_setV (o.v.filter fun w => !b.isPort w.1) x
  have h2 := Lane.foldl_setP o.p ((o.v.filter fun w => !b.isPort w.1).foldl (fun x w => x.setV w.1 w.2) x)
  unfold Lane.put
  refine ⟨h2.2.1.trans h1.2.1, h2.2.2.1.trans h1.2.2.1, h2.2.2.2.1.trans h1.2.2.2.1, fun r hr hp => ?_, fun k hk => ?_⟩
  · have e : (o.p.foldl (fun x w => x.setP w.1 w.2)
        ((o.v.filter fun w => !b.isPort w.1).foldl (fun x w => x.setV w.1 w.2) x)).v r =
        ((o.v.filter fun w => !b.isPort w.1).foldl (fun x w => x.setV w.1 w.2) x).v r := by
      unfold Lane.v; rw [h2.1]
    rw [e, h1.2.2.2.2 r hr]
    exact written_filter o.v (fun q => !b.isPort q) r (x.v r) (by simp [hp])
  · rw [h2.2.2.2.2 k hk]
    congr 1
    unfold Lane.p; rw [h1.1]

theorem Band.foldl_setU (ws : List (Nat × Word)) (x : Band) :
    (ws.foldl (fun z w => z.setU w.1 w.2) x).lanes = x.lanes ∧ (ws.foldl (fun z w => z.setU w.1 w.2) x).fstat = x.fstat ∧
    (ws.foldl (fun z w => z.setU w.1 w.2) x).special = x.special ∧
    ∀ r, r < x.uregs.length → (ws.foldl (fun z w => z.setU w.1 w.2) x).u r = written ws r (x.u r) := by
  induction ws generalizing x with
  | nil => exact ⟨rfl, rfl, rfl, fun _ _ => rfl⟩
  | cons w ws ih =>
    obtain ⟨h1, h2, h3, h4⟩ := ih (x.setU w.1 w.2)
    refine ⟨h1, h2, h3, fun r hr => ?_⟩
    have := h4 r (by simpa [Band.setU] using hr)
    rw [List.foldl_cons, this]
    have e : (x.setU w.1 w.2).u r = if w.1 = r then w.2 else x.u r := getD_setAt _ _ _ _ _ hr
    rw [e]; rfl

theorem find_map_mem {α : Type} (ex : List Nat) (f : Nat → α) {l : Nat} (h : l ∈ ex) :
    (ex.map fun l => (l, f l)).find? (fun o => o.1 == l) = some (l, f l) := by
  induction ex with
  | nil => cases h
  | cons a ex ih =>
    by_cases e : a = l
    · subst e; simp
    · rw [List.map_cons, List.find?_cons_of_neg (by simpa using e)]
      exact ih ((List.mem_cons.1 h).resolve_left (Ne.symm e))

/-- What the writes of the executing lanes do to a band. -/
theorem Band.put_spec (x : Band) (b : Block) (ex : List Nat) (val : Nat → Out) :
    (x.put b (ex.map fun l => (l, val l))).lanes.length = x.lanes.length ∧
    (∀ l ∈ ex, l < x.lanes.length → (x.put b (ex.map fun l => (l, val l))).lane l = (x.lane l).put b (val l)) ∧
    (∀ l, l ∉ ex → (x.put b (ex.map fun l => (l, val l))).lane l = x.lane l) ∧
    (∀ r, r < x.uregs.length → (x.put b (ex.map fun l => (l, val l))).u r =
      written (uniOuts (ex.map fun l => (l, val l))) r (x.u r)) ∧
    (x.put b (ex.map fun l => (l, val l))).fstat = orConds x.fstat (condsOf (ex.map fun l => (l, val l))) ∧
    (x.put b (ex.map fun l => (l, val l))).special = x.special := by
  have hm : (ex.map fun l => (l, val l)).map (·.1) = ex := by simp [List.map_map, Function.comp_def]
  have h := Band.foldl_setU (uniOuts (ex.map fun l => (l, val l)))
    ((x.modLanes ex (putLane b (ex.map fun l => (l, val l)))).unlatch (regsOf (ex.map fun l => (l, val l))))
  have e0 : x.put b (ex.map fun l => (l, val l)) = ((uniOuts (ex.map fun l => (l, val l))).foldl
      (fun z w => z.setU w.1 w.2) ((x.modLanes ex (putLane b (ex.map fun l => (l, val l)))).unlatch
      (regsOf (ex.map fun l => (l, val l))))).raise
      (condsOf (ex.map fun l => (l, val l))) := by unfold Band.put; simp only [hm]
  obtain ⟨h1, h2, h3, h4⟩ := h
  have el : (x.put b (ex.map fun l => (l, val l))).lanes =
      (x.modLanes ex (putLane b (ex.map fun l => (l, val l)))).lanes := by rw [e0]; exact h1
  have elane (l : Nat) : (x.put b (ex.map fun l => (l, val l))).lane l =
      (x.modLanes ex (putLane b (ex.map fun l => (l, val l)))).lane l := by unfold Band.lane; rw [el]
  refine ⟨by rw [el]; exact Band.modLanes_length _ _ _, fun l hl hlt => ?_, fun l hl => ?_, fun r hr => ?_, ?_, ?_⟩
  · rw [elane, Band.lane_modLanes x ex _ hlt, if_pos (by simpa using hl)]
    unfold putLane
    rw [find_map_mem ex val hl]
  · rw [elane, Band.lane_modLanes_out x ex _ hl]
  · rw [e0]; exact h4 r hr
  · rw [e0]; exact congrArg (fun v => orConds v _) h2
  · rw [e0]; exact h3

/-! ### The records of a sampled run touch no register -/

/-- A band without its write counts. -/
def Band.unsigned (x : Band) : Band := { x with wseq := {} }

/-- A block that differs from another in its signature and in one band's write counts alone. -/
structure Signed (n : Nat) (b c : Block) : Prop where
  rest : { c with bands := b.bands, sig := b.sig } = b
  others : ∀ m, m ≠ n → c.band m = b.band m
  band : (c.band n).map Band.unsigned = (b.band n).map Band.unsigned

theorem Signed.rfl' (n : Nat) (b : Block) : Signed n b b := ⟨rfl, fun _ _ => rfl, rfl⟩

theorem Signed.trans {n : Nat} {b c d : Block} (h : Signed n b c) (h' : Signed n c d) : Signed n b d where
  rest := (congrArg (fun v : Block => { v with bands := b.bands, sig := b.sig }) h'.rest).trans h.rest
  others := fun m hm => (h'.others m hm).trans (h.others m hm)
  band := h'.band.trans h.band

theorem Signed.foldl {α : Type} {n : Nat} (f : Block → α → Block) (hf : ∀ b a, Signed n b (f b a)) (l : List α)
    (b : Block) : Signed n b (l.foldl f b) := by
  induction l generalizing b with
  | nil => exact .rfl' n b
  | cons a l ih => exact (hf b a).trans (ih _)

theorem Signed.wseq (n : Nat) (b : Block) (g : Band → WriteSeq) (sg : Sig) :
    Signed n b { b.modBand n (fun x => { x with wseq := g x }) with sig := sg } where
  rest := rfl
  others := fun m hm => by
    have : ({ b.modBand n (fun x => { x with wseq := g x }) with sig := sg } : Block).band m =
      (b.modBand n (fun x => { x with wseq := g x })).band m := rfl
    rw [this, Block.band_modBand, if_neg hm]
  band := by
    have : ({ b.modBand n (fun x => { x with wseq := g x }) with sig := sg } : Block).band n =
      (b.modBand n (fun x => { x with wseq := g x })).band n := rfl
    rw [this, Block.band_modBand, if_pos rfl]
    cases b.band n <;> rfl

theorem Block.signed_signLane (b : Block) (n l : Nat) (ws : List (Nat × Word)) : Signed n b (b.signLane n l ws) := by
  unfold Block.signLane
  exact Signed.foldl _ (fun b w => Signed.wseq n b _ _) _ b

theorem Block.signed_signUni (b : Block) (n : Nat) (ws : List (Nat × Word)) : Signed n b (b.signUni n ws) := by
  unfold Block.signUni
  exact Signed.foldl _ (fun b w => Signed.wseq n b _ _) _ b

theorem Block.signed_signOuts (b : Block) (n : Nat) (outs : List (Nat × Out)) : Signed n b (b.signOuts n outs) := by
  unfold Block.signOuts
  split
  · exact .rfl' n b
  · exact (Signed.foldl _ (fun b o => Block.signed_signLane b n _ _) outs b).trans (Block.signed_signUni _ n _)

/-! ### An instruction that only computes -/

theorem Iss.wrote_finish {i : Instr} {s : State} {y : Iss} (h : Issues i s y) (val : Nat → Out)
    (jumps : List (Nat × DWord)) :
    y.Wrote (y.finish (y.putOuts (y.ex.map fun l => (l, val l))) i jumps) val (y.goOn i jumps) := by
  have g := y.good h
  obtain ⟨hd, hi⟩ := y.hdr h
  obtain ⟨x₀, hx₀, hl₀⟩ := g.band
  obtain ⟨p1, p2, p3, p4, p5, p6⟩ := Band.put_spec y.x y.b y.ex val
  have sg := Block.signed_signOuts (y.b.setBand y.n (y.x.put y.b (y.ex.map fun l => (l, val l)))) y.n
    (y.ex.map fun l => (l, val l))
  have hb := sg.band
  rw [Block.band_setBand_self y.b _ x₀ hx₀] at hb
  obtain ⟨xs, hxs, hxe⟩ := Option.map_eq_some_iff.1 hb
  have hblk : (y.putOuts (y.ex.map fun l => (l, val l))).blk y.k = some ((y.b.setBand y.n
      (y.x.put y.b (y.ex.map fun l => (l, val l)))).signOuts y.n (y.ex.map fun l => (l, val l))) :=
    State.blk_setBlk _ _ _
  obtain ⟨⟨st, b', hb', he', hlen, ⟨dg, hd', hi', hband⟩, hoth⟩, hblocks, hshell⟩ := y.finished jumps hi hblk hxs
  obtain ⟨c, hbl⟩ : ∃ c, (y.bandIn (y.finish (y.putOuts (y.ex.map fun l => (l, val l))) i jumps)) =
      xs.complete c dg i hd' y.act y.ex y.slow (y.goOn i jumps) :=
    ⟨_, by unfold Iss.bandIn; rw [hb']; simp only [Option.bind_some, hband, Option.getD_some]; rfl⟩
  have e1 : xs.lanes = (y.x.put y.b (y.ex.map fun l => (l, val l))).lanes := (congrArg Band.lanes hxe :)
  have e2 : xs.uregs = (y.x.put y.b (y.ex.map fun l => (l, val l))).uregs := (congrArg Band.uregs hxe :)
  have e3 : xs.fstat = (y.x.put y.b (y.ex.map fun l => (l, val l))).fstat := (congrArg Band.fstat hxe :)
  have e4 : xs.special = (y.x.put y.b (y.ex.map fun l => (l, val l))).special := (congrArg Band.special hxe :)
  have eln (l : Nat) : xs.lane l = (y.x.put y.b (y.ex.map fun l => (l, val l))).lane l := by
    unfold Band.lane; rw [e1]
  have hlane (l : Nat) (hl : l < y.x.lanes.length) : y.laneIn (y.finish (y.putOuts (y.ex.map fun l => (l, val l))) i jumps) l =
      if y.act.contains l then
        { xs.lane l with pc := y.goOn i jumps l, yieldMark := (xs.lane l).yieldMark || (yields i && y.ex.contains l) }
      else xs.lane l := by
    unfold Iss.laneIn; rw [hbl]
    exact Band.complete_lane xs c dg i hd' y.act y.ex y.slow _ (by rw [e1, p1]; exact hl)
  have hfar (l : Nat) (hl : ¬ l < y.x.lanes.length) :
      y.laneIn (y.finish (y.putOuts (y.ex.map fun l => (l, val l))) i jumps) l = y.x.lane l := by
    have hc : (xs.complete c dg i hd' y.act y.ex y.slow (y.goOn i jumps)).lanes.length = y.x.lanes.length := by
      rw [Band.complete_length, e1, p1]
    unfold Iss.laneIn; rw [hbl]; unfold Band.lane
    rw [List.getD_eq_default _ _ (by omega), List.getD_eq_default _ _ (by omega)]
  have exlt : ∀ l ∈ y.ex, l < y.x.lanes.length := fun l hl => g.lt l (g.exAct l hl)
  constructor
  · intro l hl r hr hp
    have := (Lane.put_spec (y.x.lane l) y.b (val l)).2.2.2.1 r hr hp
    rw [hlane l (exlt l hl), ← this, ← p2 l hl (exlt l hl), ← eln]
    split <;> rfl
  · intro l hl k hk
    have := (Lane.put_spec (y.x.lane l) y.b (val l)).2.2.2.2 k hk
    rw [hlane l (exlt l hl), ← this, ← p2 l hl (exlt l hl), ← eln]
    split <;> rfl
  · intro l hl
    by_cases hlt : l < y.x.lanes.length
    · rw [hlane l hlt, ← p3 l hl, ← eln]
      split <;> exact ⟨rfl, rfl⟩
    · rw [hfar l hlt]; exact ⟨rfl, rfl⟩
  · intro l hl
    rw [hlane l (g.lt l hl), if_pos (by simpa using hl)]
  · intro l hl
    by_cases hlt : l < y.x.lanes.length
    · rw [hlane l hlt, if_neg (by simpa using hl), eln]
      rw [p3 l (fun h => hl (g.exAct l h))]
    · rw [hfar l hlt]
  · intro l
    by_cases hlt : l < y.x.lanes.length
    · rw [hlane l hlt]
      have : (xs.lane l).st = (y.x.lane l).st := by
        rw [eln]
        by_cases he : l ∈ y.ex
        · rw [p2 l he hlt]; exact (Lane.put_spec _ _ _).2.1
        · rw [p3 l he]
      split <;> exact this
    · rw [hfar l hlt]
  · intro r hr
    rw [hbl, ← p4 r hr]
    unfold Band.u; rw [Band.complete_uregs, e2]
  · rw [hbl, Band.complete_fstat, e3, p5]
  · rw [hbl, Band.complete_special, e4, p6]
  · intro m hm
    rw [hb', g.blk]
    simp only [Option.bind_some]
    rw [hoth m hm, sg.others m hm, Block.band_setBand_ne _ _ hm]
  · refine ⟨b', hb', ?_⟩
    have := sg.rest
    rw [he']
    exact (congrArg (fun v : Block => { v with bands := y.b.bands, sig := y.b.sig, st := y.b.st }) this :)
  · intro k hk
    rw [hblocks k hk]
    exact State.blk_setBlk_ne _ _ hk
  · exact State.sameShell.trans (State.sameShell_setBlk _ _ _) hshell

/-- Writing nothing leaves a band as it is. -/
theorem Band.put_empty (x : Band) (b : Block) (ex : List Nat) : x.put b (ex.map fun l => (l, {})) = x := by
  have hu : uniOuts (ex.map fun l => (l, ({} : Out))) = [] := by
    unfold uniOuts
    have : (ex.map fun l => (l, ({} : Out))).find? (fun o => !o.2.u.isEmpty) = none := by
      simp [List.find?_eq_none]
    rw [this]
  have hc : condsOf (ex.map fun l => (l, ({} : Out))) = 0 := by
    unfold condsOf
    have : ∀ (ex : List Nat) (c : Conds), (ex.map fun l => (l, ({} : Out))).foldl (fun c o => c ||| o.2.cs) c = c := by
      intro ex
      induction ex with
      | nil => intro c; rfl
      | cons a ex ih => intro c; rw [List.map_cons, List.foldl_cons]; simpa using ih c
    exact this ex 0
  have hl : ∀ is : List Nat, x.modLanes is (putLane b (ex.map fun l => (l, ({} : Out)))) = x := by
    intro is
    have : modAll x.lanes is (putLane b (ex.map fun l => (l, ({} : Out)))) = x.lanes := by
      apply List.ext_getElem?
      intro j
      rw [getElem?_modAll]
      have e (l : Nat) (ln : Lane) : putLane b (ex.map fun l => (l, ({} : Out))) l ln = ln := by
        unfold putLane
        split
        · rename_i o ho
          obtain ⟨q, _, rfl⟩ := List.mem_map.1 (List.mem_of_find?_eq_some ho)
          rfl
        · rfl
      cases x.lanes[j]? with
      | none => rfl
      | some v => rw [Option.map_some, e, ite_self]
    unfold Band.modLanes; rw [this]
  have hr : regsOf (ex.map fun l => (l, ({} : Out))) = [] := by
    unfold regsOf
    rw [List.flatMap_map]
    induction ex with
    | nil => rfl
    | cons a ex ih => rw [List.flatMap_cons]; simp
  unfold Band.put
  rw [hu, hc, hl, hr]
  simp [Band.raise, orConds, Band.unlatch]

theorem Iss.putOuts_empty (y : Iss) : y.putOuts (y.ex.map fun l => (l, {})) = y.base := by
  unfold Iss.putOuts Iss.base
  rw [Band.put_empty]
  congr 1
  unfold Block.signOuts
  split
  · rfl
  · have e : ∀ (ex : List Nat) (b : Block), ((ex.map fun l => (l, ({} : Out))).foldl
        (fun b o => b.signLane y.n o.1 (o.2.v.filter fun w => !b.isPort w.1)) b) = b := by
      intro ex
      induction ex with
      | nil => intro b; rfl
      | cons a ex ih => intro b; rw [List.map_cons, List.foldl_cons]; exact ih b
    rw [e]
    have hu : uniOuts (y.ex.map fun l => (l, ({} : Out))) = [] := by
      unfold uniOuts
      have : (y.ex.map fun l => (l, ({} : Out))).find? (fun o => !o.2.u.isEmpty) = none := by
        simp [List.find?_eq_none]
      rw [this]
    rw [hu]; rfl

/-- Completing an issue without an effect of its own. -/
theorem Iss.wrote_base {i : Instr} {s : State} {y : Iss} (h : Issues i s y) (jumps : List (Nat × DWord)) :
    y.Wrote (y.finish y.base i jumps) (fun _ => {}) (y.goOn i jumps) := by
  have := y.wrote_finish h (fun _ => {}) jumps
  rwa [y.putOuts_empty] at this

/-- An instruction that computes on each lane and pushes to no port writes what its function gives. -/
theorem runAlu_wrote {i : Instr} {s : State} {y : Iss} (h : Issues i s y) (hp : pushPort y.b i = none) (f : Env → Out) :
    ∃ t, runAlu i s f = .next t ∧ y.Wrote t (fun l => f (y.env l)) (y.inLine i) := by
  refine ⟨_, run_next h _, ?_⟩
  have : y.commit i (y.ex.map fun l => (l, f (y.env l))) =
      y.finish (y.putOuts (y.ex.map fun l => (l, f (y.env l)))) i [] := by unfold Iss.commit; rw [hp]
  rw [this]
  exact y.wrote_finish h (fun l => f (y.env l)) []

/-- The same for an instruction whose results depend on all its executing lanes. -/
theorem runBand_wrote {i : Instr} {s : State} {y : Iss} (h : Issues i s y) (hp : pushPort y.b i = none) (g : Iss → Nat → Out) :
    ∃ t, runBand i s (fun y => y.ex.map fun l => (l, g y l)) = .next t ∧ y.Wrote t (g y) (y.inLine i) := by
  refine ⟨_, run_next h _, ?_⟩
  have : y.commit i (y.ex.map fun l => (l, g y l)) = y.finish (y.putOuts (y.ex.map fun l => (l, g y l))) i [] := by
    unfold Iss.commit; rw [hp]
  rw [this]
  exact y.wrote_finish h (g y) []

/-! ### Completion over an effect of its own -/

theorem Band.complete_same (x : Band) (b : Block) (g : Word) (i : Instr) (h : Hdr) (act ex : List Nat) (slow : Bool)
    (next : Nat → DWord) : ∃ p s l c d, x.complete b g i h act ex slow next =
      { x with lanes := (x.complete b g i h act ex slow next).lanes, pcnt := p, sched := s, latch := l, ilcnt := c
               ilk := false, hold := none, stallSkip := false, readyAge := 0, boosted := none, issues := x.issues + 1
               halted := d, stepping := false } := by
  cases hp : g.getLsbD 3 <;> unfold Band.complete Band.count <;> rw [hp] <;> exact ⟨_, _, _, _, _, rfl⟩

theorem Iss.finish_goes (y : Iss) {u : State} {i : Instr} {h : Hdr} {b : Block} {x : Band} (jumps : List (Nat × DWord))
    (hi : i.hdr? = some h) (hb : u.blk y.k = some b) (hx : b.band y.n = some x) (hl : ∀ l ∈ y.act, l < x.lanes.length) :
    y.Goes u (y.finish u i jumps) (y.goOn i jumps) := by
  obtain ⟨⟨st, b', e1, e2, _, ⟨dg, h', _, e4⟩, e5⟩, hbs, hsh⟩ := y.finished jumps hi hb hx
  refine ⟨hsh, hbs, b, b', x, _, hb, e1, by rw [e2], e5, hx, e4, fun l => ?_, ?_⟩
  · by_cases hlt : l < x.lanes.length
    · rw [Band.complete_lane _ _ _ _ _ _ _ _ _ hlt]
      split <;> rfl
    · have : ¬ y.act.contains l = true := fun c => hlt (hl l (by simpa using c))
      rw [if_neg this]
      unfold Band.lane
      rw [List.getD_eq_getElem?_getD, List.getD_eq_getElem?_getD,
        List.getElem?_eq_none (by rw [Band.complete_length]; omega), List.getElem?_eq_none (by omega)]
  · obtain ⟨p, s, l, c, d, e⟩ := Band.complete_same x b dg i h' y.act y.ex y.slow (y.goOn i jumps)
    rw [e]

/-- An issue over its own band passes with no effect of its own. -/
theorem Iss.base_goes {i : Instr} {s : State} {y : Iss} (h : Issues i s y) (jumps : List (Nat × DWord)) :
    y.Goes y.base (y.finish y.base i jumps) (y.goOn i jumps) := by
  have g := y.good h
  obtain ⟨hd, hi⟩ := y.hdr h
  obtain ⟨x₀, hx₀, hl₀⟩ := g.band
  refine y.finish_goes jumps hi (b := y.b.setBand y.n y.x) (x := y.x) (by unfold Iss.base; simp [State.blk_setBlk]) ?_ g.lt
  rw [Block.band_setBand _ _ _ hx₀, if_pos rfl]

end Sys2Proof.Machine
end

