-- ==== Sys2Proof/Laws/Memory.lean ====
section
/-! SUPPORT. Every operation that writes the memory of a state keeps its canonical form. -/

namespace Sys2Proof.Machine

open Sys2Proof

/-- Leaving entries out keeps the form. -/
theorem Memory.wf_filter {m : Memory} (h : Memory.wf m = true) (p : Nat × Byte → Bool) : Memory.wf (m.filter p) = true := by
  induction m with
  | nil => rfl
  | cons q t ih =>
    obtain ⟨hk, hz⟩ := (Memory.wf_iff _).1 h
    obtain ⟨hb, ht⟩ := (keysRise_cons q t).1 hk
    have hw : Memory.wf t = true := (Memory.wf_iff _).2 ⟨ht, fun r hr => hz r (List.mem_cons_of_mem q hr)⟩
    have hw' := (Memory.wf_iff _).1 (ih hw)
    rw [List.filter_cons]
    split
    · refine (Memory.wf_iff _).2 ⟨(keysRise_cons q _).2 ⟨fun r hr => hb r (List.mem_filter.1 hr).1, hw'.1⟩, ?_⟩
      intro r hr
      rcases List.mem_cons.1 hr with rfl | hr
      · exact hz _ List.mem_cons_self
      · exact hw'.2 r hr
    · exact ih hw

/-- Writing listed bytes keeps the form. -/
theorem Memory.wf_foldl {α : Type} (l : List α) (a : α → Nat) (v : α → Byte) {m : Memory} (h : Memory.wf m = true) :
    Memory.wf (l.foldl (fun m p => mset m (a p) (v p)) m) = true := by
  induction l generalizing m with
  | nil => exact h
  | cons p t ih => exact ih (Memory.wf_mset h _ _)

theorem State.wf_rekey {s : State} (h : Memory.wf s.mem = true) (kid n : Nat) : Memory.wf (s.rekey kid n).mem = true :=
  Memory.wf_mwrite h _ _

theorem State.wf_underKey {s : State} (h : Memory.wf s.mem = true) (kid pa : Nat) :
    Memory.wf (s.underKey kid pa).mem = true := by
  unfold State.underKey
  repeat' split
  all_goals first
    | exact h
    | exact State.wf_rekey h _ _

theorem State.wf_pokeByte {s : State} (h : Memory.wf s.mem = true) (kid pa w a : Nat) (v : Byte) :
    Memory.wf (s.pokeByte kid pa w a v).mem = true := by
  unfold State.pokeByte
  split
  · exact h
  · exact Memory.wf_mset (State.wf_underKey h kid pa) _ _

theorem State.wf_pokeBytes {s : State} (h : Memory.wf s.mem = true) (kid pa w a : Nat) (bs : List Byte) :
    Memory.wf (s.pokeBytes kid pa w a bs).mem = true := by
  induction bs generalizing s pa with
  | nil => exact h
  | cons b t ih => exact ih (State.wf_pokeByte h kid pa w a b) (pa + 1)

theorem State.mem_noteDirty (s : State) (kid pa : Nat) : (s.noteDirty kid pa).mem = s.mem := by
  unfold State.noteDirty
  dsimp only
  repeat' (first | rfl | split)

theorem State.wf_poke {s : State} (h : Memory.wf s.mem = true) (kid pa w a : Nat) (bs : List Byte) :
    Memory.wf (s.poke kid pa w a bs).mem = true := by
  show Memory.wf ((s.pokeBytes kid pa w a bs).noteDirty kid pa).mem = true
  rw [State.mem_noteDirty]
  exact State.wf_pokeBytes h kid pa w a bs

/-- A fold of steps that leave memory alone leaves it alone. -/
theorem State.mem_foldl {α : Type} (f : State → α → State) (h : ∀ s a, (f s a).mem = s.mem) (l : List α) (s : State) :
    (l.foldl f s).mem = s.mem := by
  induction l generalizing s with
  | nil => rfl
  | cons a l ih => rw [List.foldl_cons, ih, h]

theorem State.mem_markWrite (s : State) (a : Nat) (r : StackReq) : (s.markWrite a r).mem = s.mem := by
  unfold State.markWrite
  refine State.mem_foldl _ (fun s j => ?_) _ _
  dsimp only
  split <;> rfl

theorem State.mem_writeUnit (s : State) (a kid : Nat) (mask : BitVec 64) (data : List Byte) (f : StackFor) :
    (s.writeUnit a kid mask data f).mem = s.mem := State.mem_markWrite s a _

theorem State.mem_maskedUnit (s : State) (work : StackFor) (kid pa : Nat) (bs : List Byte) :
    (s.maskedUnit work kid pa bs).mem = s.mem := by
  unfold State.maskedUnit
  dsimp only
  repeat' split
  all_goals first
    | rfl
    | exact State.mem_markWrite ..

theorem State.mem_maskedWrite (s : State) (work : StackFor) (kid pa : Nat) (bs : List Byte) :
    (s.maskedWrite work kid pa bs).mem = s.mem := by
  unfold State.maskedWrite
  exact State.mem_foldl _ (fun s j => State.mem_maskedUnit ..) _ _

theorem State.mem_ownedBack (s : State) (work : StackFor) (line : Nat) (mask : BitVec 128) :
    (s.ownedBack work line mask).mem = s.mem := by
  unfold State.ownedBack
  split
  · rfl
  · refine State.mem_foldl _ (fun s j => ?_) _ _
    dsimp only
    split
    · rfl
    · exact State.mem_writeUnit ..

theorem State.mem_recallNow (s : State) (l lid : Nat) : (s.recallNow l lid).mem = s.mem := by
  unfold State.recallNow
  generalize hs : (if s.hostHeld.contains l then _ else s : State) = t
  have e : t.mem = s.mem := by subst hs; split <;> rfl
  dsimp only
  split
  · exact e
  · show (State.ownedBack _ _ _ _).mem = _
    rw [State.mem_ownedBack]
    exact e

theorem State.wf_homeStore {s : State} (h : Memory.wf s.mem = true) (kid pa : Nat) (bs : List Byte) (lid : Nat) :
    Memory.wf (s.homeStore kid pa bs lid).1.mem = true :=
  State.wf_poke (by rw [State.mem_recallNow]; exact h) kid pa _ _ bs

theorem State.mem_askHomes (s : State) (src : Router) (lid : Nat) (blk : Option (Nat × Nat)) (id : Nat) (as : List LineAsk) :
    (s.askHomes src lid blk id as).mem = s.mem := by
  unfold State.askHomes
  refine State.mem_foldl _ ?_ as s
  exact fun _ _ => rfl

theorem State.wf_devicePut {s : State} (h : Memory.wf s.mem = true) (pa : Nat) (bs : List Byte) (kid : Nat) :
    Memory.wf (s.devicePut pa bs kid).mem = true := by
  unfold State.devicePut
  split
  · rw [State.mem_maskedWrite]
    exact State.wf_homeStore (by unfold State.deviceAsk; rw [State.mem_askHomes]; exact h) _ _ _ _
  · exact h

/-- A fold of steps that keep the form keeps it. -/
theorem State.wf_foldl {α : Type} (f : State → α → State) (hf : ∀ s a, Memory.wf s.mem = true → Memory.wf (f s a).mem = true)
    (l : List α) {s : State} (h : Memory.wf s.mem = true) : Memory.wf (l.foldl f s).mem = true := by
  induction l generalizing s with
  | nil => exact h
  | cons a l ih => exact ih (hf s a h)

theorem State.wf_putLines {s : State} (h : Memory.wf s.mem = true) (kid pa : Nat) (bs : List Byte) :
    Memory.wf (s.putLines kid pa bs).mem = true := State.wf_foldl _ (fun _ _ h => State.wf_devicePut h _ _ _) _ h

theorem State.mem_flog (s : State) (f : Nat) (rec : List Byte) : (s.flog f rec).mem = s.mem := by
  unfold State.flog
  dsimp only
  repeat' (first | rfl | split)

theorem State.wf_bootBytes {s : State} (h : Memory.wf s.mem = true) (a : Nat) (bs : List Byte) :
    Memory.wf (s.bootBytes a bs).mem = true := Memory.wf_mwrite h a bs

theorem State.wf_putRange {s : State} (h : Memory.wf s.mem = true) (a n : Nat) (bs : List (Nat × Byte)) :
    Memory.wf (s.putRange a n bs).mem = true := by
  unfold State.putRange
  refine State.wf_foldl _ (fun _ _ h => State.wf_devicePut h _ _ _) _ ?_
  exact State.wf_foldl _ (fun _ _ h => State.wf_devicePut h _ _ _) _ h

theorem State.wf_ckpLoad {s : State} (h : Memory.wf s.mem = true) (i : SafeImage) (failed : Bool) :
    Memory.wf (s.ckpLoad i failed).mem = true :=
  Memory.wf_foldl (α := Nat × Byte) _ (fun p => p.1) (fun p => p.2) (Memory.wf_filter h _)

/-- The memory of the machine right after reset has the canonical form. -/
theorem State.wf_reset : Memory.wf State.reset.mem = true := rfl

end Sys2Proof.Machine
end

