-- ==== Sys2Proof/Laws/PerInstr.lean ====
section
/-! SUPPORT. The decoder reads every encoded instruction back, constructor by constructor. -/

set_option Elab.async false
set_option linter.unusedSimpArgs false

namespace Sys2Proof.Laws

open Sys2Proof

/-- A well-formed program instruction decodes from its own word; a device event has no word. -/
def RoundTrip.Statement (i : Instr) : Prop := i.isProgram = true → i.wf = true → decode (encode i) = .ok i

theorem RoundTrip.iadd (h : Hdr) (o : Int2) : RoundTrip.Statement (.iadd h o) := by
  intro _ w
  rw [decode_encode_eq _ 0x000 h rfl rfl (by decide) w]
  simp (disch := omega) [decodeGroup, decodeG0, encodeRaw, Instr.opc?, Instr.hdr?, Instr.body, eInt2, m54, Raw.int2, -Nat.reduceAdd, -BitVec.getLsbD_eq_getElem]

theorem RoundTrip.isub (h : Hdr) (o : Int2) : RoundTrip.Statement (.isub h o) := by
  intro _ w
  rw [decode_encode_eq _ 0x001 h rfl rfl (by decide) w]
  simp (disch := omega) [decodeGroup, decodeG0, encodeRaw, Instr.opc?, Instr.hdr?, Instr.body, eInt2, m54, Raw.int2, -Nat.reduceAdd, -BitVec.getLsbD_eq_getElem]

theorem RoundTrip.imul (h : Hdr) (o : Int2) : RoundTrip.Statement (.imul h o) := by
  intro _ w
  rw [decode_encode_eq _ 0x002 h rfl rfl (by decide) w]
  simp (disch := omega) [decodeGroup, decodeG0, encodeRaw, Instr.opc?, Instr.hdr?, Instr.body, eInt2, m54, Raw.int2, -Nat.reduceAdd, -BitVec.getLsbD_eq_getElem]

theorem RoundTrip.imulh (h : Hdr) (o : Int2) : RoundTrip.Statement (.imulh h o) := by
  intro _ w
  rw [decode_encode_eq _ 0x003 h rfl rfl (by decide) w]
  have b : Instr.bodyOk _ = true := (Bool.and_eq_true_iff.mp w).1
  simp only [Instr.bodyOk] at b
  simp (disch := omega) [decodeGroup, decodeG0, encodeRaw, Instr.opc?, Instr.hdr?, Instr.body, eInt2, m54, Raw.int2, b, -Nat.reduceAdd, -BitVec.getLsbD_eq_getElem]

theorem RoundTrip.ineg (h : Hdr) (o : Int1) : RoundTrip.Statement (.ineg h o) := by
  intro _ w
  rw [decode_encode_eq _ 0x004 h rfl rfl (by decide) w]
  simp (disch := omega) [decodeGroup, decodeG0, encodeRaw, Instr.opc?, Instr.hdr?, Instr.body, eInt1, m54, Raw.int1, -Nat.reduceAdd, -BitVec.getLsbD_eq_getElem]

theorem RoundTrip.iabs (h : Hdr) (o : Int1) : RoundTrip.Statement (.iabs h o) := by
  intro _ w
  rw [decode_encode_eq _ 0x005 h rfl rfl (by decide) w]
  have b : Instr.bodyOk _ = true := (Bool.and_eq_true_iff.mp w).1
  simp only [Instr.bodyOk] at b
  simp (disch := omega) [decodeGroup, decodeG0, encodeRaw, Instr.opc?, Instr.hdr?, Instr.body, eInt1, m54, Raw.int1, b, -Nat.reduceAdd, -BitVec.getLsbD_eq_getElem]

theorem RoundTrip.imin (h : Hdr) (o : Int2) : RoundTrip.Statement (.imin h o) := by
  intro _ w
  rw [decode_encode_eq _ 0x006 h rfl rfl (by decide) w]
  simp (disch := omega) [decodeGroup, decodeG0, encodeRaw, Instr.opc?, Instr.hdr?, Instr.body, eInt2, m54, Raw.int2, -Nat.reduceAdd, -BitVec.getLsbD_eq_getElem]

theorem RoundTrip.imax (h : Hdr) (o : Int2) : RoundTrip.Statement (.imax h o) := by
  intro _ w
  rw [decode_encode_eq _ 0x007 h rfl rfl (by decide) w]
  simp (disch := omega) [decodeGroup, decodeG0, encodeRaw, Instr.opc?, Instr.hdr?, Instr.body, eInt2, m54, Raw.int2, -Nat.reduceAdd, -BitVec.getLsbD_eq_getElem]

theorem RoundTrip.iaddsat (h : Hdr) (o : Int2) : RoundTrip.Statement (.iaddsat h o) := by
  intro _ w
  rw [decode_encode_eq _ 0x008 h rfl rfl (by decide) w]
  simp (disch := omega) [decodeGroup, decodeG0, encodeRaw, Instr.opc?, Instr.hdr?, Instr.body, eInt2, m54, Raw.int2, -Nat.reduceAdd, -BitVec.getLsbD_eq_getElem]

theorem RoundTrip.isubsat (h : Hdr) (o : Int2) : RoundTrip.Statement (.isubsat h o) := by
  intro _ w
  rw [decode_encode_eq _ 0x009 h rfl rfl (by decide) w]
  simp (disch := omega) [decodeGroup, decodeG0, encodeRaw, Instr.opc?, Instr.hdr?, Instr.body, eInt2, m54, Raw.int2, -Nat.reduceAdd, -BitVec.getLsbD_eq_getElem]

theorem RoundTrip.icmp (h : Hdr) (o : Cmp2) : RoundTrip.Statement (.icmp h o) := by
  intro _ w
  rw [decode_encode_eq _ 0x00A h rfl rfl (by decide) w]
  simp (disch := omega) [decodeGroup, decodeG0, encodeRaw, Instr.opc?, Instr.hdr?, Instr.body, -Nat.reduceAdd, -BitVec.getLsbD_eq_getElem]

theorem RoundTrip.idiv (h : Hdr) (o : Int2) : RoundTrip.Statement (.idiv h o) := by
  intro _ w
  rw [decode_encode_eq _ 0x00B h rfl rfl (by decide) w]
  simp (disch := omega) [decodeGroup, decodeG0, encodeRaw, Instr.opc?, Instr.hdr?, Instr.body, eInt2, m54, Raw.int2, -Nat.reduceAdd, -BitVec.getLsbD_eq_getElem]

theorem RoundTrip.irem (h : Hdr) (o : Int2) : RoundTrip.Statement (.irem h o) := by
  intro _ w
  rw [decode_encode_eq _ 0x00C h rfl rfl (by decide) w]
  simp (disch := omega) [decodeGroup, decodeG0, encodeRaw, Instr.opc?, Instr.hdr?, Instr.body, eInt2, m54, Raw.int2, -Nat.reduceAdd, -BitVec.getLsbD_eq_getElem]

theorem RoundTrip.imad (h : Hdr) (o : Int3) : RoundTrip.Statement (.imad h o) := by
  intro _ w
  rw [decode_encode_eq _ 0x020 h rfl rfl (by decide) w]
  have b : Instr.bodyOk _ = true := (Bool.and_eq_true_iff.mp w).1
  simp only [Instr.bodyOk] at b
  simp (disch := omega) [decodeGroup, decodeG0, encodeRaw, Instr.opc?, Instr.hdr?, Instr.body, eInt3, m54, Raw.int3, b, -Nat.reduceAdd, -BitVec.getLsbD_eq_getElem]

theorem RoundTrip.imadw (h : Hdr) (o : Int3) : RoundTrip.Statement (.imadw h o) := by
  intro _ w
  rw [decode_encode_eq _ 0x021 h rfl rfl (by decide) w]
  have b : Instr.bodyOk _ = true := (Bool.and_eq_true_iff.mp w).1
  simp only [Instr.bodyOk] at b
  simp (disch := omega) [decodeGroup, decodeG0, encodeRaw, Instr.opc?, Instr.hdr?, Instr.body, eInt3, m54, Raw.int3, b, -Nat.reduceAdd, -BitVec.getLsbD_eq_getElem]

theorem RoundTrip.iclamp (h : Hdr) (o : Int3) : RoundTrip.Statement (.iclamp h o) := by
  intro _ w
  rw [decode_encode_eq _ 0x022 h rfl rfl (by decide) w]
  simp (disch := omega) [decodeGroup, decodeG0, encodeRaw, Instr.opc?, Instr.hdr?, Instr.body, eInt3, m54, Raw.int3, -Nat.reduceAdd, -BitVec.getLsbD_eq_getElem]

theorem RoundTrip.iaddImm (h : Hdr) (o : IntI) : RoundTrip.Statement (.iaddImm h o) := by
  intro _ w
  rw [decode_encode_eq _ 0x028 h rfl rfl (by decide) w]
  simp (disch := omega) [decodeGroup, decodeG0, encodeRaw, Instr.opc?, Instr.hdr?, Instr.body, eIntI, m54, Raw.intI, -Nat.reduceAdd, -BitVec.getLsbD_eq_getElem]

theorem RoundTrip.isubImm (h : Hdr) (o : IntI) : RoundTrip.Statement (.isubImm h o) := by
  intro _ w
  rw [decode_encode_eq _ 0x029 h rfl rfl (by decide) w]
  simp (disch := omega) [decodeGroup, decodeG0, encodeRaw, Instr.opc?, Instr.hdr?, Instr.body, eIntI, m54, Raw.intI, -Nat.reduceAdd, -BitVec.getLsbD_eq_getElem]

theorem RoundTrip.imulImm (h : Hdr) (o : IntI) : RoundTrip.Statement (.imulImm h o) := by
  intro _ w
  rw [decode_encode_eq _ 0x02A h rfl rfl (by decide) w]
  simp (disch := omega) [decodeGroup, decodeG0, encodeRaw, Instr.opc?, Instr.hdr?, Instr.body, eIntI, m54, Raw.intI, -Nat.reduceAdd, -BitVec.getLsbD_eq_getElem]

theorem RoundTrip.iminImm (h : Hdr) (o : IntI) : RoundTrip.Statement (.iminImm h o) := by
  intro _ w
  rw [decode_encode_eq _ 0x02B h rfl rfl (by decide) w]
  simp (disch := omega) [decodeGroup, decodeG0, encodeRaw, Instr.opc?, Instr.hdr?, Instr.body, eIntI, m54, Raw.intI, -Nat.reduceAdd, -BitVec.getLsbD_eq_getElem]

theorem RoundTrip.imaxImm (h : Hdr) (o : IntI) : RoundTrip.Statement (.imaxImm h o) := by
  intro _ w
  rw [decode_encode_eq _ 0x02C h rfl rfl (by decide) w]
  simp (disch := omega) [decodeGroup, decodeG0, encodeRaw, Instr.opc?, Instr.hdr?, Instr.body, eIntI, m54, Raw.intI, -Nat.reduceAdd, -BitVec.getLsbD_eq_getElem]

theorem RoundTrip.icmpImm (h : Hdr) (o : CmpI) : RoundTrip.Statement (.icmpImm h o) := by
  intro _ w
  rw [decode_encode_eq _ 0x02D h rfl rfl (by decide) w]
  simp (disch := omega) [decodeGroup, decodeG0, encodeRaw, Instr.opc?, Instr.hdr?, Instr.body, -Nat.reduceAdd, -BitVec.getLsbD_eq_getElem]

theorem RoundTrip.idivImm (h : Hdr) (o : IntI) : RoundTrip.Statement (.idivImm h o) := by
  intro _ w
  rw [decode_encode_eq _ 0x02E h rfl rfl (by decide) w]
  simp (disch := omega) [decodeGroup, decodeG0, encodeRaw, Instr.opc?, Instr.hdr?, Instr.body, eIntI, m54, Raw.intI, -Nat.reduceAdd, -BitVec.getLsbD_eq_getElem]

theorem RoundTrip.iremImm (h : Hdr) (o : IntI) : RoundTrip.Statement (.iremImm h o) := by
  intro _ w
  rw [decode_encode_eq _ 0x02F h rfl rfl (by decide) w]
  simp (disch := omega) [decodeGroup, decodeG0, encodeRaw, Instr.opc?, Instr.hdr?, Instr.body, eIntI, m54, Raw.intI, -Nat.reduceAdd, -BitVec.getLsbD_eq_getElem]

theorem RoundTrip.and (h : Hdr) (o : Log2) : RoundTrip.Statement (.and h o) := by
  intro _ w
  rw [decode_encode_eq _ 0x040 h rfl rfl (by decide) w]
  simp (disch := omega) [decodeGroup, decodeG1, encodeRaw, Instr.opc?, Instr.hdr?, Instr.body, eLog2, m54, Raw.log2, -Nat.reduceAdd, -BitVec.getLsbD_eq_getElem]

theorem RoundTrip.or (h : Hdr) (o : Log2) : RoundTrip.Statement (.or h o) := by
  intro _ w
  rw [decode_encode_eq _ 0x041 h rfl rfl (by decide) w]
  simp (disch := omega) [decodeGroup, decodeG1, encodeRaw, Instr.opc?, Instr.hdr?, Instr.body, eLog2, m54, Raw.log2, -Nat.reduceAdd, -BitVec.getLsbD_eq_getElem]

theorem RoundTrip.xor (h : Hdr) (o : Log2) : RoundTrip.Statement (.xor h o) := by
  intro _ w
  rw [decode_encode_eq _ 0x042 h rfl rfl (by decide) w]
  simp (disch := omega) [decodeGroup, decodeG1, encodeRaw, Instr.opc?, Instr.hdr?, Instr.body, eLog2, m54, Raw.log2, -Nat.reduceAdd, -BitVec.getLsbD_eq_getElem]

theorem RoundTrip.andn (h : Hdr) (o : Log2) : RoundTrip.Statement (.andn h o) := by
  intro _ w
  rw [decode_encode_eq _ 0x043 h rfl rfl (by decide) w]
  simp (disch := omega) [decodeGroup, decodeG1, encodeRaw, Instr.opc?, Instr.hdr?, Instr.body, eLog2, m54, Raw.log2, -Nat.reduceAdd, -BitVec.getLsbD_eq_getElem]

theorem RoundTrip.not (h : Hdr) (o : Log1) : RoundTrip.Statement (.not h o) := by
  intro _ w
  rw [decode_encode_eq _ 0x044 h rfl rfl (by decide) w]
  simp (disch := omega) [decodeGroup, decodeG1, encodeRaw, Instr.opc?, Instr.hdr?, Instr.body, m54, Raw.log1, -Nat.reduceAdd, -BitVec.getLsbD_eq_getElem]

theorem RoundTrip.shl (h : Hdr) (o : Log2) : RoundTrip.Statement (.shl h o) := by
  intro _ w
  rw [decode_encode_eq _ 0x045 h rfl rfl (by decide) w]
  simp (disch := omega) [decodeGroup, decodeG1, encodeRaw, Instr.opc?, Instr.hdr?, Instr.body, eLog2, m54, Raw.log2, -Nat.reduceAdd, -BitVec.getLsbD_eq_getElem]

theorem RoundTrip.shr (h : Hdr) (o : Log2) : RoundTrip.Statement (.shr h o) := by
  intro _ w
  rw [decode_encode_eq _ 0x046 h rfl rfl (by decide) w]
  simp (disch := omega) [decodeGroup, decodeG1, encodeRaw, Instr.opc?, Instr.hdr?, Instr.body, eLog2, m54, Raw.log2, -Nat.reduceAdd, -BitVec.getLsbD_eq_getElem]

theorem RoundTrip.sar (h : Hdr) (o : Log2) : RoundTrip.Statement (.sar h o) := by
  intro _ w
  rw [decode_encode_eq _ 0x047 h rfl rfl (by decide) w]
  simp (disch := omega) [decodeGroup, decodeG1, encodeRaw, Instr.opc?, Instr.hdr?, Instr.body, eLog2, m54, Raw.log2, -Nat.reduceAdd, -BitVec.getLsbD_eq_getElem]

theorem RoundTrip.rol (h : Hdr) (o : Log2) : RoundTrip.Statement (.rol h o) := by
  intro _ w
  rw [decode_encode_eq _ 0x048 h rfl rfl (by decide) w]
  simp (disch := omega) [decodeGroup, decodeG1, encodeRaw, Instr.opc?, Instr.hdr?, Instr.body, eLog2, m54, Raw.log2, -Nat.reduceAdd, -BitVec.getLsbD_eq_getElem]

theorem RoundTrip.ror (h : Hdr) (o : Log2) : RoundTrip.Statement (.ror h o) := by
  intro _ w
  rw [decode_encode_eq _ 0x049 h rfl rfl (by decide) w]
  simp (disch := omega) [decodeGroup, decodeG1, encodeRaw, Instr.opc?, Instr.hdr?, Instr.body, eLog2, m54, Raw.log2, -Nat.reduceAdd, -BitVec.getLsbD_eq_getElem]

theorem RoundTrip.popc (h : Hdr) (o : Log1) : RoundTrip.Statement (.popc h o) := by
  intro _ w
  rw [decode_encode_eq _ 0x04A h rfl rfl (by decide) w]
  simp (disch := omega) [decodeGroup, decodeG1, encodeRaw, Instr.opc?, Instr.hdr?, Instr.body, m54, Raw.log1, -Nat.reduceAdd, -BitVec.getLsbD_eq_getElem]

theorem RoundTrip.clz (h : Hdr) (o : Log1) : RoundTrip.Statement (.clz h o) := by
  intro _ w
  rw [decode_encode_eq _ 0x04B h rfl rfl (by decide) w]
  simp (disch := omega) [decodeGroup, decodeG1, encodeRaw, Instr.opc?, Instr.hdr?, Instr.body, m54, Raw.log1, -Nat.reduceAdd, -BitVec.getLsbD_eq_getElem]

theorem RoundTrip.ctz (h : Hdr) (o : Log1) : RoundTrip.Statement (.ctz h o) := by
  intro _ w
  rw [decode_encode_eq _ 0x04C h rfl rfl (by decide) w]
  simp (disch := omega) [decodeGroup, decodeG1, encodeRaw, Instr.opc?, Instr.hdr?, Instr.body, m54, Raw.log1, -Nat.reduceAdd, -BitVec.getLsbD_eq_getElem]

theorem RoundTrip.brev (h : Hdr) (o : Log1) : RoundTrip.Statement (.brev h o) := by
  intro _ w
  rw [decode_encode_eq _ 0x04D h rfl rfl (by decide) w]
  simp (disch := omega) [decodeGroup, decodeG1, encodeRaw, Instr.opc?, Instr.hdr?, Instr.body, m54, Raw.log1, -Nat.reduceAdd, -BitVec.getLsbD_eq_getElem]

theorem RoundTrip.bperm (h : Hdr) (o : Bin) : RoundTrip.Statement (.bperm h o) := by
  intro _ w
  rw [decode_encode_eq _ 0x04E h rfl rfl (by decide) w]
  simp (disch := omega) [decodeGroup, decodeG1, encodeRaw, Instr.opc?, Instr.hdr?, Instr.body, m54, Raw.bin, -Nat.reduceAdd, -BitVec.getLsbD_eq_getElem]

theorem RoundTrip.clmulLo (h : Hdr) (o : Bin) : RoundTrip.Statement (.clmulLo h o) := by
  intro _ w
  rw [decode_encode_eq _ 0x04F h rfl rfl (by decide) w]
  simp (disch := omega) [decodeGroup, decodeG1, encodeRaw, Instr.opc?, Instr.hdr?, Instr.body, m54, Raw.bin, -Nat.reduceAdd, -BitVec.getLsbD_eq_getElem]

theorem RoundTrip.clmulHi (h : Hdr) (o : Bin) : RoundTrip.Statement (.clmulHi h o) := by
  intro _ w
  rw [decode_encode_eq _ 0x050 h rfl rfl (by decide) w]
  simp (disch := omega) [decodeGroup, decodeG1, encodeRaw, Instr.opc?, Instr.hdr?, Instr.body, m54, Raw.bin, -Nat.reduceAdd, -BitVec.getLsbD_eq_getElem]

theorem RoundTrip.lop3 (h : Hdr) (o : Lop3) : RoundTrip.Statement (.lop3 h o) := by
  intro _ w
  rw [decode_encode_eq _ 0x060 h rfl rfl (by decide) w]
  simp (disch := omega) [decodeGroup, decodeG1, encodeRaw, Instr.opc?, Instr.hdr?, Instr.body, m54, -Nat.reduceAdd, -BitVec.getLsbD_eq_getElem]

theorem RoundTrip.fsh (h : Hdr) (o : Fsh) : RoundTrip.Statement (.fsh h o) := by
  intro _ w
  rw [decode_encode_eq _ 0x061 h rfl rfl (by decide) w]
  simp (disch := omega) [decodeGroup, decodeG1, encodeRaw, Instr.opc?, Instr.hdr?, Instr.body, -Nat.reduceAdd, -BitVec.getLsbD_eq_getElem]

theorem RoundTrip.bfe (h : Hdr) (o : Bfe) : RoundTrip.Statement (.bfe h o) := by
  intro _ w
  rw [decode_encode_eq _ 0x062 h rfl rfl (by decide) w]
  have b : Instr.bodyOk _ = true := (Bool.and_eq_true_iff.mp w).1
  simp only [Instr.bodyOk] at b
  simp (disch := omega) [decodeGroup, decodeG1, encodeRaw, Instr.opc?, Instr.hdr?, Instr.body, m54, b, -Nat.reduceAdd, -BitVec.getLsbD_eq_getElem]

theorem RoundTrip.bfi (h : Hdr) (o : Bfi) : RoundTrip.Statement (.bfi h o) := by
  intro _ w
  rw [decode_encode_eq _ 0x063 h rfl rfl (by decide) w]
  have b : Instr.bodyOk _ = true := (Bool.and_eq_true_iff.mp w).1
  simp only [Instr.bodyOk] at b
  simp (disch := omega) [decodeGroup, decodeG1, encodeRaw, Instr.opc?, Instr.hdr?, Instr.body, m54, b, -Nat.reduceAdd, -BitVec.getLsbD_eq_getElem]

theorem RoundTrip.andImm (h : Hdr) (o : LogI) : RoundTrip.Statement (.andImm h o) := by
  intro _ w
  rw [decode_encode_eq _ 0x068 h rfl rfl (by decide) w]
  simp (disch := omega) [decodeGroup, decodeG1, encodeRaw, Instr.opc?, Instr.hdr?, Instr.body, eLogI, m54, Raw.logI, -Nat.reduceAdd, -BitVec.getLsbD_eq_getElem]

theorem RoundTrip.orImm (h : Hdr) (o : LogI) : RoundTrip.Statement (.orImm h o) := by
  intro _ w
  rw [decode_encode_eq _ 0x069 h rfl rfl (by decide) w]
  simp (disch := omega) [decodeGroup, decodeG1, encodeRaw, Instr.opc?, Instr.hdr?, Instr.body, eLogI, m54, Raw.logI, -Nat.reduceAdd, -BitVec.getLsbD_eq_getElem]

theorem RoundTrip.xorImm (h : Hdr) (o : LogI) : RoundTrip.Statement (.xorImm h o) := by
  intro _ w
  rw [decode_encode_eq _ 0x06A h rfl rfl (by decide) w]
  simp (disch := omega) [decodeGroup, decodeG1, encodeRaw, Instr.opc?, Instr.hdr?, Instr.body, eLogI, m54, Raw.logI, -Nat.reduceAdd, -BitVec.getLsbD_eq_getElem]

theorem RoundTrip.shlImm (h : Hdr) (o : LogI) : RoundTrip.Statement (.shlImm h o) := by
  intro _ w
  rw [decode_encode_eq _ 0x06B h rfl rfl (by decide) w]
  simp (disch := omega) [decodeGroup, decodeG1, encodeRaw, Instr.opc?, Instr.hdr?, Instr.body, eLogI, m54, Raw.logI, -Nat.reduceAdd, -BitVec.getLsbD_eq_getElem]

theorem RoundTrip.shrImm (h : Hdr) (o : LogI) : RoundTrip.Statement (.shrImm h o) := by
  intro _ w
  rw [decode_encode_eq _ 0x06C h rfl rfl (by decide) w]
  simp (disch := omega) [decodeGroup, decodeG1, encodeRaw, Instr.opc?, Instr.hdr?, Instr.body, eLogI, m54, Raw.logI, -Nat.reduceAdd, -BitVec.getLsbD_eq_getElem]

theorem RoundTrip.sarImm (h : Hdr) (o : LogI) : RoundTrip.Statement (.sarImm h o) := by
  intro _ w
  rw [decode_encode_eq _ 0x06D h rfl rfl (by decide) w]
  simp (disch := omega) [decodeGroup, decodeG1, encodeRaw, Instr.opc?, Instr.hdr?, Instr.body, eLogI, m54, Raw.logI, -Nat.reduceAdd, -BitVec.getLsbD_eq_getElem]

theorem RoundTrip.rolImm (h : Hdr) (o : LogI) : RoundTrip.Statement (.rolImm h o) := by
  intro _ w
  rw [decode_encode_eq _ 0x06E h rfl rfl (by decide) w]
  simp (disch := omega) [decodeGroup, decodeG1, encodeRaw, Instr.opc?, Instr.hdr?, Instr.body, eLogI, m54, Raw.logI, -Nat.reduceAdd, -BitVec.getLsbD_eq_getElem]

theorem RoundTrip.rorImm (h : Hdr) (o : LogI) : RoundTrip.Statement (.rorImm h o) := by
  intro _ w
  rw [decode_encode_eq _ 0x06F h rfl rfl (by decide) w]
  simp (disch := omega) [decodeGroup, decodeG1, encodeRaw, Instr.opc?, Instr.hdr?, Instr.body, eLogI, m54, Raw.logI, -Nat.reduceAdd, -BitVec.getLsbD_eq_getElem]

theorem RoundTrip.pand (h : Hdr) (o : PLog) : RoundTrip.Statement (.pand h o) := by
  intro _ w
  rw [decode_encode_eq _ 0x080 h rfl rfl (by decide) w]
  simp (disch := omega) [decodeGroup, decodeG2, encodeRaw, Instr.opc?, Instr.hdr?, Instr.body, Raw.plog, -Nat.reduceAdd, -BitVec.getLsbD_eq_getElem]

theorem RoundTrip.por (h : Hdr) (o : PLog) : RoundTrip.Statement (.por h o) := by
  intro _ w
  rw [decode_encode_eq _ 0x081 h rfl rfl (by decide) w]
  simp (disch := omega) [decodeGroup, decodeG2, encodeRaw, Instr.opc?, Instr.hdr?, Instr.body, Raw.plog, -Nat.reduceAdd, -BitVec.getLsbD_eq_getElem]

theorem RoundTrip.pxor (h : Hdr) (o : PLog) : RoundTrip.Statement (.pxor h o) := by
  intro _ w
  rw [decode_encode_eq _ 0x082 h rfl rfl (by decide) w]
  simp (disch := omega) [decodeGroup, decodeG2, encodeRaw, Instr.opc?, Instr.hdr?, Instr.body, Raw.plog, -Nat.reduceAdd, -BitVec.getLsbD_eq_getElem]

theorem RoundTrip.pnot (h : Hdr) (o : PNot) : RoundTrip.Statement (.pnot h o) := by
  intro _ w
  rw [decode_encode_eq _ 0x083 h rfl rfl (by decide) w]
  simp (disch := omega) [decodeGroup, decodeG2, encodeRaw, Instr.opc?, Instr.hdr?, Instr.body, -Nat.reduceAdd, -BitVec.getLsbD_eq_getElem]

theorem RoundTrip.p2v (h : Hdr) (d : BitVec 8) : RoundTrip.Statement (.p2v h d) := by
  intro _ w
  rw [decode_encode_eq _ 0x084 h rfl rfl (by decide) w]
  simp (disch := omega) [decodeGroup, decodeG2, encodeRaw, Instr.opc?, Instr.hdr?, Instr.body, -Nat.reduceAdd, -BitVec.getLsbD_eq_getElem]

theorem RoundTrip.v2p (h : Hdr) (o : V2p) : RoundTrip.Statement (.v2p h o) := by
  intro _ w
  rw [decode_encode_eq _ 0x085 h rfl rfl (by decide) w]
  simp (disch := omega) [decodeGroup, decodeG2, encodeRaw, Instr.opc?, Instr.hdr?, Instr.body, -Nat.reduceAdd, -BitVec.getLsbD_eq_getElem]

theorem RoundTrip.mov (h : Hdr) (o : Mov) : RoundTrip.Statement (.mov h o) := by
  intro _ w
  rw [decode_encode_eq _ 0x088 h rfl rfl (by decide) w]
  simp (disch := omega) [decodeGroup, decodeG2, encodeRaw, Instr.opc?, Instr.hdr?, Instr.body, -Nat.reduceAdd, -BitVec.getLsbD_eq_getElem]

theorem RoundTrip.movIndexedRead (h : Hdr) (o : MovRd) : RoundTrip.Statement (.movIndexedRead h o) := by
  intro _ w
  rw [decode_encode_eq _ 0x089 h rfl rfl (by decide) w]
  simp (disch := omega) [decodeGroup, decodeG2, encodeRaw, Instr.opc?, Instr.hdr?, Instr.body, -Nat.reduceAdd, -BitVec.getLsbD_eq_getElem]

theorem RoundTrip.movIndexedWrite (h : Hdr) (o : MovWr) : RoundTrip.Statement (.movIndexedWrite h o) := by
  intro _ w
  rw [decode_encode_eq _ 0x08A h rfl rfl (by decide) w]
  simp (disch := omega) [decodeGroup, decodeG2, encodeRaw, Instr.opc?, Instr.hdr?, Instr.body, -Nat.reduceAdd, -BitVec.getLsbD_eq_getElem]

theorem RoundTrip.isel (h : Hdr) (o : Isel) : RoundTrip.Statement (.isel h o) := by
  intro _ w
  rw [decode_encode_eq _ 0x08B h rfl rfl (by decide) w]
  simp (disch := omega) [decodeGroup, decodeG2, encodeRaw, Instr.opc?, Instr.hdr?, Instr.body, -Nat.reduceAdd, -BitVec.getLsbD_eq_getElem]

theorem RoundTrip.iselImm (h : Hdr) (o : IselI) : RoundTrip.Statement (.iselImm h o) := by
  intro _ w
  rw [decode_encode_eq _ 0x0A2 h rfl rfl (by decide) w]
  simp (disch := omega) [decodeGroup, decodeG2, encodeRaw, Instr.opc?, Instr.hdr?, Instr.body, -Nat.reduceAdd, -BitVec.getLsbD_eq_getElem]

theorem RoundTrip.movi (h : Hdr) (o : Movi) : RoundTrip.Statement (.movi h o) := by
  intro _ w
  rw [decode_encode_eq _ 0x0A0 h rfl rfl (by decide) w]
  simp (disch := omega) [decodeGroup, decodeG2, encodeRaw, Instr.opc?, Instr.hdr?, Instr.body, -Nat.reduceAdd, -BitVec.getLsbD_eq_getElem]

theorem RoundTrip.lea (h : Hdr) (o : Lea) : RoundTrip.Statement (.lea h o) := by
  intro _ w
  rw [decode_encode_eq _ 0x0A1 h rfl rfl (by decide) w]
  simp (disch := omega) [decodeGroup, decodeG2, encodeRaw, Instr.opc?, Instr.hdr?, Instr.body, m54, -Nat.reduceAdd, -BitVec.getLsbD_eq_getElem]

theorem RoundTrip.movw (h : Hdr) (o : Movw) : RoundTrip.Statement (.movw h o) := by
  intro _ w
  rw [decode_encode_eq _ 0x0B8 h rfl rfl (by decide) w]
  simp (disch := omega) [decodeGroup, decodeG2, encodeRaw, Instr.opc?, Instr.hdr?, Instr.body, -Nat.reduceAdd, -BitVec.getLsbD_eq_getElem]

theorem RoundTrip.nop64 (h : Hdr) : RoundTrip.Statement (.nop64 h) := by
  intro _ w
  rw [decode_encode_eq _ 0x0C0 h rfl rfl (by decide) w]
  simp (disch := omega) [decodeGroup, decodeG3, encodeRaw, Instr.opc?, Instr.hdr?, Instr.body, Raw.empty, Raw.onlyMod, -Nat.reduceAdd, -BitVec.getLsbD_eq_getElem]

theorem RoundTrip.exit (h : Hdr) : RoundTrip.Statement (.exit h) := by
  intro _ w
  rw [decode_encode_eq _ 0x0C1 h rfl rfl (by decide) w]
  simp (disch := omega) [decodeGroup, decodeG3, encodeRaw, Instr.opc?, Instr.hdr?, Instr.body, Raw.empty, Raw.onlyMod, -Nat.reduceAdd, -BitVec.getLsbD_eq_getElem]

theorem RoundTrip.ret (h : Hdr) (a : Src) : RoundTrip.Statement (.ret h a) := by
  intro _ w
  rw [decode_encode_eq _ 0x0C2 h rfl rfl (by decide) w]
  simp (disch := omega) [decodeGroup, decodeG3, encodeRaw, Instr.opc?, Instr.hdr?, Instr.body, -Nat.reduceAdd, -BitVec.getLsbD_eq_getElem]

theorem RoundTrip.yield (h : Hdr) : RoundTrip.Statement (.yield h) := by
  intro _ w
  rw [decode_encode_eq _ 0x0C3 h rfl rfl (by decide) w]
  simp (disch := omega) [decodeGroup, decodeG3, encodeRaw, Instr.opc?, Instr.hdr?, Instr.body, Raw.empty, Raw.onlyMod, -Nat.reduceAdd, -BitVec.getLsbD_eq_getElem]

theorem RoundTrip.brx (h : Hdr) (a : Src) : RoundTrip.Statement (.brx h a) := by
  intro _ w
  rw [decode_encode_eq _ 0x0C4 h rfl rfl (by decide) w]
  simp (disch := omega) [decodeGroup, decodeG3, encodeRaw, Instr.opc?, Instr.hdr?, Instr.body, -Nat.reduceAdd, -BitVec.getLsbD_eq_getElem]

theorem RoundTrip.nop96 (h : Hdr) : RoundTrip.Statement (.nop96 h) := by
  intro _ w
  rw [decode_encode_eq _ 0x0E0 h rfl rfl (by decide) w]
  simp (disch := omega) [decodeGroup, decodeG3, encodeRaw, Instr.opc?, Instr.hdr?, Instr.body, Raw.empty, Raw.onlyMod, -Nat.reduceAdd, -BitVec.getLsbD_eq_getElem]

theorem RoundTrip.bra (h : Hdr) (off : Word) : RoundTrip.Statement (.bra h off) := by
  intro _ w
  rw [decode_encode_eq _ 0x0E1 h rfl rfl (by decide) w]
  simp (disch := omega) [decodeGroup, decodeG3, encodeRaw, Instr.opc?, Instr.hdr?, Instr.body, Raw.empty, Raw.onlyMod, -Nat.reduceAdd, -BitVec.getLsbD_eq_getElem]

theorem RoundTrip.call (h : Hdr) (o : CallOp) : RoundTrip.Statement (.call h o) := by
  intro _ w
  rw [decode_encode_eq _ 0x0E2 h rfl rfl (by decide) w]
  simp (disch := omega) [decodeGroup, decodeG3, encodeRaw, Instr.opc?, Instr.hdr?, Instr.body, -Nat.reduceAdd, -BitVec.getLsbD_eq_getElem]

theorem RoundTrip.dbra (h : Hdr) (o : CallOp) : RoundTrip.Statement (.dbra h o) := by
  intro _ w
  rw [decode_encode_eq _ 0x0E3 h rfl rfl (by decide) w]
  simp (disch := omega) [decodeGroup, decodeG3, encodeRaw, Instr.opc?, Instr.hdr?, Instr.body, -Nat.reduceAdd, -BitVec.getLsbD_eq_getElem]

theorem RoundTrip.nop128 (h : Hdr) : RoundTrip.Statement (.nop128 h) := by
  intro _ w
  rw [decode_encode_eq _ 0x0F8 h rfl rfl (by decide) w]
  simp (disch := omega) [decodeGroup, decodeG3, encodeRaw, Instr.opc?, Instr.hdr?, Instr.body, Raw.empty, Raw.onlyMod, -Nat.reduceAdd, -BitVec.getLsbD_eq_getElem]

theorem RoundTrip.fadd (h : Hdr) (o : F2) : RoundTrip.Statement (.fadd h o) := by
  intro _ w
  rw [decode_encode_eq _ 0x100 h rfl rfl (by decide) w]
  simp (disch := omega) [decodeGroup, decodeG4, encodeRaw, Instr.opc?, Instr.hdr?, Instr.body, m148, Raw.f2op, -Nat.reduceAdd, -BitVec.getLsbD_eq_getElem]

theorem RoundTrip.fsub (h : Hdr) (o : F2) : RoundTrip.Statement (.fsub h o) := by
  intro _ w
  rw [decode_encode_eq _ 0x101 h rfl rfl (by decide) w]
  simp (disch := omega) [decodeGroup, decodeG4, encodeRaw, Instr.opc?, Instr.hdr?, Instr.body, m148, Raw.f2op, -Nat.reduceAdd, -BitVec.getLsbD_eq_getElem]

theorem RoundTrip.fmul (h : Hdr) (o : F2) : RoundTrip.Statement (.fmul h o) := by
  intro _ w
  rw [decode_encode_eq _ 0x102 h rfl rfl (by decide) w]
  simp (disch := omega) [decodeGroup, decodeG4, encodeRaw, Instr.opc?, Instr.hdr?, Instr.body, m148, Raw.f2op, -Nat.reduceAdd, -BitVec.getLsbD_eq_getElem]

theorem RoundTrip.fmin (h : Hdr) (o : FMm) : RoundTrip.Statement (.fmin h o) := by
  intro _ w
  rw [decode_encode_eq _ 0x103 h rfl rfl (by decide) w]
  simp (disch := omega) [decodeGroup, decodeG4, encodeRaw, Instr.opc?, Instr.hdr?, Instr.body, m148, Raw.fmm, Rnd.code, -Nat.reduceAdd, -BitVec.getLsbD_eq_getElem]

theorem RoundTrip.fmax (h : Hdr) (o : FMm) : RoundTrip.Statement (.fmax h o) := by
  intro _ w
  rw [decode_encode_eq _ 0x104 h rfl rfl (by decide) w]
  simp (disch := omega) [decodeGroup, decodeG4, encodeRaw, Instr.opc?, Instr.hdr?, Instr.body, m148, Raw.fmm, Rnd.code, -Nat.reduceAdd, -BitVec.getLsbD_eq_getElem]

theorem RoundTrip.fcmp (h : Hdr) (o : FCmp) : RoundTrip.Statement (.fcmp h o) := by
  intro _ w
  rw [decode_encode_eq _ 0x105 h rfl rfl (by decide) w]
  simp (disch := omega) [decodeGroup, decodeG4, encodeRaw, Instr.opc?, Instr.hdr?, Instr.body, Raw.fcm, -Nat.reduceAdd, -BitVec.getLsbD_eq_getElem]

theorem RoundTrip.fdiv (h : Hdr) (o : FDiv) : RoundTrip.Statement (.fdiv h o) := by
  intro _ w
  rw [decode_encode_eq _ 0x106 h rfl rfl (by decide) w]
  simp (disch := omega) [decodeGroup, decodeG4, encodeRaw, Instr.opc?, Instr.hdr?, Instr.body, m148, Raw.fdv, -Nat.reduceAdd, -BitVec.getLsbD_eq_getElem]

theorem RoundTrip.fsqrt (h : Hdr) (o : F1) : RoundTrip.Statement (.fsqrt h o) := by
  intro _ w
  rw [decode_encode_eq _ 0x107 h rfl rfl (by decide) w]
  simp (disch := omega) [decodeGroup, decodeG4, encodeRaw, Instr.opc?, Instr.hdr?, Instr.body, m148, Raw.f1, -Nat.reduceAdd, -BitVec.getLsbD_eq_getElem]

theorem RoundTrip.frcp (h : Hdr) (o : F1) : RoundTrip.Statement (.frcp h o) := by
  intro _ w
  rw [decode_encode_eq _ 0x108 h rfl rfl (by decide) w]
  simp (disch := omega) [decodeGroup, decodeG4, encodeRaw, Instr.opc?, Instr.hdr?, Instr.body, m148, Raw.f1, -Nat.reduceAdd, -BitVec.getLsbD_eq_getElem]

theorem RoundTrip.frsq (h : Hdr) (o : F1) : RoundTrip.Statement (.frsq h o) := by
  intro _ w
  rw [decode_encode_eq _ 0x109 h rfl rfl (by decide) w]
  simp (disch := omega) [decodeGroup, decodeG4, encodeRaw, Instr.opc?, Instr.hdr?, Instr.body, m148, Raw.f1, -Nat.reduceAdd, -BitVec.getLsbD_eq_getElem]

theorem RoundTrip.fexp2 (h : Hdr) (o : F1) : RoundTrip.Statement (.fexp2 h o) := by
  intro _ w
  rw [decode_encode_eq _ 0x10A h rfl rfl (by decide) w]
  simp (disch := omega) [decodeGroup, decodeG4, encodeRaw, Instr.opc?, Instr.hdr?, Instr.body, m148, Raw.f1, -Nat.reduceAdd, -BitVec.getLsbD_eq_getElem]

theorem RoundTrip.flog2 (h : Hdr) (o : F1) : RoundTrip.Statement (.flog2 h o) := by
  intro _ w
  rw [decode_encode_eq _ 0x10B h rfl rfl (by decide) w]
  simp (disch := omega) [decodeGroup, decodeG4, encodeRaw, Instr.opc?, Instr.hdr?, Instr.body, m148, Raw.f1, -Nat.reduceAdd, -BitVec.getLsbD_eq_getElem]

theorem RoundTrip.fsin (h : Hdr) (o : F1) : RoundTrip.Statement (.fsin h o) := by
  intro _ w
  rw [decode_encode_eq _ 0x10C h rfl rfl (by decide) w]
  simp (disch := omega) [decodeGroup, decodeG4, encodeRaw, Instr.opc?, Instr.hdr?, Instr.body, m148, Raw.f1, -Nat.reduceAdd, -BitVec.getLsbD_eq_getElem]

theorem RoundTrip.fcos (h : Hdr) (o : F1) : RoundTrip.Statement (.fcos h o) := by
  intro _ w
  rw [decode_encode_eq _ 0x10D h rfl rfl (by decide) w]
  simp (disch := omega) [decodeGroup, decodeG4, encodeRaw, Instr.opc?, Instr.hdr?, Instr.body, m148, Raw.f1, -Nat.reduceAdd, -BitVec.getLsbD_eq_getElem]

theorem RoundTrip.frnd (h : Hdr) (o : F1) : RoundTrip.Statement (.frnd h o) := by
  intro _ w
  rw [decode_encode_eq _ 0x10E h rfl rfl (by decide) w]
  simp (disch := omega) [decodeGroup, decodeG4, encodeRaw, Instr.opc?, Instr.hdr?, Instr.body, m148, Raw.f1, -Nat.reduceAdd, -BitVec.getLsbD_eq_getElem]

theorem RoundTrip.fclass (h : Hdr) (o : FCls) : RoundTrip.Statement (.fclass h o) := by
  intro _ w
  rw [decode_encode_eq _ 0x10F h rfl rfl (by decide) w]
  simp (disch := omega) [decodeGroup, decodeG4, encodeRaw, Instr.opc?, Instr.hdr?, Instr.body, -Nat.reduceAdd, -BitVec.getLsbD_eq_getElem]

theorem RoundTrip.ffma (h : Hdr) (o : F3) : RoundTrip.Statement (.ffma h o) := by
  intro _ w
  rw [decode_encode_eq _ 0x120 h rfl rfl (by decide) w]
  simp (disch := omega) [decodeGroup, decodeG4, encodeRaw, Instr.opc?, Instr.hdr?, Instr.body, m148, Raw.f3, -Nat.reduceAdd, -BitVec.getLsbD_eq_getElem]

theorem RoundTrip.faddImm (h : Hdr) (o : FI) : RoundTrip.Statement (.faddImm h o) := by
  intro _ w
  rw [decode_encode_eq _ 0x128 h rfl rfl (by decide) w]
  simp (disch := omega) [decodeGroup, decodeG4, encodeRaw, Instr.opc?, Instr.hdr?, Instr.body, m148, Raw.fI, -Nat.reduceAdd, -BitVec.getLsbD_eq_getElem]

theorem RoundTrip.fmulImm (h : Hdr) (o : FI) : RoundTrip.Statement (.fmulImm h o) := by
  intro _ w
  rw [decode_encode_eq _ 0x129 h rfl rfl (by decide) w]
  simp (disch := omega) [decodeGroup, decodeG4, encodeRaw, Instr.opc?, Instr.hdr?, Instr.body, m148, Raw.fI, -Nat.reduceAdd, -BitVec.getLsbD_eq_getElem]

theorem RoundTrip.fminImm (h : Hdr) (o : FMmI) : RoundTrip.Statement (.fminImm h o) := by
  intro _ w
  rw [decode_encode_eq _ 0x12A h rfl rfl (by decide) w]
  simp (disch := omega) [decodeGroup, decodeG4, encodeRaw, Instr.opc?, Instr.hdr?, Instr.body, m148, Raw.fmmI, Rnd.code, -Nat.reduceAdd, -BitVec.getLsbD_eq_getElem]

theorem RoundTrip.fmaxImm (h : Hdr) (o : FMmI) : RoundTrip.Statement (.fmaxImm h o) := by
  intro _ w
  rw [decode_encode_eq _ 0x12B h rfl rfl (by decide) w]
  simp (disch := omega) [decodeGroup, decodeG4, encodeRaw, Instr.opc?, Instr.hdr?, Instr.body, m148, Raw.fmmI, Rnd.code, -Nat.reduceAdd, -BitVec.getLsbD_eq_getElem]

theorem RoundTrip.fcmpImm (h : Hdr) (o : FCmpI) : RoundTrip.Statement (.fcmpImm h o) := by
  intro _ w
  rw [decode_encode_eq _ 0x12C h rfl rfl (by decide) w]
  simp (disch := omega) [decodeGroup, decodeG4, encodeRaw, Instr.opc?, Instr.hdr?, Instr.body, -Nat.reduceAdd, -BitVec.getLsbD_eq_getElem]

theorem RoundTrip.fcvt (h : Hdr) (o : Fcvt) : RoundTrip.Statement (.fcvt h o) := by
  intro _ w
  rw [decode_encode_eq _ 0x140 h rfl rfl (by decide) w]
  have b : Instr.bodyOk _ = true := (Bool.and_eq_true_iff.mp w).1
  simp only [Instr.bodyOk] at b
  simp (disch := omega) [decodeGroup, decodeG5, encodeRaw, Instr.opc?, Instr.hdr?, Instr.body, b, -Nat.reduceAdd, -BitVec.getLsbD_eq_getElem]

theorem RoundTrip.icvt (h : Hdr) (o : Icvt) : RoundTrip.Statement (.icvt h o) := by
  intro _ w
  rw [decode_encode_eq _ 0x141 h rfl rfl (by decide) w]
  simp (disch := omega) [decodeGroup, decodeG5, encodeRaw, Instr.opc?, Instr.hdr?, Instr.body, -Nat.reduceAdd, -BitVec.getLsbD_eq_getElem]

theorem RoundTrip.fpack (h : Hdr) (o : Fpack) : RoundTrip.Statement (.fpack h o) := by
  intro _ w
  rw [decode_encode_eq _ 0x142 h rfl rfl (by decide) w]
  have b : Instr.bodyOk _ = true := (Bool.and_eq_true_iff.mp w).1
  simp only [Instr.bodyOk] at b
  simp (disch := omega) [decodeGroup, decodeG5, encodeRaw, Instr.opc?, Instr.hdr?, Instr.body, b, -Nat.reduceAdd, -BitVec.getLsbD_eq_getElem]

theorem RoundTrip.hfma2 (h : Hdr) (o : Hfma2) : RoundTrip.Statement (.hfma2 h o) := by
  intro _ w
  rw [decode_encode_eq _ 0x160 h rfl rfl (by decide) w]
  simp (disch := omega) [decodeGroup, decodeG5, encodeRaw, Instr.opc?, Instr.hdr?, Instr.body, m148, -Nat.reduceAdd, -BitVec.getLsbD_eq_getElem]

theorem RoundTrip.dot4 (h : Hdr) (o : Dot4) : RoundTrip.Statement (.dot4 h o) := by
  intro _ w
  rw [decode_encode_eq _ 0x161 h rfl rfl (by decide) w]
  simp (disch := omega) [decodeGroup, decodeG5, encodeRaw, Instr.opc?, Instr.hdr?, Instr.body, m148, -Nat.reduceAdd, -BitVec.getLsbD_eq_getElem]

theorem RoundTrip.dadd (h : Hdr) (o : F2) : RoundTrip.Statement (.dadd h o) := by
  intro _ w
  rw [decode_encode_eq _ 0x180 h rfl rfl (by decide) w]
  simp (disch := omega) [decodeGroup, decodeG6, encodeRaw, Instr.opc?, Instr.hdr?, Instr.body, m148, Raw.f2op, -Nat.reduceAdd, -BitVec.getLsbD_eq_getElem]

theorem RoundTrip.dmul (h : Hdr) (o : F2) : RoundTrip.Statement (.dmul h o) := by
  intro _ w
  rw [decode_encode_eq _ 0x181 h rfl rfl (by decide) w]
  simp (disch := omega) [decodeGroup, decodeG6, encodeRaw, Instr.opc?, Instr.hdr?, Instr.body, m148, Raw.f2op, -Nat.reduceAdd, -BitVec.getLsbD_eq_getElem]

theorem RoundTrip.ddiv (h : Hdr) (o : FDiv) : RoundTrip.Statement (.ddiv h o) := by
  intro _ w
  rw [decode_encode_eq _ 0x182 h rfl rfl (by decide) w]
  simp (disch := omega) [decodeGroup, decodeG6, encodeRaw, Instr.opc?, Instr.hdr?, Instr.body, m148, Raw.fdv, -Nat.reduceAdd, -BitVec.getLsbD_eq_getElem]

theorem RoundTrip.dsqrt (h : Hdr) (o : F1) : RoundTrip.Statement (.dsqrt h o) := by
  intro _ w
  rw [decode_encode_eq _ 0x183 h rfl rfl (by decide) w]
  simp (disch := omega) [decodeGroup, decodeG6, encodeRaw, Instr.opc?, Instr.hdr?, Instr.body, m148, Raw.f1, -Nat.reduceAdd, -BitVec.getLsbD_eq_getElem]

theorem RoundTrip.dcmp (h : Hdr) (o : FCmp) : RoundTrip.Statement (.dcmp h o) := by
  intro _ w
  rw [decode_encode_eq _ 0x184 h rfl rfl (by decide) w]
  simp (disch := omega) [decodeGroup, decodeG6, encodeRaw, Instr.opc?, Instr.hdr?, Instr.body, Raw.fcm, -Nat.reduceAdd, -BitVec.getLsbD_eq_getElem]

theorem RoundTrip.dmin (h : Hdr) (o : FMm) : RoundTrip.Statement (.dmin h o) := by
  intro _ w
  rw [decode_encode_eq _ 0x185 h rfl rfl (by decide) w]
  simp (disch := omega) [decodeGroup, decodeG6, encodeRaw, Instr.opc?, Instr.hdr?, Instr.body, m148, Raw.fmm, Rnd.code, -Nat.reduceAdd, -BitVec.getLsbD_eq_getElem]

theorem RoundTrip.dmax (h : Hdr) (o : FMm) : RoundTrip.Statement (.dmax h o) := by
  intro _ w
  rw [decode_encode_eq _ 0x186 h rfl rfl (by decide) w]
  simp (disch := omega) [decodeGroup, decodeG6, encodeRaw, Instr.opc?, Instr.hdr?, Instr.body, m148, Raw.fmm, Rnd.code, -Nat.reduceAdd, -BitVec.getLsbD_eq_getElem]

theorem RoundTrip.dcvt (h : Hdr) (o : Dcvt) : RoundTrip.Statement (.dcvt h o) := by
  intro _ w
  rw [decode_encode_eq _ 0x187 h rfl rfl (by decide) w]
  have b : Instr.bodyOk _ = true := (Bool.and_eq_true_iff.mp w).1
  simp only [Instr.bodyOk] at b
  simp (disch := omega) [decodeGroup, decodeG6, encodeRaw, Instr.opc?, Instr.hdr?, Instr.body, b, -Nat.reduceAdd, -BitVec.getLsbD_eq_getElem]

theorem RoundTrip.dfma (h : Hdr) (o : F3) : RoundTrip.Statement (.dfma h o) := by
  intro _ w
  rw [decode_encode_eq _ 0x1A0 h rfl rfl (by decide) w]
  simp (disch := omega) [decodeGroup, decodeG6, encodeRaw, Instr.opc?, Instr.hdr?, Instr.body, m148, Raw.f3, -Nat.reduceAdd, -BitVec.getLsbD_eq_getElem]

theorem RoundTrip.xchgIdx (h : Hdr) (o : Xchg) : RoundTrip.Statement (.xchgIdx h o) := by
  intro _ w
  rw [decode_encode_eq _ 0x1C0 h rfl rfl (by decide) w]
  obtain ⟨d, a, b, w64, pv⟩ := o
  cases b <;> simp (disch := omega) [decodeGroup, decodeG7, encodeRaw, Instr.opc?, Instr.hdr?, Instr.body, Raw.xchg, Raw.xb, XB.code, XB.spec, -Nat.reduceAdd, -BitVec.getLsbD_eq_getElem]

theorem RoundTrip.xchgUp (h : Hdr) (o : Xchg) : RoundTrip.Statement (.xchgUp h o) := by
  intro _ w
  rw [decode_encode_eq _ 0x1C1 h rfl rfl (by decide) w]
  obtain ⟨d, a, b, w64, pv⟩ := o
  cases b <;> simp (disch := omega) [decodeGroup, decodeG7, encodeRaw, Instr.opc?, Instr.hdr?, Instr.body, Raw.xchg, Raw.xb, XB.code, XB.spec, -Nat.reduceAdd, -BitVec.getLsbD_eq_getElem]

theorem RoundTrip.xchgDown (h : Hdr) (o : Xchg) : RoundTrip.Statement (.xchgDown h o) := by
  intro _ w
  rw [decode_encode_eq _ 0x1C2 h rfl rfl (by decide) w]
  obtain ⟨d, a, b, w64, pv⟩ := o
  cases b <;> simp (disch := omega) [decodeGroup, decodeG7, encodeRaw, Instr.opc?, Instr.hdr?, Instr.body, Raw.xchg, Raw.xb, XB.code, XB.spec, -Nat.reduceAdd, -BitVec.getLsbD_eq_getElem]

theorem RoundTrip.xchgXor (h : Hdr) (o : Xchg) : RoundTrip.Statement (.xchgXor h o) := by
  intro _ w
  rw [decode_encode_eq _ 0x1C3 h rfl rfl (by decide) w]
  obtain ⟨d, a, b, w64, pv⟩ := o
  cases b <;> simp (disch := omega) [decodeGroup, decodeG7, encodeRaw, Instr.opc?, Instr.hdr?, Instr.body, Raw.xchg, Raw.xb, XB.code, XB.spec, -Nat.reduceAdd, -BitVec.getLsbD_eq_getElem]

theorem RoundTrip.voteAll (h : Hdr) (o : Vote) : RoundTrip.Statement (.voteAll h o) := by
  intro _ w
  rw [decode_encode_eq _ 0x1C4 h rfl rfl (by decide) w]
  simp (disch := omega) [decodeGroup, decodeG7, encodeRaw, Instr.opc?, Instr.hdr?, Instr.body, Raw.vote, -Nat.reduceAdd, -BitVec.getLsbD_eq_getElem]

theorem RoundTrip.voteAny (h : Hdr) (o : Vote) : RoundTrip.Statement (.voteAny h o) := by
  intro _ w
  rw [decode_encode_eq _ 0x1C5 h rfl rfl (by decide) w]
  simp (disch := omega) [decodeGroup, decodeG7, encodeRaw, Instr.opc?, Instr.hdr?, Instr.body, Raw.vote, -Nat.reduceAdd, -BitVec.getLsbD_eq_getElem]

theorem RoundTrip.voteBallot (h : Hdr) (o : Ballot) : RoundTrip.Statement (.voteBallot h o) := by
  intro _ w
  rw [decode_encode_eq _ 0x1C6 h rfl rfl (by decide) w]
  simp (disch := omega) [decodeGroup, decodeG7, encodeRaw, Instr.opc?, Instr.hdr?, Instr.body, -Nat.reduceAdd, -BitVec.getLsbD_eq_getElem]

theorem RoundTrip.matchB (h : Hdr) (o : Match) : RoundTrip.Statement (.matchB h o) := by
  intro _ w
  rw [decode_encode_eq _ 0x1C7 h rfl rfl (by decide) w]
  simp (disch := omega) [decodeGroup, decodeG7, encodeRaw, Instr.opc?, Instr.hdr?, Instr.body, -Nat.reduceAdd, -BitVec.getLsbD_eq_getElem]

theorem RoundTrip.redb (h : Hdr) (o : Redb) : RoundTrip.Statement (.redb h o) := by
  intro _ w
  rw [decode_encode_eq _ 0x1C8 h rfl rfl (by decide) w]
  have b : Instr.bodyOk _ = true := (Bool.and_eq_true_iff.mp w).1
  simp only [Instr.bodyOk] at b
  simp (disch := omega) [decodeGroup, decodeG7, encodeRaw, Instr.opc?, Instr.hdr?, Instr.body, b, -Nat.reduceAdd, -BitVec.getLsbD_eq_getElem]

theorem RoundTrip.elect (h : Hdr) (p : BitVec 3) : RoundTrip.Statement (.elect h p) := by
  intro _ w
  rw [decode_encode_eq _ 0x1C9 h rfl rfl (by decide) w]
  simp (disch := omega) [decodeGroup, decodeG7, encodeRaw, Instr.opc?, Instr.hdr?, Instr.body, -Nat.reduceAdd, -BitVec.getLsbD_eq_getElem]

theorem RoundTrip.sread (h : Hdr) (o : Sread) : RoundTrip.Statement (.sread h o) := by
  intro _ w
  rw [decode_encode_eq _ 0x1CA h rfl rfl (by decide) w]
  simp (disch := omega) [decodeGroup, decodeG7, encodeRaw, Instr.opc?, Instr.hdr?, Instr.body, -Nat.reduceAdd, -BitVec.getLsbD_eq_getElem]

theorem RoundTrip.barArr (h : Hdr) (o : Bar) : RoundTrip.Statement (.barArr h o) := by
  intro _ w
  rw [decode_encode_eq _ 0x200 h rfl rfl (by decide) w]
  obtain ⟨n, sc⟩ := o
  cases n <;> simp (disch := omega) [decodeGroup, decodeG8, encodeRaw, Instr.opc?, Instr.hdr?, Instr.body, Raw.bar, Raw.bnum, BNum.isU, BNum.spec, -Nat.reduceAdd, -BitVec.getLsbD_eq_getElem]

theorem RoundTrip.barWait (h : Hdr) (o : Bar) : RoundTrip.Statement (.barWait h o) := by
  intro _ w
  rw [decode_encode_eq _ 0x201 h rfl rfl (by decide) w]
  obtain ⟨n, sc⟩ := o
  cases n <;> simp (disch := omega) [decodeGroup, decodeG8, encodeRaw, Instr.opc?, Instr.hdr?, Instr.body, Raw.bar, Raw.bnum, BNum.isU, BNum.spec, -Nat.reduceAdd, -BitVec.getLsbD_eq_getElem]

theorem RoundTrip.barSync (h : Hdr) (o : Bar) : RoundTrip.Statement (.barSync h o) := by
  intro _ w
  rw [decode_encode_eq _ 0x202 h rfl rfl (by decide) w]
  obtain ⟨n, sc⟩ := o
  cases n <;> simp (disch := omega) [decodeGroup, decodeG8, encodeRaw, Instr.opc?, Instr.hdr?, Instr.body, Raw.bar, Raw.bnum, BNum.isU, BNum.spec, -Nat.reduceAdd, -BitVec.getLsbD_eq_getElem]

theorem RoundTrip.barInv (h : Hdr) (o : Bar) : RoundTrip.Statement (.barInv h o) := by
  intro _ w
  rw [decode_encode_eq _ 0x203 h rfl rfl (by decide) w]
  obtain ⟨n, sc⟩ := o
  cases n <;> simp (disch := omega) [decodeGroup, decodeG8, encodeRaw, Instr.opc?, Instr.hdr?, Instr.body, Raw.bar, Raw.bnum, BNum.isU, BNum.spec, -Nat.reduceAdd, -BitVec.getLsbD_eq_getElem]

theorem RoundTrip.barInit (h : Hdr) (o : BarInit) : RoundTrip.Statement (.barInit h o) := by
  intro _ w
  rw [decode_encode_eq _ 0x220 h rfl rfl (by decide) w]
  obtain ⟨n, sc, c⟩ := o
  cases n <;> simp (disch := omega) [decodeGroup, decodeG8, encodeRaw, Instr.opc?, Instr.hdr?, Instr.body, Raw.bar, Raw.bnum, BNum.isU, BNum.spec, -Nat.reduceAdd, -BitVec.getLsbD_eq_getElem]

theorem RoundTrip.joinE (h : Hdr) (j : BitVec 2) : RoundTrip.Statement (.joinE h j) := by
  intro _ w
  rw [decode_encode_eq _ 0x204 h rfl rfl (by decide) w]
  simp (disch := omega) [decodeGroup, decodeG8, encodeRaw, Instr.opc?, Instr.hdr?, Instr.body, Raw.join, -Nat.reduceAdd, -BitVec.getLsbD_eq_getElem]

theorem RoundTrip.joinW (h : Hdr) (j : BitVec 2) : RoundTrip.Statement (.joinW h j) := by
  intro _ w
  rw [decode_encode_eq _ 0x205 h rfl rfl (by decide) w]
  simp (disch := omega) [decodeGroup, decodeG8, encodeRaw, Instr.opc?, Instr.hdr?, Instr.body, Raw.join, -Nat.reduceAdd, -BitVec.getLsbD_eq_getElem]

theorem RoundTrip.joinX (h : Hdr) (j : BitVec 2) : RoundTrip.Statement (.joinX h j) := by
  intro _ w
  rw [decode_encode_eq _ 0x206 h rfl rfl (by decide) w]
  simp (disch := omega) [decodeGroup, decodeG8, encodeRaw, Instr.opc?, Instr.hdr?, Instr.body, Raw.join, -Nat.reduceAdd, -BitVec.getLsbD_eq_getElem]

theorem RoundTrip.ld (h : Hdr) (o : Ld) : RoundTrip.Statement (.ld h o) := by
  intro _ w
  rw [decode_encode_eq _ 0x260 h rfl rfl (by decide) w]
  obtain ⟨d, base, sz, ord, disp⟩ := o
  cases ord <;> simp (disch := omega) [decodeGroup, decodeG9, encodeRaw, Instr.opc?, Instr.hdr?, Instr.body, Raw.load, Raw.lord, LOrd.code, LOrd.scope, -Nat.reduceAdd, -BitVec.getLsbD_eq_getElem]

theorem RoundTrip.st (h : Hdr) (o : St) : RoundTrip.Statement (.st h o) := by
  intro _ w
  rw [decode_encode_eq _ 0x261 h rfl rfl (by decide) w]
  have b : Instr.bodyOk _ = true := (Bool.and_eq_true_iff.mp w).1
  simp only [Instr.bodyOk] at b
  obtain ⟨base, b2, sz, ord, disp⟩ := o
  cases ord <;> simp (disch := omega) [decodeGroup, decodeG9, encodeRaw, Instr.opc?, Instr.hdr?, Instr.body, Raw.store, Raw.lord, LOrd.code, LOrd.scope, -Nat.reduceAdd, -BitVec.getLsbD_eq_getElem] <;>
    simp_all [need, storeOk]

theorem RoundTrip.lds (h : Hdr) (o : Ld) : RoundTrip.Statement (.lds h o) := by
  intro _ w
  rw [decode_encode_eq _ 0x262 h rfl rfl (by decide) w]
  have b : Instr.bodyOk _ = true := (Bool.and_eq_true_iff.mp w).1
  simp only [Instr.bodyOk] at b
  obtain ⟨d, base, sz, ord, disp⟩ := o
  cases ord <;> simp (disch := omega) [decodeGroup, decodeG9, encodeRaw, Instr.opc?, Instr.hdr?, Instr.body, Raw.load, Raw.lord, LOrd.code, LOrd.scope, -Nat.reduceAdd, -BitVec.getLsbD_eq_getElem] <;>
    simp_all [need]

theorem RoundTrip.sts (h : Hdr) (o : St) : RoundTrip.Statement (.sts h o) := by
  intro _ w
  rw [decode_encode_eq _ 0x263 h rfl rfl (by decide) w]
  have b : Instr.bodyOk _ = true := (Bool.and_eq_true_iff.mp w).1
  simp only [Instr.bodyOk] at b
  obtain ⟨base, b2, sz, ord, disp⟩ := o
  cases ord <;> simp (disch := omega) [decodeGroup, decodeG9, encodeRaw, Instr.opc?, Instr.hdr?, Instr.body, Raw.store, Raw.lord, LOrd.code, LOrd.scope, -Nat.reduceAdd, -BitVec.getLsbD_eq_getElem] <;>
    simp_all [need, storeOk]

theorem RoundTrip.ldf (h : Hdr) (o : Ldf) : RoundTrip.Statement (.ldf h o) := by
  intro _ w
  rw [decode_encode_eq _ 0x264 h rfl rfl (by decide) w]
  simp (disch := omega) [decodeGroup, decodeG9, encodeRaw, Instr.opc?, Instr.hdr?, Instr.body, -Nat.reduceAdd, -BitVec.getLsbD_eq_getElem]

theorem RoundTrip.fence (h : Hdr) (o : Fence) : RoundTrip.Statement (.fence h o) := by
  intro _ w
  rw [decode_encode_eq _ 0x280 h rfl rfl (by decide) w]
  simp (disch := omega) [decodeGroup, decodeG10, encodeRaw, Instr.opc?, Instr.hdr?, Instr.body, Raw.onlyMod, -Nat.reduceAdd, -BitVec.getLsbD_eq_getElem]

theorem RoundTrip.lflush (h : Hdr) (o : LineSel) : RoundTrip.Statement (.lflush h o) := by
  intro _ w
  rw [decode_encode_eq _ 0x281 h rfl rfl (by decide) w]
  cases o <;> simp (disch := omega) [decodeGroup, decodeG10, encodeRaw, Instr.opc?, Instr.hdr?, Instr.body, Raw.lineSel, -Nat.reduceAdd, -BitVec.getLsbD_eq_getElem]

theorem RoundTrip.linv (h : Hdr) (o : LineSel) : RoundTrip.Statement (.linv h o) := by
  intro _ w
  rw [decode_encode_eq _ 0x282 h rfl rfl (by decide) w]
  cases o <;> simp (disch := omega) [decodeGroup, decodeG10, encodeRaw, Instr.opc?, Instr.hdr?, Instr.body, Raw.lineSel, -Nat.reduceAdd, -BitVec.getLsbD_eq_getElem]

theorem RoundTrip.atom (h : Hdr) (o : Atom) : RoundTrip.Statement (.atom h o) := by
  intro _ w
  rw [decode_encode_eq _ 0x2A0 h rfl rfl (by decide) w]
  have b : Instr.bodyOk _ = true := (Bool.and_eq_true_iff.mp w).1
  simp only [Instr.bodyOk] at b
  obtain ⟨d, base, b2, c, ord, op, w64, disp⟩ := o
  cases ord <;> simp (disch := omega) [decodeGroup, decodeG10, encodeRaw, Instr.opc?, Instr.hdr?, Instr.body, Raw.aord, AOrd.code, AOrd.scope, -Nat.reduceAdd, -BitVec.getLsbD_eq_getElem] <;>
    simp_all [need]

theorem RoundTrip.red (h : Hdr) (o : Red) : RoundTrip.Statement (.red h o) := by
  intro _ w
  rw [decode_encode_eq _ 0x2A1 h rfl rfl (by decide) w]
  have b : Instr.bodyOk _ = true := (Bool.and_eq_true_iff.mp w).1
  simp only [Instr.bodyOk] at b
  obtain ⟨base, b2, ord, op, w64, disp⟩ := o
  cases ord <;> simp (disch := omega) [decodeGroup, decodeG10, encodeRaw, Instr.opc?, Instr.hdr?, Instr.body, Raw.aord, AOrd.code, AOrd.scope, -Nat.reduceAdd, -BitVec.getLsbD_eq_getElem] <;>
    simp_all [need, redOrdOk]

theorem RoundTrip.ldw (h : Hdr) (o : Ldw) : RoundTrip.Statement (.ldw h o) := by
  intro _ w
  rw [decode_encode_eq _ 0x2A2 h rfl rfl (by decide) w]
  simp (disch := omega) [decodeGroup, decodeG10, encodeRaw, Instr.opc?, Instr.hdr?, Instr.body, -Nat.reduceAdd, -BitVec.getLsbD_eq_getElem]

theorem RoundTrip.chk (h : Hdr) (off : Word) : RoundTrip.Statement (.chk h off) := by
  intro _ w
  rw [decode_encode_eq _ 0x2A3 h rfl rfl (by decide) w]
  simp (disch := omega) [decodeGroup, decodeG10, encodeRaw, Instr.opc?, Instr.hdr?, Instr.body, Raw.empty, Raw.onlyMod, -Nat.reduceAdd, -BitVec.getLsbD_eq_getElem]

theorem RoundTrip.prf (h : Hdr) (o : Prf) : RoundTrip.Statement (.prf h o) := by
  intro _ w
  rw [decode_encode_eq _ 0x2A4 h rfl rfl (by decide) w]
  simp (disch := omega) [decodeGroup, decodeG10, encodeRaw, Instr.opc?, Instr.hdr?, Instr.body, -Nat.reduceAdd, -BitVec.getLsbD_eq_getElem]

theorem RoundTrip.rngCommit (h : Hdr) (o : RngCommit) : RoundTrip.Statement (.rngCommit h o) := by
  intro _ w
  rw [decode_encode_eq _ 0x2B8 h rfl rfl (by decide) w]
  simp (disch := omega) [decodeGroup, decodeG10, encodeRaw, Instr.opc?, Instr.hdr?, Instr.body, -Nat.reduceAdd, -BitVec.getLsbD_eq_getElem]

theorem RoundTrip.strmPos (h : Hdr) (o : StrmPos) : RoundTrip.Statement (.strmPos h o) := by
  intro _ w
  rw [decode_encode_eq _ 0x2C0 h rfl rfl (by decide) w]
  simp (disch := omega) [decodeGroup, decodeG11, encodeRaw, Instr.opc?, Instr.hdr?, Instr.body, -Nat.reduceAdd, -BitVec.getLsbD_eq_getElem]

theorem RoundTrip.strmSet (h : Hdr) (o : StrmSet) : RoundTrip.Statement (.strmSet h o) := by
  intro _ w
  rw [decode_encode_eq _ 0x2C1 h rfl rfl (by decide) w]
  simp (disch := omega) [decodeGroup, decodeG11, encodeRaw, Instr.opc?, Instr.hdr?, Instr.body, -Nat.reduceAdd, -BitVec.getLsbD_eq_getElem]

theorem RoundTrip.strmEnd (h : Hdr) (o : StrmEnd) : RoundTrip.Statement (.strmEnd h o) := by
  intro _ w
  rw [decode_encode_eq _ 0x2C2 h rfl rfl (by decide) w]
  simp (disch := omega) [decodeGroup, decodeG11, encodeRaw, Instr.opc?, Instr.hdr?, Instr.body, -Nat.reduceAdd, -BitVec.getLsbD_eq_getElem]

theorem RoundTrip.strmCfg (h : Hdr) (o : StrmCfg) : RoundTrip.Statement (.strmCfg h o) := by
  intro _ w
  rw [decode_encode_eq _ 0x2F8 h rfl rfl (by decide) w]
  have b : Instr.bodyOk _ = true := (Bool.and_eq_true_iff.mp w).1
  simp only [Instr.bodyOk] at b
  simp (disch := omega) [decodeGroup, decodeG11, encodeRaw, Instr.opc?, Instr.hdr?, Instr.body, b, -Nat.reduceAdd, -BitVec.getLsbD_eq_getElem]

theorem RoundTrip.waitc (h : Hdr) (o : Waitc) : RoundTrip.Statement (.waitc h o) := by
  intro _ w
  rw [decode_encode_eq _ 0x300 h rfl rfl (by decide) w]
  simp (disch := omega) [decodeGroup, decodeG12, encodeRaw, Instr.opc?, Instr.hdr?, Instr.body, -Nat.reduceAdd, -BitVec.getLsbD_eq_getElem]

theorem RoundTrip.ringWait (h : Hdr) (o : RingWait) : RoundTrip.Statement (.ringWait h o) := by
  intro _ w
  rw [decode_encode_eq _ 0x301 h rfl rfl (by decide) w]
  simp (disch := omega) [decodeGroup, decodeG12, encodeRaw, Instr.opc?, Instr.hdr?, Instr.body, Raw.onlyMod, -Nat.reduceAdd, -BitVec.getLsbD_eq_getElem]

theorem RoundTrip.ringRel (h : Hdr) (o : RingRel) : RoundTrip.Statement (.ringRel h o) := by
  intro _ w
  rw [decode_encode_eq _ 0x302 h rfl rfl (by decide) w]
  simp (disch := omega) [decodeGroup, decodeG12, encodeRaw, Instr.opc?, Instr.hdr?, Instr.body, Raw.onlyMod, -Nat.reduceAdd, -BitVec.getLsbD_eq_getElem]

theorem RoundTrip.ringInit (h : Hdr) (o : RingInit) : RoundTrip.Statement (.ringInit h o) := by
  intro _ w
  rw [decode_encode_eq _ 0x320 h rfl rfl (by decide) w]
  have b : Instr.bodyOk _ = true := (Bool.and_eq_true_iff.mp w).1
  simp only [Instr.bodyOk] at b
  simp (disch := omega) [decodeGroup, decodeG12, encodeRaw, Instr.opc?, Instr.hdr?, Instr.body, Raw.onlyMod, b, -Nat.reduceAdd, -BitVec.getLsbD_eq_getElem]

theorem RoundTrip.cpy (h : Hdr) (o : Cpy) : RoundTrip.Statement (.cpy h o) := by
  intro _ w
  rw [decode_encode_eq _ 0x338 h rfl rfl (by decide) w]
  have b : Instr.bodyOk _ = true := (Bool.and_eq_true_iff.mp w).1
  simp only [Instr.bodyOk] at b
  obtain ⟨d, a, q, scr, dk, scope, bar, rn, bmask⟩ := o
  cases bar <;> simp (disch := omega) [decodeGroup, decodeG12, encodeRaw, Instr.opc?, Instr.hdr?, Instr.body, eBar, Raw.cpy, Raw.cbar, eBar, CDst.ofCode_code, -Nat.reduceAdd, -BitVec.getLsbD_eq_getElem] <;>
    simp_all [need]

theorem RoundTrip.cpyCol (h : Hdr) (o : Cpy) : RoundTrip.Statement (.cpyCol h o) := by
  intro _ w
  rw [decode_encode_eq _ 0x339 h rfl rfl (by decide) w]
  have b : Instr.bodyOk _ = true := (Bool.and_eq_true_iff.mp w).1
  simp only [Instr.bodyOk] at b
  obtain ⟨d, a, q, scr, dk, scope, bar, rn, bmask⟩ := o
  cases bar <;> simp (disch := omega) [decodeGroup, decodeG12, encodeRaw, Instr.opc?, Instr.hdr?, Instr.body, eBar, Raw.cpy, Raw.cbar, eBar, CDst.ofCode_code, -Nat.reduceAdd, -BitVec.getLsbD_eq_getElem] <;>
    simp_all [need]

theorem RoundTrip.cpyPl (h : Hdr) (o : CpyPl) : RoundTrip.Statement (.cpyPl h o) := by
  intro _ w
  rw [decode_encode_eq _ 0x33A h rfl rfl (by decide) w]
  have b : Instr.bodyOk _ = true := (Bool.and_eq_true_iff.mp w).1
  simp only [Instr.bodyOk] at b
  obtain ⟨x, a, q, scope, bar, xf⟩ := o
  cases bar <;> cases xf <;> simp (disch := omega) [decodeGroup, decodeG12, encodeRaw, Instr.opc?, Instr.hdr?, Instr.body, eBar, eXf, Raw.cbar, eBar, eXf, -Nat.reduceAdd, -BitVec.getLsbD_eq_getElem] <;>
    simp_all [need]

theorem RoundTrip.gangSet (h : Hdr) (m : GMask) : RoundTrip.Statement (.gangSet h m) := by
  intro _ w
  rw [decode_encode_eq _ 0x340 h rfl rfl (by decide) w]
  cases m <;> simp (disch := omega) [decodeGroup, decodeG13, encodeRaw, Instr.opc?, Instr.hdr?, Instr.body, -Nat.reduceAdd, -BitVec.getLsbD_eq_getElem]

theorem RoundTrip.gangClr (h : Hdr) : RoundTrip.Statement (.gangClr h) := by
  intro _ w
  rw [decode_encode_eq _ 0x341 h rfl rfl (by decide) w]
  simp (disch := omega) [decodeGroup, decodeG13, encodeRaw, Instr.opc?, Instr.hdr?, Instr.body, Raw.empty, Raw.onlyMod, -Nat.reduceAdd, -BitVec.getLsbD_eq_getElem]

theorem RoundTrip.cmdWait (h : Hdr) (n : BitVec 6) : RoundTrip.Statement (.cmdWait h n) := by
  intro _ w
  rw [decode_encode_eq _ 0x342 h rfl rfl (by decide) w]
  simp (disch := omega) [decodeGroup, decodeG13, encodeRaw, Instr.opc?, Instr.hdr?, Instr.body, -Nat.reduceAdd, -BitVec.getLsbD_eq_getElem]

theorem RoundTrip.tileGet (h : Hdr) (o : TileGet) : RoundTrip.Statement (.tileGet h o) := by
  intro _ w
  rw [decode_encode_eq _ 0x343 h rfl rfl (by decide) w]
  simp (disch := omega) [decodeGroup, decodeG13, encodeRaw, Instr.opc?, Instr.hdr?, Instr.body, -Nat.reduceAdd, -BitVec.getLsbD_eq_getElem]

theorem RoundTrip.accClr (h : Hdr) (o : AccClr) : RoundTrip.Statement (.accClr h o) := by
  intro _ w
  rw [decode_encode_eq _ 0x360 h rfl rfl (by decide) w]
  simp (disch := omega) [decodeGroup, decodeG13, encodeRaw, Instr.opc?, Instr.hdr?, Instr.body, -Nat.reduceAdd, -BitVec.getLsbD_eq_getElem]

theorem RoundTrip.tileSet (h : Hdr) (o : TileSet) : RoundTrip.Statement (.tileSet h o) := by
  intro _ w
  rw [decode_encode_eq _ 0x378 h rfl rfl (by decide) w]
  have b : Instr.bodyOk _ = true := (Bool.and_eq_true_iff.mp w).1
  simp only [Instr.bodyOk] at b
  obtain ⟨x, src⟩ := o
  cases src <;> simp (disch := omega) [decodeGroup, decodeG13, encodeRaw, Instr.opc?, Instr.hdr?, Instr.body, -Nat.reduceAdd, -BitVec.getLsbD_eq_getElem] <;>
    simp_all [need, tileSrcOk]

theorem RoundTrip.mma (h : Hdr) (o : Mma) : RoundTrip.Statement (.mma h o) := by
  intro _ w
  rw [decode_encode_eq _ 0x379 h rfl rfl (by decide) w]
  simp (disch := omega) [decodeGroup, decodeG13, encodeRaw, Instr.opc?, Instr.hdr?, Instr.body, eMf, Raw.mf, -Nat.reduceAdd, -BitVec.getLsbD_eq_getElem]

theorem RoundTrip.planePack (h : Hdr) (o : PlanePack) : RoundTrip.Statement (.planePack h o) := by
  intro _ w
  rw [decode_encode_eq _ 0x37A h rfl rfl (by decide) w]
  simp (disch := omega) [decodeGroup, decodeG13, encodeRaw, Instr.opc?, Instr.hdr?, Instr.body, eMf, Raw.mf, -Nat.reduceAdd, -BitVec.getLsbD_eq_getElem]

theorem RoundTrip.planeUnpack (h : Hdr) (o : PlaneUnpack) : RoundTrip.Statement (.planeUnpack h o) := by
  intro _ w
  rw [decode_encode_eq _ 0x37B h rfl rfl (by decide) w]
  simp (disch := omega) [decodeGroup, decodeG13, encodeRaw, Instr.opc?, Instr.hdr?, Instr.body, eMf, Raw.mf, -Nat.reduceAdd, -BitVec.getLsbD_eq_getElem]

theorem RoundTrip.accRd (h : Hdr) (o : AccRd) : RoundTrip.Statement (.accRd h o) := by
  intro _ w
  rw [decode_encode_eq _ 0x37C h rfl rfl (by decide) w]
  have b : Instr.bodyOk _ = true := (Bool.and_eq_true_iff.mp w).1
  simp only [Instr.bodyOk] at b
  obtain ⟨dst, m, acc, cf, ovr, rnd, ftz, rect, raw⟩ := o
  cases dst <;> simp (disch := omega) [decodeGroup, decodeG13, encodeRaw, Instr.opc?, Instr.hdr?, Instr.body, eAccRd, eMf, eRect, Raw.mf, Raw.rect, -Nat.reduceAdd, -BitVec.getLsbD_eq_getElem] <;>
    simp_all [need]

theorem RoundTrip.accWr (h : Hdr) (o : AccWr) : RoundTrip.Statement (.accWr h o) := by
  intro _ w
  rw [decode_encode_eq _ 0x37D h rfl rfl (by decide) w]
  have b : Instr.bodyOk _ = true := (Bool.and_eq_true_iff.mp w).1
  simp only [Instr.bodyOk] at b
  obtain ⟨a, st, m, acc, rect, add⟩ := o
  simp (disch := omega) [decodeGroup, decodeG13, encodeRaw, Instr.opc?, Instr.hdr?, Instr.body, eMf, eRect, Raw.mf, Raw.rect, -Nat.reduceAdd, -BitVec.getLsbD_eq_getElem] <;>
    simp_all [need]

theorem RoundTrip.cbtLd (h : Hdr) (o : CbtLd) : RoundTrip.Statement (.cbtLd h o) := by
  intro _ w
  rw [decode_encode_eq _ 0x37E h rfl rfl (by decide) w]
  simp (disch := omega) [decodeGroup, decodeG13, encodeRaw, Instr.opc?, Instr.hdr?, Instr.body, eMf, Raw.mf, -Nat.reduceAdd, -BitVec.getLsbD_eq_getElem]

theorem RoundTrip.trap (h : Hdr) (n : BitVec 8) : RoundTrip.Statement (.trap h n) := by
  intro _ w
  rw [decode_encode_eq _ 0x380 h rfl rfl (by decide) w]
  simp (disch := omega) [decodeGroup, decodeG14, encodeRaw, Instr.opc?, Instr.hdr?, Instr.body, Raw.onlyMod, -Nat.reduceAdd, -BitVec.getLsbD_eq_getElem]

theorem RoundTrip.sys (h : Hdr) (n : BitVec 8) : RoundTrip.Statement (.sys h n) := by
  intro _ w
  rw [decode_encode_eq _ 0x381 h rfl rfl (by decide) w]
  simp (disch := omega) [decodeGroup, decodeG14, encodeRaw, Instr.opc?, Instr.hdr?, Instr.body, Raw.onlyMod, -Nat.reduceAdd, -BitVec.getLsbD_eq_getElem]

theorem RoundTrip.brk (h : Hdr) (n : BitVec 8) : RoundTrip.Statement (.brk h n) := by
  intro _ w
  rw [decode_encode_eq _ 0x382 h rfl rfl (by decide) w]
  simp (disch := omega) [decodeGroup, decodeG14, encodeRaw, Instr.opc?, Instr.hdr?, Instr.body, Raw.onlyMod, -Nat.reduceAdd, -BitVec.getLsbD_eq_getElem]

theorem RoundTrip.rte (h : Hdr) (skip : Bool) : RoundTrip.Statement (.rte h skip) := by
  intro _ w
  rw [decode_encode_eq _ 0x383 h rfl rfl (by decide) w]
  simp (disch := omega) [decodeGroup, decodeG14, encodeRaw, Instr.opc?, Instr.hdr?, Instr.body, Raw.onlyMod, -Nat.reduceAdd, -BitVec.getLsbD_eq_getElem]

theorem RoundTrip.halt (h : Hdr) (fail : Bool) : RoundTrip.Statement (.halt h fail) := by
  intro _ w
  rw [decode_encode_eq _ 0x384 h rfl rfl (by decide) w]
  simp (disch := omega) [decodeGroup, decodeG14, encodeRaw, Instr.opc?, Instr.hdr?, Instr.body, Raw.onlyMod, -Nat.reduceAdd, -BitVec.getLsbD_eq_getElem]

theorem RoundTrip.migr (h : Hdr) (t : MTgt) : RoundTrip.Statement (.migr h t) := by
  intro _ w
  rw [decode_encode_eq _ 0x385 h rfl rfl (by decide) w]
  simp (disch := omega) [decodeGroup, decodeG14, encodeRaw, Instr.opc?, Instr.hdr?, Instr.body, Raw.onlyMod, -Nat.reduceAdd, -BitVec.getLsbD_eq_getElem]

theorem RoundTrip.ctxSave (h : Hdr) (a : BitVec 6) : RoundTrip.Statement (.ctxSave h a) := by
  intro _ w
  rw [decode_encode_eq _ 0x386 h rfl rfl (by decide) w]
  simp (disch := omega) [decodeGroup, decodeG14, encodeRaw, Instr.opc?, Instr.hdr?, Instr.body, -Nat.reduceAdd, -BitVec.getLsbD_eq_getElem]

theorem RoundTrip.ctxRest (h : Hdr) (a : BitVec 6) : RoundTrip.Statement (.ctxRest h a) := by
  intro _ w
  rw [decode_encode_eq _ 0x387 h rfl rfl (by decide) w]
  simp (disch := omega) [decodeGroup, decodeG14, encodeRaw, Instr.opc?, Instr.hdr?, Instr.body, -Nat.reduceAdd, -BitVec.getLsbD_eq_getElem]

theorem RoundTrip.tlbinv (h : Hdr) (k : TKind) : RoundTrip.Statement (.tlbinv h k) := by
  intro _ w
  rw [decode_encode_eq _ 0x388 h rfl rfl (by decide) w]
  cases k <;> simp (disch := omega) [decodeGroup, decodeG14, encodeRaw, Instr.opc?, Instr.hdr?, Instr.body, -Nat.reduceAdd, -BitVec.getLsbD_eq_getElem]

theorem RoundTrip.scrub (h : Hdr) (a : Src) : RoundTrip.Statement (.scrub h a) := by
  intro _ w
  rw [decode_encode_eq _ 0x389 h rfl rfl (by decide) w]
  simp (disch := omega) [decodeGroup, decodeG14, encodeRaw, Instr.opc?, Instr.hdr?, Instr.body, -Nat.reduceAdd, -BitVec.getLsbD_eq_getElem]

theorem RoundTrip.csrRd (h : Hdr) (o : CsrRd) : RoundTrip.Statement (.csrRd h o) := by
  intro _ w
  rw [decode_encode_eq _ 0x3A0 h rfl rfl (by decide) w]
  simp (disch := omega) [decodeGroup, decodeG14, encodeRaw, Instr.opc?, Instr.hdr?, Instr.body, -Nat.reduceAdd, -BitVec.getLsbD_eq_getElem]

theorem RoundTrip.csrWr (h : Hdr) (o : CsrWr) : RoundTrip.Statement (.csrWr h o) := by
  intro _ w
  rw [decode_encode_eq _ 0x3A1 h rfl rfl (by decide) w]
  simp (disch := omega) [decodeGroup, decodeG14, encodeRaw, Instr.opc?, Instr.hdr?, Instr.body, -Nat.reduceAdd, -BitVec.getLsbD_eq_getElem]

theorem RoundTrip.asyncTrapEntry (b n : Nat) : RoundTrip.Statement (.asyncTrapEntry b n) := fun h => nomatch h

theorem RoundTrip.forcedRelease (b n : Nat) : RoundTrip.Statement (.forcedRelease b n) := fun h => nomatch h

theorem RoundTrip.lqdbDoorbell (a : Via) (q : Nat) (v : Word) : RoundTrip.Statement (.lqdbDoorbell a q v) := fun h => nomatch h

theorem RoundTrip.lqctlEn (a : Via) (q : Nat) (v : Word) : RoundTrip.Statement (.lqctlEn a q v) := fun h => nomatch h

theorem RoundTrip.lqctlErrClear (a : Via) (q : Nat) (v : Word) : RoundTrip.Statement (.lqctlErrClear a q v) := fun h => nomatch h

theorem RoundTrip.noopPacket (f q : Nat) : RoundTrip.Statement (.noopPacket f q) := fun h => nomatch h

theorem RoundTrip.launchPacket (f q : Nat) : RoundTrip.Statement (.launchPacket f q) := fun h => nomatch h

theorem RoundTrip.markerPacket (f q : Nat) : RoundTrip.Statement (.markerPacket f q) := fun h => nomatch h

theorem RoundTrip.contextUpdatePacket (f q : Nat) : RoundTrip.Statement (.contextUpdatePacket f q) := fun h => nomatch h

theorem RoundTrip.markerCompletion (lid : Nat) : RoundTrip.Statement (.markerCompletion lid) := fun h => nomatch h

theorem RoundTrip.contextUpdate (lid : Nat) : RoundTrip.Statement (.contextUpdate lid) := fun h => nomatch h

theorem RoundTrip.blockPlacement : RoundTrip.Statement (.blockPlacement) := fun h => nomatch h

theorem RoundTrip.carveOutChange (core : Nat) (carve : Word) : RoundTrip.Statement (.carveOutChange core carve) := fun h => nomatch h

theorem RoundTrip.preemption : RoundTrip.Statement (.preemption) := fun h => nomatch h

theorem RoundTrip.blockResume (b : Nat) : RoundTrip.Statement (.blockResume b) := fun h => nomatch h

theorem RoundTrip.blockEnd (b : Nat) : RoundTrip.Statement (.blockEnd b) := fun h => nomatch h

theorem RoundTrip.gridCompletion (lid : Nat) : RoundTrip.Statement (.gridCompletion lid) := fun h => nomatch h

theorem RoundTrip.gridFailure (lid : Nat) : RoundTrip.Statement (.gridFailure lid) := fun h => nomatch h

theorem RoundTrip.loadRequest (p : Nat) : RoundTrip.Statement (.loadRequest p) := fun h => nomatch h

theorem RoundTrip.loadReply (p : Nat) : RoundTrip.Statement (.loadReply p) := fun h => nomatch h

theorem RoundTrip.storeArrival (p : Nat) : RoundTrip.Statement (.storeArrival p) := fun h => nomatch h

theorem RoundTrip.storeCompletion (p : Nat) : RoundTrip.Statement (.storeCompletion p) := fun h => nomatch h

theorem RoundTrip.recall (p : Nat) : RoundTrip.Statement (.recall p) := fun h => nomatch h

theorem RoundTrip.ownerWriteback (p : Nat) : RoundTrip.Statement (.ownerWriteback p) := fun h => nomatch h

theorem RoundTrip.ownershipGrant (p : Nat) : RoundTrip.Statement (.ownershipGrant p) := fun h => nomatch h

theorem RoundTrip.leaseExpiry (core line : Nat) : RoundTrip.Statement (.leaseExpiry core line) := fun h => nomatch h

theorem RoundTrip.watchCheck (p : Nat) : RoundTrip.Statement (.watchCheck p) := fun h => nomatch h

theorem RoundTrip.watchAnswer (p : Nat) : RoundTrip.Statement (.watchAnswer p) := fun h => nomatch h

theorem RoundTrip.packetDelivery (p : Nat) : RoundTrip.Statement (.packetDelivery p) := fun h => nomatch h

theorem RoundTrip.pageWalk (core asid va : Nat) : RoundTrip.Statement (.pageWalk core asid va) := fun h => nomatch h

theorem RoundTrip.prsp (a : Via) (v : Word) : RoundTrip.Statement (.prsp a v) := fun h => nomatch h

theorem RoundTrip.flogctlWrite (a : Via) (v : Word) : RoundTrip.Statement (.flogctlWrite a v) := fun h => nomatch h

theorem RoundTrip.copySegment (b c g : Nat) : RoundTrip.Statement (.copySegment b c g) := fun h => nomatch h

theorem RoundTrip.copyCompletion (b c : Nat) : RoundTrip.Statement (.copyCompletion b c) := fun h => nomatch h

theorem RoundTrip.collectiveAcceptance (b k : Nat) : RoundTrip.Statement (.collectiveAcceptance b k) := fun h => nomatch h

theorem RoundTrip.commandAcceptance (b k : Nat) : RoundTrip.Statement (.commandAcceptance b k) := fun h => nomatch h

theorem RoundTrip.commandStart (b c : Nat) : RoundTrip.Statement (.commandStart b c) := fun h => nomatch h

theorem RoundTrip.commandRetire (b c : Nat) : RoundTrip.Statement (.commandRetire b c) := fun h => nomatch h

theorem RoundTrip.streamReadahead (b n k : Nat) : RoundTrip.Statement (.streamReadahead b n k) := fun h => nomatch h

theorem RoundTrip.pushRetire (b n : Nat) : RoundTrip.Statement (.pushRetire b n) := fun h => nomatch h

theorem RoundTrip.remoteOperation (f kind : Nat) (off : Nat) (operand : DWord) : RoundTrip.Statement (.remoteOperation f kind off operand) := fun h => nomatch h

theorem RoundTrip.remoteCompletion (b n : Nat) (ok : Bool) : RoundTrip.Statement (.remoteCompletion b n ok) := fun h => nomatch h

theorem RoundTrip.replayPlacement (sid : Nat) : RoundTrip.Statement (.replayPlacement sid) := fun h => nomatch h

theorem RoundTrip.holdTimeout (sid : Nat) : RoundTrip.Statement (.holdTimeout sid) := fun h => nomatch h

theorem RoundTrip.loanCycleBreak (sids : List Nat) : RoundTrip.Statement (.loanCycleBreak sids) := fun h => nomatch h

theorem RoundTrip.capacityTimeout (sid : Nat) : RoundTrip.Statement (.capacityTimeout sid) := fun h => nomatch h

theorem RoundTrip.cdemFenced (core : Nat) : RoundTrip.Statement (.cdemFenced core) := fun h => nomatch h

theorem RoundTrip.coreFailure (core : Nat) : RoundTrip.Statement (.coreFailure core) := fun h => nomatch h

theorem RoundTrip.stackRequest (ch : Nat) : RoundTrip.Statement (.stackRequest ch) := fun h => nomatch h

theorem RoundTrip.stackReply (ch tag found : Nat) : RoundTrip.Statement (.stackReply ch tag found) := fun h => nomatch h

theorem RoundTrip.dieLinkFlit (link : Nat) (good : Bool) : RoundTrip.Statement (.dieLinkFlit link good) := fun h => nomatch h

theorem RoundTrip.solustFlit (port seq : Nat) (rx : FlitRx) :
    RoundTrip.Statement (.solustFlit port seq rx) := fun h => nomatch h

theorem RoundTrip.ckpctlSave : RoundTrip.Statement (.ckpctlSave) := fun h => nomatch h

theorem RoundTrip.ckpctlRestore : RoundTrip.Statement (.ckpctlRestore) := fun h => nomatch h

theorem RoundTrip.checkpointRequestFlit (restore : Bool) (tdev image : Nat) : RoundTrip.Statement (.checkpointRequestFlit restore tdev image) := fun h => nomatch h

theorem RoundTrip.checkpointEnd (err : Nat) : RoundTrip.Statement (.checkpointEnd err) := fun h => nomatch h

theorem RoundTrip.fleetKeyDelivery (key : BitVec 256) : RoundTrip.Statement (.fleetKeyDelivery key) := fun h => nomatch h

theorem RoundTrip.hostWindowAccess (a : WinAcc) : RoundTrip.Statement (.hostWindowAccess a) := fun h => nomatch h

theorem RoundTrip.hcwinWrite (v : DWord) : RoundTrip.Statement (.hcwinWrite v) := fun h => nomatch h

theorem RoundTrip.keymapWrite (p : Nat) (v : DWord) : RoundTrip.Statement (.keymapWrite p v) := fun h => nomatch h

theorem RoundTrip.firmwareLoad (image : List Byte) (sig : List Byte) : RoundTrip.Statement (.firmwareLoad image sig) := fun h => nomatch h

theorem RoundTrip.powerUp : RoundTrip.Statement (.powerUp) := fun h => nomatch h

theorem RoundTrip.thermalShutdown : RoundTrip.Statement (.thermalShutdown) := fun h => nomatch h

theorem RoundTrip.clockThrottle (on : Bool) : RoundTrip.Statement (.clockThrottle on) := fun h => nomatch h

theorem RoundTrip.getVersion : RoundTrip.Statement (.getVersion) := fun h => nomatch h

theorem RoundTrip.getCapabilities : RoundTrip.Statement (.getCapabilities) := fun h => nomatch h

theorem RoundTrip.negotiateAlgorithms : RoundTrip.Statement (.negotiateAlgorithms) := fun h => nomatch h

theorem RoundTrip.getDigests : RoundTrip.Statement (.getDigests) := fun h => nomatch h

theorem RoundTrip.getCertificate : RoundTrip.Statement (.getCertificate) := fun h => nomatch h

theorem RoundTrip.challenge (nonce : BitVec 256) : RoundTrip.Statement (.challenge nonce) := fun h => nomatch h

theorem RoundTrip.getMeasurements (nonce : BitVec 256) : RoundTrip.Statement (.getMeasurements nonce) := fun h => nomatch h

theorem RoundTrip.keyExchange (f : Nat) (pub : BitVec 768) : RoundTrip.Statement (.keyExchange f pub) := fun h => nomatch h

theorem RoundTrip.finish (mac : BitVec 384) : RoundTrip.Statement (.finish mac) := fun h => nomatch h

theorem RoundTrip.endSession : RoundTrip.Statement (.endSession) := fun h => nomatch h

theorem RoundTrip.ideKm (stream : Nat) (key : BitVec 256) : RoundTrip.Statement (.ideKm stream key) := fun h => nomatch h

theorem RoundTrip.lockInterface (f : Nat) (policyKey : BitVec 768) : RoundTrip.Statement (.lockInterface f policyKey) := fun h => nomatch h

theorem RoundTrip.interfaceUnlock (f : Nat) (error : Bool) : RoundTrip.Statement (.interfaceUnlock f error) := fun h => nomatch h

theorem RoundTrip.policyDelivery (f : Nat) (rec : List Byte) : RoundTrip.Statement (.policyDelivery f rec) := fun h => nomatch h

theorem RoundTrip.condreq : RoundTrip.Statement (.condreq) := fun h => nomatch h

theorem RoundTrip.conditionReportSpdm (nonce : BitVec 256) : RoundTrip.Statement (.conditionReportSpdm nonce) := fun h => nomatch h

theorem RoundTrip.conditionReportFlit (port : Nat) (nonce : BitVec 256) : RoundTrip.Statement (.conditionReportFlit port nonce) := fun h => nomatch h

theorem RoundTrip.debugHalt (a : Via) (cmd : DWord) : RoundTrip.Statement (.debugHalt a cmd) := fun h => nomatch h

theorem RoundTrip.debugResume (a : Via) (cmd : DWord) : RoundTrip.Statement (.debugResume a cmd) := fun h => nomatch h

theorem RoundTrip.debugStep (a : Via) (cmd : DWord) : RoundTrip.Statement (.debugStep a cmd) := fun h => nomatch h

theorem RoundTrip.debugReadRegister (a : Via) (cmd : DWord) : RoundTrip.Statement (.debugReadRegister a cmd) := fun h => nomatch h

theorem RoundTrip.debugWriteRegister (a : Via) (cmd : DWord) : RoundTrip.Statement (.debugWriteRegister a cmd) := fun h => nomatch h

theorem RoundTrip.lmctlTrack (v : Nat) (on : Bool) : RoundTrip.Statement (.lmctlTrack v on) := fun h => nomatch h

theorem RoundTrip.lmctlSnap (v : Nat) : RoundTrip.Statement (.lmctlSnap v) := fun h => nomatch h

theorem RoundTrip.lmctlQuiesce (v : Nat) : RoundTrip.Statement (.lmctlQuiesce v) := fun h => nomatch h

theorem RoundTrip.quiesceDone (v : Nat) : RoundTrip.Statement (.quiesceDone v) := fun h => nomatch h

theorem RoundTrip.lmctlResume (v : Nat) : RoundTrip.Statement (.lmctlResume v) := fun h => nomatch h

theorem RoundTrip.unitRetirement (u : HUnit) : RoundTrip.Statement (.unitRetirement u) := fun h => nomatch h

theorem RoundTrip.deviceReset : RoundTrip.Statement (.deviceReset) := fun h => nomatch h

theorem RoundTrip.registerWrite (a : Via) (off : Nat) (v : DWord) : RoundTrip.Statement (.registerWrite a off v) := fun h => nomatch h

theorem RoundTrip.releaseWait (b n : Nat) : RoundTrip.Statement (.releaseWait b n) := fun h => nomatch h

theorem RoundTrip.interfaceRun (f : Nat) : RoundTrip.Statement (.interfaceRun f) := fun h => nomatch h

theorem RoundTrip.linkFailure (u : HUnit) : RoundTrip.Statement (.linkFailure u) := fun h => nomatch h

end Sys2Proof.Laws
end

