-- ==== Sys2Proof/Laws/Save.lean ====
section
/-! SUPPORT. What the layout of a save area does (R420). -/

namespace Sys2Proof.Machine

open Sys2Proof

/-- Sections that lie within a region leave its size as it is. -/
theorem layout_length (size : Nat) (secs : List (Nat × List Byte)) (h : ∀ p ∈ secs, p.1 + p.2.length ≤ size) :
    (layout size secs).length = size := by
  suffices ∀ bs : List Byte, bs.length = size →
      (secs.foldl (fun bs p => bs.take p.1 ++ p.2 ++ bs.drop (p.1 + p.2.length)) bs).length = size from
    this _ (List.length_replicate ..)
  induction secs with
  | nil => exact fun _ hb => hb
  | cons p ps ih =>
    intro bs hb
    refine ih (fun q hq => h q (List.mem_cons_of_mem _ hq)) _ ?_
    have := h p List.mem_cons_self
    simp; omega

end Sys2Proof.Machine
end

