-- ==== Sys2Proof/Tests/Slice0.lean ====
section
/-! SUPPORT. Tests: words of the spec's encodings, an ill-formed term for every check, the spec's worked examples, and for
every obligation states that meet its hypotheses. Expected values come from the spec or from hand calculation. -/

set_option Elab.async false
set_option maxRecDepth 100000

open Sys2Proof Sys2Proof.Machine

namespace Sys2Proof.Tests

/-! ### Helpers -/

/-- A header without waits, guarded by p7. -/
def h0 : Hdr := ⟨4, 0, 7, 0, 7, false⟩

/-- The state whose next step runs an instruction. -/
def at0 (i : Instr) : State := State.reset.boot (encode i)

/-- The record of an instruction's issue in a state. -/
def issueIn (i : Instr) (s : State) : Option Iss :=
  match prep i s with
  | .go y => some y
  | _ => none

/-- A check on the issue of an instruction in the boot state as `f` changes it. -/
def onIssue (i : Instr) (f : State → State) (p : State → Iss → Bool) : Bool :=
  (issueIn i (f (at0 i))).any (p (f (at0 i)))

/-- A change of the booted band. -/
def onBand (f : Band → Band) (s : State) : State := s.modBand 0 0 f

/-- A change of the booted block. -/
def onBlk (f : Block → Block) (s : State) : State := s.modBlk 0 f

/-- Every instruction of a list is well formed, and issues with eight lanes as the first of a running device. -/
def issueAll (is : List Instr) : Bool := is.all fun i => i.wf && onIssue i id fun _ y => y.ex.length == 8

/-- The bands' lanes hold a word in a register. -/
def withV (r : Nat) (v : Nat → Word) (x : Band) : Band :=
  { x with lanes := (List.range x.lanes.length).map fun l => (x.lane l).setV r (v l) }

/-! ### Every instruction issues -/

def i2 : Int2 := ⟨4, .v 6, .v 8, .s32⟩
def ii : IntI := ⟨4, .v 6, 100, .s64⟩
def i1 : Int1 := ⟨4, .v 6, .s16⟩
def i3 : Int3 := ⟨4, .v 6, .v 8, 10, .s32⟩
def l2 : Log2 := ⟨4, .v 6, .u 8, true⟩
def li : LogI := ⟨4, .v 6, 33, false⟩
def l1 : Log1 := ⟨4, .u 6, true⟩

theorem witness_issue_integer : issueAll [.iadd h0 i2, .isub h0 i2, .imul h0 i2, .imulh h0 i2, .ineg h0 i1, .iabs h0 i1,
    .imin h0 i2, .imax h0 i2, .iaddsat h0 i2, .isubsat h0 i2, .icmp h0 ⟨1, .v 6, .v 8, .z8, .lt⟩, .idiv h0 i2, .irem h0 i2,
    .imad h0 i3, .imadw h0 i3, .iclamp h0 i3] = true := by decide +kernel

theorem witness_issue_integer_immediate : issueAll [.iaddImm h0 ii, .isubImm h0 ii, .imulImm h0 ii, .iminImm h0 ii,
    .imaxImm h0 ii, .icmpImm h0 ⟨1, .v 6, 7, .z64, .ge⟩, .idivImm h0 ii, .iremImm h0 ii] = true := by decide +kernel

theorem witness_issue_logic : issueAll [.and h0 l2, .or h0 l2, .xor h0 l2, .andn h0 l2, .not h0 l1, .shl h0 ⟨4, .v 6, .v 8, true⟩,
    .shr h0 l2, .sar h0 l2, .rol h0 l2, .ror h0 l2, .popc h0 l1, .clz h0 l1, .ctz h0 l1, .brev h0 l1, .bperm h0 ⟨4, .v 6, .v 9⟩,
    .clmulLo h0 ⟨4, .v 6, .v 8⟩, .clmulHi h0 ⟨4, .v 6, .v 8⟩] = true := by decide +kernel

theorem witness_issue_bits : issueAll [.lop3 h0 ⟨4, .v 6, .v 8, 10, 0x96, true⟩, .fsh h0 ⟨4, .v 6, .v 8, 9, true⟩,
    .bfe h0 ⟨4, .v 6, 24, 8, .s32⟩, .bfi h0 ⟨4, .v 6, .v 8, 60, 4, true⟩, .andImm h0 li, .orImm h0 li, .xorImm h0 li,
    .shlImm h0 li, .shrImm h0 li, .sarImm h0 li, .rolImm h0 li, .rorImm h0 li] = true := by decide +kernel

theorem witness_issue_predicates_moves : issueAll [.pand h0 ⟨7, 1, 2, true, false⟩, .por h0 ⟨0, 1, 7, false, false⟩,
    .pxor h0 ⟨6, 1, 2, false, true⟩, .pnot h0 ⟨1, 7⟩, .p2v h0 4, .v2p h0 ⟨4, 0x7F⟩, .mov h0 ⟨.u 4, .v 6, true⟩,
    .movIndexedRead h0 ⟨.v 4, .v 6⟩, .movIndexedWrite h0 ⟨4, .v 6⟩, .isel h0 ⟨4, .v 6, .v 8, 1, true, true⟩,
    .iselImm h0 ⟨4, .v 6, 5, 1, false⟩, .movi h0 ⟨.v 9, 7⟩, .lea h0 ⟨4, .v 6, .v 9, 0x800000, 15, true, true⟩,
    .movw h0 ⟨.u 4, 1⟩] = true := by decide +kernel

theorem witness_issue_control : issueAll [.nop64 h0, .exit h0, .ret h0 (.v 6), .yield h0, .brx h0 (.u 6), .nop96 h0,
    .bra h0 0xFFFFFFFC, .call h0 ⟨4, 64⟩, .dbra h0 ⟨5, 64⟩, .nop128 h0] = true := by decide +kernel

def f2 : F2 := ⟨4, .v 6, .v 8, .rdyn, false, true, false⟩
def fd : FDiv := ⟨4, .v 6, .v 8, .rup, true⟩
def fm : FMm := ⟨4, .v 6, .v 8, true⟩
def f1 : F1 := ⟨4, .v 6, .rdn, false⟩
def f3 : F3 := ⟨4, .v 6, .v 8, 10, .rtz, false, true, true⟩
def fi : FI := ⟨4, .v 6, 0x3F800000, .rne, false, true⟩
def fi2 : FMmI := ⟨4, .v 6, 0x3F800000, true⟩
def fc : FCmp := ⟨1, .v 6, .v 8, .un, true, true⟩

theorem witness_issue_fp32 : issueAll [.fadd h0 f2, .fsub h0 f2, .fmul h0 f2, .fmin h0 fm, .fmax h0 fm, .fcmp h0 fc,
    .fdiv h0 fd, .fsqrt h0 f1, .frcp h0 f1, .frsq h0 f1, .fexp2 h0 f1, .flog2 h0 f1, .fsin h0 f1, .fcos h0 f1, .frnd h0 f1,
    .fclass h0 ⟨4, .u 6⟩, .ffma h0 f3] = true := by decide +kernel

theorem witness_issue_conversions : issueAll [.faddImm h0 fi, .fmulImm h0 fi, .fminImm h0 fi2, .fmaxImm h0 fi2,
    .fcmpImm h0 ⟨1, .v 6, 0, .ord, false, false⟩, .fcvt h0 ⟨4, .v 6, .rne, false, true, .e4m3, .e5m2, 3⟩,
    .icvt h0 ⟨4, .v 6, true, .rtz, false, .bf16, .z64⟩, .fpack h0 ⟨4, .v 6, 8, true, .rne, false, .e5m2⟩,
    .hfma2 h0 ⟨4, .v 6, .v 8, 9, .rne, true, true⟩, .dot4 h0 ⟨4, .v 6, .v 8, 9, .rne, false, .f16⟩] = true := by decide +kernel

theorem witness_issue_fp64 : issueAll [.dadd h0 f2, .dmul h0 f2, .ddiv h0 fd, .dsqrt h0 f1, .dcmp h0 fc, .dmin h0 fm,
    .dmax h0 fm, .dcvt h0 ⟨4, .v 6, .rne, false, .f64, .z32⟩, .dfma h0 f3] = true := by decide +kernel

def xc : Xchg := ⟨4, 6, .lit 3, true, 1⟩

theorem witness_issue_exchange : issueAll [.xchgIdx h0 ⟨4, 6, .v 9, false, 7⟩, .xchgUp h0 xc, .xchgDown h0 xc, .xchgXor h0 xc,
    .voteAll h0 ⟨1, 2, true⟩, .voteAny h0 ⟨1, 2, false⟩, .voteBallot h0 ⟨.u 4, 2, true, true⟩, .matchB h0 ⟨4, 6, true, true, 1⟩,
    .redb h0 ⟨.u 4, 6, .rne, false, .addb⟩, .elect h0 1, .sread h0 ⟨.v 4, .ctime⟩] = true := by decide +kernel

theorem witness_issue_barriers : issueAll [.barArr h0 ⟨.lit 15, .blk⟩, .barWait h0 ⟨.u 4, .blk⟩, .barSync h0 ⟨.lit 0, .blk⟩,
    .barInv h0 ⟨.lit 1, .blk⟩, .barInit h0 ⟨.lit 1, .blk, 3⟩, .joinE h0 0, .joinW h0 1, .joinX h0 3] = true := by decide +kernel

theorem witness_issue_memory : issueAll [.ld h0 ⟨4, .v 6, .b128, .sync .dev, 64⟩, .st h0 ⟨.v 6, .v 8, .b128, .rlx, 64⟩,
    .lds h0 ⟨4, .v 6, .s8, .rlx, 3⟩, .sts h0 ⟨.v 6, .v 8, .z8, .sync .clu, 3⟩, .ldf h0 ⟨4, .v 6, .v 8, 0⟩,
    .fence h0 ⟨.ar, .sys⟩, .lflush h0 .all, .linv h0 (.lines (.v 6)),
    .atom h0 ⟨4, .v 6, .v 8, 10, .ar .dev, .cas, true, 64⟩, .red h0 ⟨.v 6, .v 8, .rlx, .addf, false, 64⟩,
    .ldw h0 ⟨4, .v 6, .b64, 64⟩, .chk h0 64, .prf h0 ⟨.v 6, 0, true⟩, .rngCommit h0 ⟨4, 0x80000001⟩] = true := by
  decide +kernel

theorem witness_issue_streams_copies : issueAll [.strmPos h0 ⟨4, 7⟩, .strmSet h0 ⟨0, 4⟩, .strmEnd h0 ⟨1, 0, true⟩,
    .strmCfg h0 ⟨0, 4, false, true, false, 3, .b32, 0, 0⟩, .waitc h0 ⟨0, .cpy⟩, .ringWait h0 ⟨7, 0⟩, .ringRel h0 ⟨0⟩,
    .ringInit h0 ⟨0, 2, 0, 4⟩, .cpy h0 ⟨4, 6, 8, false, .scr, .blk, none, 0, 0⟩,
    .cpyCol h0 ⟨4, 6, 8, true, .glob, .dev, some ⟨1, .blk⟩, 0, 0⟩,
    .cpyPl h0 ⟨0, 4, 6, .clu, none, some ⟨8, 2⟩⟩] = true := by decide +kernel

def mf : MFields := ⟨1, .none, .cmd 2⟩

theorem witness_issue_matrix : issueAll [.gangSet h0 (.lit 1), .gangClr h0, .cmdWait h0 63, .tileGet h0 ⟨4, 15, true⟩,
    .accClr h0 ⟨5, mf, 0⟩, .tileSet h0 ⟨1, .u 4⟩, .mma h0 ⟨0, 1, 2, mf⟩, .planePack h0 ⟨0, 4, 5, mf, true, 1⟩,
    .planeUnpack h0 ⟨0, 4, 5, mf, false⟩, .accRd h0 ⟨.regs 4, mf, 0, .f32, false, .rne, false, ⟨0, 8, 0, 8⟩, false⟩,
    .accWr h0 ⟨4, 5, mf, 0, ⟨0, 64, 0, 64⟩, true⟩, .cbtLd h0 ⟨4, mf⟩] = true := by decide +kernel

theorem witness_issue_system : issueAll [.trap h0 255, .sys h0 0, .brk h0 1, .rte h0 true, .halt h0 false, .migr h0 .home,
    .ctxSave h0 4, .ctxRest h0 4, .tlbinv h0 (.va 4 6), .scrub h0 (.v 6), .csrRd h0 ⟨.v 4, 0x001⟩,
    .csrWr h0 ⟨0x003, .v 6⟩] = true := by decide +kernel

/-! ### Words that the spec writes out -/

theorem test_decode_iadd_guarded : decode 0x0006_0504_0005_1150 = .ok (.iadd ⟨4, 5, 1, 2, 2, false⟩ ⟨4, .v 5, .v 6, .s32⟩) := by
  decide +kernel
theorem test_decode_movi : decode 0x1234_5678_0000_0009_280E_7005 = .ok (.movi ⟨1, 0, 7, 0, 7, false⟩ ⟨.v 9, 0x12345678⟩) := by
  decide +kernel
/-- The three changes of the example of R57 and R68: SB = 1, LEN 0 at a 96-bit offset, and an opcode of group 15. -/
theorem test_decode_refusals : (match decode 0x1234_5678_0001_0009_280E_7005, decode 0x0000_0009_280E_7004,
    decode 0x1234_5678_0000_0009_F00E_7005 with
    | .bad _, .bad _, .bad _ => true
    | _, _, _ => false) = true := by decide +kernel
theorem test_decode_icmp_immediate : decode 0x0000_0064_4000_0401_0B4E_7009 =
    .ok (.icmpImm ⟨2, 0, 7, 0, 7, false⟩ ⟨1, .v 4, 100, .s32, .lt⟩) := by decide +kernel
theorem test_decode_ffma : decode 0x0000_000B_8603_0908_4812_7019 =
    .ok (.ffma ⟨6, 0, 7, 0, 1, true⟩ ⟨8, .v 9, .u 3, 11, .rtz, false, false, true⟩) := by decide +kernel
theorem test_decode_xchg_down : decode 0x1204_0504_7082_7004 =
    .ok (.xchgDown ⟨1, 0, 7, 0, 1, false⟩ ⟨4, 5, .lit 4, false, 2⟩) := by decide +kernel
theorem test_decode_ld_acquire : decode 0x0400_0040_3000_0604_980E_0005 =
    .ok (.ld ⟨1, 0, 0, 0, 7, false⟩ ⟨4, .v 6, .b32, .sync .dev, 0x40⟩) := by decide +kernel
theorem test_decode_ldw : decode 0x0000_0000_1000_080A_A88E_0005 =
    .ok (.ldw ⟨1, 0, 0, 0, 7, false⟩ ⟨10, .v 8, .b32, 0⟩) := by decide +kernel
/-- MOD 0x30 would ask `ldw` for an acquire, which R314 does not allow. -/
theorem test_decode_ldw_acquire_refused : (match decode 0x0000_0000_3000_080A_A88E_0005 with
    | .bad _ => true
    | .ok _ => false) = true := by decide +kernel
theorem test_decode_mma : decode 0x0000_0000_0000_2001_0003_0200_DE4E_7006 =
    .ok (.mma ⟨1, 0, 7, 0, 7, false⟩ ⟨0, 2, 3, ⟨1, .ring 0 0, .none⟩⟩) := by decide +kernel
theorem test_decode_mma_two_rings : decode 0x0000_0000_0020_6001_0003_0200_DE4E_7006 =
    .ok (.mma ⟨1, 0, 7, 0, 7, false⟩ ⟨0, 2, 3, ⟨1, .ring 0 0, .ring 1 0⟩⟩) := by decide +kernel
theorem test_decode_mma_reserved_predecessor : (match decode 0x0000_0000_0000_3001_0003_0200_DE4E_7006 with
    | .bad _ => true
    | .ok _ => false) = true := by decide +kernel
theorem test_decode_cpy_pl : decode 0x0000_0000_0000_0010_0008_0201_CE86_7006 =
    .ok (.cpyPl ⟨1, 0, 7, 0, 3, false⟩ ⟨1, 2, 8, .blk, none, none⟩) := by decide +kernel
/-- `sys 5` (R414) and `bar.sync.grid 0` (R225), assembled by hand from their tables. -/
theorem test_decode_sys_barrier : decode 0x0500_0000_E04E_7004 = .ok (.sys ⟨1, 0, 7, 0, 7, false⟩ 5) ∧
    decode 0x0300_0000_808E_7004 = .ok (.barSync ⟨1, 0, 7, 0, 7, false⟩ ⟨.lit 0, .grid⟩) := by decide +kernel
/-- `clmul.lo v16, v20, v8` and `csr.rd v2, TEPC`, assembled by hand from R135 and R413. -/
theorem test_decode_clmul_csr :
    decode 0x0C08_1410_13CE_7010 = .ok (.clmulLo ⟨4, 0, 7, 0, 7, false⟩ ⟨16, .v 20, .v 8⟩) ∧
    decode 0x0000_0021_0000_0002_E80E_0005 = .ok (.csrRd ⟨1, 0, 0, 0, 7, false⟩ ⟨.v 2, 0x021⟩) := by decide +kernel

/-! ### An ill-formed term for every check -/

def allIll (is : List Instr) : Bool := is.all fun i => !i.wf

theorem test_ill_header : allIll [.nop64 ⟨0, 0, 6, 0, 7, false⟩] = true := by decide
theorem test_ill_integer : allIll [.imulh h0 ⟨4, .v 6, .v 8, .s8⟩, .iabs h0 ⟨4, .v 6, .z32⟩, .imad h0 ⟨4, .v 6, .v 8, 10, .z16⟩,
    .imadw h0 ⟨4, .v 6, .v 8, 10, .s64⟩, .bfe h0 ⟨4, .v 6, 0, 8, .s16⟩, .bfe h0 ⟨4, .v 6, 25, 8, .s32⟩,
    .bfi h0 ⟨4, .v 6, .v 8, 33, 0, false⟩] = true := by decide
theorem test_ill_float : allIll [.fcvt h0 ⟨4, .v 6, .rne, false, true, .f16, .f32, 0⟩,
    .fcvt h0 ⟨4, .v 6, .rne, false, false, .f16, .f32, 1⟩, .fcvt h0 ⟨4, .v 6, .rne, false, false, .f32, .bf16, 2⟩,
    .fpack h0 ⟨4, .v 6, 8, true, .rne, false, .bf16⟩, .dcvt h0 ⟨4, .v 6, .rne, false, .f64, .f64⟩,
    .dcvt h0 ⟨4, .v 6, .rne, false, .f32, .s32⟩, .redb h0 ⟨.v 4, 6, .rtz, false, .addb⟩,
    .redb h0 ⟨.v 4, 6, .rne, true, .maxz⟩] = true := by decide
theorem test_ill_memory : allIll [.st h0 ⟨.v 6, .v 8, .s8, .rlx, 0⟩, .st h0 ⟨.v 6, .u 8, .b128, .rlx, 0⟩,
    .lds h0 ⟨4, .v 6, .b32, .unc, 0⟩, .sts h0 ⟨.v 6, .v 8, .s16, .rlx, 0⟩, .sts h0 ⟨.v 6, .v 8, .b32, .unc, 0⟩,
    .atom h0 ⟨4, .v 6, .v 8, 0, .rlx, .addf, true, 0⟩, .atom h0 ⟨4, .v 6, .v 8, 1, .rlx, .add, true, 0⟩,
    .red h0 ⟨.v 6, .v 8, .rlx, .exch, false, 0⟩, .red h0 ⟨.v 6, .v 8, .acq .dev, .add, false, 0⟩,
    .red h0 ⟨.v 6, .v 8, .rlx, .maxf, true, 0⟩] = true := by decide
theorem test_ill_streams_copies : allIll [.strmCfg h0 ⟨0, 4, false, false, false, 0, .b32, 1, 0⟩,
    .strmCfg h0 ⟨0, 4, true, false, false, 0, .fmt, 0, 0⟩, .strmCfg h0 ⟨0, 4, true, false, true, 0, .b32, 0, 0⟩,
    .ringInit h0 ⟨0, 1, 0, 1⟩, .ringInit h0 ⟨0, 9, 0, 1⟩, .ringInit h0 ⟨0, 2, 255, 1⟩, .ringInit h0 ⟨0, 2, 0, 0⟩,
    .ringInit h0 ⟨0, 2, 0, 1025⟩, .cpy h0 ⟨4, 6, 8, false, .scr, .band, none, 0, 0⟩,
    .cpy h0 ⟨4, 6, 8, false, .regs, .clu, none, 0, 0⟩, .cpyCol h0 ⟨4, 6, 8, false, .regs, .blk, none, 0, 0⟩,
    .cpy h0 ⟨4, 6, 8, false, .scr, .blk, none, 1, 0⟩, .cpyPl h0 ⟨0, 4, 6, .band, none, none⟩] = true := by decide
theorem test_ill_matrix : allIll [.tileSet h0 ⟨0, .ext 0x0400_0000⟩, .tileSet h0 ⟨0, .ext 0x80_0000_0000⟩,
    .tileSet h0 ⟨0, .ext 0x0200_0000_0000_0000⟩, .accWr h0 ⟨4, 5, mf, 0, ⟨0, 0, 0, 1⟩, true⟩,
    .accWr h0 ⟨4, 5, mf, 0, ⟨1, 64, 0, 1⟩, true⟩, .accWr h0 ⟨4, 5, mf, 0, ⟨0, 1, 0, 0⟩, true⟩,
    .accWr h0 ⟨4, 5, mf, 0, ⟨0, 1, 63, 2⟩, true⟩, .accRd h0 ⟨.regs 4, mf, 0, .f32, true, .rne, false, ⟨0, 8, 0, 8⟩, false⟩,
    .accRd h0 ⟨.regs 4, mf, 0, .bf16, false, .rne, false, ⟨0, 8, 0, 8⟩, true⟩,
    .accRd h0 ⟨.regs 4, mf, 0, .f32, false, .rup, false, ⟨0, 8, 0, 8⟩, true⟩,
    .accRd h0 ⟨.regs 4, mf, 0, .f32, false, .rne, true, ⟨0, 8, 0, 8⟩, true⟩] = true := by decide

/-! ### The spec's worked numbers -/

/-- 470.0 into E4M3 and E5M2, in each overflow rule (chapter 3). -/
theorem test_convert_470 :
    fcvtF .e4m3 .f32 .ne false .sat 0x43EB0000 = ⟨0x7E, Conds.sat ||| Conds.nx⟩ ∧
    fcvtF .e4m3 .f32 .ne false .ovf 0x43EB0000 = ⟨0x7F, Conds.ovf ||| Conds.nx⟩ ∧
    fcvtF .e4m3 .f32 .tz false .ovf 0x43EB0000 = ⟨0x7E, Conds.nx⟩ ∧
    fcvtF .e5m2 .f32 .ne false .sat 0x43EB0000 = ⟨0x5F, Conds.nx⟩ := by decide +kernel
/-- `fexp2` of one half in two modes. -/
theorem test_fexp2_half : fexp2 .ne false (fval .f32 0x3F000000) = ⟨0x3FB504F3, Conds.nx⟩ ∧
    fexp2 .up false (fval .f32 0x3F000000) = ⟨0x3FB504F4, Conds.nx⟩ := by decide +kernel
/-- The LC8 index 0x8216: its table word and weights. -/
theorem test_lc8_index : lc8Entry none 0x16 = 0x0228 ∧
    (List.range 8).map (lc8Weight none 0x8216) = [1, -5, 5, 1, 5, 1, 1, -1] := by decide +kernel
/-- The tree of a band's f32 sum (R109). -/
theorem test_redb_tree : redbTree (redbNode .addf .ne false)
    (fun l => [some 0x4B800000, some 0x3F800000, some 0x3F800000, some 0x3F800000].getD l none) 3 0 =
      some ⟨0x4B800001, Conds.nx⟩ := by decide +kernel
/-- An E4M3 dot product, with and without `.ftz`. -/
theorem test_dot4_e4m3 :
    let xs := [(0x38, 0x40), (0x40, 0x3C), (0xB8, 0x38), (0x7E, 0x01)].map fun p => (fval .e4m3 p.1, fval .e4m3 p.2)
    dot4F .ne false xs (fval .f32 0x3F000000) = ⟨0x40AC0000, 0⟩ ∧
    dot4F .ne true xs (fval .f32 0x3F000000) = ⟨0x40900000, 0⟩ := by decide +kernel
/-- Eight-bit sums: wrapping, saturating, fitting (chapter 4). -/
theorem test_iadd_s8 : (iop .add .s8 0x12345664 0xFFFFFF64).setWidth 32 = (0xFFFFFFC8 : Word) ∧
    isat false .s8 0x12345664 0xFFFFFF64 = ⟨0x7F, Conds.sat⟩ ∧ isat false .z8 0x12345664 0xFFFFFF64 = ⟨0xC8, 0⟩ := by decide
/-- 0xFFFFFF9C is below 100 as `.s32`, and not as `.z32`. -/
theorem test_icmp_sign : icmpB .s32 .lt 0xFFFFFF9C 100 = true ∧ icmpB .z32 .lt 0xFFFFFF9C 100 = false := by decide
/-- The contribution −15.75 of one cell under three exponents (R356). -/
theorem test_mma_term :
    let a : Group := ⟨[3, -5, 7], 126, 128⟩
    let b : Group := ⟨[2, 4, -1], 127, 0⟩
    mmaTerm (-2) a b = -63 ∧ mmaTerm (-1) a b = -32 ∧ mmaTerm 0 a b = -16 ∧
    (List.range 3).map (planeElem 4 [7, 7, 4, 2]) = [3, -5, 7] := by decide +kernel
/-- Four cells of an accumulator with X = −1 read into E4M3 (R393). -/
theorem test_acc_read_e4m3 :
    let o : AccRd := ⟨.regs 4, ⟨5, .none, .none⟩, 0, .e4m3, false, .rne, false, ⟨0, 1, 0, 4⟩, false⟩
    [(-32 : BitVec 64), 1000, 3, 1].map (accElem o 0 (-1)) =
      [(0xD8, 0), (0x7E, Conds.sat ||| Conds.nx), (0x3C, 0), (0x30, 0)] := by decide +kernel
/-- The check value of the CRC of R455 over the digits 1 to 9. -/
theorem test_crc64 : crc64 [0x31, 0x32, 0x33, 0x34, 0x35, 0x36, 0x37, 0x38, 0x39] = 0x6C40DF5F0B497347 := by decide +kernel
/-- The 3 × 3 grid under three curves (R199). -/
theorem test_hilbert_3x3 : (List.range 9).map (fun n => (({ bootPacket false with gx := 3, gy := 3, curve := 2 } : Packet).blockAt n)) =
    [(0, 0, 0), (1, 0, 0), (1, 1, 0), (0, 1, 0), (0, 2, 0), (1, 2, 0), (2, 2, 0), (2, 1, 0), (2, 0, 0)] := by decide +kernel
theorem test_morton_3x3 : (List.range 9).map (fun n => (({ bootPacket false with gx := 3, gy := 3, curve := 1 } : Packet).blockAt n)) =
    [(0, 0, 0), (1, 0, 0), (0, 1, 0), (1, 1, 0), (2, 0, 0), (2, 1, 0), (0, 2, 0), (1, 2, 0), (2, 2, 0)] := by decide +kernel
theorem test_tiled_3x3 : (List.range 9).map (fun n => (({ bootPacket false with gx := 3, gy := 3, curve := 3, tilew := 2 } : Packet).blockAt n)) =
    [(0, 0, 0), (1, 0, 0), (0, 1, 0), (1, 1, 0), (0, 2, 0), (1, 2, 0), (2, 0, 0), (2, 1, 0), (2, 2, 0)] := by decide +kernel

/-! ### Witnesses of the statements' hypotheses

`onIssue i f p = true` is `∃ y, Issues i (f (at0 i)) y` with the check `p` on it; a check that names several conditions
shows a state and operands that meet them together. -/

theorem issues_of_onIssue {i : Instr} {f : State → State} {p : State → Iss → Bool} (h : onIssue i f p = true) :
    ∃ y, Issues i (f (at0 i)) y ∧ p (f (at0 i)) y = true := by
  unfold onIssue issueIn at h
  unfold Issues
  split at h
  · exact ⟨_, by assumption, h⟩
  · exact absurd h (by simp)

/-- The booted device, about to run a `nop`. -/
def s0 : State := at0 (.nop64 h0)

/-- The booted block and its band. -/
def b0 : Block := bootBlock 0 false
def x0 : Band := (b0.band 0).getD default

theorem witness_DecodeInvertsEncode : [Instr.fsh h0 ⟨4, .v 6, .v 8, 9, true⟩, .nop128 h0, .movw h0 ⟨.u 4, 1⟩].all
    (fun i => i.isProgram && i.wf) = true := by decide +kernel

/-- The last codeword of a page, the longest instruction, and a value that starts with LEN = 3. -/
theorem witness_InstructionBytes :
    (match s0.fetchXl b0 false 0x1000 0, s0.fetch b0 false 0x1000 0 with
    | .ok _, .bytes _ => true
    | _, _ => false) = true ∧
    (let s := s0.bootBytes 0x10FF0 (leBytes 16 (encode (.nop128 h0)).toNat)
     match s.fetchXl b0 false 0x10FF0 0, s.fetch b0 false 0x10FF0 0 with
    | .ok _, .bytes _ => true
    | _, _ => false) = true ∧ (0xFFFF_FFFF_0000_0000_0000_0000_0000_0003 : BitVec 128).extractLsb' 0 2 = 3 := by
  decide +kernel

/-- A turn of core 0 with the booted band, and the same with the band in its handler. -/
def stepsDecoded (i : Instr) : Bool :=
  let s : State := { at0 i with agenda := [⟨3, .core 0, []⟩] }
  let u := { s with agenda := [] }.tick 3
  let v := (u.ageBands 0 (u.readyBands 0) (some (0, 0))).at' 0 0
  s.power == .running && u.pickFrom (u.readyBands 0) == some (0, 0) && (v.blk 0).any fun b => (b.band 0).any fun x =>
    b.st == .running && !x.halted && x.forced.isNone && x.choose.any fun ch =>
      (x.inh || x.dueTrap.isNone) && match v.fetch b x.inh ch.pc (lowest ch.active) with
        | .bytes w => decode w == .ok i
        | _ => false

theorem witness_StepRunsDecoded : stepsDecoded (.iadd h0 i2) = true ∧ stepsDecoded (.rte h0 true) = true := by decide +kernel

/-- A queue with a `nop` packet waits: `RING[0]` at 0x8000 with TYPE 0. -/
def sQueue (f : Queue → Queue) (pkt : List Byte) : State :=
  { s0.bootBytes 0x8000 pkt with
    fns := [(0, { queues := [(0, f { lqbase := 0x8000, lqctl := 0x11, lqdb := 1, lqctx := 0x4001 })] })] }

theorem witness_StepRunsEvents :
    ({ s0 with agenda := [⟨0, .event .deviceReset, []⟩] } : State).agenda = [⟨0, .event .deviceReset, []⟩] ∧
    (Instr.deviceReset).isProgram = false ∧ s0.power.admits .deviceReset = true ∧ Power.stopped.admits .deviceReset = true ∧ s0.agenda = [] ∧ s0.power = .running ∧
    ((sQueue id []).tick 1).doWork.isSome = true ∧ (∀ d ∈ s0.skew, d ≤ 2) ∧ s0.leadOk 1 [0, 1, 2, 0, 0, 2] = true ∧
    (s0.tick 1).doWork.isNone = true ∧ ((s0.tick 1).pickCoreNow.map (·.1)) = some 0 := by decide +kernel

/-- A wait mask whose token is not pending, lanes at two program counters, and one lane marked. -/
def sSplit : State := onBand (fun x => x.modLanes [0, 3] fun _ l => { l with pc := 0x1100 }) (at0 (.iadd h0 i2))

theorem witness_ReadyInstructionIssues :
    CanIssue (.iadd h0 i2) (at0 (.iadd h0 i2)) h0 (b0.setBand 0 x0) x0 ⟨false, 0x1000, [0, 1, 2, 3, 4, 5, 6, 7]⟩ ∧
    ((sSplit.blk 0).bind fun b => (b.band 0).bind Band.choose) = some ⟨false, 0x1000, [1, 2, 4, 5, 6, 7]⟩ := by
  refine ⟨⟨⟨rfl, ⟨b0, x0, ?_, ?_, ?_, ?_, ?_, ?_, rfl⟩, ?_, ⟨?_, ?_⟩, ?_, ?_, ?_, ?_, ?_, ?_, .inl ?_⟩, ?_, ?_⟩, ?_⟩ <;> decide +kernel

/-- A privileged instruction outside the handler; a register operand just beyond 240 registers. -/
theorem witness_DecodeTraps :
    (let s := onBand (fun x => { x with tstat := 0 }) (at0 (.rte h0 true))
     (s.blk s.curBlock).any fun b => (b.band s.curBand).any fun x =>
      privileged (.rte h0 true) && b.st == .running && !x.halted && !x.inh && x.choose.isSome) = true ∧
    (let i : Instr := .iadd h0 ⟨4, .v 6, .v 240, .s32⟩
     let s := at0 i
     (s.blk s.curBlock).any fun b => (b.band s.curBand).any fun x => b.st == .running && !x.halted && x.choose.any fun ch =>
       let x' := x.cleared ch
       let b' := b.setBand s.curBand x'
       (privTrap i x'.inh).isNone && !onlyA i && !onlyG i && (operandsG i).all (fun p => !p.misaligned b') &&
         ((operandsG i).find? ((s.setBlk s.curBlock b').beyond b')).any fun o => o.pos == 3) = true := by decide +kernel

/-- An instruction of the other profile; a pair that begins at an odd register; under SCHK a token set twice without a wait. -/
theorem witness_DecodeTraps_order :
    (onlyA (.idiv h0 i2) && !isAnnex b0.die) = true ∧
    (operandsG (.iadd h0 ⟨4, .v 7, .v 8, .s64⟩)).any (Opnd.misaligned b0) = true ∧
    (let h : Hdr := { h0 with sett := 2 }
     let i : Instr := .iadd h i2
     let x : Band := { x0 with bctl := 1, sched := [⟨2, 0, 2, true, true, .variable, []⟩] }
     x.schk && !x.stallSkip && (undersized b0 x h i).any fun e => e.cls == .stall) = true := by decide +kernel

/-- A state with the registers of function 0. -/
def withFn (x : Fn) (s : State) : State := { s with fns := [(0, x)] }

/-- A port with eight 32-bit elements at 0x9000, and what it holds for a pop. -/
def port8 (push : Bool) : Port := { cfg := true, pat := { push, ndim := 1, base := 0x9000, cnt := [8, 0, 0, 0], str := [4, 0, 0, 0] } }

/-- The booted band with the given first port. -/
def withPort (p : Port) (s : State) : State := onBand (fun x => { x with ports := modAt x.ports 0 fun _ => p }) s

/-- A push that its port takes, and the traps: not configured, wrong direction, misaligned. -/
theorem witness_Pushes :
    let i : Instr := .iadd h0 ⟨248, .v 6, .v 8, .s32⟩
    let f (p : Port) (q : Except PushStop (List PushAt) → Bool) : Bool := onIssue i (withPort p) fun _ y =>
      pushPort y.b i == some 0 && q (y.s.pushChecks y.b y.x y.pops 0 y.ex)
    let err (c : Nat) : Except PushStop (List PushAt) → Bool := fun r => match r with
      | .error (.trap t) => t.cause == c
      | .error (.loan _) | .error (.full _ _) | .error (.reg _) | .error .busy | .ok _ => false
    f (port8 true) (fun r => match r with
      | .ok es => es.length == 8
      | .error _ => false) = true ∧
    f {} (err 0) = true ∧ f (port8 false) (err 1) = true ∧
    f { port8 true with pat := { (port8 true).pat with base := 0x9002 } } (err 2) = true := by decide +kernel

/-- Operands of R127: a zero divisor, the most negative value by −1, an inexact quotient. -/
theorem witness_DivisionResults : onIssue (.idiv h0 i2) (onBand fun x => withV 8 (fun l => if l = 0 then 0 else 0xFFFFFFFF)
    (withV 6 (fun _ => 0x80000000) x)) (fun _ y => (y.env 0).v 8 == 0 && (y.env 7).v 6 == 0x80000000) = true ∧
    (-7 : Int) - 2 * (-7 : Int).tdiv 2 ≠ 0 ∧ IType.s32.sg = true := by decide +kernel

theorem witness_BitFunctions : (0 < (8 : BitVec 8).toNat ∧ (24 : BitVec 8).toNat + (8 : BitVec 8).toNat ≤ IType.s32.bits) ∧
    (0 < (1 : BitVec 8).toNat ∧ (63 : BitVec 8).toNat + (1 : BitVec 8).toNat ≤ IType.z64.bits) := by decide

/-- An index in range in every lane; an index that is the first out of range, in lane 2. -/
theorem witness_MoveResults :
    let idx (k : Word) : State → State := onBand fun x => withV 6 (fun l => if l = 2 then k else 3) x
    onIssue (.movIndexedRead h0 ⟨.v 4, .v 6⟩) (idx 239) (fun _ y => y.ex.all fun l => !y.b.badIndex ((y.env l).src (.v 6))) = true ∧
    onIssue (.movIndexedWrite h0 ⟨6, .v 9⟩) (idx 239) (fun _ y => y.ex.all fun l => !y.b.badIndex ((y.env l).v 6)) = true ∧
    onIssue (.movIndexedRead h0 ⟨.v 4, .v 6⟩) (idx 240)
      (fun _ y => y.ex.find? (fun l => y.b.badIndex ((y.env l).src (.v 6))) == some 2) = true ∧
    onIssue (.movIndexedWrite h0 ⟨6, .v 9⟩) (idx 240)
      (fun _ y => y.ex.find? (fun l => y.b.badIndex ((y.env l).v 6)) == some 2) = true := by decide +kernel

/-- Offsets that are and are not multiples of 4, and a count that ends. -/
theorem witness_ControlFlow :
    onIssue (.bra h0 8) id (fun _ y => y.ex.all fun _ => (y.pc + (8 : Word).signExtend 64).extractLsb' 0 2 == 0) = true ∧
    onIssue (.bra h0 6) id (fun _ y => y.ex.find? (fun _ => (y.pc + (6 : Word).signExtend 64).extractLsb' 0 2 != 0) == some 0) = true ∧
    onIssue (.dbra h0 ⟨5, 64⟩) (onBand (withV 5 fun l => if l = 0 then 1 else 2))
      (fun _ y => (y.env 0).v 5 - 1 == 0 && (y.env 1).v 5 - 1 == 1) = true ∧
    onIssue (.ret h0 (.v 6)) (onBand (withV 6 fun l => if l = 5 then 0x1001 else 0x1000))
      (fun _ y => y.ex.find? (fun l => ((y.env l).src64 (.v 6)).extractLsb' 0 2 != 0) == some 5) = true ∧
    onIssue (.brx h0 (.v 6)) (onBand (withV 6 fun _ => 0x1000)) (fun _ y => y.ex.all fun l =>
      ((y.env l).src64 (.v 6)).extractLsb' 0 2 == 0) = true := by decide +kernel

/-- A quiet and a signalling NaN. -/
theorem witness_NanOperands : (fval .f32 0x7FC00000).isNan = true ∧ (fval .f32 0x7FC00000).isSig = false ∧
    (fval .f32 0x7F800001).isSig = true ∧ (fval .f64 0x7FF0000000000001).isNan = true := by decide +kernel

/-- The least subnormal and the greatest value of FP32, and the greatest of E4M3. -/
theorem witness_ExactValuesRound : [(Fmt.f32, 1), (Fmt.f32, 0x7F7FFFFF), (Fmt.e4m3, 0x7E)].all (fun p =>
    decide (p.2 < 2 ^ p.1.bits) && match fval p.1 p.2 with
    | .fin _ _ _ _ => true
    | _ => false) = true := by decide +kernel

theorem witness_LaneSets : ([63, 0, 5] : List Nat).Nodup ∧ ([63, 0, 5] : List Nat) ≠ [] ∧ ∀ l ∈ ([63, 0, 5] : List Nat), l < 64 := by
  decide

/-- A block that is not sampled, with a last `ctime` that is later than the time, and earlier. -/
theorem witness_SpecialRegisters :
    onIssue (.sread h0 ⟨.v 4, .ctime⟩) (onBand fun x => { x with lastCtime := 9 })
      (fun _ y => y.b.sid.isNone && y.b.run == .plain && BitVec.ofNat 64 (y.s.now y.b.die) < y.x.lastCtime) = true ∧
    onIssue (.sread h0 ⟨.v 4, .launch⟩) (fun s => { s with time := 9 }) (fun _ y => y.b.sid.isNone && y.b.run == .plain &&
      (y.s.grid y.b.lid).isSome) = true := by
  decide +kernel

/-- Two units of a count of three, all three, and a registered copy. -/
theorem witness_BarrierPhases :
    let t : Barrier := { members := [0, 1, 2], cnt := 3 }
    ([0, 2] : List Nat).Nodup ∧ t.pend = [] ∧ t.arr = 0 ∧ t.gone = [] ∧ t.cpy = 0 ∧ 0 < t.cnt ∧ ([0, 2] : List Nat).length < t.cnt ∧
    ([0, 2, 1] : List Nat).length = t.cnt ∧ ({ t with cpy := 1 } : Barrier).cpy ≠ 0 ∧ 1 ∈ ({ t with pend := [1] } : Barrier).pend := by
  decide

/-- A barrier number in range and one beyond; a busy and an idle barrier; nothing to wait for. -/
theorem witness_BarrierInstructions :
    onIssue (.barSync h0 ⟨.lit 15, .blk⟩) id (fun _ y => (y.barTrap (.lit 15) .blk).isNone && !y.barReplay .blk &&
      !y.ex.isEmpty && y.s.orderReady y.b y.x .rel (BScope.scope .blk)) = true ∧
    onIssue (.barArr h0 ⟨.u 4, .blk⟩) (onBand fun x => x.setU 4 16) (fun _ y => (y.barTrap (.u 4) .blk).isSome) = true ∧
    onIssue (.barWait h0 ⟨.lit 0, .blk⟩) id (fun _ y => (y.barTrap (.lit 0) .blk).isNone && !y.barReplay .blk) = true ∧
    onIssue (.barInit h0 ⟨.lit 1, .blk, 3⟩) id (fun _ y => !y.ex.isEmpty && (y.barTrap (.lit 1) .blk).isNone &&
      !y.barReplay .blk && !y.s.barBusy y.b .blk (y.barNum (.lit 1))) = true ∧
    onIssue (.barInv h0 ⟨.lit 1, .blk⟩) (onBlk fun b => { b with bars := modAt b.bars 1 fun t => { t with pend := [0], arr := 1 } })
      (fun _ y => !y.ex.isEmpty && (y.barTrap (.lit 1) .blk).isNone && !y.barReplay .blk &&
        y.s.barBusy y.b .blk (y.barNum (.lit 1)) && y.b.sid.isNone) = true := by decide +kernel

/-- A band with a full mask, and one in which an enrolled lane still runs. -/
theorem witness_RejoinReleases :
    let x := { x0.modLanes [0, 1] (fun _ l => { l with st := .parked 2 }) with enrolled := [4, 0, 3, 7] }
    (x.lane 0).st = .parked 2 ∧ (∀ l, l < 64 → (x.enrolled.getD 2 0).getLsbD l = true → (x.lane l).st = .parked 2) ∧
    (x.lane 2).st ≠ .parked 3 ∧ (x.enrolled.getD 3 0).getLsbD 2 = true := by decide +kernel

/-- Every lane ended or parked, one on the highest mask. -/
theorem witness_ForcedRelease :
    let s := onBand (fun x => x.modLanes (List.range 8) fun n l => { l with st := if n = 4 then .parked 3 else .exited }) s0
    (s.blk 0).any (fun b => b.st == .running && (b.band 0).any fun x => !x.halted &&
      x.lanes.all (fun l => l.st == .exited || l.st == .parked 3) && x.lanes.any (fun l => l.st == .parked 3)) = true := by
  decide +kernel

theorem witness_LaneControl : onIssue (.exit h0) id (fun _ y => !y.ex.isEmpty && match y.s.exitScope y.b with
    | none => true
    | some sc => y.s.orderReady y.b y.x .rel sc) = true ∧
    onIssue (.joinW h0 3) (onBand fun x => { x with enrolled := [0, 0, 0, 5] }) (fun _ y => !y.ex.isEmpty) = true := by
  decide +kernel

/-! #### Memory -/

/-- The booted context with a range before its own. -/
def withRange (r : RangeSet) (s : State) : State := { s with ctxs := [(0, { bootCtx with ranges := r :: bootCtx.ranges })] }

/-- The booted core with one L1 line. -/
def withL1 (c : L1Line) (s : State) : State := { s with cores := [(0, { bootCore with l1 := [c] })] }

/-- Line 0, leased until 50 or owned. -/
def line0 (owned : Bool) : L1Line := ⟨0, owned, 50, false, 0, 0, List.replicate 128 7, [], 0⟩

/-- Lane l's base pair holds 8·l. -/
def strided : State → State := onBand fun x => withV 6 (fun l => BitVec.ofNat 32 (8 * l)) x

/-- Line 0 in its home's slice. -/
def warm (s : State) : State := s.setHome 0 { s.home 0 with inSlice := true }

/-- No lane of an access meets a loan, an access of its band to the line, or poison. -/
def Iss.free (y : Iss) (read unc : Bool) (n : Nat) (xs : List LaneX) : Bool :=
  (y.held read xs).isNone && (y.poisoned unc n xs).isNone

def Iss.reached (y : Iss) (k : AKind) (n : Nat) (base : Src) (disp : DWord) (p : List LaneX → Bool) : Bool :=
  match y.reach k n (y.addrs base disp) with
  | .ok xs => p xs
  | .error _ => false

/-- A load whose lanes lie in a leased line at both of its ends, a load from a window, an element of a formatted range. -/
theorem witness_LoadResults :
    onIssue (.ld h0 ⟨4, .v 6, .b64, .rlx, 64⟩) (withL1 (line0 false) ∘ strided) (fun _ y =>
      Iss.reached y .read 8 (.v 6) 64 fun xs => xs.length == 8 && xs.all (fun a => !isReg a.x.pa) && Iss.free y true false 8 xs &&
        xs.all fun a => decide (a.x.pa % 128 + 8 ≤ 128) && (y.handAll false a 8).any fun d => d.bs == List.replicate 8 7) = true ∧
    onIssue (.lds h0 ⟨4, .v 6, .b32, .rlx, 65532⟩) id (fun _ y => y.b.sid.isNone && y.b.run == .plain &&
      match y.s.scratchAll y.b y.k 4 (y.sAddrs (.v 6) 65532) with
      | .ok ws => ws.length == 8
      | .error _ => false) = true ∧
    onIssue (.ldf h0 ⟨4, .v 6, .v 8, 0x200000⟩) (withL1 { line0 false with line := 0x4000 } ∘
        withRange ⟨0x200001, 0x300000, 0x20010C⟩) (fun _ y =>
      Iss.reached y .read 1 (.v 6) 0x200000 fun xs => xs.length == 8 && xs.all fun a => !isReg a.x.pa &&
        (a.elemAt ((y.env a.lane).src (.v 8))).any fun e =>
          (y.held true (((a.reads e).flatMap fun r => r.1.pieces r.2).map fun p => { p.a with x := { p.a.x with pa := p.pa } })).isNone &&
          (a.reads e).all (fun r => (y.handAll false r.1 r.2).any fun d => !d.psn) && (y.elemVal a e).isSome) = true := by
  decide +kernel

/-- A load of lines that the core does not hold, and an uncached one of a line that it does. -/
theorem witness_LoadMissAsks :
    let ok (y : Iss) (i : Instr) (unc : Bool) : Bool := Iss.reached y .read 8 (.v 6) 64 fun xs =>
      (y.coldParts unc (xs.map fun a => (a, 8))).isEmpty && Iss.free y true unc 8 xs && xs.any (fun a => (y.handAll unc a 8).isNone) &&
        match y.portOk i y.s with
        | .ok _ => true
        | .error _ => false
    onIssue (.ld h0 ⟨4, .v 6, .b64, .sync .dev, 64⟩) (warm ∘ strided)
      (fun _ y => ok y (.ld h0 ⟨4, .v 6, .b64, .sync .dev, 64⟩) false) = true ∧
    onIssue (.ld h0 ⟨4, .v 6, .b64, .unc, 64⟩) (warm ∘ withL1 (line0 true))
      (fun _ y => ok y (.ld h0 ⟨4, .v 6, .b64, .unc, 64⟩) true) = true ∧
    onIssue (.ld h0 ⟨4, .v 6, .b64, .rlx, 64⟩) strided (fun _ y => Iss.reached y .read 8 (.v 6) 64 fun xs =>
      (y.held true xs).isNone && !(y.coldParts false (xs.map fun a => (a, 8))).isEmpty) = true := by decide +kernel

/-- Watched loads with room and with a full table; `chk` with a struck entry, with an unresolved one. -/
theorem witness_WatchedLoads :
    let ent (st : WatchSt) : WatchEnt := ⟨0, 0, 0, st, 9⟩
    let w (es : List WatchEnt) : State → State := onBand fun x => { x with watch := es }
    let ldw : Instr := .ldw h0 ⟨4, .v 6, .b64, 64⟩
    let ok (y : Iss) : Bool := y.b.sid.isNone && (Iss.reached y .read 8 (.v 6) 64 fun xs => Iss.free y true false 8 xs &&
      xs.all fun a => !isReg a.x.pa && (y.handAll false a 8).isSome) &&
        match y.portOk ldw y.s with
        | .ok _ => true
        | .error _ => false
    onIssue ldw (withL1 (line0 false)) (fun _ y => ok y && decide (y.x.watch.length + 1 ≤ y.x.watchCap)) = true ∧
    onIssue ldw (w (List.replicate 16 (ent .confirmed)) ∘ withL1 (line0 false))
      (fun _ y => ok y && decide (y.x.watchCap < y.x.watch.length + 1)) = true ∧
    onIssue (.chk h0 64) (w [ent .confirmed, ent .struck]) (fun _ y => !y.ex.isEmpty && y.x.watch.all (·.st != .unresolved) &&
      (y.b.sid.isNone && chkStruck y.x.watch (y.s.now y.b.die))) = true ∧
    onIssue (.chk h0 64) (w [ent .unresolved]) (fun _ y => !y.ex.isEmpty && y.x.watch.any (·.st == .unresolved)) = true ∧
    onIssue (.chk h0 66) id (fun _ y => !y.ex.isEmpty && (66 : Word).extractLsb' 0 2 != 0) = true := by decide +kernel

/-- A store to device memory, a remote store, a store to the last word of the window. -/
theorem witness_StoreInstructions :
    let ok (o : St) (y : Iss) : Bool := Iss.reached y .write (lsizeBytes o.sz) o.base (o.disp.signExtend 64) fun xs =>
      xs.length == 8 && (y.held false xs).isNone && (xs.all fun a => !isReg a.x.pa || (isAperture a.x.pa && o.sz == .b128 &&
        decide (remoteKind a.x.pa < 9))) && decide (y.x.rmtCnt + (xs.filter fun a => isReg a.x.pa).length ≤ counterMax) &&
        xs.all fun a => (y.s.provFull y.b a.x.pa).isNone
    onIssue (.st h0 ⟨.v 6, .v 8, .b64, .rlx, 64⟩) strided (fun _ y => ok ⟨.v 6, .v 8, .b64, .rlx, 64⟩ y) = true ∧
    onIssue (.st h0 ⟨.v 6, .v 8, .b64, .sync .dev, 64⟩) (fun s => { s with time := 4 }) (fun _ y =>
      ok ⟨.v 6, .v 8, .b64, .sync .dev, 64⟩ y && y.x.watch.isEmpty && y.s.orderReady y.b y.x .rel .dev && y.x.werr.isNone) = true ∧
    onIssue (.st h0 ⟨.v 6, .v 8, .b128, .rlx, 0⟩)
      (onBand (fun x => { withV 7 (fun _ => 0x70) x with tstat := 0x04000000, tmask := 0xFF, rmtOut := List.replicate 503 default }) ∘
        withRange ⟨0x7000000001, 0x7000010000, 0xF800000003C⟩)
      (fun _ y => ok ⟨.v 6, .v 8, .b128, .rlx, 0⟩ y && Iss.reached y .write 16 (.v 6) 0 (·.all fun a => isReg a.x.pa)) = true ∧
    onIssue (.sts h0 ⟨.v 6, .v 8, .b32, .rlx, 65532⟩) id (fun _ y => !y.b.later &&
      match y.s.scratchAll y.b y.k 4 (y.sAddrs (.v 6) 65532) with
      | .ok ws => ws.length == 8
      | .error _ => false) = true := by decide +kernel

/-- A block whose core owns a line, and one whose core does not. -/
theorem witness_StoredBytes : (s0.blk 0).any (fun b => b.sid.isNone && b.run == .plain) = true ∧ Memory.wf s0.mem = true ∧
    0x78 % 128 + (leBytes 8 5).length ≤ 128 ∧
    (withL1 (line0 true) s0).owns 0 (lineOf 0x40) = true ∧ s0.owns 0 (lineOf 0x40) = false := by decide +kernel

theorem witness_AtomicReadModifyWrite : (s0.blk 0).isSome = true ∧ Memory.wf s0.mem = true := by decide +kernel

/-- Eight lanes of an owned line, each with a word of its own; the same of a line that the core does not own; a reduction of
one word. -/
theorem witness_AtomicInstructions :
    let ok (y : Iss) (near : Bool) (p : List LaneX → Bool) : Bool := y.b.sid.isNone && y.b.run == .plain &&
      Iss.reached y .write 8 (.v 6) 64 fun xs => xs.length == 8 && xs.all (fun a => !isReg a.x.pa && !a.x.sc && !a.x.nc &&
        y.s.owns y.b.core (lineOf a.x.pa) == near) && (y.held false xs).isNone && (y.coldAtoms 8 xs).isEmpty &&
          (y.poisonedAtom 8 xs).isNone && p xs
    let i : Instr := .atom h0 ⟨4, .v 6, .v 8, 10, .ar .dev, .cas, true, 64⟩
    let go (y : Iss) : Bool := y.x.watch.isEmpty && y.s.orderReady y.b y.x .rel .dev && y.x.werr.isNone && match y.portOk i y.s with
      | .ok _ => true
      | .error _ => false
    onIssue i (fun s => { withL1 (line0 true) (strided s) with time := 4 }) (fun _ y =>
      ok y true (fun xs => (dupLane 8 xs).isNone) && go y) = true ∧
    onIssue i (fun s => { warm (strided s) with time := 4 }) (fun _ y => ok y false (fun xs => (dupLane 8 xs).isNone) && go y) = true ∧
    onIssue (.red h0 ⟨.v 6, .v 8, .rlx, .addf, true, 64⟩) (withL1 (line0 true)) (fun _ y => ok y true fun _ => true) = true ∧
    onIssue (.red h0 ⟨.v 6, .v 8, .rlx, .addf, true, 64⟩) warm (fun _ y => ok y false fun _ => true) = true := by decide +kernel

/-- A fence that is ordered, a line selection, a commit of two range sets from a table of zeros. -/
theorem witness_OrderingInstructions :
    onIssue (.fence h0 ⟨.ar, .sys⟩) (fun s => { s with time := 4 }) (fun _ y => !y.ex.isEmpty && y.x.watch.isEmpty &&
      y.s.orderReady y.b y.x .ar .sys && y.x.werr.isNone) = true ∧
    onIssue (.lflush h0 (.lines (.v 6))) (withL1 (line0 true)) (fun _ y => !y.ex.isEmpty && y.lineSel (.lines (.v 6)) 0) = true ∧
    onIssue (.linv h0 .all) (withL1 (line0 false)) (fun _ y => !y.ex.isEmpty && y.lineSel .all 0) = true ∧
    onIssue (.rngCommit h0 ⟨4, 0x00000003⟩) (withL1 { line0 false with line := 0x120, data := List.replicate 128 0 } ∘
        onBand fun x => x.setU 4 0x9000) (fun _ y =>
      let ks := [0, 1]
      !y.ex.isEmpty && match y.s.xlateAll y.b.core y.b.asid y.b.fn y.b.sid y.x.inh .read
          (ks.flatMap fun k => (rangeWords 0x9000 k).map fun a => (lowest y.act, a)) with
        | .ok xs => xs.all (fun q => !isReg q.x.pa) && Iss.free y true false 8 xs && (y.missing false (xs.map fun a => (a, 8))).isEmpty &&
          y.s.ctxQuiet y.b.asid && ks.all fun k => rangeOk (y.rangeAt (xs.filter fun a => (rangeWords 0x9000 k).contains a.va))
        | .error _ => false) = true := by decide +kernel

/-! #### Streams, waits, rings, gangs, copies, matrix commands -/

def isOk {α : Type} : Except Trap α → Bool
  | .ok _ => true
  | .error _ => false

/-- A descriptor at 0x9000 of eight words, a band with a port that has ended, and a pop from a configured port. -/
theorem witness_StreamInstructions :
    let o : StrmCfg := ⟨0, 4, false, true, false, 0, .b32, 0, 0⟩
    onIssue (.strmCfg h0 o) (withL1 { line0 false with
        line := 0x120
        data := leBytes 8 0xA000 ++ leBytes 4 8 ++ leBytes 12 0 ++ leBytes 104 4 } ∘ onBand (fun x => x.setU 4 0x9000)) (fun _ y =>
      !y.ex.isEmpty && match y.reach .read 64 [(lowest y.act, (y.x.u64 4).toNat)] with
        | .ok [a] => (y.held true [a]).isNone && !isReg a.x.pa &&
          (y.handAll false a 64).any fun d => !d.psn && patternOk (patternOf o (y.x.u64 4) d.bs) d.bs
        | _ => false) = true ∧
    onIssue (.strmEnd h0 ⟨1, 0, true⟩) (withPort { port8 false with endf := true }) (fun _ y => !y.ex.isEmpty) = true ∧
    onIssue (.strmSet h0 ⟨0, 4⟩) id (fun _ y => !y.ex.isEmpty) = true ∧
    onIssue (.iadd h0 ⟨4, .v 248, .v 248, .s32⟩) (fun s => (withPort (port8 false) s).setHome 0x120 { inSlice := true }) (fun s y => (s.blk s.curBlock).any fun b =>
      (b.band s.curBand).any fun x => popPorts b (.iadd h0 ⟨4, .v 248, .v 248, .s32⟩) == [(0, 2)] && decide (0 < x.ports.length) &&
        (y.x.ports.getD 0 {}).p == 8) = true := by decide +kernel

/-- Whether the lanes' translations end as given at the lowest lane. -/
def xlIs (y : Iss) (a : Nat) (f : Except XErr Xl → Bool) : Bool := f (y.s.xlate y.b.core y.b.asid y.b.sid a)

/-- A misaligned lane, a page that no range maps, a poisoned entry of the table, a range without W, a list of lanes. -/
theorem witness_AccessTraps_reach :
    onIssue (.ld h0 ⟨4, .v 6, .b64, .rlx, 4⟩) id (fun _ y => (y.addrs (.v 6) 4).any fun p => p.2 % 8 != 0) = true ∧
    onIssue (.st h0 ⟨.v 6, .v 8, .b64, .rlx, 0⟩) (onBand fun x => withV 7 (fun l => if l < 5 then 0 else 0x60) x) (fun _ y =>
      (y.addrs (.v 6) 0).all (fun p => p.2 % 8 == 0) && ((y.addrs (.v 6) 0).find? fun p => xlIs y p.2 fun r => !r.isOk) ==
        some (5, 0x60_0000_0000) && xlIs y 0x60_0000_0000 fun r => r == .error (.page 1)) = true ∧
    onIssue (.ldw h0 ⟨4, .v 6, .b64, 0⟩) (fun s => (onBand (fun x => withV 7 (fun _ => 0x60) x) s).setHome 0
      { inSlice := true, poisoned := true }) (fun _ y => xlIs y 0x60_0000_0000 fun r => r == .error .poison) = true ∧
    onIssue (.red h0 ⟨.v 6, .v 8, .rlx, .addf, true, 0⟩) (withRange ⟨1, 0x10000, 0x8⟩) (fun _ y =>
      (y.addrs (.v 6) 0).all fun p => xlIs y p.2 fun r => match r with
        | .ok x => !y.s.permOk y.b.fn y.x.inh .write x
        | .error _ => false) = true := by decide +kernel

/-- A poisoned line at hand; lanes of an atomic that overlap; a poisoned owned line; a descriptor that FMT refuses. -/
theorem witness_AccessTraps_data :
    onIssue (.ld h0 ⟨4, .v 6, .b64, .rlx, 64⟩) (fun s => (withL1 (line0 true) s).setHome 0 { inSlice := true, poisoned := true, owner := some 0 })
      (fun _ y => y.b.sid.isNone && Iss.reached y .read 8 (.v 6) 64 fun xs => (y.held true xs).isNone &&
        (y.coldParts false (xs.map fun a => (a, 8))).isEmpty &&
        (xs.find? fun a => ((y.handAll false a 8).map AtHand.psn).getD (y.s.poisonFor y.b a.x.pa 8)).isSome) = true ∧
    onIssue (.atom h0 ⟨4, .v 6, .v 8, 10, .rlx, .cas, true, 64⟩) (withL1 (line0 true)) (fun _ y => y.b.sid.isNone &&
      Iss.reached y .write 8 (.v 6) 64 fun xs => (y.held false xs).isNone && (xs.find? fun a => xs.any fun b =>
        b.lane != a.lane && a.x.pa < b.x.pa + 8 && b.x.pa < a.x.pa + 8).isSome) = true ∧
    onIssue (.red h0 ⟨.v 6, .v 8, .rlx, .addf, true, 64⟩)
      (fun s => (withL1 (line0 true) s).setHome 0 { inSlice := true, poisoned := true, owner := some 0 }) (fun _ y => y.b.sid.isNone &&
      y.b.run == .plain && Iss.reached y .write 8 (.v 6) 64 fun xs => (y.held false xs).isNone && (y.coldAtoms 8 xs).isEmpty &&
        (xs.find? fun a => ((y.came ⟨a, a.x.pa, 8⟩).map HeldData.psn).getD (y.s.poisonAt a.x.pa 8)).isSome) = true ∧
    (let o : StrmCfg := ⟨0, 4, false, true, false, 0, .b32, 0, 0⟩
     let cfg (n : Nat) (psn : Bool) : Bool := onIssue (.strmCfg h0 o) (fun s => (withL1 { line0 false with
        line := 0x120, data := leBytes 8 0xA000 ++ leBytes 4 n ++ leBytes 12 0 ++ leBytes 104 4 }
          (onBand (fun x => x.setU 4 0x9000) s)).setHome 0x120 { inSlice := true, poisoned := psn }) (fun _ y => !y.ex.isEmpty &&
        match y.reach .read 64 [(lowest y.act, (y.x.u64 4).toNat)] with
        | .ok [a] => (y.held true [a]).isNone && (y.handAll false a 64).any fun d => d.psn == psn &&
            (psn || !patternOk (patternOf o (y.x.u64 4) d.bs) d.bs)
        | _ => false)
     cfg 8 true && cfg 0 false) = true := by decide +kernel

/-- Scratchpad words beyond the window and misaligned; entries of the watch table and an error status before a release. -/
theorem witness_AccessTraps_scratch_release :
    onIssue (.lds h0 ⟨4, .v 6, .b32, .rlx, 65536⟩) id (fun _ y => y.b.sid.isNone && y.b.run == .plain &&
      (y.sAddrs (.v 6) 65536).all fun p => p.2.extractLsb' 26 6 == 0 && p.2.toNat % 4 == 0 &&
        match (y.s.windowOf y.b y.k (p.2.extractLsb' 20 6).toNat).bind y.s.blk with
        | none => true
        | some w => decide (w.window < (p.2.extractLsb' 0 20).toNat + 4)) = true ∧
    onIssue (.sts h0 ⟨.v 6, .v 8, .b64, .rlx, 4⟩) id (fun _ y => y.b.sid.isNone && y.b.run == .plain &&
      (y.sAddrs (.v 6) 4).any fun p => p.2.extractLsb' 26 6 != 0 || p.2.toNat % 8 != 0) = true ∧
    (let f (st : WatchSt) (e : Option DWord) : Bool := onIssue (.fence h0 ⟨.rel, .dev⟩)
        (fun s => { onBand (fun x => { x with watch := [⟨0, 0, 0, st, 9⟩], werr := e }) s with time := 4 }) (fun _ y =>
      !y.ex.isEmpty && y.x.watch.any (·.st == st) && (st == .unresolved || y.x.watch.all (·.st != .unresolved)) &&
        (e.isNone || (y.x.watch.all (·.st == .confirmed) && y.s.orderReady y.b y.x .rel .dev)))
     f .unresolved none && f .struck none && f .confirmed (some 0x9000)) = true := by decide +kernel

/-- An instruction that pops port 0 before port 1 meets an unconfigured one, one of the wrong direction, and a fault of the
element at lane 3; an element's causes 2, 3, 4 and 6. -/
theorem witness_AccessTraps_pops :
    (let i : Instr := .iadd h0 ⟨4, .v 248, .v 249, .s32⟩
     let f (p : Port) (g : State → Band → Block → Port → Bool) : Bool :=
       let s := onBand (fun x => { x with ports := modAt x.ports 1 fun _ => p })
         ((withPort (port8 false) (withL1 { line0 false with line := 0x120 } (at0 i))).setHome 0x120 { inSlice := true })
       (s.blk 0).any fun b₀ => (b₀.band 0).any fun x₀ => x₀.choose.any fun ch =>
         let x := x₀.cleared ch
         let b := b₀.setBand 0 x
         let t := s.setBlk 0 b
         popPorts b i == [(0, 2), (1, 3)] && b.st == .running && !x₀.halted && (privTrap i x.inh).isNone && !onlyA i && !onlyG i &&
           (operandsG i).all (fun o => !o.misaligned b && !s.beyond b o) && !x.schk && !x.mustWait b h0 i && !x.holding ch &&
           !x.copyHeld (namedRegs b i) && (pushPort b i).isNone && b.sid.isNone && (match t.popAll 0 0 b x [] (x.guarded h0 ch.active)
               (lowest ch.active) [(0, 2)] with
             | .ok _ _ _ => true
             | _ => false) && g t x b (x.ports.getD 1 {})
     f {} (fun _ _ _ p => !p.cfg) && f (port8 true) (fun _ _ _ p => p.cfg && p.pat.push) &&
       f { port8 false with pat := { (port8 false).pat with base := 0x5F_FFFF_FFF4 } } (fun t x b p => p.cfg && !p.pat.push &&
         (List.range 3).all (fun j => match t.popElem 0 0 b x.inh [] p j with
           | .fault _ _ => false
           | _ => true) && match t.popElem 0 0 b x.inh [] p 3 with
           | .fault c _ => c == 3
           | _ => false)) = true ∧
    (let ans (s : State) (base : DWord) : Nat := match s.readElem 0 0 b0 false []
        { port8 false with pat := { (port8 false).pat with base := base } } 0 with
      | .fault c _ => c
      | _ => 99
     let bad := (withL1 { line0 false with line := 0x120 } s0).setHome 0x120 { inSlice := true, poisoned := true }
     ans s0 0x9002 = 2 ∧ ans s0 0x60_0000_0000 = 3 ∧ ans (withRange ⟨1, 0x10000, 0x10⟩ s0) 0x9000 = 4 ∧ ans bad 0x9000 = 6 ∧
       ans (s0.setHome 0 { inSlice := true, poisoned := true }) 0x60_0000_0000 = 6) := by decide +kernel

/-- A ring of two slots, one filled and one released before it. -/
def ring2 : Ring := { s := 2, base := 0, z := 4, rsv := 2, fill := 2, rel := 1 }

def withRing (r : Ring) : State → State := onBlk fun b => { b with rings := modAt b.rings 0 fun _ => r }

/-- Both sides of each wait: counters at and above a threshold, commands, ring slots, releases. -/
theorem witness_WaitsAndRings :
    let cpys (n : Nat) : State → State := onBand fun x => { x with cpyOut := List.replicate n (1, false) }
    let wc : Instr := .waitc h0 ⟨3, .cpy⟩
    onIssue wc (cpys 3) (fun _ y => y.x.counter .cpy == 3) = true ∧ onIssue wc (cpys 4) (fun _ y => !y.ex.isEmpty && y.x.counter .cpy == 4) = true ∧
    onIssue (.cmdWait h0 63) id (fun _ y => !y.b.cmdPending y.x 63) = true ∧
    onIssue (.cmdWait h0 63) (fun s => onBand (fun x => { x with mmaOut := [(5, false)] })
      (onBlk (fun b => { b with cmds := [{ key := 5, seq := 0, id := 63, op := .accClr 0 0, p0 := .none, p1 := .none, st := .accepted, members := [0], capBand := 0 }] }) s))
      (fun _ y => !y.ex.isEmpty && y.b.cmdPending y.x 63) = true ∧
    onIssue (.ringWait h0 ⟨0, 2⟩) (withRing ring2) (fun _ y => !y.ex.isEmpty && decide ((y.b.ring 0).s ≤ 2)) = true ∧
    onIssue (.ringWait h0 ⟨0, 0⟩) (withRing ring2) (fun _ y => (y.b.ring 0).past ((y.b.ring 0).rel + 0)) = true ∧
    onIssue (.ringWait h0 ⟨0, 1⟩) (withRing ring2) (fun _ y => !(y.b.ring 0).past ((y.b.ring 0).rel + 1)) = true ∧
    onIssue (.ringRel h0 ⟨0⟩) (withRing { ring2 with rel := 2 }) (fun _ y => (y.b.ring 0).fill == (y.b.ring 0).rel) = true ∧
    onIssue (.ringRel h0 ⟨0⟩) (withRing ring2) (fun _ y => (y.b.ring 0).fill != (y.b.ring 0).rel && y.s.orderReady y.b y.x .rel .blk) = true ∧
    onIssue (.ringInit h0 ⟨0, 2, 0, 4⟩) id (fun _ y => (y.b.ring 0).rsv == (y.b.ring 0).rel && !y.b.ringWaited 0 && y.b.cmds.isEmpty &&
      decide (0 + 2 * (256 * 4) ≤ y.b.window)) = true ∧
    onIssue (.ringInit h0 ⟨0, 8, 63488, 2⟩) id (fun _ y => decide (y.b.window < 63488 + 8 * (256 * 2))) = true ∧
    onIssue (.ringInit h0 ⟨0, 2, 0, 4⟩) (withRing ring2) (fun _ y => (y.b.ring 0).rsv != (y.b.ring 0).rel) = true ∧
    (let s := onBand (fun x => x.modLanes [1] fun _ l => { l with st := .blocked (.release .rel .blk) }) s0
     (s.blk 0).any fun b => (b.band 0).any fun x => !x.halted && x.lanes.any (fun l => l.st == .blocked (.release .rel .blk)) &&
      s.orderReady b x .rel .blk) = true := by decide +kernel

/-- Masks and descriptors that fit and that do not; an occupied latch. -/
theorem witness_GangsAndTiles :
    let busy : State → State := onBlk fun b => { b with latch := [⟨1, 0, 0, [0], [0], [], none⟩] }
    onIssue (.gangSet h0 (.lit 1)) id (fun _ y => !y.ex.isEmpty && y.b.bands.length == 1 && y.b.latch.isEmpty) = true ∧
    onIssue (.gangSet h0 (.lit 2)) id (fun _ y => !y.ex.isEmpty && y.b.bands.length == 1) = true ∧
    onIssue (.gangClr h0) busy (fun _ y => !y.ex.isEmpty && !y.b.latch.isEmpty) = true ∧
    onIssue (.tileSet h0 ⟨0, .u 4⟩) id (fun _ y => !y.ex.isEmpty && (TileD.mk (y.x.u64 6 ++ y.x.u64 4)).reservedZero) = true ∧
    onIssue (.tileSet h0 ⟨0, .u 4⟩) (onBand fun x => x.setU 4 0x04000000)
      (fun _ y => !y.ex.isEmpty && !(TileD.mk (y.x.u64 6 ++ y.x.u64 4)).reservedZero) = true := by decide +kernel

/-- Uniform registers from a list of pairs. -/
def withU (us : List (Nat × Word)) (x : Band) : Band := us.foldl (fun x p => x.setU p.1 p.2) x

/-- A tile of one line of one group with k = 2, and copies of 64 bytes in two rows. -/
def tile1 : TileD := ⟨0x0001_0101_0000_0000⟩

theorem witness_CopiesAccepted :
    let o : Cpy := ⟨4, 6, 8, false, .scr, .blk, none, 0, 0⟩
    let u : State → State := onBand (withU [(4, 0), (6, 0x9000), (8, 32), (9, 2), (10, 64), (11, 32)])
    let full : State → State := onBlk fun b => { b with copyq := 1, cols := [⟨9, 5, []⟩] }
    onIssue (.cpy h0 o) u (fun _ y => !y.ex.isEmpty && (y.copyTrap o (y.sliceOf o)).isNone &&
      !y.copyWaits o.dk o.rn.toNat ((y.sliceOf o).dst.setWidth 32)) = true ∧
    onIssue (.cpy h0 o) (full ∘ u) (fun _ y => (y.copyTrap o (y.sliceOf o)).isNone &&
      y.copyWaits o.dk o.rn.toNat ((y.sliceOf o).dst.setWidth 32)) = true ∧
    onIssue (.cpy h0 { o with dk := .ring }) u (fun _ y => !y.ex.isEmpty && (y.copyTrap { o with dk := .ring } (y.sliceOf { o with dk := .ring })).isSome) = true ∧
    onIssue (.cpyCol h0 o) u (fun _ y => !y.ex.isEmpty && (y.copyTrap o (y.sliceOf o)).isNone &&
      (y.b.cols.find? fun c => c.k == y.x.colSeq).isNone && !y.colWaits o (y.sliceOf o) y.s.serial none) = true ∧
    onIssue (.cpyCol h0 o) (full ∘ u) (fun _ y => !y.ex.isEmpty && (y.copyTrap o (y.sliceOf o)).isNone &&
      y.colWaits o (y.sliceOf o) y.s.serial none) = true ∧
    onIssue (.cpyCol h0 o) ((onBlk fun b => { b with cols := [⟨9, 0, []⟩] }) ∘ u) (fun _ y => (y.copyTrap o (y.sliceOf o)).isNone &&
      (y.b.cols.find? fun c => c.k == y.x.colSeq).any fun c => !y.colWaits o (y.sliceOf o) c.id (some c)) = true ∧
    onIssue (.cpyPl h0 ⟨0, 4, 6, .blk, none, none⟩) (fun s => onBlk (fun b => { b with tiles := b.tiles.set 0 tile1 })
      (onBand (withU [(4, 0x9000), (6, 64), (7, 64)]) s)) (fun _ y => !y.ex.isEmpty &&
      (y.planeTrap (y.b.tiles.getD 0 {}) (y.x.u 6) (y.x.u 7)).isNone && !y.copyWaits .scr 0 0) = true ∧
    onIssue (.cpyPl h0 ⟨0, 4, 6, .blk, none, none⟩) id (fun _ y => !y.ex.isEmpty &&
      (y.planeTrap (y.b.tiles.getD 0 {}) (y.x.u 6) (y.x.u 7)).isSome) = true := by decide +kernel

/-- Every matrix instruction with operands that its capture takes, and one whose tile is malformed. -/
theorem witness_MatrixCommandsAccepted :
    let m : MFields := ⟨63, .none, .none⟩
    let ok (y : Iss) (ins : CmdIns) : Bool := !y.ex.isEmpty && !y.b.gang.getLsbD y.n && (y.b.entryFor y.n y.x.mmaSeq).isNone &&
      !y.b.idBusy 63 && isOk (y.s.capture y.k y.b ⟨y.n, m, ins⟩) && decide (y.x.mmaOut.length < counterMax) &&
      decide (y.b.latch.length < 8)
    let f : State → State := onBlk fun b => { b with tiles := List.replicate 16 tile1 }
    onIssue (.accClr h0 ⟨5, m, 0⟩) f (fun _ y => ok y (.accClr 5 0)) = true ∧
    onIssue (.mma h0 ⟨0, 1, 2, m⟩) f (fun _ y => ok y (.mma 0 1 2)) = true ∧
    onIssue (.planePack h0 ⟨0, 4, 5, m, true, 0x7F80⟩) (onBand (withU [(5, 64)]) ∘ f)
      (fun _ y => ok y (.pack 0 (y.x.u 4) (y.x.u 5) true 0x7F80)) = true ∧
    onIssue (.planeUnpack h0 ⟨0, 4, 5, m, false⟩) (onBand (withU [(5, 64)]) ∘ f) (fun _ y => ok y (.unpack 0 (y.x.u 4) (y.x.u 5) false)) = true ∧
    (let o : AccRd := ⟨.regs 4, m, 0, .f32, false, .rne, false, ⟨0, 8, 0, 8⟩, false⟩
     onIssue (.accRd h0 o) f (fun _ y => ok y (.accRd o 0 0 (laneSet y.ex)))) = true ∧
    (let o : AccWr := ⟨4, 5, m, 0, ⟨0, 64, 0, 64⟩, true⟩
     onIssue (.accWr h0 o) (onBand (withU [(5, 512)]) ∘ f) (fun _ y => ok y (.accWr o (y.x.u 4) (y.x.u 5)))) = true ∧
    onIssue (.cbtLd h0 ⟨4, m⟩) f (fun _ y => ok y (.cbtLd (y.x.u 4))) = true ∧
    onIssue (.mma h0 ⟨0, 1, 2, m⟩) id (fun _ y => !y.ex.isEmpty && !isOk (y.s.capture y.k y.b ⟨y.n, m, .mma 0 1 2⟩)) = true := by
  decide +kernel

/-- Two bands in a gang: the entry of another opcode, an entry that band 0 opens and captures, one that it joins when band 1
has gone first, and an operand that its capture refuses. -/
theorem witness_MatrixCommandsAccepted_gang :
    let m : MFields := ⟨63, .none, .none⟩
    let f (l : List LatchEnt) (t : TileD) : State → State :=
      onBlk fun b => { b with bands := b.bands ++ b.bands, gang := 3, tiles := List.replicate 16 t, latch := l }
    let i : Instr := .mma h0 ⟨0, 1, 2, m⟩
    let ent (opc : Nat) (waiting : List Nat) (got : List Latched) : LatchEnt := ⟨77, 0, opc, [0, 1], waiting, got, none⟩
    let join (y : Iss) (found : Option LatchEnt) (good : Bool) : Bool := !y.ex.isEmpty && y.b.entryFor y.n y.x.mmaSeq == found &&
      (let e := found.getD ⟨y.s.serial, y.x.mmaSeq, opcNat i, y.b.gangOf y.n, y.b.gangOf y.n, [], none⟩
       e.opc == opcNat i && !y.b.lateCapture e && y.b.captures e y.n && !y.b.idBusy 63 &&
        isOk (y.s.capture y.k y.b ⟨y.n, m, .mma 0 1 2⟩) == good && (!good || e.waiting.any fun j => j != y.n && y.b.liveBands.contains j) &&
        decide (y.x.mmaOut.length < counterMax) && decide (y.b.latch.length < 8))
    onIssue i (f [ent 5 [0, 1] []] tile1) (fun _ y => (y.b.entryFor y.n y.x.mmaSeq).any fun e => e.opc != opcNat i) = true ∧
    onIssue i (f [] tile1) (fun _ y => join y none true) = true ∧
    (let e := ent (opcNat i) [0, 1] []
     onIssue i (f [e] tile1) (fun _ y => join y (some e) true) = true) ∧
    onIssue i (f [] {}) (fun _ y => join y none false) = true := by decide +kernel

/-! #### Traps and the handler -/

theorem witness_HandlerEntry :
    (s0.blk 0).any (fun b => b.hbase != 0 && (b.band 0).any fun x => !x.inh && !x.dbgctl.getLsbD 2) = true ∧
    (let t : Trap := { cls := .fmt, lane := 7, opnd := 7, cause := 255 }
     (!t.fail && t.cls != .page) = true) ∧
    (let a : AsyncTrap := ⟨{ cls := .deadline }, false, 3⟩
     let s := onBand (fun x => { x with asyncDl := some a }) s0
     (s.blk 0).any fun b => b.st == .running && (b.band 0).any fun x => !x.halted && !x.inh && x.choose.isSome &&
      x.dueTrap == some (2, a)) = true := by decide +kernel

/-- A trap of class FMT with HBASE 0, and one on the Fail path. -/
theorem witness_TrapWithoutHandlerFails :
    (let s := onBlk (fun b => { b with hbase := 0 }) s0
     (s.blk 0).any fun b => b.hbase == 0 && (s.grid b.lid).any fun g => g.st == .accepted && (b.band 0).any fun x => !x.dbgctl.getLsbD 2) = true ∧
    ({ cls := .sys, fail := true } : Trap).fail = true := by decide +kernel

/-- `brk` and `halt` under a debugger and without one. -/
theorem witness_SoftwareTraps :
    let dbg (w : Word) : State → State := fun s => { s with ctxs := [(0, { bootCtx with dbgen := w })] }
    onIssue (.sys h0 255) id (fun _ y => !y.ex.isEmpty) = true ∧
    onIssue (.brk h0 0) (dbg 0) (fun _ y => !y.ex.isEmpty && !y.s.dbg y.b 0) = true ∧
    onIssue (.brk h0 0) (onBand fun x => { x with dbgctl := 1 }) (fun _ y => !y.ex.isEmpty && y.s.dbg y.b 0 && y.x.dbgctl.getLsbD 0) = true ∧
    onIssue (.halt h0 false) id (fun _ y => !y.ex.isEmpty && y.s.dbg y.b 2) = true ∧
    onIssue (.halt h0 false) (dbg 0) (fun _ y => !y.ex.isEmpty && !y.s.dbg y.b 2 && (y.s.grid y.b.lid).any (·.st == .accepted)) = true ∧
    onIssue (.halt h0 true) id (fun _ y => !y.ex.isEmpty && (y.s.grid y.b.lid).any (·.st == .accepted)) = true := by decide +kernel

/-- `rte.skip` over a 16-byte instruction, and `rte`. -/
theorem witness_HandlerReturn :
    onIssue (.rte h0 true) (fun s => s.bootBytes 0x1040 [2]) (fun _ y => !y.ex.isEmpty && !y.x.tstat.getLsbD 25 &&
      match y.s.fetchXl y.b true y.x.tepc (lowest y.ex) with
      | .ok x => !isReg x.pa && (y.s.blockLoan y.b 0 false x.pa).isNone && (y.s.rdByte x.kid x.pa).toNat % 4 == 2
      | .error _ => false) = true ∧
    onIssue (.rte h0 false) id (fun _ y => !y.ex.isEmpty) = true := by decide +kernel

/-- A read-only register written, and a privileged one read outside the handler. -/
theorem witness_ControlRegisters :
    onIssue (.csrWr h0 ⟨0x003, .v 6⟩) id (fun _ y => !y.ex.isEmpty) = true ∧
    (let i : Instr := .csrRd h0 ⟨.v 4, 0x021⟩
     let s := onBand (fun x => { x with tstat := 0 }) (at0 i)
     (s.blk s.curBlock).any fun b => b.st == .running && (b.band s.curBand).any fun x => !x.halted && x.choose.isSome &&
      !csrOk 0x021 x.inh false && !privileged i) = true ∧
    (let i : Instr := .csrWr h0 ⟨0x010, .v 4⟩
     let s := at0 i
     (s.blk s.curBlock).any fun b => b.st == .running && (b.band s.curBand).any fun x => !x.halted && x.choose.isSome &&
      !csrOk 0x010 x.inh true && !privileged i) = true := by decide +kernel

/-- Records at an aligned address, an identifier of another function, a line, and both sides of a migration. -/
theorem witness_ContextAndUpkeep :
    let at4 (w : Word) : State → State := onBand fun x => x.setU 4 w
    onIssue (.ctxSave h0 4) (at4 0x10000) (fun _ y => !y.ex.isEmpty &&
      match y.ctxReach .write (y.x.u64 4).toNat (y.x.ctxBytes y.b.vregs) with
      | .ok xs => xs.all (fun q => !isReg q.x.pa) && (y.held false xs).isNone && (y.full xs).isNone
      | .error _ => false) = true ∧
    onIssue (.ctxRest h0 4) (fun s => { onBlk (fun b => { b with vregs := 16 }) (at4 0x10000 s) with
        cores := [(0, { bootCore with l1 := [0x204, 0x205, 0x206, 0x207, 0x223, 0x224, 0x225, 0x226].map fun l =>
          { line0 false with line := l } })] }) (fun _ y => !y.ex.isEmpty &&
      match y.ctxReach .read (y.x.u64 4).toNat (y.x.ctxBytes y.b.vregs) with
      | .ok xs =>
        let rs := (xs.zip (y.x.ctxBytes y.b.vregs)).map fun q => (q.1, q.2.2.length)
        xs.all (fun q => !isReg q.x.pa) && (y.held true xs).isNone && (y.missing false rs).isEmpty &&
          rs.all fun r => (y.poisoned false r.2 [r.1]).isNone
      | .error _ => false) = true ∧
    onIssue (.tlbinv h0 (.va 4 6)) id (fun _ y => !y.ex.isEmpty && (y.tlbSel (.va 4 6)).1.all fun a =>
      (y.s.asidsOf y.b.fn).contains a && y.s.ctxQuiet a) = true ∧
    onIssue (.tlbinv h0 (.va 4 6)) (at4 0 ∘ onBand fun x => x.setU 6 5) (fun _ y => !y.ex.isEmpty &&
      (y.tlbSel (.va 4 6)).1.any fun a => !(y.s.asidsOf y.b.fn).contains a) = true ∧
    onIssue (.scrub h0 (.v 6)) strided (fun _ y => !y.ex.isEmpty &&
      match y.s.xlateAll y.b.core y.b.asid y.b.fn y.b.sid y.x.inh .write ((y.addrs (.v 6) 0).map fun p => (p.1, p.2 / 128 * 128)) with
      | .ok xs => xs.all (fun q => !isReg q.x.pa) && (y.held false xs).isNone && (y.full xs).isNone
      | .error _ => false) = true ∧
    onIssue (.migr h0 .home) id (fun _ y => !y.ex.isEmpty && !y.b.later && (y.b.migrGoal .home).1) = true ∧
    onIssue (.migr h0 .annex) id (fun _ y => !y.ex.isEmpty && !y.b.later && !(y.b.migrGoal .annex).1 && y.b.sid.isNone &&
      (y.s.grid y.b.lid).any fun g => !g.pkt.pin) = true := by decide +kernel

/-! #### Packets, replies, engines, commands -/

/-- A packet of the booted block with number 9, due at 100 at die 0. -/
def pkt (m : Msg) : Pkt :=
  { id := 9, cls := .request, src := coreRouter 0, at' := coreRouter 0, dest := coreRouter 0, deadline := 100, lid := 1
    block := some (0, 0), msg := m }

/-- The booted device with a delivered packet. -/
def got (m : Msg) : State := { s0 with arrived := [pkt m] }

/-- A packet along its row, at a die link, at its end; late and in time, with DLX. -/
theorem witness_PacketsTravel :
    let q := pkt (.loadReq 0 0 5 0 0 0 false false false false)
    let late : State := { s0 with net := [q], time := 101, grids := [(1, { bootGrid false with dlx := true })] }
    (late.net.find? (fun r => r.id == 9)) = some q ∧ late.firstOut q = true ∧ late.nextHop q = some none ∧
    late.nextHop { q with dest := coreRouter 127 } = some (some (⟨0, 7, 0⟩, 1, false)) ∧
    late.nextHop { q with at' := ⟨0, 7, 2⟩, dest := ⟨1, 0, 0⟩ } = some (some (⟨1, 0, 3⟩, 17, true)) ∧
    (coreRouter 0).hop ⟨0, 0, 7⟩ = some (⟨0, 0, 7⟩, 9) ∧ (late.nextLink 0 2).map (·.2.1) = some 1 ∧
    q.deadline < late.now 0 ∧ ((late.grid 1).any fun g => g.dlx && g.lastDl.isNone) = true ∧
    ((late.blk 0).any fun b => b.sid.isNone && (b.band 0).any fun x => x.asyncDl.isNone) = true ∧
    ({ late with time := 100 } : State).now 0 ≤ q.deadline := by decide +kernel

/-- A request at its home, first in its turn, without a loan. -/
def freeAt (s : State) (m : Msg) (line : Nat) : Bool :=
  s.waitingPkt 9 == some (pkt m) && (s.pktLoan (pkt m) line).isNone && s.turnOf (pkt m) line

/-- Requests for a line that nobody owns, that a core owns, and that its home has not read yet. -/
theorem witness_HomesServeRequests :
    let m : Msg := .loadReq 0 0 5 0 0 0 false false false false
    (freeAt (got m) m 0 && freeAt (warm (got m)) m 0) = true ∧ ((got m).home 0).owner = none ∧ (got m).hist = [] ∧
    (warm (got m)).cold 0 = false ∧ (got m).cold 0 = true ∧ (got m).fetching 0 = false ∧
    (let s := (got m).setHome 0 { owner := some 3 }
     (s.home 0).owner = some 3 ∧ (s.home 0).recalling = false ∧ freeAt s m 0 = true) ∧
    (let r : StoreReq := ⟨7, 0, 0, 0, 0, 0, [(0x7F, 0x7F, [7])], false, false, false, none⟩
     let s := got (.storeReq r)
     freeAt s (.storeReq r) 0 = true ∧ s.fetching r.line = false ∧ Memory.wf s.mem = true ∧ (s.home r.line).owner = none ∧
      ∀ p ∈ r.parts, 128 * r.line ≤ p.2.1 ∧ p.2.1 + p.2.2.length ≤ 128 * r.line + 128 ∧ p.2.2 ≠ []) ∧
    (let r : AtomReq := ⟨0, 0, 0, 5, 0, [⟨0, 0x78, 0x78, 0, 0⟩, ⟨1, 0x78, 0x78, 0, 0⟩], false, false⟩
     let o : PendOp := ⟨5, .red .add true, 4, [⟨0, 0x78, 0x78, false, 0, 0⟩, ⟨1, 0x78, 0x78, false, 0, 0⟩], [1, 2], [0, 0], false,
       false, none, none, 0, 0, [], none⟩
     let s := onBand (fun x => { x with pend := [o] }) (warm (got (.atomReq r)))
     freeAt s (.atomReq r) r.line = true ∧ s.cold 0 = false ∧ (s.home 0).owner = none ∧ Memory.wf s.mem = true ∧
      (∀ l ∈ r.lanes, l.kid = 0 ∧ 128 * r.line ≤ l.pa ∧ l.pa + 8 ≤ 128 * r.line + 128) ∧
      ((s.blk 0).any fun b => (b.band 0).any fun x => x.pend.find? (fun p => p.id == r.op) == some o) = true) ∧
    (let s := warm (got (.ownReq 0 0))
     freeAt s (.ownReq 0 0) 0 = true ∧ s.cold 0 = false ∧ (s.home 0).owner = none ∧
      max (s.home 0).lx (s.floorOf 0) ≤ s.now (homeDie 0) ∧ ∀ p ∈ s.blocks, ∀ x ∈ p.2.bands, x.pend = []) ∧
    (let m : Msg := .watchChk 0 0 5 0 3 0
     (got m).waitingPkt 9 = some (pkt m) ∧ (got m).storeDue (pkt m) 3 = false) ∧
    (let m : Msg := .engine 0 3 4 false
     (got m).waitingPkt 9 = some (pkt m) ∧ (pkt m).cls = .request) ∧
    (let m : Msg := .loadReq 0 0 5 0 0 0 false false false false
     let s : State := { got m with hostHeld := [0] }
     freeAt s m 0 = true ∧ s.hostHeld.contains 0 = true ∧ s.hostAsked.contains 0 = false) := by decide +kernel

/-- A pending load of two lanes whose line is in a reply. -/
def pending : PendOp :=
  { id := 5, kind := .load .b64, d := 4, lanes := [⟨0, 0, 0, false, 0, 0⟩, ⟨7, 120, 120, false, 0, 0⟩], b := [], c := []
    uncached := false, acq := false, tok := none }

/-- Replies with their requests, an expired line, a channel with a request waiting and a read out, a page walk. -/
theorem witness_CoresTakeReplies :
    (let r : StoreReq := ⟨7, 0, 0, 0, 0, 0, [(0, 0, [7])], false, false, false, none⟩
     (got (.storeAck r 7 1 true)).waitingPkt 9 = some (pkt (.storeAck r 7 1 true))) ∧
    (got (.recall 0 0)).waitingPkt 9 = some (pkt (.recall 0 0)) ∧ (withL1 (line0 true) (got (.recall 0 0))).owns 0 0 = true ∧
    (let s := (got (.writeback 3 0 none 0 0 none)).setHome 0 { owner := some 3 }
     (s.home 0).owner = some 3 ∧ s.owns 3 0 = false ∧ s.waitingPkt 9 = some (pkt (.writeback 3 0 none 0 0 none))) ∧
    (let m : Msg := .loadRep 0 0 5 0 0 0 false false (List.replicate 128 1) 200 0 0 none false
     let s := onBand (fun x => { x with pend := [pending] }) (got m)
     s.waitingPkt 9 = some (pkt m) ∧ s.owns 0 0 = false ∧ (s.core 0).newestOf 0 ≤ 0 ∧ (tget (s.core 0).stored 0).getD 0 ≤ 0 ∧
      (s.core 0).unacked = [] ∧ ((s.blk 0).any fun b => (b.band 0).any fun x => x.pend.find? (fun p => p.id == 5) == some pending &&
      pending.kind == .load .b64 && pending.push.isNone && decide (pending.lanes.map (·.lane)).Nodup &&
      pending.lanes.all fun l => decide (l.lane < x.lanes.length) && !l.done && lineOf l.pa == 0 && decide (l.pa % 128 + 8 ≤ 128)) = true) ∧
    (let r : AtomReq := ⟨0, 0, 0, 5, 0, [⟨0, 0, 0, 0, 0⟩], false, false⟩
     let s := onBand (fun x => { x with pend := [pending] }) (got (.atomRep r [1] 2 3))
     s.waitingPkt 9 = some (pkt (.atomRep r [1] 2 3)) ∧
      ((s.blk 0).any fun b => (b.band 0).any fun x => x.pend.any fun p => p.id == r.op) = true) ∧
    (got (.watchAns 0 0 0 0 0 (some 9))).waitingPkt 9 = some (pkt (.watchAns 0 0 0 0 0 (some 9))) ∧
    (let s : State := { withL1 (line0 false) s0 with time := 50 }
     ((s.core 0).l1Line 0).any fun c => !c.owned && decide (c.expiry ≤ s.now (coreDie 0))) = true ∧
    (let r : StackReq := ⟨.rd, 0, 0, false, 0, [], .none, 0, [], [], false⟩
     let c : Channel := { queue := [r], out := [(0, r), (1, r), (2, r), (3, r), (4, r), (5, r), (6, r)] }
     tget ({ s0 with channels := [(127, c)] } : State).channels 127 = some c ∧ tget c.out 7 = none ∧
      (∀ u, u < 7 → (tget c.out u).isSome = true) ∧ tget c.out 6 = some r ∧ r.kind = .rd ∧ keysRise c.out = true ∧ c.dead = false) ∧
    (s0.ctx 0).isSome = true ∧ (s0.walk 0 none 0 4 ((s0.ctx 0).map Ctx.root |>.getD 0)) = .bad 1 ∧
    (let s := s0.bootBytes 0x100000 ([0x01, 0x00, 0x20] ++ List.replicate 5 0)
     let s := s.bootBytes 0x200000 [0x03, 0x0C]
     (match s.walk 0 none 0 4 0x100000 with
      | .leaf _ => true
      | .bad _ | .poison | .loan _ => false)) = true := by decide +kernel

/-- A push whose value came late and that waits no more. -/
def stuckOp : PendOp :=
  { id := 5, kind := .load .b32, d := 248, lanes := [⟨0, 0, 0, true, 3, 0⟩], b := [], c := [], uncached := false, acq := false
    tok := none, push := some (0, []), stuck := some 1 }

/-- A plain copy of 64 bytes from memory into the window, accepted and not begun. -/
def copy64 : Copy :=
  { id := 9, kind := .plain, scr := false, dk := .scr, scope := .blk, bar := none, barCounted := false, ring := none
    bmask := 0xFFFFFFFF, slices := [⟨0, 0, 0x9000, 64, 1, 64, 64, 0, 0, false⟩], regWord := 0, issuers := [0] }

theorem witness_EnginesWork :
    (let s := (withPort (port8 false) s0).setHome 0x120 { inSlice := true }
     (s.blk 0).any fun b => b.st == .running && (b.band 0).any fun x =>
      let pt := x.ports.getD 0 {}
      pt.cfg && !pt.pat.push && (pt.nextAhead x.lanes.length).any fun q => match s.readElem 0 0 b x.inh [] pt q.2.2 with
        | .val _ _ _ => true
        | _ => false) = true ∧
    (let s := onBand (fun x => { x with pushesOut := [(9, 1)] }) { s0 with time := 5 }
     (s.blk 0).any fun b => (b.band 0).any fun x => !s.pushBusy x 9 && x.pend.isEmpty && decide (1 + 4 ≤ s.now b.die)) = true ∧
    (let s := onBand (fun x => { x with pend := [stuckOp] }) s0
     (s.blk 0).any fun b => (b.band 0).any fun x => x.pend.any fun p => p.stuck.isSome && (s.lateStop b p).isNone) = true ∧
    ((onBand (fun x => { x with rmtOut := [⟨some 11, 0, 0, 1, 0, 0⟩] }) s0).blk 0).any (fun b => (b.band 0).any fun x =>
      x.rmtCnt == 1 && (s0.rmtDone x false).isSome && s0.rmtDone x true == some 0 && x.rmtOut.any s0.reaches) = true ∧
    (let s : State := { s0 with pf := { s0.pf with slwin := [(0, (0x9000, 0x100))] } }
     (tget s.pf.slwin 0).getD (0, 0) = (0x9000, 0x100) ∧ Memory.wf s.mem = true ∧ (match s.xlate numCores 0 none (0x9000 + 0xF8) with
      | .ok x => s.permOk 0 false .write x && !isReg x.pa && !s.linePoison x.pa && (s.loanOn none (lineOf x.pa) (2 ^ 70)).isNone
      | .error _ => false) = true) ∧
    (let s := onBlk (fun b => { b with copies := [copy64] }) s0
     (s.blk 0).any fun b => b.copies.find? (fun d => d.id == 9) == some copy64 && copy64.waitsEngine 0 &&
      decide (s.busyEngines b.die < dieEngines b.die) && s.copyFirst b.die copy64) = true ∧
    (let c : Copy := { copy64 with taken := [(0, 77)] }
     let s := onBlk (fun b => { b with copies := [c] }) s0
     (s.blk 0).any fun b => b.copies.find? (fun d => d.id == 9) == some c && !s.engineOut 77 && s.copyFree b c &&
      (List.range 64).all fun j => match s.moveByte b 0 c j j with
        | some (.error _) => false
        | some (.ok _) | none => true) = true ∧
    (let c : Copy := { copy64 with done := [0] }
     let s := onBlk (fun b => { b with copies := [c] }) s0
     (s.blk 0).any fun b => b.copies.find? (fun d => d.id == 9) == some c && s.copyReady b c && c.bar.isNone && c.fault.isNone) = true ∧
    (let o : Cpy := ⟨4, 6, 8, false, .scr, .blk, none, 0, 0⟩
     let c : Collective := ⟨9, 0, copy64.slices.map fun sl => (sl, o)⟩
     let s := onBlk (fun b => { b with cols := [c] }) s0
     (s.blk 0).any fun b => b.cols.find? (fun d => d.id == 9) == some c && c.common b == some o &&
      c.whole b && !c.ringFull b && b.cols.all fun d => decide (c.k ≤ d.k)) = true := by decide +kernel

/-- A captured entry that nobody waits for, a ready command and one that has run. -/
theorem witness_CommandsRun :
    let cap : Capt := ⟨0, 63, .accClr 5 1, .none, .none, none⟩
    let e : LatchEnt := ⟨9, 0, 0, [0], [], [], some cap⟩
    let cmd (st : CmdSt) : Cmd := ⟨9, 0, 63, .accClr 5 1, .none, .none, st, [0], 0⟩
    ((onBlk (fun b => { b with latch := [e] }) s0).blk 0).any (fun b => b.latch.find? (fun f => f.key == 9) == some e &&
      e.captured == some cap && e.waiting.all fun m => !b.liveBands.contains m) = true ∧
    (let s := onBlk (fun b => { b with cmds := [cmd .accepted] }) s0
     (s.blk 0).any fun b => !isAnnex b.die && b.cmdReady (cmd .accepted) && !s.unitBusy b.core 1 && s.oldest b.core (cmd .accepted)) = true ∧
    (let res : CmdRes := { writes := [(65408, List.replicate 128 1)] }
     let st : CmdSt := .running 3 4 res
     let s := onBlk (fun b => { b with cmds := [cmd st] }) { s0 with time := 4 }
     (s.blk 0).any fun b => b.cmds.find? (fun d => d.key == 9) == some (cmd st) && decide (4 ≤ s.now b.die) && res.fault.isNone &&
      decide (cmd st).members.Nodup && (b.band 0).isSome &&
      res.writes.all fun w => isOk (s.scrRange b 0 w.1 w.2.length)) = true ∧
    keysRise ({ cells := [(3, 1), (700, 2)] } : Acc).cells = true := by decide +kernel

/-! #### Queues, placement, ends -/

/-- 128 packet bytes from fields given as offset, size and value. -/
def packetBytes (fs : List (Nat × Nat × Nat)) : List Byte :=
  leBytes 128 (fs.foldl (fun n f => n + f.2.2 % 2 ^ (8 * f.2.1) * 2 ^ (8 * f.1)) 0)

/-- A launch like the booted block's, with its context resident for the queue. -/
def launch : List Byte := packetBytes [(0, 1, 1), (8, 8, 0x1000), (0x1A, 1, 8), (0x1B, 1, 1), (0x1C, 4, 1), (0x20, 4, 1), (0x24, 4, 1),
  (0x28, 2, 8), (0x2A, 1, 16), (0x3C, 4, 0x001E140C)]

/-- The queue of the booted device, its context resident, with a packet waiting. -/
def sPacket (bs : List Byte) : State := { sQueue id bs with ctxs := [(0, { bootCtx with desc := 0x4000 })] }

def packetIn (s : State) (p : Packet → Bool) : Bool := match s.nextPacket 0 0 with
  | .packet q => p q
  | .none | .fault | .held _ => false

/-- A grid that waits for its completion, with a record at 0xB000. -/
def sDue (type : Nat) (dep : DWord) : State :=
  { s0 with
    grids := [(2, { bootGrid false with lid := 2, pkt := { type, doneAddr := 0xB000, doneVal := 7, dep0 := dep } })]
    ctxs := [(0, { bootCtx with desc := 0x4000 })], blocks := [] }

/-- A completion record can be written: no earlier record, no loan, a line that is free. -/
def recordFree (s : State) (f asid : Nat) (p : Packet) : Bool :=
  (s.fn f).flogWait.isEmpty && (s.recordLoan f asid p).isNone && (s.recordLine f asid p).all fun l =>
    !s.queued l && !s.hostHeld.contains l && (s.home l).owner.isNone

/-- Doorbells at the ring's size and one beyond, both sides of each check of LQCTL, each packet type, each dependence. -/
theorem witness_QueuesTakePackets :
    let q : Queue := { lqbase := 0x8000, lqctl := 0x11, lqdb := 1, lqctx := 0x4001 }
    0 < numQueues ∧ ¬(2 ^ q.logn < ((16 : Word).toNat % 2 ^ 16 + 2 ^ 16 - q.rptr) % 2 ^ 16) ∧
    2 ^ q.logn < ((17 : Word).toNat % 2 ^ 16 + 2 ^ 16 - q.rptr) % 2 ^ 16 ∧ q.desc ≠ 0 ∧
    s0.locked 0 = false ∧ (s0.fn 0).lmQuiesce = false ∧ (withFn { tdisp := .run, lmQuiesce := true } s0).locked 0 = true ∧
    (0x31 : Word).getLsbD 0 = true ∧ 12 < ((0x35 : Word).extractLsb' 2 4).toNat ∧ (2 : Word).getLsbD 1 = true ∧
    (sQueue (fun q => { q with lqbase := 0x60_0000_0000 }) []).nextPacket 0 0 = .fault ∧
    packetIn (sPacket []) (fun p => p.type == 0 && p.reservedZero) = true ∧
    packetIn (sPacket [9]) (fun p => ((sPacket [9]).refusal p).isSome && p.doneAddr.toNat % 16 == 0 &&
      ((sPacket [9]).makeCtx 0 0x4000).any fun u => (u.1.recordLoan 0 u.2 p).isNone && (u.1.recordLine 0 u.2 p).isNone) = true ∧
    packetIn (sPacket launch) (fun p => p.type == 1 && ((sPacket launch).refusal p).isNone && (sPacket launch).ctxOf 0 0x4000 == some 0) = true ∧
    packetIn (sPacket [2]) (fun p => p.type == 2 && ((sPacket [2]).refusal p).isNone) = true ∧
    packetIn (sPacket [3]) (fun p => p.type == 3 && ((sPacket [3]).refusal p).isNone) = true ∧
    ((sDue 2 0).packetTurn 2 2).any (fun g => g.lid == 2 && recordFree (sDue 2 0) 0 0 g.pkt && (sDue 2 0).deps g == .holds) = true ∧
    ((sDue 2 0x61_0000_0000).packetTurn 2 2).any (fun g =>
      recordFree (sDue 2 0x61_0000_0000) 0 0 g.pkt && (sDue 2 0x61_0000_0000).deps g == .fault) = true ∧
    (match (sDue 2 0).fwXlate 0 0 none .write 0xB000 with
      | .ok y => !(sDue 2 0).deadAt y.pa && !(sDue 2 0).deadAt (y.pa + 15)
      | .error _ => false) = true ∧
    ((sDue 3 0).packetTurn 2 3).any (fun g => g.lid == 2 && recordFree (sDue 3 0) 0 0 g.pkt && (sDue 3 0).deps g == .holds && ((sDue 3 0).readDesc 0x4000).isSome &&
      (sDue 3 0).ctxQuiet 0 && !(sDue 3 0).descHeld 0x4000) = true ∧
    ((sDue 3 0x61_0000_0000).packetTurn 2 3).any (fun g =>
      recordFree (sDue 3 0x61_0000_0000) 0 0 g.pkt && (sDue 3 0x61_0000_0000).deps g == .fault) = true := by decide +kernel

/-- The boot grid with a second block to place, on cores of die 0 cut as it asks. -/
def sGrid (f : Packet → Packet) (cores : List Nat) : State :=
  { s0 with
    cores := cores.map fun c => (c, bootCore)
    grids := [(1, { bootGrid false with pkt := f { bootPacket false with gx := 2 } })] }

/-- A stopped block that waits to resume. -/
def sStopped : State :=
  { onBlk (fun b => { b with st := .stopped true none 3 }) s0 with time := 4, cores := (List.range 8).map fun c => (c, bootCore) }

/-- A sample of the boot grid whose next run is due. -/
def sSample (st : SampleSt) (results : List RunRes) : State :=
  { s0 with
    blocks := [], time := 30000
    samples := [(5, { lid := 1, idx := 0, detect := true, st, start := 0, sigma0 := 0, results })] }

/-- The run that a sample has had, on core 0. -/
def ran : RunRes := ⟨.primary, {}, [0], 0, [], false⟩

/-- A grid of high priority whose block fits no annex core but 512, where a block of low priority stands. -/
def sTight : State :=
  let p : Packet := bootPacket true
  { at0 (.migr h0 .home) with
    cores := (List.range 128).map fun c => (512 + c, if c = 0 then bootCore else { retired := true })
    blocks := [(0, bootBlock 512 false)]
    grids := [(1, bootGrid true), (2, { bootGrid true with lid := 2, next := 0, pkt := { p with prio := 5, pin := true, scratch := 262144 } })] }

theorem witness_BlocksArePlaced :
    (let s := sGrid id (List.range 8)
     match s.firstItem with
      | some (.block g) => !s.argOpen g && s.argWords g == .words [] && s.grid g.lid == some g && !g.pkt.coRes &&
        ((s.latchReady g.lid).pickCore { g with ready := true } []).isSome &&
        ((s.latchReady g.lid).placeNext g [] []).all fun t => (s.carveLack t).isEmpty
      | _ => false) = true ∧
    (let s := withRange ⟨0x6000000001, 0x6000010000, 0x1C⟩ (sGrid (fun p => { p with argSize := 4, argAddr := 0x60_0000_0000 }) [])
     match s.firstItem with
      | some (.block g) => match s.argWords g with
        | .bad _ => !s.argOpen g
        | _ => false
      | _ => false) = true ∧
    (sStopped.blk 0).any (fun b => b.waits && sStopped.drained b && b.toProfile.isNone && sStopped.firstItem == some (.resume 0) &&
      sStopped.resumeSet 0 b == [0] && (sStopped.resumeCore b []).isSome &&
      (sStopped.tryItem [] (.resume 0)).all fun t => (sStopped.carveLack t).isEmpty) = true ∧
    (let s := sSample .arbitration [{ ran with cores := [0, 64, 128, 192, 256, 320, 384, 448] }]
     (tget s.samples 5).any fun m => (s.grid 1).any Grid.live && s.runDue 5 m && !s.runAllowed m) = true ∧
    (let s : State := { sSample .waiting [ran] with cores := [(128, bootCore)] }
     (tget s.samples 5).any fun m => (s.grid 1).any fun g => g.live && s.runDue 5 m && s.runAllowed m && s.firstItem == some (.run 5) &&
      s.runCore m g [] == some 128 && (s.core 128).cpool == g.pkt.carve) = true ∧
    (let s := sGrid id []
     let s := s.setCore 1 { s.core 1 with l1 := [line0 true] }
     s.carveWanted 1 0x1E140C && (s.onCore 1 []).isEmpty && (s.core 1).cpool != 0x1E140C && (s.core 1).inService &&
      decide (1 < numCores)) = true ∧
    sTight.firstItem.any (fun i => sTight.movers.isEmpty && (sTight.tryItem sTight.stopping i).isNone &&
      (sTight.evictions i).any fun l => !l.isEmpty && l.all fun k => (sTight.blk k).any fun b =>
        b.st == .running && b.bands.all fun x => x.dueTrap.isNone) = true := by
  decide +kernel

/-- Every lane has ended, long enough ago. -/
def sOver : State := onBand (fun x => x.modLanes (List.range 8) fun _ l => { l with st := .exited }) { s0 with time := 8 }

/-- Two sampled blocks, each with a lane that waits for the other's loan. -/
def sCycle : State :=
  let m : Sample := { lid := 1, idx := 0, detect := true, start := 0, sigma0 := 0 }
  let wait (of' : Nat) (x : Band) : Band := x.modLanes [0] fun _ l => { l with st := .blocked (.loan of' 0) }
  let b (sid of' : Nat) : Block := { b0 with sid := some sid, run := .primary, bands := b0.bands.map (wait of') }
  let m' : Sample := { m with idx := 1, start := 1 }
  { s0 with time := 1000001, samples := [(5, m), (6, m')], blocks := [(0, b 5 6), (1, b 6 5)] }

theorem witness_GridsEnd :
    (sOver.blk 0).any (fun b => keysRise sOver.blocks && b.st == .running && sOver.blockOver b && b.sid.isNone) = true ∧
    (let s : State := { onBlk (fun b => { b with sid := some 5, run := .primary }) sOver with
        samples := [(5, { lid := 1, idx := 0, detect := true, start := 0, sigma0 := 0 })] }
     (s.blk 0).any fun b => b.st == .running && s.blockOver b && b.sid == some 5 && (tget s.samples 5).any fun m => m.st == .primary && m.results.isEmpty) = true ∧
    (let s : State := { s0 with blocks := [] }
     (s.grid 1).any fun g => g.lid == 1 && g.live && decide (g.pkt.numBlocks ≤ g.next) && s.samples.isEmpty && recordFree s g.fn g.asid g.pkt) = true ∧
    (let s : State := { s0 with time := 8, grids := [(1, { bootGrid false with st := .failing 255 })] }
     (s.grid 1).any fun g => g.st == .failing 255 && s.failDrained 1 && recordFree s g.fn g.asid g.pkt) = true ∧
    (tget sCycle.samples 5).any (fun m => m.open' && (sCycle.loanWaits 5).any fun w => decide (w.2 + sCycle.holdto < sCycle.time)) = true ∧
    (let m : Sample := { lid := 1, idx := 0, detect := false, start := 0, sigma0 := 0, outside := some 0, prov := [⟨0x80, 1, 0x80, 0, 1, 1, false⟩] }
     let s : State := { s0 with time := 1000001, samples := [(5, m)] }
     m.open' && decide (s.holdto < s.time)) = true ∧
    (let m : Sample := { lid := 1, idx := 0, detect := false, start := 0, sigma0 := 0, prov := [⟨0x80, 1, 0x80, 0, 1, 1, false⟩] }
     let s : State := { s0 with samples := [(5, m)], pf := { s0.pf with hcwin := 0x0001_0000_0000_0001 } }
     s.inWindow 0x80 && s.loanOn none (lineOf 0x80) (2 ^ 70) == some 5 && m.outside.isNone) = true ∧
    (tget sCycle.samples 6).any (fun n => n.open' && sCycle.waitsOn 5 6 && sCycle.waitsOn 6 5) = true ∧
    (let s := onBand (fun x => x.modLanes [7] fun _ l => { l with st := .blocked (.capacity 5 0 0x9000) })
        { s0 with time := 1000001, samples := [(5, { lid := 1, idx := 0, detect := true, start := 0, sigma0 := 0 })] }
     s.blocks.any (fun p => p.2.bands.any fun x => x.lanes.any fun l => l.st == .blocked (.capacity 5 0 0x9000)) && decide (s.holdto < s.time)) = true ∧
    ((s0.core 0).fenced || (s0.core 0).retired) = false ∧ (∀ p ∈ s0.blocks, ∀ x ∈ p.2.bands, x.dueTrap = none) ∧ ((s0.setCore 639 { fenced := true }).core 639).fenced = true := by
  decide +kernel

/-! #### The host's side -/

/-- A page request and its tag, ring sizes at their ends, a clash and a change of KEYMAP, the window's last byte. -/
theorem witness_HostWritesRegisters :
    (let r : PageReq := ⟨65535, 0, some 0, none, { cls := .page }⟩
     let s := withFn { pageReqs := [r] } s0
     ((s.fn 0).pageReqs.filter (fun r => r.tag == (0xFFFF : Word).toNat % 2 ^ 16)) = [r] ∧ (0xFFFF : Word).getLsbD 16 = false ∧
      (s.blk 0).any (fun b => (b.band 0).isSome) = true ∧ ∀ q ∈ (s.fn 0).pageReqs, q.tag ≠ (5 : Word).toNat % 2 ^ 16) ∧
    (0 < numFns ∧ 1 < numFns ∧ 64 ≤ (64 : DWord).toNat % 2 ^ 13 ∧ ¬(4097 : DWord).toNat % 2 ^ 13 ≤ 4096 ∧ everyFn 0x0900 = false) ∧
    (let s : State := { s0 with pf := { s0.pf with keymap := [(0, 1), (1, 4)] } }
     (∃ e ∈ s.pf.keymap, e.1 ≠ 2 ∧ e.2 &&& ((4 : DWord) &&& ~~~1) ≠ 0) ∧
      (∀ e ∈ s.pf.keymap, e.1 = 1 ∨ e.2 &&& ((8 : DWord) &&& ~~~1) = 0)) ∧
    (let s : State := { s0 with fns := [(1, { tdisp := .run })] }
     s.locked 1 = true ∧ s.locked 2 = false) ∧
    (let h : DWord := 0x0001_0000_0000_0001
     let s : State := { s0 with pf := { s0.pf with hcwin := h } }
     Memory.wf s.mem = true ∧ s.inWindow 0x3FFF_FFFF = true ∧ s.loanOn none (lineOf 0x3FFF_FFFF) (2 ^ 70) = none ∧ s.inWindow 0x3FFF_FF80 = true ∧
      0x3FFF_FF80 % 128 = 0 ∧ s0.pf.hcwin.getLsbD 0 = false ∧ h.getLsbD 0 = true) := by decide +kernel

/-- The window's last line, free and in its slice; held by the host; on loan; a function whose interface is locked. -/
theorem witness_HostWritesRegisters_window :
    let l := lineOf 0x3FFF_FF80
    let s : State := { (s0.setHome l { inSlice := true }) with pf := { s0.pf with hcwin := 0x0001_0000_0000_0001 } }
    s.inWindow 0x3FFF_FF80 = true ∧ s.hostHeld.contains l = false ∧ s.locked 0 = false ∧
    (s.queued l = false ∧ (s.home l).owner = none) ∧ s.cold 0x3FFF_FF80 = false ∧ s.deadAt 0x3FFF_FF80 = false ∧
    ({ s with fns := [(1, { tdisp := .run })] } : State).locked 1 = true ∧
    ({ s with hostHeld := [l] } : State).hostHeld.contains l = true ∧ (List.replicate 128 (0 : Byte)).length = 128 ∧
    (let m : Sample := { lid := 1, idx := 0, detect := false, start := 0, sigma0 := 0, prov := [⟨0x3FFF_FF80, 1, 0x3FFF_FF80, 0, 1, 1, false⟩] }
     let u : State := { s with samples := [(5, m)] }
     u.loanOn none l (2 ^ 70) = some 5 ∧ m.outside = none) ∧ (1 : DWord).getLsbD 0 = true := by decide +kernel

/-- An image that a restore finds. -/
def image0 : SafeImage :=
  { tdev := 3, image := 7, complete := true, fleetKey := 9, keys := [], keymap := [(0, 1)], hcwin := 0, leasecfg := 1024
    csvpol := 0, mem := [(64, 1)], cw := [], identity := [], capacity := devCapacity, unwritten := [] }

/-- A busy and an idle engine, a device with and without work and key; links that are whole. -/
theorem witness_CheckpointsAndLinks :
    let idle : State := { State.reset with power := .running }
    idle.pf.ckpctl.getLsbD 2 = false ∧ idle.ckpQuiet = true ∧ s0.ckpQuiet = false ∧ idle.root.fleetKey = none ∧
    (let s : State := { idle with
        root := { idle.root with fleetKey := some 9 }
        pf := { idle.pf with ckpctl := 6, ckpRestore := true, ckpTarget := 0x0000_0007_0000_0003 }
        safeTier := [image0] }
     s.pf.ckpctl.getLsbD 2 = true ∧ s.ckpGood = some image0 ∧ Memory.wf s.mem = true ∧ Memory.wf image0.mem = true ∧ (∀ p ∈ image0.mem, isDev p.1 = true) ∧
      ({ s with safeTier := [] } : State).ckpGood = none ∧
      ({ s with safeTier := [{ image0 with capacity := 0 }] } : State).ckpImage.isSome = true ∧ isDev (32 * 0x2_FFFF_FFFF) = true) ∧
    (let l : Link := { sent := 70, kept := (List.range 64).map fun i => (6 + i, default), acked := 3, next := 3 }
     let s : State := { s0 with ports := [(11, l)] }
     ((tget s.ports 11).getD {} : Link) = l ∧ l.retired = false ∧ l.failed = false ∧ l.kept.length ≤ 64) ∧
    (let s : State := { idle with pf := { idle.pf with ckpctl := 4 } }
     s.pf.ckpctl.getLsbD 2 = true ∧ s.pf.ckpRestore = false ∧ ((tget s.dieLinks 7).getD {} : Link).failed = false) ∧
    ((tget s0.dieLinks 7).getD {} : Link).retired = false ∧ ((tget s0.ports 11).getD {} : Link).failed = false ∧
    tget s0.slices 159 ≠ some 3 ∧ s0.hostLink.retired = false ∧ ((tget s0.channels 127).getD {} : Channel).retired = false := by
  decide +kernel

/-- 1,024 lost codewords do not retire a channel; one more lets it be retired, in place of which its stack has a spare. -/
theorem witness_CheckpointsAndLinks_channel :
    let s : State := { s0 with time := 5, channels := [(0, { lost := List.replicate 1025 5 })] }
    2 ^ 10 < (recent s.time ((tget s.channels 0).getD {}).lost).length ∧ s.stackSpared 0 = false ∧
      isDev (32 * 0) = true ∧ channelOf (32 * 0) = 0 := by decide +kernel

/-- Each state of the start, a session with its handshake done and open, an interface in each state. -/
theorem witness_StartAndSessions :
    State.reset.power = .heldReset ∧ s0.power = .running ∧ ({ s0 with power := .firmwareVerified } : State).power = .firmwareVerified ∧
    (let s (done : Bool) : State := { s0 with root := { s0.root with session := some ⟨1, 0, done⟩ } }
     (s true).root.inSession 1 = true ∧ (s false).root.session = some ⟨1, 0, false⟩ ∧ s0.root.session = none) ∧
    (let s (t : Tdisp) : State := { s0 with fns := [(1, { tdisp := t })] }
     (s .configUnlocked |>.fn 1).tdisp = .configUnlocked ∧ (s .configLocked).locked 1 = true ∧ ((s .error).fn 1).tdisp ≠ .configUnlocked) ∧
    (let m : Sample := { lid := 1, idx := 0, detect := false, start := 0, sigma0 := 0, prov := [⟨1375, 1, 1375, 0, 1, 1, false⟩] }
     let s : State := { s0 with samples := [(5, m)] }
     s.rangeOnLoan s.pf.condbuf.toNat 1376 = true ∧ s.pf.condreq = false) ∧
    1 < numFns ∧ s0.rangeOnLoan s0.pf.condbuf.toNat 1376 = false ∧ ((tget s0.ports 11).getD {} : Link).retired = false := by
  decide +kernel

/-- A command for the booted band: operation, band, register, class, lane; and one for a block that is not there. -/
def dbgCmd (op reg cls lane : Nat) : DWord := BitVec.ofNat 64 (op + reg * 2 ^ 8 + cls * 2 ^ 16 + 2 ^ 19 + lane * 2 ^ 56)

theorem witness_DebugAndMigration :
    let halted := onBand (fun x => { x with halted := true }) s0
    0 < numFns ∧ s0.dbgTarget 0 (dbgCmd 0 0 0 0 + 2 ^ 19) = none ∧
    (halted.dbgTarget 0 (dbgCmd 4 239 0 7)).any (fun t => t.1 == 0 && halted.dbg t.2.1 0 && halted.dbg t.2.1 1 && halted.dbg t.2.1 2 &&
      t.2.2.halted && dbgNames t.2.1 t.2.2 (dbgCmd 4 239 0 7) && t.2.2.tokens == 0 && t.2.2.resumeTrap.isNone &&
      dbgOp (dbgCmd 4 239 0 7) == 4) = true ∧ (s0.takeDue 0 0).isNone = true ∧
    (let s := onBand (fun x => { x with asyncDl := some ⟨{ cls := .deadline }, false, 3⟩ }) s0
     (s.takeDue 0 0).isSome && (s.dbgTarget 0 (dbgCmd 0 0 0 0)).any fun t => s.dbg t.2.1 0) = true ∧
    (let s := onBand (fun x => { x with halted := true, resumeTrap := some ⟨{ cls := .fmt }, false, false, 0x1000, [0]⟩ }) s0
     (s.dbgTarget 0 (dbgCmd 1 0 0 0)).any fun t => s.dbg t.2.1 0 && s.dbg t.2.1 1 && t.2.2.resumeTrap.isSome) = true ∧
    (let s : State := { s0 with ctxs := [(0, { bootCtx with dbgen := 0 })] }
     (s.dbgTarget 0 (dbgCmd 0 0 0 0)).any fun t => !s.dbg t.2.1 0 && !s.dbg t.2.1 2) = true ∧
    (let s := withFn { dirty := [0, 6291455] } s0
     s.rangeOnLoan (s.fn 0).lmBmp.toNat 786432 = false ∧ Memory.wf s.mem = true ∧ (s.fn 0).lmBmp.toNat % 128 = 0 ∧
      s.channels = [] ∧ isDev 0 = true ∧ isDev 786431 = true ∧ (∀ g ∈ (s.fn 0).dirty, g < 8 * 786432) ∧ (s.fn 0).lmQuiesce = false) ∧
    (let s := withFn { lmQuiesce := true } s0
     (s.fn 0).lmQuiesce = true ∧ (s.fn 0).lmStopped = false ∧ s.loansFinal 0 = true ∧ ∀ p ∈ s.blocks, ∀ x ∈ p.2.bands, x.dueTrap = none) ∧
    (let s := withFn { lmQuiesce := true, lmStopped := true } { sStopped with grids := s0.grids }
     (s.fn 0).lmStopped = true ∧ (s.fn 0).lmQdone = false ∧ s.quiet 0 = true ∧ Memory.wf s.mem = true ∧
      (∀ n, s.rangeOnLoan (s.fn 0).lmImg.toNat n = false) ∧ (∀ p ∈ s.blocks, s.saveDue p.2 = false) ∧ (s.fn 0).lmImg.toNat % 128 = 0) ∧
    (let s : State := { (s0.bootBytes 0 [1, 2]) with images := [([1, 2], ⟨[], [], [], []⟩)] }
     s.imageAt 0 = some ⟨[], [], [], []⟩) := by
  refine ⟨?_, ?_, ?_, ?_, ?_, ?_, ?_, ?_, ?_, ⟨?_, ?_, ?_, ?_, fun n => rfl, ?_, ?_⟩, ?_⟩ <;> decide +kernel

/-- A state whose memory is canonical, with a step that writes to it. -/
theorem witness_MemoryStaysCanonical : Memory.wf s0.mem = true ∧ (match step (sQueue id []) with
    | .next _ => true
    | .fault _ | .refused _ => false) = true := by decide +kernel

/-! ### Single steps of the booted device -/

/-- The band after the first step on a word. -/
def after (nbits w : Nat) : Option Band := match step (State.reset.withFetchWord nbits w) with
  | .next t => (t.blk 0).bind fun b => b.band 0
  | .fault _ | .refused _ => none

/-- `movi v9, 0x12345678` (the example of R57): every lane's v9, and the program counter 12 bytes on. -/
theorem test_step_movi : (after 96 0x1234_5678_0000_0009_280E_7005).any (fun x =>
    x.lanes.all fun l => l.v 9 == 0x12345678 && l.pc == 0x100C) = true := by decide +kernel

/-- `sys 5` (R404, R406, R414): TEPC, the mask, class and cause, the mode, and the lanes at HBASE. -/
theorem test_step_sys : (after 64 0x0500_0000_E04E_7004).any (fun x => x.tepc == 0x1000 && x.tmask == 0xFF && x.inh &&
    x.tstat.extractLsb' 0 16 == BitVec.ofNat 16 (5 * 256 + TrapClass.sys.code) && x.lanes.all fun l => l.pc == 0x2000) = true := by
  decide +kernel

/-- `clmul.lo v16, v20, v8` of zeros. -/
theorem test_step_clmul : (after 64 0x0C08_1410_13CE_7010).any (fun x => x.lanes.all fun l => l.v 16 == 0 && l.pc == 0x1008) = true := by
  decide +kernel

/-! ### The save area (R420) -/

/-- A band record begins 4,480 bytes before its vector registers; v0 of lane 1 stands 4 bytes into them. -/
theorem test_save_vregs :
    let x : Band := {
      lanes := (List.range 8).map fun l => { pc := BitVec.ofNat 64 (0x1000 + 8 * l), vregs := [BitVec.ofNat 32 (l + 5)] }
      uregs := [9] }
    (x.record 1).length = 4512 ∧ ((x.record 1).drop 0x1184).take 1 = [6] ∧ ((x.record 1).drop 8).take 2 = [8, 0x10] ∧
      ((x.record 1).drop 0x280).take 1 = [9] := by decide

/-- A configured push port with END set: bits 0, 1 and 15 of its flags, at offset 72 of its 96 bytes. -/
theorem test_save_port :
    ((records 96 [({ cfg := true, pat := { push := true, kind := .z8 }, endf := true } : Port).bytes]).drop 72).take 2 =
      leBytes 2 (0x8003 + 64 * SKind.z8.code.toNat) := by decide

end Sys2Proof.Tests
end

/-! # Memory stays canonical

An operation of the state either leaves memory alone (`mem_…`) or keeps its form (`wf_…`). An instruction is made of such
operations, so its outcome keeps the form (`keepsForm_…`), and so does a step. The headings name the model's files. -/

namespace Sys2Proof.Machine

open Sys2Proof

/-! ### Folds and optional results -/

/-- A fold that carries a state beside other data leaves memory alone when each of its steps does. -/
theorem State.mem_foldl_fst {α β : Type} (f : State × β → α → State × β) (hf : ∀ p a, (f p a).1.mem = p.1.mem) (l : List α)
    (p : State × β) : (l.foldl f p).1.mem = p.1.mem := by
  induction l generalizing p with
  | nil => rfl
  | cons a l ih => exact (ih _).trans (hf p a)

/-- A fold that carries a state beside other data keeps the form when each of its steps does. -/
theorem State.wf_foldl_fst {α β : Type} (f : State × β → α → State × β)
    (hf : ∀ p a, Memory.wf p.1.mem = true → Memory.wf (f p a).1.mem = true) (l : List α) {p : State × β}
    (h : Memory.wf p.1.mem = true) : Memory.wf (l.foldl f p).1.mem = true := by
  induction l generalizing p with
  | nil => exact h
  | cons a l ih => exact ih (hf p a h)

/-- The state that an optional result gives, if it gives one, has the memory of `s`. -/
def State.SameMem (s : State) (o : Option State) : Prop :=
  match o with
  | none => True
  | some t => t.mem = s.mem

@[simp] theorem State.sameMem_none (s : State) : s.SameMem none := trivial
@[simp] theorem State.sameMem_some (s t : State) : s.SameMem (some t) ↔ t.mem = s.mem := Iff.rfl

theorem State.SameMem.mem {s t : State} {o : Option State} (h : s.SameMem o) (e : o = some t) : t.mem = s.mem := by
  subst e
  exact h

theorem State.SameMem.mem_getD {s : State} {o : Option State} (h : s.SameMem o) : (o.getD s).mem = s.mem := by
  cases o with
  | none => rfl
  | some t => exact h

theorem State.SameMem.of_mem {s t : State} {o : Option State} (h : t.SameMem o) (e : t.mem = s.mem) : s.SameMem o := by
  cases o with
  | none => trivial
  | some u => exact Eq.trans h e

theorem State.sameMem_map {α : Type} {s : State} {o : Option α} {f : α → State} (h : ∀ a, (f a).mem = s.mem) :
    s.SameMem (o.map f) := by
  cases o with
  | none => trivial
  | some a => exact h a

theorem State.SameMem.map {s : State} {o : Option State} {f : State → State} (h : s.SameMem o) (hf : ∀ t, (f t).mem = t.mem) :
    s.SameMem (o.map f) := by
  cases o with
  | none => trivial
  | some t => exact (hf t).trans h

theorem State.SameMem.or {s : State} {o p : Option State} (ho : s.SameMem o) (hp : s.SameMem p) : s.SameMem (o.or p) := by
  cases o with
  | none => exact hp
  | some t => exact ho

theorem State.sameMem_ite {s : State} {c : Prop} [Decidable c] {o p : Option State} (ho : s.SameMem o) (hp : s.SameMem p) :
    s.SameMem (if c then o else p) := by
  split
  · exact ho
  · exact hp

@[simp] theorem State.mem_fresh (s : State) : s.fresh.2.mem = s.mem := rfl

/-! ## Operations that leave memory alone -/

/-! ### Ops -/

@[simp] theorem State.mem_rearrive (s : State) (p : Nat → Bool) : (s.rearrive p).mem = s.mem := rfl

@[simp] theorem State.mem_loanEnds (s : State) (m : Sample) : (s.loanEnds m).mem = s.mem := rfl

@[simp] theorem State.mem_deaccession (s : State) (sid : Nat) : (s.deaccession sid).mem = s.mem := by
  unfold State.deaccession
  repeat' split
  all_goals simp

@[simp] theorem State.mem_markFailed (s : State) (lid status : Nat) : (s.markFailed lid status).mem = s.mem := by
  unfold State.markFailed
  refine State.mem_foldl _ (fun _ _ => ?_) _ _
  simp

@[simp] theorem State.mem_failGrid (s : State) (lid status : Nat) (rec : List Byte) :
    (s.failGrid lid status rec).mem = s.mem := by
  unfold State.failGrid
  repeat' split
  all_goals simp [State.mem_flog]

@[simp] theorem State.mem_failTrap (s : State) (k n : Nat) (t : Trap) (async : Bool) :
    (s.failTrap k n t async).mem = s.mem := by
  unfold State.failTrap
  split <;> simp

@[simp] theorem State.mem_enterHandler (s : State) (k n : Nat) (t : Trap) (async ovf : Bool) (pc : DWord) (act : List Nat) :
    (s.enterHandler k n t async ovf pc act).mem = s.mem := by
  unfold State.enterHandler
  repeat' split
  all_goals simp

@[simp] theorem State.mem_handlerTrap (s : State) (k n : Nat) (t : Trap) (async ovf : Bool) (pc : DWord) (act : List Nat) :
    (s.handlerTrap k n t async ovf pc act).mem = s.mem := by
  unfold State.handlerTrap
  repeat' split
  all_goals simp

theorem State.sameMem_takeDue (s : State) (k n : Nat) : s.SameMem (s.takeDue k n) := by
  unfold State.takeDue
  split
  · simp
  · exact State.sameMem_map fun d => by simp

@[simp] theorem State.mem_pageRequest (s : State) (k n : Nat) (t : Trap) (act : List Nat) :
    (s.pageRequest k n t act).mem = s.mem := by
  unfold State.pageRequest
  repeat' split
  all_goals simp [State.mem_flog]

@[simp] theorem State.mem_syncTrap (s : State) (k n : Nat) (t : Trap) (pc : DWord) (act : List Nat) :
    (s.syncTrap k n t pc act).mem = s.mem := by
  unfold State.syncTrap
  repeat' split
  all_goals simp

/-! ### Mem -/

@[simp] theorem State.mem_newVersion (s : State) (line w : Nat) : (s.newVersion line w).mem = s.mem := rfl

@[simp] theorem State.mem_toStack (s : State) (ch : Nat) (r : StackReq) : (s.toStack ch r).mem = s.mem := rfl

@[simp] theorem State.mem_readUnit (s : State) (a kid : Nat) (f : StackFor) : (s.readUnit a kid f).mem = s.mem := rfl

@[simp] theorem State.mem_shadowTrim (s : State) (sl : Nat) : (s.shadowTrim sl).mem = s.mem := by
  unfold State.shadowTrim
  dsimp only
  split <;> rfl

@[simp] theorem State.mem_writeBack (s : State) (line : Nat) : (s.writeBack line).mem = s.mem := by
  unfold State.writeBack
  split
  · rfl
  · exact State.mem_foldl _ (fun _ _ => State.mem_writeUnit ..) _ _

@[simp] theorem State.mem_sliceTrim (s : State) (sl keep : Nat) : (s.sliceTrim sl keep).mem = s.mem := by
  unfold State.sliceTrim
  dsimp only
  split <;> simp

@[simp] theorem State.mem_intoSlice (s : State) (pa : Nat) : (s.intoSlice pa).mem = s.mem := by
  unfold State.intoSlice
  simp

@[simp] theorem State.mem_received (s : State) (core line version : Nat) : (s.received core line version).mem = s.mem := rfl

@[simp] theorem State.mem_post (s : State) (src dest : Router) (cls : PktCls) (deadline lid : Nat)
    (blk : Option (Nat × Nat)) (m : Msg) :
    (s.post src dest cls deadline lid blk m).mem = s.mem := rfl

@[simp] theorem State.mem_send (s : State) (src dest : Router) (cls : PktCls) (lid : Nat) (blk : Option (Nat × Nat))
    (m : Msg) :
    (s.send src dest cls lid blk m).mem = s.mem := rfl

@[simp] theorem State.mem_answer (s : State) (q : Pkt) (cls : PktCls) (dest : Router) (m : Msg) :
    (s.answer q cls dest m).mem = s.mem := rfl

@[simp] theorem State.mem_engineAsk (s : State) (core lid : Nat) (blk : Option (Nat × Nat)) (id : Nat) (as : List LineAsk) :
    (s.engineAsk core lid blk id as).mem = s.mem := by
  unfold State.engineAsk
  simp [State.mem_askHomes]

@[simp] theorem State.mem_deviceAsk (s : State) (lines : List Nat) : (s.deviceAsk lines).mem = s.mem := by
  unfold State.deviceAsk
  simp [State.mem_askHomes]

@[simp] theorem State.mem_giveUp (s : State) (core lid : Nat) (wb : Option (Nat × Nat)) (x : L1Line) :
    (s.giveUp core lid wb x).mem = s.mem := by
  unfold State.giveUp
  split <;> rfl

@[simp] theorem State.mem_l1Put (s : State) (core lid : Nat) (x : L1Line) : (s.l1Put core lid x).mem = s.mem := by
  unfold State.l1Put
  dsimp only
  repeat' split
  all_goals simp

@[simp] theorem State.mem_tlbFill (s : State) (core : Nat) (x : Xl) : (s.tlbFill core x).mem = s.mem := by
  unfold State.tlbFill
  split <;> rfl

@[simp] theorem State.mem_walkFill (s : State) (core asid lid : Nat) (blk : Option (Nat × Nat)) (va : Nat) (x : Xl) :
    (s.walkFill core asid lid blk va x).mem = s.mem := by
  unfold State.walkFill
  split <;> simp

@[simp] theorem State.mem_tlbFillAll (s : State) (core asid lid : Nat) (blk : Option (Nat × Nat)) (ys : List LaneX) :
    (s.tlbFillAll core asid lid blk ys).mem = s.mem := by
  refine State.mem_foldl_fst _ (fun p y => ?_) ys (s, [])
  split
  · split <;> simp
  · rfl

@[simp] theorem State.mem_unpoison (s : State) (line : Nat) : (s.unpoison line).mem = s.mem := rfl

@[simp] theorem State.mem_holdPoison (s : State) (line : Nat) : (s.holdPoison line).mem = s.mem := rfl

@[simp] theorem State.mem_scSend (s : State) (core : Nat) (a : ScAcc) : (s.scSend core a).mem = s.mem := by
  unfold State.scSend
  dsimp only
  split <;> rfl

@[simp] theorem State.mem_scDone (s : State) (core : Nat) : (s.scDone core).mem = s.mem := by
  unfold State.scDone
  dsimp only
  split <;> rfl

@[simp] theorem State.mem_storeLine (s : State) (k n : Nat) (unc clr : Bool) (push : Option Nat) (line : Nat)
    (as : List StorePart) :
    (s.storeLine k n unc clr push line as).mem = s.mem := by
  unfold State.storeLine
  repeat' split
  all_goals simp

/-! ### Issue -/

@[simp] theorem State.mem_csvevt (s : State) (i : Nat) : (s.csvevt i).mem = s.mem := rfl

@[simp] theorem State.mem_ownWrites (s : State) (sid : Nat) (prov : List Prov) : (s.ownWrites sid prov).mem = s.mem :=
  State.mem_foldl _ (fun _ _ => State.mem_foldl _ (fun _ _ => State.mem_received ..) _ _) _ _

@[simp] theorem State.mem_depart (s : State) (k : Nat) : (s.depart k).mem = s.mem := by
  unfold State.depart
  repeat' split
  all_goals simp

@[simp] theorem State.mem_takeAllDue (s : State) (k : Nat) : (s.takeAllDue k).mem = s.mem :=
  State.mem_foldl _ (fun _ _ => (State.sameMem_takeDue ..).mem_getD) _ _

@[simp] theorem State.mem_stopBlock (s : State) (k : Nat) (preempt : Bool) (annex : Option Bool) :
    (s.stopBlock k preempt annex).mem = s.mem := by
  unfold State.stopBlock
  simp

@[simp] theorem State.mem_receivedAll (s : State) (core : Nat) (as : List LineAsk) :
    (s.receivedAll core as).mem = s.mem := by
  unfold State.receivedAll
  refine State.mem_foldl _ (fun _ _ => ?_) _ _
  simp

@[simp] theorem State.mem_askLine (s : State) (k n : Nat) (b : Block) (op : Nat) (unc watch : Bool) (x : Xl) (line : Nat) :
    (s.askLine k n b op unc watch x line).mem = s.mem := by
  unfold State.askLine
  split <;> simp

@[simp] theorem State.mem_fetchHold (s : State) (k n : Nat) (b : Block) (x : Band) (pc : DWord) (act : List Nat)
    (unc watch : Bool) (ps : List Need) :
    (s.fetchHold k n b x pc act unc watch ps).mem = s.mem := by
  unfold State.fetchHold
  refine State.mem_foldl _ (fun _ _ => ?_) _ _
  split <;> simp

@[simp] theorem State.mem_blockLanes (s : State) (k n : Nat) (ls : List Nat) (w : Wait) :
    (s.blockLanes k n ls w).mem = s.mem := rfl

@[simp] theorem State.mem_markIlk (s : State) (k n : Nat) (b : Block) (x : Band) (i : Instr) :
    (s.markIlk k n b x i).mem = s.mem := by
  unfold State.markIlk
  split <;> rfl

@[simp] theorem State.mem_notePoison (s : State) (b : Block) (key : Nat × Nat × DWord) :
    (s.notePoison b key).mem = s.mem := by
  unfold State.notePoison
  split <;> rfl

@[simp] theorem State.mem_nextStoreSeq (s : State) (k n : Nat) : (s.nextStoreSeq k n).mem = s.mem := rfl

@[simp] theorem State.mem_checkRec (s : State) (k n : Nat) : (s.checkRec k n).mem = s.mem := by
  unfold State.checkRec
  split <;> simp

@[simp] theorem Iss.mem_finish (y : Iss) (s : State) (i : Instr) (jumps : List (Nat × DWord)) :
    (y.finish s i jumps).mem = s.mem := by
  unfold Iss.finish
  split <;> simp

@[simp] theorem Iss.mem_base (y : Iss) : y.base.mem = y.s.mem := rfl

@[simp] theorem Iss.mem_putOuts (y : Iss) (outs : List (Nat × Out)) : (y.putOuts outs).mem = y.s.mem := rfl

@[simp] theorem Iss.mem_trap (y : Iss) (t : Trap) : (y.trap t).mem = y.s.mem := by
  unfold Iss.trap
  simp

/-! ### Sync -/

@[simp] theorem State.mem_modBar (s : State) (k : Nat) (sc : BScope) (num : Nat) (f : Barrier → Barrier) :
    (s.modBar k sc num f).mem = s.mem := by
  unfold State.modBar
  repeat' split
  all_goals simp

@[simp] theorem State.mem_arriveLane (s : State) (k n l : Nat) (sc : BScope) (num : Nat) :
    (s.arriveLane k n l sc num).mem = s.mem := by
  unfold State.arriveLane
  repeat' split
  all_goals simp

@[simp] theorem Iss.mem_arriveAll (y : Iss) (s : State) (sc : BScope) (num : Nat) : (y.arriveAll s sc num).mem = s.mem := by
  unfold Iss.arriveAll
  refine State.mem_foldl _ (fun _ _ => ?_) _ _
  simp

@[simp] theorem Iss.mem_waitBar (y : Iss) (s : State) (sc : BScope) (num : Nat) : (y.waitBar s sc num).mem = s.mem := by
  unfold Iss.waitBar
  repeat' split
  all_goals simp

@[simp] theorem Iss.mem_syncStamp (y : Iss) (s : State) (sc : BScope) (num : Nat) : (y.syncStamp s sc num).mem = s.mem := by
  unfold Iss.syncStamp
  repeat' split
  all_goals simp

@[simp] theorem Iss.mem_barFromLog (y : Iss) (i : Instr) (sc : BScope) (num : Nat) :
    (y.barFromLog i sc num).mem = y.s.mem := by
  unfold Iss.barFromLog
  repeat' split
  all_goals simp

@[simp] theorem State.mem_leaveBars (s : State) (k : Nat) (us : List Nat) : (s.leaveBars k us).mem = s.mem := by
  unfold State.leaveBars
  dsimp only
  repeat' split
  all_goals simp

/-! ### Access -/

@[simp] theorem Iss.mem_onLoan (y : Iss) (sid : Nat) : (y.onLoan sid).mem = y.s.mem := rfl

@[simp] theorem Iss.mem_stop (y : Iss) (e : Stop) : (y.stop e).mem = y.s.mem := by
  unfold Iss.stop
  split <;> simp

@[simp] theorem Iss.mem_fills (y : Iss) (s : State) (xs : List LaneX) : (y.fills s xs).mem = s.mem := by
  unfold Iss.fills
  simp

@[simp] theorem Iss.mem_reads (y : Iss) (s : State) (xs : List LaneX) : (y.reads s xs).mem = s.mem := by
  unfold Iss.reads
  split <;> simp

theorem Iss.sameMem_held (y : Iss) (read : Bool) (xs : List LaneX) : y.s.SameMem (y.held read xs) := by
  unfold Iss.held
  split
  · simp
  · split <;> simp

theorem Iss.sameMem_full (y : Iss) (xs : List LaneX) : y.s.SameMem (y.full xs) := State.sameMem_map fun p => by simp

@[simp] theorem Iss.mem_askLine (y : Iss) (s : State) (op : Nat) (unc watch : Bool) (x : Xl) (line : Nat) :
    (y.askLine s op unc watch x line).mem = s.mem := by
  unfold Iss.askLine
  simp

@[simp] theorem Iss.mem_fetchFor (y : Iss) (unc watch : Bool) (ps : List Piece) :
    (y.fetchFor unc watch ps).mem = y.s.mem := by
  unfold Iss.fetchFor
  simp

@[simp] theorem State.mem_countMiss (s : State) (k n : Nat) (b : Block) (m : Nat) : (s.countMiss k n b m).mem = s.mem := rfl

@[simp] theorem Iss.mem_portStop (y : Iss) (e : PushStop) : (y.portStop e).mem = y.s.mem := by
  unfold Iss.portStop
  split <;> simp

@[simp] theorem Iss.mem_inFlight (y : Iss) (i : Instr) (s : State) (op : PendOp) (port : Option (Nat × List PushAt)) :
    (y.inFlight i s op port).mem = s.mem := by
  unfold Iss.inFlight
  dsimp only
  split <;> simp

@[simp] theorem Iss.mem_ask (y : Iss) (s : State) (op : Nat) (unc watch : Bool) (xs : List LaneX) :
    (y.ask s op unc watch xs).mem = s.mem := by
  unfold Iss.ask
  refine State.mem_foldl _ (fun _ _ => ?_) _ _
  split <;> simp

@[simp] theorem Iss.mem_watchLine (y : Iss) (op : Nat) (xs : List LaneX) (s : State) (line : Nat) :
    (y.watchLine op xs s line).mem = s.mem := by
  unfold Iss.watchLine
  dsimp only
  repeat' split
  all_goals simp

@[simp] theorem State.mem_sendFlits (s : State) (port : Nat) (fs : List Flit) : (s.sendFlits port fs).mem = s.mem := rfl

@[simp] theorem State.mem_remoteOp (s : State) (k n va pa : Nat) (bs : List Byte) : (s.remoteOp k n va pa bs).mem = s.mem := by
  unfold State.remoteOp
  split
  · rfl
  · dsimp only
    split
    · rfl
    · cases State.rmtOf _ pa bs |>.port <;> rfl

@[simp] theorem Iss.mem_trapPeer (y : Iss) (peers : Bool) (t : Trap) : (y.trapPeer peers t).mem = y.s.mem := by
  unfold Iss.trapPeer
  repeat' split
  all_goals simp

@[simp] theorem Iss.mem_askAtom (y : Iss) (s : State) (op : Nat) (xs : List LaneX) : (y.askAtom s op xs).mem = s.mem := by
  unfold Iss.askAtom
  refine State.mem_foldl _ (fun _ _ => ?_) _ _
  split <;> simp

@[simp] theorem Iss.mem_askOwn (y : Iss) (s : State) (xs : List LaneX) : (y.askOwn s xs).mem = s.mem := by
  unfold Iss.askOwn
  refine State.mem_foldl _ (fun _ _ => ?_) _ _
  split <;> simp

@[simp] theorem Iss.mem_signAtoms (y : Iss) (s : State) (red : Bool) (sz : Nat) (val : LaneX → DWord) (xs : List LaneX) :
    (y.signAtoms s red sz val xs).mem = s.mem := by
  unfold Iss.signAtoms
  refine State.mem_foldl _ (fun _ _ => ?_) _ _
  simp

@[simp] theorem State.mem_flushOwned (s : State) (core k n lid : Nat) (p : Nat → Bool) :
    (s.flushOwned core k n lid p).mem = s.mem := by
  unfold State.flushOwned
  refine State.mem_foldl _ (fun _ _ => ?_) _ _
  split <;> simp

@[simp] theorem Iss.mem_prefetch (y : Iss) (own : Bool) (s : State) (q : Nat × Xl) : (y.prefetch own s q).mem = s.mem := by
  unfold Iss.prefetch
  repeat' split
  all_goals simp

/-! ### System -/

@[simp] theorem State.mem_haltTake (s : State) (k n : Nat) : (s.haltTake k n).mem = s.mem := by
  unfold State.haltTake
  split
  · rfl
  · split
    · refine (State.SameMem.map ?_ fun t => State.modBand_mem ..).mem_getD
      exact (State.sameMem_takeDue ..).of_mem (State.modBand_mem ..)
    · rfl

@[simp] theorem Iss.mem_leave (y : Iss) (i : Instr) (target : DWord) : (y.leave i target).mem = y.s.mem := by
  unfold Iss.leave
  simp

@[simp] theorem State.mem_tlbDrop (s : State) (p : TlbEnt → Bool) : (s.tlbDrop p).mem = s.mem := rfl

/-! ### Copy -/

@[simp] theorem Iss.mem_waitLanes (y : Iss) (i : Instr) (w : Wait) : (y.waitLanes i w).mem = y.s.mem := by
  unfold Iss.waitLanes
  simp

@[simp] theorem State.mem_acceptCopy (s : State) (k : Nat) (c : Copy) : (s.acceptCopy k c).mem = s.mem := by
  unfold State.acceptCopy
  dsimp only
  repeat' split
  all_goals simp

@[simp] theorem State.mem_copySeq (s : State) (k n : Nat) (own : Bool) : (s.copySeq k n own).mem = s.mem := by
  unfold State.copySeq
  split <;> rfl

@[simp] theorem State.mem_countCopy (s : State) (k n id : Nat) : (s.countCopy k n id).mem = s.mem := rfl

theorem State.sameMem_acceptCol (s : State) (k id : Nat) : s.SameMem (s.acceptCol k id) := by
  unfold State.acceptCol
  dsimp only
  repeat' split
  all_goals simp

@[simp] theorem State.mem_acceptCols (s : State) (k : Nat) : (s.acceptCols k).mem = s.mem :=
  State.mem_foldl _ (fun _ _ => (State.sameMem_acceptCol ..).mem_getD) _ _

@[simp] theorem State.mem_unpoisonCopy (s : State) (k : Nat) (c : Copy) : (s.unpoisonCopy k c).mem = s.mem := by
  have hu (ls : List Nat) (s : State) : (ls.foldl State.unpoison s).mem = s.mem := State.mem_foldl _ State.mem_unpoison _ _
  unfold State.unpoisonCopy
  dsimp only
  split
  · rfl
  · split
    · rfl
    · split
      · exact hu _ _
      · split
        · rfl
        · split
          · rfl
          · exact hu _ _

@[simp] theorem State.mem_setCopy (s : State) (k : Nat) (c : Copy) : (s.setCopy k c).mem = s.mem := rfl

@[simp] theorem State.mem_copyPage (s : State) (k : Nat) (b : Block) (c : Copy) (cause : Nat) (va : DWord) :
    (s.copyPage k b c cause va).mem = s.mem := by
  unfold State.copyPage
  split <;> simp [State.mem_flog]

@[simp] theorem State.mem_copyMet (s : State) (b : Block) (c : Copy) (f : Option (Nat × Trap)) :
    (s.copyMet b c f).mem = s.mem := by
  unfold State.copyMet
  repeat' split
  all_goals simp

@[simp] theorem State.mem_takeSegment (s : State) (k : Nat) (b : Block) (c : Copy) (g : Nat) :
    (s.takeSegment k b c g).mem = s.mem := by
  unfold State.takeSegment
  simp

@[simp] theorem State.mem_engineFault (s : State) (k n : Nat) (cmd : Bool) (t : Trap) (seq : Nat) :
    (s.engineFault k n cmd t seq).mem = s.mem := by
  unfold State.engineFault
  repeat' split
  all_goals simp

/-! ### Matrix -/

@[simp] theorem State.mem_acceptEnt (s : State) (k : Nat) (e : LatchEnt) : (s.acceptEnt k e).mem = s.mem := by
  unfold State.acceptEnt
  split <;> rfl

@[simp] theorem Iss.mem_command (y : Iss) (i : Instr) (m : MFields) (ins : CmdIns) : (y.command i m ins).mem = y.s.mem := by
  unfold Iss.command
  split
  · simp
  · extract_lets found e l mine tok base
    split
    · simp
    · split
      · rfl
      · split
        · rfl
        · split
          · simp
          · split
            · rfl
            · extract_lets e' s₁ s₂ s₃ s₄
              have h₃ : s₃.mem = y.s.mem := by dsimp only [s₃]; split <;> rfl
              rw [Iss.mem_finish]
              dsimp only [s₄]
              split <;> simp [h₃]

@[simp] theorem State.mem_captureLate (s : State) (k : Nat) (b : Block) (e : LatchEnt) :
    (s.captureLate k b e).1.mem = s.mem := by
  unfold State.captureLate
  split
  · rfl
  · split <;> simp

theorem State.sameMem_acceptDue (s : State) (k key : Nat) : s.SameMem (s.acceptDue k key) := by
  unfold State.acceptDue
  dsimp only
  repeat' split
  all_goals simp

@[simp] theorem State.mem_bandEnded (s : State) (k n : Nat) : (s.bandEnded k n).mem = s.mem := by
  have hd : ((((s.blk k).map Block.latch).getD []).foldl (fun s e => (s.acceptDue k e.key).getD s) s).mem = s.mem :=
    State.mem_foldl _ (fun _ _ => (State.sameMem_acceptDue ..).mem_getD) _ _
  unfold State.bandEnded
  dsimp only
  split <;> simp [hd]

@[simp] theorem State.mem_cmdRegs (s : State) (k : Nat) (c : Cmd) (res : CmdRes) : (s.cmdRegs k c res).mem = s.mem := by
  unfold State.cmdRegs
  repeat' split
  all_goals simp

/-! ### Messages -/

@[simp] theorem State.mem_takePkt (s : State) (p : Nat) : (s.takePkt p).mem = s.mem := rfl

@[simp] theorem State.mem_fetchLine (s : State) (pa kid : Nat) : (s.fetchLine pa kid).mem = s.mem := by
  unfold State.fetchLine
  split
  · simp
  · exact (State.mem_foldl _ (fun _ _ => State.mem_readUnit ..) _ _).trans (State.mem_intoSlice ..)

@[simp] theorem State.mem_poisonCw (s : State) (n : Nat) : (s.poisonCw n).mem = s.mem := rfl

@[simp] theorem State.mem_ackStore (s : State) (q : Pkt) (w : Nat) (err : Bool) : (s.ackStore q w err).mem = s.mem := by
  unfold State.ackStore
  split <;> rfl

@[simp] theorem State.mem_logWriteError (s : State) (kid pa lid bx by' bz : Nat) :
    (s.logWriteError kid pa lid bx by' bz).mem = s.mem := by
  unfold State.logWriteError
  split <;> simp [State.mem_flog]

@[simp] theorem State.mem_stackDone (s : State) (ch : Nat) (r : StackReq) (bad : Bool) :
    (s.stackDone ch r bad).mem = s.mem := by
  unfold State.stackDone
  repeat' split
  all_goals simp

@[simp] theorem State.mem_latePkt (s : State) (q : Pkt) : (s.latePkt q).mem = s.mem := by
  have hf (g : State → Nat × Nat → Band → Band) (bs : List (Nat × Nat)) (s : State) :
      (bs.foldl (fun s p => s.modBand p.1 p.2 (g s p)) s).mem = s.mem := State.mem_foldl _ (fun _ _ => State.modBand_mem ..) _ _
  unfold State.latePkt
  dsimp only
  split
  · exact hf _ _ _
  · repeat' split
    all_goals simp [hf]

@[simp] theorem State.mem_startRecall (s : State) (line c : Nat) (q : Pkt) : (s.startRecall line c q).mem = s.mem := rfl

@[simp] theorem State.mem_backInvalidate (s : State) (line lid : Nat) (blk : Option (Nat × Nat)) (deadline : Nat) :
    (s.backInvalidate line lid blk deadline).mem = s.mem := rfl

@[simp] theorem State.mem_noteOutside (s : State) (sid : Nat) : (s.noteOutside sid).mem = s.mem := rfl

@[simp] theorem State.mem_raiseLx (s : State) (line : Nat) (e : Option Nat) : (s.raiseLx line e).mem = s.mem := by
  unfold State.raiseLx
  split <;> rfl

@[simp] theorem State.mem_serveLoad (s : State) (q : Pkt) (k n op core line kid : Nat) (unc sc watch : Bool) :
    (s.serveLoad q k n op core line kid unc sc watch).mem = s.mem := by
  unfold State.serveLoad
  simp

@[simp] theorem State.mem_serveNc (s : State) (q : Pkt) (k n op line kid : Nat) (watch : Bool) :
    (s.serveNc q k n op line kid watch).mem = s.mem :=
  (State.mem_foldl _ (fun _ _ => State.mem_readUnit ..) _ _).trans (State.mem_raiseLx ..)

@[simp] theorem State.mem_unitAsk (s : State) (line kid : Nat) (nc : Bool) : (s.unitAsk line kid nc).mem = s.mem := by
  unfold State.unitAsk
  dsimp only
  split
  · rfl
  · split
    · split
      · exact State.mem_foldl _ (fun _ _ => State.mem_readUnit ..) _ _
      · rfl
    · simp

@[simp] theorem State.mem_ownedPut (s : State) (line : Nat) (parts : List (Nat × Nat × List Byte)) :
    (s.ownedPut line parts).mem = s.mem := by
  unfold State.ownedPut
  split <;> rfl

@[simp] theorem State.mem_unitWrite (s : State) (r : StoreReq) (f : StackFor) (u : Nat) :
    (s.unitWrite r f u).mem = s.mem := by
  unfold State.unitWrite
  simp [State.mem_writeUnit]

@[simp] theorem State.mem_learnAll (s : State) (id w : Nat) : (s.learnAll id w).mem = s.mem := rfl

@[simp] theorem State.mem_watchBack (s : State) (k n op line : Nat) (version ec : Option Nat) :
    (s.watchBack k n op line version ec).mem = s.mem := by
  unfold State.watchBack
  split <;> rfl

@[simp] theorem State.mem_fillL1 (s : State) (core lid line : Nat) (unc : Bool) (data : List Byte) (expiry version w : Nat)
    :
    (s.fillL1 core lid line unc data expiry version w).mem = s.mem := by
  unfold State.fillL1
  dsimp only
  split <;> simp

@[simp] theorem State.mem_grantTo (s : State) (q : Pkt) (core line : Nat) : (s.grantTo q core line).mem = s.mem := by
  unfold State.grantTo
  simp

@[simp] theorem State.mem_slerrInc (s : State) : s.slerrInc.mem = s.mem := rfl

/-! ### Wake -/

@[simp] theorem State.mem_takeStamp (s : State) (k n : Nat) (sid : Option Nat) (m : MetBar) :
    (s.takeStamp k n sid m).mem = s.mem := by
  unfold State.takeStamp
  split <;> rfl

@[simp] theorem State.mem_settle (s : State) (k n : Nat) : (s.settle k n).mem = s.mem := by
  unfold State.settle
  split
  · rfl
  · split
    · rfl
    · split
      · rfl
      · rw [State.modBand_mem]
        exact State.mem_foldl _ (fun _ _ => State.mem_takeStamp ..) _ _

/-! ### Queue -/

@[simp] theorem State.mem_modQueue (s : State) (f q : Nat) (g : Queue → Queue) : (s.modQueue f q g).mem = s.mem := rfl

theorem State.mem_of_makeCtx {s : State} {f desc : Nat} {p : State × Nat} (h : s.makeCtx f desc = some p) :
    p.1.mem = s.mem := by
  unfold State.makeCtx at h
  split at h
  · cases h
    rfl
  · split at h
    · cases h
      simp
    · cases h

@[simp] theorem State.mem_consume (s : State) (f q : Nat) : (s.consume f q).mem = s.mem := rfl

@[simp] theorem State.mem_accept (s : State) (f q : Nat) (p : Packet) : (s.accept f q p).mem = s.mem := by
  unfold State.accept
  dsimp only
  split
  · rename_i h
    simpa using State.mem_of_makeCtx h
  · simp [State.mem_flog]

/-! ### Place -/

@[simp] theorem State.mem_openSample (s : State) (k : Nat) (g : Grid) (b : Block) (args : List Word) (sigma : Nat) :
    (s.openSample k g b args sigma).mem = s.mem := rfl

@[simp] theorem State.mem_carveCore (s : State) (core : Nat) (carve : Word) : (s.carveCore core carve).mem = s.mem := rfl

@[simp] theorem State.mem_latchReady (s : State) (lid : Nat) : (s.latchReady lid).mem = s.mem := by
  unfold State.latchReady
  repeat' split
  all_goals simp

@[simp] theorem State.mem_putBlock (s : State) (lid core : Nat) (args : List Word) : (s.putBlock lid core args).mem = s.mem := by
  unfold State.putBlock
  split
  · rfl
  · dsimp only
    split <;> simp

theorem State.sameMem_putBlocks (s : State) (lid : Nat) (args : List Word) (gone : List Nat) (n : Nat) :
    s.SameMem (s.putBlocks lid args gone n) := by
  induction n generalizing s with
  | zero => exact rfl
  | succ n ih =>
    unfold State.putBlocks
    split
    · simp
    · split
      · simp
      · exact (ih _).of_mem (State.mem_putBlock ..)

@[simp] theorem State.mem_makeBars (s : State) (lid : Nat) : (s.makeBars lid).mem = s.mem := rfl

theorem State.sameMem_placeNext (s : State) (g : Grid) (args : List Word) (gone : List Nat) :
    s.SameMem (s.placeNext g args gone) := by
  unfold State.placeNext
  split
  · split
    · simp
    · rename_i e
      dsimp only
      split
      · simp [(State.sameMem_putBlocks ..).mem e]
      · simp
  · exact State.sameMem_putBlocks ..

@[simp] theorem State.mem_notePlace (s : State) (b : Block) (core : Nat) : (s.notePlace b core).mem = s.mem := by
  unfold State.notePlace
  split <;> rfl

theorem State.sameMem_resumeOne (s : State) (k : Nat) (gone : List Nat) : s.SameMem (s.resumeOne k gone) := by
  unfold State.resumeOne
  dsimp only
  repeat' split
  all_goals simp

theorem State.sameMem_resumeAll (s : State) (gone ks : List Nat) : s.SameMem (s.resumeAll gone ks) := by
  induction ks generalizing s with
  | nil => exact rfl
  | cons k ks ih =>
    unfold State.resumeAll
    split
    · simp
    · rename_i e
      exact (ih _).of_mem ((State.sameMem_resumeOne ..).mem e)

theorem State.sameMem_tryItem (s : State) (gone : List Nat) (i : Item) : s.SameMem (s.tryItem gone i) := by
  unfold State.tryItem
  cases i with
  | block g =>
    dsimp only
    split <;> exact State.sameMem_placeNext ..
  | resume k =>
    dsimp only
    split
    · simp
    · exact State.sameMem_resumeAll ..
  | run sid =>
    dsimp only
    split
    · simp
    · split
      · simp
      · exact State.sameMem_map fun _ => rfl

@[simp] theorem State.mem_argPage (s : State) (g : Grid) (t : Trap) : (s.argPage g t).mem = s.mem := by
  unfold State.argPage
  split <;> simp [State.mem_flog]

@[simp] theorem State.mem_actFor (s : State) (i : Option Item) : (s.actFor i).mem = s.mem := by
  unfold State.actFor
  split <;> simp

@[simp] theorem State.mem_logUnconsumed (s : State) (b : Block) : (s.logUnconsumed b).mem = s.mem := by
  unfold State.logUnconsumed
  refine State.mem_foldl _ (fun _ _ => ?_) _ _
  split <;> simp [State.mem_flog]

/-! ### Conservator -/

@[simp] theorem State.mem_cleanCheck (s : State) (c : Nat) : (s.cleanCheck c).mem = s.mem := rfl

@[simp] theorem State.mem_leaveWide (s : State) (b : Block) : (s.leaveWide b).mem = s.mem := by
  unfold State.leaveWide
  split <;> rfl

@[simp] theorem State.mem_addResult (s : State) (b : Block) : (s.addResult b).mem = s.mem := by
  unfold State.addResult
  split <;> rfl

@[simp] theorem State.mem_loseLines (s : State) (c : Nat) (ls : List L1Line) : (s.loseLines c ls).mem = s.mem := by
  induction ls generalizing s with
  | nil => rfl
  | cons x ls ih =>
    unfold State.loseLines
    dsimp only
    rw [ih]
    split <;> simp

/-! ### Registers -/

@[simp] theorem State.mem_answerPage (s : State) (f : Nat) (decline : Bool) (r : PageReq) :
    (s.answerPage f decline r).mem = s.mem := by
  unfold State.answerPage
  repeat' split
  all_goals simp

@[simp] theorem State.mem_newKeys (s : State) (m : DWord) : (s.newKeys m).mem = s.mem := by
  unfold State.newKeys
  refine State.mem_foldl _ (fun _ _ => ?_) _ _
  simp

@[simp] theorem State.mem_regenKeys (s : State) (p : Nat) : (s.regenKeys p).mem = s.mem := by
  unfold State.regenKeys
  refine State.mem_foldl _ (fun _ _ => ?_) _ _
  simp

@[simp] theorem State.mem_unlock (s : State) (f : Nat) (st : Tdisp) : (s.unlock f st).mem = s.mem := by
  unfold State.unlock
  dsimp only
  rw [State.mem_regenKeys, State.modFn_mem]
  exact State.mem_foldl _ (fun _ _ => State.mem_markFailed ..) _ _

theorem State.sameMem_writePf (s : State) (off : Nat) (v : DWord) : s.SameMem (s.writePf off v) := by
  unfold State.writePf
  extract_lets p w put
  have hp (q : Pf) : s.SameMem (put q) := (State.sameMem_some ..).2 rfl
  clear_value p w put
  repeat' apply State.sameMem_ite
  any_goals split
  all_goals simp [hp]

@[simp] theorem State.mem_ckpStart (s : State) (restore viaReg : Bool) (target : DWord) :
    (s.ckpStart restore viaReg target).mem = s.mem := by
  unfold State.ckpStart
  repeat' split
  all_goals simp

@[simp] theorem State.mem_ckpSave (s : State) (complete : Bool) : (s.ckpSave complete).mem = s.mem := rfl

@[simp] theorem State.mem_ckpFinish (s : State) (err : Nat) : (s.ckpFinish err).mem = s.mem := rfl

/-! ### Host -/

@[simp] theorem State.mem_modRoot (s : State) (f : Root → Root) : (s.modRoot f).mem = s.mem := rfl

@[simp] theorem State.mem_reply (s : State) (r : Reply) : (s.reply r).mem = s.mem := rfl

@[simp] theorem State.mem_sliceError (s : State) (n : Nat) : (s.sliceError n).mem = s.mem := by
  unfold State.sliceError
  dsimp only
  split <;> rfl

@[simp] theorem State.mem_setBar (s : State) (f : Nat) (base : DWord) : (s.setBar f base).mem = s.mem := by
  unfold State.setBar
  split <;> simp

@[simp] theorem State.mem_readWear (s : State) (d day margin stress : Nat) :
    (s.readWear d day margin stress).mem = s.mem := rfl

@[simp] theorem State.mem_dbgDone (s : State) (f : Nat) (c : DWord) (err : Bool) (dat : Option DWord) :
    (s.dbgDone f c err dat).mem = s.mem := rfl

@[simp] theorem State.mem_unhalt (s : State) (k n : Nat) (x : Band) (step : Bool) : (s.unhalt k n x step).mem = s.mem := by
  unfold State.unhalt
  split <;> simp

@[simp] theorem State.mem_restoreCtxs (s : State) (v : Nat) (cs : List (Nat × Nat)) : (s.restoreCtxs v cs).1.mem = s.mem := by
  induction cs generalizing s with
  | nil => rfl
  | cons c cs ih =>
    unfold State.restoreCtxs
    split
    · exact ih s
    · rename_i h
      exact (ih _).trans (State.mem_of_makeCtx h)

@[simp] theorem State.mem_restoreGrids (s : State) (v : Nat) (asids : Tbl Nat) (gs : List Grid) :
    (s.restoreGrids v asids gs).1.mem = s.mem := by
  induction gs generalizing s with
  | nil => rfl
  | cons g gs ih =>
    unfold State.restoreGrids
    exact ih _

@[simp] theorem State.mem_restoreBlocks (s : State) (v : Nat) (lids asids : Tbl Nat) (bs : List (Nat × Block)) :
    (s.restoreBlocks v lids asids bs).mem = s.mem := by
  induction bs generalizing s with
  | nil => rfl
  | cons b bs ih =>
    unfold State.restoreBlocks
    exact ih _

/-! ### Sched -/

@[simp] theorem State.mem_at' (s : State) (k n : Nat) : (s.at' k n).mem = s.mem := by
  unfold State.at'
  simp

@[simp] theorem State.mem_countBlocked (s : State) (k n : Nat) : (s.countBlocked k n).mem = s.mem := by
  unfold State.countBlocked
  split <;> rfl

@[simp] theorem State.mem_idleBand (s : State) (k n : Nat) : (s.idleBand k n).mem = s.mem := by
  unfold State.idleBand
  repeat' split
  all_goals simp

@[simp] theorem State.mem_ageBands (s : State) (core : Nat) (ready : List (Nat × Nat)) (pick : Option (Nat × Nat)) :
    (s.ageBands core ready pick).mem = s.mem := by
  refine State.mem_foldl _ (fun t p => ?_) _ _
  split
  · rfl
  · split <;> simp

@[simp] theorem State.mem_clock (s : State) (n : Nat) (lead : List Nat) : (s.clock n lead).mem = s.mem := by
  unfold State.clock
  split <;> rfl

/-! ## Operations that write memory keep its form -/

/-! ### Mem -/

@[simp] theorem State.wf_storeHere {s : State} (h : Memory.wf s.mem = true) (k n kind seq : Nat) (unc clr : Bool)
    (push : Option Nat) (a : StorePart) :
    Memory.wf (s.storeHere k n kind seq unc clr push a).mem = true := by
  unfold State.storeHere
  dsimp only
  repeat' split
  all_goals simp [State.wf_poke, h]

@[simp] theorem State.wf_storeAll {s : State} (h : Memory.wf s.mem = true) (k n kind seq : Nat) (unc : Bool) (clr : Nat → Bool)
    (push : Option Nat) (as : List StorePart) : Memory.wf (s.storeAll k n kind seq unc clr push as).mem = true := by
  unfold State.storeAll
  split
  · exact h
  · rw [State.mem_foldl _ fun _ _ => State.mem_storeLine ..]
    have hf (as : List StorePart) : Memory.wf (as.foldl (fun s a => s.storeHere k n kind seq unc (clr (lineOf a.x.pa)) push a)
        s).mem = true := State.wf_foldl _ (fun _ _ h => State.wf_storeHere h ..) _ h
    split <;> simp [hf]

@[simp] theorem State.wf_scrWrite {s : State} (h : Memory.wf s.mem = true) (win off : Nat) (bs : List Byte) :
    Memory.wf (s.scrWrite win off bs).mem = true := by
  unfold State.scrWrite
  simp [h]

/-! ### Issue -/

@[simp] theorem State.wf_commitProv {s : State} (h : Memory.wf s.mem = true) (work : StackFor) (ps : List Prov) :
    Memory.wf (s.commitProv work ps).mem = true := by
  induction ps generalizing s with
  | nil => exact h
  | cons p ps ih =>
    unfold State.commitProv
    have hu : Memory.wf (if p.clr then (s.recallNow (lineOf p.pa) work.lid).unpoison (lineOf p.pa)
        else s.recallNow (lineOf p.pa) work.lid).mem = true := by split <;> simp [State.mem_recallNow, h]
    refine ih ?_
    split
    · simpa using hu
    · rw [State.mem_maskedWrite]
      exact State.wf_poke hu _ _ _ _ _

@[simp] theorem State.wf_releaseSample {s : State} (h : Memory.wf s.mem = true) (sid : Nat) (evt : Option Nat) :
    Memory.wf (s.releaseSample sid evt).mem = true := by
  unfold State.releaseSample
  repeat' split
  all_goals simp [h]

@[simp] theorem State.wf_logRec {s : State} (h : Memory.wf s.mem = true) (k n type : Nat) (body : List DWord)
    (awaits : Option Word) :
    Memory.wf (s.logRec k n type body awaits).mem = true := by
  unfold State.logRec
  dsimp only
  repeat' split
  all_goals simp [h]

@[simp] theorem State.wf_migrate {s : State} (h : Memory.wf s.mem = true) (k n : Nat) (toAnnex : Bool) (t : Trap) :
    Memory.wf (s.migrate k n toAnnex t).mem = true := by
  unfold State.migrate
  dsimp only
  repeat' split
  all_goals simp [h]

@[simp] theorem State.wf_popTrap {s : State} (h : Memory.wf s.mem = true) (k n : Nat) (b : Block) (x : Band) (t : Trap)
    (ch : Choice) :
    Memory.wf (s.popTrap k n b x t ch).mem = true := by
  unfold State.popTrap
  dsimp only
  repeat' split
  all_goals simp [h]

@[simp] theorem State.wf_doPush {s : State} (h : Memory.wf s.mem = true) (k n port : Nat) (es : List PushAt)
    (vals : List (Nat × Word)) :
    Memory.wf (s.doPush k n port es vals).mem = true := by
  unfold State.doPush
  split <;> simp [h]

@[simp] theorem Iss.wf_commit {y : Iss} (h : Memory.wf y.s.mem = true) (i : Instr) (outs : List (Nat × Out)) :
    Memory.wf (y.commit i outs).mem = true := by
  unfold Iss.commit
  repeat' split
  all_goals simp [h]

/-! ### Sync -/

@[simp] theorem Iss.wf_released {y : Iss} (h : Memory.wf y.s.mem = true) (k : FKind) (sc : Scope) {f : State}
    (hf : Memory.wf f.mem = true) : Memory.wf (y.released k sc f).mem = true := by
  unfold Iss.released
  split <;> simp [h, hf]

@[simp] theorem Iss.wf_logBar {s : State} (h : Memory.wf s.mem = true) (y : Iss) (sc : BScope) (num : Nat) :
    Memory.wf (y.logBar s sc num).mem = true := by
  unfold Iss.logBar
  split <;> simp [h]

/-! ### Access -/

@[simp] theorem Iss.wf_poisonOut {y : Iss} (h : Memory.wf y.s.mem = true) (t : Trap) :
    Memory.wf (y.poisonOut t).mem = true := by
  unfold Iss.poisonOut
  split <;> simp [h]

@[simp] theorem Iss.wf_loadFrom {y : Iss} (h : Memory.wf y.s.mem = true) (i : Instr) (sz : LSize) (d : BitVec 8)
    (acq unc watch : Bool) (xs : List LaneX) : Memory.wf (y.loadFrom i sz d acq unc watch xs).mem = true := by
  unfold Iss.loadFrom
  dsimp only
  split
  · rename_i ht
    rw [(Iss.sameMem_held ..).mem ht]
    exact h
  · split
    · simp [h]
    · split
      · exact Iss.wf_poisonOut h _
      · simp [h]
      · have hw (id : Nat) (s : State) : ((linesOf xs).foldl (y.watchLine id xs) s).mem = s.mem :=
          State.mem_foldl _ (fun _ _ => Iss.mem_watchLine ..) _ _
        split
        · refine Iss.wf_commit ?_ ..
          dsimp only [Iss.resync]
          split <;> simp [hw, h]
        · rw [Iss.mem_inFlight, State.mem_countMiss, Iss.mem_ask, Iss.mem_base]
          dsimp only [Iss.resync]
          split <;> simp [hw, h]

@[simp] theorem Iss.wf_storeTo {y : Iss} (h : Memory.wf y.s.mem = true) (i : Instr) (sz : LSize) (data : Src) (unc : Bool)
    (xs : List LaneX) : Memory.wf (y.storeTo i sz data unc xs).mem = true := by
  unfold Iss.storeTo
  split
  · rename_i ht
    rw [((Iss.sameMem_held ..).or (Iss.sameMem_full ..)).mem ht]
    exact h
  · extract_lets bytes s₁ s₂
    have h₁ : s₁.mem = y.s.mem := by
      rw [State.mem_foldl _ fun _ _ => State.mem_remoteOp ..]
      simp
    have h₂ : Memory.wf s₂.mem = true := State.wf_storeAll (by rw [h₁]; exact h) ..
    rw [Iss.mem_finish]
    split <;> simp [h₂]

@[simp] theorem Iss.wf_ldsReplay {y : Iss} (h : Memory.wf y.s.mem = true) (i : Instr) (o : Ld)
    (as peers : List (Nat × Word)) :
    Memory.wf (y.ldsReplay i o as peers).mem = true := by
  unfold Iss.ldsReplay
  repeat' split
  all_goals simp [h]

@[simp] theorem Iss.wf_storeScr {y : Iss} (h : Memory.wf y.s.mem = true) (i : Instr) (o : St) :
    Memory.wf (y.storeScr i o).mem = true := by
  unfold Iss.storeScr
  extract_lets as peers own
  split
  · simp [h]
  · simp [h]
  · extract_lets s₁ s₂ s₃
    have h₁ : Memory.wf s₁.mem = true := State.wf_foldl _ (fun _ _ h => State.wf_scrWrite h ..) _ (by simp [h])
    have h₃ : s₃.mem = s₁.mem := by
      rw [State.modBand_mem]
      exact State.mem_foldl _ (fun _ _ => State.modBlk_mem ..) _ _
    rw [Iss.mem_finish]
    split <;> simp [h₃, h₁]

@[simp] theorem State.wf_rmw {s : State} (h : Memory.wf s.mem = true) (k n va : Nat) (x : Xl) (op : AOp) (w64 red : Bool)
    (b c : DWord) (seq t : Nat) : Memory.wf (s.rmw k n va x op w64 red b c seq t).1.mem = true := by
  unfold State.rmw
  dsimp only
  split
  · exact h
  · simpa using State.wf_poke h ..

@[simp] theorem Iss.wf_rmwLanes (y : Iss) (op : AOp) (w64 red : Bool) (bv cv : Nat → DWord) {s : State}
    (h : Memory.wf s.mem = true) (xs : List LaneX) : Memory.wf (y.rmwLanes op w64 red bv cv s xs).1.mem = true := by
  refine State.wf_foldl_fst _ (fun p a h => ?_) xs h
  dsimp only
  split
  · exact State.wf_rmw h ..
  · exact h

@[simp] theorem Iss.wf_atomReplay {y : Iss} (h : Memory.wf y.s.mem = true) (i : Instr) (d : BitVec 8) (op : AOp) (w64 : Bool)
    (bv cv : Nat → DWord) (xs : List LaneX) {seq : State → State} (hq : ∀ s, (seq s).mem = s.mem) :
    Memory.wf (y.atomReplay i d op w64 bv cv xs seq).mem = true := by
  unfold Iss.atomReplay
  split
  · simp [h]
  · split
    · simp [h]
    · refine Iss.wf_commit ?_ ..
      show Memory.wf (seq _).mem = true
      rw [hq]
      simp [h]

@[simp] theorem Iss.wf_atomRun {y : Iss} (h : Memory.wf y.s.mem = true) (i : Instr) (d : BitVec 8) (op : AOp)
    (w64 red acq : Bool) (bv cv : Nat → DWord) (xs : List LaneX) (port : Option (Nat × List PushAt)) {seq : State → State}
    (hq : ∀ s, (seq s).mem = s.mem) : Memory.wf (y.atomRun i d op w64 red acq bv cv xs port seq).mem = true := by
  have hr := Iss.wf_rmwLanes y op w64 red bv cv (s := y.base) (by simpa using h) xs
  unfold Iss.atomRun
  split
  rename_i s ls e
  rw [e] at hr
  extract_lets at' logged id t
  have hl (s : State) (h : Memory.wf s.mem = true) : Memory.wf (logged s).mem = true := by
    dsimp only [logged]
    split
    · exact h
    · exact State.wf_logRec h ..
  split
  · split
    · rw [Iss.mem_finish, hq]
      exact hr
    · exact Iss.wf_commit (hl _ (by rw [hq]; exact hr)) ..
  · rw [Iss.mem_inFlight, State.mem_countMiss, Iss.mem_askAtom, Iss.mem_askOwn]
    exact hl _ hr

@[simp] theorem Iss.wf_loadWatched {y : Iss} (h : Memory.wf y.s.mem = true) (i : Instr) (o : Ldw) (xs : List LaneX) :
    Memory.wf (y.loadWatched i o xs).mem = true := by
  unfold Iss.loadWatched
  simp [h]

/-! ### Copy -/

@[simp] theorem State.wf_engineWrite {s : State} (h : Memory.wf s.mem = true) (k : Nat) (x : Xl) (va : Nat) (v : Byte) :
    Memory.wf (s.engineWrite k x va v).1.mem = true := by
  unfold State.engineWrite
  split
  · exact h
  · extract_lets a w0 t r
    have ht : Memory.wf t.mem = true := by dsimp only [t]; split <;> exact h
    split
    · exact ht
    · split
      · exact ht
      · rw [State.mem_maskedWrite]
        exact State.wf_homeStore ht ..

@[simp] theorem State.wf_placeWrite {s : State} (h : Memory.wf s.mem = true) (k n : Nat) (pl : Place) (v : Byte) :
    Memory.wf (s.placeWrite k n pl v).1.mem = true := by
  cases pl with
  | glob x va => exact State.wf_engineWrite h ..
  | scr w off _ =>
    unfold State.placeWrite
    dsimp only
    split
    · exact h
    · exact State.wf_scrWrite h ..
  | peer _ => exact h
  | reg _ _ _ => exact h

@[simp] theorem State.wf_writeReady {s : State} (h : Memory.wf s.mem = true) (k : Nat) (c : Copy) (rs : List Ready) :
    Memory.wf (s.writeReady k c rs).1.mem = true := by
  induction rs generalizing s c with
  | nil => exact h
  | cons r rs ih =>
    unfold State.writeReady
    split
    · exact h
    · dsimp only
      split
      · exact ih h _
      · exact ih (State.wf_placeWrite h ..) _

/-! ### Messages -/

/-- The state that a home's gate gives has the memory of `s`. -/
def Gate.SameMem (g : Gate) (s : State) : Prop :=
  match g with
  | .wait => True
  | .recall t | .go t => t.mem = s.mem

@[simp] theorem Gate.sameMem_wait (s : State) : Gate.wait.SameMem s := trivial
@[simp] theorem Gate.sameMem_recall (s t : State) : (Gate.recall t).SameMem s ↔ t.mem = s.mem := Iff.rfl
@[simp] theorem Gate.sameMem_go (s t : State) : (Gate.go t).SameMem s ↔ t.mem = s.mem := Iff.rfl

theorem Gate.SameMem.mem_recall {g : Gate} {s t : State} (h : g.SameMem s) (e : g = .recall t) : t.mem = s.mem := by
  subst e
  exact h

theorem Gate.SameMem.mem_go {g : Gate} {s t : State} (h : g.SameMem s) (e : g = .go t) : t.mem = s.mem := by
  subst e
  exact h

theorem State.sameMem_deviceGate (s : State) (line : Nat) : (s.deviceGate line).SameMem s := by
  unfold State.deviceGate
  dsimp only
  repeat' split
  all_goals simp

theorem State.sameMem_atHome (s : State) (q : Pkt) (line : Nat) (keep : Option Nat) : (s.atHome q line keep).SameMem s := by
  unfold State.atHome
  repeat' split
  all_goals simp

@[simp] theorem State.wf_flushLog {s : State} (h : Memory.wf s.mem = true) (f : Nat) : Memory.wf (s.flushLog f).mem = true := by
  unfold State.flushLog
  dsimp only
  split
  · exact h
  · exact h
  · split
    · simpa using h
    · split
      · exact h
      · rename_i e
        rw [(State.sameMem_deviceGate ..).mem_recall e]
        exact h
      · exact State.wf_devicePut h ..

@[simp] theorem State.wf_flushLogs {s : State} (h : Memory.wf s.mem = true) : Memory.wf s.flushLogs.mem = true :=
  State.wf_foldl _ (fun _ _ h => State.wf_foldl _ (fun _ _ h => State.wf_flushLog h _) _ h) _ h

@[simp] theorem State.wf_versionTrim {s : State} (h : Memory.wf s.mem = true) : Memory.wf s.versionTrim.mem = true := by
  unfold State.versionTrim
  dsimp only
  repeat' split
  all_goals simp [h]

@[simp] theorem State.wf_serveStore {s : State} (h : Memory.wf s.mem = true) (q : Pkt) (r : StoreReq) :
    Memory.wf (s.serveStore q r).mem = true := by
  unfold State.serveStore
  extract_lets pa a w viaStack s₁ s₂ s₃
  have h₁ : s₁.mem = s.mem := by
    dsimp only [s₁]
    split
    · rfl
    · split <;> simp
  have h₂ : s₂.mem = s₁.mem := by dsimp only [s₂]; split <;> simp
  have h₃ : Memory.wf s₃.mem = true := by
    dsimp only [s₃]
    rw [State.mem_ownedPut]
    refine State.wf_foldl _ (fun _ _ h => State.wf_poke h ..) _ ?_
    rw [h₂, h₁]
    exact h
  split
  · rw [State.mem_foldl _ fun _ _ => State.mem_unitWrite ..]
    exact h₃
  · simpa using h₃

@[simp] theorem State.wf_serveAtom {s : State} (h : Memory.wf s.mem = true) (q : Pkt) (r : AtomReq) :
    Memory.wf (s.serveAtom q r).mem = true := by
  unfold State.serveAtom
  split
  · exact h
  · split
    · exact h
    · extract_lets t go
      have hg (op : AOp) (w64 red : Bool) : Memory.wf (go op w64 red).mem = true := by
        dsimp only [go]
        rw [State.mem_answer]
        refine State.wf_foldl_fst _ (fun u l h => ?_) _ h
        rw [State.mem_maskedWrite]
        exact State.wf_rmw h ..
      split
      · exact hg ..
      · exact hg ..
      · exact h
      · exact h

@[simp] theorem State.wf_pendDone {s : State} (h : Memory.wf s.mem = true) (k n : Nat) (p : PendOp) :
    Memory.wf (s.pendDone k n p).mem = true := by
  unfold State.pendDone
  repeat' split
  all_goals simp [h]

@[simp] theorem State.wf_loadBack {s : State} (h : Memory.wf s.mem = true) (k n op line lo : Nat) (data : List Byte)
    (w : Nat) :
    Memory.wf (s.loadBack k n op line lo data w).mem = true := by
  unfold State.loadBack
  dsimp only
  repeat' split
  all_goals simp [h]

@[simp] theorem State.wf_atomBack {s : State} (h : Memory.wf s.mem = true) (r : AtomReq) (old : List DWord) (w : Nat) :
    Memory.wf (s.atomBack r old w).mem = true := by
  unfold State.atomBack
  dsimp only
  repeat' split
  all_goals simp [h]

@[simp] theorem State.wf_performAtom {s : State} (h : Memory.wf s.mem = true) (k n core line : Nat) (p : PendOp) :
    Memory.wf (s.performAtom k n core line p).1.mem = true := by
  unfold State.performAtom
  extract_lets go
  have hg (op : AOp) (w64 red : Bool) : Memory.wf (go op w64 red).1.mem = true := by
    refine State.wf_foldl_fst _ (fun st q h => ?_) _ h
    dsimp only
    split
    · exact State.wf_rmw h ..
    · exact h
  split
  · exact hg ..
  · exact hg ..
  · exact h
  · exact h

@[simp] theorem State.wf_performAll {s : State} (h : Memory.wf s.mem = true) (core line : Nat) :
    Memory.wf (s.performAll core line).mem = true := by
  refine State.wf_foldl _ (fun s w h => ?_) _ h
  obtain ⟨k, n, p⟩ := w
  have hp := State.wf_performAtom h k n core line p
  dsimp only
  split
  · exact State.wf_pendDone (by simpa using hp) ..
  · simpa using hp

@[simp] theorem State.wf_ownBack {s : State} (h : Memory.wf s.mem = true) (q : Pkt) (core line : Nat) :
    Memory.wf (s.ownBack q core line).mem = true := by
  unfold State.ownBack
  dsimp only
  repeat' split
  all_goals simp [h]

/-! ### Queue -/

@[simp] theorem State.wf_writeRecord {s : State} (h : Memory.wf s.mem = true) (f asid lid : Nat) (p : Packet) (status : Nat)
    :
    Memory.wf (s.writeRecord f asid lid p status).mem = true := by
  unfold State.writeRecord
  repeat' split
  all_goals simp [State.mem_maskedWrite, State.mem_flog, State.wf_homeStore, h]

@[simp] theorem State.wf_refuse {s : State} (h : Memory.wf s.mem = true) (f q : Nat) (p : Packet) (status : Nat) :
    Memory.wf (s.refuse f q p status).mem = true := by
  unfold State.refuse
  extract_lets desc t
  have ht : Memory.wf t.mem = true := by simp [t, h]
  split
  · exact ht
  · split
    · rw [State.mem_flog]
      exact ht
    · rename_i hc
      have e := State.mem_of_makeCtx hc
      exact State.wf_writeRecord (by rw [e]; exact ht) ..

@[simp] theorem State.wf_finishPacket {s : State} (h : Memory.wf s.mem = true) (g : Grid) (status : Nat) :
    Memory.wf (s.finishPacket g status).mem = true := by
  unfold State.finishPacket
  simp [h]

/-! ### Conservator -/

@[simp] theorem State.wf_judgeRuns {s : State} (h : Memory.wf s.mem = true) : Memory.wf s.judgeRuns.mem = true :=
  State.wf_foldl _ (fun _ i h => State.wf_releaseSample h i _) _ h

@[simp] theorem State.wf_fence {s : State} (h : Memory.wf s.mem = true) (c : Nat) : Memory.wf (s.fence c).mem = true := by
  refine State.wf_judgeRuns ?_
  rw [State.mem_foldl _ fun _ _ => State.mem_stopBlock ..]
  exact h

@[simp] theorem State.wf_demerit {s : State} (h : Memory.wf s.mem = true) (c : Nat) :
    Memory.wf (s.demerit c).mem = true := by
  unfold State.demerit
  dsimp only
  split <;> simp [h]

@[simp] theorem State.wf_accession {s : State} (h : Memory.wf s.mem = true) (sid : Nat) :
    Memory.wf (s.accession sid).mem = true := by
  unfold State.accession
  split <;> simp [h]

@[simp] theorem State.wf_commitOverlay {s : State} (h : Memory.wf s.mem = true) (work : StackFor) (old ps : List Prov) :
    Memory.wf (s.commitOverlay work old ps).mem = true := by
  induction ps generalizing s with
  | nil => exact h
  | cons p ps ih =>
    unfold State.commitOverlay
    have hu : Memory.wf (if p.clr then (s.recallNow (lineOf p.pa)).unpoison (lineOf p.pa)
        else s.recallNow (lineOf p.pa)).mem = true := by split <;> simp [State.mem_recallNow, h]
    refine ih ?_
    rw [State.mem_maskedWrite, State.mem_newVersion, State.mem_noteDirty]
    exact State.wf_pokeBytes hu _ _ _ _ _

@[simp] theorem State.wf_accessWinners {s : State} (h : Memory.wf s.mem = true) (sid : Nat) (o : List Prov) :
    Memory.wf (s.accessWinners sid o).mem = true := by
  unfold State.accessWinners
  split <;> simp [h]

@[simp] theorem State.wf_vote {s : State} (h : Memory.wf s.mem = true) (sid : Nat) (b : Block) (m : Sample) (p r a : RunRes) :
    Memory.wf (s.vote sid b m p r a).mem = true := by
  have hd (cs : List Nat) {s : State} (h : Memory.wf s.mem = true) : Memory.wf (cs.foldl State.demerit s).mem = true :=
    State.wf_foldl _ (fun _ c h => State.wf_demerit h c) _ h
  have hc (cs : List Nat) (s : State) : (cs.foldl State.cleanCheck s).mem = s.mem :=
    State.mem_foldl _ (fun _ _ => State.mem_cleanCheck ..) _ _
  unfold State.vote
  dsimp only
  split
  · exact hd _ (by simp [hc, State.mem_flog, h])
  · split
    · refine hd _ ?_
      rw [hc]
      split <;> simp [State.mem_flog, h]
    · simp [h]

@[simp] theorem State.wf_runEnds {s : State} (h : Memory.wf s.mem = true) (sid : Nat) (b : Block) :
    Memory.wf (s.runEnds sid b).mem = true := by
  unfold State.runEnds
  split
  · exact h
  · dsimp only
    split
    · exact h
    · split
      · rw [State.mem_foldl _ fun _ _ => State.mem_cleanCheck ..]
        exact State.wf_accession h sid
      · simp [h]
    · exact State.wf_vote h ..
    · exact h

/-! ### Registers -/

@[simp] theorem State.wf_hostBack {s : State} (h : Memory.wf s.mem = true) (line : Nat) (data : List Byte) :
    Memory.wf (s.hostBack line data).mem = true := by
  unfold State.hostBack
  split <;> simp [State.mem_maskedWrite, State.wf_homeStore, h]

@[simp] theorem State.wf_ckpBreak {s : State} (h : Memory.wf s.mem = true) : Memory.wf s.ckpBreak.mem = true := by
  unfold State.ckpBreak
  repeat' split
  all_goals simp [State.wf_ckpLoad, h]

/-! ### Host -/

@[simp] theorem State.wf_thermalFail {s : State} (h : Memory.wf s.mem = true) (g : Grid) :
    Memory.wf (s.thermalFail g).mem = true := by
  unfold State.thermalFail
  simp [h]

@[simp] theorem State.wf_fill {s : State} (h : Memory.wf s.mem = true) (pa : Nat) (bs : List Byte) :
    Memory.wf (s.fill pa bs).mem = true := by
  induction bs generalizing s pa with
  | nil => exact h
  | cons b bs ih => exact ih (State.wf_devicePut h ..) _

@[simp] theorem State.wf_saveBlock {s : State} (h : Memory.wf s.mem = true) (k : Nat) :
    Memory.wf (s.saveBlock k).mem = true := by
  unfold State.saveBlock
  repeat' split
  all_goals simp [State.wf_putLines, h]

@[simp] theorem State.wf_saveBlocks {s : State} (h : Memory.wf s.mem = true) : Memory.wf s.saveBlocks.mem = true :=
  State.wf_foldl _ (fun _ k h => State.wf_saveBlock h k) _ h

/-! ### Sched -/

@[simp] theorem State.wf_tick {s : State} (h : Memory.wf s.mem = true) (n : Nat) (lead : List Nat) :
    Memory.wf (s.tick n lead).mem = true :=
  State.wf_saveBlocks (State.wf_versionTrim (State.wf_flushLogs (by rw [State.mem_clock]; exact h)))

/-! ## Instructions and events keep the form -/

/-! ### Outcomes -/

/-- The memory of an outcome's next state, if there is one, has the canonical form. -/
def KeepsForm (o : Host.Outcome State Fault Refusal) : Prop :=
  match o with
  | .next t => Memory.wf t.mem = true
  | .fault _ | .refused _ => True

@[simp] theorem keepsForm_next (t : State) : KeepsForm (.next t) ↔ Memory.wf t.mem = true := Iff.rfl
@[simp] theorem keepsForm_fault (r : Fault) : KeepsForm (.fault r) := trivial
@[simp] theorem keepsForm_refused (r : Refusal) : KeepsForm (.refused r) := trivial
@[simp] theorem keepsForm_notNow (what : String) : KeepsForm (notNow what) := trivial

/-! ### Issue -/

theorem State.wf_prepAt_out {s : State} (h : Memory.wf s.mem = true) {k n : Nat} {b : Block} {x : Band} {hd : Hdr}
    {i : Instr} {ch : Choice} {t : State} (e : s.prepAt k n b x hd i ch = .out t) : Memory.wf t.mem = true := by
  unfold State.prepAt at e
  split at e
  · cases e; simp [h]
  · cases e; simp [h]
  · split at e
    · cases e; simp [h]
    · dsimp only at e
      split at e
      · cases e; simp [h]
      · cases e
      · cases e; simp [h]
      · cases e; simp [h]
      · cases e; exact h
      · split at e
        · cases e; simp [h]
        · cases e; simp [h]
        · cases e; simp [h]
        · cases e
        · cases e; exact h
        · cases e

theorem wf_prep_out {s : State} (h : Memory.wf s.mem = true) {i : Instr} {t : State} (e : prep i s = .out t) :
    Memory.wf t.mem = true := by
  unfold prep at e
  split at e
  · split at e
    · cases e
    · split at e
      · cases e
      · split at e
        · cases e
        · exact State.wf_prepAt_out (s := s.setBlk _ _) h e
  · cases e

theorem Iss.mem_of_issues {i : Instr} {s : State} {y : Iss} (e : Issues i s y) : y.s.mem = s.mem := by
  obtain ⟨b, _, _, _, e⟩ := (y.good e).sent
  rw [e]
  rfl

theorem keepsForm_runO {s : State} (h : Memory.wf s.mem = true) (i : Instr)
    {f : Iss → Host.Outcome State Fault Refusal} (hf : ∀ y, Memory.wf y.s.mem = true → KeepsForm (f y)) :
    KeepsForm (runO i s f) := by
  unfold runO
  split
  · exact keepsForm_refused _
  · rename_i e
    exact (keepsForm_next _).2 (wf_prep_out h e)
  · rename_i y e
    exact hf y (by rw [Iss.mem_of_issues e]; exact h)

theorem keepsForm_run {s : State} (h : Memory.wf s.mem = true) (i : Instr) {f : Iss → State}
    (hf : ∀ y, Memory.wf y.s.mem = true → Memory.wf (f y).mem = true) : KeepsForm (run i s f) :=
  keepsForm_runO h i fun y hy => (keepsForm_next _).2 (hf y hy)

theorem keepsForm_runAlu {s : State} (h : Memory.wf s.mem = true) (i : Instr) (f : Env → Out) : KeepsForm (runAlu i s f) :=
  keepsForm_run h i fun _ hy => Iss.wf_commit hy ..

theorem keepsForm_runBand {s : State} (h : Memory.wf s.mem = true) (i : Instr) (f : Iss → List (Nat × Out)) :
    KeepsForm (runBand i s f) := keepsForm_run h i fun _ hy => Iss.wf_commit hy ..

/-! ### Fp -/

@[simp] theorem keepsForm_fp2 {s : State} (h : Memory.wf s.mem = true) (i : Instr) (o : F2)
    (f : RMode → Bool → FV → FV → Res Nat) :
    KeepsForm (fp2 i o s f) := keepsForm_runAlu h _ _

@[simp] theorem keepsForm_dp2 {s : State} (h : Memory.wf s.mem = true) (i : Instr) (o : F2)
    (f : RMode → Bool → FV → FV → Res Nat) :
    KeepsForm (dp2 i o s f) := keepsForm_runAlu h _ _

@[simp] theorem keepsForm_fp1 {s : State} (h : Memory.wf s.mem = true) (i : Instr) (o : F1)
    (f : RMode → Bool → FV → Res Nat) :
    KeepsForm (fp1 i o s f) := keepsForm_runAlu h _ _

@[simp] theorem keepsForm_fpI {s : State} (h : Memory.wf s.mem = true) (i : Instr) (o : FI)
    (f : RMode → Bool → FV → FV → Res Nat) :
    KeepsForm (fpI i o s f) := keepsForm_runAlu h _ _

/-! ### Sync -/

@[simp] theorem keepsForm_barOp {s : State} (h : Memory.wf s.mem = true) (i : Instr) (o : Bar) (arr wait : Bool) :
    KeepsForm (barOp i o s arr wait) := by
  refine keepsForm_run h _ fun y hy => ?_
  repeat' split
  all_goals simp [hy]

@[simp] theorem keepsForm_barSet {s : State} (h : Memory.wf s.mem = true) (i : Instr) (n : BNum) (sc : BScope) (count : Nat)
    :
    KeepsForm (barSet i n sc count s) := by
  refine keepsForm_run h _ fun y hy => ?_
  dsimp only
  repeat' split
  all_goals simp [hy]

theorem keepsForm_runLanes {s : State} (h : Memory.wf s.mem = true) (i : Instr) (f : Iss → Band → Band) :
    KeepsForm (runLanes i s f) := keepsForm_run h i fun _ hy => by simp [hy]

/-! ### Access -/

theorem Iss.keepsForm_ordered {y : Iss} (h : Memory.wf y.s.mem = true) (lane : Nat) (k : FKind) (sc : Scope)
    {f : Iss → Host.Outcome State Fault Refusal} (hf : KeepsForm (f y)) : KeepsForm (y.ordered lane k sc f) := by
  unfold Iss.ordered
  split
  · exact hf
  · split
    · simp [h]
    · split
      · simp [h]
      · split
        · simp [h]
        · split
          · simp [h]
          · exact hf

@[simp] theorem keepsForm_execLd {s : State} (hm : Memory.wf s.mem = true) (h : Hdr) (o : Ld) :
    KeepsForm (execLd h o s) := by
  refine keepsForm_runO hm _ fun y hy => ?_
  repeat' split
  all_goals simp [hy]

@[simp] theorem Iss.keepsForm_store {y : Iss} (h : Memory.wf y.s.mem = true) (i : Instr) (o : St) :
    KeepsForm (y.store i o) := by
  unfold Iss.store
  repeat' split
  all_goals simp [h]

theorem keepsForm_execSt {s : State} (hm : Memory.wf s.mem = true) (h : Hdr) (o : St) : KeepsForm (execSt h o s) := by
  refine keepsForm_runO hm _ fun y hy => ?_
  have hs := Iss.keepsForm_store hy (.st h o) o
  split
  · exact Iss.keepsForm_ordered hy _ _ _ hs
  · exact hs
  · exact hs

theorem keepsForm_execLds {s : State} (hm : Memory.wf s.mem = true) (h : Hdr) (o : Ld) : KeepsForm (execLds h o s) := by
  refine keepsForm_run hm _ fun y hy => ?_
  extract_lets as peers
  split
  · simp [hy]
  · split
    · simp [hy]
    · extract_lets vs pv z
      have hz : Memory.wf z.s.mem = true := by
        dsimp only [z]
        split
        · exact hy
        · exact State.wf_logRec hy _ _ _ _ _
      refine Iss.wf_commit ?_ _ _
      exact hz

theorem keepsForm_execSts {s : State} (hm : Memory.wf s.mem = true) (h : Hdr) (o : St) : KeepsForm (execSts h o s) := by
  refine keepsForm_runO hm _ fun y hy => ?_
  have hs : KeepsForm (.next (y.storeScr (.sts h o) o)) := Iss.wf_storeScr hy _ _
  split
  · exact Iss.keepsForm_ordered hy _ _ _ hs
  · exact hs
  · exact hs

theorem keepsForm_execLdf {s : State} (hm : Memory.wf s.mem = true) (h : Hdr) (o : Ldf) : KeepsForm (execLdf h o s) := by
  refine keepsForm_runO hm _ fun y hy => ?_
  dsimp only
  split
  · simp [hy]
  · split
    · simp
    · split
      · rename_i ht
        simp [(Iss.sameMem_held ..).mem ht, hy]
      · split
        · simp [hy]
        · split
          · simp [hy]
          · split
            · simp [hy]
            · exact Iss.wf_commit (by simp [Iss.resync, hy]) _ _

theorem Iss.keepsForm_atomic {y : Iss} (h : Memory.wf y.s.mem = true) (i : Instr) (base b : Src) (c : Option (BitVec 8))
    (d : BitVec 8) (op : AOp) (w64 red acq : Bool) (disp : DWord) :
    KeepsForm (y.atomic i base b c d op w64 red acq disp) := by
  unfold Iss.atomic
  extract_lets sz bv cv
  split
  · simp [h]
  · split
    · simp
    · split
      · rename_i ht
        simp [(Iss.sameMem_held ..).mem ht, h]
      · split
        · simp [h]
        · split
          · simp [h]
          · split
            · simp [h]
            · simp [h]
            · rename_i xs _ _ _ _ port _ _ _ _
              extract_lets z seq
              have hz : Memory.wf z.s.mem = true := by simp [z, Iss.resync, h]
              have hq (s : State) : (seq s).mem = s.mem := by dsimp only [seq]; split <;> simp
              split
              · exact Iss.wf_atomRun hz _ _ _ _ _ _ _ _ _ _ hq
              · split
                · simp [hq, hz]
                · split
                  · exact Iss.wf_commit hz _ _
                  · exact Iss.wf_atomReplay hz _ _ _ _ _ _ _ hq

theorem Iss.keepsForm_atomOrd {y : Iss} (h : Memory.wf y.s.mem = true) (o : AOrd)
    {f : Iss → Host.Outcome State Fault Refusal} (hf : KeepsForm (f y)) : KeepsForm (y.atomOrd o f) := by
  unfold Iss.atomOrd
  split
  · exact Iss.keepsForm_ordered h _ _ _ hf
  · exact hf

theorem keepsForm_execAtom {s : State} (hm : Memory.wf s.mem = true) (h : Hdr) (o : Atom) : KeepsForm (execAtom h o s) :=
  keepsForm_runO hm _ fun _ hy => Iss.keepsForm_atomOrd hy _ (Iss.keepsForm_atomic hy _ _ _ _ _ _ _ _ _ _)

theorem keepsForm_execRed {s : State} (hm : Memory.wf s.mem = true) (h : Hdr) (o : Red) : KeepsForm (execRed h o s) :=
  keepsForm_runO hm _ fun _ hy => Iss.keepsForm_atomOrd hy _ (Iss.keepsForm_atomic hy _ _ _ _ _ _ _ _ _ _)

theorem keepsForm_execFence {s : State} (hm : Memory.wf s.mem = true) (h : Hdr) (o : Fence) : KeepsForm (execFence h o s) :=
  keepsForm_runO hm _ fun _ hy => Iss.keepsForm_ordered hy _ _ _ (by simp [hy])

@[simp] theorem keepsForm_execLinv {s : State} (hm : Memory.wf s.mem = true) (h : Hdr) (l : LineSel) :
    KeepsForm (execLinv h l s) := by
  refine keepsForm_run hm _ fun y hy => ?_
  split <;> simp [hy]

@[simp] theorem keepsForm_execLflush {s : State} (hm : Memory.wf s.mem = true) (h : Hdr) (l : LineSel) :
    KeepsForm (execLflush h l s) := by
  refine keepsForm_run hm _ fun y hy => ?_
  split <;> simp [hy]

theorem keepsForm_execPrf {s : State} (hm : Memory.wf s.mem = true) (h : Hdr) (o : Prf) : KeepsForm (execPrf h o s) := by
  refine keepsForm_run hm _ fun y hy => ?_
  rw [Iss.mem_finish, State.mem_foldl _ fun _ _ => Iss.mem_prefetch .., Iss.mem_base]
  exact hy

@[simp] theorem keepsForm_execLdw {s : State} (hm : Memory.wf s.mem = true) (h : Hdr) (o : Ldw) :
    KeepsForm (execLdw h o s) := by
  refine keepsForm_runO hm _ fun y hy => ?_
  repeat' split
  all_goals simp [hy]

@[simp] theorem keepsForm_execChk {s : State} (hm : Memory.wf s.mem = true) (h : Hdr) (off : Word) :
    KeepsForm (execChk h off s) := by
  refine keepsForm_run hm _ fun y hy => ?_
  repeat' split
  all_goals simp [hy]

theorem keepsForm_execRngCommit {s : State} (hm : Memory.wf s.mem = true) (h : Hdr) (o : RngCommit) :
    KeepsForm (execRngCommit h o s) := by
  refine keepsForm_runO hm _ fun y hy => ?_
  dsimp only
  split
  · simp [hy]
  · split
    · simp [hy]
    · split
      · simp [hy]
      · split
        · simp
        · rename_i ht
          simp [(Iss.sameMem_held ..).mem ht, hy]
        · simp [hy]
        · split
          · simp [hy]
          · split
            · simp [hy]
            · split <;> simp [hy]

/-! ### System -/

theorem keepsForm_runOnce {s : State} (h : Memory.wf s.mem = true) (i : Instr) {f : Iss → State}
    (hf : ∀ y, Memory.wf y.s.mem = true → Memory.wf (f y).mem = true) : KeepsForm (runOnce i s f) :=
  keepsForm_run h i fun y hy => by
    split
    · simp [hy]
    · exact hf y hy

@[simp] theorem keepsForm_execSys {s : State} (hm : Memory.wf s.mem = true) (h : Hdr) (n : BitVec 8) :
    KeepsForm (execSys h n s) := keepsForm_runOnce hm _ fun _ hy => by simp [hy]

@[simp] theorem keepsForm_execTrap {s : State} (hm : Memory.wf s.mem = true) (h : Hdr) (n : BitVec 8) :
    KeepsForm (execTrap h n s) := keepsForm_runOnce hm _ fun _ hy => by simp [hy]

@[simp] theorem keepsForm_execBrk {s : State} (hm : Memory.wf s.mem = true) (h : Hdr) (n : BitVec 8) :
    KeepsForm (execBrk h n s) := by
  refine keepsForm_runOnce hm _ fun y hy => ?_
  split <;> simp [hy]

@[simp] theorem keepsForm_execRte {s : State} (hm : Memory.wf s.mem = true) (h : Hdr) (skip : Bool) :
    KeepsForm (execRte h skip s) := by
  refine keepsForm_runO hm _ fun y hy => ?_
  repeat' split
  all_goals simp [hy]

@[simp] theorem keepsForm_execHalt {s : State} (hm : Memory.wf s.mem = true) (h : Hdr) (fail : Bool) :
    KeepsForm (execHalt h fail s) := by
  refine keepsForm_runOnce hm _ fun y hy => ?_
  split <;> simp [hy]

@[simp] theorem keepsForm_execMigr {s : State} (hm : Memory.wf s.mem = true) (h : Hdr) (t : MTgt) :
    KeepsForm (execMigr h t s) := by
  refine keepsForm_runOnce hm _ fun y hy => ?_
  dsimp only
  repeat' split
  all_goals simp [hy]

@[simp] theorem keepsForm_execCsrWr {s : State} (hm : Memory.wf s.mem = true) (h : Hdr) (o : CsrWr) :
    KeepsForm (execCsrWr h o s) := keepsForm_run hm _ fun _ hy => by simp [hy]

theorem keepsForm_execCtxSave {s : State} (hm : Memory.wf s.mem = true) (h : Hdr) (a : BitVec 6) :
    KeepsForm (execCtxSave h a s) := by
  refine keepsForm_runO hm _ fun y hy => ?_
  extract_lets ps
  split
  · simp [hy]
  · split
    · simp [hy]
    · split
      · simp
      · rename_i ht
        simp [((Iss.sameMem_held ..).or (Iss.sameMem_full ..)).mem ht, hy]
      · simp [hy]

theorem keepsForm_execCtxRest {s : State} (hm : Memory.wf s.mem = true) (h : Hdr) (a : BitVec 6) :
    KeepsForm (execCtxRest h a s) := by
  refine keepsForm_runO hm _ fun y hy => ?_
  dsimp only
  split
  · simp [hy]
  · split
    · simp [hy]
    · split
      · simp
      · rename_i ht
        simp [(Iss.sameMem_held ..).mem ht, hy]
      · simp [hy]
      · split <;> simp [hy]

@[simp] theorem keepsForm_execTlbinv {s : State} (hm : Memory.wf s.mem = true) (h : Hdr) (k : TKind) :
    KeepsForm (execTlbinv h k s) := by
  refine keepsForm_runOnce hm _ fun y hy => ?_
  dsimp only
  repeat' split
  all_goals simp [hy]

theorem keepsForm_execScrub {s : State} (hm : Memory.wf s.mem = true) (h : Hdr) (a : Src) : KeepsForm (execScrub h a s) := by
  refine keepsForm_runO hm _ fun y hy => ?_
  extract_lets as
  split
  · simp [hy]
  · split
    · simp
    · rename_i ht
      simp [((Iss.sameMem_held ..).or (Iss.sameMem_full ..)).mem ht, hy]
    · extract_lets zs t
      have ht : Memory.wf t.mem = true := by simp [t, hy]
      split <;> simp [ht]

/-! ### Copy -/

@[simp] theorem keepsForm_execWaitc {s : State} (hm : Memory.wf s.mem = true) (h : Hdr) (o : Waitc) :
    KeepsForm (execWaitc h o s) := by
  refine keepsForm_run hm _ fun y hy => ?_
  repeat' split
  all_goals simp [hy]

@[simp] theorem keepsForm_execRingWait {s : State} (hm : Memory.wf s.mem = true) (h : Hdr) (o : RingWait) :
    KeepsForm (execRingWait h o s) := by
  refine keepsForm_run hm _ fun y hy => ?_
  dsimp only
  repeat' split
  all_goals simp [hy]

@[simp] theorem keepsForm_execRingRel {s : State} (hm : Memory.wf s.mem = true) (h : Hdr) (o : RingRel) :
    KeepsForm (execRingRel h o s) := by
  refine keepsForm_run hm _ fun y hy => ?_
  dsimp only
  repeat' split
  all_goals simp [hy]

@[simp] theorem keepsForm_execRingInit {s : State} (hm : Memory.wf s.mem = true) (h : Hdr) (o : RingInit) :
    KeepsForm (execRingInit h o s) := by
  refine keepsForm_run hm _ fun y hy => ?_
  dsimp only
  repeat' split
  all_goals simp [hy]

@[simp] theorem keepsForm_execCpy {s : State} (hm : Memory.wf s.mem = true) (h : Hdr) (o : Cpy) :
    KeepsForm (execCpy h o s) := by
  refine keepsForm_run hm _ fun y hy => ?_
  dsimp only
  repeat' split
  all_goals simp [hy]

theorem keepsForm_execCpyCol {s : State} (hm : Memory.wf s.mem = true) (h : Hdr) (o : Cpy) : KeepsForm (execCpyCol h o s) := by
  refine keepsForm_run hm _ fun y hy => ?_
  dsimp only
  split
  · simp [hy]
  · split
    · simp [hy]
    · split
      · exact hy
      · rw [(State.sameMem_acceptCol ..).mem_getD]
        simp [hy]

theorem keepsForm_execCollectiveAcceptance {s : State} (h : Memory.wf s.mem = true) (bk id : Nat) :
    KeepsForm (execCollectiveAcceptance bk id s) := by
  unfold execCollectiveAcceptance
  split
  · rename_i ht
    simp [(State.sameMem_acceptCol ..).mem ht, h]
  · simp

@[simp] theorem keepsForm_execCpyPl {s : State} (hm : Memory.wf s.mem = true) (h : Hdr) (o : CpyPl) :
    KeepsForm (execCpyPl h o s) := by
  refine keepsForm_run hm _ fun y hy => ?_
  dsimp only
  repeat' split
  all_goals simp [hy]

@[simp] theorem State.keepsForm_copyStop {s : State} (h : Memory.wf s.mem = true) (k : Nat) (b : Block) (c : Copy)
    (e : EngStop) :
    KeepsForm (s.copyStop k b c e) := by
  unfold State.copyStop
  split <;> simp [h]

@[simp] theorem State.keepsForm_plainSegment {s : State} (h : Memory.wf s.mem = true) (k : Nat) (b : Block) (c : Copy)
    (g : Nat) :
    KeepsForm (s.plainSegment k b c g) := by
  unfold State.plainSegment
  dsimp only
  repeat' split
  all_goals simp [h]

@[simp] theorem State.keepsForm_planeSegment {s : State} (h : Memory.wf s.mem = true) (k : Nat) (b : Block) (c : Copy)
    (t : TileR) (ls kl : Nat) (xf : Option XFmt) (g : Nat) :
    KeepsForm (s.planeSegment k b c t ls kl xf g) := by
  unfold State.planeSegment
  dsimp only
  repeat' split
  all_goals simp [h]

@[simp] theorem keepsForm_execCopySegment {s : State} (h : Memory.wf s.mem = true) (bk cid g : Nat) :
    KeepsForm (execCopySegment bk cid g s) := by
  unfold execCopySegment
  repeat' split
  all_goals simp [h]

@[simp] theorem keepsForm_execCopyCompletion {s : State} (h : Memory.wf s.mem = true) (bk cid : Nat) :
    KeepsForm (execCopyCompletion bk cid s) := by
  unfold execCopyCompletion
  repeat' split
  all_goals simp [h]

/-! ### Matrix -/

@[simp] theorem keepsForm_execGangSet {s : State} (hm : Memory.wf s.mem = true) (h : Hdr) (m : GMask) :
    KeepsForm (execGangSet h m s) := by
  refine keepsForm_run hm _ fun y hy => ?_
  dsimp only
  repeat' split
  all_goals simp [hy]

@[simp] theorem keepsForm_execGangClr {s : State} (hm : Memory.wf s.mem = true) (h : Hdr) :
    KeepsForm (execGangClr h s) := by
  refine keepsForm_run hm _ fun y hy => ?_
  repeat' split
  all_goals simp [hy]

@[simp] theorem keepsForm_execTileSet {s : State} (hm : Memory.wf s.mem = true) (h : Hdr) (o : TileSet) :
    KeepsForm (execTileSet h o s) := by
  refine keepsForm_run hm _ fun y hy => ?_
  dsimp only
  repeat' split
  all_goals simp [hy]

@[simp] theorem keepsForm_execAccClr {s : State} (hm : Memory.wf s.mem = true) (h : Hdr) (o : AccClr) :
    KeepsForm (execAccClr h o s) := keepsForm_run hm _ fun _ hy => by simp [hy]

@[simp] theorem keepsForm_execMma {s : State} (hm : Memory.wf s.mem = true) (h : Hdr) (o : Mma) :
    KeepsForm (execMma h o s) := keepsForm_run hm _ fun _ hy => by simp [hy]

@[simp] theorem keepsForm_execPlanePack {s : State} (hm : Memory.wf s.mem = true) (h : Hdr) (o : PlanePack) :
    KeepsForm (execPlanePack h o s) := keepsForm_run hm _ fun _ hy => by simp [hy]

@[simp] theorem keepsForm_execPlaneUnpack {s : State} (hm : Memory.wf s.mem = true) (h : Hdr) (o : PlaneUnpack) :
    KeepsForm (execPlaneUnpack h o s) := keepsForm_run hm _ fun _ hy => by simp [hy]

@[simp] theorem keepsForm_execAccRd {s : State} (hm : Memory.wf s.mem = true) (h : Hdr) (o : AccRd) :
    KeepsForm (execAccRd h o s) := keepsForm_run hm _ fun _ hy => by simp [hy]

@[simp] theorem keepsForm_execAccWr {s : State} (hm : Memory.wf s.mem = true) (h : Hdr) (o : AccWr) :
    KeepsForm (execAccWr h o s) := keepsForm_run hm _ fun _ hy => by simp [hy]

@[simp] theorem keepsForm_execCbtLd {s : State} (hm : Memory.wf s.mem = true) (h : Hdr) (o : CbtLd) :
    KeepsForm (execCbtLd h o s) := keepsForm_run hm _ fun _ hy => by simp [hy]

@[simp] theorem keepsForm_execCmdWait {s : State} (hm : Memory.wf s.mem = true) (h : Hdr) (n : BitVec 6) :
    KeepsForm (execCmdWait h n s) := by
  refine keepsForm_run hm _ fun y hy => ?_
  split <;> simp [hy]

theorem keepsForm_execCommandAcceptance {s : State} (h : Memory.wf s.mem = true) (bk key : Nat) :
    KeepsForm (execCommandAcceptance bk key s) := by
  unfold execCommandAcceptance
  split
  · rename_i ht
    simp [(State.sameMem_acceptDue ..).mem ht, h]
  · simp

@[simp] theorem keepsForm_execExit {s : State} (hm : Memory.wf s.mem = true) (h : Hdr) : KeepsForm (execExit h s) := by
  refine keepsForm_run hm _ fun y hy => ?_
  split <;> simp [hy]

@[simp] theorem keepsForm_execCommandStart {s : State} (h : Memory.wf s.mem = true) (bk key : Nat) :
    KeepsForm (execCommandStart bk key s) := by
  unfold execCommandStart
  repeat' split
  all_goals simp [h]

theorem keepsForm_execCommandRetire {s : State} (h : Memory.wf s.mem = true) (bk key : Nat) :
    KeepsForm (execCommandRetire bk key s) := by
  unfold execCommandRetire
  split
  · simp
  · rename_i b _
    split
    · simp
    · split
      · simp
      · rename_i res _
        split
        · simp
        · extract_lets res' s₁ s₂ s₃ s₄
          have h₁ : Memory.wf s₁.mem = true := by
            refine State.wf_foldl _ (fun s w h => ?_) _ h
            split
            · split
              · exact h
              · exact State.wf_scrWrite h ..
            · exact h
          have h₃ : s₃.mem = s₁.mem := by dsimp only [s₃]; split <;> simp [s₂]
          rw [keepsForm_next]
          split <;> simp [s₄, h₃, h₁]

/-! ### Stream -/

theorem keepsForm_execStrmCfg {s : State} (hm : Memory.wf s.mem = true) (h : Hdr) (o : StrmCfg) :
    KeepsForm (execStrmCfg h o s) := by
  refine keepsForm_runO hm _ fun y hy => ?_
  dsimp only
  split
  · simp [hy]
  · split
    · simp [hy]
    · split
      · simp
      · rename_i ht
        simp [(Iss.sameMem_held ..).mem ht, hy]
      · simp [hy]
      · split
        · simp [hy]
        · split <;> simp [hy]

@[simp] theorem keepsForm_execStrmSet {s : State} (hm : Memory.wf s.mem = true) (h : Hdr) (o : StrmSet) :
    KeepsForm (execStrmSet h o s) := keepsForm_run hm _ fun _ hy => by simp [hy]

@[simp] theorem keepsForm_execStrmEnd {s : State} (hm : Memory.wf s.mem = true) (h : Hdr) (o : StrmEnd) :
    KeepsForm (execStrmEnd h o s) := keepsForm_run hm _ fun _ hy => by simp [hy]

/-! ### Messages -/

@[simp] theorem State.keepsForm_waitOn {s : State} (h : Memory.wf s.mem = true) (sid : Nat) (what : String) :
    KeepsForm (s.waitOn sid what) := by
  unfold State.waitOn
  split <;> simp [h]

@[simp] theorem keepsForm_execStackRequest {s : State} (h : Memory.wf s.mem = true) (ch : Nat) :
    KeepsForm (execStackRequest ch s) := by
  unfold execStackRequest
  repeat' split
  all_goals simp [h]

@[simp] theorem keepsForm_execStackReply {s : State} (h : Memory.wf s.mem = true) (ch tag found : Nat) :
    KeepsForm (execStackReply ch tag found s) := by
  unfold execStackReply
  dsimp only
  repeat' split
  all_goals simp [h]

@[simp] theorem keepsForm_execPacketDelivery {s : State} (h : Memory.wf s.mem = true) (p : Nat) :
    KeepsForm (execPacketDelivery p s) := by
  unfold execPacketDelivery
  dsimp only
  repeat' split
  all_goals simp [h]

theorem State.keepsForm_atGate {s : State} (h : Memory.wf s.mem = true) (what : String) (line : Nat)
    {f : Host.Outcome State Fault Refusal} (hf : KeepsForm f) : KeepsForm (s.atGate what line f) := by
  unfold State.atGate
  split
  · simp
  · rename_i e
    simpa [(State.sameMem_deviceGate ..).mem_recall e] using h
  · exact hf

@[simp] theorem State.keepsForm_awaitLine {s : State} (h : Memory.wf s.mem = true) (what : String) (pa kid : Nat) :
    KeepsForm (s.awaitLine what pa kid) := by
  unfold State.awaitLine
  split <;> simp [h]

theorem keepsForm_execLoadRequest {s : State} (h : Memory.wf s.mem = true) (p : Nat) : KeepsForm (execLoadRequest p s) := by
  unfold execLoadRequest
  split
  · simp
  · split
    · split
      · simp
      · rename_i e
        simp [(State.sameMem_atHome ..).mem_recall e, h]
      · rename_i e
        rw [← (State.sameMem_atHome ..).mem_go e] at h
        dsimp only
        split
        · simp [h]
        · split
          · exact State.keepsForm_awaitLine h ..
          · split <;> simp [h]
    · split
      · split <;> simp [h]
      · split <;> simp [h]
    · simp

theorem keepsForm_execStoreArrival {s : State} (h : Memory.wf s.mem = true) (p : Nat) : KeepsForm (execStoreArrival p s) := by
  unfold execStoreArrival
  split
  · simp
  · split
    · split
      · simp
      · rename_i e
        simp [(State.sameMem_atHome ..).mem_recall e, h]
      · rename_i e
        rw [← (State.sameMem_atHome ..).mem_go e] at h
        split <;> simp [h]
    · split
      · simp
      · rename_i e
        simp [(State.sameMem_atHome ..).mem_recall e, h]
      · rename_i e
        rw [← (State.sameMem_atHome ..).mem_go e] at h
        split
        · exact State.keepsForm_awaitLine h ..
        · simp [h]
    · simp

@[simp] theorem keepsForm_execStoreCompletion {s : State} (h : Memory.wf s.mem = true) (p : Nat) :
    KeepsForm (execStoreCompletion p s) := by
  unfold execStoreCompletion
  repeat' split
  all_goals simp [h]

@[simp] theorem keepsForm_execRecall {s : State} (h : Memory.wf s.mem = true) (p : Nat) : KeepsForm (execRecall p s) := by
  unfold execRecall
  repeat' split
  all_goals simp [h]

@[simp] theorem keepsForm_execOwnerWriteback {s : State} (h : Memory.wf s.mem = true) (p : Nat) :
    KeepsForm (execOwnerWriteback p s) := by
  unfold execOwnerWriteback
  dsimp only
  repeat' split
  all_goals simp [State.mem_ownedBack, h]

@[simp] theorem keepsForm_execLoadReply {s : State} (h : Memory.wf s.mem = true) (p : Nat) :
    KeepsForm (execLoadReply p s) := by
  unfold execLoadReply
  dsimp only
  repeat' split
  all_goals simp [h]

theorem keepsForm_execOwnershipGrant {s : State} (h : Memory.wf s.mem = true) (p : Nat) :
    KeepsForm (execOwnershipGrant p s) := by
  unfold execOwnershipGrant
  split
  · simp
  · split
    · dsimp only
      split
      · simp
      · rename_i e
        simp [(State.sameMem_atHome ..).mem_recall e, h]
      · rename_i e
        rw [← (State.sameMem_atHome ..).mem_go e] at h
        split
        · simp
        · split
          · exact State.keepsForm_awaitLine h ..
          · simp [h]
    · simp

@[simp] theorem keepsForm_execLeaseExpiry {s : State} (h : Memory.wf s.mem = true) (core line : Nat) :
    KeepsForm (execLeaseExpiry core line s) := by
  unfold execLeaseExpiry
  repeat' split
  all_goals simp [h]

@[simp] theorem keepsForm_execWatchCheck {s : State} (h : Memory.wf s.mem = true) (p : Nat) :
    KeepsForm (execWatchCheck p s) := by
  unfold execWatchCheck
  repeat' split
  all_goals simp [h]

@[simp] theorem keepsForm_execWatchAnswer {s : State} (h : Memory.wf s.mem = true) (p : Nat) :
    KeepsForm (execWatchAnswer p s) := by
  unfold execWatchAnswer
  repeat' split
  all_goals simp [h]

@[simp] theorem keepsForm_execPageWalk {s : State} (h : Memory.wf s.mem = true) (core asid va : Nat) :
    KeepsForm (execPageWalk core asid va s) := by
  unfold execPageWalk
  repeat' split
  all_goals simp [h]

@[simp] theorem keepsForm_execStreamReadahead {s : State} (h : Memory.wf s.mem = true) (bk n k : Nat) :
    KeepsForm (execStreamReadahead bk n k s) := by
  unfold execStreamReadahead
  dsimp only
  repeat' split
  all_goals simp [h]

@[simp] theorem keepsForm_execPushRetire {s : State} (h : Memory.wf s.mem = true) (bk n : Nat) :
    KeepsForm (execPushRetire bk n s) := by
  unfold execPushRetire
  repeat' split
  all_goals simp [h]

theorem keepsForm_execRemoteOperation {s : State} (h : Memory.wf s.mem = true) (f kind off : Nat) (operand : DWord) :
    KeepsForm (execRemoteOperation f kind off operand s) := by
  unfold execRemoteOperation
  dsimp only
  split
  · simp [h]
  · split
    · simp [h]
    · split
      · exact State.keepsForm_waitOn h ..
      · simp [h]
      · split
        · simp [h]
        · split
          · exact State.keepsForm_waitOn h ..
          · refine State.keepsForm_atGate h _ _ ?_
            rw [keepsForm_next, State.mem_maskedWrite]
            exact State.wf_homeStore (by simpa using h) ..

@[simp] theorem keepsForm_execRemoteCompletion {s : State} (h : Memory.wf s.mem = true) (bk n : Nat) (ok : Bool) :
    KeepsForm (execRemoteCompletion bk n ok s) := by
  unfold execRemoteCompletion
  repeat' split
  all_goals simp [h]

/-! ### Wake -/

@[simp] theorem keepsForm_execReleaseWait {s : State} (h : Memory.wf s.mem = true) (bk n : Nat) :
    KeepsForm (execReleaseWait bk n s) := by
  unfold execReleaseWait
  repeat' split
  all_goals simp [h]

@[simp] theorem keepsForm_execForcedRelease {s : State} (h : Memory.wf s.mem = true) (bk n : Nat) :
    KeepsForm (execForcedRelease bk n s) := by
  unfold execForcedRelease
  split <;> simp [h]

theorem keepsForm_execAsyncTrapEntry {s : State} (h : Memory.wf s.mem = true) (bk n : Nat) :
    KeepsForm (execAsyncTrapEntry bk n s) := by
  unfold execAsyncTrapEntry
  split
  · simp
  · rename_i ht
    simp [(State.sameMem_takeDue ..).mem ht, h]

/-! ### Queue -/

theorem State.keepsForm_hostAccess {s : State} (h : Memory.wf s.mem = true) (a : Via)
    {o : Host.Outcome State Fault Refusal} (ho : KeepsForm o) :
    KeepsForm (s.hostAccess a o) := by
  unfold State.hostAccess
  split <;> simp [h, ho]

theorem keepsForm_execLqdbDoorbell {s : State} (h : Memory.wf s.mem = true) (a : Via) (q : Nat) (v : Word) :
    KeepsForm (execLqdbDoorbell a q v s) := by
  refine State.keepsForm_hostAccess h _ ?_
  split
  · simp
  · split <;> simp [h]

@[simp] theorem keepsForm_execLqctlEn {s : State} (h : Memory.wf s.mem = true) (a : Via) (q : Nat) (v : Word) :
    KeepsForm (execLqctlEn a q v s) := by
  refine State.keepsForm_hostAccess h _ ?_
  split <;> simp [h]

@[simp] theorem keepsForm_execLqctlErrClear {s : State} (h : Memory.wf s.mem = true) (a : Via) (q : Nat) (v : Word) :
    KeepsForm (execLqctlErrClear a q v s) := by
  refine State.keepsForm_hostAccess h _ ?_
  split <;> simp [h]

theorem State.keepsForm_onRecord {s : State} (h : Memory.wf s.mem = true) (what : String) (f asid : Nat) (p : Packet)
    {o : Host.Outcome State Fault Refusal} (ho : KeepsForm o) : KeepsForm (s.onRecord what f asid p o) := by
  unfold State.onRecord
  split
  · simp
  · split
    · exact State.keepsForm_waitOn h ..
    · exact ho
    · exact State.keepsForm_atGate h _ _ ho

theorem State.keepsForm_onRefusal {s : State} (h : Memory.wf s.mem = true) (f q : Nat) (p : Packet)
    {o : Host.Outcome State Fault Refusal} (ho : KeepsForm o) : KeepsForm (s.onRefusal f q p o) := by
  unfold State.onRefusal
  split
  · exact ho
  · split
    · exact ho
    · split
      · exact State.keepsForm_waitOn h ..
      · exact ho
      · exact State.keepsForm_atGate h _ _ ho

theorem State.keepsForm_acceptType {s : State} (h : Memory.wf s.mem = true) (f q type : Nat) (what : String) :
    KeepsForm (s.acceptType f q type what) := by
  unfold State.acceptType
  split
  · simp
  · simp
  · exact State.keepsForm_waitOn h ..
  · split
    · simp
    · split <;> simp [h]

theorem keepsForm_execLaunchPacket {s : State} (h : Memory.wf s.mem = true) (f q : Nat) : KeepsForm (execLaunchPacket f q s) := by
  unfold execLaunchPacket
  split
  · simp
  · exact State.keepsForm_waitOn h ..
  · simp [h]
  · split
    · exact State.keepsForm_onRefusal h _ _ _ (State.wf_refuse h ..)
    · split <;> simp [h]

theorem keepsForm_execMarkerCompletion {s : State} (h : Memory.wf s.mem = true) (lid : Nat) :
    KeepsForm (execMarkerCompletion lid s) := by
  unfold execMarkerCompletion
  split
  · simp
  · rename_i g _
    refine State.keepsForm_onRecord h _ _ _ _ ?_
    have ha : Memory.wf (s.deviceAsk (s.depLines g)).mem = true := by simpa using h
    dsimp only
    split
    · exact State.wf_finishPacket ha ..
    · exact State.wf_finishPacket ha ..
    · exact State.keepsForm_waitOn ha ..
    · simp

theorem keepsForm_execContextUpdate {s : State} (h : Memory.wf s.mem = true) (lid : Nat) : KeepsForm (execContextUpdate lid s) := by
  unfold execContextUpdate
  split
  · simp
  · refine State.keepsForm_onRecord h _ _ _ _ ?_
    split
    · simp [h]
    · exact State.keepsForm_waitOn h ..
    · split
      · exact State.keepsForm_waitOn h ..
      · simp [h]
      · split
        · simp
        · simp [h]
    · simp
    · simp

/-! ### Place -/

theorem keepsForm_execBlockPlacement {s : State} (h : Memory.wf s.mem = true) : KeepsForm (execBlockPlacement s) := by
  unfold execBlockPlacement
  split
  · split
    · simp
    · split
      · exact State.keepsForm_waitOn h ..
      · simp [h]
      · simp [h]
      · split
        · simp
        · rename_i ht
          split
          · simp [(State.sameMem_placeNext ..).mem ht, h]
          · simp
  · split
    · exact State.keepsForm_waitOn h ..
    · simp

theorem keepsForm_execBlockResume {s : State} (h : Memory.wf s.mem = true) (bk : Nat) : KeepsForm (execBlockResume bk s) := by
  unfold execBlockResume
  split
  · simp
  · split
    · simp
    · split
      · simp [h]
      · split
        · simp
        · split
          · simp
          · rename_i ht
            split
            · simp [(State.sameMem_tryItem ..).mem ht, h]
            · simp

@[simp] theorem keepsForm_execReplayPlacement {s : State} (h : Memory.wf s.mem = true) (sid : Nat) :
    KeepsForm (execReplayPlacement sid s) := by
  unfold execReplayPlacement
  dsimp only
  repeat' split
  all_goals simp [h]

theorem keepsForm_execCarveOutChange {s : State} (h : Memory.wf s.mem = true) (core : Nat) (carve : Word) :
    KeepsForm (execCarveOutChange core carve s) := by
  unfold execCarveOutChange
  dsimp only
  split
  · simp
  · rw [keepsForm_next, State.mem_carveCore, State.setCore_mem, State.mem_foldl _ fun _ _ => State.mem_giveUp ..,
      State.mem_actFor]
    exact h

theorem keepsForm_execPreemption {s : State} (h : Memory.wf s.mem = true) : KeepsForm (execPreemption s) := by
  unfold execPreemption
  split
  · simp
  · rw [keepsForm_next, State.mem_foldl _ fun _ _ => State.mem_stopBlock .., State.mem_actFor]
    exact h

theorem keepsForm_execGridCompletion {s : State} (h : Memory.wf s.mem = true) (lid : Nat) :
    KeepsForm (execGridCompletion lid s) := by
  unfold execGridCompletion
  split
  · simp
  · split
    · simp
    · exact State.keepsForm_onRecord h _ _ _ _ (by simp [h])

theorem keepsForm_execGridFailure {s : State} (h : Memory.wf s.mem = true) (lid : Nat) : KeepsForm (execGridFailure lid s) := by
  unfold execGridFailure
  split
  · simp
  · have hl (bs : List (Nat × Block)) (s : State) : (bs.foldl (fun s p => s.logUnconsumed p.2) s).mem = s.mem :=
      State.mem_foldl _ (fun _ _ => State.mem_logUnconsumed ..) _ _
    extract_lets go
    have hg {s : State} (h : Memory.wf s.mem = true) (status : Nat) : KeepsForm (go s status) := by
      dsimp only [go]
      split
      · simp
      · refine State.keepsForm_onRecord h _ _ _ _ ?_
        rw [keepsForm_next, State.mem_modQueue]
        refine State.wf_finishPacket ?_ ..
        simp [hl, h]
    split
    · simp
    · exact hg h _
    · split
      · exact hg (by simpa using h) _
      · simp

/-! ### Conservator -/

@[simp] theorem keepsForm_execCdemFenced {s : State} (h : Memory.wf s.mem = true) (core : Nat) :
    KeepsForm (execCdemFenced core s) := by
  unfold execCdemFenced
  repeat' split
  all_goals simp [h]

@[simp] theorem keepsForm_execBlockEnd {s : State} (h : Memory.wf s.mem = true) (bk : Nat) :
    KeepsForm (execBlockEnd bk s) := by
  unfold execBlockEnd
  repeat' split
  all_goals simp [h]

@[simp] theorem keepsForm_execHoldTimeout {s : State} (h : Memory.wf s.mem = true) (sid : Nat) :
    KeepsForm (execHoldTimeout sid s) := by
  unfold execHoldTimeout
  dsimp only
  split <;> simp [h]

@[simp] theorem keepsForm_execLoanCycleBreak {s : State} (h : Memory.wf s.mem = true) (sids : List Nat) :
    KeepsForm (execLoanCycleBreak sids s) := by
  unfold execLoanCycleBreak
  repeat' split
  all_goals simp [h]

@[simp] theorem keepsForm_execCapacityTimeout {s : State} (h : Memory.wf s.mem = true) (sid : Nat) :
    KeepsForm (execCapacityTimeout sid s) := by
  unfold execCapacityTimeout
  dsimp only
  split <;> simp [h]

theorem keepsForm_execCoreFailure {s : State} (h : Memory.wf s.mem = true) (core : Nat) : KeepsForm (execCoreFailure core s) := by
  unfold execCoreFailure
  split
  · simp
  · refine State.wf_judgeRuns ?_
    rw [State.mem_foldl _ fun _ _ => State.mem_failGrid .., State.setCore_mem, State.mem_loseLines]
    exact h

/-! ### Exchange -/

theorem keepsForm_xchg {s : State} (h : Memory.wf s.mem = true) (i : Instr) (o : Xchg) (src : Int → Int → Int) :
    KeepsForm (xchg i o s src) := keepsForm_runBand h _ _

theorem keepsForm_execSread {s : State} (hm : Memory.wf s.mem = true) (h : Hdr) (o : Sread) : KeepsForm (execSread h o s) := by
  refine keepsForm_run hm _ fun y hy => ?_
  extract_lets c logged now ct wide put x
  have hp {s : State} (hs : Memory.wf s.mem = true) (x : Band) (f : Nat → DWord) : Memory.wf (put s x f).mem = true :=
    Iss.wf_commit (y := { y.resync s with x := x }) hs _ _
  split
  · split
    · exact hp hy _ _
    · simp [hy]
  · exact hp (by split <;> simp [hy]) _ _

/-! ### Registers -/

theorem keepsForm_execPrsp {s : State} (h : Memory.wf s.mem = true) (a : Via) (v : Word) : KeepsForm (execPrsp a v s) := by
  refine State.keepsForm_hostAccess h _ ?_
  rw [keepsForm_next, State.mem_foldl _ fun _ _ => State.mem_answerPage ..]
  exact h

theorem keepsForm_execFlogctlWrite {s : State} (h : Memory.wf s.mem = true) (a : Via) (v : Word) :
    KeepsForm (execFlogctlWrite a v s) := State.keepsForm_hostAccess h _ h

@[simp] theorem keepsForm_execKeymapWrite {s : State} (h : Memory.wf s.mem = true) (p : Nat) (v : DWord) :
    KeepsForm (execKeymapWrite p v s) := by
  unfold execKeymapWrite
  dsimp only
  repeat' split
  all_goals simp [h]

@[simp] theorem keepsForm_execHcwinWrite {s : State} (h : Memory.wf s.mem = true) (v : DWord) :
    KeepsForm (execHcwinWrite v s) := by
  unfold execHcwinWrite
  simp [h]

theorem State.keepsForm_windowAccess {s : State} (h : Memory.wf s.mem = true) (v : Via) (pa : Nat)
    {f : State → Host.Outcome State Fault Refusal} (hf : ∀ s, Memory.wf s.mem = true → KeepsForm (f s)) :
    KeepsForm (s.windowAccess v pa f) := by
  refine State.keepsForm_hostAccess h _ ?_
  split
  · simp
  · split
    · exact State.keepsForm_waitOn h ..
    · exact State.keepsForm_atGate h _ _ (hf _ (by simpa using h))

theorem State.keepsForm_windowRead {s : State} (h : Memory.wf s.mem = true) (pa n : Nat) {f : State → State}
    (hf : ∀ s, (f s).mem = s.mem) : KeepsForm (s.windowRead pa n f) := by
  unfold State.windowRead
  split
  · exact State.keepsForm_awaitLine h ..
  · simpa [hf] using h

theorem keepsForm_execHostWindowAccess {s : State} (h : Memory.wf s.mem = true) (a : WinAcc) :
    KeepsForm (execHostWindowAccess a s) := by
  unfold execHostWindowAccess
  split
  · exact State.keepsForm_windowAccess h _ _ fun _ h => State.keepsForm_windowRead h _ _ fun _ => rfl
  · refine State.keepsForm_windowAccess h _ _ fun _ h => ?_
    rw [keepsForm_next, State.mem_maskedWrite]
    exact State.wf_homeStore h ..
  · exact State.keepsForm_windowAccess h _ _ fun _ h => State.keepsForm_windowRead h _ _ fun _ => rfl
  · split <;> simp [h]

theorem keepsForm_execRegisterWrite {s : State} (h : Memory.wf s.mem = true) (a : Via) (off : Nat) (v : DWord) :
    KeepsForm (execRegisterWrite a off v s) := by
  unfold execRegisterWrite
  split
  · simp
  · split
    · exact h
    · split
      · split <;> simp [h]
      · split
        · exact h
        · split
          · rename_i ht
            simp [(State.sameMem_writePf ..).mem ht, h]
          · simp

@[simp] theorem keepsForm_execCkpctlSave {s : State} (h : Memory.wf s.mem = true) : KeepsForm (execCkpctlSave s) := by
  unfold execCkpctlSave
  simp [h]

@[simp] theorem keepsForm_execCkpctlRestore {s : State} (h : Memory.wf s.mem = true) : KeepsForm (execCkpctlRestore s) := by
  unfold execCkpctlRestore
  simp [h]

@[simp] theorem keepsForm_execCheckpointRequestFlit {s : State} (h : Memory.wf s.mem = true) (restore : Bool)
    (tdev image : Nat) :
    KeepsForm (execCheckpointRequestFlit restore tdev image s) := by
  unfold execCheckpointRequestFlit
  simp [h]

@[simp] theorem keepsForm_execCheckpointEnd {s : State} (h : Memory.wf s.mem = true) (err : Nat) :
    KeepsForm (execCheckpointEnd err s) := by
  unfold execCheckpointEnd
  repeat' split
  all_goals simp [State.wf_ckpLoad, h]

@[simp] theorem keepsForm_execDieLinkFlit {s : State} (h : Memory.wf s.mem = true) (link : Nat) (good : Bool) :
    KeepsForm (execDieLinkFlit link good s) := by
  unfold execDieLinkFlit
  dsimp only
  split <;> simp [h]

@[simp] theorem keepsForm_execSolustFlit {s : State} (h : Memory.wf s.mem = true) (port seq : Nat) (rx : FlitRx) :
    KeepsForm (execSolustFlit port seq rx s) := by
  unfold execSolustFlit
  dsimp only
  split <;> simp [h]

theorem keepsForm_execUnitRetirement {s : State} (h : Memory.wf s.mem = true) (u : HUnit) :
    KeepsForm (execUnitRetirement u s) := by
  unfold execUnitRetirement
  cases u with
  | channel n lost =>
    dsimp only
    split
    · simp
    · rw [keepsForm_next]
      split
      · rw [State.mem_foldl _ State.mem_poisonCw]
        exact h
      · exact h
  | slice n => dsimp only; split <;> simp [h]
  | dieLink n => dsimp only; split <;> simp [h]
  | port n => dsimp only; split <;> simp [h]
  | hostLink => dsimp only; split <;> simp [h]

@[simp] theorem keepsForm_execLinkFailure {s : State} (h : Memory.wf s.mem = true) (u : HUnit) :
    KeepsForm (execLinkFailure u s) := by
  unfold execLinkFailure
  dsimp only
  repeat' split
  all_goals simp [h]

/-! ### Host -/

@[simp] theorem keepsForm_execFirmwareLoad {s : State} (h : Memory.wf s.mem = true) (image sig : List Byte) :
    KeepsForm (execFirmwareLoad image sig s) := by
  unfold execFirmwareLoad
  repeat' split
  all_goals simp [h]

@[simp] theorem keepsForm_execPowerUp {s : State} (h : Memory.wf s.mem = true) : KeepsForm (execPowerUp s) := by
  unfold execPowerUp
  split <;> simp [h]

theorem keepsForm_execThermalShutdown {s : State} (h : Memory.wf s.mem = true) : KeepsForm (execThermalShutdown s) := by
  unfold execThermalShutdown
  split
  · simp
  · refine State.wf_foldl _ (fun _ _ h => State.wf_thermalFail h _) _ ?_
    show Memory.wf (List.foldl State.deaccession _ _).mem = true
    rw [State.mem_foldl _ State.mem_deaccession]
    exact h

@[simp] theorem keepsForm_execClockThrottle {s : State} (h : Memory.wf s.mem = true) (on : Bool) :
    KeepsForm (execClockThrottle on s) := by
  unfold execClockThrottle
  simp [h]

@[simp] theorem keepsForm_execDeviceReset {s : State} (h : Memory.wf s.mem = true) : KeepsForm (execDeviceReset s) := by
  unfold execDeviceReset
  simp [h]

theorem State.keepsForm_answerIf {s : State} (h : Memory.wf s.mem = true) (ok : Bool) (f : Root → Root) :
    KeepsForm (s.answerIf ok f) := by
  unfold State.answerIf
  split <;> simp [h]

theorem keepsForm_execGetMeasurements {s : State} (h : Memory.wf s.mem = true) (nonce : BitVec 256) :
    KeepsForm (execGetMeasurements nonce s) := State.keepsForm_answerIf h _ _

@[simp] theorem keepsForm_execKeyExchange {s : State} (h : Memory.wf s.mem = true) (f : Nat) (pub : BitVec 768) :
    KeepsForm (execKeyExchange f pub s) := by
  unfold execKeyExchange
  repeat' split
  all_goals simp [h]

@[simp] theorem keepsForm_execFinish {s : State} (h : Memory.wf s.mem = true) (mac : BitVec 384) :
    KeepsForm (execFinish mac s) := by
  unfold execFinish
  repeat' split
  all_goals simp [h]

@[simp] theorem keepsForm_execLockInterface {s : State} (h : Memory.wf s.mem = true) (f : Nat) (policyKey : BitVec 768) :
    KeepsForm (execLockInterface f policyKey s) := by
  unfold execLockInterface
  repeat' split
  all_goals simp [h]

@[simp] theorem keepsForm_execInterfaceRun {s : State} (h : Memory.wf s.mem = true) (f : Nat) :
    KeepsForm (execInterfaceRun f s) := by
  unfold execInterfaceRun
  repeat' split
  all_goals simp [h]

@[simp] theorem keepsForm_execInterfaceUnlock {s : State} (h : Memory.wf s.mem = true) (f : Nat) (error : Bool) :
    KeepsForm (execInterfaceUnlock f error s) := by
  unfold execInterfaceUnlock
  repeat' split
  all_goals simp [h]

@[simp] theorem keepsForm_execPolicyDelivery {s : State} (h : Memory.wf s.mem = true) (f : Nat) (rec : List Byte) :
    KeepsForm (execPolicyDelivery f rec s) := by
  unfold execPolicyDelivery
  split <;> simp [h]

@[simp] theorem keepsForm_execCondreq {s : State} (h : Memory.wf s.mem = true) : KeepsForm (execCondreq s) := by
  unfold execCondreq
  dsimp only
  repeat' split
  all_goals simp [h]

@[simp] theorem keepsForm_execConditionReportSpdm {s : State} (h : Memory.wf s.mem = true) (nonce : BitVec 256) :
    KeepsForm (execConditionReportSpdm nonce s) := by
  unfold execConditionReportSpdm
  simp [h]

@[simp] theorem keepsForm_execConditionReportFlit {s : State} (h : Memory.wf s.mem = true) (port : Nat) (nonce : BitVec 256)
    :
    KeepsForm (execConditionReportFlit port nonce s) := by
  unfold execConditionReportFlit
  dsimp only
  split <;> simp [h]

theorem State.keepsForm_dbgRun {s : State} (h : Memory.wf s.mem = true) (a : Via) (c : DWord) (ok : Block → Band → Bool)
    {act : Nat → Block → Band → State} (ha : ∀ k b x, (act k b x).mem = s.mem) : KeepsForm (s.dbgRun a c ok act) := by
  refine State.keepsForm_hostAccess h _ ?_
  split
  · simp [h]
  · split <;> simp [h, ha]

theorem keepsForm_execDebugHalt {s : State} (h : Memory.wf s.mem = true) (a : Via) (cmd : DWord) :
    KeepsForm (execDebugHalt a cmd s) := by
  unfold execDebugHalt
  split
  · simp
  · refine State.keepsForm_dbgRun h _ _ _ fun _ _ _ => ?_
    rw [State.mem_dbgDone, State.modBand_mem, (State.sameMem_takeDue ..).mem_getD]

theorem keepsForm_execDebugResume {s : State} (h : Memory.wf s.mem = true) (a : Via) (cmd : DWord) :
    KeepsForm (execDebugResume a cmd s) := by
  unfold execDebugResume
  split
  · simp
  · exact State.keepsForm_dbgRun h _ _ _ fun _ _ _ => by simp

theorem keepsForm_execDebugStep {s : State} (h : Memory.wf s.mem = true) (a : Via) (cmd : DWord) :
    KeepsForm (execDebugStep a cmd s) := by
  unfold execDebugStep
  split
  · simp
  · exact State.keepsForm_dbgRun h _ _ _ fun _ _ _ => by simp

theorem keepsForm_execDebugReadRegister {s : State} (h : Memory.wf s.mem = true) (a : Via) (cmd : DWord) :
    KeepsForm (execDebugReadRegister a cmd s) := by
  unfold execDebugReadRegister
  extract_lets waits
  split
  · simp
  · exact State.keepsForm_dbgRun h _ _ _ fun _ _ _ => by simp

theorem keepsForm_execDebugWriteRegister {s : State} (h : Memory.wf s.mem = true) (a : Via) (cmd : DWord) :
    KeepsForm (execDebugWriteRegister a cmd s) := by
  unfold execDebugWriteRegister
  split
  · simp
  · exact State.keepsForm_dbgRun h _ _ _ fun _ _ _ => by simp

@[simp] theorem keepsForm_execLmctlTrack {s : State} (h : Memory.wf s.mem = true) (v : Nat) (on : Bool) :
    KeepsForm (execLmctlTrack v on s) := by
  unfold execLmctlTrack
  split <;> simp [h]

@[simp] theorem keepsForm_execLmctlSnap {s : State} (h : Memory.wf s.mem = true) (v : Nat) :
    KeepsForm (execLmctlSnap v s) := by
  unfold execLmctlSnap
  dsimp only
  repeat' split
  all_goals simp [State.wf_putRange, h]

theorem keepsForm_execLmctlQuiesce {s : State} (h : Memory.wf s.mem = true) (v : Nat) : KeepsForm (execLmctlQuiesce v s) := by
  unfold execLmctlQuiesce
  dsimp only
  split
  · simp
  · split
    · simp [h]
    · split
      · simp
      · rw [keepsForm_next, State.modFn_mem, State.mem_foldl _ fun _ _ => State.mem_stopBlock ..]
        exact h

@[simp] theorem keepsForm_execQuiesceDone {s : State} (h : Memory.wf s.mem = true) (v : Nat) :
    KeepsForm (execQuiesceDone v s) := by
  unfold execQuiesceDone
  dsimp only
  repeat' split
  all_goals simp [State.wf_putRange, h]

@[simp] theorem keepsForm_execLmctlResume {s : State} (h : Memory.wf s.mem = true) (v : Nat) :
    KeepsForm (execLmctlResume v s) := by
  unfold execLmctlResume
  split <;> simp [h]

/-! ### Int -/

@[simp] theorem keepsForm_alu2 {s : State} (h : Memory.wf s.mem = true) (i : Instr) (o : Int2) (f : DWord → DWord → DWord) :
    KeepsForm (alu2 i o s f) := keepsForm_runAlu h _ _

@[simp] theorem keepsForm_alu1 {s : State} (h : Memory.wf s.mem = true) (i : Instr) (o : Int1) (f : DWord → DWord) :
    KeepsForm (alu1 i o s f) := keepsForm_runAlu h _ _

@[simp] theorem keepsForm_aluI {s : State} (h : Memory.wf s.mem = true) (i : Instr) (o : IntI) (f : DWord → DWord → DWord) :
    KeepsForm (aluI i o s f) := keepsForm_runAlu h _ _

@[simp] theorem keepsForm_aluSat {s : State} (h : Memory.wf s.mem = true) (i : Instr) (o : Int2) (sub : Bool) :
    KeepsForm (aluSat i o s sub) := keepsForm_runAlu h _ _

@[simp] theorem keepsForm_alu3 {s : State} (h : Memory.wf s.mem = true) (i : Instr) (o : Int3)
    (f : DWord → DWord → DWord → DWord) :
    KeepsForm (alu3 i o s f) := keepsForm_runAlu h _ _

@[simp] theorem keepsForm_log2 {s : State} (h : Memory.wf s.mem = true) (i : Instr) (o : Log2) (f : DWord → DWord → DWord) :
    KeepsForm (log2 i o s f) := keepsForm_runAlu h _ _

@[simp] theorem keepsForm_logI {s : State} (h : Memory.wf s.mem = true) (i : Instr) (o : LogI) (f : DWord → DWord → DWord) :
    KeepsForm (logI i o s f) := keepsForm_runAlu h _ _

@[simp] theorem keepsForm_sh2 {s : State} (h : Memory.wf s.mem = true) (i : Instr) (o : Log2) (op : ShOp) :
    KeepsForm (sh2 i o s op) := keepsForm_runAlu h _ _

@[simp] theorem keepsForm_shI {s : State} (h : Memory.wf s.mem = true) (i : Instr) (o : LogI) (op : ShOp) :
    KeepsForm (shI i o s op) := keepsForm_runAlu h _ _

@[simp] theorem keepsForm_cnt1 {s : State} (h : Memory.wf s.mem = true) (i : Instr) (o : Log1) (f : Bool → DWord → Word) :
    KeepsForm (cnt1 i o s f) := keepsForm_runAlu h _ _

/-! ### Move -/

@[simp] theorem keepsForm_predOp {s : State} (h : Memory.wf s.mem = true) (i : Instr) (o : PLog) (f : Bool → Bool → Bool) :
    KeepsForm (predOp i o s f) := keepsForm_runAlu h _ _

@[simp] theorem keepsForm_execMovIndexedRead {s : State} (hm : Memory.wf s.mem = true) (h : Hdr) (o : MovRd) :
    KeepsForm (execMovIndexedRead h o s) := by
  refine keepsForm_run hm _ fun y hy => ?_
  split <;> simp [hy]

@[simp] theorem keepsForm_execMovIndexedWrite {s : State} (hm : Memory.wf s.mem = true) (h : Hdr) (o : MovWr) :
    KeepsForm (execMovIndexedWrite h o s) := by
  refine keepsForm_run hm _ fun y hy => ?_
  split <;> simp [hy]

@[simp] theorem keepsForm_runNop {s : State} (h : Memory.wf s.mem = true) (i : Instr) : KeepsForm (runNop i s) :=
  keepsForm_run h _ fun _ hy => by simp [hy]

@[simp] theorem keepsForm_runJump {s : State} (h : Memory.wf s.mem = true) (i : Instr)
    (f : Env → DWord → Option DWord × Out) :
    KeepsForm (runJump i s f) := by
  refine keepsForm_run h _ fun y hy => ?_
  dsimp only
  split <;> simp [hy]

/-! ### Dispatch -/

/-- Every instruction and every event keeps the form: an arm per shape, then one per meaning that stands alone. The unfolding
of `exec` spares the arms whose function is found by unification a search. The last arm is `Instr.recall`, whose bare name is a
keyword of Mathlib. -/
theorem keepsForm_exec {s : State} (h : Memory.wf s.mem = true) (i : Instr) : KeepsForm (exec i s) := by
  cases i with
  | icmp | imadw | icmpImm | not | brev | bperm | clmulLo | clmulHi | lop3 | fsh | bfe | bfi | pnot | p2v | v2p | mov
  | isel | iselImm | movi | lea | movw | fmin | fmax | fcmp | fdiv | frnd | fclass | ffma | fminImm | fmaxImm | fcmpImm
  | fcvt | icvt | fpack | hfma2 | dot4 | ddiv | dsqrt | dcmp | dmin | dmax | dcvt | dfma =>
    unfold exec
    exact keepsForm_runAlu h ..
  | voteAll | voteAny | voteBallot | matchB | redb | elect | strmPos | tileGet | csrRd => exact keepsForm_runBand h ..
  | fleetKeyDelivery | getVersion | getCapabilities | negotiateAlgorithms | getDigests | getCertificate | challenge
  | endSession | ideKm => exact State.keepsForm_answerIf h ..
  | iadd | isub | imul | imulh | imin | imax | idiv | irem => exact keepsForm_alu2 h ..
  | iaddImm | isubImm | imulImm | iminImm | imaxImm | idivImm | iremImm => exact keepsForm_aluI h ..
  | fsqrt | frcp | frsq | fexp2 | flog2 | fsin | fcos =>
    unfold exec
    exact keepsForm_fp1 h ..
  | shl | shr | sar | rol | ror => exact keepsForm_sh2 h ..
  | shlImm | shrImm | sarImm | rolImm | rorImm => exact keepsForm_shI h ..
  | ret | brx | bra | call | dbra =>
    unfold exec
    exact keepsForm_runJump h ..
  | and | or | xor | andn => exact keepsForm_log2 h ..
  | nop64 | yield | nop96 | nop128 => exact keepsForm_runNop h ..
  | xchgIdx | xchgUp | xchgDown | xchgXor =>
    unfold exec
    exact keepsForm_xchg h ..
  | popc | clz | ctz => exact keepsForm_cnt1 h ..
  | andImm | orImm | xorImm => exact keepsForm_logI h ..
  | pand | por | pxor => exact keepsForm_predOp h ..
  | fadd | fsub | fmul =>
    unfold exec
    exact keepsForm_fp2 h ..
  | barArr | barWait | barSync => exact keepsForm_barOp h ..
  | joinE | joinW | joinX => exact keepsForm_runLanes h ..
  | noopPacket | markerPacket | contextUpdatePacket => exact State.keepsForm_acceptType h ..
  | ineg | iabs => exact keepsForm_alu1 h ..
  | iaddsat | isubsat => exact keepsForm_aluSat h ..
  | imad | iclamp => exact keepsForm_alu3 h ..
  | faddImm | fmulImm =>
    unfold exec
    exact keepsForm_fpI h ..
  | dadd | dmul =>
    unfold exec
    exact keepsForm_dp2 h ..
  | barInv | barInit => exact keepsForm_barSet h ..
  | movIndexedRead => exact keepsForm_execMovIndexedRead h ..
  | movIndexedWrite => exact keepsForm_execMovIndexedWrite h ..
  | exit => exact keepsForm_execExit h ..
  | sread => exact keepsForm_execSread h ..
  | ld => exact keepsForm_execLd h ..
  | st => exact keepsForm_execSt h ..
  | lds => exact keepsForm_execLds h ..
  | sts => exact keepsForm_execSts h ..
  | ldf => exact keepsForm_execLdf h ..
  | fence => exact keepsForm_execFence h ..
  | lflush => exact keepsForm_execLflush h ..
  | linv => exact keepsForm_execLinv h ..
  | atom => exact keepsForm_execAtom h ..
  | red => exact keepsForm_execRed h ..
  | ldw => exact keepsForm_execLdw h ..
  | chk => exact keepsForm_execChk h ..
  | prf => exact keepsForm_execPrf h ..
  | rngCommit => exact keepsForm_execRngCommit h ..
  | strmSet => exact keepsForm_execStrmSet h ..
  | strmEnd => exact keepsForm_execStrmEnd h ..
  | strmCfg => exact keepsForm_execStrmCfg h ..
  | waitc => exact keepsForm_execWaitc h ..
  | ringWait => exact keepsForm_execRingWait h ..
  | ringRel => exact keepsForm_execRingRel h ..
  | ringInit => exact keepsForm_execRingInit h ..
  | cpy => exact keepsForm_execCpy h ..
  | cpyCol => exact keepsForm_execCpyCol h ..
  | cpyPl => exact keepsForm_execCpyPl h ..
  | gangSet => exact keepsForm_execGangSet h ..
  | gangClr => exact keepsForm_execGangClr h ..
  | cmdWait => exact keepsForm_execCmdWait h ..
  | accClr => exact keepsForm_execAccClr h ..
  | tileSet => exact keepsForm_execTileSet h ..
  | mma => exact keepsForm_execMma h ..
  | planePack => exact keepsForm_execPlanePack h ..
  | planeUnpack => exact keepsForm_execPlaneUnpack h ..
  | accRd => exact keepsForm_execAccRd h ..
  | accWr => exact keepsForm_execAccWr h ..
  | cbtLd => exact keepsForm_execCbtLd h ..
  | trap => exact keepsForm_execTrap h ..
  | sys => exact keepsForm_execSys h ..
  | brk => exact keepsForm_execBrk h ..
  | rte => exact keepsForm_execRte h ..
  | halt => exact keepsForm_execHalt h ..
  | migr => exact keepsForm_execMigr h ..
  | ctxSave => exact keepsForm_execCtxSave h ..
  | ctxRest => exact keepsForm_execCtxRest h ..
  | tlbinv => exact keepsForm_execTlbinv h ..
  | scrub => exact keepsForm_execScrub h ..
  | csrWr => exact keepsForm_execCsrWr h ..
  | asyncTrapEntry => exact keepsForm_execAsyncTrapEntry h ..
  | forcedRelease => exact keepsForm_execForcedRelease h ..
  | lqdbDoorbell => exact keepsForm_execLqdbDoorbell h ..
  | lqctlEn => exact keepsForm_execLqctlEn h ..
  | lqctlErrClear => exact keepsForm_execLqctlErrClear h ..
  | launchPacket => exact keepsForm_execLaunchPacket h ..
  | markerCompletion => exact keepsForm_execMarkerCompletion h ..
  | contextUpdate => exact keepsForm_execContextUpdate h ..
  | blockPlacement => exact keepsForm_execBlockPlacement h ..
  | carveOutChange => exact keepsForm_execCarveOutChange h ..
  | preemption => exact keepsForm_execPreemption h ..
  | blockResume => exact keepsForm_execBlockResume h ..
  | blockEnd => exact keepsForm_execBlockEnd h ..
  | gridCompletion => exact keepsForm_execGridCompletion h ..
  | gridFailure => exact keepsForm_execGridFailure h ..
  | loadRequest => exact keepsForm_execLoadRequest h ..
  | loadReply => exact keepsForm_execLoadReply h ..
  | storeArrival => exact keepsForm_execStoreArrival h ..
  | storeCompletion => exact keepsForm_execStoreCompletion h ..
  | ownerWriteback => exact keepsForm_execOwnerWriteback h ..
  | ownershipGrant => exact keepsForm_execOwnershipGrant h ..
  | leaseExpiry => exact keepsForm_execLeaseExpiry h ..
  | watchCheck => exact keepsForm_execWatchCheck h ..
  | watchAnswer => exact keepsForm_execWatchAnswer h ..
  | packetDelivery => exact keepsForm_execPacketDelivery h ..
  | pageWalk => exact keepsForm_execPageWalk h ..
  | prsp => exact keepsForm_execPrsp h ..
  | flogctlWrite => exact keepsForm_execFlogctlWrite h ..
  | copySegment => exact keepsForm_execCopySegment h ..
  | copyCompletion => exact keepsForm_execCopyCompletion h ..
  | collectiveAcceptance => exact keepsForm_execCollectiveAcceptance h ..
  | commandAcceptance => exact keepsForm_execCommandAcceptance h ..
  | commandStart => exact keepsForm_execCommandStart h ..
  | commandRetire => exact keepsForm_execCommandRetire h ..
  | streamReadahead => exact keepsForm_execStreamReadahead h ..
  | pushRetire => exact keepsForm_execPushRetire h ..
  | remoteOperation => exact keepsForm_execRemoteOperation h ..
  | remoteCompletion => exact keepsForm_execRemoteCompletion h ..
  | replayPlacement => exact keepsForm_execReplayPlacement h ..
  | holdTimeout => exact keepsForm_execHoldTimeout h ..
  | loanCycleBreak => exact keepsForm_execLoanCycleBreak h ..
  | capacityTimeout => exact keepsForm_execCapacityTimeout h ..
  | cdemFenced => exact keepsForm_execCdemFenced h ..
  | coreFailure => exact keepsForm_execCoreFailure h ..
  | stackRequest => exact keepsForm_execStackRequest h ..
  | stackReply => exact keepsForm_execStackReply h ..
  | dieLinkFlit => exact keepsForm_execDieLinkFlit h ..
  | solustFlit => exact keepsForm_execSolustFlit h ..
  | ckpctlSave => exact keepsForm_execCkpctlSave h ..
  | ckpctlRestore => exact keepsForm_execCkpctlRestore h ..
  | checkpointRequestFlit => exact keepsForm_execCheckpointRequestFlit h ..
  | checkpointEnd => exact keepsForm_execCheckpointEnd h ..
  | hostWindowAccess => exact keepsForm_execHostWindowAccess h ..
  | hcwinWrite => exact keepsForm_execHcwinWrite h ..
  | keymapWrite => exact keepsForm_execKeymapWrite h ..
  | firmwareLoad => exact keepsForm_execFirmwareLoad h ..
  | powerUp => exact keepsForm_execPowerUp h ..
  | thermalShutdown => exact keepsForm_execThermalShutdown h ..
  | clockThrottle => exact keepsForm_execClockThrottle h ..
  | getMeasurements => exact keepsForm_execGetMeasurements h ..
  | keyExchange => exact keepsForm_execKeyExchange h ..
  | finish => exact keepsForm_execFinish h ..
  | lockInterface => exact keepsForm_execLockInterface h ..
  | interfaceUnlock => exact keepsForm_execInterfaceUnlock h ..
  | policyDelivery => exact keepsForm_execPolicyDelivery h ..
  | condreq => exact keepsForm_execCondreq h ..
  | conditionReportSpdm => exact keepsForm_execConditionReportSpdm h ..
  | conditionReportFlit => exact keepsForm_execConditionReportFlit h ..
  | debugHalt => exact keepsForm_execDebugHalt h ..
  | debugResume => exact keepsForm_execDebugResume h ..
  | debugStep => exact keepsForm_execDebugStep h ..
  | debugReadRegister => exact keepsForm_execDebugReadRegister h ..
  | debugWriteRegister => exact keepsForm_execDebugWriteRegister h ..
  | lmctlTrack => exact keepsForm_execLmctlTrack h ..
  | lmctlSnap => exact keepsForm_execLmctlSnap h ..
  | lmctlQuiesce => exact keepsForm_execLmctlQuiesce h ..
  | quiesceDone => exact keepsForm_execQuiesceDone h ..
  | lmctlResume => exact keepsForm_execLmctlResume h ..
  | unitRetirement => exact keepsForm_execUnitRetirement h ..
  | deviceReset => exact keepsForm_execDeviceReset h ..
  | registerWrite => exact keepsForm_execRegisterWrite h ..
  | releaseWait => exact keepsForm_execReleaseWait h ..
  | interfaceRun => exact keepsForm_execInterfaceRun h ..
  | linkFailure => exact keepsForm_execLinkFailure h ..
  | _ => exact keepsForm_execRecall h ..

/-! ### Steps -/

theorem State.keepsForm_bandStep {s : State} (h : Memory.wf s.mem = true) (k n : Nat) : KeepsForm (s.bandStep k n) := by
  have ha : Memory.wf (s.at' k n).mem = true := by simpa using h
  unfold State.bandStep
  dsimp only
  split
  · exact ha
  · exact keepsForm_exec ha _
  · exact keepsForm_exec ha _
  · simpa using h
  · exact ha
  · exact keepsForm_refused _
  · exact keepsForm_exec ha _

theorem State.keepsForm_coreCycle {s : State} (h : Memory.wf s.mem = true) (core : Nat) (ready : List (Nat × Nat)) :
    KeepsForm (s.coreCycle core ready) := by
  unfold State.coreCycle
  split
  · simpa using h
  · exact State.keepsForm_bandStep (by simpa using h) ..

theorem State.keepsForm_turn {s : State} (h : Memory.wf s.mem = true) (a : Act) : KeepsForm (s.turn a) := by
  unfold State.turn
  cases a with
  | event i =>
    dsimp only
    split
    · exact keepsForm_refused _
    · split
      · exact keepsForm_exec h i
      · exact keepsForm_notNow _
  | core c =>
    dsimp only
    split
    · exact State.keepsForm_coreCycle h ..
    · exact keepsForm_refused _
  | flaw => exact h
  | fixed => simpa using h
  | hostFlit => exact h
  | wear => simpa using h
  | bar => simpa using h
  | sriov => exact h
  | reserve => exact h

theorem KeepsForm.wf {o : Host.Outcome State Fault Refusal} (h : KeepsForm o) {t : State} (e : o = .next t) :
    Memory.wf t.mem = true := by
  subst e
  exact h

theorem KeepsForm.wf_nextOf {o : Host.Outcome State Fault Refusal} (h : KeepsForm o) {t : State} (e : nextOf o = some t) :
    Memory.wf t.mem = true := by
  unfold nextOf at e
  split at e
  · cases e
    exact h
  · cases e
  · cases e

theorem State.wf_quiesceWork {s t : State} (h : Memory.wf s.mem = true) (e : s.quiesceWork = some t) :
    Memory.wf t.mem = true := by
  obtain ⟨f, _, hf⟩ := List.exists_of_findSome?_eq_some e
  split at hf
  · obtain hq | ⟨_, hq⟩ := Option.or_eq_some_iff.1 hf
    · exact (keepsForm_execLmctlQuiesce h _).wf_nextOf hq
    · exact (keepsForm_execQuiesceDone h _).wf_nextOf hq
  · cases hf

theorem State.wf_doWork {s t : State} (h : Memory.wf s.mem = true) (e : s.doWork = some t) : Memory.wf t.mem = true := by
  obtain ha | ⟨_, hq⟩ := Option.or_eq_some_iff.1 e
  · obtain ⟨i, _, hi⟩ := List.exists_of_findSome?_eq_some ha
    exact (keepsForm_exec h i).wf_nextOf hi
  · exact State.wf_quiesceWork h hq

theorem State.keepsForm_freeTurn {s : State} (h : Memory.wf s.mem = true) : KeepsForm s.freeTurn := by
  unfold State.freeTurn
  split
  · rename_i e
    exact State.wf_doWork h e
  · split
    · exact State.keepsForm_coreCycle h ..
    · exact h

theorem keepsForm_step {s : State} (h : Memory.wf s.mem = true) : KeepsForm (step s) := by
  unfold step
  split
  · exact State.keepsForm_turn (State.wf_tick (by exact h) ..) _
  · split
    · exact State.keepsForm_freeTurn (State.wf_tick h ..)
    · exact keepsForm_fault _

/-- Settles O60: an operation either leaves memory alone or keeps its form, so every instruction and event keeps it
(`keepsForm_exec`), and with them every step. -/
theorem memoryStaysCanonical : Obligations.MemoryStaysCanonical := by
  unfold Obligations.MemoryStaysCanonical
  intro s t h e
  exact (keepsForm_step h).wf e

end Sys2Proof.Machine

/-! # A step runs an event or the default schedule

What a tick does beside moving the clock (the logs, the versions, the saved blocks) leaves power and the clock alone. -/

namespace Sys2Proof.Machine

open Sys2Proof

/-! ### Power and the clock -/

/-- Power, the chip time and the leads of the dies: what of a state the clock reads and moves. -/
def State.clockOf (s : State) : Power × Nat × List Nat := (s.power, s.time, s.skew)

theorem State.clockOf_eq_iff {s t : State} :
    s.clockOf = t.clockOf ↔ s.power = t.power ∧ s.time = t.time ∧ s.skew = t.skew := by
  simp [State.clockOf]

theorem State.clockOf_foldl {α : Type} (f : State → α → State) (hf : ∀ s a, (f s a).clockOf = s.clockOf) (l : List α)
    (s : State) : (l.foldl f s).clockOf = s.clockOf := by
  induction l generalizing s with
  | nil => rfl
  | cons a l ih => exact (ih _).trans (hf s a)

@[simp] theorem State.clockOf_setFn (s : State) (f : Nat) (x : Fn) : (s.setFn f x).clockOf = s.clockOf := rfl

@[simp] theorem State.clockOf_modFn (s : State) (f : Nat) (g : Fn → Fn) : (s.modFn f g).clockOf = s.clockOf := rfl

@[simp] theorem State.clockOf_modBlk (s : State) (k : Nat) (g : Block → Block) : (s.modBlk k g).clockOf = s.clockOf := rfl

@[simp] theorem State.clockOf_setCore (s : State) (c : Nat) (k : Core) : (s.setCore c k).clockOf = s.clockOf := rfl

@[simp] theorem State.clockOf_setHome (s : State) (line : Nat) (h : HomeLine) : (s.setHome line h).clockOf = s.clockOf := rfl

@[simp] theorem State.clockOf_noteOutside (s : State) (sid : Nat) : (s.noteOutside sid).clockOf = s.clockOf := rfl

@[simp] theorem State.clockOf_send (s : State) (src dest : Router) (cls : PktCls) (lid : Nat) (blk : Option (Nat × Nat))
    (m : Msg) : (s.send src dest cls lid blk m).clockOf = s.clockOf := rfl

@[simp] theorem State.clockOf_backInvalidate (s : State) (line lid : Nat) (blk : Option (Nat × Nat)) (deadline : Nat) :
    (s.backInvalidate line lid blk deadline).clockOf = s.clockOf := rfl

@[simp] theorem State.clockOf_rearrive (s : State) (p : Nat → Bool) : (s.rearrive p).clockOf = s.clockOf := rfl

@[simp] theorem State.clockOf_loanEnds (s : State) (m : Sample) : (s.loanEnds m).clockOf = s.clockOf := rfl

@[simp] theorem State.clockOf_newVersion (s : State) (line w : Nat) : (s.newVersion line w).clockOf = s.clockOf := rfl

@[simp] theorem State.clockOf_unpoison (s : State) (line : Nat) : (s.unpoison line).clockOf = s.clockOf := rfl

@[simp] theorem State.clockOf_csvevt (s : State) (i : Nat) : (s.csvevt i).clockOf = s.clockOf := rfl

@[simp] theorem State.clockOf_received (s : State) (core line version : Nat) :
    (s.received core line version).clockOf = s.clockOf := rfl

@[simp] theorem State.clockOf_ownWrites (s : State) (sid : Nat) (prov : List Prov) :
    (s.ownWrites sid prov).clockOf = s.clockOf :=
  State.clockOf_foldl _ (fun _ _ => State.clockOf_foldl _ (fun _ _ => State.clockOf_received ..) _ _) _ _

/-! ### Writes to memory -/

@[simp] theorem State.clockOf_underKey (s : State) (kid pa : Nat) : (s.underKey kid pa).clockOf = s.clockOf := by
  unfold State.underKey
  repeat' split
  all_goals rfl

@[simp] theorem State.clockOf_pokeByte (s : State) (kid pa w a : Nat) (v : Byte) :
    (s.pokeByte kid pa w a v).clockOf = s.clockOf := by
  unfold State.pokeByte
  split
  · rfl
  · exact State.clockOf_underKey ..

@[simp] theorem State.clockOf_pokeBytes (s : State) (kid pa w a : Nat) (bs : List Byte) :
    (s.pokeBytes kid pa w a bs).clockOf = s.clockOf := by
  induction bs generalizing s pa with
  | nil => rfl
  | cons b bs ih => exact (ih ..).trans (State.clockOf_pokeByte ..)

@[simp] theorem State.clockOf_noteDirty (s : State) (kid pa : Nat) : (s.noteDirty kid pa).clockOf = s.clockOf := by
  unfold State.noteDirty
  dsimp only
  repeat' split
  all_goals rfl

@[simp] theorem State.clockOf_poke (s : State) (kid pa w a : Nat) (bs : List Byte) :
    (s.poke kid pa w a bs).clockOf = s.clockOf := by simp [State.poke]

@[simp] theorem State.clockOf_markWrite (s : State) (a : Nat) (r : StackReq) : (s.markWrite a r).clockOf = s.clockOf := by
  refine State.clockOf_foldl _ (fun s j => ?_) _ _
  dsimp only
  split <;> rfl

@[simp] theorem State.clockOf_writeUnit (s : State) (a kid : Nat) (mask : BitVec 64) (data : List Byte) (f : StackFor) :
    (s.writeUnit a kid mask data f).clockOf = s.clockOf := State.clockOf_markWrite ..

@[simp] theorem State.clockOf_maskedUnit (s : State) (work : StackFor) (kid pa : Nat) (bs : List Byte) :
    (s.maskedUnit work kid pa bs).clockOf = s.clockOf := by
  unfold State.maskedUnit
  dsimp only
  split
  · rfl
  · split
    · split
      · exact State.clockOf_markWrite ..
      · exact State.clockOf_writeUnit ..
    · exact State.clockOf_writeUnit ..

@[simp] theorem State.clockOf_maskedWrite (s : State) (work : StackFor) (kid pa : Nat) (bs : List Byte) :
    (s.maskedWrite work kid pa bs).clockOf = s.clockOf :=
  State.clockOf_foldl _ (fun _ _ => State.clockOf_maskedUnit ..) _ _

@[simp] theorem State.clockOf_ownedBack (s : State) (work : StackFor) (line : Nat) (mask : BitVec 128) :
    (s.ownedBack work line mask).clockOf = s.clockOf := by
  unfold State.ownedBack
  split
  · rfl
  · refine State.clockOf_foldl _ (fun s j => ?_) _ _
    dsimp only
    split <;> simp

@[simp] theorem State.clockOf_recallNow (s : State) (line lid : Nat) : (s.recallNow line lid).clockOf = s.clockOf := by
  unfold State.recallNow
  extract_lets t u
  have ht : t.clockOf = s.clockOf := by dsimp only [t]; split <;> rfl
  split
  · exact ht
  · simp [u, ht]

@[simp] theorem State.clockOf_homeStore (s : State) (kid pa : Nat) (bs : List Byte) (lid : Nat) :
    (s.homeStore kid pa bs lid).1.clockOf = s.clockOf := by simp [State.homeStore]

@[simp] theorem State.clockOf_deviceAsk (s : State) (lines : List Nat) : (s.deviceAsk lines).clockOf = s.clockOf :=
  State.clockOf_foldl _ (fun _ _ => State.clockOf_send ..) _ _

@[simp] theorem State.clockOf_devicePut (s : State) (pa : Nat) (bs : List Byte) (kid : Nat) :
    (s.devicePut pa bs kid).clockOf = s.clockOf := by
  unfold State.devicePut
  split <;> simp

/-! ### What a tick does beside the clock -/

theorem State.clockOf_recall_of_deviceGate {s t : State} {line : Nat} (e : s.deviceGate line = .recall t) :
    t.clockOf = s.clockOf := by
  unfold State.deviceGate at e
  repeat' split at e
  all_goals cases e <;> rfl

@[simp] theorem State.clockOf_flushLog (s : State) (f : Nat) : (s.flushLog f).clockOf = s.clockOf := by
  unfold State.flushLog
  dsimp only
  split
  · rfl
  · rfl
  · split
    · rfl
    · split
      · rfl
      · rename_i e
        exact State.clockOf_recall_of_deviceGate e
      · simp

theorem State.clockOf_flushLogs (s : State) : s.flushLogs.clockOf = s.clockOf :=
  State.clockOf_foldl _ (fun _ _ => State.clockOf_foldl _ (fun _ _ => State.clockOf_flushLog ..) _ _) _ _

@[simp] theorem State.clockOf_commitProv (s : State) (work : StackFor) (ps : List Prov) :
    (s.commitProv work ps).clockOf = s.clockOf := by
  induction ps generalizing s with
  | nil => rfl
  | cons p ps ih =>
    unfold State.commitProv
    extract_lets t u
    have hu : u.clockOf = s.clockOf := by dsimp only [u, t]; split <;> simp
    rw [ih]
    split
    · exact hu
    · simp [hu]

@[simp] theorem State.clockOf_releaseSample (s : State) (sid : Nat) (evt : Option Nat) :
    (s.releaseSample sid evt).clockOf = s.clockOf := by
  unfold State.releaseSample
  split
  · rfl
  · rename_i m _
    split
    · rfl
    · extract_lets t u
      have ht : t.clockOf = s.clockOf := by simp [t]
      have hu : u.clockOf = t.clockOf := by dsimp only [u]; split <;> rfl
      exact hu.trans ht

theorem State.clockOf_versionTrim (s : State) : s.versionTrim.clockOf = s.clockOf := by
  unfold State.versionTrim
  dsimp only
  split
  · rfl
  · split
    · rfl
    · split
      · rfl
      · split
        · rfl
        · exact State.clockOf_releaseSample ..

@[simp] theorem State.clockOf_putLines (s : State) (kid pa : Nat) (bs : List Byte) :
    (s.putLines kid pa bs).clockOf = s.clockOf := State.clockOf_foldl _ (fun _ _ => State.clockOf_devicePut ..) _ _

theorem State.clockOf_saveBlock (s : State) (k : Nat) : (s.saveBlock k).clockOf = s.clockOf := by
  unfold State.saveBlock
  repeat' split
  all_goals simp

theorem State.clockOf_saveBlocks (s : State) : s.saveBlocks.clockOf = s.clockOf :=
  State.clockOf_foldl _ State.clockOf_saveBlock _ _

/-- A tick leaves the power and the clock that `State.clock` gives. -/
theorem State.clockOf_tick (s : State) (n : Nat) (lead : List Nat) : (s.tick n lead).clockOf = (s.clock n lead).clockOf := by
  unfold State.tick
  rw [State.clockOf_saveBlocks, State.clockOf_versionTrim, State.clockOf_flushLogs]

theorem State.power_tick (s : State) (n : Nat) (lead : List Nat) : (s.tick n lead).power = s.power := by
  rw [(State.clockOf_eq_iff.1 (State.clockOf_tick ..)).1]
  unfold State.clock
  split <;> rfl

theorem State.time_tick {s : State} (hp : s.power = .running) (n : Nat) (lead : List Nat) :
    (s.tick n lead).time = (s.time + n) % 2 ^ 64 := by
  rw [(State.clockOf_eq_iff.1 (State.clockOf_tick ..)).2.1, State.clock, if_pos hp]

theorem State.skew_tick {s : State} (hp : s.power = .running) (n : Nat) (lead : List Nat) :
    (s.tick n lead).skew = if s.leadOk n lead then lead else s.skew := by
  rw [(State.clockOf_eq_iff.1 (State.clockOf_tick ..)).2.2, State.clock, if_pos hp]

/-! ### The bounds of R10 -/

theorem State.leadOk_iff {s : State} {n : Nat} {lead : List Nat} : s.leadOk n lead = true ↔
    lead.length = 6 ∧ (∀ d ∈ lead, d ≤ 2) ∧ ∀ d, d < 6 → s.skew.getD d 0 ≤ n + lead.getD d 0 := by
  simp [State.leadOk, and_assoc]

theorem State.skew_tick_le {s : State} (hp : s.power = .running) (n : Nat) (lead : List Nat) (hs : ∀ d ∈ s.skew, d ≤ 2) :
    ∀ d ∈ (s.tick n lead).skew, d ≤ 2 := by
  rw [State.skew_tick hp]
  split
  · rename_i hl
    exact (State.leadOk_iff.1 hl).2.1
  · exact hs

/-! ### Steps of the schedule -/

theorem step_of_event {s : State} {rest : List Turn} {ticks : Nat} {lead : List Nat} {i : Instr}
    (ha : s.agenda = ⟨ticks, .event i, lead⟩ :: rest) (hi : i.isProgram = false) (hp : s.power.admits i = true) :
    step s = exec i ({ s with agenda := rest }.tick ticks lead) := by
  have hh : i.hdr?.isSome = false := hi
  have hq : ({ s with agenda := rest }.tick ticks lead).power.admits i = true := by
    rw [State.power_tick]
    exact hp
  unfold step
  rw [ha]
  simp [State.turn, hh, hq]

theorem step_of_idle {s : State} (ha : s.agenda = []) (hp : s.power = .running) : step s = (s.tick 1).freeTurn := by
  unfold step
  rw [ha]
  exact if_pos hp

theorem State.readyBands_of_pickCoreNow {s : State} {c : Nat} {ready : List (Nat × Nat)}
    (e : s.pickCoreNow = some (c, ready)) : ready = s.readyBands c := by
  obtain ⟨d, _, hd⟩ := List.exists_of_findSome?_eq_some e
  dsimp only at hd
  split at hd
  · cases hd
  · cases hd
    rfl

theorem State.freeTurn_of_doWork {s t : State} (e : s.doWork = some t) : s.freeTurn = .next t := by
  simp [State.freeTurn, e]

theorem State.freeTurn_of_pickCoreNow {s : State} {c : Nat} {ready : List (Nat × Nat)} (hw : s.doWork = none)
    (e : s.pickCoreNow = some (c, ready)) : s.freeTurn = s.coreStep c := by
  simp [State.freeTurn, State.coreStep, hw, e, ← State.readyBands_of_pickCoreNow e]

/-- Settles O5: an event and the default schedule by the branches of `step`; time and leads by the clock of a tick, as what a
tick does beside leaves both alone. -/
theorem stepRunsEvents : Obligations.StepRunsEvents := by
  unfold Obligations.StepRunsEvents
  refine ⟨fun s rest ticks lead i => step_of_event, fun s ha hp => ?_, fun s n lead hp ht => ?_⟩
  · rw [step_of_idle ha hp]
    exact ⟨fun t => State.freeTurn_of_doWork, fun c ready => State.freeTurn_of_pickCoreNow⟩
  · have htime : (s.tick n lead).time = s.time + n := by rw [State.time_tick hp, Nat.mod_eq_of_lt ht]
    refine ⟨htime, State.skew_tick_le hp n lead, fun hl => ?_⟩
    have hskew : (s.tick n lead).skew = lead := by rw [State.skew_tick hp, if_pos hl]
    obtain ⟨-, -, hd⟩ := State.leadOk_iff.1 hl
    refine ⟨hskew, fun d h6 => ?_⟩
    have hlead := hd d h6
    rw [htime, hskew]
    omega

end Sys2Proof.Machine

/-! # Preparing an issue

What `prep` answers for a band that can issue: a decode trap, or the ports and then the issue (R68, R32 to R36). -/

namespace Sys2Proof.Machine

open Sys2Proof

/-! ### A program instruction runs behind its preparation -/

/-- Every program instruction is prepared first, and acts on the issue that comes of it. -/
theorem exec_eq_runO {i : Instr} {h : Hdr} (hi : i.hdr? = some h) (s : State) : ∃ f, exec i s = runO i s f := by
  cases i <;> cases hi <;> unfold exec <;> exact ⟨_, rfl⟩

theorem exec_of_prep_out {i : Instr} {h : Hdr} (hi : i.hdr? = some h) {s t : State} (e : prep i s = .out t) :
    exec i s = .next t := by
  obtain ⟨f, hf⟩ := exec_eq_runO hi s
  rw [hf, runO, e]

/-! ### The choice of lanes -/

/-- A band that can issue stands on the current block, and `x` is the band after the choice `ch` of R172. -/
structure Chosen (s : State) (b : Block) (x : Band) (ch : Choice) (b' : Block) (x' : Band) : Prop where
  blk : s.blk s.curBlock = some b
  band : b.band s.curBand = some x
  running : b.st = .running
  going : x.halted = false
  choice : x.choose = some ch
  cleared : x' = x.cleared ch
  put : b' = b.setBand s.curBand x'

theorem Chosen.prep_eq {i : Instr} {s : State} {h : Hdr} {b b' : Block} {x x' : Band} {ch : Choice} (c : Chosen s b x ch b' x')
    (hi : i.hdr? = some h) :
    prep i s = (s.setBlk s.curBlock b').prepAt s.curBlock s.curBand b' x' h i ch := by
  obtain ⟨hb, hx, hr, hg, hc, rfl, rfl⟩ := c
  have hst : ¬ (b.st != .running || x.halted) = true := by simp [hr, hg]
  unfold prep
  rw [hi, hb]
  dsimp only
  rw [hx]
  dsimp only
  rw [if_neg hst, hc]
  rfl

theorem Chosen.die {s : State} {b b' : Block} {x x' : Band} {ch : Choice} (c : Chosen s b x ch b' x') : b'.die = b.die := by
  rw [c.put]
  rfl

/-! ### Decode traps -/

theorem State.beyond_setBlk (s : State) (k : Nat) (b' b : Block) : (s.setBlk k b').beyond b = s.beyond b := rfl

theorem Chosen.exec_trap {i : Instr} {s : State} {h : Hdr} {b b' : Block} {x x' : Band} {ch : Choice}
    (c : Chosen s b x ch b' x')
    (hi : i.hdr? = some h) {t : Trap} (e : (s.setBlk s.curBlock b').decodeChecks b' x' h i (lowest ch.active) = .trap t) :
    exec i s = .next ((s.setBlk s.curBlock b').syncTrap s.curBlock s.curBand t ch.pc ch.active) :=
  exec_of_prep_out hi (by rw [c.prep_eq hi, State.prepAt, e])

theorem Chosen.exec_migr {i : Instr} {s : State} {h : Hdr} {b b' : Block} {x x' : Band} {ch : Choice}
    (c : Chosen s b x ch b' x')
    (hi : i.hdr? = some h) (e : (s.setBlk s.curBlock b').decodeChecks b' x' h i (lowest ch.active) = .migr) :
    exec i s = .next ((s.setBlk s.curBlock b').migrate s.curBlock s.curBand (onlyA i)
      { cls := .migr, lane := lowest ch.active }) :=
  exec_of_prep_out hi (by rw [c.prep_eq hi, State.prepAt, e])

theorem privTrap_of_privileged {i : Instr} (hp : privileged i = true) :
    privTrap i false = some { cls := .illop, cause := 1 } := by
  unfold privTrap
  rw [hp]
  rfl

/-- The checks of R68 from order 5 on, where the mode admits the instruction and its profile is the core's. -/
theorem State.decodeChecks_of_mode (s : State) {b : Block} {x : Band} {h : Hdr} {i : Instr} (lane : Nat)
    (hm : privTrap i x.inh = none) (ha : onlyA i = true → isAnnex b.die = true) (hg : onlyG i = true → isAnnex b.die = false) :
    s.decodeChecks b x h i lane =
      match (operandsG i).find? (Opnd.misaligned b) with
      | some o => .trap { cls := .illop, opnd := o.pos, lane := lane }
      | none =>
        match (operandsG i).find? (s.beyond b) with
        | some o => .trap { cls := .regidx, opnd := o.pos, lane := lane }
        | none =>
          if x.schk && !x.stallSkip then
            match undersized b x h i with
            | some t => .trap { t with lane := lane }
            | none => .ok
          else .ok := by
  have hp : ((onlyA i && !isAnnex b.die) || (onlyG i && isAnnex b.die)) = false := by
    cases hA : onlyA i <;> cases hG : onlyG i <;> simp_all
  unfold State.decodeChecks
  rw [hm]
  exact if_neg (by simp [hp])

theorem cls_undersized {b : Block} {x : Band} {h : Hdr} {i : Instr} {e : Trap} (hu : undersized b x h i = some e) :
    e.cls = .stall := by
  unfold undersized at hu
  dsimp only at hu
  split at hu
  · cases hu; rfl
  · split at hu
    · cases hu; rfl
    · cases hu

theorem State.decodeChecks_migr (s : State) {b : Block} {x : Band} {h : Hdr} {i : Instr} (lane : Nat)
    (hm : privTrap i x.inh = none)
    (hp : onlyA i = true ∧ isAnnex b.die = false ∨ onlyG i = true ∧ isAnnex b.die = true) :
    s.decodeChecks b x h i lane = .migr := by
  unfold State.decodeChecks
  rw [hm]
  obtain ⟨ha, hd⟩ | ⟨hg, hd⟩ := hp <;> simp_all

/-- Settles O7: `decodeChecks` finds the traps in the order of R68, and what it finds is what the issue comes to. -/
theorem decodeTraps : Obligations.DecodeTraps := by
  unfold Obligations.DecodeTraps
  refine ⟨fun i s h b x ch hp hi hb hx hr hg hinh hc => ?_, fun i s h b x x' b' ch hi hb hx hr hg hc hx' hb' hm => ?_⟩
  · have c : Chosen s b x ch (b.setBand s.curBand (x.cleared ch)) (x.cleared ch) := ⟨hb, hx, hr, hg, hc, rfl, rfl⟩
    have hinh' : (x.cleared ch).inh = false := by rw [← hinh]; unfold Band.cleared; split <;> rfl
    refine c.exec_trap hi ?_
    rw [State.decodeChecks, hinh', privTrap_of_privileged hp]
  · have c : Chosen s b x ch b' x' := ⟨hb, hx, hr, hg, hc, hx', hb'⟩
    rw [← c.die]
    dsimp only
    refine ⟨fun hp => c.exec_migr hi (State.decodeChecks_migr _ _ hm hp),
      fun ha hG => ⟨fun o ho => ?_, fun hal => ⟨fun o ho => ?_, ?_⟩⟩⟩
    · exact c.exec_trap hi (by rw [State.decodeChecks_of_mode _ _ hm ha hG, ho])
    · exact c.exec_trap hi (by
        rw [State.decodeChecks_of_mode _ _ hm ha hG, List.find?_eq_none.2 (by simpa using hal), ho])
    · intro hin hs hk e he
      refine ⟨c.exec_trap hi ?_, cls_undersized he⟩
      rw [State.decodeChecks_of_mode _ _ hm ha hG, List.find?_eq_none.2 (by simpa using hal),
        List.find?_eq_none.2 (by simpa [State.beyond_setBlk] using hin), he]
      simp [hs, hk]

/-! ### Reaching the ports -/

theorem MayIssue.chosen {i : Instr} {s : State} {h : Hdr} {b : Block} {x : Band} {ch : Choice} (m : MayIssue i s h b x ch) :
    ∃ b₀ x₀, Chosen s b₀ x₀ ch b x := by
  obtain ⟨b₀, x₀, hb, hx, hr, hg, hc, rfl, rfl⟩ := m.here
  exact ⟨b₀, x₀, hb, hx, hr, hg, hc, rfl, rfl⟩

theorem MayIssue.decodes {i : Instr} {s : State} {h : Hdr} {b : Block} {x : Band} {ch : Choice} (m : MayIssue i s h b x ch)
    (lane : Nat) : (s.setBlk s.curBlock b).decodeChecks b x h i lane = .ok := by
  rw [State.decodeChecks_of_mode _ _ m.mode m.profile.1 m.profile.2, List.find?_eq_none.2 (by simpa using m.aligned),
    List.find?_eq_none.2 (by simpa [State.beyond_setBlk] using m.inRange)]
  dsimp only
  split
  · rename_i hs
    rw [m.timed (by simp_all) (by simp_all)]
  · rfl

/-- No wait of R35, R49, R245, R343 or R345 holds the instruction. -/
theorem MayIssue.goesOn {i : Instr} {s : State} {h : Hdr} {b : Block} {x : Band} {ch : Choice} (m : MayIssue i s h b x ch) :
    ¬ (((pushPort b i).isSome && counterMax ≤ x.pushesOut.length) || x.mustWait b h i || x.holding ch
      || x.copyHeld (namedRegs b i)) = true := by
  obtain hp | hp := m.room <;> simp [m.noWait, m.noHold, m.noCopy, hp]

/-- An instruction whose waits are over meets the traps of its pops next. -/
theorem MayIssue.prep_popTrap {i : Instr} {s : State} {h : Hdr} {b : Block} {x : Band} {ch : Choice} (m : MayIssue i s h b x ch)
    {t : Trap} (hp : (s.setBlk s.curBlock b).popAll s.curBlock s.curBand b x (((x.held ch.pc ch.active).map Hold.got).getD [])
      (x.guarded h ch.active) (lowest ch.active) (popPorts b i) = .trap t) :
    prep i s = .out ((s.setBlk s.curBlock b).popTrap s.curBlock s.curBand b x t ch) := by
  obtain ⟨_, _, c⟩ := m.chosen
  rw [c.prep_eq m.hdr, State.prepAt, m.decodes]
  dsimp only
  rw [if_neg m.goesOn, hp]

/-- The issue of an instruction that pops no port. -/
def Choice.issue (ch : Choice) (s : State) (b : Block) (x : Band) (h : Hdr) (i : Instr) : Iss where
  s := s.setBlk s.curBlock b
  k := s.curBlock
  n := s.curBand
  b := b
  x := (x.raise 0).seen 0
  pc := ch.pc
  act := ch.active
  ex := x.guarded h ch.active
  pops := []
  slow := x.ilk || (undersized b x h i).isSome

theorem Band.raise_zero (x : Band) : x.raise 0 = x := by simp [Band.raise, orConds]

theorem modAll_nil {α : Type} (l : List α) (f : Nat → α → α) : modAll l [] f = l := by
  apply List.ext_getElem?
  simp [modAll]

theorem CanIssue.issues {i : Instr} {s : State} {h : Hdr} {b : Block} {x : Band} {ch : Choice} (m : CanIssue i s h b x ch) :
    Issues i s (ch.issue s b x h i) := by
  obtain ⟨_, _, c⟩ := m.chosen
  unfold Issues
  rw [c.prep_eq m.hdr, State.prepAt, m.decodes]
  dsimp only
  rw [if_neg m.goesOn, m.noPop]
  dsimp only [State.popAll]
  rw [m.toMemory]
  simp only [List.map_nil, modAll_nil]
  rfl

/-! ### The lanes of R172 -/

/-- The least of a first program counter and those of lanes: a bound of all, and one of them. -/
theorem Band.foldl_minPc (x : Band) (ls : List Nat) (m : DWord) :
    let r := ls.foldl (fun m k => if (x.lane k).pc < m then (x.lane k).pc else m) m
    r ≤ m ∧ (∀ l ∈ ls, r ≤ (x.lane l).pc) ∧ (r = m ∨ ∃ l ∈ ls, (x.lane l).pc = r) := by
  induction ls generalizing m with
  | nil => simp
  | cons a ls ih =>
    simp only [List.foldl_cons, List.mem_cons, forall_eq_or_imp, exists_eq_or_imp]
    by_cases hlt : (x.lane a).pc < m
    · rw [if_pos hlt]
      obtain ⟨hm, hle, hat⟩ := ih (x.lane a).pc
      exact ⟨by bv_omega, ⟨hm, hle⟩, .inr (hat.imp_left Eq.symm)⟩
    · rw [if_neg hlt]
      obtain ⟨hm, hle, hat⟩ := ih m
      exact ⟨hm, ⟨by bv_omega, hle⟩, hat.imp_right .inr⟩

theorem Band.minPc_le (x : Band) {ls : List Nat} {l : Nat} (h : l ∈ ls) : x.minPc ls ≤ (x.lane l).pc := by
  cases ls with
  | nil => cases h
  | cons a ls =>
    obtain ⟨hm, hle, -⟩ := x.foldl_minPc ls (x.lane a).pc
    obtain rfl | h := List.mem_cons.1 h
    · exact hm
    · exact hle l h

theorem Band.exists_minPc (x : Band) {ls : List Nat} (h : ls ≠ []) : ∃ l ∈ ls, (x.lane l).pc = x.minPc ls := by
  cases ls with
  | nil => exact absurd rfl h
  | cons a ls =>
    obtain ⟨-, -, he | ⟨l, hl, he⟩⟩ := x.foldl_minPc ls (x.lane a).pc
    · exact ⟨a, List.mem_cons_self, he.symm⟩
    · exact ⟨l, List.mem_cons_of_mem a hl, he⟩

theorem Band.choose_eq_some {x : Band} {ch : Choice} (h : x.choose = some ch) :
    x.pool ≠ [] ∧ ch.pc = x.minPc x.pool ∧ ch.active = x.pool.filter fun l => (x.lane l).pc = x.minPc x.pool := by
  unfold Band.choose at h
  split at h
  · cases h
  · rename_i hp
    cases h
    exact ⟨fun e => hp (by simp [e]), rfl, rfl⟩

theorem Band.mem_readyLanes {x : Band} {l : Nat} (h : l ∈ x.readyLanes) :
    (x.lane l).st = .ready ∧ (x.inh = true → x.tmask.getLsbD l = true) := by
  simp only [Band.readyLanes, Band.pick, List.mem_filter, Bool.or_eq_true, Bool.not_eq_true', beq_iff_eq] at h
  exact ⟨h.1.2, fun hi => h.2.resolve_left (by simp [hi])⟩

/-- Settles O6: with no trap and no wait `prep` comes to the issue, and the pool's lanes at its lowest program counter, of which
there is one, are the active ones. -/
theorem readyInstructionIssues : Obligations.ReadyInstructionIssues := by
  unfold Obligations.ReadyInstructionIssues
  refine ⟨fun i s h b x ch m => ⟨_, m.issues, rfl, rfl, rfl, rfl, rfl, rfl, rfl, rfl, ?_, rfl, rfl⟩, fun x ch hc => ?_⟩
  · exact (congrArg Band.fstat x.raise_zero :)
  · obtain ⟨hp, hpc, hact⟩ := Band.choose_eq_some hc
    rw [hpc, hact]
    refine ⟨fun l => by simp [List.mem_filter], fun l => x.minPc_le, fun l hl => Band.mem_readyLanes (x.pool_ready hl), ?_⟩
    obtain ⟨l, hl, he⟩ := x.exists_minPc hp
    exact List.ne_nil_of_mem (List.mem_filter.2 ⟨hl, decide_eq_true he⟩)

end Sys2Proof.Machine

/-! # Results of an issue

The lanes, registers and flags of a band through the effects that an issue has outside them (stores, pushes, requests), and
with that what completing an issue with results comes to. -/

namespace Sys2Proof.Machine

open Sys2Proof

/-! ### What leaves the blocks alone -/

@[simp] theorem State.blocks_pokeByte (s : State) (kid pa w a : Nat) (v : Byte) :
    (s.pokeByte kid pa w a v).blocks = s.blocks := by
  unfold State.pokeByte State.underKey
  repeat' split
  all_goals rfl

@[simp] theorem State.blocks_pokeBytes (s : State) (kid pa w a : Nat) (bs : List Byte) :
    (s.pokeBytes kid pa w a bs).blocks = s.blocks := by
  induction bs generalizing s pa with
  | nil => rfl
  | cons b bs ih => rw [State.pokeBytes, ih, State.blocks_pokeByte]

@[simp] theorem State.blocks_noteDirty (s : State) (kid pa : Nat) : (s.noteDirty kid pa).blocks = s.blocks := by
  unfold State.noteDirty
  split
  · rfl
  · dsimp only
    split <;> rfl

@[simp] theorem State.blocks_poke (s : State) (kid pa w a : Nat) (bs : List Byte) :
    (s.poke kid pa w a bs).blocks = s.blocks := by
  rw [State.poke, State.newVersion, State.setHome_blocks, State.blocks_noteDirty, State.blocks_pokeBytes]

@[simp] theorem State.blocks_send (s : State) (src dest : Router) (c : PktCls) (lid : Nat) (blk : Option (Nat × Nat)) (m : Msg) :
    (s.send src dest c lid blk m).blocks = s.blocks := rfl

@[simp] theorem State.blocks_scSend (s : State) (core : Nat) (a : ScAcc) : (s.scSend core a).blocks = s.blocks := by
  unfold State.scSend
  dsimp only
  split <;> rfl

theorem State.SentMore.blocks_eq {s t : State} (h : s.SentMore t) : t.blocks = s.blocks := by
  obtain ⟨_, _, _, rfl⟩ := h
  rfl

/-- A fold leaves the blocks alone when each of its steps does. -/
theorem State.blocks_foldl {α : Type} (f : State → α → State) (hf : ∀ s a, (f s a).blocks = s.blocks) (l : List α) (s : State) :
    (l.foldl f s).blocks = s.blocks := by
  induction l generalizing s with
  | nil => rfl
  | cons a l ih => rw [List.foldl_cons, ih, hf]

/-! ### What leaves a band's lanes and registers alone -/

/-- The parts of a band that an effect outside its lanes leaves alone: lanes, uniform registers, flags, special registers. -/
def Band.front (x : Band) : List Lane × List Word × Word × (Word × Word × DWord × DWord × LaneSet × List Word × Word × Word ×
    Word × List LaneSet) := (x.lanes, x.uregs, x.fstat, x.special)

theorem Band.front_eq_iff {x z : Band} : z.front = x.front ↔
    z.lanes = x.lanes ∧ z.uregs = x.uregs ∧ z.fstat = x.fstat ∧ z.special = x.special := by
  simp only [Band.front, Prod.mk.injEq]

/-- Band n of block k keeps its front, and no other block changes. -/
structure State.Calm (k n : Nat) (s t : State) : Prop where
  others : ∀ j, j ≠ k → t.blk j = s.blk j
  band : ∀ b x, s.blk k = some b → b.band n = some x → ∃ b' x', t.blk k = some b' ∧ b'.band n = some x' ∧ x'.front = x.front

theorem State.Calm.of_blocks {k n : Nat} {s t : State} (h : t.blocks = s.blocks) : State.Calm k n s t where
  others := fun j _ => congrArg (tget · j) h
  band := fun b x hb hx => ⟨b, x, (congrArg (tget · k) h).trans hb, hx, rfl⟩

theorem State.Calm.rfl' (k n : Nat) (s : State) : State.Calm k n s s := .of_blocks rfl

theorem State.Calm.trans {k n : Nat} {s t u : State} (h : State.Calm k n s t) (h' : State.Calm k n t u) :
    State.Calm k n s u where
  others := fun j hj => (h'.others j hj).trans (h.others j hj)
  band := fun b x hb hx => by
    obtain ⟨b', x', hb', hx', e⟩ := h.band b x hb hx
    obtain ⟨b'', x'', hb'', hx'', e'⟩ := h'.band b' x' hb' hx'
    exact ⟨b'', x'', hb'', hx'', e'.trans e⟩

theorem State.Calm.foldl {α : Type} {k n : Nat} (f : State → α → State) (hf : ∀ s a, State.Calm k n s (f s a)) (l : List α)
    (s : State) : State.Calm k n s (l.foldl f s) := by
  induction l generalizing s with
  | nil => exact .rfl' k n s
  | cons a l ih => exact (hf s a).trans (ih _)

theorem State.calm_modBand (s : State) (k n : Nat) {f : Band → Band} (hf : ∀ x, (f x).front = x.front) :
    State.Calm k n s (s.modBand k n f) where
  others := fun _ hj => State.blk_modBand_ne s n f hj
  band := fun b x hb hx => ⟨b.modBand n f, f x, by rw [State.blk_modBand, hb]; rfl,
    by rw [Block.band_modBand, if_pos rfl, hx]; rfl, hf x⟩

/-- A block is put back with the same bands. -/
theorem State.calm_setBlk {s : State} {k : Nat} (n : Nat) {b c : Block} (hb : s.blk k = some b) (hc : c.bands = b.bands) :
    State.Calm k n s (s.setBlk k c) where
  others := fun _ hj => State.blk_setBlk_ne s c hj
  band := fun b' x hb' hx => by
    obtain rfl := Option.some.inj (hb.symm.trans hb')
    exact ⟨c, x, State.blk_setBlk .., by rw [Block.band, hc]; exact hx, rfl⟩

theorem Band.front_stored (x : Band) (push : Option Nat) (w : Nat) : (x.stored push w).front = x.front := by
  unfold Band.stored
  split <;> rfl

theorem Block.bands_signWrite (b : Block) (n kind addr : Nat) (bs : List Byte) (seq : Nat) :
    (b.signWrite n kind addr bs seq).bands = b.bands := by
  unfold Block.signWrite
  split <;> rfl

theorem State.calm_storeHere (s : State) (k n kind seq : Nat) (unc clr : Bool) (push : Option Nat) (a : StorePart) :
    State.Calm k n s (s.storeHere k n kind seq unc clr push a) := by
  unfold State.storeHere
  split
  · exact .rfl' k n s
  · rename_i b hb
    extract_lets b' t w u samples t' line u₁ u₂ v u₃
    have hu : State.Calm k n s u := s.calm_setBlk n hb (by
      dsimp only [b']
      split <;> simp only [Block.bands_signWrite])
    split
    · exact hu
    · split
      · have hs : State.Calm k n u samples := .of_blocks rfl
        exact hu.trans (hs.trans (State.calm_modBand samples k n fun x => x.front_stored push w))
      · have h₂ : State.Calm k n u u₂ := .of_blocks (by dsimp only [u₂]; split <;> simp [u₁, State.unpoison])
        have h₃ : State.Calm k n u₂ u₃ := .of_blocks rfl
        exact hu.trans (h₂.trans (h₃.trans (State.calm_modBand u₃ k n fun x => x.front_stored push t')))

theorem State.calm_storeLine (s : State) (k n : Nat) (unc clr : Bool) (push : Option Nat) (line : Nat) (as : List StorePart) :
    State.Calm k n s (s.storeLine k n unc clr push line as) := by
  unfold State.storeLine
  split
  · extract_lets id parts m c c₁ c₂ t u
    have hu : State.Calm k n s u := .of_blocks (by dsimp only [u]; split <;> simp [t])
    split
    · exact hu
    · exact hu.trans (State.calm_modBand _ k n fun _ => rfl)
  · exact .rfl' k n s

theorem State.calm_storeAll (s : State) (k n kind seq : Nat) (unc : Bool) (clr : Nat → Bool) (push : Option Nat)
    (as : List StorePart) : State.Calm k n s (s.storeAll k n kind seq unc clr push as) := by
  unfold State.storeAll
  split
  · exact .rfl' k n s
  · extract_lets as' far t u
    have ht : State.Calm k n s t := .foldl _ (fun _ _ => State.calm_storeHere ..) _ _
    have hu : State.Calm k n t u := by
      dsimp only [u]
      split
      · exact .of_blocks (State.sent_engineAsk ..).blocks_eq
      · exact .rfl' k n t
    exact ht.trans (hu.trans (.foldl _ (fun _ _ => State.calm_storeLine ..) _ _))

theorem State.calm_doPush (s : State) (k n port : Nat) (es : List PushAt) (vals : List (Nat × Word)) :
    State.Calm k n s (s.doPush k n port es vals) := by
  unfold State.doPush
  extract_lets id t u v
  have ht : State.Calm k n s t := .of_blocks rfl
  have hu : State.Calm k n s u := ht.trans (State.calm_modBand t k n fun _ => rfl)
  have hv : State.Calm k n u v := State.calm_storeAll ..
  split
  · exact hu.trans hv
  · exact hu.trans (hv.trans (State.calm_modBand v k n fun _ => rfl))

/-! ### Completing an issue with results -/

theorem Iss.Goes.bandIn {y : Iss} {u t : State} {next : Nat → DWord} {c : Block} {z : Band} (g : y.Goes u t next)
    (hc : u.blk y.k = some c) (hz : c.band y.n = some z) :
    (∀ l, y.laneIn t l = if y.act.contains l then
      { z.lane l with pc := next l, yieldMark := (y.laneIn t l).yieldMark } else z.lane l) ∧
    (y.bandIn t).uregs = z.uregs ∧ (y.bandIn t).fstat = z.fstat ∧ (y.bandIn t).special = z.special ∧
    (∀ m, m ≠ y.n → ((t.blk y.k).bind fun b => b.band m) = c.band m) ∧
    ∃ b', t.blk y.k = some b' ∧ { b' with bands := c.bands, st := c.st } = c := by
  obtain ⟨b, b', x, x', hb, hb', hrest, hoth, hx, hx', hlane, he⟩ := g.own
  obtain rfl := Option.some.inj (hb.symm.trans hc)
  obtain rfl := Option.some.inj (hx.symm.trans hz)
  have hin : y.bandIn t = x' := by simp [Iss.bandIn, hb', hx']
  refine ⟨fun l => ?_, ?_, ?_, ?_, fun m hm => ?_, b', hb', hrest⟩
  · rw [Iss.laneIn, hin]
    exact hlane l
  · rw [hin, he]
  · rw [hin, he]
  · rw [hin, he]
    rfl
  · rw [hb', Option.bind_some, hoth m hm]

/-- The block and band that the writes of lanes leave: the band's own, but for the counts of a sampled block. -/
theorem Iss.Good.putOuts_band {y : Iss} {s : State} (g : y.Good s) (outs : List (Nat × Out)) :
    ∃ c z, (y.putOuts outs).blk y.k = some c ∧ c.band y.n = some z ∧ z.front = (y.x.put y.b outs).front ∧
      (∀ m, m ≠ y.n → c.band m = y.b.band m) ∧ { c with bands := y.b.bands, sig := y.b.sig } = y.b := by
  obtain ⟨x₀, hx₀, -⟩ := g.band
  have sg := Block.signed_signOuts (y.b.setBand y.n (y.x.put y.b outs)) y.n outs
  have hb := sg.band
  rw [Block.band_setBand_self y.b _ x₀ hx₀] at hb
  obtain ⟨z, hz, he⟩ := Option.map_eq_some_iff.1 hb
  refine ⟨_, z, State.blk_setBlk .., hz, (congrArg Band.front he :), fun m hm => ?_, ?_⟩
  · rw [sg.others m hm, Block.band_setBand_ne _ _ hm]
  · exact (congrArg (fun v : Block => { v with bands := y.b.bands, sig := y.b.sig }) sg.rest :)

theorem Iss.Good.goes {y : Iss} {s u : State} (g : y.Good s) {i : Instr} {h : Hdr} (hi : i.hdr? = some h)
    (jumps : List (Nat × DWord)) {c : Block} {z : Band} (hc : u.blk y.k = some c) (hz : c.band y.n = some z)
    (hl : z.lanes.length = y.x.lanes.length) : y.Goes u (y.finish u i jumps) (y.goOn i jumps) :=
  y.finish_goes jumps hi hc hz fun l hm => hl ▸ g.lt l hm

/-- Completing with the writes of the executing lanes, for any record of an issue. -/
theorem Iss.Good.wrote {y : Iss} {s : State} (g : y.Good s) {i : Instr} {h : Hdr} (hi : i.hdr? = some h) (val : Nat → Out)
    (jumps : List (Nat × DWord)) :
    y.Wrote (y.finish (y.putOuts (y.ex.map fun l => (l, val l))) i jumps) val (y.goOn i jumps) := by
  obtain ⟨c, z, hc, hz, hfront, hbands, hblock⟩ := g.putOuts_band (y.ex.map fun l => (l, val l))
  obtain ⟨hlen, hex, hout, hu, hf, hs⟩ := Band.put_spec y.x y.b y.ex val
  obtain ⟨hzl, hzu, hzf, hzs⟩ := Band.front_eq_iff.1 hfront
  have hlane (l : Nat) : z.lane l = (y.x.put y.b (y.ex.map fun l => (l, val l))).lane l := by rw [Band.lane, hzl, Band.lane]
  have hgo := g.goes hi jumps hc hz (by rw [hzl, hlen])
  obtain ⟨hl, hu', hf', hs', hb', b', hbt, hrest⟩ := hgo.bandIn hc hz
  have hlt : ∀ l ∈ y.ex, l < y.x.lanes.length := fun l hm => g.lt l (g.exAct l hm)
  have hin : ∀ l ∈ y.ex, z.lane l = (y.x.lane l).put y.b (val l) := fun l hm => by rw [hlane, hex l hm (hlt l hm)]
  have hoff : ∀ l, l ∉ y.ex → z.lane l = y.x.lane l := fun l hm => by rw [hlane, hout l hm]
  constructor
  case regs =>
    intro l hm r hr hp
    obtain ⟨-, -, -, hv, -⟩ := Lane.put_spec (y.x.lane l) y.b (val l)
    rw [← hv r hr hp, ← hin l hm, hl l]
    split <;> rfl
  case preds =>
    intro l hm k hk
    obtain ⟨-, -, -, -, hp⟩ := Lane.put_spec (y.x.lane l) y.b (val l)
    rw [← hp k hk, ← hin l hm, hl l]
    split <;> rfl
  case idle =>
    intro l hm
    rw [← hoff l hm, hl l]
    split <;> exact ⟨rfl, rfl⟩
  case goes =>
    intro l hm
    rw [hl l, if_pos (by simpa using hm)]
  case still =>
    intro l hm
    rw [hl l, if_neg (by simpa using hm), hoff l fun he => hm (g.exAct l he)]
  case states =>
    intro l
    have hst : (z.lane l).st = (y.x.lane l).st := by
      by_cases hm : l ∈ y.ex
      · rw [hin l hm]
        exact (Lane.put_spec ..).2.1
      · rw [hoff l hm]
    rw [← hst, hl l]
    split <;> rfl
  case uregs =>
    intro r hr
    rw [← hu r hr, Band.u, Band.u, hu', hzu]
  case fstat => rw [hf', hzf, hf]
  case special => rw [hs', hzs, hs]
  case bands =>
    intro m hm
    rw [hb' m hm, hbands m hm, g.blk]
    rfl
  case block =>
    refine ⟨b', hbt, ?_⟩
    rw [← hblock, ← hrest]
  case blocks => exact fun k hk => (hgo.others k hk).trans (State.blk_setBlk_ne _ _ hk)
  case shell => exact (State.sameShell_setBlk ..).trans hgo.shell

/-- An instruction that commits what `val` gives its lanes writes it, or pushes it. -/
theorem Iss.Good.writes {y : Iss} {s : State} (g : y.Good s) {i : Instr} {h : Hdr} (hi : i.hdr? = some h) {val : Nat → Out}
    (e : exec i s = .next (y.commit i (y.ex.map fun l => (l, val l)))) : Writes i s y val := by
  rw [Iss.commit] at e
  refine ⟨fun hp => ?_, fun port hp => ?_⟩
  · rw [hp] at e
    exact ⟨_, e, g.wrote hi val []⟩
  · rw [hp] at e
    dsimp only at e
    refine ⟨fun t ht => ?_, fun c hc => ?_, fun es hs => ?_⟩
    · rw [ht] at e
      exact e
    · rw [hc] at e
      exact e
    · rw [hs] at e
      refine ⟨_, e, ?_⟩
      obtain ⟨c, z, hc, hz, hfront, -, -⟩ := g.putOuts_band (y.ex.map fun l => (l, val l))
      obtain ⟨b', x', hb', hx', hf⟩ := (State.calm_doPush (y.putOuts (y.ex.map fun l => (l, val l))) y.k y.n port es
        (pushVals y.b (y.ex.map fun l => (l, val l)))).band c z hc hz
      obtain ⟨hl, -⟩ := Band.front_eq_iff.1 (hf.trans hfront)
      exact g.goes hi [] hb' hx' (by rw [hl, (Band.put_spec y.x y.b y.ex val).1])

/-- An instruction that computes on each lane by itself. -/
theorem computes_runAlu {i : Instr} {s : State} {y : Iss} {f : Env → Out} (e : exec i s = runAlu i s f) :
    Computes i s y f := by
  intro hy
  obtain ⟨h, hi⟩ := y.hdr hy
  exact (y.good hy).writes hi (by rw [e, runAlu, run_next hy])

/-! ### Predicates -/

/-- The value of `p2v`: the predicates as a number, p7 as its bit 7 (R140). -/
theorem Lane.preds_sum (x : Lane) : x.preds.setWidth 32 ||| 128 =
    BitVec.ofNat 32 ((List.range 8).map fun k => if x.p k then 2 ^ k else 0).sum := by
  have h (p : BitVec 7) : p.setWidth 32 ||| 128 = BitVec.ofNat 32
      ((List.range 8).map fun k => if (if k = 7 then true else p.getLsbD k) then 2 ^ k else 0).sum := by
    revert p
    decide
  exact h x.preds

/-- Settles O13: p7 by the definition of `Lane.p`, the instructions as ones that compute on each lane. -/
theorem predicateResults : Obligations.PredicateResults := by
  unfold Obligations.PredicateResults
  refine ⟨fun l b => ⟨l.p_seven, rfl, fun k q _ hq => ?_⟩,
    fun h s y => ⟨fun o => ⟨?_, ?_, ?_⟩, fun o => ?_, fun d => ?_, fun o => ?_⟩⟩
  · simp only [Lane.p_setP l b hq, eq_comm]
  · exact computes_runAlu rfl
  · exact computes_runAlu rfl
  · exact computes_runAlu rfl
  · exact computes_runAlu rfl
  · exact computes_runAlu (by simp only [exec, execP2v, Lane.preds_sum])
  · exact computes_runAlu rfl

end Sys2Proof.Machine

/-! # A turn of a core, and special registers -/

namespace Sys2Proof.Machine

open Sys2Proof

/-! ### A core's turn -/

theorem State.look_run {s : State} {k n : Nat} {b : Block} {x : Band} {ch : Choice} {w : BitVec 128} {i : Instr}
    (hb : s.blk k = some b) (hx : b.band n = some x) (hr : b.st = .running) (hh : x.halted = false) (hf : x.forced = none)
    (hc : x.choose = some ch) (hd : x.inh = true ∨ x.dueTrap = none)
    (hw : s.fetch b x.inh ch.pc (lowest ch.active) = .bytes w) (hi : decode w = .ok i) : s.look k n = .run i := by
  have hst : ¬ (b.st != .running || x.halted) = true := by simp [hr, hh]
  have hdue : ¬ (!x.inh && x.dueTrap.isSome) = true := by obtain h | h := hd <;> simp [h]
  unfold State.look
  rw [hb]
  dsimp only
  rw [hx]
  dsimp only
  rw [if_neg hst, hf, if_neg (by simp), hc]
  dsimp only
  rw [if_neg hdue, State.lookAt, hw]
  dsimp only
  rw [hi]

/-- Settles O4: the turn of a core is that of the band which it picks, and the band runs what its look finds. -/
theorem stepRunsDecoded : Obligations.StepRunsDecoded := by
  unfold Obligations.StepRunsDecoded
  intro s rest ticks c k n lead b x ch w i u v ha hp hu hk hv hb hx hr hh hf hc hd hw hi
  have hup : u.power = .running := by rw [hu, State.power_tick]; exact hp
  have hlook := State.look_run hb hx hr hh hf hc hd hw hi
  calc step s = u.turn (.core c) := by rw [step, ha, hu]
    _ = u.coreCycle c (u.readyBands c) := if_pos hup
    _ = (u.ageBands c (u.readyBands c) (some (k, n))).bandStep k n := by rw [State.coreCycle, hk]
    _ = exec i v := by rw [State.bandStep, ← hv, hlook]

/-! ### Special registers -/

theorem isAnnex_toNat (d : Nat) : (isAnnex d).toNat = if d < 4 then 0 else 1 := by
  by_cases h : d < 4
  · simp [isAnnex, h]
  · simp [isAnnex, h, Nat.le_of_not_lt h]

theorem ite_isAnnex (d : Nat) : (if isAnnex d then 0 else d) = if d < 4 then d else 0 := by
  by_cases h : d < 4
  · simp [isAnnex, h]
  · simp [isAnnex, h, Nat.le_of_not_lt h]

theorem coreCluster_eq (c : Nat) : coreCluster c = if c < 512 then c / 64 % 2 else 0 := by
  unfold coreCluster
  split <;> omega

theorem State.sreg_of_grid {s : State} {b : Block} {g : Grid} (hg : s.grid b.lid = some g) (n : Nat) (ct : DWord) (l : Nat) :
    s.sreg b n .nblkx ct l = BitVec.ofNat 64 g.pkt.gx ∧ s.sreg b n .nblky ct l = BitVec.ofNat 64 g.pkt.gy ∧
      s.sreg b n .nblkz ct l = BitVec.ofNat 64 g.pkt.gz ∧ s.sreg b n .launch ct l = BitVec.ofNat 64 (g.orig % 2 ^ 32) := by
  simp [State.sreg, hg]

theorem Iss.resync_self {y : Iss} (h : y.s.blk y.k = some y.b) : y.resync y.s = y := by
  rw [Iss.resync, h]
  rfl

theorem State.logRec_of_plain {s : State} {k n type : Nat} {body : List DWord} {b : Block} (hb : s.blk k = some b)
    (hr : b.run = .plain) : s.logRec k n type body = s := by
  unfold State.logRec
  rw [hb]
  dsimp only
  rw [hr]

/-- A record of an issue that puts a band with the same lanes in place of its own. -/
theorem Iss.Good.withBand {y : Iss} {s : State} (g : y.Good s) {x : Band} (h : x.lanes = y.x.lanes) :
    ({ y with x := x } : Iss).Good s where
  key := g.key
  num := g.num
  blk := g.blk
  band := by
    obtain ⟨x₀, hx₀, hl⟩ := g.band
    exact ⟨x₀, hx₀, h.trans hl⟩
  exAct := g.exAct
  lt := fun l hl => by
    rw [h]
    exact g.lt l hl
  sent := g.sent
  blocks := g.blocks

/-- Settles O22: the instruction commits the table's value, read by the definition of `State.sreg`, in a band that remembers
the `ctime` that it has read. -/
theorem specialRegisters : Obligations.SpecialRegisters := by
  unfold Obligations.SpecialRegisters
  intro h o s y _ hr hy ct y'
  have g := y.good hy
  have g' : y'.Good s := g.withBand (by split <;> rfl)
  have hlater : y.b.later = false := by rw [Block.later, hr]
  have hwide : (o.sel == .ctime && !y.ex.isEmpty) = true ↔ o.sel = .ctime ∧ y.ex ≠ [] := by simp
  refine ⟨g'.writes rfl ?_, fun l => ?_⟩
  · refine (run_next hy _).trans (congrArg Host.Outcome.next ?_)
    simp only [hlater, Bool.and_false, Bool.false_eq_true, if_false, State.logRec_of_plain g.blk hr, ite_self,
      Iss.resync_self g.blk, hwide]
    rfl
  · intro is
    exact ⟨rfl, rfl, rfl, rfl, rfl, rfl, rfl, rfl, rfl, congrArg (BitVec.ofNat 64) (coreCluster_eq _), rfl, rfl,
      congrArg (BitVec.ofNat 64) (isAnnex_toNat _), congrArg (BitVec.ofNat 64) (ite_isAnnex _), rfl,
      fun _ hg => State.sreg_of_grid hg ..⟩

end Sys2Proof.Machine

/-! # The end of lanes, and rejoin masks -/

namespace Sys2Proof.Machine

open Sys2Proof

theorem getLsbD_foldl_laneSet (ls : List Nat) (m : LaneSet) {l : Nat} (hl : l < 64) :
    (ls.foldl (fun m l => m ||| ((1 : BitVec 64) <<< l)) m).getLsbD l = (m.getLsbD l || decide (l ∈ ls)) := by
  induction ls generalizing m with
  | nil => simp
  | cons a ls ih =>
    rw [List.foldl_cons, ih]
    have h : ((1 : BitVec 64) <<< a).getLsbD l = decide (l = a) := by
      rw [Bool.eq_iff_iff]
      simp [hl]
      omega
    simp only [BitVec.getLsbD_or, h, Bool.or_assoc, List.mem_cons, Bool.decide_or]

/-- The bits of a set of lanes. -/
theorem getLsbD_laneSet (ls : List Nat) {l : Nat} (hl : l < 64) : (laneSet ls).getLsbD l = decide (l ∈ ls) := by
  rw [laneSet, getLsbD_foldl_laneSet ls 0 hl]
  simp

/-- Lanes taken off a set are not in it. -/
theorem getLsbD_and_not_laneSet (e : LaneSet) {ls : List Nat} {l : Nat} (h : l ∈ ls) :
    (e &&& ~~~laneSet ls).getLsbD l = false := by
  by_cases hl : l < 64
  · simp [BitVec.getLsbD_and, BitVec.getLsbD_not, getLsbD_laneSet ls hl, h]
  · exact BitVec.getLsbD_of_ge _ _ (Nat.le_of_not_lt hl)

/-! ### What the release of a mask leaves alone -/

/-- A later form of a band in which lanes may have become ready and masks empty. -/
structure Band.Freed (x z : Band) : Prop where
  lane : ∀ l, (z.lane l).pc = (x.lane l).pc ∧ (z.lane l).vregs = (x.lane l).vregs ∧ (z.lane l).preds = (x.lane l).preds ∧
    ((x.lane l).st = .exited → (z.lane l).st = .exited)
  enrolled : ∀ e ∈ z.enrolled, e ∈ x.enrolled ∨ e = 0

theorem Band.Freed.rfl' (x : Band) : x.Freed x := ⟨fun _ => ⟨rfl, rfl, rfl, id⟩, fun _ => .inl⟩

theorem Band.Freed.trans {x y z : Band} (h : x.Freed y) (h' : y.Freed z) : x.Freed z where
  lane := fun l => by
    obtain ⟨hp, hv, hq, hs⟩ := h.lane l
    obtain ⟨hp', hv', hq', hs'⟩ := h'.lane l
    exact ⟨hp'.trans hp, hv'.trans hv, hq'.trans hq, hs' ∘ hs⟩
  enrolled := fun e he => (h'.enrolled e he).elim (h.enrolled e) .inr

theorem Band.lane_release (x : Band) (j l : Nat) :
    (x.release j).lane l = if (x.lane l).st.isParkedOn j then { x.lane l with st := .ready } else x.lane l := by
  simp only [Band.lane, Band.release, List.getD_eq_getElem?_getD, List.getElem?_map]
  cases x.lanes[l]? <;> rfl

theorem Band.freed_release (x : Band) (j : Nat) : x.Freed (x.release j) where
  lane := fun l => by
    rw [Band.lane_release]
    split
    · rename_i h
      exact ⟨rfl, rfl, rfl, fun he => by rw [he] at h; cases h⟩
    · exact ⟨rfl, rfl, rfl, id⟩
  enrolled := fun e he => List.mem_or_eq_of_mem_set he

theorem Band.freed_releaseFull (x : Band) : x.Freed x.releaseFull := by
  unfold Band.releaseFull
  have h (js : List Nat) (z : Band) (hz : x.Freed z) : x.Freed (js.foldl (fun x j =>
      let e := lanesOf (x.enrolled.getD j 0)
      if !(x.parkedOn j).isEmpty && e.all (fun l => (x.lane l).st.isParkedOn j) then x.release j else x) z) := by
    induction js generalizing z with
    | nil => exact hz
    | cons j js ih =>
      refine ih _ ?_
      dsimp only
      split
      · exact hz.trans (z.freed_release j)
      · exact hz
  exact h _ x (.rfl' x)

/-- Exiting lanes have exited and are enrolled in no mask; program counters and registers stay. -/
theorem Band.exitLanes_spec (x : Band) (ls : List Nat) (hls : ∀ l ∈ ls, l < x.lanes.length) :
    (∀ l, ((x.exitLanes ls).lane l).pc = (x.lane l).pc ∧ ((x.exitLanes ls).lane l).vregs = (x.lane l).vregs ∧
      ((x.exitLanes ls).lane l).preds = (x.lane l).preds) ∧
    (∀ l ∈ ls, ((x.exitLanes ls).lane l).st = .exited) ∧ ∀ e ∈ (x.exitLanes ls).enrolled, ∀ l ∈ ls, e.getLsbD l = false := by
  unfold Band.exitLanes
  extract_lets y
  have hy (l : Nat) : y.lane l = if l ∈ ls then { x.lane l with st := .exited } else x.lane l := by
    split
    · rename_i h
      rw [Band.lane_modLanes x ls _ (hls l h), if_pos (by simpa using h)]
    · rename_i h
      exact Band.lane_modLanes_out x ls _ h
  have hf := Band.freed_releaseFull { y with enrolled := y.enrolled.map fun e => e &&& ~~~(laneSet ls) }
  refine ⟨fun l => ?_, fun l hl => ?_, fun e he l hl => ?_⟩
  · obtain ⟨hp, hv, hq, -⟩ := hf.lane l
    have hsame : (y.lane l).pc = (x.lane l).pc ∧ (y.lane l).vregs = (x.lane l).vregs ∧ (y.lane l).preds = (x.lane l).preds := by
      rw [hy l]
      split <;> exact ⟨rfl, rfl, rfl⟩
    exact ⟨hp.trans hsame.1, hv.trans hsame.2.1, hq.trans hsame.2.2⟩
  · obtain ⟨-, -, -, hs⟩ := hf.lane l
    exact hs ((congrArg Lane.st ((hy l).trans (if_pos hl)) :))
  · obtain he | rfl := hf.enrolled e he
    · obtain ⟨e', -, rfl⟩ := List.mem_map.1 he
      exact getLsbD_and_not_laneSet e' hl
    · simp

/-- Of the blocks the lanes that leave change the barriers of their own. -/
theorem State.leaveBars_spec {s : State} {k : Nat} {b : Block} (hb : s.blk k = some b) (us : List Nat) :
    (∃ bars, (s.leaveBars k us).blk k = some { b with bars := bars }) ∧ ∀ j, j ≠ k → (s.leaveBars k us).blk j = s.blk j := by
  unfold State.leaveBars
  rw [hb]
  dsimp only
  rw [State.blk_setBlk]
  dsimp only
  split
  · exact ⟨⟨_, State.blk_setBlk ..⟩, fun j hj => State.blk_setBlk_ne _ _ hj⟩
  · exact ⟨⟨_, State.blk_setBlk ..⟩, fun j hj => State.blk_setBlk_ne _ _ hj⟩

/-- Nothing waits for a band of a block with an empty latch and no collective. -/
theorem State.bandEnded_of_idle {s : State} {k : Nat} {b : Block} (hb : s.blk k = some b) (n : Nat) (hl : b.latch = [])
    (hc : b.cols = []) (hr : b.later = false) : s.bandEnded k n = s := by
  simp [State.bandEnded, State.acceptCols, State.replaying, hb, hl, hc, hr]

/-! ### `exit` -/

/-- What `exit` leaves before what waited for the band goes on. -/
def Iss.exited (y : Iss) (h : Hdr) : State :=
  ((y.finish y.base (.exit h) []).modBand y.k y.n fun x => x.exitLanes y.ex).leaveBars y.k
    (y.ex.map fun l => y.n * y.b.bandw + l)

theorem exec_exit {h : Hdr} {s : State} {y : Iss} (hy : Issues (.exit h) s y)
    (ho : ∀ sc, y.s.exitScope y.b = some sc → y.ex = [] ∨ y.s.orderReady y.b y.x .rel sc = true) :
    exec (.exit h) s = .next ((y.exited h).bandEnded y.k y.n) := by
  refine (run_next hy _).trans (congrArg Host.Outcome.next ?_)
  dsimp only
  split
  · rfl
  · rename_i sc hs
    exact if_pos (by simpa using ho sc hs)

theorem Iss.length_finish (y : Iss) {u : State} {i : Instr} {h : Hdr} {b : Block} {x : Band} (jumps : List (Nat × DWord))
    (hi : i.hdr? = some h) (hb : u.blk y.k = some b) (hx : b.band y.n = some x) :
    (y.bandIn (y.finish u i jumps)).lanes.length = x.lanes.length := by
  obtain ⟨⟨_, b', hb', -, -, ⟨_, _, -, hband⟩, -⟩, -, -⟩ := y.finished jumps hi hb hx
  simp [Iss.bandIn, hb', hband, Band.complete_length]

/-- An issue's own block and band, put back. -/
theorem Iss.Good.base_band {y : Iss} {s : State} (g : y.Good s) :
    y.base.blk y.k = some (y.b.setBand y.n y.x) ∧ (y.b.setBand y.n y.x).band y.n = some y.x := by
  obtain ⟨x₀, hx₀, -⟩ := g.band
  exact ⟨State.blk_setBlk .., Block.band_setBand_self y.b _ x₀ hx₀⟩

/-- The block that `exit` leaves: its band's lanes have exited after the common effects of the issue. -/
theorem Iss.exited_blk {h : Hdr} {s : State} {y : Iss} (hy : Issues (.exit h) s y) :
    (∃ b, (y.exited h).blk y.k = some b ∧ b.band y.n = some ((y.bandIn (y.finish y.base (.exit h) [])).exitLanes y.ex) ∧
      b.latch = y.b.latch ∧ b.cols = y.b.cols ∧ b.later = y.b.later) ∧ ∀ j, j ≠ y.k → (y.exited h).blk j = y.s.blk j := by
  have hgo := Iss.base_goes hy []
  obtain ⟨b, b', x, x', hb, hb', hrest, -, -, hx', -, -⟩ := hgo.own
  obtain rfl := Option.some.inj ((State.blk_setBlk ..).symm.trans hb)
  have hm : ((y.finish y.base (.exit h) []).modBand y.k y.n fun x => x.exitLanes y.ex).blk y.k =
      some (b'.modBand y.n fun x => x.exitLanes y.ex) := by rw [State.blk_modBand, hb']; rfl
  obtain ⟨⟨bars, ht⟩, hoth⟩ := State.leaveBars_spec hm (y.ex.map fun l => y.n * y.b.bandw + l)
  have hin : y.bandIn (y.finish y.base (.exit h) []) = x' := by simp [Iss.bandIn, hb', hx']
  refine ⟨⟨_, ht, ?_, (congrArg Block.latch hrest :), (congrArg Block.cols hrest :), (congrArg Block.later hrest :)⟩,
    fun j hj => ?_⟩
  · rw [hin]
    exact (Block.band_modBand ..).trans (by rw [if_pos rfl, hx']; rfl)
  · exact (hoth j hj).trans ((State.blk_modBand_ne _ _ _ hj).trans ((hgo.others j hj).trans (State.blk_setBlk_ne _ _ hj)))

/-- Settles O27: the joins change the band after the common effects of the issue; of `exit` the lanes are those of
`Band.exitLanes`, and nothing waits for a band of an idle block. -/
theorem laneControl : Obligations.LaneControl := by
  unfold Obligations.LaneControl
  intro h s y
  refine ⟨fun j => ⟨fun hy => ⟨_, Iss.base_goes hy [], run_next hy _⟩, fun hy => ⟨_, Iss.base_goes hy [], run_next hy _⟩,
    fun hy => ⟨_, Iss.base_goes hy [], run_next hy _⟩⟩, fun hy ho => ⟨y.exited h, exec_exit hy ho, ?_⟩⟩
  have g := y.good hy
  obtain ⟨hbase, hx⟩ := g.base_band
  obtain ⟨hlane, -⟩ := (Iss.base_goes hy []).bandIn hbase hx
  obtain ⟨⟨b, hb, hband, hlatch, hcols, hlater⟩, hoth⟩ := Iss.exited_blk hy
  have hin : y.bandIn (y.exited h) = (y.bandIn (y.finish y.base (.exit h) [])).exitLanes y.ex := by simp [Iss.bandIn, hb, hband]
  have hlanes : ∀ l ∈ y.ex, l < (y.bandIn (y.finish y.base (.exit h) [])).lanes.length := fun l hl => by
    rw [y.length_finish [] rfl hbase hx]
    exact g.lt l (g.exAct l hl)
  obtain ⟨hkeep, hst, hen⟩ := Band.exitLanes_spec (y.bandIn (y.finish y.base (.exit h) [])) y.ex hlanes
  refine ⟨by simp [Iss.exited], fun hl hc hr => State.bandEnded_of_idle hb y.n (hlatch.trans hl) (hcols.trans hc)
    (hlater.trans hr), fun l hl => ?_, fun l hl => ?_, fun l => ?_, ?_, hoth⟩
  · rw [Iss.laneIn, hin]
    exact hst l hl
  · rw [Iss.laneIn, hin, (hkeep l).1]
    exact (congrArg Lane.pc (hlane l)).trans (by rw [if_pos (by simpa using hl)]; rfl)
  · rw [Iss.laneIn, hin, (hkeep l).2.1, (hkeep l).2.2]
    rw [← Iss.laneIn, hlane l]
    split <;> exact ⟨rfl, rfl⟩
  · rw [hin]
    exact hen

end Sys2Proof.Machine

/-! # Where accesses trap -/

namespace Sys2Proof.Machine

open Sys2Proof

/-! ### The first trap of a list -/

theorem firstTrap_filterMap {α β : Type} (l : List α) (g : α → Option β) (f : β → Option Trap) :
    firstTrap (l.filterMap g) f = firstTrap l fun a => (g a).bind f := by
  induction l with
  | nil => rfl
  | cons a l ih =>
    rw [List.filterMap_cons, firstTrap]
    cases g a with
    | none => exact ih
    | some b =>
      dsimp only [Option.bind_some, firstTrap]
      rw [ih]

theorem firstTrap_map {α β : Type} (l : List α) (g : α → β) (f : β → Option Trap) :
    firstTrap (l.map g) f = firstTrap l (f ∘ g) := by
  rw [← List.filterMap_eq_map, firstTrap_filterMap]
  rfl

theorem firstTrap_eq_ok {α : Type} {l : List α} {f : α → Option Trap} (h : ∀ a ∈ l, f a = none) : firstTrap l f = .ok () := by
  induction l with
  | nil => rfl
  | cons a l ih =>
    rw [firstTrap, h a List.mem_cons_self]
    exact ih fun b hb => h b (List.mem_cons_of_mem a hb)

/-- The first member that a test finds gives the trap, when the test finds every one that traps. -/
theorem firstTrap_of_find? {α : Type} {l : List α} {f : α → Option Trap} {q : α → Bool} {a : α} {t : Trap}
    (h : l.find? q = some a) (hq : ∀ b ∈ l, q b = false → f b = none) (ha : f a = some t) : firstTrap l f = .error t := by
  induction l with
  | nil => cases h
  | cons b l ih =>
    rw [firstTrap]
    cases hb : q b with
    | true =>
      rw [List.find?_cons_of_pos hb] at h
      cases h
      rw [ha]
    | false =>
      rw [List.find?_cons_of_neg (by simp [hb])] at h
      rw [hq b List.mem_cons_self hb]
      exact ih h fun c hc => hq c (List.mem_cons_of_mem b hc)

/-! ### Orders 3 to 5 of R304 -/

theorem Iss.reach_misaligned (y : Iss) (k : AKind) {n : Nat} {as : List (Nat × Nat)} {p : Nat × Nat}
    (h : as.find? (fun p => p.2 % n != 0) = some p) :
    y.reach k n as = .error (.trap { cls := .align, lane := p.1, addr := BitVec.ofNat 64 p.2 }) := by
  rw [Iss.reach, alignTrap, h]
  rfl

theorem Iss.reach_aligned (y : Iss) (k : AKind) {n : Nat} {as : List (Nat × Nat)} (h : ∀ p ∈ as, p.2 % n = 0) :
    y.reach k n as = y.s.xlateAll y.b.core y.b.asid y.b.fn y.b.sid y.x.inh k as := by
  rw [Iss.reach, alignTrap, List.find?_eq_none.2 (by simpa using h)]
  rfl

section

variable {s : State} {core asid fn : Nat} {own : Option Nat} {priv : Bool} {k : AKind} {as : List (Nat × Nat)}

/-- The trap of one lane's walk (R264). -/
def State.walkTrap (s : State) (core asid : Nat) (own : Option Nat) (p : Nat × Nat) : Option Trap :=
  match s.xlate core asid own p.2 with
  | .ok _ => none
  | .error (.page c) => some { cls := .page, cause := c, lane := p.1, addr := BitVec.ofNat 64 p.2 }
  | .error _ => some { cls := .poison, lane := p.1, addr := BitVec.ofNat 64 p.2 }

theorem State.walkTrap_ok {p : Nat × Nat} {x : Xl} (h : s.xlate core asid own p.2 = .ok x) :
    s.walkTrap core asid own p = none := by
  rw [State.walkTrap, h]

theorem State.walkTrap_page {p : Nat × Nat} {c : Nat} (h : s.xlate core asid own p.2 = .error (.page c)) :
    s.walkTrap core asid own p = some { cls := .page, cause := c, lane := p.1, addr := BitVec.ofNat 64 p.2 } := by
  rw [State.walkTrap, h]

theorem State.walkTrap_poison {p : Nat × Nat} (h : s.xlate core asid own p.2 = .error .poison) :
    s.walkTrap core asid own p = some { cls := .poison, lane := p.1, addr := BitVec.ofNat 64 p.2 } := by
  rw [State.walkTrap, h]

/-- Without a walk that meets a loan the first lane whose walk fails gives the trap (R264, R304 order 4). -/
theorem State.xlateAll_miss (hl : ∀ p ∈ as, ∀ j, s.xlate core asid own p.2 ≠ .error (.loan j)) {p : Nat × Nat}
    (hp : as.find? (fun p => !(s.xlate core asid own p.2).isOk) = some p) :
    (∀ c, s.xlate core asid own p.2 = .error (.page c) → s.xlateAll core asid fn own priv k as =
      .error (.trap { cls := .page, cause := c, lane := p.1, addr := BitVec.ofNat 64 p.2 })) ∧
    (s.xlate core asid own p.2 = .error .poison → s.xlateAll core asid fn own priv k as =
      .error (.trap { cls := .poison, lane := p.1, addr := BitVec.ofNat 64 p.2 })) := by
  have hok : ∀ q ∈ as, (!(s.xlate core asid own q.2).isOk) = false → ∃ x, s.xlate core asid own q.2 = .ok x := by
    intro q _ hq
    cases e : s.xlate core asid own q.2 with
    | ok x => exact ⟨x, rfl⟩
    | error e' => rw [e] at hq; cases hq
  unfold State.xlateAll
  dsimp only
  split
  next i e =>
    obtain ⟨q, hq, e⟩ := List.exists_of_findSome?_eq_some e
    obtain ⟨q, hm, rfl⟩ := List.mem_map.1 hq
    dsimp only at e
    split at e
    · rename_i e'
      exact absurd e' (hl q hm _)
    · cases e
    · cases e
  next =>
    have walks : ∀ q ∈ as, (!(s.xlate core asid own q.2).isOk) = false →
        s.walkTrap core asid own q = none := by
      intro q hq hn
      obtain ⟨x, hx⟩ := hok q hq hn
      exact State.walkTrap_ok hx
    rw [firstTrap_map]
    generalize hr : firstTrap as _ = r
    constructor
    · intro c hc
      cases hr.symm.trans (firstTrap_of_find? hp walks (State.walkTrap_page hc))
      rfl
    · intro hc
      cases hr.symm.trans (firstTrap_of_find? hp walks (State.walkTrap_poison hc))
      rfl

/-- When every lane's walk succeeds, the first lane without permission gives the trap (R263, R304 order 5). -/
theorem State.xlateAll_perm (hok : ∀ p ∈ as, (s.xlate core asid own p.2).isOk = true) {p : Nat × Nat}
    (hp : as.find? (fun p => (s.xlate core asid own p.2).toOption.any fun x => !s.permOk fn priv k x) = some p) :
    s.xlateAll core asid fn own priv k as =
      .error (.trap { cls := .perm, lane := p.1, addr := BitVec.ofNat 64 p.2 }) := by
  have hok : ∀ q ∈ as, ∃ x, s.xlate core asid own q.2 = .ok x := by
    intro q hq
    cases e : s.xlate core asid own q.2 with
    | ok x => exact ⟨x, rfl⟩
    | error e' => simpa [e, Except.isOk, Except.toBool] using hok q hq
  unfold State.xlateAll
  dsimp only
  split
  next i e =>
    obtain ⟨q, hq, e⟩ := List.exists_of_findSome?_eq_some e
    obtain ⟨q, hm, rfl⟩ := List.mem_map.1 hq
    obtain ⟨x, hx⟩ := hok q hm
    simp [hx] at e
  next =>
    have walks : ∀ q ∈ as, s.walkTrap core asid own q = none := by
      intro q hq
      obtain ⟨x, hx⟩ := hok q hq
      exact State.walkTrap_ok hx
    have hx : ∃ x, s.xlate core asid own p.2 = .ok x ∧ s.permOk fn priv k x = false := by
      obtain ⟨x, hx⟩ := hok p (List.mem_of_find?_eq_some hp)
      have := List.find?_some hp
      rw [hx] at this
      exact ⟨x, hx, by simpa [Except.toOption] using this⟩
    obtain ⟨x, hx, hn⟩ := hx
    rw [firstTrap_map]
    generalize hr : firstTrap as _ = r
    cases hr.symm.trans (firstTrap_eq_ok walks)
    dsimp only
    rw [firstTrap_filterMap, firstTrap_map, firstTrap_of_find? hp]
    case hq =>
      intro q hq hf
      obtain ⟨z, hz⟩ := hok q hq
      have : s.permOk fn priv k z = true := by simpa [hz, Except.toOption] using hf
      simp only [Function.comp, hz, Option.bind_some, this, if_true]
    case ha => simp only [Function.comp, hx, Option.bind_some, hn, Bool.false_eq_true, if_false]

end

/-- Orders 3 to 5 of R304 for an instruction whose accesses trap when its reach does. -/
theorem Iss.reach_traps {i : Instr} {s : State} {y : Iss} {k : AKind} {n : Nat} {as : List (Nat × Nat)}
    (hr : ∀ t, y.reach k n as = .error (.trap t) → Traps i s y t) :
    let xl (a : Nat) : Except XErr Xl := y.s.xlate y.b.core y.b.asid y.b.sid a
    let trap (c : TrapClass) (cause : Nat) (p : Nat × Nat) : Prop :=
      Traps i s y { cls := c, cause, lane := p.1, addr := BitVec.ofNat 64 p.2 }
    (∀ p, as.find? (fun p => p.2 % n != 0) = some p → trap .align 0 p) ∧
    ((∀ p ∈ as, p.2 % n = 0) → (∀ p ∈ as, ∀ j, xl p.2 ≠ .error (.loan j)) →
      (∀ p, as.find? (fun p => !(xl p.2).isOk) = some p →
        (∀ c, xl p.2 = .error (.page c) → trap .page c p) ∧ (xl p.2 = .error .poison → trap .poison 0 p)) ∧
      ((∀ p ∈ as, (xl p.2).isOk = true) →
        ∀ p, as.find? (fun p => (xl p.2).toOption.any fun x => !y.s.permOk y.b.fn y.x.inh k x) = some p →
          trap .perm 0 p)) := by
  refine ⟨fun p hp => hr _ (y.reach_misaligned k hp), fun ha hl => ⟨fun p hp => ⟨fun c hc => hr _ ?_, fun hc => hr _ ?_⟩,
    fun hok p hp => hr _ ?_⟩⟩ <;> rw [y.reach_aligned k ha]
  · exact (State.xlateAll_miss hl hp).1 c hc
  · exact (State.xlateAll_miss hl hp).2 hc
  · exact State.xlateAll_perm hok hp

/-! ### Each access behind its order -/

/-- What lets a release go on is all that `ordered` asks (R279, R288, R471). -/
theorem Iss.ordered_of_orders {y : Iss} {k : FKind} {sc : Scope} (h : y.Orders k sc) (lane : Nat)
    (f : Iss → Host.Outcome State Fault Refusal) : y.ordered lane k sc f = f y := by
  unfold Iss.ordered
  obtain he | ⟨hw, ho, hp⟩ := h
  · rw [he]; rfl
  · have hu : ∀ st, st ≠ .confirmed → y.x.watch.any (fun e => e.st == st) = false := by
      intro st hst
      refine List.any_eq_false.2 fun e he => ?_
      rw [hw e he]
      simpa using hst.symm
    by_cases he : y.ex.isEmpty = true
    · rw [if_pos he]
    · rw [if_neg he, hu .unresolved (by decide), hu .struck (by decide), ho, hp]; rfl

theorem Iss.atomOrd_of_orders {y : Iss} {o : AOrd} (h : ∀ sc, o = .rel sc ∨ o = .ar sc → y.Orders .rel sc)
    (f : Iss → Host.Outcome State Fault Refusal) : y.atomOrd o f = f y := by
  cases o with
  | rlx => rfl
  | acq sc => rfl
  | rel sc => exact Iss.ordered_of_orders (h sc (.inl rfl)) _ _
  | ar sc => exact Iss.ordered_of_orders (h sc (.inr rfl)) _ _

theorem Iss.atomOrd_of_release {y : Iss} {o : AOrd} {sc : Scope} (h : o = .rel sc ∨ o = .ar sc)
    (f : Iss → Host.Outcome State Fault Refusal) : y.atomOrd o f = y.ordered (lowest y.ex) .rel sc f := by
  obtain rfl | rfl := h <;> rfl

section

variable {h : Hdr} {s : State} {y : Iss}

theorem exec_st {o : St} (g : Issues (.st h o) s y) (ho : ∀ sc, o.ord = .sync sc → y.Orders .rel sc) :
    exec (.st h o) s = y.store (.st h o) o := by
  refine (runO_next g _).trans ?_
  cases e : o.ord with
  | sync sc => exact Iss.ordered_of_orders (ho sc e) _ _
  | rlx => rfl
  | unc => rfl

theorem exec_sts {o : St} (g : Issues (.sts h o) s y) (ho : ∀ sc, o.ord = .sync sc → y.Orders .rel sc) :
    exec (.sts h o) s = .next (y.storeScr (.sts h o) o) := by
  refine (runO_next g _).trans ?_
  cases e : o.ord with
  | sync sc => exact Iss.ordered_of_orders (ho sc e) _ _
  | rlx => rfl
  | unc => rfl

theorem exec_atom {o : Atom} (g : Issues (.atom h o) s y) (ho : ∀ sc, o.ord = .rel sc ∨ o.ord = .ar sc → y.Orders .rel sc) :
    exec (.atom h o) s = y.atomic (.atom h o) o.base o.b (if o.op == .cas then some o.c else none) o.d o.op o.w64 false
      (aordOf o.ord).1 (o.disp.signExtend 64) :=
  (runO_next g _).trans (Iss.atomOrd_of_orders ho _)

theorem exec_red {o : Red} (g : Issues (.red h o) s y) (ho : ∀ sc, o.ord = .rel sc ∨ o.ord = .ar sc → y.Orders .rel sc) :
    exec (.red h o) s = y.atomic (.red h o) o.base o.b none 0 o.op o.w64 true false (o.disp.signExtend 64) :=
  (runO_next g _).trans (Iss.atomOrd_of_orders ho _)

/-! A reach that traps is the instruction's trap. -/

theorem Iss.traps_ld {o : Ld} (g : Issues (.ld h o) s y) {t : Trap}
    (e : y.reach .read (lsizeBytes o.sz) (y.addrs o.base (o.disp.signExtend 64)) = .error (.trap t)) :
    Traps (.ld h o) s y t := by
  refine (runO_next g _).trans ?_
  rw [e]; rfl

theorem Iss.traps_ldw {o : Ldw} (g : Issues (.ldw h o) s y) {t : Trap}
    (e : y.reach .read (lsizeBytes o.sz) (y.addrs o.base (o.disp.signExtend 64)) = .error (.trap t)) :
    Traps (.ldw h o) s y t := by
  refine (runO_next g _).trans ?_
  rw [e]; rfl

theorem Iss.store_traps (i : Instr) {o : St} {t : Trap}
    (e : y.reach .write (lsizeBytes o.sz) (y.addrs o.base (o.disp.signExtend 64)) = .error (.trap t)) :
    y.store i o = .next (y.trap t) := by
  rw [Iss.store, e]; rfl

theorem Iss.atomic_traps (i : Instr) {base b : Src} {c : Option (BitVec 8)} {d : BitVec 8} {op : AOp} {w64 red acq : Bool}
    {disp : DWord} {t : Trap} (e : y.reach .write (if w64 then 8 else 4) (y.addrs base disp) = .error (.trap t)) :
    y.atomic i base b c d op w64 red acq disp = .next (y.trap t) := by
  rw [Iss.atomic, e]; rfl

theorem Iss.traps_strmCfg {o : StrmCfg} (g : Issues (.strmCfg h o) s y) (hx : y.ex ≠ []) {t : Trap}
    (e : y.reach .read 64 [(lowest y.act, (y.x.u64 o.a.toNat).toNat)] = .error (.trap t)) :
    Traps (.strmCfg h o) s y t := by
  refine (runO_next g _).trans ?_
  rw [if_neg (by simpa using hx)]
  dsimp only
  rw [e]; rfl

/-! ### An access that reaches memory -/

theorem regStop_eq_none {xs : List LaneX} (hx : ∀ a ∈ xs, isReg a.x.pa = false) (ok : LaneX → Bool) :
    regStop xs ok = none := by
  rw [regStop, List.find?_eq_none.2 fun a ha => by simp [hx a ha], Option.map_none]

/-- Whether a load's lanes wait for its reply (R279). -/
def LOrd.acquires (o : LOrd) : Bool :=
  match o with
  | .sync _ => true
  | .rlx | .unc => false

theorem exec_ld_of_reaches {o : Ld} (g : Issues (.ld h o) s y) {xs : List LaneX}
    (hr : y.Reaches .read (lsizeBytes o.sz) (y.addrs o.base (o.disp.signExtend 64)) xs) :
    exec (.ld h o) s = .next (y.loadFrom (.ld h o) o.sz o.d (LOrd.acquires o.ord) (o.ord == .unc) false xs) := by
  refine (runO_next g _).trans ?_
  dsimp only
  rw [hr.1]
  dsimp only
  rw [regStop_eq_none hr.2]
  rfl

theorem exec_ldw_of_reaches {o : Ldw} (g : Issues (.ldw h o) s y) {xs : List LaneX}
    (hr : y.Reaches .read (lsizeBytes o.sz) (y.addrs o.base (o.disp.signExtend 64)) xs) :
    exec (.ldw h o) s = .next (y.loadWatched (.ldw h o) o xs) := by
  refine (runO_next g _).trans ?_
  rw [hr.1]
  dsimp only
  rw [regStop_eq_none hr.2]

/-- Outside a sample a read that meets poison traps at once (R472 is about runs alone). -/
theorem Iss.poisonOut_of_sid (hs : y.b.sid = none) (t : Trap) : y.poisonOut t = y.trap t := by
  have he : y.s.poisonElsewhere y.b (y.n, y.x.issues, y.pc) = none := by simp [State.poisonElsewhere, hs]
  have hn : y.s.notePoison y.b (y.n, y.x.issues, y.pc) = y.s := by simp [State.notePoison, hs]
  rw [Iss.poisonOut, he, hn]

theorem Iss.loadFrom_poison (hs : y.b.sid = none) (i : Instr) {sz : LSize} (d : BitVec 8) (acq : Bool) {unc : Bool}
    (watch : Bool) {xs : List LaneX} (hh : y.held true xs = none) (hc : y.coldParts unc (xs.map fun a => (a, lsizeBytes sz)) = []) {t : Trap}
    (hp : y.poisoned unc (lsizeBytes sz) xs = some t) : y.loadFrom i sz d acq unc watch xs = y.trap t := by
  rw [Iss.loadFrom, hh]
  dsimp only
  rw [hc, hp]
  exact y.poisonOut_of_sid hs t

theorem Iss.poisoned_eq_some {unc : Bool} {n : Nat} {xs : List LaneX} {a : LaneX}
    (h : xs.find? (fun a => ((y.handAll unc a n).map AtHand.psn).getD (y.s.poisonFor y.b a.x.pa n)) = some a) :
    y.poisoned unc n xs = some { cls := .poison, lane := a.lane, addr := BitVec.ofNat 64 a.va } := by
  rw [Iss.poisoned, h]; rfl

/-- An atomic traps at two lanes that overlap, and then at poison that is known (R304 orders 7 and 8). -/
theorem Iss.atomic_dup (i : Instr) {base b : Src} {c : Option (BitVec 8)} {d : BitVec 8} {op : AOp} {w64 acq : Bool}
    {disp : DWord} {xs : List LaneX} (hr : y.Reaches .write (if w64 then 8 else 4) (y.addrs base disp) xs)
    (hh : y.held false xs = none) {a : LaneX} (hd : dupLane (if w64 then 8 else 4) xs = some a) :
    y.atomic i base b c d op w64 false acq disp =
      .next (y.trap { cls := .atomdup, lane := a.lane, addr := BitVec.ofNat 64 a.va }) := by
  unfold Iss.atomic
  dsimp only
  rw [hr.1]
  dsimp only
  rw [regStop_eq_none hr.2, hh, hd]
  rfl

theorem Iss.atomic_poison (hs : y.b.sid = none) (hl : y.b.run = .plain) (i : Instr) {base b : Src} {c : Option (BitVec 8)}
    {d : BitVec 8} {op : AOp} {w64 red acq : Bool} {disp : DWord} {xs : List LaneX}
    (hr : y.Reaches .write (if w64 then 8 else 4) (y.addrs base disp) xs) (hh : y.held false xs = none)
    (hd : (if red then none else dupLane (if w64 then 8 else 4) xs) = none)
    (hc : y.coldAtoms (if w64 then 8 else 4) xs = []) {a : LaneX}
    (hp : xs.find? (fun a => ((y.came ⟨a, a.x.pa, if w64 then 8 else 4⟩).map HeldData.psn).getD
      (y.s.poisonAt a.x.pa (if w64 then 8 else 4))) = some a) :
    y.atomic i base b c d op w64 red acq disp =
      .next (y.trap { cls := .poison, lane := a.lane, addr := BitVec.ofNat 64 a.va }) := by
  have hlater : y.b.later = false := by rw [Block.later, hl]
  have hq : y.poisonedAtom (if w64 then 8 else 4) xs =
      some { cls := .poison, lane := a.lane, addr := BitVec.ofNat 64 a.va } := by
    rw [Iss.poisonedAtom, hlater]
    simp only [Bool.false_eq_true, if_false]
    rw [hp]
    rfl
  unfold Iss.atomic
  dsimp only
  rw [hr.1]
  dsimp only
  rw [regStop_eq_none hr.2, hh]
  dsimp only
  rw [hd, hlater]
  dsimp only
  rw [if_neg (by decide), hc, hq]
  exact congrArg _ (y.poisonOut_of_sid hs _)

/-! ### The scratchpad -/

theorem Iss.trapPeer_of_plain (hl : y.b.run = .plain) (peers : Bool) (t : Trap) : y.trapPeer peers t = y.trap t := by
  rw [Iss.trapPeer, hl]

theorem Iss.traps_lds {o : Ld} (g : Issues (.lds h o) s y) (hl : y.b.run = .plain) {t : Trap}
    (e : y.s.scratchAll y.b y.k (lsizeBytes o.sz) (y.sAddrs o.base (o.disp.signExtend 32)) = .error t) :
    Traps (.lds h o) s y t := by
  refine (run_next g _).trans ?_
  have hlater : y.b.later = false := by rw [Block.later, hl]
  dsimp only
  rw [hlater, Bool.false_and, if_neg (by decide), e]
  exact congrArg _ (y.trapPeer_of_plain hl _ t)

theorem Iss.traps_sts {o : St} (g : Issues (.sts h o) s y) (ho : ∀ sc, o.ord = .sync sc → y.Orders .rel sc)
    (hl : y.b.run = .plain) {t : Trap}
    (e : y.s.scratchAll y.b y.k (lsizeBytes o.sz) (y.sAddrs o.base (o.disp.signExtend 32)) = .error t) :
    Traps (.sts h o) s y t := by
  have hlater : y.b.later = false := by rw [Block.later, hl]
  refine (exec_sts g ho).trans (congrArg _ ?_)
  unfold Iss.storeScr Iss.stsTrap
  dsimp only
  rw [hlater]
  simp only [Bool.false_and, Bool.false_eq_true, if_false, e]
  exact y.trapPeer_of_plain hl _ t

/-- R241's ALIGN: the first lane whose address lies outside the windows' form or is no multiple of the size. -/
theorem State.scratchAll_align (s : State) (b : Block) (k : Nat) {n : Nat} {as : List (Nat × Word)} {p : Nat × Word}
    (hp : as.find? (fun p => p.2.extractLsb' 26 6 != 0 || p.2.toNat % n != 0) = some p) :
    s.scratchAll b k n as = .error { cls := .align, lane := p.1, addr := p.2.setWidth 64 } := by
  unfold State.scratchAll
  dsimp only
  rw [firstTrap_of_find? hp]
  case hq => intro q _ hn; simpa using hn
  case ha => have := List.find?_some hp; simpa [Classical.or_iff_not_imp_left] using this

/-- R241's PERM: the first lane without a window, or beyond the window's end. -/
theorem State.scratchAll_perm (s : State) (b : Block) (k : Nat) {n : Nat} {as : List (Nat × Word)}
    (ha : ∀ p ∈ as, (p.2.extractLsb' 26 6 != 0 || p.2.toNat % n != 0) = false) {p : Nat × Word}
    (hp : as.find? (fun p => ((s.windowOf b k (p.2.extractLsb' 20 6).toNat).bind s.blk).all fun w =>
      decide (w.window < (p.2.extractLsb' 0 20).toNat + n)) = some p) :
    s.scratchAll b k n as = .error { cls := .perm, lane := p.1, addr := p.2.setWidth 64 } := by
  unfold State.scratchAll
  dsimp only
  rw [firstTrap_eq_ok fun q hq => by simpa using ha q hq]
  dsimp only
  rw [firstTrap_map, firstTrap_of_find? hp]
  case hq =>
    intro q _ hn
    dsimp only [Function.comp]
    cases e : (s.windowOf b k (q.2.extractLsb' 20 6).toNat).bind s.blk with
    | none => rw [e] at hn; cases hn
    | some w =>
      rw [e] at hn
      exact if_neg (by simpa using hn)
  case ha =>
    have hn := List.find?_some hp
    dsimp only [Function.comp] at hn ⊢
    cases e : (s.windowOf b k (p.2.extractLsb' 20 6).toNat).bind s.blk with
    | none => rfl
    | some w =>
      rw [e] at hn
      exact if_pos (by simpa using hn)

/-! ### The configuring read of a stream port -/

theorem Iss.isSome_handAll (y : Iss) (unc : Bool) (a : LaneX) (n : Nat) :
    (y.handAll unc a n).isSome = true ↔ ∀ p ∈ a.pieces n, (y.hand unc p).isSome = true := by
  unfold Iss.handAll
  induction a.pieces n with
  | nil => simp
  | cons p ps ih =>
    rw [List.foldr_cons, List.forall_mem_cons, ← ih]
    split
    next hp hr => simp [hp, hr]
    next hn =>
      refine iff_of_false (by simp) fun ⟨hp, hr⟩ => ?_
      obtain ⟨d, hd⟩ := Option.isSome_iff_exists.1 hp
      obtain ⟨e, he⟩ := Option.isSome_iff_exists.1 hr
      exact hn d e hd he

theorem Iss.missing_eq_nil {unc : Bool} {a : LaneX} {n : Nat} {d : AtHand} (h : y.handAll unc a n = some d) :
    y.missing unc [(a, n)] = [] := by
  have ha := (y.isSome_handAll unc a n).1 (by rw [h]; rfl)
  rw [Iss.missing, List.flatMap_singleton, List.filter_eq_nil_iff]
  intro p hp
  simpa using Option.isSome_iff_ne_none.1 (ha p hp)

theorem Iss.traps_strmCfg_read {o : StrmCfg} (g : Issues (.strmCfg h o) s y) (hs : y.b.sid = none) (hx : y.ex ≠ [])
    {a : LaneX} (hr : y.Reaches .read 64 [(lowest y.act, (y.x.u64 o.a.toNat).toNat)] [a]) (hh : y.held true [a] = none)
    {d : AtHand} (hd : y.handAll false a 64 = some d) :
    (d.psn = true → Traps (.strmCfg h o) s y { cls := .poison, lane := a.lane, addr := BitVec.ofNat 64 a.va }) ∧
    (d.psn = false → patternOk (patternOf o (y.x.u64 o.a.toNat) d.bs) d.bs = false →
      Traps (.strmCfg h o) s y { cls := .fmt, lane := lowest y.act, addr := y.x.u64 o.a.toNat }) := by
  have he : y.ex.isEmpty = false := by simpa using hx
  have hm : y.missing false ([a].map fun a => (a, 64)) = [] := Iss.missing_eq_nil hd
  constructor
  · intro hp
    have hq : y.poisoned false 64 [a] = some { cls := .poison, lane := a.lane, addr := BitVec.ofNat 64 a.va } :=
      Iss.poisoned_eq_some (by simp [hd, hp])
    refine (runO_next g _).trans ?_
    dsimp only
    rw [he, if_neg (by decide), hr.1]
    dsimp only
    rw [regStop_eq_none hr.2, hh, hm]
    dsimp only
    rw [hq]
    exact congrArg _ (y.poisonOut_of_sid hs _)
  · intro hp hf
    have hq : y.poisoned false 64 [a] = none := by simp [Iss.poisoned, hd, hp]
    have hb : ([a].filterMap fun a => y.handAll false a 64).flatMap AtHand.bs = d.bs := by simp [hd]
    refine (runO_next g _).trans ?_
    dsimp only
    rw [he, if_neg (by decide), hr.1]
    dsimp only
    rw [regStop_eq_none hr.2, hh, hm]
    dsimp only
    rw [hq]
    dsimp only
    rw [hb, hf]
    rfl

/-! ### The watch table and the error status -/

theorem Iss.ordered_unresolved (hx : y.ex ≠ []) (hu : ∃ e ∈ y.x.watch, e.st = .unresolved) (lane : Nat) (k : FKind)
    (sc : Scope) (f : Iss → Host.Outcome State Fault Refusal) :
    y.ordered lane k sc f = .next (y.s.blockLanes y.k y.n y.act .watch) := by
  obtain ⟨e, he, hst⟩ := hu
  rw [Iss.ordered, if_neg (by simpa using hx), if_pos (List.any_eq_true.2 ⟨e, he, by rw [hst]; rfl⟩)]

theorem Iss.ordered_struck (hx : y.ex ≠ []) (hu : ∀ e ∈ y.x.watch, e.st ≠ .unresolved)
    (ht : ∃ e ∈ y.x.watch, e.st = .struck) (lane : Nat) (k : FKind) (sc : Scope)
    (f : Iss → Host.Outcome State Fault Refusal) :
    y.ordered lane k sc f = .next (y.trap { cls := .wtunchk, lane }) := by
  obtain ⟨e, he, hst⟩ := ht
  rw [Iss.ordered, if_neg (by simpa using hx), if_neg (by simpa using hu),
    if_pos (List.any_eq_true.2 ⟨e, he, by rw [hst]; rfl⟩)]

theorem Iss.ordered_werr (hx : y.ex ≠ []) (hw : ∀ e ∈ y.x.watch, e.st = .confirmed) {k : FKind} {sc : Scope}
    (ho : y.s.orderReady y.b y.x k sc = true) {a : DWord} (he : y.x.werr = some a) (lane : Nat)
    (f : Iss → Host.Outcome State Fault Refusal) :
    y.ordered lane k sc f = .next ((y.s.modBand y.k y.n fun x => { x with werr := none }).syncTrap y.k y.n
      { cls := .poison, lane, addr := a } y.pc y.act) := by
  have hne : ∀ st, st ≠ .confirmed → ¬ y.x.watch.any (fun e => e.st == st) = true := by
    intro st hst hany
    obtain ⟨e, he, hs⟩ := List.any_eq_true.1 hany
    exact hst ((eq_of_beq hs).symm.trans (hw e he))
  rw [Iss.ordered, if_neg (by simpa using hx), if_neg (hne _ (by decide)), if_neg (hne _ (by decide)), if_neg (by simp [ho]), he]
  rfl

end

/-! ### Pops -/

theorem gather_fault (port opnd : Nat) (pt : Port) (ex : List Nat) {c : Nat} {va : DWord} {l : Nat}
    (post : List (Nat × ElemRes)) :
    ∀ pre : List (Nat × ElemRes), (∀ p ∈ pre, ∀ c va, p.2 ≠ .fault c va) →
      gather port opnd pt ex (pre ++ (l, .fault c va) :: post) = .trap (streamTrap port c l opnd (pt.posOf l) va)
  | [], _ => rfl
  | (j, r) :: pre, h => by
    have ih := gather_fault port opnd pt ex post (c := c) (va := va) (l := l) pre fun p hp => h p (List.mem_cons_of_mem _ hp)
    rw [List.cons_append]
    cases r with
    | fault c' va' => exact absurd rfl (h _ List.mem_cons_self c' va')
    | reg _ | loan _ | cold _ | busy | val _ _ _ => rw [gather, ih]

/-- The first element of a port that faults gives the trap of the port's pop. -/
theorem gather_first_fault (port opnd : Nat) (pt : Port) (ex : List Nat) {m l : Nat} (hl : l < m) {f : Nat → ElemRes} {c : Nat}
    {va : DWord} (hf : f l = .fault c va) (hj : ∀ j, j < l → ∀ c va, f j ≠ .fault c va) :
    gather port opnd pt ex ((List.range m).map fun l => (l, f l)) = .trap (streamTrap port c l opnd (pt.posOf l) va) := by
  obtain ⟨d, rfl⟩ : ∃ d, m = l + (d + 1) := ⟨m - l - 1, by omega⟩
  rw [List.range_add, List.map_append, List.range_succ_eq_map, List.map_cons, List.map_cons, Nat.add_zero, hf]
  refine gather_fault port opnd pt ex _ _ fun p hp c va => ?_
  obtain ⟨j, hm, rfl⟩ := List.mem_map.1 hp
  exact hj j (List.mem_range.1 hm) c va

section

variable {s : State} {k n : Nat} {b : Block} {x : Band} {got : List HeldData} {ex : List Nat} {low : Nat}

/-- The ports before one whose pop traps do not hide the trap. -/
theorem State.popAll_append_trap {rest : List (Nat × Nat)} {t : Trap} (ht : s.popAll k n b x got ex low rest = .trap t) :
    ∀ p : List (Nat × Nat), (∃ vs cs w, s.popAll k n b x got ex low p = .ok vs cs w) →
      s.popAll k n b x got ex low (p ++ rest) = .trap t
  | [], _ => ht
  | (port, pos) :: p, ⟨vs, cs, w, hp⟩ => by
    rw [State.popAll] at hp
    rw [List.cons_append, State.popAll]
    split at hp
    · cases hp
    split at hp
    · cases hp
    rw [if_neg ‹_›, if_neg ‹_›]
    split at hp
    next =>
      split at hp
      next e => rw [State.popAll_append_trap ht p ⟨_, _, _, e⟩]
      next hn => exact absurd hp (hn _ _ _)
    next hn => exact absurd hp (hn _ _ _)

/-- Outside a sample the trap of a pop is the trap that the band takes. -/
theorem State.popTrap_of_sid (hs : b.sid = none) (t : Trap) (ch : Choice) :
    s.popTrap k n b x t ch = s.syncTrap k n t ch.pc ch.active := by
  have he : s.poisonElsewhere b (n, x.issues, ch.pc) = none := by simp [State.poisonElsewhere, hs]
  have hn : s.notePoison b (n, x.issues, ch.pc) = s := by simp [State.notePoison, hs]
  rw [State.popTrap, he, hn]
  exact ite_self _

end

/-! ### The elements of a port that is no format's -/

theorem State.readElem_of_not_fmt {s : State} {k n : Nat} {b : Block} {priv : Bool} {got : List HeldData} {pt : Port}
    {off : DWord} (h1 : pt.pat.kind ≠ .fmt) (h2 : pt.pat.kind ≠ .fmtx) :
    let va := pt.pat.base + off
    let z := skindSize pt.pat.kind
    let xl := s.xlate b.core b.asid b.sid va.toNat
    (va.toNat % z ≠ 0 → s.readElem k n b priv got pt off = .fault 2 va) ∧
    (va.toNat % z = 0 → (∀ c, xl = .error (.page c) → s.readElem k n b priv got pt off = .fault 3 va) ∧
      (xl = .error .poison → s.readElem k n b priv got pt off = .fault 6 va) ∧
      ∀ x, xl = .ok x → (s.permOk b.fn priv .read x = false → s.readElem k n b priv got pt off = .fault 4 va) ∧
        (s.permOk b.fn priv .read x = true → s.partStop k n b pt.sigma got (x.need z) = none →
          s.partPoison b got x.pa z = true → s.readElem k n b priv got pt off = .fault 6 va)) := by
  dsimp only
  unfold State.readElem
  dsimp only
  split
  next e => exact absurd e h1
  next e => exact absurd e h2
  next =>
    refine ⟨fun hz => if_pos hz, fun hz => ?_⟩
    rw [if_neg (not_not.2 hz)]
    unfold State.elemXlate
    refine ⟨fun c hc => ?_, fun hc => ?_, fun x hx => ⟨fun hp => ?_, fun hp hst hq => ?_⟩⟩
    · rw [hc]; rfl
    · rw [hc]; rfl
    · rw [hx]; simp only [hp]; rfl
    · rw [hx]; simp only [hp, if_true, hst, hq]

/-! ### The obligation -/

/-- The accesses whose lanes go through `reach`, with what they ask of it (R303, R304). -/
def ReachesBy (h : Hdr) (y : Iss) (i : Instr) (k : AKind) (n : Nat) (as : List (Nat × Nat)) : Prop :=
  (∃ o : Ld, i = .ld h o ∧ k = .read ∧ n = lsizeBytes o.sz ∧ as = y.addrs o.base (o.disp.signExtend 64)) ∨
  (∃ o : Ldw, i = .ldw h o ∧ k = .read ∧ n = lsizeBytes o.sz ∧ as = y.addrs o.base (o.disp.signExtend 64)) ∨
  (∃ o : St, i = .st h o ∧ k = .write ∧ n = lsizeBytes o.sz ∧ as = y.addrs o.base (o.disp.signExtend 64) ∧
    ∀ sc, o.ord = .sync sc → y.Orders .rel sc) ∨
  (∃ o : Atom, i = .atom h o ∧ k = .write ∧ n = (if o.w64 then 8 else 4) ∧ as = y.addrs o.base (o.disp.signExtend 64) ∧
    ∀ sc, o.ord = .rel sc ∨ o.ord = .ar sc → y.Orders .rel sc) ∨
  (∃ o : Red, i = .red h o ∧ k = .write ∧ n = (if o.w64 then 8 else 4) ∧ as = y.addrs o.base (o.disp.signExtend 64) ∧
    ∀ sc, o.ord = .rel sc ∨ o.ord = .ar sc → y.Orders .rel sc) ∨
  (∃ o : StrmCfg, i = .strmCfg h o ∧ y.ex ≠ [] ∧ k = .read ∧ n = 64 ∧
    as = [(lowest y.act, (y.x.u64 o.a.toNat).toNat)])

theorem ReachesBy.traps {h : Hdr} {s : State} {y : Iss} {i : Instr} {k : AKind} {n : Nat} {as : List (Nat × Nat)}
    (hi : ReachesBy h y i k n as) (g : Issues i s y) (t : Trap) (e : y.reach k n as = .error (.trap t)) :
    Traps i s y t := by
  obtain ⟨o, rfl, rfl, rfl, rfl⟩ | ⟨o, rfl, rfl, rfl, rfl⟩ | ⟨o, rfl, rfl, rfl, rfl, ho⟩ | ⟨o, rfl, rfl, rfl, rfl, ho⟩ |
    ⟨o, rfl, rfl, rfl, rfl, ho⟩ | ⟨o, rfl, hx, rfl, rfl, rfl⟩ := hi
  · exact Iss.traps_ld g e
  · exact Iss.traps_ldw g e
  · exact (exec_st g ho).trans (Iss.store_traps _ e)
  · exact (exec_atom g ho).trans (Iss.atomic_traps _ e)
  · exact (exec_red g ho).trans (Iss.atomic_traps _ e)
  · exact Iss.traps_strmCfg g hx e

/-- The release accesses and the fence, with the order that they ask for and the lane that their traps record (R279). -/
def OrdersBy (h : Hdr) (y : Iss) (i : Instr) (k : FKind) (sc : Scope) (lane : Nat) : Prop :=
  (∃ o : St, (i = .st h o ∨ i = .sts h o) ∧ o.ord = .sync sc ∧ k = .rel ∧ lane = lowest y.ex) ∨
  (∃ o : Atom, i = .atom h o ∧ (o.ord = .rel sc ∨ o.ord = .ar sc) ∧ k = .rel ∧ lane = lowest y.ex) ∨
  (∃ o : Red, i = .red h o ∧ (o.ord = .rel sc ∨ o.ord = .ar sc) ∧ k = .rel ∧ lane = lowest y.ex) ∨
  (∃ o : Fence, i = .fence h o ∧ k = o.k ∧ sc = o.sc ∧ lane = lowest y.act)

theorem OrdersBy.exec_eq {h : Hdr} {s : State} {y : Iss} {i : Instr} {k : FKind} {sc : Scope} {lane : Nat}
    (hi : OrdersBy h y i k sc lane) (g : Issues i s y) : ∃ f, exec i s = y.ordered lane k sc f := by
  obtain ⟨o, rfl | rfl, ho, rfl, rfl⟩ | ⟨o, rfl, ho, rfl, rfl⟩ | ⟨o, rfl, ho, rfl, rfl⟩ | ⟨o, rfl, rfl, rfl, rfl⟩ := hi
  · exact ⟨_, (runO_next g _).trans (by rw [ho])⟩
  · exact ⟨_, (runO_next g _).trans (by rw [ho])⟩
  · exact ⟨_, (runO_next g _).trans (Iss.atomOrd_of_release ho _)⟩
  · exact ⟨_, (runO_next g _).trans (Iss.atomOrd_of_release ho _)⟩
  · exact ⟨_, runO_next g _⟩

/-- Settles O36: each class of R304 in its order, by the function that checks it. -/
theorem accessTraps : Obligations.AccessTraps := by
  unfold Obligations.AccessTraps
  refine ⟨fun h s y i k n as hi g => ?_, fun h s y hs => ⟨?_, ?_, ?_, ?_⟩, fun h s y i k sc lane hi g hx => ?_, ?_,
    fun s k n b priv got pt off h1 h2 => State.readElem_of_not_fmt h1 h2⟩
  · dsimp only
    obtain ⟨hal, hrest⟩ := Iss.reach_traps (ReachesBy.traps hi g)
    refine ⟨hal, fun ha hl => ⟨(hrest ha hl).1, fun hok p hp => (hrest ha hl).2 hok p (Eq.trans ?_ hp)⟩⟩
    congr 1
    funext q
    dsimp only
    cases y.s.xlate y.b.core y.b.asid y.b.sid q.2 <;> rfl
  · intro i unc n as xs hi g hr hh hc a ha
    have hq := Iss.poisoned_eq_some ha
    obtain ⟨o, rfl, rfl, rfl, rfl⟩ | ⟨o, rfl, rfl, rfl, rfl⟩ := hi
    · exact (exec_ld_of_reaches g hr).trans (congrArg _ (Iss.loadFrom_poison hs _ _ _ _ hh hc hq))
    · exact (exec_ldw_of_reaches g hr).trans (congrArg _ (Iss.loadFrom_poison hs _ _ _ _ hh hc hq))
  · intro i n as xs dup hi g hr hh
    obtain ⟨o, rfl, rfl, rfl, ho, rfl⟩ | ⟨o, rfl, rfl, rfl, ho, rfl⟩ := hi
    · exact ⟨fun a hd => (exec_atom g ho).trans (Iss.atomic_dup _ hr hh hd),
        fun hd hl hc a hp => (exec_atom g ho).trans (Iss.atomic_poison (red := false) hs hl _ hr hh hd hc hp)⟩
    · exact ⟨nofun,
        fun _ hl hc a hp => (exec_red g ho).trans (Iss.atomic_poison hs hl _ hr hh rfl hc hp)⟩
  · exact fun o a d g hx hr hh hd => Iss.traps_strmCfg_read g hs hx hr hh hd
  · intro i n as hi hl g
    have traps : ∀ t, y.s.scratchAll y.b y.k n as = .error t → Traps i s y t := by
      obtain ⟨o, rfl, rfl, rfl⟩ | ⟨o, rfl, rfl, rfl, ho⟩ := hi
      · exact fun t e => Iss.traps_lds g hl e
      · exact fun t e => Iss.traps_sts g ho hl e
    refine ⟨fun p hp => traps _ (State.scratchAll_align _ _ _ hp),
      fun ha p hp => traps _ (State.scratchAll_perm _ _ _ ha (Eq.trans ?_ hp))⟩
    congr 1
    funext q
    cases (y.s.windowOf y.b y.k (q.2.extractLsb' 20 6).toNat).bind y.s.blk <;> rfl
  · obtain ⟨f, hf⟩ := OrdersBy.exec_eq hi g
    refine ⟨fun hu => hf.trans (Iss.ordered_unresolved hx hu _ _ _ _),
      fun hu ht => hf.trans (Iss.ordered_struck hx hu ht _ _ _ _),
      fun hw ho a ha => hf.trans (Iss.ordered_werr hx hw ho ha _ _)⟩
  · intro i s h b x ch m hs
    dsimp only
    intro p rest q hports hp
    have traps : ∀ t, (s.setBlk s.curBlock b).popAll s.curBlock s.curBand b x (((x.held ch.pc ch.active).map Hold.got).getD [])
        (x.guarded h ch.active) (lowest ch.active) (q :: rest) = .trap t →
        exec i s = .next ((s.setBlk s.curBlock b).syncTrap s.curBlock s.curBand t ch.pc ch.active) := by
      intro t ht
      rw [← State.popTrap_of_sid (n := s.curBand) (x := x) hs]
      exact exec_of_prep_out m.hdr (m.prep_popTrap (by rw [hports]; exact State.popAll_append_trap ht p hp))
    refine ⟨fun hc => traps _ ?_, fun hc hpush => traps _ ?_, fun hc hpush l c va hl hf hj => traps _ ?_⟩ <;>
      unfold State.popAll <;> dsimp only
    · rw [hc]; rfl
    · rw [hc, hpush]; rfl
    · rw [hc, hpush, gather_first_fault _ _ _ _ hl hf hj]
      rfl

end Sys2Proof.Machine

/-! # Loads that miss -/

namespace Sys2Proof.Machine

open Sys2Proof

/-! ### Messages on their way -/

/-- A message is in the network, or waits at a core for the answer to an earlier access of R281. -/
def State.HasSent (t : State) (core : Nat) (m : Msg) : Prop :=
  (∃ p ∈ t.net, p.msg = m) ∨ ∃ q ∈ (t.core core).scq, q.msg = m

section

variable {s t : State} {c : Nat} {m : Msg}

theorem State.HasSent.of_same (h : s.HasSent c m) (hn : t.net = s.net) (hc : t.cores = s.cores) : t.HasSent c m := by
  rw [State.HasSent, State.core, hn, hc]
  exact h

theorem State.HasSent.of_shell (h : s.HasSent c m) (hs : s.sameShell t) : t.HasSent c m := by
  unfold State.sameShell at hs
  exact h.of_same (congrArg State.net hs :) (congrArg State.cores hs :)

theorem State.hasSent_send (s : State) (c : Nat) (src dest : Router) (cls : PktCls) (lid : Nat) (blk : Option (Nat × Nat))
    (m : Msg) : (s.send src dest cls lid blk m).HasSent c m :=
  .inl ⟨_, List.mem_append_right _ (List.mem_singleton_self _), rfl⟩

theorem State.HasSent.send (h : s.HasSent c m) (src dest : Router) (cls : PktCls) (lid : Nat) (blk : Option (Nat × Nat))
    (m' : Msg) : (s.send src dest cls lid blk m').HasSent c m :=
  h.imp (fun ⟨p, hp, e⟩ => ⟨p, List.mem_append_left _ hp, e⟩) id

/-- The queue of R281 of a core takes an access at its end. -/
theorem State.scq_scSend (s : State) (core c : Nat) (a : ScAcc) :
    ((s.scSend core a).core c).scq = (s.core c).scq ++ if c = core then [a] else [] := by
  have hq : ∀ k : Core, ((s.setCore core k).core c).scq = if c = core then k.scq else (s.core c).scq := by
    intro k
    rw [State.core, State.setCore, tget_tset]
    split <;> rfl
  unfold State.scSend
  dsimp only
  have hcore : ((s.setCore core { s.core core with scq := (s.core core).scq ++ [a] }).core c).scq =
      (s.core c).scq ++ if c = core then [a] else [] := by
    rw [hq]
    split
    next h => rw [h]
    next => rw [List.append_nil]
  split
  · exact hcore
  · exact hcore

theorem State.net_scSend (s : State) (core : Nat) (a : ScAcc) : ∃ ps, (s.scSend core a).net = s.net ++ ps := by
  unfold State.scSend
  dsimp only
  split
  · exact ⟨_, rfl⟩
  · exact ⟨[], (List.append_nil _).symm⟩

theorem State.HasSent.scSend (h : s.HasSent c m) (core : Nat) (a : ScAcc) : (s.scSend core a).HasSent c m := by
  obtain ⟨ps, hps⟩ := s.net_scSend core a
  rw [State.HasSent, hps, State.scq_scSend]
  exact h.imp (fun ⟨p, hp, e⟩ => ⟨p, List.mem_append_left _ hp, e⟩) fun ⟨q, hq, e⟩ => ⟨q, List.mem_append_left _ hq, e⟩

theorem State.hasSent_scSend (s : State) (core : Nat) (a : ScAcc) : (s.scSend core a).HasSent core a.msg := by
  refine .inr ⟨a, ?_, rfl⟩
  rw [State.scq_scSend, if_pos rfl]
  exact List.mem_append_right _ (List.mem_singleton_self a)

theorem State.HasSent.askLine (h : s.HasSent c m) (k n : Nat) (b : Block) (op : Nat) (unc watch : Bool) (x : Xl) (line : Nat) :
    (s.askLine k n b op unc watch x line).HasSent c m := by
  unfold State.askLine
  dsimp only
  split
  · exact h.scSend _ _
  · exact h.send ..

/-- The request for a line, as some translation gives it its key and its marks. -/
def State.AsksLine (t : State) (k n op core line : Nat) (watch : Bool) : Prop :=
  ∃ kid u nc sc, t.HasSent core (.loadReq k n op core line kid u nc sc watch)

theorem State.AsksLine.mono {k n op core line : Nat} {watch : Bool} (h : s.AsksLine k n op core line watch)
    (hm : ∀ m, s.HasSent core m → t.HasSent core m) : t.AsksLine k n op core line watch :=
  have ⟨kid, u, nc, sc, hs⟩ := h
  ⟨kid, u, nc, sc, hm _ hs⟩

theorem State.asksLine_askLine (s : State) (k n : Nat) (b : Block) (op : Nat) (unc watch : Bool) (x : Xl) (line : Nat) :
    (s.askLine k n b op unc watch x line).AsksLine k n op b.core line watch := by
  refine ⟨x.kid, unc || x.sc || x.nc, x.nc, x.sc, ?_⟩
  unfold State.askLine
  dsimp only
  split
  next h => simpa only [h] using State.hasSent_scSend s b.core _
  next => exact State.hasSent_send ..

theorem State.HasSent.foldl {α : Type} {f : State → α → State} (hf : ∀ s a, s.HasSent c m → (f s a).HasSent c m)
    (l : List α) (h : s.HasSent c m) : (l.foldl f s).HasSent c m := by
  induction l generalizing s with
  | nil => exact h
  | cons a l ih => exact ih (hf s a h)

/-- A fold in which every step keeps what is sent, and the step of one member sends. -/
theorem State.AsksLine.foldl {α : Type} {k n op core line : Nat} {watch : Bool} {f : State → α → State}
    (hf : ∀ s a m, s.HasSent core m → (f s a).HasSent core m) {a : α} {l : List α} (ha : a ∈ l)
    (h : ∀ s, (f s a).AsksLine k n op core line watch) (s : State) :
    (l.foldl f s).AsksLine k n op core line watch := by
  obtain ⟨l₁, l₂, rfl⟩ := List.append_of_mem ha
  rw [List.foldl_append, List.foldl_cons]
  exact (h _).mono fun m => State.HasSent.foldl (fun s a => hf s a m) l₂

end

theorem find?_line_isSome {α : Type} {l : List α} (f : α → Nat) {a : α} (ha : a ∈ l) :
    ∃ b, l.find? (fun b => lineOf (f b) == lineOf (f a)) = some b := by
  rw [← Option.isSome_iff_exists, List.find?_isSome]
  exact ⟨a, ha, beq_self_eq_true _⟩

/-- Asking for accesses asks for each of their lines. -/
theorem Iss.asksLine_ask (y : Iss) (s : State) (op : Nat) (unc watch : Bool) {xs : List LaneX} {a : LaneX} (ha : a ∈ xs) :
    (y.ask s op unc watch xs).AsksLine y.k y.n op y.b.core (lineOf a.x.pa) watch := by
  unfold Iss.ask
  refine State.AsksLine.foldl (fun s line m h => ?_) (a := lineOf a.x.pa) ?_ (fun s => ?_) s
  · split
    · exact h.askLine ..
    · exact h
  · exact List.mem_eraseDups.2 (List.mem_map_of_mem ha)
  · obtain ⟨b, hb⟩ := find?_line_isSome (fun a : LaneX => a.x.pa) ha
    rw [hb]
    exact State.asksLine_askLine ..

theorem State.asksLine_fetchHold (s : State) (k n : Nat) (b : Block) (x : Band) (pc : DWord) (act : List Nat) (unc watch : Bool)
    {ps : List Need} {p : Need} (hp : p ∈ ps) :
    (s.fetchHold k n b x pc act unc watch ps).AsksLine k n s.serial b.core (lineOf p.pa) watch := by
  unfold State.fetchHold
  dsimp only
  refine State.AsksLine.foldl (fun s line m h => ?_) (a := lineOf p.pa) ?_ (fun s => ?_) _
  · split
    · exact h.askLine ..
    · exact h
  · exact List.mem_eraseDups.2 (List.mem_map_of_mem hp)
  · obtain ⟨q, hq⟩ := find?_line_isSome Need.pa hp
    rw [hq]
    exact State.asksLine_askLine ..

/-! ### What asking leaves alone -/

@[simp] theorem State.blocks_askLine (s : State) (k n : Nat) (b : Block) (op : Nat) (unc watch : Bool) (x : Xl) (line : Nat) :
    (s.askLine k n b op unc watch x line).blocks = s.blocks := by
  unfold State.askLine
  dsimp only
  split
  · exact State.blocks_scSend ..
  · rfl

@[simp] theorem Iss.blocks_ask (y : Iss) (s : State) (op : Nat) (unc watch : Bool) (xs : List LaneX) :
    (y.ask s op unc watch xs).blocks = s.blocks := by
  unfold Iss.ask
  refine State.blocks_foldl _ (fun _ _ => ?_) _ _
  split
  · exact State.blocks_askLine ..
  · rfl

/-- Asking before the issue leaves the blocks with the band's hold alone changed. -/
theorem State.blocks_fetchHold (s : State) (k n : Nat) (b : Block) (x : Band) (pc : DWord) (act : List Nat) (unc watch : Bool)
    (ps : List Need) : ∃ q : Hold, q.id = s.serial ∧ q.pc = pc ∧ q.act = act ∧ q.need = ps.map (fun p => (p.pa, p.n)) ∧
      (s.fetchHold k n b x pc act unc watch ps).blocks = (s.modBand k n fun x => { x with hold := some q }).blocks := by
  refine ⟨{ id := s.serial, pc, act, need := ps.map fun p => (p.pa, p.n), got := ((x.held pc act).map Hold.got).getD [] },
    rfl, rfl, rfl, rfl, ?_⟩
  unfold State.fetchHold
  refine State.blocks_foldl _ (fun _ _ => ?_) _ _
  split
  · exact State.blocks_askLine ..
  · rfl

@[simp] theorem State.blocks_tlbFill (s : State) (core : Nat) (x : Xl) : (s.tlbFill core x).blocks = s.blocks := by
  unfold State.tlbFill
  split <;> rfl

@[simp] theorem State.blocks_walkFill (s : State) (core asid lid : Nat) (blk : Option (Nat × Nat)) (va : Nat) (x : Xl) :
    (s.walkFill core asid lid blk va x).blocks = s.blocks := by
  unfold State.walkFill
  split
  · rw [State.blocks_tlbFill]
    exact (State.sent_engineAsk ..).blocks_eq
  · rfl

theorem State.blocks_foldl_fst {α β : Type} (f : State × β → α → State × β) (hf : ∀ p a, (f p a).1.blocks = p.1.blocks)
    (l : List α) (p : State × β) : (l.foldl f p).1.blocks = p.1.blocks := by
  induction l generalizing p with
  | nil => rfl
  | cons a l ih => rw [List.foldl_cons, ih, hf]

@[simp] theorem State.blocks_tlbFillAll (s : State) (core asid lid : Nat) (blk : Option (Nat × Nat)) (ys : List LaneX) :
    (s.tlbFillAll core asid lid blk ys).blocks = s.blocks := by
  unfold State.tlbFillAll
  refine State.blocks_foldl_fst _ (fun st y => ?_) ys (s, [])
  split
  · split
    · rfl
    · exact State.blocks_walkFill ..
  · rfl

@[simp] theorem Iss.blocks_reads (y : Iss) (s : State) (xs : List LaneX) : (y.reads s xs).blocks = s.blocks := by
  unfold Iss.reads Iss.fills
  dsimp only
  split
  · exact State.blocks_tlbFillAll ..
  · rw [(State.sent_engineAsk ..).blocks_eq, State.blocks_tlbFillAll]

/-! ### Lanes of an issue -/

theorem Band.nodup_readyLanes (x : Band) : x.readyLanes.Nodup :=
  (List.nodup_range.filter _).filter _

theorem Band.nodup_pool (x : Band) : x.pool.Nodup := by
  have he : x.eligible.Nodup := by
    unfold Band.eligible
    split
    · exact x.nodup_readyLanes
    · exact x.nodup_readyLanes.filter _
  unfold Band.pool
  split
  · exact he
  · exact he.filter _

theorem State.lanes_of_prepAt {s : State} {k n : Nat} {b : Block} {x : Band} {h : Hdr} {i : Instr} {ch : Choice} {y : Iss}
    (g : s.prepAt k n b x h i ch = .go y) : y.act = ch.active ∧ y.ex = x.guarded h ch.active := by
  unfold State.prepAt at g
  split at g
  · cases g
  · cases g
  split at g
  · cases g
  dsimp only at g
  split at g
  · cases g
  · cases g
  · cases g
  · cases g
  · cases g
  split at g
  · cases g
  · cases g
  · cases g
  · cases g
  · cases g
  · cases g
    exact ⟨rfl, rfl⟩

/-- An issue's record comes of the choice of R172 and of the guard. -/
theorem Iss.ex_of_issues {i : Instr} {s : State} {y : Iss} (g : Issues i s y) :
    ∃ (x₀ x : Band) (h : Hdr) (ch : Choice), x₀.choose = some ch ∧ y.act = ch.active ∧ y.ex = x.guarded h ch.active := by
  unfold Issues prep at g
  split at g
  · split at g
    · cases g
    · split at g
      · cases g
      · split at g
        · cases g
        next ch hch =>
          exact ⟨_, _, _, ch, hch, State.lanes_of_prepAt g⟩
  · cases g

theorem Iss.nodup_ex {i : Instr} {s : State} {y : Iss} (g : Issues i s y) : y.ex.Nodup := by
  obtain ⟨x₀, x, h, ch, hch, -, he⟩ := Iss.ex_of_issues g
  obtain ⟨-, -, ha⟩ := Band.choose_eq_some hch
  rw [he, ha, Band.guarded]
  exact (x₀.nodup_pool.filter _).filter _

/-- A translation that succeeds answers every lane asked for. -/
theorem State.lane_xlateAll {s : State} {core asid fn : Nat} {own : Option Nat} {priv : Bool} {k : AKind} {as : List (Nat × Nat)}
    {xs : List LaneX} (h : s.xlateAll core asid fn own priv k as = .ok xs) : xs.map LaneX.lane = as.map Prod.fst := by
  unfold State.xlateAll at h
  dsimp only at h
  split at h
  · cases h
  split at h
  · cases h
  next hw =>
  split at h
  · cases h
  cases h
  clear * - hw
  induction as with
  | nil => rfl
  | cons p as ih =>
    rw [List.map_cons, firstTrap] at hw
    rw [List.map_cons, List.filterMap_cons]
    dsimp only at hw ⊢
    cases e : s.xlate core asid own p.2 with
    | error f =>
      rw [e] at hw
      cases f <;> cases hw
    | ok x =>
      rw [e] at hw
      dsimp only at hw ⊢
      rw [List.map_cons, List.map_cons, ih hw]

theorem Iss.nodup_lanes {i : Instr} {s : State} {y : Iss} (g : Issues i s y) {k : AKind} {n : Nat} {base : Src} {disp : DWord}
    {xs : List LaneX} (h : y.reach k n (y.addrs base disp) = .ok xs) : (xs.map LaneX.lane).Nodup := by
  have hl : xs.map LaneX.lane = y.ex := by
    unfold Iss.reach at h
    split at h
    · cases h
    · rw [State.lane_xlateAll h, Iss.addrs, List.map_map]
      exact List.map_id _
  rw [hl]
  exact Iss.nodup_ex g

end Sys2Proof.Machine

/-! # What a load that misses leaves behind -/

namespace Sys2Proof.Machine

open Sys2Proof

section

variable {y : Iss} {s t u : State} {next : Nat → DWord} {c : Block} {z : Band}

theorem Iss.bandIn_eq (hc : t.blk y.k = some c) (hz : c.band y.n = some z) : y.bandIn t = z := by
  rw [Iss.bandIn, hc, Option.bind_some, hz, Option.getD_some]

theorem Iss.blk_modBand_self (hc : t.blk y.k = some c) (f : Band → Band) :
    (t.modBand y.k y.n f).blk y.k = some (c.modBand y.n f) := by
  rw [State.blk_modBand, hc]
  rfl

theorem Block.band_modBand_self (hz : c.band y.n = some z) (f : Band → Band) : (c.modBand y.n f).band y.n = some (f z) := by
  rw [Block.band_modBand, if_pos rfl, hz]
  rfl

/-- An issue that goes on from a state in which its band's front is its own has moved its lanes and no more. -/
theorem Iss.Goes.moved (g : y.Goes u t next) (hc : u.blk y.k = some c) (hz : c.band y.n = some z) (hf : z.front = y.x.front)
    (hm : u.mem = y.s.mem) (ho : ∀ k, k ≠ y.k → u.blk k = y.s.blk k) : y.Moved t next := by
  obtain ⟨hl, hu, hfs, hsp, -, -⟩ := g.bandIn hc hz
  obtain ⟨fl, fu, ff, fs⟩ := Band.front_eq_iff.1 hf
  have lane : ∀ l, z.lane l = y.x.lane l := fun l => by rw [Band.lane, fl, Band.lane]
  have hmem : t.mem = u.mem := by
    have := g.shell
    unfold State.sameShell at this
    exact (congrArg State.mem this :)
  constructor
  case regs =>
    intro l
    rw [hl l, lane]
    split <;> exact ⟨rfl, rfl⟩
  case goes =>
    intro l ha
    rw [hl l, if_pos (by simpa using ha)]
  case still =>
    intro l ha
    rw [hl l, if_neg (by simpa using ha), lane]
  case uregs => exact hu.trans fu
  case fstat => exact hfs.trans ff
  case special => exact hsp.trans fs
  case mem => exact hmem.trans hm
  case others => exact fun k hk => (g.others k hk).trans (ho k hk)

/-- Blocking lanes moves nothing. -/
theorem Iss.Moved.blockLanes (m : y.Moved t next) (hc : t.blk y.k = some c) (hz : c.band y.n = some z) (ls : List Nat)
    (w : Wait) : y.Moved (t.blockLanes y.k y.n ls w) next := by
  have hin : y.bandIn t = z := Iss.bandIn_eq hc hz
  have hout : y.bandIn (t.blockLanes y.k y.n ls w) = z.modLanes ls fun _ l => { l with st := .blocked w } :=
    Iss.bandIn_eq (Iss.blk_modBand_self hc _) (Block.band_modBand_self hz _)
  have lane : ∀ l, ∃ st, y.laneIn (t.blockLanes y.k y.n ls w) l = { y.laneIn t l with st } := by
    intro l
    rw [Iss.laneIn, Iss.laneIn, hout, hin]
    by_cases hl : l < z.lanes.length
    · rw [Band.lane_modLanes _ _ _ hl]
      split <;> exact ⟨_, rfl⟩
    · rw [Band.lane, Band.lane, List.getD_eq_default _ _ (by rw [Band.modLanes_length]; omega),
        List.getD_eq_default _ _ (by omega)]
      exact ⟨_, rfl⟩
  constructor
  case regs =>
    intro l
    obtain ⟨st, e⟩ := lane l
    rw [e]
    exact m.regs l
  case goes =>
    intro l ha
    obtain ⟨st, e⟩ := lane l
    rw [e]
    exact m.goes l ha
  case still =>
    intro l ha
    obtain ⟨st, e⟩ := lane l
    rw [e]
    exact m.still l ha
  case uregs => rw [hout, ← m.uregs, hin]; rfl
  case fstat => rw [hout, ← m.fstat, hin]; rfl
  case special => rw [hout, ← m.special, hin]; rfl
  case mem => exact m.mem
  case others => exact fun k hk => (State.blk_modBand_ne _ _ _ hk).trans (m.others k hk)

/-- The effect of an access put in flight on its band: its entry comes last in the list, the band's front stays. -/
theorem Iss.inFlight_eq (y : Iss) (i : Instr) (u : State) (op : PendOp) (port : Option (Nat × List PushAt)) :
    ∃ F : Band → Band, (∀ x, (F x).front = x.front) ∧
      (∀ x, ∃ op' : PendOp, (op'.id = op.id ∧ op'.kind = op.kind ∧ op'.d = op.d ∧ op'.lanes = op.lanes) ∧
        (F x).pend = x.pend ++ [op']) ∧
      y.inFlight i u op port =
        if op.acq then (y.finish { u.modBand y.k y.n F with serial := u.serial + 1 } i []).blockLanes y.k y.n y.ex (.reply op.id)
        else y.finish { u.modBand y.k y.n F with serial := u.serial + 1 } i [] := by
  unfold Iss.inFlight
  dsimp only
  refine ⟨_, fun x => ?_, fun x => ?_, rfl⟩
  · split <;> rfl
  · split <;> refine ⟨_, ?_, rfl⟩ <;> exact ⟨rfl, rfl, rfl, rfl⟩

/-- An access put in flight stands last in its band's list, under the number that it was given; its instruction has moved the
lanes alone, and those of an acquire wait for it (R49, R279, R302). -/
theorem Iss.Good.inFlight {s₀ : State} (g : y.Good s₀) {i : Instr} {h : Hdr} (hi : i.hdr? = some h) (hc : u.blk y.k = some c)
    (hz : c.band y.n = some z) (hf : z.front = y.x.front) (hm : u.mem = y.s.mem) (ho : ∀ k, k ≠ y.k → u.blk k = y.s.blk k)
    (op : PendOp) (port : Option (Nat × List PushAt)) :
    ∃ op' : PendOp, (op'.id = op.id ∧ op'.kind = op.kind ∧ op'.d = op.d ∧ op'.lanes = op.lanes) ∧
      (y.bandIn (y.inFlight i u op port)).pend = z.pend ++ [op'] ∧
      y.Moved (y.inFlight i u op port) (y.goOn i []) ∧
      (∀ core m, u.HasSent core m → (y.inFlight i u op port).HasSent core m) ∧
      (op.acq = true → ∀ l ∈ y.ex, (y.laneIn (y.inFlight i u op port) l).st = .blocked (.reply op.id)) := by
  obtain ⟨F, hF, hp, he⟩ := y.inFlight_eq i u op port
  obtain ⟨op', hop, hpend⟩ := hp z
  rw [he]
  obtain ⟨v, hv⟩ : ∃ v : State, v = { u.modBand y.k y.n F with serial := u.serial + 1 } := ⟨_, rfl⟩
  rw [← hv]
  have hcv : v.blk y.k = some (c.modBand y.n F) := by rw [hv]; exact Iss.blk_modBand_self hc F
  have hzv : (c.modBand y.n F).band y.n = some (F z) := Block.band_modBand_self hz F
  have hfv : (F z).front = y.x.front := (hF z).trans hf
  have hlen : (F z).lanes.length = y.x.lanes.length := by rw [(Band.front_eq_iff.1 hfv).1]
  have hgo := g.goes hi [] hcv hzv hlen
  have hmoved : y.Moved (y.finish v i []) (y.goOn i []) := hgo.moved hcv hzv hfv (by rw [hv]; exact hm)
    fun k hk => by rw [hv]; exact (State.blk_modBand_ne u y.n F hk).trans (ho k hk)
  have hsent : ∀ core m, u.HasSent core m → (y.finish v i []).HasSent core m := fun core m hs =>
    State.HasSent.of_shell (by rw [hv]; exact hs.of_same rfl rfl) hgo.shell
  obtain ⟨b, b', x, x', hb, hb', -, -, hx, hx', -, hrest⟩ := hgo.own
  obtain rfl := Option.some.inj (hb.symm.trans hcv)
  obtain rfl := Option.some.inj (hx.symm.trans hzv)
  have hpend' : x'.pend = z.pend ++ [op'] := by rw [hrest]; exact hpend
  have hlen' : ∀ l ∈ y.ex, l < x'.lanes.length := by
    intro l hl
    have := y.length_finish [] hi hcv hzv
    rw [Iss.bandIn_eq hb' hx', hlen] at this
    exact this ▸ g.lt l (g.exAct l hl)
  refine ⟨op', hop, ?_, ?_, ?_, ?_⟩
  · split
    · rw [State.blockLanes, Iss.bandIn_eq (Iss.blk_modBand_self hb' _) (Block.band_modBand_self hx' _)]
      exact hpend'
    · rw [Iss.bandIn_eq hb' hx']
      exact hpend'
  · split
    · exact hmoved.blockLanes hb' hx' _ _
    · exact hmoved
  · intro core m hs
    split
    · exact (hsent core m hs).of_same rfl rfl
    · exact hsent core m hs
  · intro ha l hl
    rw [if_pos ha, Iss.laneIn, State.blockLanes, Iss.bandIn_eq (Iss.blk_modBand_self hb' _) (Block.band_modBand_self hx' _),
      Band.lane_modLanes _ _ _ (hlen' l hl), if_pos (by simpa using hl)]

/-! ### The body of a load -/

theorem Band.took_front_pend (x : Band) (hs : List AtHand) : (x.took hs).front = x.front ∧ (x.took hs).pend = x.pend := by
  unfold Band.took
  induction hs generalizing x with
  | nil => exact ⟨rfl, rfl⟩
  | cons h hs ih => exact ih _

/-- The lanes of a load's access in flight: those that bytes at hand serve are done. -/
def PendLane.ofHand (a : LaneX) (v : Option AtHand) : PendLane :=
  ⟨a.lane, BitVec.ofNat 64 a.va, a.x.pa, v.isSome, (v.map fun h => bytesV h.bs).getD 0, a.x.kid⟩

/-- A load that lacks a lane's bytes: what it asks for, and the access that it puts in flight. -/
theorem Iss.loadFrom_eq_inFlight (i : Instr) {sz : LSize} (d : BitVec 8) (acq : Bool) {unc : Bool}
    {xs : List LaneX} (hh : y.held true xs = none) (hcold : y.coldParts unc (xs.map fun a => (a, lsizeBytes sz)) = [])
    (hp : y.poisoned unc (lsizeBytes sz) xs = none) {port : Option (Nat × List PushAt)} (hport : y.portOk i y.s = .ok port)
    (ha : ∃ a ∈ xs, y.handAll unc a (lsizeBytes sz) = none) :
    ∃ (x₁ : Band) (asks : List LaneX) (m : Nat) (op : PendOp), (x₁.front = y.x.front ∧ x₁.pend = y.x.pend) ∧
      (∀ a, a ∈ asks ↔ a ∈ xs ∧ y.handAll unc a (lsizeBytes sz) = none) ∧
      (op.id = y.s.serial ∧ op.kind = .load sz ∧ op.d = d ∧ op.acq = acq ∧
        op.lanes = xs.map fun a => .ofHand a (y.handAll unc a (lsizeBytes sz))) ∧
      let z : Iss := { y.resync (y.reads { y.s with serial := y.s.serial + 1 } xs) with x := x₁ }
      y.loadFrom i sz d acq unc false xs =
        z.inFlight i ((z.ask z.base y.s.serial unc false asks).countMiss z.k z.n z.b m) op port := by
  obtain ⟨a, hax, han⟩ := ha
  have hmem : ∀ a, a ∈ ((xs.map fun a => (a, y.handAll unc a (lsizeBytes sz))).filter fun g => g.2.isNone).map (·.1) ↔
      a ∈ xs ∧ y.handAll unc a (lsizeBytes sz) = none := by
    intro a
    simp only [List.mem_map, List.mem_filter, Prod.exists, Prod.mk.injEq, Option.isNone_iff_eq_none]
    constructor
    · rintro ⟨b, v, ⟨⟨c, hc, rfl, rfl⟩, hv⟩, rfl⟩
      exact ⟨hc, hv⟩
    · exact fun ⟨hx, hn⟩ => ⟨a, _, ⟨⟨a, hx, rfl, rfl⟩, hn⟩, rfl⟩
  unfold Iss.loadFrom
  dsimp only
  rw [hh]
  dsimp only
  rw [hcold, hp, hport]
  dsimp only
  rw [if_neg (by decide : ¬ false = true), if_neg (by
    rw [List.isEmpty_iff]
    exact List.ne_nil_of_mem ((hmem a).2 ⟨hax, han⟩)), if_neg (by decide : ¬ false = true)]
  refine ⟨_, _, _, _, ?_, hmem, ?_, rfl⟩
  · exact y.x.took_front_pend _
  · refine ⟨rfl, rfl, rfl, rfl, ?_⟩
    rw [List.map_map]
    refine List.map_congr_left fun a _ => ?_
    dsimp only [Function.comp]
    cases y.handAll unc a (lsizeBytes sz) <;> rfl

theorem Band.count_front_pend (x : Band) (prof : Bool) (code n : Nat) :
    (x.count prof code n).front = x.front ∧ (x.count prof code n).pend = x.pend := by
  unfold Band.count
  split <;> exact ⟨rfl, rfl⟩

/-- The state over which a load that misses puts its access in flight: each line has been asked for, and of the blocks the
issue's own band alone differs. -/
theorem Iss.Good.asked {s₀ : State} (g : y.Good s₀) {z : Iss} {xs asks : List LaneX} {x₁ : Band}
    (hz : z = { y.resync (y.reads { y.s with serial := y.s.serial + 1 } xs) with x := x₁ }) (op : Nat) (unc : Bool) (m : Nat)
    {u : State} (hu : u = (z.ask z.base op unc false asks).countMiss z.k z.n z.b m) :
    ∃ c v, u.blk y.k = some c ∧ c.band y.n = some v ∧ v.front = x₁.front ∧ v.pend = x₁.pend ∧ u.mem = y.s.mem ∧
      (∀ k, k ≠ y.k → u.blk k = y.s.blk k) ∧
      ∀ a ∈ asks, u.AsksLine y.k y.n op y.b.core (lineOf a.x.pa) false := by
  subst hu
  obtain ⟨x₀, hx₀, -⟩ := g.band
  have hblk : ∀ k, z.s.blk k = y.s.blk k := fun k => by
    rw [hz]
    exact congrArg (tget · k) (Iss.blocks_reads ..)
  have hzk : z.k = y.k := by rw [hz]; rfl
  have hzn : z.n = y.n := by rw [hz]; rfl
  have hzx : z.x = x₁ := by rw [hz]
  have hzb : z.b = y.b := by
    have : z.b = (z.s.blk y.k).getD y.b := by rw [hz]; rfl
    rw [this, hblk, g.blk, Option.getD_some]
  have hmem : z.s.mem = y.s.mem := by rw [hz]; exact Iss.mem_reads ..
  have hask : ∀ k, (z.ask z.base op unc false asks).blk k = z.base.blk k := fun k =>
    congrArg (tget · k) (Iss.blocks_ask ..)
  have hbase : z.base.blk y.k = some (y.b.setBand y.n x₁) := by
    rw [Iss.base, hzk, hzb, hzn, hzx]
    exact State.blk_setBlk ..
  have hcount : ∀ k, k ≠ y.k → ((z.ask z.base op unc false asks).countMiss z.k z.n z.b m).blk k = y.s.blk k := fun k hk => by
    rw [State.countMiss, State.blk_modBand_ne _ _ _ (by rw [hzk]; exact hk), hask, Iss.base,
      State.blk_setBlk_ne _ _ (by rw [hzk]; exact hk), hblk]
  have hown : ((z.ask z.base op unc false asks).countMiss z.k z.n z.b m).blk y.k =
      some ((y.b.setBand y.n x₁).modBand y.n fun x => x.count ((z.ask z.base op unc false asks).dbg y.b 3) 3 m) := by
    rw [State.countMiss, hzk, hzn, hzb]
    exact Iss.blk_modBand_self ((hask _).trans hbase) _
  obtain ⟨hfront, hpend⟩ := x₁.count_front_pend ((z.ask z.base op unc false asks).dbg y.b 3) 3 m
  refine ⟨_, _, hown, Block.band_modBand_self (Block.band_setBand_self y.b x₁ x₀ hx₀) _, hfront, hpend, ?_, hcount, ?_⟩
  · rw [State.mem_countMiss, Iss.mem_ask, Iss.mem_base, hmem]
  · intro a ha
    have := z.asksLine_ask z.base op unc false ha
    rw [hzk, hzn, hzb] at this
    exact this.mono fun m hs => hs.of_same rfl rfl

end

/-! ### The obligation -/

/-- A lane of a load's access waits for its data exactly when nothing at hand serves it. -/
theorem PendLane.done_ofHand {xs : List LaneX} (hn : (xs.map LaneX.lane).Nodup) {f : LaneX → Option AtHand} {q : PendLane}
    (hq : q ∈ xs.map fun a => .ofHand a (f a)) {a : LaneX} (ha : a ∈ xs) (hl : q.lane = a.lane) :
    q.done = false ↔ f a = none := by
  obtain ⟨b, hb, rfl⟩ := List.mem_map.1 hq
  obtain rfl : b = a := List.inj_on_of_nodup_map hn hb ha hl
  simp [PendLane.ofHand]

/-- Settles O29: a load that misses asks and puts its access in flight; one whose poison is not known asks and holds. -/
theorem loadMissAsks : Obligations.LoadMissAsks := by
  unfold Obligations.LoadMissAsks
  intro h o s y xs
  dsimp only
  intro g hr hh
  have good := y.good g
  have hexec := exec_ld_of_reaches g hr
  refine ⟨fun hcold hp ⟨port, hport⟩ hmiss => ?_, fun ps hps hne => ?_⟩
  · obtain ⟨x₁, asks, m, op, ⟨hfront, hpend⟩, hasks, ⟨hid, hkind, hd, hacq, hlanes⟩, he⟩ :=
      Iss.loadFrom_eq_inFlight (.ld h o) o.d (LOrd.acquires o.ord) hh hcold hp hport hmiss
    obtain ⟨c, v, hc, hv, hvf, hvp, hmem, hoth, hsent⟩ := good.asked (asks := asks) (x₁ := x₁) (xs := xs) rfl y.s.serial
      (o.ord == .unc) m rfl
    obtain ⟨op', ⟨hid', hkind', hd', hlanes'⟩, hlast, hmoved, hkeep, hblock⟩ :=
      good.inFlight (i := .ld h o) rfl hc hv (hvf.trans hfront) hmem hoth op port
    refine ⟨_, op', hexec.trans (congrArg _ he), hmoved, ?_, hkind'.trans hkind, hd'.trans hd, ?_, ?_, ?_, ?_⟩
    · exact hlast.trans (by rw [hvp, hpend])
    · rw [hlanes', hlanes, List.map_map]
      rfl
    · intro q hq a ha hl
      rw [hlanes', hlanes] at hq
      exact PendLane.done_ofHand (Iss.nodup_lanes g hr.1) hq ha hl
    · intro a ha hn
      rw [hid', hid]
      exact (hsent a ((hasks a).2 ⟨ha, hn⟩)).mono (hkeep _)
    · intro sc hsc l hl
      rw [hid']
      exact hblock (by rw [hacq, hsc]; rfl) l hl
  · obtain ⟨x₀, hx₀, hx₀l⟩ := good.band
    have he : y.loadFrom (.ld h o) o.sz o.d (LOrd.acquires o.ord) (o.ord == .unc) false xs =
        y.fetchFor (o.ord == .unc) false ps := by
      unfold Iss.loadFrom
      dsimp only
      rw [hh]
      dsimp only
      rw [hps]
      cases ps with
      | nil => exact absurd rfl hne
      | cons p ps => rfl
    obtain ⟨q, hid, hpc, hact, hneed, hblocks⟩ := y.s.blocks_fetchHold y.k y.n y.b y.x y.pc y.act (o.ord == .unc) false
      (ps.map fun p => ⟨p.pa, p.n, p.a.x⟩)
    have hin : y.bandIn (y.fetchFor (o.ord == .unc) false ps) = { x₀ with hold := some q } :=
      Iss.bandIn_eq ((congrArg (tget · y.k) hblocks).trans (Iss.blk_modBand_self good.blk _)) (Block.band_modBand_self hx₀ _)
    refine ⟨_, q, hexec.trans (congrArg _ he), Iss.mem_fetchFor .., ?_, hpc, hact, ?_, ?_, fun p hp => ?_⟩
    · rw [hin]
    · rw [hneed, List.map_map]
      rfl
    · rw [hin, hx₀l]
    · rw [hid]
      exact State.asksLine_fetchHold y.s y.k y.n y.b y.x y.pc y.act (o.ord == .unc) false
        (p := ⟨p.pa, p.n, p.a.x⟩) (List.mem_map_of_mem hp)

end Sys2Proof.Machine

/-! # The dispatcher's steps -/

namespace Sys2Proof.Machine

open Sys2Proof

/-! ### What asking and finding a grid dispatchable change -/

theorem State.askHomes_eq (s : State) (src : Router) (lid : Nat) (blk : Option (Nat × Nat)) (id : Nat) (as : List LineAsk) :
    ∃ ps n, s.askHomes src lid blk id as = { s with net := s.net ++ ps, serial := n } := by
  unfold State.askHomes
  induction as generalizing s with
  | nil => exact ⟨[], s.serial, by rw [List.append_nil]; rfl⟩
  | cons a as ih =>
    obtain ⟨ps, n, e⟩ := ih (s.send src (s.homeRouter (128 * a.line)) .request lid blk (.engine a.line id a.kid a.nc))
    rw [List.foldl_cons, e]
    exact ⟨_, n, by rw [State.send, State.post, List.append_assoc]⟩

/-- The dispatcher's reads add packets and take numbers. -/
theorem State.deviceAsk_eq (s : State) (lines : List Nat) :
    ∃ ps n, s.deviceAsk lines = { s with net := s.net ++ ps, serial := n } := State.askHomes_eq ..

/-- The dispatcher that finds a grid dispatchable asks for its dependences and keeps what it has found. -/
theorem State.latchReady_eq (s : State) (lid : Nat) :
    ∃ ps n gs, s.latchReady lid = { s with net := s.net ++ ps, serial := n, grids := gs } ∧
      ∀ l, tget gs l = if l = lid then (s.grid l).map fun g => { g with ready := true } else s.grid l := by
  have same : ∃ ps n gs, s = { s with net := s.net ++ ps, serial := n, grids := gs } ∧ gs = s.grids :=
    ⟨[], s.serial, s.grids, by rw [List.append_nil], rfl⟩
  unfold State.latchReady
  cases hg : s.grid lid with
  | none =>
    obtain ⟨ps, n, gs, e, rfl⟩ := same
    refine ⟨ps, n, _, e, fun l => ?_⟩
    split
    next h => rw [h]; exact hg.trans (by rw [hg]; rfl)
    next => rfl
  | some g =>
    dsimp only
    split
    next hr =>
      obtain ⟨ps, n, gs, e, rfl⟩ := same
      refine ⟨ps, n, _, e, fun l => ?_⟩
      split
      next h =>
        have : { g with ready := true } = g := by rw [← hr]
        rw [h, hg, Option.map_some, this]
        exact hg
      next => rfl
    next =>
      obtain ⟨ps, n, e⟩ := s.deviceAsk_eq (s.depLines g)
      rw [e]
      refine ⟨ps, n, _, rfl, fun l => ?_⟩
      split
      next h => rw [h]; exact tget_tmod_self ..
      next h => exact tget_tmod_ne _ _ h

/-! ### A new block -/

/-- A grid's next block at its start on a core (R39, R201, R434). -/
structure State.StartsBlock (s t : State) (g : Grid) (ws : List Word) (c : Nat) (b : Block) : Prop where
  mem : t.mem = s.mem
  blk : t.blk s.serial = some b
  lid : b.lid = g.lid
  index : (b.bx, b.by', b.bz) = g.pkt.blockAt g.next
  core : b.core = c
  ldie : b.ldie = coreDie c
  st : b.st = .running
  bands : b.bands = List.replicate g.pkt.nbands (g.pkt.newBand ws (s.now (coreDie c)))
  hbase : b.hbase = (s.fn g.fn).hbase &&& ~~~3
  sid : b.sid.isSome = true ↔ g.sampled b.idx = true
  next : (t.grid g.lid).map Grid.next = some (g.next + 1)
  others : ∀ k, k ≠ s.serial → t.blk k = s.blk k

theorem State.putBlock_starts {s : State} {g : Grid} (hg : s.grid g.lid = some g) (c : Nat) (ws : List Word) :
    ∃ b, s.StartsBlock (s.putBlock g.lid c ws) g ws c b := by
  unfold State.putBlock
  rw [hg]
  dsimp only
  rcases hx : g.pkt.blockAt g.next with ⟨x, y, z⟩
  dsimp only
  have hnext : ∀ u : State, u.grids = s.grids → ((u.modGrid g.lid fun g => { g with
      next := g.next + 1, ready := true, lastDie := some (coreDie c), lastCore := tset g.lastCore (coreDie c) c }).grid
        g.lid).map Grid.next = some (g.next + 1) := by
    intro u hu
    have : u.grid g.lid = some g := (congrArg (tget · g.lid) hu).trans hg
    rw [State.modGrid, State.grid, tget_tmod_self, ← State.grid, this]
    rfl
  split
  next hsam =>
    refine ⟨_, rfl, State.blk_setBlk .., rfl, hx.symm, rfl, rfl, rfl, rfl, rfl, ?_, hnext _ rfl,
      fun k hk => State.blk_setBlk_ne _ _ hk⟩
    exact iff_of_true rfl hsam
  next hsam =>
    refine ⟨_, rfl, State.blk_setBlk .., rfl, hx.symm, rfl, rfl, rfl, rfl, rfl, ?_, hnext _ rfl,
      fun k hk => State.blk_setBlk_ne _ _ hk⟩
    exact iff_of_false (by exact Bool.false_ne_true) hsam

theorem execBlockPlacement_words {s t : State} {g : Grid} {ws : List Word} (hi : s.firstItem = some (.block g))
    (ho : s.argOpen g = false) (hw : s.argWords g = .words ws) (hp : (s.latchReady g.lid).placeNext g ws [] = some t)
    (hc : s.carveLack t = []) : execBlockPlacement s = .next (t.deviceAsk (s.argLines g)) := by
  unfold execBlockPlacement
  rw [hi]
  dsimp only
  rw [ho, if_neg (by decide), hw]
  dsimp only
  rw [hp]
  dsimp only
  rw [hc]
  rfl

theorem execBlockPlacement_bad {s : State} {g : Grid} {t : Trap} (hi : s.firstItem = some (.block g))
    (ho : s.argOpen g = false) (hw : s.argWords g = .bad t) :
    execBlockPlacement s = .next (s.failGrid g.lid 8 (g.argRecord t)) := by
  unfold execBlockPlacement
  rw [hi]
  dsimp only
  rw [ho, if_neg (by decide), hw]

theorem State.placeNext_one {s : State} {g g' : Grid} (hco : g.pkt.coRes = false) (hg : s.grid g.lid = some g') {c : Nat}
    (hc : s.pickCore g' [] = some c) (ws : List Word) : s.placeNext g ws [] = some (s.putBlock g.lid c ws) := by
  rw [State.placeNext, hco, if_neg (by decide), State.putBlocks, hg]
  dsimp only
  rw [hc]
  rfl

/-- The placement of a new block, as O54 states it. -/
theorem blockPlacement_starts {s : State} {g : Grid} {ws : List Word} {c : Nat} (hi : s.firstItem = some (.block g))
    (ho : s.argOpen g = false) (hw : s.argWords g = .words ws) (hg : s.grid g.lid = some g) (hco : g.pkt.coRes = false)
    (hc : (s.latchReady g.lid).pickCore { g with ready := true } [] = some c)
    (hlack : ∀ t, (s.latchReady g.lid).placeNext g ws [] = some t → s.carveLack t = []) :
    ∃ t b, exec .blockPlacement s = .next t ∧ (s.latchReady g.lid).StartsBlock t { g with ready := true } ws c b := by
  obtain ⟨_, _, gs, hu, hgs⟩ := s.latchReady_eq g.lid
  have hug : (s.latchReady g.lid).grid g.lid = some { g with ready := true } := by
    rw [hu]
    exact (hgs g.lid).trans (by rw [if_pos rfl, hg]; rfl)
  have hplace := State.placeNext_one hco hug hc ws
  obtain ⟨b, hb⟩ := State.putBlock_starts (g := { g with ready := true }) hug c ws
  obtain ⟨ps, n, hask⟩ := ((s.latchReady g.lid).putBlock g.lid c ws).deviceAsk_eq (s.argLines g)
  refine ⟨_, b, execBlockPlacement_words hi ho hw hplace (hlack _ hplace), ?_⟩
  rw [hask]
  exact { hb with }

/-! ### A stopped block -/

@[simp] theorem State.blk_notePlace (s : State) (b : Block) (core k : Nat) : (s.notePlace b core).blk k = s.blk k := by
  unfold State.notePlace
  split <;> rfl

/-- A block that resumes (R421): it has its lanes, registers, window and accumulators, on its new core. -/
structure Block.Resumes (b b' : Block) (c : Nat) : Prop where
  st : b'.st = .running
  core : b'.core = c
  lanes : b'.bands.map Band.lanes = b.bands.map Band.lanes
  uregs : b'.bands.map Band.uregs = b.bands.map Band.uregs
  scratch : b'.scratch = b.scratch
  accs : b'.accs = b.accs
  migcnt : b'.migcnt = if b.toProfile.isSome then satInc b.migcnt else b.migcnt

theorem Block.resumes_resumed (b : Block) (c slot serial deadline rank : Nat) :
    b.Resumes ((b.resumed c slot serial deadline).rebase rank) c where
  st := rfl
  core := rfl
  lanes := by
    simp only [Block.rebase, Block.resumed, List.map_map]
    rfl
  uregs := by
    simp only [Block.rebase, Block.resumed, List.map_map]
    rfl
  scratch := rfl
  accs := rfl
  migcnt := rfl

theorem State.resumeOne_resumes {s : State} {k c : Nat} {b : Block} {gone : List Nat} (hb : s.blk k = some b)
    (hc : s.resumeCore b gone = some c) :
    ∃ t b', s.resumeOne k gone = some t ∧ t.mem = s.mem ∧ t.blk k = some b' ∧ b.Resumes b' c ∧
      ∀ j, j ≠ k → t.blk j = s.blk j := by
  unfold State.resumeOne
  rw [hb]
  dsimp only
  rw [hc]
  dsimp only
  refine ⟨_, _, rfl, by rw [State.mem_notePlace]; rfl, (State.blk_notePlace ..).trans (State.blk_setBlk ..),
    b.resumes_resumed .., fun j hj => (State.blk_notePlace ..).trans (State.blk_setBlk_ne _ _ hj)⟩

theorem execBlockResume_of_item {s t : State} {k : Nat} {b : Block} (hb : s.blk k = some b) (hw : b.waits = true)
    (hd : s.drained b = true) (hp : b.toProfile = none) (hi : s.firstItem = some (.resume k)) (hset : s.resumeSet k b = [k])
    (ht : s.tryItem [] (.resume k) = some t) (hc : s.carveLack t = []) : execBlockResume k s = .next t := by
  have hall : ([k].all fun j => ((s.blk j).map fun c => s.drained c).getD false) = true := by simp [hb, hd]
  unfold execBlockResume
  rw [hb]
  dsimp only
  rw [hw, hd, if_neg (by decide), hp, if_neg (by simp), hi, hset, if_neg (by simp [hall]), ht]
  dsimp only
  rw [hc]
  rfl

theorem State.tryItem_resume {s : State} {k : Nat} {b : Block} {gone : List Nat} (hb : s.blk k = some b)
    (hset : s.resumeSet k b = [k]) : s.tryItem gone (.resume k) = s.resumeOne k gone := by
  rw [State.tryItem, hb]
  dsimp only
  rw [hset, State.resumeAll]
  cases s.resumeOne k gone <;> rfl

/-! ### A later run -/

theorem linear_index (p : Packet) (i : Nat) : p.linear (i % p.gx) (i / p.gx % p.gy) (i / (p.gx * p.gy)) = i := by
  rw [Packet.linear, ← Nat.div_div_eq_div_mul, Nat.mod_add_div, Nat.mod_add_div]

/-- A later run of a sample starts as the packet's block did, with the logged words and snapshot time (R449). -/
theorem State.laterBlock_starts (s : State) (sid : Nat) (m : Sample) (g : Grid) (c : Nat) :
    (s.laterBlock sid m g c).core = c ∧ (s.laterBlock sid m g c).sid = some sid ∧ (s.laterBlock sid m g c).idx = m.idx ∧
      (s.laterBlock sid m g c).later = true ∧
      ∀ x ∈ (s.laterBlock sid m g c).bands, x.sigma = m.sigma0 ∧
        x.uregs = ((List.range g.pkt.urounded).map fun r => m.args.getD r 0) ∧
        ∀ l ∈ x.lanes, l.pc = g.pkt.kaddr ∧ l.st = .ready := by
  refine ⟨rfl, rfl, linear_index g.pkt m.idx, ?_, fun x hx => ?_⟩
  · by_cases h : m.st = .arbitration <;> simp [Block.later, State.laterBlock, h]
  · obtain ⟨n, hn, rfl⟩ := List.mem_mapIdx.1 hx
    have hband : (s.newBlock g (m.idx % g.pkt.gx) (m.idx / g.pkt.gx % g.pkt.gy) (m.idx / (g.pkt.gx * g.pkt.gy)) c
        (s.freeSlot g.lid c) m.args m.sigma0).bands[n] = g.pkt.newBand m.args m.sigma0 := List.getElem_replicate ..
    rw [hband]
    refine ⟨rfl, rfl, fun l hl => ?_⟩
    obtain rfl := List.eq_of_mem_replicate hl
    exact ⟨rfl, rfl⟩

section

variable {s : State} {sid : Nat} {m : Sample} {g : Grid}

theorem execReplayPlacement_lost (hm : tget s.samples sid = some m) (hg : s.grid m.lid = some g) (hl : g.live = true)
    (hd : s.runDue sid m = true) (ha : s.runAllowed m = false) :
    execReplayPlacement sid s = .next (s.releaseSample sid (some 1)) := by
  unfold execReplayPlacement
  rw [hm]
  dsimp only
  rw [hg]
  dsimp only
  rw [hd, hl, ha]
  rfl

theorem execReplayPlacement_starts (hm : tget s.samples sid = some m) (hg : s.grid m.lid = some g) (hl : g.live = true)
    (hd : s.runDue sid m = true) (ha : s.runAllowed m = true) (hi : s.firstItem = some (.run sid)) {c : Nat}
    (hc : s.runCore m g [] = some c) (hcarve : (s.core c).cpool = g.pkt.carve) :
    ∃ t, execReplayPlacement sid s = .next t ∧ t.mem = s.mem ∧
      t.blk s.serial = some (State.laterBlock { s with serial := s.serial + 1 } sid m g c) := by
  unfold execReplayPlacement
  rw [hm]
  dsimp only
  rw [hg]
  dsimp only
  rw [hd, hl, if_neg (by decide), ha, if_neg (by decide), hi, if_neg (by simp), hc]
  dsimp only
  rw [if_neg (not_not.2 hcarve)]
  exact ⟨_, rfl, rfl, State.blk_setBlk ..⟩

end

/-! ### A change of carve-out -/

theorem State.actFor_eq (s : State) (i : Option Item) :
    ∃ ps n gs, s.actFor i = { s with net := s.net ++ ps, serial := n, grids := gs } ∧
      ∀ l, (tget gs l).map Grid.st = (s.grid l).map Grid.st := by
  unfold State.actFor
  split
  next => exact ⟨[], s.serial, s.grids, by rw [List.append_nil], fun _ => rfl⟩
  next lid _ =>
    obtain ⟨ps, n, gs, e, hgs⟩ := s.latchReady_eq lid
    refine ⟨ps, n, gs, e, fun l => ?_⟩
    rw [hgs l]
    split
    · rw [Option.map_map]
      rfl
    · rfl

@[simp] theorem State.blocks_giveUp (s : State) (core lid : Nat) (wb : Option (Nat × Nat)) (x : L1Line) :
    (s.giveUp core lid wb x).blocks = s.blocks := by
  unfold State.giveUp
  dsimp only
  split <;> rfl

/-- Giving up lines keeps the packets that are on their way. -/
theorem State.net_giveUp (s : State) (core lid : Nat) (wb : Option (Nat × Nat)) (x : L1Line) :
    ∃ ps, (s.giveUp core lid wb x).net = s.net ++ ps ∧ (x.owned = true → ∃ p ∈ ps, p.msg = x.writeback core wb) := by
  unfold State.giveUp
  dsimp only
  split
  next => exact ⟨_, rfl, fun _ => ⟨_, List.mem_singleton_self _, rfl⟩⟩
  next h => exact ⟨[], (List.append_nil _).symm, fun h' => absurd h' h⟩

theorem State.net_foldl_giveUp (core : Nat) (ls : List L1Line) (s : State) :
    ∃ ps, (ls.foldl (fun s x => s.giveUp core 0 none x) s).net = s.net ++ ps ∧
      ∀ x ∈ ls, x.owned = true → ∃ p ∈ ps, p.msg = x.writeback core none := by
  induction ls generalizing s with
  | nil => exact ⟨[], (List.append_nil _).symm, by simp⟩
  | cons x ls ih =>
    obtain ⟨ps, hps, hx⟩ := s.net_giveUp core 0 none x
    obtain ⟨qs, hqs, hls⟩ := ih (s.giveUp core 0 none x)
    refine ⟨ps ++ qs, by rw [List.foldl_cons, hqs, hps, List.append_assoc], fun z hz ho => ?_⟩
    obtain rfl | hz := List.mem_cons.1 hz
    · obtain ⟨p, hp, e⟩ := hx ho
      exact ⟨p, List.mem_append_left _ hp, e⟩
    · obtain ⟨p, hp, e⟩ := hls z hz ho
      exact ⟨p, List.mem_append_right _ hp, e⟩

theorem State.core_setCore (s : State) (c : Nat) (k : Core) : (s.setCore c k).core c = k := by
  rw [State.core, State.setCore, tget_tset_self]
  rfl

/-- A change of carve-out (R185, R237): write-backs of the owned lines, an empty L1, the new boundaries. -/
theorem execCarveOutChange_empties {s : State} {core : Nat} {carve : Word} (hw : s.carveWanted core carve = true)
    (ho : s.onCore core [] = []) (hc : (s.core core).cpool ≠ carve) (hi : (s.core core).inService = true)
    (hn : core < numCores) :
    ∃ t, execCarveOutChange core carve s = .next t ∧ t.mem = s.mem ∧ t.blocks = s.blocks ∧ (t.core core).l1 = [] ∧
      (t.core core).vend = carve.toNat % 64 ∧ (t.core core).send = carve.toNat / 2 ^ 8 % 64 ∧
      (t.core core).lend = carve.toNat / 2 ^ 16 % 64 ∧
      ∀ c ∈ (s.core core).l1, c.owned = true → ∃ p ∈ t.net, p.msg = c.writeback core none := by
  obtain ⟨ps, n, gs, hact, -⟩ := s.actFor_eq s.firstItem
  obtain ⟨u, hu⟩ : ∃ u, u = s.actFor s.firstItem := ⟨_, rfl⟩
  have hl1 : (u.core core).l1 = (s.core core).l1 := by rw [hu, hact]; rfl
  obtain ⟨v, hv⟩ : ∃ v, v = ((u.core core).l1.filter fun x => x.owned).foldl (fun s x => s.giveUp core 0 none x) u := ⟨_, rfl⟩
  obtain ⟨qs, hqs, hsent⟩ := State.net_foldl_giveUp core ((u.core core).l1.filter fun x => x.owned) u
  have hexec : execCarveOutChange core carve s =
      .next ((v.setCore core { v.core core with l1 := [] }).carveCore core carve) := by
    unfold execCarveOutChange
    dsimp only
    rw [hw, ho, hi, if_neg (by simp [hc]; omega), hv, hu]
  refine ⟨_, hexec, ?_, ?_, ?_, ?_, ?_, ?_, fun c hcm hco => ?_⟩
  · rw [State.mem_carveCore, State.setCore_mem, hv, State.mem_foldl _ fun _ _ => State.mem_giveUp .., hu, State.mem_actFor]
  · show v.blocks = s.blocks
    rw [hv, State.blocks_foldl _ fun _ _ => State.blocks_giveUp .., hu, hact]
  · rw [State.carveCore, State.core_setCore, State.core_setCore]
  · rw [State.carveCore, State.core_setCore]
  · rw [State.carveCore, State.core_setCore]
  · rw [State.carveCore, State.core_setCore]
  · obtain ⟨p, hp, e⟩ := hsent c (List.mem_filter.2 ⟨by rw [hl1]; exact hcm, hco⟩) hco
    refine ⟨p, ?_, e⟩
    show p ∈ v.net
    rw [hv, hqs]
    exact List.mem_append_right _ hp

/-! ### Stopping blocks for a pre-emption -/

/-- No band of a running block has an asynchronous trap to take before a stop (R404). -/
def State.Undue (s : State) (k : Nat) : Prop :=
  ∀ b, s.blk k = some b → b.st = .running → ∀ x ∈ b.bands, x.dueTrap = none

theorem State.takeDue_of_undue {s : State} {k : Nat} (h : s.Undue k) (n : Nat) : s.takeDue k n = none := by
  rw [State.takeDue]
  cases hbd : s.boundary k n with
  | none => rfl
  | some p =>
    obtain ⟨x, ch⟩ := p
    have hx : x.dueTrap = none := by
      unfold State.boundary at hbd
      split at hbd
      · cases hbd
      next b hb =>
        split at hbd
        · cases hbd
        next z hz =>
          split at hbd
          · cases hbd
          next hst =>
            obtain ⟨c, -, e⟩ := Option.map_eq_some_iff.1 hbd
            cases e
            exact h b hb (Classical.byContradiction fun e => hst (by simp [e])) _ (List.mem_of_getElem? hz)
    dsimp only
    rw [hx]
    rfl

theorem State.takeAllDue_of_undue {s : State} {k : Nat} (h : s.Undue k) : s.takeAllDue k = s := by
  unfold State.takeAllDue
  generalize List.range _ = ns
  induction ns with
  | nil => rfl
  | cons n ns ih =>
    rw [List.foldl_cons, State.takeDue_of_undue h]
    exact ih

/-- A stopped block that waits for a core, pre-empted (R203, R419). -/
structure Block.Preempted (b b' : Block) : Prop where
  waits : b'.waits = true
  toProfile : b'.toProfile = none
  core : b'.core = b.core
  sid : b'.sid = b.sid

theorem Block.Preempted.not_running {b b' : Block} (h : b.Preempted b') : b'.st ≠ .running := by
  intro e
  have := h.waits
  rw [Block.waits, e] at this
  cases this

/-- The stop of a block for a pre-emption, with no trap to take before it. -/
theorem State.stopBlock_of_undue {s : State} {k : Nat} (h : s.Undue k) :
    ∃ f n, s.stopBlock k true none = { s.modBlk k f with serial := n } ∧
      ∀ b : Block, (b.st ≠ .running → f b = b) ∧ (b.st = .running → b.Preempted (f b)) := by
  unfold State.stopBlock
  rw [State.takeAllDue_of_undue h]
  refine ⟨_, _, rfl, fun b => ⟨fun hr => if_neg hr, fun hr => ?_⟩⟩
  rw [if_pos hr]
  exact ⟨rfl, rfl, rfl, rfl⟩

/-- Stopping some blocks stops each of them that runs, and changes no other. -/
theorem State.stopBlocks_of_undue (gone : List Nat) : ∀ {s : State}, (∀ k ∈ gone, s.Undue k) →
    let t := gone.foldl (fun s k => s.stopBlock k true none) s
    t.grids = s.grids ∧ (∀ k, k ∉ gone → t.blk k = s.blk k) ∧
      ∀ k b, s.blk k = some b → (b.st ≠ .running → t.blk k = some b) ∧
        (k ∈ gone → b.st = .running → ∃ b', t.blk k = some b' ∧ b.Preempted b') := by
  induction gone with
  | nil => exact fun _ => ⟨rfl, fun _ _ => rfl, fun k b hb => ⟨fun _ => hb, by simp⟩⟩
  | cons j gone ih =>
    intro s h
    obtain ⟨f, n, he, hf⟩ := State.stopBlock_of_undue (h j List.mem_cons_self)
    have hoth : ∀ k, k ≠ j → (s.stopBlock j true none).blk k = s.blk k := fun k hk => by
      rw [he]
      exact State.blk_modBlk_ne s f hk
    have hown : (s.stopBlock j true none).blk j = (s.blk j).map f := by
      rw [he]
      exact State.blk_modBlk s j f
    have hstill : ∀ b, (s.stopBlock j true none).blk j = some b → b.st ≠ .running := by
      intro b hb
      obtain ⟨b₀, -, rfl⟩ := Option.map_eq_some_iff.1 (hown.symm.trans hb)
      by_cases hr : b₀.st = .running
      · exact ((hf b₀).2 hr).not_running
      · rwa [(hf b₀).1 hr]
    have hundue : ∀ k ∈ gone, (s.stopBlock j true none).Undue k := by
      intro k hk b hb hr
      by_cases e : k = j
      · subst e
        exact absurd hr (hstill b hb)
      · exact h k (List.mem_cons_of_mem j hk) b ((hoth k e).symm.trans hb) hr
    obtain ⟨hg', hout, hin⟩ := ih hundue
    dsimp only
    rw [List.foldl_cons]
    refine ⟨hg'.trans (by rw [he]; rfl), fun k hk => ?_, fun k b hb => ⟨fun hr => ?_, fun hk hr => ?_⟩⟩
    · obtain ⟨e, hk⟩ := not_or.1 (mt List.mem_cons.2 hk)
      exact (hout k hk).trans (hoth k e)
    · by_cases e : k = j
      · subst e
        exact (hin k b (by rw [hown, hb, Option.map_some, (hf b).1 hr])).1 hr
      · exact (hin k b ((hoth k e).trans hb)).1 hr
    · by_cases e : k = j
      · subst e
        have p := (hf b).2 hr
        exact ⟨f b, (hin k (f b) (by rw [hown, hb, Option.map_some])).1 p.not_running, p⟩
      · exact (hin k b ((hoth k e).trans hb)).2 ((List.mem_cons.1 hk).resolve_left e) hr

theorem execPreemption_eq {s : State} {i : Item} {gone : List Nat} (hm : s.movers = []) (hi : s.firstItem = some i)
    (ht : s.tryItem s.stopping i = none) (he : s.evictions i = some gone) :
    execPreemption s = .next (gone.foldl (fun s k => s.stopBlock k true none) (s.actFor (some i))) := by
  have hw : s.wanting = [i] := by rw [State.wanting, hm, hi]; rfl
  unfold execPreemption
  rw [hw, List.findSome?_cons, ht, he]
  rfl

/-! ### The obligation -/

/-- Settles O54: each step of the dispatcher by the function that makes it. -/
theorem blocksArePlaced : Obligations.BlocksArePlaced := by
  unfold Obligations.BlocksArePlaced
  intro s
  refine ⟨fun g ws c hi ho hw hg hco => ?_, fun g t => execBlockPlacement_bad, fun k b c hb hw hd hp hi hset hc hlack => ?_,
    fun sid m g hm hg hl hd => ⟨execReplayPlacement_lost hm hg hl hd, fun c ha hi hc hcarve => ?_⟩,
    fun core carve => execCarveOutChange_empties, fun i gone hm hi ht he hdue => ?_⟩
  · intro u hc hlack
    obtain ⟨t, b, hexec, hb⟩ := blockPlacement_starts hi ho hw hg hco hc hlack
    obtain ⟨_, _, _, hu, -⟩ := s.latchReady_eq g.lid
    have hs : (s.latchReady g.lid).mem = s.mem ∧ (s.latchReady g.lid).now (coreDie c) = s.now (coreDie c) ∧
        (s.latchReady g.lid).fn g.fn = s.fn g.fn ∧ ∀ k, (s.latchReady g.lid).blk k = s.blk k := by
      rw [hu]
      exact ⟨rfl, rfl, rfl, fun _ => rfl⟩
    obtain ⟨hmem, hnow, hfn, hblk⟩ := hs
    exact ⟨t, b, hexec, hb.mem.trans hmem, hb.blk, hb.lid, hb.index, hb.core, hb.ldie, hb.st, hnow ▸ hb.bands, hfn ▸ hb.hbase,
      hb.sid, hb.next, fun k hk => (hb.others k hk).trans (hblk k)⟩
  · obtain ⟨t, b', ht, hmem, hblk, hr, hoth⟩ := State.resumeOne_resumes (gone := []) hb hc
    have htry := (State.tryItem_resume hb hset).trans ht
    refine ⟨t, b', execBlockResume_of_item hb hw hd hp hi hset htry (hlack t htry), hmem, hblk, hr.st, hr.core,
      hr.lanes, hr.uregs, hr.scratch, hr.accs, ?_, hoth⟩
    rw [hr.migcnt, hp]
    rfl
  · obtain ⟨t, hexec, hmem, hblk⟩ := execReplayPlacement_starts hm hg hl hd ha hi hc hcarve
    exact ⟨t, _, hexec, hmem, hblk, State.laterBlock_starts ..⟩
  · obtain ⟨ps, n, gs, hact, hst⟩ := s.actFor_eq (some i)
    have hblk : ∀ k, (s.actFor (some i)).blk k = s.blk k := fun k => by rw [hact]; rfl
    have hundue : ∀ k ∈ gone, (s.actFor (some i)).Undue k := fun k hk b hb _ => hdue k hk b ((hblk k).symm.trans hb)
    obtain ⟨hgrids, hout, hin⟩ := State.stopBlocks_of_undue gone hundue
    refine ⟨_, execPreemption_eq hm hi ht he, ?_, fun l => ?_, fun k hk => (hout k hk).trans (hblk k), fun k b hk hb hr => ?_⟩
    · rw [State.mem_foldl _ fun _ _ => State.mem_stopBlock .., State.mem_actFor]
    · rw [State.grid, hgrids, hact]
      exact hst l
    · obtain ⟨b', hb', p⟩ := (hin k b ((hblk k).trans hb)).2 hk hr
      exact ⟨b', hb', p.waits, p.toProfile, p.core⟩

end Sys2Proof.Machine

/-! # What work at homes leaves alone -/

namespace Sys2Proof.Machine

open Sys2Proof

/-- No core is fenced, retired or given a first line. -/
structure State.CoresKeep (s t : State) : Prop where
  fenced : ∀ c, (t.core c).fenced = (s.core c).fenced
  retired : ∀ c, (t.core c).retired = (s.core c).retired
  l1 : ∀ c, (s.core c).l1 = [] → (t.core c).l1 = []

namespace State.CoresKeep

theorem of_eq {s t : State} (hc : t.cores = s.cores) : s.CoresKeep t := by
  have core : ∀ c, t.core c = s.core c := fun c => by rw [State.core, hc, State.core]
  exact ⟨fun c => by rw [core], fun c => by rw [core], fun c h => by rw [core, h]⟩

theorem refl (s : State) : s.CoresKeep s := of_eq rfl

theorem trans {s t u : State} (h : s.CoresKeep t) (h' : t.CoresKeep u) : s.CoresKeep u where
  fenced := fun c => (h'.fenced c).trans (h.fenced c)
  retired := fun c => (h'.retired c).trans (h.retired c)
  l1 := fun c e => h'.l1 c (h.l1 c e)

theorem foldl {α : Type} (f : State → α → State) (hf : ∀ (s : State) a, s.CoresKeep (f s a)) (l : List α) (s : State) :
    s.CoresKeep (l.foldl f s) := by
  induction l generalizing s with
  | nil => exact refl s
  | cons a l ih => exact (hf s a).trans (ih _)

end State.CoresKeep

/-- Work at homes and slices: no block, grid or sample changes either. -/
structure State.HomeSide (s t : State) : Prop extends s.CoresKeep t where
  blocks : t.blocks = s.blocks
  grids : t.grids = s.grids
  samples : t.samples = s.samples

namespace State.HomeSide

theorem of_eq {s t : State} (hb : t.blocks = s.blocks) (hg : t.grids = s.grids) (hs : t.samples = s.samples)
    (hc : t.cores = s.cores) : s.HomeSide t := ⟨.of_eq hc, hb, hg, hs⟩

theorem refl (s : State) : s.HomeSide s := of_eq rfl rfl rfl rfl

theorem trans {s t u : State} (h : s.HomeSide t) (h' : t.HomeSide u) : s.HomeSide u where
  toCoresKeep := h.toCoresKeep.trans h'.toCoresKeep
  blocks := h'.blocks.trans h.blocks
  grids := h'.grids.trans h.grids
  samples := h'.samples.trans h.samples

theorem foldl {α : Type} (f : State → α → State) (hf : ∀ (s : State) a, s.HomeSide (f s a)) (l : List α) (s : State) :
    s.HomeSide (l.foldl f s) := by
  induction l generalizing s with
  | nil => exact refl s
  | cons a l ih => exact (hf s a).trans (ih _)

/-- A core is put back with its marks and with no more lines than it had. -/
theorem setCore {s : State} {c : Nat} {k : Core} (hf : k.fenced = (s.core c).fenced) (hr : k.retired = (s.core c).retired)
    (hl : (s.core c).l1 = [] → k.l1 = []) : s.HomeSide (s.setCore c k) := by
  have core : ∀ d, (s.setCore c k).core d = if d = c then k else s.core d := by
    intro d
    rw [State.core, State.setCore, tget_tset]
    split <;> rfl
  refine ⟨⟨fun d => ?_, fun d => ?_, fun d e => ?_⟩, rfl, rfl, rfl⟩ <;> rw [core] <;> split
  · next h => rw [h, hf]
  · rfl
  · next h => rw [h, hr]
  · rfl
  · next h => exact hl (h ▸ e)
  · exact e

end State.HomeSide

section

variable (s : State)

theorem State.homeSide_send (src dest : Router) (cls : PktCls) (lid : Nat) (blk : Option (Nat × Nat)) (m : Msg) :
    s.HomeSide (s.send src dest cls lid blk m) := .of_eq rfl rfl rfl rfl

theorem State.homeSide_deviceAsk (lines : List Nat) : s.HomeSide (s.deviceAsk lines) := by
  obtain ⟨ps, n, e⟩ := s.deviceAsk_eq lines
  rw [e]
  exact .of_eq rfl rfl rfl rfl

theorem State.homeSide_flog (f : Nat) (rec : List Byte) : s.HomeSide (s.flog f rec) := by
  unfold State.flog
  dsimp only
  split <;> exact .of_eq rfl rfl rfl rfl

theorem State.homeSide_underKey (kid pa : Nat) : s.HomeSide (s.underKey kid pa) := by
  unfold State.underKey
  split
  · exact .refl s
  split
  · exact .of_eq rfl rfl rfl rfl
  split
  · exact .refl s
  · exact .of_eq rfl rfl rfl rfl

theorem State.homeSide_pokeByte (kid pa w a : Nat) (v : Byte) : s.HomeSide (s.pokeByte kid pa w a v) := by
  unfold State.pokeByte
  split
  · exact .refl s
  · exact (s.homeSide_underKey kid pa).trans (.of_eq rfl rfl rfl rfl)

theorem State.homeSide_pokeBytes (kid pa w a : Nat) (bs : List Byte) : s.HomeSide (s.pokeBytes kid pa w a bs) := by
  induction bs generalizing s pa with
  | nil => exact .refl s
  | cons b bs ih => exact (s.homeSide_pokeByte kid pa w a b).trans (ih ..)

theorem State.homeSide_noteDirty (kid pa : Nat) : s.HomeSide (s.noteDirty kid pa) := by
  unfold State.noteDirty
  split
  · exact .refl s
  · dsimp only
    split <;> exact .of_eq rfl rfl rfl rfl

theorem State.homeSide_newVersion (line w : Nat) : s.HomeSide (s.newVersion line w) := .of_eq rfl rfl rfl rfl

theorem State.homeSide_poke (kid pa w a : Nat) (bs : List Byte) : s.HomeSide (s.poke kid pa w a bs) :=
  (s.homeSide_pokeBytes kid pa w a bs).trans ((State.homeSide_noteDirty _ kid pa).trans (State.homeSide_newVersion ..))

theorem State.homeSide_markWrite (a : Nat) (r : StackReq) : s.HomeSide (s.markWrite a r) := by
  refine .foldl _ (fun t j => ?_) _ s
  dsimp only
  split
  · exact .of_eq rfl rfl rfl rfl
  · exact .refl t

theorem State.homeSide_writeUnit (a kid : Nat) (mask : BitVec 64) (data : List Byte) (f : StackFor) :
    s.HomeSide (s.writeUnit a kid mask data f) :=
  (s.homeSide_markWrite a _).trans (.of_eq rfl rfl rfl rfl)

theorem State.homeSide_maskedUnit (work : StackFor) (kid pa : Nat) (bs : List Byte) :
    s.HomeSide (s.maskedUnit work kid pa bs) := by
  unfold State.maskedUnit
  dsimp only
  split
  · exact .refl s
  split
  · split
    · exact (s.homeSide_markWrite pa _).trans (.of_eq rfl rfl rfl rfl)
    · exact s.homeSide_writeUnit ..
  · exact s.homeSide_writeUnit ..

theorem State.homeSide_maskedWrite (work : StackFor) (kid pa : Nat) (bs : List Byte) :
    s.HomeSide (s.maskedWrite work kid pa bs) := .foldl _ (fun _ _ => State.homeSide_maskedUnit ..) _ s

theorem State.homeSide_unpoison (line : Nat) : s.HomeSide (s.unpoison line) := .of_eq rfl rfl rfl rfl

theorem State.homeSide_ownedBack (work : StackFor) (line : Nat) (mask : BitVec 128) :
    s.HomeSide (s.ownedBack work line mask) := by
  unfold State.ownedBack
  split
  · exact .refl s
  · refine .foldl _ (fun t j => ?_) _ s
    dsimp only
    split
    · exact .refl t
    · exact t.homeSide_writeUnit ..

theorem State.homeSide_recallNow (line lid : Nat) : s.HomeSide (s.recallNow line lid) := by
  unfold State.recallNow
  dsimp only
  have hu : s.HomeSide (if s.hostHeld.contains line = true then
      ({ s with hostHeld := s.hostHeld.filter (· != line), hostAsked := s.hostAsked.filter (· != line) } : State).send
        (s.homeRouter (128 * line)) hostRouter .probe lid none (.engine line 0 0 false) else s) := by
    split
    · exact .of_eq rfl rfl rfl rfl
    · exact .refl s
  refine hu.trans ?_
  generalize (if s.hostHeld.contains line = true then
      ({ s with hostHeld := s.hostHeld.filter (· != line), hostAsked := s.hostAsked.filter (· != line) } : State).send
        (s.homeRouter (128 * line)) hostRouter .probe lid none (.engine line 0 0 false) else s) = u
  split
  · exact .refl u
  next c _ =>
    have hdrop : u.HomeSide (u.setCore c ((u.core c).l1Drop line)) :=
      .setCore rfl rfl fun e => by rw [Core.l1Drop, e]; rfl
    refine hdrop.trans (.trans ?_ ((State.homeSide_ownedBack _ ..).trans (State.homeSide_send _ ..)))
    exact .of_eq rfl rfl rfl rfl

theorem State.homeSide_homeStore (kid pa : Nat) (bs : List Byte) (lid : Nat) : s.HomeSide (s.homeStore kid pa bs lid).1 :=
  (s.homeSide_recallNow (lineOf pa) lid).trans (State.homeSide_poke ..)

theorem State.homeSide_received (core line version : Nat) : s.HomeSide (s.received core line version) :=
  .setCore rfl rfl id

theorem State.homeSide_ownWrites (sid : Nat) (prov : List Prov) : s.HomeSide (s.ownWrites sid prov) :=
  .foldl _ (fun _ _ => .foldl _ (fun _ _ => State.homeSide_received ..) _ _) _ s

theorem State.homeSide_loanEnds (m : Sample) : s.HomeSide (s.loanEnds m) := .of_eq rfl rfl rfl rfl

theorem State.homeSide_csvevt (i : Nat) : s.HomeSide (s.csvevt i) := .of_eq rfl rfl rfl rfl

theorem State.homeSide_commitProv (work : StackFor) (ps : List Prov) : s.HomeSide (s.commitProv work ps) := by
  induction ps generalizing s with
  | nil => exact .refl s
  | cons p ps ih =>
    unfold State.commitProv
    extract_lets u v
    have hv : s.HomeSide v := by
      refine (s.homeSide_recallNow (lineOf p.pa) work.lid).trans ?_
      dsimp only [v]
      split
      · exact State.homeSide_unpoison ..
      · exact .refl _
    refine hv.trans (.trans ?_ (ih _))
    split
    · exact .of_eq rfl rfl rfl rfl
    · exact (v.homeSide_poke ..).trans (State.homeSide_maskedWrite ..)

theorem State.homeSide_writeRecord (f asid lid : Nat) (p : Packet) (status : Nat) :
    s.HomeSide (s.writeRecord f asid lid p status) := by
  unfold State.writeRecord
  split
  · exact .refl s
  split
  · exact s.homeSide_flog ..
  · exact .refl s
  next x _ =>
    have put : ∀ (t : State) (pa : Nat) (bs : List Byte),
        t.HomeSide ((t.homeStore x.kid pa bs).1.maskedWrite (.work 0 0 0 0) x.kid pa bs) :=
      fun t pa bs => (t.homeSide_homeStore x.kid pa bs 0).trans (State.homeSide_maskedWrite ..)
    exact (s.homeSide_deviceAsk _).trans ((put _ _ _).trans (put _ _ _))

end

end Sys2Proof.Machine

/-! # Ends of blocks and grids, and the Conservator -/

namespace Sys2Proof.Machine

open Sys2Proof

theorem mem_of_tget {α : Type} {t : Tbl α} {k : Nat} {v : α} (h : tget t k = some v) : (k, v) ∈ t := by
  induction t with
  | nil => cases h
  | cons p t ih =>
    obtain ⟨j, w⟩ := p
    rw [tget] at h
    split at h
    next e =>
      cases h
      rw [e]
      exact List.mem_cons_self
    next => exact List.mem_cons_of_mem _ (ih h)

/-- A map that keeps the keys maps what is found. -/
theorem tget_map {α : Type} (t : Tbl α) {f : Nat × α → Nat × α} (hf : ∀ p, (f p).1 = p.1) (k : Nat) :
    tget (t.map f) k = (tget t k).map fun v => (f (k, v)).2 := by
  induction t with
  | nil => rfl
  | cons p t ih =>
    obtain ⟨j, w⟩ := p
    rw [List.map_cons, tget, show f (j, w) = (j, (f (j, w)).2) from Prod.ext (hf _) rfl, tget, ih]
    split
    next e => cases (show j = k from e); rfl
    next => rfl

@[simp] theorem State.grid_modGrid (s : State) (lid : Nat) (f : Grid → Grid) (l : Nat) :
    (s.modGrid lid f).grid l = if l = lid then (s.grid l).map f else s.grid l := by
  split
  next e => rw [e]; exact tget_tmod_self ..
  next e => exact tget_tmod_ne _ _ e

/-! ### The release of a sample -/

section

variable (s : State)

/-- The release of an open sample (R461): its versions have been committed, and the blocks of other samples stay. -/
theorem State.releaseSample_eq {sid : Nat} {m : Sample} (hm : tget s.samples sid = some m) (ho : m.open' = true)
    (evt : Option Nat) : ∃ u : State, s.HomeSide u ∧ s.releaseSample sid evt =
      { u with
        samples := tset u.samples sid { m with st := .released, prov := [] }
        blocks := u.blocks.map fun p => if p.2.sid = some sid then
            (p.1, if p.2.later then { p.2 with st := .ended } else { p.2 with sid := none, run := .plain, overlay := [] })
          else (p.1, p.2) } := by
  unfold State.releaseSample
  rw [hm]
  dsimp only
  rw [ho, if_neg (by decide)]
  have hw : s.HomeSide (((s.commitProv (s.sampleWork m) m.prov.reverse).loanEnds m).ownWrites sid m.prov) :=
    (s.homeSide_commitProv _ _).trans ((State.homeSide_loanEnds _ m).trans (State.homeSide_ownWrites ..))
  refine ⟨_, ?_, rfl⟩
  cases evt with
  | none => exact hw
  | some e => exact hw.trans (State.homeSide_csvevt ..)

/-- A release, of whatever sample, leaves grids, the cores' marks and the unchecked blocks. -/
theorem State.releaseSample_leaves (sid : Nat) (evt : Option Nat) :
    s.CoresKeep (s.releaseSample sid evt) ∧ (s.releaseSample sid evt).grids = s.grids ∧
      ∀ k b, s.blk k = some b → b.sid = none → (s.releaseSample sid evt).blk k = some b := by
  have same : ∀ t, t = s → s.CoresKeep t ∧ t.grids = s.grids ∧ ∀ k b, s.blk k = some b → b.sid = none → t.blk k = some b := by
    rintro t rfl
    exact ⟨.refl t, rfl, fun _ _ h _ => h⟩
  cases hm : tget s.samples sid with
  | none => exact same _ (by rw [State.releaseSample, hm])
  | some m =>
    cases ho : m.open' with
    | false => exact same _ (by rw [State.releaseSample, hm]; dsimp only; rw [ho]; rfl)
    | true =>
      obtain ⟨u, hu, e⟩ := s.releaseSample_eq hm ho evt
      rw [e]
      refine ⟨hu.toCoresKeep.trans (.of_eq rfl), hu.grids, fun k b hb hn => ?_⟩
      have hub : tget u.blocks k = some b := by rw [hu.blocks]; exact hb
      refine (tget_map u.blocks (fun p => by split <;> rfl) k).trans ?_
      rw [hub, Option.map_some]
      dsimp only
      rw [if_neg (by rw [hn]; exact nofun)]

/-- The samples that have lost their cores are released; the rest of R449's judgement leaves what a release leaves. -/
theorem State.judgeRuns_leaves : s.CoresKeep s.judgeRuns ∧ s.judgeRuns.grids = s.grids ∧
    ∀ k b, s.blk k = some b → b.sid = none → s.judgeRuns.blk k = some b := by
  unfold State.judgeRuns
  dsimp only
  generalize List.map _ _ = lost
  induction lost generalizing s with
  | nil => exact ⟨.refl s, rfl, fun _ _ h _ => h⟩
  | cons i lost ih =>
    obtain ⟨hc, hg, hb⟩ := s.releaseSample_leaves i (some 1)
    obtain ⟨hc', hg', hb'⟩ := ih (s.releaseSample i (some 1))
    exact ⟨hc.trans hc', hg'.trans hg, fun k b hk hn => hb' k b (hb k b hk hn) hn⟩

end

/-! ### Failing grids -/

section

variable (s : State)

theorem State.deaccession_leaves (sid : Nat) : (s.deaccession sid).grids = s.grids ∧ (s.deaccession sid).cores = s.cores := by
  unfold State.deaccession
  split
  · exact ⟨rfl, rfl⟩
  · split <;> exact ⟨rfl, rfl⟩

/-- Of the grids a failure marks its own. -/
theorem State.markFailed_leaves (lid status : Nat) : (s.markFailed lid status).cores = s.cores ∧
    ∀ l, (s.markFailed lid status).grid l =
      if l = lid then (s.grid l).map fun g => { g with st := .failing status } else s.grid l := by
  unfold State.markFailed
  dsimp only
  have h : ∀ (is : List Nat) (s : State), (is.foldl State.deaccession s).grids = s.grids ∧
      (is.foldl State.deaccession s).cores = s.cores := by
    intro is
    induction is with
    | nil => exact fun _ => ⟨rfl, rfl⟩
    | cons i is ih =>
      intro s
      obtain ⟨hg, hc⟩ := s.deaccession_leaves i
      obtain ⟨hg', hc'⟩ := ih (s.deaccession i)
      exact ⟨hg'.trans hg, hc'.trans hc⟩
  obtain ⟨hg, hc⟩ := h ((s.samples.filter fun p => p.2.lid == lid).map (·.1)) s
  refine ⟨hc, fun l => ?_⟩
  have hu : ∀ bs, ({ ((s.samples.filter fun p => p.2.lid == lid).map (·.1)).foldl State.deaccession s with
      blocks := bs } : State).grid l = s.grid l := fun _ => congrArg (tget · l) hg
  rw [State.grid_modGrid, hu]

/-- A grid that has not failed fails with the status; another, and one that has, stays. -/
theorem State.failGrid_leaves (lid status : Nat) (rec : List Byte) : s.CoresKeep (s.failGrid lid status rec) ∧
    (∀ l, l ≠ lid → (s.failGrid lid status rec).grid l = s.grid l) ∧
    ∀ g, s.grid lid = some g → ((s.failGrid lid status rec).grid lid).map Grid.st =
      some (if g.st = .accepted then .failing status else g.st) := by
  unfold State.failGrid
  cases hg : s.grid lid with
  | none => exact ⟨.refl s, fun _ _ => rfl, nofun⟩
  | some g =>
    dsimp only
    obtain ⟨hc, hl⟩ := s.markFailed_leaves lid status
    split
    next e =>
      have hf := (s.markFailed lid status).homeSide_flog g.fn rec
      have hgr : ∀ l, ((s.markFailed lid status).flog g.fn rec).grid l = (s.markFailed lid status).grid l := fun l => by
        rw [State.grid, hf.grids, State.grid]
      refine ⟨(State.CoresKeep.of_eq hc).trans hf.toCoresKeep, fun l h => by rw [hgr, hl, if_neg h], fun g' hg' => ?_⟩
      cases hg'
      rw [hgr, hl, if_pos rfl, hg, if_pos e]
      rfl
    all_goals
      next e =>
        refine ⟨.refl s, fun _ _ => rfl, fun g' hg' => ?_⟩
        cases hg'
        rw [hg, if_neg (by rw [e]; exact nofun)]
        rfl

/-- The grids of some blocks fail, each with one record. -/
theorem State.failGrids_fail (rec : State → Block → List Byte) (status : Nat) (bs : List Block) : ∀ s : State,
    let t := bs.foldl (fun s b => s.failGrid b.lid status (rec s b)) s
    s.CoresKeep t ∧ (∀ l, (s.grid l).map Grid.st = some (.failing status) → (t.grid l).map Grid.st = some (.failing status)) ∧
      ∀ b ∈ bs, ∀ g, s.grid b.lid = some g → g.st = .accepted → (t.grid b.lid).map Grid.st = some (.failing status) := by
  induction bs with
  | nil => exact fun s => ⟨.refl s, fun _ h => h, fun _ hb => absurd hb List.not_mem_nil⟩
  | cons b bs ih =>
    intro s
    dsimp only
    obtain ⟨hc, hoth, hown⟩ := s.failGrid_leaves b.lid status (rec s b)
    obtain ⟨hc', hkeep, hfail⟩ := ih (s.failGrid b.lid status (rec s b))
    have keep : ∀ l, (s.grid l).map Grid.st = some (.failing status) →
        ((s.failGrid b.lid status (rec s b)).grid l).map Grid.st = some (.failing status) := by
      intro l hl
      by_cases e : l = b.lid
      · subst e
        obtain ⟨g, hg, hst⟩ := Option.map_eq_some_iff.1 hl
        rw [hown g hg, if_neg (by rw [hst]; exact nofun), hst]
      · rw [hoth l e, hl]
    have first : ∀ g, s.grid b.lid = some g → g.st = .accepted →
        ((s.failGrid b.lid status (rec s b)).grid b.lid).map Grid.st = some (.failing status) := fun g hg hst => by
      rw [hown g hg, if_pos hst]
    refine ⟨hc.trans hc', fun l hl => hkeep l (keep l hl), fun b' hb' g hg hst => ?_⟩
    by_cases e : b'.lid = b.lid
    · rw [e] at hg ⊢
      exact hkeep _ (first g hg hst)
    · obtain rfl | hb' := List.mem_cons.1 hb'
      · exact absurd rfl e
      · exact hfail b' hb' g ((hoth _ e).trans hg) hst

end

end Sys2Proof.Machine

/-! # The obligation on ends, timeouts and failures -/

namespace Sys2Proof.Machine

open Sys2Proof

/-! ### Fences and failures of cores -/

section

variable (s : State)

theorem State.coresKeep_failTrap (k n : Nat) (t : Trap) (async : Bool) : s.CoresKeep (s.failTrap k n t async) := by
  unfold State.failTrap
  split
  · exact .refl s
  · exact (s.failGrid_leaves _ _ _).1

theorem State.coresKeep_enterHandler (k n : Nat) (t : Trap) (async ovf : Bool) (pc : DWord) (act : List Nat) :
    s.CoresKeep (s.enterHandler k n t async ovf pc act) := by
  unfold State.enterHandler
  split
  · exact .refl s
  split
  · exact .refl s
  split
  · exact s.coresKeep_failTrap ..
  · exact .of_eq rfl

theorem State.coresKeep_handlerTrap (k n : Nat) (t : Trap) (async ovf : Bool) (pc : DWord) (act : List Nat) :
    s.CoresKeep (s.handlerTrap k n t async ovf pc act) := by
  unfold State.handlerTrap
  split
  · exact .refl s
  split
  · exact .refl s
  split
  · exact .of_eq rfl
  · exact s.coresKeep_enterHandler ..

theorem State.coresKeep_takeDue (k n : Nat) : s.CoresKeep ((s.takeDue k n).getD s) := by
  unfold State.takeDue
  split
  · exact .refl s
  next x ch _ =>
    cases x.dueTrap with
    | none => exact .refl s
    | some d =>
      rw [Option.map_some, Option.getD_some]
      refine .trans ?_ (State.coresKeep_handlerTrap ..)
      exact .of_eq rfl

theorem State.coresKeep_stopBlock (k : Nat) (preempt : Bool) (annex : Option Bool) :
    s.CoresKeep (s.stopBlock k preempt annex) :=
  (State.CoresKeep.foldl _ (fun t n => t.coresKeep_takeDue k n) _ s).trans (.of_eq rfl)

/-- A fence marks its core. -/
theorem State.fenced_fence (c : Nat) : ((s.fence c).core c).fenced = true := by
  unfold State.fence
  dsimp only
  have hmark : (((s.setCore c { s.core c with fenced := true, marked := 2 }).core c)).fenced = true := by
    rw [State.core_setCore]
  generalize s.setCore c { s.core c with fenced := true, marked := 2 } = u at hmark ⊢
  generalize List.map _ (List.filter _ u.blocks) = ks
  rw [(State.judgeRuns_leaves _).1.fenced, (State.CoresKeep.foldl _ (fun t k => t.coresKeep_stopBlock k true none) ks u).fenced,
    hmark]

/-- With no trap to take first, a fence stops the blocks of its core as for a pre-emption, and no grid changes. -/
theorem State.fence_stops (c : Nat) (hdue : ∀ p ∈ s.blocks, ∀ x ∈ p.2.bands, x.dueTrap = none) :
    (s.fence c).grids = s.grids ∧ ∀ k b, s.blk k = some b → b.core = c → b.st = .running → b.sid = none →
      ∃ b', (s.fence c).blk k = some b' ∧ b'.waits = true ∧ b'.toProfile = none := by
  unfold State.fence
  dsimp only
  obtain ⟨u, hu⟩ : ∃ u, u = s.setCore c { s.core c with fenced := true, marked := 2 } := ⟨_, rfl⟩
  have hblk : ∀ k, u.blk k = s.blk k := fun k => by rw [hu]; rfl
  have hgr : u.grids = s.grids := by rw [hu]; rfl
  have hbs : u.blocks = s.blocks := by rw [hu]; rfl
  rw [← hu]
  obtain ⟨ks, hks⟩ : ∃ ks, ks = (u.blocks.filter fun p => p.2.core == c && p.2.st == .running).map (·.1) := ⟨_, rfl⟩
  rw [← hks]
  have hundue : ∀ k ∈ ks, u.Undue k := fun k _ b hb _ => hdue _ (mem_of_tget ((hblk k).symm.trans hb))
  obtain ⟨hg, -, hstop⟩ := State.stopBlocks_of_undue ks hundue
  obtain ⟨-, hjg, hjb⟩ := (ks.foldl (fun s k => s.stopBlock k true none) u).judgeRuns_leaves
  refine ⟨hjg.trans (hg.trans hgr), fun k b hb hc hr hn => ?_⟩
  have hk : k ∈ ks := by
    rw [hks, hbs]
    exact List.mem_map.2 ⟨(k, b), List.mem_filter.2 ⟨mem_of_tget hb, by simp [hc, hr]⟩, rfl⟩
  obtain ⟨b', hb', p⟩ := (hstop k b ((hblk k).trans hb)).2 hk hr
  exact ⟨b', hjb k b' hb' (p.sid.trans hn), p.waits, p.toProfile⟩

theorem State.loseLines_leaves (c : Nat) (ls : List L1Line) : s.HomeSide (s.loseLines c ls) := by
  induction ls generalizing s with
  | nil => exact .refl s
  | cons x ls ih =>
    unfold State.loseLines
    dsimp only
    refine .trans ?_ (ih _)
    split <;> exact .of_eq rfl rfl rfl rfl

end

/-- The failure of a core (R470): it is retired with an empty L1, and the grids that have a block on it fail. -/
theorem execCoreFailure_fails {s : State} {core : Nat} (hn : core < numCores) (hr : (s.core core).retired = false) :
    ∃ t, execCoreFailure core s = .next t ∧ (t.core core).retired = true ∧ (t.core core).l1 = [] ∧
      ∀ p ∈ s.blocks, ∀ g, p.2.core = core → p.2.st = .running → s.grid p.2.lid = some g → g.st = .accepted →
        (t.grid p.2.lid).map Grid.st = some (.failing 4) := by
  obtain ⟨u, hu⟩ : ∃ u, u = s.loseLines core ((s.core core).l1.filter fun x => x.owned) := ⟨_, rfl⟩
  have hus : s.HomeSide u := hu ▸ s.loseLines_leaves core _
  obtain ⟨v, hv⟩ : ∃ v, v = u.setCore core { u.core core with retired := true, l1 := [] } := ⟨_, rfl⟩
  have hvc : v.core core = { u.core core with retired := true, l1 := [] } := by rw [hv, State.core_setCore]
  have hvb : v.blocks = s.blocks := by rw [hv]; exact hus.blocks
  have hvg : ∀ l, v.grid l = s.grid l := fun l => by rw [hv]; exact congrArg (tget · l) hus.grids
  obtain ⟨w, hw⟩ : ∃ w, w = ((v.onCore core []).map (·.2)).foldl (fun s b => s.failGrid b.lid 4
    (flogRecord 2 0 0 (s.lidField b.lid) b.bx b.by' b.bz 0 (2 ^ 8) core)) v := ⟨_, rfl⟩
  obtain ⟨hkeep, -, hfail⟩ := State.failGrids_fail
    (fun s b => flogRecord 2 0 0 (s.lidField b.lid) b.bx b.by' b.bz 0 (2 ^ 8) core) 4
    ((v.onCore core []).map (·.2)) v
  rw [← hw] at hkeep hfail
  obtain ⟨hj, hjg, -⟩ := w.judgeRuns_leaves
  refine ⟨w.judgeRuns, ?_, ?_, hj.l1 _ (hkeep.l1 _ (by rw [hvc])), fun p hp g hc hst hg ha => ?_⟩
  · unfold execCoreFailure
    rw [hr, if_neg (by simp; omega), hw, hv, hu]
  · rw [hj.retired, hkeep.retired, hvc]
  · have hmem : p.2 ∈ (v.onCore core []).map (·.2) :=
      List.mem_map_of_mem (List.mem_filter.2 ⟨by rw [hvb]; exact hp, by simp [hc, State.holdsCore, hst]⟩)
    rw [State.grid, hjg]
    exact hfail p.2 hmem g ((hvg _).trans hg) ha

/-! ### Timeouts -/

section

variable {s : State} {sid : Nat} {m : Sample}

theorem State.loanOpen_of_open (hm : tget s.samples sid = some m) (ho : m.open' = true) : s.loanOpen sid = true := by
  rw [State.loanOpen, hm]
  exact ho

theorem execHoldTimeout_releases (hm : tget s.samples sid = some m) (ho : m.open' = true)
    (hw : (∃ w ∈ s.loanWaits sid, w.2 + s.holdto < s.time) ∨ ∃ since, m.outside = some since ∧ since + s.holdto < s.time) :
    execHoldTimeout sid s = .next (s.releaseSample sid (some 5)) := by
  have hany : (((s.loanWaits sid).map (·.2) ++ ((tget s.samples sid).bind Sample.outside).toList).any
      fun t => decide (t + s.holdto < s.time)) = true := by
    rw [List.any_eq_true]
    obtain ⟨w, hmem, hlt⟩ | ⟨since, hsince, hlt⟩ := hw
    · exact ⟨w.2, List.mem_append_left _ (List.mem_map_of_mem hmem), by simpa using hlt⟩
    · exact ⟨since, List.mem_append_right _ (by simp [hm, hsince]), by simpa using hlt⟩
  unfold execHoldTimeout
  dsimp only
  rw [State.loanOpen_of_open hm ho, hany]
  rfl

theorem execCapacityTimeout_releases (hm : tget s.samples sid = some m) (ho : m.open' = true)
    (hw : ∃ p ∈ s.blocks, ∃ x ∈ p.2.bands, ∃ l ∈ x.lanes, ∃ since pa,
      l.st = .blocked (.capacity sid since pa) ∧ since + s.holdto < s.time) :
    execCapacityTimeout sid s = .next (s.releaseSample sid (some 4)) := by
  obtain ⟨p, hp, x, hx, l, hl, since, pa, hst, hlt⟩ := hw
  unfold execCapacityTimeout
  dsimp only
  refine if_pos (Bool.and_eq_true_iff.2 ⟨State.loanOpen_of_open hm ho, List.any_eq_true.2 ⟨p, hp, ?_⟩⟩)
  refine Bool.or_eq_true_iff.2 (.inl (Bool.or_eq_true_iff.2 (.inl ?_)))
  refine List.any_eq_true.2 ⟨x, hx, List.any_eq_true.2 ⟨l, hl, ?_⟩⟩
  rw [hst]
  simpa using hlt

/-- Of two loans that wait for each other the one whose primary run started first is released (R467). -/
theorem execLoanCycleBreak_releases (hm : tget s.samples sid = some m) (ho : m.open' = true) {j : Nat} {n : Sample}
    (hn : tget s.samples j = some n) (hno : n.open' = true) (hle : m.start ≤ n.start) (hij : s.waitsOn sid j = true)
    (hji : s.waitsOn j sid = true) : execLoanCycleBreak [sid, j] s = .next (s.releaseSample sid (some 5)) := by
  unfold execLoanCycleBreak
  dsimp only
  rw [if_pos (by simp [State.loanOpen_of_open hm ho, State.loanOpen_of_open hn hno, hij, hji])]
  simp [hm, hn, Nat.not_lt.2 hle]

theorem State.releaseSample_released (hm : tget s.samples sid = some m) (ho : m.open' = true) (evt : Option Nat) :
    ∃ m', tget (s.releaseSample sid evt).samples sid = some m' ∧ m'.st = .released ∧ m'.prov = [] ∧
      (s.releaseSample sid evt).grids = s.grids := by
  obtain ⟨u, hu, e⟩ := s.releaseSample_eq hm ho evt
  rw [e]
  exact ⟨_, tget_tset_self .., rfl, rfl, hu.grids⟩

end

/-! ### The end of a block -/

theorem State.homeSide_logUnconsumed (s : State) (b : Block) : s.HomeSide (s.logUnconsumed b) := by
  refine .foldl _ (fun t n => ?_) _ s
  split
  · exact .refl t
  · exact t.homeSide_flog ..

theorem State.samples_leaveWide (s : State) (b : Block) : (s.leaveWide b).samples = s.samples := by
  unfold State.leaveWide
  split <;> rfl

section

variable {s : State} {k : Nat} {b : Block}

theorem execBlockEnd_plain (hb : s.blk k = some b) (hr : b.st = .running) (ho : s.blockOver b = true) (hn : b.sid = none) :
    ∃ t, execBlockEnd k s = .next t ∧ t.blocks = tdel s.blocks k := by
  have hadd : s.addResult b = s := by rw [State.addResult, hn]
  unfold execBlockEnd
  rw [hb]
  dsimp only
  rw [hr]
  dsimp only
  rw [if_pos ho, hadd, hn]
  exact ⟨_, rfl, rfl⟩

theorem execBlockEnd_primary (hb : s.blk k = some b) (hr : b.st = .running) (ho : s.blockOver b = true) {i : Nat} {m : Sample}
    (hi : b.sid = some i) (hm : tget s.samples i = some m) (hp : m.st = .primary) (hres : m.results = []) :
    ∃ t m', execBlockEnd k s = .next t ∧ t.blocks = tdel s.blocks k ∧ tget t.samples i = some m' ∧ m'.st = .waiting ∧
      m'.results = [b.result] := by
  obtain ⟨u, hu⟩ : ∃ u, u = s.addResult b := ⟨_, rfl⟩
  have hub : u.blocks = s.blocks := by rw [hu, State.addResult, hi]
  obtain ⟨v, hv⟩ : ∃ v : State, v = { (u.logUnconsumed b).leaveWide b with blocks := tdel u.blocks k } := ⟨_, rfl⟩
  have hvm : tget v.samples i = some { m with results := [b.result] } := by
    have : v.samples = u.samples := by
      rw [hv]
      exact (State.samples_leaveWide ..).trans (u.homeSide_logUnconsumed b).samples
    rw [this, hu, State.addResult, hi]
    dsimp only
    rw [tget_tmod_self, hm, Option.map_some, hres, List.nil_append]
  have hexec : execBlockEnd k s = .next (v.runEnds i b) := by
    unfold execBlockEnd
    rw [hb]
    dsimp only
    rw [hr]
    dsimp only
    rw [if_pos ho, hi, hv, hu]
  have hend : v.runEnds i b = { v with samples := tset v.samples i { m with results := [b.result], st := .waiting } } := by
    rw [State.runEnds, hvm]
    dsimp only
    rw [hp]
  refine ⟨_, _, hexec, ?_, by rw [hend]; exact tget_tset_self .., rfl, rfl⟩
  rw [hend, hv, hub]

end

end Sys2Proof.Machine

/-! # Grids that complete, and grids that fail -/

namespace Sys2Proof.Machine

open Sys2Proof

section

variable {s : State}

/-- Nothing keeps a completion record that can be written now from its place. -/
theorem State.onRecord_of_free {f asid : Nat} {p : Packet} (h : s.RecordFree f asid p) (what : String)
    (o : Host.Outcome State Fault Refusal) : s.onRecord what f asid p o = o := by
  obtain ⟨hlog, hloan, hline⟩ := h
  rw [State.onRecord, hlog, if_neg (by decide), hloan]
  cases hl : s.recordLine f asid p with
  | none => rfl
  | some l =>
    obtain ⟨hq, hh, ho⟩ := hline l hl
    have hgate : s.deviceGate l = .go s := by
      rw [State.deviceGate, hq, if_neg (by decide), hh, if_neg (by decide), ho]
    dsimp only
    rw [State.atGate, hgate]

/-- The completion of a packet writes its record and marks its grid. -/
theorem State.finishPacket_leaves (s : State) (g : Grid) (status : Nat) : (s.finishPacket g status).blocks = s.blocks ∧
    ∀ l, (s.finishPacket g status).grid l =
      if l = g.lid then (s.grid l).map fun g => { g with st := .complete status } else s.grid l := by
  obtain ⟨hw, hb, hg, -⟩ := (s.modGrid g.lid fun g => { g with st := .complete status }).homeSide_writeRecord g.fn g.asid g.orig
    g.pkt status
  refine ⟨hb, fun l => ?_⟩
  rw [← State.grid_modGrid]
  exact congrArg (tget · l) hg

theorem execGridCompletion_completes {g : Grid} (hg : s.grid g.lid = some g) (hl : g.live = true)
    (hn : g.pkt.numBlocks ≤ g.next) (hb : s.blocks.any (fun p => p.2.lid == g.lid) = false)
    (hs : s.samples.any (fun p => p.2.lid == g.lid && !p.2.final) = false) (hr : s.RecordFree g.fn g.asid g.pkt) :
    ∃ t, execGridCompletion g.lid s = .next t ∧ (t.grid g.lid).map Grid.st = some (.complete 0) ∧
      t.blocks = s.blocks ∧ ∀ l, l ≠ g.lid → t.grid l = s.grid l := by
  obtain ⟨hblocks, hgrids⟩ := (s.modGrid g.lid Grid.noBars).finishPacket_leaves g 0
  refine ⟨(s.modGrid g.lid Grid.noBars).finishPacket g 0, ?_, ?_, hblocks, fun l h => ?_⟩
  · unfold execGridCompletion
    rw [hg]
    dsimp only
    rw [hl, hb, hs, if_neg (by simpa using hn), State.onRecord_of_free hr]
  · rw [hgrids, if_pos rfl, State.grid_modGrid, if_pos rfl, hg]
    rfl
  · rw [hgrids, if_neg h, State.grid_modGrid, if_neg h]

end

/-! ### A queue that is disabled -/

/-- What a disabled queue's LQCTL reads (R188, R209): EN clear, ERR set, and the code. -/
theorem Queue.disable_reads (q : Queue) : (q.disable 2).en = false ∧ (q.disable 2).err = true ∧ (q.disable 2).errcode = 2 := by
  have hl : q.logn < 16 := BitVec.isLt _
  have hd : q.dclass < 8 := BitVec.isLt _
  have hx : q.dlx.toNat < 2 := Bool.toNat_lt _
  refine ⟨?_, ?_, ?_⟩
  · simp only [Queue.disable, Queue.en, Queue.ctl, BitVec.getLsbD_ofNat, Nat.testBit_eq_decide_div_mod_eq, Bool.toNat_false,
      Bool.toNat_true, Bool.and_eq_false_iff, decide_eq_false_iff_not]
    omega
  · simp only [Queue.disable, Queue.err, Queue.ctl, BitVec.getLsbD_ofNat, Nat.testBit_eq_decide_div_mod_eq, Bool.toNat_false,
      Bool.toNat_true, Bool.and_eq_true, decide_eq_true_eq]
    omega
  · simp only [Queue.disable, Queue.errcode, Queue.ctl, BitVec.extractLsb'_toNat, BitVec.toNat_ofNat, Nat.shiftRight_eq_div_pow,
      Bool.toNat_false, Bool.toNat_true]
    omega

theorem State.queue_modQueue (s : State) (f q : Nat) (g : Queue → Queue) :
    ((s.modQueue f q g).fn f).queue q = g ((s.fn f).queue q) := by
  rw [State.modQueue, State.modFn, State.setFn, State.fn, tget_tset_self, Option.getD_some, Fn.setQueue, Fn.queue,
    tget_tset_self, Option.getD_some]

/-- The failure of a grid whose work has drained (R208, R209). -/
theorem execGridFailure_completes {s : State} {g : Grid} (hg : s.grid g.lid = some g) {status : Nat}
    (hst : g.st = .failing status) (hd : s.failDrained g.lid = true) (hr : s.RecordFree g.fn g.asid g.pkt) :
    ∃ t, execGridFailure g.lid s = .next t ∧ (t.grid g.lid).map Grid.st = some (.complete status) ∧
      t.blocks = s.blocks.filter (fun p => p.2.lid != g.lid) ∧ ((t.fn g.fn).queue g.q).en = false ∧
      ((t.fn g.fn).queue g.q).err = true ∧ ((t.fn g.fn).queue g.q).errcode = 2 := by
  obtain ⟨u, hu⟩ : ∃ u, u = (s.blocks.filter fun p => p.2.lid == g.lid).foldl (fun s p => s.logUnconsumed p.2) s := ⟨_, rfl⟩
  have hus : s.HomeSide u := by
    rw [hu]
    exact .foldl _ (fun t (p : Nat × Block) => t.homeSide_logUnconsumed p.2) _ s
  obtain ⟨v, hv⟩ : ∃ v : State, v = State.modFn { u with blocks := u.blocks.filter fun p => p.2.lid != g.lid } g.fn fun x =>
    { x with pageReqs := x.pageReqs.filter fun r => !(r.band.isNone && r.copy.isNone && r.block == g.lid) } := ⟨_, rfl⟩
  have hvg : v.grid g.lid = some g := by
    rw [hv]
    exact (congrArg (tget · g.lid) hus.grids).trans hg
  have hvb : v.blocks = s.blocks.filter (fun p => p.2.lid != g.lid) := by
    rw [hv, ← hus.blocks]
    rfl
  obtain ⟨w, hw⟩ : ∃ w, w = v.modGrid g.lid fun g => { g.noBars with next := g.pkt.numBlocks } := ⟨_, rfl⟩
  obtain ⟨hblocks, hgrids⟩ := w.finishPacket_leaves g status
  have hexec : execGridFailure g.lid s = .next ((w.finishPacket g status).modQueue g.fn g.q fun x => x.disable 2) := by
    unfold execGridFailure
    rw [hg]
    dsimp only
    rw [hst]
    dsimp only
    rw [hd, if_neg (by decide), State.onRecord_of_free hr, hw, hv, hu]
  refine ⟨_, hexec, ?_, ?_, ?_⟩
  · have : ((w.finishPacket g status).grid g.lid).map Grid.st = some (.complete status) := by
      rw [hgrids, if_pos rfl, hw, State.grid_modGrid, if_pos rfl, hvg]
      rfl
    exact this
  · refine Eq.trans hblocks ?_
    rw [hw]
    exact hvb
  · rw [State.queue_modQueue]
    exact Queue.disable_reads _

/-! ### The obligation -/

/-- Settles O55: each end, timeout, fence and failure by the function that makes it. -/
theorem gridsEnd : Obligations.GridsEnd := by
  unfold Obligations.GridsEnd
  intro s
  refine ⟨fun k b hb hk => ⟨fun hr ho hn => ?_, fun i m hr ho hi hm hp hres => ?_⟩, fun lid g hg hlid => ?_,
    fun i sid m hm ho hi => ?_,
    fun core hn => ⟨fun hf => ?_, fun hf => ⟨s.fence core, ?_, s.fenced_fence core, s.fence_stops core⟩,
      execCoreFailure_fails hn⟩⟩
  · obtain ⟨t, hexec, hblocks⟩ := execBlockEnd_plain hb hr ho hn
    have hblk : ∀ j, t.blk j = if j = k then none else s.blk j := fun j => by
      rw [State.blk, hblocks]
      exact tget_tdel s.blocks k j hk
    exact ⟨t, hexec, by rw [hblk, if_pos rfl], fun j hj => by rw [hblk, if_neg hj]⟩
  · obtain ⟨t, m', hexec, hblocks, hm', hst, hr'⟩ := execBlockEnd_primary hb hr ho hi hm hp hres
    refine ⟨t, m', hexec, ?_, hm', hst, hr'⟩
    rw [State.blk, hblocks, tget_tdel s.blocks k k hk, if_pos rfl]
  · subst hlid
    refine ⟨fun hl hn hb hs hr => execGridCompletion_completes hg hl hn hb hs hr, fun status hst hd hr => ?_⟩
    obtain ⟨t, hexec, hgrid, hblocks, hq⟩ := execGridFailure_completes hg hst hd hr
    refine ⟨t, hexec, hgrid, fun p hp => ?_, fun p hp hne => ?_, hq⟩
    · rw [hblocks] at hp
      simpa using (List.mem_filter.1 hp).2
    · rw [hblocks]
      exact List.mem_filter.2 ⟨hp, by simpa using hne⟩
  · obtain ⟨evt, he⟩ : ∃ evt, exec i s = .next (s.releaseSample sid evt) := by
      obtain ⟨rfl, hw⟩ | ⟨rfl, hw⟩ | ⟨j, n, rfl, hn, hno, hle, hij, hji⟩ := hi
      · exact ⟨_, execHoldTimeout_releases hm ho hw⟩
      · exact ⟨_, execCapacityTimeout_releases hm ho hw⟩
      · exact ⟨_, execLoanCycleBreak_releases hm ho hn hno hle hij hji⟩
    obtain ⟨m', hm', hst, hprov, hgrids⟩ := State.releaseSample_released hm ho evt
    exact ⟨_, m', he, hm', hst, hprov, hgrids⟩
  · exact (if_neg (Nat.not_le.2 hn)).trans (by rw [if_pos hf])
  · exact (if_neg (Nat.not_le.2 hn)).trans (by rw [hf]; rfl)

end Sys2Proof.Machine

/-! # Decode of encode, and the bytes of an instruction -/

namespace Sys2Proof.Laws.RoundTrip

open Sys2Proof

/-- Every instruction keeps its round trip: constructor by constructor, the lemma that has the constructor's name. -/
theorem statement (i : Instr) : Statement i :=
  Instr.casesOn (motive := Statement) i
    iadd isub imul imulh ineg iabs imin imax iaddsat isubsat icmp idiv irem imad imadw iclamp iaddImm isubImm imulImm iminImm
    imaxImm icmpImm idivImm iremImm and or xor andn not shl shr sar rol ror popc clz ctz brev bperm clmulLo clmulHi lop3 fsh
    bfe bfi andImm orImm xorImm shlImm shrImm sarImm rolImm rorImm pand por pxor pnot p2v v2p mov movIndexedRead
    movIndexedWrite isel iselImm movi lea movw nop64 exit ret yield brx nop96 bra call dbra nop128 fadd fsub fmul fmin fmax
    fcmp fdiv fsqrt frcp frsq fexp2 flog2 fsin fcos frnd fclass ffma faddImm fmulImm fminImm fmaxImm fcmpImm fcvt icvt fpack
    hfma2 dot4 dadd dmul ddiv dsqrt dcmp dmin dmax dcvt dfma xchgIdx xchgUp xchgDown xchgXor voteAll voteAny voteBallot matchB
    redb elect sread barArr barWait barSync barInv barInit joinE joinW joinX ld st lds sts ldf fence lflush linv atom red ldw
    chk prf rngCommit strmPos strmSet strmEnd strmCfg waitc ringWait ringRel ringInit cpy cpyCol cpyPl gangSet gangClr cmdWait
    tileGet accClr tileSet mma planePack planeUnpack accRd accWr cbtLd trap sys brk rte halt migr ctxSave ctxRest tlbinv scrub
    csrRd csrWr asyncTrapEntry forcedRelease lqdbDoorbell lqctlEn lqctlErrClear noopPacket launchPacket markerPacket
    contextUpdatePacket markerCompletion contextUpdate blockPlacement carveOutChange preemption blockResume blockEnd
    gridCompletion gridFailure loadRequest loadReply storeArrival storeCompletion RoundTrip.recall ownerWriteback ownershipGrant
    leaseExpiry watchCheck watchAnswer packetDelivery pageWalk prsp flogctlWrite copySegment copyCompletion
    collectiveAcceptance commandAcceptance commandStart commandRetire streamReadahead pushRetire remoteOperation
    remoteCompletion replayPlacement holdTimeout loanCycleBreak capacityTimeout cdemFenced coreFailure stackRequest stackReply
    dieLinkFlit solustFlit ckpctlSave ckpctlRestore checkpointRequestFlit checkpointEnd fleetKeyDelivery hostWindowAccess
    hcwinWrite keymapWrite firmwareLoad powerUp thermalShutdown clockThrottle getVersion getCapabilities negotiateAlgorithms
    getDigests getCertificate challenge getMeasurements keyExchange finish endSession ideKm lockInterface interfaceUnlock
    policyDelivery condreq conditionReportSpdm conditionReportFlit debugHalt debugResume debugStep debugReadRegister
    debugWriteRegister lmctlTrack lmctlSnap lmctlQuiesce quiesceDone lmctlResume unitRetirement deviceReset registerWrite
    releaseWait interfaceRun linkFailure

end Sys2Proof.Laws.RoundTrip

namespace Sys2Proof.Machine

open Sys2Proof

/-! ### Encoding and decoding -/

/-- Settles O1: the round trips of the constructors, each of which goes through its group's decoder. -/
theorem decodeInvertsEncode : Obligations.DecodeInvertsEncode := Laws.RoundTrip.statement

/-- R43: LEN = 3 is refused before any other field is looked at. -/
theorem decode_of_len_three {w : BitVec 128} (h : w.extractLsb' 0 2 = 3) : decode w = .bad .lenReserved := if_pos h

/-! ### Little-endian values -/

/-- A little-endian value has the bits of its bytes, and none above them (R7). -/
theorem testBit_leVal (bs : List Byte) (i : Nat) : (leVal bs).testBit i = (bs.getD (i / 8) 0).getLsbD (i % 8) := by
  induction bs generalizing i with
  | nil => simp [leVal]
  | cons b bs ih =>
    have hsplit : (leVal (b :: bs)).testBit i = if i < 8 then b.toNat.testBit i else (leVal bs).testBit (i - 8) := by
      rw [leVal, Nat.add_comm]
      exact Nat.testBit_two_pow_mul_add _ b.isLt i
    rw [hsplit]
    split
    next hlow => rw [Nat.div_eq_of_lt hlow, Nat.mod_eq_of_lt hlow]; rfl
    next hhigh =>
      rw [ih, Nat.div_eq_sub_div (a := i) (by decide) (by omega), List.getD_cons_succ, ← Nat.mod_eq_sub_mod (by omega)]

/-- The byte at a place of a read is the byte at that address. -/
theorem State.getD_rd (s : State) (kid pa n k : Nat) :
    (s.rd kid pa n).getD k 0 = if k < n then s.rdByte kid (pa + k) else 0 := by
  induction n generalizing pa k with
  | zero => rfl
  | succ n ih =>
    cases k with
    | zero => rfl
    | succ k => simp only [State.rd, List.getD_cons_succ, ih, Nat.succ_lt_succ_iff, Nat.add_right_comm, Nat.add_assoc]

/-- A read as one value: bit i is bit i % 8 of the byte at address + i / 8, and the bits above the bytes read are clear. -/
theorem State.getLsbD_ofNat_leVal_rd (s : State) (kid pa n m i : Nat) (h : 8 * n ≤ m) :
    (BitVec.ofNat m (leVal (s.rd kid pa n))).getLsbD i =
      (decide (i < 8 * n) && (s.rdByte kid (pa + i / 8)).getLsbD (i % 8)) := by
  rw [BitVec.getLsbD_ofNat, testBit_leVal, State.getD_rd]
  by_cases hi : i < 8 * n
  · simp [hi, show i < m by omega, show i / 8 < n by omega]
  · simp [hi, show ¬ i / 8 < n by omega]

/-! ### Fetches -/

/-- The bytes that a fetch finds are the little-endian value of as many bytes as LEN says, at most 16 (R43, R44). -/
theorem State.fetch_bytes {s : State} {b : Block} {priv : Bool} {pc : DWord} {lane : Nat} {x : Xl} {w : BitVec 128}
    (hx : s.fetchXl b priv pc lane = .ok x) (hf : s.fetch b priv pc lane = .bytes w) :
    (s.rdByte x.kid x.pa).toNat % 4 ≠ 3 ∧
      w = BitVec.ofNat 128 (leVal (s.rd x.kid x.pa (8 + 4 * ((s.rdByte x.kid x.pa).toNat % 4)))) := by
  unfold State.fetch at hf
  simp only [hx] at hf
  split at hf
  · nomatch hf
  split at hf
  · nomatch hf
  split at hf
  · nomatch hf
  split at hf
  · nomatch hf
  next hlen _ => exact ⟨hlen, (Fetched.bytes.inj hf).symm⟩

/-- Settles O2: a fetch's bytes by the bits of a read as one value, LEN = 3 by the decoder's first test, the four words by
running the decoder. -/
theorem instructionBytes : Obligations.InstructionBytes := by
  unfold Obligations.InstructionBytes
  refine ⟨fun s b priv pc lane x w hx hf => ?_, fun w h => ⟨_, decode_of_len_three h⟩, by decide⟩
  obtain ⟨hlen, rfl⟩ := State.fetch_bytes hx hf
  have hn : 8 * (8 + 4 * ((s.rdByte x.kid x.pa).toNat % 4)) ≤ 128 := by omega
  refine ⟨fun k hk => BitVec.eq_of_getLsbD_eq fun j hj => ?_, fun k hk => ?_⟩
  · rw [BitVec.getLsbD_extractLsb', State.getLsbD_ofNat_leVal_rd s _ _ _ _ _ hn, show (8 * k + j) / 8 = k by omega,
      show (8 * k + j) % 8 = j by omega]
    simp [hj, show 8 * k + j < 8 * (8 + 4 * ((s.rdByte x.kid x.pa).toNat % 4)) by omega]
  · simp [State.getLsbD_ofNat_leVal_rd s _ _ _ _ _ hn, Nat.not_lt.2 hk]

end Sys2Proof.Machine

/-! # Numbers

The values of integer arithmetic, the NaN steps of the floating-point operations, the rounding of values that a format
represents, and the sum of a reduction. -/

namespace Sys2Proof.Machine

open Sys2Proof

/-! ### Integer arithmetic -/

/-- A type's value of a register is its low bits, read as an integer. -/
theorem ofInt_ival (t : IType) (x : DWord) : BitVec.ofInt t.bits (ival t x) = x.setWidth t.bits := by
  unfold ival
  split
  · exact BitVec.ofInt_toInt
  · rw [BitVec.ofInt_natCast, BitVec.ofNat_toNat, BitVec.setWidth_eq]

theorem bits_le_dword (t : IType) : t.bits ≤ 64 := by
  cases t <;> decide

/-- The low bits of an extended value are the value. -/
theorem setWidth_signExtend_of_le {n : Nat} (h : n ≤ 64) (x : BitVec n) : (x.signExtend 64).setWidth n = x := by
  ext i hi
  rw [BitVec.getElem_setWidth, BitVec.getLsbD_eq_getElem (by omega), BitVec.getElem_signExtend, dif_pos hi]

theorem setWidth_ires (t : IType) (r : Int) : (ires t r).setWidth t.bits = BitVec.ofInt t.bits r := by
  unfold ires iresN
  split
  · exact setWidth_signExtend_of_le (bits_le_dword t) _
  · rw [BitVec.setWidth_setWidth_of_le _ (bits_le_dword t), BitVec.setWidth_eq]

theorem ofInt_sub (n : Nat) (a b : Int) : BitVec.ofInt n (a - b) = BitVec.ofInt n a - BitVec.ofInt n b := by
  rw [Int.sub_eq_add_neg, BitVec.ofInt_add, BitVec.ofInt_neg, BitVec.sub_eq_add_neg]

/-- Sums, differences and products are those of the low bits, for signed types as for the others. -/
theorem setWidth_iop (t : IType) (a b : DWord) :
    (iop .add t a b).setWidth t.bits = a.setWidth t.bits + b.setWidth t.bits ∧
    (iop .sub t a b).setWidth t.bits = a.setWidth t.bits - b.setWidth t.bits ∧
    (iop .mul t a b).setWidth t.bits = a.setWidth t.bits * b.setWidth t.bits := by
  simp only [iop, setWidth_ires, BitVec.ofInt_add, ofInt_sub, BitVec.ofInt_mul, ofInt_ival, and_self]

theorem iop_word {t : IType} (ht : t = .s32 ∨ t = .z32) (a b : Word) :
    (iop .add t (a.setWidth 64) (b.setWidth 64)).setWidth 32 = a + b ∧
    (iop .sub t (a.setWidth 64) (b.setWidth 64)).setWidth 32 = a - b ∧
    (iop .mul t (a.setWidth 64) (b.setWidth 64)).setWidth 32 = a * b := by
  have cut (x : Word) : (x.setWidth 64).setWidth 32 = x := by simp
  have h := setWidth_iop t (a.setWidth 64) (b.setWidth 64)
  have hbits : t.bits = 32 := by obtain rfl | rfl := ht <;> rfl
  rw [hbits, cut, cut] at h
  exact h

theorem iop_dword {t : IType} (ht : t = .s64 ∨ t = .z64) (a b : DWord) :
    iop .add t a b = a + b ∧ iop .sub t a b = a - b ∧ iop .mul t a b = a * b := by
  have h := setWidth_iop t a b
  have hbits : t.bits = 64 := by obtain rfl | rfl := ht <;> rfl
  rw [hbits] at h
  simpa only [BitVec.setWidth_eq] using h

/-- A value clamped between two bounds, with SAT where it was out of them. -/
def clampSat (lo hi x : Int) : Res Int :=
  ⟨if x < lo then lo else if hi < x then hi else x, if x < lo ∨ hi < x then Conds.sat else 0⟩

theorem satS_eq (x : Int) (n : Nat) : satS x n = clampSat (-2 ^ (n - 1)) (2 ^ (n - 1) - 1) x := by
  unfold satS clampSat
  split
  · simp [*]
  · split <;> simp [*]

theorem satZ_eq (x : Int) (n : Nat) : satZ x n = clampSat 0 (2 ^ n - 1) x := by
  unfold satZ clampSat
  split
  · simp [*]
  · split <;> simp [*]

/-- A saturating sum or difference is clamped between the least and the greatest value of its type. -/
theorem isat_eq (sub : Bool) (t : IType) (a b : DWord) :
    isat sub t a b =
      let r := clampSat (if t.sg then -(2 : Int) ^ (t.bits - 1) else 0)
        (if t.sg then (2 : Int) ^ (t.bits - 1) - 1 else (2 : Int) ^ t.bits - 1)
        (if sub then ival t a - ival t b else ival t a + ival t b)
      ⟨ires t r.val, r.cs⟩ := by
  simp only [isat, satS_eq, satZ_eq]
  cases t.sg <;> rfl

/-- Settles O8: the sums modulo 2^n by the low bits of a result; every instruction computes on each lane by itself. -/
theorem integerResults : Obligations.IntegerResults := by
  unfold Obligations.IntegerResults
  refine ⟨fun t a b ht => iop_word ht a b, fun t a b ht => iop_dword ht a b, fun h s y => ⟨?_, ?_, ?_, ?_, ?_⟩⟩
  · exact fun o => ⟨computes_runAlu rfl, computes_runAlu rfl, computes_runAlu rfl, computes_runAlu rfl, computes_runAlu rfl,
      computes_runAlu rfl⟩
  · exact fun o => ⟨computes_runAlu rfl, computes_runAlu rfl, computes_runAlu rfl, computes_runAlu rfl, computes_runAlu rfl⟩
  · exact fun o => ⟨computes_runAlu rfl, computes_runAlu rfl⟩
  · refine fun o => ⟨computes_runAlu ?_, computes_runAlu ?_⟩
    · simp only [exec, execIaddsat, aluSat, isat_eq]
      rfl
    · simp only [exec, execIsubsat, aluSat, isat_eq]
      rfl
  · exact fun o => ⟨computes_runAlu rfl, computes_runAlu rfl, computes_runAlu rfl⟩

/-! ### Floating-point arithmetic -/

/-- A sign inverted twice over. -/
theorem FV.neg_neg_true (v : FV) (n : Bool) : (v.neg n).neg true = v.neg !n := by
  cases v <;> simp [FV.neg]

/-- Settles O16: each instruction computes on each lane by itself; a difference is the sum with the other sign. -/
theorem floatResults : Obligations.FloatResults := by
  unfold Obligations.FloatResults
  refine fun h s y => ⟨fun o => ⟨?_, ?_, ?_, ?_, ?_⟩, fun o => ⟨?_, ?_⟩, fun o => ⟨?_, ?_⟩,
    fun o => ⟨?_, ?_, ?_, ?_, ?_, ?_, ?_, ?_, ?_⟩, fun o => ⟨?_, ?_⟩, fun o => ⟨?_, ?_, ?_, ?_⟩, fun o => ⟨?_, ?_⟩, fun o => ?_⟩
  case refine_2 =>
    refine computes_runAlu ?_
    simp only [exec, execFsub, fp2, FV.neg_neg_true]
    rfl
  all_goals exact computes_runAlu rfl

/-! ### NaN operands -/

@[simp] theorem FV.isNan_flush (v : FV) (z : Bool) : (v.flush z).isNan = v.isNan := by
  unfold FV.flush
  split
  · split <;> rfl
  · rfl

@[simp] theorem FV.isSig_flush (v : FV) (z : Bool) : (v.flush z).isSig = v.isSig := by
  unfold FV.flush
  split
  · split <;> rfl
  · rfl

@[simp] theorem FV.isNan_neg (v : FV) (n : Bool) : (v.neg n).isNan = v.isNan := by
  cases v <;> rfl

@[simp] theorem FV.isSig_neg (v : FV) (n : Bool) : (v.neg n).isSig = v.isSig := by
  cases v <;> rfl

/-- The NaN steps of R150: the operation itself is not reached. -/
theorem fopK_of_nan (f : Fmt) {xs : List FV} (h : xs.any FV.isNan = true) (k : Res Nat) :
    fopK f xs k = ⟨f.nan, if xs.any FV.isSig then Conds.nv else 0⟩ :=
  if_pos h

section

variable (f : Fmt) (md : RMode) (z : Bool) {a b c : FV}

theorem fadd_of_nan (h : a.isNan || b.isNan) : fadd f md z a b = ⟨f.nan, if a.isSig || b.isSig then Conds.nv else 0⟩ :=
  (fopK_of_nan f (by simpa using h) _).trans (by simp)

theorem fmul_of_nan (h : a.isNan || b.isNan) : fmul f md z a b = ⟨f.nan, if a.isSig || b.isSig then Conds.nv else 0⟩ :=
  (fopK_of_nan f (by simpa using h) _).trans (by simp)

theorem fdiv_of_nan (h : a.isNan || b.isNan) : fdiv f md z a b = ⟨f.nan, if a.isSig || b.isSig then Conds.nv else 0⟩ :=
  (fopK_of_nan f (by simpa using h) _).trans (by simp)

theorem ffma_of_nan (np nc : Bool) (h : a.isNan || b.isNan || c.isNan) :
    ffma f md z np nc a b c = ⟨f.nan, if a.isSig || b.isSig || c.isSig then Conds.nv else 0⟩ :=
  (fopK_of_nan f (by simpa [or_assoc] using h) _).trans (by simp [or_assoc])

theorem fsqrt_of_nan (h : a.isNan) : fsqrt f md z a = ⟨f.nan, if a.isSig then Conds.nv else 0⟩ :=
  (fopK_of_nan f (by simpa using h) _).trans (by simp)

theorem frcp_of_nan (h : a.isNan) : frcp f md z a = ⟨f.nan, if a.isSig then Conds.nv else 0⟩ :=
  fdiv_of_nan f md z (a := .fin false 1 0 false) (by simpa [FV.isNan] using h)

theorem frsq_of_nan (h : a.isNan) : frsq f md z a = ⟨f.nan, if a.isSig then Conds.nv else 0⟩ :=
  (fopK_of_nan f (by simpa using h) _).trans (by simp)

end

/-- Settles O18: every operation begins with the NaN steps, on operands whose kind of NaN neither FTZ nor a sign changes. -/
theorem nanOperands : Obligations.NanOperands := by
  unfold Obligations.NanOperands
  intro f md z np nc a b c nv
  exact ⟨fun h => ⟨fadd_of_nan f md z h, fmul_of_nan f md z h, fdiv_of_nan f md z h⟩, ffma_of_nan f md z np nc,
    fun h => ⟨fsqrt_of_nan f md z h, frcp_of_nan f md z h, frsq_of_nan f md z h⟩⟩

end Sys2Proof.Machine

/-! # Values that a format represents

Rounding such a value gives its pattern back, and so do the operations whose exact result it is. -/

namespace Sys2Proof.Machine

open Sys2Proof

/-- What the formats of R84 have in common: room for normal numbers, the reserved patterns of E4M3 in an E4M3 alone, and
exponents below the bound from which an exact sum takes its unit. -/
structure Fmt.Regular (f : Fmt) : Prop where
  wide : 2 ≤ f.ebits
  small : f.small4 = true → f.ebits = 4 ∧ f.fbits = 3
  range : f.topU ≤ 5000

theorem Fmt.regular_of_mem {f : Fmt} (h : f ∈ [Fmt.f64, Fmt.f32, Fmt.f16, Fmt.bf16, Fmt.e5m2, Fmt.e4m3]) : f.Regular := by
  simp only [List.mem_cons, List.not_mem_nil, or_false] at h
  obtain rfl | rfl | rfl | rfl | rfl | rfl := h <;> exact ⟨by decide, by decide, by decide⟩

/-- The fields of a finite pattern other than a zero (R85): a fraction of a subnormal number, or an exponent of a normal one
and its fraction. -/
inductive Fmt.Finite (f : Fmt) (x : Nat) (s : Bool) : Nat → Int → Prop where
  | sub (fr : Nat) (h0 : 0 < fr) (hfr : fr < 2 ^ f.fbits) (hx : x = f.mk' s 0 fr) : f.Finite x s fr (f.emin - f.fbits)
  | normal (ex fr : Nat) (h1 : 1 ≤ ex) (hfr : fr < 2 ^ f.fbits) (hx : x = f.mk' s ex fr)
      (htop : (ex : Int) - f.bias - f.fbits ≤ f.topU)
      (hlast : (ex : Int) - f.bias - f.fbits = f.topU → 2 ^ f.fbits + fr ≤ f.topN) :
      f.Finite x s (2 ^ f.fbits + fr) (ex - f.bias - f.fbits)

/-- A pattern is made of its fields. -/
theorem Fmt.mk'_fields (f : Fmt) {x : Nat} (hx : x < 2 ^ f.bits) :
    x = f.mk' (x / 2 ^ (f.ebits + f.fbits) % 2 == 1) (x / 2 ^ f.fbits % 2 ^ f.ebits) (x % 2 ^ f.fbits) := by
  have hs : x / 2 ^ (f.ebits + f.fbits) < 2 := by
    rw [Nat.div_lt_iff_lt_mul (by positivity), ← pow_succ']
    exact hx
  have hb : (x / 2 ^ (f.ebits + f.fbits) % 2 == 1).toNat = x / 2 ^ (f.ebits + f.fbits) := by
    generalize x / 2 ^ (f.ebits + f.fbits) = s at hs
    interval_cases s <;> rfl
  have he : x / 2 ^ f.fbits = x / 2 ^ (f.ebits + f.fbits) * 2 ^ f.ebits + x / 2 ^ f.fbits % 2 ^ f.ebits := by
    rw [Nat.add_comm f.ebits, pow_add, ← Nat.div_div_eq_div_mul, Nat.div_add_mod']
  have hshift : x / 2 ^ (f.ebits + f.fbits) * 2 ^ (f.ebits + f.fbits) =
      x / 2 ^ (f.ebits + f.fbits) * 2 ^ f.ebits * 2 ^ f.fbits := by
    rw [Nat.mul_assoc, ← pow_add]
  rw [Fmt.mk', hb, hshift, ← Nat.add_mul, ← he, Nat.div_add_mod']

theorem Fmt.finite_of_fval {f : Fmt} (hf : f.Regular) {x : Nat} (hx : x < 2 ^ f.bits) {s : Bool} {m : Nat} {e : Int} {b : Bool}
    (h : fval f x = .fin s m e b) : f.Finite x s m e := by
  have hfields := f.mk'_fields hx
  have hfr : x % 2 ^ f.fbits < 2 ^ f.fbits := Nat.mod_lt _ (by positivity)
  have hex : x / 2 ^ f.fbits % 2 ^ f.ebits < 2 ^ f.ebits := Nat.mod_lt _ (by positivity)
  unfold fval at h
  dsimp only at h
  generalize hS : (x / 2 ^ (f.ebits + f.fbits) % 2 == 1) = S at *
  generalize hE : x / 2 ^ f.fbits % 2 ^ f.ebits = E at *
  generalize hF : x % 2 ^ f.fbits = F at *
  have hpow : ((2 ^ f.ebits : Nat) : Int) = 2 ^ f.ebits := by push_cast; rfl
  split at h
  next h0 =>
    split at h
    · cases h
    next h1 =>
      cases h
      exact .sub m (Nat.pos_of_ne_zero h1) hfr (h0 ▸ hfields)
  next h0 =>
  have h1 : 1 ≤ E := Nat.one_le_iff_ne_zero.2 h0
  split at h
  next hs =>
    obtain ⟨heb, hfb⟩ := hf.small hs
    split at h
    · cases h
    next hn =>
      cases h
      refine .normal E F h1 hfr hfields ?_ fun ht => ?_
      · rw [Fmt.topU, hs, heb]
        rw [heb] at hex
        simp only [if_true]
        omega
      · rw [Fmt.topU, hs, heb, if_pos rfl] at ht
        rw [Fmt.topN, hs, Fmt.p, hfb, if_pos rfl]
        rw [hfb] at hfr
        omega
  next hs =>
  split at h
  · split at h <;> cases h
  next ht =>
    cases h
    refine .normal E F h1 hfr hfields ?_ fun _ => ?_
    · rw [Fmt.topU, if_neg hs, ← hpow]
      omega
    · rw [Fmt.topN, if_neg hs, Fmt.p, pow_succ]
      omega

/-- Nothing is lost when the unit of the rounding is the value's own (R89, R90). -/
theorem roundF_of_unit {f : Fmt} {m : Nat} {e : Int} (hu : max ((Nat.log2 m : Int) + e) f.emin - f.fbits = e)
    (ht : ¬(f.topU < e ∨ f.topU = e ∧ f.topN < m)) (md : RMode) (s : Bool) :
    roundF f md false .ieee s m e = ⟨encodeF f s m e, 0⟩ := by
  simp [roundF, hu, rintQ, ht]

theorem log2_fraction {n fr : Nat} (h : fr < 2 ^ n) : Nat.log2 (2 ^ n + fr) = n := by
  rw [Nat.log2_eq_iff (by positivity), pow_succ]
  omega

/-- A format holds more than one exponent of normal numbers. -/
theorem Fmt.Regular.emin_lt_topU {f : Fmt} (hf : f.Regular) : f.emin - f.fbits < f.topU := by
  have hroom : (2 : Int) ^ 2 ≤ 2 ^ f.ebits := pow_le_pow_right₀ (by norm_num) hf.wide
  rw [Fmt.emin, Fmt.topU]
  split <;> omega

theorem roundF_of_finite {f : Fmt} (hf : f.Regular) {x : Nat} {s : Bool} {m : Nat} {e : Int} (h : f.Finite x s m e)
    (md : RMode) : roundF f md false .ieee s m e = ⟨x, 0⟩ := by
  cases h with
  | sub _ h0 hfr hx =>
    have hlog := (Nat.log2_lt (Nat.ne_of_gt h0)).2 hfr
    have htop := hf.emin_lt_topU
    rw [roundF_of_unit (by omega) (by omega), encodeF, if_neg (by omega), if_pos hfr, hx]
  | normal ex fr h1 hfr hx htop hlast =>
    have hemin : f.emin = 1 - f.bias := rfl
    rw [roundF_of_unit (by rw [log2_fraction hfr]; omega) (by omega), encodeF, if_neg (by omega), if_neg (by omega),
      if_pos (by rw [Fmt.p, pow_succ]; omega), hx]
    congr 2 <;> omega

/-- A finite value is not zero, and its unit lies below the bound of `sumF`. -/
theorem Fmt.Finite.pos_le {f : Fmt} (hf : f.Regular) {x : Nat} {s : Bool} {m : Nat} {e : Int} (h : f.Finite x s m e) :
    0 < m ∧ e ≤ 5000 := by
  cases h with
  | sub _ h0 hfr hx => exact ⟨h0, hf.emin_lt_topU.le.trans hf.range⟩
  | normal ex fr h1 hfr hx htop hlast => exact ⟨by positivity, htop.trans hf.range⟩

/-- A product by one is rounded once, from the value itself. -/
theorem fmul_one (f : Fmt) (md : RMode) (s : Bool) (m : Nat) (e : Int) (b : Bool) :
    fmul f md false (.fin s m e b) (.fin false 1 0 false) = roundF f md false .ieee s m e := by
  cases b <;> simp [fmul, FV.flush, fopK, FV.isNan, mulInvalid, FV.isInf, FV.isZero, mulV, FV.sign]

/-- A sum with a zero is rounded once, from the value itself. -/
theorem fadd_zero (f : Fmt) (md : RMode) (s : Bool) {m : Nat} {e : Int} (hm : 0 < m) (he : e ≤ 5000) (b t : Bool) :
    fadd f md false (.fin s m e b) (.zero t) = roundF f md false .ieee s m e := by
  have hflush : (FV.fin s m e b).flush false = .fin s m e b := by cases b <;> rfl
  have hunit : minExp [.fin s m e b, .zero t] 5000 = e := min_eq_left he
  have hsum : ([.fin s m e b, .zero t].map (atUnit e)).sum = if s then -(m : Int) else m := by
    simp [atUnit]
  have hne : (if s then -(m : Int) else m) ≠ 0 := by split <;> omega
  have hsign : decide ((if s then -(m : Int) else m) < 0) = s := by
    cases s
    · simp
    · simpa using hm
  have habs : (if s then -(m : Int) else m).natAbs = m := by cases s <;> simp
  unfold fadd
  dsimp only
  rw [hflush]
  simp only [fopK, FV.flush, sumF, hunit, hsum, roundI, hsign, habs]
  simp [FV.isNan, hne]

/-- Settles O19: the rounding's unit is that of the pattern, and a product by one and a sum with a zero round the value itself. -/
theorem exactValuesRound : Obligations.ExactValuesRound := by
  unfold Obligations.ExactValuesRound
  intro f md x q m e sub hf hx h
  have hreg := Fmt.regular_of_mem hf
  have hfin := Fmt.finite_of_fval hreg hx h
  obtain ⟨hm, he⟩ := hfin.pos_le hreg
  have hround := roundF_of_finite hreg hfin md
  exact ⟨hround, (fmul_one f md q m e sub).trans hround, (fadd_zero f md q hm he sub q).trans hround⟩

end Sys2Proof.Machine

/-! # Sums over the lanes of a band -/

namespace Sys2Proof.Machine

open Sys2Proof

/-- The lanes of a list from lane i on, n of them. -/
def lanesFrom (ex : List Nat) (i n : Nat) : List Nat := ex.filter fun l => i ≤ l ∧ l < i + n

theorem lanesFrom_one {ex : List Nat} (hn : ex.Nodup) (i : Nat) : lanesFrom ex i 1 = if i ∈ ex then [i] else [] := by
  have h : lanesFrom ex i 1 = ex.filter (· = i) := by
    refine List.filter_congr fun l _ => ?_
    simp only [decide_eq_decide]
    omega
  rw [h, List.filter_eq, List.Nodup.count hn]
  split <;> rfl

theorem lanesFrom_all {ex : List Nat} {n : Nat} (h : ∀ l ∈ ex, l < n) : lanesFrom ex 0 n = ex := by
  simpa [lanesFrom] using h

/-- A range of lanes is empty when its halves are. -/
theorem lanesFrom_add_eq_nil (ex : List Nat) (i m n : Nat) :
    lanesFrom ex i (m + n) = [] ↔ lanesFrom ex i m = [] ∧ lanesFrom ex (i + m) n = [] := by
  simp only [lanesFrom, List.filter_eq_nil_iff, decide_eq_true_eq, ← forall_and]
  exact forall₂_congr fun l _ => by omega

/-- The sum over a range of lanes is that over its halves. -/
theorem sum_lanesFrom_add (ex : List Nat) (v : Nat → Word) (i m n : Nat) :
    ((lanesFrom ex i (m + n)).map v).sum = ((lanesFrom ex i m).map v).sum + ((lanesFrom ex (i + m) n).map v).sum := by
  have hsum (i n : Nat) : ((lanesFrom ex i n).map v).sum = (ex.map fun l => if i ≤ l ∧ l < i + n then v l else 0).sum := by
    simp [lanesFrom, List.sum_map_ite]
  rw [hsum, hsum, hsum, ← List.sum_map_add]
  refine congrArg List.sum (List.map_congr_left fun l _ => ?_)
  by_cases hlo : i ≤ l ∧ l < i + m
  · have hall : i ≤ l ∧ l < i + (m + n) := by omega
    have hhi : ¬(i + m ≤ l ∧ l < i + m + n) := by omega
    rw [if_pos hlo, if_pos hall, if_neg hhi, add_zero]
  · rw [if_neg hlo, zero_add]
    exact if_congr (by omega) rfl rfl

/-- A node for addition adds the values of its two sides. -/
theorem val_redbJoin_addb (md : RMode) (z : Bool) (a b : Option (Res Word)) :
    (redbJoin (redbNode .addb md z) a b).map Res.val = Option.merge (· + ·) (a.map Res.val) (b.map Res.val) := by
  cases a <;> cases b <;> rfl

/-- The tree of R109 for addition: empty over lanes none of which is in the list, and the sum of those that are. -/
theorem val_redbTree_addb {ex : List Nat} (hn : ex.Nodup) (v : Nat → Word) (md : RMode) (z : Bool) (n i : Nat) :
    (redbTree (redbNode .addb md z) (fun l => if ex.contains l then some (v l) else none) n i).map Res.val =
      if lanesFrom ex i (2 ^ n) = [] then none else some ((lanesFrom ex i (2 ^ n)).map v).sum := by
  induction n generalizing i with
  | zero =>
    rw [redbTree, pow_zero, lanesFrom_one hn]
    by_cases h : i ∈ ex <;> simp [h]
  | succ n ih =>
    rw [redbTree, val_redbJoin_addb, ih, ih, pow_succ, Nat.mul_two, sum_lanesFrom_add]
    simp only [lanesFrom_add_eq_nil]
    by_cases hl : lanesFrom ex i (2 ^ n) = [] <;> by_cases hr : lanesFrom ex (i + 2 ^ n) (2 ^ n) = [] <;> simp [hl, hr]

/-- Settles O21: the bits of a set of lanes; the tree over all lanes adds each lane of the list once. -/
theorem laneSets : Obligations.LaneSets := by
  unfold Obligations.LaneSets
  refine ⟨fun ls l hl => getLsbD_laneSet ls hl, fun ex v md z hn hne hlt => ?_⟩
  have h := val_redbTree_addb hn v md z 6 0
  rw [lanesFrom_all (n := 2 ^ 6) hlt, if_neg hne, Option.map_eq_some_iff] at h
  obtain ⟨⟨w, c⟩, hr, rfl⟩ := h
  exact ⟨c, hr⟩

end Sys2Proof.Machine

/-! # Effects within a band's own block

What the fills of the TLBs and the read-modify-writes of a core leave as they were: which lines the core owns, what the
machine works on, and of every block but for the band's counts all that its instructions see. -/

namespace Sys2Proof.Machine

open Sys2Proof

/-! ### Ownership -/

theorem State.owns_eq (s : State) (core line : Nat) :
    s.owns core line = (((s.core core).l1Line line).map L1Line.owned).getD false := by
  unfold State.owns
  split
  next h => rw [h]; rfl
  next h => rw [h]; rfl

theorem State.owns_congr {s t : State} (h : t.cores = s.cores) (core line : Nat) : t.owns core line = s.owns core line := by
  rw [State.owns, State.owns, State.core, State.core, h]

/-- A core put back with the same owned lines. -/
theorem State.owns_setCore {s : State} {c : Nat} {k : Core}
    (h : ∀ line, (k.l1Line line).map L1Line.owned = ((s.core c).l1Line line).map L1Line.owned) (core line : Nat) :
    (s.setCore c k).owns core line = s.owns core line := by
  have hcore : (s.setCore c k).core core = if core = c then k else s.core core := by
    rw [State.core, State.setCore, tget_tset]
    split <;> rfl
  rw [State.owns_eq, State.owns_eq, hcore]
  split
  next e => rw [h, e]
  next => rfl

/-- A change of a line that keeps its number and its owner. -/
theorem Core.owned_l1Mod (c : Core) (l : Nat) {f : L1Line → L1Line} (hl : ∀ x, (f x).line = x.line)
    (ho : ∀ x, (f x).owned = x.owned) (line : Nat) :
    ((c.l1Mod l f).l1Line line).map L1Line.owned = (c.l1Line line).map L1Line.owned := by
  have hp : ((fun x : L1Line => x.line == line) ∘ fun x => if x.line == l then f x else x) = fun x => x.line == line := by
    funext x
    dsimp only [Function.comp]
    split <;> simp only [hl]
  rw [Core.l1Line, Core.l1Line, Core.l1Mod, List.find?_map, hp, Option.map_map]
  refine congrFun (congrArg Option.map (funext fun x => ?_)) _
  dsimp only [Function.comp]
  split <;> simp only [ho]

/-! ### What the machine works on -/

/-- The cores, and the block and band that issue. -/
def State.atWork (s : State) : Tbl Core × Nat × Nat := (s.cores, s.curBlock, s.curBand)

@[simp] theorem State.atWork_underKey (s : State) (kid pa : Nat) : (s.underKey kid pa).atWork = s.atWork := by
  unfold State.underKey
  repeat' split
  all_goals rfl

@[simp] theorem State.atWork_pokeByte (s : State) (kid pa w a : Nat) (v : Byte) :
    (s.pokeByte kid pa w a v).atWork = s.atWork := by
  unfold State.pokeByte
  split
  · rfl
  · exact s.atWork_underKey kid pa

@[simp] theorem State.atWork_pokeBytes (s : State) (kid pa w a : Nat) (bs : List Byte) :
    (s.pokeBytes kid pa w a bs).atWork = s.atWork := by
  induction bs generalizing s pa with
  | nil => rfl
  | cons b bs ih => rw [State.pokeBytes, ih, State.atWork_pokeByte]

@[simp] theorem State.atWork_poke (s : State) (kid pa w a : Nat) (bs : List Byte) :
    (s.poke kid pa w a bs).atWork = s.atWork := by
  have hdirty (s : State) : (s.noteDirty kid pa).atWork = s.atWork := by
    unfold State.noteDirty
    split
    · rfl
    · dsimp only
      split <;> rfl
  exact (hdirty _).trans (s.atWork_pokeBytes kid pa w a bs)

/-! ### Blocks, cores and the issue together -/

/-- Band n of block k keeps its front, block k is of the same sample and run, and no other block changes; every core owns the
lines that it did, and the same block and band issue. -/
structure State.Kept (k n : Nat) (s t : State) : Prop extends State.Calm k n s t where
  owns : ∀ core line, t.owns core line = s.owns core line
  cur : t.curBlock = s.curBlock ∧ t.curBand = s.curBand
  run : ∀ b, s.blk k = some b → ∃ b', t.blk k = some b' ∧ b'.sid = b.sid ∧ b'.run = b.run

section

variable {k n : Nat} {s t u : State}

theorem State.Kept.refl (k n : Nat) (s : State) : State.Kept k n s s where
  toCalm := .rfl' k n s
  owns := fun _ _ => rfl
  cur := ⟨rfl, rfl⟩
  run := fun b hb => ⟨b, hb, rfl, rfl⟩

theorem State.Kept.trans (h : State.Kept k n s t) (h' : State.Kept k n t u) : State.Kept k n s u where
  toCalm := h.toCalm.trans h'.toCalm
  owns := fun c l => (h'.owns c l).trans (h.owns c l)
  cur := ⟨h'.cur.1.trans h.cur.1, h'.cur.2.trans h.cur.2⟩
  run := fun b hb => by
    obtain ⟨b', hb', hsid, hrun⟩ := h.run b hb
    obtain ⟨b'', hb'', hsid', hrun'⟩ := h'.run b' hb'
    exact ⟨b'', hb'', hsid'.trans hsid, hrun'.trans hrun⟩

/-- An effect that leaves all blocks alone, and the owners of lines. -/
theorem State.Kept.of_blocks (hb : t.blocks = s.blocks) (ho : ∀ core line, t.owns core line = s.owns core line)
    (hc : t.curBlock = s.curBlock ∧ t.curBand = s.curBand) : State.Kept k n s t where
  toCalm := .of_blocks hb
  owns := ho
  cur := hc
  run := fun b h => ⟨b, (congrArg (tget · k) hb).trans h, rfl, rfl⟩

theorem State.Kept.of_atWork (hb : t.blocks = s.blocks) (h : t.atWork = s.atWork) : State.Kept k n s t := by
  obtain ⟨hc, hk, hn⟩ : t.cores = s.cores ∧ t.curBlock = s.curBlock ∧ t.curBand = s.curBand := by
    simpa only [State.atWork, Prod.mk.injEq] using h
  exact .of_blocks hb (State.owns_congr hc) ⟨hk, hn⟩

theorem State.kept_setCore (k n : Nat) (s : State) {c : Nat} {x : Core}
    (h : ∀ line, (x.l1Line line).map L1Line.owned = ((s.core c).l1Line line).map L1Line.owned) :
    State.Kept k n s (s.setCore c x) :=
  .of_blocks rfl (State.owns_setCore h) ⟨rfl, rfl⟩

theorem State.kept_modBand (s : State) (k n : Nat) {f : Band → Band} (hf : ∀ x, (f x).front = x.front) :
    State.Kept k n s (s.modBand k n f) where
  toCalm := s.calm_modBand k n hf
  owns := fun _ _ => rfl
  cur := ⟨rfl, rfl⟩
  run := fun b hb => ⟨b.modBand n f, by rw [State.blk_modBand, hb]; rfl, rfl, rfl⟩

/-- A block is put back with the records of a write. -/
theorem State.kept_signWrite {s : State} {k : Nat} (n : Nat) {b : Block} (hb : s.blk k = some b) (m kind addr : Nat)
    (bs : List Byte) (seq : Nat) : State.Kept k n s (s.setBlk k (b.signWrite m kind addr bs seq)) where
  toCalm := s.calm_setBlk n hb (b.bands_signWrite ..)
  owns := fun _ _ => rfl
  cur := ⟨rfl, rfl⟩
  run := fun b' hb' => by
    obtain rfl := Option.some.inj (hb.symm.trans hb')
    refine ⟨_, State.blk_setBlk .., ?_⟩
    unfold Block.signWrite
    split <;> exact ⟨rfl, rfl⟩

theorem State.kept_foldl_fst {α β : Type} (f : State × β → α → State × β) (hf : ∀ p a, State.Kept k n p.1 (f p a).1)
    (l : List α) (p : State × β) : State.Kept k n p.1 (l.foldl f p).1 := by
  induction l generalizing p with
  | nil => exact .refl k n p.1
  | cons a l ih => exact (hf p a).trans (ih _)

/-! ### The fills of the TLBs -/

theorem State.kept_tlbFill (k n : Nat) (s : State) (core : Nat) (x : Xl) : State.Kept k n s (s.tlbFill core x) := by
  unfold State.tlbFill
  split
  · exact .refl k n s
  next e _ =>
    have hset := s.kept_setCore k n (c := core) (x := { s.core core with
      tlb := keepLast 64 ((s.core core).tlb.filter (· != e) ++ [e]) }) fun _ => rfl
    exact hset.trans (.of_blocks rfl (State.owns_congr rfl) ⟨rfl, rfl⟩)

theorem State.kept_walkFill (k n : Nat) (s : State) (core asid lid : Nat) (blk : Option (Nat × Nat)) (va : Nat) (x : Xl) :
    State.Kept k n s (s.walkFill core asid lid blk va x) := by
  unfold State.walkFill
  split
  · refine .trans ?_ (State.kept_tlbFill ..)
    obtain ⟨ps, m, e⟩ := s.askHomes_eq (coreRouter core) lid blk 0 _
    rw [State.engineAsk, e]
    exact .of_blocks rfl (fun _ _ => rfl) ⟨rfl, rfl⟩
  · exact .refl k n s

theorem Iss.kept_fills (y : Iss) (s : State) (xs : List LaneX) (k n : Nat) : State.Kept k n s (y.fills s xs) := by
  unfold Iss.fills State.tlbFillAll
  refine State.kept_foldl_fst _ (fun p a => ?_) xs (s, [])
  split
  · split
    · exact .refl k n p.1
    · exact State.kept_walkFill ..
  · exact .refl k n p.1

/-! ### Read-modify-writes -/

theorem State.kept_rmw (s : State) (k n va : Nat) (x : Xl) (op : AOp) (w64 red : Bool) (b c : DWord) (seq t : Nat) :
    State.Kept k n s (s.rmw k n va x op w64 red b c seq t).1 := by
  unfold State.rmw
  extract_lets sz old new w s₁ v
  split
  · exact .refl k n s
  next bk hbk =>
  extract_lets s₂ s₃
  have h₁ : State.Kept k n s s₁ := .of_atWork (State.blocks_poke ..) (State.atWork_poke ..)
  have h₂ : State.Kept k n s₁ s₂ := s₁.kept_setCore k n (Core.owned_l1Mod _ _
    (fun l => by split <;> rfl) (fun l => by split <;> rfl))
  have hbk₂ : s₂.blk k = some bk := (congrArg (tget · k) (State.blocks_poke ..)).trans hbk
  have h₃ : State.Kept k n s₂ s₃ := State.kept_signWrite n hbk₂ ..
  exact h₁.trans (h₂.trans (h₃.trans (State.kept_modBand _ k n fun _ => rfl)))

/-- A lane of an atomic whose line is the core's own and whose page neither NC nor SC marks is performed at once (R281). -/
def Iss.Near (y : Iss) (s : State) (a : LaneX) : Prop :=
  a.x.sc = false ∧ a.x.nc = false ∧ s.owns y.b.core (lineOf a.x.pa) = true

theorem Iss.near_iff (y : Iss) (s : State) (a : LaneX) :
    y.Near s a ↔ (!a.x.sc && !a.x.nc && s.owns y.b.core (lineOf a.x.pa)) = true := by
  simp [Iss.Near, and_assoc]

/-- The lane of an access that has yet to be performed. -/
def PendLane.waiting (a : LaneX) : PendLane := ⟨a.lane, BitVec.ofNat 64 a.va, a.x.pa, false, 0, a.x.kid⟩

/-- What an atomic does with one lane. -/
def Iss.rmwLane (y : Iss) (op : AOp) (w64 red : Bool) (bv cv : Nat → DWord) (p : State × List PendLane) (a : LaneX) :
    State × List PendLane :=
  if !a.x.sc && !a.x.nc && p.1.owns y.b.core (lineOf a.x.pa) then
    let r := p.1.rmw y.k y.n a.va a.x op w64 red (bv a.lane) (cv a.lane) (p.1.storeSeq y.k y.n) (p.1.now y.b.die)
    (r.1, p.2 ++ [⟨a.lane, BitVec.ofNat 64 a.va, a.x.pa, true, r.2.setWidth 128, a.x.kid⟩])
  else (p.1, p.2 ++ [.waiting a])

theorem Iss.rmwLanes_eq (y : Iss) (op : AOp) (w64 red : Bool) (bv cv : Nat → DWord) (s : State) (xs : List LaneX) :
    y.rmwLanes op w64 red bv cv s xs = xs.foldl (y.rmwLane op w64 red bv cv) (s, []) := rfl

theorem Iss.rmwLane_near (y : Iss) (op : AOp) (w64 red : Bool) (bv cv : Nat → DWord) {p : State × List PendLane} {a : LaneX}
    (h : y.Near p.1 a) : State.Kept y.k y.n p.1 (y.rmwLane op w64 red bv cv p a).1 ∧
      (y.rmwLane op w64 red bv cv p a).2.map (fun q => (q.lane, q.done)) =
        p.2.map (fun q => (q.lane, q.done)) ++ [(a.lane, true)] := by
  rw [Iss.rmwLane, if_pos ((y.near_iff p.1 a).1 h)]
  exact ⟨State.kept_rmw .., by rw [List.map_append]; rfl⟩

theorem Iss.rmwLane_far (y : Iss) (op : AOp) (w64 red : Bool) (bv cv : Nat → DWord) {p : State × List PendLane} {a : LaneX}
    (h : ¬y.Near p.1 a) : y.rmwLane op w64 red bv cv p a = (p.1, p.2 ++ [.waiting a]) :=
  if_neg (mt (y.near_iff p.1 a).2 h)

theorem Iss.foldl_rmwLane_near (y : Iss) (op : AOp) (w64 red : Bool) (bv cv : Nat → DWord) {xs : List LaneX}
    {p : State × List PendLane} (h : ∀ a ∈ xs, y.Near p.1 a) :
    State.Kept y.k y.n p.1 (xs.foldl (y.rmwLane op w64 red bv cv) p).1 ∧
      (xs.foldl (y.rmwLane op w64 red bv cv) p).2.map (fun q => (q.lane, q.done)) =
        p.2.map (fun q => (q.lane, q.done)) ++ xs.map fun a => (a.lane, true) := by
  induction xs generalizing p with
  | nil => exact ⟨.refl .., (List.append_nil _).symm⟩
  | cons a xs ih =>
    obtain ⟨hkeep, hlane⟩ := y.rmwLane_near op w64 red bv cv (h a List.mem_cons_self)
    obtain ⟨hrest, hlanes⟩ := ih (p := y.rmwLane op w64 red bv cv p a) fun b hb => by
      obtain ⟨hsc, hnc, ho⟩ := h b (List.mem_cons_of_mem a hb)
      exact ⟨hsc, hnc, (hkeep.owns ..).trans ho⟩
    rw [List.foldl_cons]
    exact ⟨hkeep.trans hrest, by rw [hlanes, hlane, List.append_assoc]; rfl⟩

theorem Iss.foldl_rmwLane_far (y : Iss) (op : AOp) (w64 red : Bool) (bv cv : Nat → DWord) {xs : List LaneX}
    {p : State × List PendLane} (h : ∀ a ∈ xs, ¬y.Near p.1 a) :
    xs.foldl (y.rmwLane op w64 red bv cv) p = (p.1, p.2 ++ xs.map .waiting) := by
  induction xs generalizing p with
  | nil => rw [List.foldl_nil, List.map_nil, List.append_nil]
  | cons a xs ih =>
    rw [List.foldl_cons, y.rmwLane_far op w64 red bv cv (h a List.mem_cons_self),
      ih (p := (p.1, p.2 ++ [PendLane.waiting a])) fun b hb => h b (List.mem_cons_of_mem a hb), List.append_assoc]
    rfl

/-- Where the core owns every line, an atomic performs all its lanes. -/
theorem Iss.rmwLanes_near (y : Iss) (op : AOp) (w64 red : Bool) (bv cv : Nat → DWord) {xs : List LaneX}
    (h : ∀ a ∈ xs, y.Near s a) : State.Kept y.k y.n s (y.rmwLanes op w64 red bv cv s xs).1 ∧
      (y.rmwLanes op w64 red bv cv s xs).2.map PendLane.lane = xs.map LaneX.lane ∧
      (y.rmwLanes op w64 red bv cv s xs).2.all (·.done) = true := by
  obtain ⟨hkept, hlanes⟩ : _ ∧ (y.rmwLanes op w64 red bv cv s xs).2.map (fun q => (q.lane, q.done)) = _ :=
    y.foldl_rmwLane_near op w64 red bv cv (p := (s, [])) h
  refine ⟨hkept, ?_, List.all_eq_true.2 fun q hq => ?_⟩
  · simpa [Function.comp_def] using congrArg (List.map Prod.fst) hlanes
  · have hmem := List.mem_map_of_mem (f := fun q : PendLane => (q.lane, q.done)) hq
    rw [hlanes] at hmem
    obtain ⟨a, -, ha⟩ := List.mem_map.1 hmem
    exact (Prod.mk.inj ha).2.symm

/-- Where it owns none, it performs none. -/
theorem Iss.rmwLanes_far (y : Iss) (op : AOp) (w64 red : Bool) (bv cv : Nat → DWord) {xs : List LaneX}
    (h : ∀ a ∈ xs, ¬y.Near s a) : y.rmwLanes op w64 red bv cv s xs = (s, xs.map .waiting) :=
  y.foldl_rmwLane_far op w64 red bv cv (p := (s, [])) h

end

end Sys2Proof.Machine

/-! # Requests of an atomic

What a core sends for the lanes of an atomic that it cannot perform at once. -/

namespace Sys2Proof.Machine

open Sys2Proof

/-- A fold gains what the step of one of its members gives, when no step takes it away and every step keeps what that one
needs. -/
theorem foldl_of_mem {σ α : Type} {f : σ → α → σ} {P Q : σ → Prop} (hP : ∀ s a, P s → P (f s a)) (hQ : ∀ s a, Q s → Q (f s a))
    {a : α} {l : List α} (ha : a ∈ l) (h : ∀ s, Q s → P (f s a)) {s : σ} (hs : Q s) : P (l.foldl f s) := by
  induction l generalizing s with
  | nil => cases ha
  | cons b l ih =>
    rw [List.foldl_cons]
    obtain rfl | hl := List.mem_cons.1 ha
    · exact List.foldlRecOn l f (h s hs) fun s hp b _ => hP s b hp
    · exact ih hl (hQ s b hs)

/-- A message is in the network. -/
def State.InNet (t : State) (m : Msg) : Prop := ∃ p ∈ t.net, p.msg = m

theorem State.InNet.of_append {s t : State} {m : Msg} (h : s.InNet m) {ps : List Pkt} (e : t.net = s.net ++ ps) :
    t.InNet m := by
  obtain ⟨p, hp, hm⟩ := h
  exact ⟨p, by rw [e]; exact List.mem_append_left ps hp, hm⟩

theorem State.inNet_send (s : State) (src dest : Router) (cls : PktCls) (lid : Nat) (blk : Option (Nat × Nat)) (m : Msg) :
    (s.send src dest cls lid blk m).InNet m :=
  ⟨_, List.mem_append_right _ (List.mem_singleton_self _), rfl⟩

/-! ### Ownership of lines -/

@[simp] theorem Iss.blocks_askOwn (y : Iss) (s : State) (xs : List LaneX) : (y.askOwn s xs).blocks = s.blocks := by
  refine State.blocks_foldl _ (fun s line => ?_) _ s
  split <;> rfl

/-- Each line that an atomic needs and that the core does not own is asked for (R247). -/
theorem Iss.inNet_askOwn (y : Iss) {s : State} {xs : List LaneX} {a : LaneX} (ha : a ∈ xs) (hsc : a.x.sc = false)
    (hnc : a.x.nc = false) (ho : s.owns y.b.core (lineOf a.x.pa) = false) :
    (y.askOwn s xs).InNet (.ownReq y.b.core (lineOf a.x.pa)) := by
  refine foldl_of_mem (P := fun s : State => s.InNet _) (Q := fun s : State => s.owns y.b.core (lineOf a.x.pa) = false)
    (fun s line h => ?_) (fun s line h => ?_) (a := lineOf a.x.pa) ?_ (fun s h => ?_) ho
  · split
    · exact h
    · exact h.of_append rfl
  · split
    · exact h
    · exact h
  · exact List.mem_eraseDups.2 (List.mem_map.2 ⟨a, List.mem_filter.2 ⟨ha, by simp [hsc, hnc]⟩, rfl⟩)
  · rw [h, if_neg Bool.false_ne_true]
    exact State.inNet_send ..

/-! ### Lanes that their homes perform -/

/-- The lanes on pages with NC = 1 or SC = 1, with their places. -/
def farLanes (xs : List LaneX) : List (Nat × LaneX) :=
  (xs.mapIdx fun j a => ((j, a) : Nat × LaneX)).filter fun q => q.2.x.sc || q.2.x.nc

theorem mem_farLanes {xs : List LaneX} {j : Nat} {a : LaneX} (h : xs[j]? = some a) (hf : a.x.sc = true ∨ a.x.nc = true) :
    (j, a) ∈ farLanes xs := by
  refine List.mem_filter.2 ⟨List.mem_iff_getElem?.2 ⟨j, ?_⟩, by simpa using hf⟩
  rw [List.getElem?_mapIdx, h]
  rfl

theorem farLanes_ascend (xs : List LaneX) : ((farLanes xs).map Prod.fst).Pairwise (· < ·) := by
  have hall : (xs.mapIdx fun j a => ((j, a) : Nat × LaneX)).map Prod.fst = List.range xs.length := by
    refine List.ext_getElem (by simp) fun i h₁ h₂ => by simp
  exact (List.pairwise_lt_range (n := xs.length)).sublist (hall ▸ List.filter_sublist.map _)

/-- A lane's request takes all the lanes of its line and its marks, in ascending order (R280, R301, R320). -/
theorem mem_atomReqs (k n core op : Nat) {xs : List LaneX} {j : Nat} {a : LaneX} (h : xs[j]? = some a)
    (hf : a.x.sc = true ∨ a.x.nc = true) :
    ∃ ls : List AtomLane, ⟨j, a.va, a.x.pa, a.x.kid, a.x.attr⟩ ∈ ls ∧ (ls.map AtomLane.j).Pairwise (· < ·) ∧
      ⟨k, n, core, op, lineOf a.x.pa, ls, a.x.nc, a.x.sc⟩ ∈ atomReqs k n core op xs := by
  have hmem := mem_farLanes h hf
  refine ⟨_, ?_, ?_, List.mem_map.2 ⟨(lineOf a.x.pa, a.x.nc, a.x.sc), List.mem_eraseDups.2 (List.mem_map.2 ⟨(j, a), hmem, rfl⟩),
    rfl⟩⟩
  · exact List.mem_map.2 ⟨(j, a), List.mem_filter.2 ⟨hmem, beq_self_eq_true _⟩, rfl⟩
  · rw [List.map_map]
    exact (farLanes_ascend xs).sublist (List.filter_sublist.map _)

section

variable (y : Iss) (s : State) (op : Nat) (xs : List LaneX)

@[simp] theorem Iss.blocks_askAtom : (y.askAtom s op xs).blocks = s.blocks := by
  refine State.blocks_foldl _ (fun s r => ?_) _ s
  split
  · exact State.blocks_scSend ..
  · rfl

theorem Iss.inNet_askAtom {m : Msg} (h : s.InNet m) : (y.askAtom s op xs).InNet m := by
  refine List.foldlRecOn (motive := fun s : State => s.InNet m) _ _ h fun s hs r _ => ?_
  split
  · obtain ⟨ps, e⟩ := s.net_scSend y.b.core ⟨r.line, y.b.lid, some (y.k, y.n), .atomReq r⟩
    exact hs.of_append e
  · exact hs.of_append rfl

theorem Iss.hasSent_askAtom {r : AtomReq} (hr : r ∈ atomReqs y.k y.n y.b.core op xs) :
    (y.askAtom s op xs).HasSent y.b.core (.atomReq r) := by
  refine foldl_of_mem (P := fun s : State => s.HasSent y.b.core (.atomReq r)) (Q := fun _ => True) (fun s r' h => ?_)
    (fun _ _ _ => trivial) hr (fun s _ => ?_) trivial
  · split
    · exact h.scSend ..
    · exact h.send ..
  · split
    · exact State.hasSent_scSend ..
    · exact State.hasSent_send ..

end

theorem Iss.net_finish (y : Iss) (s : State) (i : Instr) (jumps : List (Nat × DWord)) : (y.finish s i jumps).net = s.net := by
  unfold Iss.finish
  split
  next hb =>
    have h := (s.near_checkRec y.k y.n).shell
    exact (congrArg State.net h :)
  · rfl

theorem Iss.net_inFlight (y : Iss) (i : Instr) (u : State) (op : PendOp) (port : Option (Nat × List PushAt)) :
    (y.inFlight i u op port).net = u.net := by
  obtain ⟨F, -, -, e⟩ := y.inFlight_eq i u op port
  rw [e]
  split <;> exact y.net_finish ..

end Sys2Proof.Machine

/-! # Atomics and reductions on lines at hand

An atomic goes on from the state that its fills of the TLBs leave. Where the core owns every line, its results are those of a
later record of the issue; where it owns none, its access is put in flight. -/

namespace Sys2Proof.Machine

open Sys2Proof

/-! ### Results of a later record of an issue -/

theorem tset_tset {α : Type} (t : Tbl α) (k : Nat) (v w : α) : tset (tset t k v) k w = tset t k w := by
  induction t with
  | nil => simp [tset]
  | cons p t ih =>
    obtain ⟨j, u⟩ := p
    by_cases hlt : k < j
    · simp [tset, hlt]
    · by_cases he : k = j <;> simp [tset, hlt, he, ih]

theorem State.setBlk_setBlk (s : State) (k : Nat) (b c : Block) : (s.setBlk k b).setBlk k c = s.setBlk k c :=
  congrArg (fun t => { s with blocks := t }) (tset_tset s.blocks k b c)

/-- A record of an issue that stands over its own block and band, though effects of its own may have changed the state. -/
structure Iss.Stands (y : Iss) : Prop where
  cur : y.k = y.s.curBlock ∧ y.n = y.s.curBand
  blk : y.s.blk y.k = some y.b
  band : y.b.band y.n = some y.x
  exAct : ∀ l ∈ y.ex, l ∈ y.act
  lt : ∀ l ∈ y.act, l < y.x.lanes.length

/-- The record with its block put back once more. -/
def Iss.anew (y : Iss) : Iss := { y with s := y.s.setBlk y.k y.b }

theorem Iss.Stands.good_anew {y : Iss} (g : y.Stands) : y.anew.Good y.s where
  key := g.cur.1
  num := g.cur.2
  blk := State.blk_setBlk ..
  band := ⟨y.x, g.band, rfl⟩
  exAct := g.exAct
  lt := g.lt
  sent := ⟨y.b, .rfl' _⟩
  blocks := fun _ hj => State.blk_setBlk_ne _ _ hj

theorem Iss.putOuts_anew (y : Iss) (outs : List (Nat × Out)) : y.anew.putOuts outs = y.putOuts outs :=
  State.setBlk_setBlk ..

theorem Iss.Stands.wrote_of_anew {y : Iss} (g : y.Stands) {t : State} {val : Nat → Out} {next : Nat → DWord}
    (w : y.anew.Wrote t val next) : y.Wrote t val next := by
  have hblk : ∀ k, y.anew.s.blk k = y.s.blk k := by
    intro k
    by_cases hk : k = y.k
    · rw [hk, g.blk]
      exact State.blk_setBlk ..
    · exact State.blk_setBlk_ne _ _ hk
  exact { w with
    bands := fun n hn => (w.bands n hn).trans (congrArg (fun c : Option Block => c.bind fun b => b.band n) (hblk y.k))
    blocks := fun k hk => (w.blocks k hk).trans (hblk k)
    shell := (State.sameShell_setBlk ..).trans w.shell }

/-- A record that commits what `val` gives its lanes delivers it. -/
theorem Iss.Stands.delivers {y : Iss} (g : y.Stands) {i : Instr} {h : Hdr} (hi : i.hdr? = some h) {s : State} {val : Nat → Out}
    (e : exec i s = .next (y.commit i (y.ex.map fun l => (l, val l)))) : y.Delivers i s val := by
  rw [Iss.commit] at e
  refine ⟨fun hp => ?_, fun port es hp hs => ?_⟩
  · rw [hp] at e
    have w := g.good_anew.wrote hi val []
    rw [Iss.putOuts_anew] at w
    exact ⟨_, e, g.wrote_of_anew w⟩
  · rw [hp] at e
    dsimp only at e
    rw [hs] at e
    obtain ⟨c, z, hc, hz, hfront, -, -⟩ := g.good_anew.putOuts_band (y.ex.map fun l => (l, val l))
    rw [Iss.putOuts_anew] at hc
    obtain ⟨b', x', hb', hx', hf⟩ := (State.calm_doPush (y.putOuts (y.ex.map fun l => (l, val l))) y.k y.n port es
      (pushVals y.b (y.ex.map fun l => (l, val l)))).band c z hc hz
    obtain ⟨hl, -⟩ := Band.front_eq_iff.1 (hf.trans hfront)
    have hlen : x'.lanes.length = y.x.lanes.length := by
      rw [hl]
      exact (Band.put_spec y.x y.b y.ex val).1
    exact ⟨_, e, y.finish_goes [] hi hb' hx' fun l hm => hlen ▸ g.lt l hm⟩

/-! ### The state that an atomic goes on from -/

section

variable {y : Iss} {s₀ : State}

/-- The record over the state that the fills of the TLBs leave. -/
def Iss.filled (y : Iss) (xs : List LaneX) : Iss := y.resync (y.fills y.s xs)

theorem Iss.Good.filled_eq (g : y.Good s₀) (xs : List LaneX) : y.filled xs = { y with s := y.fills y.s xs } := by
  have hb : (y.fills y.s xs).blk y.k = some y.b := (congrArg (tget · y.k) (State.blocks_tlbFillAll ..)).trans g.blk
  rw [Iss.filled, Iss.resync, hb]
  rfl

theorem Iss.Good.cur (g : y.Good s₀) : y.s.curBlock = y.k ∧ y.s.curBand = y.n := by
  obtain ⟨b, _, _, _, e⟩ := g.sent
  rw [e]
  exact ⟨g.key.symm, g.num.symm⟩

theorem Iss.Good.base_eq (g : y.Good s₀) (xs : List LaneX) :
    (y.filled xs).base = (y.fills y.s xs).setBlk y.k (y.b.setBand y.n y.x) := by
  rw [g.filled_eq]
  rfl

theorem Iss.Good.blk_base (g : y.Good s₀) (xs : List LaneX) : (y.filled xs).base.blk y.k = some (y.b.setBand y.n y.x) := by
  rw [g.base_eq]
  exact State.blk_setBlk ..

theorem Iss.Good.band_base (g : y.Good s₀) : (y.b.setBand y.n y.x).band y.n = some y.x :=
  have ⟨x₀, hx₀, _⟩ := g.band
  Block.band_setBand_self y.b y.x x₀ hx₀

theorem Iss.Good.owns_base (g : y.Good s₀) (xs : List LaneX) (core line : Nat) :
    (y.filled xs).base.owns core line = y.s.owns core line := by
  rw [g.base_eq]
  exact (y.kept_fills y.s xs y.k y.n).owns core line

theorem Iss.Good.near_base (g : y.Good s₀) (xs : List LaneX) (a : LaneX) :
    (y.filled xs).Near (y.filled xs).base a ↔ y.Near y.s a := by
  rw [Iss.Near, g.owns_base, g.filled_eq]
  rfl

/-- An effect that keeps the state that the fills leave has a block and a band over which the record stands. -/
theorem Iss.Good.stands (g : y.Good s₀) {xs : List LaneX} {v : State} (hv : State.Kept y.k y.n (y.filled xs).base v) :
    ∃ c z, v.blk y.k = some c ∧ c.band y.n = some z ∧ z.front = y.x.front ∧ c.run = y.b.run ∧
      ({ y with s := v, b := c, x := z } : Iss).Stands := by
  obtain ⟨c, z, hc, hz, hf⟩ := hv.band _ _ (g.blk_base xs) g.band_base
  obtain ⟨c', hc', -, hrun⟩ := hv.run _ (g.blk_base xs)
  obtain rfl := Option.some.inj (hc.symm.trans hc')
  have hfills := (y.kept_fills y.s xs y.k y.n).cur
  have hbase : (y.filled xs).base.curBlock = y.k ∧ (y.filled xs).base.curBand = y.n := by
    rw [g.base_eq]
    exact ⟨hfills.1.trans g.cur.1, hfills.2.trans g.cur.2⟩
  refine ⟨c, z, hc, hz, hf, hrun, ⟨(hv.cur.1.trans hbase.1).symm, (hv.cur.2.trans hbase.2).symm⟩, hc, hz, g.exAct, ?_⟩
  intro l hl
  have hlanes : z.lanes = y.x.lanes := (Band.front_eq_iff.1 hf).1
  exact hlanes ▸ g.lt l hl

/-! ### What an atomic comes to -/

/-- The count of a band's stores after an atomic that pushes to no port. -/
def Iss.atomSeq (y : Iss) (xs : List LaneX) (port : Option (Nat × List PushAt)) (s : State) : State :=
  if xs.isEmpty || port.isSome then s else s.nextStoreSeq y.k y.n

theorem Iss.kept_atomSeq (y : Iss) (xs : List LaneX) (port : Option (Nat × List PushAt)) (s : State) :
    State.Kept y.k y.n s (y.atomSeq xs port s) := by
  unfold Iss.atomSeq
  split
  · exact .refl ..
  · exact s.kept_modBand y.k y.n fun _ => rfl

theorem Iss.mem_atomSeq (y : Iss) (xs : List LaneX) (port : Option (Nat × List PushAt)) (s : State) :
    (y.atomSeq xs port s).mem = s.mem := by
  unfold Iss.atomSeq
  split
  · rfl
  · exact State.mem_nextStoreSeq ..

/-- An atomic that no trap, wait or missing line stops is performed, or put in flight. -/
theorem Iss.Good.atomic_run (g : y.Good s₀) (hl : y.b.run = .plain) (i : Instr) {base b : Src} {c : Option (BitVec 8)}
    {d : BitVec 8} {op : AOp} {w64 red acq : Bool} {disp : DWord} {xs : List LaneX}
    (hr : y.Reaches .write (if w64 then 8 else 4) (y.addrs base disp) xs) (hh : y.held false xs = none)
    (hd : (if red then none else dupLane (if w64 then 8 else 4) xs) = none)
    (hc : y.coldAtoms (if w64 then 8 else 4) xs = []) (hp : y.poisonedAtom (if w64 then 8 else 4) xs = none)
    {port : Option (Nat × List PushAt)} (hport : y.portOk i y.s = .ok port) :
    y.atomic i base b c d op w64 red acq disp = .next ((y.filled xs).atomRun i d op w64 red acq
      (fun l => (y.env l).srcW w64 b) (fun l => (c.map ((y.env l).vW w64)).getD 0) xs port (y.atomSeq xs port)) := by
  have hlater : y.b.later = false := by rw [Block.later, hl]
  unfold Iss.atomic
  dsimp only
  rw [hr.1]
  dsimp only
  rw [regStop_eq_none hr.2, hh, hd, hlater]
  dsimp only
  rw [if_neg Bool.false_ne_true, hc, hp, hport]
  refine (if_pos ?_).trans (by cases c <;> rfl)
  have hfilled : (y.resync (y.fills y.s xs)).b.later = false :=
    (congrArg (fun z : Iss => z.b.later) (g.filled_eq xs)).trans hlater
  simpa using hfilled

section

variable {i : Instr} {d : BitVec 8} {op : AOp} {w64 acq : Bool} {bv cv : Nat → DWord} {xs : List LaneX}
  {port : Option (Nat × List PushAt)} {seq : State → State} {u : State} {ls : List PendLane}

/-- A reduction whose lanes are all performed has no result. -/
theorem Iss.atomRun_red (hr : y.rmwLanes op w64 true bv cv y.base xs = (u, ls)) (hd : ls.all (·.done) = true) :
    y.atomRun i d op w64 true acq bv cv xs port seq = y.finish (seq u) i [] := by
  unfold Iss.atomRun
  rw [hr]
  dsimp only
  rw [if_pos hd, if_pos rfl]
  rfl

/-- An atomic whose lanes are all performed commits the values before. -/
theorem Iss.atomRun_atom (hr : y.rmwLanes op w64 false bv cv y.base xs = (u, ls)) (hd : ls.all (·.done) = true) {c : Block}
    {z : Band} (hc : (seq u).blk y.k = some c) (hz : c.band y.n = some z) (hrun : c.run = .plain) :
    y.atomRun i d op w64 false acq bv cv xs port seq =
      ({ y with s := seq u, b := c, x := z } : Iss).commit i (atomOuts d w64 ls) := by
  unfold Iss.atomRun
  rw [hr]
  dsimp only
  rw [if_pos hd, if_neg Bool.false_ne_true, State.logRec_of_plain hc hrun, ite_self]
  simp only [Iss.resync, hc, Option.getD_some, hz]

/-- An atomic with a lane that is not performed asks for the lines and goes in flight. -/
theorem Iss.atomRun_waiting {red : Bool} (hr : y.rmwLanes op w64 red bv cv y.base xs = (u, ls)) (hd : ls.all (·.done) = false)
    {c : Block} (hc : u.blk y.k = some c) (hrun : c.run = .plain) :
    ∃ p : PendOp, (p.id = u.serial ∧ p.kind = (if red then .red op w64 else .atom op w64) ∧ p.d = d ∧ p.lanes = ls) ∧
      y.atomRun i d op w64 red acq bv cv xs port seq =
        y.inFlight i ((y.askAtom (y.askOwn { u with serial := u.serial + 1 } xs) u.serial xs).countMiss y.k y.n y.b 1) p port := by
  unfold Iss.atomRun
  rw [hr]
  dsimp only
  have hwait : ¬ls.all (·.done) = true := by
    rw [hd]
    exact Bool.false_ne_true
  rw [if_neg hwait, State.logRec_of_plain (s := { u with serial := u.serial + 1 }) hc hrun,
    ite_self]
  exact ⟨_, ⟨rfl, rfl, rfl, rfl⟩, rfl⟩

end

/-! ### Lanes in flight -/

/-- What is sent for a lane that is not performed at once: with the others of its line to the home that performs it, where its
page is marked, and else for the ownership of its line. -/
def Iss.AsksLane (y : Iss) (t : State) (id j : Nat) (a : LaneX) : Prop :=
  if a.x.sc = true ∨ a.x.nc = true then
    ∃ ls : List AtomLane, ⟨j, a.va, a.x.pa, a.x.kid, a.x.attr⟩ ∈ ls ∧ (ls.map AtomLane.j).Pairwise (· < ·) ∧
      t.HasSent y.b.core (.atomReq ⟨y.k, y.n, y.b.core, id, lineOf a.x.pa, ls, a.x.nc, a.x.sc⟩)
  else t.InNet (.ownReq y.b.core (lineOf a.x.pa))

theorem Iss.AsksLane.mono {t u : State} {id j : Nat} {a : LaneX} (h : y.AsksLane t id j a)
    (hs : ∀ m, t.HasSent y.b.core m → u.HasSent y.b.core m) (hn : u.net = t.net) : y.AsksLane u id j a := by
  unfold Iss.AsksLane at *
  split
  next hf =>
    rw [if_pos hf] at h
    obtain ⟨ls, hls, hasc, hr⟩ := h
    exact ⟨ls, hls, hasc, hs _ hr⟩
  next hf =>
    rw [if_neg hf] at h
    exact h.of_append (hn.trans (List.append_nil _).symm)

theorem Iss.asksLane_askAtom (y : Iss) {s : State} (id : Nat) {xs : List LaneX} (hfar : ∀ a ∈ xs, ¬y.Near s a) {j : Nat}
    {a : LaneX} (h : xs[j]? = some a) : y.AsksLane (y.askAtom (y.askOwn s xs) id xs) id j a := by
  unfold Iss.AsksLane
  split
  next hf =>
    obtain ⟨ls, hls, hasc, hr⟩ := mem_atomReqs y.k y.n y.b.core id h hf
    exact ⟨ls, hls, hasc, y.hasSent_askAtom _ id xs hr⟩
  next hf =>
    have ha := List.mem_of_getElem? h
    obtain ⟨hsc, hnc⟩ : a.x.sc = false ∧ a.x.nc = false := by simpa using hf
    have ho : s.owns y.b.core (lineOf a.x.pa) = false := by
      by_contra ho
      exact hfar a ha ⟨hsc, hnc, by simpa using ho⟩
    exact y.inNet_askAtom _ id xs (y.inNet_askOwn ha hsc hnc ho)

/-- The state over which an atomic that is not performed puts its access in flight. -/
def Iss.asked (y : Iss) (xs : List LaneX) : State :=
  let s := (y.filled xs).base
  (y.askAtom (y.askOwn { s with serial := s.serial + 1 } xs) s.serial xs).countMiss y.k y.n y.b 1

theorem Iss.Good.asksLane_asked (g : y.Good s₀) {xs : List LaneX} (hfar : ∀ a ∈ xs, ¬y.Near y.s a) {j : Nat} {a : LaneX}
    (h : xs[j]? = some a) : y.AsksLane (y.asked xs) (y.filled xs).base.serial j a := by
  refine (y.asksLane_askAtom (s := { (y.filled xs).base with serial := (y.filled xs).base.serial + 1 })
    (y.filled xs).base.serial (fun a ha => ?_) h).mono (fun _ hs => hs.of_same rfl rfl) rfl
  refine mt (fun hn => (g.near_base xs a).1 ?_) (hfar a ha)
  rw [g.filled_eq] at *
  exact hn

/-- Of the blocks the issue's own band alone differs there, and its front and its list of accesses are as they were. -/
theorem Iss.Good.band_asked (g : y.Good s₀) (xs : List LaneX) :
    ∃ c v, (y.asked xs).blk y.k = some c ∧ c.band y.n = some v ∧ v.front = y.x.front ∧ v.pend = y.x.pend ∧
      (y.asked xs).mem = y.s.mem ∧ ∀ k, k ≠ y.k → (y.asked xs).blk k = y.s.blk k := by
  obtain ⟨w, hw⟩ : ∃ w, w = y.askAtom (y.askOwn { (y.filled xs).base with serial := (y.filled xs).base.serial + 1 } xs)
    (y.filled xs).base.serial xs := ⟨_, rfl⟩
  have hasked : y.asked xs = w.countMiss y.k y.n y.b 1 := by rw [hw]; rfl
  have hwblk : ∀ k, w.blk k = (y.filled xs).base.blk k := fun k => by
    rw [hw]
    exact congrArg (tget · k) (by rw [Iss.blocks_askAtom, Iss.blocks_askOwn])
  obtain ⟨hfront, hpend⟩ := y.x.count_front_pend (w.dbg y.b 3) 3 1
  rw [hasked]
  refine ⟨_, _, Iss.blk_modBand_self ((hwblk y.k).trans (g.blk_base xs)) _, Block.band_modBand_self g.band_base _, hfront,
    hpend, ?_, fun k hk => ?_⟩
  · rw [State.mem_countMiss, hw, Iss.mem_askAtom, Iss.mem_askOwn]
    exact (congrArg State.mem (g.base_eq xs)).trans (Iss.mem_fills ..)
  · rw [State.countMiss, State.blk_modBand_ne _ _ _ hk, hwblk, g.base_eq, State.blk_setBlk_ne _ _ hk]
    exact congrArg (tget · k) (State.blocks_tlbFillAll ..)

/-- The access of an atomic whose lines are not at hand, as its band then holds it, and what has been asked for it. -/
def Iss.AsksAtoms (y : Iss) (xs : List LaneX) (t : State) (p : PendOp) : Prop :=
  (y.bandIn t).pend = y.x.pend ++ [p] ∧
  (p.lanes.map fun q => (q.lane, q.pa, q.done)) = xs.map (fun a => (a.lane, a.x.pa, false)) ∧
  ∀ j a, xs[j]? = some a → y.AsksLane t p.id j a

/-- An atomic none of whose lines is at hand moves no register, and its access is in flight with its requests sent. -/
theorem Iss.Good.atomRun_far (g : y.Good s₀) {i : Instr} {h : Hdr} (hi : i.hdr? = some h) (hl : y.b.run = .plain) {d : BitVec 8}
    {op : AOp} {w64 red acq : Bool} {bv cv : Nat → DWord} {xs : List LaneX} (hne : xs ≠ []) (hfar : ∀ a ∈ xs, ¬y.Near y.s a)
    (port : Option (Nat × List PushAt)) (seq : State → State) :
    ∃ p : PendOp, y.Moved ((y.filled xs).atomRun i d op w64 red acq bv cv xs port seq) (y.goOn i []) ∧
      p.kind = (if red then .red op w64 else .atom op w64) ∧ p.d = d ∧
      y.AsksAtoms xs ((y.filled xs).atomRun i d op w64 red acq bv cv xs port seq) p := by
  have hwait : (xs.map PendLane.waiting).all (·.done) = false := by
    obtain ⟨a, ha⟩ := List.exists_mem_of_ne_nil xs hne
    exact List.all_eq_false.2 ⟨_, List.mem_map_of_mem ha, Bool.false_ne_true⟩
  have hrun := (y.filled xs).rmwLanes_far op w64 red bv cv fun a ha =>
    mt (g.near_base xs a).1 (hfar a ha)
  obtain ⟨p, ⟨hid, hkind, hd, hlanes⟩, he⟩ := Iss.atomRun_waiting (y := y.filled xs) (i := i) (d := d) (acq := acq) (port := port)
    (seq := seq) hrun hwait (g.blk_base xs) hl
  have he' : (y.filled xs).atomRun i d op w64 red acq bv cv xs port seq = y.inFlight i (y.asked xs) p port := by
    rw [he, Iss.asked]
    rw [g.filled_eq]
    rfl
  obtain ⟨c, v, hc, hv, hfront, hpend, hmem, hothers⟩ := g.band_asked xs
  obtain ⟨p', ⟨hid', hkind', hd', hlanes'⟩, hlast, hmoved, hkeep, -⟩ := g.inFlight hi hc hv hfront hmem hothers p port
  rw [he']
  refine ⟨p', hmoved, hkind'.trans hkind, hd'.trans hd, hlast.trans (by rw [hpend]), ?_, fun j a h => ?_⟩
  · rw [hlanes', hlanes, List.map_map]
    rfl
  · rw [hid', hid]
    exact (g.asksLane_asked hfar h).mono (hkeep y.b.core) (y.net_inFlight ..)

/-! ### Lanes that are performed -/

/-- A translation that succeeds answers the executing lanes. -/
theorem Iss.lane_reach {k : AKind} {n : Nat} {base : Src} {disp : DWord} {xs : List LaneX}
    (h : y.reach k n (y.addrs base disp) = .ok xs) : xs.map LaneX.lane = y.ex := by
  unfold Iss.reach at h
  split at h
  · cases h
  · rw [State.lane_xlateAll h, Iss.addrs, List.map_map]
    exact List.map_id _

theorem find?_of_nodup_map {α : Type} {f : α → Nat} {l : List α} (hn : (l.map f).Nodup) {a : α} (ha : a ∈ l) :
    l.find? (fun b => f b == f a) = some a := by
  obtain ⟨b, hb⟩ : ∃ b, l.find? (fun b => f b == f a) = some b := by
    rw [← Option.isSome_iff_exists, List.find?_isSome]
    exact ⟨a, ha, beq_self_eq_true _⟩
  rw [hb, List.inj_on_of_nodup_map hn (List.mem_of_find?_eq_some hb) ha (by simpa using List.find?_some hb)]

/-- The results of an atomic, as a function of the lane. -/
theorem atomOuts_eq (d : BitVec 8) (w64 : Bool) {ls : List PendLane} (hn : (ls.map PendLane.lane).Nodup) :
    atomOuts d w64 ls = (ls.map PendLane.lane).map fun l =>
      (l, .vW w64 d (((ls.find? fun q => q.lane == l).map fun q => q.data.setWidth 64).getD 0)) := by
  rw [atomOuts, List.map_map]
  refine List.map_congr_left fun q hq => ?_
  dsimp only [Function.comp]
  rw [find?_of_nodup_map hn hq]
  rfl

/-- A port is pushed to when the destination names one. -/
theorem Iss.isSome_portOk {i : Instr} {s : State} {port : Option (Nat × List PushAt)} (h : y.portOk i s = .ok port) :
    port.isSome = true ↔ pushPort y.b i ≠ none := by
  unfold Iss.portOk at h
  split at h
  next hp =>
    cases h
    simp [hp]
  next hp =>
    split at h
    · cases h
    · cases h
      simp [hp]

theorem Iss.over_eq {v : State} {c : Block} {z : Band} (hc : v.blk y.k = some c) (hz : c.band y.n = some z) :
    y.over v (((v.blk y.k).bind fun b => b.band y.n).getD y.x) = { y with s := v, b := c, x := z } := by
  simp only [Iss.over, Iss.resync, hc, hz, Option.bind_some, Option.getD_some]

section

variable {i : Instr} {h : Hdr} {d : BitVec 8} {op : AOp} {w64 acq : Bool} {bv cv : Nat → DWord} {xs : List LaneX}
  {port : Option (Nat × List PushAt)}

/-- A reduction whose lines are at hand leaves what its read-modify-writes leave, and a later store count. -/
theorem Iss.Good.atomRun_red_near (g : y.Good s₀) (hi : i.hdr? = some h) (hnear : ∀ a ∈ xs, y.Near y.s a) :
    y.Goes (y.atomSeq xs port ((y.filled xs).rmwLanes op w64 true bv cv (y.filled xs).base xs).1)
      ((y.filled xs).atomRun i d op w64 true acq bv cv xs port (y.atomSeq xs port)) (y.goOn i []) := by
  obtain ⟨hkept, -, hdone⟩ := (y.filled xs).rmwLanes_near op w64 true bv cv fun a ha => (g.near_base xs a).2 (hnear a ha)
  obtain ⟨c, z, hc, hz, hf, -, -⟩ := g.stands (hkept.trans (y.kept_atomSeq xs port _))
  rw [Iss.atomRun_red rfl hdone]
  exact g.goes hi [] hc hz (by rw [(Band.front_eq_iff.1 hf).1])

/-- An atomic whose lines are at hand delivers the values before its read-modify-writes. -/
theorem Iss.Good.delivers_atomRun (g : y.Good s₀) (hi : i.hdr? = some h) (hl : y.b.run = .plain)
    (hnear : ∀ a ∈ xs, y.Near y.s a) (hex : xs.map LaneX.lane = y.ex) (hn : y.ex.Nodup) {s : State}
    (e : exec i s = .next ((y.filled xs).atomRun i d op w64 false acq bv cv xs port (y.atomSeq xs port))) :
    let r := (y.filled xs).rmwLanes op w64 false bv cv (y.filled xs).base xs
    let v := y.atomSeq xs port r.1
    (y.over v (((v.blk y.k).bind fun b => b.band y.n).getD y.x)).Delivers i s fun l =>
      .vW w64 d (((r.2.find? fun q => q.lane == l).map fun q => q.data.setWidth 64).getD 0) := by
  intro r v
  obtain ⟨hkept, hlane, hdone⟩ := (y.filled xs).rmwLanes_near op w64 false bv cv fun a ha => (g.near_base xs a).2 (hnear a ha)
  rw [hex] at hlane
  obtain ⟨c, z, hc, hz, -, hrun, hstands⟩ := g.stands (hkept.trans (y.kept_atomSeq xs port r.1))
  rw [Iss.over_eq hc hz]
  refine hstands.delivers hi ?_
  rw [e, Iss.atomRun_atom (u := r.1) (ls := r.2) rfl hdone hc hz (hrun.trans hl), atomOuts_eq d w64 (hlane ▸ hn)]
  rw [hlane]
  rfl

end

end

/-! ### The obligation -/

theorem Opnd.wr_src (pos : Nat) (a : Src) (n : Nat) : (Opnd.src pos a n).wr = false := by
  cases a <;> rfl

/-- A reduction has no destination. -/
theorem pushPort_red (b : Block) (h : Hdr) (o : Red) : pushPort b (.red h o) = none := by
  have hops : operands (.red h o) = [.src 2 o.base 2, .src 3 o.b (Opnd.n2 o.w64)] := rfl
  unfold pushPort
  dsimp only
  rw [hops]
  simp [Opnd.wr_src]

/-- Settles O34: atomics and reductions behind their checks are performed where the core owns their lines, and put in flight
where it owns none. -/
theorem atomicInstructions : Obligations.AtomicInstructions := by
  unfold Obligations.AtomicInstructions
  intro h s y xs hs hl hheld near y' bump asks
  have hbump : ∀ {i : Instr} {port : Option (Nat × List PushAt)}, y.portOk i y.s = .ok port →
      y.atomSeq xs port = bump i := fun {i port} hport => by
    funext t
    refine if_congr ?_ rfl rfl
    rw [Bool.or_eq_true, List.isEmpty_iff, Iss.isSome_portOk hport]
  refine ⟨fun o => ?_, fun o => ?_⟩
  · intro sz g ho hr hd hc hp ⟨port, hport⟩
    have good := y.good g
    have hexec := (exec_atom g ho).trans (good.atomic_run (red := false) hl _ hr hheld hd hc hp hport)
    have hcas : (fun l => ((if o.op == .cas then some o.c else none).map ((y.env l).vW o.w64)).getD 0) =
        fun l => if o.op = .cas then (y.env l).vW o.w64 o.c else 0 := by
      by_cases hop : o.op = .cas <;> simp [hop]
    rw [hcas] at hexec
    refine ⟨fun hnear => ?_, fun hne hfar => ?_⟩
    · rw [← hbump hport]
      exact ⟨y.mem_atomSeq .., good.delivers_atomRun (i := .atom h o) rfl hl hnear (Iss.lane_reach hr.1) (Iss.nodup_ex g) hexec⟩
    · obtain ⟨p, hmoved, hkind, hd, hasks⟩ := good.atomRun_far (i := .atom h o) rfl hl hne hfar port _
      exact ⟨_, p, hexec, hmoved, hkind, hd, hasks⟩
  · intro sz g ho hr hc hp
    have good := y.good g
    have hport : y.portOk (.red h o) y.s = .ok none := by rw [Iss.portOk, pushPort_red]
    have hexec := (exec_red g ho).trans (good.atomic_run (red := true) hl _ hr hheld rfl hc hp hport)
    refine ⟨fun hnear => ?_, fun hne hfar => ?_⟩
    · rw [← hbump hport]
      exact ⟨_, hexec, good.atomRun_red_near (i := .red h o) rfl hnear⟩
    · obtain ⟨p, hmoved, hkind, -, hasks⟩ := good.atomRun_far (i := .red h o) rfl hl hne hfar none _
      exact ⟨_, p, hexec, hmoved, hkind, hasks⟩

end Sys2Proof.Machine

/-! # Division, bits and comparisons

The bits of the bit functions, the counts as lengths of lists of bits, and the quotients that wrap around. -/

namespace Sys2Proof.Machine

open Sys2Proof

/-! ### Division (R127) -/

/-- The quotient of the most negative value by −1 is the greatest value plus one, which wraps around; its remainder is 0. -/
theorem ival_ires_div_neg_one {t : IType} (ht : t.sg = true) :
    ival t (ires t ((-(2 : Int) ^ (t.bits - 1)).tdiv (-1))) = -(2 : Int) ^ (t.bits - 1) ∧
    ival t (ires t (-(2 : Int) ^ (t.bits - 1) - -1 * (-(2 : Int) ^ (t.bits - 1)).tdiv (-1))) = 0 := by
  revert ht
  cases t <;> decide

theorem ival_ires_emod (t : IType) (v : Int) : ival t (ires t v) % (2 : Int) ^ t.bits = v % (2 : Int) ^ t.bits := by
  have h : BitVec.ofInt t.bits (ival t (ires t v)) = BitVec.ofInt t.bits v := by rw [ofInt_ival, setWidth_ires]
  have hmod := congrArg (fun x => BitVec.toInt x % ((2 ^ t.bits : Nat) : Int)) h
  simp only [BitVec.toInt_ofInt, Int.bmod_emod] at hmod
  exact_mod_cast hmod

/-- A remainder that is not zero has the sign of the dividend. -/
theorem rem_pos_iff {a b : Int} (h : a - b * a.tdiv b ≠ 0) : 0 < a - b * a.tdiv b ↔ 0 < a := by
  rw [← Int.tmod_def] at h ⊢
  obtain ha | ha := le_or_gt a 0
  · have hneg : 0 ≤ -(a.tmod b) := Int.neg_tmod a b ▸ Int.tmod_nonneg b (by omega)
    omega
  · have hpos := Int.tmod_nonneg b ha.le
    omega

/-- Settles O9: each instruction computes on each lane by itself; the wrapped quotient, the low bits of a result and the sign of
a remainder by lemmas of their own. -/
theorem divisionResults : Obligations.DivisionResults := by
  unfold Obligations.DivisionResults
  refine ⟨fun h s y => ⟨fun o => ⟨?_, ?_⟩, fun o => ⟨?_, ?_⟩⟩, fun t ht => ival_ires_div_neg_one ht, ival_ires_emod,
    fun a b _ h => rem_pos_iff h⟩
  · exact computes_runAlu rfl
  · exact computes_runAlu rfl
  · exact computes_runAlu rfl
  · exact computes_runAlu rfl

/-! ### Single bits of the bit functions (R131 to R135) -/

theorem getLsbD_cut {w64 : Bool} (x : DWord) {i : Nat} (h : i < if w64 then 64 else 32) :
    (cut w64 x).getLsbD i = x.getLsbD i := by
  cases w64 with
  | true => rfl
  | false =>
    have h' : i < 32 := h
    simp [cut, h', h'.trans (show 32 < 64 by decide)]

/-- A word or its complement, as a row of the truth table takes it. -/
theorem getLsbD_ite_not (p : Prop) [Decidable p] (x : DWord) {i : Nat} (h : i < 64) :
    (if p then x else ~~~x).getLsbD i = (x.getLsbD i == decide p) := by
  by_cases hp : p <;> simp [hp, h]

theorem getLsbD_lop3 {w64 : Bool} (t : BitVec 8) (a b c : DWord) {i : Nat} (h : i < if w64 then 64 else 32) :
    (lop3 w64 t a b c).getLsbD i =
      t.getLsbD (4 * (a.getLsbD i).toNat + 2 * (b.getLsbD i).toNat + (c.getLsbD i).toNat) := by
  have h64 : i < 64 := by split at h <;> omega
  have row (k : Nat) (p q r : Prop) [Decidable p] [Decidable q] [Decidable r] :
      (if t.getLsbD k then (if p then a else ~~~a) &&& (if q then b else ~~~b) &&& (if r then c else ~~~c)
        else 0 : DWord).getLsbD i =
      (t.getLsbD k && (a.getLsbD i == decide p) && (b.getLsbD i == decide q) && (c.getLsbD i == decide r)) := by
    cases t.getLsbD k with
    | true => simp only [if_true, BitVec.getLsbD_and, getLsbD_ite_not _ _ h64, Bool.true_and]
    | false => simp
  simp only [lop3, getLsbD_cut _ h, BitVec.getLsbD_or, row]
  cases a.getLsbD i <;> cases b.getLsbD i <;> cases c.getLsbD i <;> simp

theorem getLsbD_fsh_right (a b c : Word) {i : Nat} (h : i < 32) :
    (fsh true a b c).getLsbD i = (a ++ b).getLsbD (c.toNat % 32 + i) := by
  simp only [fsh, if_true, BitVec.getLsbD_setWidth, BitVec.getLsbD_ushiftRight, h, decide_true, Bool.true_and]

theorem getLsbD_fsh_left (a b c : Word) {i : Nat} (h : i < 32) :
    (fsh false a b c).getLsbD i = (a ++ b).getLsbD (32 + i - c.toNat % 32) := by
  have hk : ¬ 32 + i < c.toNat % 32 := by omega
  have hi : 32 + i < 64 := by omega
  simp only [fsh, Bool.false_eq_true, if_false, BitVec.getLsbD_setWidth, BitVec.getLsbD_ushiftRight,
    BitVec.getLsbD_shiftLeft, h, hk, hi, decide_true, decide_false, Bool.not_false, Bool.true_and]

/-- A field of R133 as its bits: those of the source from `pos` on, then the extension. -/
theorem getLsbD_bfe {t : IType} {pos len : BitVec 8} (a : DWord) {i : Nat} (hlen : 0 < len.toNat)
    (ht : t = .s32 ∨ t = .z32 ∨ t = .s64 ∨ t = .z64) (hi : i < t.bits) :
    (bfe t pos len a).getLsbD i = if i < len.toNat then a.getLsbD (pos.toNat + i)
      else (t.sg && a.getLsbD (pos.toNat + len.toNat - 1)) := by
  have hn : len ≠ 0 := by
    rintro rfl
    exact absurd hlen (by decide)
  have hbits : t.bits = if t.w64 then 64 else 32 := by obtain rfl | rfl | rfl | rfl := ht <;> rfl
  have h64 : i < 64 := by rw [hbits] at hi; split at hi <;> omega
  have hmsb : (a.extractLsb' pos.toNat len.toNat).msb = a.getLsbD (pos.toNat + len.toNat - 1) := by
    rw [BitVec.msb_eq_getLsbD_last, BitVec.getLsbD_extractLsb', decide_eq_true (by omega), Bool.true_and,
      Nat.add_sub_assoc hlen]
  rw [bfe, if_neg hn]
  cases t.sg with
  | true =>
    simp only [if_true, getLsbD_cut _ (hbits ▸ hi), BitVec.getLsbD_signExtend, hmsb, BitVec.getLsbD_extractLsb',
      h64, decide_true, Bool.true_and]
    split <;> simp [*]
  | false => simp [h64]

/-- The mask of R133 has the bits of the field. -/
theorem getLsbD_fieldMask (pos len : Nat) {i : Nat} (h : i < 64) :
    (BitVec.ofNat 64 ((2 ^ len - 1) * 2 ^ pos)).getLsbD i = decide (pos ≤ i ∧ i < pos + len) := by
  rw [BitVec.getLsbD_ofNat, Nat.testBit_mul_two_pow, Nat.testBit_two_pow_sub_one, decide_eq_true h, Bool.true_and,
    ← Bool.decide_and]
  exact decide_eq_decide.2 (by omega)

theorem getLsbD_bfi {w64 : Bool} (pos len : BitVec 8) (a b : DWord) {i : Nat} (h : i < if w64 then 64 else 32) :
    (bfi w64 pos len a b).getLsbD i = if pos.toNat ≤ i ∧ i < pos.toNat + len.toNat then a.getLsbD (i - pos.toNat)
      else b.getLsbD i := by
  have h64 : i < 64 := by split at h <;> omega
  simp only [bfi, getLsbD_cut _ h, BitVec.getLsbD_or, BitVec.getLsbD_and, BitVec.getLsbD_not,
    getLsbD_fieldMask _ _ h64, BitVec.getLsbD_shiftLeft, h64, decide_true, Bool.true_and]
  split
  next hf => simp [hf]
  next hf => simp [hf]

theorem extractLsb'_bperm (a : DWord) (b : Word) {i : Nat} (h : i < 4) :
    (bperm a b).extractLsb' (8 * i) 8 = if b.getLsbD (4 * i + 3) then 0
      else a.extractLsb' (8 * (b.extractLsb' (4 * i) 3).toNat) 8 := by
  rw [bperm]
  interval_cases i <;> simp (disch := omega) only [part_lo, part_hi, part_all, Nat.reduceMul, Nat.reduceSub, Nat.sub_self]

/-- The product's bit i is the sum of `b[j] a[i-j]` over GF(2). -/
theorem getLsbD_clmulN (a : BitVec 128) (b : DWord) (k : Nat) {i : Nat} (h : i < 128) :
    (clmulN a b k).getLsbD i =
      (List.range k).foldl (fun r j => r ^^ (b.getLsbD j && decide (j ≤ i) && a.getLsbD (i - j))) false := by
  induction k with
  | zero => simp [clmulN]
  | succ k ih =>
    rw [clmulN, BitVec.getLsbD_xor, ih, List.range_succ, List.foldl_append, List.foldl_cons, List.foldl_nil, Bool.xor_comm]
    congr 1
    cases b.getLsbD k with
    | true =>
      simp only [if_true, BitVec.getLsbD_shiftLeft, h, decide_true, Bool.true_and, ← Nat.not_lt, decide_not]
    | false => simp

theorem getLsbD_clmul (a b : DWord) {i : Nat} (h : i < 128) :
    (if i < 64 then (clmul false a b).getLsbD i else (clmul true a b).getLsbD (i - 64)) =
      (List.range 64).foldl (fun r j => r ^^ (b.getLsbD j && decide (j ≤ i) && a.getLsbD (i - j))) false := by
  have hprod := getLsbD_clmulN (a.setWidth 128) b 64 h
  have hwide (j : Nat) : (a.setWidth 128).getLsbD (i - j) = a.getLsbD (i - j) := by
    have hj : i - j < 128 := by omega
    simp [hj]
  simp only [hwide] at hprod
  rw [← hprod]
  split
  next hi => simp [clmul, hi]
  next hi =>
    have hlt : i - 64 < 64 := by omega
    have hsum : 64 + (i - 64) = i := by omega
    simp [clmul, hlt, hsum]

/-- Settles O11: each function by the bits of what it is put together from. -/
theorem bitFunctions : Obligations.BitFunctions := by
  unfold Obligations.BitFunctions
  exact ⟨fun _ t a b c _ h => getLsbD_lop3 t a b c h,
    fun a b c _ h => ⟨getLsbD_fsh_right a b c h, getLsbD_fsh_left a b c h⟩,
    fun _ _ _ a _ hlen _ ht hi => getLsbD_bfe a hlen ht hi,
    fun _ pos len a b _ h => getLsbD_bfi pos len a b h,
    fun a b _ h => extractLsb'_bperm a b h,
    fun a b _ h => getLsbD_clmul a b h⟩

/-! ### Counts of bits (R131) -/

theorem popN_eq_length_filter (x : DWord) (k : Nat) : popN x k = ((List.range k).filter fun i => x.getLsbD i).length := by
  induction k with
  | zero => rfl
  | succ k ih =>
    rw [popN, ih, List.range_succ, List.filter_append, List.length_append, Nat.add_comm]
    cases hb : x.getLsbD k <;> simp [hb]

theorem clzN_eq_length_takeWhile (x : DWord) (k : Nat) :
    clzN x k = ((List.range k).reverse.takeWhile fun i => !x.getLsbD i).length := by
  induction k with
  | zero => rfl
  | succ k ih =>
    rw [clzN, ih, List.range_succ, List.reverse_append, List.reverse_singleton, List.singleton_append]
    cases hb : x.getLsbD k <;> simp [hb, Nat.add_comm]

theorem ctzN_eq_length_takeWhile_range' (x : DWord) {n k : Nat} (h : k ≤ n) :
    ctzN x n k = ((List.range' (n - k) k).takeWhile fun i => !x.getLsbD i).length := by
  induction k with
  | zero => rfl
  | succ k ih =>
    have hnext : n - (k + 1) + 1 = n - k := by omega
    rw [ctzN, ih (by omega), List.range'_succ, hnext]
    cases hb : x.getLsbD (n - (k + 1)) <;> simp [hb, Nat.add_comm]

theorem ctzN_eq_length_takeWhile (x : DWord) (n : Nat) :
    ctzN x n n = ((List.range n).takeWhile fun i => !x.getLsbD i).length := by
  rw [ctzN_eq_length_takeWhile_range' x le_rfl, Nat.sub_self, List.range_eq_range']

/-! ### Shifts (R131) -/

theorem shiftN_sar {n : Nat} (a : BitVec n) (c : Nat) : shiftN .sar a c = a.sshiftRight (min c n) := by
  rw [shiftN, min_comm]
  rfl

theorem brev_srcW (e : Env) (w64 : Bool) (a : Src) : brev w64 (e.srcW w64 a) =
    if w64 then (e.srcW true a).reverse else ((e.srcW false a).setWidth 32).reverse.setWidth 64 := by
  cases w64 <;> simp [brev]

/-- Settles O10: the counts by what they count, `sar` by its greatest count; every instruction computes on each lane by itself. -/
theorem logicResults : Obligations.LogicResults := by
  unfold Obligations.LogicResults
  refine fun h s y => ⟨?_, ?_, ?_, ?_, ?_, ?_, ?_, ?_, ?_, ?_⟩
  · exact fun o => ⟨computes_runAlu rfl, computes_runAlu rfl, computes_runAlu rfl, computes_runAlu rfl⟩
  · exact fun o => ⟨computes_runAlu rfl, computes_runAlu rfl, computes_runAlu rfl⟩
  · refine fun o => ⟨computes_runAlu rfl, computes_runAlu ?_, computes_runAlu ?_, computes_runAlu ?_, computes_runAlu ?_⟩
    · simp only [exec, execBrev, brev_srcW]
    · simp only [exec, execPopc, cnt1, popc, popN_eq_length_filter]
      rfl
    · simp only [exec, execClz, cnt1, clz, clzN_eq_length_takeWhile]
      rfl
    · simp only [exec, execCtz, cnt1, ctz, ctzN_eq_length_takeWhile]
      rfl
  · exact fun o => ⟨computes_runAlu rfl, computes_runAlu rfl, computes_runAlu rfl⟩
  · exact fun o => computes_runAlu rfl
  · exact fun o => computes_runAlu rfl
  · exact fun o => computes_runAlu rfl
  · exact fun o => computes_runAlu rfl
  · refine fun o => ⟨computes_runAlu rfl, computes_runAlu rfl, computes_runAlu ?_, computes_runAlu rfl, computes_runAlu rfl⟩
    simp only [exec, execSar, sh2, shift, shiftN_sar]
  · refine fun o => ⟨computes_runAlu rfl, computes_runAlu rfl, computes_runAlu ?_, computes_runAlu rfl, computes_runAlu rfl⟩
    simp only [exec, execSarImm, shI, shift, shiftN_sar]

/-- Settles O12: each comparison computes on each lane by itself. -/
theorem compareResults : Obligations.CompareResults := by
  unfold Obligations.CompareResults
  refine fun h s y => ⟨fun o => ?_, fun o => ?_, fun o => ?_, fun o => ?_, fun o => ?_⟩
  · exact computes_runAlu rfl
  · exact computes_runAlu rfl
  · exact computes_runAlu rfl
  · exact computes_runAlu rfl
  · exact computes_runAlu rfl

end Sys2Proof.Machine

/-! # Indexed moves and branches

What stands behind the test of a computed index, and where the lanes of a branch go on. -/

namespace Sys2Proof.Machine

open Sys2Proof

/-! ### Indexed moves (R136, R138) -/

theorem Iss.indexTrap_of_all_good {y : Iss} {idx : Env → Word} (h : ∀ l ∈ y.ex, y.b.badIndex (idx (y.env l)) = false)
    (opnd : Nat) : y.indexTrap opnd idx = none := by
  rw [Iss.indexTrap, List.find?_eq_none.2 fun l hl => by simp [h l hl]]
  rfl

theorem Iss.indexTrap_of_find {y : Iss} {idx : Env → Word} {l : Nat}
    (h : y.ex.find? (fun l => y.b.badIndex (idx (y.env l))) = some l) (opnd : Nat) :
    y.indexTrap opnd idx = some { cls := .regidx, cause := 1, lane := l, opnd } := by
  rw [Iss.indexTrap, h]
  rfl

theorem Iss.front_bandIn_modBand (y : Iss) (t : State) {f : Band → Band} (hf : ∀ x, (f x).front = x.front) :
    (y.bandIn (t.modBand y.k y.n f)).front = (y.bandIn t).front := by
  simp only [Iss.bandIn, State.blk_modBand]
  cases t.blk y.k with
  | none => rfl
  | some b =>
    simp only [Option.map_some, Option.bind_some, Block.band_modBand, if_true]
    cases b.band y.n with
    | none => rfl
    | some x => exact hf x

/-- What an issue has written stays when its band changes in other parts than its front. -/
theorem Iss.Wrote.modBand {y : Iss} {t : State} {val : Nat → Out} {next : Nat → DWord} (w : y.Wrote t val next)
    {f : Band → Band} (hf : ∀ x, (f x).front = x.front) : y.Wrote (t.modBand y.k y.n f) val next := by
  obtain ⟨hl, hu, hfs, hsp⟩ := Band.front_eq_iff.1 (y.front_bandIn_modBand t hf)
  have hlane (l : Nat) : y.laneIn (t.modBand y.k y.n f) l = y.laneIn t l := by rw [Iss.laneIn, Band.lane, hl]; rfl
  obtain ⟨b, hb, hrest⟩ := w.block
  constructor
  case regs => exact fun l => hlane l ▸ w.regs l
  case preds => exact fun l => hlane l ▸ w.preds l
  case idle => exact fun l => hlane l ▸ w.idle l
  case goes => exact fun l => hlane l ▸ w.goes l
  case still => exact fun l => hlane l ▸ w.still l
  case states => exact fun l => hlane l ▸ w.states l
  case uregs =>
    intro r hr
    rw [Band.u, hu]
    exact w.uregs r hr
  case fstat => exact hfs.trans w.fstat
  case special => exact hsp.trans w.special
  case bands =>
    intro m hm
    rw [← w.bands m hm, State.blk_modBand, hb]
    exact (Block.band_modBand b y.n m f).trans (if_neg hm)
  case block => exact ⟨b.modBand y.n f, by rw [State.blk_modBand, hb]; rfl, hrest⟩
  case blocks => exact fun k hk => (State.blk_modBand_ne t y.n f hk).trans (w.blocks k hk)
  case shell => exact w.shell.trans (State.sameShell_modBand ..)

theorem Band.front_unlatch (x : Band) (rs : List Nat) : (x.unlatch rs).front = x.front := rfl

theorem pushPort_movIndexedWrite (b : Block) (h : Hdr) (o : MovWr) : pushPort b (.movIndexedWrite h o) = none := by
  have hops : operands (.movIndexedWrite h o) = [.vr 1 o.k 1 true, .src 2 o.a] := rfl
  unfold pushPort
  dsimp only
  rw [hops]
  simp [Opnd.wr_src, Opnd.vr]

theorem Iss.commit_of_noPush {y : Iss} {i : Instr} (h : pushPort y.b i = none) (outs : List (Nat × Out)) :
    y.commit i outs = y.finish (y.putOuts outs) i [] := by
  unfold Iss.commit
  rw [h]

theorem computes_movIndexedRead {h : Hdr} {o : MovRd} {s : State} {y : Iss}
    (hk : ∀ l ∈ y.ex, y.b.badIndex ((y.env l).src o.k) = false) :
    Computes (.movIndexedRead h o) s y fun e => .dst o.d false ((e.ln.v (e.src o.k).toNat).setWidth 64) := by
  intro hy
  refine (y.good hy).writes rfl ((run_next hy _).trans ?_)
  rw [Iss.indexTrap_of_all_good hk]

theorem exec_movIndexedWrite {h : Hdr} {o : MovWr} {s : State} {y : Iss} (hy : Issues (.movIndexedWrite h o) s y)
    (hk : ∀ l ∈ y.ex, y.b.badIndex ((y.env l).v o.k) = false) :
    let outs : List (Nat × Out) := y.ex.map fun l => (l, { v := [(((y.env l).v o.k).toNat, (y.env l).src o.a)] })
    exec (.movIndexedWrite h o) s =
      .next ((y.finish (y.putOuts outs) (.movIndexedWrite h o) []).modBand y.k y.n (Band.unlatch · (regsOf outs))) := by
  refine (run_next hy _).trans ?_
  rw [Iss.indexTrap_of_all_good hk]
  dsimp only
  rw [Iss.commit_of_noPush (pushPort_movIndexedWrite ..)]

/-- An indexed write pushes to no port: none of its operands is a destination. -/
theorem computes_movIndexedWrite {h : Hdr} {o : MovWr} {s : State} {y : Iss}
    (hk : ∀ l ∈ y.ex, y.b.badIndex ((y.env l).v o.k) = false) :
    Computes (.movIndexedWrite h o) s y fun e => { v := [((e.v o.k).toNat, e.src o.a)] } := by
  intro hy
  refine ⟨fun _ => ⟨_, exec_movIndexedWrite hy hk, ?_⟩, fun port hp => ?_⟩
  · exact ((y.good hy).wrote rfl _ []).modBand fun x => x.front_unlatch _
  · rw [pushPort_movIndexedWrite] at hp
    cases hp

/-- Settles O14: each move computes on each lane by itself; an indexed one does behind the test of its indices. -/
theorem moveResults : Obligations.MoveResults := by
  unfold Obligations.MoveResults
  refine ⟨fun h s y => ⟨?_, ?_, ?_, ?_, ?_, ?_, ?_, ?_⟩, fun h s y l => ⟨fun o hy hl => ?_, fun o hy hl => ?_⟩⟩
  · exact fun o => computes_runAlu rfl
  · exact fun o => computes_runAlu rfl
  · exact fun o => computes_runAlu rfl
  · exact fun o => computes_runAlu rfl
  · exact fun o => computes_runAlu rfl
  · exact fun o => computes_runAlu rfl
  · exact fun o => computes_movIndexedRead
  · exact fun o => computes_movIndexedWrite
  · refine (run_next hy _).trans ?_
    rw [Iss.indexTrap_of_find hl]
    rfl
  · refine (run_next hy _).trans ?_
    rw [Iss.indexTrap_of_find hl]
    rfl

/-! ### Branches (R141 to R146) -/

theorem tget_filterMap_of_key {α : Type} (ls : List Nat) (f : Nat → Option α) (l : Nat) :
    tget (ls.filterMap fun l => (f l).map fun t => (l, t)) l = if ls.contains l then f l else none := by
  induction ls with
  | nil => rfl
  | cons a ls ih =>
    rw [List.contains_cons, List.filterMap_cons]
    by_cases ha : a = l
    · subst ha
      cases hf : f a with
      | none => simp [ih, hf]
      | some t => simp [tget]
    · have hb : (l == a) = false := by simpa using Ne.symm ha
      cases f a with
      | none => simp [ih, hb]
      | some t => simp [tget, ih, ha, hb]

/-- The first executing lane whose target is no multiple of 4; a lane without a target counts as aligned (log entry 92). -/
def Iss.misaligned (y : Iss) (target : Env → Option DWord) : Option Nat :=
  y.ex.find? fun l => ((target (y.env l)).getD 0).extractLsb' 0 2 != 0

theorem Iss.misaligned_of_aligned {y : Iss} {target : Env → Option DWord}
    (h : ∀ l ∈ y.ex, ∀ a, target (y.env l) = some a → a.extractLsb' 0 2 = 0) : y.misaligned target = none := by
  refine List.find?_eq_none.2 fun l hl => ?_
  cases ht : target (y.env l) with
  | none => simp
  | some a => simpa using h l hl a ht

theorem getD_map_misaligned (t : Option DWord) :
    (t.map fun t => t.extractLsb' 0 2 != 0).getD false = ((t.getD 0).extractLsb' 0 2 != 0) := by
  cases t <;> rfl

section

variable {i : Instr} {s : State} {y : Iss} {f : Env → DWord → Option DWord × Out} {target : Env → Option DWord} {g : Env → Out}

/-- A branch looks for its first misaligned lane. -/
theorem find?_targets (y : Iss) (target : Env → Option DWord) (g : Env → Out) :
    (y.ex.map fun l => (l, target (y.env l), g (y.env l))).find?
        (fun r => (r.2.1.map fun t => t.extractLsb' 0 2 != 0).getD false) =
      (y.misaligned target).map fun l => (l, target (y.env l), g (y.env l)) := by
  simp only [List.find?_map, Function.comp_def, getD_map_misaligned]
  rfl

theorem runJump_of_aligned (hy : Issues i s y) (hf : ∀ e, f e y.pc = (target e, g e)) (h : y.misaligned target = none) :
    runJump i s f = .next (y.finish (y.putOuts (y.ex.map fun l => (l, g (y.env l)))) i
      (y.ex.filterMap fun l => (target (y.env l)).map fun t => (l, t))) := by
  refine (run_next hy _).trans ?_
  simp only [hf, find?_targets, h, Option.map_none, List.map_map, List.filterMap_map, Function.comp_def]

theorem traps_runJump (e : exec i s = runJump i s f) (hf : ∀ e, f e y.pc = (target e, g e)) (hy : Issues i s y) {l : Nat}
    {a : DWord} (h : y.misaligned target = some l) (ha : target (y.env l) = some a) :
    Traps i s y { cls := .fetchalign, cause := 1, lane := l, addr := a } := by
  refine (e.trans (run_next hy _)).trans ?_
  simp only [hf, find?_targets, h, Option.map_some, ha, Option.getD_some]
  rfl

theorem Iss.goOn_targets (y : Iss) (i : Instr) (target : Nat → Option DWord) :
    y.goOn i (y.ex.filterMap fun l => (target l).map fun t => (l, t)) = fun l =>
      if y.ex.contains l then (target l).getD (y.inLine i l) else y.inLine i l := by
  funext l
  rw [Iss.goOn, tget_filterMap_of_key]
  split <;> rfl

/-- An instruction whose lanes take the targets and results of two functions is a branch to them. -/
theorem jumps_runJump (e : exec i s = runJump i s f) (hf : ∀ e, f e y.pc = (target e, g e)) : Jumps i s y target g := by
  intro hy hal
  obtain ⟨h, hi⟩ := y.hdr hy
  refine ⟨_, e.trans (runJump_of_aligned hy hf (Iss.misaligned_of_aligned hal)), ?_⟩
  rw [← Iss.goOn_targets]
  exact (y.good hy).wrote hi _ _

end

theorem exec_bra (h : Hdr) (off : Word) (s : State) :
    exec (.bra h off) s = runJump (.bra h off) s fun _ pc => (some (pc + off.signExtend 64), {}) := rfl

theorem exec_call (h : Hdr) (o : CallOp) (s : State) :
    exec (.call h o) s = runJump (.call h o) s fun _ pc => (some (pc + o.off.signExtend 64), .v64 o.d (pc + 12)) := rfl

theorem exec_ret (h : Hdr) (a : Src) (s : State) :
    exec (.ret h a) s = runJump (.ret h a) s fun e _ => (some (e.src64 a), {}) := rfl

theorem exec_brx (h : Hdr) (a : Src) (s : State) :
    exec (.brx h a) s = runJump (.brx h a) s fun e _ => (some (e.src64 a), {}) := rfl

/-- The lanes of `dbra` whose count is not yet 0 have a target (R142). -/
theorem exec_dbra (h : Hdr) (o : CallOp) (s : State) : exec (.dbra h o) s = runJump (.dbra h o) s fun e pc =>
    (if e.v o.d - 1 = 0 then none else some (pc + o.off.signExtend 64), .v32 o.d (e.v o.d - 1)) := by
  simp only [exec, execDbra, bne_iff_ne, ne_eq, ite_not]

/-- The yield marks that completing an issue sets (R171). -/
theorem Iss.yieldMark_finish_base {i : Instr} {s : State} {y : Iss} (hy : Issues i s y) (jumps : List (Nat × DWord)) {l : Nat}
    (hl : l ∈ y.ex) : (y.laneIn (y.finish y.base i jumps) l).yieldMark = ((y.x.lane l).yieldMark || yields i) := by
  have g := y.good hy
  obtain ⟨h, hi⟩ := y.hdr hy
  obtain ⟨hb, hx⟩ := g.base_band
  obtain ⟨⟨_, b', hb', -, -, ⟨dg, h', -, hband⟩, -⟩, -, -⟩ := y.finished jumps hi hb hx
  have hact := g.exAct l hl
  rw [Iss.laneIn, Iss.bandIn, hb', Option.bind_some, hband, Option.getD_some, Band.complete_lane _ _ _ _ _ _ _ _ _ (g.lt l hact),
    if_pos (by simpa using hact)]
  simp [hl]

theorem exec_of_nop {h : Hdr} {i : Instr} (hi : i = .nop64 h ∨ i = .nop96 h ∨ i = .nop128 h ∨ i = .yield h) (s : State) :
    exec i s = runNop i s ∧ yields i = decide (i = .yield h) := by
  obtain rfl | rfl | rfl | rfl := hi
  · exact ⟨rfl, by simp [yields]⟩
  · exact ⟨rfl, by simp [yields]⟩
  · exact ⟨rfl, by simp [yields]⟩
  · exact ⟨rfl, by simp [yields]⟩

/-- Settles O15: a branch by its lanes' targets, of which the first misaligned one traps. -/
theorem controlFlow : Obligations.ControlFlow := by
  unfold Obligations.ControlFlow
  refine ⟨fun h s y i hi hy => ?_, fun h s y => ⟨?_, ?_, ?_, ?_, ?_⟩, fun h s y i target l a hi hy hl ha => ?_⟩
  · obtain ⟨hexec, hyield⟩ := exec_of_nop hi s
    rw [hexec, ← hyield]
    exact ⟨_, run_next hy _, Iss.wrote_base hy [], fun l hl => Iss.yieldMark_finish_base hy [] hl⟩
  · exact fun off => jumps_runJump (exec_bra h off s) fun _ => rfl
  · exact fun o => jumps_runJump (exec_call h o s) fun _ => rfl
  · exact fun o => jumps_runJump (exec_dbra h o s) fun _ => rfl
  · exact fun a => jumps_runJump (exec_ret h a s) fun _ => rfl
  · exact fun a => jumps_runJump (exec_brx h a s) fun _ => rfl
  · obtain ⟨off, rfl, rfl⟩ | ⟨o, rfl, rfl⟩ | ⟨o, rfl, rfl⟩ | ⟨r, rfl | rfl, rfl⟩ := hi
    · exact traps_runJump (exec_bra h off s) (fun _ => rfl) hy hl ha
    · exact traps_runJump (exec_call h o s) (fun _ => rfl) hy hl ha
    · exact traps_runJump (exec_dbra h o s) (fun _ => rfl) hy hl ha
    · exact traps_runJump (exec_ret h r s) (fun _ => rfl) hy hl ha
    · exact traps_runJump (exec_brx h r s) (fun _ => rfl) hy hl ha

end Sys2Proof.Machine

/-! # Conversions between equal formats

R161 keeps the value of an `fcvt` whose formats are equal, so an E5M2 infinity stays one; the rule of its destination alone
would clamp it to the largest finite value (R98). -/

namespace Sys2Proof.Machine

open Sys2Proof

/-! ### What `fcvt` writes (R98, R161) -/

theorem computes_fcvt (h : Hdr) (o : Fcvt) (s : State) (y : Iss) : Computes (.fcvt h o) s y fun e =>
    .f32 o.d (fcvtF (CvFmt.fmt o.df) (CvFmt.fmt o.sf) (e.mode o.rnd) o.ftz (cvRule (o.df.small && o.df != o.sf) o.ovr)
      (elemBits (CvFmt.fmt o.sf) (e.src o.a) o.sel.toNat)) :=
  computes_runAlu rfl

section

variable {sf : Fmt} {x : Nat} {q : Bool}

theorem fcvtF_ieee_of_inf (h : fval sf x = .inf q) (df : Fmt) (md : RMode) (z : Bool) :
    fcvtF df sf md z .ieee x = ⟨df.inf q, 0⟩ := by
  simp [fcvtF, h, FV.flush]

theorem fcvtF_sat_of_inf (h : fval sf x = .inf q) (df : Fmt) (md : RMode) (z : Bool) :
    fcvtF df sf md z .sat x = ⟨df.largest q, Conds.sat⟩ := by
  simp [fcvtF, h, FV.flush]

end

theorem written_v32_self (d : BitVec 8) (w v : Word) (cs : Conds) : written (Out.v32 d w cs).v d.toNat v = w := by
  simp [written, Out.v32]

/-- An instruction writes one value to a register: two accounts of its results agree there. -/
theorem Writes.written_eq {i : Instr} {s : State} {y : Iss} {g g' : Nat → Out} (w : Writes i s y g) (w' : Writes i s y g')
    (hp : pushPort y.b i = none) {l r : Nat} (hl : l ∈ y.ex) (hr : r < (y.x.lane l).vregs.length)
    (hport : y.b.isPort r = false) :
    written (g l).v r ((y.x.lane l).v r) = written (g' l).v r ((y.x.lane l).v r) := by
  obtain ⟨t, e, ht⟩ := w.1 hp
  obtain ⟨t', e', ht'⟩ := w'.1 hp
  obtain rfl : t = t' := Host.Outcome.next.inj (e.symm.trans e')
  exact (ht.regs l hl r hr hport).symm.trans (ht'.regs l hl r hr hport)

/-! ### An infinity converted to its own format -/

/-- The record of an issue that preparing it comes to. -/
def Prep.issue? : Prep → Option Iss
  | .go y => some y
  | .refuse _ => none
  | .out _ => none

theorem issues_of_mem_issue? {i : Instr} {s : State} {y : Iss} (h : y ∈ (prep i s).issue?) : Issues i s y := by
  unfold Issues
  cases hp : prep i s with
  | go z => exact congrArg Prep.go (by simpa [hp, Prep.issue?] using h)
  | refuse r => simp [hp, Prep.issue?] at h
  | out t => simp [hp, Prep.issue?] at h

/-- `fcvt.e5m2.e5m2.sat v4, v6`. -/
def e5m2ToSelf : Fcvt :=
  { d := 4, a := .v 6, rnd := .rne, ftz := false, ovr := false, df := .e5m2, sf := .e5m2, sel := 0 }

/-- The header of an instruction without tokens to wait for, guarded by p7. -/
def plainHdr : Hdr := ⟨4, 0, 7, 0, 7, false⟩

/-- The booted device about to run `e5m2ToSelf`, with an E5M2 infinity in v6 of lane 0. -/
def infiniteOperand : State :=
  (State.reset.boot (encode (.fcvt plainHdr e5m2ToSelf))).modBand 0 0 fun x => x.modLanes [0] fun _ l => l.setV 6 0x7C

/-- Lane 0 executes the conversion, reads the infinity, and writes to a register, not to a port. -/
theorem e5m2ToSelf_issues : ∃ y ∈ (prep (.fcvt plainHdr e5m2ToSelf) infiniteOperand).issue?,
    pushPort y.b (.fcvt plainHdr e5m2ToSelf) = none ∧ 0 ∈ y.ex ∧ 4 < (y.x.lane 0).vregs.length ∧ y.b.isPort 4 = false ∧
      (y.env 0).src (.v 6) = 0x7C := by
  decide +kernel

/-- Refutes O17: `fcvt` from E5M2 to E5M2 without OVR keeps the infinity 0x7C (R161), where the statement, whose rule
`cvRule o.df.small o.ovr` looks at the destination alone, has it clamped to the largest finite value 0x7B. -/
theorem not_conversionResults : ¬ Obligations.ConversionResults := by
  unfold Obligations.ConversionResults
  intro h
  obtain ⟨y, hy, hpush, hex, hlen, hport, hsrc⟩ := e5m2ToSelf_issues
  have hissue := issues_of_mem_issue? hy
  have hinf : fval .e5m2 (elemBits .e5m2 ((y.env 0).src (.v 6)) 0) = .inf false := by
    rw [hsrc]
    decide
  have model := computes_fcvt plainHdr e5m2ToSelf infiniteOperand y hissue
  have claim := (h plainHdr infiniteOperand y).1 e5m2ToSelf hissue
  have hval : BitVec.ofNat 32 (fcvtF .e5m2 .e5m2 ((y.env 0).mode .rne) false .ieee
        (elemBits .e5m2 ((y.env 0).src (.v 6)) 0)).val =
      BitVec.ofNat 32 (fcvtF .e5m2 .e5m2 ((y.env 0).mode .rne) false .sat
        (elemBits .e5m2 ((y.env 0).src (.v 6)) 0)).val :=
    (written_v32_self 4 ..).symm.trans ((model.written_eq claim hpush hex hlen hport).trans (written_v32_self 4 ..))
  rw [fcvtF_ieee_of_inf hinf, fcvtF_sat_of_inf hinf] at hval
  exact absurd hval (by decide)

end Sys2Proof.Machine

/-! # Rejoin masks -/

namespace Sys2Proof.Machine

open Sys2Proof

theorem LaneSt.isParkedOn_iff (st : LaneSt) (j : Nat) : st.isParkedOn j = true ↔ st = .parked j := by
  cases st <;> simp [LaneSt.isParkedOn]

theorem Band.mem_parkedOn {x : Band} {j l : Nat} : l ∈ x.parkedOn j ↔ l < x.lanes.length ∧ (x.lane l).st = .parked j := by
  simp [Band.parkedOn, Band.pick, LaneSt.isParkedOn_iff]

theorem mem_lanesOf {m : LaneSet} {l : Nat} : l ∈ lanesOf m ↔ l < 64 ∧ m.getLsbD l = true := by
  simp [lanesOf]

/-- A lane is parked on the mask, and all of the mask's enrolled lanes are (R173). -/
def Band.Full (x : Band) (j : Nat) : Prop :=
  (∃ l, l < x.lanes.length ∧ (x.lane l).st = .parked j) ∧
    ∀ l, l < 64 → (x.enrolled.getD j 0).getLsbD l = true → (x.lane l).st = .parked j

/-- Releases a mask where R173 asks for it. -/
def Band.settleMask (x : Band) (j : Nat) : Band :=
  if !(x.parkedOn j).isEmpty && (lanesOf (x.enrolled.getD j 0)).all (fun l => (x.lane l).st.isParkedOn j) then x.release j else x

theorem Band.releaseFull_eq (x : Band) : x.releaseFull = (List.range 4).foldl Band.settleMask x := rfl

theorem Band.settleMask_of_full {x : Band} {j : Nat} (h : x.Full j) : x.settleMask j = x.release j := by
  obtain ⟨⟨l, hl, hp⟩, hall⟩ := h
  have hne : x.parkedOn j ≠ [] := List.ne_nil_of_mem (Band.mem_parkedOn.2 ⟨hl, hp⟩)
  refine if_pos ?_
  simpa [hne, mem_lanesOf, LaneSt.isParkedOn_iff] using hall

theorem Band.settleMask_of_not_full {x : Band} {j : Nat} (h : ¬x.Full j) : x.settleMask j = x := by
  refine if_neg fun hc => h ?_
  simp only [Bool.and_eq_true, Bool.not_eq_true', List.isEmpty_eq_false_iff, List.all_eq_true, mem_lanesOf,
    LaneSt.isParkedOn_iff, and_imp] at hc
  obtain ⟨hne, hall⟩ := hc
  obtain ⟨l, hl⟩ := List.exists_mem_of_ne_nil _ hne
  exact ⟨⟨l, Band.mem_parkedOn.1 hl⟩, hall⟩

@[simp] theorem Band.length_release (x : Band) (j : Nat) : (x.release j).lanes.length = x.lanes.length := List.length_map _

theorem Band.enrolled_release_self (x : Band) (j : Nat) : (x.release j).enrolled.getD j 0 = 0 := by
  simp only [Band.release, setAt, List.getD_eq_getElem?_getD, List.getElem?_set_self']
  cases x.enrolled[j]? <;> rfl

theorem Band.enrolled_release_ne (x : Band) {i j : Nat} (h : i ≠ j) :
    (x.release j).enrolled.getD i 0 = x.enrolled.getD i 0 := by
  simp [Band.release, setAt, List.getD_eq_getElem?_getD, List.getElem?_set_ne h.symm]

theorem Band.parked_release_ne (x : Band) {i j : Nat} (h : i ≠ j) (l : Nat) :
    ((x.release j).lane l).st = .parked i ↔ (x.lane l).st = .parked i := by
  rw [Band.lane_release]
  split
  next hp =>
    rw [LaneSt.isParkedOn_iff] at hp
    simp [hp, h.symm]
  next => rfl

/-- The release of one mask leaves it to the others whether they are full. -/
theorem Band.full_settleMask_ne (x : Band) {i j : Nat} (h : i ≠ j) : (x.settleMask j).Full i ↔ x.Full i := by
  by_cases hf : x.Full j
  · simp only [Band.settleMask_of_full hf, Band.Full, Band.length_release, x.enrolled_release_ne h, x.parked_release_ne h]
  · rw [Band.settleMask_of_not_full hf]

theorem Band.enrolled_settleMask_ne (x : Band) {i j : Nat} (h : i ≠ j) :
    (x.settleMask j).enrolled.getD i 0 = x.enrolled.getD i 0 := by
  by_cases hf : x.Full j
  · rw [Band.settleMask_of_full hf, x.enrolled_release_ne h]
  · rw [Band.settleMask_of_not_full hf]

/-- What releasing several masks in turn does to the masks: of those named exactly the full ones are empty. -/
theorem Band.enrolled_settleMasks {js : List Nat} (hn : js.Nodup) (x : Band) (i : Nat) :
    (i ∈ js → x.Full i → (js.foldl Band.settleMask x).enrolled.getD i 0 = 0) ∧
      ((i ∈ js → ¬x.Full i) → (js.foldl Band.settleMask x).enrolled.getD i 0 = x.enrolled.getD i 0) := by
  induction js generalizing x with
  | nil => exact ⟨nofun, fun _ => rfl⟩
  | cons j js ih =>
    obtain ⟨hj, hn⟩ := List.nodup_cons.1 hn
    obtain ⟨hin, hout⟩ := ih hn (x.settleMask j)
    rw [List.foldl_cons]
    by_cases e : i = j
    · subst e
      rw [hout fun h => absurd h hj]
      exact ⟨fun _ hf => by rw [Band.settleMask_of_full hf, Band.enrolled_release_self],
        fun hf => by rw [Band.settleMask_of_not_full (hf List.mem_cons_self)]⟩
    · rw [x.full_settleMask_ne e] at hin hout
      rw [x.enrolled_settleMask_ne e] at hout
      exact ⟨fun hi => hin ((List.mem_cons.1 hi).resolve_left e), fun hf => hout fun hi => hf (List.mem_cons_of_mem j hi)⟩

/-- What it does to the lanes: those parked on a full one of them are ready, every other lane stays. -/
theorem Band.lane_settleMasks {js : List Nat} (hn : js.Nodup) (x : Band) (l : Nat) :
    (∀ j ∈ js, x.Full j → (x.lane l).st = .parked j →
      (js.foldl Band.settleMask x).lane l = { x.lane l with st := .ready }) ∧
    ((∀ j ∈ js, x.Full j → (x.lane l).st ≠ .parked j) → (js.foldl Band.settleMask x).lane l = x.lane l) := by
  induction js generalizing x with
  | nil => exact ⟨nofun, fun _ => rfl⟩
  | cons j js ih =>
    obtain ⟨hj, hn⟩ := List.nodup_cons.1 hn
    obtain ⟨hin, hout⟩ := ih hn (x.settleMask j)
    have hother : ∀ i ∈ js, ((x.settleMask j).Full i ↔ x.Full i) := fun i hi => x.full_settleMask_ne fun e => hj (e ▸ hi)
    rw [List.foldl_cons]
    by_cases hrel : x.Full j ∧ (x.lane l).st = .parked j
    · obtain ⟨hf, hp⟩ := hrel
      have hlane : (x.settleMask j).lane l = { x.lane l with st := .ready } := by
        rw [Band.settleMask_of_full hf, Band.lane_release, if_pos ((LaneSt.isParkedOn_iff ..).2 hp)]
      have hready : (js.foldl Band.settleMask (x.settleMask j)).lane l = { x.lane l with st := .ready } := by
        rw [hout fun i _ _ => by rw [hlane]; exact nofun, hlane]
      exact ⟨fun _ _ _ _ => hready, fun hall => absurd hp (hall j List.mem_cons_self hf)⟩
    · have hlane : (x.settleMask j).lane l = x.lane l := by
        by_cases hf : x.Full j
        · rw [Band.settleMask_of_full hf, Band.lane_release,
            if_neg fun hp => hrel ⟨hf, (LaneSt.isParkedOn_iff ..).1 hp⟩]
        · rw [Band.settleMask_of_not_full hf]
      rw [hlane] at hin hout
      refine ⟨fun i hi hf hp => ?_, fun hall => hout fun i hi hf => hall i (List.mem_cons_of_mem j hi) ((hother i hi).1 hf)⟩
      obtain rfl | hi := List.mem_cons.1 hi
      · exact absurd ⟨hf, hp⟩ hrel
      · exact hin i hi ((hother i hi).2 hf) hp

/-- Settles O25: the masks are looked at one after the other, and whether one is full does not depend on the release of
another. -/
theorem rejoinReleases : Obligations.RejoinReleases := by
  unfold Obligations.RejoinReleases
  intro x
  rw [Band.releaseFull_eq]
  have hn : (List.range 4).Nodup := List.nodup_range
  refine ⟨fun j hj => ?_, fun l _ => ?_⟩
  · obtain ⟨hin, hout⟩ := Band.enrolled_settleMasks hn x j
    exact ⟨hin (List.mem_range.2 hj), fun hf => hout fun _ => hf⟩
  · obtain ⟨hin, hout⟩ := Band.lane_settleMasks hn x l
    exact ⟨fun j hj => hin j (List.mem_range.2 hj), fun hall => hout fun j hj => hall j (List.mem_range.1 hj)⟩

/-! ### The forced release (R174) -/

/-- A band none of whose lanes is ready or blocked: each has ended or is parked on one of the four masks. -/
def Band.Still (x : Band) : Prop := ∀ l ∈ x.lanes, l.st = .exited ∨ ∃ i, i < 4 ∧ l.st = .parked i

theorem Band.stuckParked_of_still {x : Band} (h : x.Still) {j : Nat} (hp : ∃ l ∈ x.lanes, l.st = .parked j) :
    x.stuckParked = true := by
  obtain ⟨l, hl, hst⟩ := hp
  refine Bool.and_eq_true_iff.2 ⟨List.all_eq_true.2 fun m hm => ?_, List.any_eq_true.2 ⟨l, hl, by rw [hst]⟩⟩
  obtain he | ⟨i, -, he⟩ := h m hm <;> rw [he]

theorem Band.parkedOn_isEmpty_iff {x : Band} {j : Nat} : (x.parkedOn j).isEmpty = true ↔ ∀ l ∈ x.lanes, l.st ≠ .parked j := by
  rw [List.isEmpty_iff, List.eq_nil_iff_forall_not_mem]
  simp only [Band.mem_parkedOn, not_and]
  constructor
  · intro h l hl
    obtain ⟨n, hn, rfl⟩ := List.mem_iff_getElem.1 hl
    have := h n hn
    rwa [Band.lane, List.getD_eq_getElem _ _ hn] at this
  · intro h n hn
    rw [Band.lane, List.getD_eq_getElem _ _ hn]
    exact h _ (List.getElem_mem hn)

/-- The mask that a still band gets released is the lowest with a parked lane. -/
theorem Band.forced_eq_some {x : Band} (h : x.Still) {j : Nat} (hj : j < 4) (hp : ∃ l ∈ x.lanes, l.st = .parked j)
    (hlow : ∀ i, i < j → ∀ l ∈ x.lanes, l.st ≠ .parked i) : x.forced = some j := by
  have hempty : ∀ i, i < j → (x.parkedOn i).isEmpty = true := fun i hi => Band.parkedOn_isEmpty_iff.2 (hlow i hi)
  have hfull : (x.parkedOn j).isEmpty = false := by
    rw [← Bool.not_eq_true, Band.parkedOn_isEmpty_iff]
    obtain ⟨l, hl, hst⟩ := hp
    exact fun hall => hall l hl hst
  rw [Band.forced, if_pos (Band.stuckParked_of_still h hp), List.find?_range_eq_some]
  exact ⟨by simp [hfull], List.mem_range.2 hj, fun i hi => by simp [hempty i hi]⟩

theorem Band.release_eq (x : Band) (j : Nat) : x.release j = { x with
    lanes := x.lanes.map fun l => if l.st = .parked j then { l with st := .ready } else l
    enrolled := x.enrolled.set j 0 } := by
  simp only [Band.release, LaneSt.isParkedOn_iff, setAt]

/-! ### A turn of a still band -/

/-- A changed band, read back. -/
theorem State.band_modBand_self {s : State} {k n : Nat} {b : Block} {x : Band} (hb : s.blk k = some b) (hx : b.band n = some x)
    (f : Band → Band) : (((s.modBand k n f).blk k).bind fun b => b.band n) = some (f x) := by
  rw [State.blk_modBand, hb, Option.map_some, Option.bind_some, Block.band_modBand, if_pos rfl, hx, Option.map_some]

theorem State.modBand_id {s : State} {k n : Nat} {b : Block} {x : Band} (hb : s.blk k = some b) (hx : b.band n = some x)
    {f : Band → Band} (hf : f x = x) : (s.modBand k n f).blk k = some b := by
  have hmod : b.modBand n f = b := by
    have : modAt b.bands n f = b.bands := by
      refine List.ext_getElem? fun m => ?_
      rw [getElem?_modAt]
      split
      next e =>
        subst e
        rw [show b.bands[m]? = some x from hx, Option.map_some, hf]
      next => rfl
    rw [Block.modBand, this]
  rw [State.blk_modBand, hb, Option.map_some, hmod]

/-- Looking at the waits of a band that has no blocked lane leaves its block as it is. -/
theorem State.blk_settle_of_still {s : State} {k n : Nat} {b : Block} {x : Band} (hb : s.blk k = some b)
    (hx : b.band n = some x) (h : x.Still) : (s.settle k n).blk k = some b := by
  have hst : ∀ l ∈ x.lanes, ∀ w, l.st ≠ .blocked w := fun l hl w => by
    obtain he | ⟨i, -, he⟩ := h l hl <;> rw [he] <;> exact nofun
  have hmet : s.metBars b x = [] := by
    unfold State.metBars
    split
    · rfl
    · rw [List.filterMap_eq_nil_iff.2]
      · rfl
      · intro l hl
        split
        next e => exact absurd e (hst l hl _)
        next => rfl
  have hpass : s.passing b x = [] := by
    unfold State.passing
    rw [List.filterMap_eq_nil_iff.2]
    · rfl
    · intro l hl
      obtain he | ⟨i, -, he⟩ := h l hl <;> rw [he]
  have hwake : x.lanes.map (s.wakeLane b x) = x.lanes := by
    refine (List.map_congr_left fun l hl => ?_).trans (List.map_id _)
    obtain he | ⟨i, -, he⟩ := h l hl <;> simp only [State.wakeLane, he, id]
  unfold State.settle
  rw [hb]
  dsimp only
  rw [hx]
  dsimp only
  split
  · exact hb
  · rw [hmet, List.foldl_nil]
    exact State.modBand_id hb hx (by rw [hwake, hpass]; rfl)

/-- Settles O26: a still band's lowest mask is released, and a band's turn, whose look at the waits changes nothing of a still
band, looks for that first. -/
theorem forcedRelease : Obligations.ForcedRelease := by
  unfold Obligations.ForcedRelease
  intro s k n j b x hb hx hj hstill hp hlow
  have hforced : x.forced = some j := Band.forced_eq_some hstill hj hp hlow
  refine ⟨fun hh => ⟨s.modBand k n fun x => x.release j, ?_, rfl, ?_, fun i hi => State.blk_modBand_ne s n _ hi⟩, fun hr hh => ?_⟩
  · show execForcedRelease k n s = _
    unfold execForcedRelease
    rw [hb, Option.bind_some, hx, Option.filter_some, hh]
    simp [hforced]
  · rw [State.band_modBand_self hb hx, Band.release_eq]
  · have hat : (s.at' k n).blk k = some b :=
      State.blk_settle_of_still (s := { s with curBlock := k, curBand := n }) hb hx hstill
    refine ⟨?_, hat⟩
    have hlook : (s.at' k n).look k n = .forced := by
      unfold State.look
      rw [hat]
      dsimp only
      rw [hx]
      dsimp only
      rw [hr, hh, hforced]
      rfl
    unfold State.bandStep
    dsimp only
    rw [hlook]

end Sys2Proof.Machine

/-! # The state after reset -/

namespace Sys2Proof.Machine

open Sys2Proof

/-- No core is listed after reset, so each is an empty one. -/
theorem State.core_reset (c : Nat) : State.reset.core c = {} := rfl

/-- No function is listed after reset, so each has its first registers. -/
theorem State.fn_reset (f : Nat) : State.reset.fn f = {} := rfl

/-- Settles O3: the tables after reset are empty, so cores and functions have their first values, and the physical function
has its own. -/
theorem resetState : Obligations.ResetState := by
  unfold Obligations.ResetState
  refine ⟨rfl, rfl, rfl, rfl, rfl, rfl, Memory.wf_nil, State.core_reset, rfl, ?_, rfl, rfl, rfl, fun f => ?_⟩
  · show (State.reset.pf.leasecfg.extractLsb' 0 13).toNat = 1024
    decide
  · rw [State.fn_reset]
    exact ⟨rfl, rfl, rfl⟩

end Sys2Proof.Machine

/-! # Traps that fail their grid -/

namespace Sys2Proof.Machine

open Sys2Proof

/-- A table with rising keys finds each of its entries. -/
theorem tget_of_mem {α : Type} {t : Tbl α} (h : keysRise t = true) {p : Nat × α} (hp : p ∈ t) : tget t p.1 = some p.2 := by
  induction t with
  | nil => cases hp
  | cons q t ih =>
    obtain ⟨hb, hr⟩ := (keysRise_cons q t).1 h
    obtain ⟨k, v⟩ := q
    rw [tget]
    obtain rfl | hp := List.mem_cons.1 hp
    · exact if_pos rfl
    · rw [if_neg (Nat.ne_of_lt (hb p hp)), ih hr hp]

/-! ### The samples of a failed grid (R461) -/

/-- A sample after its deaccession: an open one gives up its loan. -/
def Sample.closed (m : Sample) : Sample := if m.open' then { m with st := .deaccessioned, prov := [] } else m

@[simp] theorem Sample.open_closed (m : Sample) : m.closed.open' = false := by
  unfold Sample.closed
  split
  · rfl
  next h => exact Bool.eq_false_iff.2 h

theorem Sample.closed_of_not_open {m : Sample} (h : m.open' = false) : m.closed = m := by
  rw [Sample.closed, h]
  rfl

/-- A deaccession closes its sample and leaves every other one, and the blocks. -/
theorem State.deaccession_spec (s : State) (sid : Nat) :
    (∀ i, tget (s.deaccession sid).samples i =
      if i = sid then (tget s.samples i).map Sample.closed else tget s.samples i) ∧
    (keysRise s.samples = true → keysRise (s.deaccession sid).samples = true) ∧
    (s.deaccession sid).blocks = s.blocks := by
  have same : (tget s.samples sid).map Sample.closed = tget s.samples sid → ∀ i, tget s.samples i =
      if i = sid then (tget s.samples i).map Sample.closed else tget s.samples i := fun h i => by
    split
    next e => rw [e, h]
    next => rfl
  unfold State.deaccession
  split
  next hm => exact ⟨same (by rw [hm]; rfl), id, rfl⟩
  next m hm =>
    split
    next ho =>
      refine ⟨fun i => ?_, keysRise_tset _ _ _, rfl⟩
      refine (tget_tset s.samples sid i _).trans ?_
      split
      next e => rw [e, hm, Option.map_some, Sample.closed, if_pos ho]
      next => rfl
    next ho =>
      exact ⟨same (by rw [hm, Option.map_some, Sample.closed_of_not_open (Bool.eq_false_iff.2 ho)]), id, rfl⟩

/-- Several deaccessions close their samples. -/
theorem State.deaccessions_spec (is : List Nat) (s : State) :
    (∀ i, tget (is.foldl State.deaccession s).samples i =
      if i ∈ is then (tget s.samples i).map Sample.closed else tget s.samples i) ∧
    (keysRise s.samples = true → keysRise (is.foldl State.deaccession s).samples = true) ∧
    (is.foldl State.deaccession s).blocks = s.blocks := by
  induction is generalizing s with
  | nil => exact ⟨fun _ => rfl, id, rfl⟩
  | cons j is ih =>
    obtain ⟨hone, hkeys, hblocks⟩ := s.deaccession_spec j
    obtain ⟨hall, hkeys', hblocks'⟩ := ih (s.deaccession j)
    refine ⟨fun i => ?_, hkeys' ∘ hkeys, hblocks'.trans hblocks⟩
    have hidem : Sample.closed ∘ Sample.closed = Sample.closed := funext fun m => Sample.closed_of_not_open m.open_closed
    rw [List.foldl_cons, hall, hone]
    by_cases hj : i = j
    · rw [if_pos hj, if_pos (List.mem_cons.2 (.inl hj)), Option.map_map, hidem, ite_self]
    · simp only [List.mem_cons, hj, if_false, false_or]

/-! ### The failure of a grid (R208) -/

/-- The blocks of a grid that fails stop, and all its samples are closed. -/
theorem State.markFailed_spec (s : State) (lid status : Nat) :
    (∀ k, (s.markFailed lid status).blk k =
      (s.blk k).map fun b => if b.lid = lid then { b with st := .stopped false none 0 } else b) ∧
    (keysRise s.samples = true → ∀ p ∈ (s.markFailed lid status).samples, p.2.lid = lid → p.2.open' = false) := by
  obtain ⟨hget, hkeys, hblocks⟩ :=
    State.deaccessions_spec ((s.samples.filter fun p => p.2.lid == lid).map (·.1)) s
  unfold State.markFailed
  dsimp only
  generalize ((s.samples.filter fun p => p.2.lid == lid).map (·.1)).foldl State.deaccession s = t at hget hkeys hblocks
  refine ⟨fun k => ?_, fun hr p hp hlid => ?_⟩
  · refine (tget_map t.blocks (f := fun p => if p.2.lid = lid then (p.1, { p.2 with st := .stopped false none 0 }) else p)
      (fun p => by split <;> rfl) k).trans ?_
    rw [hblocks]
    refine congrFun (congrArg Option.map (funext fun b => ?_)) _
    dsimp only
    split <;> rfl
  · have hp : tget t.samples p.1 = some p.2 := tget_of_mem (hkeys hr) hp
    rw [hget] at hp
    split at hp
    next =>
      obtain ⟨m, -, hm⟩ := Option.map_eq_some_iff.1 hp
      rw [← hm, Sample.open_closed]
    next hout =>
      exact absurd (List.mem_map.2 ⟨p, List.mem_filter.2 ⟨mem_of_tget hp, by simpa using hlid⟩, rfl⟩) hout

/-- What the failure of an accepted grid leaves. -/
theorem State.failGrid_spec {s : State} {lid : Nat} {g : Grid} (hg : s.grid lid = some g) (ha : g.st = .accepted) (status : Nat)
    (rec : List Byte) :
    (∀ k, (s.failGrid lid status rec).blk k =
      (s.blk k).map fun b => if b.lid = lid then { b with st := .stopped false none 0 } else b) ∧
    (keysRise s.samples = true → ∀ p ∈ (s.failGrid lid status rec).samples, p.2.lid = lid → p.2.open' = false) := by
  have hfail : s.failGrid lid status rec = (s.markFailed lid status).flog g.fn rec := by
    rw [State.failGrid, hg]
    dsimp only
    rw [ha]
  obtain ⟨-, hblocks, -, hsamples⟩ := (s.markFailed lid status).homeSide_flog g.fn rec
  obtain ⟨hblk, hopen⟩ := s.markFailed_spec lid status
  rw [hfail, hsamples]
  exact ⟨fun k => (congrArg (tget · k) hblocks).trans (hblk k), hopen⟩

/-! ### Traps on the Fail path (R403, R408) -/

/-- A trap of the handler path fails the grid where no handler can take it and THALT does not halt the band first. -/
theorem State.handlerTrap_fails {s : State} {k n : Nat} {b : Block} {x : Band} (hb : s.blk k = some b) (hx : b.band n = some x)
    (hno : b.hbase = 0 ∨ x.inh = true) (hhalt : ¬(s.dbg b 4 = true ∧ x.dbgctl.getLsbD 2 = true ∧ x.inh = false)) (t : Trap)
    (async ovf : Bool) (pc : DWord) (act : List Nat) : s.handlerTrap k n t async ovf pc act = s.failTrap k n t async := by
  unfold State.handlerTrap State.enterHandler
  rw [hb]
  dsimp only
  rw [hx]
  dsimp only
  rw [if_neg (by simpa [and_assoc] using hhalt), if_pos hno]

/-- A synchronous trap that is no request for a page takes the handler path. -/
theorem State.syncTrap_eq_handlerTrap (s : State) (k n : Nat) {t : Trap} (pc : DWord) (act : List Nat) (hf : t.fail = false)
    (hpage : t.cls ≠ .page) (hstream : ¬(t.cls = .stream ∧ t.cause = 3)) :
    s.syncTrap k n t pc act = s.handlerTrap k n t false false pc act := by
  unfold State.syncTrap
  rw [hf, if_neg (by decide)]
  split
  next e => exact absurd e hpage
  next e => exact if_neg fun hc => hstream ⟨e, hc⟩
  next => rfl

/-- Settles O43: each of the traps takes the Fail path, which fails the block's grid with status 4. -/
theorem trapWithoutHandlerFails : Obligations.TrapWithoutHandlerFails := by
  unfold Obligations.TrapWithoutHandlerFails
  intro s k n t pc act b x g hb hx hg ha hcase
  have hpath : s.syncTrap k n t pc act = s.failTrap k n t := by
    cases hf : t.fail with
    | true => exact if_pos hf
    | false =>
      obtain ⟨hno, hpage, hstream, hhalt⟩ := hcase.resolve_left (by simp [hf])
      rw [s.syncTrap_eq_handlerTrap k n pc act hf hpage hstream, State.handlerTrap_fails hb hx hno hhalt]
  obtain ⟨rec, hfail⟩ : ∃ rec, s.failTrap k n t = s.failGrid b.lid 4 rec := ⟨_, by rw [State.failTrap, hb]⟩
  rw [hpath, hfail]
  obtain ⟨-, -, hst⟩ := s.failGrid_leaves b.lid 4 rec
  obtain ⟨hblk, hopen⟩ := State.failGrid_spec hg ha 4 rec
  refine ⟨by rw [hst g hg, if_pos ha], fun k' b' hb' hl => ?_, fun k' b' hb' hl => ?_, hopen⟩
  · rw [hblk, hb', Option.map_some, if_pos hl, Option.map_some]
  · rw [hblk, hb', Option.map_some, if_neg hl]

end Sys2Proof.Machine

/-! # Waits and rings -/

namespace Sys2Proof.Machine

open Sys2Proof

/-! ### The lanes of an issue are ready -/

/-- Preparing an issue takes its active lanes from the choice, and leaves the band's lanes as the choice found them. -/
theorem State.prepAt_go {s : State} {k n : Nat} {b : Block} {x : Band} {h : Hdr} {i : Instr} {ch : Choice} {y : Iss}
    (e : s.prepAt k n b x h i ch = .go y) : y.act = ch.active ∧ y.x.lanes = x.lanes := by
  unfold State.prepAt at e
  split at e
  · cases e
  · cases e
  split at e
  · cases e
  dsimp only at e
  split at e
  case h_6 =>
    split at e
    case h_6 =>
      cases e
      exact ⟨rfl, rfl⟩
    all_goals cases e
  all_goals cases e

/-- The active lanes of an issue are ready (R172). -/
theorem Issues.ready {i : Instr} {s : State} {y : Iss} (hy : Issues i s y) : ∀ l ∈ y.act, (y.x.lane l).st = .ready := by
  unfold Issues prep at hy
  split at hy
  next h b _ _ =>
    split at hy
    · cases hy
    next x _ =>
      split at hy
      · cases hy
      split at hy
      · cases hy
      next ch hch =>
        obtain ⟨hact, hlanes⟩ := State.prepAt_go hy
        intro l hl
        have hready := (Band.mem_readyLanes (Band.choose_active hch (hact ▸ hl)).1).1
        rw [Band.lane, hlanes]
        refine Eq.trans ?_ hready
        split
        · rw [Band.lane, List.getD_eq_getElem?_getD, List.getD_eq_getElem?_getD, List.getElem?_map]
          cases x.lanes[l]? <;> rfl
        · rfl
  · cases hy

/-! ### Passing, trapping and waiting -/

section

variable {i : Instr} {s : State} {y : Iss}

theorem passes_base (hy : Issues i s y) (e : exec i s = .next (y.finish y.base i [])) : Passes i s y y.base :=
  ⟨_, e, Iss.base_goes hy []⟩

/-- An instruction whose effect lies in its block's own registers passes. -/
theorem passes_modBlk (hy : Issues i s y) {f : Block → Block} (hf : ∀ b, (f b).bands = b.bands)
    (e : exec i s = .next (y.finish (y.base.modBlk y.k f) i [])) : Passes i s y (y.base.modBlk y.k f) := by
  have g := y.good hy
  obtain ⟨h, hi⟩ := y.hdr hy
  obtain ⟨hb, hx⟩ := g.base_band
  refine ⟨_, e, g.goes hi [] (c := f (y.b.setBand y.n y.x)) (z := y.x) ?_ ?_ rfl⟩
  · rw [State.blk_modBlk, hb, Option.map_some]
  · rw [Block.band, hf]
    exact hx

/-- What a wait at an instruction leaves: the executing lanes are blocked there, the other active ones go on (R370). -/
theorem Iss.waitLanes_spec (hy : Issues i s y) (w : Wait) :
    (∀ l ∈ y.ex, (y.laneIn (y.waitLanes i w) l).st = .blocked w ∧ (y.laneIn (y.waitLanes i w) l).pc = y.pc) ∧
    (∀ l ∈ y.act, l ∉ y.ex →
      (y.laneIn (y.waitLanes i w) l).pc = y.inLine i l ∧ (y.laneIn (y.waitLanes i w) l).st = .ready) ∧
    (∀ l, (y.laneIn (y.waitLanes i w) l).vregs = (y.x.lane l).vregs ∧
      (y.laneIn (y.waitLanes i w) l).preds = (y.x.lane l).preds) ∧
    ∀ k, k ≠ y.k → (y.waitLanes i w).blk k = y.s.blk k := by
  have g := y.good hy
  obtain ⟨h, hi⟩ := y.hdr hy
  obtain ⟨hbase, hx⟩ := g.base_band
  have hgo := Iss.base_goes hy []
  obtain ⟨hlane, -⟩ := hgo.bandIn hbase hx
  obtain ⟨b, b', x, z, hb, hb', -, -, -, hz, -, -⟩ := hgo.own
  have hin : y.bandIn (y.finish y.base i []) = z := Iss.bandIn_eq hb' hz
  have hlen : z.lanes.length = y.x.lanes.length := by rw [← hin, y.length_finish [] hi hbase hx]
  have hwait : ∀ l, y.laneIn (y.waitLanes i w) l =
      (z.modLanes y.ex fun _ l => { l with pc := y.pc, st := .blocked w }).lane l := fun l => by
    rw [Iss.laneIn, Iss.waitLanes, Iss.bandIn_eq (Iss.blk_modBand_self hb' _) (Block.band_modBand_self hz _)]
    rfl
  have hin' : ∀ l ∈ y.ex, y.laneIn (y.waitLanes i w) l = { z.lane l with pc := y.pc, st := .blocked w } := fun l hl => by
    rw [hwait, Band.lane_modLanes _ _ _ (hlen ▸ g.lt l (g.exAct l hl)), if_pos (by simpa using hl)]
  have hout : ∀ l, l ∉ y.ex → y.laneIn (y.waitLanes i w) l = z.lane l := fun l hl => by
    rw [hwait, Band.lane_modLanes_out _ _ _ hl]
  have hz' : ∀ l, z.lane l = if y.act.contains l then
      { y.x.lane l with pc := y.inLine i l, yieldMark := (z.lane l).yieldMark } else y.x.lane l := fun l => by
    have := hlane l
    rwa [Iss.laneIn, hin] at this
  have hregs : ∀ l, (z.lane l).vregs = (y.x.lane l).vregs ∧ (z.lane l).preds = (y.x.lane l).preds := fun l => by
    rw [hz']
    split <;> exact ⟨rfl, rfl⟩
  refine ⟨fun l hl => by rw [hin' l hl]; exact ⟨rfl, rfl⟩, fun l hl hn => ?_, fun l => ?_, fun k hk => ?_⟩
  · rw [hout l hn, hz', if_pos (by simpa using hl)]
    exact ⟨rfl, hy.ready l hl⟩
  · by_cases hl : l ∈ y.ex
    · rw [hin' l hl]
      exact hregs l
    · rw [hout l hl]
      exact hregs l
  · exact (State.blk_modBand_ne _ _ _ hk).trans ((hgo.others k hk).trans (State.blk_setBlk_ne _ _ hk))

end

/-! ### Waits of R370 and R385 -/

section

variable {h : Hdr} {s : State} {y : Iss}

theorem exec_waitc {o : Waitc} (hy : Issues (.waitc h o) s y) : exec (.waitc h o) s = .next
    (if y.ex.isEmpty || y.x.counter o.cls ≤ o.thr.toNat then y.finish y.base (.waitc h o) []
     else if o.cls = .mma ∧ isAnnex y.b.die = true then
      y.s.migrate y.k y.n false { cls := .migr, cause := 1, lane := lowest y.act }
     else y.waitLanes (.waitc h o) (.count o.cls o.thr.toNat)) := run_next hy _

theorem waitc_spec {o : Waitc} (hy : Issues (.waitc h o) s y) :
    (y.ex = [] ∨ y.x.counter o.cls ≤ o.thr.toNat → Passes (.waitc h o) s y y.base) ∧
    (y.ex ≠ [] → o.thr.toNat < y.x.counter o.cls →
      exec (.waitc h o) s = .next (if o.cls = .mma ∧ isAnnex y.b.die = true
        then y.s.migrate y.k y.n false { cls := .migr, cause := 1, lane := lowest y.act }
        else y.waitLanes (.waitc h o) (.count o.cls o.thr.toNat))) := by
  have e := exec_waitc hy
  refine ⟨fun hc => passes_base hy ?_, fun hx hc => ?_⟩
  · rw [e, if_pos (by simpa using hc)]
  · rw [e, if_neg (by simpa [hx] using hc)]

theorem cmdWait_spec {n : BitVec 6} (hy : Issues (.cmdWait h n) s y) :
    (y.ex = [] ∨ y.b.cmdPending y.x n.toNat = false → Passes (.cmdWait h n) s y y.base) ∧
    (y.ex ≠ [] → y.b.cmdPending y.x n.toNat = true →
      exec (.cmdWait h n) s = .next (y.waitLanes (.cmdWait h n) (.cmd n.toNat))) := by
  have e : exec (.cmdWait h n) s = .next (if y.ex.isEmpty || !y.b.cmdPending y.x n.toNat then
      y.finish y.base (.cmdWait h n) [] else y.waitLanes (.cmdWait h n) (.cmd n.toNat)) := run_next hy _
  refine ⟨fun hc => passes_base hy ?_, fun hx hc => ?_⟩
  · rw [e, if_pos (by simpa using hc)]
  · rw [e, if_neg (by simp [hx, hc])]

/-! ### Rings (R348 to R350, R380 to R383) -/

theorem ringWait_spec {o : RingWait} (hy : Issues (.ringWait h o) s y) (hx : y.ex ≠ []) :
    let t := y.b.ring o.r.toNat
    (t.s ≤ o.k.toNat → Traps (.ringWait h o) s y { cls := .fmt, lane := lowest y.act }) ∧
    (o.k.toNat < t.s → t.past (t.rel + o.k.setWidth 32) = true → Passes (.ringWait h o) s y y.base) ∧
    (o.k.toNat < t.s → t.past (t.rel + o.k.setWidth 32) = false →
      exec (.ringWait h o) s = .next (y.waitLanes (.ringWait h o) (.ring o.r.toNat o.k.toNat))) := by
  intro t
  have e : exec (.ringWait h o) s = .next (if t.s ≤ o.k.toNat then y.trap (y.once .fmt)
      else if t.past (t.rel + o.k.setWidth 32) then y.finish y.base (.ringWait h o) []
      else y.waitLanes (.ringWait h o) (.ring o.r.toNat o.k.toNat)) :=
    (run_next hy _).trans (congrArg _ (if_neg (by simpa using hx)))
  refine ⟨fun hs => ?_, fun hs hp => passes_base hy ?_, fun hs hp => ?_⟩
  · rw [Traps, e, if_pos hs]
    rfl
  · rw [e, if_neg (Nat.not_le.2 hs), if_pos hp]
  · rw [e, if_neg (Nat.not_le.2 hs), hp, if_neg (by decide)]

theorem ringRel_spec {o : RingRel} (hy : Issues (.ringRel h o) s y) (hx : y.ex ≠ []) :
    let t := y.b.ring o.r.toNat
    (t.fill = t.rel → Traps (.ringRel h o) s y { cls := .barbusy, lane := lowest y.act }) ∧
    (t.fill ≠ t.rel → y.s.orderReady y.b y.x .rel .blk = true →
      Passes (.ringRel h o) s y (y.base.modBlk y.k fun b => b.modRing o.r.toNat fun t => { t with rel := t.rel + 1 })) := by
  intro t
  have e : exec (.ringRel h o) s = .next (if t.fill = t.rel then y.trap (y.once .barbusy)
      else y.released .rel .blk (y.finish (y.base.modBlk y.k fun b => b.modRing o.r.toNat fun t => { t with rel := t.rel + 1 })
        (.ringRel h o) [])) :=
    (run_next hy _).trans (congrArg _ (if_neg (by simpa using hx)))
  refine ⟨fun ht => ?_, fun ht ho => passes_modBlk hy (fun _ => rfl) ?_⟩
  · rw [Traps, e, if_pos ht]
    rfl
  · rw [e, if_neg ht, Iss.released, ho, Bool.or_true, if_pos rfl]

theorem ringInit_spec {o : RingInit} (hy : Issues (.ringInit h o) s y) (hx : y.ex ≠ []) :
    let t := y.b.ring o.r.toNat
    let busy := t.rsv ≠ t.rel ∨ y.b.ringWaited o.r.toNat = true ∨
      (y.b.cmds.any fun c => c.p0.onRing o.r.toNat || c.p1.onRing o.r.toNat) = true
    let fits := o.base.toNat + o.slots.toNat * (256 * o.z.toNat) ≤ y.b.window
    (¬fits → Traps (.ringInit h o) s y { cls := .perm, lane := lowest y.act }) ∧
    (fits → busy → Traps (.ringInit h o) s y { cls := .barbusy, lane := lowest y.act }) ∧
    (fits → ¬busy → Passes (.ringInit h o) s y (y.base.modBlk y.k fun b => b.modRing o.r.toNat fun _ =>
      { s := o.slots.toNat, base := o.base.toNat, z := o.z.toNat })) := by
  intro t busy fits
  have e : exec (.ringInit h o) s = .next (
      if y.b.window < o.base.toNat + o.slots.toNat * (256 * o.z.toNat) then y.trap (y.once .perm)
      else if t.rsv ≠ t.rel ∨ y.b.ringWaited o.r.toNat = true ∨
        (y.b.cmds.any fun c => c.p0.onRing o.r.toNat || c.p1.onRing o.r.toNat) = true then y.trap (y.once .barbusy)
      else y.finish (y.base.modBlk y.k fun b => b.modRing o.r.toNat fun _ =>
        { s := o.slots.toNat, base := o.base.toNat, z := o.z.toNat }) (.ringInit h o) []) :=
    (run_next hy _).trans (congrArg _ (if_neg (by simpa using hx)))
  refine ⟨fun hf => ?_, fun hf hb => ?_, fun hf hb => passes_modBlk hy (fun _ => rfl) ?_⟩
  · rw [Traps, e, if_pos (Nat.not_le.1 hf)]
    rfl
  · rw [Traps, e, if_neg (Nat.not_lt.2 hf), if_pos hb]
    rfl
  · rw [e, if_neg (Nat.not_lt.2 hf), if_neg hb]

end

/-! ### Slots fill in reservation order (R349) -/

theorem Ring.fillUp_succ (t : Ring) (n : Nat) : t.fillUp (n + 1) = if t.done.contains t.fill.toNat then
    { t with fill := t.fill + 1, done := t.done.filter (· != t.fill.toNat) }.fillUp n else t := rfl

/-- The first slot to complete fills the ring when it is the next in order, and is noted otherwise. -/
theorem Ring.complete_first {t : Ring} (hd : t.done = []) (q : Word) :
    t.complete q = if q = t.fill then { t with fill := t.fill + 1 } else { t with done := [q.toNat] } := by
  simp only [Ring.complete, hd, List.nil_append, List.length_singleton, Ring.fillUp_succ, Ring.fillUp, List.contains_cons,
    List.contains_nil, Bool.or_false, beq_iff_eq, BitVec.toNat_inj, eq_comm (a := t.fill)]
  split
  next e => simp [e]
  next => rfl

/-- A slot that completes in its order takes along the next one, where that has completed before. -/
theorem Ring.complete_second {t : Ring} {q : Word} (hd : t.done = [q.toNat]) (hq : q ≠ t.fill) :
    (t.complete t.fill).fill = if q = t.fill + 1 then t.fill + 2 else t.fill + 1 := by
  have hne : q.toNat ≠ t.fill.toNat := fun e => hq (BitVec.eq_of_toNat_eq e)
  have hlist : [q.toNat, t.fill.toNat].filter (· != t.fill.toNat) = [q.toNat] := by simp [hne]
  simp only [Ring.complete, hd, List.singleton_append, List.length_cons, List.length_nil, Nat.zero_add, Ring.fillUp_succ,
    Ring.fillUp, hlist, List.contains_cons, List.contains_nil, Bool.or_false, beq_self_eq_true, Bool.or_true, if_true,
    beq_iff_eq, BitVec.toNat_inj, eq_comm (b := q)]
  split
  · exact BitVec.add_assoc ..
  · rfl

/-! ### Releases that have been waited for (R279) -/

/-- A lane that waits under a release whose condition holds. -/
def State.relGoes (s : State) (b : Block) (x : Band) (l : Lane) : Prop :=
  ∃ f sc, l.st = .blocked (.release f sc) ∧ s.orderReady b x f sc = true

theorem LaneSt.isRelease_iff (st : LaneSt) : st.isRelease = true ↔ ∃ f sc, st = .blocked (.release f sc) := by
  cases st with
  | blocked w => cases w <;> simp [LaneSt.isRelease]
  | ready => simp [LaneSt.isRelease]
  | parked j => simp [LaneSt.isRelease]
  | exited => simp [LaneSt.isRelease]

theorem State.wakeLane_release (s : State) (b : Block) (x : Band) {l : Lane} {f : FKind} {sc : Scope}
    (h : l.st = .blocked (.release f sc)) :
    s.wakeLane b x l = if s.orderReady b x f sc then { l with st := .ready } else l := by
  unfold State.wakeLane
  rw [h]
  rfl

theorem State.wakeLane_of_relGoes {s : State} {b : Block} {x : Band} {l : Lane} (h : s.relGoes b x l) :
    l.st.isRelease = true ∧ s.wakeLane b x l = { l with st := .ready } := by
  obtain ⟨f, sc, hst, ho⟩ := h
  exact ⟨(LaneSt.isRelease_iff _).2 ⟨f, sc, hst⟩, by rw [s.wakeLane_release b x hst, if_pos ho]⟩

theorem State.wakeLane_of_not_relGoes {s : State} {b : Block} {x : Band} {l : Lane} (h : ¬s.relGoes b x l)
    (hr : l.st.isRelease = true) : s.wakeLane b x l = l := by
  obtain ⟨f, sc, hst⟩ := (LaneSt.isRelease_iff _).1 hr
  rw [s.wakeLane_release b x hst, if_neg fun ho => h ⟨f, sc, hst, ho⟩]

/-- A band whose lanes under a release have been looked at. -/
def State.wakeReleases (s : State) (b : Block) (x y : Band) : Band :=
  { y with lanes := y.lanes.map fun l => if l.st.isRelease then s.wakeLane b x l else l }

theorem State.lane_wakeReleases (s : State) (b : Block) (x : Band) {l : Nat} (hl : l < x.lanes.length) :
    (s.relGoes b x (x.lane l) → (s.wakeReleases b x x).lane l = { x.lane l with st := .ready }) ∧
      (¬s.relGoes b x (x.lane l) → (s.wakeReleases b x x).lane l = x.lane l) := by
  have hlane : (s.wakeReleases b x x).lane l =
      if (x.lane l).st.isRelease then s.wakeLane b x (x.lane l) else x.lane l := by
    simp only [State.wakeReleases, Band.lane, List.getD_eq_getElem?_getD, List.getElem?_map, List.getElem?_eq_getElem hl,
      Option.map_some, Option.getD_some]
  rw [hlane]
  refine ⟨fun hg => ?_, fun hg => ?_⟩
  · obtain ⟨hr, hw⟩ := State.wakeLane_of_relGoes hg
    rw [if_pos hr, hw]
  · split
    next hr => exact State.wakeLane_of_not_relGoes hg hr
    next => rfl

theorem releaseWait_spec {s : State} {k n : Nat} {b : Block} {x : Band} (hb : s.blk k = some b) (hx : b.band n = some x)
    (hh : x.halted = false) (hgo : ∃ l ∈ x.lanes, s.relGoes b x l) : ∃ t x', exec (.releaseWait k n) s = .next t ∧
      t.mem = s.mem ∧ ((t.blk k).bind fun b => b.band n) = some x' ∧ x' = { x with lanes := x'.lanes } ∧
      ∀ l, l < x.lanes.length → (s.relGoes b x (x.lane l) → x'.lane l = { x.lane l with st := .ready }) ∧
        (¬s.relGoes b x (x.lane l) → x'.lane l = x.lane l) := by
  have hany : (x.lanes.any fun l => l.st.isRelease && (s.wakeLane b x l).st == .ready) = true := by
    obtain ⟨l, hl, hg⟩ := hgo
    obtain ⟨hr, hw⟩ := State.wakeLane_of_relGoes hg
    exact List.any_eq_true.2 ⟨l, hl, by simp [hr, hw]⟩
  refine ⟨s.modBand k n (s.wakeReleases b x), s.wakeReleases b x x, ?_, rfl, State.band_modBand_self hb hx _, rfl,
    fun l => s.lane_wakeReleases b x⟩
  show execReleaseWait k n s = _
  unfold execReleaseWait
  rw [hb, Option.bind_some, hx, Option.map_some]
  dsimp only
  rw [hh, hany]
  rfl

/-- Settles O38: each instruction by the branch that its condition takes, the rings by their filling, and the lanes under a
release by what wakes them. -/
theorem waitsAndRings : Obligations.WaitsAndRings := by
  unfold Obligations.WaitsAndRings
  refine ⟨fun i s y w hy => ?_, fun h s y => ⟨fun o => waitc_spec, fun n => cmdWait_spec, fun o => ringWait_spec,
    fun o => ringRel_spec, fun o => ringInit_spec⟩, fun t q hd => ?_, fun s k n b x hb hx => releaseWait_spec hb hx⟩
  · obtain ⟨hin, hout, hregs, hoth⟩ := Iss.waitLanes_spec hy w
    exact ⟨hin, hout, hregs, y.mem_waitLanes i w, hoth⟩
  · rw [Ring.complete_first hd]
    refine ⟨by split <;> rfl, by split <;> rfl, by split <;> rfl, fun hq => ?_⟩
    rw [if_neg hq]
    exact Ring.complete_second (t := { t with done := [q.toNat] }) rfl hq

end Sys2Proof.Machine

/-! # Bytes that firmware writes

What work at homes and in stacks leaves of the queues, contexts, keys and channels, and that bytes once written under a key
stand there (R486 to R491): with that, what a completion record reads (R207). -/

namespace Sys2Proof.Machine

open Sys2Proof

/-! ### Queues, contexts, keys and dead channels -/

/-- Contexts, queues and launch identifiers are the same, and so are the keys' generations and the channels that are dead. -/
structure State.Firm (s t : State) : Prop where
  ctxs : t.ctxs = s.ctxs
  lastLid : t.lastLid = s.lastLid
  queues : ∀ f, (t.fn f).queues = (s.fn f).queues
  keyGen : ∀ kid, t.keyGen kid = s.keyGen kid
  deadAt : ∀ pa, t.deadAt pa = s.deadAt pa

namespace State.Firm

theorem of_eq {s t : State} (hc : t.ctxs = s.ctxs) (hl : t.lastLid = s.lastLid) (hf : t.fns = s.fns) (hr : t.root = s.root)
    (hch : t.channels = s.channels) : s.Firm t where
  ctxs := hc
  lastLid := hl
  queues := fun f => by rw [State.fn, hf, State.fn]
  keyGen := fun kid => by rw [State.keyGen, hr, State.keyGen]
  deadAt := fun pa => by rw [State.deadAt, hch, State.deadAt]

theorem refl (s : State) : s.Firm s := of_eq rfl rfl rfl rfl rfl

theorem trans {s t u : State} (h : s.Firm t) (h' : t.Firm u) : s.Firm u where
  ctxs := h'.ctxs.trans h.ctxs
  lastLid := h'.lastLid.trans h.lastLid
  queues := fun f => (h'.queues f).trans (h.queues f)
  keyGen := fun kid => (h'.keyGen kid).trans (h.keyGen kid)
  deadAt := fun pa => (h'.deadAt pa).trans (h.deadAt pa)

/-- A function is put back with its queues. -/
theorem setFn {s : State} {f : Nat} {x : Fn} (h : x.queues = (s.fn f).queues) : s.Firm (s.setFn f x) := by
  refine ⟨rfl, rfl, fun g => ?_, fun _ => rfl, fun _ => rfl⟩
  rw [State.fn, State.setFn, tget_tset]
  split
  next e => rw [e]; exact h
  next => rfl

end State.Firm

/-- Work that also leaves every byte, and every codeword under its key, as it was. -/
structure State.Sealed (s t : State) : Prop extends s.Firm t where
  mem : t.mem = s.mem
  key : ∀ n c, tget s.cw n = some c → ∃ c', tget t.cw n = some c' ∧ c'.kid = c.kid ∧ c'.gen = c.gen

namespace State.Sealed

/-- Work that touches neither tags nor bytes. -/
theorem of_cw {s t : State} (h : s.Firm t) (hm : t.mem = s.mem) (hc : t.cw = s.cw) : s.Sealed t where
  toFirm := h
  mem := hm
  key := fun _ c hn => ⟨c, by rw [hc]; exact hn, rfl, rfl⟩

theorem refl (s : State) : s.Sealed s := of_cw (.refl s) rfl rfl

theorem trans {s t u : State} (h : s.Sealed t) (h' : t.Sealed u) : s.Sealed u where
  toFirm := h.toFirm.trans h'.toFirm
  mem := h'.mem.trans h.mem
  key := fun n c hc => by
    obtain ⟨c', hc', hk, hg⟩ := h.key n c hc
    obtain ⟨c'', hc'', hk', hg'⟩ := h'.key n c' hc'
    exact ⟨c'', hc'', hk'.trans hk, hg'.trans hg⟩

theorem foldl {α : Type} (f : State → α → State) (hf : ∀ (s : State) a, s.Sealed (f s a)) (l : List α) (s : State) :
    s.Sealed (l.foldl f s) := by
  induction l generalizing s with
  | nil => exact refl s
  | cons a l ih => exact (hf s a).trans (ih _)

/-- A channel is put back, dead or alive as before. -/
theorem setChannel {s t : State} (h : s.Sealed t) {ch : Nat} {c : Channel}
    (hc : c.dead = ((tget s.channels ch).getD {}).dead) :
    s.Sealed { t with channels := tset s.channels ch c } where
  ctxs := h.ctxs
  lastLid := h.lastLid
  queues := h.queues
  keyGen := h.keyGen
  mem := h.mem
  key := h.key
  deadAt := fun pa => by
    refine congrArg (isDev pa && ·) ?_
    dsimp only
    rw [tget_tset]
    split
    next e =>
      rw [e, Option.map_some, Option.getD_some, hc]
      cases tget s.channels ch <;> rfl
    next => rfl

end State.Sealed

theorem Channel.dead_push (c : Channel) (r : StackReq) : (c.push r).dead = c.dead := rfl

section

variable (s : State)

theorem State.sealed_setCore (c : Nat) (k : Core) : s.Sealed (s.setCore c k) :=
  .of_cw (.of_eq rfl rfl rfl rfl rfl) rfl rfl

theorem State.sealed_setHome (line : Nat) (h : HomeLine) : s.Sealed (s.setHome line h) :=
  .of_cw (.of_eq rfl rfl rfl rfl rfl) rfl rfl

theorem State.sealed_rearrive (p : Nat → Bool) : s.Sealed (s.rearrive p) :=
  .of_cw (.of_eq rfl rfl rfl rfl rfl) rfl rfl

theorem State.sealed_send (src dest : Router) (cls : PktCls) (lid : Nat) (blk : Option (Nat × Nat)) (m : Msg) :
    s.Sealed (s.send src dest cls lid blk m) :=
  .of_cw (.of_eq rfl rfl rfl rfl rfl) rfl rfl

theorem State.sealed_deviceAsk (lines : List Nat) : s.Sealed (s.deviceAsk lines) := by
  obtain ⟨ps, n, e⟩ := s.deviceAsk_eq lines
  rw [e]
  exact .of_cw (.of_eq rfl rfl rfl rfl rfl) rfl rfl

theorem State.firm_flog (f : Nat) (rec : List Byte) : s.Firm (s.flog f rec) := by
  unfold State.flog
  dsimp only
  split
  · exact .setFn rfl
  · exact .refl s

theorem State.sealed_noteDirty (kid pa : Nat) : s.Sealed (s.noteDirty kid pa) := by
  unfold State.noteDirty
  split
  · exact .refl s
  · dsimp only
    split
    · exact .of_cw (.setFn rfl) rfl rfl
    · exact .refl s

/-- A mark changes the poison of a codeword alone; one without a tag gets one under the key of the write. -/
theorem State.sealed_markWrite (a : Nat) (r : StackReq) : s.Sealed (s.markWrite a r) := by
  refine .foldl _ (fun t j => ?_) _ s
  dsimp only
  split
  · refine ⟨.of_eq rfl rfl rfl rfl rfl, rfl, fun n c hc => ?_⟩
    by_cases e : n = a / 64 * 2 + j
    · subst e
      exact ⟨_, tget_tset_self .., by rw [hc]; rfl, by rw [hc]; rfl⟩
    · exact ⟨c, (tget_tset_ne _ _ e).trans hc, rfl, rfl⟩
  · exact .refl t

theorem State.sealed_writeUnit (a kid : Nat) (mask : BitVec 64) (data : List Byte) (f : StackFor) :
    s.Sealed (s.writeUnit a kid mask data f) :=
  (s.sealed_markWrite a _).trans (.setChannel (.refl _) (Channel.dead_push ..))

theorem State.sealed_maskedUnit (work : StackFor) (kid pa : Nat) (bs : List Byte) : s.Sealed (s.maskedUnit work kid pa bs) := by
  unfold State.maskedUnit
  dsimp only
  split
  · exact .refl s
  split
  · split
    · exact .setChannel (s.sealed_markWrite ..) (Channel.dead_push ..)
    · exact s.sealed_writeUnit ..
  · exact s.sealed_writeUnit ..

theorem State.sealed_maskedWrite (work : StackFor) (kid pa : Nat) (bs : List Byte) :
    s.Sealed (s.maskedWrite work kid pa bs) := .foldl _ (fun _ _ => State.sealed_maskedUnit ..) _ s

theorem State.sealed_ownedBack (work : StackFor) (line : Nat) (mask : BitVec 128) :
    s.Sealed (s.ownedBack work line mask) := by
  unfold State.ownedBack
  split
  · exact .refl s
  · refine .foldl _ (fun t j => ?_) _ s
    dsimp only
    split
    · exact .refl t
    · exact t.sealed_writeUnit ..

/-- A recall changes who holds the line, and no byte. -/
theorem State.sealed_recallNow (line lid : Nat) : s.Sealed (s.recallNow line lid) := by
  unfold State.recallNow
  extract_lets u
  have hu : s.Sealed u := by
    dsimp only [u]
    split
    · exact .of_cw (.of_eq rfl rfl rfl rfl rfl) rfl rfl
    · exact .refl s
  refine hu.trans ?_
  split
  · exact .refl u
  · exact (u.sealed_setCore ..).trans ((State.sealed_setHome ..).trans ((State.sealed_rearrive ..).trans
      ((State.sealed_ownedBack ..).trans (State.sealed_send ..))))

/-! ### One byte written under a key -/

theorem State.firm_underKey (kid pa : Nat) : s.Firm (s.underKey kid pa) := by
  unfold State.underKey
  split
  · exact .refl s
  split
  · exact .of_eq rfl rfl rfl rfl rfl
  split
  · exact .refl s
  · exact .of_eq rfl rfl rfl rfl rfl

theorem State.firm_pokeByte (kid pa w a : Nat) (v : Byte) : s.Firm (s.pokeByte kid pa w a v) := by
  unfold State.pokeByte
  split
  · exact .refl s
  · obtain ⟨hc, hl, hq, hk, hd⟩ := s.firm_underKey kid pa
    exact ⟨hc, hl, hq, hk, hd⟩

theorem State.firm_pokeBytes (kid pa w a : Nat) (bs : List Byte) : s.Firm (s.pokeBytes kid pa w a bs) := by
  induction bs generalizing s pa with
  | nil => exact .refl s
  | cons b bs ih => exact (s.firm_pokeByte kid pa w a b).trans (ih ..)

end

/-- A byte stands at an address for reads under a key: host memory has none, and a codeword is under the key as it is now. -/
structure State.Stands (s : State) (kid q : Nat) (v : Byte) : Prop where
  byte : mget s.mem q = v
  key : isHost q = true ∨ ∃ c, tget s.cw (q / 32) = some c ∧ c.kid = kid ∧ c.gen = s.keyGen kid

theorem State.Stands.rdByte {s : State} {kid q : Nat} {v : Byte} (h : s.Stands kid q v) : s.rdByte kid q = v := by
  obtain ⟨hb, hk⟩ := h
  unfold State.rdByte
  split
  · exact hb
  next c hc =>
    rw [if_pos, hb]
    obtain hh | ⟨c', hc', hkey⟩ := hk
    · exact .inl hh
    · obtain rfl := Option.some.inj (hc.symm.trans hc')
      exact .inr hkey

theorem State.Sealed.stands {s t : State} (h : s.Sealed t) {kid q : Nat} {v : Byte} (hq : s.Stands kid q v) :
    t.Stands kid q v where
  byte := by rw [h.mem]; exact hq.byte
  key := hq.key.imp_right fun ⟨c, hc, hk, hg⟩ => by
    obtain ⟨c', hc', hk', hg'⟩ := h.key _ _ hc
    exact ⟨c', hc', hk'.trans hk, by rw [hg', hg, h.keyGen]⟩

/-- The bytes of a codeword all lie in host memory or none does. -/
theorem isHost_of_codeword {p q : Nat} (h : q / 32 = p / 32) : isHost q = isHost p := by
  rw [Bool.eq_iff_iff]
  simp only [isHost, Bool.and_eq_true, decide_eq_true_eq]
  omega

/-- Bringing a codeword under a key keeps what stands under that key. -/
theorem State.Stands.underKey {s : State} (hw : Memory.wf s.mem = true) {kid q : Nat} {v : Byte} (h : s.Stands kid q v)
    (pa : Nat) : (s.underKey kid pa).Stands kid q v := by
  obtain ⟨hb, hk⟩ := h
  unfold State.underKey
  split
  · exact ⟨hb, hk⟩
  next hh =>
    have hne : ∀ {c}, tget s.cw (pa / 32) = c → (∀ t, c = some t → ¬(t.kid = kid ∧ t.gen = s.keyGen kid)) →
        isHost q = true ∨ q / 32 ≠ pa / 32 := fun hc hbad => by
      by_cases e : q / 32 = pa / 32
      · rw [isHost_of_codeword e]
        obtain hq | ⟨t, ht, hkey⟩ := hk
        · rw [isHost_of_codeword e] at hq
          exact .inl hq
        · rw [e, hc] at ht
          exact absurd hkey (hbad t ht)
      · exact .inr e
    have retag : (isHost q = true ∨ q / 32 ≠ pa / 32) → ∀ t : CwTag, isHost q = true ∨ ∃ c,
        tget (tset s.cw (pa / 32) t) (q / 32) = some c ∧ c.kid = kid ∧ c.gen = s.keyGen kid := fun hq t => by
      obtain hq | hq := hq
      · exact .inl hq
      · rw [tget_tset_ne _ _ hq]
        exact hk
    split
    next hc => exact ⟨hb, retag (hne hc nofun) _⟩
    next t hc =>
      split
      · exact ⟨hb, hk⟩
      next hbad =>
        have hq := hne hc fun t' ht' => by
          obtain rfl := Option.some.inj ht'
          exact hbad
        refine ⟨?_, retag hq _⟩
        refine (mget_mwrite hw ..).trans ((if_neg fun hin => ?_).trans hb)
        have hlen : (s.rd kid (32 * (pa / 32)) 32).length = 32 := rfl
        have e : q / 32 = pa / 32 := by omega
        rw [isHost_of_codeword e] at hq
        exact hq.elim hh fun hq => hq e

/-- A write puts its codeword under its key. -/
theorem State.key_underKey (s : State) (kid pa : Nat) : isHost pa = true ∨
    ∃ c, tget (s.underKey kid pa).cw (pa / 32) = some c ∧ c.kid = kid ∧ c.gen = (s.underKey kid pa).keyGen kid := by
  rw [(s.firm_underKey kid pa).keyGen]
  unfold State.underKey
  split
  next h => exact .inl h
  · refine .inr ?_
    split
    · exact ⟨_, tget_tset_self .., rfl, rfl⟩
    next t ht =>
      split
      next hk => exact ⟨t, ht, hk⟩
      · exact ⟨_, tget_tset_self .., rfl, rfl⟩

section

variable {s : State} {kid : Nat}

/-- A byte written to a live channel stands there. -/
theorem State.stands_pokeByte (hw : Memory.wf s.mem = true) {pa : Nat} (hd : s.deadAt pa = false) (w a : Nat) (v : Byte) :
    (s.pokeByte kid pa w a v).Stands kid pa v := by
  unfold State.pokeByte
  rw [hd, if_neg (by decide)]
  refine ⟨?_, s.key_underKey kid pa⟩
  exact (mget_mset (State.wf_underKey hw kid pa) pa pa v).trans (if_pos rfl)

/-- A byte written under a key leaves what stands at other addresses under it. -/
theorem State.Stands.pokeByte (hw : Memory.wf s.mem = true) {q : Nat} {v : Byte} (h : s.Stands kid q v) {pa : Nat} (hne : q ≠ pa)
    (w a : Nat) (u : Byte) : (s.pokeByte kid pa w a u).Stands kid q v := by
  unfold State.pokeByte
  split
  · exact h
  · obtain ⟨hb, hk⟩ := h.underKey hw pa
    exact ⟨(mget_mset (State.wf_underKey hw kid pa) pa q u).trans ((if_neg hne).trans hb), hk⟩

theorem State.Stands.pokeBytes {q : Nat} {v : Byte} (bs : List Byte) {s : State} (hw : Memory.wf s.mem = true)
    (h : s.Stands kid q v) {pa : Nat} (hne : q < pa ∨ pa + bs.length ≤ q) (w a : Nat) :
    (s.pokeBytes kid pa w a bs).Stands kid q v := by
  induction bs generalizing s pa with
  | nil => exact h
  | cons b bs ih =>
    rw [List.length_cons] at hne
    exact ih (State.wf_pokeByte hw ..) (h.pokeByte hw (by omega) w a b) (by omega)

/-- Bytes written to live channels stand there. -/
theorem State.stands_pokeBytes (bs : List Byte) {s : State} (hw : Memory.wf s.mem = true) {pa : Nat}
    (hd : ∀ j, j < bs.length → s.deadAt (pa + j) = false) (w a : Nat) :
    ∀ j, j < bs.length → (s.pokeBytes kid pa w a bs).Stands kid (pa + j) (bs.getD j 0) := by
  induction bs generalizing s pa with
  | nil => exact nofun
  | cons b bs ih =>
    intro j hj
    have hf := s.firm_pokeByte kid pa w a b
    cases j with
    | zero =>
      exact (State.stands_pokeByte hw (hd 0 hj) w a b).pokeBytes bs (State.wf_pokeByte hw ..) (by omega) w a
    | succ j =>
      have hrest := ih (State.wf_pokeByte hw kid pa w a b) (pa := pa + 1) (fun i hi => by
        rw [hf.deadAt, Nat.add_assoc, Nat.add_comm 1 i]
        exact hd (i + 1) (Nat.succ_lt_succ hi)) j (Nat.lt_of_succ_lt_succ hj)
      rwa [Nat.add_assoc, Nat.add_comm 1 j] at hrest

end

/-! ### A write of firmware at a home -/

/-- The store and the masked writes of one write of firmware (R471, R490). -/
def State.firmWrite (s : State) (kid pa : Nat) (bs : List Byte) : State :=
  (s.homeStore kid pa bs).1.maskedWrite (.work 0 0 0 0) kid pa bs

section

variable {s : State} {kid pa : Nat} {bs : List Byte}

/-- After the recall of the line and its bytes, only work of the home is left. -/
theorem State.firmWrite_eq (s : State) (kid pa : Nat) (bs : List Byte) : ∃ u w a, s.Sealed u ∧
    (u.pokeBytes kid pa w a bs).Sealed (s.firmWrite kid pa bs) :=
  ⟨s.recallNow (lineOf pa) 0, _, _, s.sealed_recallNow .., ((State.sealed_noteDirty _ kid pa).trans
    (State.sealed_setHome ..)).trans (State.sealed_maskedWrite ..)⟩

theorem State.firm_firmWrite (s : State) (kid pa : Nat) (bs : List Byte) : s.Firm (s.firmWrite kid pa bs) := by
  obtain ⟨u, w, a, hu, ht⟩ := s.firmWrite_eq kid pa bs
  exact hu.toFirm.trans ((u.firm_pokeBytes kid pa w a bs).trans ht.toFirm)

theorem State.wf_firmWrite (hw : Memory.wf s.mem = true) : Memory.wf (s.firmWrite kid pa bs).mem = true := by
  obtain ⟨u, w, a, hu, ht⟩ := s.firmWrite_eq kid pa bs
  rw [ht.mem]
  exact State.wf_pokeBytes (by rw [hu.mem]; exact hw) ..

theorem State.stands_firmWrite (hw : Memory.wf s.mem = true) (hd : ∀ j, j < bs.length → s.deadAt (pa + j) = false) :
    ∀ j, j < bs.length → (s.firmWrite kid pa bs).Stands kid (pa + j) (bs.getD j 0) := by
  obtain ⟨u, w, a, hu, ht⟩ := s.firmWrite_eq kid pa bs
  exact fun j hj => ht.stands (State.stands_pokeBytes bs (by rw [hu.mem]; exact hw)
    (fun j hj => (hu.deadAt _).trans (hd j hj)) w a j hj)

theorem State.Stands.firmWrite (hw : Memory.wf s.mem = true) {q : Nat} {v : Byte} (h : s.Stands kid q v)
    (hne : q < pa ∨ pa + bs.length ≤ q) : (s.firmWrite kid pa bs).Stands kid q v := by
  obtain ⟨u, w, a, hu, ht⟩ := s.firmWrite_eq kid pa bs
  exact ht.stands ((hu.stands h).pokeBytes bs (by rw [hu.mem]; exact hw) hne w a)

end

/-! ### The completion record (R207) -/

theorem State.rd_of_stands {s : State} {kid : Nat} (bs : List Byte) {pa : Nat}
    (h : ∀ j, j < bs.length → s.Stands kid (pa + j) (bs.getD j 0)) : s.rd kid pa bs.length = bs := by
  induction bs generalizing pa with
  | nil => rfl
  | cons b bs ih =>
    have hb : s.rdByte kid pa = b := (h 0 (Nat.succ_pos _)).rdByte
    rw [List.length_cons, State.rd, hb, ih fun j hj => ?_]
    · have := h (j + 1) (Nat.succ_lt_succ hj)
      rwa [← Nat.add_assoc, Nat.add_right_comm] at this

/-- Sixteen bytes whose first and last lie in live channels all do: they touch two lines at most. -/
theorem State.deadAt_between {s : State} {pa : Nat} (hfst : s.deadAt pa = false) (hlst : s.deadAt (pa + 15) = false) {j : Nat}
    (hj : j < 16) : s.deadAt (pa + j) = false := by
  have same : ∀ {p q : Nat}, p / 128 = q / 128 → s.deadAt p = s.deadAt q := fun {p q} h => by
    have hch : channelOf p = channelOf q := by
      unfold channelOf
      omega
    have hdev : isDev p = isDev q := by
      rw [Bool.eq_iff_iff]
      simp only [isDev, decide_eq_true_eq]
      omega
    rw [State.deadAt, State.deadAt, hch, hdev]
  by_cases h : (pa + j) / 128 = pa / 128
  · rw [same h, hfst]
  · rw [same (show (pa + j) / 128 = (pa + 15) / 128 by omega), hlst]

theorem leBytes_mod (n v : Nat) : leBytes n (v % 256 ^ n) = leBytes n v := by
  induction n generalizing v with
  | zero => rfl
  | succ n ih =>
    have hmod : BitVec.ofNat 8 (v % 256 ^ (n + 1)) = BitVec.ofNat 8 v := by
      apply BitVec.eq_of_toNat_eq
      rw [BitVec.toNat_ofNat, BitVec.toNat_ofNat, show (2 : Nat) ^ 8 = 256 from rfl, Nat.pow_succ,
        Nat.mod_mul_left_mod]
    have hdiv : v % 256 ^ (n + 1) / 256 = v / 256 % 256 ^ n := by
      rw [Nat.pow_succ, Nat.mul_comm, Nat.mod_mul_right_div_self]
    rw [leBytes, leBytes, hmod, hdiv, ih]

/-- The bytes of a record: DONEVAL, the status, and the launch identifier. -/
def recordBytes (p : Packet) (lid status : Nat) : List Byte :=
  leBytes 8 p.doneVal.toNat ++ (leBytes 4 status ++ leBytes 4 lid)

/-- A record that can be written reads back (R207): its status word is written first, then DONEVAL. -/
theorem State.rd_writeRecord {s : State} (hw : Memory.wf s.mem = true) {f asid lid : Nat} {p : Packet} (hp : p.doneAddr ≠ 0)
    {x : Xl} (hx : s.fwXlate f asid none .write p.doneAddr.toNat = .ok x) (hfst : s.deadAt x.pa = false)
    (hlst : s.deadAt (x.pa + 15) = false) (status : Nat) :
    (s.writeRecord f asid lid p status).rd x.kid x.pa 16 = recordBytes p lid status := by
  obtain ⟨u, hu⟩ : ∃ u, u = s.deviceAsk [lineOf x.pa] := ⟨_, rfl⟩
  have hsu : s.Sealed u := hu ▸ s.sealed_deviceAsk _
  have hwrite : s.writeRecord f asid lid p status =
      (u.firmWrite x.kid (x.pa + 8) (leBytes 4 status ++ leBytes 4 lid)).firmWrite x.kid x.pa (leBytes 8 p.doneVal.toNat) := by
    unfold State.writeRecord
    rw [if_neg hp, hx, hu]
    rfl
  have hlen : (leBytes 4 status ++ leBytes 4 lid).length = 8 := by
    rw [List.length_append, length_leBytes, length_leBytes]
  have hwu : Memory.wf u.mem = true := by rw [hsu.mem]; exact hw
  obtain ⟨v, hv⟩ : ∃ v, v = u.firmWrite x.kid (x.pa + 8) (leBytes 4 status ++ leBytes 4 lid) := ⟨_, rfl⟩
  have hwv : Memory.wf v.mem = true := hv ▸ State.wf_firmWrite hwu
  have hdead : ∀ j, j < 16 → u.deadAt (x.pa + j) = false ∧ v.deadAt (x.pa + j) = false := fun j hj => by
    rw [hv, (u.firm_firmWrite ..).deadAt, hsu.deadAt, and_self]
    exact State.deadAt_between hfst hlst hj
  have hstat : ∀ j, j < 8 → v.Stands x.kid (x.pa + 8 + j) ((leBytes 4 status ++ leBytes 4 lid).getD j 0) := fun j hj =>
    hv ▸ State.stands_firmWrite hwu (fun i hi => by rw [Nat.add_assoc]; exact (hdead _ (by omega)).1) j (hlen.symm ▸ hj)
  rw [hwrite, ← hv]
  refine State.rd_of_stands (recordBytes p lid status) fun j hj => ?_
  have hj : j < 16 := hj
  by_cases h8 : j < 8
  · rw [recordBytes, List.getD_append _ _ _ _ (by rw [length_leBytes]; exact h8)]
    refine State.stands_firmWrite hwv (fun i hi => ?_) j (by rw [length_leBytes]; exact h8)
    rw [length_leBytes] at hi
    exact (hdead i (by omega)).2
  · obtain ⟨i, rfl⟩ : ∃ i, j = 8 + i := ⟨j - 8, by omega⟩
    rw [recordBytes, List.getD_append_right _ _ _ _ (by rw [length_leBytes]; omega), length_leBytes, Nat.add_sub_cancel_left,
      ← Nat.add_assoc]
    exact (hstat i (by omega)).firmWrite hwv (.inr (by rw [length_leBytes]; omega))

theorem State.firm_writeRecord (s : State) (f asid lid : Nat) (p : Packet) (status : Nat) :
    s.Firm (s.writeRecord f asid lid p status) := by
  unfold State.writeRecord
  split
  · exact .refl s
  split
  · exact s.firm_flog ..
  · exact .refl s
  · exact (s.sealed_deviceAsk _).toFirm.trans ((State.firm_firmWrite ..).trans (State.firm_firmWrite ..))

end Sys2Proof.Machine

/-! # Launch queues -/

namespace Sys2Proof.Machine

open Sys2Proof

/-! ### LQCTL (R188, R190, R209) -/

/-- The fields of LQCTL read as they were put in. -/
theorem Queue.reads_ctl {q : Queue} {en err dlx : Bool} {logn code dclass : Nat}
    (h : q.lqctl = Queue.ctl en err logn code dclass dlx) (hl : logn < 16) (hc : code < 16) (hd : dclass < 8) :
    q.en = en ∧ q.err = err ∧ q.logn = logn ∧ q.errcode = code ∧ q.dclass = dclass ∧ q.dlx = dlx := by
  have hen : en.toNat < 2 := Bool.toNat_lt _
  have herr : err.toNat < 2 := Bool.toNat_lt _
  have hdlx : dlx.toNat < 2 := Bool.toNat_lt _
  have bit : ∀ (b : Bool) (n i : Nat), n / 2 ^ i % 2 = b.toNat → n.testBit i = b := fun b n i e => by
    rw [Nat.testBit_eq_decide_div_mod_eq, e]
    cases b <;> rfl
  have field : ∀ lo n, (q.lqctl.extractLsb' lo n).toNat = (en.toNat + err.toNat * 2 + logn * 2 ^ 2 + code * 2 ^ 8 +
      dclass * 2 ^ 12 + dlx.toNat * 2 ^ 15) % 2 ^ 32 / 2 ^ lo % 2 ^ n := fun lo n => by
    rw [h, BitVec.extractLsb'_toNat, Queue.ctl, BitVec.toNat_ofNat, Nat.shiftRight_eq_div_pow]
  have flag : ∀ lo, q.lqctl.getLsbD lo = ((en.toNat + err.toNat * 2 + logn * 2 ^ 2 + code * 2 ^ 8 +
      dclass * 2 ^ 12 + dlx.toNat * 2 ^ 15) % 2 ^ 32).testBit lo := fun lo => by
    rw [h, Queue.ctl, BitVec.getLsbD, BitVec.toNat_ofNat]
  refine ⟨(flag 0).trans (bit _ _ _ ?_), (flag 1).trans (bit _ _ _ ?_), (field 2 4).trans ?_, (field 8 4).trans ?_,
    (field 12 3).trans ?_, (flag 15).trans (bit _ _ _ ?_)⟩ <;> omega

theorem Queue.logn_lt (q : Queue) : q.logn < 16 := BitVec.isLt _

theorem Queue.errcode_lt (q : Queue) : q.errcode < 16 := BitVec.isLt _

theorem Queue.dclass_lt (q : Queue) : q.dclass < 8 := BitVec.isLt _

/-- What a disabled queue reads. -/
theorem Queue.reads_disable (q : Queue) {code : Nat} (hc : code < 16) :
    (q.disable code).en = false ∧ (q.disable code).err = true ∧ (q.disable code).errcode = code := by
  obtain ⟨hen, herr, -, hcode, -⟩ := Queue.reads_ctl (q := q.disable code) rfl q.logn_lt hc q.dclass_lt
  exact ⟨hen, herr, hcode⟩

/-- A write that sets EN: ERR is cleared where the write says so, then LOGN is tested, then LQCTX (log entry 27). -/
theorem Queue.writeCtl_en (q : Queue) {v : Word} (hv : v.getLsbD 0 = true) :
    let y := q.writeCtl v
    let err := q.err && !v.getLsbD 1
    let logn := if q.en then q.logn else (v.extractLsb' 2 4).toNat
    y.logn = logn ∧ y.dclass = (v.extractLsb' 12 3).toNat ∧ y.dlx = v.getLsbD 15 ∧
      (if err = true then y.en = false ∧ y.err = true
        else if logn < 4 ∨ 12 < logn then y.en = false ∧ y.err = true ∧ y.errcode = 4
        else if q.desc = 0 then y.en = false ∧ y.err = true ∧ y.errcode = 6
        else y.en = true ∧ y.err = false) := by
  intro y err logn
  have hlogn : logn < 16 := by
    dsimp only [logn]
    split
    · exact q.logn_lt
    · exact BitVec.isLt _
  have put : ∀ (en err : Bool) (code : Nat), code < 16 →
      y.lqctl = Queue.ctl en err logn code (v.extractLsb' 12 3).toNat (v.getLsbD 15) →
      (y.logn = logn ∧ y.dclass = (v.extractLsb' 12 3).toNat ∧ y.dlx = v.getLsbD 15) ∧
        y.en = en ∧ y.err = err ∧ y.errcode = code := fun en err code hc h => by
    obtain ⟨hen, herr, hl, hcode, hd, hx⟩ := Queue.reads_ctl h hlogn hc (BitVec.isLt _)
    exact ⟨⟨hl, hd, hx⟩, hen, herr, hcode⟩
  have hy : y = if !v.getLsbD 0 || err then
      { q with lqctl := Queue.ctl false err logn q.errcode (v.extractLsb' 12 3).toNat (v.getLsbD 15) }
    else if logn < 4 || 12 < logn then
      { q with lqctl := Queue.ctl false true logn 4 (v.extractLsb' 12 3).toNat (v.getLsbD 15) }
    else if q.desc = 0 then
      { q with lqctl := Queue.ctl false true logn 6 (v.extractLsb' 12 3).toNat (v.getLsbD 15) }
    else { q with lqctl := Queue.ctl true false logn q.errcode (v.extractLsb' 12 3).toNat (v.getLsbD 15) } := rfl
  rw [hv, Bool.not_true, Bool.false_or] at hy
  by_cases herr : err = true
  · rw [if_pos herr] at hy
    obtain ⟨⟨hl, hd, hx⟩, hen, he, -⟩ := put false err q.errcode q.errcode_lt (by rw [hy])
    exact ⟨hl, hd, hx, by rw [if_pos herr]; exact ⟨hen, he.trans herr⟩⟩
  rw [if_neg herr] at hy ⊢
  by_cases hr : logn < 4 ∨ 12 < logn
  · rw [if_pos (by simpa using hr)] at hy
    obtain ⟨⟨hl, hd, hx⟩, hread⟩ := put false true 4 (by decide) (by rw [hy])
    exact ⟨hl, hd, hx, by rw [if_pos hr]; exact hread⟩
  rw [if_neg (by simpa using hr)] at hy
  rw [if_neg hr]
  by_cases hdesc : q.desc = 0
  · rw [if_pos hdesc] at hy
    obtain ⟨⟨hl, hd, hx⟩, hread⟩ := put false true 6 (by decide) (by rw [hy])
    exact ⟨hl, hd, hx, by rw [if_pos hdesc]; exact hread⟩
  · rw [if_neg hdesc] at hy
    obtain ⟨⟨hl, hd, hx⟩, hen, he, -⟩ := put true false q.errcode q.errcode_lt (by rw [hy])
    exact ⟨hl, hd, hx, by rw [if_neg hdesc]; exact ⟨hen, he⟩⟩

/-- A write that clears ERR and EN. -/
theorem Queue.writeCtl_clear (q : Queue) {v : Word} (hv : v.getLsbD 1 = true) (h0 : v.getLsbD 0 = false) :
    (q.writeCtl v).en = false ∧ (q.writeCtl v).err = false := by
  have hlogn : (if q.en then q.logn else (v.extractLsb' 2 4).toNat) < 16 := by
    split
    · exact q.logn_lt
    · exact BitVec.isLt _
  have hy : (q.writeCtl v).lqctl = Queue.ctl false false (if q.en then q.logn else (v.extractLsb' 2 4).toNat) q.errcode
      (v.extractLsb' 12 3).toNat (v.getLsbD 15) := by
    unfold Queue.writeCtl
    dsimp only
    rw [hv, h0, Bool.not_true, Bool.and_false]
    rfl
  obtain ⟨hen, herr, -⟩ := Queue.reads_ctl hy hlogn q.errcode_lt (BitVec.isLt _)
  exact ⟨hen, herr⟩

/-- A doorbell stores its index; one that announces more packets than the ring holds disables the queue (R189). -/
theorem Queue.doorbell_spec (q : Queue) (v : Word) :
    let y := q.doorbell v
    y.lqdb = v &&& 0xFFFF ∧ y.lqrd = q.lqrd ∧ y.lqbase = q.lqbase ∧ y.lqctx = q.lqctx ∧
      (if 2 ^ q.logn < (v.toNat % 2 ^ 16 + 2 ^ 16 - q.rptr) % 2 ^ 16 then y.en = false ∧ y.err = true ∧ y.errcode = 3
        else y.lqctl = q.lqctl) := by
  intro y
  obtain ⟨z, hz⟩ : ∃ z : Queue, z = { q with lqdb := v &&& 0xFFFF } := ⟨_, rfl⟩
  have hused : z.used = (v.toNat % 2 ^ 16 + 2 ^ 16 - q.rptr) % 2 ^ 16 := by
    have hmask : (v &&& 0xFFFF).toNat % 2 ^ 16 = v.toNat % 2 ^ 16 := by
      rw [BitVec.toNat_and, show (0xFFFF : Word).toNat = 2 ^ 16 - 1 from rfl, Nat.and_two_pow_sub_one_eq_mod, Nat.mod_mod]
    rw [hz, Queue.used, Queue.wptr, hmask]
    rfl
  have hlogn : z.logn = q.logn := by rw [hz]; rfl
  have hy : y = if 2 ^ z.logn < z.used then z.disable 3 else z := by rw [hz]; rfl
  rw [hlogn, hused] at hy
  split at hy
  next h =>
    rw [if_pos h, hy]
    exact ⟨by rw [hz]; rfl, by rw [hz]; rfl, by rw [hz]; rfl, by rw [hz]; rfl, z.reads_disable (by decide)⟩
  next h =>
    rw [if_neg h, hy, hz]
    exact ⟨rfl, rfl, rfl, rfl, rfl⟩

/-! ### What a change of a queue leaves alone -/

/-- Memory, blocks and grids are the same, and so is every function but one. -/
def State.Aside (f : Nat) (s t : State) : Prop :=
  t.mem = s.mem ∧ t.blocks = s.blocks ∧ t.grids = s.grids ∧ ∀ g, g ≠ f → t.fn g = s.fn g

theorem State.aside_modQueue (s : State) (f q : Nat) (h : Queue → Queue) : State.Aside f s (s.modQueue f q h) := by
  refine ⟨rfl, rfl, rfl, fun g hg => ?_⟩
  exact congrArg (Option.getD · ({} : Fn)) (tget_tset_ne s.fns _ hg)

/-- A queue whose packet at the read index is consumed (R191). -/
def Queue.consumed (x : Queue) : Queue := { x with lqrd := (x.lqrd + 1) &&& 0xFFFF }

/-- Consuming a packet moves the read index; beside that the dispatcher's read sends packets. -/
theorem State.consume_eq (s : State) (f q : Nat) : ∃ ps n, s.consume f q =
    State.modQueue { s with net := s.net ++ ps, serial := n } f q Queue.consumed := by
  obtain ⟨ps, n, e⟩ := s.deviceAsk_eq [lineOf ((s.fn f).queue q).slot]
  exact ⟨ps, n, by rw [State.consume, e]; rfl⟩

theorem State.aside_consume (s : State) (f q : Nat) : State.Aside f s (s.consume f q) := by
  obtain ⟨ps, n, e⟩ := s.consume_eq f q
  rw [e]
  exact State.aside_modQueue { s with net := s.net ++ ps, serial := n } f q _

theorem State.queue_consume (s : State) (f q : Nat) : ((s.consume f q).fn f).queue q = ((s.fn f).queue q).consumed := by
  obtain ⟨ps, n, e⟩ := s.consume_eq f q
  rw [e, State.queue_modQueue]
  rfl

/-! ### The host's writes (R188, R189, R504) -/

section

variable {s : State} {f q : Nat}

/-- An access that does not carry the T bit of a locked function is refused. -/
theorem State.hostAccess_refused (hl : s.locked f = true) (o : Host.Outcome State Fault Refusal) :
    s.hostAccess ⟨f, false⟩ o = .next s := if_pos (by simp [State.unsupported, hl])

theorem State.hostAccess_taken {tee : Bool} (h : s.locked f = false ∨ tee = true) (o : Host.Outcome State Fault Refusal) :
    s.hostAccess ⟨f, tee⟩ o = o := by
  refine if_neg ?_
  obtain h | h := h <;> simp [State.unsupported, h]

theorem execLqdbDoorbell_taken (hq : q < numQueues) {tee : Bool} (h : s.locked f = false ∨ tee = true) (v : Word) :
    execLqdbDoorbell ⟨f, tee⟩ q v s = if (s.fn f).lmQuiesce then .next s else .next (s.modQueue f q fun x => x.doorbell v) := by
  rw [execLqdbDoorbell, State.hostAccess_taken h, if_neg (Nat.not_le.2 hq)]

theorem execLqctlEn_taken (hq : q < numQueues) {tee : Bool} (h : s.locked f = false ∨ tee = true) {v : Word}
    (hv : v.getLsbD 0 = true) : execLqctlEn ⟨f, tee⟩ q v s = .next (s.modQueue f q fun x => x.writeCtl v) := by
  rw [execLqctlEn, State.hostAccess_taken h, if_neg (by simpa [hv] using hq)]

theorem execLqctlErrClear_taken (hq : q < numQueues) {tee : Bool} (h : s.locked f = false ∨ tee = true) {v : Word}
    (hv : v.getLsbD 1 = true) : execLqctlErrClear ⟨f, tee⟩ q v s = .next (s.modQueue f q fun x => x.writeCtl v) := by
  rw [execLqctlErrClear, State.hostAccess_taken h, if_neg (by simpa [hv] using hq)]

end

/-! ### Acceptance and refusal (R191, R193, R194) -/

/-- Making a context resident leaves grids, functions and launch identifiers alone. -/
theorem State.makeCtx_leaves {s t : State} {f desc asid : Nat} (h : s.makeCtx f desc = some (t, asid)) :
    t.grids = s.grids ∧ t.fns = s.fns ∧ t.lastLid = s.lastLid := by
  unfold State.makeCtx at h
  split at h
  · cases h
    exact ⟨rfl, rfl, rfl⟩
  split at h
  next root ranges a _ _ =>
    obtain ⟨ps, n, e⟩ := s.deviceAsk_eq (descLines desc)
    rw [e] at h
    cases h
    exact ⟨rfl, rfl, rfl⟩
  · cases h

/-- A resident context is found again. -/
theorem State.makeCtx_of_ctxOf {s : State} {f desc asid : Nat} (h : s.ctxOf f desc = some asid) :
    s.makeCtx f desc = some (s, asid) := by rw [State.makeCtx, h]

section

variable {s : State} {f q : Nat} {p : Packet}

/-- A line that nothing holds lets an access of the device through. -/
theorem State.atGate_of_free {l : Nat} (h : s.LineFree l) (what : String) (o : Host.Outcome State Fault Refusal) :
    s.atGate what l o = o := by
  obtain ⟨hq, hh, ho⟩ := h
  have hgate : s.deviceGate l = .go s := by
    rw [State.deviceGate, hq, if_neg (by decide), hh, if_neg (by decide), ho]
  rw [State.atGate, hgate]

/-- Nothing keeps the refusal of a packet whose record can be written. -/
theorem State.onRefusal_of_free (h : ∀ u asid, p.doneAddr.toNat % 16 = 0 →
      s.makeCtx f ((s.fn f).queue q).desc = some (u, asid) →
      u.recordLoan f asid p = none ∧ ∀ l, u.recordLine f asid p = some l → s.LineFree l)
    (o : Host.Outcome State Fault Refusal) : s.onRefusal f q p o = o := by
  unfold State.onRefusal
  by_cases ha : p.doneAddr.toNat % 16 = 0
  · rw [if_neg (not_not.2 ha)]
    cases hc : s.makeCtx f ((s.fn f).queue q).desc with
    | none => rfl
    | some r =>
      obtain ⟨u, asid⟩ := r
      obtain ⟨hloan, hline⟩ := h u asid ha hc
      dsimp only
      rw [hloan]
      cases hl : u.recordLine f asid p with
      | none => rfl
      | some l => exact State.atGate_of_free (hline l hl) _ o
  · rw [if_pos ha]

/-- A refusal consumes its packet and disables the queue; no grid is made (R193). -/
theorem State.refuse_leaves (s : State) (f q : Nat) (p : Packet) (status : Nat) :
    (s.refuse f q p status).grids = s.grids ∧ (s.refuse f q p status).lastLid = s.lastLid ∧
      ((s.refuse f q p status).fn f).queue q = ((s.fn f).queue q).consumed.disable 1 := by
  obtain ⟨u, hu⟩ : ∃ u, u = (s.consume f q).modQueue f q fun x => x.disable 1 := ⟨_, rfl⟩
  have hug : u.grids = s.grids := by
    obtain ⟨-, -, hg, -⟩ := s.aside_consume f q
    rw [hu]
    exact hg
  have hul : u.lastLid = s.lastLid := by
    obtain ⟨ps, n, e⟩ := s.consume_eq f q
    rw [hu, e]
    rfl
  have huq : (u.fn f).queue q = ((s.fn f).queue q).consumed.disable 1 := by
    rw [hu, State.queue_modQueue, State.queue_consume]
  have later : ∀ v w : State, v.grids = u.grids → v.fns = u.fns → v.lastLid = u.lastLid → v.HomeSide w → v.Firm w →
      w.grids = s.grids ∧ w.lastLid = s.lastLid ∧ (w.fn f).queue q =
        ((s.fn f).queue q).consumed.disable 1 := fun v w hg hf hl hh hw => by
    refine ⟨hh.grids.trans (hg.trans hug), hw.lastLid.trans (hl.trans hul), ?_⟩
    have hfn : v.fn f = u.fn f := by rw [State.fn, hf, State.fn]
    rw [Fn.queue, hw.queues, hfn]
    exact huq
  unfold State.refuse
  dsimp only
  rw [← hu]
  split
  · exact later u u rfl rfl rfl (.refl u) (.refl u)
  split
  · exact later u _ rfl rfl rfl (u.homeSide_flog ..) (u.firm_flog ..)
  next v asid hv =>
    obtain ⟨hg, hf, hl⟩ := State.makeCtx_leaves hv
    exact later v _ hg hf hl (v.homeSide_writeRecord ..) (v.firm_writeRecord ..)

/-- The row of an accepted packet. -/
def Packet.grid (p : Packet) (s : State) (f q asid : Nat) : Grid :=
  { lid := s.lastGrid + 1, orig := s.lastLid + 1, fn := f, q, asid, pkt := p, dclass := ((s.fn f).queue q).dclass
    dlx := ((s.fn f).queue q).dlx }

/-- A packet whose context is resident is accepted into the next row, under the next launch identifier (R194). -/
theorem State.accept_of_ctxOf {asid : Nat} (hc : s.ctxOf f ((s.fn f).queue q).desc = some asid) (p : Packet) :
    s.accept f q p = { s.consume f q with
      lastLid := s.lastLid + 1, lastGrid := s.lastGrid + 1
      grids := tset s.grids (s.lastGrid + 1) (p.grid s f q asid) } := by
  obtain ⟨ps, n, e⟩ := s.consume_eq f q
  have hctx : State.makeCtx { s.consume f q with lastLid := s.lastLid + 1, lastGrid := s.lastGrid + 1 } f
      ((s.fn f).queue q).desc = some ({ s.consume f q with lastLid := s.lastLid + 1, lastGrid := s.lastGrid + 1 }, asid) := by
    refine State.makeCtx_of_ctxOf (Eq.trans ?_ hc)
    rw [e]
    rfl
  unfold State.accept
  dsimp only
  rw [hctx, e]
  rfl

theorem State.acceptType_accepts {type : Nat} (hn : s.nextPacket f q = .packet p) (ht : p.type = type) (h0 : type ≠ 0)
    (hr : s.refusal p = none) (what : String) : s.acceptType f q type what = .next (s.accept f q p) := by
  rw [State.acceptType, hn]
  dsimp only
  rw [hr, if_neg (by simp [ht]), if_neg h0]

/-- A launch, a marker and a context update that are not refused are accepted by their events. -/
theorem exec_accepts {i : Instr} (hn : s.nextPacket f q = .packet p) (hr : s.refusal p = none)
    (hi : (i = .launchPacket f q ∧ p.type = 1) ∨ (i = .markerPacket f q ∧ p.type = 2) ∨
      (i = .contextUpdatePacket f q ∧ p.type = 3)) : exec i s = .next (s.accept f q p) := by
  obtain ⟨rfl, ht⟩ | ⟨rfl, ht⟩ | ⟨rfl, ht⟩ := hi
  · show execLaunchPacket f q s = _
    rw [execLaunchPacket, hn]
    dsimp only
    rw [hr]
    exact if_pos ht
  · exact State.acceptType_accepts hn ht (by decide) hr _
  · exact State.acceptType_accepts hn ht (by decide) hr _

theorem exec_noopPacket (hn : s.nextPacket f q = .packet p) (ht : p.type = 0) (hz : p.reservedZero = true) :
    exec (.noopPacket f q) s = .next (s.consume f q) := by
  have hr : s.refusal p = none := by
    rw [State.refusal, ht, hz, if_neg (by decide), if_pos rfl]
  show s.acceptType f q 0 "NOOP_PACKET" = _
  rw [State.acceptType, hn]
  dsimp only
  rw [hr, if_neg (by simp [ht]), if_pos rfl]

end

/-! ### Markers and context updates (R195, R196, R207) -/

/-- A walk reads neither packets nor grids. -/
theorem State.walk_congr (s : State) (ps : List Pkt) (n : Nat) (gs : Tbl Grid) (asid : Nat) (own : Option Nat) (va m table : Nat) :
    State.walk { s with net := ps, serial := n, grids := gs } asid own va m table = s.walk asid own va m table := by
  induction m generalizing table with
  | zero => rfl
  | succ m ih =>
    unfold State.walk
    dsimp only
    rw [ih]
    rfl

/-- Nor does a translation for firmware. -/
theorem State.fwXlate_congr (s : State) (ps : List Pkt) (n : Nat) (gs : Tbl Grid) (f asid : Nat) (own : Option Nat) (k : AKind)
    (va : Nat) : State.fwXlate { s with net := ps, serial := n, grids := gs } f asid own k va = s.fwXlate f asid own k va := by
  unfold State.fwXlate State.xlateAll State.xlate
  simp only [State.walk_congr]
  rfl

/-- The record of a grid's completion reads in `t` as R207 has it, where the translations of `u` and the channels and memory of
`s` let it be written. -/
def Grid.Recorded (g : Grid) (s u t : State) (status : Nat) : Prop := g.pkt.doneAddr = 0 ∨ ∀ y : Xl, Memory.wf s.mem = true →
  u.fwXlate g.fn g.asid none .write g.pkt.doneAddr.toNat = .ok y → s.deadAt y.pa = false →
  s.deadAt (y.pa + 15) = false → t.rd y.kid y.pa 16 =
    leBytes 8 g.pkt.doneVal.toNat ++ leBytes 4 status ++ leBytes 4 (g.orig % 2 ^ 32)

/-- The completion of a packet writes its record, whatever packets and numbers the dispatcher's reads have added. -/
theorem State.finishPacket_records {s u : State} (hm : u.mem = s.mem) (hd : ∀ pa, u.deadAt pa = s.deadAt pa) (g : Grid)
    (ps : List Pkt) (n : Nat) (status : Nat) :
    g.Recorded s u (State.finishPacket { u with net := ps, serial := n } g status) status := by
  by_cases ha : g.pkt.doneAddr = 0
  · exact .inl ha
  refine .inr fun y hw hy hfst hlst => ?_
  have hx := (State.fwXlate_congr u ps n (tmod u.grids g.lid fun g => { g with st := .complete status }) g.fn g.asid none .write
    g.pkt.doneAddr.toNat).trans hy
  refine (State.rd_writeRecord (lid := g.orig) (by exact hm ▸ hw) ha hx ((hd _).trans hfst) ((hd _).trans hlst) status).trans ?_
  rw [recordBytes, List.append_assoc, show (2 : Nat) ^ 32 = 256 ^ 4 from rfl, leBytes_mod]

section

variable {s : State} {g : Grid} {lid type : Nat}

theorem State.grid_of_packetTurn (h : s.packetTurn lid type = some g) : s.grid lid = some g :=
  (Option.filter_eq_some_iff.1 h).1

theorem State.grid_finishPacket {u : State} (h : u.grid g.lid = some g) (status : Nat) :
    ((u.finishPacket g status).grid g.lid).map Grid.st = some (.complete status) := by
  rw [(u.finishPacket_leaves g status).2, if_pos rfl, h]
  rfl

/-- A marker whose dependences hold, or fault, completes (R195). -/
theorem execMarkerCompletion_completes (ht : s.packetTurn g.lid 2 = some g) (hf : s.RecordFree g.fn g.asid g.pkt) {d : Dep}
    {status : Nat} (hd : s.deps g = d) (hs : (d = .holds ∧ status = 0) ∨ (d = .fault ∧ status = 7)) :
    ∃ t, exec (.markerCompletion g.lid) s = .next t ∧ (t.grid g.lid).map Grid.st = some (.complete status) ∧
      g.Recorded s s t status := by
  obtain ⟨ps, n, e⟩ := s.deviceAsk_eq (s.depLines g)
  have hexec : exec (.markerCompletion g.lid) s =
      .next (State.finishPacket { s with net := s.net ++ ps, serial := n } g status) := by
    show execMarkerCompletion g.lid s = _
    rw [execMarkerCompletion, ht]
    dsimp only
    rw [State.onRecord_of_free hf, hd, e]
    obtain ⟨rfl, rfl⟩ | ⟨rfl, rfl⟩ := hs <;> rfl
  exact ⟨_, hexec,
    State.grid_finishPacket (u := { s with net := s.net ++ ps, serial := n }) (State.grid_of_packetTurn ht) status,
    State.finishPacket_records rfl (fun _ => rfl) g _ n status⟩

/-- A context update whose dependences fault completes with status 7 (R196). -/
theorem execContextUpdate_faults (ht : s.packetTurn g.lid 3 = some g) (hf : s.RecordFree g.fn g.asid g.pkt)
    (hd : s.deps g = .fault) : ∃ t, exec (.contextUpdate g.lid) s = .next t ∧
      (t.grid g.lid).map Grid.st = some (.complete 7) ∧ g.Recorded s s t 7 := by
  have hexec : exec (.contextUpdate g.lid) s = .next (s.finishPacket g 7) := by
    show execContextUpdate g.lid s = _
    rw [execContextUpdate, ht]
    dsimp only
    rw [State.onRecord_of_free hf, hd]
  exact ⟨_, hexec, State.grid_finishPacket (State.grid_of_packetTurn ht) 7,
    State.finishPacket_records rfl (fun _ => rfl) g s.net s.serial 7⟩

/-- A context with a new root and new ranges, whose old translations are gone (R196). -/
def State.reloaded (s : State) (asid : Nat) (c : Ctx) (root : Nat) (ranges : List RangeSet) : State :=
  State.tlbDrop { s with ctxs := tset s.ctxs asid { c with root, ranges } } fun e => e.asid == asid

/-- A context update whose dependences hold takes the descriptor's fields (R196). -/
theorem execContextUpdate_updates (ht : s.packetTurn g.lid 3 = some g) (hf : s.RecordFree g.fn g.asid g.pkt)
    (hd : s.deps g = .holds) {c : Ctx} {root : Nat} {ranges : List RangeSet} (hc : s.ctx g.asid = some c)
    (hr : s.readDesc c.desc = some (root, ranges)) (hq : s.ctxQuiet g.asid = true) (hh : s.descHeld c.desc = false) :
    ∃ t, exec (.contextUpdate g.lid) s = .next t ∧ t.ctx g.asid = some { c with root, ranges } ∧
      (t.grid g.lid).map Grid.st = some (.complete 0) ∧ g.Recorded s (s.reloaded g.asid c root ranges) t 0 := by
  obtain ⟨ps, n, e⟩ := s.deviceAsk_eq (s.depLines g ++ descLines c.desc)
  have hloan : s.descLoan c.desc = none := by
    rw [State.descHeld, Option.isSome_eq_false_iff, Option.isNone_iff_eq_none] at hh
    exact hh
  obtain ⟨u, hu⟩ : ∃ u, u = s.reloaded g.asid c root ranges := ⟨_, rfl⟩
  have hexec : exec (.contextUpdate g.lid) s =
      .next (State.finishPacket { u with net := s.net ++ ps, serial := n } g 0) := by
    show execContextUpdate g.lid s = _
    rw [execContextUpdate, ht]
    dsimp only
    rw [State.onRecord_of_free hf, hd, hc]
    dsimp only
    rw [hloan, hr]
    dsimp only
    rw [hq, if_neg (by decide), e, hu]
    rfl
  refine ⟨_, hexec, ?_, State.grid_finishPacket (u := { u with net := s.net ++ ps, serial := n })
    (by rw [hu]; exact State.grid_of_packetTurn ht) 0, ?_⟩
  · have hctx : (State.finishPacket { u with net := s.net ++ ps, serial := n } g 0).ctxs = u.ctxs :=
      (State.firm_writeRecord _ g.fn g.asid g.orig g.pkt 0).ctxs
    rw [State.ctx, hctx, hu]
    exact tget_tset_self ..
  · rw [← hu]
    exact State.finishPacket_records (by rw [hu]; rfl) (fun _ => by rw [hu]; rfl) g _ n 0

end

/-! ### The obligation -/

/-- Settles O53: the host's writes by what LQCTL and a doorbell put into the queue's registers, packets by what refusal and
acceptance leave, completions by what the record reads once it has been written. -/
theorem queuesTakePackets : Obligations.QueuesTakePackets := by
  unfold Obligations.QueuesTakePackets
  intro s f q x quiet
  refine ⟨fun hq v tee => ⟨?_, fun ha => ⟨?_, ?_, ?_, ?_⟩⟩, fun hn => ?_, fun p hn => ⟨?_, ?_, ?_⟩, ?_⟩
  · rintro hl rfl
    exact ⟨State.hostAccess_refused hl _, State.hostAccess_refused hl _, State.hostAccess_refused hl _⟩
  · intro hm
    exact (execLqdbDoorbell_taken hq ha v).trans (if_pos hm)
  · intro hm
    refine ⟨_, (execLqdbDoorbell_taken hq ha v).trans (if_neg (by simp [hm])), s.aside_modQueue f q _, ?_⟩
    rw [State.queue_modQueue]
    exact x.doorbell_spec v
  · intro hv
    refine ⟨_, execLqctlEn_taken hq ha hv, s.aside_modQueue f q _, ?_⟩
    rw [State.queue_modQueue]
    exact x.writeCtl_en hv
  · intro hv
    refine ⟨_, execLqctlErrClear_taken hq ha hv, s.aside_modQueue f q _, fun h0 => ?_⟩
    rw [State.queue_modQueue]
    exact x.writeCtl_clear hv h0
  · refine ⟨s.modQueue f q fun x => x.disable 5, ?_, s.aside_modQueue f q _, ?_⟩
    · show execLaunchPacket f q s = _
      rw [execLaunchPacket, hn]
    · rw [State.queue_modQueue]
      exact x.reads_disable (by decide)
  · intro ht hz
    exact ⟨_, exec_noopPacket hn ht hz, s.aside_consume f q, s.queue_consume f q⟩
  · intro st hst hfree
    obtain ⟨hg, hl, hqueue⟩ := s.refuse_leaves f q p st
    refine ⟨s.refuse f q p st, ?_, hg, hl, ?_⟩
    · show execLaunchPacket f q s = _
      rw [execLaunchPacket, hn]
      dsimp only
      rw [hst]
      exact State.onRefusal_of_free hfree _
    · rw [hqueue]
      exact ⟨rfl, Queue.reads_disable _ (by decide)⟩
  · intro i asid hr hi hc
    obtain ⟨hmem, hblocks, -, -⟩ := s.aside_consume f q
    refine ⟨_, p.grid s f q asid, exec_accepts hn hr hi, ?_⟩
    rw [State.accept_of_ctxOf hc]
    exact ⟨hmem, hblocks, rfl, s.queue_consume f q, tget_tset_self .., rfl, rfl, rfl, rfl, rfl, rfl, rfl, rfl, rfl, rfl, rfl,
      fun l hl => tget_tset_ne _ _ hl⟩
  · rintro lid g rfl
    exact ⟨fun ht hf => ⟨fun hd => execMarkerCompletion_completes ht hf hd (.inl ⟨rfl, rfl⟩),
        fun hd => execMarkerCompletion_completes ht hf hd (.inr ⟨rfl, rfl⟩)⟩,
      fun ht hf => ⟨fun c root ranges hd hc hr hq hh => execContextUpdate_updates ht hf hd hc hr hq hh,
        execContextUpdate_faults ht hf⟩⟩

end Sys2Proof.Machine

/-! # Barrier phases -/

namespace Sys2Proof.Machine

open Sys2Proof

theorem Barrier.tryComplete_of_none_gone {t : Barrier} (hg : t.gone = []) (now : Nat) :
    t.tryComplete now = if t.cnt ≤ t.arr ∧ t.cpy = 0 then
      { t with part := [], pend := [], gen := t.gen + 1, arr := 0, stamps := t.stamps ++ [now] } else t := by
  simp [Barrier.tryComplete, hg]

/-- A phase that a copy holds open. -/
theorem Barrier.tryComplete_of_copy {t : Barrier} (hc : t.cpy ≠ 0) (now : Nat) : t.tryComplete now = t := by
  rw [Barrier.tryComplete, if_neg fun h => hc h.2]

theorem Barrier.arrive_of_pending {t : Barrier} {u : Nat} (hu : u ∈ t.pend) (now : Nat) : t.arrive u now = t := by
  simp [Barrier.arrive, hu]

theorem Barrier.arrive_of_not_pending {t : Barrier} {u : Nat} (hu : u ∉ t.pend) (now : Nat) :
    t.arrive u now = { t with pend := t.pend ++ [u], arr := t.arr + 1 }.tryComplete now := by
  simp [Barrier.arrive, hu]

theorem Barrier.gen_arrive_of_copy {t : Barrier} (hc : t.cpy ≠ 0) (u now : Nat) : (t.arrive u now).gen = t.gen := by
  by_cases hu : u ∈ t.pend
  · rw [t.arrive_of_pending hu]
  · rw [t.arrive_of_not_pending hu, Barrier.tryComplete_of_copy (by exact hc)]

/-- Arrivals that do not reach the count are noted, and no more. -/
theorem Barrier.foldl_arrive_of_lt {t : Barrier} (hg : t.gone = []) (now : Nat) {us : List Nat}
    (hn : (t.pend ++ us).Nodup) (hlt : t.arr + us.length < t.cnt) :
    us.foldl (fun t u => t.arrive u now) t = { t with pend := t.pend ++ us, arr := t.arr + us.length } := by
  induction us generalizing t with
  | nil => simp
  | cons u us ih =>
    rw [List.length_cons] at hlt
    have hu : u ∉ t.pend := fun hu => List.disjoint_of_nodup_append hn hu List.mem_cons_self
    have hopen : t.arrive u now = { t with pend := t.pend ++ [u], arr := t.arr + 1 } := by
      rw [t.arrive_of_not_pending hu, Barrier.tryComplete_of_none_gone (by exact hg), if_neg (by dsimp only; omega)]
    rw [List.foldl_cons, hopen, ih (by exact hg) (by simpa using hn) (by dsimp only; omega)]
    simp only [List.append_assoc, List.singleton_append, List.length_cons, Nat.add_assoc, Nat.add_comm 1]

/-- The arrival that reaches the count completes the phase. -/
theorem Barrier.arrive_last {t : Barrier} {u : Nat} (hg : t.gone = []) (hc : t.cpy = 0) (hu : u ∉ t.pend)
    (hl : t.cnt = t.arr + 1) (now : Nat) :
    t.arrive u now = { t with part := [], pend := [], gen := t.gen + 1, arr := 0, stamps := t.stamps ++ [now] } := by
  rw [t.arrive_of_not_pending hu, Barrier.tryComplete_of_none_gone (by exact hg), if_pos ⟨hl.le, hc⟩]

/-- Settles O23: the arrivals before the last are noted, and the last one completes the phase. -/
theorem barrierPhases : Obligations.BarrierPhases := by
  unfold Obligations.BarrierPhases
  refine ⟨?_, fun t u now hc => t.gen_arrive_of_copy hc u now, fun t u now hu => t.arrive_of_pending hu now⟩
  intro t us now hn hp ha hg hc hcnt r
  refine ⟨fun hlt => ?_, fun hall => ?_⟩
  · have hr : r = { t with pend := t.pend ++ us, arr := t.arr + us.length } :=
      Barrier.foldl_arrive_of_lt hg now (by simpa [hp] using hn) (by omega)
    simp [hr, hp, ha]
  · obtain rfl | ⟨vs, u, rfl⟩ := List.eq_nil_or_concat' us
    · exact absurd hall hcnt.ne
    have hlen : vs.length + 1 = t.cnt := by simpa using hall
    obtain ⟨hvs, -, hu⟩ := List.nodup_append.1 hn
    have hopen : vs.foldl (fun t u => t.arrive u now) t = { t with pend := t.pend ++ vs, arr := t.arr + vs.length } :=
      Barrier.foldl_arrive_of_lt hg now (by simpa [hp] using hvs) (by omega)
    have hnew : u ∉ t.pend ++ vs := by
      rw [hp, List.nil_append]
      exact fun hm => hu u hm u (List.mem_singleton_self u) rfl
    have hr : r = { t with part := [], pend := [], gen := t.gen + 1, arr := 0, stamps := t.stamps ++ [now] } := by
      dsimp only [r]
      rw [List.foldl_append, hopen]
      exact Barrier.arrive_last (t := { t with pend := t.pend ++ vs, arr := t.arr + vs.length }) hg hc hnew
        (by dsimp only; omega) now
    rw [hr]
    exact ⟨rfl, rfl, rfl, rfl, rfl⟩

end Sys2Proof.Machine

/-! # Barrier instructions -/

namespace Sys2Proof.Machine

open Sys2Proof

/-! ### What leaves the lanes of every band in place -/

/-- Every block keeps its bands, and every band its lanes. -/
structure State.LanesKeep (s t : State) : Prop where
  block : ∀ k b, s.blk k = some b → ∃ c, t.blk k = some c ∧
    ∀ n x, b.band n = some x → ∃ z, c.band n = some z ∧ z.lanes = x.lanes

theorem State.LanesKeep.of_blocks {s t : State} (h : t.blocks = s.blocks) : s.LanesKeep t :=
  ⟨fun k b hb => ⟨b, by rw [State.blk, h]; exact hb, fun _ x hx => ⟨x, hx, rfl⟩⟩⟩

theorem State.LanesKeep.refl (s : State) : s.LanesKeep s := .of_blocks rfl

theorem State.LanesKeep.trans {s t u : State} (h : s.LanesKeep t) (h' : t.LanesKeep u) : s.LanesKeep u := by
  refine ⟨fun k b hb => ?_⟩
  obtain ⟨c, hc, hcb⟩ := h.block k b hb
  obtain ⟨d, hd, hdb⟩ := h'.block k c hc
  refine ⟨d, hd, fun n x hx => ?_⟩
  obtain ⟨z, hz, hzx⟩ := hcb n x hx
  obtain ⟨w, hw, hwz⟩ := hdb n z hz
  exact ⟨w, hw, hwz.trans hzx⟩

theorem State.LanesKeep.foldl {α : Type} (f : State → α → State) (hf : ∀ (s : State) a, s.LanesKeep (f s a)) (l : List α)
    (s : State) : s.LanesKeep (l.foldl f s) := by
  induction l generalizing s with
  | nil => exact .refl s
  | cons a l ih => exact (hf s a).trans (ih _)

/-- A block is put back with the same bands. -/
theorem State.lanesKeep_setBlk {s : State} {k : Nat} {b c : Block} (hb : s.blk k = some b) (hc : c.bands = b.bands) :
    s.LanesKeep (s.setBlk k c) := by
  refine ⟨fun j d hd => ?_⟩
  by_cases hj : j = k
  · subst hj
    obtain rfl := Option.some.inj (hb.symm.trans hd)
    exact ⟨c, State.blk_setBlk .., fun n x hx => ⟨x, by rw [Block.band, hc]; exact hx, rfl⟩⟩
  · exact ⟨d, (State.blk_setBlk_ne s c hj).trans hd, fun n x hx => ⟨x, hx, rfl⟩⟩

theorem State.lanesKeep_modBand (s : State) (k n : Nat) {f : Band → Band} (hf : ∀ x, (f x).lanes = x.lanes) :
    s.LanesKeep (s.modBand k n f) := by
  refine ⟨fun j b hb => ?_⟩
  by_cases hj : j = k
  · subst hj
    refine ⟨b.modBand n f, by rw [State.blk_modBand, hb, Option.map_some], fun m x hx => ?_⟩
    rw [Block.band_modBand, hx]
    split
    · exact ⟨f x, rfl, hf x⟩
    · exact ⟨x, rfl, rfl⟩
  · exact ⟨b, (State.blk_modBand_ne s n f hj).trans hb, fun n x hx => ⟨x, hx, rfl⟩⟩

theorem State.lanesKeep_releaseSample (s : State) (sid : Nat) (evt : Option Nat) : s.LanesKeep (s.releaseSample sid evt) := by
  cases hm : tget s.samples sid with
  | none => exact .of_blocks (by rw [State.releaseSample, hm])
  | some m =>
    cases ho : m.open' with
    | false => exact .of_blocks (by simp [State.releaseSample, hm, ho])
    | true =>
      obtain ⟨u, hu, e⟩ := s.releaseSample_eq hm ho evt
      refine ⟨fun k b hb => ?_⟩
      have hub : tget u.blocks k = some b := by rw [hu.blocks]; exact hb
      rw [e]
      refine ⟨_, (tget_map u.blocks (fun p => by split <;> rfl) k).trans (by rw [hub, Option.map_some]), fun n x hx => ?_⟩
      refine ⟨x, ?_, rfl⟩
      dsimp only
      split
      · dsimp only
        split <;> exact hx
      · exact hx

theorem State.lanesKeep_logRec (s : State) (k n type : Nat) (body : List DWord) (awaits : Option Word) :
    s.LanesKeep (s.logRec k n type body awaits) := by
  unfold State.logRec
  split
  · exact .refl s
  split
  · split
    · exact .refl s
    · dsimp only
      split
      · exact s.lanesKeep_releaseSample ..
      · exact .of_blocks rfl
  · exact .refl s

theorem State.lanesKeep_modBar (s : State) (k : Nat) (sc : BScope) (num : Nat) (f : Barrier → Barrier) :
    s.LanesKeep (s.modBar k sc num f) := by
  unfold State.modBar
  split
  · exact .refl s
  next b hb =>
    split
    · exact State.lanesKeep_setBlk hb rfl
    · exact .of_blocks rfl

theorem State.lanesKeep_arriveLane (s : State) (k n l : Nat) (sc : BScope) (num : Nat) :
    s.LanesKeep (s.arriveLane k n l sc num) := by
  unfold State.arriveLane
  split
  · exact .refl s
  · dsimp only
    split <;> exact s.lanesKeep_modBar ..

theorem Iss.lanesKeep_arriveAll (y : Iss) (s : State) (sc : BScope) (num : Nat) : s.LanesKeep (y.arriveAll s sc num) :=
  .foldl _ (fun s l => s.lanesKeep_arriveLane y.k y.n l sc num) y.ex s

theorem Iss.lanesKeep_syncStamp (y : Iss) (s : State) (sc : BScope) (num : Nat) : s.LanesKeep (y.syncStamp s sc num) := by
  unfold Iss.syncStamp
  split
  · exact .refl s
  split
  · exact s.lanesKeep_modBand y.k y.n fun _ => rfl
  · exact .refl s

theorem Iss.lanesKeep_logBar (y : Iss) (s : State) (sc : BScope) (num : Nat) : s.LanesKeep (y.logBar s sc num) := by
  unfold Iss.logBar
  split
  · exact .refl s
  · exact s.lanesKeep_logRec ..

/-- An effect that leaves lanes in place, and the completion of the issue. -/
theorem Iss.goes_of_lanesKeep {i : Instr} {s u : State} {y : Iss} (hy : Issues i s y) (hu : y.base.LanesKeep u) :
    y.Goes u (y.finish u i []) (y.inLine i) := by
  have g := y.good hy
  obtain ⟨h, hi⟩ := y.hdr hy
  obtain ⟨hb, hx⟩ := g.base_band
  obtain ⟨c, hc, hbands⟩ := hu.block _ _ hb
  obtain ⟨z, hz, hl⟩ := hbands _ _ hx
  exact g.goes hi [] hc hz (congrArg List.length hl)

/-! ### The barrier that an instruction names -/

/-- A band's lanes name the same barrier. -/
theorem Iss.barNum_eq (y : Iss) (l : Nat) (n : BNum) : (y.env l).barNum n = y.barNum n := by
  cases n <;> rfl

theorem Iss.barTrap_eq (y : Iss) (n : BNum) (sc : BScope) :
    y.barTrap n sc = if y.ex ≠ [] ∧ y.s.barCount y.b sc ≤ y.barNum n then
      some { cls := .regidx, cause := 1, lane := lowest y.ex, opnd := 2 } else none := by
  unfold Iss.barTrap
  split
  next he => rw [if_neg fun h => h.1 he]
  next l ls he => simp only [y.barNum_eq, he, ne_eq, reduceCtorEq, not_false_eq_true, true_and]

theorem Iss.barTrap_some {y : Iss} {n : BNum} {sc : BScope} {t : Trap} (ht : y.barTrap n sc = some t) :
    y.ex ≠ [] ∧ t.cls = .regidx ∧ t.cause = 1 := by
  rw [y.barTrap_eq] at ht
  split at ht
  next h =>
    obtain rfl := Option.some.inj ht
    exact ⟨h.1, rfl, rfl⟩
  next => cases ht

/-! ### Arrivals and waits (R225) -/

section

variable {i : Instr} {s : State} {y : Iss} {o : Bar} {arr wait : Bool}

theorem traps_barOp (e : exec i s = barOp i o s arr wait) (hy : Issues i s y) {t : Trap}
    (ht : y.barTrap o.n o.sc = some t) : Traps i s y t := by
  rw [Traps, e, barOp, run_next hy, ht]
  rfl

variable (hy : Issues i s y) (ht : y.barTrap o.n o.sc = none) (hr : y.barReplay o.sc = false)

include hy ht hr

theorem barOp_wait : barOp i o s false true =
    .next (y.waitBar (y.finish (y.logBar y.base o.sc (y.barNum o.n)) i []) o.sc (y.barNum o.n)) := by
  rw [barOp, run_next hy, ht]
  simp [hr]

/-- An arrival that finds an error status raises it. -/
theorem barOp_arrive_of_status {a : DWord} (ha : y.statusDue (BScope.scope o.sc) = some a) : barOp i o s true wait =
    .next ((y.s.modBand y.k y.n fun x => { x with werr := none }).syncTrap y.k y.n
      { cls := .poison, lane := lowest y.ex, addr := a } y.pc y.act) := by
  rw [barOp, run_next hy, ht]
  simp [hr, ha, Iss.trap]

/-- An arrival whose release waits for nothing is performed; a `bar.sync` waits after it. -/
theorem barOp_arrive_of_ready
    (hready : y.ex = [] ∨ (y.s.orderReady y.b y.x .rel (BScope.scope o.sc) = true ∧ y.x.werr = none)) :
    let u := y.arriveAll y.base o.sc (y.barNum o.n)
    barOp i o s true wait = .next (if wait then
      y.waitBar (y.finish (y.logBar (y.syncStamp u o.sc (y.barNum o.n)) o.sc (y.barNum o.n)) i []) o.sc (y.barNum o.n)
      else y.finish u i []) := by
  have hstatus : y.statusDue (BScope.scope o.sc) = none := by
    obtain hx | ⟨-, hw⟩ := hready <;> simp [Iss.statusDue, *]
  have hgo : (y.ex.isEmpty || y.s.orderReady y.b y.x .rel (BScope.scope o.sc)) = true := by
    obtain hx | ⟨ho, -⟩ := hready <;> simp [*]
  rw [barOp, run_next hy, ht]
  cases wait <;> simp [hr, hstatus, Iss.released, hgo]

end

/-! ### Counts (R228) -/

section

variable {i : Instr} {s : State} {y : Iss} {n : BNum} {sc : BScope} {count : Nat}

theorem traps_barSet (e : exec i s = barSet i n sc count s) (hy : Issues i s y) {t : Trap} (ht : y.barTrap n sc = some t) :
    Traps i s y t := by
  obtain ⟨hx, -, -⟩ := Iss.barTrap_some ht
  rw [Traps, e, barSet, run_next hy, ht]
  simp [hx, Iss.trap]

/-- A block that is not sampled writes no records. -/
theorem State.logRec_of_unsampled {s : State} {k : Nat} {b : Block} (hb : s.blk k = some b) (hs : b.sid = none)
    (n type : Nat) (body : List DWord) (awaits : Option Word) : s.logRec k n type body awaits = s := by
  unfold State.logRec
  rw [hb]
  dsimp only
  rw [hs]
  split
  next h => cases h
  next => rfl

variable (e : exec i s = barSet i n sc count s) (hy : Issues i s y) (hx : y.ex ≠ []) (ht : y.barTrap n sc = none)
  (hr : y.barReplay sc = false)

include e hy hx ht hr

theorem traps_barSet_of_busy (hb : y.s.barBusy y.b sc (y.barNum n) = true) (hs : sc = .blk ∨ y.b.sid = none) :
    Traps i s y { cls := .barbusy, lane := lowest y.act } := by
  have hlog (body : List DWord) : (if sc = .blk then y.s else y.s.logRec y.k y.n 7 body) = y.s := by
    split
    next => rfl
    next h => exact State.logRec_of_unsampled (y.good hy).blk (hs.resolve_left h) ..
  rw [Traps, e, barSet, run_next hy, ht]
  simp [hx, hr, hb, hlog, Iss.trap]

theorem passes_barSet_of_idle (hb : y.s.barBusy y.b sc (y.barNum n) = false) :
    Passes i s y ((if sc = .blk then y.base else y.base.logRec y.k y.n 7 (barBody sc (y.barNum n) 0)).modBar y.k sc
      (y.barNum n) fun t =>
        { t with cnt := if count = 0 ∨ t.members.length < count then t.members.length else count }) := by
  refine ⟨_, ?_, y.goes_of_lanesKeep hy (.trans ?_ (State.lanesKeep_modBar ..))⟩
  · rw [e, barSet, run_next hy, ht]
    simp [hx, hr, hb]
  · split
    · exact .refl y.base
    · exact y.base.lanesKeep_logRec ..

end

/-- Settles O24: an instruction that arrives or waits by the shared form of the three, and one that sets a count by that of the
two; none of their effects touches the lanes that then go on. -/
theorem barrierInstructions : Obligations.BarrierInstructions := by
  unfold Obligations.BarrierInstructions
  intro h s y
  refine ⟨fun o t ht => ?_, fun o t ht hy => traps_barSet rfl hy ht, fun o t ht hy => traps_barSet rfl hy ht,
    fun n sc hx hc => ?_, fun o ht hr => ?_, fun i n sc count hi hy hx ht hr => ?_⟩
  · obtain ⟨-, hcls, hcause⟩ := Iss.barTrap_some ht
    exact ⟨fun hy => traps_barOp rfl hy ht, fun hy => traps_barOp rfl hy ht, fun hy => traps_barOp rfl hy ht, hcls, hcause⟩
  · rw [y.barTrap_eq, if_pos ⟨hx, hc⟩]
  · intro num ordered ready
    refine ⟨fun a i hi hy hx ho ha => ?_, fun hy hready => ?_, fun hy => ?_, fun hy hready => ?_⟩
    · have hstatus : y.statusDue (BScope.scope o.sc) = some a := by
        simp [Iss.statusDue, hx, show y.s.orderReady y.b y.x .rel (BScope.scope o.sc) = true from ho, ha]
      obtain rfl | rfl := hi
      · exact barOp_arrive_of_status hy ht hr hstatus
      · exact barOp_arrive_of_status hy ht hr hstatus
    · exact ⟨_, barOp_arrive_of_ready hy ht hr hready, y.goes_of_lanesKeep hy (y.lanesKeep_arriveAll ..)⟩
    · exact ⟨_, barOp_wait hy ht hr, y.goes_of_lanesKeep hy (y.lanesKeep_logBar ..)⟩
    · exact ⟨_, barOp_arrive_of_ready hy ht hr hready, y.goes_of_lanesKeep hy
        ((y.lanesKeep_arriveAll ..).trans ((y.lanesKeep_syncStamp ..).trans (y.lanesKeep_logBar ..)))⟩
  · have e : exec i s = barSet i n sc count s := by
      obtain ⟨o, rfl, rfl, rfl, rfl⟩ | ⟨o, rfl, rfl, rfl, rfl⟩ := hi <;> rfl
    exact ⟨traps_barSet_of_busy e hy hx ht hr, passes_barSet_of_idle e hy hx ht hr⟩

end Sys2Proof.Machine

/-! # Exchanges and reductions

R109's tree stands over 64 lanes. The statement takes bands of any width, and a band whose only executing lane is beyond them
reduces nothing. -/

namespace Sys2Proof.Machine

open Sys2Proof

/-! ### Instructions over a band -/

theorem computesFor_runBand {i : Instr} {s : State} {y : Iss} {f : Iss → List (Nat × Out)} {g : Nat → Out}
    (e : exec i s = runBand i s f) (hf : f y = y.ex.map fun l => (l, g l)) : ComputesFor i s y g := by
  intro hy
  obtain ⟨h, hi⟩ := y.hdr hy
  exact (y.good hy).writes hi (by rw [e, runBand, run_next hy, hf])

/-- What a lane of an exchange takes: from its source lane where that one executes, else its own (R214). -/
def Iss.taken (y : Iss) (o : Xchg) (l : Nat) (src : Int) : Out :=
  if 0 ≤ src ∧ src.toNat ∈ y.ex then
    { Out.vW o.w64 o.d ((y.env src.toNat).vW o.w64 o.a ^^^ y.flaw l) with p := [(o.pv.toNat, true)] }
  else { Out.vW o.w64 o.d ((y.env l).vW o.w64 o.a ^^^ y.flaw l) with p := [(o.pv.toNat, false)] }

theorem computesFor_xchg {i : Instr} {o : Xchg} {s : State} {y : Iss} (src : Int → Int → Int) (e : exec i s = xchg i o s src) :
    ComputesFor i s y fun l => y.taken o l (src l ((y.env l).xb o.b)) := by
  refine computesFor_runBand e (List.map_congr_left fun l _ => Prod.ext rfl ?_)
  dsimp only
  generalize src l ((y.env l).xb o.b) = sl
  by_cases h : 0 ≤ sl ∧ sl.toNat ∈ y.ex
  · simp [Iss.taken, h]
  · have hno : (decide (0 ≤ sl) && y.ex.contains sl.toNat) = false := by simpa using h
    rw [Iss.taken, if_neg h, hno]
    rfl

theorem Iss.flaw_of_sound {y : Iss} (h : (y.s.core y.b.core).flaws = []) (l : Nat) : y.flaw l = 0 := by
  rw [Iss.flaw, h]
  rfl

/-! ### Reductions (R109, R217) -/

theorem redbJoin_eq_none_iff (f : Word → Word → Res Word) (a b : Option (Res Word)) :
    redbJoin f a b = none ↔ a = none ∧ b = none := by
  cases a <;> cases b <;> simp [redbJoin]

/-- A tree is empty when none of its lanes has a value. -/
theorem redbTree_eq_none_iff (f : Word → Word → Res Word) (leaf : Nat → Option Word) (n i : Nat) :
    redbTree f leaf n i = none ↔ ∀ l, i ≤ l → l < i + 2 ^ n → leaf l = none := by
  induction n generalizing i with
  | zero =>
    rw [redbTree, Option.map_eq_none_iff]
    exact ⟨fun h l hi hl => (show l = i by omega) ▸ h, fun h => h i le_rfl (by simp)⟩
  | succ n ih =>
    rw [redbTree, redbJoin_eq_none_iff, ih, ih, pow_succ]
    refine ⟨fun ⟨hlo, hhi⟩ l hi hl => ?_, fun h => ⟨fun l hi hl => h l hi (by omega), fun l hi hl => h l (by omega) (by omega)⟩⟩
    by_cases hm : l < i + 2 ^ n
    · exact hlo l hi hm
    · exact hhi l (by omega) (by omega)

/-- The tree of `redb` over an issue's executing lanes. -/
def Iss.reduced (y : Iss) (o : Redb) : Option (Res Word) :=
  redbTree (redbNode o.op (modeOf y.x.fstat o.rnd) o.ftz) (fun l => if y.ex.contains l then some ((y.env l).v o.a) else none) 6 0

theorem Iss.reduced_eq_none_iff (y : Iss) (o : Redb) : y.reduced o = none ↔ ∀ l ∈ y.ex, 64 ≤ l := by
  rw [Iss.reduced, redbTree_eq_none_iff]
  simp only [List.contains_iff_mem, ite_eq_right_iff, reduceCtorEq, imp_false, Nat.zero_le, true_implies, Nat.zero_add]
  exact ⟨fun h l hl => by_contra fun hlt => h l (by omega) hl, fun h l hlt hl => absurd (h l hl) (by omega)⟩

/-- What a lane of `redb` takes from the tree, where it has a value. -/
def Iss.redbOut (y : Iss) (o : Redb) : Out :=
  let r := (y.reduced o).getD ⟨0, 0⟩
  { Out.dst o.d false (r.val.setWidth 64) with cs := r.cs }

theorem exec_redb (h : Hdr) (o : Redb) (s : State) : exec (.redb h o) s = runBand (.redb h o) s fun y =>
    if y.reduced o = none then [] else y.ex.map fun l => (l, y.redbOut o) := by
  refine congrArg (runBand _ s) (funext fun y => ?_)
  show (match y.reduced o with
    | none => []
    | some r => y.ex.map fun l => (l, { Out.dst o.d false (r.val.setWidth 64) with cs := r.cs })) = _
  cases hr : y.reduced o <;> simp [Iss.redbOut, hr]

/-- In a band of at most 64 lanes every executing lane of `redb` takes the value of the tree. -/
theorem computesFor_redb_of_lt {h : Hdr} {o : Redb} {s : State} {y : Iss} (hlt : ∀ l ∈ y.ex, l < 64) :
    ComputesFor (.redb h o) s y fun _ => y.redbOut o := by
  refine computesFor_runBand (exec_redb h o s) ?_
  split
  next hn =>
    have hex : y.ex = [] := List.eq_nil_iff_forall_not_mem.2 fun l hl =>
      absurd ((y.reduced_eq_none_iff o).1 hn l hl) (by have := hlt l hl; omega)
    rw [hex, List.map_nil]
  next => rfl

/-- In a wider band, when no lane below 64 executes, `redb` writes nothing. -/
theorem redb_wrote_nothing {h : Hdr} {o : Redb} {s : State} {y : Iss} (hy : Issues (.redb h o) s y)
    (hp : pushPort y.b (.redb h o) = none) (hge : ∀ l ∈ y.ex, 64 ≤ l) :
    ∃ t, exec (.redb h o) s = .next t ∧ y.Wrote t (fun _ => {}) (y.inLine (.redb h o)) := by
  have hbase : y.putOuts [] = y.base := Iss.putOuts_empty { y with ex := [] }
  refine ⟨_, ?_, Iss.wrote_base hy []⟩
  rw [exec_redb, runBand, run_next hy, if_pos ((y.reduced_eq_none_iff o).2 hge), Iss.commit, hp]
  dsimp only
  rw [hbase]

/-- What the statement says holds of every band of R22's widths, which has no lane beyond 63. -/
theorem exchange_results_of_lt (h : Hdr) (s : State) {y : Iss} (hlt : ∀ l ∈ y.ex, l < 64) :
    let q (sp : BitVec 3) (ns : Bool) (l : Nat) : Bool := (y.env l).p sp != ns
    ((y.s.core y.b.core).flaws = [] → ∀ l, y.flaw l = 0) ∧
    (∀ o, ComputesFor (.xchgIdx h o) s y fun l => y.taken o l ((y.env l).xb o.b)) ∧
    (∀ o, ComputesFor (.xchgUp h o) s y fun l => y.taken o l ((l : Int) - (y.env l).xb o.b)) ∧
    (∀ o, ComputesFor (.xchgDown h o) s y fun l => y.taken o l ((l : Int) + (y.env l).xb o.b)) ∧
    (∀ o, ComputesFor (.xchgXor h o) s y fun l => y.taken o l ((l ^^^ (y.env l).xb o.b : Nat) : Int)) ∧
    (∀ o, ComputesFor (.voteAll h o) s y fun _ => .pr o.p (decide (∀ l ∈ y.ex, q o.s o.ns l = true))) ∧
    (∀ o, ComputesFor (.voteAny h o) s y fun _ => .pr o.p (decide (∃ l ∈ y.ex, q o.s o.ns l = true))) ∧
    (∀ o, ComputesFor (.voteBallot h o) s y fun _ => .dst o.d o.m64 (laneSet (y.ex.filter (q o.s o.ns)))) ∧
    (∀ o, ComputesFor (.matchB h o) s y fun l =>
      let same := y.ex.filter fun k => (y.env k).vW o.w64 o.a == (y.env l).vW o.w64 o.a
      { Out.vW o.m64 o.d (laneSet same) with p := [(o.pl.toNat, lowest same == l)] }) ∧
    (∀ p, ComputesFor (.elect h p) s y fun l => .pr p (lowest y.ex == l)) ∧
    (∀ o, ComputesFor (.redb h o) s y fun _ => y.redbOut o) := by
  intro q
  refine ⟨Iss.flaw_of_sound, fun o => computesFor_xchg (fun _ b => b) rfl, fun o => computesFor_xchg (fun l b => l - b) rfl,
    fun o => computesFor_xchg (fun l b => l + b) rfl,
    fun o => computesFor_xchg (fun l b => ((l.toNat ^^^ b.toNat : Nat) : Int)) rfl,
    fun o => computesFor_runBand rfl ?_, fun o => computesFor_runBand rfl ?_,
    fun o => computesFor_runBand rfl rfl, fun o => computesFor_runBand rfl rfl, fun p => computesFor_runBand rfl rfl,
    fun o => computesFor_redb_of_lt hlt⟩
  · rw [← List.all_eq]
    rfl
  · rw [← List.any_eq]
    rfl

/-! ### A band of 65 lanes -/

/-- `redb.addb v4, v6`. -/
def addLanes : Redb := ⟨.v 4, 6, .rne, false, .addb⟩

/-- The booted device about to run `addLanes` on a band of 65 lanes, of which all but the last have exited; its v4 holds 7. -/
def lastLaneOnly : State :=
  (State.reset.boot (encode (.redb plainHdr addLanes))).modBand 0 0 fun x =>
    { x with lanes := List.replicate 64 { x.lane 0 with st := .exited } ++ [(x.lane 0).setV 4 7] }

theorem addLanes_issues : ∃ y ∈ (prep (.redb plainHdr addLanes) lastLaneOnly).issue?,
    pushPort y.b (.redb plainHdr addLanes) = none ∧ y.ex = [64] ∧ 4 < (y.x.lane 64).vregs.length ∧ y.b.isPort 4 = false ∧
      (y.x.lane 64).v 4 = 7 := by
  decide +kernel

/-- Refutes O20: in a band of 65 lanes of which lane 64 alone executes, the tree of `redb` is empty and v4 keeps its 7, where the
statement has it become 0. -/
theorem not_exchangeResults : ¬ Obligations.ExchangeResults := by
  unfold Obligations.ExchangeResults
  intro claim
  obtain ⟨y, hy, hpush, hex, hlen, hport, hval⟩ := addLanes_issues
  have hissue := issues_of_mem_issue? hy
  have hmem : 64 ∈ y.ex := by simp [hex]
  have hge : ∀ l ∈ y.ex, 64 ≤ l := by simp [hex]
  obtain ⟨-, -, -, -, -, -, -, -, -, -, hredb⟩ := claim plainHdr lastLaneOnly y
  have hclaim : Writes (.redb plainHdr addLanes) lastLaneOnly y fun _ => y.redbOut addLanes := hredb addLanes hissue
  have hzero : (y.redbOut addLanes).v = [(4, 0)] := by
    rw [Iss.redbOut, (y.reduced_eq_none_iff addLanes).2 hge]
    rfl
  obtain ⟨t, e, model⟩ := redb_wrote_nothing hissue hpush hge
  obtain ⟨t', e', claimed⟩ := hclaim.1 hpush
  obtain rfl : t = t' := Host.Outcome.next.inj (e.symm.trans e')
  have hkeeps : (y.laneIn t 64).v 4 = 7 := (model.regs 64 hmem 4 hlen hport).trans hval
  have hclears : (y.laneIn t 64).v 4 = 0 := by
    rw [claimed.regs 64 hmem 4 hlen hport, hzero]
    rfl
  exact absurd (hkeeps.symm.trans hclears) (by decide)

end Sys2Proof.Machine

/-! # Bytes read under a key

What a read under one key returns after each operation on memory (R488 to R491): the write of a byte changes the byte at its
address alone, and marks and write-backs change none of the codewords under that key. -/

namespace Sys2Proof.Machine

open Sys2Proof

/-! ### Reads -/

theorem mread_congr {m m' : Memory} (n a : Nat) (h : ∀ i, i < n → mget m' (a + i) = mget m (a + i)) :
    mread m' a n = mread m a n := by
  induction n generalizing a with
  | zero => rfl
  | succ n ih =>
    rw [mread, mread, show mget m' a = mget m a from h 0 (Nat.succ_pos n), ih (a + 1) fun i hi => ?_]
    rw [Nat.add_right_comm, Nat.add_assoc]
    exact h (i + 1) (Nat.succ_lt_succ hi)

/-- The key of a codeword: its KEYID and generation, without its mark. -/
def CwTag.key (c : CwTag) : Nat × Nat := (c.kid, c.gen)

/-- A byte reads the same while its codeword's bytes and key and the keys' generations stay. -/
theorem State.rdByte_congr {s t : State} {q : Nat} (kid : Nat)
    (hc : (tget t.cw (q / 32)).map CwTag.key = (tget s.cw (q / 32)).map CwTag.key)
    (hm : ∀ p, p / 32 = q / 32 → mget t.mem p = mget s.mem p) (hk : ∀ k, t.keyGen k = s.keyGen k) :
    t.rdByte kid q = s.rdByte kid q := by
  have hread : mread t.mem (q / 32 * 32) 32 = mread s.mem (q / 32 * 32) 32 :=
    mread_congr 32 _ fun i hi => hm _ (by omega)
  unfold State.rdByte
  cases ht : tget t.cw (q / 32) <;> cases hs : tget s.cw (q / 32) <;> rw [ht, hs] at hc
  · exact hm q rfl
  · cases hc
  · cases hc
  next c c' =>
    obtain ⟨hkid, hgen⟩ : c.kid = c'.kid ∧ c.gen = c'.gen := Prod.mk.inj (Option.some.inj hc)
    simp only [hkid, hgen, hm q rfl, hread, hk]

theorem State.rd_congr {s t : State} {kid : Nat} (n : Nat) {pa : Nat}
    (h : ∀ q, pa ≤ q → q < pa + n → t.rdByte kid q = s.rdByte kid q) : t.rd kid pa n = s.rd kid pa n := by
  induction n generalizing pa with
  | zero => rfl
  | succ n ih =>
    rw [State.rd, State.rd, h pa (Nat.le_refl _) (by omega), ih fun q hlo hhi => h q (by omega) (by omega)]

theorem State.length_rd (s : State) (kid pa n : Nat) : (s.rd kid pa n).length = n := by
  induction n generalizing pa with
  | zero => rfl
  | succ n ih => rw [State.rd, List.length_cons, ih]

/-- A read of bytes that are known one by one. -/
theorem State.rd_eq_of_getD {s : State} {kid pa : Nat} {bs : List Byte}
    (h : ∀ j, j < bs.length → s.rdByte kid (pa + j) = bs.getD j 0) : s.rd kid pa bs.length = bs := by
  refine List.ext_getElem (s.length_rd ..) fun j hj hj' => ?_
  rw [← List.getD_eq_getElem _ 0 hj, ← List.getD_eq_getElem _ 0 hj', State.getD_rd, if_pos hj', h j hj']

/-! ### One byte written -/

section

variable {s : State} {kid : Nat}

/-- Bringing a codeword under a key changes no byte that a read under that key returns. -/
theorem State.rdByte_underKey (hw : Memory.wf s.mem = true) (pa q : Nat) :
    (s.underKey kid pa).rdByte kid q = s.rdByte kid q := by
  unfold State.underKey
  split
  · rfl
  next hh =>
    have away : ∀ {c m}, q / 32 ≠ pa / 32 → (∀ p, p / 32 = q / 32 → mget m p = mget s.mem p) →
        State.rdByte { s with mem := m, cw := tset s.cw (pa / 32) c } kid q = s.rdByte kid q := fun hne hm =>
      State.rdByte_congr kid (congrArg _ (tget_tset_ne _ _ hne)) hm fun _ => rfl
    have here : ∀ {m p}, q / 32 = pa / 32 →
        State.rdByte { s with mem := m, cw := tset s.cw (pa / 32) ⟨kid, s.keyGen kid, p⟩ } kid q = mget m q := fun {m p} e => by
      rw [State.rdByte, e, tget_tset_self]
      exact if_pos (.inr ⟨rfl, rfl⟩)
    split
    next hc =>
      by_cases e : q / 32 = pa / 32
      · rw [here e, State.rdByte, e, hc]
      · exact away e fun _ _ => rfl
    next t ht =>
      split
      · rfl
      · have hlen : (s.rd kid (32 * (pa / 32)) 32).length = 32 := rfl
        by_cases e : q / 32 = pa / 32
        · refine (here e).trans ((mget_mwrite hw ..).trans ?_)
          rw [if_pos (by omega), State.getD_rd, if_pos (by omega), Nat.add_sub_cancel' (by omega)]
        · exact away e fun p hp => (mget_mwrite hw ..).trans (if_neg (by omega))

/-- A byte written under a key is what a read under the key finds there, and changes no other byte (R273, R488, R514). -/
theorem State.rdByte_pokeByte (hw : Memory.wf s.mem = true) (pa w a : Nat) (v : Byte) (q : Nat) :
    (s.pokeByte kid pa w a v).rdByte kid q = if q = pa ∧ s.deadAt pa = false then v else s.rdByte kid q := by
  by_cases hd : s.deadAt pa = true
  · simp [State.pokeByte, hd]
  have hd : s.deadAt pa = false := by simpa using hd
  by_cases e : q = pa
  · rw [if_pos ⟨e, hd⟩, e]
    exact (State.stands_pokeByte hw hd w a v).rdByte
  rw [if_neg fun h => e h.1, State.pokeByte, hd, if_neg (by decide), ← State.rdByte_underKey hw pa q]
  have hmem := fun p => mget_mset (State.wf_underKey hw kid pa) pa p v
  by_cases hcw : q / 32 = pa / 32
  · have hkey := s.key_underKey kid pa
    rw [← hcw, ← isHost_of_codeword hcw] at hkey
    have hold : (s.underKey kid pa).Stands kid q (mget (s.underKey kid pa).mem q) := ⟨rfl, hkey⟩
    rw [hold.rdByte]
    exact State.Stands.rdByte ⟨(hmem q).trans (if_neg e), hkey⟩
  · exact State.rdByte_congr kid rfl (fun p hp => (hmem p).trans (if_neg fun h => hcw (by rw [← hp, h]))) fun _ => rfl

/-- A byte written changes the bytes of its own codeword alone. -/
theorem State.mget_pokeByte (hw : Memory.wf s.mem = true) {pa q : Nat} (h : q / 32 ≠ pa / 32) (w a : Nat) (v : Byte) :
    mget (s.pokeByte kid pa w a v).mem q = mget s.mem q := by
  unfold State.pokeByte
  split
  · rfl
  · refine (mget_mset (State.wf_underKey hw kid pa) pa q v).trans ((if_neg fun e => h (by rw [e])).trans ?_)
    have hlen : (s.rd kid (32 * (pa / 32)) 32).length = 32 := rfl
    unfold State.underKey
    split
    · rfl
    split
    · rfl
    split
    · rfl
    · exact (mget_mwrite hw ..).trans (if_neg (by omega))

end

/-! ### Bytes written -/

/-- Addresses of one line lie in one channel. -/
theorem State.deadAt_of_line (s : State) {p q : Nat} (h : p / 128 = q / 128) : s.deadAt p = s.deadAt q := by
  have hch : channelOf p = channelOf q := by
    unfold channelOf
    omega
  have hdev : isDev p = isDev q := by
    rw [Bool.eq_iff_iff]
    simp only [isDev, decide_eq_true_eq]
    omega
  rw [State.deadAt, State.deadAt, hch, hdev]

theorem State.rdByte_pokeBytes (bs : List Byte) {s : State} {kid : Nat} (hw : Memory.wf s.mem = true) (pa w a q : Nat) :
    (s.pokeBytes kid pa w a bs).rdByte kid q =
      if pa ≤ q ∧ q < pa + bs.length ∧ s.deadAt q = false then bs.getD (q - pa) 0 else s.rdByte kid q := by
  induction bs generalizing s pa with
  | nil => exact (if_neg fun ⟨h, h', _⟩ => absurd h' (Nat.not_lt.2 h)).symm
  | cons b bs ih =>
    rw [State.pokeBytes, ih (State.wf_pokeByte hw ..), (s.firm_pokeByte kid pa w a b).deadAt, State.rdByte_pokeByte hw,
      List.length_cons]
    by_cases e : q = pa
    · subst e
      rw [if_neg (by omega), Nat.sub_self]
      exact if_congr (by simp) rfl rfl
    · rw [if_neg fun h : q = pa ∧ _ => e h.1]
      refine ite_congr (propext ?_) (fun h => ?_) fun _ => rfl
      · exact ⟨fun ⟨_, hhi, hd⟩ => ⟨by omega, by omega, hd⟩, fun ⟨_, hhi, hd⟩ => ⟨by omega, by omega, hd⟩⟩
      · rw [show q - pa = (q - (pa + 1)) + 1 by omega, List.getD_cons_succ]

theorem State.mget_pokeBytes (bs : List Byte) {s : State} {kid : Nat} (hw : Memory.wf s.mem = true) {pa q : Nat}
    (h : ∀ j, j < bs.length → q / 32 ≠ (pa + j) / 32) (w a : Nat) : mget (s.pokeBytes kid pa w a bs).mem q = mget s.mem q := by
  induction bs generalizing s pa with
  | nil => rfl
  | cons b bs ih =>
    rw [State.pokeBytes, ih (State.wf_pokeByte hw ..) fun j hj => ?_, State.mget_pokeByte hw (pa := pa) (h 0 (Nat.succ_pos _))]
    rw [Nat.add_assoc, Nat.add_comm 1 j]
    exact h (j + 1) (Nat.succ_lt_succ hj)

/-! ### What changes no read under a key -/

/-- Reads under a key return the same at the addresses of a set, the bytes in memory are the same, and so is what the keys and
the dead channels make of them. -/
structure State.SameReads (kid : Nat) (P : Nat → Prop) (s t : State) : Prop extends s.Firm t where
  mem : t.mem = s.mem
  read : ∀ q, P q → t.rdByte kid q = s.rdByte kid q

namespace State.SameReads

variable {kid : Nat} {P : Nat → Prop} {s t u : State}

theorem of_cw (h : s.Firm t) (hm : t.mem = s.mem) (hc : t.cw = s.cw) : SameReads kid P s t where
  toFirm := h
  mem := hm
  read := fun _ _ => State.rdByte_congr kid (by rw [hc]) (fun _ _ => by rw [hm]) h.keyGen

theorem refl (s : State) : SameReads kid P s s := of_cw (.refl s) rfl rfl

theorem trans (h : SameReads kid P s t) (h' : SameReads kid P t u) : SameReads kid P s u where
  toFirm := h.toFirm.trans h'.toFirm
  mem := h'.mem.trans h.mem
  read := fun q hq => (h'.read q hq).trans (h.read q hq)

theorem foldl {α : Type} (f : State → α → State) (hf : ∀ (s : State) a, SameReads kid P s (f s a)) (l : List α) (s : State) :
    SameReads kid P s (l.foldl f s) := by
  induction l generalizing s with
  | nil => exact refl s
  | cons a l ih => exact (hf s a).trans (ih _)

end State.SameReads

section

variable (s : State) {kid : Nat} {P : Nat → Prop}

theorem State.sameReads_noteDirty (k pa : Nat) : SameReads kid P s (s.noteDirty k pa) := by
  refine .of_cw (s.sealed_noteDirty k pa).toFirm (s.sealed_noteDirty k pa).mem ?_
  unfold State.noteDirty
  split
  · rfl
  · dsimp only
    split <;> rfl

theorem State.sameReads_setHome (line : Nat) (h : HomeLine) : SameReads kid P s (s.setHome line h) :=
  .of_cw (s.sealed_setHome line h).toFirm rfl rfl

theorem State.sameReads_unpoison (line : Nat) : SameReads kid P s (s.unpoison line) where
  toFirm := .of_eq rfl rfl rfl rfl rfl
  mem := rfl
  read := fun q _ => State.rdByte_congr kid (by
    refine (congrArg _ (tget_map s.cw (fun p => ?_) (q / 32))).trans ?_
    · split <;> rfl
    · cases tget s.cw (q / 32) with
      | none => rfl
      | some c =>
        rw [Option.map_some, Option.map_some, Option.map_some]
        split <;> rfl) (fun _ _ => rfl) fun _ => rfl

end

/-- A write performed on a line, as reads under its key find it. -/
theorem State.rdByte_poke {s : State} {kid : Nat} (hw : Memory.wf s.mem = true) (pa w a : Nat) (bs : List Byte) (q : Nat) :
    (s.poke kid pa w a bs).rdByte kid q =
      if pa ≤ q ∧ q < pa + bs.length ∧ s.deadAt q = false then bs.getD (q - pa) 0 else s.rdByte kid q := by
  rw [← State.rdByte_pokeBytes bs hw pa w a q]
  exact (((s.pokeBytes kid pa w a bs).sameReads_noteDirty kid pa).trans (State.sameReads_setHome ..)).read (P := fun _ => True)
    q trivial

theorem State.mget_poke {s : State} {kid : Nat} (hw : Memory.wf s.mem = true) {pa q : Nat} {bs : List Byte}
    (h : ∀ j, j < bs.length → q / 32 ≠ (pa + j) / 32) (w a : Nat) : mget (s.poke kid pa w a bs).mem q = mget s.mem q := by
  rw [← State.mget_pokeBytes bs hw h w a]
  exact congrArg (mget · q) (((s.pokeBytes kid pa w a bs).sameReads_noteDirty (kid := kid) (P := fun _ => True) kid pa).trans
    (State.sameReads_setHome ..)).mem

end Sys2Proof.Machine

/-! # One lane's store within a line -/

namespace Sys2Proof.Machine

open Sys2Proof

theorem StorePart.cut_of_line {a : StorePart} (h : a.x.pa % 128 + a.bs.length ≤ 128) (n : Nat) : a.cut n = [a] := by
  cases n with
  | zero => rfl
  | succ n => rw [StorePart.cut, if_pos (by omega)]

section

variable {s : State} {k n kind seq : Nat} {unc clr : Bool} {push : Option Nat} {b : Block} {a : StorePart}

theorem State.contained_of_plain (s : State) (hr : b.run = .plain) : s.contained b = false := by
  rw [State.contained, hr]

theorem Block.later_of_plain (hr : b.run = .plain) : b.later = false := by
  rw [Block.later, hr]

theorem Block.signWrite_of_unsampled (hs : b.sid = none) (n kind addr : Nat) (bs : List Byte) (seq : Nat) :
    b.signWrite n kind addr bs seq = b := by
  rw [Block.signWrite, hs]
  rfl

/-- A store of a plain block goes to its home unless its core owns the line and it is cacheable (R246). -/
theorem State.toHome_of_plain (s : State) (hr : b.run = .plain) (unc : Bool) (x : Xl) :
    s.toHome b unc x = (x.sc || x.nc || unc || !s.owns b.core (lineOf x.pa)) := by
  rw [State.toHome, s.contained_of_plain hr, Block.later_of_plain hr, Bool.not_false, Bool.true_and, Bool.true_and]

/-- What one part within a line comes to: its effect at the core, and a packet if it goes to its home. -/
theorem State.storeAll_one (hb : s.blk k = some b) (hr : b.run = .plain) (hl : a.x.pa % 128 + a.bs.length ≤ 128) :
    s.storeAll k n kind seq unc (fun _ => clr) push [a] =
      if s.toHome b unc a.x then (s.storeHere k n kind seq unc clr push a).storeLine k n unc clr push (lineOf a.x.pa) [a]
      else s.storeHere k n kind seq unc clr push a := by
  unfold State.storeAll
  rw [hb]
  simp only [List.flatMap_singleton, StorePart.cut_of_line hl, s.contained_of_plain hr, Bool.false_eq_true, if_false,
    List.foldl_cons, List.foldl_nil]
  split
  next h =>
    have hone : ([a].filter fun a => s.toHome b unc a.x) = [a] := by simp [h]
    have hunit : [a.unit].eraseDups = [a.unit] := rfl
    have hsame : ([a].filter fun c => c.unit == a.unit) = [a] := by simp
    rw [hone, List.map_singleton, hunit, List.foldl_cons, List.foldl_nil, hsame]
    rfl
  next h =>
    have hnone : ([a].filter fun a => s.toHome b unc a.x) = [] := by simp [h]
    rw [hnone]
    rfl

/-- What goes to its home changes nothing at the core. -/
theorem State.storeHere_far (hb : s.blk k = some b) (hs : b.sid = none) (hf : s.toHome b unc a.x = true) :
    s.storeHere k n kind seq unc clr push a = s.setBlk k b := by
  have hf' : (s.setBlk k b).toHome b unc a.x = true := hf
  unfold State.storeHere
  rw [hb]
  dsimp only
  rw [Block.signWrite_of_unsampled hs, hs]
  simp [hf']

/-- A store to an owned line is a write to memory; what follows it changes no byte that is read under its key. -/
theorem State.storeHere_near (hb : s.blk k = some b) (hs : b.sid = none) (hr : b.run = .plain)
    (hf : s.toHome b unc a.x = false) (P : Nat → Prop) : ∃ u w, s.SameReads a.x.kid P u ∧
      (u.poke a.x.kid a.x.pa w w a.bs).SameReads a.x.kid P (s.storeHere k n kind seq unc clr push a) := by
  have hf' : (s.setBlk k b).toHome b unc a.x = false := hf
  unfold State.storeHere
  split
  next h => rw [hb] at h; cases h
  rename_i b₁ hb₁
  obtain rfl := Option.some.inj (hb.symm.trans hb₁)
  extract_lets b' t w u₀ samples t' line u₁ u₂ v u₃
  have hu₀ : u₀ = s.setBlk k b := by
    dsimp only [u₀, b']
    rw [Block.signWrite_of_unsampled hs, hs]
    rfl
  have hfar : (b.later || u₀.toHome b unc a.x) = false := by rw [hu₀, hf', Block.later_of_plain hr]; rfl
  rw [hfar, u₀.contained_of_plain hr, if_neg Bool.false_ne_true, if_neg Bool.false_ne_true]
  refine ⟨u₀, t', by rw [hu₀]; exact .of_cw (.of_eq rfl rfl rfl rfl rfl) rfl rfl, ?_⟩
  have hu₂ : u₁.SameReads a.x.kid P u₂ := by
    dsimp only [u₂]
    split
    · exact u₁.sameReads_unpoison line
    · exact .refl u₁
  exact hu₂.trans (.of_cw (.of_eq rfl rfl rfl rfl rfl) rfl rfl)

/-- The packet of the stores of an instruction to a line is in the network, or waits in the order of R281. -/
theorem State.hasSent_storeLine (hb : s.blk k = some b) (line : Nat) (as : List StorePart) :
    (s.storeLine k n unc clr push line (a :: as)).HasSent b.core (.storeReq ⟨s.serial, k, n, b.core, line, a.x.kid,
      (a :: as).map fun a => (a.va, a.x.pa, a.bs), a.x.nc, a.x.sc, clr, push⟩) := by
  unfold State.storeLine
  split
  case h_2 h => exact absurd rfl (h b a as hb)
  rename_i b₁ a₁ as₁ hb₁ has
  obtain rfl := Option.some.inj (hb.symm.trans hb₁)
  obtain ⟨rfl, rfl⟩ := List.cons.inj has
  extract_lets id parts m c c₁ c₂ t u
  have hu : u.HasSent b.core m := by
    dsimp only [u]
    split
    · exact State.hasSent_scSend t b.core _
    · exact State.hasSent_send ..
  split
  · exact hu
  · exact hu.of_same rfl rfl

theorem State.sameReads_scSend (s : State) {kid : Nat} {P : Nat → Prop} (core : Nat) (a : ScAcc) :
    State.SameReads kid P s (s.scSend core a) := by
  unfold State.scSend
  dsimp only
  split <;> exact .of_cw (.of_eq rfl rfl rfl rfl rfl) rfl rfl

/-- A packet of stores on its way changes no byte. -/
theorem State.sameReads_storeLine (s : State) {kid : Nat} {P : Nat → Prop} (k n : Nat) (unc clr : Bool) (push : Option Nat)
    (line : Nat) (as : List StorePart) : State.SameReads kid P s (s.storeLine k n unc clr push line as) := by
  unfold State.storeLine
  split
  · extract_lets id parts m c c₁ c₂ t u
    have ht : State.SameReads kid P s t := .of_cw (.of_eq rfl rfl rfl rfl rfl) rfl rfl
    have hu : State.SameReads kid P s u := by
      dsimp only [u]
      split
      · exact ht.trans (t.sameReads_scSend ..)
      · exact ht.trans (.of_cw (.of_eq rfl rfl rfl rfl rfl) rfl rfl)
    split
    · exact hu
    · exact hu.trans (.of_cw (.of_eq rfl rfl rfl rfl rfl) rfl rfl)
  · exact .refl s

end

/-- Settles O32: a store to an owned line is a write under the page's key, whose bytes and their neighbours read back; every
other one leaves memory alone and is sent. -/
theorem storedBytes : Obligations.StoredBytes := by
  unfold Obligations.StoredBytes
  intro s k n kind seq va x bs unc clr push b hb hs hr hw hne hl t
  have hone : t = _ := State.storeAll_one (a := ⟨va, x, bs⟩) hb hr hl
  have hhome := s.toHome_of_plain hr unc x
  have hpos := List.length_pos_iff.2 hne
  by_cases near : s.owns b.core (lineOf x.pa) = true ∧ x.nc = false ∧ x.sc = false ∧ unc = false
  · rw [if_pos near]
    obtain ⟨howns, hnc, hsc, hunc⟩ := near
    have hf : s.toHome b unc x = false := by rw [hhome, howns, hnc, hsc, hunc]; rfl
    rw [hf, if_neg Bool.false_ne_true] at hone
    obtain ⟨u, w, hu, ht⟩ := State.storeHere_near (n := n) (kind := kind) (seq := seq) (clr := clr) (push := push)
      (a := ⟨va, x, bs⟩) hb hs hr hf fun _ => True
    rw [← hone] at ht
    have line : ∀ {q}, x.pa ≤ q → q < x.pa + bs.length → q / 128 = x.pa / 128 := by omega
    have hwu : Memory.wf u.mem = true := by rw [hu.mem]; exact hw
    have hread : ∀ q, t.rdByte x.kid q =
        if x.pa ≤ q ∧ q < x.pa + bs.length ∧ s.deadAt x.pa = false then bs.getD (q - x.pa) 0 else s.rdByte x.kid q := fun q => by
      rw [ht.read q trivial, State.rdByte_poke hwu, hu.read q trivial, hu.deadAt]
      refine if_congr (and_congr_right fun hlo => and_congr_right fun hhi => ?_) rfl rfl
      rw [s.deadAt_of_line (show q / 128 = x.pa / 128 from line hlo hhi)]
    refine ⟨fun q hq => ?_, fun q hq => ?_, ?_⟩
    · rw [ht.mem, State.mget_poke hwu hq, hu.mem]
    · rw [hread, if_neg (by omega)]
    · split
      next hd => exact State.rd_congr _ fun q _ _ => by rw [hread, hd, if_neg fun h => nomatch h.2.2]
      next hd =>
        refine State.rd_eq_of_getD fun j hj => ?_
        rw [hread, if_pos ⟨by omega, by omega, by simpa using hd⟩, Nat.add_sub_cancel_left]
  · rw [if_neg near]
    have hf : s.toHome b unc x = true := by
      rw [hhome]
      by_contra h
      simp only [Bool.not_eq_true, Bool.or_eq_false_iff, Bool.not_eq_false'] at h
      obtain ⟨⟨⟨hsc, hnc⟩, hunc⟩, howns⟩ := h
      exact near ⟨howns, hnc, hsc, hunc⟩
    rw [hf, if_pos rfl, State.storeHere_far (a := ⟨va, x, bs⟩) hb hs hf] at hone
    have hsent := State.hasSent_storeLine (s := s.setBlk k b) (n := n) (unc := unc) (clr := clr) (push := push)
      (a := ⟨va, x, bs⟩) (State.blk_setBlk s k b) (lineOf x.pa) []
    have hsame : s.SameReads x.kid (fun _ => True) t := by
      rw [hone]
      exact State.SameReads.trans (t := s.setBlk k b) (.of_cw (.of_eq rfl rfl rfl rfl rfl) rfl rfl) (State.sameReads_storeLine ..)
    exact ⟨fun q _ => by rw [hsame.mem], fun q _ => hsame.read q trivial, hsame.mem, by rw [hone]; exact hsent⟩

end Sys2Proof.Machine

/-! # Packets in the network

A hop of a packet, its delivery, and what a late one leaves (R254 to R258, R481). -/

namespace Sys2Proof.Machine

open Sys2Proof

/-! ### Paths -/

/-- A hop within a die goes along the row first, then along the column (R254). -/
theorem Router.hop_eq {a b r : Router} {port : Nat} (h : a.hop b = some (r, port)) :
    r = if a.col = b.col then { a with row := b.row } else { a with col := b.col } := by
  unfold Router.hop at h
  split at h
  next hc =>
    rw [if_neg hc]
    cases h
    rfl
  next hc =>
    rw [if_pos (not_not.1 hc)]
    split at h
    · cases h
      rfl
    · cases h

/-- Of two links, the one to the lesser die. -/
def lesserLink (m : Option (Nat × Nat × Nat)) (l : Nat × Nat × Nat) : Option (Nat × Nat × Nat) :=
  match m with
  | none => some l
  | some k => if l.2.1 < k.2.1 then some l else some k

/-- The least link of a list is one of it, or the one found before it, and leads to no greater die than any. -/
theorem foldl_lesserLink (ls : List (Nat × Nat × Nat)) {m : Option (Nat × Nat × Nat)} {l : Nat × Nat × Nat}
    (h : ls.foldl lesserLink m = some l) :
    (l ∈ ls ∨ m = some l) ∧ (∀ k ∈ ls, l.2.1 ≤ k.2.1) ∧ ∀ k, m = some k → l.2.1 ≤ k.2.1 := by
  induction ls generalizing m with
  | nil => exact ⟨.inr h, nofun, fun k hk => by rw [Option.some.inj (h.symm.trans hk)]⟩
  | cons a ls ih =>
    obtain ⟨hmem, hle, hm⟩ := ih h
    cases m with
    | none =>
      refine ⟨.inl ?_, fun k hk => ?_, nofun⟩
      · obtain hl | hl := hmem
        · exact List.mem_cons_of_mem a hl
        · rw [Option.some.inj hl]
          exact List.mem_cons_self
      · obtain rfl | hk := List.mem_cons.1 hk
        · exact hm k rfl
        · exact hle k hk
    | some j =>
      by_cases hlt : a.2.1 < j.2.1
      · have hs : lesserLink (some j) a = some a := if_pos hlt
        rw [hs] at hmem hm
        have hal := hm a rfl
        refine ⟨.inl ?_, fun k hk => ?_, fun k hk => ?_⟩
        · obtain hl | hl := hmem
          · exact List.mem_cons_of_mem a hl
          · rw [Option.some.inj hl]
            exact List.mem_cons_self
        · obtain rfl | hk := List.mem_cons.1 hk
          · exact hal
          · exact hle k hk
        · rw [← Option.some.inj hk]
          omega
      · have hs : lesserLink (some j) a = some j := if_neg hlt
        rw [hs] at hmem hm
        have hjl := hm j rfl
        refine ⟨hmem.imp_left (List.mem_cons_of_mem a), fun k hk => ?_, hm⟩
        obtain rfl | hk := List.mem_cons.1 hk
        · omega
        · exact hle k hk

/-- The next link of a path starts a shortest one, and of those the one to the least die (R481). -/
theorem State.nextLink_least {s : State} {a b : Nat} {l : Nat × Nat × Nat} (h : s.nextLink a b = some l) :
    l ∈ s.linksFrom a ∧ ∃ n, s.joined n a b = false ∧ s.joined n l.2.1 b = true ∧
      ∀ m ∈ s.linksFrom a, s.joined n m.2.1 b = true → l.2.1 ≤ m.2.1 := by
  unfold State.nextLink at h
  split at h
  · cases h
  · cases h
  next n hn =>
    obtain ⟨hmem, hle, -⟩ := foldl_lesserLink _ h
    obtain ⟨hl, hj⟩ := List.mem_filter.1 (hmem.resolve_right nofun)
    obtain ⟨-, -, hfirst⟩ := List.find?_range_eq_some.1 hn
    exact ⟨hl, n, by simpa using hfirst n (Nat.lt_succ_self n), hj, fun m hm hmj => hle m (List.mem_filter.2 ⟨hm, hmj⟩)⟩

/-! ### Deliveries -/

section

variable {s : State} {q : Pkt}

theorem State.foldl_modBand_eq (f : State → Nat × Nat → Band → Band) (l : List (Nat × Nat)) (s : State) :
    ∃ bs, l.foldl (fun s p => s.modBand p.1 p.2 (f s p)) s = { s with blocks := bs } := by
  induction l generalizing s with
  | nil => exact ⟨s.blocks, rfl⟩
  | cons p l ih =>
    obtain ⟨bs, e⟩ := ih (s.modBand p.1 p.2 (f s p))
    exact ⟨bs, e⟩

/-- The count of late packets of a die (R258). -/
def State.countLate (s : State) (die : Nat) : State := { s with pf := { s.pf with netlate := modAt s.pf.netlate die satInc } }

/-- A late packet changes counts, blocks and grids alone. -/
theorem State.latePkt_eq (s : State) (q : Pkt) :
    ∃ bs gs, s.latePkt q = { s.countLate q.dest.die with blocks := bs, grids := gs } := by
  unfold State.latePkt
  extract_lets p t bs u counts late
  obtain ⟨us, hu⟩ : ∃ us, u = { t with blocks := us } := State.foldl_modBand_eq _ bs t
  split
  · exact ⟨us, t.grids, hu⟩
  next g hg =>
    extract_lets quiet
    split
    · obtain ⟨vs, hv⟩ := State.foldl_modBand_eq (fun s _ x => x.raiseDl s.serial) late
        (u.modGrid q.lid fun g => { g with lastDl := some u.time })
      exact ⟨vs, tmod s.grids q.lid fun g => { g with lastDl := some u.time }, hv.trans (by rw [hu]; rfl)⟩
    · exact ⟨us, t.grids, hu⟩

/-- An access's packet counts for the band that issued it. -/
theorem State.lateBands_of_access (s : State) {k n : Nat} (hb : q.block = some (k, n))
    (hm : ∀ l i kid nc, q.msg ≠ .engine l i kid nc ∧ q.msg ≠ .engineRep l i) : s.lateBands q = [(k, n)] := by
  unfold State.lateBands
  rw [hb]
  dsimp only
  split
  next l i kid nc e => exact absurd e (hm l i kid nc).1
  next l i e => exact absurd e (hm l i 0 false).2
  next => rfl

theorem Band.asyncDl_count (x : Band) (p : Bool) (c n : Nat) : (x.count p c n).asyncDl = x.asyncDl := by
  unfold Band.count
  split <;> rfl

/-- A late packet of a band's access raises DEADLINE in its band, where its grid asks for it and none was raised before. -/
theorem State.latePkt_raises {k n : Nat} {g : Grid} {b : Block} {x : Band} (hbands : s.lateBands q = [(k, n)])
    (hg : s.grid q.lid = some g) (hx : g.dlx = true) (hl : g.lastDl = none) (hcls : q.cls ≠ .probe)
    (hmsg : ∀ c l d m v w, q.msg ≠ .writeback c l d m v w) (hb : s.blk k = some b) (hs : b.sid = none)
    (hband : b.band n = some x) (ha : x.asyncDl = none) :
    (((s.latePkt q).blk k).bind fun b => b.band n).map Band.asyncDl = some (some ⟨{ cls := .deadline }, false, s.serial⟩) ∧
      ((s.latePkt q).grid q.lid).map Grid.lastDl = some (some s.time) := by
  unfold State.latePkt
  extract_lets p t bs u counts late
  have hbs : bs = [(k, n)] := hbands
  have hu : ∃ f : Band → Band, (∀ x, (f x).asyncDl = x.asyncDl) ∧ u = t.modBand k n f := by
    refine ⟨fun x => x.count (((t.blk k).map fun b => t.dbg b 3).getD false) 6 1, fun x => x.asyncDl_count .., ?_⟩
    dsimp only [u]
    rw [hbs, List.foldl_cons, List.foldl_nil]
  obtain ⟨f, hf, hu⟩ := hu
  have hub : u.blk k = some (b.modBand n f) := by
    rw [hu, State.blk_modBand, show t.blk k = some b from hb, Option.map_some]
  have hux : (b.modBand n f).band n = some (f x) := by
    rw [Block.band_modBand, if_pos rfl, hband, Option.map_some]
  have hug : u.grid q.lid = some g := by
    rw [hu, State.grid_modBand]
    exact hg
  split
  next h => rw [hug] at h; cases h
  next g' hg' =>
    obtain rfl := Option.some.inj (hug.symm.trans hg')
    extract_lets quiet
    have hquiet : quiet = true := by
      dsimp only [quiet]
      rw [hl]
    have hcounts : counts = true := by
      dsimp only [counts]
      rw [Bool.and_eq_true]
      refine ⟨by simpa using hcls, ?_⟩
      split
      next e => exact (hmsg _ _ _ _ _ _ e).elim
      next => rfl
    have hlate : late = [(k, n)] := by
      dsimp only [late]
      rw [hbs, List.filter_singleton, hub]
      simp [Block.modBand, hs]
    have hdl : (f x).raiseDl u.serial = { f x with asyncDl := some ⟨{ cls := .deadline }, false, u.serial⟩ } := by
      rw [Band.raiseDl, hf, ha]
    rw [hx, hquiet, hcounts, hlate, if_pos (show (true && true && true && !List.isEmpty [(k, n)]) = true from rfl),
      List.foldl_cons, List.foldl_nil, State.blk_modBand,
      State.grid_modBand, State.grid_modGrid, if_pos rfl, hug]
    have hblk : (u.modGrid q.lid fun g => { g with lastDl := some u.time }).blk k = some (b.modBand n f) := hub
    have hserial : u.serial = s.serial := by rw [hu]; rfl
    have htime : u.time = s.time := by rw [hu]; rfl
    rw [hblk, Option.map_some, Option.bind_some, Block.band_modBand, if_pos rfl, hux, Option.map_some, Option.map_some]
    exact ⟨by rw [← hserial]; exact congrArg (fun x => some (Band.asyncDl x)) hdl, by rw [Option.map_some, Option.map_some, htime]⟩

theorem execPacketDelivery_moves (hq : s.net.find? (fun r => r.id == q.id) = some q) (hf : s.firstOut q = true) {r : Router}
    {port : Nat} {cross : Bool} (h : s.nextHop q = some (some (r, port, cross))) :
    execPacketDelivery q.id s = .next { s with net := s.net.map fun o => if o.id = q.id then
      { q with at' := r, inPort := port, since := s.now r.die, crossed := q.crossed + if cross then 1 else 0 } else o } := by
  unfold execPacketDelivery
  rw [hq]
  dsimp only
  rw [hf, h]
  cases cross <;> rfl

/-- A packet at its destination, as it arrives there. -/
def State.delivered (s : State) (q : Pkt) : State :=
  { s with net := s.net.filter (fun r => r.id != q.id), arrived := s.arrived ++ [{ q with since := s.now q.dest.die }] }

theorem execPacketDelivery_arrives (hq : s.net.find? (fun r => r.id == q.id) = some q) (hf : s.firstOut q = true)
    (h : s.nextHop q = some none) : execPacketDelivery q.id s =
      .next (if q.deadline < s.now q.dest.die then (s.delivered q).latePkt q else s.delivered q) := by
  unfold execPacketDelivery
  rw [hq]
  dsimp only
  rw [hf, h]
  rfl

end

/-- Settles O48: the hop by its branches, the link by the least of those that start a shortest path, and a delivery by what a
late packet changes. -/
theorem packetsTravel : Obligations.PacketsTravel := by
  unfold Obligations.PacketsTravel
  refine ⟨fun s q hq hf => ⟨fun r port cross h => execPacketDelivery_moves hq hf h, fun h => ?_⟩,
    fun a b r port h => Router.hop_eq h, fun s a b l h => State.nextLink_least h⟩
  refine ⟨_, execPacketDelivery_arrives hq hf h, ?_⟩
  by_cases hlate : q.deadline < s.now q.dest.die
  · rw [if_pos hlate, if_pos hlate]
    obtain ⟨bs, gs, e⟩ := (s.delivered q).latePkt_eq q
    refine ⟨by rw [e]; rfl, by rw [e]; rfl, by rw [e]; rfl, by rw [e]; rfl, by rw [e]; rfl, by rw [e]; rfl,
      fun hle => absurd hlate (Nat.not_lt.2 hle), ?_⟩
    intro g k n b x _ hg hx hl hblock hcls hwb heng hb hs hx ha
    exact State.latePkt_raises ((s.delivered q).lateBands_of_access hblock heng) hg ‹_› hl hcls hwb hb hs hx ha
  · rw [if_neg hlate, if_neg hlate]
    exact ⟨rfl, rfl, rfl, rfl, rfl, rfl, fun _ => ⟨rfl, rfl⟩, fun _ _ _ _ _ h => absurd h hlate⟩

end Sys2Proof.Machine

/-! # Work at the stacks

What a home's work at its stack leaves alone (R485 to R490): all but the codewords' tags and the channels' requests. -/

namespace Sys2Proof.Machine

open Sys2Proof

/-- Two states that differ in tags of codewords and in channels alone. -/
def State.StackSide (s t : State) : Prop := ∃ cw chs, t = { s with cw := cw, channels := chs }

namespace State.StackSide

theorem refl (s : State) : s.StackSide s := ⟨s.cw, s.channels, rfl⟩

theorem trans {s t u : State} (h : s.StackSide t) (h' : t.StackSide u) : s.StackSide u := by
  obtain ⟨_, _, rfl⟩ := h
  obtain ⟨cw, chs, rfl⟩ := h'
  exact ⟨cw, chs, rfl⟩

theorem foldl {α : Type} (f : State → α → State) (hf : ∀ (s : State) a, s.StackSide (f s a)) (l : List α) (s : State) :
    s.StackSide (l.foldl f s) := by
  induction l generalizing s with
  | nil => exact refl s
  | cons a l ih => exact (hf s a).trans (ih _)

variable {s t : State} (h : s.StackSide t)

include h

theorem mem : t.mem = s.mem := by obtain ⟨_, _, rfl⟩ := h; rfl
theorem homes : t.homes = s.homes := by obtain ⟨_, _, rfl⟩ := h; rfl
theorem net : t.net = s.net := by obtain ⟨_, _, rfl⟩ := h; rfl
theorem arrived : t.arrived = s.arrived := by obtain ⟨_, _, rfl⟩ := h; rfl
theorem cores : t.cores = s.cores := by obtain ⟨_, _, rfl⟩ := h; rfl
theorem blocks : t.blocks = s.blocks := by obtain ⟨_, _, rfl⟩ := h; rfl
theorem home (line : Nat) : t.home line = s.home line := by obtain ⟨_, _, rfl⟩ := h; rfl
theorem now (die : Nat) : t.now die = s.now die := by obtain ⟨_, _, rfl⟩ := h; rfl
theorem keyGen (kid : Nat) : t.keyGen kid = s.keyGen kid := by obtain ⟨_, _, rfl⟩ := h; rfl

end State.StackSide

section

variable (s : State)

theorem State.stackSide_markWrite (a : Nat) (r : StackReq) : s.StackSide (s.markWrite a r) := by
  refine .foldl _ (fun t j => ?_) _ s
  dsimp only
  split
  · exact ⟨_, t.channels, rfl⟩
  · exact .refl t

theorem State.stackSide_toStack (ch : Nat) (r : StackReq) : s.StackSide (s.toStack ch r) := ⟨s.cw, _, rfl⟩

theorem State.stackSide_readUnit (a kid : Nat) (f : StackFor) : s.StackSide (s.readUnit a kid f) := s.stackSide_toStack ..

theorem State.stackSide_writeUnit (a kid : Nat) (mask : BitVec 64) (data : List Byte) (f : StackFor) :
    s.StackSide (s.writeUnit a kid mask data f) := (s.stackSide_markWrite a _).trans (State.stackSide_toStack ..)

theorem State.stackSide_maskedUnit (work : StackFor) (kid pa : Nat) (bs : List Byte) :
    s.StackSide (s.maskedUnit work kid pa bs) := by
  unfold State.maskedUnit
  dsimp only
  split
  · exact .refl s
  split
  · split
    · exact (s.stackSide_markWrite ..).trans ⟨_, _, rfl⟩
    · exact s.stackSide_writeUnit ..
  · exact s.stackSide_writeUnit ..

theorem State.stackSide_maskedWrite (work : StackFor) (kid pa : Nat) (bs : List Byte) :
    s.StackSide (s.maskedWrite work kid pa bs) := .foldl _ (fun _ _ => State.stackSide_maskedUnit ..) _ s

theorem State.stackSide_ownedBack (work : StackFor) (line : Nat) (mask : BitVec 128) :
    s.StackSide (s.ownedBack work line mask) := by
  unfold State.ownedBack
  split
  · exact .refl s
  · refine .foldl _ (fun t j => ?_) _ s
    dsimp only
    split
    · exact .refl t
    · exact t.stackSide_writeUnit ..

theorem State.stackSide_unitWrite (r : StoreReq) (f : StackFor) (u : Nat) : s.StackSide (s.unitWrite r f u) :=
  s.stackSide_writeUnit ..

end

end Sys2Proof.Machine

/-! # Replies, recalls and expiries

What a delivered reply leaves in its band and core (R246, R247, R274, R278, R285), what a recall takes from its core and the
write-back from the home (R247), and what expiries, stack channels and page walks change (R250, R262, R485 to R489). -/

namespace Sys2Proof.Machine

open Sys2Proof

/-! ### Completed stores (R246, R274) -/

section

variable {s : State} {q : Pkt}

theorem State.blk_learnAll (s : State) (id w k : Nat) : (s.learnAll id w).blk k =
    (s.blk k).map fun b => { b with bands := b.bands.map fun x => x.learn id w } := 
  tget_map (f := fun p => (p.1, { p.2 with bands := p.2.bands.map fun x => x.learn id w })) s.blocks (fun _ => rfl) k

theorem State.blocks_scDone (s : State) (core : Nat) : (s.scDone core).blocks = s.blocks := by
  unfold State.scDone
  dsimp only
  split <;> rfl

theorem Band.learn_eq (x : Band) (id w : Nat) : x.learn id w =
    { x with horizon := (x.learn id w).horizon, waitW := x.waitW.filter (· != id) } := by
  unfold Band.learn
  split
  · rfl
  next h =>
    have hid : id ∉ x.waitW := by simpa using h
    rw [List.filter_eq_self.2 fun j hj => bne_iff_ne.2 fun e : j = id => hid (e ▸ hj)]

theorem Band.horizon_learn (x : Band) (id w : Nat) :
    (x.learn id w).horizon = x.horizon ∨ (x.learn id w).horizon = max x.horizon w := by
  unfold Band.learn
  split
  · exact .inr rfl
  · exact .inl rfl

/-- A completed store, before the next access of R281 goes out. -/
def State.storeTaken (s : State) (r : StoreReq) (w version : Nat) (err : Bool) : State :=
  ((s.setCore r.core ((s.core r.core).storeBack r w version)).learnAll r.id w).modBand r.block r.band fun x => x.storeBack r w err

theorem execStoreCompletion_eq (hq : s.waitingPkt q.id = some q) {r : StoreReq} {w version : Nat} {err : Bool}
    (hm : q.msg = .storeAck r w version err) : execStoreCompletion q.id s =
      let t := (s.takePkt q.id).storeTaken r w version err
      .next (if r.sc then t.scDone r.core else t) := by
  simp only [execStoreCompletion, hq, hm]
  rfl

/-- The completion of a store reaches its band, which learns its W. -/
theorem execStoreCompletion_takes (hq : s.waitingPkt q.id = some q) {r : StoreReq} {w version : Nat} {err : Bool}
    (hm : q.msg = .storeAck r w version err) {b : Block} {x : Band} (hb : s.blk r.block = some b) (hx : b.band r.band = some x) :
    ∃ t, execStoreCompletion q.id s = .next t ∧ t.mem = s.mem ∧
      ((t.blk r.block).bind fun b => b.band r.band) = some ((x.learn r.id w).storeBack r w err) := by
  have hband : (((s.takePkt q.id).storeTaken r w version err).blk r.block).bind (fun b => b.band r.band) =
      some ((x.learn r.id w).storeBack r w err) := by
    rw [State.storeTaken, State.blk_modBand, State.blk_learnAll, State.blk, State.setCore_blocks,
      show tget (s.takePkt q.id).blocks r.block = some b from hb, Option.map_some, Option.map_some, Option.bind_some,
      Block.band_modBand, if_pos rfl, Block.band, List.getElem?_map, show b.bands[r.band]? = some x from hx]
    rfl
  refine ⟨_, execStoreCompletion_eq hq hm, ?_, ?_⟩
  · split
    · exact State.mem_scDone ..
    · rfl
  · split
    · rw [State.blk, State.blocks_scDone]
      exact hband
    · exact hband

theorem Band.storeBack_spec (x : Band) (r : StoreReq) (w : Nat) (err : Bool) (x' : Band)
    (hx : x' = (x.learn r.id w).storeBack r w err) : x'.lanes = x.lanes ∧ x'.uregs = x.uregs ∧ r.id ∉ x'.waitW ∧
      x.horizon ≤ x'.horizon ∧
      (r.push = none → x'.horizon = max x.horizon w ∧ x'.storesOut = x.storesOut - 1 ∧ x'.pushesOut = x.pushesOut) ∧
      (∀ p, r.push = some p → x'.storesOut = x.storesOut ∧
        x'.pushesOut = x.pushesOut.map fun o => if o.1 = p then (p, max o.2 w) else o) ∧
      x'.werr = (if err = true ∧ x.werr = none then r.parts.head?.map fun a => BitVec.ofNat 64 a.1 else x.werr) := by
  have hh := x.horizon_learn r.id w
  have hwait : r.id ∉ x.waitW.filter (· != r.id) := by simp
  rw [x.learn_eq, Band.storeBack] at hx
  subst hx
  cases hp : r.push with
  | none =>
    refine ⟨rfl, rfl, hwait, ?_, fun _ => ⟨?_, rfl, rfl⟩, nofun, ?_⟩
    · exact Nat.le_trans (by omega) (Nat.le_max_left (x.learn r.id w).horizon w)
    · show max (x.learn r.id w).horizon w = _
      omega
    · simp [Band.stored, Band.seen, Option.isNone_iff_eq_none]
  | some p =>
    refine ⟨rfl, rfl, hwait, ?_, nofun, fun p' hp' => ?_, ?_⟩
    · show x.horizon ≤ (x.learn r.id w).horizon
      omega
    · rw [← Option.some.inj hp']
      exact ⟨rfl, rfl⟩
    · simp [Band.stored, Option.isNone_iff_eq_none]

/-! ### Recalls and write-backs (R247) -/

theorem Core.l1Line_l1Drop_self (c : Core) (line : Nat) : (c.l1Drop line).l1Line line = none := by
  simp [Core.l1Line, Core.l1Drop, List.find?_eq_none]

theorem State.owns_setCore_l1Drop (s : State) (c line : Nat) : (s.setCore c ((s.core c).l1Drop line)).owns c line = false := by
  rw [State.owns_eq, State.core_setCore, Core.l1Line_l1Drop_self]
  rfl

/-- A recalled line leaves its core, and an owner answers with its bytes. -/
theorem execRecall_drops (hq : s.waitingPkt q.id = some q) {c line : Nat} (hm : q.msg = .recall c line)
    (h : s.owns c line = true ∨ s.granting c line = false) : ∃ t, execRecall q.id s = .next t ∧ t.mem = s.mem ∧
      t.owns c line = false ∧
      (s.owns c line = true → ∃ p ∈ t.net, ∃ d m v, p.deadline = q.deadline ∧ p.msg = .writeback c line d m v none) := by
  unfold execRecall
  rw [hq]
  dsimp only
  rw [hm]
  dsimp only
  rw [State.owns_eq] at h ⊢
  have gone : (s.takePkt q.id).owns c line = s.owns c line := rfl
  split
  next x hx =>
    rw [hx] at h ⊢
    by_cases ho : x.owned = true
    · rw [if_pos ho]
      have hline : x.line = line := by simpa using List.find?_some hx
      refine ⟨_, rfl, rfl, State.owns_setCore_l1Drop (s.takePkt q.id) c line, fun _ => ⟨_,
        List.mem_append_right _ (List.mem_singleton_self _), if x.dirty then some x.data else none, x.mask, x.version, rfl,
        by rw [← hline]; rfl⟩⟩
    · have ho : x.owned = false := by simpa using ho
      have hg := h.resolve_left (by simp [ho])
      rw [if_neg (by simp [ho]), if_neg (by simp [hg])]
      exact ⟨_, rfl, rfl, by rw [gone, State.owns_eq, hx]; exact ho, fun e => by simp [ho] at e⟩
  next hx =>
    rw [hx] at h ⊢
    have hg := h.resolve_left (by simp)
    rw [if_neg (by simp [hg])]
    exact ⟨_, rfl, rfl, by rw [gone, State.owns_eq, hx]; rfl, nofun⟩

theorem State.home_setHome (s : State) (line : Nat) (h : HomeLine) : (s.setHome line h).home line = h := by
  rw [State.home, State.setHome, tget_tset_self]
  rfl

theorem State.granting_takePkt {c line : Nat} (h : s.granting c line = false) (p : Nat) :
    (s.takePkt p).granting c line = false := by
  rw [State.granting, List.any_eq_false] at h ⊢
  intro r hr
  obtain hr | hr := List.mem_append.1 hr
  · exact h r (List.mem_append_left _ hr)
  · exact h r (List.mem_append_right _ (List.mem_filter.1 hr).1)

theorem State.granting_congr {t : State} (hn : t.net = s.net) (ha : t.arrived = s.arrived) (c line : Nat) :
    t.granting c line = s.granting c line := by
  rw [State.granting, State.granting, hn, ha]

/-- A line that its owner gives back (R247). -/
def State.ownerGone (s : State) (line : Nat) : State :=
  (s.setHome line { s.home line with owner := none, recalling := false }).rearrive fun l => l == line

/-- A flush of a band counts its write-back off (R323). -/
def State.flushed (s : State) (wb : Option (Nat × Nat)) : State :=
  match wb with
  | some (k, n) => s.modBand k n fun x => { x with storesOut := x.storesOut - 1 }
  | none => s

/-- The home of a written-back line has no owner (R247). -/
theorem execOwnerWriteback_frees (hq : s.waitingPkt q.id = some q) {c line : Nat} {d : Option (List Byte)} {m : BitVec 128}
    {v : Nat} {wb : Option (Nat × Nat)} (hm : q.msg = .writeback c line d m v wb) (ho : (s.home line).owner = some c)
    (hown : s.owns c line = false) (hg : s.granting c line = false) :
    ∃ t, execOwnerWriteback q.id s = .next t ∧ t.mem = s.mem ∧
      t.home line = { s.home line with owner := none, recalling := false } := by
  obtain ⟨u, hu⟩ : ∃ u, u = if d.isSome then (s.takePkt q.id).ownedBack ((s.takePkt q.id).pktWork q) line m else s.takePkt q.id :=
    ⟨_, rfl⟩
  have hside : (s.takePkt q.id).StackSide u := by
    rw [hu]
    split
    · exact State.stackSide_ownedBack ..
    · exact .refl _
  have hkeep : (u.owns c line || u.granting c line) = false := by
    rw [State.owns_congr hside.cores, State.granting_congr hside.net hside.arrived, State.granting_takePkt hg, Bool.or_false]
    exact hown
  have hhome : u.home line = s.home line := hside.home line
  have hexec : execOwnerWriteback q.id s = .next ((u.ownerGone line).flushed wb) := by
    simp only [execOwnerWriteback, hq, hm]
    rw [← hu, if_pos ⟨ho, hkeep⟩, State.ownerGone, hhome]
    rfl
  refine ⟨_, hexec, ?_, ?_⟩
  · unfold State.flushed
    split <;> exact hside.mem
  · have hgone : (u.ownerGone line).home line = { s.home line with owner := none, recalling := false } :=
      (State.home_setHome ..).trans (by rw [hhome])
    unfold State.flushed
    split <;> exact hgone

/-! ### Watch answers, expiries, stack channels and page walks -/

/-- An answer resolves the entries that wait for it (R285). -/
theorem State.watchBack_resolves {k n : Nat} {b : Block} {x : Band} (hb : s.blk k = some b) (hx : b.band n = some x)
    (op line : Nat) (version ec : Option Nat) : ∃ x', ((s.watchBack k n op line version ec).blk k).bind (fun b => b.band n) =
      some x' ∧ x' = { x with watch := (x.resolveWatch op line version ec).watch, pcnt := x'.pcnt } := by
  have hsame : x.awaits op line = false → (x.resolveWatch op line version ec).watch = x.watch := fun h => by
    rw [Band.awaits, List.any_eq_false] at h
    exact (List.map_congr_left fun e he => if_neg (h e he)).trans (List.map_id _)
  unfold State.watchBack
  rw [hb]
  dsimp only
  rw [State.blk_modBand, hb, Option.map_some, Option.bind_some, Block.band_modBand, if_pos rfl, hx, Option.map_some]
  refine ⟨_, rfl, ?_⟩
  split
  · unfold Band.count
    split <;> rfl
  next h => rw [hsame (by simpa using h)]

theorem execWatchAnswer_eq (hq : s.waitingPkt q.id = some q) {k n op line version : Nat} {ec : Option Nat}
    (hm : q.msg = .watchAns k n op line version ec) :
    execWatchAnswer q.id s = .next ((s.takePkt q.id).watchBack k n op line none ec) := by
  simp only [execWatchAnswer, hq, hm]

theorem execLeaseExpiry_eq {core line : Nat} {c : L1Line} (hc : (s.core core).l1Line line = some c) (ho : c.owned = false)
    (he : c.expiry ≤ s.now (coreDie core)) :
    execLeaseExpiry core line s = .next (s.setCore core ((s.core core).l1Drop line)) := by
  unfold execLeaseExpiry
  rw [hc]
  dsimp only
  rw [if_neg (by simp [ho, he])]

theorem execStackRequest_eq {ch tag : Nat} {c : Channel} {r : StackReq} {rest : List StackReq} (hc : tget s.channels ch = some c)
    (hr : c.queue = r :: rest) (ht : tag < 8) (hfree : tget c.out tag = none) (hused : ∀ u, u < tag → (tget c.out u).isSome = true) :
    execStackRequest ch s =
      .next { s with channels := tset s.channels ch { c with queue := rest, out := tset c.out tag r } } := by
  have htag : ((List.range 8).find? fun t => (tget c.out t).isNone) = some tag :=
    List.find?_range_eq_some.2 ⟨by rw [hfree]; rfl, List.mem_range.2 ht, fun u hu => by simpa using hused u hu⟩
  unfold execStackRequest
  rw [hc]
  dsimp only
  rw [hr, htag]

theorem mem_keepLast {α : Type} {n : Nat} (l : List α) (a : α) (hn : 0 < n) : a ∈ keepLast n (l ++ [a]) := by
  rw [keepLast, List.length_append, List.length_singleton, List.drop_append_of_le_length (by omega)]
  exact List.mem_append_right _ (List.mem_singleton_self a)

theorem State.core_setCore_ne (s : State) {c d : Nat} (k : Core) (h : d ≠ c) : (s.setCore c k).core d = s.core d := by
  rw [State.core, State.setCore, tget_tset_ne _ _ h]
  rfl

/-- A walk's entry is the newest of its core's TLB (R268). -/
theorem State.tlbFill_fills (s : State) (core : Nat) {x : Xl} {e : TlbEnt} (hx : x.fill = some e) :
    e ∈ ((s.tlbFill core x).core core).tlb ∧ ∀ k, k ≠ core → (s.tlbFill core x).core k = s.core k := by
  have hcore : ∀ k, (s.tlbFill core x).core k =
      (s.setCore core { s.core core with tlb := keepLast 64 (((s.core core).tlb.filter (· != e)) ++ [e]) }).core k := fun k => by
    unfold State.tlbFill
    rw [hx]
    rfl
  constructor
  · rw [hcore, State.core_setCore]
    exact mem_keepLast _ e (by decide)
  · intro k hk
    rw [hcore, State.core_setCore_ne _ _ hk]

theorem execPageWalk_fills {core asid va : Nat} {c : Ctx} {e : TlbEnt} (hc : s.ctx asid = some c)
    (hw : s.walk asid none va 4 c.root = .leaf e) : ∃ t, execPageWalk core asid va s = .next t ∧ t.mem = s.mem ∧
      e ∈ (t.core core).tlb ∧ ∀ k, k ≠ core → t.core k = s.core k := by
  obtain ⟨ps, n, hask⟩ := s.askHomes_eq (coreRouter core) (s.walkFor core asid) none 0 ((s.walkLines va 4 c.root).map s.ownKeyAsk)
  have hcore : ∀ k, (s.askHomes (coreRouter core) (s.walkFor core asid) none 0
      ((s.walkLines va 4 c.root).map s.ownKeyAsk)).core k = s.core k := fun k => by rw [hask]; rfl
  unfold execPageWalk
  rw [hc]
  dsimp only
  rw [hw]
  obtain ⟨hin, hrest⟩ := (s.engineAsk core (s.walkFor core asid) none 0 ((s.walkLines va 4 c.root).map s.ownKeyAsk)).tlbFill_fills
    core (x := { pa := 0, attr := 0, kid := 0, reg := ⟨0, 0, 0, 0⟩, fill := some e }) rfl
  exact ⟨_, rfl, by simp, hin, fun k hk => (hrest k hk).trans (hcore k)⟩

theorem execPageWalk_keeps {core asid va : Nat} {c : Ctx} (hc : s.ctx asid = some c)
    (hw : (∃ cause, s.walk asid none va 4 c.root = .bad cause) ∨ s.walk asid none va 4 c.root = .poison) :
    execPageWalk core asid va s = .next s := by
  unfold execPageWalk
  rw [hc]
  dsimp only
  obtain ⟨cause, h⟩ | h := hw <;> rw [h]

/-- A channel after an error: the same requests are out under the same tags. -/
theorem Channel.out_settleError (c : Channel) (r : StackReq) (bad : Bool) (tag : Nat) (h : tget c.out tag = none) :
    tget (c.settleError r bad).out tag = none := by
  unfold Channel.settleError
  dsimp only
  refine (tget_map c.out ?_ tag).trans ?_
  · exact fun _ => rfl
  · rw [h]
    rfl

theorem Channel.out_countError (c : Channel) (now found : Nat) : (c.countError now found).out = c.out := by
  unfold Channel.countError
  dsimp only
  split
  · rfl
  · split <;> rfl

/-- What a reply does for its request leaves memory, channels, homes and tags alone. -/
theorem State.stackDone_eq (s : State) (ch : Nat) (r : StackReq) (bad : Bool) :
    ∃ net serial fns, s.stackDone ch r bad = { s with net := net, serial := serial, fns := fns } := by
  have same : ∃ net serial fns, s = { s with net := net, serial := serial, fns := fns } := ⟨s.net, s.serial, s.fns, rfl⟩
  unfold State.stackDone
  dsimp only
  split
  · split
    · exact same
    · unfold State.ackStore
      split
      · exact ⟨_, _, s.fns, rfl⟩
      · exact same
  · split
    · exact ⟨_, _, s.fns, rfl⟩
    · exact same
  · split
    · unfold State.logWriteError State.flog
      split
      · exact same
      · dsimp only
        split
        · exact ⟨s.net, s.serial, _, rfl⟩
        · exact same
    · exact same
  · exact same
  · exact same

theorem StackReq.mayErr_of_read {r : StackReq} (hk : r.kind = .rd) : r.mayErr = true := by
  rw [StackReq.mayErr, hk]
  rfl

/-- A read that comes back frees its tag; with an uncorrectable error, in a dead channel or before a mark, its line is poisoned
(R487, R489, R514). -/
theorem execStackReply_eq {ch tag found : Nat} {c : Channel} {r : StackReq} (hc : tget s.channels ch = some c)
    (hr : tget c.out tag = some r) (hk : r.kind = .rd) :
    let found' := if c.dead then 2 else found
    let bad := found' == 2 || r.psn
    let c' := ({ c with out := tdel c.out tag }.countError s.time found').settleError r bad
    let u : State := { s with channels := tset s.channels ch c' }
    execStackReply ch tag found s =
      .next ((if bad then u.holdPoison (lineOf (unitPa ch r.addr)) else u).stackDone ch r bad) := by
  have hmay := StackReq.mayErr_of_read hk
  have hrd : (r.kind == .rd) = true := by rw [hk]; rfl
  simp [execStackReply, hc, hr, hmay, hrd]

theorem execStackReply_reads {ch tag found : Nat} {c : Channel} {r : StackReq} (hc : tget s.channels ch = some c)
    (hr : tget c.out tag = some r) (hk : r.kind = .rd) (hrise : keysRise c.out = true) :
    ∃ t, execStackReply ch tag found s = .next t ∧ t.mem = s.mem ∧
      ((tget t.channels ch).map fun c => tget c.out tag) = some none ∧
      (found = 2 ∨ c.dead = true ∨ r.psn = true → (t.home (lineOf (unitPa ch r.addr))).poisoned = true) ∧
      (found < 2 → c.dead = false → r.psn = false → t.homes = s.homes) ∧ t.cw = s.cw := by
  have hexec := execStackReply_eq (found := found) hc hr hk
  extract_lets found' bad c' u at hexec
  have hout : tget c'.out tag = none :=
    Channel.out_settleError _ r bad tag (by rw [Channel.out_countError]; exact (tget_tdel c.out tag tag hrise).trans (if_pos rfl))
  have hchan : ((tget u.channels ch).map fun c => tget c.out tag) = some none := by
    rw [show tget u.channels ch = some c' from tget_tset_self .., Option.map_some, hout]
  obtain ⟨net, serial, fns, hdone⟩ := (if bad then u.holdPoison (lineOf (unitPa ch r.addr)) else u).stackDone_eq ch r bad
  rw [hdone] at hexec
  refine ⟨_, hexec, ?_, ?_, fun h => ?_, fun hf hd hp => ?_, ?_⟩
  · split <;> rfl
  · split <;> exact hchan
  · have hb : bad = true := by
      dsimp only [bad, found']
      obtain h | h | h := h <;> simp [h]
    rw [hb]
    exact congrArg HomeLine.poisoned (State.home_setHome ..)
  · have hb : bad = false := by
      dsimp only [bad, found']
      rw [hd, hp]
      simp
      omega
    rw [hb]
    rfl
  · split <;> rfl

end

end Sys2Proof.Machine

/-! # The end of an access in flight

What the end of an access gives its band and leaves alone (R49, R170, R274, R333), and the fill of an L1 (R244, R278). -/

namespace Sys2Proof.Machine

open Sys2Proof

/-! ### Results that come late -/

/-- A band whose access in flight has ended: the access is gone, its token and the lanes that waited for it are free. -/
structure Band.Ended (x y : Band) (id : Nat) : Prop where
  pend : y.pend = x.pend.filter fun p => p.id != id
  horizon : y.horizon = x.horizon
  uregs : y.uregs = x.uregs
  length : y.lanes.length = x.lanes.length
  vregs : ∀ l, (y.lane l).vregs = (x.lane l).vregs

theorem Band.vregs_map {x y : Band} {g : Lane → Lane} (h : y.lanes = x.lanes.map g) (hg : ∀ l, (g l).vregs = l.vregs) (l : Nat) :
    (y.lane l).vregs = (x.lane l).vregs := by
  rw [Band.lane, Band.lane, h, List.getD_eq_getElem?_getD, List.getD_eq_getElem?_getD, List.getElem?_map]
  cases x.lanes[l]? with
  | none => rfl
  | some a => exact hg a

section

variable {s : State} {k n : Nat} {b : Block} {x : Band} {p : PendOp}

theorem State.lateStop_of_noPush (s : State) (b : Block) (hp : p.push = none) : s.lateStop b p = none := by
  rw [State.lateStop, State.lateLoan, State.lateFull, hp]
  rfl

theorem Block.bands_signPend (b : Block) (n : Nat) (p : PendOp) : (b.signPend n p).bands = b.bands := by
  unfold Block.signPend
  split <;> rfl

theorem Block.band_signPend (b : Block) (n : Nat) (p : PendOp) (m : Nat) : (b.signPend n p).band m = b.band m := by
  rw [Block.band, Block.bands_signPend]
  rfl

/-- The end of an access puts the ended band back, with its results or with a push of them. -/
theorem State.pendDone_eq (hb : s.blk k = some b) (hx : b.band n = some x) (hl : s.lateStop b p = none) :
    ∃ y sm, x.Ended y p.id ∧ (p.push = none → s.pendDone k n p =
        { s with samples := sm }.setBlk k ((b.setBand n (y.put b p.outs)).signPend n p)) ∧
      ∀ id es, p.push = some (id, es) → s.pendDone k n p =
        ({ s with samples := sm }.setBlk k (b.setBand n y)).storeAll k n 5 p.seq false (fun _ => false) 
          (some id) (p.pushParts es) := by
  unfold State.pendDone
  split
  next h => rw [hb] at h; cases h
  next b₁ hb₁ =>
  obtain rfl := Option.some.inj (hb.symm.trans hb₁)
  split
  next h => rw [hx] at h; cases h
  next x₁ hx₁ =>
  obtain rfl := Option.some.inj (hx.symm.trans hx₁)
  rw [hl, Option.isSome_none, if_neg Bool.false_ne_true]
  extract_lets y u
  have hy : x.Ended y p.id := by
    refine ⟨rfl, rfl, rfl, List.length_map _, Band.vregs_map (x := x) rfl fun l => ?_⟩
    split
    · split <;> rfl
    · rfl
  obtain ⟨sm, hu⟩ : ∃ sm, u = { s with samples := sm } := by
    dsimp only [u]
    split
    · exact ⟨_, rfl⟩
    · exact ⟨s.samples, rfl⟩
  refine ⟨y, sm, hy, fun hp => ?_, fun id es hp => ?_⟩
  · rw [hp, hu]
  · rw [hp, hu]

/-- Results leave accesses in flight and the horizon alone. -/
theorem Band.put_rest (x : Band) (b : Block) (outs : List (Nat × Out)) :
    (x.put b outs).pend = x.pend ∧ (x.put b outs).horizon = x.horizon := by
  have hset : ∀ (ws : List (Nat × Word)) (y : Band), (ws.foldl (fun z w => z.setU w.1 w.2) y).pend = y.pend ∧
      (ws.foldl (fun z w => z.setU w.1 w.2) y).horizon = y.horizon := by
    intro ws
    induction ws with
    | nil => exact fun _ => ⟨rfl, rfl⟩
    | cons w ws ih => exact fun y => ih (y.setU w.1 w.2)
  exact hset (uniOuts outs) _

theorem PendOp.outs_load {sz : LSize} (hk : p.kind = .load sz) (hn : (p.lanes.map (·.lane)).Nodup) :
    p.outs = (p.lanes.map (·.lane)).map fun l => (l, { v := wordsAt p.d (loadWords sz
      (((p.lanes.find? fun q => q.lane == l).map PendLane.data).getD 0)) }) := by
  rw [PendOp.outs, hk, List.map_map]
  refine List.map_congr_left fun q hq => ?_
  dsimp only [Function.comp]
  rw [find?_of_nodup_map hn hq]
  rfl

theorem uregs_put_of_no_uni (x : Band) (b : Block) (ls : List Nat) {val : Nat → Out} (hv : ∀ l, (val l).u = []) :
    (x.put b (ls.map fun l => (l, val l))).uregs = x.uregs := by
  have hu : uniOuts (ls.map fun l => (l, val l)) = [] := by
    have hnone : (ls.map fun l => (l, val l)).find? (fun o => !o.2.u.isEmpty) = none := by
      simp [List.find?_eq_none, hv]
    rw [uniOuts, hnone]
  unfold Band.put
  rw [hu]
  rfl

/-- The bytes of a load that its reply completes: those at hand before, else those of the reply. -/
def PendLane.loaded (l : PendLane) (sz : LSize) (lo : Nat) (data : List Byte) : BitVec 128 :=
  if l.done then l.data else bytesV ((data.drop (l.pa % 128 - lo)).take (lsizeBytes sz))

/-- A load with the bytes of a reply that brings what every open lane needs. -/
def PendOp.loaded (p : PendOp) (sz : LSize) (lo : Nat) (data : List Byte) : PendOp :=
  { p with lanes := p.lanes.map fun l => { l with done := true, data := l.loaded sz lo data } }

theorem PendOp.fill_load {sz : LSize} {line lo : Nat} {data : List Byte} (hk : p.kind = .load sz)
    (h : ∀ l ∈ p.lanes, l.done = false → lineOf l.pa = line ∧ lo ≤ l.pa % 128 ∧ l.pa % 128 + lsizeBytes sz ≤ lo + data.length) :
    p.fill line lo data = p.loaded sz lo data := by
  have hpos : lsizeBytes sz ≠ 0 := by cases sz <;> decide
  unfold PendOp.fill PendOp.loaded
  refine congrArg (fun ls => { p with lanes := ls }) (List.map_congr_left fun l hl => ?_)
  rw [hk]
  cases hd : l.done with
  | true =>
    rw [Bool.not_true, Bool.false_and, Bool.false_and, Bool.false_and, Bool.false_and, if_neg Bool.false_ne_true,
      PendLane.loaded, if_pos hd, ← hd]
  | false =>
    obtain ⟨hline, hlo, hhi⟩ := h l hl hd
    rw [if_pos (by simp [hline, hlo, hhi, hpos]), PendLane.loaded, hd]
    rfl

/-- The registers of a loaded access, in a band that holds its lanes. -/
theorem Band.put_loaded {y : Band} {sz : LSize} {lo : Nat} {data : List Byte} (hk : p.kind = .load sz)
    (hn : (p.lanes.map (·.lane)).Nodup) (hlt : ∀ l ∈ p.lanes, l.lane < y.lanes.length) (b : Block) :
    (y.put b (p.loaded sz lo data).outs).uregs = y.uregs ∧
      (∀ l ∈ p.lanes, ∀ r, r < (y.lane l.lane).vregs.length → b.isPort r = false →
        ((y.put b (p.loaded sz lo data).outs).lane l.lane).v r =
          written (wordsAt p.d (loadWords sz (l.loaded sz lo data))) r ((y.lane l.lane).v r)) ∧
      ∀ j, (∀ l ∈ p.lanes, l.lane ≠ j) → ((y.put b (p.loaded sz lo data).outs).lane j).vregs = (y.lane j).vregs := by
  have hlanes : (p.loaded sz lo data).lanes.map (·.lane) = p.lanes.map (·.lane) := by
    rw [PendOp.loaded, List.map_map]
    rfl
  have hn' : ((p.loaded sz lo data).lanes.map (·.lane)).Nodup := by
    rw [hlanes]
    exact hn
  rw [PendOp.outs_load (p := p.loaded sz lo data) hk hn', hlanes]
  obtain ⟨-, hin, hout, -⟩ := y.put_spec b (p.lanes.map (·.lane)) fun l => { v := wordsAt (p.loaded sz lo data).d (loadWords sz
    ((((p.loaded sz lo data).lanes.find? fun q => q.lane == l).map PendLane.data).getD 0)) }
  refine ⟨uregs_put_of_no_uni _ _ _ fun _ => rfl, fun l hl r hr hport => ?_, fun j hj => congrArg Lane.vregs (hout j fun hm => ?_)⟩
  · have hmem : { l with done := true, data := l.loaded sz lo data } ∈ (p.loaded sz lo data).lanes :=
      List.mem_map_of_mem (f := fun l => { l with done := true, data := PendLane.loaded l sz lo data }) hl
    rw [hin l.lane (List.mem_map_of_mem hl) (hlt l hl), (Lane.put_spec ..).2.2.2.1 r hr hport]
    have hfind : (p.loaded sz lo data).lanes.find? (fun q => q.lane == l.lane) =
        some { l with done := true, data := l.loaded sz lo data } := find?_of_nodup_map (f := PendLane.lane) hn' hmem
    rw [hfind]
    rfl
  · obtain ⟨l, hl, e⟩ := List.mem_map.1 hm
    exact hj l hl e

/-- An access that replaces those of its number is gone with them. -/
theorem filter_replaced (ps : List PendOp) {p' : PendOp} {op : Nat} (h : p'.id = op) :
    (ps.map fun r => if r.id = op then p' else r).filter (fun r => r.id != op) = ps.filter fun r => r.id != op := by
  induction ps with
  | nil => rfl
  | cons r ps ih =>
    rw [List.map_cons]
    by_cases e : r.id = op
    · rw [if_pos e, List.filter_cons_of_neg (by simp [h]), List.filter_cons_of_neg (by simp [e]), ih]
    · rw [if_neg e, List.filter_cons_of_pos (by simp [e]), List.filter_cons_of_pos (by simp [e]), ih]

/-- A reply that completes a load without a push gives its lanes their registers. -/
theorem State.loadBack_gives {op line lo w : Nat} {data : List Byte} {o : PendOp} {sz : LSize} (hb : s.blk k = some b)
    (hx : b.band n = some x) (ho : x.pend.find? (fun p => p.id == op) = some o) (hk : o.kind = .load sz) (hp : o.push = none)
    (hn : (o.lanes.map (·.lane)).Nodup) (h : ∀ l ∈ o.lanes, l.lane < x.lanes.length ∧
      (l.done = false → lineOf l.pa = line ∧ lo ≤ l.pa % 128 ∧ l.pa % 128 + lsizeBytes sz ≤ lo + data.length)) :
    ∃ sm bs x', s.loadBack k n op line lo data w = { s with samples := sm, blocks := bs } ∧
      ((s.loadBack k n op line lo data w).blk k).bind (fun b => b.band n) = some x' ∧
      x'.pend = x.pend.filter (fun p => p.id != op) ∧ x'.horizon = max x.horizon w ∧ x'.uregs = x.uregs ∧
      (∀ l ∈ o.lanes, ∀ r, r < (x.lane l.lane).vregs.length → b.isPort r = false →
        (x'.lane l.lane).v r = written (wordsAt o.d (loadWords sz (l.loaded sz lo data))) r ((x.lane l.lane).v r)) ∧
      ∀ j, (∀ l ∈ o.lanes, l.lane ≠ j) → (x'.lane j).vregs = (x.lane j).vregs := by
  have hid : o.id = op := by simpa using List.find?_some ho
  obtain ⟨g, hg⟩ : ∃ g : Band → Band, g = fun x =>
    { x.seen w with pend := x.pend.map fun r => if r.id = op then o.loaded sz lo data else r } := ⟨_, rfl⟩
  have hback : s.loadBack k n op line lo data w = (s.modBand k n g).pendDone k n (o.loaded sz lo data) := by
    unfold State.loadBack
    rw [hb, Option.bind_some, hx, Option.bind_some, ho]
    dsimp only
    rw [PendOp.fill_load hk fun l hl => (h l hl).2, ← hg, if_pos (by simp [PendOp.loaded])]
  have hgb : (s.modBand k n g).blk k = some (b.modBand n g) := by rw [State.blk_modBand, hb, Option.map_some]
  have hgx : (b.modBand n g).band n = some (g x) := by rw [Block.band_modBand, if_pos rfl, hx, Option.map_some]
  obtain ⟨y, sm, hy, hdone, -⟩ := State.pendDone_eq hgb hgx (State.lateStop_of_noPush (s.modBand k n g) _
    (show (o.loaded sz lo data).push = none from hp))
  have hgl : (g x).lanes = x.lanes := by rw [hg]; rfl
  have hyl : ∀ j, (y.lane j).vregs = (x.lane j).vregs := fun j => (hy.vregs j).trans (by rw [Band.lane, hgl]; rfl)
  obtain ⟨hu, hin, hout⟩ := Band.put_loaded (y := y) (lo := lo) (data := data) hk hn
    (fun l hl => by rw [hy.length, hgl]; exact (h l hl).1) (b.modBand n g)
  obtain ⟨hpend, hhor⟩ := y.put_rest (b.modBand n g) (o.loaded sz lo data).outs
  rw [hback, hdone hp]
  refine ⟨sm, _, _, rfl, ?_, ?_, ?_, ?_, fun l hl r hr hport => ?_, fun j hj => (hout j hj).trans (hyl j)⟩
  · rw [State.blk_setBlk, Option.bind_some, Block.band_signPend, Block.band_setBand_self _ _ _ hgx]
  · rw [hpend, hy.pend, hg, show (o.loaded sz lo data).id = op from hid]
    exact filter_replaced x.pend hid
  · rw [hhor, hy.horizon, hg]
    rfl
  · rw [hu, hy.uregs, hg]
    rfl
  · rw [hin l hl r (by rw [hyl]; exact hr) hport]
    rw [Lane.v, Lane.v, hyl]

end

end Sys2Proof.Machine

/-! # Lines that reach a core

The lease of a reply and the line of a grant in the L1 of their core (R244, R247, R278). -/

namespace Sys2Proof.Machine

open Sys2Proof

/-! ### The L1 -/

theorem Core.l1Line_l1Drop_ne (c : Core) {line d : Nat} (h : line ≠ d) : (c.l1Drop d).l1Line line = c.l1Line line := by
  rw [Core.l1Line, Core.l1Drop, List.find?_filter]
  refine congrArg (fun p => c.l1.find? p) (funext fun x => ?_)
  by_cases e : x.line = line
  · simp [e, h]
  · simp [e]

/-- A line put into an L1 is found there, and the core's versions stay. -/
theorem State.l1Put_spec (s : State) (core lid : Nat) (x : L1Line) :
    ((s.l1Put core lid x).core core).l1Line x.line = some x ∧
      ((s.l1Put core lid x).core core).newest = (s.core core).newest ∧
      ∃ net serial cores, s.l1Put core lid x = { s with net := net, serial := serial, cores := cores } := by
  obtain ⟨c, hc⟩ : ∃ c, c = (s.core core).l1Drop x.line := ⟨_, rfl⟩
  obtain ⟨u, hu⟩ : ∃ u, u = s.setCore core { c with l1 := c.l1 ++ [x] } := ⟨_, rfl⟩
  have hcore : u.core core = { c with l1 := c.l1 ++ [x] } := by rw [hu, State.core_setCore]
  have hfind : (u.core core).l1Line x.line = some x := by
    have hgone : c.l1.find? (fun y => y.line == x.line) = none := by
      rw [hc]
      exact Core.l1Line_l1Drop_self ..
    rw [hcore, Core.l1Line, List.find?_append, hgone]
    simp
  have hnew : (u.core core).newest = (s.core core).newest := by rw [hcore, hc]; rfl
  have hform : ∃ net serial cores, u = { s with net := net, serial := serial, cores := cores } :=
    ⟨s.net, s.serial, _, by rw [hu]; rfl⟩
  unfold State.l1Put
  dsimp only
  rw [← hc, ← hu]
  split
  · split
    · exact ⟨hfind, hnew, hform⟩
    next o l ho =>
      have hne : x.line ≠ o.line := by
        have hmem : o ∈ c.l1 := ho ▸ List.mem_cons_self
        rw [hc] at hmem
        exact fun e => by simpa [e] using (List.mem_filter.1 hmem).2
      obtain ⟨net, serial, cores, e⟩ := hform
      have hgive : ∀ t : State, t.cores = (u.setCore core ((u.core core).l1Drop o.line)).cores →
          (t.core core).l1Line x.line = some x ∧ (t.core core).newest = (s.core core).newest := fun t ht => by
        have : t.core core = (u.core core).l1Drop o.line := by
          rw [State.core, ht]
          exact State.core_setCore ..
        rw [this, Core.l1Line_l1Drop_ne _ hne]
        exact ⟨hfind, hnew⟩
      unfold State.giveUp
      dsimp only
      split
      · obtain ⟨h, h'⟩ := hgive _ rfl
        exact ⟨h, h', _, _, _, by rw [e]; rfl⟩
      · obtain ⟨h, h'⟩ := hgive _ rfl
        exact ⟨h, h', _, _, _, by rw [e]; rfl⟩
  · exact ⟨hfind, hnew, hform⟩

theorem State.newestOf_received (s : State) (core line version : Nat) :
    ((s.received core line version).core core).newestOf line = max ((s.core core).newestOf line) version := by
  rw [State.received, State.core_setCore, Core.newestOf, tget_tset_self]
  rfl

/-- A lease that nothing newer stands against is in the L1 (R278). -/
theorem State.fillL1_fills {s : State} {core line version : Nat} (ho : s.owns core line = false)
    (hn : (s.core core).newestOf line ≤ version) (hs : (tget (s.core core).stored line).getD 0 ≤ version)
    (hu : ∀ u ∈ (s.core core).unacked, u.2 ≠ line) (lid : Nat) (data : List Byte) (expiry w : Nat) :
    ∃ c ∈ ((s.fillL1 core lid line false data expiry version w).core core).l1, c.line = line ∧ c.owned = false ∧
      c.expiry = expiry ∧ c.version = version ∧ c.data = data := by
  have htakes : ((s.received core line version).core core).takes line version = true := by
    have hnew := s.newestOf_received core line version
    rw [State.received, State.core_setCore] at hnew ⊢
    rw [State.owns_eq] at ho
    unfold Core.takes
    rw [hnew, Nat.max_eq_right hn]
    have hun : ((s.core core).unacked.any fun q => q.2 == line) = false := by
      rw [List.any_eq_false]
      exact fun q hq => by simpa using hu q hq
    dsimp only
    rw [hun]
    simpa using ⟨hs, ho⟩
  unfold State.fillL1
  dsimp only
  rw [htakes, if_neg (by simp)]
  exact ⟨_, List.mem_of_find?_eq_some (State.l1Put_spec ..).1, rfl, rfl, rfl, rfl, rfl⟩

theorem State.fillL1_eq (s : State) (core lid line : Nat) (unc : Bool) (data : List Byte) (expiry version w : Nat) :
    ∃ net serial cores, s.fillL1 core lid line unc data expiry version w =
      { s with net := net, serial := serial, cores := cores } := by
  unfold State.fillL1
  dsimp only
  split
  · exact ⟨_, _, _, rfl⟩
  · obtain ⟨-, -, net, serial, cores, e⟩ := (s.received core line version).l1Put_spec core lid
      ⟨line, false, expiry, false, version, w, data, [], 0⟩
    exact ⟨net, serial, cores, e.trans rfl⟩

/-! ### Grants (R247) -/

section

variable {s : State} {q : Pkt} {core line : Nat}

/-- With no access in flight no atomic waits for a line. -/
theorem State.performAll_of_idle (h : ∀ p ∈ s.blocks, ∀ x ∈ p.2.bands, x.pend = []) : s.performAll core line = s := by
  have hnone : s.atomsFor core line = [] := by
    refine List.flatMap_eq_nil_iff.2 fun p hp => List.flatMap_eq_nil_iff.2 fun n _ => ?_
    have hp := List.mem_filter.1 hp
    cases hx : p.2.band n with
    | none => rfl
    | some x =>
      rw [Option.map_some, Option.getD_some, h p hp.1 x (List.mem_of_getElem? hx)]
      rfl
  rw [State.performAll, hnone]
  rfl

/-- A grant that its home still records gives its core the line. -/
theorem State.ownBack_owns (ho : (s.home line).owner = some core) (h : ∀ p ∈ s.blocks, ∀ x ∈ p.2.bands, x.pend = []) (q : Pkt) :
    (s.ownBack q core line).mem = s.mem ∧ (s.ownBack q core line).owns core line = true ∧
      (s.home line).version ≤ ((s.ownBack q core line).core core).newestOf line := by
  have hnew : (s.home line).version ≤ ((s.received core line (s.home line).version).core core).newestOf line := by
    rw [State.newestOf_received]
    exact Nat.le_max_right ..
  unfold State.ownBack
  dsimp only
  rw [if_neg (not_not.2 ho)]
  split
  next hown =>
    rw [State.performAll_of_idle (s := s.received core line (s.home line).version) h]
    exact ⟨rfl, hown, hnew⟩
  next =>
    obtain ⟨hline, hn, net, serial, cores, e⟩ := (s.received core line (s.home line).version).l1Put_spec core q.lid
      ⟨line, true, 0, false, (s.home line).version, (s.home line).w,
        mread (s.received core line (s.home line).version).mem (128 * line) 128, [], 0⟩
    rw [State.performAll_of_idle (by rw [e]; exact h)]
    refine ⟨State.mem_l1Put .., ?_, ?_⟩
    · rw [State.owns_eq, hline]
      rfl
    · rw [Core.newestOf, hn]
      exact hnew

theorem execLoadReply_granted (hq : s.waitingPkt q.id = some q) (hm : q.msg = .ownRep core line) :
    execLoadReply q.id s = .next ((s.takePkt q.id).ownBack q core line) := by
  simp only [execLoadReply, hq, hm]

/-- A grant that a recall has overtaken is dropped where nothing waits for it. -/
theorem State.ownBack_drops (ho : (s.home line).owner ≠ some core) (ha : s.atomsWait core line = false) (q : Pkt) :
    s.ownBack q core line = s := by
  unfold State.ownBack
  dsimp only
  rw [if_pos ho, ha]
  rfl

end

end Sys2Proof.Machine

/-! # Replies to loads and atomics

The steps of a load's reply one after the other, and that no work of a core brings its band's horizon or its newest versions
back (R274, R278). -/

namespace Sys2Proof.Machine

open Sys2Proof

/-! ### Horizons and newest versions -/

/-- Band n of block k has received no less, and every core knows the versions that it did. -/
structure State.Onward (k n : Nat) (s t : State) : Prop where
  band : ∀ b x, s.blk k = some b → b.band n = some x →
    ∃ b' x', t.blk k = some b' ∧ b'.band n = some x' ∧ x.horizon ≤ x'.horizon
  newest : ∀ c, (t.core c).newest = (s.core c).newest

namespace State.Onward

variable {k n : Nat} {s t u : State}

theorem of_eq (hb : t.blocks = s.blocks) (hc : t.cores = s.cores) : State.Onward k n s t where
  band := fun b x h hx => ⟨b, x, (congrArg (tget · k) hb).trans h, hx, Nat.le_refl _⟩
  newest := fun c => by rw [State.core, hc, State.core]

theorem refl (k n : Nat) (s : State) : State.Onward k n s s := of_eq rfl rfl

theorem trans (h : State.Onward k n s t) (h' : State.Onward k n t u) : State.Onward k n s u where
  band := fun b x hb hx => by
    obtain ⟨b', x', hb', hx', hle⟩ := h.band b x hb hx
    obtain ⟨b'', x'', hb'', hx'', hle'⟩ := h'.band b' x' hb' hx'
    exact ⟨b'', x'', hb'', hx'', Nat.le_trans hle hle'⟩
  newest := fun c => (h'.newest c).trans (h.newest c)

theorem foldl {α : Type} (f : State → α → State) (hf : ∀ s a, State.Onward k n s (f s a)) (l : List α) (s : State) :
    State.Onward k n s (l.foldl f s) := by
  induction l generalizing s with
  | nil => exact refl k n s
  | cons a l ih => exact (hf s a).trans (ih _)

theorem setCore (s : State) {c : Nat} {x : Core} (h : x.newest = (s.core c).newest) : State.Onward k n s (s.setCore c x) where
  band := fun b x hb hx => ⟨b, x, hb, hx, Nat.le_refl _⟩
  newest := fun d => by
    by_cases e : d = c
    · rw [e, State.core_setCore, h]
    · rw [State.core_setCore_ne _ _ e]

theorem modBand (s : State) {f : Band → Band} (hf : ∀ x, x.horizon ≤ (f x).horizon) : State.Onward k n s (s.modBand k n f) where
  band := fun b x hb hx => ⟨b.modBand n f, f x, by rw [State.blk_modBand, hb]; rfl,
    by rw [Block.band_modBand, if_pos rfl, hx]; rfl, hf x⟩
  newest := fun _ => rfl

/-- A block is put back with band n's horizon no less. -/
theorem setBlk {s : State} {b c : Block} (hb : s.blk k = some b)
    (h : ∀ x, b.band n = some x → ∃ x', c.band n = some x' ∧ x.horizon ≤ x'.horizon) : State.Onward k n s (s.setBlk k c) where
  band := fun b' x hb' hx => by
    obtain rfl := Option.some.inj (hb.symm.trans hb')
    obtain ⟨x', hx', hle⟩ := h x hx
    exact ⟨c, x', State.blk_setBlk .., hx', hle⟩
  newest := fun _ => rfl

end State.Onward

section

variable (s : State) (k n : Nat)

theorem Band.horizon_stored (x : Band) (push : Option Nat) (w : Nat) : x.horizon ≤ (x.stored push w).horizon := by
  unfold Band.stored
  split
  · exact Nat.le_max_left ..
  · exact Nat.le_refl _

theorem State.cores_poke (kid pa w a : Nat) (bs : List Byte) : (s.poke kid pa w a bs).cores = s.cores := by
  have h := s.atWork_poke kid pa w a bs
  rw [State.atWork, State.atWork, Prod.mk.injEq] at h
  exact h.1

theorem State.onward_scSend (core : Nat) (a : ScAcc) : State.Onward k n s (s.scSend core a) := by
  unfold State.scSend
  dsimp only
  split
  · exact State.Onward.trans (t := s.setCore core { s.core core with scq := (s.core core).scq ++ [a] }) (.setCore s rfl)
      (.of_eq rfl rfl)
  · exact .setCore s rfl

theorem State.onward_scDone (core : Nat) : State.Onward k n s (s.scDone core) := by
  unfold State.scDone
  dsimp only
  split
  · exact .setCore s rfl
  · exact State.Onward.trans (t := s.setCore core { s.core core with scq := (s.core core).scq.drop 1 }) (.setCore s rfl)
      (.of_eq rfl rfl)

theorem State.onward_storeHere (kind seq : Nat) (unc clr : Bool) (push : Option Nat) (a : StorePart) :
    State.Onward k n s (s.storeHere k n kind seq unc clr push a) := by
  unfold State.storeHere
  split
  · exact .refl k n s
  next b hb =>
    extract_lets b' t w u samples t' line u₁ u₂ v u₃
    have hu : State.Onward k n s u := .setBlk hb fun x hx => ⟨x, by
      rw [← hx]
      dsimp only [b']
      split <;> simp only [Block.band, Block.bands_signWrite], Nat.le_refl _⟩
    split
    · exact hu
    · split
      · have hs : State.Onward k n u samples := .of_eq rfl rfl
        exact hu.trans (hs.trans (.modBand samples fun x => x.horizon_stored push w))
      · have h₁ : State.Onward k n u u₁ := .of_eq (State.blocks_poke ..) (State.cores_poke ..)
        have h₂ : State.Onward k n u₁ u₂ := by
          dsimp only [u₂]
          split
          · exact .of_eq rfl rfl
          · exact .refl k n u₁
        have h₃ : State.Onward k n u₂ u₃ := .setCore u₂ rfl
        exact hu.trans (h₁.trans (h₂.trans (h₃.trans (.modBand u₃ fun x => x.horizon_stored push t'))))

theorem State.onward_storeLine (unc clr : Bool) (push : Option Nat) (line : Nat) (as : List StorePart) :
    State.Onward k n s (s.storeLine k n unc clr push line as) := by
  unfold State.storeLine
  split
  · extract_lets id parts m c c₁ c₂ t u
    have ht : State.Onward k n s t := by
      refine State.Onward.trans (t := { s with serial := id + 1 }) (.of_eq rfl rfl) (.setCore _ ?_)
      dsimp only [c₂, c₁]
      split
      · rfl
      · split
        · split <;> rfl
        · rfl
    have hu : State.Onward k n t u := by
      dsimp only [u]
      split
      · exact t.onward_scSend ..
      · exact .of_eq rfl rfl
    split
    · exact ht.trans hu
    · exact ht.trans (hu.trans (.modBand u fun _ => Nat.le_refl _))
  · exact .refl k n s

theorem State.onward_storeAll (kind seq : Nat) (unc : Bool) (clr : Nat → Bool) (push : Option Nat) (as : List StorePart) :
    State.Onward k n s (s.storeAll k n kind seq unc clr push as) := by
  unfold State.storeAll
  split
  · exact .refl k n s
  · extract_lets as' far t u
    have ht : State.Onward k n s t := .foldl _ (fun s a => s.onward_storeHere ..) _ _
    have hu : State.Onward k n t u := by
      dsimp only [u]
      split
      next b _ _ =>
        obtain ⟨ps, m, e⟩ := t.askHomes_eq (coreRouter b.core) b.lid (some (k, n)) 0
          (as'.map fun a => (⟨lineOf a.x.pa, a.x.kid, a.x.nc⟩ : LineAsk)).eraseDups
        exact .of_eq (by rw [State.engineAsk, e]) (by rw [State.engineAsk, e])
      · exact .refl k n t
    exact ht.trans (hu.trans (.foldl _ (fun s l => s.onward_storeLine ..) _ _))

theorem State.onward_pendDone (p : PendOp) : State.Onward k n s (s.pendDone k n p) := by
  cases hb : s.blk k with
  | none =>
    unfold State.pendDone
    rw [hb]
    exact .refl k n s
  | some b =>
    cases hx : b.band n with
    | none =>
      unfold State.pendDone
      rw [hb]
      dsimp only
      rw [hx]
      exact .refl k n s
    | some x =>
      cases hl : s.lateStop b p with
      | some i =>
        unfold State.pendDone
        rw [hb]
        dsimp only
        rw [hx]
        dsimp only
        rw [hl]
        exact .modBand s fun _ => Nat.le_refl _
      | none =>
        obtain ⟨y, sm, hy, hnone, hsome⟩ := State.pendDone_eq hb hx hl
        have hsamples : State.Onward k n s { s with samples := sm } := .of_eq rfl rfl
        cases hp : p.push with
        | none =>
          rw [hnone hp]
          refine hsamples.trans (.setBlk (b := b) hb fun z hz => ?_)
          obtain rfl := Option.some.inj (hx.symm.trans hz)
          rw [Block.band_signPend, Block.band_setBand_self _ _ _ hx]
          exact ⟨_, rfl, by rw [(y.put_rest b p.outs).2, hy.horizon]⟩
        | some e =>
          rw [hsome e.1 e.2 hp]
          refine hsamples.trans (State.Onward.trans (.setBlk (b := b) hb fun z hz => ?_) (State.onward_storeAll ..))
          obtain rfl := Option.some.inj (hx.symm.trans hz)
          exact ⟨y, Block.band_setBand_self _ _ _ hx, by rw [hy.horizon]⟩

end

/-! ### The reply to read-modify-writes (R280) -/

section

variable {s : State} {q : Pkt}

theorem execLoadReply_atom (hq : s.waitingPkt q.id = some q) {r : AtomReq} {old : List DWord} {w version : Nat}
    (hm : q.msg = .atomRep r old w version) : execLoadReply q.id s =
      let t := ((s.takePkt q.id).received r.core r.line version).atomBack r old w
      .next (if r.sc then t.scDone r.core else t) := by
  simp only [execLoadReply, hq, hm]

/-- The band of an atomic receives the W of its values. -/
theorem State.atomBack_receives {r : AtomReq} {b : Block} {x : Band} (hb : s.blk r.block = some b) (hx : b.band r.band = some x)
    (ha : x.pend.any (fun p => p.id == r.op) = true) (old : List DWord) (w : Nat) :
    (∃ b' x', (s.atomBack r old w).blk r.block = some b' ∧ b'.band r.band = some x' ∧ max x.horizon w ≤ x'.horizon) ∧
      ∀ c, ((s.atomBack r old w).core c).newest = (s.core c).newest := by
  have hfind : (x.pend.find? fun p => p.id == r.op).isSome = true := by
    rwa [List.find?_isSome, ← List.any_eq_true]
  unfold State.atomBack
  rw [hb, Option.bind_some, hx, Option.bind_some]
  split
  next h => rw [h] at hfind; cases hfind
  next o _ =>
    extract_lets ls o' t
    have hblk : t.blk r.block = some (b.modBand r.band fun x =>
        { x.seen w with pend := x.pend.map fun q => if q.id = r.op then o' else q }) := by
      rw [State.blk_modBand, hb]
      rfl
    have hon : State.Onward r.block r.band t (if o'.lanes.all (·.done) then t.pendDone r.block r.band o' else t) := by
      split
      · exact t.onward_pendDone ..
      · exact .refl ..
    obtain ⟨b', x', hb', hx', hle⟩ := hon.band _ _ hblk (by rw [Block.band_modBand, if_pos rfl, hx]; rfl)
    exact ⟨⟨b', x', hb', hx', hle⟩, hon.newest⟩

end

end Sys2Proof.Machine

/-! # The steps of a core's messages, its leases, its stack channels and its page walks

The proof of the family's statement on what a core takes: replies, recalls, expiries, the channels of a stack, walks. -/

namespace Sys2Proof.Machine

open Sys2Proof

/-! ### The reply to a read (R244, R245, R274, R278) -/

section

variable {s : State} {q : Pkt}

/-- An answer to a watch changes a band's watch entries and counters alone. -/
theorem State.watchBack_eq {k : Nat} {b : Block} (hb : s.blk k = some b) (n op line : Nat) (version ec : Option Nat) :
    ∃ f : Band → Band, s.watchBack k n op line version ec = s.modBand k n f ∧
      ∀ x, ∃ watch pcnt, f x = { x with watch := watch, pcnt := pcnt } := by
  unfold State.watchBack
  split
  next h => rw [hb] at h; cases h
  next b' _ =>
    refine ⟨_, rfl, fun x => ?_⟩
    split
    · unfold Band.count
      split <;> exact ⟨_, _, rfl⟩
    · exact ⟨x.watch, x.pcnt, rfl⟩

theorem State.l1_scDone (s : State) (core c : Nat) : ((s.scDone core).core c).l1 = (s.core c).l1 := by
  obtain ⟨x, hx⟩ : ∃ x, x = { s.core core with scq := (s.core core).scq.drop 1 } := ⟨_, rfl⟩
  have hset : ((s.setCore core x).core c).l1 = (s.core c).l1 := by
    by_cases e : c = core
    · rw [e, State.core_setCore, hx]
    · rw [State.core_setCore_ne _ _ e]
  unfold State.scDone
  dsimp only
  rw [← hx]
  split <;> exact hset

/-- A read's reply after its lease: the answers of watches, the bytes held for later, the access in flight. -/
def State.readBack (s : State) (k n op line lo : Nat) (data : List Byte) (version w : Nat) (ec : Option Nat) (psn : Bool) : State :=
  ((s.watchBack k n op line (some version) ec).modBand k n fun x =>
    x.holdBack op ⟨128 * line + lo, data, w, version, ec, psn⟩).loadBack k n op line lo data w

variable {k n op core line lo : Nat} {unc sc : Bool} {data : List Byte} {expiry version w : Nat} {ec : Option Nat} {psn : Bool}

theorem execLoadReply_read (hq : s.waitingPkt q.id = some q)
    (hm : q.msg = .loadRep k n op core line lo unc sc data expiry version w ec psn) : execLoadReply q.id s =
      let t := ((s.takePkt q.id).fillL1 core q.lid line unc data expiry version w).readBack k n op line lo data version w ec psn
      .next (if sc && !t.moreReplies k n op line then t.scDone core else t) := by
  simp only [execLoadReply, hq, hm]
  rfl

/-- A reply that completes a load gives its lanes their registers, and leaves the cores alone. -/
theorem State.readBack_gives {b : Block} {x : Band} {o : PendOp} {sz : LSize} (hb : s.blk k = some b) (hx : b.band n = some x)
    (ho : x.pend.find? (fun p => p.id == op) = some o) (hk : o.kind = .load sz) (hp : o.push = none)
    (hn : (o.lanes.map (·.lane)).Nodup) (h : ∀ l ∈ o.lanes, l.lane < x.lanes.length ∧
      (l.done = false → lineOf l.pa = line ∧ lo ≤ l.pa % 128 ∧ l.pa % 128 + lsizeBytes sz ≤ lo + data.length)) :
    ∃ sm bs x', s.readBack k n op line lo data version w ec psn = { s with samples := sm, blocks := bs } ∧
      ((s.readBack k n op line lo data version w ec psn).blk k).bind (fun b => b.band n) = some x' ∧
      x'.pend = x.pend.filter (fun p => p.id != op) ∧ x'.horizon = max x.horizon w ∧ x'.uregs = x.uregs ∧
      (∀ l ∈ o.lanes, ∀ r, r < (x.lane l.lane).vregs.length → b.isPort r = false →
        (x'.lane l.lane).v r = written (wordsAt o.d (loadWords sz (l.loaded sz lo data))) r ((x.lane l.lane).v r)) ∧
      ∀ j, (∀ l ∈ o.lanes, l.lane ≠ j) → (x'.lane j).vregs = (x.lane j).vregs := by
  obtain ⟨f, hback, hf⟩ := State.watchBack_eq hb n op line (some version) ec
  obtain ⟨watch, pcnt, hfx⟩ := hf x
  obtain ⟨g, hg⟩ : ∃ g : Band → Band, g = fun x => x.holdBack op ⟨128 * line + lo, data, w, version, ec, psn⟩ := ⟨_, rfl⟩
  have hgb : ((s.modBand k n f).modBand k n g).blk k = some ((b.modBand n f).modBand n g) := by
    rw [State.blk_modBand, State.blk_modBand, hb, Option.map_some, Option.map_some]
  have hgx : ((b.modBand n f).modBand n g).band n = some (g (f x)) := by
    rw [Block.band_modBand, if_pos rfl, Block.band_modBand, if_pos rfl, hx, Option.map_some, Option.map_some]
  have hgf : g (f x) = { x with watch := watch, pcnt := pcnt, hold := (g (f x)).hold } := by
    rw [hfx, hg]
    rfl
  rw [State.readBack, hback, ← hg]
  obtain ⟨sm, bs, x', e, hx', hpend, hhor, hu, hin, hout⟩ := State.loadBack_gives (w := w) hgb hgx
    (by rw [hgf]; exact ho) hk hp hn (by rw [hgf]; exact h)
  rw [hgf] at hpend hhor hu hin hout
  exact ⟨sm, bs, x', e, hx', hpend, hhor, hu, hin, hout⟩

/-- A load's reply: the registers of its lanes, and the lease where nothing newer is known. -/
theorem execLoadReply_gives {b : Block} {x : Band} {o : PendOp} {sz : LSize} (hq : s.waitingPkt q.id = some q)
    (hm : q.msg = .loadRep k n op core line lo unc sc data expiry version w ec psn)
    (hb : s.blk k = some b) (hx : b.band n = some x)
    (ho : x.pend.find? (fun p => p.id == op) = some o) (hk : o.kind = .load sz) (hp : o.push = none)
    (hn : (o.lanes.map (·.lane)).Nodup) (h : ∀ l ∈ o.lanes, l.lane < x.lanes.length ∧
      (l.done = false → lineOf l.pa = line ∧ lo ≤ l.pa % 128 ∧ l.pa % 128 + lsizeBytes sz ≤ lo + data.length)) :
    ∃ t x', execLoadReply q.id s = .next t ∧ t.mem = s.mem ∧ (t.blk k).bind (fun b => b.band n) = some x' ∧
      x'.pend = x.pend.filter (fun p => p.id != op) ∧ x'.horizon = max x.horizon w ∧ x'.uregs = x.uregs ∧
      (∀ l ∈ o.lanes, ∀ r, r < (x.lane l.lane).vregs.length → b.isPort r = false →
        (x'.lane l.lane).v r = written (wordsAt o.d (loadWords sz (l.loaded sz lo data))) r ((x.lane l.lane).v r)) ∧
      (∀ j, (∀ l ∈ o.lanes, l.lane ≠ j) → (x'.lane j).vregs = (x.lane j).vregs) ∧
      (unc = false → s.owns core line = false → (s.core core).newestOf line ≤ version →
        (tget (s.core core).stored line).getD 0 ≤ version → (∀ u ∈ (s.core core).unacked, u.2 ≠ line) →
        ∃ c ∈ (t.core core).l1, c.line = line ∧ c.owned = false ∧ c.expiry = expiry ∧ c.version = version ∧ c.data = data) := by
  obtain ⟨u, hu⟩ : ∃ u, u = (s.takePkt q.id).fillL1 core q.lid line unc data expiry version w := ⟨_, rfl⟩
  obtain ⟨net, serial, cores, hfill⟩ := (s.takePkt q.id).fillL1_eq core q.lid line unc data expiry version w
  rw [← hu] at hfill
  have hub : u.blk k = some b := by rw [hfill]; exact hb
  obtain ⟨sm, bs, x', hback, hx', hpend, hhor, huregs, hin, hout⟩ :=
    State.readBack_gives (version := version) (w := w) (ec := ec) (psn := psn) hub hx ho hk hp hn h
  obtain ⟨t, ht⟩ : ∃ t, t = u.readBack k n op line lo data version w ec psn := ⟨_, rfl⟩
  have hexec := execLoadReply_read hq hm
  rw [← hu] at hexec
  rw [← ht] at hexec hback hx'
  have hmem : t.mem = s.mem := by rw [hback, hfill]; rfl
  have hl1 : unc = false → s.owns core line = false → (s.core core).newestOf line ≤ version →
      (tget (s.core core).stored line).getD 0 ≤ version → (∀ u ∈ (s.core core).unacked, u.2 ≠ line) →
      ∃ c ∈ (t.core core).l1, c.line = line ∧ c.owned = false ∧ c.expiry = expiry ∧ c.version = version ∧ c.data = data := by
    intro hunc hown hnew hst hun
    rw [hback]
    rw [hunc] at hu
    rw [hu]
    exact State.fillL1_fills (s := s.takePkt q.id) hown hnew hst hun q.lid data expiry w
  refine ⟨_, x', hexec, ?_, ?_, hpend, hhor, huregs, hin, hout, ?_⟩
  · split
    · exact (State.mem_scDone ..).trans hmem
    · exact hmem
  · split
    · rw [State.blk, State.blocks_scDone]
      exact hx'
    · exact hx'
  · split
    · rw [State.l1_scDone]
      exact hl1
    · exact hl1

/-- The values of an atomic raise its band's horizon and its core's version of the line (R280, R274). -/
theorem execLoadReply_atom_receives (hq : s.waitingPkt q.id = some q) {r : AtomReq} {old : List DWord}
    (hm : q.msg = .atomRep r old w version) {b : Block} {x : Band} (hb : s.blk r.block = some b) (hx : b.band r.band = some x)
    (ha : x.pend.any (fun p => p.id == r.op) = true) : ∃ t x', execLoadReply q.id s = .next t ∧
      (t.blk r.block).bind (fun b => b.band r.band) = some x' ∧ max x.horizon w ≤ x'.horizon ∧
      version ≤ (t.core r.core).newestOf r.line := by
  obtain ⟨u, hu⟩ : ∃ u, u = ((s.takePkt q.id).received r.core r.line version).atomBack r old w := ⟨_, rfl⟩
  obtain ⟨⟨b₁, x₁, hb₁, hx₁, hle⟩, hnew⟩ := State.atomBack_receives
    (s := (s.takePkt q.id).received r.core r.line version) hb hx ha old w
  have hexec := execLoadReply_atom hq hm
  rw [← hu] at hexec hb₁ hnew
  have hon : State.Onward r.block r.band u (if r.sc = true then u.scDone r.core else u) := by
    split
    · exact u.onward_scDone ..
    · exact .refl ..
  obtain ⟨b₂, x₂, hb₂, hx₂, hle₂⟩ := hon.band b₁ x₁ hb₁ hx₁
  refine ⟨_, x₂, hexec, by rw [hb₂]; exact hx₂, Nat.le_trans hle hle₂, ?_⟩
  rw [Core.newestOf, hon.newest, hnew]
  have := (s.takePkt q.id).newestOf_received r.core r.line version
  rw [Core.newestOf] at this
  rw [this]
  exact Nat.le_max_right ..

/-- A grant is taken where its home still records it, and dropped where a recall has overtaken it (R247). -/
theorem execLoadReply_grant (hq : s.waitingPkt q.id = some q) (hm : q.msg = .ownRep core line) :
    ((s.home line).owner = some core → ∃ t, execLoadReply q.id s = .next t ∧
      ((∀ p ∈ s.blocks, ∀ x ∈ p.2.bands, x.pend = []) → t.mem = s.mem ∧ t.owns core line = true ∧
        (s.home line).version ≤ (t.core core).newestOf line)) ∧
    ((s.home line).owner ≠ some core → s.atomsWait core line = false →
      execLoadReply q.id s = .next (s.takePkt q.id)) := by
  rw [execLoadReply_granted hq hm]
  exact ⟨fun ho => ⟨_, rfl, fun hidle => State.ownBack_owns (s := s.takePkt q.id) ho hidle q⟩,
    fun ho ha => by rw [State.ownBack_drops (s := s.takePkt q.id) ho ha]⟩

theorem execLoadReply_engine (hq : s.waitingPkt q.id = some q) {id : Nat} (hm : q.msg = .engineRep line id) :
    execLoadReply q.id s = .next (s.takePkt q.id) := by
  simp only [execLoadReply, hq, hm]

/-- The answer to a watch check confirms or strikes its entries and leaves the lanes alone (R285). -/
theorem execWatchAnswer_resolves (hq : s.waitingPkt q.id = some q) (hm : q.msg = .watchAns k n op line version ec) {b : Block}
    {x : Band} (hb : s.blk k = some b) (hx : b.band n = some x) :
    ∃ t x', execWatchAnswer q.id s = .next t ∧ t.mem = s.mem ∧ (t.blk k).bind (fun b => b.band n) = some x' ∧
      x'.lanes = x.lanes ∧ x'.watch = x.watch.map fun e =>
        if e.op = op ∧ e.line = line ∧ e.st = .unresolved then
          { e with st := if ec.isSome then .confirmed else .struck, ec := ec.getD 0 } else e := by
  obtain ⟨x', hx', e⟩ := State.watchBack_resolves (s := s.takePkt q.id) hb hx op line none ec
  refine ⟨_, x', execWatchAnswer_eq hq hm, State.mem_watchBack .., hx', by rw [e], ?_⟩
  rw [e]
  refine List.map_congr_left fun e _ => ?_
  cases ec <;> simp [and_assoc]

/-- Settles O50, message by message: the reply to a store, a recall, a write-back, a grant, an engine's and a read's reply, the
values of an atomic and a watch's answer; then expiries, the stack's channels and page walks. -/
theorem coresTakeReplies : Obligations.CoresTakeReplies := by
  intro s q
  refine ⟨fun hq => ⟨fun r w version err b x hm hb hx => ?_, fun c line hm h => execRecall_drops hq hm h,
      fun c line d m v wb hm ho hown hg => ?_, fun core line hm => execLoadReply_grant hq hm,
      fun line id hm => execLoadReply_engine hq hm, fun k n op core line lo unc sc data expiry version w ec psn hm =>
        ⟨⟨_, execLoadReply_read hq hm⟩, fun b x o sz hb hx ho hk hp hn h => execLoadReply_gives hq hm hb hx ho hk hp hn h⟩,
      fun r old w version b x hm hb hx ha => execLoadReply_atom_receives hq hm hb hx ha,
      fun k n op line version ec b x hm hb hx => execWatchAnswer_resolves hq hm hb hx⟩,
    fun core line c hc ho he => execLeaseExpiry_eq hc ho he,
    fun ch c r rest tag hc hr ht hfree hused => execStackRequest_eq hc hr ht hfree hused,
    fun ch c r tag found hc hr hk hrise => execStackReply_reads hc hr hk hrise,
    fun core asid va c hc => ⟨fun e hw => execPageWalk_fills hc hw, fun hw => execPageWalk_keeps hc hw⟩⟩
  · obtain ⟨t, hexec, hmem, hband⟩ := execStoreCompletion_takes hq hm hb hx
    exact ⟨t, _, hexec, hmem, hband, Band.storeBack_spec x r w err _ rfl⟩
  · obtain ⟨t, hexec, hmem, hhome⟩ := execOwnerWriteback_frees hq hm ho hown hg
    exact ⟨t, hexec, hmem, by rw [hhome], by rw [hhome], by rw [hhome]⟩

end

end Sys2Proof.Machine

/-! # A line in its slice

What bringing a line into its slice does to the line and to the rest: the lines given up for it are others (R248, R251), so its
version, its W, its owner and its bytes stay. -/

namespace Sys2Proof.Machine

open Sys2Proof

theorem lineOf_line (line : Nat) : lineOf (128 * line) = line := Nat.mul_div_cancel_left line (by decide)

/-! ### Work for a line that leaves the line alone -/

/-- Work at the homes and stacks that touches nothing of a line but its LX and its place in the shadow. -/
structure State.SliceWork (line : Nat) (s t : State) : Prop extends s.Firm t where
  frame : ∃ homes cw chs floors, t = { s with homes := homes, cw := cw, channels := chs, floors := floors }
  cw : ∀ n, n / 4 = line → tget t.cw n = tget s.cw n
  home : ∃ lx sh, t.home line = { s.home line with lx := lx, inShadow := sh }

namespace State.SliceWork

variable {line : Nat} {s t u : State}

theorem of_homes {homes : Tbl HomeLine} {chs : Tbl Channel} {floors : Tbl Nat}
    (ht : t = { s with homes := homes, channels := chs, floors := floors }) (hf : s.Firm t)
    (hh : ∃ lx sh, t.home line = { s.home line with lx := lx, inShadow := sh }) : SliceWork line s t where
  toFirm := hf
  frame := ⟨homes, s.cw, chs, floors, ht⟩
  cw := fun n _ => by rw [ht]
  home := hh

theorem refl (s : State) : SliceWork line s s := of_homes rfl (.refl s) ⟨_, _, rfl⟩

theorem trans (h : SliceWork line s t) (h' : SliceWork line t u) : SliceWork line s u where
  toFirm := h.toFirm.trans h'.toFirm
  frame := by
    obtain ⟨_, _, _, _, rfl⟩ := h.frame
    obtain ⟨homes, cw, chs, floors, e⟩ := h'.frame
    exact ⟨homes, cw, chs, floors, e⟩
  cw := fun n hn => (h'.cw n hn).trans (h.cw n hn)
  home := by
    obtain ⟨lx, sh, e⟩ := h.home
    obtain ⟨lx', sh', e'⟩ := h'.home
    exact ⟨lx', sh', by rw [e', e]⟩

theorem foldl {α : Type} (f : State → α → State) (l : List α) (hf : ∀ (s : State), ∀ a ∈ l, SliceWork line s (f s a)) (s : State) :
    SliceWork line s (l.foldl f s) := by
  induction l generalizing s with
  | nil => exact refl s
  | cons a l ih =>
    exact (hf s a List.mem_cons_self).trans (ih (fun s b hb => hf s b (List.mem_cons_of_mem _ hb)) _)

variable (h : SliceWork line s t)

include h

theorem mem : t.mem = s.mem := by obtain ⟨_, _, _, _, rfl⟩ := h.frame; rfl
theorem arrived : t.arrived = s.arrived := by obtain ⟨_, _, _, _, rfl⟩ := h.frame; rfl
theorem net : t.net = s.net := by obtain ⟨_, _, _, _, rfl⟩ := h.frame; rfl
theorem now (die : Nat) : t.now die = s.now die := by obtain ⟨_, _, _, _, rfl⟩ := h.frame; rfl
theorem leaseLen : t.leaseLen = s.leaseLen := by obtain ⟨_, _, _, _, rfl⟩ := h.frame; rfl
theorem version : (t.home line).version = (s.home line).version := by obtain ⟨_, _, e⟩ := h.home; rw [e]
theorem w : (t.home line).w = (s.home line).w := by obtain ⟨_, _, e⟩ := h.home; rw [e]
theorem inSlice : (t.home line).inSlice = (s.home line).inSlice := by obtain ⟨_, _, e⟩ := h.home; rw [e]
theorem poisoned : (t.home line).poisoned = (s.home line).poisoned := by obtain ⟨_, _, e⟩ := h.home; rw [e]

/-- The line's bytes read the same under every key. -/
theorem sameReads (kid : Nat) : State.SameReads kid (· / 128 = line) s t where
  toFirm := h.toFirm
  mem := h.mem
  read := fun q hq => State.rdByte_congr kid (by rw [h.cw (q / 32) (by omega)]) (fun _ _ => by rw [h.mem]) h.keyGen

theorem rd (kid : Nat) : t.rd kid (128 * line) 128 = s.rd kid (128 * line) 128 :=
  State.rd_congr 128 fun q hlo hhi => (h.sameReads kid).read q (by omega)

theorem linePoison : t.linePoison (128 * line) = s.linePoison (128 * line) := by
  have hcw : ∀ j ∈ List.range 4, t.cwPoison (4 * line + j) = s.cwPoison (4 * line + j) := fun j hj => by
    have hj := List.mem_range.1 hj
    rw [State.cwPoison, h.cw (4 * line + j) (by omega)]
    obtain ⟨_, _, _, _, rfl⟩ := h.frame
    rfl
  rw [State.linePoison, State.linePoison, h.deadAt, lineOf_line, h.poisoned]
  congr 1
  rw [Bool.eq_iff_iff, List.any_eq_true, List.any_eq_true]
  exact exists_congr fun j => and_congr_right fun hj => by rw [hcw j hj]

end State.SliceWork

section

variable (s : State) {line : Nat}

theorem State.home_setHome_ne {v l : Nat} (x : HomeLine) (h : l ≠ v) : (s.setHome v x).home l = s.home l := by
  rw [State.home, State.setHome, tget_tset_ne _ _ h, State.home]

theorem State.sliceWork_setHome_ne {v : Nat} (x : HomeLine) (h : line ≠ v) : State.SliceWork line s (s.setHome v x) :=
  .of_homes (homes := (s.setHome v x).homes) (chs := s.channels) (floors := s.floors) rfl (.of_eq rfl rfl rfl rfl rfl)
    ⟨_, _, s.home_setHome_ne x h⟩

theorem State.sliceWork_setHome_lx (lx : Nat) : State.SliceWork line s (s.setHome line { s.home line with lx := lx }) :=
  .of_homes (homes := (s.setHome line { s.home line with lx := lx }).homes) (chs := s.channels) (floors := s.floors) rfl
    (.of_eq rfl rfl rfl rfl rfl) ⟨_, _, s.home_setHome ..⟩

/-- A mark on another line. -/
theorem State.sliceWork_markWrite {a : Nat} (r : StackReq) (h : lineOf a ≠ line) : State.SliceWork line s (s.markWrite a r) := by
  refine .foldl _ _ (fun t j hj => ?_) s
  have hj := List.mem_range.1 hj
  have hne : ∀ n, n / 4 = line → n ≠ a / 64 * 2 + j := fun n hn e => h (by rw [lineOf]; omega)
  dsimp only
  split
  · exact ⟨.of_eq rfl rfl rfl rfl rfl, ⟨t.homes, _, t.channels, t.floors, rfl⟩, fun n hn => tget_tset_ne _ _ (hne n hn), _, _, rfl⟩
  · exact .refl t

theorem State.sliceWork_toStack (ch : Nat) (r : StackReq) : State.SliceWork line s (s.toStack ch r) :=
  .of_homes (homes := s.homes) (chs := (s.toStack ch r).channels) (floors := s.floors) rfl
    (State.Sealed.setChannel (.refl s) (Channel.dead_push ..)).toFirm ⟨_, _, rfl⟩

theorem State.sliceWork_writeUnit {a : Nat} (kid : Nat) (mask : BitVec 64) (data : List Byte) (f : StackFor) (h : lineOf a ≠ line) :
    State.SliceWork line s (s.writeUnit a kid mask data f) :=
  (s.sliceWork_markWrite _ h).trans (State.sliceWork_toStack ..)

theorem State.sliceWork_writeBack {v : Nat} (h : line ≠ v) : State.SliceWork line s (s.writeBack v) := by
  unfold State.writeBack
  split
  · exact .refl s
  · refine .foldl _ _ (fun t j hj => ?_) s
    have hj := List.mem_range.1 hj
    exact t.sliceWork_writeUnit _ _ _ _ fun e => h (by rw [lineOf] at e; omega)

theorem State.sliceWork_shadowTrim (sl : Nat) : State.SliceWork line s (s.shadowTrim sl) := by
  unfold State.shadowTrim
  dsimp only
  split
  · exact .refl s
  · generalize (s.sliceLines sl true).foldl _ _ = v
    refine .of_homes (homes := _) (chs := s.channels) (floors := _) rfl (.of_eq rfl rfl rfl rfl rfl) ?_
    by_cases e : line = v
    · subst e
      exact ⟨0, false, s.home_setHome ..⟩
    · exact ⟨_, _, s.home_setHome_ne _ e⟩

/-- The line that a full set gives up is another one (R251). -/
theorem State.sliceWork_sliceTrim (sl : Nat) : State.SliceWork line s (s.sliceTrim sl line) := by
  unfold State.sliceTrim
  dsimp only
  split
  · exact .refl s
  next hlen =>
    obtain ⟨v, rest, hv⟩ := List.exists_cons_of_length_pos (Nat.lt_of_lt_of_le (by decide : 0 < 16) (Nat.not_lt.1 hlen))
    have hne : line ≠ v := by
      have := (List.mem_filter.1 (hv ▸ List.mem_cons_self : v ∈ List.filter _ _)).2
      simp only [Bool.and_eq_true, bne_iff_ne, ne_eq] at this
      exact fun e => this.1 e.symm
    rw [hv, List.headD_cons]
    exact (s.sliceWork_writeBack hne).trans ((State.sliceWork_setHome_ne _ _ hne).trans (State.sliceWork_shadowTrim ..))

/-- A line that is in its slice, as `State.intoSlice` notes it. -/
def State.inSliceNow (s : State) (line : Nat) : State := s.setHome line { s.home line with inSlice := true, inShadow := false }

theorem State.home_inSliceNow (line : Nat) :
    (s.inSliceNow line).home line = { s.home line with inSlice := true, inShadow := false } := by
  rw [State.home, State.inSliceNow, State.setHome, tget_tset_self]
  rfl

theorem State.sliceWork_intoSlice (line : Nat) : State.SliceWork line (s.inSliceNow line) (s.intoSlice (128 * line)) := by
  unfold State.intoSlice
  rw [lineOf_line]
  exact State.sliceWork_sliceTrim ..

theorem State.sliceWork_readUnit (a kid : Nat) (f : StackFor) : State.SliceWork line s (s.readUnit a kid f) :=
  s.sliceWork_toStack ..

theorem State.sliceWork_fetchLine (line kid : Nat) :
    State.SliceWork line (s.inSliceNow line) (s.fetchLine (128 * line) kid) := by
  unfold State.fetchLine
  split
  · exact s.sliceWork_intoSlice line
  · exact (s.sliceWork_intoSlice line).trans (.foldl _ _ (fun t _ _ => t.sliceWork_readUnit ..) _)

/-- The two reads of a line that its slice takes are on their way (R490). -/
theorem State.fetching_fetchLine {line : Nat} (hi : (s.home line).inSlice = false) (hh : isHost (128 * line) = false) (kid : Nat) :
    (s.fetchLine (128 * line) kid).fetching line = true := by
  have hch : channelOf (128 * line + 64 * 1) = channelOf (128 * line) := by
    unfold channelOf
    omega
  unfold State.fetchLine
  rw [lineOf_line, hi, hh, if_neg (by decide)]
  generalize s.intoSlice (128 * line) = t
  simp only [List.range_succ, List.range_zero, List.nil_append, List.foldl_append, List.foldl_cons, List.foldl_nil]
  generalize t.readUnit (128 * line + 64 * 0) kid .slice = u
  unfold State.fetching State.readUnit State.toStack
  rw [hch, tget_tset_self]
  dsimp only
  rw [List.any_eq_true]
  refine ⟨_, List.mem_append_left _ (List.mem_append_right _ (List.mem_singleton_self _)), ?_⟩
  simp [localUnit]
  omega

end

end Sys2Proof.Machine

/-! # Reads, grants, checks and engines at a home

What a home does first with a request, and its answers to reads, to requests for ownership, to watch checks and to the device's
own units (R245, R247, R285, R490, R502). -/

namespace Sys2Proof.Machine

open Sys2Proof

theorem isHost_of_isDev {pa : Nat} (h : isDev pa = true) : isHost pa = false := by
  simp only [isDev, decide_eq_true_eq] at h
  simp only [isHost, Bool.and_eq_false_iff, decide_eq_false_iff_not]
  omega

section

variable {s : State} {q : Pkt} {line : Nat}

/-- An answer goes out under its request's deadline. -/
theorem State.answer_sends (s : State) (q : Pkt) (cls : PktCls) (dest : Router) (m : Msg) :
    ∃ p ∈ (s.answer q cls dest m).net, p.deadline = q.deadline ∧ p.dest = dest ∧ p.msg = m :=
  ⟨_, List.mem_append_right _ (List.mem_singleton_self _), rfl, rfl, rfl⟩

/-! ### What a home does first with a request -/

/-- A request's turn has come, and no loan holds its line (R246, R437). -/
def State.Due (s : State) (q : Pkt) (line : Nat) : Prop := s.pktLoan q line = none ∧ s.turnOf q line = true

theorem State.atHome_held (hd : s.Due q line) (hh : s.hostHeld.contains line = true) (ha : s.hostAsked.contains line = false)
    (keep : Option Nat) : s.atHome q line keep = .recall (s.backInvalidate line q.lid q.block q.deadline) := by
  obtain ⟨hl, ht⟩ := hd
  unfold State.atHome
  rw [hl, ht, hh, ha]
  rfl

theorem State.atHome_free (hd : s.Due q line) (hh : s.hostHeld.contains line = false) {keep : Option Nat}
    (ho : (s.home line).owner = none ∨ ∃ c, (s.home line).owner = some c ∧ keep = some c ∧ s.owns c line = true) :
    s.atHome q line keep = .go s := by
  obtain ⟨hl, ht⟩ := hd
  unfold State.atHome
  rw [hl, ht, hh, if_neg (by decide), if_neg (by decide)]
  obtain ho | ⟨c, ho, hk, hown⟩ := ho <;> rw [ho]
  exact if_pos ⟨hk, by rw [hown]; rfl⟩

theorem State.atHome_owned (hd : s.Due q line) (hh : s.hostHeld.contains line = false) {c : Nat}
    (ho : (s.home line).owner = some c) (hr : (s.home line).recalling = false) :
    s.atHome q line none = .recall (s.startRecall line c q) := by
  obtain ⟨hl, ht⟩ := hd
  unfold State.atHome
  rw [hl, ht, hh, if_neg (by decide), if_neg (by decide), ho]
  dsimp only
  rw [if_neg (fun h => nomatch h.1), hr]
  rfl

/-- A line that the host holds is asked back, whatever wants it (R502). -/
theorem exec_asksHost (hq : s.waitingPkt q.id = some q) (hd : s.Due q line) (hh : s.hostHeld.contains line = true)
    (ha : s.hostAsked.contains line = false) {i : Instr}
    (hi : (i = .loadRequest q.id ∧ ∃ k n op core kid unc nc sc watch, q.msg = .loadReq k n op core line kid unc nc sc watch) ∨
      (i = .storeArrival q.id ∧ ∃ r : StoreReq, q.msg = .storeReq r ∧ r.line = line) ∨
      (i = .storeArrival q.id ∧ ∃ r : AtomReq, q.msg = .atomReq r ∧ r.line = line) ∨
      (i = .ownershipGrant q.id ∧ ∃ core, q.msg = .ownReq core line)) :
    exec i s = .next (s.backInvalidate line q.lid q.block q.deadline) := by
  have gate := State.atHome_held hd hh ha
  obtain ⟨rfl, k, n, op, core, kid, unc, nc, sc, watch, hm⟩ | ⟨rfl, r, hm, rfl⟩ | ⟨rfl, r, hm, rfl⟩ | ⟨rfl, core, hm⟩ := hi
  · change execLoadRequest q.id s = _
    simp only [execLoadRequest, hq, hm, gate]
  · change execStoreArrival q.id s = _
    simp only [execStoreArrival, hq, hm, gate]
  · change execStoreArrival q.id s = _
    simp only [execStoreArrival, hq, hm, gate]
  · change execOwnershipGrant q.id s = _
    simp only [execOwnershipGrant, hq, hm, gate]

/-! ### Reads (R245, R490) -/

theorem State.home_raiseLx (s : State) (line : Nat) (e : Option Nat) :
    ∃ lx, (s.raiseLx line e).home line = { s.home line with lx := lx } ∧ ∀ x, e = some x → x ≤ lx := by
  unfold State.raiseLx
  split
  · exact ⟨_, rfl, nofun⟩
  next e => exact ⟨_, s.home_setHome .., fun x h => by obtain rfl := Option.some.inj h; exact Nat.le_max_right ..⟩

theorem State.sliceWork_raiseLx (s : State) (line : Nat) (e : Option Nat) : State.SliceWork line s (s.raiseLx line e) := by
  unfold State.raiseLx
  split
  · exact .refl s
  · exact s.sliceWork_setHome_lx _

/-- The answer to a read from the slice: the line's bytes, version, W and mark, and its lease. -/
theorem State.serveLoad_answers (s : State) (q : Pkt) (k n op core line kid : Nat) (unc sc watch : Bool) :
    let e := s.now (homeDie (128 * line)) + s.leaseLen
    let t := s.serveLoad q k n op core line kid unc sc watch
    t.mem = s.mem ∧ (unc = false → e ≤ (t.home line).lx) ∧ ∃ p ∈ t.net, ∃ ec, p.deadline = q.deadline ∧
      p.msg = .loadRep k n op core line 0 unc sc (s.rd kid (128 * line) 128) (if unc then 0 else e) (s.home line).version
        (s.home line).w ec (s.linePoison (128 * line)) := by
  intro e t
  obtain ⟨o, ho⟩ : ∃ o, o = if unc then s.watchEc watch line else some e := ⟨_, rfl⟩
  have ht : t = s.serveLoad q k n op core line kid unc sc watch := rfl
  unfold State.serveLoad at ht
  extract_lets ec u h at ht
  have hu : u = s.raiseLx line o := by rw [ho]
  have hwork : State.SliceWork line s u := hu ▸ s.sliceWork_raiseLx line o
  obtain ⟨p, hp, hdl, -, hmsg⟩ := u.answer_sends q .reply (coreRouter core) (.loadRep k n op core line 0 unc sc
    (u.rd kid (128 * line) 128) (if unc then 0 else e) h.version h.w ec (u.linePoison (128 * line)))
  rw [← ht] at hp
  have hhome : t.home line = u.home line := by rw [ht]; rfl
  refine ⟨by rw [ht]; exact hwork.mem, fun hunc => ?_, p, hp, ec, hdl, ?_⟩
  · obtain ⟨lx, hlx, hle⟩ := s.home_raiseLx line o
    rw [hhome, hu, hlx]
    exact hle e (by rw [ho, hunc]; rfl)
  · rw [hmsg, hwork.rd, hwork.linePoison, show h = u.home line from rfl, hwork.version, hwork.w]

/-- A line in its slice, as reads find it. -/
theorem State.reads_intoSlice (s : State) (line kid : Nat) :
    let t := s.intoSlice (128 * line)
    t.mem = s.mem ∧ t.rd kid (128 * line) 128 = s.rd kid (128 * line) 128 ∧ (t.home line).version = (s.home line).version ∧
      (t.home line).w = (s.home line).w ∧ t.linePoison (128 * line) = s.linePoison (128 * line) ∧
      (∀ d, t.now d = s.now d) ∧ t.leaseLen = s.leaseLen := by
  intro t
  have h := s.sliceWork_intoSlice line
  have hpoison : (s.inSliceNow line).linePoison (128 * line) = s.linePoison (128 * line) := by
    rw [State.linePoison, State.linePoison, lineOf_line, s.home_inSliceNow]
    rfl
  exact ⟨h.mem, h.rd kid, by rw [h.version, s.home_inSliceNow], by rw [h.w, s.home_inSliceNow], h.linePoison.trans hpoison,
    h.now, h.leaseLen⟩

section

variable {k n op core kid : Nat} {unc nc sc watch : Bool} (hq : s.waitingPkt q.id = some q)
  (hm : q.msg = .loadReq k n op core line kid unc nc sc watch) (hd : s.Due q line) (hh : s.hostHeld.contains line = false)

include hq hm hd hh

/-- A read of a line that its home can give (R245). -/
theorem execLoadRequest_answers (ho : (s.home line).owner = none) (hc : s.cold (128 * line) = false)
    (hn : nc = false ∨ isHost (128 * line) = true ∨ (s.home line).inSlice = true) :
    ∃ t, execLoadRequest q.id s = .next t ∧ t.mem = s.mem ∧
      (unc = false → s.now (homeDie (128 * line)) + s.leaseLen ≤ (t.home line).lx) ∧
      ∃ p ∈ t.net, ∃ ec, p.deadline = q.deadline ∧
        p.msg = .loadRep k n op core line 0 unc sc (s.rd kid (128 * line) 128)
          (if unc then 0 else s.now (homeDie (128 * line)) + s.leaseLen) (s.home line).version (s.home line).w ec
          (s.linePoison (128 * line)) := by
  have hpath : ¬((nc && !isHost (128 * line) && !(s.home line).inSlice) = true) := by
    obtain h | h | h := hn <;> simp [h]
  have hexec : execLoadRequest q.id s = .next ((if nc then s.takePkt q.id else (s.takePkt q.id).intoSlice (128 * line)).serveLoad
      q k n op core line kid unc sc watch) := by
    simp only [execLoadRequest, hq, hm, State.atHome_free hd hh (.inl ho), if_neg hpath, hc, Bool.false_eq_true, if_false]
  refine ⟨_, hexec, ?_⟩
  cases nc with
  | true => exact (s.takePkt q.id).serveLoad_answers q k n op core line kid unc sc watch
  | false =>
    obtain ⟨hmem, hrd, hver, hw, hp, hnow, hlen⟩ := (s.takePkt q.id).reads_intoSlice line kid
    obtain ⟨hmem', hlx, hans⟩ := ((s.takePkt q.id).intoSlice (128 * line)).serveLoad_answers q k n op core line kid unc sc watch
    rw [hrd, hver, hw, hp, hnow, hlen] at hans
    rw [hnow, hlen] at hlx
    exact ⟨hmem'.trans hmem, hlx, hans⟩

/-- A read of a line that its slice does not hold: the stack is asked (R490). -/
theorem execLoadRequest_fetches (ho : (s.home line).owner = none) (hn : nc = false) (hc : s.cold (128 * line) = true)
    (hf : s.fetching line = false) : ∃ t, execLoadRequest q.id s = .next t ∧ t.mem = s.mem ∧ t.arrived = s.arrived ∧
      t.fetching line = true := by
  have hexec : execLoadRequest q.id s = .next (s.fetchLine (128 * line) kid) := by
    simp only [execLoadRequest, hq, hm, State.atHome_free hd hh (.inl ho), hn, Bool.false_and, Bool.false_eq_true, if_false, hc,
      if_true, State.awaitLine, lineOf_line, hf]
  rw [State.cold, lineOf_line, hf, Bool.or_false, Bool.and_eq_true, Bool.not_eq_true'] at hc
  exact ⟨_, hexec, State.mem_fetchLine .., (s.sliceWork_fetchLine line kid).arrived,
    s.fetching_fetchLine hc.2 (isHost_of_isDev hc.1) kid⟩

/-- A read of a line that a core owns: it is recalled (R247). -/
theorem execLoadRequest_recalls {c : Nat} (ho : (s.home line).owner = some c) (hr : (s.home line).recalling = false) :
    ∃ t, execLoadRequest q.id s = .next t ∧ t.mem = s.mem ∧ t.arrived = s.arrived ∧ (t.home line).recalling = true ∧
      ∃ p ∈ t.net, p.deadline = q.deadline ∧ p.msg = .recall c line := by
  have hexec : execLoadRequest q.id s = .next (s.startRecall line c q) := by
    simp only [execLoadRequest, hq, hm, State.atHome_owned hd hh ho hr]
  exact ⟨_, hexec, rfl, rfl, by rw [State.startRecall, State.home_setHome], _,
    List.mem_append_right _ (List.mem_singleton_self _), rfl, rfl⟩

end

/-! ### Ownership, watch checks, the device's own reads -/

/-- Ownership is granted by a reply, once no other core's lease may stand (R247). -/
theorem execOwnershipGrant_grants (hq : s.waitingPkt q.id = some q) {core : Nat} (hm : q.msg = .ownReq core line)
    (hd : s.Due q line) (hh : s.hostHeld.contains line = false) (hc : s.cold (128 * line) = false)
    (ho : (s.home line).owner = none ∨ ((s.home line).owner = some core ∧ s.owns core line = true))
    (hx : (s.home line).owner = none →
      max (s.home line).lx (s.floorOf (128 * line)) ≤ s.now (homeDie (128 * line))) :
    ∃ t, execOwnershipGrant q.id s = .next t ∧ t.mem = s.mem ∧ (t.home line).owner = some core ∧
      ∃ p ∈ t.net, p.deadline = q.deadline ∧ p.msg = .ownRep core line := by
  have hopen : ¬(((s.home line).owner.isNone &&
      decide (s.now (homeDie (128 * line)) < max (s.home line).lx (s.floorOf (128 * line)))) = true) := by
    rw [Bool.and_eq_true, Option.isNone_iff_eq_none, decide_eq_true_eq]
    exact fun h => absurd h.2 (Nat.not_lt.2 (hx h.1))
  have hexec : execOwnershipGrant q.id s = .next ((s.takePkt q.id).grantTo q core line) := by
    simp only [execOwnershipGrant, hq, hm,
      State.atHome_free hd hh (keep := some core) (ho.imp_right fun h => ⟨core, h.1, rfl, h.2⟩), if_neg hopen, hc,
      Bool.false_eq_true, if_false]
  refine ⟨_, hexec, ((s.takePkt q.id).sliceWork_intoSlice line).mem, ?_, _, List.mem_append_right _ (List.mem_singleton_self _),
    rfl, rfl⟩
  exact congrArg HomeLine.owner (State.home_setHome ..)

/-- A watch check is answered by the line's version; a confirmation raises LX (R285). -/
theorem execWatchCheck_answers (hq : s.waitingPkt q.id = some q) {k n op core version : Nat}
    (hm : q.msg = .watchChk k n op core line version) (hd : s.storeDue q line = false) :
    let ok : Bool := (s.home line).recorded && (s.home line).version == version
    let e := q.since + s.leaseLen
    ∃ t, execWatchCheck q.id s = .next t ∧ t.mem = s.mem ∧ (ok = true → e ≤ (t.home line).lx) ∧
      ∃ p ∈ t.net, p.deadline = q.deadline ∧ p.msg = .watchAns k n op line version (if ok then some e else none) := by
  intro ok e
  have hexec : execWatchCheck q.id s = .next (((s.takePkt q.id).raiseLx line (if ok then some e else none)).answer q .reply
      (coreRouter core) (.watchAns k n op line version (if ok then some e else none))) := by
    simp only [execWatchCheck, hq, hm, hd, Bool.false_eq_true, if_false]
    rfl
  refine ⟨_, hexec, State.mem_raiseLx .., fun hok => ?_, _, List.mem_append_right _ (List.mem_singleton_self _), rfl, rfl⟩
  obtain ⟨lx, hlx, hle⟩ := (s.takePkt q.id).home_raiseLx line (if ok then some e else none)
  exact (hle e (if_pos hok)).trans_eq (congrArg HomeLine.lx hlx).symm

/-- What a unit of the device asks a home for comes into its slice, unless it is neither memory or its page says not to (R490). -/
theorem State.unitAsk_slices (s : State) (line kid : Nat) (nc : Bool) : (s.unitAsk line kid nc).net = s.net ∧
    (nc = false → isDev (128 * line) = true ∨ isHost (128 * line) = true →
      ((s.unitAsk line kid nc).home line).inSlice = true) := by
  unfold State.unitAsk
  dsimp only
  split
  next h =>
    refine ⟨rfl, fun _ hmem => ?_⟩
    rw [Bool.or_eq_true] at h
    exact h.resolve_right (by obtain h | h := hmem <;> simp [h])
  next =>
    have hfetch := s.sliceWork_fetchLine line kid
    cases nc with
    | true =>
      refine ⟨?_, nofun⟩
      rw [if_pos rfl]
      split
      · exact (State.StackSide.foldl _ (fun t _ => t.stackSide_readUnit ..) _ s).net
      · rfl
    | false => exact ⟨hfetch.net, fun _ _ => hfetch.inSlice.trans (by rw [s.home_inSliceNow])⟩

/-- What an engine, the walker, the dispatcher or the host asks for is answered without data (R490, R502). -/
theorem execLoadRequest_unit (hq : s.waitingPkt q.id = some q) {id kid : Nat} {nc : Bool} (hm : q.msg = .engine line id kid nc)
    (hh : q.cls = .request → s.hostHeld.contains line = false) : ∃ t, execLoadRequest q.id s = .next t ∧ t.mem = s.mem ∧
      (q.cls = .request → nc = false → isDev (128 * line) = true ∨ isHost (128 * line) = true →
        (t.home line).inSlice = true) ∧
      ∃ p ∈ t.net, p.deadline = q.deadline ∧ p.dest = q.src ∧ p.msg = .engineRep line id := by
  obtain ⟨u, hu⟩ : ∃ u, u = (s.takePkt q.id).answer q .reply q.src (.engineRep line id) := ⟨_, rfl⟩
  have hexec : execLoadRequest q.id s = .next (if q.cls = .request then u.unitAsk line kid nc else u) := by
    simp only [execLoadRequest, hq, hm]
    rw [if_neg fun h => absurd h.2 (by rw [hh h.1]; decide), hu]
  have hnet : ∃ p ∈ u.net, p.deadline = q.deadline ∧ p.dest = q.src ∧ p.msg = .engineRep line id :=
    hu ▸ (s.takePkt q.id).answer_sends ..
  obtain ⟨hn, hin⟩ := u.unitAsk_slices line kid nc
  have hmem : u.mem = s.mem := by rw [hu]; rfl
  refine ⟨_, hexec, ?_⟩
  split
  · exact ⟨(State.mem_unitAsk ..).trans hmem, fun _ => hin, by rw [hn]; exact hnet⟩
  next h => exact ⟨hmem, fun h' => absurd h' h, hnet⟩

end

end Sys2Proof.Machine

/-! # Stores and atomics at a home

The stores of an instruction and its read-modify-writes as their line's home performs them, and what the order of arrival makes
of the requests (R246, R280, R281, R490). -/

namespace Sys2Proof.Machine

open Sys2Proof

/-! ### What a write leaves of its line's record -/

section

variable (s : State) {kid : Nat} {P : Nat → Prop}

/-- Bytes written change the memory, the codewords' tags and the kept values alone. -/
theorem State.pokeBytes_eq (kid pa w a : Nat) (bs : List Byte) :
    ∃ mem cw hist, s.pokeBytes kid pa w a bs = { s with mem := mem, cw := cw, hist := hist } := by
  have hkey : ∀ (s : State) pa, ∃ mem cw, s.underKey kid pa = { s with mem := mem, cw := cw } := fun s pa => by
    unfold State.underKey
    split
    · exact ⟨s.mem, s.cw, rfl⟩
    · split
      · exact ⟨s.mem, _, rfl⟩
      · split
        · exact ⟨s.mem, s.cw, rfl⟩
        · exact ⟨_, _, rfl⟩
  induction bs generalizing s pa with
  | nil => exact ⟨s.mem, s.cw, s.hist, rfl⟩
  | cons b bs ih =>
    obtain ⟨mem, cw, hist, h⟩ := ih (s.pokeByte kid pa w a b) (pa + 1)
    obtain ⟨mem', cw', hist', h'⟩ : ∃ mem cw hist, s.pokeByte kid pa w a b = { s with mem := mem, cw := cw, hist := hist } := by
      unfold State.pokeByte
      split
      · exact ⟨s.mem, s.cw, s.hist, rfl⟩
      · obtain ⟨mem, cw, h⟩ := hkey s pa
        exact ⟨_, _, _, by rw [h]⟩
    exact ⟨mem, cw, hist, by rw [State.pokeBytes, h, h']⟩

theorem State.noteDirty_eq (kid pa : Nat) : ∃ fns, s.noteDirty kid pa = { s with fns := fns } := by
  unfold State.noteDirty
  split
  · exact ⟨s.fns, rfl⟩
  · dsimp only
    split
    · exact ⟨_, rfl⟩
    · exact ⟨s.fns, rfl⟩

/-- What a write changes besides: who keeps a live bitmap, and its line's record. -/
theorem State.poke_eq (kid pa w a : Nat) (bs : List Byte) : ∃ mem cw hist fns homes,
    s.poke kid pa w a bs = { s with mem := mem, cw := cw, hist := hist, fns := fns, homes := homes } := by
  obtain ⟨mem, cw, hist, h⟩ := s.pokeBytes_eq kid pa w a bs
  obtain ⟨fns, h'⟩ := (s.pokeBytes kid pa w a bs).noteDirty_eq kid pa
  exact ⟨mem, cw, hist, fns, _, by rw [State.poke, State.newVersion, h', h]; rfl⟩

/-- A write gives its line the next version and raises its W (R246, R284). -/
theorem State.home_poke (kid pa w a : Nat) (bs : List Byte) :
    ((s.poke kid pa w a bs).home (lineOf pa)).version = (s.home (lineOf pa)).version + 1 ∧
      ((s.poke kid pa w a bs).home (lineOf pa)).w = max (s.home (lineOf pa)).w w := by
  have hhome : ((s.pokeBytes kid pa w a bs).noteDirty kid pa).home (lineOf pa) = s.home (lineOf pa) := by
    obtain ⟨_, _, _, h⟩ := s.pokeBytes_eq kid pa w a bs
    obtain ⟨_, h'⟩ := (s.pokeBytes kid pa w a bs).noteDirty_eq kid pa
    rw [h', h]
    rfl
  rw [State.poke, State.newVersion, State.home_setHome, hhome]
  exact ⟨rfl, rfl⟩

theorem State.firm_poke (kid pa w a : Nat) (bs : List Byte) : s.Firm (s.poke kid pa w a bs) :=
  (s.firm_pokeBytes kid pa w a bs).trans (((State.sealed_noteDirty _ kid pa).trans (State.sealed_setHome ..)).toFirm)

/-! ### Marks under the key of the reads -/

/-- A mark changes no byte that a read under the key of its write returns. -/
theorem State.rdByte_mark (n : Nat) (p : Bool) (q : Nat) :
    State.rdByte { s with cw := tset s.cw n { (tget s.cw n).getD ⟨kid, s.keyGen kid, false⟩ with poison := p } } kid q =
      s.rdByte kid q := by
  by_cases e : q / 32 = n
  · subst e
    cases hc : tget s.cw (q / 32) with
    | none =>
      rw [State.rdByte, tget_tset_self, State.rdByte, hc]
      exact if_pos (.inr ⟨rfl, rfl⟩)
    | some c => exact State.rdByte_congr kid (by rw [tget_tset_self, hc]; rfl) (fun _ _ => rfl) fun _ => rfl
  · exact State.rdByte_congr kid (congrArg _ (tget_tset_ne _ _ e)) (fun _ _ => rfl) fun _ => rfl

theorem State.rdByte_markWrite (a : Nat) (r : StackReq) (q : Nat) (h : r.kid = kid) :
    (s.markWrite a r).rdByte kid q = s.rdByte kid q := by
  subst h
  have hmark : State.SameReads r.kid (fun _ => True) s (s.markWrite a r) := by
    refine .foldl _ (fun t j => ?_) _ s
    dsimp only
    split
    · exact ⟨.of_eq rfl rfl rfl rfl rfl, rfl, fun q _ => t.rdByte_mark _ _ q⟩
    · exact .refl t
  exact hmark.read q trivial

theorem State.sameReads_writeUnit (a : Nat) (mask : BitVec 64) (data : List Byte) (f : StackFor) :
    State.SameReads kid P s (s.writeUnit a kid mask data f) where
  toFirm := (s.sealed_writeUnit ..).toFirm
  mem := s.mem_writeUnit ..
  read := fun q _ => s.rdByte_markWrite a _ q rfl

theorem State.sameReads_maskedUnit (work : StackFor) (pa : Nat) (bs : List Byte) :
    State.SameReads kid P s (s.maskedUnit work kid pa bs) where
  toFirm := (s.sealed_maskedUnit ..).toFirm
  mem := s.mem_maskedUnit ..
  read := fun q _ => by
    unfold State.maskedUnit
    dsimp only
    split
    · rfl
    split
    · split
      next h => exact s.rdByte_markWrite pa _ q h.2.2.1
      · exact s.rdByte_markWrite pa _ q rfl
    · exact s.rdByte_markWrite pa _ q rfl

theorem State.sameReads_maskedWrite (work : StackFor) (pa : Nat) (bs : List Byte) :
    State.SameReads kid P s (s.maskedWrite work kid pa bs) := .foldl _ (fun t _ => t.sameReads_maskedUnit ..) _ s

end

end Sys2Proof.Machine

/-! # Stores and read-modify-writes performed at a home

The bytes, the version, the W and the answers of R246, R280, R281, R309 and R490, and with them the statement on what homes
serve. -/

namespace Sys2Proof.Machine

open Sys2Proof

/-! ### Stores (R246, R309) -/

/-- What a byte becomes by the parts of a store that cover it. -/
def storedByte (q : Nat) (v : Byte) (p : Nat × Nat × List Byte) : Byte :=
  if p.2.1 ≤ q ∧ q < p.2.1 + p.2.2.length then p.2.2.getD (q - p.2.1) 0 else v

/-- The parts of a store, performed one after the other. -/
def State.pokeParts (s : State) (kid w a : Nat) (ps : List (Nat × Nat × List Byte)) : State :=
  ps.foldl (fun s p => s.poke kid p.2.1 w a p.2.2) s

section

variable {s : State} {kid line w a : Nat} {ps : List (Nat × Nat × List Byte)}

theorem State.rdByte_pokeParts (hw : Memory.wf s.mem = true) {q : Nat} (hq : q / 128 = line) :
    (s.pokeParts kid w a ps).rdByte kid q =
      if s.deadAt (128 * line) = true then s.rdByte kid q else ps.foldl (storedByte q) (s.rdByte kid q) := by
  induction ps generalizing s with
  | nil => exact (ite_self _).symm
  | cons p ps ih =>
    have hdead : s.deadAt q = s.deadAt (128 * line) := s.deadAt_of_line (by omega)
    refine (ih (State.wf_poke hw ..)).trans ?_
    rw [(s.firm_poke ..).deadAt, State.rdByte_poke hw, List.foldl_cons, storedByte, hdead]
    cases s.deadAt (128 * line)
    · simp only [Bool.false_eq_true, if_false, and_true]
    · rw [if_pos rfl, if_pos rfl, if_neg fun h => absurd h.2.2 (by decide)]

theorem State.mget_pokeParts (hw : Memory.wf s.mem = true) {q : Nat}
    (h : ∀ p ∈ ps, ∀ j, j < p.2.2.length → q / 32 ≠ (p.2.1 + j) / 32) :
    mget (s.pokeParts kid w a ps).mem q = mget s.mem q := by
  induction ps generalizing s with
  | nil => rfl
  | cons p ps ih =>
    exact (ih (State.wf_poke hw ..) fun p' hp' => h p' (List.mem_cons_of_mem _ hp')).trans
      (State.mget_poke hw (h p List.mem_cons_self) w a)

theorem State.home_pokeParts (h : ∀ p ∈ ps, lineOf p.2.1 = line) :
    ((s.pokeParts kid w a ps).home line).version = (s.home line).version + ps.length ∧
      (ps ≠ [] → ((s.pokeParts kid w a ps).home line).w = max (s.home line).w w) := by
  have hgen : ∀ (ps : List (Nat × Nat × List Byte)) (s : State), (∀ p ∈ ps, lineOf p.2.1 = line) →
      ((s.pokeParts kid w a ps).home line).version = (s.home line).version + ps.length ∧
        max ((s.pokeParts kid w a ps).home line).w w = max (s.home line).w w ∧
        (ps ≠ [] → w ≤ ((s.pokeParts kid w a ps).home line).w) := by
    intro ps
    induction ps with
    | nil => exact fun s _ => ⟨rfl, rfl, fun h => absurd rfl h⟩
    | cons p ps ih =>
      intro s h
      have hp := s.home_poke kid p.2.1 w a p.2.2
      rw [h p List.mem_cons_self] at hp
      obtain ⟨hv, hw, hle⟩ := ih (s.poke kid p.2.1 w a p.2.2) fun p' hp' => h p' (List.mem_cons_of_mem _ hp')
      rw [hp.1] at hv
      rw [hp.2, Nat.max_assoc, Nat.max_self] at hw
      refine ⟨hv.trans (by rw [List.length_cons]; omega), hw, fun _ => ?_⟩
      cases ps with
      | nil => exact hp.2 ▸ Nat.le_max_right ..
      | cons p' ps' => exact hle (List.cons_ne_nil _ _)
  obtain ⟨hv, hw, hle⟩ := hgen ps s h
  exact ⟨hv, fun hne => (Nat.max_eq_left (hle hne)).symm.trans hw⟩

/-- A line made ready for a store: its bytes read the same, and its version and its W stay. -/
structure State.Readied (kid line : Nat) (s t : State) : Prop extends State.SameReads kid (· / 128 = line) s t where
  version : (t.home line).version = (s.home line).version
  w : (t.home line).w = (s.home line).w

theorem State.Readied.refl (s : State) : State.Readied kid line s s := ⟨.refl s, rfl, rfl⟩

theorem State.Readied.trans {t u : State} (h : State.Readied kid line s t) (h' : State.Readied kid line t u) :
    State.Readied kid line s u :=
  ⟨h.toSameReads.trans h'.toSameReads, h'.version.trans h.version, h'.w.trans h.w⟩

theorem State.SliceWork.readied {t : State} (h : State.SliceWork line (s.inSliceNow line) t) (kid : Nat) :
    State.Readied kid line s t where
  toSameReads := (State.sameReads_setHome ..).trans (h.sameReads kid)
  version := by rw [h.version, s.home_inSliceNow]
  w := by rw [h.w, s.home_inSliceNow]

theorem State.home_unpoison (s : State) (line : Nat) : (s.unpoison line).home line = { s.home line with poisoned := false } :=
  s.home_setHome ..

theorem State.readied_unpoison (s : State) (kid line : Nat) : State.Readied kid line s (s.unpoison line) where
  toSameReads := s.sameReads_unpoison line
  version := by rw [s.home_unpoison]
  w := by rw [s.home_unpoison]

theorem State.ownedPut_keeps (s : State) (line : Nat) (ps : List (Nat × Nat × List Byte)) :
    State.SameReads kid (fun _ => True) s (s.ownedPut line ps) ∧ (s.ownedPut line ps).home = s.home := by
  unfold State.ownedPut
  split
  · exact ⟨.refl s, rfl⟩
  · exact ⟨.of_cw (.of_eq rfl rfl rfl rfl rfl) rfl rfl, rfl⟩

/-- The line that a store makes ready: in its slice unless its page forbids it, and without its mark where it is cleared. -/
def State.storeReady (s : State) (r : StoreReq) : State :=
  let u := if r.nc then s else if r.clr then s.intoSlice (128 * r.line) else s.fetchLine (128 * r.line) r.kid
  if r.clr then u.unpoison r.line else u

theorem State.readied_storeReady (s : State) (r : StoreReq) : State.Readied r.kid r.line s (s.storeReady r) := by
  unfold State.storeReady
  extract_lets u
  have hu : State.Readied r.kid r.line s u := by
    dsimp only [u]
    split
    · exact .refl s
    · split
      · exact (s.sliceWork_intoSlice r.line).readied r.kid
      · exact (s.sliceWork_fetchLine r.line r.kid).readied r.kid
  split
  · exact hu.trans (u.readied_unpoison ..)
  · exact hu

/-- What a store does after its line is ready: its parts, then the writes of its units or its acknowledgement. -/
theorem State.serveStore_eq (s : State) (q : Pkt) (r : StoreReq) : s.serveStore q r =
    let w := s.wOf (128 * r.line) (s.storeA q (128 * r.line))
    let v := ((s.storeReady r).pokeParts r.kid w (s.storeA q (128 * r.line)) r.parts).ownedPut r.line r.parts
    if r.nc && !(s.home r.line).inSlice && !isHost (128 * r.line) then
      ((r.parts.map fun p => p.2.1 / 64 * 64).eraseDups).foldl (fun s u => s.unitWrite r (.store q w) u) v
    else v.ackStore q w false := rfl

theorem State.sameReads_unitWrite (s : State) (r : StoreReq) (f : StackFor) (u : Nat) :
    State.SameReads r.kid (fun _ => True) s (s.unitWrite r f u) := s.sameReads_writeUnit ..

/-- The stores of an instruction to a line, performed at its home: its bytes, its version and W, its acknowledgement. -/
theorem State.serveStore_performs (s : State) {q : Pkt} {r : StoreReq} (hm : q.msg = .storeReq r) (hw : Memory.wf s.mem = true)
    (hp : ∀ p ∈ r.parts, lineOf p.2.1 = r.line) :
    let w := s.wOf (128 * r.line) (s.storeA q (128 * r.line))
    let t := s.serveStore q r
    (∀ a, a / 128 = r.line → t.rdByte r.kid a = if s.deadAt (128 * r.line) = true then s.rdByte r.kid a
      else r.parts.foldl (storedByte a) (s.rdByte r.kid a)) ∧
    (∀ a, (∀ p ∈ r.parts, ∀ j, j < p.2.2.length → a / 32 ≠ (p.2.1 + j) / 32) → mget t.mem a = mget s.mem a) ∧
    (r.parts ≠ [] → (t.home r.line).w = max (s.home r.line).w w) ∧
    (t.home r.line).version = (s.home r.line).version + r.parts.length ∧
    (r.nc = false → ∃ p ∈ t.net, p.deadline = q.deadline ∧ p.msg = .storeAck r w (t.home r.line).version false) := by
  intro w t
  obtain ⟨u, hu⟩ : ∃ u, u = s.storeReady r := ⟨_, rfl⟩
  have ht : t = _ := s.serveStore_eq q r
  rw [← hu] at ht
  have hu : State.Readied r.kid r.line s u := hu ▸ s.readied_storeReady r
  obtain ⟨v, hv⟩ : ∃ v, v = (u.pokeParts r.kid w (s.storeA q (128 * r.line)) r.parts).ownedPut r.line r.parts := ⟨_, rfl⟩
  have ht : t = if r.nc && !(s.home r.line).inSlice && !isHost (128 * r.line) then
      ((r.parts.map fun p => p.2.1 / 64 * 64).eraseDups).foldl (fun s u => s.unitWrite r (.store q w) u) v
    else v.ackStore q w false := hv ▸ ht
  have hack : ∃ p ∈ (v.ackStore q w false).net, p.deadline = q.deadline ∧
      p.msg = .storeAck r w (v.home r.line).version false := by
    obtain ⟨p, hp, hdl, -, hmsg⟩ := v.answer_sends q .reply (coreRouter r.core) (.storeAck r w (v.home r.line).version false)
    refine ⟨p, ?_, hdl, hmsg⟩
    rw [State.ackStore, hm]
    exact hp
  have hend : State.SameReads r.kid (fun _ => True) v t ∧ t.home = v.home := by
    rw [ht]
    split
    · exact ⟨.foldl _ (fun s a => s.sameReads_unitWrite ..) _ v,
        funext (State.StackSide.foldl _ (fun s a => s.stackSide_unitWrite ..) _ v).home⟩
    · rw [State.ackStore, hm]
      exact ⟨.of_cw (.of_eq rfl rfl rfl rfl rfl) rfl rfl, rfl⟩
  obtain ⟨hput, hhome⟩ := State.ownedPut_keeps (kid := r.kid) (u.pokeParts r.kid w (s.storeA q (128 * r.line)) r.parts)
    r.line r.parts
  rw [← hv] at hput hhome
  obtain ⟨hver, hmax⟩ := State.home_pokeParts (s := u) (kid := r.kid) (w := w) (a := s.storeA q (128 * r.line)) hp
  have huw : Memory.wf u.mem = true := by rw [hu.mem]; exact hw
  rw [hend.2, hhome]
  refine ⟨fun a ha => ?_, fun a ha => ?_, fun hne => ?_, ?_, fun hn => ?_⟩
  · rw [hend.1.read a trivial, hput.read a trivial, State.rdByte_pokeParts huw ha, hu.deadAt, hu.read a ha]
  · rw [hend.1.mem, hput.mem, State.mget_pokeParts huw ha, hu.mem]
  · rw [hmax hne, hu.w]
  · rw [hver, hu.version]
  · rw [hn, Bool.false_and, Bool.false_and, if_neg (by decide)] at ht
    rw [ht, ← hhome]
    exact hack

/-! ### Read-modify-writes (R280, R281) -/

theorem State.rd_eq_map (s : State) (kid pa n : Nat) : s.rd kid pa n = (List.range n).map fun j => s.rdByte kid (pa + j) := by
  refine List.ext_getElem (by rw [State.length_rd, List.length_map, List.length_range]) fun j hj _ => ?_
  rw [← List.getD_eq_getElem _ 0 hj, State.getD_rd, if_pos (by rwa [State.length_rd] at hj), List.getElem_map, List.getElem_range]

theorem State.rmw_eq {k : Nat} {bk : Block} (hb : s.blk k = some bk) (n va : Nat) (x : Xl) (op : AOp) (w64 red : Bool) (b c : DWord)
    (seq t : Nat) {old : DWord} (ho : BitVec.ofNat 64 (leVal (s.rd x.kid x.pa (if w64 then 8 else 4))) = old) :
    ∃ cores bs, (tget bs k).isSome = true ∧ s.rmw k n va x op w64 red b c seq t =
      ({ s.poke x.kid x.pa t t (leBytes (if w64 then 8 else 4) (aopW op w64 old b c).toNat) with
        cores := cores, blocks := bs }, old) := by
  subst ho
  unfold State.rmw
  simp only [hb]
  refine ⟨_, _, ?_, rfl⟩
  exact (congrArg Option.isSome (State.blk_modBand ..)).trans (by rw [State.blk_setBlk]; rfl)

/-- A read-modify-write gives the value before, and the bytes of its address the value after. -/
theorem State.rmw_performs {k : Nat} {x : Xl} {w64 : Bool} (hw : Memory.wf s.mem = true) (hb : (s.blk k).isSome = true)
    (hd : ∀ j, j < (if w64 then 8 else 4) → s.deadAt (x.pa + j) = false) (n va : Nat) (op : AOp) (red : Bool) (b c : DWord)
    (seq t : Nat) :
    let sz := if w64 then 8 else 4
    let old : DWord := BitVec.ofNat 64 (leVal ((List.range sz).map fun j => s.rdByte x.kid (x.pa + j)))
    let new := leBytes sz (aopW op w64 old b c).toNat
    let u := s.rmw k n va x op w64 red b c seq t
    u.2 = old ∧ s.Firm u.1 ∧ Memory.wf u.1.mem = true ∧ (u.1.blk k).isSome = true ∧
      ∀ q, u.1.rdByte x.kid q = if x.pa ≤ q ∧ q < x.pa + sz then new.getD (q - x.pa) 0 else s.rdByte x.kid q := by
  obtain ⟨bk, hbk⟩ := Option.isSome_iff_exists.1 hb
  intro sz old new u
  obtain ⟨v, hv⟩ : ∃ v, v = s.poke x.kid x.pa t t new := ⟨_, rfl⟩
  obtain ⟨cores, bs, hbs, hu⟩ : ∃ cores bs, (tget bs k).isSome = true ∧ u = ({ v with cores := cores, blocks := bs }, old) :=
    hv ▸ State.rmw_eq hbk n va x op w64 red b c seq t (congrArg (fun bs => BitVec.ofNat 64 (leVal bs)) (State.rd_eq_map ..))
  have hval : u.2 = old := by rw [hu]
  have hfirm : v.Firm u.1 := by rw [hu]; exact .of_eq rfl rfl rfl rfl rfl
  have hmem : u.1.mem = v.mem := by rw [hu]
  have hcw : u.1.cw = v.cw := by rw [hu]
  have hblk : (u.1.blk k).isSome = true := by rw [hu]; exact hbs
  refine ⟨hval, (hv ▸ s.firm_poke ..).trans hfirm, by rw [hmem, hv]; exact State.wf_poke hw .., hblk, fun q => ?_⟩
  rw [(State.SameReads.of_cw (kid := x.kid) (P := fun _ => True) hfirm hmem hcw).read q trivial, hv, State.rdByte_poke hw,
    length_leBytes]
  refine if_congr ⟨fun h => ⟨h.1, h.2.1⟩, fun h => ⟨h.1, h.2, ?_⟩⟩ rfl rfl
  have := hd (q - x.pa) (by omega)
  rwa [Nat.add_sub_cancel' h.1] at this

/-- What one lane of an atomic makes of the bytes and of the values before. -/
def atomByLane (o : PendOp) (op : AOp) (w64 : Bool) (u : (Nat → Byte) × List DWord) (l : AtomLane) : (Nat → Byte) × List DWord :=
  let sz := if w64 then 8 else 4
  let old : DWord := BitVec.ofNat 64 (leVal ((List.range sz).map fun j => u.1 (l.pa + j)))
  let new := leBytes sz (aopW op w64 old (o.b.getD l.j 0) (o.c.getD l.j 0)).toNat
  ((fun a => if l.pa ≤ a ∧ a < l.pa + sz then new.getD (a - l.pa) 0 else u.1 a), u.2 ++ [old])

/-- The home's work for one lane of an atomic. -/
def State.serveLane (r : AtomReq) (b : Block) (o : PendOp) (op : AOp) (w64 red : Bool) (t : Nat) (u : State × List DWord)
    (l : AtomLane) : State × List DWord :=
  let v := u.1.rmw r.block r.band l.va { pa := l.pa, attr := l.attr, kid := l.kid, reg := ⟨0, 0, 0, 0⟩ } op w64 red
    (o.b.getD l.j 0) (o.c.getD l.j 0) o.seq t
  (v.1.maskedWrite b.work' l.kid l.pa (v.1.rd l.kid l.pa (if w64 then 8 else 4)), u.2 ++ [v.2])

theorem State.serveLanes_perform {r : AtomReq} {b : Block} {o : PendOp} {op : AOp} {w64 red : Bool} {t : Nat} {ls : List AtomLane}
    {old : List DWord} (hw : Memory.wf s.mem = true) (hb : (s.blk r.block).isSome = true) (hd : s.deadAt (128 * line) = false)
    (h : ∀ l ∈ ls, l.kid = kid ∧ 128 * line ≤ l.pa ∧ l.pa + (if w64 then 8 else 4) ≤ 128 * line + 128) :
    let u := ls.foldl (State.serveLane r b o op w64 red t) (s, old)
    let run := ls.foldl (atomByLane o op w64) (s.rdByte kid, old)
    u.1.rdByte kid = run.1 ∧ u.2 = run.2 := by
  induction ls generalizing s old with
  | nil => exact ⟨rfl, rfl⟩
  | cons l ls ih =>
    obtain ⟨hkid, hlo, hhi⟩ := h l List.mem_cons_self
    obtain ⟨hval, hfirm, hwf, hblk, hread⟩ := State.rmw_performs (w64 := w64)
      (x := { pa := l.pa, attr := l.attr, kid := l.kid, reg := ⟨0, 0, 0, 0⟩ }) hw hb
      (fun j hj => (s.deadAt_of_line (show (l.pa + j) / 128 = 128 * line / 128 by omega)).trans hd) r.band l.va op red
      (o.b.getD l.j 0) (o.c.getD l.j 0) o.seq t
    generalize hv : s.rmw r.block r.band l.va _ op w64 red _ _ o.seq t = v at hval hfirm hwf hblk hread
    obtain ⟨x, hx⟩ : ∃ x, x = State.serveLane r b o op w64 red t (s, old) l := ⟨_, rfl⟩
    have hx₁ : x.1 = v.1.maskedWrite b.work' l.kid l.pa (v.1.rd l.kid l.pa (if w64 then 8 else 4)) := by
      rw [hx, State.serveLane, hv]
    have hx₂ : x.2 = old ++ [v.2] := by rw [hx, State.serveLane, hv]
    have hsame : State.SameReads l.kid (fun _ => True) v.1 x.1 := hx₁ ▸ v.1.sameReads_maskedWrite ..
    have hstep : (x.1.rdByte kid, x.2) = atomByLane o op w64 (s.rdByte kid, old) l := by
      subst hkid
      refine Prod.ext (funext fun q => (hsame.read q trivial).trans (hread q)) ?_
      rw [hx₂, hval]
      rfl
    have hside : v.1.StackSide x.1 := hx₁ ▸ v.1.stackSide_maskedWrite ..
    have := ih (s := x.1) (old := x.2) (by rw [hsame.mem]; exact hwf) (by rw [State.blk, hside.blocks]; exact hblk)
      (by rw [hsame.deadAt, hfirm.deadAt]; exact hd) fun l' hl' => h l' (List.mem_cons_of_mem _ hl')
    rw [hstep] at this
    rw [List.foldl_cons, List.foldl_cons, ← hx]
    exact this

/-- The read-modify-writes of an atomic at its line's home: the bytes after, the values before in the answer. -/
theorem State.serveAtom_performs {q : Pkt} {r : AtomReq} {b : Block} {x : Band} {o : PendOp} {op : AOp} {w64 : Bool}
    (hb : s.blk r.block = some b) (hx : b.band r.band = some x) (ho : x.pend.find? (fun p => p.id == r.op) = some o)
    (hk : o.kind = .atom op w64 ∨ o.kind = .red op w64) (hw : Memory.wf s.mem = true) (hd : s.deadAt (128 * r.line) = false)
    (h : ∀ l ∈ r.lanes, l.kid = kid ∧ 128 * r.line ≤ l.pa ∧ l.pa + (if w64 then 8 else 4) ≤ 128 * r.line + 128) :
    let run := r.lanes.foldl (atomByLane o op w64) (s.rdByte kid, [])
    let now := s.now (homeDie (128 * r.line))
    (s.serveAtom q r).rdByte kid = run.1 ∧ ∃ p ∈ (s.serveAtom q r).net, ∃ v, p.deadline = q.deadline ∧
      p.msg = .atomRep r run.2 (if o.kind = .red op w64 then now else max now (s.home r.line).w) v := by
  intro run now
  have hfind : ((s.blk r.block).bind fun b => (b.band r.band).map fun x => (b, x)) = some (b, x) := by
    rw [hb, Option.bind_some, hx, Option.map_some]
  have serve : ∀ red : Bool, s.serveAtom q r =
      (let u := r.lanes.foldl (State.serveLane r b o op w64 red now) (s, []);
        u.1.answer q .reply (coreRouter r.core)
          (.atomRep r u.2 (if red then now else max now (s.home r.line).w) (u.1.home r.line).version)) →
      (s.serveAtom q r).rdByte kid = run.1 ∧ ∃ p ∈ (s.serveAtom q r).net, ∃ v, p.deadline = q.deadline ∧
        p.msg = .atomRep r run.2 (if red then now else max now (s.home r.line).w) v := fun red e => by
    obtain ⟨hbytes, hvals⟩ := State.serveLanes_perform (b := b) (o := o) (op := op) (red := red) (t := now) (old := []) hw
      (by rw [hb]; rfl) hd h
    obtain ⟨p, hp, hdl, -, hmsg⟩ := (r.lanes.foldl (State.serveLane r b o op w64 red now) (s, [])).1.answer_sends q .reply
      (coreRouter r.core) (.atomRep r (r.lanes.foldl (State.serveLane r b o op w64 red now) (s, [])).2
        (if red then now else max now (s.home r.line).w)
        ((r.lanes.foldl (State.serveLane r b o op w64 red now) (s, [])).1.home r.line).version)
    rw [e]
    exact ⟨hbytes, p, hp, _, hdl, by rw [hmsg, hvals]⟩
  obtain hk | hk := hk
  · rw [hk, if_neg nofun]
    exact serve false (by simp only [State.serveAtom, hfind, ho, hk]; rfl)
  · rw [hk, if_pos rfl]
    exact serve true (by simp only [State.serveAtom, hfind, ho, hk]; rfl)

end

/-! ### What homes serve -/

section

variable {s : State} {q : Pkt}

/-- A store whose line is free, or its own core's, is performed in its turn (R246, R247). -/
theorem execStoreArrival_store (hq : s.waitingPkt q.id = some q) {r : StoreReq} (hm : q.msg = .storeReq r) (hd : s.Due q r.line)
    (hh : s.hostHeld.contains r.line = false) (hf : s.fetching r.line = false)
    (ho : (s.home r.line).owner = none ∨
      (r.sc = false ∧ (s.home r.line).owner = some r.core ∧ s.owns r.core r.line = true)) :
    execStoreArrival q.id s = .next ((s.takePkt q.id).serveStore q r) := by
  have gate : s.atHome q r.line (if r.sc then none else some r.core) = .go s :=
    State.atHome_free hd hh (ho.imp_right fun ⟨hsc, ho, hown⟩ => ⟨r.core, ho, by rw [hsc]; rfl, hown⟩)
  simp only [execStoreArrival, hq, hm, gate, hf, Bool.false_eq_true, if_false]

/-- Read-modify-writes on a line that no core owns and that need not come from its stack are performed in their turn (R280). -/
theorem execStoreArrival_atom (hq : s.waitingPkt q.id = some q) {r : AtomReq} (hm : q.msg = .atomReq r) (hd : s.Due q r.line)
    (hh : s.hostHeld.contains r.line = false) (ho : (s.home r.line).owner = none)
    (hc : s.cold (128 * r.line) = false ∨ (r.nc = true ∧ s.fetching r.line = false)) :
    execStoreArrival q.id s = .next ((s.takePkt q.id).serveAtom q r) := by
  have hwarm : ¬((s.cold (128 * r.line) && (s.fetching r.line || !r.nc)) = true) := by
    obtain h | ⟨hnc, hf⟩ := hc
    · simp [h]
    · simp [hnc, hf]
  simp only [execStoreArrival, hq, hm, State.atHome_free hd hh (.inl ho), if_neg hwarm]

/-- Settles O49, request by request: the host's copies are asked back, then reads, stores, read-modify-writes, ownership, watch
checks and what the device's units ask. -/
theorem homesServeRequests : Obligations.HomesServeRequests := by
  intro s q hq
  refine ⟨fun line i hi hd hh ha => ?_, fun k n op core line kid unc nc sc watch hm ⟨hd, hh⟩ => ⟨fun ho hc hn => ?_,
      fun ho hn hc hf => execLoadRequest_fetches hq hm hd hh ho hn hc hf,
      fun c ho hr => execLoadRequest_recalls hq hm hd hh ho hr⟩,
    fun r hm ⟨hd, hh⟩ hw hf ho hp => ?_, fun r b x o op w64 kid hm ⟨hd, hh⟩ ho hw hc hdead hb hx hfind hk h => ?_,
    fun core line hm ⟨hd, hh⟩ hc ho hx => execOwnershipGrant_grants hq hm hd hh hc ho hx,
    fun k n op core line version hm hd => execWatchCheck_answers hq hm hd,
    fun line id kid nc hm hh => execLoadRequest_unit hq hm hh⟩
  · exact ⟨_, exec_asksHost hq hd hh ha hi, rfl, rfl, rfl, _, List.mem_append_right _ (List.mem_singleton_self _), rfl, rfl, rfl⟩
  · exact execLoadRequest_answers hq hm hd hh ho hc hn
  · have hline : ∀ p ∈ r.parts, lineOf p.2.1 = r.line := fun p hpm => by
      obtain ⟨hlo, hhi, hne⟩ := hp p hpm
      have := List.length_pos_of_ne_nil hne
      rw [lineOf]
      omega
    exact ⟨_, execStoreArrival_store hq hm hd hh hf ho, (s.takePkt q.id).serveStore_performs hm hw hline⟩
  · obtain ⟨hbytes, hans⟩ := State.serveAtom_performs (s := s.takePkt q.id) (q := q) hb hx hfind hk hw hdead h
    exact ⟨_, execStoreArrival_atom hq hm hd hh ho hc, fun a _ => congrFun hbytes a, hans⟩

end

end Sys2Proof.Machine

/-! # Registers that the host writes

Page responses, the fault log's control, the registers without behaviour of their own, KEYMAP and HCWIN (R249, R410, R411, R500,
R501, R504, R505). -/

namespace Sys2Proof.Machine

open Sys2Proof

/-! ### Fields of a register's value -/

theorem flogCtl_fields (a b : Bool) {n : Nat} (hn : n < 16) :
    let c := BitVec.ofNat 32 (a.toNat + b.toNat * 2 + n * 4)
    (c.extractLsb' 2 4).toNat = n ∧ c.getLsbD 1 = b ∧ c.getLsbD 0 = a := by
  intro c
  have hlt : a.toNat + b.toNat * 2 + n * 4 < 2 ^ 32 := by have := a.toNat_lt; have := b.toNat_lt; omega
  have hc : c.toNat = a.toNat + b.toNat * 2 + n * 4 := by rw [BitVec.toNat_ofNat, Nat.mod_eq_of_lt hlt]
  refine ⟨?_, ?_, ?_⟩
  · rw [BitVec.extractLsb'_toNat, hc, Nat.shiftRight_eq_div_pow]
    have := a.toNat_lt
    have := b.toNat_lt
    omega
  · rw [BitVec.getLsbD, hc, Nat.testBit_eq_decide_div_mod_eq]
    cases a <;> cases b <;> simp <;> omega
  · rw [BitVec.getLsbD, hc, Nat.testBit_eq_decide_div_mod_eq]
    cases a <;> cases b <;> simp <;> omega

/-- FLOGCTL's size after a write: a disabled log takes one within its limits (R411). -/
def flogSize (old v : Word) : Nat :=
  let new := (v.extractLsb' 2 4).toNat
  if old.getLsbD 0 = false ∧ 4 ≤ new ∧ new ≤ 12 then new else (old.extractLsb' 2 4).toNat

theorem flogCtlWrite_eq (old v : Word) : flogCtlWrite old v =
    BitVec.ofNat 32 ((v.getLsbD 0 && decide (4 ≤ flogSize old v) && decide (flogSize old v ≤ 12)).toNat
      + (old.getLsbD 1 && !v.getLsbD 1).toNat * 2 + flogSize old v * 4) := by
  have hsize : (if (!old.getLsbD 0 && decide (4 ≤ (v.extractLsb' 2 4).toNat) && decide ((v.extractLsb' 2 4).toNat ≤ 12)) = true
      then (v.extractLsb' 2 4).toNat else (old.extractLsb' 2 4).toNat) = flogSize old v :=
    if_congr (by simp [and_assoc]) rfl rfl
  rw [flogCtlWrite, hsize]

theorem flogCtlWrite_fields (old v : Word) :
    ((flogCtlWrite old v).extractLsb' 2 4).toNat = flogSize old v ∧
      (flogCtlWrite old v).getLsbD 1 = (old.getLsbD 1 && !v.getLsbD 1) ∧
      ((flogCtlWrite old v).getLsbD 0 = true ↔ v.getLsbD 0 = true ∧ 4 ≤ flogSize old v ∧ flogSize old v ≤ 12) := by
  have hlt : flogSize old v < 16 := by
    rw [flogSize]
    split
    · exact (v.extractLsb' 2 4).isLt
    · exact (old.extractLsb' 2 4).isLt
  obtain ⟨hn, h1, h0⟩ := flogCtl_fields (v.getLsbD 0 && decide (4 ≤ flogSize old v) && decide (flogSize old v ≤ 12))
    (old.getLsbD 1 && !v.getLsbD 1) hlt
  rw [flogCtlWrite_eq]
  exact ⟨hn, h1, by rw [h0]; simp [and_assoc]⟩

/-- HCWIN after a write to a disabled window (R501). -/
theorem hcwinAfter_fields {old : DWord} (h : old.getLsbD 0 = false) (v : DWord) :
    hcwinBase (hcwinAfter old v) = hcwinBase v ∧ hcwinSize (hcwinAfter old v) = hcwinSize v ∧
      (hcwinEn (hcwinAfter old v) = true ↔ hcwinEn v = true ∧ 1 ≤ hcwinSize v ∧ hcwinBase v + hcwinSize v ≤ 384) := by
  obtain ⟨en, hen⟩ : ∃ en : Bool, en = (hcwinEn v && (decide (1 ≤ hcwinSize v) && decide (hcwinSize v ≤ 384) &&
      decide (hcwinBase v + hcwinSize v ≤ 384))) := ⟨_, rfl⟩
  have hb : hcwinBase v < 512 := (v.extractLsb' 30 9).isLt
  have hs : hcwinSize v < 512 := (v.extractLsb' 48 9).isLt
  have hlt := en.toNat_lt
  have hc : (hcwinAfter old v).toNat = en.toNat + hcwinBase v * 2 ^ 30 + hcwinSize v * 2 ^ 48 := by
    rw [hcwinAfter, if_neg (by rw [hcwinEn, h]; decide), ← hen, BitVec.toNat_ofNat]
    omega
  refine ⟨?_, ?_, ?_⟩
  · rw [hcwinBase, BitVec.extractLsb'_toNat, hc, Nat.shiftRight_eq_div_pow]
    omega
  · rw [hcwinSize, BitVec.extractLsb'_toNat, hc, Nat.shiftRight_eq_div_pow]
    omega
  · have hbit : hcwinEn (hcwinAfter old v) = en := by
      rw [hcwinEn, BitVec.getLsbD, hc, Nat.testBit_eq_decide_div_mod_eq]
      cases en <;> simp <;> omega
    rw [hbit, hen]
    simp only [Bool.and_eq_true, decide_eq_true_eq]
    exact ⟨fun ⟨h, ⟨h₁, _⟩, h₂⟩ => ⟨h, h₁, h₂⟩, fun ⟨h, h₁, h₂⟩ => ⟨h, ⟨h₁, by omega⟩, h₂⟩⟩

/-! ### Registers of a function (R410, R411, R500, R504) -/

section

variable {s : State} {a : Via}

theorem State.unsupported_of_locked (hl : s.locked a.fn = true) (ht : a.tee = false) : s.unsupported a = true := by
  rw [State.unsupported, hl, ht]
  rfl

theorem State.supported_of (h : s.locked a.fn = false ∨ a.tee = true) : s.unsupported a = false := by
  obtain h | h := h <;> simp [State.unsupported, h]

theorem execRegisterWrite_refused (hf : a.fn < numFns) (h : s.unsupported a = true) (off : Nat) (v : DWord) :
    execRegisterWrite a off v s = .next s := by
  rw [execRegisterWrite, if_neg (Nat.not_le.2 hf), if_pos h]

theorem execRegisterWrite_every (hf : a.fn < numFns) (h : s.unsupported a = false) {off : Nat} {v : DWord} {x : Fn}
    (he : everyFn off = true) (hx : (s.fn a.fn).writeReg off v = some x) :
    execRegisterWrite a off v s = .next (s.setFn a.fn x) := by
  rw [execRegisterWrite, if_neg (Nat.not_le.2 hf), h, if_neg (by decide), if_pos he, hx]

theorem execRegisterWrite_absent (hf : a.fn < numFns) (h : s.unsupported a = false) {off : Nat} (he : everyFn off = false)
    (h0 : a.fn ≠ 0) (v : DWord) : execRegisterWrite a off v s = .next s := by
  rw [execRegisterWrite, if_neg (Nat.not_le.2 hf), h, if_neg (by decide), he, if_neg (by decide), if_pos h0]

theorem execRegisterWrite_pf (h0 : a.fn = 0) (h : s.unsupported a = false) {off : Nat} {v : DWord} {t : State}
    (he : everyFn off = false) (ht : s.writePf off v = some t) : execRegisterWrite a off v s = .next t := by
  rw [execRegisterWrite, if_neg (by rw [h0]; decide), h, if_neg (by decide), he, if_neg (by decide), if_neg (not_not.2 h0), ht]

/-- A page response takes the request of its tag off the list, which one without a request leaves as it is (R410). -/
theorem execPrsp_taken (h : s.unsupported a = false) (v : Word) : execPrsp a v s =
    .next (((s.fn a.fn).pageReqs.filter fun r => r.tag == v.toNat % 2 ^ 16).foldl
      (fun s r => s.answerPage a.fn (v.getLsbD 16) r) (s.setFn a.fn { s.fn a.fn with
        prspReg := v &&& 0x1FFFF, pageReqs := (s.fn a.fn).pageReqs.filter fun r => r.tag != v.toNat % 2 ^ 16 })) :=
  if_neg (by rw [h]; decide)

theorem execPrsp_unknown (h : s.unsupported a = false) {v : Word} (hn : ∀ r ∈ (s.fn a.fn).pageReqs, r.tag ≠ v.toNat % 2 ^ 16) :
    execPrsp a v s = .next (s.setFn a.fn { s.fn a.fn with prspReg := v &&& 0x1FFFF }) := by
  have hkeep : ((s.fn a.fn).pageReqs.filter fun r => r.tag != v.toNat % 2 ^ 16) = (s.fn a.fn).pageReqs :=
    List.filter_eq_self.2 fun r hr => by simpa using hn r hr
  have hnone : ((s.fn a.fn).pageReqs.filter fun r => r.tag == v.toNat % 2 ^ 16) = [] :=
    List.filter_eq_nil_iff.2 fun r hr => by simpa using hn r hr
  rw [execPrsp_taken h, hkeep, hnone]
  rfl

theorem State.fn_setFn (s : State) (f : Nat) (x : Fn) : (s.setFn f x).fn f = x := by
  rw [State.fn, State.setFn, tget_tset_self]
  rfl

/-- The lanes that wait for a page go on with its response (R410). -/
theorem execPrsp_answers (h : s.unsupported a = false) {v : Word} {r : PageReq} {n : Nat} {b : Block} {y : Band}
    (hr : (s.fn a.fn).pageReqs.filter (fun r => r.tag == v.toNat % 2 ^ 16) = [r]) (hn : r.band = some n)
    (hv : v.getLsbD 16 = false) (hb : s.blk r.block = some b) (hy : b.band n = some y) :
    ∃ t y', execPrsp a v s = .next t ∧ t.mem = s.mem ∧ ((t.blk r.block).bind fun b => b.band n) = some y' ∧
      (t.fn a.fn).pageReqs = (s.fn a.fn).pageReqs.filter (fun r => r.tag != v.toNat % 2 ^ 16) ∧
      y' = { y with lanes := y.lanes.map fun l => if l.st = .blocked (.page r.tag) then { l with st := .ready } else l } := by
  obtain ⟨u, hu⟩ : ∃ u, u = s.setFn a.fn { s.fn a.fn with
    prspReg := v &&& 0x1FFFF, pageReqs := (s.fn a.fn).pageReqs.filter fun r => r.tag != v.toNat % 2 ^ 16 } := ⟨_, rfl⟩
  have hub : u.blk r.block = some b := by rw [hu]; exact hb
  have hexec := execPrsp_taken h v
  rw [hr, ← hu] at hexec
  have hans : u.answerPage a.fn (v.getLsbD 16) r = u.modBand r.block n fun x => { x with
      lanes := x.lanes.map fun l => if l.st = .blocked (.page r.tag) then { l with st := .ready } else l } := by
    simp only [State.answerPage, hn, hv, Bool.false_eq_true, if_false]
  rw [List.foldl_cons, List.foldl_nil, hans] at hexec
  refine ⟨_, _, hexec, by rw [hu]; rfl, ?_, ?_, rfl⟩
  · rw [State.blk_modBand, hub, Option.map_some, Option.bind_some, Block.band_modBand, if_pos rfl, hy, Option.map_some]
  · have hfn : u.fn a.fn = _ := hu ▸ s.fn_setFn a.fn _
    exact congrArg Fn.pageReqs hfn

theorem execFlogctlWrite_taken (h : s.unsupported a = false) (v : Word) : execFlogctlWrite a v s =
    .next (s.setFn a.fn { s.fn a.fn with flogCtl := flogCtlWrite (s.fn a.fn).flogCtl v }) := if_neg (by rw [h]; decide)

/-- The change of TRACK to 1 clears the live bitmap (R525). -/
theorem execLmctlTrack_eq {f : Nat} (hf : f < numFns) (on : Bool) : execLmctlTrack f on s = .next (s.setFn f { s.fn f with
    lmTrack := on, dirty := if on = true ∧ (s.fn f).lmTrack = false then [] else (s.fn f).dirty }) := by
  have hclear : (if (on && !(s.fn f).lmTrack) = true then [] else (s.fn f).dirty) =
      if on = true ∧ (s.fn f).lmTrack = false then [] else (s.fn f).dirty := if_congr (by simp) rfl rfl
  rw [execLmctlTrack, if_neg (Nat.not_le.2 hf), State.modFn, hclear]

/-- LEASECFG takes a length within its limits (R249). -/
theorem State.writePf_leasecfg (s : State) (w : DWord) : s.writePf 0x0900 w =
    some (if 64 ≤ w.toNat % 2 ^ 13 ∧ w.toNat % 2 ^ 13 ≤ 4096 then
      { s with pf := { s.pf with leasecfg := w.setWidth 32 &&& 0x1FFF } } else s) := by
  have hput : s.writePf 0x0900 w = some { s with pf := if 64 ≤ w.toNat % 2 ^ 13 ∧ w.toNat % 2 ^ 13 ≤ 4096 then
      { s.pf with leasecfg := w.setWidth 32 &&& 0x1FFF } else s.pf } := rfl
  rw [hput]
  split <;> rfl

theorem State.writePf_condreq (s : State) (w : DWord) : s.writePf 0x6B88 w =
    some (if w.getLsbD 0 = true then { s with pf := { s.pf with condreq := true } } else s) := by
  have hput : s.writePf 0x6B88 w =
      if w.getLsbD 0 then some { s with pf := { s.pf with condreq := true } } else some s := rfl
  rw [hput]
  split <;> rfl

end

/-! ### KEYMAP (R504, R505) -/

/-- A new key for a KEYID. -/
def State.newKey (s : State) (k : Nat) : State :=
  { s with root := { s.root with keyGen := tset s.root.keyGen k s.root.nextGen, nextGen := s.root.nextGen + 1 } }

theorem State.foldl_newKey (ks : List Nat) (s : State) : ∃ gens next,
    ks.foldl State.newKey s = { s with root := { s.root with keyGen := gens, nextGen := next } } ∧
      ∀ k, k ∈ ks ∨ (tget s.root.keyGen k).isSome = true → (tget gens k).isSome = true := by
  induction ks generalizing s with
  | nil => exact ⟨s.root.keyGen, s.root.nextGen, rfl, fun k h => h.resolve_left List.not_mem_nil⟩
  | cons k ks ih =>
    obtain ⟨gens, next, e, h⟩ := ih (s.newKey k)
    refine ⟨gens, next, e, fun j hj => h j ?_⟩
    rw [State.newKey, tget_tset]
    by_cases ej : j = k
    · rw [if_pos ej]
      exact .inr rfl
    · rw [if_neg ej]
      exact hj.imp_left fun hj => (List.mem_cons.1 hj).resolve_left ej

/-- Each KEYID of a partition has a key, and nothing else changes. -/
theorem State.newKeys_eq (s : State) (m : DWord) : ∃ gens next,
    s.newKeys m = { s with root := { s.root with keyGen := gens, nextGen := next } } ∧
      ∀ k, m.getLsbD k = true → k < 64 → (tget gens k).isSome = true := by
  obtain ⟨gens, next, e, h⟩ := State.foldl_newKey
    ((List.range 64).filter fun k => m.getLsbD k && (tget s.root.keyGen k).isNone) s
  refine ⟨gens, next, e, fun k hm hk => h k ?_⟩
  by_cases hs : (tget s.root.keyGen k).isSome = true
  · exact .inr hs
  · exact .inl (List.mem_filter.2 ⟨List.mem_range.2 hk, by simpa [hm] using hs⟩)

theorem State.markFailed_eq (s : State) (lid status : Nat) : ∃ samples arrived blocks grids, s.markFailed lid status =
    { s with samples := samples, arrived := arrived, blocks := blocks, grids := grids } := by
  have hclose : ∀ (is : List Nat) (s : State), ∃ samples arrived,
      is.foldl State.deaccession s = { s with samples := samples, arrived := arrived } := by
    intro is
    induction is with
    | nil => exact fun s => ⟨s.samples, s.arrived, rfl⟩
    | cons i is ih =>
      intro s
      obtain ⟨samples, arrived, e⟩ := ih (s.deaccession i)
      obtain ⟨samples', arrived', e'⟩ : ∃ samples arrived,
          s.deaccession i = { s with samples := samples, arrived := arrived } := by
        unfold State.deaccession
        split
        · exact ⟨s.samples, s.arrived, rfl⟩
        · split
          · exact ⟨_, _, rfl⟩
          · exact ⟨s.samples, s.arrived, rfl⟩
      exact ⟨samples, arrived, by rw [List.foldl_cons, e, e']⟩
  obtain ⟨samples, arrived, e⟩ := hclose ((s.samples.filter fun p => p.2.lid == lid).map (·.1)) s
  exact ⟨samples, arrived, _, _, by rw [State.markFailed, e]; rfl⟩

/-- A function that leaves its lock has the state it goes to and no policy; keys that stood still stand, and the registers too. -/
theorem State.unlock_leaves (s : State) (f : Nat) (st : Tdisp) : (s.unlock f st).pf = s.pf ∧
    ((s.unlock f st).fn f).tdisp = st ∧ ((s.unlock f st).fn f).policy = 0 ∧
    ∀ k, (tget s.root.keyGen k).isSome = true → (tget (s.unlock f st).root.keyGen k).isSome = true := by
  have hfail : ∀ (ls : List Nat) (s : State), ∃ samples arrived blocks grids,
      ls.foldl (fun s l => s.markFailed l 6) s =
        { s with samples := samples, arrived := arrived, blocks := blocks, grids := grids } := by
    intro ls
    induction ls with
    | nil => exact fun s => ⟨s.samples, s.arrived, s.blocks, s.grids, rfl⟩
    | cons l ls ih =>
      intro s
      obtain ⟨_, _, _, _, e⟩ := s.markFailed_eq l 6
      obtain ⟨samples, arrived, blocks, grids, e'⟩ := ih (s.markFailed l 6)
      exact ⟨samples, arrived, blocks, grids, by rw [List.foldl_cons, e', e]⟩
  unfold State.unlock
  extract_lets lids u v
  obtain ⟨_, _, _, _, hu⟩ : ∃ samples arrived blocks grids,
    u = { s with samples := samples, arrived := arrived, blocks := blocks, grids := grids } := hfail lids s
  obtain ⟨gens, next, e, h⟩ := State.foldl_newKey ((List.range 64).filter fun k =>
    ((tget v.pf.keymap f).getD 0).getLsbD k) v
  have e : v.regenKeys f = _ := e
  have hfn : v.fn f = _ := u.fn_setFn f _
  rw [e]
  refine ⟨by dsimp only [v]; rw [hu]; rfl, congrArg Fn.tdisp hfn, congrArg Fn.policy hfn, fun k hk => h k (.inr ?_)⟩
  dsimp only [v]
  rw [hu]
  exact hk

section

variable {s : State} {p : Nat}

theorem execKeymapWrite_clash (hp : p < numFns) {v : DWord} (h : ∃ e ∈ s.pf.keymap, e.1 ≠ p ∧ e.2 &&& keymapEntry p v ≠ 0) :
    execKeymapWrite p v s = .next s := by
  rw [execKeymapWrite]
  dsimp only
  rw [if_neg (Nat.not_le.2 hp), if_pos (by simpa [List.any_eq_true] using h)]

/-- An entry that names no other partition's key is written, its keys are made, and a locked function whose entry changes moves
to ERROR. -/
theorem execKeymapWrite_writes (hp : p < numFns) {v : DWord} (h : ∀ e ∈ s.pf.keymap, e.1 = p ∨ e.2 &&& keymapEntry p v = 0) :
    let new := keymapEntry p v
    let old := (tget s.pf.keymap p).getD 0
    ∃ t, execKeymapWrite p v s = .next t ∧ t.mem = s.mem ∧ t.pf.keymap = tset s.pf.keymap p new ∧
      (∀ k, new.getLsbD k = true → k < 64 → (tget t.root.keyGen k).isSome = true) ∧
      (s.locked p = true → old ≠ new → (t.fn p).tdisp = .error ∧ (t.fn p).policy = 0) ∧
      (s.locked p = false ∨ old = new → t.fns = s.fns) := by
  intro new old
  obtain ⟨u, hu⟩ : ∃ u, u = { s with pf := { s.pf with keymap := tset s.pf.keymap p new } }.newKeys new := ⟨_, rfl⟩
  obtain ⟨gens, next, e, hkeys⟩ := State.newKeys_eq { s with pf := { s.pf with keymap := tset s.pf.keymap p new } } new
  rw [← hu] at e
  have hgen : ∀ k, new.getLsbD k = true → k < 64 → (tget u.root.keyGen k).isSome = true := by rw [e]; exact hkeys
  have hlock : u.locked p = s.locked p := by rw [e]; rfl
  have hexec : execKeymapWrite p v s = .next (if u.locked p && old != new then u.unlock p .error else u) := by
    have hclash : ¬((s.pf.keymap.any fun e => e.1 != p && e.2 &&& keymapEntry p v != 0) = true) := by
      rw [List.any_eq_true]
      rintro ⟨e, he, hbad⟩
      rw [Bool.and_eq_true, bne_iff_ne, bne_iff_ne] at hbad
      exact (h e he).elim hbad.1 hbad.2
    rw [execKeymapWrite]
    dsimp only
    rw [if_neg (Nat.not_le.2 hp), if_neg hclash, hu]
  rw [hlock] at hexec
  refine ⟨_, hexec, ?_⟩
  have hmem : u.mem = s.mem := by rw [e]
  have hpf : u.pf.keymap = tset s.pf.keymap p new := by rw [e]
  by_cases hc : (s.locked p && old != new) = true
  · obtain ⟨hpf', htd, hpol, hgen'⟩ := u.unlock_leaves p .error
    rw [if_pos hc]
    rw [Bool.and_eq_true, bne_iff_ne] at hc
    exact ⟨(State.mem_unlock ..).trans hmem, by rw [hpf', hpf], fun k hk hlt => hgen' k (hgen k hk hlt), fun _ _ => ⟨htd, hpol⟩,
      fun hno => absurd hno (by simp [hc.1, hc.2])⟩
  · rw [if_neg hc]
    refine ⟨hmem, hpf, hgen, fun hl hne => absurd (by simp [hl, hne]) hc, fun _ => by rw [e]⟩

end

end Sys2Proof.Machine

/-! # The host's window

The accesses of the host to its coherent window and the lines that it gives back (R437, R501, R502), and with them the statement on
what the host writes. -/

namespace Sys2Proof.Machine

open Sys2Proof

section

variable {s : State} {v : Via} {pa : Nat}

/-! ### What stands before an access -/

theorem State.hostAccess_locked (h : s.unsupported v = true) (o : Host.Outcome State Fault Refusal) : s.hostAccess v o = .next s :=
  if_pos h

theorem State.windowAccess_open (h : s.unsupported v = false) (hw : s.inWindow pa = true)
    (hh : s.hostHeld.contains (lineOf pa) = false) (f : State → Host.Outcome State Fault Refusal) : s.windowAccess v pa f =
      match s.loanOn none (lineOf pa) (2 ^ 70) with
      | some i => s.waitOn i "HOST_WINDOW_ACCESS"
      | none => s.atGate "HOST_WINDOW_ACCESS" (lineOf pa) (f (s.deviceAsk [lineOf pa])) := by
  rw [State.windowAccess, State.hostAccess, h, if_neg (by decide), hw, hh]
  rfl

/-- An access waits for a loan on its line, and notes since when (R437, R467). -/
theorem State.windowAccess_loan (h : s.unsupported v = false) (hw : s.inWindow pa = true)
    (hh : s.hostHeld.contains (lineOf pa) = false) {sid : Nat} {m : Sample} (hl : s.loanOn none (lineOf pa) (2 ^ 70) = some sid)
    (hm : tget s.samples sid = some m) (ho : m.outside = none) (f : State → Host.Outcome State Fault Refusal) :
    s.windowAccess v pa f = .next { s with samples := tmod s.samples sid fun m => { m with outside := some s.time } } := by
  rw [State.windowAccess_open h hw hh, hl]
  dsimp only
  rw [State.waitOn, hm, if_pos (by simp [ho])]

theorem State.windowAccess_free (h : s.unsupported v = false) (hw : s.inWindow pa = true)
    (hh : s.hostHeld.contains (lineOf pa) = false) (hl : s.loanOn none (lineOf pa) (2 ^ 70) = none) (hf : s.LineFree (lineOf pa))
    (f : State → Host.Outcome State Fault Refusal) : s.windowAccess v pa f = f (s.deviceAsk [lineOf pa]) := by
  rw [State.windowAccess_open h hw hh, hl]
  exact State.atGate_of_free hf _ _

/-! ### Reads and writes under KEYID 0 (R501) -/

theorem State.rd_deviceAsk (s : State) (lines : List Nat) (kid a n : Nat) : (s.deviceAsk lines).rd kid a n = s.rd kid a n := by
  obtain ⟨ps, m, e⟩ := s.deviceAsk_eq lines
  exact State.rd_congr n fun q _ _ => by rw [e]; rfl

/-- A read of a line that needs no read of its stack gives the host its bytes. -/
theorem State.windowRead_warm {a n : Nat} (hc : s.cold a = false) (lines : List Nat) (f : State → State) :
    (s.deviceAsk lines).windowRead a n f =
      .next (f { s.deviceAsk lines with hostData := s.rd 0 a n }) := by
  have hc' : (s.deviceAsk lines).cold a = false := by
    obtain ⟨ps, m, e⟩ := s.deviceAsk_eq lines
    rw [e]
    exact hc
  rw [State.windowRead, hc', if_neg (by decide), State.rd_deviceAsk]

theorem State.recallNow_of_free {line : Nat} (hh : s.hostHeld.contains line = false) (ho : (s.home line).owner = none) (lid : Nat) :
    s.recallNow line lid = s := by
  rw [State.recallNow, if_neg (by rw [hh]; decide)]
  dsimp only
  rw [ho]

/-- A byte written to a free line is what a read under its key finds there, and changes no other byte. -/
theorem State.rdByte_firmWrite_of_free {kid : Nat} {b : Byte} (hh : s.hostHeld.contains (lineOf pa) = false)
    (ho : (s.home (lineOf pa)).owner = none) (hw : Memory.wf s.mem = true) (hd : s.deadAt pa = false) (q : Nat) :
    (s.firmWrite kid pa [b]).rdByte kid q = if q = pa then b else s.rdByte kid q := by
  rw [State.firmWrite, State.homeStore]
  dsimp only
  rw [State.recallNow_of_free hh ho, (State.sameReads_maskedWrite (P := fun _ => True) ..).read q trivial, State.rdByte_poke hw]
  by_cases e : q = pa
  · rw [if_pos e, e, if_pos ⟨Nat.le_refl _, Nat.lt_succ_self _, hd⟩, Nat.sub_self]
    rfl
  · rw [if_neg e, if_neg fun h => e (Nat.le_antisymm (Nat.le_of_lt_succ h.2.1) h.1)]

/-! ### Lines that the host holds (R502) -/

theorem State.hostHeld_firmWrite {kid : Nat} {bs : List Byte} (hh : s.hostHeld.contains (lineOf pa) = false) :
    (s.firmWrite kid pa bs).hostHeld = s.hostHeld := by
  have hrecall : (s.recallNow (lineOf pa) 0).hostHeld = s.hostHeld := by
    rw [State.recallNow, if_neg (by rw [hh]; decide)]
    dsimp only
    split
    · rfl
    · obtain ⟨cw, chs, e⟩ := State.stackSide_ownedBack (((s.setCore _ _).setHome (lineOf pa)
        { s.home (lineOf pa) with owner := none, recalling := false }).rearrive (· == lineOf pa)) (.work 0 0 0 0) (lineOf pa) _
      rw [e]
      rfl
  rw [State.firmWrite, State.homeStore]
  dsimp only
  obtain ⟨_, _, _, _, _, hpoke⟩ := (s.recallNow (lineOf pa) 0).poke_eq kid pa
    ((s.recallNow (lineOf pa) 0).wOf pa ((s.recallNow (lineOf pa) 0).now (homeDie pa)))
    ((s.recallNow (lineOf pa) 0).now (homeDie pa)) bs
  obtain ⟨_, _, hmask⟩ := State.stackSide_maskedWrite ((s.recallNow (lineOf pa) 0).poke kid pa
    ((s.recallNow (lineOf pa) 0).wOf pa ((s.recallNow (lineOf pa) 0).now (homeDie pa)))
    ((s.recallNow (lineOf pa) 0).now (homeDie pa)) bs) (.work 0 0 0 0) kid pa bs
  rw [hmask, hpoke]
  exact hrecall

/-- A line that the host gives back is no longer its own; the bytes that it has written stand there. -/
theorem execHostWindowAccess_back {line : Nat} (hh : s.hostHeld.contains line = true) :
    (∃ t, execHostWindowAccess ⟨v, .writeback line []⟩ s = .next t ∧ t.mem = s.mem ∧
      t.hostHeld = s.hostHeld.filter (· != line)) ∧
    ∀ data : List Byte, data.length = 128 → Memory.wf s.mem = true → s.deadAt (128 * line) = false →
      ∃ t, execHostWindowAccess ⟨v, .writeback line data⟩ s = .next t ∧ t.rd 0 (128 * line) 128 = data ∧
        t.hostHeld = s.hostHeld.filter (· != line) := by
  have hexec : ∀ data : List Byte, (data.isEmpty || data.length == 128) = true →
      execHostWindowAccess ⟨v, .writeback line data⟩ s = .next (s.hostBack line data) := fun data hd => by
    rw [execHostWindowAccess]
    dsimp only
    rw [hh, hd]
    rfl
  refine ⟨⟨_, hexec [] rfl, rfl, rfl⟩, fun data hlen hw hd => ⟨_, hexec data (by simp [hlen]), ?_⟩⟩
  obtain ⟨u, hu⟩ : ∃ u : State, u = { s with hostHeld := s.hostHeld.filter (· != line)
                                             hostAsked := s.hostAsked.filter (· != line) } := ⟨_, rfl⟩
  have hback : s.hostBack line data = (u.firmWrite 0 (128 * line) data).rearrive (· == line) := by
    have hne : data.isEmpty = false := by
      cases data with
      | nil => cases hlen
      | cons _ _ => rfl
    rw [State.hostBack, hne, if_neg (by decide), hu]
    rfl
  have huw : Memory.wf u.mem = true := by rw [hu]; exact hw
  have hgone : u.hostHeld.contains (lineOf (128 * line)) = false := by
    rw [lineOf_line, hu]
    simp
  have hstands := State.stands_firmWrite (kid := 0) (pa := 128 * line) (bs := data) huw fun j hj => by
    rw [u.deadAt_of_line (show (128 * line + j) / 128 = 128 * line / 128 by omega), hu]
    exact hd
  rw [hback]
  refine ⟨?_, (State.hostHeld_firmWrite hgone).trans (by rw [hu])⟩
  have hrd := State.rd_eq_of_getD (s := (u.firmWrite 0 (128 * line) data).rearrive (· == line)) (kid := 0) (pa := 128 * line)
    (bs := data) fun j hj => ((State.sealed_rearrive ..).stands (hstands j hj)).rdByte
  rwa [hlen] at hrd

theorem execHostWindowAccess_read (s : State) (v : Via) (pa : Nat) : execHostWindowAccess ⟨v, .read pa⟩ s =
    s.windowAccess v pa fun u => u.windowRead (pa / 64 * 64) 64 id := rfl

theorem execHostWindowAccess_write (s : State) (v : Via) (pa : Nat) (b : Byte) : execHostWindowAccess ⟨v, .write pa b⟩ s =
    s.windowAccess v pa fun u => .next (u.firmWrite 0 pa [b]) := rfl

theorem execHostWindowAccess_hold (s : State) (v : Via) {pa : Nat} (h : pa % 128 = 0) :
    execHostWindowAccess ⟨v, .hold (lineOf pa)⟩ s = s.windowAccess v pa fun u =>
      u.windowRead pa 128 fun u => { u with hostHeld := u.hostHeld ++ [lineOf pa] } := by
  have hpa : 128 * lineOf pa = pa := by rw [lineOf]; omega
  rw [execHostWindowAccess]
  dsimp only
  rw [hpa]

/-- Accesses to the window by a function whose interface is not locked, or with its T bit: they wait for a loan, and go through
to a line that nothing holds. -/
theorem execHostWindowAccess_open (hin : s.inWindow pa = true) (hh : s.hostHeld.contains (lineOf pa) = false)
    (h : s.unsupported v = false) :
    (∀ sid m, s.loanOn none (lineOf pa) (2 ^ 70) = some sid → tget s.samples sid = some m → m.outside = none →
      execHostWindowAccess ⟨v, .read pa⟩ s = .next { s with
        samples := tmod s.samples sid fun m => { m with outside := some s.time } }) ∧
    (s.loanOn none (lineOf pa) (2 ^ 70) = none → s.LineFree (lineOf pa) →
      (s.cold (pa / 64 * 64) = false → ∃ t, execHostWindowAccess ⟨v, .read pa⟩ s = .next t ∧ t.mem = s.mem ∧
        t.hostData = s.rd 0 (pa / 64 * 64) 64 ∧ t.hostHeld = s.hostHeld) ∧
      (∀ b, Memory.wf s.mem = true → s.deadAt pa = false → ∃ t, execHostWindowAccess ⟨v, .write pa b⟩ s = .next t ∧
        t.rdByte 0 pa = b ∧ ∀ a, a ≠ pa → t.rdByte 0 a = s.rdByte 0 a) ∧
      (pa % 128 = 0 → s.cold pa = false → ∃ t, execHostWindowAccess ⟨v, .hold (lineOf pa)⟩ s = .next t ∧
        t.mem = s.mem ∧ t.hostHeld = s.hostHeld ++ [lineOf pa] ∧ t.hostData = s.rd 0 pa 128)) := by
  rw [execHostWindowAccess_read]
  refine ⟨fun sid m hl hm ho => State.windowAccess_loan h hin hh hl hm ho _, fun hl hf => ?_⟩
  have hgo := fun f => State.windowAccess_free h hin hh hl hf f
  obtain ⟨u, hu⟩ : ∃ u, u = s.deviceAsk [lineOf pa] := ⟨_, rfl⟩
  obtain ⟨ps, n, e⟩ := s.deviceAsk_eq [lineOf pa]
  rw [← hu] at e
  refine ⟨fun hc => ?_, fun b hw hd => ?_, fun ha hc => ?_⟩
  · rw [hgo, State.windowRead_warm hc, ← hu]
    exact ⟨_, rfl, by rw [e]; rfl, rfl, by rw [e]; rfl⟩
  · have hread := fun q => State.rdByte_firmWrite_of_free (s := u) (kid := 0) (b := b) (by rw [e]; exact hh)
      (by rw [e]; exact hf.2.2) (by rw [e]; exact hw) (by rw [e]; exact hd) q
    rw [execHostWindowAccess_write, hgo, ← hu]
    refine ⟨_, rfl, (hread pa).trans (if_pos rfl), fun a hne => ?_⟩
    rw [hread, if_neg hne, e]
    rfl
  · rw [execHostWindowAccess_hold s v ha, hgo, State.windowRead_warm hc, ← hu]
    exact ⟨_, rfl, by rw [e], by rw [e], rfl⟩

end

/-- Settles O56, register by register: refused accesses, page responses, the fault log, TRACK and the plain registers, KEYMAP,
HCWIN, then the window, the lines that come back, and the throttle. -/
theorem hostWritesRegisters : Obligations.HostWritesRegisters := by
  intro s
  refine ⟨fun a v w off hl ht hf => ?_, fun a v h => ?_,
    fun p v hp => ⟨execKeymapWrite_clash hp, execKeymapWrite_writes hp⟩, fun v => ?_,
    fun v pa hin hh => ⟨fun hl ht b => ?_, fun h => execHostWindowAccess_open hin hh (State.supported_of h)⟩,
    fun v line hh => execHostWindowAccess_back (v := v) hh, fun on => rfl⟩
  · have hno := State.unsupported_of_locked hl ht
    exact ⟨State.hostAccess_locked hno _, State.hostAccess_locked hno _, execRegisterWrite_refused hf hno off _, if_pos hno⟩
  · have hok := State.supported_of h
    intro f x
    refine ⟨execPrsp_unknown hok, fun r n b y hr hn hv hb hy => execPrsp_answers hok hr hn hv hb hy, ?_,
      fun on hf => execLmctlTrack_eq hf on, fun hf w => ⟨?_, ?_, ?_, fun off he h0 => ?_⟩, fun h0 w => ⟨?_, ?_, ?_, ?_⟩⟩
    · have hctl : ((s.setFn f { x with flogCtl := flogCtlWrite x.flogCtl v }).fn f).flogCtl = flogCtlWrite x.flogCtl v :=
        congrArg Fn.flogCtl (s.fn_setFn f _)
      refine ⟨_, execFlogctlWrite_taken hok v, ?_⟩
      rw [hctl]
      exact ⟨rfl, flogCtlWrite_fields x.flogCtl v⟩
    · exact execRegisterWrite_every hf hok rfl rfl
    · exact execRegisterWrite_every hf hok rfl rfl
    · exact execRegisterWrite_every hf hok rfl rfl
    · exact execRegisterWrite_absent hf hok he h0 w
    · rw [show exec (.registerWrite a 0x0900 w) s = execRegisterWrite a 0x0900 w s from rfl,
        execRegisterWrite_pf h0 hok rfl (s.writePf_leasecfg w)]
    · exact execRegisterWrite_pf h0 hok rfl rfl
    · exact execRegisterWrite_pf h0 hok rfl rfl
    · exact execRegisterWrite_pf h0 hok rfl (s.writePf_condreq w)
  · refine ⟨_, rfl, rfl, fun hen => ?_, fun hen => hcwinAfter_fields hen v⟩
    exact if_pos hen
  · have hno := State.unsupported_of_locked hl ht
    exact ⟨State.hostAccess_locked hno _, State.hostAccess_locked hno _⟩

end Sys2Proof.Machine

/-! # Bytes at hand

Where the bytes of a read that needs no request come from, what a band learns with them, and the record of an issue over the state
that its reads leave (R245, R274, R281, R441). -/

namespace Sys2Proof.Machine

open Sys2Proof

/-! ### What a band receives (R274) -/

theorem Band.took_spec (x : Band) (hs : List AtHand) :
    (x.took hs).horizon = (hs.map AtHand.w).foldl max x.horizon ∧
      x.took hs = { x with horizon := (x.took hs).horizon, waitW := (x.took hs).waitW } ∧
      ∀ i, i ∈ (x.took hs).waitW ↔ i ∈ x.waitW ∨ ∃ d ∈ hs, i ∈ d.stores := by
  unfold Band.took
  induction hs generalizing x with
  | nil => exact ⟨rfl, rfl, fun i => by simp⟩
  | cons d hs ih =>
    obtain ⟨hh, he, hw⟩ := ih { x.seen d.w with waitW := x.waitW ++ d.stores.filter fun i => !x.waitW.contains i }
    refine ⟨hh, he, fun i => (hw i).trans ?_⟩
    simp only [List.mem_append, List.mem_filter, List.exists_mem_cons_iff]
    by_cases hi : i ∈ x.waitW <;> simp [hi]

/-! ### Sources (R245, R281, R441) -/

section

variable {y : Iss}

/-- An access within one line is one part. -/
theorem Iss.handAll_of_line {unc : Bool} {n : Nat} {a : LaneX} {d : AtHand} (hl : a.x.pa % 128 + n ≤ 128)
    (h : y.handAll unc a n = some d) : ∃ e, y.hand unc ⟨a, a.x.pa, n⟩ = some e ∧ d.bs = e.bs := by
  have hp : a.pieces n = [⟨a, a.x.pa, n⟩] := if_pos (by omega)
  rw [Iss.handAll, hp, List.foldr_cons, List.foldr_nil] at h
  cases he : y.hand unc ⟨a, a.x.pa, n⟩ with
  | none => rw [he] at h; cases h
  | some e =>
    rw [he] at h
    exact ⟨e, rfl, by rw [← Option.some.inj h]; exact List.append_nil _⟩

theorem Iss.cameHand_eq_some {p : Piece} {e : AtHand} (h : y.cameHand p = some e) :
    ∃ d, y.came p = some d ∧ e.bs = (d.data.drop (p.pa - d.pa)).take p.n := by
  obtain ⟨d, hd, rfl⟩ := Option.map_eq_some_iff.1 h
  exact ⟨d, hd, rfl⟩

theorem Iss.source_of_handAll {unc : Bool} {n : Nat} {a : LaneX} {d : AtHand} (hl : a.x.pa % 128 + n ≤ 128)
    (h : y.handAll unc a n = some d) : y.Source unc n a d.bs := by
  obtain ⟨e, he, hbs⟩ := Iss.handAll_of_line hl h
  rw [hbs]
  unfold Iss.hand at he
  unfold Iss.Source
  by_cases hs : y.b.sid.isSome = true
  · rw [if_pos hs] at he ⊢
    rw [← Option.some.inj he]
  · rw [if_neg hs] at he ⊢
    dsimp only at he
    by_cases hu : (unc || a.x.sc || a.x.nc) = true
    · rw [if_pos hu] at he ⊢
      exact Iss.cameHand_eq_some he
    · rw [if_neg hu] at he ⊢
      cases hc : y.s.l1Valid y.b.core (lineOf a.x.pa) with
      | none =>
        rw [hc] at he
        exact Iss.cameHand_eq_some he
      | some c =>
        rw [hc] at he
        dsimp only
        rw [← Option.some.inj he]
        split <;> rfl

/-- Reads that are at hand miss nothing. -/
theorem Iss.missing_eq_nil_of_served {unc : Bool} {rs : List (LaneX × Nat)} (h : ∀ r ∈ rs, (y.handAll unc r.1 r.2).isSome = true) :
    y.missing unc rs = [] := by
  rw [Iss.missing, List.filter_eq_nil_iff]
  intro p hp
  obtain ⟨r, hr, hpr⟩ := List.mem_flatMap.1 hp
  simpa using Option.isSome_iff_ne_none.1 ((y.isSome_handAll unc r.1 r.2).1 (h r hr) p hpr)

end

/-! ### The record of an issue over its reads -/

section

variable {y : Iss} {s₀ : State}

theorem Iss.reads_cur (y : Iss) (s : State) (xs : List LaneX) :
    (y.reads s xs).curBlock = s.curBlock ∧ (y.reads s xs).curBand = s.curBand := by
  have hf := (y.kept_fills s xs y.k y.n).cur
  unfold Iss.reads
  dsimp only
  split
  · exact hf
  · obtain ⟨_, _, _, e⟩ := (y.fills s xs).sent_engineAsk y.b.core y.b.lid (some (y.k, y.n)) 0
      ((xs.map fun a => (⟨lineOf a.x.pa, a.x.kid, a.x.nc⟩ : LineAsk)).eraseDups)
    rw [e]
    exact hf

/-- A record over a state with the same blocks stands over its own block too. -/
theorem Iss.Good.over (g : y.Good s₀) {v : State} {x : Band} (hb : v.blocks = y.s.blocks)
    (hc : v.curBlock = y.s.curBlock ∧ v.curBand = y.s.curBand) (hx : x.lanes = y.x.lanes) :
    (y.over v x) = { y with s := v, x := x } ∧ (y.over v x).Good { v with blocks := s₀.blocks } := by
  have hblk : v.blk y.k = some y.b := (congrArg (tget · y.k) hb).trans g.blk
  have he : y.over v x = { y with s := v, x := x } := by
    rw [Iss.over, Iss.resync, hblk]
    rfl
  obtain ⟨x₀, hx₀, hl⟩ := g.band
  obtain ⟨b, _, _, _, hs⟩ := g.sent
  have hblocks : v.blocks = tset s₀.blocks y.k b := by rw [hb, hs]; rfl
  rw [he]
  exact ⟨rfl,
    { key := (hc.1.trans g.cur.1).symm
      num := (hc.2.trans g.cur.2).symm
      blk := hblk
      band := ⟨x₀, hx₀, hx.trans hl⟩
      exAct := g.exAct
      lt := fun l h => by rw [hx]; exact g.lt l h
      sent := ⟨b, [], v.serial, v.cores, by rw [State.setBlk, ← hblocks, List.append_nil]⟩
      blocks := fun j hj => (congrArg (tget · j) hb).trans (g.blocks j hj) }⟩

/-- A record of the issue that commits what `val` gives its lanes delivers it. -/
theorem Iss.Good.delivers (g : y.Good s₀) {i : Instr} {h : Hdr} (hi : i.hdr? = some h) {s : State} {val : Nat → Out}
    (e : exec i s = .next (y.commit i (y.ex.map fun l => (l, val l)))) : y.Delivers i s val := by
  rw [Iss.commit] at e
  refine ⟨fun hp => ?_, fun port es hp hs => ?_⟩
  · rw [hp] at e
    exact ⟨_, e, g.wrote hi val []⟩
  · rw [hp] at e
    dsimp only at e
    rw [hs] at e
    obtain ⟨c, z, hc, hz, hfront, -, -⟩ := g.putOuts_band (y.ex.map fun l => (l, val l))
    obtain ⟨b', x', hb', hx', hf⟩ := (State.calm_doPush (y.putOuts (y.ex.map fun l => (l, val l))) y.k y.n port es
      (pushVals y.b (y.ex.map fun l => (l, val l)))).band c z hc hz
    obtain ⟨hl, -⟩ := Band.front_eq_iff.1 (hf.trans hfront)
    exact ⟨_, e, g.goes hi [] hb' hx' (by rw [hl, (Band.put_spec y.x y.b y.ex val).1])⟩

/-- An issue's band has the watch entries that its block holds for it. -/
theorem Iss.watch_of_issues {i : Instr} {s : State} (h : Issues i s y) : ∃ x₀, y.b.band y.n = some x₀ ∧ y.x.watch = x₀.watch := by
  unfold Issues prep at h
  split at h
  next hd b _ _ =>
    split at h
    · cases h
    next x hx =>
      split at h
      · cases h
      · split at h
        · cases h
        next ch _ =>
          dsimp only at h
          generalize hz : (if ch.clear = true then { x with lanes := x.lanes.map fun l => { l with yieldMark := false } } else x) = z
            at h
          unfold State.prepAt at h
          split at h
          · cases h
          · cases h
          · split at h
            · cases h
            · dsimp only at h
              split at h
              · cases h
              · cases h
              · cases h
              · cases h
              · cases h
              · split at h
                · cases h
                · cases h
                · cases h
                · cases h
                · cases h
                cases h
                exact ⟨z, Block.band_setBand_self b z x hx, rfl⟩
  · cases h

end

end Sys2Proof.Machine

/-! # Loads whose bytes are at hand

The commits of `ld`, `lds` and `ldf` when nothing has to be asked for (R274, R306 to R313). -/

namespace Sys2Proof.Machine

open Sys2Proof

/-! ### `ld` (R306 to R310) -/

section

variable {y : Iss} {s₀ : State}

/-- The results of a load, lane by lane. -/
theorem loadOuts_eq_of_served {d : BitVec 8} {sz : LSize} {unc : Bool} {xs : List LaneX} {bytes : Nat → List Byte}
    (hl : xs.map LaneX.lane = y.ex) (h : ∀ a ∈ xs, y.Served unc (lsizeBytes sz) a (bytes a.lane)) :
    loadOuts d sz (xs.filterMap fun a => (y.handAll unc a (lsizeBytes sz)).map fun h => (a.lane, h.bs)) =
      y.ex.map fun l => (l, { v := wordsAt d (loadWords sz (bytesV (bytes l))) }) := by
  have hmap : (xs.filterMap fun a => (y.handAll unc a (lsizeBytes sz)).map fun h => (a.lane, h.bs)) =
      xs.map fun a => (a.lane, bytes a.lane) := by
    refine List.filterMap_eq_map_iff_forall_eq_some.2 fun a ha => ?_
    obtain ⟨v, hv, hb⟩ := h a ha
    rw [hv, ← hb]
    rfl
  rw [hmap, loadOuts, List.map_map, ← hl, List.map_map]
  rfl

/-- Lanes that bytes at hand serve wait for no poison to be known. -/
theorem Iss.coldParts_of_served {unc : Bool} {n : Nat} {xs : List LaneX} (h : ∀ a ∈ xs, (y.handAll unc a n).isSome = true) :
    y.coldParts unc (xs.map fun a => (a, n)) = [] := by
  rw [Iss.coldParts, Iss.missing_eq_nil_of_served fun r hr => ?_]
  · rfl
  · obtain ⟨a, ha, rfl⟩ := List.mem_map.1 hr
    exact h a ha

/-- The body of a load that lacks nothing commits over the state that its reads leave. -/
theorem Iss.Good.loadFrom_served (g : y.Good s₀) (hw : ∃ x₀, y.b.band y.n = some x₀ ∧ y.x.watch = x₀.watch) (i : Instr) {sz : LSize}
    (d : BitVec 8) (acq : Bool) {unc : Bool} {xs : List LaneX} (hh : y.held true xs = none)
    (hp : y.poisoned unc (lsizeBytes sz) xs = none) (hs : ∀ a ∈ xs, (y.handAll unc a (lsizeBytes sz)).isSome = true)
    {port : Option (Nat × List PushAt)} (hport : y.portOk i y.s = .ok port) :
    y.loadFrom i sz d acq unc false xs =
      (y.over (y.reads { y.s with serial := y.s.serial + 1 } xs)
        (y.x.took (xs.filterMap fun a => y.handAll unc a (lsizeBytes sz)))).commit i
        (loadOuts d sz (xs.filterMap fun a => (y.handAll unc a (lsizeBytes sz)).map fun h => (a.lane, h.bs))) := by
  obtain ⟨x₀, hx₀, hwatch⟩ := hw
  have hblk : (y.reads { y.s with serial := y.s.serial + 1 } xs).blk y.k = some y.b :=
    (congrArg (tget · y.k) (Iss.blocks_reads ..)).trans g.blk
  have hband : ((((y.reads { y.s with serial := y.s.serial + 1 } xs).blk y.k).bind fun b => b.band y.n).map Band.watch).getD [] =
      y.x.watch := by
    rw [hblk, Option.bind_some, hx₀, hwatch]
    rfl
  have htook : ∀ hs : List AtHand, { y.x.took hs with watch := y.x.watch } = y.x.took hs := fun hs => by
    have h : (y.x.took hs).watch = y.x.watch := by rw [(y.x.took_spec hs).2.1]
    rw [← h]
  have hnone : ((xs.map fun a => (a, y.handAll unc a (lsizeBytes sz))).filter fun g => g.2.isNone).map (·.1) = [] := by
    rw [List.map_eq_nil_iff, List.filter_eq_nil_iff]
    intro p hp
    obtain ⟨a, ha, rfl⟩ := List.mem_map.1 hp
    simpa using Option.isSome_iff_ne_none.1 (hs a ha)
  unfold Iss.loadFrom
  dsimp only
  rw [hh]
  dsimp only
  rw [Iss.coldParts_of_served hs, hp, hport]
  dsimp only
  rw [if_neg (by decide : ¬ false = true), if_pos (by rw [hnone]; rfl), hband]
  simp only [List.filterMap_map, Function.comp_def]
  rw [show (y.resync (y.reads { y.s with serial := y.s.serial + 1 } xs)).x = y.x from rfl, htook]
  rfl

theorem Iss.loadFrom_portStop {i : Instr} {sz : LSize} {d : BitVec 8} {acq unc : Bool} {xs : List LaneX} (hh : y.held true xs = none)
    (hp : y.poisoned unc (lsizeBytes sz) xs = none) (hs : ∀ a ∈ xs, (y.handAll unc a (lsizeBytes sz)).isSome = true) {e : PushStop}
    (hport : y.portOk i y.s = .error e) : y.loadFrom i sz d acq unc false xs = y.portStop e := by
  rw [Iss.loadFrom, hh]
  dsimp only
  rw [Iss.coldParts_of_served hs, hp, hport]

/-- `ld` with all its bytes at hand delivers them, unless its port stops it. -/
theorem exec_ld_served {h : Hdr} {o : Ld} {s : State} {xs : List LaneX} {bytes : Nat → List Byte} (g : Issues (.ld h o) s y)
    (hr : y.Reaches .read (lsizeBytes o.sz) (y.addrs o.base (o.disp.signExtend 64)) xs) (hh : y.held true xs = none)
    (hp : y.poisoned (o.ord == .unc) (lsizeBytes o.sz) xs = none)
    (hs : ∀ a ∈ xs, y.Served (o.ord == .unc) (lsizeBytes o.sz) a (bytes a.lane)) :
    (∀ p, y.portOk (.ld h o) y.s = .ok p →
      (y.over (y.reads { y.s with serial := y.s.serial + 1 } xs)
        (y.x.took (xs.filterMap fun a => y.handAll (o.ord == .unc) a (lsizeBytes o.sz)))).Delivers (.ld h o) s
          fun l => { v := wordsAt o.d (loadWords o.sz (bytesV (bytes l))) }) ∧
    (∀ e, y.portOk (.ld h o) y.s = .error e → exec (.ld h o) s = .next (y.portStop e)) := by
  have hsome : ∀ a ∈ xs, (y.handAll (o.ord == .unc) a (lsizeBytes o.sz)).isSome = true := fun a ha => by
    obtain ⟨d, hd, -⟩ := hs a ha
    rw [hd]
    rfl
  have good := y.good g
  have hexec := exec_ld_of_reaches g hr
  refine ⟨fun p hport => ?_, fun e hport => hexec.trans (congrArg _ (Iss.loadFrom_portStop hh hp hsome hport))⟩
  obtain ⟨hover, hgood⟩ := good.over (v := y.reads { y.s with serial := y.s.serial + 1 } xs)
    (x := y.x.took (xs.filterMap fun a => y.handAll (o.ord == .unc) a (lsizeBytes o.sz))) (Iss.blocks_reads ..)
    (y.reads_cur ..) (by rw [(y.x.took_spec _).2.1])
  refine hgood.delivers rfl (hexec.trans (congrArg Host.Outcome.next ?_))
  rw [good.loadFrom_served (Iss.watch_of_issues g) (.ld h o) o.d _ hh hp hsome hport,
    loadOuts_eq_of_served (Iss.lane_reach hr.1) hs]
  rfl

end

/-! ### `lds` (R306) -/

theorem eq_none_of_firstTrap_ok {α : Type} {l : List α} {f : α → Option Trap} {u : Unit} (h : firstTrap l f = .ok u) :
    ∀ a ∈ l, f a = none := by
  induction l with
  | nil => exact fun _ h => absurd h List.not_mem_nil
  | cons b l ih =>
    rw [firstTrap] at h
    cases hb : f b with
    | some e => rw [hb] at h; cases h
    | none =>
      rw [hb] at h
      exact List.forall_mem_cons.2 ⟨hb, ih h⟩

/-- A window's accesses that all pass answer every lane. -/
theorem State.lane_scratchAll {s : State} {b : Block} {k size : Nat} {ls : List (Nat × Word)} {ws : List (Nat × Nat × Nat)}
    (h : s.scratchAll b k size ls = .ok ws) : ws.map (·.1) = ls.map (·.1) := by
  unfold State.scratchAll at h
  dsimp only at h
  split at h
  · cases h
  split at h
  · cases h
  next hperm =>
    have hsome := eq_none_of_firstTrap_ok hperm
    rw [← Except.ok.inj h, List.filterMap_map, List.map_filterMap]
    refine List.filterMap_eq_map_iff_forall_eq_some.2 fun p hp => ?_
    have hp := hsome _ (List.mem_map_of_mem hp)
    dsimp only [Function.comp] at hp ⊢
    cases hw : s.windowOf b k (p.2.extractLsb' 20 6).toNat with
    | none => rw [hw] at hp; cases hp
    | some w => rfl

/-- `lds` of a block outside a sample writes what its windows hold. -/
theorem exec_lds_writes {h : Hdr} {o : Ld} {s : State} {y : Iss} {ws : List (Nat × Nat × Nat)} {bytes : Nat → List Byte}
    (hr : y.b.run = .plain)
    (hok : y.s.scratchAll y.b y.k (lsizeBytes o.sz) (y.sAddrs o.base (o.disp.signExtend 32)) = .ok ws)
    (hb : ∀ q ∈ ws, bytes q.1 = y.s.scrRead q.2.1 q.2.2 (lsizeBytes o.sz)) (g : Issues (.lds h o) s y) :
    Writes (.lds h o) s { y with x := y.x.seen ((ws.map fun q => y.s.scrW q.2.1).foldl max 0) }
      fun l => { v := wordsAt o.d (loadWords o.sz (bytesV (bytes l))) } := by
  have good := y.good g
  have hgood : ({ y with x := y.x.seen ((ws.map fun q => y.s.scrW q.2.1).foldl max 0) } : Iss).Good s := good.withBand rfl
  have hresync : ∀ body, y.resync (y.s.logRec y.k y.n 5 body) = y := fun body => by
    rw [State.logRec_of_plain good.blk hr, Iss.resync, good.blk]
    rfl
  have houts : loadOuts o.d o.sz (ws.map fun q => (q.1, y.s.scrRead q.2.1 q.2.2 (lsizeBytes o.sz))) =
      y.ex.map fun l => (l, { v := wordsAt o.d (loadWords o.sz (bytesV (bytes l))) }) := by
    have hl : ws.map (·.1) = y.ex := (State.lane_scratchAll hok).trans (by rw [Iss.sAddrs, List.map_map]; exact List.map_id _)
    rw [loadOuts, List.map_map, ← hl, List.map_map]
    refine List.map_congr_left fun q hq => ?_
    dsimp only [Function.comp]
    rw [hb q hq]
  refine hgood.writes rfl ((run_next g _).trans (congrArg Host.Outcome.next ?_))
  dsimp only
  rw [Block.later_of_plain hr, Bool.false_and, if_neg (by decide), hok]
  dsimp only
  rw [hresync, ite_self, houts]

/-! ### `ldf` (R312, R313) -/

/-- The part of an element's read that stands at an address. -/
def LaneX.readAt (a : LaneX) (va : Nat) : LaneX := { a with va := va, x := { a.x with pa := a.x.at' a.va va } }

/-- The reads of the payloads and scales of all lanes. -/
def Iss.elemReads (y : Iss) (o : Ldf) (xs : List LaneX) : List (LaneX × Nat) :=
  xs.flatMap fun a => ((a.elemAt ((y.env a.lane).src o.idx)).map a.reads).getD []

/-- A lane's element is at hand, whole and unpoisoned, and decodes to a value. -/
def Iss.HasElem (y : Iss) (o : Ldf) (a : LaneX) (val : Word × Conds) : Prop :=
  ∃ e p c, a.elemAt ((y.env a.lane).src o.idx) = some e ∧ y.handAll false (a.readAt e.payAt) e.payLen = some p ∧
    y.handAll false (a.readAt e.scaleAt) 2 = some c ∧ p.psn = false ∧ c.psn = false ∧
    decodeElem (y.s.lc8Tab y.b) a.x.reg e.pos p.bs c.bs = some val

section

variable {y : Iss} {o : Ldf} {xs : List LaneX} {val : Nat → Word × Conds}

/-- Every read of elements at hand is at hand and unpoisoned. -/
theorem Iss.elemReads_served (h : ∀ a ∈ xs, y.HasElem o a (val a.lane)) :
    ∀ r ∈ y.elemReads o xs, ∃ d, y.handAll false r.1 r.2 = some d ∧ d.psn = false := by
  intro r hr
  obtain ⟨a, ha, hra⟩ := List.mem_flatMap.1 hr
  obtain ⟨e, p, c, he, hp, hc, hpp, hcp, -⟩ := h a ha
  rw [he, Option.map_some, Option.getD_some, LaneX.reads] at hra
  obtain rfl | hra := List.mem_cons.1 hra
  · exact ⟨p, hp, hpp⟩
  · obtain rfl := List.mem_singleton.1 hra
    exact ⟨c, hc, hcp⟩

theorem Iss.elemVal_of_hasElem {a : LaneX} {v : Word × Conds} (h : y.HasElem o a v) :
    (a.elemAt ((y.env a.lane).src o.idx)).bind (y.elemVal a) = some v := by
  obtain ⟨e, p, c, he, hp, hc, -, -, hv⟩ := h
  rw [he, Option.bind_some, Iss.elemVal, LaneX.reads]
  dsimp only
  rw [show y.handAll false { a with va := e.payAt, x := { a.x with pa := a.x.at' a.va e.payAt } } e.payLen = some p from hp,
    show y.handAll false { a with va := e.scaleAt, x := { a.x with pa := a.x.at' a.va e.scaleAt } } 2 = some c from hc]
  exact hv

theorem alignTrap_one (as : List (Nat × Nat)) : alignTrap 1 as = none := by
  rw [alignTrap, List.find?_eq_none.2 fun p _ => by simp [Nat.mod_one]]
  rfl

/-- `ldf` with all its bytes at hand delivers the values of its elements. -/
theorem exec_ldf_served {h : Hdr} {s : State} (g : Issues (.ldf h o) s y)
    (hr : y.Reaches .read 1 (y.addrs o.base (o.disp.signExtend 64)) xs)
    (hh : y.held true (((y.elemReads o xs).flatMap fun r => r.1.pieces r.2).map fun p =>
      { p.a with x := { p.a.x with pa := p.pa } }) = none) (hv : ∀ a ∈ xs, y.HasElem o a (val a.lane)) :
    (y.over (y.reads y.s ((y.elemReads o xs).map (·.1)))
      (y.x.took ((y.elemReads o xs).filterMap fun r => y.handAll false r.1 r.2))).Delivers (.ldf h o) s
        fun l => .v32 o.d (val l).1 (val l).2 := by
  have good := y.good g
  have hserved := Iss.elemReads_served hv
  have hreach : y.s.xlateAll y.b.core y.b.asid y.b.fn y.b.sid y.x.inh .read (y.addrs o.base (o.disp.signExtend 64)) = .ok xs := by
    have h := hr.1
    rwa [Iss.reach, alignTrap_one] at h
  have hmiss : y.missing false (y.elemReads o xs) = [] := Iss.missing_eq_nil_of_served fun r hr => by
    obtain ⟨d, hd, -⟩ := hserved r hr
    rw [hd]
    rfl
  have hpsn : (y.elemReads o xs).findSome? (fun r => y.poisoned false r.2 [r.1]) = none := by
    rw [List.findSome?_eq_none_iff]
    intro r hr
    obtain ⟨d, hd, hp⟩ := hserved r hr
    simp [Iss.poisoned, hd, hp]
  have hvals : ((xs.map fun a => (a, a.elemAt ((y.env a.lane).src o.idx))).map fun p => (p.1, p.2.bind (y.elemVal p.1))) =
      xs.map fun a => (a, some (val a.lane)) := by
    rw [List.map_map]
    refine List.map_congr_left fun a ha => ?_
    dsimp only [Function.comp]
    rw [Iss.elemVal_of_hasElem (hv a ha)]
  have hreads : ((xs.map fun a => (a, a.elemAt ((y.env a.lane).src o.idx))).flatMap fun p => (p.2.map p.1.reads).getD []) =
      y.elemReads o xs := List.flatMap_map ..
  have hfmt : (xs.map fun a => (a, some (val a.lane))).find? (fun v => v.2.isNone) = none := by
    rw [List.find?_eq_none]
    intro v hv
    obtain ⟨a, -, rfl⟩ := List.mem_map.1 hv
    exact Bool.false_ne_true
  obtain ⟨hover, hgood⟩ := good.over (v := y.reads y.s ((y.elemReads o xs).map (·.1)))
    (x := y.x.took ((y.elemReads o xs).filterMap fun r => y.handAll false r.1 r.2)) (Iss.blocks_reads ..)
    (y.reads_cur ..) (by rw [(y.x.took_spec _).2.1])
  have houts : ((xs.map fun a => (a, some (val a.lane))).filterMap fun v =>
      v.2.map fun r => (v.1.lane, Out.v32 o.d r.1 r.2)) = y.ex.map fun l => (l, Out.v32 o.d (val l).1 (val l).2) := by
    rw [List.filterMap_map, ← Iss.lane_reach hr.1, List.map_map]
    exact List.filterMap_eq_map_iff_forall_eq_some.2 fun a _ => rfl
  refine hgood.delivers rfl ((runO_next g _).trans ?_)
  rw [hreach]
  dsimp only
  rw [regStop_eq_none hr.2]
  dsimp only
  rw [hreads, hh]
  dsimp only
  rw [hmiss]
  dsimp only
  rw [hvals, hfmt]
  dsimp only
  rw [hpsn]
  dsimp only
  rw [houts]
  rfl

end

/-- Settles O28, load by load; then where bytes at hand come from, what they leave with the band, and that reads leave memory
alone. -/
theorem loadResults : Obligations.LoadResults := by
  intro h s y bytes
  exact ⟨fun o xs g hr hh hp hs => exec_ld_served g hr hh hp hs,
    fun o ws _ hr hok hb g => exec_lds_writes hr hok hb g,
    fun o xs val g hr hh hv => exec_ldf_served g hr hh hv,
    fun unc n a d hl hd => Iss.source_of_handAll hl hd, fun hs => y.x.took_spec hs,
    fun u xs => ⟨Iss.mem_reads .., Iss.blocks_reads ..⟩⟩

end Sys2Proof.Machine

/-! # One lane's read-modify-write

The horizon that a read-modify-write leaves its band; its bytes, its line's version and its W are those of the write that it
performs (R273, R274, R280, R317). -/

namespace Sys2Proof.Machine

open Sys2Proof

section

variable {s : State} {k : Nat} {bk : Block}

/-- The band of a read-modify-write has seen its time, and one that takes the value before has seen that value's W (R274). -/
theorem State.horizon_rmw (hb : s.blk k = some bk) {n : Nat} {z : Band} (hz : bk.band n = some z) (va : Nat) (x : Xl) (op : AOp)
    (w64 red : Bool) (b c : DWord) (seq t : Nat) :
    (((s.rmw k n va x op w64 red b c seq t).1.blk k).bind fun b => b.band n).map Band.horizon =
      some (max z.horizon (if red then t else max t (s.home (lineOf x.pa)).w)) := by
  have hsigned : ∀ kind bs, (bk.signWrite n kind va bs seq).band n = some z := fun kind bs => by
    rw [Block.band, Block.bands_signWrite]
    exact hz
  unfold State.rmw
  simp only [hb]
  rw [State.blk_modBand, State.blk_setBlk, Option.map_some, Option.bind_some, Block.band_modBand, if_pos rfl, hsigned, Option.map_some, Option.map_some]
  rfl

end

/-- Settles O33: what the read-modify-write makes of memory and of its line is its write's doing, what it makes of its band the
horizon's. -/
theorem atomicReadModifyWrite : Obligations.AtomicReadModifyWrite := by
  unfold Obligations.AtomicReadModifyWrite
  intro s k n va x op w64 red b c seq now bk hbk hw sz r old
  obtain ⟨cores, bs, -, hr⟩ := State.rmw_eq hbk n va x op w64 red b c seq now (old := old) rfl
  have hr : r = _ := hr
  obtain ⟨hversion, hmax⟩ := s.home_poke x.kid x.pa now now (leBytes sz (aopW op w64 old b c).toNat)
  refine ⟨by rw [hr], fun hd => ?_, fun z hz => State.horizon_rmw hbk hz .., fun a ha => ?_, by rw [hr]; exact hmax,
    by rw [hr]; exact hversion, rfl, rfl, rfl, rfl⟩
  · obtain ⟨-, -, -, -, hread⟩ := State.rmw_performs (w64 := w64) hw (by rw [hbk]; rfl) hd n va op red b c seq now
    rw [← State.rd_eq_map] at hread
    have hlen : (leBytes sz (aopW op w64 old b c).toNat).length = sz := length_leBytes ..
    refine Eq.trans (congrArg _ hlen.symm) (State.rd_eq_of_getD fun j hj => ?_)
    rw [hlen] at hj
    refine (hread (x.pa + j)).trans ?_
    rw [if_pos ⟨Nat.le_add_right .., Nat.add_lt_add_left hj _⟩, Nat.add_sub_cancel_left]
  · rw [hr]
    exact State.mget_poke hw (fun j hj => ha j (by rwa [length_leBytes] at hj)) ..

end Sys2Proof.Machine

/-! # Stream ports

The ports of an issue after its pops, and what the instructions of group 11 leave of them (R326 to R336). -/

namespace Sys2Proof.Machine

open Sys2Proof

/-! ### Pops (R330, R332) -/

/-- The ports that have been popped are configured, and none of them pushes (R337). -/
theorem State.popAll_ok_port {s : State} {k n : Nat} {b : Block} {x : Band} {got : List HeldData} {ex : List Nat} {low : Nat}
    {ps : List (Nat × Nat)} {vs : List (Nat × List Word)} {cs : Conds} {w : Nat}
    (h : s.popAll k n b x got ex low ps = .ok vs cs w) :
    ∀ q ∈ ps, (x.ports.getD q.1 {}).cfg = true ∧ (x.ports.getD q.1 {}).pat.push = false := by
  induction ps generalizing vs cs w with
  | nil => exact fun _ hq => absurd hq List.not_mem_nil
  | cons p ps ih =>
    rw [State.popAll] at h
    split at h
    · cases h
    next hcfg =>
    split at h
    · cases h
    next hpush =>
    split at h
    next =>
      split at h
      next hrest => exact List.forall_mem_cons.2 ⟨⟨by simpa using hcfg, by simpa using hpush⟩, ih hrest⟩
      next hno => exact absurd h (hno _ _ _)
    next hno => exact absurd h (hno _ _ _)

/-- Preparing an issue pops the ports of the sources, and each of them moves on. -/
theorem State.prepAt_pops {s : State} {k n : Nat} {b : Block} {x : Band} {h : Hdr} {i : Instr} {ch : Choice} {y : Iss}
    (e : s.prepAt k n b x h i ch = .go y) :
    (∀ q ∈ popPorts b i, (x.ports.getD q.1 {}).cfg = true ∧ (x.ports.getD q.1 {}).pat.push = false) ∧
      y.x.ports = modAll x.ports ((popPorts b i).map Prod.fst) fun _ p => p.advance x.lanes.length := by
  unfold State.prepAt at e
  split at e
  · cases e
  · cases e
  split at e
  · cases e
  dsimp only at e
  split at e
  case h_6 hpop =>
    split at e
    case h_6 =>
      cases e
      exact ⟨State.popAll_ok_port hpop, rfl⟩
    all_goals cases e
  all_goals cases e

/-- An issue is prepared with its band's yield marks cleared where the choice asks it. -/
theorem Issues.prepAt_cleared {i : Instr} {s : State} {y : Iss} (hy : Issues i s y) {b : Block} {x : Band}
    (hb : s.blk s.curBlock = some b) (hx : b.band s.curBand = some x) :
    ∃ h ch, (s.setBlk s.curBlock (b.setBand s.curBand (x.cleared ch))).prepAt s.curBlock s.curBand
      (b.setBand s.curBand (x.cleared ch)) (x.cleared ch) h i ch = .go y := by
  obtain ⟨h, hi⟩ := y.hdr hy
  unfold Issues prep at hy
  rw [hi, hb] at hy
  dsimp only at hy
  rw [hx] at hy
  dsimp only at hy
  split at hy
  · cases hy
  split at hy
  · cases hy
  next ch _ => exact ⟨h, ch, hy⟩

theorem Band.ports_cleared (x : Band) (ch : Choice) : (x.cleared ch).ports = x.ports := by
  unfold Band.cleared
  split <;> rfl

/-- A port that an instruction pops is configured to be read, keeps its pattern, and advances (R330, R334). -/
theorem Issues.popped {i : Instr} {s : State} {y : Iss} (hy : Issues i s y) {b : Block} {x : Band}
    (hb : s.blk s.curBlock = some b) (hx : b.band s.curBand = some x) {q : Nat × Nat} (hq : q ∈ popPorts b i)
    (hlt : q.1 < x.ports.length) :
    (x.ports.getD q.1 {}).cfg = true ∧ (x.ports.getD q.1 {}).pat.push = false ∧
      y.x.ports.getD q.1 {} = (x.ports.getD q.1 {}).advance x.lanes.length := by
  obtain ⟨h, ch, e⟩ := hy.prepAt_cleared hb hx
  obtain ⟨hok, hports⟩ := State.prepAt_pops e
  have hq' : q ∈ popPorts (b.setBand s.curBand (x.cleared ch)) i := hq
  obtain ⟨hcfg, hpush⟩ := hok q hq'
  rw [Band.ports_cleared] at hcfg hpush hports
  have hin : (((popPorts (b.setBand s.curBand (x.cleared ch)) i).map Prod.fst).contains q.1) = true :=
    List.contains_iff_mem.2 (List.mem_map_of_mem hq')
  refine ⟨hcfg, hpush, ?_⟩
  rw [hports, List.getD_eq_getElem?_getD, getElem?_modAll, List.getElem?_eq_getElem hlt, Option.map_some, if_pos hin,
    Option.getD_some, List.getD_eq_getElem _ _ hlt, Band.cleared_length]

/-! ### The ports that an instruction sets -/

section

variable {h : Hdr} {s s₀ : State} {y : Iss}

/-- An instruction that puts its band back, with the same lanes, over a state with the same blocks passes. -/
theorem Iss.Good.passes_base (g : y.Good s₀) {i : Instr} (hi : i.hdr? = some h) {v : State} {x : Band}
    (hx : x.lanes = y.x.lanes) (e : exec i s = .next (y.finish ({ y with s := v, x := x } : Iss).base i [])) :
    Passes i s y ({ y with s := v, x := x } : Iss).base := by
  obtain ⟨x₀, hx₀, -⟩ := g.band
  exact ⟨_, e, g.goes hi [] (State.blk_setBlk ..) (Block.band_setBand_self y.b x x₀ hx₀) (congrArg List.length hx)⟩

/-- The configuring read, with its bytes at hand and a pattern that is no FMT (R328, R329). -/
theorem exec_strmCfg_served {o : StrmCfg} (g : Issues (.strmCfg h o) s y) (hne : y.ex ≠ []) {a : LaneX}
    (hr : y.Reaches .read 64 [(lowest y.act, (y.x.u64 o.a.toNat).toNat)] [a]) (hh : y.held true [a] = none) {d : AtHand}
    (hd : y.handAll false a 64 = some d) (hp : d.psn = false)
    (hok : patternOk (patternOf o (y.x.u64 o.a.toNat) d.bs) d.bs = true) :
    exec (.strmCfg h o) s = .next (y.finish ({ y with
      s := y.reads y.s [a]
      x := ({ y.x with ports := modAt y.x.ports o.k.toNat fun _ =>
        { cfg := true, pat := patternOf o (y.x.u64 o.a.toNat) d.bs, sigma := y.x.sigma } } : Band).took [d] } : Iss).base
      (.strmCfg h o) []) := by
  have he : y.ex.isEmpty = false := by simpa using hne
  have hm : y.missing false ([a].map fun a => (a, 64)) = [] := Iss.missing_eq_nil hd
  have hq : y.poisoned false 64 [a] = none := by simp [Iss.poisoned, hd, hp]
  have hhs : ([a].filterMap fun a => y.handAll false a 64) = [d] := by simp [hd]
  have hbs : [d].flatMap AtHand.bs = d.bs := by simp
  refine (runO_next g _).trans ?_
  dsimp only
  rw [he, if_neg (by decide), hr.1]
  dsimp only
  rw [regStop_eq_none hr.2, hh, hm]
  dsimp only
  rw [hq]
  dsimp only
  rw [hhs, hbs, hok]
  rfl

end

/-- Settles O37, instruction by instruction; a popped port is one that the preparation of the issue has advanced. -/
theorem streamInstructions : Obligations.StreamInstructions := by
  unfold Obligations.StreamInstructions
  intro h s y
  refine ⟨?_, fun o g => ?_, fun o g hne => ?_, ?_, ?_⟩
  · intro o a d g hne addr hr hh hd hp hok x
    exact (y.good g).passes_base (i := .strmCfg h o) rfl (by rw [(x.took_spec _).2.1])
      (exec_strmCfg_served g hne hr hh hd hp hok)
  · exact (y.good g).writes (i := .strmPos h o) rfl (run_next g _)
  · refine (y.good g).passes_base (i := .strmSet h o) (v := y.s) rfl rfl ((run_next g _).trans ?_)
    dsimp only
    rw [if_neg (by simpa using hne)]
    rfl
  · intro o g hne x
    have he : (o.clr && !y.ex.isEmpty) = o.clr := by
      rw [List.isEmpty_eq_false_iff.2 hne]
      exact Bool.and_true _
    have hlanes : x.lanes = y.x.lanes := by
      dsimp only [x]
      split <;> rfl
    refine ((y.good g).withBand hlanes).delivers (i := .strmEnd h o) rfl ((run_next g _).trans ?_)
    dsimp only
    rw [he]
  · intro i b x q g hb hx hq hlt pt pt'
    obtain ⟨hcfg, hpush, hadv⟩ := g.popped hb hx hq hlt
    have hpt : pt' = pt.advance x.lanes.length := hadv
    exact ⟨hcfg, hpush, by rw [hpt]; rfl, by rw [hpt]; rfl⟩

end Sys2Proof.Machine

/-! # Watched loads

The watch entries that an `ldw` makes for the lines that it reads, the load behind them, and the `chk` that takes them (R284 to R287,
R314, R315). -/

namespace Sys2Proof.Machine

open Sys2Proof

/-! ### A band changed twice -/

theorem modAt_modAt {α : Type} (l : List α) (i : Nat) (f g : α → α) : modAt (modAt l i f) i g = modAt l i (g ∘ f) := by
  induction l generalizing i with
  | nil => rfl
  | cons a l ih =>
    cases i with
    | zero => rfl
    | succ i => exact congrArg (a :: ·) (ih i)

theorem modAt_id {α : Type} (l : List α) (i : Nat) : modAt l i (fun a => a) = l := by
  induction l generalizing i with
  | nil => rfl
  | cons a l ih =>
    cases i with
    | zero => rfl
    | succ i => exact congrArg (a :: ·) (ih i)

theorem tmod_tmod {α : Type} (t : Tbl α) (k : Nat) (f g : α → α) : tmod (tmod t k f) k g = tmod t k (g ∘ f) := by
  rw [tmod, tmod, tmod, List.map_map]
  refine List.map_congr_left fun p _ => ?_
  by_cases h : p.1 = k <;> simp [h]

theorem tmod_id {α : Type} (t : Tbl α) (k : Nat) : tmod t k (fun a => a) = t :=
  (List.map_congr_left fun _ _ => ite_self _).trans (List.map_id t)

/-- A key that has been set keeps its place when its value is changed and set once more. -/
theorem tset_tmod_tset {α : Type} (t : Tbl α) (k : Nat) (v : α) (f : α → α) :
    tset (tmod (tset t k v) k f) k (f v) = tmod (tset t k v) k f := by
  induction t with
  | nil => simp [tset, tmod]
  | cons p t ih =>
    obtain ⟨j, w⟩ := p
    by_cases hlt : k < j
    · simp [tset, tmod, hlt]
    · by_cases he : k = j
      · simp [tset, tmod, he]
      · have ih : tset (List.map _ _) k (f v) = List.map _ _ := ih
        simp [tset, tmod, hlt, he, Ne.symm he, ih]

theorem State.blocks_modBand_modBand (s : State) (k n : Nat) (f g : Band → Band) :
    ((s.modBand k n f).modBand k n g).blocks = (s.modBand k n (g ∘ f)).blocks := by
  have h : (fun b : Block => b.modBand n g) ∘ (fun b : Block => b.modBand n f) = fun b => b.modBand n (g ∘ f) :=
    funext fun b => congrArg (fun l => ({ b with bands := l } : Block)) (modAt_modAt ..)
  exact (tmod_tmod s.blocks k (fun b => b.modBand n f) fun b => b.modBand n g).trans (congrArg (tmod s.blocks k) h)

theorem State.blocks_modBand_id (s : State) (k n : Nat) : (s.modBand k n fun x => x).blocks = s.blocks := by
  have h : (fun b : Block => b.modBand n fun x => x) = fun b => b :=
    funext fun b => congrArg (fun l => ({ b with bands := l } : Block)) (modAt_id ..)
  exact (congrArg (tmod s.blocks k) h).trans (tmod_id ..)

section

variable {y : Iss} {s₀ : State}

/-- A record stands over a state in which its own band has been changed, but for its lanes. -/
theorem Iss.Good.overBand (g : y.Good s₀) {v : State} {f : Band → Band} {x : Band}
    (hb : v.blocks = (y.s.modBand y.k y.n f).blocks) (hc : v.curBlock = y.s.curBlock ∧ v.curBand = y.s.curBand)
    (hf : ∀ x, (f x).lanes = x.lanes) (hx : x.lanes = y.x.lanes) :
    y.over v x = { y with s := v, b := y.b.modBand y.n f, x := x } ∧ (y.over v x).Good v := by
  obtain ⟨x₀, hx₀, hl⟩ := g.band
  obtain ⟨b, _, _, _, hs⟩ := g.sent
  have hblocks : y.s.blocks = tset s₀.blocks y.k y.b := by
    obtain rfl : b = y.b := by
      have : (tset s₀.blocks y.k b : Tbl Block) = y.s.blocks := by rw [hs]; rfl
      exact Option.some.inj ((tget_tset_self s₀.blocks y.k b).symm.trans ((congrArg (tget · y.k) this).trans g.blk))
    rw [hs]
    rfl
  have hblk : v.blk y.k = some (y.b.modBand y.n f) :=
    (congrArg (tget · y.k) hb).trans (Iss.blk_modBand_self g.blk f)
  have hput : v.setBlk y.k (y.b.modBand y.n f) = v := by
    have h : tset v.blocks y.k (y.b.modBand y.n f) = v.blocks := by
      have hmod : v.blocks = tmod (tset s₀.blocks y.k y.b) y.k fun b => b.modBand y.n f :=
        hb.trans (congrArg (fun t => tmod t y.k fun b : Block => b.modBand y.n f) hblocks)
      rw [hmod]
      exact tset_tmod_tset s₀.blocks y.k y.b fun b => b.modBand y.n f
    exact congrArg (fun t => { v with blocks := t }) h
  have he : y.over v x = { y with s := v, b := y.b.modBand y.n f, x := x } := by
    rw [Iss.over, Iss.resync, hblk]
    rfl
  rw [he]
  exact ⟨rfl,
    { key := (hc.1.trans g.cur.1).symm
      num := (hc.2.trans g.cur.2).symm
      blk := hblk
      band := ⟨f x₀, Block.band_modBand_self hx₀ f, by rw [hf, ← hl]; exact hx⟩
      exAct := g.exAct
      lt := fun l h => by rw [hx]; exact g.lt l h
      sent := ⟨_, by rw [hput]; exact .rfl' v⟩
      blocks := fun _ _ => rfl }⟩

/-! ### Watch entries (R284, R285) -/

/-- What a watch entry tells of its line: that a check of it is on its way, or what the home has answered with its bytes. -/
def Iss.Watches (y : Iss) (xs : List LaneX) (ps : List Pkt) (e : WatchEnt) : Prop :=
  (e.st = .unresolved ∧ ∃ p ∈ ps, p.msg = .watchChk y.k y.n e.op y.b.core e.line e.version) ∨
  (∃ a ∈ xs, lineOf a.x.pa = e.line ∧ ∃ d, y.came ⟨a, a.x.pa, 1⟩ = some d ∧ e.version = d.version ∧
    e.st = (if d.ec.isSome then .confirmed else .struck) ∧ e.ec = d.ec.getD 0)

theorem Iss.Watches.mono {xs : List LaneX} {ps qs : List Pkt} {e : WatchEnt} (h : y.Watches xs ps e)
    (hs : ∀ p ∈ ps, p ∈ qs) : y.Watches xs qs e :=
  h.imp_left fun ⟨hst, p, hp, hm⟩ => ⟨hst, p, hs p hp, hm⟩

/-- A band with more watch entries. -/
def Band.watching (es : List WatchEnt) (x : Band) : Band := { x with watch := x.watch ++ es }

/-- A state with more watch entries of a band and more packets on their way. -/
def State.watching (s : State) (k n : Nat) (es : List WatchEnt) (ps : List Pkt) (serial : Nat) : State :=
  { s with blocks := (s.modBand k n (Band.watching es)).blocks, net := s.net ++ ps, serial := serial }

theorem State.watching_nil (s : State) (k n : Nat) : s.watching k n [] [] s.serial = s := by
  have h : Band.watching [] = fun x => x := funext fun x => by rw [Band.watching, List.append_nil]
  have hb : (s.modBand k n (Band.watching [])).blocks = s.blocks := by rw [h, State.blocks_modBand_id]
  exact congrArg₂ (fun bs net => { s with blocks := bs, net := net }) hb (List.append_nil s.net)

theorem State.watching_watching (s : State) (k n : Nat) (es fs : List WatchEnt) (ps qs : List Pkt) (i j : Nat) :
    (s.watching k n es ps i).watching k n fs qs j = s.watching k n (es ++ fs) (ps ++ qs) j := by
  have h : Band.watching fs ∘ Band.watching es = Band.watching (es ++ fs) := funext fun x => by
    rw [Band.watching, ← List.append_assoc]
    rfl
  have hb := s.blocks_modBand_modBand k n (Band.watching es) (Band.watching fs)
  rw [h] at hb
  exact congrArg₂ (fun bs net => { s with blocks := bs, net := net, serial := j }) hb (List.append_assoc s.net ps qs)

/-- Bytes of an access that the L1 does not serve, when they are at hand, have come for the issue (R245). -/
theorem Iss.came_of_handAll (hs : y.b.sid = none) {a : LaneX} {n : Nat} (hn : 0 < n)
    (h : (y.handAll false a n).isSome = true)
    (hl : (if !a.x.sc && !a.x.nc then y.s.l1Valid y.b.core (lineOf a.x.pa) else none) = none) :
    ∃ d, y.came ⟨a, a.x.pa, 1⟩ = some d := by
  obtain ⟨m, hm, hp⟩ : ∃ m, 0 < m ∧ (⟨a, a.x.pa, m⟩ : Piece) ∈ a.pieces n := by
    unfold LaneX.pieces
    dsimp only
    split
    · exact ⟨n, hn, List.mem_singleton_self _⟩
    · exact ⟨_, by omega, List.mem_cons_self⟩
  have hhand := (y.isSome_handAll false a n).1 h _ hp
  have hcame : (y.came ⟨a, a.x.pa, m⟩).isSome = true := by
    unfold Iss.hand at hhand
    rw [hs, if_neg (by decide)] at hhand
    dsimp only at hhand
    cases hc : a.x.sc || a.x.nc with
    | true =>
      rw [Bool.false_or, hc, if_pos rfl] at hhand
      rwa [Iss.cameHand, Option.isSome_map] at hhand
    | false =>
      rw [Bool.false_or, hc, if_neg (by decide)] at hhand
      rw [if_pos (by simpa using hc)] at hl
      rw [hl] at hhand
      rwa [Iss.cameHand, Option.isSome_map] at hhand
  unfold Iss.came at hcame ⊢
  cases hq : y.x.held y.pc y.act with
  | none => rw [hq] at hcame; cases hcame
  | some q =>
    rw [hq, Option.bind_some, List.find?_isSome] at hcame
    obtain ⟨d, hd, hin⟩ := hcame
    refine Option.isSome_iff_exists.1 ?_
    rw [Option.bind_some, List.find?_isSome]
    refine ⟨d, hd, ?_⟩
    simp only [Bool.and_eq_true, decide_eq_true_eq] at hin ⊢
    omega

/-- A line whose bytes are at hand gets one entry. -/
theorem Iss.watchLine_eq (hs : y.b.sid = none) {n : Nat} (hn : 0 < n) {xs : List LaneX}
    (h : ∀ a ∈ xs, (y.handAll false a n).isSome = true) (op : Nat) (s : State) {line : Nat} (hl : line ∈ linesOf xs) :
    ∃ e ps i, y.watchLine op xs s line = s.watching y.k y.n [e] ps i ∧ e.line = line ∧ y.Watches xs ps e := by
  obtain ⟨a, ha⟩ : ∃ a, xs.find? (fun a => lineOf a.x.pa == line) = some a := by
    obtain ⟨b, hb, rfl⟩ := List.mem_map.1 (List.mem_eraseDups.1 hl)
    exact find?_line_isSome (fun a : LaneX => a.x.pa) hb
  have hax := List.mem_of_find?_eq_some ha
  obtain rfl : lineOf a.x.pa = line := by simpa using List.find?_some ha
  unfold Iss.watchLine
  rw [ha, hs]
  dsimp only
  rw [if_neg (by decide)]
  cases hc : (if !a.x.sc && !a.x.nc then y.s.l1Valid y.b.core (lineOf a.x.pa) else none) with
  | some c => exact ⟨_, [_], _, rfl, rfl, .inl ⟨rfl, _, List.mem_singleton_self _, rfl⟩⟩
  | none =>
    obtain ⟨d, hd⟩ := Iss.came_of_handAll hs hn (h a hax) hc
    rw [hd]
    exact ⟨_, [], s.serial, by rw [State.watching, List.append_nil]; rfl, rfl, .inr ⟨a, hax, rfl, d, hd, rfl, rfl, rfl⟩⟩

/-- Lines whose bytes are at hand get their entries in their order. -/
theorem Iss.foldl_watchLine (hs : y.b.sid = none) {n : Nat} (hn : 0 < n) {xs : List LaneX}
    (h : ∀ a ∈ xs, (y.handAll false a n).isSome = true) (op : Nat) (s : State) {ls : List Nat} (hl : ∀ l ∈ ls, l ∈ linesOf xs) :
    ∃ es ps i, ls.foldl (y.watchLine op xs) s = s.watching y.k y.n es ps i ∧ es.map WatchEnt.line = ls ∧
      ∀ e ∈ es, y.Watches xs ps e := by
  induction ls generalizing s with
  | nil => exact ⟨[], [], s.serial, (s.watching_nil ..).symm, rfl, fun _ he => absurd he List.not_mem_nil⟩
  | cons l ls ih =>
    obtain ⟨hl, hls⟩ := List.forall_mem_cons.1 hl
    obtain ⟨e, ps, i, he, hline, hw⟩ := Iss.watchLine_eq hs hn h op s hl
    obtain ⟨es, qs, j, hes, hlines, hws⟩ := ih (s.watching y.k y.n [e] ps i) hls
    refine ⟨e :: es, ps ++ qs, j, ?_, by rw [List.map_cons, hline, hlines], List.forall_mem_cons.2 ⟨?_, fun f hf => ?_⟩⟩
    · rw [List.foldl_cons, he, hes, State.watching_watching]
      rfl
    · exact hw.mono fun p hp => List.mem_append_left _ hp
    · exact (hws f hf).mono fun p hp => List.mem_append_right _ hp

/-! ### The load of an `ldw` (R314) -/

/-- An access size is at least one byte. -/
theorem lsizeBytes_pos (sz : LSize) : 0 < lsizeBytes sz := by
  cases sz <;> decide

/-- The state in which a watched load has made its entries. -/
def Iss.watched (y : Iss) (xs : List LaneX) : State :=
  (linesOf xs).foldl (y.watchLine y.s.serial xs) (y.reads { y.s with serial := y.s.serial + 1 } xs)

/-- The watch entries of a band in a state. -/
def State.watchOf (s : State) (k n : Nat) : List WatchEnt := (((s.blk k).bind fun b => b.band n).map Band.watch).getD []

/-- The body of a load with watch entries that lacks nothing commits over the state that has them. -/
theorem Iss.loadFrom_watched (i : Instr) {sz : LSize} (d : BitVec 8) (acq : Bool) {xs : List LaneX} (hh : y.held true xs = none)
    (hp : y.poisoned false (lsizeBytes sz) xs = none) (hs : ∀ a ∈ xs, (y.handAll false a (lsizeBytes sz)).isSome = true)
    {port : Option (Nat × List PushAt)} (hport : y.portOk i y.s = .ok port) :
    y.loadFrom i sz d acq false true xs =
      (y.over (y.watched xs) { y.x.took (xs.filterMap fun a => y.handAll false a (lsizeBytes sz)) with
        watch := (y.watched xs).watchOf y.k y.n }).commit i
        (loadOuts d sz (xs.filterMap fun a => (y.handAll false a (lsizeBytes sz)).map fun h => (a.lane, h.bs))) := by
  have hnone : ((xs.map fun a => (a, y.handAll false a (lsizeBytes sz))).filter fun g => g.2.isNone).map (·.1) = [] := by
    rw [List.map_eq_nil_iff, List.filter_eq_nil_iff]
    intro p hp
    obtain ⟨a, ha, rfl⟩ := List.mem_map.1 hp
    simpa using Option.isSome_iff_ne_none.1 (hs a ha)
  unfold Iss.loadFrom
  dsimp only
  rw [hh]
  dsimp only
  rw [Iss.coldParts_of_served hs, hp, hport]
  dsimp only
  rw [if_pos rfl, if_pos (by rw [hnone]; rfl)]
  simp only [List.filterMap_map, Function.comp_def]
  rfl

/-- What a load leaves that makes watch entries where its table has room for them (R284). -/
structure Iss.LeavesWatch (y : Iss) (xs : List LaneX) (hs : List AtHand) (u : State) (x : Band) : Prop where
  mem : u.mem = y.s.mem
  took : x = { y.x.took hs with watch := x.watch }
  watch : if y.x.watch.length + (linesOf xs).length ≤ y.x.watchCap then
      ∃ es : List WatchEnt, x.watch = y.x.watch ++ es ∧ es.map WatchEnt.line = linesOf xs ∧ ∀ e ∈ es, y.Watches xs u.net e
    else x.watch = y.x.watch

/-- A band that has received values keeps its watch entries. -/
theorem Band.watch_took (x : Band) (hs : List AtHand) : (x.took hs).watch = x.watch := by
  rw [(x.took_spec hs).2.1]

section

variable {h : Hdr} {s : State}

/-- `ldw` with all its bytes at hand delivers them, and leaves entries for its lines where the table has room. -/
theorem exec_ldw_served {o : Ldw} {xs : List LaneX} {bytes : Nat → List Byte} (g : Issues (.ldw h o) s y) (hsid : y.b.sid = none)
    (hr : y.Reaches .read (lsizeBytes o.sz) (y.addrs o.base (o.disp.signExtend 64)) xs) (hh : y.held true xs = none)
    (hp : y.poisoned false (lsizeBytes o.sz) xs = none) {port : Option (Nat × List PushAt)}
    (hport : y.portOk (.ldw h o) y.s = .ok port) (hs : ∀ a ∈ xs, y.Served false (lsizeBytes o.sz) a (bytes a.lane)) :
    ∃ u x, (y.over u x).Delivers (.ldw h o) s (fun l => { v := wordsAt o.d (loadWords o.sz (bytesV (bytes l))) }) ∧
      y.LeavesWatch xs (xs.filterMap fun a => y.handAll false a (lsizeBytes o.sz)) u x := by
  have hsome : ∀ a ∈ xs, (y.handAll false a (lsizeBytes o.sz)).isSome = true := fun a ha => by
    obtain ⟨d, hd, -⟩ := hs a ha
    rw [hd]
    rfl
  have good := y.good g
  have hwatch := Iss.watch_of_issues g
  have hexec := exec_ldw_of_reaches g hr
  obtain ⟨v, hv⟩ : ∃ v, v = y.reads { y.s with serial := y.s.serial + 1 } xs := ⟨_, rfl⟩
  have hvb : v.blocks = y.s.blocks := hv ▸ Iss.blocks_reads ..
  have hvc : v.curBlock = y.s.curBlock ∧ v.curBand = y.s.curBand := hv ▸ y.reads_cur ..
  have hvm : v.mem = y.s.mem := hv ▸ Iss.mem_reads ..
  unfold Iss.loadWatched at hexec
  by_cases hroom : y.x.watch.length + (linesOf xs).length ≤ y.x.watchCap
  · rw [decide_eq_true hroom, Iss.loadFrom_watched _ _ _ hh hp hsome hport, loadOuts_eq_of_served (Iss.lane_reach hr.1) hs] at hexec
    obtain ⟨es, ps, j, hu, hlines, hes⟩ := Iss.foldl_watchLine hsid (lsizeBytes_pos o.sz) hsome y.s.serial v
      (ls := linesOf xs) fun _ h => h
    have hu : y.watched xs = v.watching y.k y.n es ps j := by rw [← hu, hv]; rfl
    have hub : (y.watched xs).blocks = (y.s.modBand y.k y.n (Band.watching es)).blocks := by
      rw [hu]
      exact congrArg (tmod · y.k fun b : Block => b.modBand y.n (Band.watching es)) hvb
    have hents : (y.watched xs).watchOf y.k y.n = y.x.watch ++ es := by
      obtain ⟨x₀, hx₀, hw⟩ := hwatch
      have hblk : (y.watched xs).blk y.k = some (y.b.modBand y.n (Band.watching es)) :=
        (congrArg (tget · y.k) hub).trans (Iss.blk_modBand_self good.blk _)
      rw [State.watchOf, hblk, Option.bind_some, Block.band_modBand_self hx₀, hw]
      rfl
    rw [hents] at hexec
    obtain ⟨-, hgood⟩ := good.overBand (v := y.watched xs) (f := Band.watching es)
      (x := { y.x.took (xs.filterMap fun a => y.handAll false a (lsizeBytes o.sz)) with watch := y.x.watch ++ es }) hub
      (by rw [hu]; exact hvc) (fun _ => rfl) (by rw [(y.x.took_spec _).2.1])
    refine ⟨_, _, hgood.delivers (i := .ldw h o) rfl hexec, ⟨by rw [hu]; exact hvm, rfl, ?_⟩⟩
    rw [if_pos hroom]
    refine ⟨es, rfl, hlines, fun e he => (hes e he).mono fun p hp => ?_⟩
    rw [hu]
    exact List.mem_append_right _ hp
  · rw [decide_eq_false hroom, good.loadFrom_served hwatch _ _ _ hh hp hsome hport,
      loadOuts_eq_of_served (Iss.lane_reach hr.1) hs, ← hv] at hexec
    obtain ⟨-, hgood⟩ := good.over (v := v) (x := y.x.took (xs.filterMap fun a => y.handAll false a (lsizeBytes o.sz))) hvb hvc
      (by rw [(y.x.took_spec _).2.1])
    refine ⟨_, _, hgood.delivers (i := .ldw h o) rfl hexec, ⟨hvm, rfl, ?_⟩⟩
    rw [if_neg hroom]
    exact y.x.watch_took _

/-! ### `chk` (R287, R315) -/

theorem exec_chk_misaligned {off : Word} (g : Issues (.chk h off) s y) (hne : y.ex ≠ []) (ho : off.extractLsb' 0 2 ≠ 0) :
    Traps (.chk h off) s y { cls := .fetchalign, cause := 1, lane := lowest y.ex, addr := y.pc + off.signExtend 64 } := by
  refine (run_next g _).trans ?_
  dsimp only
  rw [if_neg (by simpa using hne), if_pos ho]
  rfl

/-- A `chk` waits for the answers to the checks on their way. -/
theorem exec_chk_unresolved {off : Word} (g : Issues (.chk h off) s y) (hne : y.ex ≠ []) (ho : off.extractLsb' 0 2 = 0)
    (hu : ∃ e ∈ y.x.watch, e.st = .unresolved) : exec (.chk h off) s = .next (y.s.blockLanes y.k y.n y.act .watch) := by
  obtain ⟨e, he, hst⟩ := hu
  refine (run_next g _).trans ?_
  dsimp only
  rw [if_neg (by simpa using hne), if_neg (not_not.2 ho), if_pos (List.any_eq_true.2 ⟨e, he, by rw [hst]; rfl⟩)]

/-- A `chk` whose checks are answered clears the table, and its executing lanes jump if an entry is struck. -/
theorem exec_chk_resolved {off : Word} (g : Issues (.chk h off) s y) (hne : y.ex ≠ []) (ho : off.extractLsb' 0 2 = 0)
    (hu : ∀ e ∈ y.x.watch, e.st ≠ .unresolved) :
    let struck := y.b.sid.isNone && chkStruck y.x.watch (y.s.now y.b.die)
    ∃ t, exec (.chk h off) s = .next t ∧ y.Goes (y.over y.s { y.x with watch := [] }).base t fun l =>
      if struck && y.ex.contains l then y.pc + off.signExtend 64 else y.inLine (.chk h off) l := by
  intro struck
  have good := y.good g
  obtain ⟨x₀, hx₀, -⟩ := good.band
  have hover : y.over y.s { y.x with watch := [] } = { y with x := { y.x with watch := [] } } := by
    rw [Iss.over, Iss.resync_self good.blk]
  have hjumps : (if struck = true then y.ex.map fun l => (l, y.pc + off.signExtend 64) else []) =
      y.ex.filterMap fun l => (if struck = true then some (y.pc + off.signExtend 64) else none).map fun t => (l, t) := by
    cases struck <;> simp
  have hnext : y.goOn (.chk h off) (if struck = true then y.ex.map fun l => (l, y.pc + off.signExtend 64) else []) = fun l =>
      if (struck && y.ex.contains l) = true then y.pc + off.signExtend 64 else y.inLine (.chk h off) l := by
    rw [hjumps, Iss.goOn_targets]
    funext l
    cases struck <;> simp
  rw [hover]
  refine ⟨_, (run_next g _).trans ?_, hnext ▸ good.goes (i := .chk h off) rfl _ (State.blk_setBlk ..)
    (Block.band_setBand_self y.b { y.x with watch := [] } x₀ hx₀) rfl⟩
  dsimp only
  rw [if_neg (by simpa using hne), if_neg (not_not.2 ho), if_neg (by simpa using hu)]
  rfl

end

end

/-- Settles O30: `ldw` by the entries that its lines get, `chk` by the branch that the state of its table takes. -/
theorem watchedLoads : Obligations.WatchedLoads := by
  unfold Obligations.WatchedLoads
  intro h s y
  refine ⟨?_, fun off g hne ho => exec_chk_misaligned g hne ho, fun off g hne ho hu => exec_chk_resolved g hne ho hu,
    fun off g hne ho hu => exec_chk_unresolved g hne ho hu⟩
  intro o xs bytes n g hsid hr hh hp ⟨port, hport⟩ hs
  obtain ⟨u, x, hdel, hleaves⟩ := exec_ldw_served g hsid hr hh hp hport hs
  exact ⟨u, x, hdel, hleaves.mem, hleaves.took, hleaves.watch⟩

end Sys2Proof.Machine

/-! # Fences, cache operations, prefetches, range commits

What each of them leaves of its core's L1, of the network and of the context's ranges; none moves a register or a byte of memory
(R279, R321 to R325). -/

namespace Sys2Proof.Machine

open Sys2Proof

/-! ### Completing without an effect on registers or memory -/

theorem Iss.sameShell_finish (y : Iss) (s : State) (i : Instr) (jumps : List (Nat × DWord)) :
    s.sameShell (y.finish s i jumps) := by
  unfold Iss.finish
  split
  · exact (s.near_checkRec y.k y.n).shell.trans (State.sameShell_modBand ..)
  · rfl

theorem Iss.cores_finish (y : Iss) (s : State) (i : Instr) (jumps : List (Nat × DWord)) :
    (y.finish s i jumps).cores = s.cores := (congrArg State.cores (y.sameShell_finish s i jumps) :)

theorem Iss.ctxs_finish (y : Iss) (s : State) (i : Instr) (jumps : List (Nat × DWord)) :
    (y.finish s i jumps).ctxs = s.ctxs := (congrArg State.ctxs (y.sameShell_finish s i jumps) :)

section

variable {y : Iss} {s₀ : State}

/-- An issue that completes over a state in which its band's front stays has moved its lanes and no more. -/
theorem Iss.Good.moved_finish (g : y.Good s₀) {i : Instr} {h : Hdr} (hi : i.hdr? = some h) {u : State}
    (hc : State.Calm y.k y.n y.base u) (hm : u.mem = y.s.mem) : y.Moved (y.finish u i []) (y.inLine i) := by
  obtain ⟨hb, hx⟩ := g.base_band
  obtain ⟨c, z, hc', hz, hf⟩ := hc.band _ _ hb hx
  have hlen : z.lanes.length = y.x.lanes.length := by rw [(Band.front_eq_iff.1 hf).1]
  exact (g.goes hi [] hc' hz hlen).moved hc' hz hf hm fun k hk => (hc.others k hk).trans (State.blk_setBlk_ne _ _ hk)

end

/-! ### The L1 after `linv` and `lflush` (R323) -/

section

variable (s : State) (core lid : Nat)

/-- A line that its core gives up leaves the L1, and no other does. -/
theorem State.l1_giveUp (wb : Option (Nat × Nat)) (x : L1Line) :
    ((s.giveUp core lid wb x).core core).l1 = (s.core core).l1.filter fun c => c.line != x.line := by
  have h := s.core_setCore core ((s.core core).l1Drop x.line)
  unfold State.giveUp
  dsimp only
  split <;> exact congrArg Core.l1 h

/-- What `lflush` does with one owned line. -/
def State.flushLine (k n : Nat) (s : State) (x : L1Line) : State :=
  if x.dirty then (s.giveUp core lid (some (k, n)) x).modBand k n fun y => { y with storesOut := y.storesOut + 1 }
  else s.giveUp core lid none x

theorem State.flushOwned_eq (k n : Nat) (p : Nat → Bool) : s.flushOwned core k n lid p =
    ((s.core core).l1.filter fun x => x.owned && p x.line).foldl (State.flushLine core lid k n) s := rfl

theorem State.l1_flushLine (k n : Nat) (x : L1Line) :
    ((s.flushLine core lid k n x).core core).l1 = (s.core core).l1.filter fun c => c.line != x.line := by
  unfold State.flushLine
  split
  · exact s.l1_giveUp core lid (some (k, n)) x
  · exact s.l1_giveUp core lid none x

theorem State.calm_flushLine (k n : Nat) (x : L1Line) : State.Calm k n s (s.flushLine core lid k n x) := by
  unfold State.flushLine
  split
  · exact (State.Calm.of_blocks (State.blocks_giveUp ..)).trans (State.calm_modBand _ k n fun _ => rfl)
  · exact .of_blocks (State.blocks_giveUp ..)

theorem State.mem_flushLine (k n : Nat) (x : L1Line) : (s.flushLine core lid k n x).mem = s.mem := by
  unfold State.flushLine
  split <;> exact State.mem_giveUp ..

theorem State.mem_l1_foldl_flushLine (k n : Nat) (ls : List L1Line) (c : L1Line) :
    c ∈ ((ls.foldl (State.flushLine core lid k n) s).core core).l1 ↔ c ∈ (s.core core).l1 ∧ ∀ x ∈ ls, c.line ≠ x.line := by
  induction ls generalizing s with
  | nil => simp
  | cons x ls ih =>
    rw [List.foldl_cons, ih, State.l1_flushLine, List.mem_filter, List.forall_mem_cons, bne_iff_ne, and_assoc]

/-- A flush leaves of the L1 the lines that are not selected and, of the others, those that the core does not own. -/
theorem State.mem_l1_flushOwned (k n : Nat) (p : Nat → Bool) (c : L1Line) :
    c ∈ ((s.flushOwned core k n lid p).core core).l1 ↔
      c ∈ (s.core core).l1 ∧ ∀ x ∈ (s.core core).l1, x.owned = true → p x.line = true → c.line ≠ x.line := by
  rw [State.flushOwned_eq, State.mem_l1_foldl_flushLine]
  simp only [List.mem_filter, Bool.and_eq_true, and_imp]

theorem State.calm_flushOwned (k n : Nat) (p : Nat → Bool) : State.Calm k n s (s.flushOwned core k n lid p) :=
  .foldl _ (fun s x => s.calm_flushLine core lid k n x) _ s

theorem State.mem_flushOwned_eq (k n : Nat) (p : Nat → Bool) : (s.flushOwned core k n lid p).mem = s.mem :=
  State.mem_foldl _ (fun s x => s.mem_flushLine core lid k n x) _ s

end

section

variable {h : Hdr} {s : State} {y : Iss}

theorem exec_linv_drops {l : LineSel} (g : Issues (.linv h l) s y) (hne : y.ex ≠ []) :
    ∃ t, exec (.linv h l) s = .next t ∧ y.Moved t (y.inLine (.linv h l)) ∧
      (t.core y.b.core).l1 = (y.s.core y.b.core).l1.filter fun c => c.owned || !y.lineSel l c.line := by
  have good := y.good g
  obtain ⟨u, hu⟩ : ∃ u, u = y.base.setCore y.b.core ((y.base.core y.b.core).dropLeased (y.lineSel l)) := ⟨_, rfl⟩
  have hexec : exec (.linv h l) s = .next (y.finish u (.linv h l) []) := by
    refine (run_next g _).trans ?_
    dsimp only
    rw [if_neg (by simpa using hne), hu]
  refine ⟨_, hexec, good.moved_finish (i := .linv h l) rfl (.of_blocks (by rw [hu]; rfl)) (by rw [hu]; exact Iss.mem_base ..), ?_⟩
  rw [State.core, Iss.cores_finish, hu]
  exact congrArg Core.l1 (State.core_setCore ..)

theorem exec_lflush_flushes {l : LineSel} (g : Issues (.lflush h l) s y) (hne : y.ex ≠ []) :
    ∃ t, exec (.lflush h l) s = .next t ∧ y.Moved t (y.inLine (.lflush h l)) ∧
      (∀ c ∈ (t.core y.b.core).l1, y.lineSel l c.line = false) ∧
      ∀ c ∈ (y.s.core y.b.core).l1, y.lineSel l c.line = false → c ∈ (t.core y.b.core).l1 := by
  have good := y.good g
  obtain ⟨v, hv⟩ : ∃ v, v = y.base.setCore y.b.core ((y.base.core y.b.core).dropLeased (y.lineSel l)) := ⟨_, rfl⟩
  obtain ⟨u, hu⟩ : ∃ u, u = v.flushOwned y.b.core y.k y.n y.b.lid (y.lineSel l) := ⟨_, rfl⟩
  have hexec : exec (.lflush h l) s = .next (y.finish u (.lflush h l) []) := by
    refine (run_next g _).trans ?_
    dsimp only
    rw [if_neg (by simpa using hne), hu, hv]
  have hcalm : State.Calm y.k y.n y.base u :=
    (State.Calm.of_blocks (by rw [hv]; rfl)).trans (hu ▸ v.calm_flushOwned y.b.core y.b.lid y.k y.n _)
  have hmem : u.mem = y.s.mem := by
    rw [hu, State.mem_flushOwned_eq, hv]
    exact Iss.mem_base ..
  have hcore : (v.core y.b.core).l1 = (y.s.core y.b.core).l1.filter fun c => c.owned || !y.lineSel l c.line := by
    rw [hv]
    exact congrArg Core.l1 (State.core_setCore ..)
  have hin : ∀ c, c ∈ ((y.finish u (.lflush h l) []).core y.b.core).l1 ↔ c ∈ (v.core y.b.core).l1 ∧
      ∀ x ∈ (v.core y.b.core).l1, x.owned = true → y.lineSel l x.line = true → c.line ≠ x.line := fun c => by
    rw [State.core, Iss.cores_finish, hu]
    exact v.mem_l1_flushOwned ..
  refine ⟨_, hexec, good.moved_finish (i := .lflush h l) rfl hcalm hmem, fun c hc => ?_, fun c hc hsel => (hin c).2 ⟨?_, ?_⟩⟩
  · obtain ⟨hc, hgone⟩ := (hin c).1 hc
    by_contra hsel
    have hsel : y.lineSel l c.line = true := by simpa using hsel
    have howned : c.owned = true := by
      rw [hcore] at hc
      simpa [hsel] using (List.mem_filter.1 hc).2
    exact hgone c hc howned hsel rfl
  · rw [hcore]
    exact List.mem_filter.2 ⟨hc, by simp [hsel]⟩
  · intro x _ _ hx e
    rw [e, hx] at hsel
    cases hsel

end

/-! ### Prefetches (R322) -/

section

variable (y : Iss) (own : Bool) (s : State)

/-- The request that a prefetch makes for a line, as the read `op`. -/
def Iss.prefetchMsg (op : Nat) (q : Nat × Xl) : Option Msg :=
  if q.2.nc || q.2.sc then none
  else if own && q.2.w then if s.owns y.b.core q.1 then none else some (.ownReq y.b.core q.1)
  else if (s.l1Valid y.b.core q.1).isSome then none
  else some (.loadReq y.k y.n op y.b.core q.1 q.2.kid false false false false)

/-- A prefetch asks for a line's ownership where it may and the core lacks it, and else for a lease that the L1 lacks. -/
theorem Iss.prefetchMsg_eq_some {op : Nat} {q : Nat × Xl} {m : Msg} : y.prefetchMsg own s op q = some m ↔
    (q.2.nc = false ∧ q.2.sc = false) ∧
      ((own = true ∧ q.2.w = true ∧ s.owns y.b.core q.1 = false ∧ m = .ownReq y.b.core q.1) ∨
        ((own = false ∨ q.2.w = false) ∧ (s.l1Valid y.b.core q.1).isSome = false ∧
          m = .loadReq y.k y.n op y.b.core q.1 q.2.kid false false false false)) := by
  unfold Iss.prefetchMsg
  cases q.2.nc <;> cases q.2.sc <;> cases own <;> cases q.2.w <;> cases s.owns y.b.core q.1 <;>
    cases (s.l1Valid y.b.core q.1).isSome <;> simp [eq_comm]

theorem Iss.prefetch_eq (q : Nat × Xl) : y.prefetch own s q =
    match y.prefetchMsg own s s.serial q with
    | some m => s.send (coreRouter y.b.core) (s.homeRouter (128 * q.1)) .request y.b.lid (some (y.k, y.n)) m
    | none => s := by
  unfold Iss.prefetch Iss.prefetchMsg
  split
  · rfl
  next hmarks =>
    obtain ⟨hnc, hsc⟩ : q.2.nc = false ∧ q.2.sc = false := by simpa using hmarks
    split
    · split <;> rfl
    · split
      · rfl
      · rw [Iss.askLine, State.askLine, hnc, hsc]
        rfl

/-- Prefetches send the requests for the lines that need one, and nothing else. -/
theorem Iss.foldl_prefetch (qs : List (Nat × Xl)) : ∃ ps i,
    qs.foldl (y.prefetch own) s = { s with net := s.net ++ ps, serial := i } ∧
      (∀ p ∈ ps, p.cls = .request ∧ ∃ q ∈ qs, ∃ op, y.prefetchMsg own s op q = some p.msg) ∧
      ∀ q ∈ qs, (∀ op, y.prefetchMsg own s op q ≠ none) → ∃ p ∈ ps, ∃ op, y.prefetchMsg own s op q = some p.msg := by
  induction qs generalizing s with
  | nil => exact ⟨[], s.serial, by rw [List.foldl_nil, List.append_nil], by simp, by simp⟩
  | cons q qs ih =>
    obtain ⟨ps, i, he, hfrom, hall⟩ : ∃ ps i, y.prefetch own s q = { s with net := s.net ++ ps, serial := i } ∧
        (∀ p ∈ ps, p.cls = .request ∧ y.prefetchMsg own s s.serial q = some p.msg) ∧
        (y.prefetchMsg own s s.serial q ≠ none → ∃ p ∈ ps, y.prefetchMsg own s s.serial q = some p.msg) := by
      rw [Iss.prefetch_eq]
      cases y.prefetchMsg own s s.serial q with
      | none => exact ⟨[], s.serial, by rw [List.append_nil], by simp, by simp⟩
      | some m => exact ⟨[_], _, rfl, fun p hp => by rw [List.mem_singleton.1 hp]; exact ⟨rfl, rfl⟩,
          fun _ => ⟨_, List.mem_singleton_self _, rfl⟩⟩
    obtain ⟨qs', j, he', hfrom', hall'⟩ := ih (y.prefetch own s q)
    have hmsg : y.prefetchMsg own (y.prefetch own s q) = y.prefetchMsg own s := by rw [he]; rfl
    rw [hmsg] at hfrom' hall'
    refine ⟨ps ++ qs', j, by rw [List.foldl_cons, he', he, List.append_assoc], fun p hp => ?_,
      List.forall_mem_cons.2 ⟨fun hn => ?_, fun r hr hn => ?_⟩⟩
    · obtain hp | hp := List.mem_append.1 hp
      · exact ⟨(hfrom p hp).1, q, List.mem_cons_self, _, (hfrom p hp).2⟩
      · obtain ⟨hcls, r, hr, hm⟩ := hfrom' p hp
        exact ⟨hcls, r, List.mem_cons_of_mem _ hr, hm⟩
    · obtain ⟨p, hp, hm⟩ := hall (hn _)
      exact ⟨p, List.mem_append_left _ hp, _, hm⟩
    · obtain ⟨p, hp, hm⟩ := hall' r hr hn
      exact ⟨p, List.mem_append_right _ hp, hm⟩

end

/-- The lines that a prefetch names, each with the first of its translations. -/
def firstOfLines (ls : List (Nat × Xl)) : List (Nat × Xl) :=
  (ls.map (·.1)).eraseDups.filterMap fun l => ls.find? fun q => q.1 == l

theorem mem_firstOfLines {ls : List (Nat × Xl)} {l : Nat} {x : Xl} :
    (l, x) ∈ firstOfLines ls ↔ ls.find? (fun q => q.1 == l) = some (l, x) := by
  rw [firstOfLines, List.mem_filterMap]
  refine ⟨fun ⟨m, _, hm⟩ => ?_, fun hf => ⟨l, ?_, hf⟩⟩
  · obtain rfl : l = m := by simpa using List.find?_some hm
    exact hm
  · exact List.mem_eraseDups.2 (List.mem_map_of_mem (f := Prod.fst) (List.mem_of_find?_eq_some hf))

section

variable {h : Hdr} {s : State} {y : Iss}

/-- `prf` sends the requests for its lines. -/
theorem exec_prf_asks {o : Prf} (g : Issues (.prf h o) s y) : ∃ t ps, exec (.prf h o) s = .next t ∧
    y.Moved t (y.inLine (.prf h o)) ∧ t.net = y.s.net ++ ps ∧ t.cores = y.s.cores ∧
    let qs := firstOfLines (y.namedLines .read (y.addrs o.base (o.disp.signExtend 64)))
    (∀ p ∈ ps, p.cls = .request ∧ ∃ q ∈ qs, ∃ op, y.prefetchMsg o.own y.s op q = some p.msg) ∧
    ∀ q ∈ qs, (∀ op, y.prefetchMsg o.own y.s op q ≠ none) → ∃ p ∈ ps, ∃ op, y.prefetchMsg o.own y.s op q = some p.msg := by
  obtain ⟨ps, i, he, hfrom, hall⟩ := y.foldl_prefetch o.own y.base
    (firstOfLines (y.namedLines .read (y.addrs o.base (o.disp.signExtend 64))))
  obtain ⟨u, hu⟩ : ∃ u : State, u = { y.base with net := y.base.net ++ ps, serial := i } := ⟨_, rfl⟩
  rw [← hu] at he
  have hexec : exec (.prf h o) s = .next (y.finish u (.prf h o) []) := (run_next g _).trans (by rw [← he]; rfl)
  refine ⟨_, ps, hexec, ?_, ?_, ?_, hfrom, hall⟩
  · exact (y.good g).moved_finish (i := .prf h o) rfl (.of_blocks (by rw [hu])) (by rw [hu]; exact Iss.mem_base ..)
  · rw [Iss.net_finish, hu]
    rfl
  · rw [Iss.cores_finish, hu]
    rfl

end

/-! ### Range commits (R260, R261, R324, R325) -/

theorem exists_of_firstTrap_error {α : Type} {l : List α} {f : α → Option Trap} {t : Trap} (h : firstTrap l f = .error t) :
    ∃ a ∈ l, f a = some t := by
  induction l with
  | nil => cases h
  | cons a l ih =>
    rw [firstTrap] at h
    cases ha : f a with
    | some e =>
      rw [ha] at h
      cases h
      exact ⟨a, List.mem_cons_self, ha⟩
    | none =>
      rw [ha] at h
      obtain ⟨b, hb, hf⟩ := ih h
      exact ⟨b, List.mem_cons_of_mem a hb, hf⟩

/-- The traps of a translation are PAGE, the POISON of a walk, and PERM (R304 orders 4 and 5). -/
theorem State.cls_of_xlateAll {s : State} {core asid fn : Nat} {own : Option Nat} {priv : Bool} {k : AKind}
    {as : List (Nat × Nat)} {t : Trap} (h : s.xlateAll core asid fn own priv k as = .error (.trap t)) :
    t.cls = .page ∨ t.cls = .poison ∨ t.cls = .perm := by
  unfold State.xlateAll at h
  dsimp only at h
  split at h
  · cases h
  split at h
  next hwalk =>
    cases h
    obtain ⟨p, -, hp⟩ := exists_of_firstTrap_error hwalk
    split at hp
    · cases hp
    · cases hp
      exact .inl rfl
    · cases hp
      exact .inr (.inl rfl)
  next =>
    split at h
    next hperm =>
      cases h
      obtain ⟨a, -, ha⟩ := exists_of_firstTrap_error hperm
      split at ha
      · cases ha
      · cases ha
        exact .inr (.inr rfl)
    · cases h

theorem Iss.cls_of_poisoned {y : Iss} {unc : Bool} {n : Nat} {xs : List LaneX} {t : Trap} (h : y.poisoned unc n xs = some t) :
    t.cls = .poison := by
  obtain ⟨a, -, rfl⟩ := Option.map_eq_some_iff.1 h
  rfl

@[simp] theorem State.ctxs_tlbFill (s : State) (core : Nat) (x : Xl) : (s.tlbFill core x).ctxs = s.ctxs := by
  unfold State.tlbFill
  split <;> rfl

theorem State.SentMore.ctxs_eq {s t : State} (h : s.SentMore t) : t.ctxs = s.ctxs := by
  obtain ⟨_, _, _, rfl⟩ := h
  rfl

@[simp] theorem State.ctxs_walkFill (s : State) (core asid lid : Nat) (blk : Option (Nat × Nat)) (va : Nat) (x : Xl) :
    (s.walkFill core asid lid blk va x).ctxs = s.ctxs := by
  unfold State.walkFill
  split
  · rw [State.ctxs_tlbFill]
    exact (State.sent_engineAsk ..).ctxs_eq
  · rfl

/-- The reads of an issue leave the contexts alone. -/
theorem Iss.ctxs_reads (y : Iss) (s : State) (xs : List LaneX) : (y.reads s xs).ctxs = s.ctxs := by
  have hfills : (y.fills s xs).ctxs = s.ctxs := by
    unfold Iss.fills State.tlbFillAll
    refine List.foldlRecOn (motive := fun p : State × List TlbEnt => p.1.ctxs = s.ctxs) xs _ rfl fun p hp a _ => ?_
    split
    · split
      · exact hp
      · exact (State.ctxs_walkFill ..).trans hp
    · exact hp
  unfold Iss.reads
  dsimp only
  split
  · exact hfills
  · exact (State.sent_engineAsk ..).ctxs_eq.trans hfills

/-- The set k of a commit's table, from what the commit has read. -/
def Iss.rangeSetAt (y : Iss) (xs : List LaneX) (table k : Nat) : RangeSet :=
  y.rangeAt (xs.filter fun a => (rangeWords table k).contains a.va)

/-- The state in which a commit has read its table and replaced the sets that its mask names. -/
def Iss.committed (y : Iss) (o : RngCommit) (xs : List LaneX) : State :=
  let s := ({ y with s := y.reads y.s xs, x := y.x.took (xs.filterMap fun a => y.handAll false a 8) } : Iss).base
  { s with ctxs := tmod s.ctxs y.b.asid fun c =>
    { c with ranges := commitRanges c.ranges o.mask (y.rangeSetAt xs (y.x.u64 o.a.toNat).toNat) } }

/-- The sets that a commit's mask names. -/
def commitSets (o : RngCommit) : List Nat := (List.range 32).filter fun k => o.mask.getLsbD k

/-- The reads of a commit, in their order. -/
def Iss.tableReads (y : Iss) (o : RngCommit) : Except Stop (List LaneX) :=
  y.s.xlateAll y.b.core y.b.asid y.b.fn y.b.sid y.x.inh .read
    ((commitSets o).flatMap fun k => (rangeWords (y.x.u64 o.a.toNat).toNat k).map fun a => (lowest y.act, a))

section

variable {h : Hdr} {s : State} {y : Iss} {o : RngCommit}

theorem exec_rngCommit_misaligned (g : Issues (.rngCommit h o) s y) (hne : y.ex ≠ []) (ha : (y.x.u64 o.a.toNat).toNat % 8 ≠ 0) :
    Traps (.rngCommit h o) s y
      { cls := .align, lane := lowest y.act, addr := BitVec.ofNat 64 (y.x.u64 o.a.toNat).toNat } := by
  refine (runO_next g _).trans ?_
  dsimp only
  rw [if_neg (by simpa using hne), if_pos ha]
  rfl

theorem exec_rngCommit_unread (g : Issues (.rngCommit h o) s y) (hne : y.ex ≠ []) (ha : (y.x.u64 o.a.toNat).toNat % 8 = 0)
    {e : Trap} (he : y.tableReads o = .error (.trap e)) : Traps (.rngCommit h o) s y e := by
  unfold Iss.tableReads commitSets at he
  refine (runO_next g _).trans ?_
  dsimp only
  rw [if_neg (by simpa using hne), if_neg (not_not.2 ha), he]
  rfl

/-- A commit whose table has been read traps at poison, then at the first set with a reserved field that is not 0; else it
waits for the accesses of its context, and replaces the sets. -/
theorem exec_rngCommit_read (g : Issues (.rngCommit h o) s y) (hne : y.ex ≠ []) (ha : (y.x.u64 o.a.toNat).toNat % 8 = 0)
    {xs : List LaneX} (hr : y.tableReads o = .ok xs) (hreg : ∀ q ∈ xs, isReg q.x.pa = false) (hh : y.held true xs = none)
    (hm : y.missing false (xs.map fun a => (a, 8)) = []) : exec (.rngCommit h o) s =
      .next (match y.poisoned false 8 xs with
        | some e => y.poisonOut e
        | none =>
          match (commitSets o).find? fun k => !rangeOk (y.rangeSetAt xs (y.x.u64 o.a.toNat).toNat k) with
          | some k => y.trap { cls := .perm, lane := lowest y.act
                               addr := BitVec.ofNat 64 (((y.x.u64 o.a.toNat).toNat + 24 * k) % 2 ^ 64) }
          | none => if y.s.ctxQuiet y.b.asid = true then y.finish (y.committed o xs) (.rngCommit h o) [] else y.s) := by
  unfold Iss.tableReads commitSets at hr
  refine (runO_next g _).trans ?_
  dsimp only
  rw [if_neg (by simpa using hne), if_neg (not_not.2 ha), hr]
  dsimp only
  rw [regStop_eq_none hreg, hh, hm]
  dsimp only
  cases y.poisoned false 8 xs with
  | some e => rfl
  | none =>
    dsimp only
    cases hf : (commitSets o).find? fun k => !rangeOk (y.rangeSetAt xs (y.x.u64 o.a.toNat).toNat k) with
    | some k =>
      unfold commitSets Iss.rangeSetAt at hf
      rw [hf]
    | none =>
      unfold commitSets Iss.rangeSetAt at hf
      rw [hf]
      cases y.s.ctxQuiet y.b.asid <;> rfl

/-- The band of a commit keeps its front, and its context has the new sets. -/
theorem Iss.Good.moved_committed {s₀ : State} (g : y.Good s₀) (xs : List LaneX) :
    y.Moved (y.finish (y.committed o xs) (.rngCommit h o) []) (y.inLine (.rngCommit h o)) ∧
      ((y.finish (y.committed o xs) (.rngCommit h o) []).ctx y.b.asid).map Ctx.ranges = (y.s.ctx y.b.asid).map fun c =>
        commitRanges c.ranges o.mask (y.rangeSetAt xs (y.x.u64 o.a.toNat).toNat) := by
  obtain ⟨x₀, hx₀, -⟩ := g.band
  obtain ⟨hfront, -⟩ := y.x.took_front_pend (xs.filterMap fun a => y.handAll false a 8)
  have hblk : (y.committed o xs).blk y.k =
      some (y.b.setBand y.n (y.x.took (xs.filterMap fun a => y.handAll false a 8))) := State.blk_setBlk ..
  have hband := Block.band_setBand_self y.b (y.x.took (xs.filterMap fun a => y.handAll false a 8)) x₀ hx₀
  have hgo := g.goes (i := .rngCommit h o) rfl [] hblk hband (by rw [(Band.front_eq_iff.1 hfront).1])
  refine ⟨hgo.moved hblk hband hfront (Iss.mem_reads ..) fun k hk => ?_, ?_⟩
  · exact (State.blk_setBlk_ne _ _ hk).trans (congrArg (tget · k) (Iss.blocks_reads ..))
  · have hctxs : (y.committed o xs).ctxs = tmod (y.reads y.s xs).ctxs y.b.asid fun c =>
        { c with ranges := commitRanges c.ranges o.mask (y.rangeSetAt xs (y.x.u64 o.a.toNat).toNat) } := rfl
    rw [State.ctx, Iss.ctxs_finish, hctxs, tget_tmod_self, Iss.ctxs_reads, Option.map_map]
    rfl

end

/-- Settles O35, instruction by instruction: the fence behind its order, the flushes by what they leave of the L1, the prefetch
by its requests, the commit in the order of its checks. -/
theorem orderingInstructions : Obligations.OrderingInstructions := by
  unfold Obligations.OrderingInstructions
  intro h s y
  refine ⟨fun o g ho => passes_base g ((runO_next g _).trans (Iss.ordered_of_orders ho _ _)),
    fun l g hne => exec_linv_drops g hne, fun l g hne => exec_lflush_flushes g hne, fun o g => ?_, ?_⟩
  · obtain ⟨t, ps, hexec, hmoved, hnet, hcores, hfrom, hall⟩ := exec_prf_asks g
    refine ⟨t, ps, hexec, hmoved, hnet, hcores, ?_⟩
    intro named own lease
    refine ⟨fun p hp => ?_, fun l x ⟨⟨hf, hmarks⟩, ho, hw, hown⟩ => ?_, fun l x ⟨⟨hf, hmarks⟩, ho, hl⟩ => ?_⟩
    · obtain ⟨hcls, ⟨l, x⟩, hq, op, hm⟩ := hfrom p hp
      obtain ⟨hmarks, ⟨ho, hw, hown, hm⟩ | ⟨ho, hl, hm⟩⟩ := (y.prefetchMsg_eq_some o.own y.s).1 hm
      · exact ⟨hcls, l, x, .inl ⟨⟨⟨mem_firstOfLines.1 hq, hmarks⟩, ho, hw, hown⟩, hm⟩⟩
      · exact ⟨hcls, l, x, .inr ⟨⟨⟨mem_firstOfLines.1 hq, hmarks⟩, ho, hl⟩, op, hm⟩⟩
    · have hmsg : ∀ op, y.prefetchMsg o.own y.s op (l, x) = some (.ownReq y.b.core l) := fun op =>
        (y.prefetchMsg_eq_some o.own y.s).2 ⟨hmarks, .inl ⟨ho, hw, hown, rfl⟩⟩
      obtain ⟨p, hp, op, hm⟩ := hall (l, x) (mem_firstOfLines.2 hf) fun op => by rw [hmsg]; exact Option.some_ne_none _
      exact ⟨p, hp, Option.some.inj (hm.symm.trans (hmsg op))⟩
    · have hmsg : ∀ op, y.prefetchMsg o.own y.s op (l, x) =
          some (.loadReq y.k y.n op y.b.core l x.kid false false false false) := fun op =>
        (y.prefetchMsg_eq_some o.own y.s).2 ⟨hmarks, .inr ⟨ho, hl, rfl⟩⟩
      obtain ⟨p, hp, op, hm⟩ := hall (l, x) (mem_firstOfLines.2 hf) fun op => by rw [hmsg]; exact Option.some_ne_none _
      exact ⟨p, hp, op, Option.some.inj (hm.symm.trans (hmsg op))⟩
  · intro o xs g hne at' t₀ ks set reads
    refine ⟨fun ha => exec_rngCommit_misaligned g hne ha, fun ha => ⟨fun e he => ⟨exec_rngCommit_unread g hne ha he,
      State.cls_of_xlateAll he⟩, fun hr hreg hh hm => ?_⟩⟩
    have hexec := exec_rngCommit_read g hne ha hr hreg hh hm
    refine ⟨fun e hs hp => ⟨?_, Iss.cls_of_poisoned hp⟩, fun hp => ⟨fun k hk => ?_, fun hok hq => ?_⟩⟩
    · rw [hp] at hexec
      exact hexec.trans (congrArg _ (y.poisonOut_of_sid hs e))
    · rw [hp] at hexec
      dsimp only at hexec
      rw [show (commitSets o).find? (fun k => !rangeOk (y.rangeSetAt xs (y.x.u64 o.a.toNat).toNat k)) = some k from hk] at hexec
      exact hexec
    · have hnone : (commitSets o).find? (fun k => !rangeOk (y.rangeSetAt xs (y.x.u64 o.a.toNat).toNat k)) = none :=
        List.find?_eq_none.2 fun k hk => by rw [show rangeOk (y.rangeSetAt xs _ k) = true from hok k hk]; exact Bool.false_ne_true
      rw [hp] at hexec
      dsimp only at hexec
      rw [hnone] at hexec
      dsimp only at hexec
      rw [if_pos hq] at hexec
      exact ⟨_, hexec, (y.good g).moved_committed xs⟩

end Sys2Proof.Machine

/-! # Stores

What `st` and `sts` leave of their band's registers, and the bytes that `sts` leaves in the windows (R239 to R243, R306 to R311,
R493). -/

namespace Sys2Proof.Machine

open Sys2Proof

/-! ### `st` (R306 to R311, R493) -/

/-- A remote operation leaves a flit at a port, a record in its block and a count in its band. -/
theorem State.calm_remoteOp (s : State) (k n va pa : Nat) (bs : List Byte) : State.Calm k n s (s.remoteOp k n va pa bs) := by
  unfold State.remoteOp
  split
  · exact .rfl' k n s
  next b hb =>
    extract_lets u op v
    have hsign : State.Calm k n s u := State.calm_setBlk n hb (b.bands_signWrite ..)
    have hcount : State.Calm k n u v := State.calm_modBand u k n fun _ => rfl
    split
    · exact hsign
    · refine hsign.trans (hcount.trans ?_)
      cases op.port with
      | none => exact .rfl' k n v
      | some p => exact .of_blocks rfl

theorem State.calm_nextStoreSeq (s : State) (k n : Nat) : State.Calm k n s (s.nextStoreSeq k n) :=
  s.calm_modBand k n fun _ => rfl

/-- Register addresses that lie in the aperture and take sixteen bytes do not stop a store. -/
theorem regStop_eq_none_of_ok {xs : List LaneX} {ok : LaneX → Bool} (h : ∀ a ∈ xs, isReg a.x.pa = true → ok a = true) :
    regStop xs ok = none := by
  rw [regStop, List.find?_eq_none.2 fun a ha => ?_, Option.map_none]
  cases hr : isReg a.x.pa with
  | false => simp
  | true => simp [h a ha hr]

section

variable {y : Iss} {s₀ : State} {h : Hdr}

/-- An effect that leaves the band's lanes and registers alone passes. -/
theorem Iss.Good.passes_of_calm (g : y.Good s₀) {i : Instr} (hi : i.hdr? = some h) {s u : State}
    (hc : State.Calm y.k y.n y.base u) (e : exec i s = .next (y.finish u i [])) : Passes i s y u := by
  obtain ⟨hb, hx⟩ := g.base_band
  obtain ⟨c, z, hc', hz, hf⟩ := hc.band _ _ hb hx
  exact ⟨_, e, g.goes hi [] hc' hz (by rw [(Band.front_eq_iff.1 hf).1])⟩

/-- The bytes that a lane stores. -/
def Iss.laneBytes (y : Iss) (o : St) (a : LaneX) : List Byte := (y.env a.lane).storeBytes o.sz o.b

/-- The state in which an `st` has performed its remote operations. -/
def Iss.remotes (y : Iss) (o : St) (xs : List LaneX) : State :=
  (xs.filter fun a => isReg a.x.pa).foldl (fun s a => s.remoteOp y.k y.n a.va a.x.pa (y.laneBytes o a)) (y.fills y.base xs)

/-- The state in which it has performed its stores as well. -/
def Iss.stored (y : Iss) (o : St) (xs : List LaneX) : State :=
  let u := (y.remotes o xs).storeAll y.k y.n 0 ((y.remotes o xs).storeSeq y.k y.n) (o.ord == .unc) (coversLine o.sz xs) none
    ((xs.filter fun a => !isReg a.x.pa).map fun a => ⟨a.va, a.x, y.laneBytes o a⟩)
  if xs = [] then u else u.nextStoreSeq y.k y.n

theorem Iss.calm_stored (y : Iss) (o : St) (xs : List LaneX) : State.Calm y.k y.n y.base (y.stored o xs) := by
  have hfills : State.Calm y.k y.n y.base (y.fills y.base xs) := (y.kept_fills y.base xs y.k y.n).toCalm
  have hremotes : State.Calm y.k y.n (y.fills y.base xs) (y.remotes o xs) := .foldl _ (fun _ _ => State.calm_remoteOp ..) _ _
  unfold Iss.stored
  extract_lets u
  have hstores : State.Calm y.k y.n y.base u := hfills.trans (hremotes.trans (State.calm_storeAll ..))
  split
  · exact hstores
  · exact hstores.trans (State.calm_nextStoreSeq ..)

theorem Iss.storeTo_eq_finish (i : Instr) {o : St} {xs : List LaneX} (hh : y.held false xs = none) (hf : y.full xs = none) :
    y.storeTo i o.sz o.b (o.ord == .unc) xs = y.finish (y.stored o xs) i [] := by
  unfold Iss.storeTo
  rw [hh, hf]
  exact congrArg (fun u => y.finish u i []) (if_congr List.isEmpty_iff rfl rfl)

/-- A store that reaches memory or the aperture goes through to its body. -/
theorem Iss.store_of_reach (i : Instr) {o : St} {xs : List LaneX}
    (hr : y.reach .write (lsizeBytes o.sz) (y.addrs o.base (o.disp.signExtend 64)) = .ok xs)
    (hreg : ∀ a ∈ xs, isReg a.x.pa = true → isAperture a.x.pa = true ∧ o.sz = .b128 ∧ remoteKind a.x.pa < 9)
    (hroom : y.x.rmtCnt + (xs.filter fun a => isReg a.x.pa).length ≤ counterMax) :
    y.store i o = .next (y.storeTo i o.sz o.b (o.ord == .unc) xs) := by
  have hstop : regStop xs (fun a => isAperture a.x.pa && o.sz == .b128) = none := regStop_eq_none_of_ok fun a ha hp => by
    obtain ⟨hap, hsz, -⟩ := hreg a ha hp
    rw [hap, hsz]
    rfl
  have hkind : xs.find? (fun a => isReg a.x.pa && 9 ≤ remoteKind a.x.pa) = none := List.find?_eq_none.2 fun a ha => by
    simpa using fun hp => (hreg a ha hp).2.2
  rw [Iss.store, hr]
  dsimp only
  rw [hstop]
  dsimp only
  rw [hkind]
  exact if_neg (by omega)

end

/-! ### `sts`: what its band keeps -/

/-- The front of a band, as a state holds it. -/
def State.frontAt (s : State) (k n : Nat) := ((s.blk k).bind fun b => b.band n).map Band.front

/-- What a block's window holds. -/
def State.scratchAt (s : State) (k : Nat) : Option Memory := (s.blk k).map Block.scratch

section

variable (s : State) (k n : Nat)

theorem State.frontAt_modBlk (win : Nat) {f : Block → Block} (hf : ∀ b, (f b).bands = b.bands) :
    (s.modBlk win f).frontAt k n = s.frontAt k n := by
  by_cases hk : k = win
  · rw [← hk, State.frontAt, State.blk_modBlk, State.frontAt]
    cases s.blk k with
    | none => rfl
    | some b => exact congrArg (fun bs : List Band => (bs[n]?).map Band.front) (hf b)
  · rw [State.frontAt, State.blk_modBlk_ne s f hk, State.frontAt]

theorem State.frontAt_modBand {f : Band → Band} (hf : ∀ x, (f x).front = x.front) :
    (s.modBand k n f).frontAt k n = s.frontAt k n := by
  rw [State.frontAt, State.blk_modBand, State.frontAt]
  cases s.blk k with
  | none => rfl
  | some b =>
    rw [Option.map_some, Option.bind_some, Block.band_modBand, if_pos rfl, Option.map_map, Option.bind_some]
    exact congrFun (congrArg Option.map (funext hf)) _

theorem State.scratchAt_modBlk (win : Nat) {f : Block → Block} (hf : ∀ b, (f b).scratch = b.scratch) :
    (s.modBlk win f).scratchAt k = s.scratchAt k := by
  by_cases hk : k = win
  · rw [← hk, State.scratchAt, State.blk_modBlk, Option.map_map]
    exact congrFun (congrArg Option.map (funext hf)) _
  · rw [State.scratchAt, State.blk_modBlk_ne s f hk, State.scratchAt]

theorem State.scratchAt_scrWrite (win off : Nat) (bs : List Byte) :
    (s.scrWrite win off bs).scratchAt k = (s.scratchAt k).map fun m => if win = k then mwrite m off bs else m := by
  by_cases hk : win = k
  · rw [State.scratchAt, State.scrWrite, hk, State.blk_modBlk, State.scratchAt, Option.map_map, Option.map_map]
    simp only [if_true]
    rfl
  · simp only [if_neg hk]
    rw [State.scratchAt, State.scrWrite, State.blk_modBlk_ne s _ (Ne.symm hk), Option.map_id']
    rfl

theorem State.frontAt_scrWrite (win off : Nat) (bs : List Byte) : (s.scrWrite win off bs).frontAt k n = s.frontAt k n :=
  s.frontAt_modBlk k n win (f := fun b => { b with scratch := _, scratchW := _ }) fun _ => rfl

theorem State.scratchAt_modBand (j : Nat) (f : Band → Band) : (s.modBand j n f).scratchAt k = s.scratchAt k :=
  s.scratchAt_modBlk k j (f := fun b => b.modBand n f) fun _ => rfl

/-- The writes of the lanes, in their order, each into the window that it names. -/
theorem State.scratchAt_foldl_scrWrite (bytes : Nat → List Byte) (ws : List (Nat × Nat × Nat)) :
    (ws.foldl (fun s q => s.scrWrite q.2.1 q.2.2 (bytes q.1)) s).scratchAt k =
      (s.scratchAt k).map fun m => ws.foldl (fun m q => if q.2.1 = k then mwrite m q.2.2 (bytes q.1) else m) m := by
  induction ws generalizing s with
  | nil => exact Option.map_id'.symm
  | cons q ws ih =>
    rw [List.foldl_cons, ih, State.scratchAt_scrWrite, Option.map_map]
    rfl

theorem Block.scratch_signWrite (b : Block) (n kind addr : Nat) (bs : List Byte) (seq : Nat) :
    (b.signWrite n kind addr bs seq).scratch = b.scratch := by
  unfold Block.signWrite
  split <;> rfl

end

/-- A part of the state that each step of a fold leaves alone. -/
theorem foldl_keeps {α β γ : Type} {f : β → α → β} (v : β → γ) (hf : ∀ b a, v (f b a) = v b) (l : List α) (b : β) :
    v (l.foldl f b) = v b :=
  List.foldlRecOn (motive := fun c => v c = v b) l f rfl fun c hc a _ => (hf c a).trans hc

/-! ### `sts`: its effect (R239 to R243, R306) -/

/-- The records of the lanes' writes in the signature (R454). -/
def Iss.signScr (y : Iss) (o : St) (as : List (Nat × Word)) (s : State) : State :=
  as.foldl (fun s p => s.modBlk y.k fun b =>
    b.signWrite y.n (if (y.peerLanes as).contains p then 2 else 1) p.2.toNat ((y.env p.1).storeBytes o.sz o.b)) s

/-- The state in which an `sts` of a block that repeats no run has performed its lanes' stores. -/
def Iss.scrStored (y : Iss) (o : St) (ws : List (Nat × Nat × Nat)) : State :=
  let as := y.sAddrs o.base (o.disp.signExtend 32)
  let s := ws.foldl (fun s q => s.scrWrite q.2.1 q.2.2 ((y.env q.1).storeBytes o.sz o.b)) y.base
  let s := (y.signScr o as s).modBand y.k y.n fun x => x.seen (if ws.isEmpty then 0 else y.s.now y.b.die)
  if as.isEmpty then s else s.nextStoreSeq y.k y.n

section

variable {y : Iss} {s₀ : State} {o : St} {ws : List (Nat × Nat × Nat)}

theorem Iss.storeScr_eq_finish (i : Instr) (hl : y.b.later = false)
    (hok : y.s.scratchAll y.b y.k (lsizeBytes o.sz) (y.sAddrs o.base (o.disp.signExtend 32)) = .ok ws) :
    y.storeScr i o = y.finish (y.scrStored o ws) i [] := by
  have htrap : ∀ sz peers, y.stsTrap sz peers = none := fun _ _ => by rw [Iss.stsTrap, hl]; rfl
  unfold Iss.storeScr
  dsimp only
  rw [htrap, hl, if_neg Bool.false_ne_true, hok]
  rfl

/-- The records of the writes and what the band has seen lie outside its front; so do the windows. -/
theorem Iss.Good.frontAt_scrStored (g : y.Good s₀) (o : St) (ws : List (Nat × Nat × Nat)) :
    (y.scrStored o ws).frontAt y.k y.n = some y.x.front := by
  have hbase : y.base.frontAt y.k y.n = some y.x.front := by
    obtain ⟨hb, hx⟩ := g.base_band
    rw [State.frontAt, hb, Option.bind_some, hx, Option.map_some]
  have hwrites := foldl_keeps (State.frontAt · y.k y.n) (f := fun s (q : Nat × Nat × Nat) =>
    s.scrWrite q.2.1 q.2.2 ((y.env q.1).storeBytes o.sz o.b)) (fun s q => s.frontAt_scrWrite ..) ws y.base
  have hsigns : ∀ as s, (y.signScr o as s).frontAt y.k y.n = s.frontAt y.k y.n := fun as s =>
    foldl_keeps (State.frontAt · y.k y.n) (fun s _ => s.frontAt_modBlk _ _ _ fun b => b.bands_signWrite ..) as s
  unfold Iss.scrStored
  extract_lets as s₁ s₂
  have hseen : s₂.frontAt y.k y.n = (y.signScr o as s₁).frontAt y.k y.n := State.frontAt_modBand _ _ _ fun _ => rfl
  have hnext : (s₂.nextStoreSeq y.k y.n).frontAt y.k y.n = s₂.frontAt y.k y.n := State.frontAt_modBand _ _ _ fun _ => rfl
  have hs₂ : s₂.frontAt y.k y.n = some y.x.front := hseen.trans ((hsigns as s₁).trans (hwrites.trans hbase))
  split
  · exact hs₂
  · exact hnext.trans hs₂

theorem Iss.mem_scrStored (y : Iss) (o : St) (ws : List (Nat × Nat × Nat)) : (y.scrStored o ws).mem = y.s.mem := by
  unfold Iss.scrStored
  extract_lets as s₁ s₂
  have hs₁ : s₁.mem = y.s.mem := (State.mem_foldl _ (fun _ _ => State.modBlk_mem ..) ws y.base).trans y.mem_base
  have hs₂ : s₂.mem = y.s.mem := (State.mem_foldl _ (fun _ _ => State.modBlk_mem ..) as s₁).trans hs₁
  split
  · exact hs₂
  · exact hs₂

theorem Iss.Good.scratchAt_scrStored (g : y.Good s₀) (o : St) (ws : List (Nat × Nat × Nat)) (k : Nat) :
    (y.scrStored o ws).scratchAt k = (y.s.scratchAt k).map fun m => ws.foldl (fun m q =>
      if q.2.1 = k then mwrite m q.2.2 ((y.env q.1).storeBytes o.sz o.b) else m) m := by
  have hbase : y.base.scratchAt k = y.s.scratchAt k := by
    by_cases hk : k = y.k
    · rw [hk, State.scratchAt, g.base_band.1, State.scratchAt, g.blk]
      rfl
    · rw [State.scratchAt, Iss.base, State.blk_setBlk_ne _ _ hk, State.scratchAt]
  have hwrites := y.base.scratchAt_foldl_scrWrite k (fun l => (y.env l).storeBytes o.sz o.b) ws
  rw [hbase] at hwrites
  have hsigns : ∀ as s, (y.signScr o as s).scratchAt k = s.scratchAt k := fun as s =>
    foldl_keeps (State.scratchAt · k) (fun s _ => s.scratchAt_modBlk _ _ fun b => b.scratch_signWrite ..) as s
  rw [← hwrites]
  unfold Iss.scrStored
  extract_lets as s₁ s₂
  have hs₂ : s₂.scratchAt k = s₁.scratchAt k := (State.scratchAt_modBand ..).trans (hsigns as s₁)
  split
  · exact hs₂
  · exact (State.scratchAt_modBand ..).trans hs₂

/-- The completion of an issue changes no window. -/
theorem Iss.Goes.scratchAt {u t : State} {next : Nat → DWord} (hgo : y.Goes u t next) (k : Nat) :
    t.scratchAt k = u.scratchAt k := by
  by_cases hk : k = y.k
  · obtain ⟨b, b', -, -, hb, hb', hrest, -⟩ := hgo.own
    rw [hk, State.scratchAt, State.scratchAt, hb, hb', Option.map_some, Option.map_some]
    exact congrArg some (congrArg Block.scratch hrest :)
  · rw [State.scratchAt, hgo.others k hk, State.scratchAt]

/-- An issue that completes over a state in which its band's front stays, whatever other blocks have gained there, has moved its
lanes alone. -/
theorem Iss.Good.goes_of_front (g : y.Good s₀) {i : Instr} {h : Hdr} (hi : i.hdr? = some h) {u : State}
    (hf : u.frontAt y.k y.n = some y.x.front) :
    y.Goes u (y.finish u i []) (y.inLine i) ∧ ({ y with s := u } : Iss).Moved (y.finish u i []) (y.inLine i) := by
  obtain ⟨z, hz, hfront⟩ := Option.map_eq_some_iff.1 hf
  obtain ⟨c, hc, hz⟩ := Option.bind_eq_some_iff.1 hz
  have hgo : y.Goes u (y.finish u i []) (y.inLine i) := g.goes hi [] hc hz (by rw [(Band.front_eq_iff.1 hfront).1])
  have hgo' : ({ y with s := u } : Iss).Goes u (y.finish u i []) (y.inLine i) := { hgo with }
  exact ⟨hgo, hgo'.moved hc hz hfront rfl fun _ _ => rfl⟩

end

/-- Settles O31: `st` passes with its remote operations and stores, which leave its band's lanes alone; `sts` writes its windows
one lane after the other. -/
theorem storeInstructions : Obligations.StoreInstructions := by
  unfold Obligations.StoreInstructions
  intro h o s y ord
  refine ⟨fun xs g ho hr hh hreg hroom hprov => ?_, fun ws g ho hl hok => ?_⟩
  · have hfull : y.full xs = none := by rw [Iss.full, hprov]; rfl
    refine (y.good g).passes_of_calm (i := .st h o) rfl (y.calm_stored o xs) ?_
    rw [exec_st g ho, Iss.store_of_reach _ hr hreg hroom, Iss.storeTo_eq_finish _ hh hfull]
    rfl
  · obtain ⟨hgo, hmoved⟩ := (y.good g).goes_of_front (i := .sts h o) rfl ((y.good g).frontAt_scrStored o ws)
    refine ⟨_, by rw [exec_sts g ho, Iss.storeScr_eq_finish _ hl hok], hmoved.mem.trans (y.mem_scrStored o ws), hmoved.goes,
      hmoved.regs, hmoved.fstat, hmoved.special, fun k b hb => ?_⟩
    have hscratch := (hgo.scratchAt k).trans ((y.good g).scratchAt_scrStored o ws k)
    rw [State.scratchAt, State.scratchAt, hb, Option.map_some, Option.map_some] at hscratch
    exact Option.map_eq_some_iff.1 hscratch

end Sys2Proof.Machine

/-! # Gangs and tile descriptors -/

namespace Sys2Proof.Machine

open Sys2Proof

section

variable {h : Hdr} {s : State} {y : Iss}

/-- A new gang register leaves every band its lanes. -/
theorem Block.band_setGang (b : Block) (m : BitVec 16) (n : Nat) :
    (b.setGang m).band n = (b.band n).map fun x => { x with mmaSeq := 0 } := List.getElem?_map

/-- An instruction that sets the gang register passes. -/
theorem passes_setGang {i : Instr} (hy : Issues i s y) (m : BitVec 16)
    (e : exec i s = .next (y.finish (y.base.modBlk y.k fun b => b.setGang m) i [])) :
    Passes i s y (y.base.modBlk y.k fun b => b.setGang m) := by
  have g := y.good hy
  obtain ⟨h, hi⟩ := y.hdr hy
  obtain ⟨hb, hx⟩ := g.base_band
  refine ⟨_, e, g.goes hi [] (c := (y.b.setBand y.n y.x).setGang m) (z := { y.x with mmaSeq := 0 }) ?_ ?_ rfl⟩
  · rw [State.blk_modBlk, hb, Option.map_some]
  · rw [Block.band_setGang, hx, Option.map_some]

/-- The word that `gang.set` writes (R384). -/
def Band.gangWord (x : Band) (m : GMask) : Word :=
  match m with
  | .lit v => v.setWidth 32
  | .u r => x.u r.toNat

/-- The masks that `gang.set` takes: bands of the block, six at most (R384). -/
def Block.gangFits (b : Block) (w : Word) : Prop :=
  w.toNat < 2 ^ b.bands.length ∧ popN (w.setWidth 64) 16 ≤ 6 ∧ w.toNat < 2 ^ 16

theorem Block.not_gangFits_iff (b : Block) (w : Word) : ¬b.gangFits w ↔
    2 ^ b.bands.length ≤ w.toNat ∨ 6 < popN (w.setWidth 64) 16 ∨ 2 ^ 16 ≤ w.toNat := by
  unfold Block.gangFits
  omega

theorem Block.gangBusy_iff (b : Block) : b.gangBusy = true ↔ b.latch ≠ [] := by simp [Block.gangBusy]

theorem gangSet_spec {m : GMask} (hy : Issues (.gangSet h m) s y) (hx : y.ex ≠ []) :
    (¬y.b.gangFits (y.x.gangWord m) → Traps (.gangSet h m) s y { cls := .fmt, lane := lowest y.act }) ∧
    (y.b.gangFits (y.x.gangWord m) → y.b.latch ≠ [] →
      Traps (.gangSet h m) s y { cls := .barbusy, lane := lowest y.act }) ∧
    (y.b.gangFits (y.x.gangWord m) → y.b.latch = [] →
      Passes (.gangSet h m) s y (y.base.modBlk y.k fun b => b.setGang ((y.x.gangWord m).setWidth 16))) := by
  have e : exec (.gangSet h m) s = .next (
      if 2 ^ y.b.bands.length ≤ (y.x.gangWord m).toNat ∨ 6 < popN ((y.x.gangWord m).setWidth 64) 16 ∨ 2 ^ 16 ≤ (y.x.gangWord m).toNat then
        y.trap (y.once .fmt)
      else if y.b.gangBusy then y.trap (y.once .barbusy)
      else y.finish (y.base.modBlk y.k fun b => b.setGang ((y.x.gangWord m).setWidth 16)) (.gangSet h m) []) :=
    (run_next hy _).trans (congrArg _ (if_neg (by simpa using hx)))
  refine ⟨fun hf => ?_, fun hf hl => ?_, fun hf hl => passes_setGang hy _ ?_⟩
  · rw [Traps, e, if_pos ((y.b.not_gangFits_iff _).1 hf)]
    rfl
  · rw [Traps, e, if_neg (mt (y.b.not_gangFits_iff _).2 (not_not_intro hf)), if_pos (y.b.gangBusy_iff.2 hl)]
    rfl
  · rw [e, if_neg (mt (y.b.not_gangFits_iff _).2 (not_not_intro hf)), if_neg (mt y.b.gangBusy_iff.1 (not_not_intro hl))]

theorem gangClr_spec (hy : Issues (.gangClr h) s y) (hx : y.ex ≠ []) :
    (y.b.latch ≠ [] → Traps (.gangClr h) s y { cls := .barbusy, lane := lowest y.act }) ∧
    (y.b.latch = [] → Passes (.gangClr h) s y (y.base.modBlk y.k fun b => b.setGang 0)) := by
  have e : exec (.gangClr h) s = .next (if y.b.gangBusy then y.trap (y.once .barbusy)
      else y.finish (y.base.modBlk y.k fun b => b.setGang 0) (.gangClr h) []) :=
    (run_next hy _).trans (congrArg _ (if_neg (by simpa using hx)))
  refine ⟨fun hl => ?_, fun hl => passes_setGang hy _ ?_⟩
  · rw [Traps, e, if_pos (y.b.gangBusy_iff.2 hl)]
    rfl
  · rw [e, if_neg (mt y.b.gangBusy_iff.1 (not_not_intro hl))]

/-- The descriptor that `tile.set` writes (R387). -/
def Band.tileDesc (x : Band) (o : TileSet) : TileD :=
  match o.src with
  | .ext w => ⟨w.setWidth 128⟩
  | .u r => ⟨x.u64 (r.toNat + 2) ++ x.u64 r.toNat⟩

theorem tileSet_spec {o : TileSet} (hy : Issues (.tileSet h o) s y) (hx : y.ex ≠ []) :
    ((y.x.tileDesc o).reservedZero = false → Traps (.tileSet h o) s y { cls := .fmt, lane := lowest y.act }) ∧
    ((y.x.tileDesc o).reservedZero = true → Passes (.tileSet h o) s y
      (y.base.modBlk y.k fun b => { b with tiles := b.tiles.set o.x.toNat (y.x.tileDesc o) })) := by
  have e : exec (.tileSet h o) s = .next (if (y.x.tileDesc o).reservedZero then
      y.finish (y.base.modBlk y.k fun b => { b with tiles := b.tiles.set o.x.toNat (y.x.tileDesc o) }) (.tileSet h o) []
      else y.trap (y.once .fmt)) :=
    (run_next hy _).trans (congrArg _ (if_neg (by simpa using hx)))
  refine ⟨fun hd => ?_, fun hd => passes_modBlk hy (fun _ => rfl) ?_⟩
  · rw [Traps, e, hd, if_neg (by decide)]
    rfl
  · rw [e, if_pos hd]

theorem tileGet_spec {o : TileGet} : ComputesFor (.tileGet h o) s y fun _ =>
    .dst (.u o.d) true ((y.b.tiles.getD o.x.toNat {}).bits.extractLsb' (if o.hi then 64 else 0) 64) := by
  intro hy
  obtain ⟨h, hi⟩ := y.hdr hy
  exact (y.good hy).writes hi (run_next hy _)

end

/-- Settles O39: each gang and tile form issues, then completes with its effect or meets the trap of its operand. -/
theorem gangsAndTiles : Obligations.GangsAndTiles := by
  intro h s y
  exact ⟨fun m hy hx => gangSet_spec hy hx, gangClr_spec, fun o hy hx => tileSet_spec hy hx, fun o => tileGet_spec⟩

end Sys2Proof.Machine

/-! # Copies are accepted -/

namespace Sys2Proof.Machine

open Sys2Proof

/-! ### Completing over a changed block -/

section

variable {i : Instr} {s u t : State} {y : Iss} {c : Block} {z : Band} {next : Nat → DWord}

/-- A completion keeps its own block but for its bands, and whether it runs. -/
theorem Iss.Goes.block (g : y.Goes u t next) (hc : u.blk y.k = some c) :
    ∃ b st, t.blk y.k = some b ∧ { b with bands := c.bands, st := st } = c := by
  obtain ⟨b, b', -, -, hb, hb', hrest, -⟩ := g.own
  obtain rfl := Option.some.inj (hb.symm.trans hc)
  exact ⟨b', b.st, hb', hrest⟩

/-- What a completion leaves of its band beside the lanes. -/
theorem Iss.Goes.band (g : y.Goes u t next) (hc : u.blk y.k = some c) (hz : c.band y.n = some z) :
    y.bandIn t = { z with
      lanes := (y.bandIn t).lanes, pcnt := (y.bandIn t).pcnt, sched := (y.bandIn t).sched, latch := (y.bandIn t).latch
      ilcnt := (y.bandIn t).ilcnt, ilk := false, hold := none, stallSkip := false, readyAge := 0, boosted := none
      issues := z.issues + 1, halted := (y.bandIn t).halted, stepping := false } := by
  obtain ⟨b, b', x, x', hb, hb', -, -, hx, hx', -, he⟩ := g.own
  obtain rfl := Option.some.inj (hb.symm.trans hc)
  obtain rfl := Option.some.inj (hx.symm.trans hz)
  rw [Iss.bandIn_eq hb' hx']
  exact he

/-- An issue completes over a state in which its band's front stands as it did. -/
theorem Iss.Good.goes_moved (g : y.Good s) {h : Hdr} (hi : i.hdr? = some h) (hc : u.blk y.k = some c)
    (hz : c.band y.n = some z) (hf : z.front = y.x.front) (hm : u.mem = y.s.mem)
    (ho : ∀ k, k ≠ y.k → u.blk k = y.s.blk k) :
    y.Goes u (y.finish u i []) (y.inLine i) ∧ y.Moved (y.finish u i []) (y.inLine i) := by
  have hlen : z.lanes.length = y.x.lanes.length := by rw [(Band.front_eq_iff.1 hf).1]
  have hgo := g.goes hi [] hc hz hlen
  exact ⟨hgo, hgo.moved hc hz hf hm ho⟩

end

/-! ### Acceptance (R340 to R349) -/

/-- What a copy becomes at its acceptance: its place, its deadline and its barrier's count are set. -/
def Copy.acceptedAs (c c' : Copy) : Prop := c' = { c with acc := c'.acc, deadline := c'.deadline, barCounted := c'.barCounted }

/-- What the acceptance of a copy leaves of a band: the target's token and hold change, and no more. -/
def Band.targeted (x x' : Band) : Prop := x' = { x with tokens := x'.tokens, regCopies := x'.regCopies }

theorem State.modBar_keeps {s : State} {k : Nat} {b : Block} (hb : s.blk k = some b) (sc : BScope) (num : Nat)
    (f : Barrier → Barrier) : (∃ bars, (s.modBar k sc num f).blk k = some { b with bars }) ∧
      ∀ j, j ≠ k → (s.modBar k sc num f).blk j = s.blk j := by
  unfold State.modBar
  rw [hb]
  cases sc with
  | blk => exact ⟨⟨_, State.blk_setBlk ..⟩, fun j hj => State.blk_setBlk_ne _ _ hj⟩
  | clu | die | grid => exact ⟨⟨b.bars, hb⟩, fun _ _ => rfl⟩

/-- The block and the bands that a copy's own reservations leave: its ring slot, the target band's token. -/
def Block.reserve (b : Block) (c : Copy) : Block :=
  let b := match c.ring with
    | none => b
    | some (r, _) => b.modRing r fun t => { t with rsv := t.rsv + 1 }
  if c.dk = .regs then
    let t := regTgt c.regWord
    b.modBand t.n fun x => { x with tokens := x.tokens ||| ((1 : BitVec 6) <<< t.tok)
                                    regCopies := x.regCopies ++ [(t.tok, t.d, t.c, c.id)] }
  else b

theorem Block.copies_reserve (b : Block) (c : Copy) : (b.reserve c).copies = b.copies := by
  unfold Block.reserve
  cases c.ring <;> dsimp only <;> split <;> rfl

theorem Block.band_reserve {b : Block} {m : Nat} {x : Band} (hx : b.band m = some x) (c : Copy) :
    ∃ x', (b.reserve c).band m = some x' ∧ x.targeted x' := by
  have hring : ∀ b' : Block, b'.bands = b.bands → b'.band m = some x := fun b' e => by rw [Block.band, e]; exact hx
  unfold Block.reserve
  extract_lets b' t
  have hb' : b'.band m = some x := hring b' (by unfold b'; cases c.ring <;> rfl)
  split
  · rw [Block.band_modBand, hb']
    split
    · exact ⟨_, rfl, rfl⟩
    · exact ⟨x, rfl, rfl⟩
  · exact ⟨x, hb', rfl⟩

/-- A copy as it joins its block: its place and its deadline are set (R341). -/
def State.placed (s : State) (b : Block) (c : Copy) : Copy :=
  { c with acc := s.serial, deadline := s.now b.die + (s.pf.dlbud.getD (s.dlClass b.lid) 0).toNat }

/-- The block with an accepted copy. -/
def Block.addCopy (b : Block) (c c' : Copy) : Block := { b.reserve c with copies := b.copies ++ [c'] }

theorem State.acceptCopy_eq {s : State} {k : Nat} {b : Block} (hb : s.blk k = some b) (c : Copy) :
    let s' : State := { s with serial := s.serial + 1 }
    s.acceptCopy k c = match c.bar with
      | none => s'.setBlk k (b.addCopy c (s.placed b c))
      | some cb =>
        if (b.reserve c).later && cb.sc != .blk then s'.setBlk k (b.addCopy c (s.placed b c))
        else (s'.setBlk k (b.addCopy c { s.placed b c with barCounted := true })).modBar k cb.sc cb.n.toNat
          fun t => { t with cpy := t.cpy + 1 } := by
  unfold State.acceptCopy Block.addCopy
  rw [hb, ← b.copies_reserve c]
  rfl

theorem State.acceptCopy_blk {s : State} {k : Nat} {b : Block} (hb : s.blk k = some b) (c : Copy) :
    (∃ b' c', (s.acceptCopy k c).blk k = some b' ∧ b'.copies = b.copies ++ [c'] ∧ c.acceptedAs c' ∧
      b'.bands = (b.reserve c).bands) ∧ ∀ j, j ≠ k → (s.acceptCopy k c).blk j = s.blk j := by
  have hset : ∀ c', c.acceptedAs c' → let t := { s with serial := s.serial + 1 }.setBlk k (b.addCopy c c')
      (∃ b' c', t.blk k = some b' ∧ b'.copies = b.copies ++ [c'] ∧ c.acceptedAs c' ∧ b'.bands = (b.reserve c).bands) ∧
        ∀ j, j ≠ k → t.blk j = s.blk j :=
    fun c' hc' => ⟨⟨_, c', State.blk_setBlk .., rfl, hc', rfl⟩, fun j hj => State.blk_setBlk_ne _ _ hj⟩
  rw [State.acceptCopy_eq hb]
  cases c.bar with
  | none => exact hset _ rfl
  | some cb =>
    dsimp only
    split
    · exact hset _ rfl
    · obtain ⟨⟨bars, hbars⟩, hoth⟩ := State.modBar_keeps (State.blk_setBlk { s with serial := s.serial + 1 } k
        (b.addCopy c { s.placed b c with barCounted := true })) cb.sc cb.n.toNat fun t => { t with cpy := t.cpy + 1 }
      exact ⟨⟨_, _, hbars, rfl, rfl, rfl⟩, fun j hj => (hoth j hj).trans (State.blk_setBlk_ne _ _ hj)⟩

section

variable {h : Hdr} {s : State} {y : Iss}

/-- The state in which an accepted copy has joined the block of an issue, and its band counts it (R290, R454). -/
def Iss.copied (y : Iss) (c : Copy) (own : Bool) : State :=
  (({ y.base with serial := y.s.serial + 1 }.acceptCopy y.k c).countCopy y.k y.n y.s.serial).copySeq y.k y.n own

/-- An accepted copy has moved nothing yet. -/
theorem Iss.copied_spec {i : Instr} (hy : Issues i s y) (c : Copy) (own : Bool) : ∃ c', c.acceptedAs c' ∧
    y.Moved (y.finish (y.copied c own) i []) (y.inLine i) ∧
    ((y.finish (y.copied c own) i []).blk y.k).map Block.copies = some (y.b.copies ++ [c']) ∧
    (y.bandIn (y.finish (y.copied c own) i [])).cpyOut = y.x.cpyOut ++ [(y.s.serial, false)] := by
  have g := y.good hy
  obtain ⟨h, hi⟩ := y.hdr hy
  obtain ⟨hbase, hx⟩ := g.base_band
  obtain ⟨⟨b', c', hb', hcopies, hc', hbands⟩, hoth⟩ :=
    State.acceptCopy_blk (s := { y.base with serial := y.s.serial + 1 }) hbase c
  obtain ⟨x', hx', hx''⟩ := Block.band_reserve hx c
  have hx₁ : b'.band y.n = some x' := (congrArg (·[y.n]?) hbands).trans hx'
  have hcount := Iss.blk_modBand_self hb' fun x => { x with cpyOut := x.cpyOut ++ [(y.s.serial, false)] }
  have hcountx := Block.band_modBand_self hx₁ fun x => { x with cpyOut := x.cpyOut ++ [(y.s.serial, false)] }
  have hfront : x'.front = y.x.front := (congrArg Band.front hx'' :)
  have hout : x'.cpyOut = y.x.cpyOut := (congrArg Band.cpyOut hx'' :)
  have hblk : ∃ b z, (y.copied c own).blk y.k = some b ∧ b.copies = y.b.copies ++ [c'] ∧ b.band y.n = some z ∧
      z.front = x'.front ∧ z.cpyOut = x'.cpyOut ++ [(y.s.serial, false)] := by
    cases own with
    | true => exact ⟨_, _, hcount, hcopies, hcountx, rfl, rfl⟩
    | false => exact ⟨_, _, Iss.blk_modBand_self hcount _, hcopies, Block.band_modBand_self hcountx _, rfl, rfl⟩
  obtain ⟨b, z, hb, hbc, hz, hzfront, hzout⟩ := hblk
  have hothers : ∀ j, j ≠ y.k → (y.copied c own).blk j = y.s.blk j := fun j hj => by
    refine Eq.trans ?_ ((hoth j hj).trans (State.blk_setBlk_ne _ _ hj))
    unfold Iss.copied State.copySeq
    split
    · exact State.blk_modBand_ne _ _ _ hj
    · exact (State.blk_modBand_ne _ _ _ hj).trans (State.blk_modBand_ne _ _ _ hj)
  have hmem : (y.copied c own).mem = y.s.mem := by
    unfold Iss.copied State.copySeq
    split <;> exact State.mem_acceptCopy ..
  obtain ⟨hgo, hmoved⟩ := g.goes_moved hi hb hz (hzfront.trans hfront) hmem hothers
  obtain ⟨bt, st, hbt, hrest⟩ := hgo.block hb
  refine ⟨c', hc', hmoved, ?_, ?_⟩
  · rw [hbt, Option.map_some, ← hbc, ← hrest]
  · rw [hgo.band hb hz, ← hout]
    exact hzout

theorem cpy_spec {o : Cpy} (hy : Issues (.cpy h o) s y) (hx : y.ex ≠ []) :
    (∀ t, y.copyTrap o (y.sliceOf o) = some t → Traps (.cpy h o) s y t) ∧
    (y.copyTrap o (y.sliceOf o) = none → y.copyWaits o.dk o.rn.toNat ((y.sliceOf o).dst.setWidth 32) = true →
      exec (.cpy h o) s = .next y.s) ∧
    (y.copyTrap o (y.sliceOf o) = none → y.copyWaits o.dk o.rn.toNat ((y.sliceOf o).dst.setWidth 32) = false →
      ∃ own, exec (.cpy h o) s =
        .next (y.finish (y.copied (mkCopy y.b y.s.serial o [y.sliceOf o] [y.n]) own) (.cpy h o) [])) := by
  have e : exec (.cpy h o) s = .next (match y.copyTrap o (y.sliceOf o) with
      | some t => y.trap t
      | none =>
        if y.copyWaits o.dk o.rn.toNat ((y.sliceOf o).dst.setWidth 32) then y.s
        else y.finish (y.copied (mkCopy y.b y.s.serial o [y.sliceOf o] [y.n])
          (o.dk == .regs && (regTgt ((y.sliceOf o).dst.setWidth 32)).n == y.n)) (.cpy h o) []) :=
    (run_next hy _).trans (congrArg _ (if_neg (by simpa using hx)))
  refine ⟨fun t ht => ?_, fun ht hw => ?_, fun ht hw => ?_⟩
  · rw [Traps, e, ht]
    rfl
  · rw [e, ht, hw]
    rfl
  · rw [ht, hw] at e
    exact ⟨_, e⟩

/-- The copy that `cpy.pl` makes (R378). -/
def Iss.planeCopy (y : Iss) (o : CpyPl) : Copy :=
  let d := y.b.tiles.getD o.x.toNat {}
  let r := y.b.ring d.rn
  { id := y.s.serial
    kind := .planes (y.s.resolve y.b d (r.slotAt r.rsv)) (y.x.u o.q.toNat).toNat (y.x.u (o.q.toNat + 1)).toNat o.xf
    scr := false, dk := .scr, scope := o.scope, bar := o.bar, barCounted := false
    ring := if d.rv then some (d.rn, r.rsv.toNat) else none
    bmask := BitVec.allOnes 32
    slices := [{ band := y.n, dst := 0, src := y.x.u64 o.a.toNat, rowBytes := 0, rows := 0, sstride := 0
                 dstride := 0, seq := y.x.wseq.stores, sigma := y.x.sigma, priv := y.x.inh }]
    regWord := 0, issuers := [y.n] }

theorem cpyPl_spec {o : CpyPl} (hy : Issues (.cpyPl h o) s y) (hx : y.ex ≠ []) :
    let d := y.b.tiles.getD o.x.toNat {}
    let trap := y.planeTrap d (y.x.u o.q.toNat) (y.x.u (o.q.toNat + 1))
    (∀ t, trap = some t → Traps (.cpyPl h o) s y t) ∧
    (trap = none → y.copyWaits (if d.rv then .ring else .scr) d.rn 0 = false →
      exec (.cpyPl h o) s = .next (y.finish (y.copied (y.planeCopy o) false) (.cpyPl h o) [])) := by
  intro d trap
  have e : exec (.cpyPl h o) s = .next (match trap with
      | some t => y.trap t
      | none =>
        if y.copyWaits (if d.rv then .ring else .scr) d.rn 0 then y.s
        else y.finish (y.copied (y.planeCopy o) false) (.cpyPl h o) []) :=
    (run_next hy _).trans (congrArg _ (if_neg (by simpa using hx)))
  refine ⟨fun t ht => ?_, fun ht hw => ?_⟩
  · rw [Traps, e, ht]
    rfl
  · rw [e, ht, hw]
    rfl

/-! ### Collective copies (R344, R377) -/

/-- The state in which a band has added its slice to a collective, and counts it. -/
def Iss.joined (y : Iss) (o : Cpy) (id : Nat) (mine : Option Collective) : State :=
  let s := y.base.modBlk y.k fun b => { b with cols := y.colWith o (y.sliceOf o) id mine }
  let s := { s with serial := s.serial + 1 }.modBand y.k y.n fun x => { x with colSeq := x.colSeq + 1 }
  (s.countCopy y.k y.n id).nextStoreSeq y.k y.n

theorem Iss.joined_spec {i : Instr} (hy : Issues i s y) (o : Cpy) (id : Nat) (mine : Option Collective) :
    let u := y.joined o id mine
    y.Goes u (y.finish u i []) (y.inLine i) ∧ u.mem = y.s.mem ∧
      (u.blk y.k).map Block.cols = some (y.colWith o (y.sliceOf o) id mine) ∧ (y.bandIn u).colSeq = y.x.colSeq + 1 ∧
      (y.bandIn u).cpyOut = y.x.cpyOut ++ [(id, false)] ∧ (y.bandIn u).lanes = y.x.lanes := by
  intro u
  have g := y.good hy
  obtain ⟨h, hi⟩ := y.hdr hy
  obtain ⟨hbase, hx⟩ := g.base_band
  have hcols : (y.base.modBlk y.k fun b => { b with cols := y.colWith o (y.sliceOf o) id mine }).blk y.k =
      some { y.b.setBand y.n y.x with cols := y.colWith o (y.sliceOf o) id mine } := by
    rw [State.blk_modBlk, hbase, Option.map_some]
  have hu := Iss.blk_modBand_self (Iss.blk_modBand_self (Iss.blk_modBand_self hcols fun x =>
    { x with colSeq := x.colSeq + 1 }) fun x => { x with cpyOut := x.cpyOut ++ [(id, false)] }) fun x =>
    { x with wseq := { x.wseq with stores := x.wseq.stores + 1 } }
  have hxu := Block.band_modBand_self (Block.band_modBand_self (Block.band_modBand_self
    (c := { y.b.setBand y.n y.x with cols := y.colWith o (y.sliceOf o) id mine }) hx fun x =>
    { x with colSeq := x.colSeq + 1 }) fun x => { x with cpyOut := x.cpyOut ++ [(id, false)] }) fun x =>
    { x with wseq := { x.wseq with stores := x.wseq.stores + 1 } }
  have hin : y.bandIn u = _ := Iss.bandIn_eq hu hxu
  refine ⟨g.goes hi [] hu hxu rfl, rfl, congrArg (Option.map Block.cols) hu, ?_, ?_, ?_⟩ <;> rw [hin]

theorem cpyCol_spec {o : Cpy} (hy : Issues (.cpyCol h o) s y) (hx : y.ex ≠ [])
    (ht : y.copyTrap o (y.sliceOf o) = none) :
    let mine := y.b.cols.find? fun c => c.k == y.x.colSeq
    let id := (mine.map Collective.id).getD y.s.serial
    (y.colWaits o (y.sliceOf o) id mine = true → exec (.cpyCol h o) s = .next y.s) ∧
    (y.colWaits o (y.sliceOf o) id mine = false → exec (.cpyCol h o) s = .next (
      ((y.finish (y.joined o id mine) (.cpyCol h o) []).acceptCol y.k id).getD
        (y.finish (y.joined o id mine) (.cpyCol h o) []))) := by
  intro mine id
  have e : exec (.cpyCol h o) s = .next (match y.copyTrap o (y.sliceOf o) with
      | some t => y.trap t
      | none =>
        if y.colWaits o (y.sliceOf o) id mine then y.s
        else ((y.finish (y.joined o id mine) (.cpyCol h o) []).acceptCol y.k id).getD
          (y.finish (y.joined o id mine) (.cpyCol h o) [])) :=
    (run_next hy _).trans (congrArg _ (if_neg (by simpa using hx)))
  rw [ht] at e
  refine ⟨fun hw => ?_, fun hw => ?_⟩ <;> rw [e, hw] <;> rfl

end

/-- Settles O40: a copy whose checks pass is accepted with the operands of its issue; the failed check or the full counter stops it. -/
theorem copiesAccepted : Obligations.CopiesAccepted := by
  intro h s y
  refine ⟨fun o hy hx => ?_, fun o hy hx ht => ?_, fun o hy hx => ?_⟩
  · obtain ⟨htrap, hwait, hgo⟩ := cpy_spec hy hx
    refine ⟨htrap, hwait, fun ht hw => ?_⟩
    obtain ⟨own, e⟩ := hgo ht hw
    obtain ⟨c', hc, hmoved, hcopies, hcount⟩ :=
      Iss.copied_spec hy (mkCopy y.b y.s.serial o [y.sliceOf o] [y.n]) own
    exact ⟨_, c', e, hmoved, hcopies, by rw [hc]; rfl, by rw [hc]; rfl, by rw [hc]; rfl, by rw [hc]; rfl, by rw [hc]; rfl,
      by rw [hc]; rfl, by rw [hc]; rfl, by rw [hc]; rfl, hcount⟩
  · obtain ⟨hwait, hgo⟩ := cpyCol_spec hy hx ht
    refine ⟨hwait, fun hw => ?_⟩
    obtain ⟨hgoes, hmem, hcols, hseq, hcount, hlanes⟩ := Iss.joined_spec hy o _ _
    exact ⟨_, _, hgoes, hgo hw, hmem, hcols, hseq, hcount, hlanes⟩
  · obtain ⟨htrap, hgo⟩ := cpyPl_spec hy hx
    refine ⟨htrap, fun ht hw => ?_⟩
    obtain ⟨c', hc, hmoved, hcopies, hcount⟩ := Iss.copied_spec hy (y.planeCopy o) false
    exact ⟨_, c', hgo ht hw, hmoved, hcopies, by rw [hc]; rfl, by rw [hc]; rfl, by rw [hc]; rfl, by rw [hc]; rfl, hcount⟩

end Sys2Proof.Machine

/-! # Matrix commands reach the latch -/

namespace Sys2Proof.Machine

open Sys2Proof

/-! ### What leaves a band's front alone -/

theorem Band.front_holdAcc (x : Band) (ins : CmdIns) (key : Nat) (tok : Option Nat) :
    (x.holdAcc ins key tok).front = x.front := by
  unfold Band.holdAcc
  split <;> rfl

theorem Band.mma_holdAcc (x : Band) (ins : CmdIns) (key : Nat) (tok : Option Nat) :
    (x.holdAcc ins key tok).mmaOut = x.mmaOut ∧ (x.holdAcc ins key tok).mmaSeq = x.mmaSeq := by
  unfold Band.holdAcc
  split <;> exact ⟨rfl, rfl⟩

theorem Band.front_seqAcc (x : Band) (c : Capt) : (x.seqAcc c).front = x.front := by
  unfold Band.seqAcc
  split
  · split <;> rfl
  · rfl

theorem Band.mma_seqAcc (x : Band) (c : Capt) :
    (x.seqAcc c).mmaOut = x.mmaOut ∧ (x.seqAcc c).mmaSeq = x.mmaSeq := by
  unfold Band.seqAcc
  split
  · split <;> exact ⟨rfl, rfl⟩
  · exact ⟨rfl, rfl⟩

/-- The other members drop their hold: the block changes in its bands alone, and not in the capturing one. -/
theorem Block.dropOthers_keeps (b : Block) (e : LatchEnt) (n : Nat) :
    { b.dropOthers e n with bands := b.bands } = b ∧ (b.dropOthers e n).band n = b.band n := by
  unfold Block.dropOthers
  have : ∀ (ms : List Nat) (b : Block), n ∉ ms →
      let c := ms.foldl (fun b m => b.modBand m fun x => x.dropAcc e.key) b
      { c with bands := b.bands } = b ∧ c.band n = b.band n := by
    intro ms
    induction ms with
    | nil => exact fun b _ => ⟨rfl, rfl⟩
    | cons m ms ih =>
      intro b hn
      obtain ⟨hm, hms⟩ := not_or.1 (mt List.mem_cons.2 hn)
      obtain ⟨hrest, hband⟩ := ih (b.modBand m fun x => x.dropAcc e.key) hms
      refine ⟨?_, hband.trans ((Block.band_modBand ..).trans (if_neg hm))⟩
      exact (congrArg (fun c : Block => { c with bands := b.bands }) hrest :)
  exact this _ b (by simp)

/-! ### A command in the latch (R358 to R360) -/

/-- The token that an instruction's header sets (R47). -/
def tokenOf (i : Instr) : Option Nat :=
  match i.hdr? with
  | some h => if h.sett.toNat < 6 then some h.sett.toNat else none
  | none => none

/-- A member's entry of the latch after it has executed the command. -/
def LatchEnt.joined (e : LatchEnt) (l : Latched) (c : Option Capt) : LatchEnt :=
  { e with waiting := e.waiting.filter (· != l.band), got := e.got ++ [l], captured := e.captured.or c }

/-- The latch with an entry that a member has opened or joined. -/
def Block.latchWith (b : Block) (found : Option LatchEnt) (e e' : LatchEnt) : List LatchEnt :=
  match found with
  | some _ => b.latch.map fun f => if f.key = e.key then e' else f
  | none => b.latch ++ [e']

/-- What a member that executes a command counts and holds. -/
def Band.joins (x : Band) (e : LatchEnt) (ins : CmdIns) (tok : Option Nat) (c : Option Capt) : Band :=
  let x := { x with mmaSeq := x.mmaSeq + 1, mmaOut := x.mmaOut ++ [(e.key, false)] }
  let x := if e.captured.isSome then x else x.holdAcc ins e.key tok
  match c with
  | some c => x.seqAcc c
  | none => x

theorem Band.joins_spec (x : Band) (e : LatchEnt) (ins : CmdIns) (tok : Option Nat) (c : Option Capt) :
    (x.joins e ins tok c).front = x.front ∧ (x.joins e ins tok c).mmaOut = x.mmaOut ++ [(e.key, false)] ∧
      (x.joins e ins tok c).mmaSeq = x.mmaSeq + 1 := by
  unfold Band.joins
  extract_lets x₁ x₂
  have h₂ : x₂.front = x₁.front ∧ x₂.mmaOut = x₁.mmaOut ∧ x₂.mmaSeq = x₁.mmaSeq := by
    unfold x₂
    split
    · exact ⟨rfl, rfl, rfl⟩
    · exact ⟨x₁.front_holdAcc .., x₁.mma_holdAcc ..⟩
  cases c with
  | none => exact h₂
  | some c =>
    obtain ⟨hout, hseq⟩ := x₂.mma_seqAcc c
    exact ⟨(x₂.front_seqAcc c).trans h₂.1, hout.trans h₂.2.1, hseq.trans h₂.2.2⟩

/-- The state in which a member has executed a command, before the command is accepted. -/
def Iss.latched (y : Iss) (i : Instr) (l : Latched) (found : Option LatchEnt) (e : LatchEnt) (c : Option Capt) : State :=
  let s := { y.base with serial := y.s.serial + 1 }.modBlk y.k fun b =>
    { b with latch := b.latchWith found e (e.joined l c) }
  let s := s.modBand y.k y.n fun x => x.joins e l.ins (tokenOf i) c
  if c.isSome then s.modBlk y.k fun b => b.dropOthers e y.n else s

/-- The entry that a band's command joins or opens. -/
def Iss.entry (y : Iss) (i : Instr) (found : Option LatchEnt) : LatchEnt :=
  found.getD ⟨y.s.serial, y.x.mmaSeq, opcNat i, y.b.gangOf y.n, y.b.gangOf y.n, [], none⟩

section

variable {s : State} {y : Iss} {i : Instr}

/-- The block and band of a member that has executed a command. -/
theorem Iss.Good.latched_blk (g : y.Good s) (i : Instr) (l : Latched) (found : Option LatchEnt) (e : LatchEnt)
    (c : Option Capt) : (∃ b z, (y.latched i l found e c).blk y.k = some b ∧ b.cmds = y.b.cmds ∧
      b.latch = y.b.latchWith found e (e.joined l c) ∧ b.band y.n = some z ∧ z.front = y.x.front ∧
      z.mmaOut = y.x.mmaOut ++ [(e.key, false)] ∧ z.mmaSeq = y.x.mmaSeq + 1) ∧
    (∀ j, j ≠ y.k → (y.latched i l found e c).blk j = y.s.blk j) ∧ (y.latched i l found e c).mem = y.s.mem := by
  obtain ⟨hbase, hx⟩ := g.base_band
  obtain ⟨hfront, hout, hseq⟩ := y.x.joins_spec e l.ins (tokenOf i) c
  unfold Iss.latched
  extract_lets s₀ s₁ s₂
  have h₁ : s₁.blk y.k = some { y.b.setBand y.n y.x with latch := y.b.latchWith found e (e.joined l c) } := by
    rw [State.blk_modBlk]
    exact congrArg (Option.map _) hbase
  have h₂ := Iss.blk_modBand_self h₁ fun x => x.joins e l.ins (tokenOf i) c
  have hx₂ := Block.band_modBand_self
    (c := { y.b.setBand y.n y.x with latch := y.b.latchWith found e (e.joined l c) }) hx fun x => x.joins e l.ins (tokenOf i) c
  have ho₂ : ∀ j, j ≠ y.k → s₂.blk j = y.s.blk j := fun j hj =>
    (State.blk_modBand_ne _ _ _ hj).trans ((State.blk_modBlk_ne _ _ hj).trans (State.blk_setBlk_ne _ _ hj))
  split
  · obtain ⟨hrest, hband⟩ := Block.dropOthers_keeps
      ({ y.b.setBand y.n y.x with latch := y.b.latchWith found e (e.joined l c) }.modBand y.n
        fun x => x.joins e l.ins (tokenOf i) c) e y.n
    refine ⟨⟨_, _, (State.blk_modBlk ..).trans (congrArg _ h₂), (congrArg Block.cmds hrest :),
      (congrArg Block.latch hrest :), hband.trans hx₂, hfront, hout, hseq⟩, fun j hj => ?_, rfl⟩
    exact (State.blk_modBlk_ne _ _ hj).trans (ho₂ j hj)
  · exact ⟨⟨_, _, h₂, rfl, rfl, hx₂, hfront, hout, hseq⟩, ho₂, rfl⟩

/-! ### What a command comes to -/

variable {m : MFields} {ins : CmdIns} {found : Option LatchEnt}

/-- A matrix command behind the choice of its entry. -/
theorem Iss.command_eq (hx : y.ex ≠ []) (hfound : y.b.entryFor y.n y.x.mmaSeq = found) :
    let e := y.entry i found
    y.command i m ins =
      if e.opc ≠ opcNat i then y.trap { cls := .fmt, lane := lowest y.act }
      else if y.b.lateCapture e then y.s
      else if y.b.captures e y.n && y.b.idBusy m.id.toNat then y.s
      else
        match (if y.b.captures e y.n then (y.s.capture y.k y.b ⟨y.n, m, ins⟩).map some else .ok none) with
        | .error t => y.trap { t with lane := lowest y.act }
        | .ok c =>
          if counterMax ≤ y.x.mmaOut.length ∨ (found.isNone = true ∧ 8 ≤ y.b.latch.length) then y.s
          else
            let e' := e.joined ⟨y.n, m, ins⟩ c
            let s := y.latched i ⟨y.n, m, ins⟩ found e c
            y.finish (if e'.ready y.b then s.acceptEnt y.k e' else s) i [] := by
  subst hfound
  exact if_neg (by simpa using hx)

theorem Iss.command_opcode (hx : y.ex ≠ []) (hfound : y.b.entryFor y.n y.x.mmaSeq = found)
    (ho : (y.entry i found).opc ≠ opcNat i) : y.command i m ins = y.trap { cls := .fmt, lane := lowest y.act } := by
  rw [Iss.command_eq hx hfound]
  exact if_pos ho

/-- The capturing member's operands fail their checks. -/
theorem Iss.command_error (hx : y.ex ≠ []) (hfound : y.b.entryFor y.n y.x.mmaSeq = found)
    (ho : (y.entry i found).opc = opcNat i) (hl : y.b.lateCapture (y.entry i found) = false)
    (hm : y.b.captures (y.entry i found) y.n = true) (hb : y.b.idBusy m.id.toNat = false) {t : Trap}
    (ht : y.s.capture y.k y.b ⟨y.n, m, ins⟩ = .error t) :
    y.command i m ins = y.trap { t with lane := lowest y.act } := by
  simp only [Iss.command_eq hx hfound, if_neg (not_not_intro ho), hl, hm, hb, ht]
  rfl

/-- What the capture of a member comes to: its operands, or nothing where it does not capture. -/
def Iss.Captures (y : Iss) (e : LatchEnt) (l : Latched) (c : Option Capt) : Prop :=
  (y.b.captures e y.n = true → y.b.idBusy l.m.id.toNat = false ∧ ∃ c', y.s.capture y.k y.b l = .ok c' ∧ c = some c') ∧
    (y.b.captures e y.n = false → c = none)

/-- A member executes a command, and its entry joins the latch. -/
theorem Iss.command_joins (hx : y.ex ≠ []) (hfound : y.b.entryFor y.n y.x.mmaSeq = found)
    (ho : (y.entry i found).opc = opcNat i) (hl : y.b.lateCapture (y.entry i found) = false) {c : Option Capt}
    (hc : y.Captures (y.entry i found) ⟨y.n, m, ins⟩ c) (hn : y.x.mmaOut.length < counterMax)
    (hr : found = none → y.b.latch.length < 8) :
    let e := y.entry i found
    let e' := e.joined ⟨y.n, m, ins⟩ c
    let s := y.latched i ⟨y.n, m, ins⟩ found e c
    y.command i m ins = y.finish (if e'.ready y.b then s.acceptEnt y.k e' else s) i [] := by
  have hroom : ¬(counterMax ≤ y.x.mmaOut.length ∨ (found.isNone = true ∧ 8 ≤ y.b.latch.length)) := by
    rintro (h | ⟨h, h'⟩)
    · exact absurd hn (Nat.not_lt.2 h)
    · exact absurd (hr (Option.isNone_iff_eq_none.1 h)) (Nat.not_lt.2 h')
  have hwait : ¬(y.b.captures (y.entry i found) y.n && y.b.idBusy m.id.toNat) = true := by
    rw [Bool.and_eq_true]
    rintro ⟨hm, hb⟩
    exact absurd (hc.1 hm).1 (by simp [hb])
  have hcapt : (if y.b.captures (y.entry i found) y.n then (y.s.capture y.k y.b ⟨y.n, m, ins⟩).map some else .ok none) =
      .ok c := by
    cases hm : y.b.captures (y.entry i found) y.n with
    | true =>
      obtain ⟨-, c', he, rfl⟩ := hc.1 hm
      rw [if_pos rfl, he]
      rfl
    | false => rw [hc.2 hm, if_neg (by decide)]
  intro e e' s'
  rw [Iss.command_eq hx hfound]
  dsimp only
  rw [if_neg (not_not_intro ho), if_neg (by simpa using hl), if_neg hwait, hcapt]
  exact if_neg hroom

end

/-! ### Acceptance (R359, R361) -/

/-- The command that an entry of the latch becomes. -/
def State.cmdOf (s : State) (b : Block) (e : LatchEnt) (c : Capt) : Cmd :=
  { key := e.key, seq := s.serial, id := c.id, op := c.op, p0 := b.accPred c.p0, p1 := b.accPred c.p1
    st := .accepted, members := e.got.map Latched.band, capBand := c.band }

/-- A block whose entry of the latch has become a command. -/
def Block.withCmd (b : Block) (cmd : Cmd) : Block :=
  { b with latch := b.latch.filter fun f => f.key != cmd.key, cmds := b.cmds ++ [cmd]
           lastCmd := tset b.lastCmd cmd.id cmd.key }

theorem State.acceptEnt_eq {s : State} {k : Nat} {b : Block} {e : LatchEnt} {c : Capt} (hb : s.blk k = some b)
    (hc : e.captured = some c) :
    s.acceptEnt k e = { s with serial := s.serial + 1 }.setBlk k (b.withCmd (s.cmdOf b e c)) := by
  unfold State.acceptEnt
  rw [hb, hc]
  rfl

section

variable {s : State} {y : Iss} {i : Instr} {m : MFields} {ins : CmdIns}

/-- An entry stays in the latch while another live member is still to execute it. -/
theorem LatchEnt.not_ready {e : LatchEnt} {b : Block} (l : Latched) (c : Option Capt)
    (h : ∃ j ∈ e.waiting, j ≠ l.band ∧ j ∈ b.liveBands) : (e.joined l c).ready b = false := by
  obtain ⟨j, hj, hn, hlive⟩ := h
  have : ((e.joined l c).waiting.all fun n => !b.liveBands.contains n) = false :=
    List.all_eq_false.2 ⟨j, List.mem_filter.2 ⟨hj, by simpa using hn⟩, by simpa using hlive⟩
  rw [LatchEnt.ready, this, Bool.and_false]

/-- A band of a gang that is not the last to execute a command goes on (R359). -/
theorem Iss.Good.latch_waits (g : y.Good s) {h : Hdr} (hi : i.hdr? = some h) (l : Latched) (found : Option LatchEnt)
    (e : LatchEnt) (c : Option Capt) :
    let t := y.finish (y.latched i l found e c) i []
    y.Moved t (y.inLine i) ∧ (t.blk y.k).map Block.cmds = some y.b.cmds ∧
      (t.blk y.k).map Block.latch = some (y.b.latchWith found e (e.joined l c)) ∧
      (y.bandIn t).mmaOut = y.x.mmaOut ++ [(e.key, false)] ∧ (y.bandIn t).mmaSeq = y.x.mmaSeq + 1 := by
  intro t
  obtain ⟨⟨b, z, hb, hcmds, hlatch, hz, hfront, hout, hseq⟩, hoth, hmem⟩ := g.latched_blk i l found e c
  obtain ⟨hgo, hmoved⟩ := g.goes_moved hi hb hz hfront hmem hoth
  obtain ⟨bt, st, hbt, hrest⟩ := hgo.block hb
  have hband := hgo.band hb hz
  refine ⟨hmoved, ?_, ?_, ?_, ?_⟩
  · rw [hbt, Option.map_some, ← hcmds, ← hrest]
  · rw [hbt, Option.map_some, ← hlatch, ← hrest]
  · exact (congrArg Band.mmaOut hband).trans hout
  · exact (congrArg Band.mmaSeq hband).trans hseq

/-- A band that is the last to execute a command has it accepted (R359, R361). -/
theorem Iss.Good.latch_accepts (g : y.Good s) {h : Hdr} (hi : i.hdr? = some h) (l : Latched) (found : Option LatchEnt)
    (e : LatchEnt) {c : Option Capt} {c' : Capt} (hc : (e.joined l c).captured = some c') :
    let t := y.finish ((y.latched i l found e c).acceptEnt y.k (e.joined l c)) i []
    ∃ cmd, y.Moved t (y.inLine i) ∧ (t.blk y.k).map Block.cmds = some (y.b.cmds ++ [cmd]) ∧ cmd.op = c'.op ∧
      cmd.id = c'.id ∧ cmd.st = .accepted ∧ cmd.members = (e.got ++ [l]).map Latched.band ∧
      (y.bandIn t).mmaOut = y.x.mmaOut ++ [(cmd.key, false)] ∧ (y.bandIn t).mmaSeq = y.x.mmaSeq + 1 := by
  intro t
  obtain ⟨⟨b, z, hb, hcmds, -, hz, hfront, hout, hseq⟩, hoth, hmem⟩ := g.latched_blk i l found e c
  have hacc := State.acceptEnt_eq hb hc
  have hb' := (congrArg (State.blk · y.k) hacc).trans (State.blk_setBlk ..)
  obtain ⟨hgo, hmoved⟩ := g.goes_moved hi hb' (z := z) hz hfront (by rw [hacc]; exact hmem) fun j hj => by
    rw [hacc]
    exact (State.blk_setBlk_ne _ _ hj).trans (hoth j hj)
  obtain ⟨bt, st, hbt, hrest⟩ := hgo.block hb'
  have hband := hgo.band hb' (z := z) hz
  refine ⟨State.cmdOf (y.latched i l found e c) b (e.joined l c) c', hmoved, ?_, rfl, rfl, rfl, rfl, (congrArg Band.mmaOut hband).trans hout,
    (congrArg Band.mmaSeq hband).trans hseq⟩
  have : bt.cmds = _ := (congrArg Block.cmds hrest :)
  rw [hbt, Option.map_some, this, ← hcmds]
  rfl

/-! ### A band outside any gang -/

/-- Outside any gang a band opens an entry of its own, which it captures alone (R358, R360). -/
theorem Iss.entry_alone (hg : y.b.gang.getLsbD y.n = false) :
    y.b.lateCapture (y.entry i none) = false ∧ y.b.captures (y.entry i none) y.n = true ∧
      ∀ l c, l.band = y.n → ((y.entry i none).joined l (some c)).ready y.b = true := by
  have hgang : y.b.gangOf y.n = [y.n] := by rw [Block.gangOf, hg, if_neg (by decide)]
  refine ⟨rfl, ?_, fun l c hl => ?_⟩
  · simp [Block.captures, Iss.entry, hgang]
  · simp [LatchEnt.ready, LatchEnt.joined, Iss.entry, hgang, hl]

/-- A capture has the identifier of its instruction (R360). -/
theorem State.capture_id {k : Nat} {b : Block} {l : Latched} {c : Capt} (hc : s.capture k b l = .ok c) :
    c.id = l.m.id.toNat := by
  unfold State.capture at hc
  dsimp only at hc
  split at hc
  · cases hc
  · obtain rfl := Except.ok.inj hc
    rfl

/-- Each matrix instruction runs its command (R390 to R397). -/
theorem exec_command {h : Hdr} (hy : Issues i s y)
    (hi : (∃ o : AccClr, i = .accClr h o ∧ m = o.m ∧ ins = .accClr o.acc.toNat o.x) ∨
      (∃ o : Mma, i = .mma h o ∧ m = o.m ∧ ins = .mma o.acc.toNat o.xa.toNat o.xb.toNat) ∨
      (∃ o : PlanePack, i = .planePack h o ∧ m = o.m ∧
        ins = .pack o.x.toNat (y.x.u o.a.toNat) (y.x.u o.st.toNat) o.s16 o.scale) ∨
      (∃ o : PlaneUnpack, i = .planeUnpack h o ∧ m = o.m ∧
        ins = .unpack o.x.toNat (y.x.u o.a.toNat) (y.x.u o.st.toNat) o.s16) ∨
      (∃ o : AccRd, i = .accRd h o ∧ m = o.m ∧ ins = .accRd o (match o.dst with
        | .regs _ => 0
        | .scr a _ => y.x.u a.toNat) (match o.dst with
        | .regs _ => 0
        | .scr _ st => y.x.u st.toNat) (laneSet y.ex)) ∨
      (∃ o : AccWr, i = .accWr h o ∧ m = o.m ∧ ins = .accWr o (y.x.u o.a.toNat) (y.x.u o.st.toNat)) ∨
      (∃ o : CbtLd, i = .cbtLd h o ∧ m = o.m ∧ ins = .cbtLd (y.x.u o.a.toNat))) :
    exec i s = .next (y.command i m ins) := by
  obtain ⟨o, rfl, rfl, rfl⟩ | ⟨o, rfl, rfl, rfl⟩ | ⟨o, rfl, rfl, rfl⟩ | ⟨o, rfl, rfl, rfl⟩ | ⟨o, rfl, rfl, rfl⟩ |
    ⟨o, rfl, rfl, rfl⟩ | ⟨o, rfl, rfl, rfl⟩ := hi
  case inr.inr.inr.inr.inl =>
    refine (run_next hy _).trans ?_
    obtain ⟨dst⟩ := o
    cases dst <;> rfl
  all_goals exact run_next hy _

end

/-- Settles O41: outside a gang through a latch entry of the band alone, inside one through the entry at its place. -/
theorem matrixCommandsAccepted : Obligations.MatrixCommandsAccepted := by
  intro h s y i m ins hi hy hx
  have hexec := exec_command hy hi
  have g := y.good hy
  obtain ⟨hd, hhd⟩ := y.hdr hy
  refine ⟨fun e hf ho => ?_, fun e found hf he ho hl => ?_, fun hg hf hb => ?_⟩
  · rw [Traps, hexec, Iss.command_opcode hx hf ho]
    rfl
  · subst he
    refine ⟨fun hm hb t ht => ?_, fun c hc hc' hw hn hr => ?_⟩
    · rw [Traps, hexec, Iss.command_error hx hf ho hl hm hb ht]
      rfl
    · have hjoin := Iss.command_joins (i := i) hx hf ho hl (m := m) (ins := ins) ⟨hc, hc'⟩ hn hr
      dsimp only at hjoin
      rw [LatchEnt.not_ready (e := y.entry i found) ⟨y.n, m, ins⟩ c hw, if_neg (by decide)] at hjoin
      obtain ⟨hmoved, hcmds, hlatch, hout, hseq⟩ := g.latch_waits hhd ⟨y.n, m, ins⟩ found (y.entry i found) c
      exact ⟨_, hexec.trans (congrArg _ hjoin), hmoved, hcmds, hlatch, hout, hseq⟩
  · obtain ⟨hl, hm, hready⟩ := Iss.entry_alone (i := i) hg
    refine ⟨fun t ht => ?_, fun c hc hn hr => ?_⟩
    · rw [Traps, hexec, Iss.command_error hx hf rfl hl hm hb ht]
      rfl
    · have hjoin := Iss.command_joins (i := i) hx hf rfl hl (m := m) (ins := ins) (c := some c)
        ⟨fun _ => ⟨hb, c, hc, rfl⟩, fun hm' => absurd (hm.symm.trans hm') (by decide)⟩ hn fun _ => hr
      dsimp only at hjoin
      rw [hready _ _ rfl, if_pos rfl] at hjoin
      obtain ⟨cmd, hmoved, hcmds, hop, hid, hst, hmem, hout, hseq⟩ :=
        g.latch_accepts hhd ⟨y.n, m, ins⟩ none (y.entry i none) (c := some c) rfl
      exact ⟨_, cmd, hexec.trans (congrArg _ hjoin), hmoved, hcmds, hop, hid.trans (State.capture_id hc), hst, hmem, hout,
        hseq⟩

end Sys2Proof.Machine

/-! # Matrix commands are accepted, run and retire -/

namespace Sys2Proof.Machine

open Sys2Proof

/-! ### Acceptance and start (R356, R359, R362) -/

section

variable {s : State} {bk : Nat} {b : Block}

/-- A captured entry that no live member is still to execute becomes a command. -/
theorem exec_commandAcceptance (hb : s.blk bk = some b) {e : LatchEnt} {c : Capt}
    (he : b.latch.find? (fun f => f.key == e.key) = some e) (hc : e.captured = some c) (hw : ∀ m ∈ e.waiting, m ∉ b.liveBands) :
    exec (.commandAcceptance bk e.key) s =
      .next ({ s with serial := s.serial + 1 }.setBlk bk (b.withCmd (s.cmdOf b e c))) := by
  have hlate : b.lateCapture e = false := by simp [Block.lateCapture, hc]
  have hready : e.ready b = true := by simpa [LatchEnt.ready, hc] using hw
  show execCommandAcceptance bk e.key s = _
  unfold execCommandAcceptance State.acceptDue
  simp only [hb, he, hlate, hready, if_true, Bool.false_eq_true, if_false, State.acceptEnt_eq hb hc]

/-- What a command is after it has started (R362). -/
def Cmd.runs (c : Cmd) (now : Nat) (res : CmdRes) : CmdSt :=
  .running (now + cyclesToTicks c.op.unit.2) (now + cyclesToTicks (c.op.unit.2 + 23)) res

/-- A block whose command has started, with the accumulator that it leaves (R356). -/
def Block.startCmd (b : Block) (c : Cmd) (now : Nat) (r : Acc × CmdRes) : Block :=
  { b with
    accs := if c.op.acc.isSome && r.2.fault.isNone then b.accs.set (c.op.acc.getD 0) r.1 else b.accs
    cmds := b.cmds.map fun d => if d.key = c.key then { d with st := c.runs now r.2 } else d }

theorem Block.find_startCmd {c : Cmd} (hc : b.cmds.find? (fun d => d.key == c.key) = some c) (now : Nat)
    (r : Acc × CmdRes) :
    (b.startCmd c now r).cmds.find? (fun d => d.key == c.key) = some { c with st := c.runs now r.2 } := by
  have hkey : ((fun d : Cmd => d.key == c.key) ∘ fun d => if d.key = c.key then { d with st := c.runs now r.2 } else d) =
      fun d => d.key == c.key := by
    funext d
    dsimp only [Function.comp_apply]
    split <;> rfl
  rw [Block.startCmd, List.find?_map, hkey, hc, Option.map_some, if_pos rfl]

theorem exec_commandStart (hb : s.blk bk = some b) {c : Cmd} (hc : b.cmds.find? (fun d => d.key == c.key) = some c)
    (ha : isAnnex b.die = false) (hr : b.cmdReady c = true) (hu : s.unitBusy b.core c.op.unit.1 = false)
    (ho : s.oldest b.core c = true) : exec (.commandStart bk c.key) s = .next (s.setBlk bk
      (b.startCmd c (s.now b.die) (s.runCmd b bk c.op (b.accs.getD (c.op.acc.getD 0) {})))) := by
  show execCommandStart bk c.key s = _
  unfold execCommandStart
  simp only [hb, hc, ha, hr, hu, ho, Bool.not_true, Bool.or_false, Bool.false_eq_true, if_false]
  unfold Block.startCmd
  split <;> rfl

end

/-! ### Retirement (R363) -/

/-- Every block keeps its commands, and every band its count of them and its conditions. -/
structure State.CmdsKeep (s t : State) : Prop where
  block : ∀ k b, s.blk k = some b → ∃ c, t.blk k = some c ∧ c.cmds = b.cmds ∧
    ∀ n x, b.band n = some x → ∃ z, c.band n = some z ∧ z.mmaOut = x.mmaOut ∧ z.fstat = x.fstat

theorem State.CmdsKeep.of_blocks {s t : State} (h : t.blocks = s.blocks) : s.CmdsKeep t :=
  ⟨fun k b hb => ⟨b, (congrArg (tget · k) h).trans hb, rfl, fun _ x hx => ⟨x, hx, rfl, rfl⟩⟩⟩

theorem State.CmdsKeep.trans {s t u : State} (h : s.CmdsKeep t) (h' : t.CmdsKeep u) : s.CmdsKeep u := by
  refine ⟨fun k b hb => ?_⟩
  obtain ⟨c, hc, hcmds, hbands⟩ := h.block k b hb
  obtain ⟨d, hd, hcmds', hbands'⟩ := h'.block k c hc
  refine ⟨d, hd, hcmds'.trans hcmds, fun n x hx => ?_⟩
  obtain ⟨z, hz, hout, hfs⟩ := hbands n x hx
  obtain ⟨w, hw, hout', hfs'⟩ := hbands' n z hz
  exact ⟨w, hw, hout'.trans hout, hfs'.trans hfs⟩

theorem State.CmdsKeep.foldl {α : Type} (f : State → α → State) (hf : ∀ (s : State) a, s.CmdsKeep (f s a)) (l : List α)
    (s : State) : s.CmdsKeep (l.foldl f s) := by
  induction l generalizing s with
  | nil => exact .of_blocks rfl
  | cons a l ih => exact (hf s a).trans (ih _)

theorem State.cmdsKeep_scrWrite (s : State) (win off : Nat) (bs : List Byte) : s.CmdsKeep (s.scrWrite win off bs) := by
  refine ⟨fun k b hb => ?_⟩
  by_cases hk : k = win
  · subst hk
    exact ⟨_, (State.blk_modBlk ..).trans (congrArg _ hb), rfl, fun _ x hx => ⟨x, hx, rfl, rfl⟩⟩
  · exact ⟨b, (State.blk_modBlk_ne _ _ hk).trans hb, rfl, fun _ x hx => ⟨x, hx, rfl, rfl⟩⟩

/-- A block is put back with one band changed, whose count and conditions are its own. -/
theorem State.cmdsKeep_setBand {s : State} {k n : Nat} {b c : Block} {x x' : Band} (hb : s.blk k = some b)
    (hx : b.band n = some x) (hcmds : c.cmds = b.cmds) (hbands : c.bands = (b.setBand n x').bands)
    (hout : x'.mmaOut = x.mmaOut) (hfs : x'.fstat = x.fstat) : s.CmdsKeep (s.setBlk k c) := by
  refine ⟨fun j d hd => ?_⟩
  by_cases hj : j = k
  · subst hj
    obtain rfl := Option.some.inj (hb.symm.trans hd)
    refine ⟨c, State.blk_setBlk .., hcmds, fun m z hz => ?_⟩
    rw [Block.band, hbands]
    by_cases hm : m = n
    · subst hm
      obtain rfl := Option.some.inj (hx.symm.trans hz)
      exact ⟨x', Block.band_setBand_self _ _ _ hx, hout, hfs⟩
    · exact ⟨z, (Block.band_setBand_ne _ _ hm).trans hz, rfl, rfl⟩
  · exact ⟨d, (State.blk_setBlk_ne _ _ hj).trans hd, rfl, fun _ x hx => ⟨x, hx, rfl, rfl⟩⟩

theorem State.cmdsKeep_cmdRegs (s : State) (k : Nat) (c : Cmd) (res : CmdRes) : s.CmdsKeep (s.cmdRegs k c res) := by
  unfold State.cmdRegs
  split
  next b _ _ _ _ _ _ hb _ =>
    split
    · exact .of_blocks rfl
    next x hx =>
      dsimp only
      split <;> exact State.cmdsKeep_setBand hb hx rfl rfl rfl rfl
  · exact .of_blocks rfl

/-- A member's band as a command of it retires: the command is counted off, and its conditions are raised. -/
def Band.retire (x : Band) (key : Nat) (cs : Conds) : Band :=
  { (x.raise cs).dropAcc key with mmaOut := countOff x.mmaOut key }

theorem Band.retire_spec (x : Band) (key : Nat) (cs : Conds) :
    (x.retire key cs).mmaOut = countOff x.mmaOut key ∧ (x.retire key cs).fstat = orConds x.fstat cs := by
  refine ⟨rfl, ?_⟩
  unfold Band.retire Band.dropAcc
  split <;> rfl

theorem Block.foldl_modBand (f : Band → Band) {ms : List Nat} (hms : ms.Nodup) (b : Block) :
    let c := ms.foldl (fun b n => b.modBand n f) b
    { c with bands := b.bands } = b ∧ ∀ m x, b.band m = some x → c.band m = some (if m ∈ ms then f x else x) := by
  induction ms generalizing b with
  | nil => exact ⟨rfl, fun m x hx => hx⟩
  | cons n ms ih =>
    obtain ⟨hn, hms⟩ := List.nodup_cons.1 hms
    obtain ⟨hrest, hbands⟩ := ih hms (b.modBand n f)
    refine ⟨(congrArg (fun c : Block => { c with bands := b.bands }) hrest :), fun m x hx => ?_⟩
    by_cases hm : m = n
    · subst hm
      have := hbands m (f x) ((Block.band_modBand ..).trans (by rw [if_pos rfl, hx]; rfl))
      rw [if_neg hn] at this
      exact this.trans (by rw [if_pos List.mem_cons_self])
    · have := hbands m x ((Block.band_modBand ..).trans ((if_neg hm).trans hx))
      exact this.trans (by simp [hm])

section

variable {s : State} {bk : Nat} {b : Block}

/-- The writes of a command that has met no fault, as it retires. -/
def State.cmdWrites (s : State) (b : Block) (bk : Nat) (res : CmdRes) : State :=
  res.writes.foldl (fun s w => match s.scrRange b bk w.1 w.2.length with
    | .ok (win, off) => if b.later && win != bk then s else s.scrWrite win off w.2
    | .error _ => s) s

/-- The state before a retired command leaves its block. -/
def State.cmdEffect (s : State) (b : Block) (bk : Nat) (c : Cmd) (res : CmdRes) : State :=
  let t := (s.cmdWrites b bk res).cmdRegs bk c res
  match res.tab with
  | some tab => { t with ctxs := tmod t.ctxs b.asid fun x => { x with cbt := some tab } }
  | none => t

theorem State.cmdEffect_keeps (s : State) (b : Block) (bk : Nat) (c : Cmd) (res : CmdRes) :
    s.CmdsKeep (s.cmdEffect b bk c res) ∧ (s.cmdEffect b bk c res).mem = s.mem := by
  have hwrites : s.CmdsKeep (s.cmdWrites b bk res) ∧ (s.cmdWrites b bk res).mem = s.mem := by
    refine ⟨State.CmdsKeep.foldl _ (fun s w => ?_) _ s, State.mem_foldl _ (fun s w => ?_) _ s⟩
    · split
      · split
        · exact .of_blocks rfl
        · exact s.cmdsKeep_scrWrite ..
      · exact .of_blocks rfl
    · split
      · split
        · rfl
        · exact State.modBlk_mem ..
      · rfl
  have hregs := hwrites.1.trans (State.cmdsKeep_cmdRegs _ bk c res)
  have hmem := (State.mem_cmdRegs (s.cmdWrites b bk res) bk c res).trans hwrites.2
  unfold State.cmdEffect
  cases res.tab with
  | none => exact ⟨hregs, hmem⟩
  | some tab => exact ⟨hregs.trans (.of_blocks rfl), hmem⟩

/-- A command whose destinations are there retires with its result. -/
theorem State.retireRes_of_ok {res : CmdRes} (hf : res.fault = none)
    (hw : ∀ w ∈ res.writes, ∃ p, s.scrRange b bk w.1 w.2.length = .ok p) : s.retireRes b bk res = res := by
  unfold State.retireRes
  extract_lets gone
  have hgone : gone = none := by
    refine List.findSome?_eq_none_iff.2 fun w hm => ?_
    obtain ⟨p, hp⟩ := hw w hm
    rw [hp]
  rw [hgone, hf]
  rfl

theorem exec_commandRetire (hb : s.blk bk = some b) {c : Cmd} (hc : b.cmds.find? (fun d => d.key == c.key) = some c)
    {free retire : Nat} {res : CmdRes} (hst : c.st = .running free retire res) (hn : retire ≤ s.now b.die)
    (hf : res.fault = none) (hw : ∀ w ∈ res.writes, ∃ p, s.scrRange b bk w.1 w.2.length = .ok p) :
    exec (.commandRetire bk c.key) s = .next ((s.cmdEffect b bk c res).modBlk bk fun b =>
      c.members.foldl (fun b n => b.modBand n fun x => x.retire c.key res.cs)
        { b with cmds := b.cmds.filter fun d => d.key != c.key }) := by
  show execCommandRetire bk c.key s = _
  unfold execCommandRetire
  simp only [hb, hc, hst, if_neg (Nat.not_lt.2 hn), State.retireRes_of_ok hf hw, hf]
  rfl

theorem commandRetire_spec (hb : s.blk bk = some b) {c : Cmd} (hc : b.cmds.find? (fun d => d.key == c.key) = some c)
    {free retire : Nat} {res : CmdRes} (hst : c.st = .running free retire res) (hn : retire ≤ s.now b.die)
    (hf : res.fault = none) (hw : ∀ w ∈ res.writes, ∃ p, s.scrRange b bk w.1 w.2.length = .ok p) :
    ∃ t b', exec (.commandRetire bk c.key) s = .next t ∧ t.mem = s.mem ∧ t.blk bk = some b' ∧
      b'.cmds = b.cmds.filter (fun d => d.key != c.key) ∧
      (c.members.Nodup → ∀ m ∈ c.members, ∀ x, b.band m = some x → ∃ x', b'.band m = some x' ∧
        x'.mmaOut = countOff x.mmaOut c.key ∧ x'.fstat = orConds x.fstat res.cs) := by
  obtain ⟨hkeep, hmem⟩ := s.cmdEffect_keeps b bk c res
  obtain ⟨d, hd, hcmds, hbands⟩ := hkeep.block bk b hb
  refine ⟨_, _, exec_commandRetire hb hc hst hn hf hw, hmem, (State.blk_modBlk ..).trans (congrArg _ hd), ?_, ?_⟩
  · have : ∀ (ms : List Nat) (b : Block), (ms.foldl (fun b n => b.modBand n fun x => x.retire c.key res.cs) b).cmds = b.cmds := by
      intro ms
      induction ms with
      | nil => exact fun _ => rfl
      | cons n ms ih => exact fun b => ih _
    rw [this, hcmds]
  · intro hnd m hm x hx
    obtain ⟨z, hz, hout, hfs⟩ := hbands m x hx
    obtain ⟨-, hfold⟩ := Block.foldl_modBand (fun x => x.retire c.key res.cs) hnd
      { d with cmds := d.cmds.filter fun e => e.key != c.key }
    obtain ⟨hout', hfs'⟩ := z.retire_spec c.key res.cs
    exact ⟨_, (hfold m z hz).trans (by rw [if_pos hm]), by rw [hout', hout], by rw [hfs', hfs]⟩

end

/-! ### Products (R356) -/

/-- The values of 64 bits between which an addition is clamped. -/
def clamp64 (v : Int) : Int := max (-(2 : Int) ^ 63) (min v ((2 : Int) ^ 63 - 1))

theorem satS_val (v : Int) : (satS v 64).val = clamp64 v := by
  rw [satS_eq]
  unfold clampSat clamp64
  dsimp only
  split
  · omega
  · split <;> omega

theorem satS_cs_ne_zero (v : Int) : (satS v 64).cs ≠ 0 ↔ clamp64 v ≠ v := by
  have hclamp : clamp64 v ≠ v ↔ v < -(2 : Int) ^ (64 - 1) ∨ (2 : Int) ^ (64 - 1) - 1 < v := by
    unfold clamp64
    omega
  rw [satS_eq, hclamp]
  unfold clampSat
  dsimp only
  split
  · exact iff_of_true (by decide) ‹_›
  · exact iff_of_false (not_not_intro rfl) ‹_›

theorem toInt_ofInt_clamp64 (v : Int) : (BitVec.ofInt 64 (clamp64 v)).toInt = clamp64 v := by
  rw [BitVec.toInt_ofInt]
  unfold clamp64
  rw [Int.bmod_def]
  omega

namespace Acc

variable {a : Acc}

theorem cell_setCell (h : keysRise a.cells = true) (i c i' c' : Nat) (v : BitVec 64) :
    (a.setCell i c v).cell i' c' = if 64 * i' + c' = 64 * i + c then v else a.cell i' c' := by
  unfold cell setCell
  dsimp only
  split
  next hv =>
    rw [tget_tdel _ _ _ h]
    split
    · exact hv.symm
    · rfl
  · rw [tget_tset]
    split <;> rfl

theorem cell_addCell (h : keysRise a.cells = true) (i c : Nat) (t : Int) :
    ((a.addCell i c t).cell i c).toInt = clamp64 ((a.cell i c).toInt + clamp64 t) := by
  have hcell : (a.addCell i c t).cell i c = BitVec.ofInt 64 (clamp64 ((a.cell i c).toInt + clamp64 t)) := by
    rw [← satS_val, ← satS_val t]
    exact (cell_setCell h i c i c _).trans (if_pos rfl)
  rw [hcell, toInt_ofInt_clamp64]

theorem cell_addCell_ne (h : keysRise a.cells = true) {i c i' c' : Nat} (t : Int) (hc : c < 64) (hc' : c' < 64)
    (hne : (i', c') ≠ (i, c)) : (a.addCell i c t).cell i' c' = a.cell i' c' := by
  refine (cell_setCell h i c i' c' _).trans (if_neg fun e => hne ?_)
  rw [Prod.mk.injEq]
  omega

theorem sata_addCell (i c : Nat) (t : Int) : (a.addCell i c t).sata = true ↔ a.sata = true ∨ clamp64 t ≠ t ∨
    clamp64 ((a.cell i c).toInt + clamp64 t) ≠ (a.cell i c).toInt + clamp64 t := by
  have hor (u v : Conds) : u ||| v ≠ 0 ↔ u ≠ 0 ∨ v ≠ 0 := (not_congr BitVec.or_eq_zero_iff).trans not_and_or
  rw [← satS_cs_ne_zero, ← satS_cs_ne_zero, ← satS_val t, ← hor, addCell, Bool.or_eq_true, bne_iff_ne]

end Acc

/-- The product of an integer and a power of two, rounded down. -/
theorem floorMul_eq (p e : Int) : floorMul p e = ⌊(p : ℚ) * 2 ^ e⌋ := by
  unfold floorMul
  split
  next h =>
    obtain ⟨n, rfl⟩ := Int.eq_ofNat_of_zero_le h
    rw [Int.toNat_natCast, zpow_natCast]
    exact_mod_cast (Int.floor_intCast (R := ℚ) _).symm
  next h =>
    obtain ⟨n, rfl⟩ : ∃ n : Nat, e = -n := ⟨(-e).toNat, by omega⟩
    rw [neg_neg, Int.toNat_natCast, zpow_neg, zpow_natCast, ← div_eq_mul_inv, Int.fdiv_eq_ediv_of_nonneg _ (by positivity)]
    exact_mod_cast (Rat.floor_intCast_div_natCast p (2 ^ n)).symm

theorem mmaTerm_eq (x : BitVec 16) (a b : Group) : mmaTerm x a b = (if a.e = 0 ∨ b.e = 0 then 0
    else ⌊(dotQ a.qs b.qs * (256 + a.f) * (256 + b.f) : ℚ) * 2 ^ ((a.e : Int) + b.e - 270 - x.toInt)⌋) := by
  rw [mmaTerm, floorMul_eq]
  push_cast
  rfl

/-- Settles O52: acceptance, start and retirement of a command, and the products of `mma` cell by cell. -/
theorem commandsRun : Obligations.CommandsRun := by
  refine ⟨fun s bk b hb => ⟨fun e c he hc hw => ?_, fun c hc => ⟨fun ha hr hu ho => ?_, fun free retire res hst hn hf hw => ?_⟩⟩,
    fun a i c t hc hk => ⟨Acc.cell_addCell hk i c t, fun i' c' hc' hne => Acc.cell_addCell_ne hk t hc hc' hne,
      Acc.sata_addCell i c t⟩, mmaTerm_eq⟩
  · exact ⟨_, s.cmdOf b e c, exec_commandAcceptance hb he hc hw, rfl, congrArg (Option.map Block.cmds) (State.blk_setBlk ..),
      rfl, rfl, rfl, rfl, rfl, congrArg (Option.map Block.latch) (State.blk_setBlk ..)⟩
  · exact ⟨_, _, exec_commandStart hb hc ha hr hu ho, rfl, State.blk_setBlk .., rfl, Block.find_startCmd hc _ _, rfl⟩
  · exact commandRetire_spec hb hc hst hn hf hw

end Sys2Proof.Machine

/-! # Handler entry and software traps -/

namespace Sys2Proof.Machine

open Sys2Proof

/-! ### The trap registers (R406) -/

theorem TrapClass.code_lt (c : TrapClass) : c.code < 256 := by cases c <;> decide

/-- The fields of TSTAT after a trap. -/
theorem tstatOf_fields (t : Trap) (async inh : Bool) :
    (tstatOf t async inh).extractLsb' 0 8 = BitVec.ofNat 8 t.cls.code ∧
    (tstatOf t async inh).extractLsb' 8 8 = BitVec.ofNat 8 t.cause ∧
    (tstatOf t async inh).extractLsb' 16 6 = BitVec.ofNat 6 t.lane ∧
    (tstatOf t async inh).extractLsb' 22 3 = BitVec.ofNat 3 t.opnd ∧
    (tstatOf t async inh).getLsbD 25 = async ∧ (tstatOf t async inh).getLsbD 26 = inh := by
  have hcode := t.cls.code_lt
  have hasync := async.toNat_lt
  have hinh := inh.toNat_lt
  unfold tstatOf
  refine ⟨BitVec.eq_of_toNat_eq ?_, BitVec.eq_of_toNat_eq ?_, BitVec.eq_of_toNat_eq ?_, BitVec.eq_of_toNat_eq ?_, ?_, ?_⟩
  case refine_5 =>
    rw [BitVec.getLsbD, BitVec.toNat_ofNat, Nat.testBit_eq_decide_div_mod_eq]
    cases async <;> simp only [Bool.toNat_true, Bool.toNat_false, decide_eq_true_eq, decide_eq_false_iff_not] <;> omega
  case refine_6 =>
    rw [BitVec.getLsbD, BitVec.toNat_ofNat, Nat.testBit_eq_decide_div_mod_eq]
    cases inh <;> simp only [Bool.toNat_true, Bool.toNat_false, decide_eq_true_eq, decide_eq_false_iff_not] <;> omega
  all_goals
    rw [BitVec.extractLsb'_toNat, BitVec.toNat_ofNat, BitVec.toNat_ofNat, Nat.shiftRight_eq_div_pow]
    omega

/-- The fields of TINFO after a trap that the handler needs for a register and for a lost trap. -/
theorem tinfoOf_fields (t : Trap) (ovf : Bool) :
    (tinfoOf t ovf).extractLsb' 0 8 = BitVec.ofNat 8 t.reg ∧ (tinfoOf t ovf).getLsbD 31 = ovf := by
  have hovf := ovf.toNat_lt
  unfold tinfoOf
  refine ⟨BitVec.eq_of_toNat_eq ?_, ?_⟩
  · rw [BitVec.extractLsb'_toNat, BitVec.toNat_ofNat, BitVec.toNat_ofNat, Nat.shiftRight_eq_div_pow]
    omega
  · rw [BitVec.getLsbD, BitVec.toNat_ofNat, Nat.testBit_eq_decide_div_mod_eq]
    cases ovf <;> simp only [Bool.toNat_true, Bool.toNat_false, decide_eq_true_eq, decide_eq_false_iff_not] <;> omega

/-! ### Entry (R404, R408) -/

/-- The band that a change of it leaves. -/
theorem Block.band_modBand_at {b : Block} {n : Nat} {x : Band} (hx : b.band n = some x) (f : Band → Band) :
    (b.modBand n f).band n = some (f x) := by
  rw [Block.band_modBand, if_pos rfl, hx, Option.map_some]

/-- The lanes at handler entry: those of the trap stand at the handler. -/
theorem Band.lane_enter (x : Band) (hbase : DWord) (t : Trap) (async ovf : Bool) (pc : DWord) (act : List Nat) {l : Nat}
    (hl : l < x.lanes.length) : (x.enter hbase t async ovf pc act).lane l =
      if l ∈ act then { x.lane l with pc := hbase, yieldMark := false } else x.lane l := by
  have hlanes : (x.enter hbase t async ovf pc act).lanes =
      (x.modLanes act fun _ l => { l with pc := hbase, yieldMark := false }).lanes := rfl
  rw [Band.lane, hlanes]
  refine (Band.lane_modLanes x act (fun _ l => { l with pc := hbase, yieldMark := false }) hl).trans ?_
  simp only [List.contains_iff_mem]

/-- A trap of the handler path that a handler can take, and that THALT does not stop, enters the handler. -/
theorem State.handlerTrap_enters {s : State} {k n : Nat} {b : Block} {x : Band} (hb : s.blk k = some b)
    (hx : b.band n = some x) (hh : b.hbase ≠ 0) (hi : x.inh = false) (hd : s.dbg b 4 = false ∨ x.dbgctl.getLsbD 2 = false)
    (t : Trap) (async ovf : Bool) (pc : DWord) (act : List Nat) :
    s.handlerTrap k n t async ovf pc act = s.setBlk k (b.setBand n (x.enter b.hbase t async ovf pc act)) := by
  have hdbg : ¬(s.dbg b 4 && x.dbgctl.getLsbD 2 && !x.inh) = true := by
    rw [hi]
    obtain hd | hd := hd <;> rw [hd] <;> simp
  unfold State.handlerTrap State.enterHandler
  rw [hb]
  dsimp only
  rw [hx]
  dsimp only
  rw [if_neg hdbg, if_neg (not_or.2 ⟨hh, by simp [hi]⟩)]

theorem Band.clearTrap_spec (x : Band) (which : Nat) : x.clearTrap which = { x with
    asyncCopy := (x.clearTrap which).asyncCopy, asyncCmd := (x.clearTrap which).asyncCmd
    asyncDl := (x.clearTrap which).asyncDl } := by
  unfold Band.clearTrap
  split <;> rfl

theorem Band.clearTrap_none (x : Band) (which : Nat) : (which = 0 → (x.clearTrap which).asyncCopy = none) ∧
    (which = 1 → (x.clearTrap which).asyncCmd = none) ∧ (which = 2 → (x.clearTrap which).asyncDl = none) := by
  refine ⟨?_, ?_, ?_⟩ <;> rintro rfl <;> rfl

/-- A band that stands at its boundary takes the asynchronous trap that is due. -/
theorem State.takeDue_enters {s : State} {k n which : Nat} {b : Block} {x : Band} {ch : Choice} {a : AsyncTrap}
    (hb : s.blk k = some b) (hx : b.band n = some x) (hh : b.hbase ≠ 0) (hi : x.inh = false)
    (hd : s.dbg b 4 = false ∨ x.dbgctl.getLsbD 2 = false) (hr : b.st = .running) (hg : x.halted = false)
    (hc : x.choose = some ch) (ht : x.dueTrap = some (which, a)) :
    s.takeDue k n = some ((s.modBand k n fun x => x.clearTrap which).setBlk k
      ((b.modBand n fun x => x.clearTrap which).setBand n ((x.clearTrap which).enter b.hbase
        { a.trap with lane := lowest ch.active } true a.ovf ch.pc ch.active))) := by
  have hbound : s.boundary k n = some (x, ch) := by
    unfold State.boundary
    rw [hb]
    dsimp only
    rw [hx]
    dsimp only
    rw [hr, hg, hi, hc]
    rfl
  have hclear := x.clearTrap_spec which
  have hinh : (x.clearTrap which).inh = false := by rw [hclear]; exact hi
  have hdbg : (x.clearTrap which).dbgctl = x.dbgctl := by rw [hclear]
  have hb' : (s.modBand k n fun x => x.clearTrap which).blk k = some (b.modBand n fun x => x.clearTrap which) := by
    rw [State.blk_modBand, hb, Option.map_some]
  have hx' := Block.band_modBand_at hx fun x => x.clearTrap which
  unfold State.takeDue
  rw [hbound]
  dsimp only
  rw [ht, Option.map_some]
  exact congrArg some (State.handlerTrap_enters hb' hx' hh hinh (hdbg ▸ hd) _ _ _ _ _)

theorem exec_asyncTrapEntry {s t : State} {k n : Nat} (h : s.takeDue k n = some t) :
    exec (.asyncTrapEntry k n) s = .next t := by
  show execAsyncTrapEntry k n s = _
  unfold execAsyncTrapEntry
  rw [h]

/-- Settles O42: a synchronous trap and a pending one both enter by `Band.enter`. -/
theorem handlerEntry : Obligations.HandlerEntry := by
  refine ⟨fun s k n t pc act b x hb hx hh hi hd hf hp hs => ?_, fun s k n which b x ch a hb hx hh hi hd hr hg hc ht => ?_⟩
  · obtain ⟨hcls, hcause, hlane, hopnd, hasync, hinh⟩ := tstatOf_fields t false true
    obtain ⟨hreg, hovf⟩ := tinfoOf_fields t false
    exact ⟨x.enter b.hbase t false false pc act,
      (s.syncTrap_eq_handlerTrap k n pc act hf hp hs).trans (State.handlerTrap_enters hb hx hh hi hd ..), rfl, rfl, rfl,
      hcls, hcause, hlane, hopnd, hasync, hinh, hreg, hovf, rfl, rfl, rfl, rfl, rfl, fun l hl => x.lane_enter _ _ _ _ _ _ hl⟩
  · have he := State.takeDue_enters hb hx hh hi hd hr hg hc ht
    obtain ⟨hcls, -, -, -, hasync, hinh⟩ := tstatOf_fields { a.trap with lane := lowest ch.active } true true
    obtain ⟨-, hovf⟩ := tinfoOf_fields { a.trap with lane := lowest ch.active } a.ovf
    obtain ⟨hcopy, hcmd, hdl⟩ := x.clearTrap_none which
    have hclear := x.clearTrap_spec which
    refine ⟨_, (x.clearTrap which).enter b.hbase { a.trap with lane := lowest ch.active } true a.ovf ch.pc ch.active,
      exec_asyncTrapEntry he, rfl, ?_, fun i hi => ?_, rfl, rfl, rfl, hcls, hasync, hinh, hovf, hcopy, hcmd, hdl, ?_, ?_,
      fun l hl => ?_⟩
    · rw [State.blk_setBlk, Option.bind_some]
      exact Block.band_setBand_self _ _ _ (Block.band_modBand_at hx _)
    · exact (State.blk_setBlk_ne _ _ hi).trans (State.blk_modBand_ne _ _ _ hi)
    · exact (congrArg Band.uregs hclear :)
    · exact (congrArg Band.fstat hclear :)
    · have hlanes : (x.clearTrap which).lanes = x.lanes := (congrArg Band.lanes hclear :)
      rw [Band.lane_enter _ _ _ _ _ _ _ (hlanes ▸ hl), Band.lane, hlanes, Band.lane]

/-! ### Software traps (R414, R416, R432) -/

section

variable {h : Hdr} {s : State} {y : Iss}

theorem runOnce_next {i : Instr} (hy : Issues i s y) (hx : y.ex ≠ []) (f : Iss → State) : runOnce i s f = .next (f y) :=
  (run_next hy _).trans (congrArg _ (if_neg (by simpa using hx)))

/-- `brk` with its facility open halts the band behind it. -/
theorem brk_halts {n : BitVec 8} (hy : Issues (.brk h n) s y) (hx : y.ex ≠ []) (hd : y.s.dbg y.b 0 = true)
    (hb : y.x.dbgctl.getLsbD 0 = true) : ∃ t, exec (.brk h n) s = .next t ∧ (y.bandIn t).halted = true ∧
      t.mem = y.s.mem ∧ ∀ l ∈ y.act, (y.laneIn t l).pc = y.inLine (.brk h n) l := by
  have e : exec (.brk h n) s = .next (if y.s.dbg y.b 0 && y.x.dbgctl.getLsbD 0 then
      (y.finish y.base (.brk h n) []).modBand y.k y.n fun x => { x with halted := true, issues := y.x.issues }
      else y.trap { cls := .brk, cause := n.toNat, lane := lowest y.act }) := runOnce_next hy hx _
  rw [if_pos (by rw [hd, hb]; rfl)] at e
  have g := y.good hy
  obtain ⟨hd, hi⟩ := y.hdr hy
  obtain ⟨hbase, hband⟩ := g.base_band
  obtain ⟨hgo, hmoved⟩ := g.goes_moved hi hbase hband rfl rfl fun k hk => State.blk_setBlk_ne _ _ hk
  obtain ⟨b, b', x, x', -, hb', -, -, -, hx', -, -⟩ := hgo.own
  have hin : y.bandIn ((y.finish y.base (.brk h n) []).modBand y.k y.n fun x =>
      { x with halted := true, issues := y.x.issues }) = { x' with halted := true, issues := y.x.issues } :=
    Iss.bandIn_eq (Iss.blk_modBand_self hb' _) (Block.band_modBand_self hx' _)
  refine ⟨_, e, by rw [hin], hmoved.mem, fun l hl => ?_⟩
  have := hmoved.goes l hl
  rw [Iss.laneIn, Iss.bandIn_eq hb' hx'] at this
  rw [Iss.laneIn, hin]
  exact this

theorem halt_spec {fail : Bool} (hy : Issues (.halt h fail) s y) (hx : y.ex ≠ []) :
    (fail = false → y.s.dbg y.b 2 = true → exec (.halt h fail) s =
      .next ((y.finish y.base (.halt h fail) []).modBand y.k y.n fun x => { x with halted := true })) ∧
    (fail = true ∨ y.s.dbg y.b 2 = false → ∃ rec, exec (.halt h fail) s = .next (y.s.failGrid y.b.lid 4 rec)) := by
  have e : exec (.halt h fail) s = .next (if fail || !y.s.dbg y.b 2 then
      y.s.failGrid y.b.lid 4 (flogRecord 2 0 0 (y.s.lidField y.b.lid) y.b.bx y.b.by' y.b.bz y.n (y.x.tstat.toNat % 2 ^ 24)
        y.x.taddr.toNat)
      else (y.finish y.base (.halt h fail) []).modBand y.k y.n fun x => { x with halted := true }) := runOnce_next hy hx _
  refine ⟨fun hf hd => ?_, fun hfd => ⟨_, e.trans (congrArg _ (if_pos ?_))⟩⟩
  · rw [e, hf, hd]
    rfl
  · obtain hf | hd := hfd
    · rw [hf]
      rfl
    · rw [hd]
      exact Bool.or_true _

end

/-- Settles O44: each software trap by the instruction that raises it, under a debugger and without one. -/
theorem softwareTraps : Obligations.SoftwareTraps := by
  intro h s y n hx
  refine ⟨fun hy => runOnce_next hy hx _, fun hy => runOnce_next hy hx _, fun hy => ⟨fun hd => ?_, brk_halts hy hx⟩,
    fun fail hy => ?_⟩
  · refine (runOnce_next hy hx _).trans (congrArg _ (if_neg ?_))
    obtain hd | hd := hd <;> rw [hd] <;> simp
  · obtain ⟨hhalt, hfail⟩ := halt_spec hy hx
    refine ⟨fun hf hd => ⟨_, Iss.base_goes hy [], hhalt hf hd⟩, fun hfd => ?_⟩
    obtain ⟨rec, e⟩ := hfail hfd
    refine ⟨_, e, fun g hg ha => ?_⟩
    obtain ⟨-, -, hst⟩ := y.s.failGrid_leaves y.b.lid 4 rec
    rw [hst g hg, if_pos ha]

end Sys2Proof.Machine

/-! # Return from the handler -/

namespace Sys2Proof.Machine

open Sys2Proof

section

variable {h : Hdr} {s : State} {y : Iss}

/-- Preparing an issue leaves alone whether the band is halted. -/
theorem State.prepAt_halted {k n : Nat} {b : Block} {x : Band} {i : Instr} {ch : Choice}
    (e : s.prepAt k n b x h i ch = .go y) : y.x.halted = x.halted := by
  unfold State.prepAt at e
  split at e
  · cases e
  · cases e
  split at e
  · cases e
  dsimp only at e
  split at e
  case h_6 =>
    split at e
    case h_6 =>
      cases e
      rfl
    all_goals cases e
  all_goals cases e

/-- The band of an issue is not halted. -/
theorem Issues.not_halted {i : Instr} (hy : Issues i s y) : y.x.halted = false := by
  unfold Issues prep at hy
  split at hy
  next h b _ _ =>
    split at hy
    · cases hy
    next x _ =>
      split at hy
      · cases hy
      next hgo =>
        have hx : x.halted = false := (Bool.or_eq_false_iff.1 (Bool.eq_false_iff.2 hgo)).2
        split at hy
        · cases hy
        next ch hch =>
          rw [State.prepAt_halted hy]
          split <;> exact hx
  · cases hy

/-! ### Lanes and registers after `rte` (R415) -/

/-- A lane that `rte` sends on. -/
def Lane.resumed (x : Lane) (target : DWord) : Lane :=
  { x with pc := target, st := if x.st = .exited then .exited else .ready }

theorem Band.lane_rte (x : Band) (target : DWord) {l : Nat} (hl : l < x.lanes.length) :
    (x.rte target).lane l = if l ∈ lanesOf x.tmask then (x.lane l).resumed target else x.lane l := by
  have hlanes : (x.rte target).lanes = (x.modLanes (lanesOf x.tmask) fun _ l => l.resumed target).lanes := rfl
  rw [Band.lane, hlanes]
  refine (Band.lane_modLanes x (lanesOf x.tmask) (fun _ l => l.resumed target) hl).trans ?_
  simp only [List.contains_iff_mem]

theorem Band.lane_rte_out (x : Band) (target : DWord) {l : Nat} (hl : l ∉ lanesOf x.tmask) :
    (x.rte target).lane l = x.lane l := by
  have hlanes : (x.rte target).lanes = (x.modLanes (lanesOf x.tmask) fun _ l => l.resumed target).lanes := rfl
  rw [Band.lane, hlanes]
  exact Band.lane_modLanes_out x (lanesOf x.tmask) (fun _ l => l.resumed target) hl

theorem Band.regs_rte (x : Band) (target : DWord) (l : Nat) :
    ((x.rte target).lane l).vregs = (x.lane l).vregs ∧ ((x.rte target).lane l).preds = (x.lane l).preds := by
  by_cases hl : l < x.lanes.length
  · rw [x.lane_rte target hl]
    split <;> exact ⟨rfl, rfl⟩
  · have hlen : (x.rte target).lanes.length = x.lanes.length := length_modAll ..
    rw [Band.lane, Band.lane, List.getD_eq_default _ _ (by omega), List.getD_eq_default _ _ (by omega)]
    exact ⟨rfl, rfl⟩

theorem Band.inh_rte (x : Band) (target : DWord) : (x.rte target).inh = false := by
  show (x.tstat &&& ~~~((1 : Word) <<< 26)).getLsbD 26 = false
  rw [BitVec.getLsbD_and]
  simp

theorem Band.dueTrap_rte (x : Band) (target : DWord) : (x.rte target).dueTrap = x.dueTrap := rfl

/-- The state in which a band has left its handler, before a trap that is due at its halt. -/
def Iss.returned (y : Iss) (i : Instr) (target : DWord) : State :=
  (y.finish y.base i []).modBand y.k y.n fun x => x.rte target

/-- The band that has completed its `rte`, before it leaves the handler. -/
theorem Iss.returned_spec {i : Instr} (hy : Issues i s y) (target : DWord) :
    let t := y.returned i target
    t.mem = y.s.mem ∧ (y.bandIn t).inh = false ∧
      (∀ l, l < y.x.lanes.length → l < 64 → y.x.tmask.getLsbD l = true → (y.laneIn t l).pc = target ∧
        (y.laneIn t l).st = (if (y.x.lane l).st = .exited then .exited else .ready)) ∧
      (∀ l, y.x.tmask.getLsbD l = false → l ∉ y.act → y.laneIn t l = y.x.lane l) ∧
      (∀ l, (y.laneIn t l).vregs = (y.x.lane l).vregs ∧ (y.laneIn t l).preds = (y.x.lane l).preds) ∧
      (y.bandIn t).tepc = y.x.tepc ∧ (y.bandIn t).tmask = y.x.tmask ∧ (y.bandIn t).uregs = y.x.uregs := by
  intro t
  have g := y.good hy
  obtain ⟨hd, hi⟩ := y.hdr hy
  obtain ⟨hbase, hband⟩ := g.base_band
  have hgo := Iss.base_goes hy []
  obtain ⟨b, b', x, z, -, hb', -, -, -, hz, -, -⟩ := hgo.own
  have hzin : y.bandIn (y.finish y.base i []) = z := Iss.bandIn_eq hb' hz
  have hin : y.bandIn t = z.rte target := Iss.bandIn_eq (Iss.blk_modBand_self hb' _) (Block.band_modBand_self hz _)
  have hkeep := hgo.band hbase hband
  rw [hzin] at hkeep
  have htmask : z.tmask = y.x.tmask := (congrArg Band.tmask hkeep :)
  have hlen : z.lanes.length = y.x.lanes.length := by rw [← hzin, y.length_finish [] hi hbase hband]
  obtain ⟨hlane, -⟩ := hgo.bandIn hbase hband
  have hz' : ∀ l, z.lane l = if y.act.contains l then
      { y.x.lane l with pc := y.inLine i l, yieldMark := (z.lane l).yieldMark } else y.x.lane l := fun l => by
    have := hlane l
    rwa [Iss.laneIn, hzin] at this
  have hst : ∀ l, (z.lane l).st = (y.x.lane l).st := fun l => by
    rw [hz']
    split <;> rfl
  have hregs : ∀ l, (z.lane l).vregs = (y.x.lane l).vregs ∧ (z.lane l).preds = (y.x.lane l).preds := fun l => by
    rw [hz']
    split <;> exact ⟨rfl, rfl⟩
  refine ⟨?_, by rw [hin, Band.inh_rte], fun l hl h64 hm => ?_, fun l hm ha => ?_, fun l => ?_, ?_, ?_, ?_⟩
  · exact (State.modBand_mem ..).trans ((y.mem_finish ..).trans y.mem_base)
  · rw [Iss.laneIn, hin, z.lane_rte target (hlen ▸ hl), if_pos (mem_lanesOf.2 ⟨h64, htmask ▸ hm⟩), Lane.resumed, hst]
    exact ⟨rfl, rfl⟩
  · rw [Iss.laneIn, hin, z.lane_rte_out target (fun hc => by simpa [htmask, hm] using (mem_lanesOf.1 hc).2), hz',
      if_neg (by simpa using ha)]
  · obtain ⟨hv, hp⟩ := z.regs_rte target l
    rw [Iss.laneIn, hin, hv, hp]
    exact hregs l
  · rw [hin]
    exact (congrArg Band.tepc hkeep :)
  · rw [hin]
    exact htmask
  · rw [hin]
    exact (congrArg Band.uregs hkeep :)

theorem Band.complete_halted (x : Band) (b : Block) (g : Word) (i : Instr) (h : Hdr) (act ex : List Nat) (slow : Bool)
    (next : Nat → DWord) : (x.complete b g i h act ex slow next).halted =
      (x.halted || x.stepping || (g.getLsbD 1 && x.dbgctl.getLsbD 1)) := by
  cases hp : g.getLsbD 3 <;> unfold Band.complete Band.count <;> rw [hp] <;> rfl

/-- A band that does not halt at its `rte`, or has no trap due, takes none there (R404). -/
theorem Iss.returned_haltTake {i : Instr} (hy : Issues i s y) (target : DWord)
    (hn : y.x.dueTrap = none ∨ (y.x.stepping = false ∧ y.x.dbgctl.getLsbD 1 = false)) :
    (y.returned i target).haltTake y.k y.n = y.returned i target := by
  have g := y.good hy
  obtain ⟨hd, hi⟩ := y.hdr hy
  obtain ⟨hbase, hband⟩ := g.base_band
  obtain ⟨⟨-, b, hb, -, -, ⟨dg, hd', -, hz⟩, -⟩, -, -⟩ := y.finished [] hi hbase hband
  have hkeep := (Iss.base_goes hy []).band hbase hband
  rw [Iss.bandIn_eq hb hz] at hkeep
  generalize hzd : y.x.complete _ dg i hd' y.act y.ex y.slow (y.goOn i []) = z at hz hkeep
  have hdue : z.dueTrap = y.x.dueTrap := (congrArg Band.dueTrap hkeep :)
  have hhalt : y.x.stepping = false → y.x.dbgctl.getLsbD 1 = false → z.halted = false := fun hs hc => by
    rw [← hzd, Band.complete_halted, hy.not_halted, hs, hc]
    simp
  have hnot : ¬((z.rte target).halted && (z.rte target).dueTrap.isSome) = true := by
    obtain hn | ⟨hs, hc⟩ := hn
    · rw [Band.dueTrap_rte, hdue, hn]
      simp
    · rw [show (z.rte target).halted = z.halted from rfl, hhalt hs hc]
      simp
  unfold State.haltTake
  rw [Iss.returned, Iss.blk_modBand_self hb, Option.bind_some, Block.band_modBand_self hz]
  exact if_neg hnot

/-! ### Where `rte` resumes (R415) -/

/-- The target of `rte`: TEPC, or for `rte.skip` after a synchronous trap the instruction behind it. -/
def Iss.Resumes (y : Iss) (skip : Bool) (target : DWord) : Prop :=
  if skip = true ∧ y.x.tstat.getLsbD 25 = false then
    ∃ x, y.s.fetchXl y.b true y.x.tepc (lowest y.act) = .ok x ∧ isReg x.pa = false ∧
      y.s.blockLoan y.b 0 false x.pa = none ∧ (y.s.rdByte x.kid x.pa).toNat % 4 ≠ 3 ∧
      target = y.x.tepc + BitVec.ofNat 64 (8 + 4 * ((y.s.rdByte x.kid x.pa).toNat % 4))
  else target = y.x.tepc

theorem Iss.skipTarget_eq {x : Xl} (hx : y.s.fetchXl y.b true y.x.tepc (lowest y.act) = .ok x) (hr : isReg x.pa = false)
    (hl : y.s.blockLoan y.b 0 false x.pa = none) (hlen : (y.s.rdByte x.kid x.pa).toNat % 4 ≠ 3) :
    y.skipTarget =
      .bytes ((y.x.tepc + BitVec.ofNat 64 (8 + 4 * ((y.s.rdByte x.kid x.pa).toNat % 4))).setWidth 128) := by
  unfold Iss.skipTarget
  rw [hx]
  dsimp only
  rw [hr, if_neg (by decide), hl]
  exact if_neg hlen

theorem exec_rte {skip : Bool} {target : DWord} (hy : Issues (.rte h skip) s y) (hx : y.ex ≠ [])
    (ht : y.Resumes skip target) :
    exec (.rte h skip) s = .next ((y.returned (.rte h skip) target).haltTake y.k y.n) := by
  have e : exec (.rte h skip) s = if skip && !y.x.tstat.getLsbD 25 then
      match y.skipTarget with
      | .trap t => .next (y.trap t)
      | .loan i => .next (y.s.blockLanes y.k y.n y.act (.loan i y.s.time))
      | .reg pa => .refused (.deviceRegister pa)
      | .bytes w => .next (y.leave (.rte h skip) (w.setWidth 64))
      else .next (y.leave (.rte h skip) y.x.tepc) :=
    (runO_next hy _).trans (if_neg (by simpa using hx))
  unfold Iss.Resumes at ht
  split at ht
  next hs =>
    obtain ⟨x, hf, hr, hl, hlen, rfl⟩ := ht
    rw [e, if_pos (by rw [hs.1, hs.2]; rfl), Iss.skipTarget_eq hf hr hl hlen]
    dsimp only
    rw [BitVec.setWidth_setWidth_of_le _ (by decide), BitVec.setWidth_eq]
    rfl
  next hs =>
    rw [e, if_neg (by simpa using hs), ht]
    rfl

end

/-- Settles O45: the return lane by lane, and the asynchronous trap that a halting band takes first. -/
theorem handlerReturn : Obligations.HandlerReturn := by
  intro h skip s y target hy hx ht
  exact ⟨_, exec_rte hy hx ht, Iss.returned_haltTake hy target, Iss.returned_spec hy target⟩

end Sys2Proof.Machine

/-! # Control registers -/

namespace Sys2Proof.Machine

open Sys2Proof

/-! ### Writable fields (R406, R413, R427) -/

/-- The fields of DBGCTL that DBGEN opens (R427). -/
theorem getLsbD_dbgctlMask (g : Word) (j : Nat) : (dbgctlMask g).getLsbD j =
    (j == 0 && g.getLsbD 0 || j == 1 && g.getLsbD 1 || j == 2 && g.getLsbD 4) := by
  obtain hj | rfl | rfl | rfl : 3 ≤ j ∨ j = 0 ∨ j = 1 ∨ j = 2 := by omega
  · have hmask : (dbgctlMask g).toNat < 2 ^ 3 := by
      unfold dbgctlMask
      cases g.getLsbD 0 <;> cases g.getLsbD 1 <;> cases g.getLsbD 4 <;> decide
    rw [BitVec.getLsbD, Nat.testBit_lt_two_pow (lt_of_lt_of_le hmask (Nat.pow_le_pow_right (by decide) hj))]
    simp [show j ≠ 0 by omega, show j ≠ 1 by omega, show j ≠ 2 by omega]
  all_goals
    unfold dbgctlMask
    cases g.getLsbD 0 <;> cases g.getLsbD 1 <;> cases g.getLsbD 4 <;> rfl

section

variable (x : Band) (g : Word) (v : DWord)

theorem Band.csrPut_dbgctl : ∃ d, x.csrPut g 0x041 v = { x with dbgctl := d } ∧ ∀ j, d.getLsbD j =
    (v.getLsbD j && (j == 0 && g.getLsbD 0 || j == 1 && g.getLsbD 1 || j == 2 && g.getLsbD 4)) := by
  refine ⟨v.setWidth 32 &&& dbgctlMask g, rfl, fun j => ?_⟩
  rw [BitVec.getLsbD_and, getLsbD_dbgctlMask, BitVec.getLsbD_setWidth]
  by_cases hj : j < 3
  · simp [show j < 32 by omega]
  · simp [beq_false_of_ne (show j ≠ 0 by omega), beq_false_of_ne (show j ≠ 1 by omega),
      beq_false_of_ne (show j ≠ 2 by omega)]

theorem Band.csrPut_tscr {j : Nat} (hj : j < 4) :
    x.csrPut g (0x030 + j) v = { x with tscr := x.tscr.set j (v.setWidth 32) } := by
  obtain rfl | rfl | rfl | rfl : j = 0 ∨ j = 1 ∨ j = 2 ∨ j = 3 := by omega
  all_goals rfl

theorem Band.csrPut_pcnt {j : Nat} (hj : j < 4) :
    x.csrPut g (0x044 + j) v = (if g.getLsbD 3 = true then { x with pcnt := x.pcnt.set j v } else x) := by
  obtain rfl | rfl | rfl | rfl : j = 0 ∨ j = 1 ∨ j = 2 ∨ j = 3 := by omega
  all_goals rfl

/-- A write to a register that has no writable field changes nothing. -/
theorem Band.csrPut_fixed {r : Nat} (hr : r ∈ [0x010, 0x020, 0x022, 0x023, 0x024, 0x025, 0x026, 0x040]) :
    x.csrPut g r v = x := by
  simp only [List.mem_cons, List.not_mem_nil, or_false] at hr
  obtain rfl | rfl | rfl | rfl | rfl | rfl | rfl | rfl := hr <;> rfl

theorem Band.lanes_csrPut (num : Nat) : (x.csrPut g num v).lanes = x.lanes := by
  unfold Band.csrPut
  dsimp only
  repeat' split
  all_goals rfl

end

/-! ### Reads, writes and refused accesses (R412, R413) -/

section

variable {h : Hdr} {s : State} {y : Iss}

theorem csrRd_spec {o : CsrRd} : ComputesFor (.csrRd h o) s y fun _ =>
    .dst o.d (csrWide o.num) (y.s.csrVal y.b y.x o.num.toNat) := by
  intro hy
  obtain ⟨h, hi⟩ := y.hdr hy
  exact (y.good hy).writes hi (run_next hy _)

theorem csrWr_spec {o : CsrWr} (hy : Issues (.csrWr h o) s y) (hx : y.ex ≠ []) :
    Passes (.csrWr h o) s y ({ y with
      x := y.x.csrPut (((y.s.ctx y.b.asid).map Ctx.dbgen).getD 0) o.num.toNat
        ((y.env (lowest y.ex)).srcW (csrWide o.num) o.a) } : Iss).base := by
  have g := y.good hy
  obtain ⟨h, hi⟩ := y.hdr hy
  obtain ⟨x₀, hx₀, -⟩ := g.band
  generalize hz : y.x.csrPut (((y.s.ctx y.b.asid).map Ctx.dbgen).getD 0) o.num.toNat
    ((y.env (lowest y.ex)).srcW (csrWide o.num) o.a) = z
  have hlen : z.lanes.length = y.x.lanes.length := by rw [← hz, Band.lanes_csrPut]
  refine ⟨_, (run_next hy _).trans ?_, g.goes hi [] (State.blk_setBlk ..) (Block.band_setBand_self y.b z x₀ hx₀) hlen⟩
  rw [← hz]
  dsimp only
  rw [if_neg (by simpa using hx)]
  rfl

/-- An access that the mode or the register forbids is ILLOP, cause 2. -/
theorem privTrap_csr {i : Instr} {num : BitVec 12} {hd : Hdr} {write inh : Bool}
    (hi : (∃ o : CsrRd, i = .csrRd hd o ∧ o.num = num ∧ write = false) ∨
      (∃ o : CsrWr, i = .csrWr hd o ∧ o.num = num ∧ write = true))
    (hc : csrOk num.toNat inh write = false) (hp : privileged i = false) :
    privTrap i inh = some { cls := .illop, cause := 2 } ∧ i.hdr? = some hd := by
  unfold privTrap
  rw [hp, Bool.false_and, if_neg (by decide)]
  obtain ⟨o, rfl, rfl, rfl⟩ | ⟨o, rfl, rfl, rfl⟩ := hi
  all_goals
    dsimp only
    rw [hc]
    exact ⟨rfl, rfl⟩

end

/-- Settles O46: a read, a write by the register that it names, and the accesses that are refused. -/
theorem controlRegisters : Obligations.ControlRegisters := by
  intro h s y
  refine ⟨fun o => csrRd_spec, fun o hy hx => csrWr_spec hy hx, fun x g v => ⟨rfl, rfl, rfl, rfl, fun j => x.csrPut_tscr g v,
    x.csrPut_dbgctl g v, rfl, fun j => x.csrPut_pcnt g v, fun r => x.csrPut_fixed g v⟩,
    fun i num hd b x ch write hi hb hx hr hg hch hc hp => ?_⟩
  have c : Chosen s b x ch (b.setBand s.curBand (x.cleared ch)) (x.cleared ch) := ⟨hb, hx, hr, hg, hch, rfl, rfl⟩
  have hinh : (x.cleared ch).inh = x.inh := by unfold Band.cleared; split <;> rfl
  obtain ⟨htrap, hhdr⟩ := privTrap_csr hi hc hp
  refine c.exec_trap hhdr ?_
  rw [State.decodeChecks, hinh, htrap]

end Sys2Proof.Machine

/-! # A context record restored in a sampled run

The reads of a sampled run send packets to their homes (R436, R441), beside the fills of the TLBs. -/

namespace Sys2Proof.Machine

open Sys2Proof Sys2Proof.Tests

/-- The instruction of the counterexample: `ctx.rest` at the address of u4. -/
def sampledRest : Instr := .ctxRest h0 4

/-- The booted device whose block is the primary run of a sample, with the record's address in u4. -/
def inSample (s : State) : State :=
  onBlk (fun b => { b with vregs := 16, sid := some 0 }) (onBand (fun x => x.setU 4 0x10000) s)

/-- An issue of the instruction meets every condition of the obligation's clause, and its completion leaves more packets on
their way than the fills of the TLBs do. -/
def restSends (s : State) (y : Iss) : Bool :=
  match y.ctxReach .read (y.x.u64 4).toNat (y.x.ctxBytes y.b.vregs), exec sampledRest s with
  | .ok xs, .next t =>
    let rs := (xs.zip (y.x.ctxBytes y.b.vregs)).map fun q => (q.1, q.2.2.length)
    !y.ex.isEmpty && xs.all (fun q => !isReg q.x.pa) && (y.held true xs).isNone && (y.missing false rs).isEmpty &&
      (rs.all fun r => (y.poisoned false r.2 [r.1]).isNone) && t.net.length != (y.fills y.s xs).net.length
  | _, _ => false

theorem restSends_inSample : onIssue sampledRest inSample restSends = true := by decide +kernel

/-- Refutes O47: a block of a sampled run restores a context record whose bytes are its snapshot's; `ctx.rest` sends the packets
of its reads, which are not in the state that the clause names. -/
theorem not_contextAndUpkeep : ¬Obligations.ContextAndUpkeep := by
  intro h
  obtain ⟨y, hy, hs⟩ := issues_of_onIssue restSends_inSample
  unfold restSends at hs
  split at hs
  next xs t hreach hexec =>
    simp only [Bool.and_eq_true, Bool.not_eq_true', List.isEmpty_eq_false_iff, List.all_eq_true, Option.isNone_iff_eq_none,
      List.isEmpty_iff, bne_iff_ne] at hs
    obtain ⟨⟨⟨⟨⟨hx, hreg⟩, hheld⟩, hmissing⟩, hpoison⟩, hnet⟩ := hs
    obtain ⟨-, hrest, -⟩ := h h0 _ y hx
    obtain ⟨t', ht', hgo⟩ := hrest 4 xs hy hreach hreg hheld hmissing hpoison
    obtain rfl : t = t' := by
      have := hexec.symm.trans ht'
      injection this
    exact hnet (congrArg (fun s => s.net.length) hgo.shell)
  next => cases hs

end Sys2Proof.Machine

/-! # Checkpoints, links and retirement -/

namespace Sys2Proof.Machine

open Sys2Proof

/-! ### The start of an operation -/

/-- What an operation leaves that starts, or is refused, with a value of CKPCTL. -/
def State.ckpPut (s : State) (r : Bool) (tgt : DWord) (c : Word) : State :=
  { s with pf := { s.pf with ckpctl := c, ckpRestore := r, ckpTarget := tgt } }

theorem State.ckpStart_busy {s : State} (h : s.pf.ckpctl.getLsbD 2 = true) (r v : Bool) (tgt : DWord) :
    s.ckpStart r v tgt = s := if_pos h

theorem State.ckpStart_idle {s : State} (h : s.pf.ckpctl.getLsbD 2 = false) (r v : Bool) (tgt : DWord) :
    s.ckpStart r v tgt = s.ckpPut r tgt (if s.ckpQuiet = false then 0x18 else if s.root.fleetKey = none then 0x28
      else ckpWord (v && !r) (v && r) true false 0) := by
  have hb : s.pf.busy = false := h
  unfold State.ckpStart
  cases s.ckpQuiet <;> cases s.root.fleetKey <;> simp [hb, State.ckpPut] <;> rfl

/-- The start of an operation, by what it would set. -/
theorem State.ckpStart_spec {s : State} {i : Instr} {r v : Bool} {tgt : DWord} (hi : exec i s = .next (s.ckpStart r v tgt)) :
    (s.pf.ckpctl.getLsbD 2 = true → exec i s = .next s) ∧
    (s.pf.ckpctl.getLsbD 2 = false →
      (s.ckpQuiet = false → exec i s = .next (s.ckpPut r tgt 0x18)) ∧
      (s.ckpQuiet = true → s.root.fleetKey = none → exec i s = .next (s.ckpPut r tgt 0x28)) ∧
      (s.ckpQuiet = true → s.root.fleetKey ≠ none →
        exec i s = .next (s.ckpPut r tgt (ckpWord (v && !r) (v && r) true false 0)))) := by
  refine ⟨fun h => by rw [hi, State.ckpStart_busy h], fun h => ⟨fun hq => ?_, fun hq hk => ?_, fun hq hk => ?_⟩⟩ <;>
    rw [hi, State.ckpStart_idle h] <;> simp [*]

/-! ### The end of an operation -/

/-- Bytes written from a list whose addresses rise: each reads as listed, the others as before. -/
theorem mget_foldl_mset (l : Memory) {m : Memory} (hm : Memory.wf m = true) (hl : keysRise l = true) (a : Nat) :
    mget (l.foldl (fun m p => mset m p.1 p.2) m) a = (tget l a).getD (mget m a) := by
  induction l generalizing m with
  | nil => rfl
  | cons p l ih =>
    obtain ⟨hb, hr⟩ := (keysRise_cons p l).1 hl
    rw [List.foldl_cons, ih (Memory.wf_mset hm _ _) hr, mget_mset hm, tget]
    by_cases h : p.1 = a
    · rw [if_pos h, if_pos h.symm, tget_none_of_below l a (h ▸ hb)]
      rfl
    · rw [if_neg h, if_neg (Ne.symm h)]

theorem tget_filter_fst {α : Type} (t : Tbl α) (f : Nat → Bool) (k : Nat) :
    tget (t.filter fun p => f p.1) k = if f k = true then tget t k else none := by
  induction t with
  | nil => simp [tget]
  | cons p t ih =>
    obtain ⟨x, v⟩ := p
    by_cases hx : x = k
    · subst hx
      cases hf : f x <;> simp [tget, hf, ih]
    · cases hf : f x <;> simp [tget, hf, ih, hx]

theorem tget_isSome_foldl_tset {α β : Type} (l : List β) (f : β → Nat) (g : Tbl α → β → α) (t : Tbl α) (n : Nat)
    (h : (tget (l.foldl (fun t b => tset t (f b) (g t b)) t) n).isSome = true) :
    (tget t n).isSome = true ∨ ∃ b ∈ l, f b = n := by
  induction l generalizing t with
  | nil => exact .inl h
  | cons b l ih =>
    obtain h | ⟨c, hc, e⟩ := ih _ h
    · rw [tget_tset] at h
      by_cases hn : n = f b
      · exact .inr ⟨b, List.mem_cons_self, hn.symm⟩
      · rw [if_neg hn] at h
        exact .inl h
    · exact .inr ⟨c, List.mem_cons_of_mem _ hc, e⟩

theorem mem_keys_of_tget {α : Type} (t : Tbl α) (n : Nat) (h : (tget t n).isSome = true) : n ∈ t.map (·.1) := by
  induction t with
  | nil => simp [tget] at h
  | cons p t ih =>
    obtain ⟨k, v⟩ := p
    rw [tget] at h
    split at h
    · next e => exact e ▸ List.mem_cons_self
    · exact List.mem_cons_of_mem _ (ih h)

/-- The tag of a codeword that is marked poisoned. -/
def poisonTag (t : Tbl CwTag) (n : Nat) : CwTag :=
  match tget t n with
  | some g => { g with poison := true }
  | none => { poison := true }

theorem poisonTag_poison (t : Tbl CwTag) (n : Nat) : (poisonTag t n).poison = true := by
  unfold poisonTag; split <;> rfl

/-- Codewords marked one after another are all marked at the end. -/
theorem tget_foldl_poisonTag (l : List Nat) (t : Tbl CwTag) (n : Nat) (h : n ∈ l ∨ (tget t n).map CwTag.poison = some true) :
    (tget (l.foldl (fun t n => tset t n (poisonTag t n)) t) n).map CwTag.poison = some true := by
  induction l generalizing t with
  | nil => exact h.resolve_left List.not_mem_nil
  | cons x l ih =>
    refine ih _ ?_
    rw [tget_tset]
    by_cases hx : n = x
    · rw [if_pos hx]
      exact .inr (congrArg some (poisonTag_poison t x))
    · rw [if_neg hx]
      exact h.imp_left fun h => (List.mem_cons.1 h).resolve_left hx

/-- The memory of a device that took an image back whole. -/
theorem State.mget_ckpLoad {s : State} {i : SafeImage} (hs : Memory.wf s.mem = true) (hi : Memory.wf i.mem = true)
    (hd : ∀ p ∈ i.mem, isDev p.1 = true) (a : Nat) :
    mget (s.ckpLoad i false).mem a = if isDev a then mget i.mem a else mget s.mem a := by
  have hm : (s.ckpLoad i false).mem = i.mem.foldl (fun m p => mset m p.1 p.2) (s.mem.filter fun p => !isDev p.1) := by
    simp [State.ckpLoad]
  rw [hm, mget_foldl_mset _ (Memory.wf_filter hs _) ((Memory.wf_iff _).1 hi).1, mget_eq (List.filter _ _),
    tget_filter_fst s.mem (fun a => !isDev a), mget_eq i.mem, mget_eq s.mem]
  cases ha : isDev a
  · have hn : tget i.mem a = none := by
      by_contra h
      obtain ⟨p, hp, rfl⟩ := List.mem_map.1 (mem_keys_of_tget _ _ (Option.isSome_iff_ne_none.2 h))
      exact absurd (hd p hp) (by rw [ha]; exact Bool.false_ne_true)
    simp [hn]
  · simp

/-- The codewords that a failed restore left unwritten are poisoned (R498). -/
theorem State.cwPoison_ckpLoad (s : State) (i : SafeImage) {n : Nat} (hn : isDev (32 * n) = true)
    (hf : Config.freeBit (s.freeCtr + n) = true) : (s.ckpLoad i true).cwPoison n = true := by
  let bad (n : Nat) : Bool := isDev (32 * n) && !(!true || !Config.freeBit (s.freeCtr + n))
  have hbad : bad n = true := by simp [bad, hn, hf]
  let keys : List Nat := ((i.cw ++ s.cw).map (·.1)).filter bad
  let kept : Tbl CwTag := (i.cw.filter fun p => !true || !Config.freeBit (s.freeCtr + p.1)).foldl (fun t p => tset t p.1 p.2)
    (s.cw.filter fun p => !isDev (32 * p.1) || !(!true || !Config.freeBit (s.freeCtr + p.1)))
  have hcw : (s.ckpLoad i true).cw = keys.foldl (fun t n => tset t n (poisonTag t n)) kept := rfl
  unfold State.cwPoison
  split
  · next g hg =>
    have hk : n ∈ keys := by
      refine List.mem_filter.2 ⟨?_, hbad⟩
      rw [List.map_append, List.mem_append]
      rw [hcw] at hg
      obtain h | ⟨x, hx, rfl⟩ := tget_isSome_foldl_tset keys id poisonTag kept n (Option.isSome_iff_exists.2 ⟨g, hg⟩)
      · obtain h | ⟨p, hp, rfl⟩ := tget_isSome_foldl_tset _ (fun p : Nat × CwTag => p.1) (fun _ p => p.2) _ n h
        · obtain ⟨p, hp, e⟩ := List.mem_map.1 (mem_keys_of_tget _ _ h)
          exact .inr (List.mem_map.2 ⟨p, (List.mem_filter.1 hp).1, e⟩)
        · exact .inl (List.mem_map.2 ⟨p, (List.mem_filter.1 hp).1, rfl⟩)
      · exact List.mem_append.1 (List.map_append ▸ (List.mem_filter.1 hx).1)
    have := tget_foldl_poisonTag keys kept n (.inl hk)
    rw [← hcw, hg] at this
    exact Option.some.inj this
  · rw [hn]
    show (((s.freeCtr :: i.unwritten).any fun c => Config.freeBit (c + n)) = true)
    simp [hf]

/-! ### What CHECKPOINT_END does, by its error and what is in progress -/

section
variable {s : State} (h : s.pf.ckpctl.getLsbD 2 = true)
include h

theorem checkpointEnd_three : exec (.checkpointEnd 3) s = .next (s.ckpFinish 3) := by
  show execCheckpointEnd 3 s = _
  have hb : s.pf.busy = true := h
  simp [execCheckpointEnd, hb]

theorem checkpointEnd_saved (hr : s.pf.ckpRestore = false) : exec (.checkpointEnd 0) s = .next ((s.ckpSave true).ckpFinish 0) := by
  show execCheckpointEnd 0 s = _
  have hb : s.pf.busy = true := h
  simp [execCheckpointEnd, hb, hr]

theorem checkpointEnd_no_image (hr : s.pf.ckpRestore = true) (hg : s.ckpGood = none) :
    exec (.checkpointEnd 4) s = .next (s.ckpFinish 4) := by
  show execCheckpointEnd 4 s = _
  have hb : s.pf.busy = true := h
  simp [execCheckpointEnd, hb, hr, hg]

theorem checkpointEnd_restored {i : SafeImage} (hr : s.pf.ckpRestore = true) (hg : s.ckpGood = some i) :
    exec (.checkpointEnd 0) s = .next ((s.ckpLoad i false).ckpFinish 0) := by
  show execCheckpointEnd 0 s = _
  have hb : s.pf.busy = true := h
  simp [execCheckpointEnd, hb, hr, hg]

theorem checkpointEnd_broken {i : SafeImage} (hr : s.pf.ckpRestore = true) (hg : s.ckpGood = some i) :
    exec (.checkpointEnd 5) s = .next ((s.ckpLoad i true).ckpFinish 5) := by
  show execCheckpointEnd 5 s = _
  have hb : s.pf.busy = true := h
  simp [execCheckpointEnd, hb, hr, hg]

end

/-- An image without its trailer, of another capacity, or under another fleet key is not taken back. -/
theorem State.ckpGood_eq_none {s : State} {i : SafeImage} (hi : s.ckpImage = some i)
    (h : i.complete = false ∨ i.capacity ≠ 0x60_0000_0000 ∨ s.root.fleetKey ≠ some i.fleetKey) : s.ckpGood = none := by
  have hc : devCapacity = 0x60_0000_0000 := rfl
  unfold State.ckpGood
  rw [hi, Option.bind_some, hc]
  obtain h | h | h := h <;> simp [h]

/-! ### Links -/

section
variable (l : Link)

theorem Link.flit_next (seq : Nat) (good : Bool) :
    (l.flit seq good).next = if good = true ∧ seq = l.next then l.next + 1 else l.next := by
  unfold Link.flit Link.rate
  cases good <;> by_cases h : seq = l.next <;> simp [h]
  split <;> rfl

theorem Link.flit_resends (seq : Nat) (good : Bool) :
    (l.flit seq good).resends = l.resends + if good = true ∧ seq ≤ l.next then 0 else 1 := by
  unfold Link.flit Link.rate
  cases good
  · simp
  · obtain h | h | h := Nat.lt_trichotomy seq l.next
    · simp [h, Nat.le_of_lt h, Nat.ne_of_lt h]
    · simp [h]
    · simp [Nat.not_lt_of_lt h, Nat.not_le_of_lt h, Nat.ne_of_gt h]

theorem Link.flit_acked {seq : Nat} (h : seq ≤ l.next) : (l.flit seq true).acked = (l.flit seq true).next := by
  unfold Link.flit Link.rate
  obtain h | h := Nat.lt_or_eq_of_le h
  · simp [h, Nat.ne_of_lt h]
  · simp [h]

theorem Link.flit_kept (seq : Nat) (good : Bool) : (l.flit seq good).kept = l.kept := by
  unfold Link.flit Link.rate
  dsimp only
  split
  · rfl
  · split <;> rfl

theorem Link.flit_sent (seq : Nat) (good : Bool) : (l.flit seq good).sent = l.sent := by
  unfold Link.flit Link.rate
  dsimp only
  split
  · rfl
  · split <;> rfl

theorem Link.heard_resends (ack : Nat) (again : Bool) : (l.heard ack again).resends =
    l.resends + if again = true then (l.kept.filter fun f => ack ≤ f.1).length else 0 := by
  cases again <;> rfl

/-- What is kept of the flits sent: those not acknowledged, and those that are sent now. -/
theorem Link.heard_kept (ack : Nat) (again : Bool) : (l.heard ack again).kept = (l.kept.filter fun f => ack ≤ f.1) ++
    (l.queue.take (64 - (l.kept.filter fun f => ack ≤ f.1).length)).mapIdx fun i f => (l.sent + i, f) := rfl

theorem Link.sent_le_of_heard_kept {ack : Nat} {again : Bool} {f : Nat × Flit} (hf : f ∈ (l.heard ack again).kept) :
    ack ≤ f.1 ∨ l.sent ≤ f.1 := by
  rw [Link.heard_kept, List.mem_append, List.mem_mapIdx] at hf
  obtain hf | ⟨j, _, rfl⟩ := hf
  · exact .inl (of_decide_eq_true (List.mem_filter.1 hf).2)
  · exact .inr (Nat.le_add_right _ _)

/-- A link that keeps no more than 64 flits keeps no more after it sends others. -/
theorem Link.length_heard_kept {ack : Nat} {again : Bool} (h : l.kept.length ≤ 64) : (l.heard ack again).kept.length ≤ 64 := by
  have := List.length_filter_le (fun f : Nat × Flit => decide (ack ≤ f.1)) l.kept
  rw [Link.heard_kept, List.length_append, List.length_mapIdx, List.length_take]
  omega

end

/-- What a flit of a port leaves of its link. -/
def Link.received (l : Link) (seq : Nat) (rx : FlitRx) : Link :=
  if rx.good then (l.flit seq rx.good).heard rx.ack rx.again else l.flit seq rx.good

theorem solustFlit_accepted (s : State) {n : Nat} (seq : Nat) (rx : FlitRx) (hn : n < 12)
    (hr : ((tget s.ports n).getD {}).retired = false) (hf : ((tget s.ports n).getD {}).failed = false) :
    exec (.solustFlit n seq rx) s =
      .next { s with ports := tset s.ports n (((tget s.ports n).getD {}).received seq rx) } := by
  show execSolustFlit n seq rx s = _
  simp [execSolustFlit, hr, hf, Nat.not_le.2 hn, Link.received]

/-- What a received flit does to a link (R492), as the statement of O57 lists it. -/
theorem Link.received_spec (l : Link) (seq : Nat) (good : Bool) (ack : Nat) (again : Bool) :
    let l' := l.received seq ⟨good, ack, again⟩
    l'.next = (if good = true ∧ seq = l.next then l.next + 1 else l.next) ∧
    (good = true → seq ≤ l.next → l'.acked = l'.next) ∧
    l'.resends = l.resends + (if good = true ∧ seq ≤ l.next then 0 else 1) +
      (if good = true ∧ again = true then (l.kept.filter fun f => ack ≤ f.1).length else 0) ∧
    (good = false → l'.kept = l.kept) ∧
    (good = true → (∀ f ∈ l.kept, ack ≤ f.1 → f ∈ l'.kept) ∧ (∀ f ∈ l'.kept, ack ≤ f.1 ∨ l.sent ≤ f.1) ∧
      (l.kept.length ≤ 64 → l'.kept.length ≤ 64)) := by
  cases good with
  | false =>
    have e : l.received seq ⟨false, ack, again⟩ = l.flit seq false := rfl
    dsimp only
    rw [e, Link.flit_next, Link.flit_resends]
    simp [Link.flit_kept]
  | true =>
    have e : l.received seq ⟨true, ack, again⟩ = (l.flit seq true).heard ack again := rfl
    dsimp only
    rw [e]
    refine ⟨l.flit_next seq true, fun _ h => l.flit_acked h, ?_, nofun, fun _ => ⟨fun f hf ha => ?_, fun f hf => ?_, fun h => ?_⟩⟩
    · rw [Link.heard_resends, Link.flit_resends, Link.flit_kept]
      simp
    · rw [Link.heard_kept, Link.flit_kept]
      exact List.mem_append_left _ (List.mem_filter.2 ⟨hf, decide_eq_true ha⟩)
    · exact l.flit_sent seq true ▸ Link.sent_le_of_heard_kept _ hf
    · exact Link.length_heard_kept _ ((l.flit_kept seq true).symm ▸ h)

theorem dieLinkFlit_accepted (s : State) {n : Nat} (good : Bool) {l : Link} (hl : (tget s.dieLinks n).getD {} = l) (hn : n < 8)
    (hr : l.retired = false) (hf : l.failed = false) :
    exec (.dieLinkFlit n good) s = .next { s with dieLinks := tset s.dieLinks n (l.flit l.next good) } := by
  show execDieLinkFlit n good s = _
  simp [execDieLinkFlit, hl, hr, hf, Nat.not_le.2 hn]

/-! ### Failures and retirement -/

theorem State.ckpBreak_idle {s : State} (h : s.pf.ckpctl.getLsbD 2 = false) : s.ckpBreak = s := by
  have hb : s.pf.busy = false := h
  simp [State.ckpBreak, hb]

theorem State.ckpBreak_saving {s : State} (h : s.pf.ckpctl.getLsbD 2 = true) (hr : s.pf.ckpRestore = false) :
    s.ckpBreak = (s.ckpSave false).ckpFinish 5 := by
  have hb : s.pf.busy = true := h
  simp [State.ckpBreak, hb, hr]

theorem linkFailure_dieLink (s : State) {n : Nat} {l : Link} (hl : (tget s.dieLinks n).getD {} = l) (hn : n < 8)
    (hf : l.failed = false) : exec (.linkFailure (.dieLink n)) s =
      .next ({ s with dieLinks := tset s.dieLinks n { l with failed := true } } : State).ckpBreak := by
  show execLinkFailure (.dieLink n) s = _
  simp [execLinkFailure, hl, hf, Nat.not_le.2 hn]

theorem linkFailure_port (s : State) {n : Nat} {l : Link} (hl : (tget s.ports n).getD {} = l) (hn : n < 12)
    (hf : l.failed = false) : exec (.linkFailure (.port n)) s =
      .next ({ s with ports := tset s.ports n { l with failed := true } } : State).ckpBreak := by
  show execLinkFailure (.port n) s = _
  simp [execLinkFailure, hl, hf, Nat.not_le.2 hn]

theorem unitRetirement_port (s : State) {n : Nat} {l : Link} (hl : (tget s.ports n).getD {} = l) (hn : n < 12)
    (hr : l.retired = false) : exec (.unitRetirement (.port n)) s =
      .next { s with ports := tset s.ports n { l with retired := true }, pf := s.pf.dropPort n } := by
  show execUnitRetirement (.port n) s = _
  simp [execUnitRetirement, hl, hr, Nat.not_le.2 hn]

theorem unitRetirement_slice (s : State) {n : Nat} (hn : n < 160) (h : tget s.slices n ≠ some 3) :
    exec (.unitRetirement (.slice n)) s = .next { s with slices := tset s.slices n 3 } := by
  show execUnitRetirement (.slice n) s = _
  simp [execUnitRetirement, h, Nat.not_le.2 hn]

theorem unitRetirement_dieLink (s : State) {n : Nat} {l : Link} (hl : (tget s.dieLinks n).getD {} = l) (hn : n < 8)
    (hr : l.retired = false) : exec (.unitRetirement (.dieLink n)) s =
      .next { s with dieLinks := tset s.dieLinks n { l with retired := true } } := by
  show execUnitRetirement (.dieLink n) s = _
  simp [execUnitRetirement, hl, hr, Nat.not_le.2 hn]

theorem unitRetirement_hostLink (s : State) (hr : s.hostLink.retired = false) :
    exec (.unitRetirement .hostLink) s = .next { s with hostLink := { s.hostLink with retired := true } } := by
  show execUnitRetirement .hostLink s = _
  simp [execUnitRetirement, hr]

/-- Codewords that are marked one after another, in their stacks. -/
theorem State.cwPoison_foldl_poisonCw (l : List Nat) (s : State) (n : Nat) (h : n ∈ l ∨ s.cwPoison n = true) :
    (l.foldl State.poisonCw s).cwPoison n = true := by
  induction l generalizing s with
  | nil => exact h.resolve_left List.not_mem_nil
  | cons x l ih =>
    refine ih _ ?_
    by_cases hx : n = x
    · subst hx
      exact .inr (by simp [State.cwPoison, State.poisonCw])
    · refine h.imp (fun h => (List.mem_cons.1 h).resolve_left hx) fun h => ?_
      simpa [State.cwPoison, State.poisonCw, tget_tset_ne _ _ hx] using h

/-- Marking codewords changes the tags of codewords alone. -/
theorem State.foldl_poisonCw_channels (l : List Nat) (s : State) : (l.foldl State.poisonCw s).channels = s.channels := by
  induction l generalizing s with
  | nil => rfl
  | cons x l ih => exact ih _

/-- A channel retires; where its stack has a spare, its codewords that could not be read are poisoned (R514). -/
theorem unitRetirement_channel (s : State) {n : Nat} {c : Channel} (hc : (tget s.channels n).getD {} = c) (hn : n < 128)
    (hr : c.retired = false) (he : 2 ^ 10 < (recent s.time c.lost).length) (lost : List Nat) :
    let u : State := { s with channels := tset s.channels n { c with retired := true, spared := !s.stackSpared n } }
    exec (.unitRetirement (.channel n lost)) s = .next (if (!s.stackSpared n) = true
      then (lost.filter fun w => isDev (32 * w) && channelOf (32 * w) == n).foldl State.poisonCw u else u) := by
  show execUnitRetirement (.channel n lost) s = _
  unfold execUnitRetirement
  dsimp only
  rw [hc, if_neg (by simpa [hr, Nat.not_le.2 hn] using he)]

/-- Settles O57: an operation starts by what is in progress, quiet and held; a restore writes back the device's bytes from
the image, and what it left is poisoned; a link's flits, failures and retirement by unit. -/
theorem checkpointsAndLinks : Obligations.CheckpointsAndLinks := by
  unfold Obligations.CheckpointsAndLinks
  intro s
  refine ⟨?start, fun h => ⟨checkpointEnd_three h, fun hr => ?saved, fun i hi hbad => State.ckpGood_eq_none hi hbad,
    fun i hr hg => ⟨_, checkpointEnd_broken h hr hg, rfl, fun n => State.cwPoison_ckpLoad s i⟩,
    fun hr hg => checkpointEnd_no_image h hr hg,
    fun i hr hg hs hi hd => ⟨_, checkpointEnd_restored h hr hg, rfl, State.mget_ckpLoad hs hi hd, rfl, rfl, rfl, rfl, rfl⟩⟩, ?links⟩
  case start =>
    rintro i r tgt go (⟨rfl, rfl, rfl, rfl⟩ | ⟨rfl, rfl, rfl, rfl⟩ | ⟨tdev, image, rfl, rfl, rfl⟩)
    · exact State.ckpStart_spec (v := true) rfl
    · exact State.ckpStart_spec (v := true) rfl
    · cases r <;> exact State.ckpStart_spec (v := false) rfl
  case saved =>
    exact ⟨_, _, checkpointEnd_saved h hr, rfl, rfl, List.mem_cons_self, rfl, rfl, rfl, rfl, rfl, rfl, rfl, rfl⟩
  case links =>
    intro n seq good
    refine ⟨?_, ?_, ?_, ?_, fun hn h => unitRetirement_slice s hn h, fun l hl hn hr => unitRetirement_dieLink s hl hn hr,
      unitRetirement_hostLink s, ?_⟩
    · intro l hl hn hr hf
      refine ⟨_, dieLinkFlit_accepted s good hl hn hr hf, ?_, ?_⟩ <;> rintro rfl <;> simp [Link.flit_next, Link.flit_resends]
    · rintro l rfl hn hr
      refine ⟨fun hf ack again => ⟨_, solustFlit_accepted s seq ⟨good, ack, again⟩ hn hr hf, Link.received_spec _ seq good ack again⟩,
        _, unitRetirement_port s rfl hn hr, ?_, rfl, rfl⟩
      simp
    · refine fun hi l => ⟨fun hl hn hf => ?_, fun hl hn hf => ?_⟩
      · exact (linkFailure_port s hl hn hf).trans (congrArg Host.Outcome.next (State.ckpBreak_idle hi))
      · exact (linkFailure_dieLink s hl hn hf).trans (congrArg Host.Outcome.next (State.ckpBreak_idle hi))
    · intro l hl hn hf hb hr
      refine ⟨_, (linkFailure_dieLink s hl hn hf).trans (congrArg Host.Outcome.next (State.ckpBreak_saving hb hr)), rfl, ?_, _, List.mem_cons_self, rfl⟩
      show (tget (tset s.dieLinks n _) n).map Link.failed = _
      rw [tget_tset_self]
      rfl
    · intro c hc hn hr he c' lost
      refine ⟨_, unitRetirement_channel s hc hn hr he lost, ?_⟩
      by_cases hsp : c'.spared = true
      · rw [if_pos hsp]
        refine ⟨State.mem_foldl State.poisonCw (fun _ _ => rfl) _ _, ?_, fun h => absurd hsp (by rw [h]; exact Bool.false_ne_true),
          fun _ w hw hdev hch => State.cwPoison_foldl_poisonCw _ _ w (.inl (List.mem_filter.2 ⟨hw, ?_⟩))⟩
        · rw [State.foldl_poisonCw_channels]
          exact tget_tset_self _ _ _
        · simp [hdev, hch]
      · rw [if_neg hsp]
        exact ⟨rfl, tget_tset_self _ _ _, fun _ => rfl, fun h => absurd h hsp⟩

end Sys2Proof.Machine

/-! # Bytes that the device writes by itself -/

namespace Sys2Proof.Machine

open Sys2Proof

section
variable {s : State} {pa kid : Nat} {bs : List Byte}

theorem State.devicePut_in (h : isDev pa = true ∨ isHost pa = true) (bs : List Byte) (kid : Nat) :
    s.devicePut pa bs kid = (s.deviceAsk [lineOf pa]).firmWrite kid pa bs := by
  rw [State.devicePut, if_pos (by simpa using h)]
  rfl

theorem State.devicePut_out (h : ¬(isDev pa = true ∨ isHost pa = true)) (bs : List Byte) (kid : Nat) :
    s.devicePut pa bs kid = s := by
  rw [State.devicePut, if_neg (by simpa using h)]

theorem State.homeSide_devicePut (s : State) (pa : Nat) (bs : List Byte) (kid : Nat) : s.HomeSide (s.devicePut pa bs kid) := by
  by_cases h : isDev pa = true ∨ isHost pa = true
  · rw [State.devicePut_in h]
    exact (s.homeSide_deviceAsk _).trans ((State.homeSide_homeStore _ kid pa bs 0).trans (State.homeSide_maskedWrite ..))
  · rw [State.devicePut_out h]
    exact .refl s

theorem State.firm_devicePut (s : State) (pa : Nat) (bs : List Byte) (kid : Nat) : s.Firm (s.devicePut pa bs kid) := by
  by_cases h : isDev pa = true ∨ isHost pa = true
  · rw [State.devicePut_in h]
    exact (s.sealed_deviceAsk _).toFirm.trans (State.firm_firmWrite ..)
  · rw [State.devicePut_out h]
    exact .refl s

/-- The bytes written stand under their key. -/
theorem State.stands_devicePut (hw : Memory.wf s.mem = true) (h : isDev pa = true ∨ isHost pa = true)
    (hd : ∀ j, j < bs.length → s.deadAt (pa + j) = false) :
    ∀ j, j < bs.length → (s.devicePut pa bs kid).Stands kid (pa + j) (bs.getD j 0) := by
  have ha := s.sealed_deviceAsk [lineOf pa]
  rw [State.devicePut_in h]
  exact State.stands_firmWrite (ha.mem.symm ▸ hw) fun j hj => (ha.deadAt _).trans (hd j hj)

/-- What stands elsewhere under the key of a write stands after it. -/
theorem State.Stands.devicePut (hw : Memory.wf s.mem = true) {q : Nat} {v : Byte} (h : s.Stands kid q v)
    (hne : q < pa ∨ pa + bs.length ≤ q) : (s.devicePut pa bs kid).Stands kid q v := by
  by_cases hin : isDev pa = true ∨ isHost pa = true
  · have ha := s.sealed_deviceAsk [lineOf pa]
    rw [State.devicePut_in hin]
    exact (ha.stands h).firmWrite (ha.mem.symm ▸ hw) hne
  · rw [State.devicePut_out hin]
    exact h

end

/-! ### Bytes written one by one -/

theorem State.homeSide_fill (bs : List Byte) (s : State) (pa : Nat) : s.HomeSide (s.fill pa bs) := by
  induction bs generalizing s pa with
  | nil => exact .refl s
  | cons b bs ih => exact (s.homeSide_devicePut pa [b] 0).trans (ih ..)

theorem State.Stands.fill (bs : List Byte) {s : State} (hw : Memory.wf s.mem = true) {pa q : Nat} {v : Byte}
    (h : s.Stands 0 q v) (hne : q < pa) : (s.fill pa bs).Stands 0 q v := by
  induction bs generalizing s pa with
  | nil => exact h
  | cons b bs ih => exact ih (State.wf_devicePut hw ..) (h.devicePut hw (.inl hne)) (Nat.lt_succ_of_lt hne)

theorem State.stands_fill (bs : List Byte) {s : State} (hw : Memory.wf s.mem = true) {pa : Nat}
    (hin : ∀ j, j < bs.length → (isDev (pa + j) = true ∨ isHost (pa + j) = true) ∧ s.deadAt (pa + j) = false) :
    ∀ j, j < bs.length → (s.fill pa bs).Stands 0 (pa + j) (bs.getD j 0) := by
  induction bs generalizing s pa with
  | nil => exact nofun
  | cons b bs ih =>
    intro j hj
    obtain ⟨h0, hd0⟩ := hin 0 (Nat.succ_pos _)
    have hw' : Memory.wf (s.devicePut pa [b]).mem = true := State.wf_devicePut hw ..
    have hb := State.stands_devicePut (bs := [b]) (kid := 0) hw h0 (by simpa using hd0) 0 Nat.one_pos
    cases j with
    | zero => exact hb.fill bs hw' (Nat.lt_succ_self pa)
    | succ j =>
      rw [List.getD_cons_succ, show pa + (j + 1) = pa + 1 + j by omega]
      refine ih hw' (fun i hi => ?_) j (Nat.lt_of_succ_lt_succ hj)
      obtain ⟨h, hd⟩ := hin (i + 1) (Nat.succ_lt_succ hi)
      rw [show pa + 1 + i = pa + (i + 1) by omega, (s.firm_devicePut pa [b] 0).deadAt]
      exact ⟨h, hd⟩

end Sys2Proof.Machine

/-! # Start, reset, sessions and condition reports -/

namespace Sys2Proof.Machine

open Sys2Proof

/-! ### The thermal stop (R520) -/

theorem State.power_flog (s : State) (f : Nat) (rec : List Byte) : (s.flog f rec).power = s.power := by
  unfold State.flog
  dsimp only
  split <;> rfl

/-- A completion record changes memory and homes, not the device's power. -/
theorem State.power_writeRecord (s : State) (f asid lid : Nat) (p : Packet) (status : Nat) :
    (s.writeRecord f asid lid p status).power = s.power := by
  unfold State.writeRecord
  split
  · rfl
  split
  · exact s.power_flog ..
  · rfl
  · exact (State.clockOf_eq_iff.1 (by
      simp only [State.clockOf_maskedWrite, State.clockOf_homeStore, State.clockOf_deviceAsk])).1

/-- A report of a failure leaves blocks, samples and power. -/
theorem State.thermalFail_leaves (s : State) (g : Grid) : (s.thermalFail g).blocks = s.blocks ∧
    (s.thermalFail g).samples = s.samples ∧ (s.thermalFail g).power = s.power := by
  have h := ((s.modGrid g.lid Grid.noBars).modGrid g.lid fun g => { g with st := .complete 4 }).homeSide_writeRecord g.fn g.asid
    g.orig g.pkt 4
  exact ⟨h.blocks, h.samples, State.power_writeRecord ..⟩

theorem State.foldl_thermalFail_leaves (gs : List Grid) (s : State) : (gs.foldl State.thermalFail s).blocks = s.blocks ∧
    (gs.foldl State.thermalFail s).samples = s.samples ∧ (gs.foldl State.thermalFail s).power = s.power := by
  induction gs generalizing s with
  | nil => exact ⟨rfl, rfl, rfl⟩
  | cons g gs ih =>
    obtain ⟨hb, hs, hp⟩ := s.thermalFail_leaves g
    obtain ⟨hb', hs', hp'⟩ := ih (s.thermalFail g)
    exact ⟨hb'.trans hb, hs'.trans hs, hp'.trans hp⟩

/-- After all open samples are closed, none is open. -/
theorem State.closes_open (s : State) {i : Nat} {q : Sample}
    (h : tget (((s.samples.filter fun p => p.2.open').map (·.1)).foldl State.deaccession s).samples i = some q) :
    q.open' = false := by
  rw [(State.deaccessions_spec _ s).1] at h
  split at h
  · obtain ⟨m, _, rfl⟩ := Option.map_eq_some_iff.1 h
    exact m.open_closed
  · next hi =>
    by_contra ho
    exact hi (List.mem_map.2 ⟨(i, q), List.mem_filter.2 ⟨mem_of_tget h, by simpa using ho⟩, rfl⟩)

theorem thermalShutdown_stops {s : State} (h : s.power = .running) : ∃ t, exec .thermalShutdown s = .next t ∧
    t.power = .stopped ∧ t.blocks = [] ∧ ∀ i q, tget t.samples i = some q → q.open' = false := by
  have hexec : ∃ gs : List Grid, exec .thermalShutdown s = .next (gs.foldl State.thermalFail
      { ((s.samples.filter fun p => p.2.open').map (·.1)).foldl State.deaccession s with blocks := [], power := .stopped }) := by
    show ∃ gs : List Grid, execThermalShutdown s = _
    unfold execThermalShutdown
    rw [if_neg (by simp [h])]
    exact ⟨_, rfl⟩
  obtain ⟨gs, hexec⟩ := hexec
  obtain ⟨hb, hs, hp⟩ := State.foldl_thermalFail_leaves gs
    { ((s.samples.filter fun p => p.2.open').map (·.1)).foldl State.deaccession s with blocks := [], power := .stopped }
  refine ⟨_, hexec, hp, hb, fun i q hq => ?_⟩
  rw [hs] at hq
  exact s.closes_open hq

/-! ### Reset -/

/-- A table whose values are all changed. -/
theorem tget_map_snd {α : Type} (t : Tbl α) (g : α → α) (k : Nat) :
    tget (t.map fun p => (p.1, g p.2)) k = (tget t k).map g :=
  tget_map t (f := fun p => (p.1, g p.2)) (fun _ => rfl) k

/-- What a reset leaves of each core. -/
theorem core_deviceReset {s t : State} (h : t.cores = s.cores.map fun p => (p.1, p.2.afterReset)) (c : Nat) :
    (t.core c).retired = (s.core c).retired ∧ (t.core c).l1 = [] ∧ (t.core c).fenced = false := by
  rw [State.core, h, tget_map_snd s.cores Core.afterReset, State.core]
  cases tget s.cores c <;> exact ⟨rfl, rfl, rfl⟩

theorem deviceReset_leaves (s : State) : ∃ t, exec .deviceReset s = .next t ∧ t.power = .heldReset ∧ t.mem = s.mem ∧
    t.cw = s.cw ∧ t.blocks = [] ∧ t.grids = [] ∧ t.ctxs = [] ∧ t.fns = [] ∧ t.pf = {} ∧ t.root.fleetKey = s.root.fleetKey ∧
    t.root.session = none ∧ t.safeTier = s.safeTier ∧ t.wear = s.wear ∧ t.images = s.images ∧ t.unwritten = s.unwritten ∧
    ∀ c, (t.core c).retired = (s.core c).retired ∧ (t.core c).l1 = [] ∧ (t.core c).fenced = false :=
  ⟨_, rfl, rfl, rfl, rfl, rfl, rfl, rfl, rfl, rfl, rfl, rfl, rfl, rfl, rfl, rfl, core_deviceReset rfl⟩

/-! ### An interface that leaves its lock (R504) -/

/-- A queue that is disabled with its interface. -/
def Queue.cut (q : Queue) : Queue := if q.en then { q with lqctl := q.lqctl &&& ~~~(1 : Word) } else q

theorem Queue.cut_en (q : Queue) : q.cut.en = false := by
  unfold Queue.cut
  split
  · simp [Queue.en]
  · next h => simpa using h

/-- A function whose interface has gone to a state: no policy, no policy key, and its queues disabled. -/
def Fn.unlocked (x : Fn) (st : Tdisp) : Fn :=
  { x with tdisp := st, policyKey := none, policy := 0, queues := x.queues.map fun q => (q.1, q.2.cut) }

theorem State.fn_unlock (s : State) (f : Nat) (st : Tdisp) : ∃ x : Fn, (s.unlock f st).fn f = x.unlocked st := by
  unfold State.unlock
  extract_lets lids u v
  obtain ⟨gens, next, e, _⟩ := State.foldl_newKey ((List.range 64).filter fun k =>
    ((tget v.pf.keymap f).getD 0).getLsbD k) v
  have e : v.regenKeys f = _ := e
  rw [e]
  exact ⟨u.fn f, u.fn_setFn f _⟩

theorem Fn.unlocked_queue (x : Fn) (st : Tdisp) (q : Nat) : ((x.unlocked st).queue q).en = false := by
  show ((tget (x.queues.map fun p : Nat × Queue => (p.1, p.2.cut)) q).getD {}).en = false
  rw [tget_map_snd x.queues Queue.cut]
  cases tget x.queues q with
  | none => rfl
  | some y => exact y.cut_en

/-! ### Condition reports (R517, R518) -/

theorem take_drop_middle {α : Type} (p m r : List α) : ((p ++ (m ++ r)).drop p.length).take m.length = m := by
  rw [List.drop_left, List.take_left]

theorem length_beBytes (n v : Nat) : (beBytes n v).length = n := by
  rw [beBytes, List.length_reverse, length_leBytes]

/-- A report begins with its version, its flags, the device's identity and the nonce. -/
theorem State.report_eq (s : State) (nonce : List Byte) : ∃ flags rest, s.report nonce =
    leBytes 2 1 ++ (leBytes 2 0 ++ leBytes 4 flags ++ (identityHash ++ (nonce ++ rest))) := by
  refine ⟨s.replFlags s.endOfLife, ?_⟩
  unfold State.report State.reportBody
  dsimp only
  simp only [List.append_assoc]
  exact ⟨_, rfl⟩

theorem State.report_fields (s : State) (nonce : Nat) : (s.report (leBytes 32 nonce)).take 2 = [1, 0] ∧
    ((s.report (leBytes 32 nonce)).drop 8).take 48 = identityHash ∧
    ((s.report (leBytes 32 nonce)).drop 56).take 32 = leBytes 32 nonce := by
  obtain ⟨flags, rest, e⟩ := s.report_eq (leBytes 32 nonce)
  have hid : identityHash.length = 48 := length_beBytes ..
  refine ⟨by rw [e]; exact List.take_left' (length_leBytes 2 1), ?_, ?_⟩
  · have := take_drop_middle (leBytes 2 1 ++ (leBytes 2 0 ++ leBytes 4 flags)) identityHash (leBytes 32 nonce ++ rest)
    rw [hid] at this
    rwa [e, ← List.append_assoc]
  · have := take_drop_middle (leBytes 2 1 ++ (leBytes 2 0 ++ leBytes 4 flags) ++ identityHash) (leBytes 32 nonce) rest
    rw [length_leBytes, List.length_append, hid] at this
    rwa [e, ← List.append_assoc, ← List.append_assoc]

/-- A report written to a buffer that nothing holds. -/
theorem State.fill_leaves (s : State) (a : Nat) (r : List Byte) (p : Pf) :
    let t : State := { s.fill a r with pf := p }
    t.blocks = s.blocks ∧ t.grids = s.grids ∧ (Memory.wf s.mem = true →
      (∀ j, j < r.length → (isDev (a + j) = true ∨ isHost (a + j) = true) ∧ s.deadAt (a + j) = false) → t.rd 0 a r.length = r) := by
  obtain ⟨_, hb, hg, _⟩ := State.homeSide_fill r s a
  refine ⟨hb, hg, fun hw hin => State.rd_of_stands r fun j hj => ?_⟩
  obtain ⟨hbyte, hkey⟩ := State.stands_fill r hw hin j hj
  exact ⟨hbyte, hkey⟩

/-- A report fills the buffer, or waits with its bit set while a line of it is on loan. -/
theorem condreq_fills (s : State) :
    let a := s.pf.condbuf.toNat
    let r := s.report (s.rdOwn a 32)
    (s.rangeOnLoan a 1376 = false → ∃ t, exec .condreq s = .next t ∧ t.pf.condreq = false ∧
      t.blocks = s.blocks ∧ t.grids = s.grids ∧ (Memory.wf s.mem = true →
      (∀ j, j < r.length → (isDev (a + j) = true ∨ isHost (a + j) = true) ∧ s.deadAt (a + j) = false) → t.rd 0 a r.length = r)) ∧
    (s.rangeOnLoan a 1376 = true → s.pf.condreq = false → ∃ t, exec .condreq s = .next t ∧ t.pf.condreq = true ∧
      t.mem = s.mem) := by
  intro a r
  have hexec : exec .condreq s = execCondreq s := rfl
  have hr : s.report (s.rdOwn s.pf.condbuf.toNat 32) = r := rfl
  rw [hexec, execCondreq, hr]
  clear_value r
  refine ⟨fun h => ?_, fun h hc => ?_⟩
  · have hn : s.rangeLoan s.pf.condbuf.toNat 1376 = none := by
      simpa [State.rangeOnLoan] using h
    rw [hn]
    exact ⟨_, rfl, rfl, s.fill_leaves a r _⟩
  · obtain ⟨i, hi⟩ := Option.isSome_iff_exists.1 h
    rw [hi]
    dsimp only
    rw [if_neg (by simp [hc])]
    exact ⟨_, rfl, rfl, rfl⟩

/-! ### Messages of a session -/

/-- FINISH ends the handshake of a session with its MAC, or the session. -/
theorem finish_eq {s : State} {x : Session} (h : s.root.session = some x) (mac : BitVec 384) :
    exec (.finish mac) s = .next (if x.done = false ∧ mac = Config.hmac x.secret
      then { s with root := { s.root with session := some { x with done := true }, reply := .finished } }
      else { s with root := { s.root with session := none, reply := .refused } }) := by
  show execFinish mac s = _
  unfold execFinish
  rw [h]
  dsimp only
  by_cases hm : x.done = false ∧ mac = Config.hmac x.secret
  · rw [if_pos hm, if_pos (by simp [hm.1, hm.2])]
    rfl
  · rw [if_neg hm, if_neg (by simpa using hm)]
    rfl

section
variable {s : State} {f : Nat}

theorem lockInterface_eq (h0 : f ≠ 0) (hf : f < numFns) (key : BitVec 768) : exec (.lockInterface f key) s =
    .next (if s.root.inSession f = true ∧ (s.fn f).tdisp = .configUnlocked
      then (s.modFn f fun x => { x with tdisp := .configLocked, policyKey := some key }).reply .accepted
      else s.reply .refused) := by
  show execLockInterface f key s = _
  rw [execLockInterface, if_neg (by simp [h0, Nat.not_le.2 hf])]
  by_cases h : s.root.inSession f = true ∧ (s.fn f).tdisp = .configUnlocked
  · rw [if_pos h, if_pos (by simp [h.1, h.2])]
  · rw [if_neg h, if_neg (by simpa using h)]

theorem interfaceRun_eq (h0 : f ≠ 0) (hf : f < numFns) : exec (.interfaceRun f) s =
    .next (if s.root.inSession f = true ∧ (s.fn f).tdisp = .configLocked
      then (s.modFn f fun x => { x with tdisp := .run }).reply .accepted else s.reply .refused) := by
  show execInterfaceRun f s = _
  rw [execInterfaceRun, if_neg (by simp [h0, Nat.not_le.2 hf])]
  by_cases h : s.root.inSession f = true ∧ (s.fn f).tdisp = .configLocked
  · rw [if_pos h, if_pos (by simp [h.1, h.2])]
  · rw [if_neg h, if_neg (by simpa using h)]

theorem interfaceUnlock_eq (h0 : f ≠ 0) (hf : f < numFns) {e : Bool}
    (h : if e = true then s.locked f = true else (s.fn f).tdisp ≠ .configUnlocked) :
    exec (.interfaceUnlock f e) s = .next (s.unlock f (if e then .error else .configUnlocked)) := by
  show execInterfaceUnlock f e s = _
  rw [execInterfaceUnlock, if_neg (by simp [h0, Nat.not_le.2 hf])]
  cases e with
  | true => rw [if_pos rfl, if_pos (by simpa using h), if_pos rfl]
  | false => rw [if_neg (by decide), if_neg (by simpa using h), if_neg (by decide)]

theorem policyDelivery_eq (rec : List Byte) : exec (.policyDelivery f rec) s =
    .next (if s.root.inSession f = true ∧ (s.fn f).policyOk f rec = true
      then (s.modFn f fun x =>
        { x with policy := BitVec.ofNat 32 (fieldAt rec 4 4), policyEpoch := fieldAt rec 0x40 8 }).reply .accepted
      else s.reply .refused) := by
  show execPolicyDelivery f rec s = _
  rw [execPolicyDelivery]
  by_cases h : s.root.inSession f = true ∧ (s.fn f).policyOk f rec = true
  · rw [if_pos h, if_pos (by simp [h.1, h.2])]
  · rw [if_neg h, if_neg (by simpa using h)]

end

theorem keyExchange_eq (s : State) {f : Nat} (hf : f < numFns) (pub : BitVec 768) : exec (.keyExchange f pub) s =
    .next (if s.root.algOk then { s with
        freeCtr := s.freeCtr + 1
        root := { s.root with
          session := some ⟨f, Config.ecdheSecret s.freeCtr pub, false⟩
          reply := .keyExchange (Config.ecdhePublic s.freeCtr) } }
      else s.reply .refused) := by
  show execKeyExchange f pub s = _
  rw [execKeyExchange, if_neg (Nat.not_le.2 hf)]
  cases s.root.algOk <;> rfl

theorem ideKm_eq (s : State) (k : Nat) (key : BitVec 256) : exec (.ideKm k key) s =
    .next (if k < 65 ∧ s.root.session.map Session.done = some true
      then { s with root := { s.root with ideKeys := tset s.root.ideKeys k key, reply := .accepted } }
      else s.reply .refused) := by
  show execIdeKm k key s = _
  rw [execIdeKm, State.answerIf]
  refine congrArg Host.Outcome.next (if_congr ?_ rfl rfl)
  cases s.root.session.map Session.done <;> simp

/-- Settles O58: start and the two stops, each SPDM request by what came before it, an interface's states, and the reports. -/
theorem startAndSessions : Obligations.StartAndSessions := by
  unfold Obligations.StartAndSessions
  intro s
  refine ⟨fun image sig h => ?load, fun h => ?up, thermalShutdown_stops, deviceReset_leaves s, rfl, rfl, rfl, rfl, rfl,
    fun nonce => ⟨_, rfl⟩, fun nonce => ⟨_, rfl⟩, fun f pub hf => keyExchange_eq s hf pub,
    fun mac => ⟨fun h => ?none, fun x h => finish_eq h mac⟩, rfl, ideKm_eq s,
    fun f => ⟨fun h key => ?fleet, fun h0 hf => ⟨lockInterface_eq h0 hf, interfaceRun_eq h0 hf, fun e h => ?unlock⟩,
      policyDelivery_eq⟩, condreq_fills s, fun nonce => ⟨_, _, rfl, rfl, rfl, s.report_fields nonce.toNat⟩, ?flit⟩
  case load =>
    show execFirmwareLoad image sig s = _
    rw [execFirmwareLoad, if_neg (by simp [h])]
    split <;> rfl
  case up =>
    show execPowerUp s = _
    rw [execPowerUp, if_neg (by simp [h])]
  case none =>
    show execFinish mac s = _
    rw [execFinish, h]
    rfl
  case fleet => exact h ▸ rfl
  case unlock =>
    obtain ⟨x, hx⟩ := s.fn_unlock f (if e then .error else .configUnlocked)
    refine ⟨_, interfaceUnlock_eq h0 hf h, ?_⟩
    rw [hx]
    exact ⟨rfl, rfl, rfl, x.unlocked_queue _⟩
  case flit =>
    rintro port nonce l rfl hp hr hf
    obtain ⟨hversion, _, hnonce⟩ := s.report_fields nonce.toNat
    refine ⟨_, ?_, hversion, hnonce⟩
    show execConditionReportFlit port nonce s = _
    simp [execConditionReportFlit, Nat.not_le.2 hp, hr, hf]

end Sys2Proof.Machine

/-! # Ranges of memory that firmware writes (R510, R512) -/

namespace Sys2Proof.Machine

open Sys2Proof

/-! ### Codewords under KEYID 0 -/

/-- On some lines every tagged codeword has the present key of KEYID 0. -/
structure State.ZeroKeyed (P : Nat → Prop) (s : State) : Prop where
  tags : ∀ n c, P (n / 4) → tget s.cw n = some c → c.kid = 0 ∧ c.gen = s.keyGen 0

namespace State.ZeroKeyed

variable {P : Nat → Prop} {s t : State}

theorem of_cw (h : s.ZeroKeyed P) (hc : t.cw = s.cw) (hr : t.root = s.root) : t.ZeroKeyed P where
  tags n c hn hg := by
    rw [State.keyGen, hr]
    exact h.tags n c hn (hc ▸ hg)

theorem foldl {α : Type} (f : State → α → State) (hf : ∀ s a, s.ZeroKeyed P → (f s a).ZeroKeyed P) (l : List α)
    (h : s.ZeroKeyed P) : (l.foldl f s).ZeroKeyed P := by
  induction l generalizing s with
  | nil => exact h
  | cons a l ih => exact ih (hf s a h)

/-- The key of an address on those lines. -/
theorem keyOf (h : s.ZeroKeyed P) {a : Nat} (ha : P (a / 32 / 4)) : s.keyOf a = 0 := by
  unfold State.keyOf
  cases hc : tget s.cw (a / 32) with
  | none => rfl
  | some c => exact (h.tags _ c ha hc).1

/-- A codeword gets a tag of KEYID 0, or lies on another line. -/
theorem tag (h : s.ZeroKeyed P) {n : Nat} {c : CwTag} (hn : P (n / 4) → c.kid = 0 ∧ c.gen = s.keyGen 0) :
    ({ s with cw := tset s.cw n c } : State).ZeroKeyed P where
  tags m d hm hd := by
    rw [show ({ s with cw := tset s.cw n c } : State).cw = tset s.cw n c from rfl, tget_tset] at hd
    split at hd
    · next e =>
      cases hd
      exact hn (e ▸ hm)
    · exact h.tags m d hm hd

theorem markWrite (h : s.ZeroKeyed P) {a : Nat} {r : StackReq} (hr : P (a / 128) → r.kid = 0) :
    (s.markWrite a r).ZeroKeyed P := by
  unfold State.markWrite
  refine List.foldlRecOn (motive := fun t : State => t.ZeroKeyed P) (List.range 2) _ h fun t ht j hj => ?_
  have hj := List.mem_range.1 hj
  dsimp only
  split
  · refine ht.tag fun hn => ?_
    dsimp only
    cases hc : tget t.cw (a / 64 * 2 + j) with
    | none =>
      have h0 := hr (by rwa [show (a / 64 * 2 + j) / 4 = a / 128 by omega] at hn)
      exact ⟨h0, congrArg t.keyGen h0⟩
    | some c => exact ht.tags _ c hn hc
  · exact ht

theorem writeUnit (h : s.ZeroKeyed P) {a kid : Nat} (hk : P (a / 128) → kid = 0) (mask : BitVec 64) (data : List Byte)
    (f : StackFor) : (s.writeUnit a kid mask data f).ZeroKeyed P :=
  (h.markWrite hk).of_cw rfl rfl

theorem maskedUnit (h : s.ZeroKeyed P) (work : StackFor) (pa : Nat) (bs : List Byte) :
    (s.maskedUnit work 0 pa bs).ZeroKeyed P := by
  unfold State.maskedUnit
  dsimp only
  split
  · exact h
  split
  · split
    · next hq =>
      refine of_cw (s := s.markWrite pa _) ?_ rfl rfl
      exact h.markWrite fun _ => hq.2.2.1
    · exact h.writeUnit (fun _ => rfl) ..
  · exact h.writeUnit (fun _ => rfl) ..

theorem maskedWrite (h : s.ZeroKeyed P) (work : StackFor) (pa : Nat) (bs : List Byte) :
    (s.maskedWrite work 0 pa bs).ZeroKeyed P := foldl _ (fun _ _ h => h.maskedUnit ..) _ h

theorem ownedBack (h : s.ZeroKeyed P) (work : StackFor) (line : Nat) (mask : BitVec 128) :
    (s.ownedBack work line mask).ZeroKeyed P := by
  unfold State.ownedBack
  split
  · exact h
  · refine foldl _ (fun t j ht => ?_) _ h
    dsimp only
    split
    · exact ht
    · exact ht.writeUnit (fun hp => ht.keyOf (by rwa [Nat.div_div_eq_div_mul])) ..

theorem recallNow (h : s.ZeroKeyed P) (line lid : Nat) : (s.recallNow line lid).ZeroKeyed P := by
  unfold State.recallNow
  extract_lets u
  have hu : u.ZeroKeyed P := by
    dsimp only [u]
    split
    · exact h.of_cw rfl rfl
    · exact h
  split
  · exact hu
  · refine of_cw (s := State.ownedBack _ _ _ _) ?_ rfl rfl
    refine ownedBack ?_ ..
    exact of_cw (s := u) hu rfl rfl

theorem underKey (h : s.ZeroKeyed P) (pa : Nat) : (s.underKey 0 pa).ZeroKeyed P := by
  unfold State.underKey
  split
  · exact h
  split
  · exact h.tag fun _ => ⟨rfl, rfl⟩
  split
  · exact h
  · exact (h.tag (c := ⟨0, s.keyGen 0, _⟩) fun _ => ⟨rfl, rfl⟩).of_cw rfl rfl

theorem pokeByte (h : s.ZeroKeyed P) (pa w a : Nat) (v : Byte) : (s.pokeByte 0 pa w a v).ZeroKeyed P := by
  unfold State.pokeByte
  split
  · exact h
  · exact (h.underKey pa).of_cw rfl rfl

theorem pokeBytes (h : s.ZeroKeyed P) (pa w a : Nat) (bs : List Byte) : (s.pokeBytes 0 pa w a bs).ZeroKeyed P := by
  induction bs generalizing s pa with
  | nil => exact h
  | cons b bs ih => exact ih (h.pokeByte ..) _

theorem poke (h : s.ZeroKeyed P) (pa w a : Nat) (bs : List Byte) : (s.poke 0 pa w a bs).ZeroKeyed P := by
  obtain ⟨fns, e⟩ := (s.pokeBytes 0 pa w a bs).noteDirty_eq 0 pa
  rw [State.poke, e]
  exact (h.pokeBytes pa w a bs).of_cw rfl rfl

theorem deviceAsk (h : s.ZeroKeyed P) (lines : List Nat) : (s.deviceAsk lines).ZeroKeyed P := by
  obtain ⟨ps, n, e⟩ := s.deviceAsk_eq lines
  rw [e]
  exact h.of_cw rfl rfl

theorem devicePut (h : s.ZeroKeyed P) (pa : Nat) (bs : List Byte) : (s.devicePut pa bs 0).ZeroKeyed P := by
  unfold State.devicePut
  split
  · exact (((h.deviceAsk _).recallNow ..).poke ..).maskedWrite ..
  · exact h

end State.ZeroKeyed

/-! ### Memory after a byte that the device writes by itself -/

section
variable {s : State} {pa q : Nat} {v : Byte}

/-- The memory after a write at a home is that after its bytes, under their key. -/
theorem State.mem_devicePut (h : isDev pa = true ∨ isHost pa = true) (bs : List Byte) (kid : Nat) : ∃ w a,
    (s.devicePut pa bs kid).mem = (((s.deviceAsk [lineOf pa]).recallNow (lineOf pa) 0).pokeBytes kid pa w a bs).mem := by
  rw [State.devicePut_in h]
  exact ⟨_, _, (State.mem_maskedWrite ..).trans (State.mem_noteDirty ..)⟩

/-- A byte of another codeword. -/
theorem State.mget_devicePut_other (hw : Memory.wf s.mem = true) (h : q / 32 ≠ pa / 32) (v : Byte) (kid : Nat) :
    mget (s.devicePut pa [v] kid).mem q = mget s.mem q := by
  by_cases hin : isDev pa = true ∨ isHost pa = true
  · obtain ⟨w, a, e⟩ := s.mem_devicePut hin [v] kid
    have hm : ((s.deviceAsk [lineOf pa]).recallNow (lineOf pa) 0).mem = s.mem :=
      (State.mem_recallNow ..).trans (State.mem_deviceAsk ..)
    rw [e, State.mget_pokeBytes [v] (hm.symm ▸ hw) (fun j hj => by
      rwa [Nat.lt_one_iff.1 hj]), hm]
  · rw [State.devicePut_out hin]

/-- A codeword under KEYID 0 keeps its bytes as it gets the key of another write under KEYID 0. -/
theorem State.ZeroKeyed.mem_underKey {P : Nat → Prop} (h : s.ZeroKeyed P) (hp : P (pa / 32 / 4)) :
    (s.underKey 0 pa).mem = s.mem := by
  unfold State.underKey
  split
  · rfl
  split
  · rfl
  · next c hc => rw [if_pos (h.tags _ c hp hc)]

/-- A byte of a line under KEYID 0 keeps its value while another is written. -/
theorem State.ZeroKeyed.mget_devicePut_ne {P : Nat → Prop} (h : s.ZeroKeyed P) (hw : Memory.wf s.mem = true) (hp : P (q / 128))
    (hne : q ≠ pa) (v : Byte) : mget (s.devicePut pa [v] 0).mem q = mget s.mem q := by
  by_cases hcw : q / 32 = pa / 32
  · by_cases hin : isDev pa = true ∨ isHost pa = true
    · obtain ⟨w, a, e⟩ := s.mem_devicePut hin [v] 0
      obtain ⟨u, hu⟩ : ∃ u, u = (s.deviceAsk [lineOf pa]).recallNow (lineOf pa) 0 := ⟨_, rfl⟩
      have hm : u.mem = s.mem := hu ▸ (State.mem_recallNow ..).trans (State.mem_deviceAsk ..)
      have hk : u.ZeroKeyed P := hu ▸ (h.deviceAsk _).recallNow ..
      rw [e, ← hu, State.pokeBytes, State.pokeBytes, State.pokeByte]
      split
      · rw [hm]
      · dsimp only
        rw [hk.mem_underKey (by rwa [← hcw, Nat.div_div_eq_div_mul]), hm, mget_mset hw, if_neg hne]
    · rw [State.devicePut_out hin]
  · exact State.mget_devicePut_other hw hcw v 0

end

/-! ### Bytes written one after another -/

/-- Writes bytes one after another at their homes, under KEYID 0. -/
def State.puts (s : State) (ws : List (Nat × Byte)) : State := ws.foldl (fun s p => s.devicePut p.1 [p.2]) s

section
variable {s : State}

theorem State.homeSide_puts (ws : List (Nat × Byte)) (s : State) : s.HomeSide (s.puts ws) :=
  .foldl _ (fun s _ => s.homeSide_devicePut ..) ws s

theorem State.wf_puts (hw : Memory.wf s.mem = true) (ws : List (Nat × Byte)) : Memory.wf (s.puts ws).mem = true :=
  State.wf_foldl _ (fun _ _ h => State.wf_devicePut h ..) ws hw

theorem State.firm_puts (ws : List (Nat × Byte)) (s : State) : s.Firm (s.puts ws) := by
  induction ws generalizing s with
  | nil => exact .refl s
  | cons p ws ih => exact (s.firm_devicePut ..).trans (ih _)

theorem State.ZeroKeyed.puts {P : Nat → Prop} (h : s.ZeroKeyed P) (ws : List (Nat × Byte)) : (s.puts ws).ZeroKeyed P :=
  .foldl _ (fun _ _ h => h.devicePut ..) ws h

/-- Bytes of codewords that none of the writes touches. -/
theorem State.mget_puts_other (ws : List (Nat × Byte)) {s : State} (hw : Memory.wf s.mem = true) {q : Nat}
    (h : ∀ p ∈ ws, q / 32 ≠ p.1 / 32) : mget (s.puts ws).mem q = mget s.mem q := by
  induction ws generalizing s with
  | nil => rfl
  | cons p ws ih =>
    exact (ih (State.wf_devicePut hw ..) fun r hr => h r (List.mem_cons_of_mem p hr)).trans
      (State.mget_devicePut_other hw (h p List.mem_cons_self) p.2 0)

/-- Bytes of lines under KEYID 0 that none of the writes names. -/
theorem State.ZeroKeyed.mget_puts_ne {P : Nat → Prop} (ws : List (Nat × Byte)) {s : State} (hk : s.ZeroKeyed P)
    (hw : Memory.wf s.mem = true) {q : Nat} (hp : P (q / 128)) (h : ∀ p ∈ ws, q ≠ p.1) :
    mget (s.puts ws).mem q = mget s.mem q := by
  induction ws generalizing s with
  | nil => rfl
  | cons p ws ih =>
    exact (ih (hk.devicePut ..) (State.wf_devicePut hw ..) fun r hr => h r (List.mem_cons_of_mem p hr)).trans
      (hk.mget_devicePut_ne hw hp (h p List.mem_cons_self) p.2)

/-- A byte that stands, or is written, stands after writes that agree on it. -/
theorem State.stands_puts (ws : List (Nat × Byte)) {s : State} (hw : Memory.wf s.mem = true) {q : Nat} {v : Byte}
    (hin : isDev q = true ∨ isHost q = true) (hd : s.deadAt q = false) (hv : ∀ p ∈ ws, p.1 = q → p.2 = v)
    (h : s.Stands 0 q v ∨ (q, v) ∈ ws) : (s.puts ws).Stands 0 q v := by
  induction ws generalizing s with
  | nil => exact h.resolve_right List.not_mem_nil
  | cons p ws ih =>
    have hput : p.1 = q → (s.devicePut p.1 [p.2] 0).Stands 0 q v := fun e => by
      have := State.stands_devicePut (bs := [p.2]) (kid := 0) hw (e.symm ▸ hin) (fun j hj => by
        rw [Nat.lt_one_iff.1 hj, Nat.add_zero, e]
        exact hd) 0 Nat.one_pos
      rw [← e, ← hv p List.mem_cons_self e]
      exact this
    refine ih (State.wf_devicePut hw ..) (((s.firm_devicePut ..).deadAt q).trans hd)
      (fun r hr => hv r (List.mem_cons_of_mem p hr)) ?_
    by_cases e : p.1 = q
    · exact .inl (hput e)
    · refine h.imp (fun h => h.devicePut hw ?_) fun h => (List.mem_cons.1 h).resolve_left fun e' => e (congrArg Prod.fst e').symm
      exact (Nat.lt_or_gt_of_ne fun e' => e e'.symm).imp_right Nat.succ_le_of_lt

end

end Sys2Proof.Machine

/-! # Snapshots of the bitmap, and images (R510, R512) -/

namespace Sys2Proof.Machine

open Sys2Proof

/-! ### A range and its bytes -/

def inBytes (a n pa : Nat) : Bool := a ≤ pa && pa < a + n

/-- A codeword's tag, under KEYID 0 where all of it lies in a range. -/
def State.retag (s : State) (a n : Nat) (p : Nat × CwTag) : Nat × CwTag :=
  if inBytes a n (32 * p.1) && inBytes a n (32 * p.1 + 31) then (p.1, { p.2 with kid := 0, gen := s.keyGen 0 }) else p

def State.retagged (s : State) (a n : Nat) : State := { s with cw := s.cw.map (s.retag a n) }

theorem State.retag_fst (s : State) (a n : Nat) (p : Nat × CwTag) : (s.retag a n p).1 = p.1 := by
  unfold State.retag
  split <;> rfl

/-- The lines that lie in a range. -/
def WholeLine (a n line : Nat) : Prop := a ≤ 128 * line ∧ 128 * line + 128 ≤ a + n

theorem State.zeroKeyed_retagged (s : State) (a n : Nat) : (s.retagged a n).ZeroKeyed (WholeLine a n) where
  tags m c hm hc := by
    obtain ⟨hlo, hhi⟩ := hm
    have hc : tget (s.cw.map (s.retag a n)) m = some c := hc
    rw [tget_map _ (s.retag_fst a n)] at hc
    obtain ⟨d, _, rfl⟩ := Option.map_eq_some_iff.1 hc
    rw [State.retag, if_pos (by simp only [inBytes, Bool.and_eq_true, decide_eq_true_eq]; omega)]
    exact ⟨rfl, rfl⟩

/-- The addresses of a range that hold a byte other than zero, and are not to get one. -/
def State.leftOver (s : State) (a n : Nat) (bs : List (Nat × Byte)) : List Nat :=
  (s.mem.filter fun p => inBytes a n p.1 && !bs.any fun b => a + b.1 == p.1).map (·.1)

theorem State.putRange_eq (s : State) (a n : Nat) (bs : List (Nat × Byte)) : s.putRange a n bs =
    ((s.retagged a n).puts ((s.leftOver a n bs).map fun q => (q, 0))).puts (bs.map fun b => (a + b.1, b.2)) := by
  rw [State.puts, List.foldl_map, State.puts, List.foldl_map]
  rfl

theorem State.mem_leftOver (s : State) (a n : Nat) (bs : List (Nat × Byte)) {q : Nat} (h : q ∈ s.leftOver a n bs) :
    a ≤ q ∧ q < a + n ∧ ∀ b ∈ bs, a + b.1 ≠ q := by
  obtain ⟨p, hp, rfl⟩ := List.mem_map.1 h
  simpa [inBytes, and_assoc] using (List.mem_filter.1 hp).2

/-- A byte of the range that is neither listed nor left over is zero already. -/
theorem State.mget_of_not_leftOver {s : State} {a n : Nat} {bs : List (Nat × Byte)} {q : Nat} (h : q ∉ s.leftOver a n bs)
    (hlo : a ≤ q) (hhi : q < a + n) (hbs : ∀ b ∈ bs, a + b.1 ≠ q) : mget s.mem q = 0 := by
  rw [mget_eq]
  cases hq : tget s.mem q with
  | none => rfl
  | some v =>
    refine absurd (List.mem_map.2 ⟨(q, v), List.mem_filter.2 ⟨mem_of_tget hq, ?_⟩, rfl⟩) h
    simpa [inBytes, hlo, hhi] using hbs

section
variable {s : State} {a n : Nat} {bs : List (Nat × Byte)}

theorem State.homeSide_putRange (s : State) (a n : Nat) (bs : List (Nat × Byte)) : s.HomeSide (s.putRange a n bs) := by
  rw [State.putRange_eq]
  exact (State.HomeSide.of_eq rfl rfl rfl rfl : s.HomeSide (s.retagged a n)).trans
    ((State.homeSide_puts _ _).trans (State.homeSide_puts _ _))

/-- Bytes of codewords outside the range and the listed bytes. -/
theorem State.mget_putRange_other (hw : Memory.wf s.mem = true) {q : Nat} (hr : ∀ p, a ≤ p → p < a + n → q / 32 ≠ p / 32)
    (hb : ∀ b ∈ bs, q / 32 ≠ (a + b.1) / 32) : mget (s.putRange a n bs).mem q = mget s.mem q := by
  have hw' : Memory.wf (s.retagged a n).mem = true := hw
  rw [State.putRange_eq, State.mget_puts_other _ (State.wf_puts hw' _) fun p hp => ?_, State.mget_puts_other _ hw' fun p hp => ?_]
  · rfl
  · obtain ⟨z, hz, rfl⟩ := List.mem_map.1 hp
    obtain ⟨hlo, hhi, _⟩ := s.mem_leftOver a n bs hz
    exact hr z hlo hhi
  · obtain ⟨b, hb', rfl⟩ := List.mem_map.1 hp
    exact hb b hb'

/-- A listed byte of a live line stands. -/
theorem State.stands_putRange (hw : Memory.wf s.mem = true) {b : Nat × Byte} (hb : b ∈ bs)
    (hin : isDev (a + b.1) = true ∨ isHost (a + b.1) = true) (hd : s.deadAt (a + b.1) = false)
    (hv : ∀ c ∈ bs, c.1 = b.1 → c.2 = b.2) : (s.putRange a n bs).Stands 0 (a + b.1) b.2 := by
  have hw' : Memory.wf (s.retagged a n).mem = true := hw
  have hf : s.Firm (s.retagged a n) := .of_eq rfl rfl rfl rfl rfl
  rw [State.putRange_eq]
  refine State.stands_puts _ (State.wf_puts hw' _) hin (((hf.trans (State.firm_puts ..)).deadAt _).trans hd) (fun p hp e => ?_)
    (.inr (List.mem_map.2 ⟨b, hb, rfl⟩))
  obtain ⟨c, hc, rfl⟩ := List.mem_map.1 hp
  exact hv c hc (Nat.add_left_cancel e)

/-- A byte of a live line in the range that is not listed is zero. -/
theorem State.mget_putRange_zero (hw : Memory.wf s.mem = true) {q : Nat} (hq : WholeLine a n (q / 128))
    (hin : isDev q = true ∨ isHost q = true) (hd : s.deadAt q = false) (hbs : ∀ b ∈ bs, a + b.1 ≠ q) :
    mget (s.putRange a n bs).mem q = 0 := by
  have hw' : Memory.wf (s.retagged a n).mem = true := hw
  have hk := s.zeroKeyed_retagged a n
  rw [State.putRange_eq, (hk.puts _).mget_puts_ne _ (State.wf_puts hw' _) hq fun p hp => ?_]
  · by_cases hz : q ∈ s.leftOver a n bs
    · refine (State.stands_puts _ hw' hin hd (fun p hp _ => ?_) (.inr (List.mem_map.2 ⟨q, hz, rfl⟩))).byte
      obtain ⟨_, _, rfl⟩ := List.mem_map.1 hp
      rfl
    · rw [hk.mget_puts_ne _ hw' hq fun p hp e => ?_]
      · obtain ⟨hlo, hhi⟩ := hq
        exact State.mget_of_not_leftOver hz (by omega) (by omega) hbs
      · obtain ⟨z, hz', rfl⟩ := List.mem_map.1 hp
        exact hz (e ▸ hz')
  · obtain ⟨b, hb, rfl⟩ := List.mem_map.1 hp
    exact (hbs b hb).symm

end

/-! ### The bitmap (R510) -/

/-- The sum of some powers of two below 2^n, bit by bit. -/
theorem sumBits_spec (f : Nat → Bool) (n : Nat) : ((List.range n).filter f).foldl (fun a i => a + 2 ^ i) 0 < 2 ^ n ∧
    ∀ i, (((List.range n).filter f).foldl (fun a i => a + 2 ^ i) 0).testBit i = (decide (i < n) && f i) := by
  induction n with
  | zero => simp
  | succ n ih =>
    obtain ⟨hlt, hbit⟩ := ih
    rw [List.range_succ, List.filter_append, List.foldl_append]
    generalize ((List.range n).filter f).foldl (fun a i => a + 2 ^ i) 0 = m at hlt hbit
    cases hf : f n with
    | false =>
      rw [List.filter_cons_of_neg (by simp [hf])]
      refine ⟨Nat.lt_trans hlt (Nat.pow_lt_pow_right (by decide) n.lt_succ_self), fun i => (hbit i).trans ?_⟩
      obtain h | rfl | h := Nat.lt_trichotomy i n
      · simp [h, Nat.lt_succ_of_lt h]
      · simp [hf]
      · simp [Nat.not_lt_of_lt h, Nat.not_lt.2 (Nat.succ_le_of_lt h)]
    | true =>
      rw [List.filter_cons_of_pos hf]
      refine ⟨by show m + 2 ^ n < 2 ^ (n + 1); omega, fun i => ?_⟩
      show (m + 2 ^ n).testBit i = _
      rw [Nat.add_comm]
      obtain h | rfl | h := Nat.lt_trichotomy i n
      · rw [Nat.testBit_two_pow_add_gt h, hbit]
        simp [h, Nat.lt_succ_of_lt h]
      · rw [Nat.testBit_two_pow_add_eq, hbit]
        simp [hf]
      · rw [Nat.testBit_lt_two_pow (Nat.lt_of_lt_of_le (show 2 ^ n + m < 2 ^ (n + 1) by omega)
          (Nat.pow_le_pow_right (by decide) h))]
        simp [Nat.not_lt.2 (Nat.succ_le_of_lt h)]

/-- The byte of the bitmap with the marks of eight granules. -/
def markByte (dirty : List Nat) (j : Nat) : Byte :=
  BitVec.ofNat 8 (((List.range 8).filter fun i => dirty.contains (8 * j + i)).foldl (fun a i => a + 2 ^ i) 0)

theorem markByte_bit (dirty : List Nat) (j : Nat) {i : Nat} (hi : i < 8) :
    (markByte dirty j).getLsbD i = true ↔ 8 * j + i ∈ dirty := by
  rw [markByte, BitVec.getLsbD_ofNat, (sumBits_spec _ 8).2]
  simp [hi]

theorem mem_bitmapBytes (dirty : List Nat) (b : Nat × Byte) :
    b ∈ bitmapBytes dirty ↔ (∃ g ∈ dirty, g / 8 = b.1) ∧ b.2 = markByte dirty b.1 := by
  obtain ⟨j, v⟩ := b
  unfold bitmapBytes
  rw [List.mem_map]
  simp only [List.mem_eraseDups, List.mem_map, Prod.mk.injEq]
  constructor
  · rintro ⟨x, hg, rfl, rfl⟩
    exact ⟨hg, rfl⟩
  · rintro ⟨hg, rfl⟩
    exact ⟨j, hg, rfl, rfl⟩

/-- The snapshot of the bitmap (R510): its bits are those of the live one, which is cleared. -/
theorem lmctlSnap_writes {s : State} {f : Nat} (hf : f < numFns)
    (hl : s.rangeOnLoan (s.fn f).lmBmp.toNat 786432 = false) (hw : Memory.wf s.mem = true)
    (ha : (s.fn f).lmBmp.toNat % 128 = 0)
    (hin : ∀ j, j < 786432 → let a := (s.fn f).lmBmp.toNat + j
      (isDev a = true ∨ isHost a = true) ∧ s.deadAt a = false) :
    ∃ t, exec (.lmctlSnap f) s = .next t ∧ (t.fn f).dirty = [] ∧ t.blocks = s.blocks ∧
      (∀ g, g < 8 * 786432 → ((mget t.mem ((s.fn f).lmBmp.toNat + g / 8)).getLsbD (g % 8) = true ↔ g ∈ (s.fn f).dirty)) ∧
      ∀ a, a < (s.fn f).lmBmp.toNat ∨ (∀ g ∈ (s.fn f).dirty, g < 8 * 786432) ∧ (s.fn f).lmBmp.toNat + 786432 ≤ a →
        mget t.mem a = mget s.mem a := by
  have hexec : exec (.lmctlSnap f) s = execLmctlSnap f s := rfl
  have hnone : s.rangeLoan (s.fn f).lmBmp.toNat 786432 = none := by simpa [State.rangeOnLoan] using hl
  rw [hexec, execLmctlSnap, if_neg (Nat.not_le.2 hf), hnone]
  refine ⟨_, rfl, congrArg Fn.dirty (State.fn_setFn ..), (s.homeSide_putRange ..).blocks, fun g hg => ?_, fun q hq => ?_⟩
  · rw [State.modFn_mem]
    obtain ⟨hdev, hd⟩ := hin (g / 8) (by omega)
    by_cases hj : ∃ g' ∈ (s.fn f).dirty, g' / 8 = g / 8
    · have hb := (mem_bitmapBytes (s.fn f).dirty (g / 8, markByte (s.fn f).dirty (g / 8))).2 ⟨hj, rfl⟩
      rw [(State.stands_putRange (n := 786432) hw hb hdev hd fun c hc e => ?_).byte, markByte_bit _ _ (Nat.mod_lt _ (by decide)),
        Nat.div_add_mod]
      exact ((mem_bitmapBytes _ c).1 hc).2.trans (congrArg _ e)
    · rw [State.mget_putRange_zero hw ?_ hdev hd fun b hb e => ?_]
      · simpa using fun h => hj ⟨g, h, rfl⟩
      · unfold WholeLine
        omega
      · exact hj (((mem_bitmapBytes _ b).1 hb).1.imp fun g' h => ⟨h.1, h.2.trans (Nat.add_left_cancel e)⟩)
  · rw [State.modFn_mem]
    refine State.mget_putRange_other hw (fun p hlo hhi => by omega) fun b hb => ?_
    obtain ⟨⟨g, hg, e⟩, _⟩ := (mem_bitmapBytes _ b).1 hb
    obtain hq | ⟨hall, hq⟩ := hq
    · omega
    · have := hall g hg
      omega

/-! ### The image (R512) -/

theorem mem_zip_range {α : Type} (l : List α) (p : Nat × α) : p ∈ (List.range l.length).zip l ↔ l[p.1]? = some p.2 := by
  obtain ⟨j, v⟩ := p
  rw [List.mem_iff_getElem?]
  constructor
  · rintro ⟨i, hi⟩
    obtain ⟨h1, h2⟩ := List.getElem?_zip_eq_some.1 hi
    obtain ⟨hi, e⟩ := List.getElem?_eq_some_iff.1 h1
    rw [List.getElem_range] at e
    subst e
    exact h2
  · intro h
    obtain ⟨hj, _⟩ := List.getElem?_eq_some_iff.1 h
    exact ⟨j, List.getElem?_zip_eq_some.2 ⟨List.getElem?_range hj, h⟩⟩

theorem mread_eq_of_getElem (bs : List Byte) {m : Memory} {a : Nat}
    (h : ∀ j (hj : j < bs.length), mget m (a + j) = bs[j]) : mread m a bs.length = bs := by
  induction bs generalizing a with
  | nil => rfl
  | cons b bs ih =>
    rw [List.length_cons, mread, ih fun j hj => ?_]
    · exact congrArg (· :: bs) (h 0 (Nat.succ_pos _))
    · have := h (j + 1) (Nat.succ_lt_succ hj)
      rwa [← Nat.add_assoc, Nat.add_right_comm] at this

/-- The bytes written to a range that they fill. -/
theorem State.mread_putRange {s : State} (hw : Memory.wf s.mem = true) {a : Nat} (bs : List Byte)
    (hin : ∀ j, j < bs.length → (isDev (a + j) = true ∨ isHost (a + j) = true) ∧ s.deadAt (a + j) = false) :
    mread (s.putRange a bs.length ((List.range bs.length).zip bs)).mem a bs.length = bs := by
  refine mread_eq_of_getElem bs fun j hj => ?_
  obtain ⟨hdev, hd⟩ := hin j hj
  have hb : (j, bs[j]) ∈ (List.range bs.length).zip bs := (mem_zip_range bs _).2 (List.getElem?_eq_getElem hj)
  refine (State.stands_putRange hw hb hdev hd fun c hc e => ?_).byte
  have := (mem_zip_range bs c).1 hc
  rw [e, List.getElem?_eq_getElem hj] at this
  exact (Option.some.inj this).symm

end Sys2Proof.Machine

/-! # The debug port (R425 to R430, R508) -/

namespace Sys2Proof.Machine

open Sys2Proof

/-! ### Commands that are refused, and those that are taken -/

section
variable {s : State} {f : Nat} {tee : Bool} {c : DWord}

theorem State.dbgRun_locked (hl : s.locked f = true) (ok : Block → Band → Bool) (act : Nat → Block → Band → State) :
    s.dbgRun ⟨f, false⟩ c ok act = .next s := State.hostAccess_locked (State.unsupported_of_locked hl rfl) _

theorem State.dbgRun_absent (h : s.unsupported ⟨f, tee⟩ = false) (ht : s.dbgTarget f c = none) (ok : Block → Band → Bool)
    (act : Nat → Block → Band → State) : s.dbgRun ⟨f, tee⟩ c ok act = .next (s.dbgDone f c true) := by
  simp only [State.dbgRun, State.hostAccess, h, Bool.false_eq_true, if_false, ht]

theorem State.dbgRun_found (h : s.unsupported ⟨f, tee⟩ = false) {k : Nat} {b : Block} {x : Band}
    (ht : s.dbgTarget f c = some (k, b, x)) (ok : Block → Band → Bool) (act : Nat → Block → Band → State) :
    s.dbgRun ⟨f, tee⟩ c ok act = .next (if ok b x then act k b x else s.dbgDone f c true) := by
  simp only [State.dbgRun, State.hostAccess, h, Bool.false_eq_true, if_false, ht]

end

/-! ### Each command, by its operation -/

section
variable {s : State} {a : Via} {c : DWord} (hf : a.fn < numFns)
include hf

theorem debugHalt_eq (hop : dbgOp c = 0 ∨ 5 ≤ dbgOp c) : exec (.debugHalt a c) s =
    s.dbgRun a c (fun b _ => dbgOp c == 0 && (s.dbg b 0 || s.dbg b 2)) fun k _ _ =>
      (((s.takeDue k (dbgBand c)).getD s).modBand k (dbgBand c) fun y => { y with halted := true }).dbgDone a.fn c false :=
  if_neg (by
    simp only [Bool.or_eq_true, decide_eq_true_eq, Bool.and_eq_true, bne_iff_ne]
    omega)

theorem debugResume_eq (hop : dbgOp c = 1) : exec (.debugResume a c) s =
    s.dbgRun a c (fun b _ => s.dbg b 0 || s.dbg b 2) fun k _ x =>
      (s.unhalt k (dbgBand c) x false).dbgDone a.fn c false := if_neg (by simp [hop, hf])

theorem debugStep_eq (hop : dbgOp c = 2) : exec (.debugStep a c) s =
    s.dbgRun a c (fun b _ => s.dbg b 1) fun k _ x => (s.unhalt k (dbgBand c) x true).dbgDone a.fn c false :=
  if_neg (by simp [hop, hf])

theorem debugWriteRegister_eq (hop : dbgOp c = 4) : exec (.debugWriteRegister a c) s =
    s.dbgRun a c (fun b x => s.dbg b 2 && x.halted && dbgNames b x c) fun k b _ =>
      (s.modBand k (dbgBand c) fun y => y.dbgWrite (((s.ctx b.asid).map Ctx.dbgen).getD 0) c (s.fn a.fn).dbgDat).dbgDone
        a.fn c false := if_neg (by simp [hop, hf])

/-- A read of a register that does not wait for the band's tokens. -/
theorem debugReadRegister_eq (hop : dbgOp c = 3)
    (hw : s.unsupported a = true ∨ ∀ k b x, s.dbgTarget a.fn c = some (k, b, x) → x.tokens = 0) :
    exec (.debugReadRegister a c) s =
      s.dbgRun a c (fun b x => s.dbg b 2 && x.halted && dbgNames b x c) fun _ b x =>
        s.dbgDone a.fn c false (some (s.dbgRead b x c)) := by
  refine if_neg ?_
  obtain h | h := hw
  · simp [hop, hf, h]
  · cases ht : s.dbgTarget a.fn c with
    | none => simp [hop, hf]
    | some p =>
      obtain ⟨k, b, x⟩ := p
      simp [hop, hf, h k b x ht]

end

/-! ### What a command does to its band -/

section
variable {s : State} {f k n : Nat} {c : DWord}

theorem State.band_dbgDone {b : Block} {y : Band} (hb : s.blk k = some b) (hy : b.band n = some y) (g : Band → Band)
    (err : Bool) (dat : Option DWord) :
    (((s.modBand k n g).dbgDone f c err dat).blk k).bind (fun b => b.band n) = some (g y) := by
  show ((s.modBand k n g).blk k).bind (fun b => b.band n) = _
  rw [State.blk_modBand, hb, Option.map_some, Option.bind_some, Block.band_modBand, if_pos rfl, hy, Option.map_some]

theorem State.unhalt_plain {x : Band} (hx : x.resumeTrap = none) (step : Bool) : s.unhalt k n x step =
    s.modBand k n fun y => { y with halted := false, stepping := step, resumeTrap := none } := by
  rw [State.unhalt, hx]

theorem State.unhalt_enters {x : Band} {h : HaltTrap} (hx : x.resumeTrap = some h) (step : Bool) : s.unhalt k n x step =
    (s.modBand k n fun y => { y with halted := false, stepping := step, resumeTrap := none }).enterHandler k n h.trap h.async
      h.ovf h.pc h.act := by
  rw [State.unhalt, hx]

end

theorem modAll_single {α : Type} (l : List α) (i : Nat) (f : α → α) : modAll l [i] (fun _ => f) = modAt l i f := by
  induction l generalizing i with
  | nil => rfl
  | cons a l ih =>
    rw [modAll, List.mapIdx_cons]
    cases i with
    | zero => exact congrArg (f a :: ·) (List.ext_getElem? fun j => by simp)
    | succ i =>
      rw [modAt, ← ih i, modAll]
      simp

/-- The band after a write of a register, by the class of the register. -/
theorem Band.dbgWrite_eq (y : Band) (dbgen : Word) (c v : DWord) : y.dbgWrite dbgen c v = match dbgClass c with
    | 0 => { y with
        lanes := modAt y.lanes (dbgLane c) fun l => l.setV (dbgReg c) (v.setWidth 32)
        latch := y.latch.filter fun q => q.1 != dbgReg c }
    | 1 => y.setU (dbgReg c) (v.setWidth 32)
    | 2 => { y with lanes := modAt y.lanes (dbgLane c) fun l => { l with preds := v.setWidth 7 } }
    | _ => y.csrPut dbgen (dbgReg c) v := by
  unfold Band.dbgWrite
  generalize dbgClass c = d
  match d with
  | 0 =>
    have hreg : ∀ r n : Nat, (!(List.contains [r] n)) = (n != r) := fun r n => by
      rw [List.contains_cons, List.contains_nil, Bool.or_false, bne]
    simp only [Band.modLanes, modAll_single, Band.unlatch, hreg]
  | 1 => rfl
  | 2 => simp only [Band.modLanes, modAll_single]
  | _ + 3 => rfl

end Sys2Proof.Machine

/-! # Live migration (R509 to R512) and the debug port -/

namespace Sys2Proof.Machine

open Sys2Proof

theorem State.fn_modFn (s : State) (f : Nat) (g : Fn → Fn) : (s.modFn f g).fn f = g (s.fn f) := s.fn_setFn f _

/-! ### Quiesce (R511) -/

/-- From the write of QUIESCE no unplaced block of the function comes first (R511, R525). -/
theorem State.firstGrid_pending {s : State} {g : Grid} (h : s.firstGrid = some g) : s.pending g = true := by
  have hfold : ∀ (gs : List Grid) (m : Option Grid), (∀ g, m = some g → s.pending g = true) →
      (∀ g ∈ gs, s.pending g = true) → ∀ g, gs.foldl (fun m g => match m with
        | none => some g
        | some h => if h.pkt.prio < g.pkt.prio then some g else some h) m = some g → s.pending g = true := by
    intro gs
    induction gs with
    | nil => exact fun m hm _ => hm
    | cons x gs ih =>
      refine fun m hm hgs => ih _ (fun g hg => ?_) fun g hg => hgs g (List.mem_cons_of_mem x hg)
      have hx := hgs x List.mem_cons_self
      cases m with
      | none => exact Option.some.inj hg ▸ hx
      | some y =>
        dsimp only at hg
        split at hg
        · exact Option.some.inj hg ▸ hx
        · exact hm g hg
  exact hfold _ none nofun (fun g hg => (List.mem_filter.1 hg).2) g h

theorem State.firstItem_block {s : State} {g : Grid} (h : s.firstItem = some (.block g)) :
    s.firstGrid = some g ∧ s.preempted g.lid = [] ∧ s.runsDue g.lid = [] := by
  unfold State.firstItem at h
  split at h
  · cases h
  · cases h
  · split at h
    · cases h
    · cases h
    · cases h
    · cases h
      exact ⟨by assumption, by assumption, by assumption⟩

theorem State.firstItem_quiesced {s : State} {f : Nat} (h : (s.fn f).lmQuiesce = true) {g : Grid} (hg : g.fn = f) :
    s.firstItem ≠ some (.block g) := fun e => by
  obtain ⟨hfirst, hp, hr⟩ := State.firstItem_block e
  have := State.firstGrid_pending hfirst
  rw [State.pending, hp, hr, hg, h] at this
  simp at this

/-- The function's running blocks stop, where none of their bands has a trap to take first. -/
theorem lmctlQuiesce_stops {s : State} {f : Nat} (hf : f < numFns) (hq : (s.fn f).lmQuiesce = true)
    (hs : (s.fn f).lmStopped = false) (hl : s.loansFinal f = true)
    (hdue : ∀ p ∈ s.blocks, ∀ x ∈ p.2.bands, x.dueTrap = none) :
    ∃ t, exec (.lmctlQuiesce f) s = .next t ∧ t.mem = s.mem ∧ (t.fn f).lmStopped = true ∧
      ∀ k b, s.blk k = some b → b.fn = f → b.st = .running → ∃ b', t.blk k = some b' ∧ b'.waits = true := by
  have hexec : exec (.lmctlQuiesce f) s = execLmctlQuiesce f s := rfl
  rw [hexec, execLmctlQuiesce, if_neg (Nat.not_le.2 hf), if_neg (by simp [hq]), if_neg (by simp [hs, hl])]
  refine ⟨_, rfl, ?_, by rw [State.fn_modFn], fun k b hb hbf hr => ?_⟩
  · rw [State.modFn_mem]
    exact State.mem_foldl _ (fun _ _ => State.mem_stopBlock ..) _ _
  · obtain ⟨b', hb', hpre⟩ := ((State.stopBlocks_of_undue ((s.blocks.filter fun p => p.2.fn == f && p.2.st == .running).map (·.1))
      (s := s) fun k _ b hb _ => hdue (k, b) (mem_of_tget hb)).2.2 k b hb).2
        (List.mem_map.2 ⟨(k, b), List.mem_filter.2 ⟨mem_of_tget hb, by simp [hbf, hr]⟩, rfl⟩) hr
    exact ⟨b', hb', hpre.waits⟩

/-- The image is written and QDONE set (R511, R512). -/
theorem quiesceDone_writes {s : State} {f : Nat} :
    let img := Config.imageBytes s.freeCtr
    let at' := (s.fn f).lmImg.toNat
    (s.fn f).lmStopped = true → (s.fn f).lmQdone = false → s.quiet f = true →
    (∀ p ∈ s.blocks, p.2.fn = f → s.saveDue p.2 = false) → s.rangeOnLoan at' img.length = false → Memory.wf s.mem = true →
    at' % 128 = 0 → (∀ j, j < img.length → (isDev (at' + j) = true ∨ isHost (at' + j) = true) ∧ s.deadAt (at' + j) = false) →
    ∃ t, exec (.quiesceDone f) s = .next t ∧ (t.fn f).lmQdone = true ∧ t.images = (img, s.image f) :: s.images ∧
      t.blocks = s.blocks ∧ mread t.mem at' img.length = img ∧ ∀ r ∈ (t.fn f).pageReqs, r.copy = none := by
  intro img at' hstop hdone hquiet hsave hloan hw _ hin
  have hexec : exec (.quiesceDone f) s = execQuiesceDone f s := rfl
  have hnone : s.rangeLoan (s.fn f).lmImg.toNat (Config.imageBytes s.freeCtr).length = none := by
    simpa [State.rangeOnLoan] using hloan
  have hdue : ¬(s.blocks.any (fun p => p.2.fn == f && s.saveDue p.2) = true) := by
    rw [List.any_eq_true]
    rintro ⟨p, hp, hd⟩
    rw [Bool.and_eq_true, beq_iff_eq] at hd
    exact absurd hd.2 (by rw [hsave p hp hd.1]; decide)
  rw [hexec, execQuiesceDone, if_neg (by simpa [hstop, hdone, hquiet] using hdue), hnone]
  refine ⟨_, rfl, by rw [State.fn_modFn], rfl, (s.homeSide_putRange ..).blocks, State.mread_putRange hw img hin, fun r hr => ?_⟩
  rw [State.fn_modFn] at hr
  exact Option.isNone_iff_eq_none.1 (List.mem_filter.1 hr).2

/-! ### Resume (R512) -/

theorem lmctlResume_next {s : State} {f : Nat} {i : LmImage} (h : s.imageAt f = some i) :
    ∃ t, exec (.lmctlResume f) s = .next t := by
  have hexec : exec (.lmctlResume f) s = execLmctlResume f s := rfl
  rw [hexec, execLmctlResume, h]
  exact ⟨_, rfl⟩

/-- An image without grids, blocks and contexts gives back its queues. -/
theorem lmctlResume_empty {s : State} {f : Nat} {i : LmImage} (h : s.imageAt f = some i) (hg : i.grids = []) (hb : i.blocks = [])
    (hc : i.ctxs = []) : ∃ t, exec (.lmctlResume f) s = .next t ∧ t.mem = s.mem ∧ (t.fn f).lmQuiesce = false ∧
      (t.fn f).lmQdone = false ∧
      (t.fn f).queues = i.queues.map (fun q => (q.1, { q.2 with lqctx := ((s.fn f).queue q.1).lqctx })) ∧
      (∀ p ∈ t.blocks, p.2.fn ≠ f) ∧ ∀ p ∈ s.blocks, p.2.fn ≠ f → p ∈ t.blocks := by
  have hexec : exec (.lmctlResume f) s = execLmctlResume f s := rfl
  rw [hexec, execLmctlResume, h]
  dsimp only
  rw [hc, hg, hb]
  dsimp only [State.restoreCtxs, State.restoreGrids, State.restoreBlocks]
  refine ⟨_, rfl, rfl, by rw [State.fn_modFn], by rw [State.fn_modFn], by rw [State.fn_modFn]; rfl, fun p hp => ?_,
    fun p hp hne => List.mem_filter.2 ⟨hp, by simpa using hne⟩⟩
  simpa using (List.mem_filter.1 hp).2

/-! ### Commands of the debug port, by their target -/

section
variable {s : State} {f : Nat} {tee : Bool} {c : DWord} (hf : f < numFns)
include hf

/-- A locked interface takes no command without the T bit. -/
theorem debug_locked (hl : s.locked f = true) : let a : Via := ⟨f, false⟩
    (dbgOp c = 0 ∨ 5 ≤ dbgOp c → exec (.debugHalt a c) s = .next s) ∧ (dbgOp c = 1 → exec (.debugResume a c) s = .next s) ∧
    (dbgOp c = 2 → exec (.debugStep a c) s = .next s) ∧ (dbgOp c = 3 → exec (.debugReadRegister a c) s = .next s) ∧
    (dbgOp c = 4 → exec (.debugWriteRegister a c) s = .next s) :=
  ⟨fun h => (debugHalt_eq hf h).trans (State.dbgRun_locked hl _ _), fun h => (debugResume_eq hf h).trans (State.dbgRun_locked hl _ _),
    fun h => (debugStep_eq hf h).trans (State.dbgRun_locked hl _ _),
    fun h => (debugReadRegister_eq hf h (.inl (State.unsupported_of_locked hl rfl))).trans (State.dbgRun_locked hl _ _),
    fun h => (debugWriteRegister_eq hf h).trans (State.dbgRun_locked hl _ _)⟩

/-- A command that names no band is refused. -/
theorem debug_absent (hu : s.unsupported ⟨f, tee⟩ = false) (ht : s.dbgTarget f c = none) : let a : Via := ⟨f, tee⟩
    let err := s.dbgDone f c true
    (dbgOp c = 0 ∨ 5 ≤ dbgOp c → exec (.debugHalt a c) s = .next err) ∧ (dbgOp c = 1 → exec (.debugResume a c) s = .next err) ∧
    (dbgOp c = 2 → exec (.debugStep a c) s = .next err) ∧ (dbgOp c = 3 → exec (.debugReadRegister a c) s = .next err) ∧
    (dbgOp c = 4 → exec (.debugWriteRegister a c) s = .next err) :=
  ⟨fun h => (debugHalt_eq hf h).trans (State.dbgRun_absent hu ht _ _),
    fun h => (debugResume_eq hf h).trans (State.dbgRun_absent hu ht _ _),
    fun h => (debugStep_eq hf h).trans (State.dbgRun_absent hu ht _ _),
    fun h => (debugReadRegister_eq hf h (.inr fun k b x e => by rw [ht] at e; cases e)).trans (State.dbgRun_absent hu ht _ _),
    fun h => (debugWriteRegister_eq hf h).trans (State.dbgRun_absent hu ht _ _)⟩

variable (hu : s.unsupported ⟨f, tee⟩ = false) {k : Nat} {b : Block} {x : Band} (ht : s.dbgTarget f c = some (k, b, x))
include hu ht

theorem debugHalt_found (h : dbgOp c = 0) : exec (.debugHalt ⟨f, tee⟩ c) s = .next (if (s.dbg b 0 || s.dbg b 2) = true
    then (((s.takeDue k (dbgBand c)).getD s).modBand k (dbgBand c) fun y => { y with halted := true }).dbgDone f c false
    else s.dbgDone f c true) := by
  rw [debugHalt_eq hf (.inl h), State.dbgRun_found hu ht, h]
  rfl

theorem debugResume_found (h : dbgOp c = 1) : exec (.debugResume ⟨f, tee⟩ c) s = .next (if (s.dbg b 0 || s.dbg b 2) = true
    then (s.unhalt k (dbgBand c) x false).dbgDone f c false else s.dbgDone f c true) := by
  rw [debugResume_eq hf h, State.dbgRun_found hu ht]

theorem debugStep_found (h : dbgOp c = 2) (hb : s.dbg b 1 = true) : exec (.debugStep ⟨f, tee⟩ c) s =
    .next ((s.unhalt k (dbgBand c) x true).dbgDone f c false) := by
  rw [debugStep_eq hf h, State.dbgRun_found hu ht, if_pos hb]

theorem debugReadRegister_found (h : dbgOp c = 3) (hok : (s.dbg b 2 && x.halted && dbgNames b x c) = true) (htok : x.tokens = 0) :
    exec (.debugReadRegister ⟨f, tee⟩ c) s = .next (s.dbgDone f c false (some (s.dbgRead b x c))) := by
  rw [debugReadRegister_eq hf h (.inr fun k b x e => ?_), State.dbgRun_found hu ht, if_pos hok]
  rw [ht] at e
  cases e
  exact htok

theorem debugWriteRegister_found (h : dbgOp c = 4) (hok : (s.dbg b 2 && x.halted && dbgNames b x c) = true) :
    exec (.debugWriteRegister ⟨f, tee⟩ c) s = .next ((s.modBand k (dbgBand c) fun y =>
      y.dbgWrite (((s.ctx b.asid).map Ctx.dbgen).getD 0) c (s.fn f).dbgDat).dbgDone f c false) := by
  rw [debugWriteRegister_eq hf h, State.dbgRun_found hu ht, if_pos hok]

end

/-- Settles O59: the debug port's commands by their target, the bitmap byte by byte, the two phases of a quiesce, the image,
and its return. -/
theorem debugAndMigration : Obligations.DebugAndMigration := by
  unfold Obligations.DebugAndMigration
  intro s f hf
  refine ⟨fun c hl => debug_locked hf hl, fun c tee h => ?port, lmctlSnap_writes hf, fun h => ?quiesce, lmctlQuiesce_stops hf,
    quiesceDone_writes, fun h g => State.firstItem_quiesced h, fun i => lmctlResume_empty, fun i => lmctlResume_next⟩
  case quiesce =>
    show execLmctlQuiesce f s = _
    rw [execLmctlQuiesce, if_neg (Nat.not_le.2 hf), if_pos (by simp [h])]
    rfl
  case port =>
    have hu : s.unsupported ⟨f, tee⟩ = false := State.supported_of h
    refine ⟨debug_absent hf hu, fun k b x ht => ⟨fun h0 h2 => ⟨fun hop => ?_, fun hop => ?_⟩, fun u hop hb hd => ?_,
      fun hop hb hd => ?_, fun hop hb hx => ?_, fun h hx => ⟨fun hop hb => ?_, fun hop hb => ?_⟩, fun hop hb hx => ?_,
      fun hb hh hn => ⟨fun hop htok => ?_, fun hop => ?_⟩⟩⟩
    · rw [debugHalt_found hf hu ht hop, if_neg (by simp [h0, h2])]
      rfl
    · rw [debugResume_found hf hu ht hop, if_neg (by simp [h0, h2])]
      rfl
    · rw [debugHalt_found hf hu ht hop, if_pos (by simpa using hb), hd]
      rfl
    · rw [debugHalt_found hf hu ht hop, if_pos (by simpa using hb), hd]
      refine ⟨_, rfl, rfl, ?_, fun b₀ y hb₀ hy => State.band_dbgDone hb₀ hy _ _ _⟩
      rw [State.dbgDone, State.fn_modFn, State.fn_setFn]
      rfl
    · rw [debugResume_found hf hu ht hop, if_pos (by simpa using hb), State.unhalt_plain hx]
      exact ⟨_, rfl, rfl, fun b₀ y hb₀ hy => State.band_dbgDone hb₀ hy _ _ _⟩
    · rw [debugResume_found hf hu ht hop, if_pos (by simpa using hb), State.unhalt_enters hx]
    · rw [debugStep_found hf hu ht hop hb, State.unhalt_enters hx]
    · rw [debugStep_found hf hu ht hop hb, State.unhalt_plain hx]
      exact ⟨_, rfl, rfl, fun b₀ y hb₀ hy => State.band_dbgDone hb₀ hy _ _ _⟩
    · exact debugReadRegister_found hf hu ht hop (by simp [hb, hh, hn]) htok
    · refine ⟨_, debugWriteRegister_found hf hu ht hop (by simp [hb, hh, hn]), rfl, fun b₀ y hb₀ hy => ?_⟩
      exact (State.band_dbgDone hb₀ hy _ _ _).trans (congrArg some (y.dbgWrite_eq _ c _))

end Sys2Proof.Machine
